-- ==== Sys2Proof/Word.lean ====
section
/-!
DEFINITION. The byte and the plainest words of the Bamnyx T9 model (R9: every multi-byte value is little-endian).
-/
namespace Sys2Proof

/-- One byte of any memory of the module or of the host. -/
abbrev Byte := BitVec 8

end Sys2Proof
end

