-- ==== Sys2Proof/Syntax.lean ====
section
/-!
DEFINITION. The commands of the block: one constructor per row of spec/opcode_table.json, with the row's operands.
The table gives no row any bits, so every operand is named here from the rule the row cites. What the physical world
decides (a measured temperature, an upset bit, a lane that failed) is an operand of the command it happens in.
-/
namespace Sys2Proof

/-- A physical happening met while a core executes one of its commands. -/
inductive Upset where
  /-- The comparator found leader and checker to differ in the numbered field of R85's list, where the checker had `other`. -/
  | lockstep (fieldNo other : Nat)
  /-- Byte parity failed on a bus of the engine at work (R81, R149, R176): of a MATRIX, bus 0 is the weight bus, 1 the
  activation bus of the numbered array, 2 the splice engine's weight-bus feed. -/
  | busParity (bus array : Nat)
  /-- The fetched instruction word held an uncorrectable error (R190). -/
  | imemBad
  /-- A scratchpad granule of this core needed a single-bit correction (R106). -/
  | spSingle (bank row granule : Nat)
  /-- A scratchpad granule of this core needed a double-adjacent correction (R107). -/
  | spWide (bank row granule : Nat)
  /-- A scratchpad granule of this core was uncorrectable in its row's own copy (R108). -/
  | spBad (bank row granule : Nat)
  /-- A scratchpad granule of this core was uncorrectable in every copy of its row, the spare of a remap in progress too (R110). -/
  | spBothBad (bank row granule : Nat)
  /-- One further access of the command read a scratchpad row whose remap is in progress, in an A-cycle of its own (R107, R110). -/
  | spRemap (bank row : Nat)
  /-- One further access of the command read a row of the cluster's memory whose remap is in progress (R109, R110). -/
  | cmRemap (bank row : Nat)
  /-- A cluster-memory granule of this core's cluster needed a single-bit correction (R109). -/
  | cmSingle (bank row granule : Nat)
  /-- A cluster-memory granule needed a wide correction (R109). -/
  | cmWide (bank row granule : Nat)
  /-- A cluster-memory granule was uncorrectable in its row's own copy (R108, R109). -/
  | cmBad (bank row granule : Nat)
  /-- A cluster-memory granule was uncorrectable in every copy of its row (R110). -/
  | cmBothBad (bank row granule : Nat)
  /-- A statistics-memory granule was corrected by the row code (R177). -/
  | statSingle (bank row : Nat)
  /-- A statistics-memory granule of this row needed a double-adjacent correction (R110, R176). -/
  | statWide (bank row : Nat)
  /-- A statistics-memory granule of this row was uncorrectable: granule `granule` of a page that a set holds (R169, R176). -/
  | statBad (bank row set page granule : Nat)
  /-- An HBM burst read at this module address had errors at these symbol positions (R357 to R361). -/
  | hbmErr (addr : Nat) (symbols : List Nat)
  /-- The shape word of the instruction has not arrived when it is due (R200). -/
  | shapeLate
  /-- A fault of physical array `array` leaves this 32-bit code in the accumulator of a row and column (R78). -/
  | acc (row col code : Nat)
  /-- A fault leaves this code in accumulator column 128, or 129 where `second`, of a row in a 128-column stretch (R77, R81). -/
  | accCheck (row stretch : Nat) (second : Bool) (code : Nat)
  /-- The check lane's copy of the n-th converted element differs from the first copy (R476, R477). -/
  | dup (element other : Nat)
  deriving DecidableEq, Repr

/-- A flaw in the flash array that the store's own work meets later (R401, R403). -/
inductive FlashFlaw where
  /-- The next program or erase in this block of this die fails. -/
  | block (die block : Nat)
  /-- A page of a partition that its next read has to rebuild from its stripe. -/
  | page (part die block page : Nat)
  deriving DecidableEq, Repr

/-- A happening in the flash array (R401 to R403). -/
inductive FlashUpset where
  /-- A program of this block of this die failed (R403). -/
  | programFail (die block : Nat)
  /-- An erase of this block of this die failed (R403). -/
  | eraseFail (die block : Nat)
  /-- A page of a partition was rebuilt from its stripe in a read that the store made of itself (R401, R407). -/
  | pageRebuilt (part die block page : Nat)
  /-- Granules of an object could not be read in a read that the store made of itself (R402, R407). -/
  | pageLost (part id granule count dies : Nat)
  /-- The array has a flaw from now on. -/
  | flaw (f : FlashFlaw)
  /-- A page was rebuilt from its stripe (R401). -/
  | rebuilt (die block page : Nat)
  /-- Granules of the object read, from a granule number on, could not be read: the first byte's granule, how many, and the
  dies that failed (R402). -/
  | unreadable (granule count dies : Nat)
  deriving DecidableEq, Repr

/-- A unit by number, and a count that the row reports of it: cycles or microseconds of a wait, or FEC corrections. -/
structure Counted where
  unit : Nat
  count : Nat
  deriving DecidableEq, Repr

/-- A failed CRC at a hawser port (R296): of a frame that the port received, or, with the link_seq that its partner asks for, of
one that it sent. -/
structure CrcFailure where
  port : Nat
  asked : Option Nat
  deriving DecidableEq, Repr

/-- A hawser port that receives a JOIN, and whether the two ends of some bond deeper in the rope hold different committed step counts
(R318), which no frame of R295 tells. -/
structure Joining where
  port : Nat
  deeper : Bool
  deriving DecidableEq, Repr

/-- A command packet as the module fetches it from a queue: the 64-byte header, the payload, and whether the transfer
that carried it was poisoned (R420 to R423). -/
structure Packet where
  header : List Byte
  payload : List Byte
  poisoned : Bool
  deriving DecidableEq, Repr

/-- Where a management message comes from: the request buffer of a host port's mailbox as its doorbell left it (R441),
or an Ethernet frame of the field network (R436). -/
inductive MsgFrom where
  | mailbox (port : Nat)
  | frame (bytes : List Byte)
  deriving DecidableEq, Repr

/-- The stage a block's enable stopped at, or none for a pass (R87, R148, R176, R372, R515). -/
inductive EnableFail where
  | pass
  /-- The physical array of R87 and the pattern number. -/
  | array (array pattern : Nat)
  /-- The splice engine's pattern set (R148). -/
  | splice (pattern : Nat)
  /-- The row engine's pattern set (R176). -/
  | row (pattern : Nat)
  /-- The reference step's first failing tile (R486). -/
  | reference (tile : Nat)
  deriving DecidableEq, Repr

/-- A row that the march test of a core enable finds failing (R110, R113): scratchpad of the core or memory of its cluster. -/
structure MarchRow where
  cluster : Bool
  bank : Nat
  row : Nat
  deriving DecidableEq, Repr

/-- What a boot of the management domain finds (R396, R456, R462, R540): what the reads of each firmware slot meet in the flash array,
the REPAIR copies of which pages fail their check, each once for each of its latest pages that does, whether the format record can be read, and whether the security block passes its
self-test. -/
structure BootFinds where
  slots : List (Nat × List FlashUpset)
  repairBad : List Nat
  formatOk : Bool
  secOk : Bool
  deriving DecidableEq, Repr

/-- The commands, in the order of the opcode table. `g` is a global core number, `q` a queue numbered 8 × port + queue,
`j` a job context, `p` a stack or pair, `port` a host port or hawser port as the row has it. -/
inductive Instr where
  | matrix (g : Nat) (ups : List Upset)
  | gather (g : Nat) (ups : List Upset)
  | scatter (g : Nat) (ups : List Upset)
  | scatterAdd (g : Nat) (ups : List Upset)
  | expand (g : Nat) (ups : List Upset)
  | compress (g : Nat) (ups : List Upset)
  | transpose (g : Nat) (ups : List Upset)
  | layernormFwd (g : Nat) (ups : List Upset)
  | rmsnormFwd (g : Nat) (ups : List Upset)
  | softmaxFwd (g : Nat) (ups : List Upset)
  | onlineSoftmax (g : Nat) (ups : List Upset)
  | onlineFinal (g : Nat) (ups : List Upset)
  | topkRoute (g : Nat) (ups : List Upset)
  | xentFwd (g : Nat) (ups : List Upset)
  | actFwd (g : Nat) (ups : List Upset)
  | layernormBwd (g : Nat) (ups : List Upset)
  | rmsnormBwd (g : Nat) (ups : List Upset)
  | softmaxBwd (g : Nat) (ups : List Upset)
  | rowdot (g : Nat) (ups : List Upset)
  | attnBwdP (g : Nat) (ups : List Upset)
  | routeBwd (g : Nat) (ups : List Upset)
  | xentBwd (g : Nat) (ups : List Upset)
  | actBwd (g : Nat) (ups : List Upset)
  | gainGrad (g : Nat) (ups : List Upset)
  | loadCm (g : Nat) (ups : List Upset)
  | fill (g : Nat) (ups : List Upset)
  | drain (g : Nat) (ups : List Upset)
  | storeHbm (g : Nat) (ups : List Upset)
  | coil (g : Nat) (ups : List Upset)
  | fillc (g : Nat) (ups : List Upset)
  | copy (g : Nat) (ups : List Upset)
  | controlNop (g : Nat) (ups : List Upset)
  | take (g : Nat) (ups : List Upset)
  | loop (g : Nat) (ups : List Upset)
  | endloop (g : Nat) (ups : List Upset)
  | wait (g : Nat) (ups : List Upset)
  | swap (g : Nat) (ups : List Upset)
  | passEnd (g : Nat) (ups : List Upset)
  | stepEnd (g : Nat) (ups : List Upset)
  | tileCommit (g : Nat) (ups : List Upset)
  /-- How many of the four copies of the REPAIR partition took the new page generation (R397). -/
  | repairUpdate (copies : Nat)
  | fenceRegisterSet (g : Nat)
  /-- `ch`: the waiting DMA channel, 8 for the engines; `cycles` is the A-cycles waited (R98); `ups`: what the access meets. -/
  | tagWaitEnd (g : Nat) (ch : Nat) (cycles : Nat) (ups : List Upset)
  /-- `w`: the core, or the stack for `ch` 9, with the time that the wait lasted to its limit, in the unit of the counter that such waits
  add to (R98, R171, R200, R339, R381), for a SWAP summed over the cores. -/
  | tagWaitLimit (w : Counted) (ch : Nat)
  | shapeWordArrival (g : Nat) (cycles : Nat) (ups : List Upset)
  | signal (j : Nat) (ctr : Nat)
  | movementComplete (g : Nat) (ch : Nat)
  | multicastInstance (g : Nat) (ch : Nat)
  | swapComplete (j : Nat) (buf : Nat) (cluster : Nat) (cycles : Nat)
  /-- `j`: the job, with the A-cycles that cores waited for the flush of R172, summed over them (R177). -/
  | passEndBarrier (j : Counted)
  | statPageFetch (g : Nat) (set page : Nat) (cycles : Nat) (ups : List Upset)
  /-- `g`: the core, with the A-cycles that it waited (R177). -/
  | statPageSpill (g : Counted) (set page : Nat) (ups : List Upset)
  /-- `j`: the job, with the microseconds that its step start waited for a STAGE in progress (R265). -/
  | stepStart (j : Counted)
  | stepCommit (j : Nat) (waitUs : Nat)
  | stateSnapshotComplete (j : Nat) (ok : Bool)
  | replayStart (j : Nat)
  | resumePoint (j : Nat)
  | replayResume (j : Nat)
  /-- `poisoned`: the positions of the slice's elements that arrive poisoned. -/
  | weightGradientSlice (j : Nat) (poisoned mismatch : List Nat)
  | dispatchBuild (j : Nat) (router : Nat)
  | expertFetch (j : Nat)
  | expertPagePresent (j : Nat) (expert page : Nat) (ups : List FlashUpset)
  | viewResume (g : Nat) (ch : Nat) (us : Nat)
  | bucketApply (j : Nat) (bucket : Nat) (mismatch : List Nat)
  | factoredFinalisation (j : Nat) (tensor : Nat)
  | segmentSum (bucket seg : Nat)
  /-- `bad`: the code or the maximum byte the hawser adder gave where they differ from its inputs' sum. -/
  | sampleComparison (bucket seg : Nat) (bad : Bool)
  /-- `port`: with the FEC symbols corrected on it since its last IDLE (R296). -/
  | idle (port : Counted) (frame : List Byte)
  | join (port : Joining) (frame : List Byte)
  | seg (port : Nat) (frame : List Byte)
  | trail (port : Nat) (frame : List Byte)
  | etab (port : Nat) (frame : List Byte) (poisoned : Bool)
  | wgt (port : Nat) (frame : List Byte) (poisoned : Bool)
  | hash (port : Nat) (frame : List Byte)
  | abort (port : Nat) (frame : List Byte)
  | snapmark (port : Nat) (frame : List Byte)
  | resync (port : Nat) (frame : List Byte) (poisoned : Bool)
  | repl (port : Nat) (frame : List Byte)
  | resyncCommit
  | frameCrcFailure (port : CrcFailure)
  | keepalive (port : Nat)
  | portLost (port : Nat)
  /-- `again`: the flit was itself a replay (R22). -/
  | flitCrcError (link : Nat) (again : Bool)
  | linkRetrain (link : Nat)
  /-- `fwd`, `bwd`: lanes found failed in each direction at the retrain; `dead`: a direction has no lane left (R22, R25). -/
  | linkRetrainComplete (link : Nat) (fwd bwd : Nat) (dead : Bool)
  | rowRepairComplete (p pc bank row : Nat)
  | dramRefresh (p pc : Nat)
  | patrolScrub (p : Nat) (symbols : List Nat)
  | stackTemperatureReport (p : Nat) (celsius : Int)
  /-- `corrected`: the most corrections a codeword of the page needed; `retry`: 1 it needed shifted read levels, 2 soft-decision
  decoding (R401, R407). -/
  | retentionScan (corrected retry : Nat) (ups : List FlashUpset)
  | staticLevelling
  | garbageCollection (ups : List FlashUpset)
  /-- `cause`: 0 unresponsive for 1 s, 1 retired 64 blocks in an hour (R404). -/
  | nandDieFailure (die cause : Nat)
  /-- The offset of a word of the ring that the SRAM could not deliver (R495), if any. -/
  | logCopy (bad : Option Nat)
  | loglineToken (code : Nat)
  /-- Cores whose register and mirror have differed for more than 1 ms (R455). -/
  | fenceMirrorRefresh (late : List Nat)
  | formatRecordUpdate
  | nop (q : Nat) (p : Packet)
  | load (q : Nat) (p : Packet)
  | bind (q : Nat) (p : Packet)
  | step (q : Nat) (p : Packet)
  | endJob (q : Nat) (p : Packet)
  | releaseJob (q : Nat) (p : Packet)
  | cancelBatch (q : Nat) (p : Packet)
  | stage (q : Nat) (p : Packet) (ups : List FlashUpset)
  | activate (q : Nat) (p : Packet)
  | deactivate (q : Nat) (p : Packet)
  | save (q : Nat) (p : Packet)
  | releaseSlot (q : Nat) (p : Packet)
  | snapshot (q : Nat) (p : Packet)
  | restore (q : Nat) (p : Packet) (ups : List FlashUpset)
  | pinExpert (q : Nat) (p : Packet)
  | unpinExpert (q : Nat) (p : Packet)
  | writeJob (q : Nat) (p : Packet)
  | readJob (q : Nat) (p : Packet)
  | objWrite (q : Nat) (p : Packet) (ups : List FlashUpset)
  | objRead (q : Nat) (p : Packet) (ups : List FlashUpset)
  | objDelete (q : Nat) (p : Packet)
  | objInfo (q : Nat) (p : Packet)
  | chainPacket (q : Nat) (p : Packet) (ups : List FlashUpset)
  | chainTimeout (q : Nat)
  | sqTail (q : Nat) (v : Nat) (mask : Nat)
  | queueEnable (q : Nat)
  | queueDisable (q : Nat)
  | queueDrained (q : Nat)
  | responseWrite (q : Nat)
  | interruptCoalesceExpiry (q : Nat)
  | registerWrite (port bar offset : Nat) (bytes : List Byte)
  | perstAssert (port : Nat)
  | perstRelease (port : Nat)
  | functionReady (port : Nat)
  | linkTrained (port : Nat) (gts width : Nat)
  | hotReset (port : Nat)
  | linkDown (port : Nat)
  | functionLevelReset (port : Nat)
  | versionQuery (src : MsgFrom)
  | featureSet (src : MsgFrom)
  | odRead (src : MsgFrom)
  | odWrite (src : MsgFrom)
  | odDescribe (src : MsgFrom)
  | notify (src : MsgFrom)
  | frameBad (bytes : List Byte)
  | doorbellOverrun (port : Nat)
  | fwUpdateBegin (src : MsgFrom)
  | fwUpdateData (src : MsgFrom)
  /-- `ups`: what the reading back of the slot meets in the flash array. -/
  | fwUpdateEnd (src : MsgFrom) (ups : List FlashUpset)
  | fwUpdateActivate (src : MsgFrom)
  | fwUpdateAbort (src : MsgFrom)
  | fwSessionTimeout
  | rangeCommit (src : MsgFrom)
  | rangeDiscard (src : MsgFrom)
  /-- `uw`: the light of the weakest fibre of each laser source input at the end of the wait of R530, in µW. -/
  | commitApply (range : Nat) (uw : List Nat)
  | coreFenceMask (src : MsgFrom)
  | coreReset (src : MsgFrom)
  | recordWindow (src : MsgFrom)
  | attestNonce (src : MsgFrom)
  | attestationReportDone
  | stressRunStart (src : MsgFrom)
  | stressRunStop (src : MsgFrom)
  /-- The cores that failed the run with their first failing tile, and whether a safety loop held a die below 2.1 GHz. -/
  | stressRunEnd (fails : List (Nat × Nat)) (held : Bool)
  | stressTestEnd
  /-- `stage`: the enable stage that failed, 0 for a pass; `router`: the router failed its check, or a link trained no lane
  in one direction (R25, R27, R515). -/
  | dieEnableComplete (die stage : Nat) (router : Bool)
  /-- `stage`: the stage that failed, 0 for a pass, with the pseudo-channel and its failed lanes; `tackle`: the failing pattern
  number of the tackle, if any; `marks`: (pseudo-channel, symbol) and `rows`: (pseudo-channel, bank, row) that the lane check
  found (R287, R372, R373). -/
  | stackEnableComplete (p stage pc lanes : Nat) (tackle : Option Nat) (marks : List (Nat × Nat)) (rows : List (Nat × Nat × Nat))
  | coreEnableComplete (g : Nat) (fail : EnableFail) (march : List MarchRow)
  | hawserPortUp (port : Nat)
  | coilMountComplete (ok : Bool)
  | coilUnmount
  | powerApply (mv : Nat)
  /-- The straps sampled, the offset of the 100 MHz reference in ppm where it is absent or off frequency, and what the boot
  finds. -/
  | pwrgdAssert (masterSel : Bool) (node : Nat) (ref : Option Int) (finds : BootFinds)
  | dictionaryReachable
  | inputRangeExcursion (mv : Nat)
  | powerLoss
  | holdupEnd
  | mrstNAssert
  | mrstGraceEnd (finds : BootFinds)
  | mrstNRelease (finds : BootFinds)
  | thermalTrip (die : Nat) (celsius : Int)
  /-- `ppm`: the offset found. -/
  | referenceLoss (ppm : Int)
  | referenceReturn
  | holdoverExpiry
  | junctionSample (die : Nat) (celsius : Int)
  | fastPowerWindow (w a : Nat)
  | powerWindow (w a mv : Nat)
  | droop (die mv cycles : Nat)
  | aPointSwitch (die : Nat)
  | lsFault (src : Nat)
  | lsEol (src : Nat)
  | laserPowerLow (src uw : Nat)
  | beaconLoss
  | beaconReturn
  | watchdogExpiry
  | capstanRestart
  /-- `ms`: how long the restart took. -/
  | capstanBack (ms : Nat)
  | inputRangeReturn (mv : Nat)
  /-- `uw`: the light of its weakest fibre, in µW. -/
  | lsPresentNChange (src : Nat) (present : Bool) (uw : Nat)
  | srcMemGatherCommit (g : Nat) (ups : List Upset)
  deriving DecidableEq, Repr

end Sys2Proof
end

