-- ==== Sys2Proof/Machine/Bits.lean ====
section
/-!
DEFINITION. Bit fields of words, little-endian packing (R9) and two's complement readings.
-/
namespace Sys2Proof.Machine

/-- The field of `n` bits of `w` whose lowest bit is bit `lo` (R9: a field spanning bits h to l is written h:l). -/
def field (w lo n : Nat) : Nat := (w >>> lo) % 2 ^ n

/-- Bit `i` of `w`. -/
def bitAt (w i : Nat) : Bool := (w >>> i) % 2 == 1

/-- `w` with bit `i` set. -/
def setBit (w i : Nat) : Nat := w ||| (1 <<< i)

/-- `w` with bit `i` cleared. -/
def clearBit (w i : Nat) : Nat := if bitAt w i then w - 2 ^ i else w

/-- `w` with bit `i` at `b`. -/
def putBit (w i : Nat) (b : Bool) : Nat := if b then setBit w i else clearBit w i

/-- The number of set bits among the lowest `n` bits of `w`. -/
def popCount (w : Nat) : Nat → Nat
  | 0 => 0
  | n + 1 => popCount w n + (if bitAt w n then 1 else 0)

/-- The positions of the set bits among bits 0 to n − 1, ascending. -/
def setBits (w n : Nat) : List Nat := (List.range n).filter (bitAt w)

/-- The word whose set bits are the listed positions. -/
def maskOf (ps : List Nat) : Nat := ps.foldl setBit 0

/-- An `n`-bit code read as two's complement. -/
def signed (n w : Nat) : Int :=
  let v := w % 2 ^ n
  if v < 2 ^ (n - 1) then (v : Int) else (v : Int) - ((2 ^ n : Nat) : Int)

/-- The `n`-bit two's complement code of an integer. -/
def unsigned (n : Nat) (i : Int) : Nat := (i % ((2 ^ n : Nat) : Int)).toNat

/-- An integer limited to lo..hi. -/
def clampInt (lo hi i : Int) : Int := if i < lo then lo else if hi < i then hi else i

/-- A natural limited to lo..hi. -/
def clampNat (lo hi i : Nat) : Nat := if i < lo then lo else if hi < i then hi else i

/-- `n` rounded up to a multiple of `a`. -/
def roundUp (n a : Nat) : Nat := if a = 0 then n else (n + a - 1) / a * a

/-- The quotient rounded up. -/
def ceilDiv (n d : Nat) : Nat := if d = 0 then 0 else (n + d - 1) / d

/-- The value of bytes in little-endian order (R9). -/
def leNat : List Byte → Nat
  | [] => 0
  | b :: bs => b.toNat + 256 * leNat bs

/-- The `n` little-endian bytes of a value (R9). -/
def leBytes : Nat → Nat → List Byte
  | 0, _ => []
  | n + 1, w => BitVec.ofNat 8 (w % 256) :: leBytes n (w / 256)

/-- `n` bytes of `l` from offset `o`, short where the list ends. -/
def slice {α : Type} (l : List α) (o n : Nat) : List α := (l.drop o).take n

/-- The little-endian value of `n` bytes at offset `o`. -/
def leAt (l : List Byte) (o n : Nat) : Nat := leNat (slice l o n)

/-- The U64 word number `i` of a byte string. -/
def word64 (l : List Byte) (i : Nat) : Nat := leAt l (8 * i) 8

/-- The list with element `i` replaced by `f` of it; unchanged past its end. -/
def modifyAt {α : Type} (f : α → α) : List α → Nat → List α
  | [], _ => []
  | a :: as, 0 => f a :: as
  | a :: as, i + 1 => a :: modifyAt f as i

/-- Zero bytes. -/
def zeros (n : Nat) : List Byte := List.replicate n 0

/-- The first `n` elements, padded with zero bytes to exactly `n`. -/
def padTo (n : Nat) (l : List Byte) : List Byte := l.take n ++ zeros (n - l.length)

/-- ceil(log2 c) for c at least 1; 0 for 0. -/
def ceilLog2 (c : Nat) : Nat := if c ≤ 1 then 0 else Nat.log2 (c - 1) + 1

/-- Big-endian bytes of a word (the digests of SHA-512 are big-endian). -/
def beBytes (n w : Nat) : List Byte := (leBytes n w).reverse

/-- The value of bytes in big-endian order. -/
def beNat (l : List Byte) : Nat := leNat l.reverse

/-- The first element that satisfies a test, with its position counted from `i`. -/
def findFrom {α : Type} (p : α → Bool) : List α → Nat → Option (Nat × α)
  | [], _ => none
  | a :: as, i => if p a then some (i, a) else findFrom p as (i + 1)

/-- The position of the first element that satisfies a test. -/
def indexOf {α : Type} (p : α → Bool) (l : List α) : Option Nat := (findFrom p l 0).map Prod.fst

end Sys2Proof.Machine
end

