-- ==== Sys2Proof/Machine/Float.lean ====
section
/-!
DEFINITION. Exact values and the element formats of the chapter Number formats, scaling and rounding (R31 to R45):
a value is NaN, an infinity or an exact dyadic number; every format decodes into it and encodes from it with one
rounding to nearest even and saturation.
-/
namespace Sys2Proof.Machine

/-- An exact value: NaN, a signed infinity, or ± m × 2^e. A zero keeps its sign (R44). -/
inductive FVal where
  | nan
  | inf (neg : Bool)
  | fin (neg : Bool) (m : Nat) (e : Int)
  deriving DecidableEq, Repr

/-- Positive zero. -/
def fZero : FVal := .fin false 0 0

/-- An integer as an exact value. -/
def fInt (i : Int) : FVal := .fin (decide (i < 0)) i.natAbs 0

/-- Whether a value is zero of either sign. -/
def FVal.isZero : FVal → Bool
  | .fin _ m _ => m == 0
  | _ => false

/-- Whether a value is finite. -/
def FVal.isFin : FVal → Bool
  | .fin _ _ _ => true
  | _ => false

/-- Negation. -/
def FVal.neg : FVal → FVal
  | .nan => .nan
  | .inf s => .inf (!s)
  | .fin s m e => .fin (!s) m e

/-- Magnitude. -/
def FVal.abs : FVal → FVal
  | .nan => .nan
  | .inf _ => .inf false
  | .fin _ m e => .fin false m e

/-- Multiplication by 2^k, exact (the exponent is unbounded, R42). -/
def FVal.scale : FVal → Int → FVal
  | .fin s m e, k => .fin s m (e + k)
  | v, _ => v

/-- The exact product (R40, R41: infinity × 0 is NaN). -/
def FVal.mul : FVal → FVal → FVal
  | .nan, _ => .nan
  | _, .nan => .nan
  | .inf s, .inf t => .inf (s != t)
  | .inf s, .fin t m _ => if m = 0 then .nan else .inf (s != t)
  | .fin s m _, .inf t => if m = 0 then .nan else .inf (s != t)
  | .fin s m e, .fin t n f => .fin (s != t) (m * n) (e + f)

/-- The exact sum (R41: opposite infinities give NaN; IEEE 754 sign of a zero sum under nearest even). -/
def FVal.add : FVal → FVal → FVal
  | .nan, _ => .nan
  | _, .nan => .nan
  | .inf s, .inf t => if s = t then .inf s else .nan
  | .inf s, .fin _ _ _ => .inf s
  | .fin _ _ _, .inf t => .inf t
  | .fin s m e, .fin t n f =>
    let k := min e f
    let a : Int := ((m <<< (e - k).toNat : Nat) : Int)
    let b : Int := ((n <<< (f - k).toNat : Nat) : Int)
    let r := (if s then -a else a) + (if t then -b else b)
    if r = 0 then .fin (s && t) 0 k else .fin (decide (r < 0)) r.natAbs k

/-- The exact difference. -/
def FVal.sub (a b : FVal) : FVal := a.add b.neg

/-- The order of two finite values or infinities as numbers: −1, 0 or 1; a NaN compares as 0. -/
def FVal.cmp (a b : FVal) : Int :=
  match a, b with
  | .nan, _ => 0
  | _, .nan => 0
  | .inf s, .inf t => if s = t then 0 else if s then -1 else 1
  | .inf s, _ => if s then -1 else 1
  | _, .inf t => if t then 1 else -1
  | .fin _ _ _, .fin _ _ _ =>
    match a.sub b with
    | .fin s m _ => if m = 0 then 0 else if s then -1 else 1
    | _ => 0

/-- a < b as numbers. -/
def FVal.lt (a b : FVal) : Bool := a.cmp b == -1

/-- a ≤ b as numbers; false where either is NaN. -/
def FVal.le (a b : FVal) : Bool := a != .nan && b != .nan && a.cmp b != 1

/-- floor(log2 |x|) of a non-zero finite value. -/
def FVal.floorLog2 : FVal → Int
  | .fin _ m e => (Nat.log2 m : Int) + e
  | _ => 0

/-- ceil(log2 |x|) of a non-zero finite value; a power of two 2^k gives k (R48). -/
def FVal.ceilLog2 : FVal → Int
  | .fin _ m e => (Nat.log2 m : Int) + e + (if m = 2 ^ Nat.log2 m then 0 else 1)
  | _ => 0

/-- m / 2^s rounded to nearest even (R44). -/
def roundShift (m s : Nat) : Nat :=
  let q := m >>> s
  let r := 2 * (m % 2 ^ s)
  if 2 ^ s < r ∨ (r = 2 ^ s ∧ q % 2 = 1) then q + 1 else q

/-- m × 2^e as a multiple of 2^q, rounded to nearest even (R44). -/
def roundAt (m : Nat) (e q : Int) : Nat :=
  if q ≤ e then m <<< (e - q).toNat else roundShift m (q - e).toNat

/-- A floating-point format of R32: exponent and mantissa bits, bias, the code of the largest finite magnitude, the
code of infinity (none: the format has none) and the canonical NaN code (none: the format has none). -/
structure FloatFmt where
  eb : Nat
  mb : Nat
  bias : Nat
  maxFin : Nat
  infCode : Option Nat
  nanCode : Option Nat
  deriving DecidableEq, Repr

/-- FP32 (R32). -/
def fmtF32 : FloatFmt := { eb := 8, mb := 23, bias := 127, maxFin := 0x7F7FFFFF, infCode := some 0x7F800000, nanCode := some 0x7FC00000 }
/-- bfloat16 (R32). -/
def fmtBF16 : FloatFmt := { eb := 8, mb := 7, bias := 127, maxFin := 0x7F7F, infCode := some 0x7F80, nanCode := some 0x7FC0 }
/-- E4M3 (R32): no infinity; S.1111.111 are both NaN. -/
def fmtE4M3 : FloatFmt := { eb := 4, mb := 3, bias := 7, maxFin := 0x7E, infCode := none, nanCode := some 0x7F }
/-- E5M2 (R32). -/
def fmtE5M2 : FloatFmt := { eb := 5, mb := 2, bias := 15, maxFin := 0x7B, infCode := some 0x7C, nanCode := some 0x7E }
/-- E2M1, the MXFP4 element (R32): no infinity and no NaN. -/
def fmtE2M1 : FloatFmt := { eb := 2, mb := 1, bias := 1, maxFin := 0x7, infCode := none, nanCode := none }

/-- The value of a code of a floating-point format (R32). Subnormals are read and never flushed. -/
def FloatFmt.decode (f : FloatFmt) (c : Nat) : FVal :=
  let mag := c % 2 ^ (f.eb + f.mb)
  let s := bitAt c (f.eb + f.mb)
  if f.maxFin < mag then
    (if f.infCode = some mag then .inf s else .nan)
  else
    let ex := mag >>> f.mb
    let man := mag % 2 ^ f.mb
    if ex = 0 then .fin s man (1 - (f.bias : Int) - f.mb)
    else .fin s (man + 2 ^ f.mb) ((ex : Int) - f.bias - f.mb)

/-- A converted element: its code, whether it saturated (R45) and whether the input was non-finite (R34, R41). -/
structure Conv where
  code : Nat
  sat : Bool
  nonfin : Bool
  deriving DecidableEq, Repr

/-- The magnitude code of m × 2^e rounded to nearest even, before saturation. -/
def FloatFmt.magCode (f : FloatFmt) (m : Nat) (e : Int) : Nat :=
  if m = 0 then 0 else
    let emin : Int := 1 - (f.bias : Int)
    let k : Int := (Nat.log2 m : Int) + e
    let E := if k < emin then emin else k
    ((E - emin).toNat <<< f.mb) + roundAt m e (E - f.mb)

/-- Conversion into a floating-point format: nearest even, saturating (R34, R44, R45). -/
def FloatFmt.encode (f : FloatFmt) : FVal → Conv
  | .nan => { code := f.nanCode.getD f.maxFin, sat := false, nonfin := true }
  | .inf s =>
    match f.infCode with
    | some c => { code := c + (if s then 2 ^ (f.eb + f.mb) else 0), sat := false, nonfin := true }
    | none => { code := f.nanCode.getD f.maxFin, sat := false, nonfin := true }
  | .fin s m e =>
    let c := f.magCode m e
    let sg := if s then 2 ^ (f.eb + f.mb) else 0
    if f.maxFin < c then { code := f.maxFin + sg, sat := true, nonfin := false }
    else { code := c + sg, sat := false, nonfin := false }

/-- An exact value rounded to an integer, nearest even (R44). -/
def roundInt : FVal → Int
  | .fin s m e => let v : Int := (roundAt m e 0 : Nat); if s then -v else v
  | _ => 0

/-- Conversion into an integer code of `n` bits clamped to ±`top` (R33, R34, R45); `bot` is the lowest value. -/
def encodeInt (n : Nat) (bot top : Int) : FVal → Conv
  | .nan => { code := 0, sat := false, nonfin := true }
  | .inf s => { code := unsigned n (if s then bot else top), sat := true, nonfin := true }
  | v =>
    let i := roundInt v
    if i < bot then { code := unsigned n bot, sat := true, nonfin := false }
    else if top < i then { code := unsigned n top, sat := true, nonfin := false }
    else { code := unsigned n i, sat := false, nonfin := false }

/-- The element formats of R31 by their 4-bit format code. -/
inductive Fmt where
  | fp32 | bf16 | e4m3 | e5m2 | int8 | int32 | mxfp8e4 | mxfp8e5 | mxint8 | mxfp4 | mxint4 | braid8
  deriving DecidableEq, Repr

/-- The format a code names; none for the reserved codes 0xC to 0xF (R31). -/
def fmtOfCode : Nat → Option Fmt
  | 0 => some .fp32 | 1 => some .bf16 | 2 => some .e4m3 | 3 => some .e5m2 | 4 => some .int8 | 5 => some .int32
  | 6 => some .mxfp8e4 | 7 => some .mxfp8e5 | 8 => some .mxint8 | 9 => some .mxfp4 | 10 => some .mxint4
  | 11 => some .braid8 | _ => none

/-- Whether a format is an MX block format (R35). -/
def Fmt.isMx : Fmt → Bool
  | .mxfp8e4 | .mxfp8e5 | .mxint8 | .mxfp4 | .mxint4 => true
  | _ => false

/-- Whether a format has 4-bit elements (R36). -/
def Fmt.is4bit : Fmt → Bool
  | .mxfp4 | .mxint4 => true
  | _ => false

/-- Whether a tensor of the format has a per-tensor scale descriptor (R46, R47). -/
def Fmt.isScaled : Fmt → Bool
  | .e4m3 | .e5m2 | .int8 | .braid8 => true
  | _ => false

/-- Bits of one element. -/
def Fmt.bits : Fmt → Nat
  | .fp32 | .int32 => 32
  | .bf16 => 16
  | .mxfp4 | .mxint4 => 4
  | _ => 8

/-- Bytes that `n` elements take in the element plane. -/
def Fmt.bytesFor (f : Fmt) (n : Nat) : Nat := (f.bits * n + 7) / 8

/-- The element value of a code, without any scale (R32, R33, R35). The braid-8 code 0x80 is the non-finite marker and
reads as NaN (R54). -/
def Fmt.decodeElem (f : Fmt) (c : Nat) : FVal :=
  match f with
  | .fp32 => fmtF32.decode c
  | .bf16 => fmtBF16.decode c
  | .e4m3 | .mxfp8e4 => fmtE4M3.decode c
  | .e5m2 | .mxfp8e5 => fmtE5M2.decode c
  | .int8 => fInt (signed 8 c)
  | .int32 => fInt (signed 32 c)
  | .mxint8 => (fInt (signed 8 c)).scale (-6)
  | .mxfp4 => fmtE2M1.decode c
  | .mxint4 => (fInt (signed 4 c)).scale (-2)
  | .braid8 => if c % 256 = 0x80 then .nan else fInt (signed 8 c)

/-- Conversion of one value into an unblocked format: nearest even, saturating; for an MX format, into its element
format after division by the block scale (R37). -/
def Fmt.encodeElem (f : Fmt) (v : FVal) : Conv :=
  match f with
  | .fp32 => fmtF32.encode v
  | .bf16 => fmtBF16.encode v
  | .e4m3 | .mxfp8e4 => fmtE4M3.encode v
  | .e5m2 | .mxfp8e5 => fmtE5M2.encode v
  | .int8 => encodeInt 8 (-127) 127 v
  | .int32 => encodeInt 32 (-(2 ^ 31 : Nat)) ((2 ^ 31 - 1 : Nat) : Int) v
  | .mxint8 => encodeInt 8 (-127) 127 (v.scale 6)
  | .mxfp4 => fmtE2M1.encode v
  | .mxint4 => encodeInt 4 (-7) 7 (v.scale 2)
  | .braid8 =>
    if v.isFin then encodeInt 8 (-127) 127 v else { code := 0x80, sat := false, nonfin := true }

/-- emax of R37 and e_f of R49: the exponent of a format's largest magnitude. -/
def Fmt.emax : Fmt → Int
  | .e4m3 | .mxfp8e4 => 8
  | .e5m2 | .mxfp8e5 => 15
  | .mxfp4 => 2
  | .int8 | .braid8 => 6
  | _ => 0

/-- The E8M0 scale code of 2^X (R35). -/
def e8m0 (x : Int) : Nat := (x + 127).toNat

/-- The exponent of an E8M0 code; none for 0xFF, which means NaN (R35). -/
def e8m0Exp (c : Nat) : Option Int := if c % 256 = 0xFF then none else some (((c % 256 : Nat) : Int) - 127)

/-- The value of an MX element under its block's scale code (R35). -/
def Fmt.decodeMx (f : Fmt) (scale c : Nat) : FVal :=
  match e8m0Exp scale with
  | none => .nan
  | some x => (f.decodeElem c).scale x

/-- An encoded MX block: its scale code, its element codes, its saturations and whether it counts as non-finite (R37). -/
structure MxBlock where
  scale : Nat
  codes : List Nat
  sats : Nat
  nonfin : Bool
  deriving DecidableEq, Repr

/-- The largest floor(log2 |x|) of the non-zero values. -/
def maxFloorLog2 : List FVal → Option Int
  | [] => none
  | v :: vs =>
    match maxFloorLog2 vs with
    | none => if v.isZero then none else some v.floorLog2
    | some k => if v.isZero then some k else some (max k v.floorLog2)

/-- Encoding of one MX block from the real values of its in-extent elements (R37). -/
def Fmt.encodeMx (f : Fmt) (xs : List FVal) : MxBlock :=
  if xs.any (fun v => !v.isFin) then { scale := 0xFF, codes := xs.map (fun _ => 0), sats := 0, nonfin := true }
  else
    let x : Int := match maxFloorLog2 xs with
      | none => -127
      | some k => clampInt (-127) 127 (k - f.emax)
    let cs := xs.map (fun v => f.encodeElem (v.scale (-x)))
    { scale := e8m0 x, codes := cs.map Conv.code, sats := (cs.filter Conv.sat).length, nonfin := false }

/-- FP32 bits of a value rounded to nearest even and clamped (R41), with the clamp flag. -/
def toF32 (v : FVal) : Nat := (fmtF32.encode v).code

/-- The value of FP32 bits. -/
def ofF32 (c : Nat) : FVal := fmtF32.decode c

/-- A value rounded once to FP32 (nearest even; a result beyond the range is clamped, R41). -/
def rnd (v : FVal) : FVal := ofF32 (toF32 v)

/-- A value rounded once to bfloat16 with nearest even. -/
def rndBF16 (v : FVal) : FVal := fmtBF16.decode (fmtBF16.encode v).code

/-- The quotient of two finite values with the second non-zero, to 64 bits with a sticky bit: rounding it to at most 60
bits gives the correctly rounded quotient. IEEE 754 rules for the other cases; x / 0 is an infinity of the product's
sign for x non-zero. -/
def FVal.div : FVal → FVal → FVal
  | .nan, _ => .nan
  | _, .nan => .nan
  | .inf _, .inf _ => .nan
  | .inf s, .fin t _ _ => .inf (s != t)
  | .fin s _ _, .inf t => .fin (s != t) 0 0
  | .fin s m e, .fin t n f =>
    if n = 0 then (if m = 0 then .nan else .inf (s != t))
    else if m = 0 then .fin (s != t) 0 0
    else
      let k := 66 + Nat.log2 n
      let num := m <<< k
      let q := num / n
      let sticky := if num % n = 0 then 0 else 1
      .fin (s != t) (2 * q + sticky) (e - f - k - 1)

/-- The integer square root by binary digits from bit `k` down. -/
def isqrtFrom (n : Nat) : Nat → Nat → Nat
  | 0, r => r
  | k + 1, r =>
    let c := r + 2 ^ k
    isqrtFrom n k (if c * c ≤ n then c else r)

/-- floor(sqrt n). -/
def isqrt (n : Nat) : Nat := isqrtFrom n (Nat.log2 n / 2 + 1) 0

/-- The square root of a value with enough bits and a sticky bit to round correctly; NaN below zero; ±0 gives ±0. -/
def FVal.sqrt : FVal → FVal
  | .nan => .nan
  | .inf s => if s then .nan else .inf false
  | .fin s m e =>
    if m = 0 then .fin s 0 0 else if s then .nan else
      let e2 := if e % 2 = 0 then e else e - 1
      let m2 := if e % 2 = 0 then m else 2 * m
      let n := m2 <<< 132
      let r := isqrt n
      let sticky := if r * r = n then 0 else 1
      .fin false (2 * r + sticky) (e2 / 2 - 66 - 1)

end Sys2Proof.Machine
end

