-- ==== Sys2Proof/Machine/State.lean ====
section
/-!
DEFINITION. The state of the module, as plain data. Every register, queue, memory, counter, mode and pin that the spec
gives the block stands here; the values of scalar dictionary objects stand in `Module.od`, whose missing keys read as
the object's default (R462, R464; the table of defaults is Sys2Proof.Machine.Dict). INVENTORY.md lists each piece with
its rule and its reset value.
-/
namespace Sys2Proof.Machine

/-- Why a step stops with a fault. -/
inductive Fault where
  /-- Raised by every command whose operand names a unit the module does not have (a core above 383, a die above 51, a
  stack above 23, a queue above 15, a port or link past its range): no such wire exists. Safe: nothing is claimed of it. -/
  | noSuchUnit
  deriving DecidableEq, Repr

/-- Why a command has no meaning. -/
inductive Refusal where
  /-- Raised by an arm of exec that has no meaning yet, under the mnemonic of its row. Safe: nothing is claimed of it. -/
  | notModelled (mnemonic : String)
  deriving DecidableEq, Repr

/-- A byte memory: (address, byte) pairs with addresses strictly rising and no pair holding a zero byte; an address that
is not listed reads as zero (R104 zero-fills scratchpad and cluster memory, R208 and R372 zero-fill HBM). -/
abbrev Mem := List Host.Cell

/-- A sparse map from numbers to numbers in the same form: keys strictly rising, no entry at its default value 0. -/
abbrev NatMap := List (Nat × Nat)

/-! ### The parsed task image (R179 to R199) -/

/-- A shape field (R193). -/
structure Shape where
  src : Nat
  slot : Nat
  plan : Nat
  deriving DecidableEq, Repr

/-- One entry of the buffer plan (R184). -/
structure Buffer where
  space : Nat
  consumer : Nat
  combine : Nat
  fmt : Nat
  halves : Bool
  fixed : Bool
  base : Nat
  size : Nat
  layout : Nat
  scale : Nat
  scaled : Bool
  deriving DecidableEq, Repr

/-- One dimension of a layout descriptor (R215). -/
structure Dim where
  axis : Nat
  extent : Shape
  stride : Int
  deriving DecidableEq, Repr

/-- A layout descriptor (R215). -/
structure Layout where
  dims : List Dim
  sparse : Bool
  coord : Bool
  aux : Nat
  deriving DecidableEq, Repr

/-- A statistics set (R170, R549). -/
structure StatSet where
  set : Nat
  rows : Nat
  home : Nat
  deriving DecidableEq, Repr

/-- A parameter tensor (R187). -/
structure Tensor where
  elemBase : Nat
  mode : Nat
  group : Nat
  count : Nat
  rank : Nat
  weightBuf : Nat
  gradBuf : Nat
  deriving DecidableEq, Repr

/-- A parameter group (R271) with its schedule curve (R274): pairs of step and FP32 multiplier. -/
structure Group where
  rule : Nat
  biasCorr : Bool
  eta : Nat
  lambda : Nat
  beta1 : Nat
  beta2 : Nat
  eps : Nat
  gscale : Nat
  eps1 : Nat
  curve : List (Nat × Nat)
  deriving DecidableEq, Repr

/-- A state entry (R272). -/
structure StateEntry where
  tensor : Nat
  rows : Nat
  cols : Nat
  deriving DecidableEq, Repr

/-- One loop index of a reel template (R225). -/
structure ReelLoop where
  count : Shape
  block : Nat
  step : Nat
  deriving DecidableEq, Repr

/-- A reel template (R225). -/
structure Template where
  roles : Nat
  overflow : Bool
  nOuter : Bool
  l2 : List Nat
  l1 : List Nat
  pIndex : Nat
  pbaseEn : Bool
  pbaseSlot : Nat
  pbaseAxis : Nat
  loops : List ReelLoop
  deriving DecidableEq, Repr

/-- A bound slot (R199, R549): its declaration, the value in force and the value a bind left for the next step. -/
structure Bound where
  slot : Nat
  address : Bool
  value : Nat
  next : Nat
  deriving DecidableEq, Repr

/-- The instruction's sixteen U64 words (R190). -/
abbrev Words := List Nat

/-- An adapter site (R250). -/
structure AdapterSite where
  baseTensor : Nat
  aTensor : Nat
  bTensor : Nat
  aOffset : Nat
  bOffset : Nat
  deriving DecidableEq, Repr

/-- The ADAPTERS section (R250). -/
structure Adapters where
  base : Nat
  slots : Nat
  mbtSlot : Nat
  mbcSlot : Nat
  stride : Nat
  rlSlot : Nat
  rlMax : Nat
  mbMax : Nat
  sites : List AdapterSite
  deriving DecidableEq, Repr

/-- One resume entry of the SCHEDULE section (R483). -/
structure Resume where
  kind : Nat
  number : Nat
  points : List Nat
  deriving DecidableEq, Repr

/-- One reference entry of the SCHEDULE section (R483). -/
structure RefEntry where
  offset : Nat
  length : Nat
  crc : Nat
  deriving DecidableEq, Repr

/-- A router entry (R324). -/
structure Router where
  idxBuf : Nat
  gateBuf : Nat
  expertBase : Nat
  span : Nat
  kM1 : Nat
  dispatchBase : Nat
  rows : Shape
  cap : Nat
  reel : Nat
  startTarget : Shape
  startCtr : Nat
  doneCtr : Nat
  deriving DecidableEq, Repr

/-- A view entry (R325). -/
structure View where
  buffer : Nat
  router : Nat
  pageOffset : Nat
  pages : Nat
  deriving DecidableEq, Repr

/-- A predictor entry (R345). -/
structure Predictor where
  scoreBuf : Nat
  maskBuf : Nat
  upBuf : Nat
  downBuf : Nat
  mode : Nat
  tau : Nat
  activeLevel : Nat
  replayBase : Nat
  layerId : Nat
  deriving DecidableEq, Repr

/-- The EXPERTS section (R323). -/
structure Experts where
  expertCount : Nat
  pageCount : Nat
  poolBase : Nat
  frameCount : Nat
  storeId : Nat
  routers : List Router
  views : List View
  preds : List Predictor
  deriving DecidableEq, Repr

/-- One entry of the REDUCE section (R298). -/
structure ReduceEntry where
  bucket : Nat
  tensor : Nat
  firstSeg : Nat
  segCount : Nat
  deriving DecidableEq, Repr

/-- The REDUCE section (R298). -/
structure Reduce where
  bucketLog2 : Nat
  bucketCount : Nat
  stagingCount : Nat
  stagingBase : Nat
  entries : List ReduceEntry
  deriving DecidableEq, Repr

/-- A tensor's entry of the MASKS section: the U64 mask of each tile (R134) and its 2-of-4 metadata bytes (R140). -/
structure MaskEntry where
  masks : List Nat
  meta24 : List Byte
  deriving DecidableEq, Repr

/-- A scale descriptor (R47); `stepNonfinite` and `tackleNonfinite` are the step's non-finite count, that of conversions and that of
the tackles' writes, which the module keeps between commits and which is no field of the descriptor (R49). The field
step_saturations is the sum of `stepSaturations`, of the conversions, and `tackleSaturations`, of the tackles' weight writes (R45, R52). -/
structure ScaleDesc where
  expCur : Int
  expInit : Int
  margin : Int
  histLenM1 : Nat
  histHead : Nat
  histCount : Nat
  frozen : Bool
  fmt : Nat
  stepMaxExp : Option Int
  braidBias : Nat
  satThreshold : Nat
  stepSaturations : Nat
  satTotal : Nat
  nonfiniteTotal : Nat
  cleanSteps : Nat
  hist : List (Option Int)
  stepNonfinite : Nat
  tackleNonfinite : Nat
  tackleSaturations : Nat
  deriving DecidableEq, Repr

/-- The header fields and fixed tables of a placed image (R179 to R191). -/
structure Image where
  major : Nat
  arrays : Nat
  coresMin : Nat
  coresMax : Nat
  roleCount : Nat
  adapterOnly : Bool
  hbmBytes : Nat
  features : Nat
  roleMap : List Nat
  buffers : List Buffer
  layouts : List Layout
  statSets : List StatSet
  tensors : List Tensor
  groups : List Group
  states : List StateEntry
  templates : List Template
  deriving DecidableEq, Repr

/-- The streams and the optional sections of a placed image, with the source and destination buffers of the LOAD_CM descriptors
of its coils. -/
structure Program where
  streams : List (List Words)
  sched : List (List Words)
  resumes : List Resume
  refs : List RefEntry
  keepBase : Nat
  keepBytes : Nat
  masks : List MaskEntry
  adapters : Option Adapters
  experts : Option Experts
  reduce : Option Reduce
  coils : List (Nat × Nat)
  deriving DecidableEq, Repr

/-! ### Cores and clusters -/

/-- The reel entry a core is executing: the TAKE that took it and the target where its region ends (R233), its template,
number, problem number and coordinates (R226, R227), and the batch epoch latched at its TAKE (R342). -/
structure Entry where
  at_ : Nat
  target : Nat
  tmpl : Nat
  e : Nat
  p : Nat
  coords : List Nat
  epoch : Nat
  deriving DecidableEq, Repr

/-- An open loop (R196): the index of its LOOP and the iterations left after the current one. -/
structure LoopFrame where
  at_ : Nat
  left : Nat
  deriving DecidableEq, Repr

/-- An instantiation of an instruction: who executes it, its words and the reel entry in force. -/
structure Inst where
  job : Nat
  core : Nat
  index : Nat
  words : Words
  entry : Option Entry
  deriving DecidableEq, Repr

/-- What a core, or one of its DMA channels, waits for (R98, R198, R200, R171, R381, R196, R484). -/
inductive Wait where
  /-- A slot that must become FULL (`full`) or EMPTY. -/
  | tag (slot : Nat) (full : Bool)
  /-- A slice whose staging slot still holds an earlier bucket (R300), or a combine turn (R186). -/
  | turn
  | counter (ctr : Nat)
  | shape (off : Nat)
  | stat (set page : Nat)
  | channel (ch : Nat)
  | swap (buf : Nat)
  | passEnd
  | resume (point : Nat)
  | multicast
  /-- A view read halted on an absent page (R339). -/
  | page (expert page : Nat)
  /-- A movement whose stack stopped at 110 °C (R367). -/
  | stack (p : Nat)
  deriving DecidableEq, Repr

/-- A movement in a channel (R376, R377): its instantiation, its run-time length in 64-byte units, for a coil that of its current
descriptor, the descriptor index of a coil and the burst of descriptors that it fetched at its issue, the first three words of each
(R386), the next destination position in 64-byte units, whether it has started, whether its data has been written and only the acknowledgement is
outstanding, its status, what it waits for, the paged expert whose reader it is with the
use stamp of its issue (R335, R339), and for a copy of a multicast that has been
written the issuer of its instance and its destination slots (R232, R234). -/
structure Move where
  inst : Inst
  op : Nat
  len : Nat
  burst : Option (List Words)
  desc : Nat
  pos : Nat
  started : Bool
  written : Bool
  status : Nat
  wait : Option Wait
  reader : Option (Nat × Nat)
  cast : Option (Nat × List Nat)
  deriving DecidableEq, Repr

/-- The accumulator beside a row's data columns (R73, R77): the checksum columns 128 and 129, the values of their two
magnitude lanes, and whether a partial sum of the row was clamped (R79). -/
structure RowCheck where
  c0 : FVal
  c1 : FVal
  m0 : FVal
  m1 : FVal
  clamped : Bool
  deriving DecidableEq, Repr

/-- A core tile between its last pass and its commit (R74): its number within the instruction and its row group (R69),
the group's rows per array, its rows and columns, the accumulators row by row, the accumulator columns beside them, the K of
its tolerance (R78), whether it consumed poison, whether it stands for a stretch that no pass ran for (R348) and whether it
is a sample of one, its array passes, whether it is the instruction's last, the instruction's run-time N, its destination
slots, and the invalid metadata byte that ended the instruction before a pass of this tile ran (R140). -/
structure Tile where
  inst : Inst
  number : Nat
  group : Nat
  perArray : Nat
  rows : List Nat
  cols : List Nat
  acc : List Nat
  checks : List RowCheck
  k : Nat
  poisoned : Bool
  skipped : Bool
  sampled : Bool
  passes : Nat
  last : Bool
  m : Nat
  n : Nat
  slots : List Nat
  invalid : Option Nat
  deriving DecidableEq, Repr

/-- A GATHER with src_mem = 1 whose rows are still arriving (R131): the destination bytes, the poisoned destination
granules and the destination slots; `reads` are the HBM byte ranges of its rows, and `waits` tells that its rows are there and its
combine turn is not (R186). -/
structure PendGather where
  inst : Inst
  reads : List (Nat × Nat)
  writes : List Host.Cell
  poison : List Nat
  slots : List Nat
  waits : Bool
  deriving DecidableEq, Repr

/-- A page of the statistics memory (R169, R171): the set and the page number within it, its records, which lines hold
data, which are dirty, and which granules carry poison. -/
structure StatPage where
  set : Nat
  page : Nat
  recs : NatMap
  valid : Nat
  dirty : Nat
  poison : List Nat
  deriving DecidableEq, Repr

/-- A row flagged for remap (R110): bank, row, the spare that takes it, and the granules of the spare that a write has
reached since the flag, which hold the row's true contents. -/
structure PendRow where
  bank : Nat
  row : Nat
  spare : Nat
  written : List Nat
  deriving DecidableEq, Repr

/-- A fence request on its way to the fence register (R23): the status its detection gave the instruction, the instruction
it stopped at its issue, which is in flight until the register is set, and its age among the reports that wait at the cluster, which
forwards them oldest first (R22). -/
structure FenceReq where
  status : Nat
  inst : Option Inst
  age : Nat
  deriving DecidableEq, Repr

/-- The memories of a core and their repair state; `rowErrors` counts the corrections of scratchpad rows since the enable (R110),
`statErrors` those of statistics rows (R176). -/
structure CoreMem where
  sp : Mem
  poison : List Nat
  full : List Nat
  rowErrors : NatMap
  statErrors : NatMap
  sparesUsed : NatMap
  pending : List PendRow
  threshold : Nat
  pages : List StatPage
  deriving DecidableEq, Repr

/-- The sequencer state of a core (R85, R191, R196): the open loops and the open TAKE regions (R233), innermost first. -/
structure CoreSeq where
  pc : Nat
  loops : List LoopFrame
  takes : List Entry
  wait : Option Wait
  done : Bool
  deriving DecidableEq, Repr

/-- One K row of a weight tile: the weights of the data columns and those of the two checksum columns (R77). -/
structure WeightRow where
  vals : List FVal
  c0 : FVal
  c1 : FVal
  deriving DecidableEq, Repr

/-- The weight registers of a core's arrays (R68, R77): the shadow tile, which loads while the current one works, and the working
tile, K row by K row. One bus broadcasts a tile to every array that the instruction uses, so all of them hold the same. A cell that
no tile has reached since the enable is not listed and holds undefined contents (R88). -/
structure WeightRegs where
  shadow : List WeightRow
  working : List WeightRow
  deriving DecidableEq, Repr

/-- One row of an array's accumulator (R73): the codes of its data columns, then the checksum columns and the magnitude lanes. -/
structure AccRow where
  vals : List Nat
  check : RowCheck
  deriving DecidableEq, Repr

/-- One core. `checkerDiff` is what the comparator last found the checker's sequencer to differ in: the field's number in the
order of R85 (0 the control word, 1 the program counter, 2 the innermost loop counter, 3 a bound or shape value) and the
checker's value. `origin` is the fence origin: 0 not fenced, 1 hardware, 2 management (R453). `stalls` counts the A-cycles of its
own core-wide stalls, `clusterStalls` the F-cycles that it stood still with its cluster (R24, R109), `corrected` its
single-bit corrections (R22); `bypass` is the tag-bypass that the die controller sets for the length of a self-test (R100). `spoils` is the model's own
counter behind the free contents of slots whose commit did not come (R74, R130). `accums` are the accumulators of its logical
arrays (R73): a row that no core tile has reached since the enable is not listed and holds undefined contents (R88), which the
model's own `undefNo` numbers from enable to enable. -/
structure Core where
  enabled : Bool
  ready : Bool
  fenced : Bool
  origin : Nat
  fenceReq : Option FenceReq
  testing : Bool
  bypass : Bool
  lastHolder : Option Nat
  job : Option Nat
  stalls : Nat
  clusterStalls : Nat
  corrected : Nat
  mem : CoreMem
  seq : CoreSeq
  checkerDiff : Option (Nat × Nat)
  weights : WeightRegs
  accums : List (List AccRow)
  undefNo : Nat
  channels : List (List Move)
  tiles : List Tile
  gathers : List PendGather
  spoils : Nat
  deriving DecidableEq, Repr

/-- One cluster: its memory (R114), poisoned granules, the ranges held by jobs as (job, base, bytes) (R210), and its
repair state (R110), its stall F-cycles and single-bit corrections (R22). -/
structure Cluster where
  cm : Mem
  poison : List Nat
  ranges : List (Nat × Nat × Nat)
  rowErrors : NatMap
  sparesUsed : NatMap
  pending : List PendRow
  threshold : Nat
  stalls : Nat
  corrected : Nat
  deriving DecidableEq, Repr

/-! ### Job contexts -/

/-- A variant slot (R256): 0 EMPTY, 1 STAGED, 2 ACTIVE; the set held, its step count (R274), and a change waiting for the
next step start (1 activate, 2 deactivate). -/
structure Slot where
  state : Nat
  set : Nat
  setSteps : Nat
  next : Nat
  deriving DecidableEq, Repr

/-- A die reel (R228): the template, the die and its untaken entries in ascending number. -/
structure DieReel where
  tmpl : Nat
  die : Nat
  left : List Nat
  deriving DecidableEq, Repr

/-- A released weight-gradient slice on its way to its bucket or the tackles (R245, R247): the tensor, the elements as
(gradient index, braid-8 code), and of each segment that it covers the largest ceil(log2 |x|) and the saturations. -/
structure Slice where
  tensor : Nat
  elems : List (Nat × Nat)
  maxExp : List (Nat × Int)
  sats : NatMap
  core : Nat
  deriving DecidableEq, Repr

/-- One bucket of a job (R300): 0 filling, 1 FULL, 2 SENT, 3 summed at rank 0, 4 its slot free again (acknowledged, or
applied at rank 0); the elements as (position in the bucket, code), the maximum of each segment, and by REDUCE entry
within the bucket the saturations and non-finite elements. -/
structure Bucket where
  state : Nat
  elems : List (Nat × Nat)
  maxExp : List (Nat × Int)
  sats : NatMap
  nonfins : NatMap
  deriving DecidableEq, Repr

/-- What the barrier of the latest passed resume point saved (R484): the sync counters, and with them the half selectors
that the replay goes on with (R380) and the routers whose dispatch had been built. -/
structure ResumeMark where
  point : Nat
  counters : List Nat
  sels : List (Nat × Nat)
  dispatched : List Nat
  deriving DecidableEq, Repr

/-- A FACTORED tensor (R277): whether its finalisation of the attempt has ended. Its factors and accumulators lie in the state region
(R268). -/
structure Factored where
  tensor : Nat
  finished : Bool
  deriving DecidableEq, Repr

/-- A requested fetch of a paged expert (R336): the module-wide expert number, whether it has started, and whether a PIN
asked for it (R338). -/
structure Fetch where
  expert : Nat
  started : Bool
  pin : Bool
  deriving DecidableEq, Repr

/-- The part of a job context that a step changes and an attempt resets. `cause` is the instruction whose status decided the
fate of the step (R203). `skips` counts, by bucket of a rope of size 1, the elements that the tackles skipped, with the tensor
of the first (R59). `overfull` lists the routers that event 0x0370 has named in the step (R329). `latch` holds the dictionary values that the
step latched at its start, `stepQ` the queue that took the running STEP (R431), `tags` the FULL slots of each core at
the attempt's start or its latest resume point. -/
structure Run where
  attempt : Nat
  ropeAttempt : Nat
  replay : Bool
  accept : Bool
  fails : Nat
  sampleFails : List (Nat × Nat)
  tackleFails : List (Nat × Nat)
  stepAsked : Bool
  active : Bool
  mustReplay : Option Nat
  cause : Option Inst
  counters : List Nat
  signals : List Nat
  sels : List (Nat × Nat)
  reels : List DieReel
  slices : List Slice
  buckets : List Bucket
  nextExp : List (Nat × Int)
  mark : Option ResumeMark
  applied : NatMap
  skips : List (Nat × Nat × Nat)
  overfull : List Nat
  segMax : List (Nat × Int)
  satCount : NatMap
  bias : List (Nat × Nat × Nat)
  mismatched : Bool
  epoch : Nat
  dispatched : List Nat
  latch : NatMap
  stepQ : Nat
  tags : List (Nat × List Nat)
  deriving DecidableEq, Repr

/-- The part of a job context that lasts from load to release (R207, R208). `state` is 0 FREE, 1 LOADING, 2 LOADED,
3 RUNNING, 4 ENDED. -/
structure Job where
  state : Nat
  endStatus : Nat
  loadCheck : Nat
  seed : Nat
  step : Nat
  hbmBase : Nat
  stateBytes : Nat
  hash : List Byte
  cores : List Nat
  footprint : Nat
  tagLimit : Nat
  cmBases : List (Nat × Nat)
  image : Image
  prog : Program
  bounds : List Bound
  descs : List ScaleDesc
  halfBits : NatMap
  opt : Mem
  factored : List Factored
  expTab : List (Nat × Int)
  slots : List Slot
  fetches : List Fetch
  pendingSnap : Option (Nat × List Byte)
  t7 : Bool
  run : Run
  deriving DecidableEq, Repr

/-- One entry of the residency table (R335). `state` is 0 FREE, 1 FETCHING, 2 RESIDENT. -/
structure Residency where
  expert : Nat
  job : Nat
  state : Nat
  pinned : Bool
  poisoned : Bool
  frame : Nat
  present : Nat
  lastUse : Nat
  deriving DecidableEq, Repr

/-! ### The rope -/

/-- The header of a hawser frame (R294) and its payload. -/
structure Frame where
  type : Nat
  src : Nat
  attempt : Nat
  epoch : Nat
  step : Nat
  bucket : Nat
  segment : Nat
  maxExp : Nat
  code : Nat
  contrib : Nat
  linkSeq : Nat
  ackSeq : Nat
  payload : List Byte
  deriving DecidableEq, Repr

/-- A hawser port (R321): 0 dark, 1 training, 2 up, 3 lost, 4 up as spare; the link sequence numbers of the next frame sent
and the next one expected (R294, R296), the unacknowledged frames of its replay buffer, the frames waiting to be sent with
their priority (R295), whether a replay has been asked for, all frames sent, and whether the spare stands in for it. -/
structure Hawser where
  state : Nat
  txSeq : Nat
  rxSeq : Nat
  unacked : List (Nat × List Byte)
  queue : List (Nat × Frame)
  replayAsked : Bool
  requests : List Nat
  sentFrames : List (List Byte)
  spareUsed : Bool
  deriving DecidableEq, Repr

/-- One bond (R292): 0 down, 1 JOIN sent, 2 passed, 3 refused, 4 lost; the partner's committed step count from JOIN; and whether this
end's own JOIN has gone out. -/
structure Bond where
  state : Nat
  partnerStep : Nat
  sent : Bool
  deriving DecidableEq, Repr

/-- Inputs held by the receive interfaces for one segment (R301, R302): the port that holds it, bucket, segment, input (0 left,
1 right), codes, the maximum exponent (none for the byte 0x80), contributors. -/
structure SegInput where
  port : Nat
  step : Nat
  attempt : Nat
  bucket : Nat
  seg : Nat
  input : Nat
  codes : List Nat
  maxExp : Option Int
  contrib : Nat
  deriving DecidableEq, Repr

/-- A summed segment and what its sample comparison needs (R304): compared tells whether a sampled one has finished. -/
structure SegSum where
  bucket : Nat
  seg : Nat
  codes : List Nat
  maxExp : Option Int
  sampled : Bool
  compared : Bool
  bad : Bool
  deriving DecidableEq, Repr

/-- A bucket trailer received or formed (R302): input 0 left, 1 right, 2 own; per REDUCE entry the saturation and
non-finite counts; the mismatch flag and the lowest failing rank. -/
structure Trailer where
  step : Nat
  attempt : Nat
  bucket : Nat
  input : Nat
  counts : List (Nat × Nat)
  mismatch : Bool
  lowest : Nat
  deriving DecidableEq, Repr

/-- A weight hash of a bucket (R308): input 0 left, 1 right, 2 own; the CRC-64 and the lowest disagreeing rank. -/
structure HashRec where
  step : Nat
  bucket : Nat
  input : Nat
  crc : Nat
  lowest : Nat
  deriving DecidableEq, Repr

/-- The rope (R290, R293). The rank, size, epoch and the other scalar objects stand in the dictionary values. `raised` is the step and
the attempt number of an ABORT that came before this rank started that attempt's step (R312); `deeper` tells that the step counts differ
on a bond below this rank's own (R318); `wgtHeld` are the half segments, by bucket and number, whose frames have arrived and wait for a
stopped stack (R284). -/
structure Rope where
  bonds : List Bond
  inputs : List SegInput
  sums : List SegSum
  trailers : List Trailer
  hashes : List HashRec
  marks : List (Nat × List ScaleDesc)
  resyncData : List Byte
  replData : List Byte
  afterRestore : Option Nat
  compareDies : List Nat
  wgtSeen : List (Nat × Nat)
  etabSeen : List Nat
  raised : Option (Nat × Nat)
  deeper : Bool
  wgtHeld : List (Nat × Nat)
  deriving DecidableEq, Repr

/-! ### Dies, links, stacks -/

/-- One die (R500, R504 to R508). Points are numbered 0 to 4 from 2.1 GHz down to 1.05 GHz; `request` is the point
requested as the latest step of a job on the die took it up (R468). -/
structure Die where
  enabled : Bool
  ready : Bool
  ended : Bool
  failStage : Nat
  routerFailed : Bool
  answering : Bool
  tj : Int
  request : Nat
  point : Nat
  thermalHold : Nat
  hotSamples : Nat
  coolSamples : Nat
  gating : Bool
  channelHalf : Bool
  droopStalls : Nat
  deepestDroop : Nat
  deriving DecidableEq, Repr

/-- One virtual channel of one direction of a twine link (R21): the packets in its buffer, oldest first, and the credits that the
sender has spent and not got back. -/
structure VcBuffer where
  packets : List Nat
  spent : Nat
  deriving DecidableEq, Repr

/-- One twine link (R18, R22, R25; its ends are those of Sys2Proof.Machine.twineLinks): lanes that failed in each direction, of
which the first 4 were replaced by spares; retraining; flits replayed; the failed replays in a row; and whether a direction has no
working lane left. `fwd` and `bwd` are the four virtual channels of each direction (R21). -/
structure Link where
  fwd : List VcBuffer
  bwd : List VcBuffer
  lostFwd : Nat
  lostBwd : Nat
  retraining : Bool
  replays : Nat
  failedRun : Nat
  dead : Bool
  deriving DecidableEq, Repr

/-- One memory stack (R353 to R373); `corrected` counts its corrected bursts (R22). Marks are 36-bit masks by pseudo-channel; a row key is
(32 × pseudo-channel + bank) × 65,536 + row. `rowErrors` counts the corrections of one unknown symbol by 64 × row key + symbol (R359,
R368). -/
structure Stack where
  enabled : Bool
  ready : Bool
  failed : Bool
  temp : Int
  share : Nat
  warm : Bool
  hot : Bool
  stopped : Bool
  marks : NatMap
  laneRows : List (Nat × Nat × Nat)
  rowErrors : NatMap
  sparesUsed : NatMap
  repairing : List Nat
  scrubAt : Nat
  refreshes : Nat
  corrected : Nat
  deriving DecidableEq, Repr

/-- A granule whose stored codeword has errors, at the given symbol positions, until it is written again (R356, R357): `kind` 0 a read
corrects them, 1 the decoder miscorrects them, 2 they are beyond it and a read is returned with poison (R361). The cells and the poison
of the stacks stand for what a read of the granule returns. -/
structure BadBurst where
  granule : Nat
  symbols : List Nat
  kind : Nat
  deriving DecidableEq, Repr

/-! ### The coil store -/

/-- An object of a partition (R399): its content with the granules that could not be read (R402), the SHA-512 hash and, for
a stored set, its step count, whether it holds optimizer state and the hash of the ADAPTERS sites that saved it; `place`
gives its extents by superblock. -/
structure Obj where
  part : Nat
  id : Nat
  len : Nat
  sha : List Byte
  data : Mem
  poison : List Nat
  setSteps : Nat
  hasState : Bool
  sites : List Byte
  place : List (Nat × Nat)
  deriving DecidableEq, Repr

/-- A page of a REPAIR copy (R396): its generation and its records. -/
structure RepairPage where
  gen : Nat
  recs : List Nat
  deriving DecidableEq, Repr

/-- One copy of the REPAIR partition (R395, R397): which of its two blocks is the current one, the pages written in it, oldest first, and
those of the other block. -/
structure RepairCopy where
  block : Nat
  pages : List RepairPage
  other : List RepairPage
  deriving DecidableEq, Repr

/-- The coil store (R393 to R413). `writing` lists the objects with a write in progress, `pe` the P/E counts by
superblock, `written` the extents programmed in each since its last erase, `formed` how many of `failedDies`, in their order, had failed
when it was last opened; a block is numbered 16,384 × die + block, and `bad` are the grown, `factoryBad` the factory's bad blocks. The
REPAIR partition is the generation of its latest page, its four copies, the records in force, and the flagged rows
whose update has not completed (R396, R397). `flaws` are what the store's own work is to meet in the array. -/
structure Coil where
  objs : List Obj
  writing : List (Nat × Nat)
  pe : NatMap
  written : NatMap
  openObj : Option Nat
  openRel : Option Nat
  bad : List Nat
  factoryBad : List Nat
  failedDies : List Nat
  formed : NatMap
  flaws : List FlashFlaw
  repairGen : Nat
  repairCopies : List RepairCopy
  repairRecs : List Nat
  repairQueue : List Nat
  scanAt : Nat
  softSeen : List Nat
  catchUp : Bool
  pinsOverridden : Bool
  unmountAsked : Bool
  deriving DecidableEq, Repr

/-! ### Host ports -/

/-- A response packet waiting for its ring (R429). -/
structure Resp where
  opcode : Nat
  tag : Nat
  last : Bool
  dup : Bool
  job : Nat
  unsol : Bool
  status : Nat
  check : Nat
  section_ : Nat
  dataOffset : Nat
  w2 : Nat
  w4 : Nat
  w5 : Nat
  w6 : Nat
  payload : List Byte
  holdsTag : Bool
  deriving DecidableEq, Repr

/-- A command that has been taken and whose final response has not been written (R420, R423). `state` is 0 taken and not
started, 1 started, 2 answered; `args` are words 2 to 7; `policy` and `keys` are OD 0xA020:01 and :02 as the taking of a LOAD found them; `got`
counts the payload bytes received and `data` holds those not yet applied. -/
structure Cmd where
  tag : Nat
  opcode : Nat
  job : Nat
  args : List Nat
  order : Bool
  state : Nat
  stamp : Nat
  policy : Nat
  keys : Nat
  got : Nat
  data : List Byte
  deriving DecidableEq, Repr

/-- A command queue with its response ring (R417 to R419). `state` is 0 DISABLED, 1 ENABLED, 2 DRAINING, 3 ERROR; `chain` is
the tag of the open chain (R421); `irqGap` holds from an interrupt until coalesce_us have passed, `irqHeld` where a response
written meanwhile waits for its interrupt (R430). -/
structure Queue where
  state : Nat
  sqTail : Nat
  sqHead : Nat
  lastError : Nat
  rrBase : Nat
  coalesceUs : Nat
  rrSizeLog2 : Nat
  rrHead : Nat
  rrPhase : Bool
  rrTail : Nat
  enableBit : Bool
  cmds : List Cmd
  chain : Option Nat
  resps : List Resp
  dropped : Nat
  irqGap : Bool
  irqHeld : Bool
  deriving DecidableEq, Repr

/-- The mailbox of a port (R441, R442). -/
structure Mailbox where
  request : Mem
  taken : Option (List Byte)
  response : List Byte
  busy : Bool
  respReady : Bool
  overrun : Bool
  ntHead : Nat
  ntTail : Nat
  ntOverflow : Bool
  ntEnable : Bool
  ring : List (Nat × List Byte)
  deriving DecidableEq, Repr

/-- A host port (R415, R416, R432). -/
structure Port where
  perst : Bool
  up : Bool
  gts : Nat
  width : Nat
  ready : Bool
  agreed : Nat
  mailbox : Mailbox
  deriving DecidableEq, Repr

/-- The host side. `hostMem` is what the module has written into host memory, port 1's from address 2^64; `irqs` counts the
MSI-X messages sent by vector, keyed 16 × port + vector; `orphans` are started commands whose port was reset and whose
responses are discarded (R432). -/
structure HostSide where
  ports : List Port
  queues : List Queue
  hostMem : Mem
  irqs : NatMap
  stamp : Nat
  orphans : List Cmd
  deriving DecidableEq, Repr

/-! ### Management, firmware, Logline, trust -/

/-- A staged or committed value (R446): the path, the object's key 256 × index + sub-index, the value as a little-endian
number, and whether it was clamped. -/
structure Staged where
  path : Nat
  key : Nat
  value : Nat
  clamped : Bool
  deriving DecidableEq, Repr

/-- A commit that has been answered and waits to be applied (R448). -/
structure PendCommit where
  range : Nat
  path : Nat
  vals : List Staged
  deriving DecidableEq, Repr

/-- The last response sent to a field-network node (R437). -/
structure Kept where
  node : Nat
  seq : Nat
  type : Nat
  resp : List Byte
  deriving DecidableEq, Repr

/-- The management side. Paths are numbered 0 to 7 for nodes and 8, 9 for the mailboxes of ports 0 and 1 (R444). -/
structure Mgmt where
  reachable : Bool
  capstanUp : Bool
  romService : Bool
  staged : List Staged
  commits : List PendCommit
  clamped : List Nat
  kept : List Kept
  frames : List (List Byte)
  mirror : Nat
  windows : NatMap
  beaconLost : Bool
  dropEventHeld : Bool
  held : List (Nat × List Nat)
  restartCause : Nat
  deriving DecidableEq, Repr

/-- A firmware slot (R456): 0 EMPTY, 1 VALID, 2 TRIAL, 3 CONFIRMED; its trial count; the bytes written to it as (offset,
byte) cells and how many; whether it still holds the factory's image. -/
structure FwSlot where
  state : Nat
  trials : Nat
  data : Mem
  written : List (Nat × Nat)
  factory : Bool
  deriving DecidableEq, Repr

/-- Firmware (R456, R457, R538): the slots, the one that runs, the path that holds an update session, the valid floor rows,
the revocation fuse, the key that verified the running slot, and the boot ROM's stage and result. -/
structure Firmware where
  slots : List FwSlot
  running : Nat
  session : Option Nat
  floorRows : List Nat
  revoked : Bool
  keyUsed : Nat
  bootStage : Nat
  bootResult : Nat
  deriving DecidableEq, Repr

/-- A Logline record (R491). -/
structure LogRec where
  code : Nat
  seq : Nat
  suppressed : Nat
  secondary : Bool
  ops : Nat
  cycles : Nat
  items : List Nat
  deriving DecidableEq, Repr

/-- A slot of the register snapshot area (R494). -/
structure RegSlot where
  cause : Nat
  code : Nat
  cycles : Nat
  reported : Bool
  ops : Nat
  regs : List Nat
  deriving DecidableEq, Repr

/-- The Logline recorder (R491 to R495). `spent` counts the tokens missing from each code's bucket. -/
structure Log where
  ring : List LogRec
  part : List LogRec
  premount : List LogRec
  lost : Nat
  nextSeq : Nat
  spent : NatMap
  held : NatMap
  recent : List (Nat × Nat)
  slots : List (Option RegSlot)
  nextSlot : Nat
  deriving DecidableEq, Repr

/-- Attestation (R541, R542): the report being formed without its signature and the path that asked, the latest signed
report, and whether the security block passed its self-test. -/
structure Trust where
  forming : Option (Nat × List Byte)
  report : List Byte
  secOk : Bool
  deriving DecidableEq, Repr

/-! ### Power -/

/-- The phases of the 54 V input (R513, R518, R519). -/
inductive Phase where
  /-- No input, or the input not yet past 39.0 V. -/
  | off
  /-- Precharge of the input capacitance. -/
  | precharge
  /-- PWRGD asserted. -/
  | on
  /-- PWRGD has fallen and the management domain runs on hold-up. -/
  | holdup
  /-- Off after a thermal trip, with 54 V still present (R519). -/
  | tripped
  deriving DecidableEq, Repr

/-- Power, clocks, pins and the power loop (R498 to R520). `refState`: 0 present, 1 holdover, 2 lost in
service, 3 absent since PWRGD; `grace`: MRST_N has
fallen and its 30 ms run; `mrst`: the reset holds until MRST_N rises; `limit` is the power limit that the latest step took
up (R468), `mj` the energy beyond the whole joules of OD 0x2030:04 in millijoules. -/
structure Power where
  phase : Phase
  mv : Nat
  outOfRange : Bool
  masterSel : Bool
  node : Nat
  mrst : Bool
  grace : Bool
  mrstPin : Bool
  refState : Nat
  thermtrip : Bool
  powerHold : Nat
  highCount : Nat
  lowCount : Nat
  gating : Bool
  currentHeld : Bool
  limit : Nat
  mj : Nat
  deriving DecidableEq, Repr

/-- A laser source input (R529). -/
structure Laser where
  present : Bool
  powered : Bool
  faultLow : Bool
  eolLow : Bool
  dim : Bool
  uw : Nat
  last : Nat
  deriving DecidableEq, Repr

/-- The field stress test (R488): 0 idle, 1 running, 2 stopping; runs counted, cores fenced. -/
structure Stress where
  state : Nat
  runs : Nat
  fencedCores : Nat
  deriving DecidableEq, Repr

/-- Factory data: fuses and calibration, which no command changes (R5, R83, R465, R471, R538). -/
structure Fuses where
  grade : Nat
  arrayMap : List Nat
  mac : Nat
  serial : List Byte
  stepping : Nat
  pcieVendor : Nat
  calib : NatMap
  badGroups : List Nat
  certChain : List Byte
  keyPrimary : List Byte
  keySecondary : List Byte
  bootRomHash : List Byte
  spFusedSpares : NatMap
  cmFusedSpares : NatMap
  deriving DecidableEq, Repr

/-- The module without its fuses. `od` holds the values in force of the dictionary's stored objects that differ from
their defaults, by key 256 × index + sub-index; `saved` the persistent ones as last written to flash (R462); `calib` the
user calibration values that the blocks took up at their latest enable (R543). `freeNo` is the model's own counter behind its free
values. -/
structure Module where
  power : Power
  dies : List Die
  links : List Link
  hbmStacks : List Stack
  lasers : List Laser
  od : NatMap
  saved : NatMap
  calib : NatMap
  mgmt : Mgmt
  log : Log
  fw : Firmware
  trust : Trust
  stress : Stress
  cores : List Core
  clusters : List Cluster
  hbm : Mem
  hbmPoison : List Nat
  bursts : List BadBurst
  jobs : List Job
  residency : List (Nat × Residency)
  useStamp : Nat
  hawsers : List Hawser
  rope : Rope
  store : Coil
  host : HostSide
  freeNo : Nat
  deriving DecidableEq, Repr

/-- The state of the block: the commands that wait, first in first out; the fuses; the module. -/
structure State where
  pending : List Instr
  fuse : Fuses
  m : Module
  deriving DecidableEq, Repr

/-! ### Reset -/

/-- A core as PWRGD or MRST_N leaves it (R512): not enabled, not fenced. -/
def Core.reset : Core :=
  { enabled := false, ready := false, fenced := false, origin := 0, fenceReq := none, testing := false, bypass := false,
    lastHolder := none, job := none, stalls := 0, clusterStalls := 0, corrected := 0,
    mem := { sp := [], poison := [], full := [], rowErrors := [], statErrors := [], sparesUsed := [], pending := [], threshold := 4, pages := [] },
    seq := { pc := 0, loops := [], takes := [], wait := none, done := false }, checkerDiff := none,
    weights := { shadow := [], working := [] }, accums := [], undefNo := 0, channels := List.replicate 8 [], tiles := [], gathers := [], spoils := 0 }

/-- A cluster at reset. -/
def Cluster.reset : Cluster :=
  { cm := [], poison := [], ranges := [], rowErrors := [], sparesUsed := [], pending := [], threshold := 4, stalls := 0,
    corrected := 0 }

/-- An empty image. -/
def Image.empty : Image :=
  { major := 0, arrays := 0, coresMin := 0, coresMax := 0, roleCount := 0, adapterOnly := false, hbmBytes := 0,
    features := 0, roleMap := [], buffers := [], layouts := [], statSets := [], tensors := [], groups := [],
    states := [], templates := [] }

/-- An empty program. -/
def Program.empty : Program :=
  { streams := [], sched := [], resumes := [], refs := [], keepBase := 0, keepBytes := 0, masks := [],
    adapters := none, experts := none, reduce := none, coils := [] }

/-- The run part of a job context before any step. -/
def Run.empty : Run :=
  { attempt := 0, ropeAttempt := 0, replay := false, accept := false, fails := 0, sampleFails := [], tackleFails := [], stepAsked := false,
    active := false, mustReplay := none, cause := none, counters := List.replicate 64 0, signals := [], sels := [], reels := [],
    slices := [], buckets := [], nextExp := [], mark := none, applied := [], skips := [], overfull := [],
    segMax := [], satCount := [], bias := [], mismatched := false, epoch := 0, dispatched := [], latch := [], stepQ := 0, tags := [] }

/-- A FREE job context (R207). -/
def Job.free : Job :=
  { state := 0, endStatus := 0, loadCheck := 0, seed := 0, step := 0, hbmBase := 0, stateBytes := 0, hash := [],
    cores := [], footprint := 0, tagLimit := 0, cmBases := [], image := Image.empty, prog := Program.empty, bounds := [], descs := [],
    halfBits := [], opt := [], factored := [], expTab := [], slots := [], fetches := [], pendingSnap := none, t7 := false, run := Run.empty }

/-- A die at reset: off (R512). E0 is in service from PWRGD (R469). -/
def Die.reset (e0 : Bool) : Die :=
  { enabled := e0, ready := e0, ended := e0, failStage := 0, routerFailed := false, answering := true, tj := 0,
    request := 0, point := 4, thermalHold := 0, hotSamples := 0, coolSamples := 0, gating := false, channelHalf := false,
    droopStalls := 0, deepestDroop := 0 }

/-- A twine link at reset. -/
def Link.reset : Link :=
  { fwd := List.replicate 4 { packets := [], spent := 0 }, bwd := List.replicate 4 { packets := [], spent := 0 }, lostFwd := 0, lostBwd := 0, retraining := false, replays := 0, failedRun := 0, dead := false }

/-- A stack at reset: unpowered (R372, R512). -/
def Stack.reset : Stack :=
  { enabled := false, ready := false, failed := false, temp := 0, share := 64, warm := false, hot := false,
    stopped := false, marks := [], laneRows := [], rowErrors := [], sparesUsed := [], repairing := [], scrubAt := 0,
    refreshes := 0, corrected := 0 }

/-- A bond at reset: down. -/
def Bond.reset : Bond := { state := 0, partnerStep := 0, sent := false }

/-- A hawser port at reset: dark (R317). -/
def Hawser.reset : Hawser :=
  { state := 0, txSeq := 0, rxSeq := 0, unacked := [], queue := [], replayAsked := false, requests := [], sentFrames := [],
    spareUsed := false }

/-- The rope at reset. -/
def Rope.reset : Rope :=
  { bonds := List.replicate 3 Bond.reset, inputs := [], sums := [], trailers := [], hashes := [],
    marks := [], resyncData := [], replData := [], afterRestore := none, compareDies := [], wgtSeen := [], etabSeen := [],
    raised := none, deeper := false, wgtHeld := [] }

/-- A mailbox at reset (R441). -/
def Mailbox.reset : Mailbox :=
  { request := [], taken := none, response := [], busy := false, respReady := false, overrun := false, ntHead := 0,
    ntTail := 0, ntOverflow := false, ntEnable := false, ring := [] }

/-- A queue at reset (R417). -/
def Queue.reset : Queue :=
  { state := 0, sqTail := 0, sqHead := 0, lastError := 0, rrBase := 0, coalesceUs := 0, rrSizeLog2 := 16, rrHead := 0,
    rrPhase := true, rrTail := 0, enableBit := false, cmds := [], chain := none, resps := [], dropped := 0,
    irqGap := false, irqHeld := false }

/-- A port at reset: PERST# asserted, the function not ready (R416). -/
def Port.reset : Port :=
  { perst := true, up := false, gts := 0, width := 0, ready := false, agreed := 0, mailbox := Mailbox.reset }

/-- A REPAIR copy as the format leaves it: a page without records (DESIGN CHOICE, log entry 33). -/
def RepairCopy.reset : RepairCopy := { block := 0, pages := [{ gen := 0, recs := [] }], other := [] }

/-- The coil store as it leaves the factory: empty, formatted, unmounted (R411). -/
def Coil.reset : Coil :=
  { objs := [], writing := [], pe := [], written := [], openObj := none, openRel := none, bad := [], factoryBad := [],
    failedDies := [], formed := [], flaws := [], repairGen := 0, repairCopies := List.replicate 4 RepairCopy.reset, repairRecs := [],
    repairQueue := [], scanAt := 0, softSeen := [], catchUp := false, pinsOverridden := false, unmountAsked := false }

/-- The firmware as it leaves the factory: slot A CONFIRMED and running, slot B EMPTY (DESIGN CHOICE: the spec gives no
factory contents). -/
def Firmware.reset : Firmware :=
  { slots := [{ state := 3, trials := 0, data := [], written := [], factory := true },
              { state := 0, trials := 0, data := [], written := [], factory := false }],
    running := 0, session := none, floorRows := [], revoked := false, keyUsed := 0, bootStage := 0, bootResult := 0 }

/-- The fuses of the model's module: a BX-T9-Q4 with nominal calibration (DESIGN CHOICE, notes/assumptions). -/
def Fuses.reset : Fuses :=
  { grade := 4, arrayMap := List.replicate 48 0xFFFFFFFF, mac := 0, serial := [], stepping := 0, pcieVendor := 0,
    calib := [], badGroups := [], certChain := [], keyPrimary := [], keySecondary := [], bootRomHash := [],
    spFusedSpares := [], cmFusedSpares := [] }

/-- The module when PWRGD is asserted and the boot ROM is about to start (R512, R513). -/
def Module.reset : Module :=
  { power := { phase := .on, mv := 54000, outOfRange := false, masterSel := true, node := 0, mrst := false,
               grace := false, mrstPin := false, refState := 0, thermtrip := false, powerHold := 0, highCount := 0, lowCount := 0,
               gating := false, currentHeld := false, limit := 24000, mj := 0 },
    dies := (List.range 52).map (fun d => Die.reset (d == 48)),
    links := List.replicate 114 Link.reset,
    hbmStacks := List.replicate 24 Stack.reset,
    lasers := List.replicate 2 { present := false, powered := false, faultLow := false, eolLow := false, dim := false,
                                 uw := 0, last := 0 },
    od := [], saved := [], calib := [],
    mgmt := { reachable := false, capstanUp := false, romService := false, staged := [], commits := [], clamped := [],
              kept := [], frames := [], mirror := 0, windows := [], beaconLost := false, dropEventHeld := false,
              held := [], restartCause := 0 },
    log := { ring := [], part := [], premount := [], lost := 0, nextSeq := 1, spent := [], held := [], recent := [],
             slots := List.replicate 7 none, nextSlot := 0 },
    fw := Firmware.reset,
    trust := { forming := none, report := [], secOk := true },
    stress := { state := 0, runs := 0, fencedCores := 0 },
    cores := List.replicate 384 Core.reset,
    clusters := List.replicate 96 Cluster.reset,
    hbm := [], hbmPoison := [], bursts := [],
    jobs := List.replicate 16 Job.free,
    residency := [], useStamp := 0,
    hawsers := List.replicate 16 Hawser.reset,
    rope := Rope.reset,
    store := Coil.reset,
    host := { ports := List.replicate 2 Port.reset, queues := List.replicate 16 Queue.reset, hostMem := [], irqs := [],
              stamp := 0, orphans := [] },
    freeNo := 0 }

/-- The block right after reset: no command waits. -/
def State.reset : State := { pending := [], fuse := Fuses.reset, m := Module.reset }

end Sys2Proof.Machine
end

