-- ==== Sys2Proof/Machine/ArrayMath.lean ====
section
/-!
DEFINITION. What one array computes (R40, R41, R66) and the checksum columns beside it (R77 to R80), on exact values.
-/
namespace Sys2Proof.Machine

/-- The kind of accumulation of an operand pair (R39, R40): integer, one rounding a product, or one rounding a block. -/
inductive PairKind where
  | int8
  | float
  | mx
  deriving DecidableEq, Repr

/-- The kind of an operand pair; none for a pair that R39 does not list. -/
def pairKind (a b : Fmt) : Option PairKind :=
  match a, b with
  | .e4m3, .e4m3 | .e4m3, .e5m2 | .e5m2, .e4m3 | .e5m2, .e5m2 => some .float
  | .bf16, .bf16 => some .float
  | .int8, .int8 => some .int8
  | .mxfp8e4, .mxfp8e4 | .mxfp8e4, .mxfp8e5 | .mxfp8e5, .mxfp8e4 | .mxfp8e5, .mxfp8e5 => some .mx
  | .mxint8, .mxint8 => some .mx
  | .mxfp4, .mxfp4 => some .mx
  | .mxint4, .mxint4 => some .mx
  | _, _ => none

/-- K rows of one weight tile (R67). -/
def tileK (f : Fmt) : Nat := if f.is4bit then 256 else 128

/-- An FP32 value after one rounded addition; a result beyond range is clamped and counted (R41). -/
def addF32 (acc : FVal × Nat) (x : FVal) : FVal × Nat :=
  let c := fmtF32.encode (acc.1.add x)
  (fmtF32.decode c.code, acc.2 + (if c.sat then 1 else 0))

/-- An INT32 value after one addition; a result beyond range is clamped and counted (R41). -/
def addI32 (acc : Int × Nat) (x : Int) : Int × Nat :=
  let r := acc.1 + x
  let c := clampInt (-(2 ^ 31 : Nat)) ((2 ^ 31 - 1 : Nat) : Int) r
  (c, acc.2 + (if c = r then 0 else 1))

/-- The exact sum of the products of two lists. -/
def exactDot : List (FVal × FVal) → FVal
  | [] => fZero
  | [p] => p.1.mul p.2
  | p :: ps => (p.1.mul p.2).add (exactDot ps)

/-- Consecutive groups of `n` elements. -/
def groupsOf {α : Type} (n : Nat) : Nat → List α → List (List α)
  | 0, _ => []
  | fuel + 1, l => if l.isEmpty then [] else l.take n :: groupsOf n fuel (l.drop n)

/-- The partial sum over products in ascending K (R40): each product, or each block of 32, added with one rounding. -/
def accumulate (kind : PairKind) (init : FVal) (ps : List (FVal × FVal)) : FVal × Nat :=
  match kind with
  | .int8 =>
    let r := ps.foldl (fun acc p => addI32 acc (roundInt p.1 * roundInt p.2)) (roundInt init, 0)
    (fInt r.1, r.2)
  | .float => ps.foldl (fun acc p => addF32 acc (p.1.mul p.2)) (init, 0)
  | .mx => (groupsOf 32 ps.length ps).foldl (fun acc g => addF32 acc (exactDot g)) (init, 0)

/-- The weights of a checksum column for one K row (R77): Σ w_n, or Σ (n + 1) w_n, rounded to FP32; exact for integers. DESIGN
CHOICE (log entry 23): a weight beyond the FP32 range, for which R77 states nothing, is clamped to the largest finite value
uncounted, and its row is compared. -/
def checkWeight (kind : PairKind) (second : Bool) (ws : List FVal) : FVal :=
  let s := (ws.zipIdx).foldl (fun acc p => acc.add (p.1.mul (fInt (if second then (p.2 : Int) + 1 else 1)))) fZero
  match kind with
  | .int8 => s
  | _ => rnd s

/-- The checksum columns' sum along K (R77): as a data column, and exact for integers (48-bit, R77). -/
def accumulateCheck (kind : PairKind) (init : FVal) (ps : List (FVal × FVal)) : FVal × Nat :=
  match kind with
  | .int8 => (ps.foldl (fun acc p => acc.add (p.1.mul p.2)) init, 0)
  | k => accumulate k init ps

/-- Σ (n + 1)^j × x_n for j = 0 or 1, exact. -/
def weightedSum (second : Bool) (xs : List FVal) : FVal :=
  (xs.zipIdx).foldl (fun acc p => acc.add (p.1.mul (fInt (if second then (p.2 : Int) + 1 else 1)))) fZero

/-- The magnitude lane's exact value (R77): Σ_k |a_k| × Σ_n (n + 1)^j |w_kn| + Σ_n (n + 1)^j |d_n|. -/
def magnitude (second : Bool) (row : List FVal) (ws : List (List FVal)) (addend : List FVal) : FVal :=
  ((row.zip ws).foldl (fun acc p => acc.add (p.1.abs.mul (weightedSum second (p.2.map FVal.abs)))) fZero).add
    (weightedSum second (addend.map FVal.abs))

/-- One K row of a weight tile as it passes the entry of the weight bus (R77): its weights and what the checksum generator makes of
them. -/
def weightRow (kind : PairKind) (ws : List FVal) : WeightRow :=
  { vals := ws, c0 := checkWeight kind false ws, c1 := checkWeight kind true ws }

/-- t_j of R78: (2K + 130) × 2^(g − 24) × M_j for the floating-point pairs, 0 for INT8. -/
def tolerance (kind : PairKind) (k guard : Nat) (mag : FVal) : FVal :=
  match kind with
  | .int8 => fZero
  | _ => (mag.mul (fInt ((2 * k + 130 : Nat) : Int))).scale ((guard : Int) - 24)

/-- A checksum column's initial value (R77): the sum of the addends, in the accumulator's format; whether it was clamped. -/
def checkInit (kind : PairKind) (second : Bool) (d : List FVal) : FVal × Bool :=
  let s := weightedSum second d
  match kind with
  | .int8 => (s, false)
  | _ =>
    let c := fmtF32.encode s
    (fmtF32.decode c.code, c.sat)

/-- The suspect column of R80: round(second difference / first difference) − 1. DESIGN CHOICE (log entry 23): a tie rounds to the
even number, and where the first difference is 0 or the quotient is no finite number the suspect column is −1. -/
def suspectColumn (d0 d1 : FVal) : Int := roundInt (d1.div d0) - 1

end Sys2Proof.Machine
end

