-- ==== Sys2Proof/Config.lean ====
section
/-!
DEFINITION. What the spec leaves open: free values. Each is an opaque constant with no body, so nothing in Lean can
evaluate it or prove a value of it. `n` is the model's own counter (Module.freeNo), which the step that uses a value
advances.
-/
namespace Sys2Proof.Config

/-- The byte number `i` of an undefined memory content (R74, R103, R130: contents that the spec calls undefined). -/
opaque freeByte : Nat → Nat → Byte

/-- The byte at an address of a core's scratchpad in a slot whose commit did not come (R74, R130): the arguments are the core,
the count of such losses and the address. -/
opaque freeSlot : Nat → Nat → Nat → Byte

/-- The FP32 code in a weight cell (`true` for the working register) that no tile has reached since the core's enable (R88): the
arguments are the core, the number of its enable, the register, the K row and the column; columns 128 and 129 are the checksums'. -/
opaque undefWeight : Nat → Nat → Bool → Nat → Nat → BitVec 32

/-- The code in an accumulator cell that no core tile has reached since the core's enable (R88, R103): the arguments are the core, the
number of its enable, the array, the row and the column; 128 and 129 are the checksum columns, 130 and 131 the magnitude lanes. -/
opaque undefAccum : Nat → Nat → Nat → Nat → Nat → BitVec 32

/-- The FP32 code of g / sqrt(0) under FACTORED, where R_i × C_j or (g × g) + ε1 underflows to 0 (R276 states no division by zero); the
argument is the FP32 code of g. A NaN cannot arise there (R279), so the model takes the code with its top exponent bit cleared where it
is not finite. -/
opaque factoredOverZero : BitVec 32 → BitVec 32

/-- An undefined 32-bit code (for example the value of a lost statistics record, R174). -/
opaque freeWord : Nat → BitVec 32

/-- Whether the reduced-precision magnitude lane, which the spec only says rounds toward +∞ (R77), overstates a row's
magnitude by enough to pass a difference that exceeds the exact tolerance; the second argument is the row. -/
opaque laneSlack : Nat → Nat → Bool

/-- The FP32 code that a function of the row engine (1 log, 2 reciprocal, 3 reciprocal square root) gives for an operand
where the exact result is no real number, so that R154 states none; the same on every row engine. -/
opaque openFunc : Nat → BitVec 32 → BitVec 32

/-- The symbols a Reed–Solomon decode beyond its reach returns, and whether it is detected (R357). -/
opaque miscorrects : Nat → Bool

/-- The translation of a T7 image into the native form (R182): none where the image uses a feature with no T9
equivalent. The spec gives no T7 format. -/
opaque translateT7 : List Byte → Option (List Byte)

/-- The 512-byte signature of the device identity key over a report (R542). The key is in no rule. -/
opaque attestSignature : List Byte → Nat → Byte

/-- Register 38 + i of a register snapshot (R494): the program counters and the 7 fault registers of the management
processors, which no rule gives. -/
opaque snapshotRegister : Nat → Nat → BitVec 64

/-- The version of the firmware that the module left the factory with (R456), which no rule gives. -/
opaque factoryVersion : BitVec 32

/-- Byte `i` of the SHA-512 hash of the factory's firmware slot (R542), which no rule gives. -/
opaque factoryHash : Nat → Byte

/-- The low byte of the code of the event that a link is retrained (R22 names the event, and no table gives its code); its high byte
is a subsystem's (R15). -/
opaque retrainEvent : Byte

/-- The low byte of the code of the event of a lane failure found at a retrain (R22). -/
opaque laneEvent : Byte

/-- The low byte of the code of the Logline record of a condition that its instruction does not report and that has no event of its own (R14). -/
opaque unreportedEvent : Byte

/-- The low byte of the code of the Logline record of an instruction that ended CANCELLED because of another (R203). -/
opaque cancelEvent : Byte

/-- The credits of a virtual channel of a twine link (R21), which no rule gives. -/
opaque vcCredits : Nat

/-- A byte of a command ring as a host read of BAR0 returns it: R417 says what a write into a ring does and nothing of a read. The
argument is the byte's offset in BAR0. -/
opaque ringByte : Nat → Byte

/-- The kind that an object's header records (R399) for an object that the host named: the spec gives its codes for module
identifiers only. The arguments are the partition and the identifier. -/
opaque objectKind : Nat → Nat → BitVec 64

/-- Where the controller places a page of an object in its superblock (R393 gives no map from extents to pages): the low half chooses
among the data dies, the high half the page of the block. The arguments are the partition, the identifier and the page of the object. -/
opaque flashPage : Nat → Nat → Nat → BitVec 32

end Sys2Proof.Config
end

