-- ==== Sys2Proof/Machine/Hash.lean ====
section
/-!
DEFINITION. The checks and digests the spec names: CRC-32C (R180), CRC-64 of ECMA-182 (R308), SHA-512, the RSASSA-PSS
verification of RFC 8017 (R536) and the Philox4x32-10 generator (R53).
-/
namespace Sys2Proof.Machine

/-- The initial hash value of SHA-512: the fractions of the square roots of the first eight primes. -/
def shaInit : List Nat :=
  [0x6A09E667F3BCC908, 0xBB67AE8584CAA73B, 0x3C6EF372FE94F82B, 0xA54FF53A5F1D36F1,
   0x510E527FADE682D1, 0x9B05688C2B3E6C1F, 0x1F83D9ABFB41BD6B, 0x5BE0CD19137E2179]

/-- The round constants of SHA-512: the fractions of the cube roots of the first eighty primes. -/
def shaK : List Nat :=
  [0x428A2F98D728AE22, 0x7137449123EF65CD, 0xB5C0FBCFEC4D3B2F, 0xE9B5DBA58189DBBC,
   0x3956C25BF348B538, 0x59F111F1B605D019, 0x923F82A4AF194F9B, 0xAB1C5ED5DA6D8118,
   0xD807AA98A3030242, 0x12835B0145706FBE, 0x243185BE4EE4B28C, 0x550C7DC3D5FFB4E2,
   0x72BE5D74F27B896F, 0x80DEB1FE3B1696B1, 0x9BDC06A725C71235, 0xC19BF174CF692694] ++
  [0xE49B69C19EF14AD2, 0xEFBE4786384F25E3, 0x0FC19DC68B8CD5B5, 0x240CA1CC77AC9C65,
   0x2DE92C6F592B0275, 0x4A7484AA6EA6E483, 0x5CB0A9DCBD41FBD4, 0x76F988DA831153B5,
   0x983E5152EE66DFAB, 0xA831C66D2DB43210, 0xB00327C898FB213F, 0xBF597FC7BEEF0EE4,
   0xC6E00BF33DA88FC2, 0xD5A79147930AA725, 0x06CA6351E003826F, 0x142929670A0E6E70] ++
  [0x27B70A8546D22FFC, 0x2E1B21385C26C926, 0x4D2C6DFC5AC42AED, 0x53380D139D95B3DF,
   0x650A73548BAF63DE, 0x766A0ABB3C77B2A8, 0x81C2C92E47EDAEE6, 0x92722C851482353B,
   0xA2BFE8A14CF10364, 0xA81A664BBC423001, 0xC24B8B70D0F89791, 0xC76C51A30654BE30,
   0xD192E819D6EF5218, 0xD69906245565A910, 0xF40E35855771202A, 0x106AA07032BBD1B8] ++
  [0x19A4C116B8D2D0C8, 0x1E376C085141AB53, 0x2748774CDF8EEB99, 0x34B0BCB5E19B48A8,
   0x391C0CB3C5C95A63, 0x4ED8AA4AE3418ACB, 0x5B9CCA4F7763E373, 0x682E6FF3D6B2B8A3,
   0x748F82EE5DEFB2FC, 0x78A5636F43172F60, 0x84C87814A1F0AB72, 0x8CC702081A6439EC,
   0x90BEFFFA23631E28, 0xA4506CEBDE82BDE9, 0xBEF9A3F7B2C67915, 0xC67178F2E372532B] ++
  [0xCA273ECEEA26619C, 0xD186B8C721C0C207, 0xEADA7DD6CDE0EB1E, 0xF57D4F7FEE6ED178,
   0x06F067AA72176FBA, 0x0A637DC5A2C898A6, 0x113F9804BEF90DAE, 0x1B710B35131C471B,
   0x28DB77F523047D84, 0x32CAAB7B40C72493, 0x3C9EBE0A15C9BEBC, 0x431D67C49C100D4C,
   0x4CC5D4BECB3E42B6, 0x597F299CFC657E2A, 0x5FCB6FAB3AD6FAEC, 0x6C44198C4A475817]

/-- Rotation right of a 64-bit word. -/
def rotr64 (x n : Nat) : Nat := (x >>> n) ||| ((x <<< (64 - n)) % 2 ^ 64)

/-- One more word of the SHA-512 message schedule, which is kept newest first. -/
def shaNextW (w : List Nat) : Nat :=
  let a := w.getD 14 0
  let b := w.getD 1 0
  let s0 := (rotr64 a 1) ^^^ (rotr64 a 8) ^^^ (a >>> 7)
  let s1 := (rotr64 b 19) ^^^ (rotr64 b 61) ^^^ (b >>> 6)
  (w.getD 15 0 + s0 + w.getD 6 0 + s1) % 2 ^ 64

/-- The message schedule extended by `n` words, newest first. -/
def shaSchedule : Nat → List Nat → List Nat
  | 0, w => w
  | n + 1, w => shaSchedule n (shaNextW w :: w)

/-- The eight working variables of SHA-512. -/
structure ShaVars where
  a : Nat
  b : Nat
  c : Nat
  d : Nat
  e : Nat
  f : Nat
  g : Nat
  h : Nat
  deriving DecidableEq, Repr

/-- One round of SHA-512. -/
def shaRound (v : ShaVars) (kw : Nat × Nat) : ShaVars :=
  let s1 := (rotr64 v.e 14) ^^^ (rotr64 v.e 18) ^^^ (rotr64 v.e 41)
  let ch := (v.e &&& v.f) ^^^ ((2 ^ 64 - 1 - v.e) &&& v.g)
  let t1 := v.h + s1 + ch + kw.1 + kw.2
  let s0 := (rotr64 v.a 28) ^^^ (rotr64 v.a 34) ^^^ (rotr64 v.a 39)
  let mj := (v.a &&& v.b) ^^^ (v.a &&& v.c) ^^^ (v.b &&& v.c)
  { a := (t1 + s0 + mj) % 2 ^ 64, b := v.a, c := v.b, d := v.c, e := (v.d + t1) % 2 ^ 64, f := v.e, g := v.f, h := v.g }

/-- The hash value after one 128-byte block. -/
def shaBlock (hs : List Nat) (blk : List Byte) : List Nat :=
  let w0 := (List.range 16).map (fun i => beNat (slice blk (8 * i) 8))
  let w := (shaSchedule 64 w0.reverse).reverse
  let g := fun i => hs.getD i 0
  let v := (shaK.zip w).foldl shaRound { a := g 0, b := g 1, c := g 2, d := g 3, e := g 4, f := g 5, g := g 6, h := g 7 }
  [(g 0 + v.a) % 2 ^ 64, (g 1 + v.b) % 2 ^ 64, (g 2 + v.c) % 2 ^ 64, (g 3 + v.d) % 2 ^ 64,
   (g 4 + v.e) % 2 ^ 64, (g 5 + v.f) % 2 ^ 64, (g 6 + v.g) % 2 ^ 64, (g 7 + v.h) % 2 ^ 64]

/-- The hash value after the first `n` blocks of a padded message. -/
def shaBlocks : Nat → List Nat → List Byte → List Nat
  | 0, hs, _ => hs
  | n + 1, hs, m => shaBlocks n (shaBlock hs (m.take 128)) (m.drop 128)

/-- The SHA-512 digest of a byte string, byte 0 most significant. -/
def sha512 (m : List Byte) : List Byte :=
  let n := m.length
  let padLen := (239 - n % 128) % 128
  let p := m ++ [0x80#8] ++ zeros padLen ++ beBytes 16 (8 * n)
  (shaBlocks (p.length / 128) shaInit p).flatMap (beBytes 8)

/-- `n` steps of a reflected CRC register of polynomial `p`. -/
def crcReflected (p : Nat) : Nat → Nat → Nat
  | 0, c => c
  | n + 1, c => crcReflected p n (if c % 2 = 1 then (c >>> 1) ^^^ p else c >>> 1)

/-- CRC-32C (Castagnoli) of a byte string. -/
def crc32c (m : List Byte) : Nat :=
  (m.foldl (fun c b => crcReflected 0x82F63B78 8 (c ^^^ b.toNat)) 0xFFFFFFFF) ^^^ 0xFFFFFFFF

/-- `n` steps of the CRC-64 register of ECMA-182, most significant bit first. -/
def crc64Shift : Nat → Nat → Nat
  | 0, c => c
  | n + 1, c => crc64Shift n (if bitAt c 63 then ((c <<< 1) % 2 ^ 64) ^^^ 0x42F0E1EBA9EA3693 else (c <<< 1) % 2 ^ 64)

/-- The CRC-64 of ECMA-182 register after more bytes (R308: initial value 0, no reflection, no final XOR). -/
def crc64Update (c : Nat) (m : List Byte) : Nat :=
  m.foldl (fun c b => crc64Shift 8 (c ^^^ (b.toNat <<< 56))) c

/-- The CRC-64 of ECMA-182 of a byte string (R308). -/
def crc64 (m : List Byte) : Nat := crc64Update 0 m

/-- `k` squarings of s modulo n. -/
def squareMod (n : Nat) : Nat → Nat → Nat
  | 0, s => s
  | k + 1, s => squareMod n k (s * s % n)

/-- s^65537 mod n (R536). -/
def rsaPublic (n s : Nat) : Nat := squareMod n 16 s * s % n

/-- The mask MGF1 of RFC 8017 with SHA-512: `blocks` digests of the seed and a counter. -/
def mgf1 (seed : List Byte) (blocks len : Nat) : List Byte :=
  ((List.range blocks).flatMap (fun i => sha512 (seed ++ beBytes 4 i))).take len

/-- Byte-wise exclusive or. -/
def xorBytes (a b : List Byte) : List Byte := List.zipWith (fun x y => x ^^^ y) a b

/-- RSASSA-PSS verification with RSA-4096, exponent 65,537, SHA-512, MGF1 with SHA-512, a 64-byte salt and trailer 0xBC
(R536). `n` and `s` are integers. -/
def pssVerify (n s : Nat) (msg : List Byte) : Bool :=
  if n < 2 ^ 4095 ∨ n ≤ s then false else
    let em := beBytes 512 (rsaPublic n s)
    let maskedDb := em.take 447
    let h := slice em 447 64
    let db0 := xorBytes maskedDb (mgf1 h 7 447)
    let db := match db0 with
      | [] => []
      | b :: bs => (b &&& 0x7F#8) :: bs
    let salt := db.drop 383
    bitAt ((maskedDb.headD 0).toNat) 7 == false && em.getD 511 0 == 0xBC#8 &&
      db.take 383 == zeros 382 ++ [0x01#8] &&
      sha512 (zeros 8 ++ sha512 msg ++ salt) == h

/-- One round of Philox4x32: the counter words and the key words. -/
def philoxRound (c : Nat × Nat × Nat × Nat) (k : Nat × Nat) : Nat × Nat × Nat × Nat :=
  let p0 := 0xD2511F53 * c.1
  let p1 := 0xCD9E8D57 * c.2.2.1
  (((p1 >>> 32) ^^^ c.2.1 ^^^ k.1), p1 % 2 ^ 32, ((p0 >>> 32) ^^^ c.2.2.2 ^^^ k.2), p0 % 2 ^ 32)

/-- `n` rounds of Philox4x32, the key raised by the Weyl constants between rounds. -/
def philoxRounds : Nat → Nat × Nat × Nat × Nat → Nat × Nat → Nat × Nat × Nat × Nat
  | 0, c, _ => c
  | n + 1, c, k => philoxRounds n (philoxRound c k) ((k.1 + 0x9E3779B9) % 2 ^ 32, (k.2 + 0xBB67AE85) % 2 ^ 32)

/-- The 128-bit output of Philox4x32 with 10 rounds, word 0 in bits 31:0 (R53). -/
def philox (key : Nat × Nat) (ctr : Nat × Nat × Nat × Nat) : Nat :=
  let o := philoxRounds 10 ctr key
  o.1 + o.2.1 * 2 ^ 32 + o.2.2.1 * 2 ^ 64 + o.2.2.2 * 2 ^ 96

/-- The 16-bit random value of weight element address `a` at a step (R53). -/
def weightRandom (seed step a : Nat) : Nat :=
  field (philox (field seed 0 32, field seed 32 32) (field a 3 32, field a 35 5, step % 2 ^ 32, 0)) (16 * (a % 8)) 16

end Sys2Proof.Machine
end

