-- ==== Sys2Proof/Machine/Mem.lean ====
section
/-!
DEFINITION. Named operations over byte memories, sparse maps and sets of numbers, each in one canonical form: keys
strictly rising and no entry at the value an absent key reads as.
-/
namespace Sys2Proof.Machine

/-! ### Byte memories -/

/-- The byte at an address; an address that is not listed reads as zero. -/
def Mem.get : Mem → Nat → Byte
  | [], _ => 0
  | (b, v) :: rest, a => if b = a then v else Mem.get rest a

/-- The cells of consecutive bytes from `a`, zero bytes left out. -/
def Mem.cells : Nat → List Byte → Mem
  | _, [] => []
  | a, b :: bs => if b = 0 then Mem.cells (a + 1) bs else (a, b) :: Mem.cells (a + 1) bs

/-- The memory with consecutive bytes stored from `a`. -/
def Mem.write (mem : Mem) (a : Nat) (bs : List Byte) : Mem :=
  mem.filter (fun c => c.1 < a) ++ Mem.cells a bs ++ mem.filter (fun c => a + bs.length ≤ c.1)

/-- `n` bytes from address `a` out of cells that begin at or after `a`. -/
def Mem.walk : Nat → Nat → Mem → List Byte
  | 0, _, _ => []
  | n + 1, a, [] => 0 :: Mem.walk n (a + 1) []
  | n + 1, a, (b, v) :: rest => if b = a then v :: Mem.walk n (a + 1) rest else 0 :: Mem.walk n (a + 1) ((b, v) :: rest)

/-- The `n` bytes from address `a`. -/
def Mem.read (mem : Mem) (a n : Nat) : List Byte := Mem.walk n a (mem.dropWhile (fun c => c.1 < a))

/-- The canonical form from a lower bound: addresses strictly rising, no zero byte listed. -/
def Mem.wfFrom : Nat → Mem → Bool
  | _, [] => true
  | lo, (a, b) :: rest => decide (lo ≤ a) && b != 0 && Mem.wfFrom (a + 1) rest

/-- The canonical form of a byte memory. -/
def Mem.wf (mem : Mem) : Bool := Mem.wfFrom 0 mem

/-- The memory with the bytes of a range at zero. -/
def Mem.clear (mem : Mem) (a n : Nat) : Mem := mem.filter (fun c => decide (c.1 < a) || decide (a + n ≤ c.1))

/-- The memory with single bytes stored one after the other. -/
def Mem.writeCells (mem : Mem) (cs : List Host.Cell) : Mem := cs.foldl (fun acc c => acc.write c.1 [c.2]) mem

/-- A little-endian value of `n` bytes. -/
def Mem.readLe (mem : Mem) (a n : Nat) : Nat := leNat (mem.read a n)

/-- The memory with a little-endian value of `n` bytes stored. -/
def Mem.writeLe (mem : Mem) (a n v : Nat) : Mem := mem.write a (leBytes n v)

/-! ### Sparse maps -/

/-- The value of a key, if it is listed. -/
def NatMap.find? : NatMap → Nat → Option Nat
  | [], _ => none
  | (j, v) :: rest, k => if j = k then some v else NatMap.find? rest k

/-- The value of a key; 0 where it is not listed. -/
def NatMap.get (t : NatMap) (k : Nat) : Nat := (t.find? k).getD 0

/-- The map with a key at a value whose absence reads as `dflt`. -/
def NatMap.put (dflt : Nat) (t : NatMap) (k v : Nat) : NatMap :=
  t.filter (fun c => c.1 < k) ++ (if v = dflt then [] else [(k, v)]) ++ t.filter (fun c => k < c.1)

/-- The map with a key at a value whose absence reads as 0. -/
def NatMap.set (t : NatMap) (k v : Nat) : NatMap := NatMap.put 0 t k v

/-- The map with a number added to a key's value. -/
def NatMap.add (t : NatMap) (k n : Nat) : NatMap := t.set k (t.get k + n)

/-- The map with the keys of a range at 0. -/
def NatMap.clear (t : NatMap) (a n : Nat) : NatMap := t.filter (fun c => decide (c.1 < a) || decide (a + n ≤ c.1))

/-- Keys strictly rising from a bound. -/
def NatMap.sortedFrom : Nat → NatMap → Bool
  | _, [] => true
  | lo, (k, _) :: rest => decide (lo ≤ k) && NatMap.sortedFrom (k + 1) rest

/-- Keys strictly rising. -/
def NatMap.sorted (t : NatMap) : Bool := NatMap.sortedFrom 0 t

/-! ### Sets of numbers -/

/-- The set with a number in it. -/
def insertNat (l : List Nat) (k : Nat) : List Nat := l.filter (· < k) ++ [k] ++ l.filter (k < ·)

/-- The set without a number. -/
def eraseNat (l : List Nat) (k : Nat) : List Nat := l.filter (· ≠ k)

/-- The set with every number of a list. -/
def insertAll (l ks : List Nat) : List Nat := ks.foldl insertNat l

/-- The set without the numbers a, …, a + n − 1. -/
def eraseRange (l : List Nat) (a n : Nat) : List Nat := l.filter (fun k => decide (k < a) || decide (a + n ≤ k))

/-! ### Poison: one bit for each 32-byte granule (R106, R356) -/

/-- The granules that the bytes a, …, a + n − 1 touch. -/
def granules (a n : Nat) : List Nat := if n = 0 then [] else (List.range ((a + n - 1) / 32 + 1 - a / 32)).map (· + a / 32)

/-- Whether a byte range touches a poisoned granule. -/
def poisonHit (ps : List Nat) (a n : Nat) : Bool :=
  decide (0 < n) && ps.any (fun g => decide (a / 32 ≤ g) && decide (g ≤ (a + n - 1) / 32))

/-- The poison after a write of `n` clean bytes: every granule that it covers whole becomes clean (R106, R108). -/
def poisonClean (ps : List Nat) (a n : Nat) : List Nat :=
  ps.filter (fun g => !(decide (a ≤ 32 * g) && decide (32 * g + 32 ≤ a + n)))

/-- The poison after a write of `n` bytes that carries poison to every granule it touches. -/
def poisonSet (ps : List Nat) (a n : Nat) : List Nat := insertAll ps (granules a n)

/-- The stored codewords with errors once `n` bytes at an HBM address have been written: a write encodes its granules anew, a merge from
what its read returned (R362). -/
def rewritten (bs : List BadBurst) (a n : Nat) : List BadBurst :=
  bs.filter (fun b => !(decide (a < 32 * b.granule + 32) && decide (32 * b.granule < a + n)))

end Sys2Proof.Machine
end

