-- ==== Sys2Proof/Machine/Dict.lean ====
section
/-!
DEFINITION. The object dictionary: which objects are present, their types, access rights, defaults and declared ranges
(R460 to R472 and the object table of each chapter).
-/
namespace Sys2Proof.Machine

/-- One row of the dictionary: objects index..indexLast at sub-indices sub..subLast share a type code and an access code
(R439), a default, a declared range, and for a DOMAIN or STR a maximum length in bytes. -/
inductive ObjDef where
  | row (index indexLast sub subLast type access dflt lo hi len : Nat)
  deriving DecidableEq, Repr

/-- The dictionary key of an object: 256 × index + sub-index. -/
def odKey (index sub : Nat) : Nat := 256 * index + sub

/-- Range 0x1000 (R458, R465, R466). -/
def dictIdentity : List ObjDef := [
  .row 0x1010 0x1010 1 1 8 4 0 0 0 6,
  .row 0x1010 0x1010 2 2 1 0 0 0 255 0,
  .row 0x1010 0x1010 3 3 1 3 8 1 8 0,
  .row 0x1010 0x1010 4 4 1 3 32 20 255 0,
  .row 0x1010 0x1010 5 7 4 0 0 0 18446744073709551615 0,
  .row 0x1018 0x1018 1 1 3 4 1397443674 0 4294967295 0,
  .row 0x1018 0x1018 2 2 3 4 9 0 4294967295 0,
  .row 0x1018 0x1018 3 3 2 4 0 0 65535 0,
  .row 0x1018 0x1018 4 4 7 4 0 0 0 16,
  .row 0x1018 0x1018 5 5 1 4 0 0 255 0,
  .row 0x1018 0x1018 6 6 2 4 0 0 65535 0,
  .row 0x1018 0x1018 7 7 2 4 9 0 65535 0,
  .row 0x1018 0x1018 8 8 2 4 0 0 65535 0,
  .row 0x1018 0x1018 9 9 3 0 0 0 4294967295 0,
  .row 0x1018 0x1018 10 10 4 0 0 0 18446744073709551615 0,
  .row 0x1020 0x1020 1 1 1 4 1 0 255 0,
  .row 0x1020 0x1020 2 2 1 4 0 0 255 0,
  .row 0x1020 0x1020 3 3 8 4 0 0 0 16,
  .row 0x1020 0x1020 4 4 8 0 0 0 0 32,
  .row 0x1030 0x1030 1 1 2 3 2046 0 65535 0,
  .row 0x1030 0x1030 2 2 3 0 0 0 4294967295 0,
  .row 0x1030 0x1030 3 3 4 0 0 0 18446744073709551615 0,
  .row 0x1410 0x1410 1 10 1 1 2 0 2 0,
  .row 0x1F10 0x1F10 1 1 3 0 0 0 4294967295 0,
  .row 0x1F10 0x1F10 2 2 2 0 0 0 65535 0,
  .row 0x1F10 0x1F10 3 3 2 4 12 0 65535 0,
  .row 0x1F10 0x1F10 4 4 8 0 0 0 0 40]

/-- Range 0x2000 (R468). -/
def dictPower : List ObjDef := [
  .row 0x2010 0x2010 1 1 2 4 880 0 65535 0,
  .row 0x2010 0x2010 2 2 2 4 2100 0 65535 0,
  .row 0x2010 0x2010 3 3 1 4 100 0 255 0,
  .row 0x2010 0x2010 4 4 1 4 115 0 255 0,
  .row 0x2020 0x2020 1 1 2 3 2100 1050 2100 0,
  .row 0x2020 0x2020 2 2 8 0 0 0 0 96,
  .row 0x2030 0x2030 1 1 3 3 24000 5000 24000 0,
  .row 0x2030 0x2030 2 2 3 0 0 0 4294967295 0,
  .row 0x2030 0x2030 3 3 3 0 0 0 4294967295 0,
  .row 0x2030 0x2030 4 4 4 0 0 0 18446744073709551615 0,
  .row 0x2040 0x2040 1 1 8 0 0 0 0 104]

/-- Range 0x3000 (R83, R469, R453, R90, R496, R64, R150, R177, R207, R212, R236, R265, R351, R391). -/
def dictCompute : List ObjDef := [
  .row 0x3010 0x3010 1 48 3 4 0 0 4294967295 0,
  .row 0x3020 0x3020 1 1 4 3 281474976710656 0 4503599627370495 0,
  .row 0x3020 0x3020 2 2 4 0 0 0 18446744073709551615 0,
  .row 0x3030 0x3030 1 12 3 3 0 0 4294967295 0,
  .row 0x3030 0x3030 13 24 3 0 0 0 4294967295 0,
  .row 0x3100 0x3100 1 12 3 1 0 0 4294967295 0,
  .row 0x3102 0x3102 1 12 3 0 0 0 4294967295 0,
  .row 0x3104 0x3104 1 12 3 2 0 0 4294967295 0,
  .row 0x3120 0x3120 1 1 1 3 2 0 6 0,
  .row 0x3120 0x3120 2 5 4 0 0 0 18446744073709551615 0,
  .row 0x3120 0x3120 6 6 1 3 1 0 3 0,
  .row 0x3120 0x3120 7 8 4 0 0 0 18446744073709551615 0,
  .row 0x3120 0x3120 9 9 1 3 1 0 1 0,
  .row 0x3120 0x3120 10 10 1 2 0 0 255 0,
  .row 0x3120 0x3120 11 11 1 3 30 0 60 0,
  .row 0x3120 0x3120 12 12 1 3 10 0 14 0,
  .row 0x3120 0x3120 13 13 1 3 10 1 240 0,
  .row 0x3120 0x3120 14 14 1 0 0 0 255 0,
  .row 0x3130 0x3130 1 2 4 0 0 0 18446744073709551615 0,
  .row 0x3140 0x3140 1 4 4 0 0 0 18446744073709551615 0,
  .row 0x3150 0x3150 1 10 4 0 0 0 18446744073709551615 0,
  .row 0x3160 0x3160 1 10 4 0 0 0 18446744073709551615 0,
  .row 0x3200 0x3200 1 16 8 0 0 0 0 128,
  .row 0x3210 0x3210 1 1 4 4 1640677507072 0 18446744073709551615 0,
  .row 0x3210 0x3210 2 5 4 0 0 0 18446744073709551615 0,
  .row 0x3210 0x3210 6 6 2 0 0 0 65535 0,
  .row 0x3220 0x3220 1 5 4 0 0 0 18446744073709551615 0,
  .row 0x3230 0x3230 1 7 4 0 0 0 18446744073709551615 0,
  .row 0x3230 0x3230 8 8 1 3 4 1 16 0,
  .row 0x3230 0x3230 9 10 4 0 0 0 18446744073709551615 0,
  .row 0x3230 0x3230 11 11 1 3 255 0 255 0,
  .row 0x3240 0x3240 1 16 8 0 0 0 0 256,
  .row 0x3250 0x3250 1 4 4 0 0 0 18446744073709551615 0,
  .row 0x3260 0x3260 1 1 1 3 0 0 1 0,
  .row 0x3260 0x3260 2 2 2 3 32 1 1024 0,
  .row 0x3260 0x3260 3 6 4 0 0 0 18446744073709551615 0,
  .row 0x3270 0x3270 1 1 8 0 0 0 0 49152,
  .row 0x3270 0x3270 2 9 4 0 0 0 18446744073709551615 0]

/-- Range 0x4000 (R374, R121, R351). -/
def dictMemory : List ObjDef := [
  .row 0x4000 0x4000 1 24 8 0 0 0 0 1024,
  .row 0x4010 0x4010 1 1 3 3 0 0 16777215 0,
  .row 0x4010 0x4010 2 3 3 0 0 0 4294967295 0,
  .row 0x4020 0x4020 1 4 4 0 0 0 18446744073709551615 0,
  .row 0x4020 0x4020 5 5 8 0 0 0 0 6144,
  .row 0x4020 0x4020 6 6 1 3 8 1 64 0,
  .row 0x4020 0x4020 7 9 4 0 0 0 18446744073709551615 0,
  .row 0x4030 0x4030 1 1 8 0 0 0 0 48,
  .row 0x4030 0x4030 2 2 8 0 0 0 0 24,
  .row 0x4030 0x4030 3 4 4 0 0 0 18446744073709551615 0,
  .row 0x4200 0x4200 1 4 4 0 0 0 18446744073709551615 0,
  .row 0x4200 0x4200 5 5 8 0 0 0 0 1536,
  .row 0x4200 0x4200 6 6 4 0 0 0 18446744073709551615 0,
  .row 0x4200 0x4200 7 7 1 3 4 1 32 0,
  .row 0x4200 0x4200 8 8 8 0 0 0 0 18432,
  .row 0x4200 0x4200 9 9 3 3 10000 0 4294967295 0,
  .row 0x4200 0x4200 10 10 2 0 0 0 65535 0,
  .row 0x4210 0x4210 1 4 4 0 0 0 18446744073709551615 0,
  .row 0x4210 0x4210 5 5 8 0 0 0 0 384,
  .row 0x4210 0x4210 6 6 8 0 0 0 0 3072,
  .row 0x4220 0x4220 1 1 8 0 0 0 0 262144,
  .row 0x4220 0x4220 2 6 4 0 0 0 18446744073709551615 0]

/-- Range 0x5000 (R433, R290, R321, R467). -/
def dictHost : List ObjDef := [
  .row 0x5100 0x5100 1 1 8 0 0 0 0 8,
  .row 0x5100 0x5100 2 8 4 0 0 0 18446744073709551615 0,
  .row 0x5100 0x5100 9 9 2 3 1000 1 60000 0,
  .row 0x5100 0x5100 10 10 8 0 0 0 0 16,
  .row 0x5200 0x5200 1 1 2 3 65535 0 65535 0,
  .row 0x5200 0x5200 2 2 2 3 1 1 256 0,
  .row 0x5200 0x5200 3 3 0 0 0 0 1 0,
  .row 0x5200 0x5200 4 4 3 3 0 0 4294967295 0,
  .row 0x5200 0x5200 5 5 1 3 255 0 255 0,
  .row 0x5200 0x5200 6 6 1 0 0 0 255 0,
  .row 0x5200 0x5200 7 7 1 3 1 1 4 0,
  .row 0x5200 0x5200 8 8 0 3 1 0 1 0,
  .row 0x5210 0x5210 1 1 8 0 0 0 0 16,
  .row 0x5210 0x5210 2 9 4 0 0 0 18446744073709551615 0,
  .row 0x5220 0x5220 1 1 2 3 0 0 65535 0,
  .row 0x5230 0x5230 1 1 8 0 0 0 0 2,
  .row 0x5230 0x5230 2 2 8 0 0 0 0 8]

/-- Range 0x6000 (R413). -/
def dictStore : List ObjDef := [
  .row 0x6000 0x6000 1 1 0 3 0 0 1 0,
  .row 0x6000 0x6000 2 2 1 0 0 0 255 0,
  .row 0x6010 0x6010 1 1 3 3 3670016 0 4294967295 0,
  .row 0x6010 0x6010 2 2 3 3 524288 0 4294967295 0,
  .row 0x6010 0x6010 3 3 3 3 1525488 0 4294967295 0,
  .row 0x6010 0x6010 4 4 8 0 0 0 0 16,
  .row 0x6020 0x6020 1 1 3 0 0 0 4294967295 0,
  .row 0x6020 0x6020 2 5 2 0 0 0 65535 0,
  .row 0x6020 0x6020 6 7 3 0 0 0 4294967295 0,
  .row 0x6020 0x6020 8 13 4 0 0 0 18446744073709551615 0,
  .row 0x6020 0x6020 14 14 2 3 100 10 1000 0,
  .row 0x6020 0x6020 15 15 2 3 500 10 3000 0,
  .row 0x6020 0x6020 16 16 1 3 60 8 100 0,
  .row 0x6030 0x6030 1 1 8 3 0 0 0 128]

/-- Range 0x7000 (R321, R64, R288). -/
def dictUpdate : List ObjDef := [
  .row 0x7110 0x7110 1 1 2 3 256 1 4096 0,
  .row 0x7110 0x7110 2 3 4 0 0 0 18446744073709551615 0,
  .row 0x7110 0x7110 4 4 1 3 3 1 16 0,
  .row 0x7110 0x7110 5 5 1 3 0 0 2 0,
  .row 0x7110 0x7110 6 6 0 0 0 0 1 0,
  .row 0x7110 0x7110 7 7 4 0 0 0 18446744073709551615 0,
  .row 0x7120 0x7120 1 1 3 3 16 0 4294967295 0,
  .row 0x7120 0x7120 2 2 1 3 8 0 15 0,
  .row 0x7120 0x7120 3 3 2 3 256 0 65535 0,
  .row 0x7120 0x7120 4 7 4 0 0 0 18446744073709551615 0,
  .row 0x7130 0x7130 1 5 4 0 0 0 18446744073709551615 0,
  .row 0x7130 0x7130 6 6 1 3 3 1 16 0,
  .row 0x7130 0x7130 7 7 3 0 0 0 4294967295 0,
  .row 0x7130 0x7130 8 8 4 0 0 0 18446744073709551615 0,
  .row 0x7140 0x7140 1 1 3 3 500 0 4294967295 0,
  .row 0x7140 0x7140 2 2 8 0 0 0 0 128,
  .row 0x7140 0x7140 3 4 4 0 0 0 18446744073709551615 0]

/-- Range 0x8000 (R470). -/
def dictLogline : List ObjDef := [
  .row 0x8010 0x8010 1 1 1 3 8 1 60 0,
  .row 0x8010 0x8010 2 2 1 3 16 1 64 0,
  .row 0x8010 0x8010 3 3 8 3 115792089237316195423570985008687907853269984665640564039457584007913129639935 0 0 32,
  .row 0x8020 0x8020 1 4 4 0 0 0 18446744073709551615 0,
  .row 0x8030 0x8030 1 1 8 1 0 0 0 16368,
  .row 0x8030 0x8030 2 2 8 0 0 0 0 4096]

/-- Range 0xA000 (R458, R472, R546). -/
def dictSecurity : List ObjDef := [
  .row 0xA010 0xA010 1 1 1 0 0 0 255 0,
  .row 0xA010 0xA010 2 2 8 0 0 0 0 8,
  .row 0xA010 0xA010 3 3 3 0 0 0 4294967295 0,
  .row 0xA010 0xA010 4 4 1 0 255 0 255 0,
  .row 0xA010 0xA010 5 5 3 0 0 0 4294967295 0,
  .row 0xA020 0xA020 1 1 1 3 0 0 1 0,
  .row 0xA020 0xA020 2 2 8 3 0 0 0 512,
  .row 0xA020 0xA020 3 4 1 0 0 0 255 0,
  .row 0xA020 0xA020 5 5 0 0 0 0 1 0,
  .row 0xA030 0xA030 1 1 8 4 0 0 0 8192,
  .row 0xA040 0xA040 1 1 8 2 0 0 0 32,
  .row 0xA040 0xA040 2 2 8 0 0 0 0 2080]

/-- The factory objects of range 0x9000 (R544). -/
def dictCalib : List ObjDef := [
  .row 0x9000 0x902F 1 16 9 4 0 0 0 0,
  .row 0x9030 0x9033 1 4 9 4 0 0 0 0,
  .row 0x9040 0x9057 1 1 9 4 0 0 0 0,
  .row 0x9060 0x9060 1 1 5 4 0 0 0 0,
  .row 0x9060 0x9060 2 2 6 4 1065353216 0 0 0,
  .row 0x9100 0x912F 1 5 2 4 0 0 65535 0,
  .row 0x9200 0x920F 1 8 2 4 0 0 4095 0,
  .row 0x9300 0x930F 1 8 1 4 0 0 31 0,
  .row 0x9320 0x9321 1 16 1 4 0 0 31 0,
  .row 0x9400 0x9433 1 2 9 4 0 0 0 0]

/-- The commit objects of the ten ranges (R448). -/
def dictCommit : List ObjDef :=
  (List.range 10).flatMap (fun n =>
    let ix := 0x10FE + 0x1000 * n
    [.row ix ix 1 1 1 2 0 0 255 0, .row ix ix 2 2 1 0 0 0 255 0, .row ix ix 3 3 3 0 0 0 4294967295 0])

/-- Each user calibration object lies 0x0800 above its factory object, with RWS access and default 0 (R471). -/
def dictUserCalib : List ObjDef :=
  dictCalib.map (fun d => match d with
    | .row i j s t ty _ _ lo hi len => .row (i + 0x800) (j + 0x800) s t ty 3 0 lo hi len)

/-- The whole dictionary (R464): exactly these indices. -/
def dictionary : List ObjDef :=
  dictIdentity ++ dictPower ++ dictCompute ++ dictMemory ++ dictHost ++ dictStore ++ dictUpdate ++ dictLogline ++
  dictSecurity ++ dictCalib ++ dictUserCalib ++ dictCommit

/-- Whether a row holds an index. -/
def ObjDef.hasIndex (i : Nat) : ObjDef → Bool
  | .row a b _ _ _ _ _ _ _ _ => decide (a ≤ i) && decide (i ≤ b)

/-- Whether a row holds an object. -/
def ObjDef.has (i s : Nat) : ObjDef → Bool
  | .row a b c d _ _ _ _ _ _ => decide (a ≤ i) && decide (i ≤ b) && decide (c ≤ s) && decide (s ≤ d)

/-- The highest sub-index of a row. -/
def ObjDef.last : ObjDef → Nat
  | .row _ _ _ d _ _ _ _ _ _ => d

/-- The type code (R439). -/
def ObjDef.type : ObjDef → Nat
  | .row _ _ _ _ t _ _ _ _ _ => t

/-- The access code (R439): 0 RO, 1 RW, 2 WO, 3 RWS, 4 CONST. -/
def ObjDef.access : ObjDef → Nat
  | .row _ _ _ _ _ a _ _ _ _ => a

/-- The default. -/
def ObjDef.dflt : ObjDef → Nat
  | .row _ _ _ _ _ _ d _ _ _ => d

/-- The lowest declared value. -/
def ObjDef.lo : ObjDef → Nat
  | .row _ _ _ _ _ _ _ l _ _ => l

/-- The highest declared value. -/
def ObjDef.hi : ObjDef → Nat
  | .row _ _ _ _ _ _ _ _ h _ => h

/-- The maximum length of a DOMAIN or STR. -/
def ObjDef.len : ObjDef → Nat
  | .row _ _ _ _ _ _ _ _ _ n => n

/-- The width in bytes of a scalar type code (R439); 0 for STR and DOMAIN. -/
def typeWidth : Nat → Nat
  | 0 => 1 | 1 => 1 | 2 => 2 | 3 => 4 | 4 => 8 | 5 => 4 | 6 => 4 | 9 => 2 | _ => 0

/-- The highest sub-index present at an index; none where the index is absent (R460). -/
def lastSub (i : Nat) : Option Nat :=
  match dictionary.filter (ObjDef.hasIndex i) with
  | [] => none
  | ds => some ((ds.map ObjDef.last).foldl max 0)

/-- The row of an object; sub-index 0 of every present index is a U8 CONST holding the highest sub-index (R460). -/
def objDef (i s : Nat) : Option ObjDef :=
  if s = 0 then (lastSub i).map (fun h => .row i i 0 0 1 4 h 0 255 0)
  else dictionary.find? (ObjDef.has i s)

/-- The default of an object by key; 0 for an absent one. -/
def odDefault (key : Nat) : Nat :=
  match objDef (key / 256) (key % 256) with
  | some d => d.dflt
  | none => 0

/-- The range number of an index (R461). -/
def odRange (index : Nat) : Nat := index / 0x1000

/-- The offered feature word (R451). -/
def featuresOffered : Nat := maskOf [0, 1, 2, 3, 8, 9, 16, 17, 18, 19, 24]

/-- Whether a key's value persists across a loss of 54 V in the format record (R462). -/
def odPersists (key : Nat) : Bool :=
  let i := key / 256
  let s := key % 256
  (i == 0x1018 && (s == 9 || s == 10)) || (i == 0x6020 && decide (1 ≤ s) && decide (s ≤ 7)) ||
  (i == 0x6010 && decide (1 ≤ s) && decide (s ≤ 3)) || (i == 0x6030 && s == 1) ||
  (decide (0x9800 ≤ i) && decide (i ≤ 0x9FFF)) || (i == 0xA020 && s == 1) || (i == 0x8020 && (s == 3 || s == 4))

/-- The value in force of a stored object. -/
def Module.odGet (m : Module) (key : Nat) : Nat := (NatMap.find? m.od key).getD (odDefault key)

/-- The module with an object at a value. -/
def Module.odSet (m : Module) (key v : Nat) : Module := { m with od := NatMap.put (odDefault key) m.od key v }

/-- The module with a 64-bit counter advanced by `n`. -/
def Module.bump (m : Module) (key n : Nat) : Module := m.odSet key ((m.odGet key + n) % 2 ^ 64)

end Sys2Proof.Machine
end

