-- ==== Sys2Proof/Machine/Ops.lean ====
section
/-!
DEFINITION. Named operations over the module: units by number, dictionary counters, Logline records with their
notifications (R450, R491, R492), replace reasons (R466) and fence requests (R23).
-/
namespace Sys2Proof.Machine

/-! ### Units by number -/

/-- Core `g`. -/
def Module.core (m : Module) (g : Nat) : Core := m.cores.getD g Core.reset

/-- The module with core `g` changed. -/
def Module.onCore (m : Module) (g : Nat) (f : Core → Core) : Module := { m with cores := modifyAt f m.cores g }

/-- Cluster `k`, numbered 2d + cluster (R463). -/
def Module.cluster (m : Module) (k : Nat) : Cluster := m.clusters.getD k Cluster.reset

/-- The module with cluster `k` changed. -/
def Module.onCluster (m : Module) (k : Nat) (f : Cluster → Cluster) : Module :=
  { m with clusters := modifyAt f m.clusters k }

/-- Job context `j`. -/
def Module.job (m : Module) (j : Nat) : Job := m.jobs.getD j Job.free

/-- The module with job context `j` changed. -/
def Module.onJob (m : Module) (j : Nat) (f : Job → Job) : Module := { m with jobs := modifyAt f m.jobs j }

/-- The module with the run part of job context `j` changed. -/
def Module.onRun (m : Module) (j : Nat) (f : Run → Run) : Module := m.onJob j (fun b => { b with run := f b.run })

/-- Die `d`: compute dies 0 to 47, then E0 to E3. -/
def Module.die (m : Module) (d : Nat) : Die := m.dies.getD d (Die.reset false)

/-- The module with die `d` changed. -/
def Module.onDie (m : Module) (d : Nat) (f : Die → Die) : Module := { m with dies := modifyAt f m.dies d }

/-- Stack S(p). -/
def Module.stack (m : Module) (p : Nat) : Stack := m.hbmStacks.getD p Stack.reset

/-- The module with stack S(p) changed. -/
def Module.onStack (m : Module) (p : Nat) (f : Stack → Stack) : Module := { m with hbmStacks := modifyAt f m.hbmStacks p }

/-- Host port `p`. -/
def Module.port (m : Module) (p : Nat) : Port := m.host.ports.getD p Port.reset

/-- The module with a host port changed. -/
def Module.onPort (m : Module) (p : Nat) (f : Port → Port) : Module :=
  { m with host := { m.host with ports := modifyAt f m.host.ports p } }

/-- Queue `q`, numbered 8 × port + queue. -/
def Module.queue (m : Module) (q : Nat) : Queue := m.host.queues.getD q Queue.reset

/-- The module with a queue changed. -/
def Module.onQueue (m : Module) (q : Nat) (f : Queue → Queue) : Module :=
  { m with host := { m.host with queues := modifyAt f m.host.queues q } }

/-- The module with a mailbox changed. -/
def Module.onMailbox (m : Module) (p : Nat) (f : Mailbox → Mailbox) : Module :=
  m.onPort p (fun t => { t with mailbox := f t.mailbox })

/-- Hawser port `n`. -/
def Module.hawser (m : Module) (n : Nat) : Hawser := m.hawsers.getD n Hawser.reset

/-- The module with a hawser port changed. -/
def Module.onHawser (m : Module) (n : Nat) (f : Hawser → Hawser) : Module :=
  { m with hawsers := modifyAt f m.hawsers n }

/-- The die of a core. -/
def dieOf (g : Nat) : Nat := g / 8

/-- The cluster of a core, numbered over the module. -/
def clusterOf (g : Nat) : Nat := g / 4

/-- Whether the module has its 54 V input good. Nothing but the power commands acts while it has not (R512, R518). -/
def Module.powered (m : Module) : Bool := m.power.phase == .on && !m.power.mrst

/-- The bits of a predicate over units 32i to 32i + 31 as one word. -/
def wordOf (f : Nat → Bool) (base n : Nat) : Nat := maskOf ((List.range n).filter (fun b => f (base + b)))

/-- The A points in MHz, fastest first (R504). -/
def aPoints : List Nat := [2100, 1800, 1575, 1260, 1050]

/-- The A point that a request in MHz stands for: the highest at or below it, 1,050 where none is (R468). -/
def pointOf (mhz : Nat) : Nat := (indexOf (fun p => decide (p ≤ mhz)) aPoints).getD 4

/-- One more free value used. -/
def Module.nextFree (m : Module) : Module := { m with freeNo := m.freeNo + 1 }

/-! ### Interrupts, frames and notifications -/

/-- One MSI-X message of a vector from a port. -/
def Module.fire (m : Module) (port vector : Nat) : Module :=
  { m with host := { m.host with irqs := m.host.irqs.add (16 * port + vector) 1 } }

/-- A management message: header (R438) and body. The module speaks major 1, minor 0. -/
def message (type seq status : Nat) (clamped overridden response : Bool) (body : List Byte) : List Byte :=
  leBytes 4 body.length ++ leBytes 2 type ++ leBytes 1 0 ++ leBytes 1 1 ++
  leBytes 4 ((if clamped then 2 ^ 17 else 0) + (if overridden then 2 ^ 16 else 0) + (if response then 1 else 0) + status * 2 ^ 24) ++
  leBytes 4 seq ++ body

/-- The module's own MAC address as six bytes, first byte first (R491: the first byte is in bits 47:40). -/
def macBytes (mac : Nat) : List Byte := beBytes 6 mac

/-- An Ethernet II frame with EtherType 0x88B5 and a route word (R435, R436), padded to the least payload of 46 bytes. -/
def frameOf (dst src : Nat) (toNode fromNode : Nat) (msg : List Byte) : List Byte :=
  macBytes dst ++ macBytes src ++ beBytes 2 0x88B5 ++
  padTo (max 46 (4 + msg.length)) (leBytes 1 toNode ++ leBytes 1 fromNode ++ zeros 2 ++ msg)

/-- The field network is silent while the reference has been absent since PWRGD (R503) and while no beacon is heard (R534). -/
def Module.fieldUp (m : Module) : Bool := m.power.refState != 3 && !m.mgmt.beaconLost

/-- A frame sent on the field network, where it can be. -/
def Module.sendFrame (fu : Fuses) (m : Module) (dst toNode : Nat) (msg : List Byte) : Module :=
  if m.fieldUp then
    { m with mgmt := { m.mgmt with frames := m.mgmt.frames ++ [frameOf dst fu.mac toNode m.power.node msg] } }.bump
      (odKey 0x1010 6) 1
  else m

/-- The bytes of a Logline record (R491). -/
def LogRec.bytes (r : LogRec) : List Byte :=
  leBytes 4 r.seq ++
  leBytes 4 (r.suppressed + (if r.secondary then 512 else 0) + 1024 * ((2 + r.items.length) % 64) + 65536 * r.code) ++
  leBytes 3 r.cycles ++ leBytes 5 r.ops ++ r.items.flatMap (leBytes 8)

/-- The entries of a notify ring (R441). -/
def ntSize : Nat := 56

/-- A notification written into the ring of a port, or dropped where it is full (R450). The ring is written only where
nt_enable is 1. -/
def Module.notifyPort (m : Module) (p : Nat) (msg : List Byte) : Module :=
  let b := (m.port p).mailbox
  if !b.ntEnable then m
  else if (b.ntTail + 1) % ntSize = b.ntHead then
    (m.onMailbox p (fun b => { b with ntOverflow := true })).bump (odKey 0x1030 3) 1
  else
    (m.onMailbox p (fun b =>
      { b with ring := b.ring.filter (fun e => e.1 ≠ b.ntTail) ++ [(b.ntTail, padTo 512 msg)],
               ntTail := (b.ntTail + 1) % ntSize })).fire p 8

/-- The NOTIFY of an accepted record, where notify_mask asks for it (R450). -/
def Module.notifyRec (fu : Fuses) (m : Module) (r : LogRec) : Module :=
  if bitAt (m.odGet (odKey 0x1030 1)) (r.code / 256) then
    let seq := (m.odGet (odKey 0x1030 2) + 1) % 2 ^ 32
    let msg := message 0x0020 seq 0 false false false r.bytes
    (((m.odSet (odKey 0x1030 2) seq).sendFrame fu (2 ^ 48 - 1) 0xFF msg).notifyPort 0 msg).notifyPort 1 msg
  else m

/-! ### Logline (R491 to R493) -/

/-- Bytes of a record. -/
def LogRec.size (r : LogRec) : Nat := 16 + 8 * r.items.length

/-- The records that a 1 MiB ring still holds after the oldest gave way, and how many were lost (R493). -/
def ringFit : List LogRec → Nat → List LogRec × Nat
  | [], lost => ([], lost)
  | r :: rs, lost =>
    if 2 ^ 20 < ((r :: rs).map LogRec.size).sum then ringFit rs (lost + 1) else (r :: rs, lost)

/-- A record put into the ring with the next sequence number and announced. -/
def Module.putRec (fu : Fuses) (m : Module) (code suppressed : Nat) (secondary : Bool) (items : List Nat) : Module :=
  let r : LogRec :=
    { code := code, seq := m.log.nextSeq, suppressed := min 511 suppressed, secondary := secondary,
      ops := m.odGet (odKey 0x1018 10) % 2 ^ 40, cycles := m.odGet (odKey 0x1018 9) % 2 ^ 24, items := items.take 30 }
  let fit := ringFit (m.log.ring ++ [r]) 0
  let m := { m with log := { m.log with
    ring := fit.1, lost := m.log.lost + fit.2, nextSeq := m.log.nextSeq + 1,
    recent := ((r.code, r.ops) :: m.log.recent).take 16 } }
  (((m.bump (odKey 0x8020 1) 1).odSet (odKey 0x8020 4) r.seq).odSet (odKey 0x8020 3)
    (if m.odGet (odKey 0x8020 3) = 0 then r.seq else m.odGet (odKey 0x8020 3))).notifyRec fu r

/-- A record preceded by the count of lost records, where some were (R493). -/
def Module.putRecs (fu : Fuses) (m : Module) (code suppressed : Nat) (secondary : Bool) (items : List Nat) : Module :=
  if m.log.lost = 0 then m.putRec fu code suppressed secondary items
  else
    ({ m with log := { m.log with lost := 0 } }.putRec fu 0x0801 0 false [m.log.lost]).putRec fu code suppressed
      secondary items

/-- Whether events of a code are recorded: bits 0x00 and 0x08 of code_mask read 1 (R470, R492). -/
def Module.codeOn (m : Module) (code : Nat) : Bool :=
  code / 256 == 8 || code / 256 == 0 || bitAt (m.odGet (odKey 0x8010 3)) (code / 256)

/-- An event under the mask and the rate limit of R492. -/
def Module.record (fu : Fuses) (m : Module) (code : Nat) (secondary : Bool) (items : List Nat) : Module :=
  if !m.codeOn code then m
  else if m.odGet (odKey 0x8010 2) ≤ m.log.spent.get code then
    { m with log := { m.log with held := m.log.held.add code 1 } }.bump (odKey 0x8020 2) 1
  else
    { m with log := { m.log with spent := m.log.spent.add code 1, held := m.log.held.set code 0 } }.putRecs fu code
      (m.log.held.get code) secondary items

/-- An event: recorded by Capstan, or held in the buffers of the die controllers while Capstan is away (R490), at most
256 in each. -/
def Module.eventX (fu : Fuses) (m : Module) (secondary : Bool) (code : Nat) (items : List Nat) : Module :=
  if !m.mgmt.capstanUp then
    if 256 * 52 ≤ m.mgmt.held.length then m
    else { m with mgmt := { m.mgmt with held := m.mgmt.held ++ [(code + (if secondary then 65536 else 0), items)] } }
  else
    let before := m.odGet (odKey 0x1030 3)
    let m := m.record fu code secondary items
    let now := m.odGet (odKey 0x1030 3)
    if before < now && !m.mgmt.dropEventHeld then
      { m with mgmt := { m.mgmt with dropEventHeld := true } }.record fu 0x0104 false
        [if (m.port 0).mailbox.ntOverflow then 0 else 1, now]
    else m

/-- An event code of the subsystem compute and fencing (R15) from the low byte that no table gives. DESIGN CHOICE (log entry 5): the
twine and the instructions lie in that subsystem. -/
def computeEvent (low : Byte) : Nat := 0x0300 + low.toNat

/-- An event that reports a status or a happening of its own. -/
def Module.event (fu : Fuses) (m : Module) (code : Nat) (items : List Nat) : Module := m.eventX fu false code items

/-! ### Replace reasons (R466) -/

/-- A replace reason sets: once until reset, with its time and event 0x0110 carrying the bit and the figures. -/
def Module.reason (fu : Fuses) (m : Module) (bit : Nat) (figures : List Nat) : Module :=
  let w := m.odGet (odKey 0x1F10 1)
  if bitAt w bit then m
  else
    let t := m.odGet (odKey 0x1F10 4)
    ((m.odSet (odKey 0x1F10 1) (setBit w bit)).odSet (odKey 0x1F10 4)
      (t - field t (64 * bit) 64 * 2 ^ (64 * bit) + m.odGet (odKey 0x1018 10) * 2 ^ (64 * bit))).event fu 0x0110
      (bit :: figures)

/-- Cores whose fence register is set (R466). -/
def Module.fencedCount (m : Module) : Nat := (m.cores.filter Core.fenced).length

/-- The cores reason follows the count of fenced cores (R466). -/
def Module.checkCores (fu : Fuses) (m : Module) : Module :=
  if 12 ≤ m.fencedCount then m.reason fu 0 [m.fencedCount, 12] else m

/-! ### Fence requests (R23) -/

/-- A unit raises a fence of its core: the request stands until the die controller's register is set. -/
def Core.askFence (c : Core) (status age : Nat) : Core :=
  if c.fenced then c else { c with fenceReq := some ((c.fenceReq).getD { status := status, inst := none, age := age }) }

/-- The ages of the fence requests that wait at a cluster, by its cores in ascending number. -/
def Module.reportAges (m : Module) (k : Nat) : List (Nat × Nat) :=
  (List.range 4).filterMap (fun i => (m.core (4 * k + i)).fenceReq.map (fun r => (4 * k + i, r.age)))

/-- A unit raises a fence of core `g`: its report is the youngest of its cluster. -/
def Module.askFence (m : Module) (g status : Nat) : Module :=
  let age := ((m.reportAges (clusterOf g)).map (fun r => r.2 + 1)).foldl max 0
  m.onCore g (fun c => c.askFence status age)

/-- Whether no older report of its cluster goes before that of core `g`: reports reach the die controller in age order (R22). -/
def Module.reportFirst (m : Module) (g : Nat) : Bool :=
  (m.core g).fenceReq.any (fun r => (m.reportAges (clusterOf g)).all (fun x => decide (r.age ≤ x.2)))

/-- Whether core `g` is live: enabled, ready and not fenced. -/
def Core.live (c : Core) : Bool := c.enabled && c.ready && !c.fenced

/-- The live cores of job `j`. -/
def Module.liveCores (m : Module) (j : Nat) : List Nat :=
  (m.job j).cores.filter (fun g => (m.core g).live)

/-- The status codes of R12. -/
def stOk : Nat := 0x00
/-- EMPTY_OP. -/
def stEmptyOp : Nat := 0x01
/-- MALFORMED. -/
def stMalformed : Nat := 0x10
/-- UNSUPPORTED. -/
def stUnsupported : Nat := 0x11
/-- DENIED. -/
def stDenied : Nat := 0x12
/-- BAD_INDEX. -/
def stBadIndex : Nat := 0x20
/-- SHAPE_EXCEEDS_PLAN. -/
def stShape : Nat := 0x21
/-- ALIAS_REJECTED. -/
def stAlias : Nat := 0x22
/-- POISON. -/
def stPoison : Nat := 0x30
/-- CHECK_MISMATCH. -/
def stCheck : Nat := 0x31
/-- CANCELLED. -/
def stCancelled : Nat := 0x40
/-- PEER_LOST. -/
def stPeerLost : Nat := 0x41
/-- TIMEOUT. -/
def stTimeout : Nat := 0x42
/-- FENCED. -/
def stFenced : Nat := 0x50

/-- The step a command of the block answers: the module changed by `f`, the fuses and the queue as they are. -/
def State.act (s : State) (f : Fuses → Module → Module) : Host.Outcome State Fault Refusal :=
  .next { s with m := f s.fuse s.m }

/-- The same for a command that needs the named unit and a powered module: without the unit a fault, without power no
effect. -/
def State.actOn (s : State) (unit : Bool) (f : Fuses → Module → Module) : Host.Outcome State Fault Refusal :=
  if unit then (if s.m.powered then s.act f else .next s) else .fault .noSuchUnit

end Sys2Proof.Machine
end

