-- ==== Sys2Proof/Machine/Image.lean ====
section
/-!
DEFINITION. Reading an XW task image (R179 to R199): the header, the section table and the contents of every section.
Nothing is checked here; the checks of R205 are in Sys2Proof.Machine.Check.
-/
namespace Sys2Proof.Machine

/-- The header of an image (R179). -/
structure XwHeader where
  magic : Nat
  major : Nat
  minor : Nat
  bytes : Nat
  arrays : Nat
  coresMin : Nat
  coresMax : Nat
  roles : Nat
  sections : Nat
  bounds : Nat
  adapterOnly : Bool
  signed : Bool
  rsv2 : Nat
  hbmBytes : Nat
  features : Nat
  sectTable : Nat
  rsv7 : Nat
  deriving DecidableEq, Repr

/-- The header read from an image's first 64 bytes. -/
def readHeader (im : List Byte) : XwHeader :=
  let w := word64 im
  { magic := field (w 0) 32 32, major := field (w 0) 16 16, minor := field (w 0) 0 16, bytes := w 1,
    arrays := field (w 2) 56 8, coresMin := field (w 2) 46 10, coresMax := field (w 2) 36 10, roles := field (w 2) 32 4,
    sections := field (w 2) 24 8, bounds := field (w 2) 16 8, adapterOnly := bitAt (w 2) 15, signed := bitAt (w 2) 14,
    rsv2 := field (w 2) 0 14, hbmBytes := w 3, features := w 4 + w 5 * 2 ^ 64, sectTable := w 6, rsv7 := w 7 }

/-- An entry of the section table (R180). -/
structure Sect where
  at_ : Nat
  type : Nat
  count : Nat
  crc : Nat
  off : Nat
  len : Nat
  rsv : Nat
  deriving DecidableEq, Repr

/-- The section table. -/
def readSections (im : List Byte) (h : XwHeader) : List Sect :=
  (List.range h.sections).map (fun i =>
    let o := h.sectTable + 32 * i
    { at_ := o, type := leAt im (o + 6) 2, count := leAt im (o + 4) 2, crc := leAt im o 4, off := leAt im (o + 8) 8,
      len := leAt im (o + 16) 8, rsv := leAt im (o + 24) 8 })

/-- The first section of a type. -/
def findSect (ss : List Sect) (type : Nat) : Option Sect := ss.find? (fun s => s.type == type)

/-- The bytes of a section; none where it is absent. -/
def sectBytes (im : List Byte) (ss : List Sect) (type : Nat) : List Byte :=
  match findSect ss type with
  | some s => slice im s.off s.len
  | none => []

/-- The entry count of a section; 0 where it is absent. -/
def sectCount (ss : List Sect) (type : Nat) : Nat := ((findSect ss type).map Sect.count).getD 0

/-- The U64 words of consecutive entries of `n` words each. -/
def entries (l : List Byte) (n count : Nat) : List (List Nat) :=
  (List.range count).map (fun i => (List.range n).map (fun k => leAt l (8 * n * i + 8 * k) 8))

/-- A shape field (R193). -/
def readShape (w : Nat) : Shape := { src := field w 30 2, slot := field w 24 6, plan := field w 0 24 }

/-- A buffer entry (R184). -/
def readBuffer (w : List Nat) : Buffer :=
  let w0 := w.getD 0 0
  let w1 := w.getD 1 0
  let w2 := w.getD 2 0
  { space := field w0 62 2, consumer := field w0 58 4, combine := field w0 56 2, fmt := field w0 52 4,
    halves := bitAt w0 51, fixed := bitAt w0 50, base := field w0 0 48, size := field w1 16 48, layout := field w1 0 16,
    scale := field w2 48 16, scaled := bitAt w2 47 }

/-- A layout descriptor (R215). -/
def readLayout (w : List Nat) : Layout :=
  let w0 := w.getD 0 0
  { dims := (List.range 5).map (fun j =>
      let d := w.getD (j + 1) 0
      { axis := field w0 (49 + 3 * j) 3, extent := readShape (field d 32 32), stride := signed 32 d }),
    sparse := bitAt w0 48, coord := bitAt w0 47, aux := field w0 0 32 }

/-- One byte of history as a value: 0x80 marks none (R47). -/
def readI8 (b : Nat) : Option Int := if b % 256 = 0x80 then none else some (signed 8 b)

/-- A scale descriptor from its 128 bytes (R47). -/
def readDesc (l : List Byte) : ScaleDesc :=
  let w0 := word64 l 0
  let w1 := word64 l 1
  { expCur := signed 8 (field w0 56 8), expInit := signed 8 (field w0 48 8), margin := signed 4 (field w0 44 4),
    histLenM1 := field w0 38 6, histHead := field w0 32 6, histCount := field w0 25 7, frozen := bitAt w0 24,
    fmt := field w0 20 4, stepMaxExp := readI8 (field w1 56 8), braidBias := field w1 48 8,
    satThreshold := field w1 32 16, stepSaturations := field w1 0 32, satTotal := word64 l 2,
    nonfiniteTotal := word64 l 3, cleanSteps := field (word64 l 4) 0 16,
    hist := (List.range 64).map (fun i => readI8 (leAt l (64 + i) 1)), stepNonfinite := 0, tackleNonfinite := 0,
    tackleSaturations := 0 }

/-- An I8 or the mark 0x80. -/
def byteI8 : Option Int → Nat
  | none => 0x80
  | some i => unsigned 8 i

/-- The 128 bytes of a scale descriptor (R47). -/
def ScaleDesc.bytes (d : ScaleDesc) : List Byte :=
  let w0 := unsigned 8 d.expCur * 2 ^ 56 + unsigned 8 d.expInit * 2 ^ 48 + unsigned 4 d.margin * 2 ^ 44 +
    d.histLenM1 % 64 * 2 ^ 38 + d.histHead % 64 * 2 ^ 32 + d.histCount % 128 * 2 ^ 25 +
    (if d.frozen then 2 ^ 24 else 0) + d.fmt % 16 * 2 ^ 20
  let w1 := byteI8 d.stepMaxExp * 2 ^ 56 + d.braidBias % 256 * 2 ^ 48 + d.satThreshold % 2 ^ 16 * 2 ^ 32 +
    (d.stepSaturations + d.tackleSaturations) % 2 ^ 32
  leBytes 8 w0 ++ leBytes 8 w1 ++ leBytes 8 d.satTotal ++ leBytes 8 d.nonfiniteTotal ++ leBytes 8 d.cleanSteps ++
  zeros 24 ++ d.hist.flatMap (fun h => leBytes 1 (byteI8 h))

/-- The descriptor that a load leaves from the image's: the module's own fields at their reset values, exp_cur a copy
of exp_init (R47). -/
def ScaleDesc.fresh (d : ScaleDesc) : ScaleDesc :=
  { d with expCur := d.expInit, histHead := 0, histCount := 0, stepMaxExp := none, braidBias := 0, stepSaturations := 0,
           tackleSaturations := 0,
           satTotal := 0, nonfiniteTotal := 0, cleanSteps := 0, hist := List.replicate 64 none }

/-- A statistics set (R549). -/
def readStatSet (w : List Nat) : StatSet :=
  { set := field (w.getD 0 0) 52 12, rows := field (w.getD 0 0) 28 24 + 1, home := w.getD 1 0 }

/-- A tensor entry (R187). -/
def readTensor (w : List Nat) : Tensor :=
  let w0 := w.getD 0 0
  let w1 := w.getD 1 0
  let w2 := w.getD 2 0
  { elemBase := field w0 24 40, mode := field w0 22 2, group := field w0 10 12, count := field w1 24 40,
    rank := field w1 15 9, weightBuf := field w2 50 14, gradBuf := field w2 36 14 }

/-- A parameter group (R271) with its curve (R274). -/
def readGroup (w : List Nat) (curve : List Nat) : Group :=
  let w0 := w.getD 0 0
  let hi (i : Nat) := field (w.getD i 0) 32 32
  let lo (i : Nat) := field (w.getD i 0) 0 32
  { rule := field w0 60 4, biasCorr := bitAt w0 59, eta := hi 1, lambda := lo 1, beta1 := hi 2, beta2 := lo 2,
    eps := hi 3, gscale := lo 3, eps1 := hi 4, curve := curve.map (fun p => (field p 32 32, field p 0 32)) }

/-- A state entry (R272). -/
def readStateEntry (w : List Nat) : StateEntry :=
  let w0 := w.getD 0 0
  { tensor := field w0 48 16, rows := field w0 24 24, cols := field w0 0 24 }

/-- The number of groups in a GROUPS section (R270). -/
def groupCount (l : List Byte) : Nat := field (word64 l 0) 51 13

/-- The TRAIN tensors a GROUPS section counts (R270). -/
def trainCount (l : List Byte) : Nat := field (word64 l 0) 34 17

/-- The groups of a GROUPS section (R270). -/
def readGroups (l : List Byte) : List Group :=
  let g := groupCount l
  (List.range g).map (fun i =>
    readGroup ((entries (slice l (64 + 64 * i) 64) 8 1).headD [])
      ((List.range 256).map (fun k => leAt l (64 + 64 * g + 2048 * i + 8 * k) 8)))

/-- The state entries of a GROUPS section (R270). -/
def readStates (l : List Byte) : List StateEntry :=
  (entries (l.drop (64 + 2112 * groupCount l)) 4 (trainCount l)).map readStateEntry

/-- A reel template (R225). -/
def readTemplate (w : List Nat) : Template :=
  let w0 := w.getD 0 0
  { roles := field w0 56 8, overflow := bitAt w0 55, nOuter := bitAt w0 54,
    l2 := (List.range 5).map (fun i => field w0 (39 + 3 * i) 3), l1 := (List.range 5).map (fun i => field w0 (24 + 3 * i) 3),
    pIndex := field w0 21 3, pbaseEn := bitAt w0 20, pbaseSlot := field w0 14 6, pbaseAxis := field w0 11 3,
    loops := (List.range 5).map (fun g =>
      let d := w.getD (g + 1) 0
      { count := readShape (field d 32 32), block := field d 24 8, step := field d 0 24 }) }

/-- A bound slot declaration (R549). -/
def readBound (w : List Nat) : Bound :=
  { slot := field (w.getD 0 0) 58 6, address := field (w.getD 0 0) 56 2 == 1, value := w.getD 1 0, next := w.getD 1 0 }

/-- The ADAPTERS section (R250). -/
def readAdapters (l : List Byte) (count : Nat) : Adapters :=
  let es := entries l 4 count
  let h := es.headD []
  let h0 := h.getD 0 0
  let h1 := h.getD 1 0
  let h2 := h.getD 2 0
  { base := field h0 24 40, slots := field h0 17 7, mbtSlot := field h0 11 6, mbcSlot := field h0 5 6,
    stride := field h1 24 40, rlSlot := field h1 18 6, rlMax := field h2 40 24, mbMax := field h2 27 13,
    sites := (es.drop 1).map (fun e =>
      { baseTensor := field (e.getD 0 0) 48 16, aTensor := field (e.getD 0 0) 32 16, bTensor := field (e.getD 0 0) 16 16,
        aOffset := field (e.getD 1 0) 24 40, bOffset := field (e.getD 2 0) 24 40 }) }

/-- The EXPERTS section (R323 to R325, R345). -/
def readExperts (l : List Byte) : Experts :=
  let w0 := word64 l 0
  let nr := field w0 29 12
  let nv := field w0 15 14
  let np := field w0 7 8
  let r0 := 64
  let v0 := roundUp (r0 + 32 * nr) 64
  let p0 := roundUp (v0 + 16 * nv) 64
  { expertCount := field w0 47 17, pageCount := field w0 41 6 + 1, poolBase := word64 l 1,
    frameCount := field (word64 l 2) 32 32, storeId := word64 l 3,
    routers := (entries (l.drop r0) 4 nr).map (fun e =>
      let a := e.getD 0 0
      let c := e.getD 2 0
      let d := e.getD 3 0
      { idxBuf := field a 50 14, gateBuf := field a 36 14, expertBase := field a 20 16, span := field a 3 17,
        kM1 := field a 0 3, dispatchBase := e.getD 1 0, rows := readShape (field c 32 32), cap := field c 8 24,
        reel := field c 0 8, startTarget := readShape (field d 32 32), startCtr := field d 26 6, doneCtr := field d 20 6 }),
    views := (entries (l.drop v0) 2 nv).map (fun e =>
      let a := e.getD 0 0
      { buffer := field a 50 14, router := field a 38 12, pageOffset := field a 32 6, pages := field a 26 6 + 1 }),
    preds := (entries (l.drop p0) 4 np).map (fun e =>
      let a := e.getD 0 0
      { scoreBuf := field a 50 14, maskBuf := field a 36 14, upBuf := field a 22 14, downBuf := field a 8 14,
        mode := field a 6 2, tau := field (e.getD 1 0) 32 32, activeLevel := field (e.getD 1 0) 0 32,
        replayBase := e.getD 2 0, layerId := field (e.getD 3 0) 48 16 }) }

/-- The REDUCE section (R298). -/
def readReduce (l : List Byte) (count : Nat) : Reduce :=
  let w0 := word64 l 0
  { bucketLog2 := field w0 58 6, bucketCount := field w0 42 16, stagingCount := field w0 34 8, stagingBase := word64 l 1,
    entries := (entries (l.drop 64) 2 count).map (fun e =>
      { bucket := field (e.getD 0 0) 48 16, tensor := field (e.getD 0 0) 32 16, firstSeg := field (e.getD 0 0) 4 28,
        segCount := field (e.getD 1 0) 49 15 }) }

/-- The entries of a MASKS section. DESIGN CHOICE (notes/assumptions): the spec names the section's contents (R134, R140)
and gives no layout; the model takes `count` headers of 32 bytes (words: masks, their offset, metadata bytes, their
offset, offsets counted in the section). -/
def readMasks (l : List Byte) (count : Nat) : List MaskEntry :=
  (entries l 4 count).map (fun e =>
    { masks := (List.range (e.getD 0 0)).map (fun k => leAt l (e.getD 1 0 + 8 * k) 8),
      meta24 := slice l (e.getD 3 0) (e.getD 2 0) })

/-- `n` instructions of 128 bytes from an offset. -/
def readStream (l : List Byte) (off n : Nat) : List Words := entries (l.drop off) 16 n

/-- The instruction counts of a ROLES section (R191). -/
def roleCounts (l : List Byte) : List Nat := (List.range 8).map (fun r => leAt l (8 + 2 * r) 2)

/-- The role streams of a ROLES section, back to back from offset 128 (R191). -/
def roleStreams (l : List Byte) : List Nat → Nat → List (List Words)
  | [], _ => []
  | c :: cs, at_ => readStream l at_ c :: roleStreams l cs (at_ + 128 * c)

/-- The header words of a SCHEDULE section and the tables that follow (R483): role_count stream entries, the streams,
resume entries and reference entries, each table at a 128-byte boundary. -/
structure SchedTables where
  roles : Nat
  resumeCount : Nat
  refCount : Nat
  keepBase : Nat
  keepBytes : Nat
  streamAt : List (Nat × Nat)
  resumeOff : Nat
  refOff : Nat
  deriving DecidableEq, Repr

/-- The tables of a SCHEDULE section. The resume table stands at the first 128-byte boundary after the last stream. -/
def schedTables (l : List Byte) : SchedTables :=
  let w0 := word64 l 0
  let roles := field w0 60 4
  let at_ := (List.range roles).map (fun r => (leAt l (128 + 16 * r) 8, field (leAt l (136 + 16 * r) 8) 51 13))
  let nr := field w0 44 16
  let resOff := roundUp ((at_.map (fun p => p.1 + 128 * p.2)).foldl max (roundUp (128 + 16 * roles) 128)) 128
  { roles := roles, resumeCount := nr, refCount := field w0 28 16, keepBase := word64 l 1, keepBytes := word64 l 2,
    streamAt := at_, resumeOff := resOff, refOff := roundUp (resOff + 32 * nr) 128 }

/-- The resume entries (R483). -/
def readResumes (l : List Byte) (t : SchedTables) : List Resume :=
  (entries (l.drop t.resumeOff) 4 t.resumeCount).map (fun e =>
    { kind := field (e.getD 0 0) 62 2, number := field (e.getD 0 0) 40 22,
      points := (List.range 8).map (fun r => field (e.getD (1 + r / 4) 0) (16 * (r % 4)) 16) })

/-- The reference entries (R483). -/
def readRefs (l : List Byte) (t : SchedTables) : List RefEntry :=
  (entries (l.drop t.refOff) 4 t.refCount).map (fun e =>
    { offset := e.getD 0 0, length := e.getD 1 0, crc := e.getD 2 0 })

/-- The header fields and fixed tables of an image. -/
def readImage (im : List Byte) (h : XwHeader) (ss : List Sect) : Image :=
  let sec := sectBytes im ss
  let cnt := sectCount ss
  let roles := sec 7
  { major := h.major, arrays := h.arrays, coresMin := h.coresMin, coresMax := h.coresMax, roleCount := h.roles,
    adapterOnly := h.adapterOnly, hbmBytes := h.hbmBytes, features := h.features,
    roleMap := (List.range 8).map (fun i => leAt roles i 1),
    buffers := (entries (sec 1) 4 (cnt 1)).map readBuffer, layouts := (entries (sec 2) 8 (cnt 2)).map readLayout,
    statSets := (entries (sec 4) 2 (cnt 4)).map readStatSet, tensors := (entries (sec 5) 4 (cnt 5)).map readTensor,
    groups := readGroups (sec 6), states := readStates (sec 6), templates := (entries (sec 8) 8 (cnt 8)).map readTemplate }

/-- The streams and the optional sections of an image. -/
def readProgram (im : List Byte) (ss : List Sect) : Program :=
  let sec := sectBytes im ss
  let cnt := sectCount ss
  let sch := sec 0xE
  let t := schedTables sch
  { streams := roleStreams (sec 7) (roleCounts (sec 7)) 128, sched := t.streamAt.map (fun p => readStream sch p.1 p.2),
    resumes := readResumes sch t, refs := readRefs sch t, keepBase := t.keepBase, keepBytes := t.keepBytes,
    masks := readMasks (sec 0xA) (cnt 0xA),
    adapters := (findSect ss 0xB).map (fun _ => readAdapters (sec 0xB) (cnt 0xB)),
    experts := (findSect ss 0xC).map (fun _ => readExperts (sec 0xC)),
    reduce := (findSect ss 0xD).map (fun _ => readReduce (sec 0xD) (cnt 0xD)), coils := [] }

/-- The initial scale descriptors (R47), as a load leaves them. -/
def readDescs (im : List Byte) (ss : List Sect) : List ScaleDesc :=
  (List.range (sectCount ss 3)).map (fun i => (readDesc (slice (sectBytes im ss 3) (128 * i) 128)).fresh)

/-- The chunks of an INIT section (R549): offset, data bytes, and whether the data stays inside the section. -/
def readInit : Nat → List Byte → List (Nat × List Byte × Bool)
  | 0, _ => []
  | n + 1, l =>
    let off := word64 l 0
    let len := word64 l 1
    (off, slice l 64 len, decide (64 + len ≤ l.length)) :: readInit n (l.drop (64 + roundUp len 64))

/-! ### Fields of an instruction -/

/-- An operand reference (R192). -/
structure OpRef where
  buf : Nat
  consume : Bool
  fid : Nat
  off : Nat
  deriving DecidableEq, Repr

/-- The operand reference in a 32-bit field. -/
def readRef (w : Nat) : OpRef := { buf := field w 18 14, consume := bitAt w 17, fid := field w 15 2, off := field w 0 15 }

/-- Word `i` of an instruction. -/
def wordAt (ws : Words) (i : Nat) : Nat := ws.getD i 0

/-- The high half of word `i`. -/
def hiOf (ws : Words) (i : Nat) : Nat := field (wordAt ws i) 32 32

/-- The low half of word `i`. -/
def loOf (ws : Words) (i : Nat) : Nat := field (wordAt ws i) 0 32

/-- The class of an instruction (R190). -/
def classOf (ws : Words) : Nat := field (wordAt ws 0) 60 4

/-- The op of a MOVE or CONTROL instruction (R190). -/
def opOf (ws : Words) : Nat := field (wordAt ws 0) 56 4

/-- The identifier of an instruction (R190). -/
def identOf (ws : Words) : Nat := field (wordAt ws 0) 0 32

end Sys2Proof.Machine
end

