-- ==== Sys2Proof/Machine/Burst.lean ====
section
/-!
DEFINITION. The burst code of the stacks (R356, R360): RS(36,32) over GF(2^8), its check symbols and syndromes, and the pattern
of a poisoned granule. Symbols are bytes, numbered as R356 numbers the pins.
-/
namespace Sys2Proof.Machine

/-- An element times alpha, under x^8 + x^4 + x^3 + x^2 + 1. -/
def gfDouble (a : Nat) : Nat := if a < 128 then 2 * a else (2 * a) ^^^ 0x11D

/-- An element times alpha^n. -/
def gfShift (a : Nat) : Nat → Nat
  | 0 => a
  | n + 1 => gfDouble (gfShift a n)

/-- The product of two field elements. -/
def gfMul (a b : Nat) : Nat := (List.range 8).foldl (fun s i => if bitAt b i then s ^^^ gfShift a i else s) 0

/-- A polynomial, highest power first, times (x - c). -/
def gfRoot (p : List Nat) (c : Nat) : List Nat := List.zipWith (· ^^^ ·) (p ++ [0]) (0 :: p.map (gfMul c))

/-- The generator (x - 1)(x - alpha)(x - alpha^2)(x - alpha^3), highest power first. -/
def burstGenerator : List Nat := [0, 1, 2, 3].foldl (fun p i => gfRoot p (gfShift 1 i)) [1]

/-- One data symbol taken into the division by the generator. -/
def burstStep (r : List Nat) (d : Nat) : List Nat :=
  let f := d ^^^ r.headD 0
  List.zipWith (fun x g => x ^^^ gfMul f g) (r.drop 1 ++ [0]) (burstGenerator.drop 1)

/-- The check symbols of 32 data symbols: the remainder of data(x) x^4, symbol 0 at the highest power (DEDUCED, log entry 32). -/
def burstCheck (data : List Nat) : List Nat := data.foldl burstStep [0, 0, 0, 0]

/-- The pattern on the check symbols of a poisoned granule (R360). -/
def poisonPattern : List Nat := [0x5A, 0xC3, 0x96, 0x3C]

/-- The codeword of a granule with its poison bit. -/
def burstWord (data : List Nat) (bad : Bool) : List Nat :=
  data ++ (if bad then List.zipWith (· ^^^ ·) (burstCheck data) poisonPattern else burstCheck data)

/-- The four syndromes of a received word: its values at 1, alpha, alpha^2 and alpha^3. -/
def burstSyndrome (w : List Nat) : List Nat := [0, 1, 2, 3].map (fun i => w.foldl (fun s x => gfMul s (gfShift 1 i) ^^^ x) 0)

/-- The syndrome of a poisoned granule without errors. -/
def poisonSyndrome : List Nat := burstSyndrome (burstWord (List.replicate 32 0) true)

end Sys2Proof.Machine
end

