-- ==== Sys2Proof/Machine/Bursts.lean ====
section
/-!
DEFINITION. The stacks: where an address lies (R355), the stored codewords that have errors and what their reads meet, with the marks
of lanes and the flags of rows (R357 to R371).
-/
namespace Sys2Proof.Machine

/-! ### Places and rows -/

/-- Where a module HBM address lies (R355). -/
structure HbmPlace where
  stack : Nat
  pc : Nat
  bank : Nat
  row : Nat
  granule : Nat
  deriving DecidableEq, Repr

/-- The decomposition of a module HBM address (R355); `granule` counts the 32 granules of the row. -/
def hbmPlace (a : Nat) : HbmPlace :=
  let u := a / 4096
  let h := u % 48
  let v := u / 48
  { stack := h / 2, pc := 16 * (h % 2) + field a 8 4, bank := v / 4 % 32, row := v / 128,
    granule := 8 * (v % 4) + field a 5 3 }

/-- The module HBM address of a granule (R355), the inverse of hbmPlace. -/
def hbmAddr (p : HbmPlace) : Nat :=
  let v := 128 * p.row + 4 * p.bank + p.granule / 8
  let h := 2 * p.stack + p.pc / 16
  (48 * v + h) * 4096 + p.pc % 16 * 256 + p.granule % 8 * 32

/-- The key of a row of a stack. -/
def rowKey (pc bank row : Nat) : Nat := (32 * pc + bank) * 65536 + row

/-- Spare rows left in a bank of a stack (R374). -/
def Stack.sparesLeft (t : Stack) (pc bank : Nat) : Nat := 8 - min 8 (t.sparesUsed.get (32 * pc + bank))

/-- Repairs under way in a bank, each of which takes a spare when its burn completes (R369). -/
def Stack.repairsIn (t : Stack) (pc bank : Nat) : Nat := t.repairing.countP (fun r => r / 8 / 65536 == 32 * pc + bank)

/-- Banks of a stack that have no spare row left (R370). -/
def Stack.emptyBanks (t : Stack) : Nat :=
  (List.range 1024).countP (fun b => decide (8 ≤ t.sparesUsed.get b))

/-- A DRAM row is flagged (R368): its repair starts where its bank has a spare (R369); otherwise it stays in service, and
two banks without a spare set the stack reason (R370). The repairs under way are keys × 8 + reason. -/
def Module.flagHbmRow (fu : Fuses) (m : Module) (p pc bank row reason : Nat) : Module :=
  let t := m.stack p
  let key := rowKey pc bank row
  if t.repairing.any (fun r => r / 8 == key) then m
  else if t.repairsIn pc bank < t.sparesLeft pc bank then
    m.onStack p (fun t => { t with repairing := t.repairing ++ [8 * key + reason] })
  else
    let m := m.event fu 0x0407 [p, pc, bank, row, reason]
    if 2 ≤ t.emptyBanks then m.reason fu 1 [p, t.emptyBanks] else m

/-- The marked symbol positions of a pseudo-channel (R359). -/
def Stack.marked (t : Stack) (pc : Nat) : Nat := t.marks.get pc

/-! ### Errors -/

/-- The granule's data symbols at the given positions are what the cells hold, which no rule gives (R361). -/
def Module.spoilSymbols (m : Module) (g : Nat) (symbols : List Nat) : Module :=
  { m.nextFree with hbm := (symbols.filter (· < 32)).foldl (fun (h : Mem) i => h.write (32 * g + i) [Config.freeByte m.freeNo i]) m.hbm }

/-- The symbol errors of a codeword at positions that its pseudo-channel has not marked. -/
def Stack.unknown (t : Stack) (pc : Nat) (symbols : List Nat) : List Nat := symbols.filter (fun i => !bitAt (t.marked pc) i)

/-- Whether the decoder corrects errors at the given symbols: 2e + f ≤ 4 (R357). -/
def Stack.corrects (t : Stack) (pc : Nat) (symbols : List Nat) : Bool :=
  decide (2 * (t.unknown pc symbols).length + popCount (t.marked pc) 36 ≤ 4)

/-- The stored codeword of granule `g` has errors at the given symbols: what its reads return from then on. Beyond the decoder's reach
it is returned with poison and the stored data symbols, or, where the free value says so, miscorrected (R357, R361). -/
def Module.storeErrors (m : Module) (g : Nat) (symbols : List Nat) : Module :=
  let w := hbmPlace (32 * g)
  let put := fun (m : Module) (kind : Nat) =>
    { m with bursts := m.bursts.filter (fun b => b.granule != g) ++ [{ granule := g, symbols := symbols, kind := kind }] }
  if (m.stack w.stack).corrects w.pc symbols then put m 0
  else if Config.miscorrects m.freeNo then
    put { m.nextFree with hbm := m.hbm.write (32 * g) ((List.range 32).map (Config.freeByte m.freeNo)) } 1
  else
    let m := m.spoilSymbols g symbols
    put { m.nextFree with hbmPoison := insertNat m.hbmPoison g } 2

/-- Errors at further symbols of the codeword at an HBM address. A poisoned granule stays poisoned whatever errors it has (R361). -/
def Module.addErrors (m : Module) (a : Nat) (symbols : List Nat) : Module :=
  let g := a / 32
  let old := ((m.bursts.find? (fun b => b.granule == g)).map BadBurst.symbols).getD []
  let new := ((symbols.eraseDups).filter (fun i => decide (i < 36))).filter (fun i => !old.contains i)
  if m.hbmPoison.contains g || new.isEmpty then m else m.storeErrors g (old ++ new)

/-- The correctable codewords of a pseudo-channel that a new mark puts beyond the decoder's reach (R357). -/
def Module.judgeErrors (m : Module) (p pc : Nat) : Module :=
  (m.bursts.filter (fun b => b.kind == 0 && (hbmPlace (32 * b.granule)).stack == p && (hbmPlace (32 * b.granule)).pc == pc &&
    !(m.stack p).corrects pc b.symbols)).foldl (fun (m : Module) b => m.storeErrors b.granule b.symbols) m

/-- The distinct rows in which a symbol position of a pseudo-channel has been corrected (R359). -/
def Stack.laneCount (t : Stack) (pc sym : Nat) : Nat := t.laneRows.countP (fun r => r.1 == pc && r.2.1 == sym)

/-- A correction of exactly one unknown symbol is recorded by its position; 16 distinct rows mark the position, unless
two are marked (R359). -/
def Module.recordLane (fu : Fuses) (m : Module) (p pc bank row sym : Nat) : Module :=
  let t := m.stack p
  let e := (pc, sym, 65536 * bank + row)
  let m := m.onStack p (fun t => { t with laneRows := if t.laneRows.contains e then t.laneRows else t.laneRows ++ [e] })
  let n := (m.stack p).laneCount pc sym
  if n < 16 || t.laneRows.contains e then m
  else if popCount (t.marked pc) 36 < 2 then
    ((m.onStack p (fun t => { t with marks := t.marks.set pc (setBit (t.marked pc) sym) })).judgeErrors p pc).event fu 0x0401 [p, pc, sym]
  else if n = 16 then m.event fu 0x0402 [p, pc, sym]
  else m

/-- The corrections of a row that count toward its flag (R368): those at positions that R359 has not attributed to a lane, which it
does when they reach 16 rows (DEDUCED, log entry 32). -/
def Stack.rowCount (t : Stack) (pc bank row : Nat) : Nat :=
  ((List.range 36).map (fun sym =>
    if bitAt (t.marked pc) sym || decide (16 ≤ t.laneCount pc sym) then 0 else t.rowErrors.get (64 * rowKey pc bank row + sym))).sum

/-- The codeword that HBM stores for granule `g` (R356, R360), where no error has been met in it. -/
def Module.codeword (m : Module) (g : Nat) : List Nat :=
  burstWord ((m.hbm.read (32 * g) 32).map (fun b => b.toNat)) (m.hbmPoison.contains g)

/-- A read of a granule whose codeword has errors (R357, R359, R361, R368): corrected and counted, its row flagged where that is due;
or uncorrectable, with event 0x0400. DESIGN CHOICE (log entry 32): a miscorrected read counts as a corrected one. -/
def Module.readBurst (fu : Fuses) (job : Nat) (m : Module) (b : BadBurst) : Module :=
  let w := hbmPlace (32 * b.granule)
  let corrected := (m.bump (odKey 0x4020 1) 1).onStack w.stack (fun t => { t with corrected := t.corrected + 1 })
  if b.kind = 2 then
    ((m.bump (odKey 0x4020 4) 1).event fu 0x0400 [w.stack, w.pc, w.bank, w.row, w.granule, job]).flagHbmRow fu w.stack w.pc w.bank w.row 3
  else if b.kind = 1 then corrected
  else
    match (m.stack w.stack).unknown w.pc b.symbols with
    | [] => corrected
    | [sym] =>
      let m := corrected.recordLane fu w.stack w.pc w.bank w.row sym
      let m := m.onStack w.stack (fun t => { t with rowErrors := t.rowErrors.add (64 * rowKey w.pc w.bank w.row + sym) 1 })
      if m.odGet (odKey 0x4020 6) ≤ (m.stack w.stack).rowCount w.pc w.bank w.row then
        m.flagHbmRow fu w.stack w.pc w.bank w.row 1 else m
    | _ => (corrected.bump (odKey 0x4020 2) 1).flagHbmRow fu w.stack w.pc w.bank w.row 2

/-- Whether a granule of HBM lies in one of the byte ranges. -/
def inRanges (rs : List (Nat × Nat)) (g : Nat) : Bool := rs.any (fun r => decide (r.1 < 32 * g + 32) && decide (32 * g < r.1 + r.2))

/-- What the reads of HBM byte ranges meet (R357, R361): each poisoned granule is returned with poison and counted, and the codewords
with errors are decoded. -/
def Module.hbmReads (fu : Fuses) (m : Module) (job : Nat) (rs : List (Nat × Nat)) : Module :=
  let n := m.hbmPoison.countP (inRanges rs)
  (m.bursts.filter (fun b => inRanges rs b.granule)).foldl (fun (m : Module) b => m.readBurst fu job b)
    (if n = 0 then m else m.bump (odKey 0x4020 3) n)

/-- Reads served on the narrow path (R363, R374). -/
def Module.narrowReads (m : Module) (n : Nat) : Module := if n = 0 then m else m.bump (odKey 0x4020 9) n

/-- Whether a request takes the narrow path: at most 64 bytes that lie in one granule (R363). -/
def isNarrow (a n : Nat) : Bool := a / 32 == (a + n - 1) / 32

/-- One request to the stacks: what its read meets, and its path. -/
def Module.request (fu : Fuses) (m : Module) (job a n : Nat) : Module :=
  (m.hbmReads fu job [(a, n)]).narrowReads (if 0 < n && isNarrow a n then 1 else 0)

/-- The stacks that a byte range of HBM lies in: 4 KiB units lie in consecutive halves (R355). -/
def stacksOf (a n : Nat) : List Nat :=
  (List.range (min 48 (ceilDiv (a % 4096 + n) 4096))).map (fun k => (hbmPlace (a + 4096 * k)).stack)

/-- The first stopped stack that HBM byte ranges lie in (R367). -/
def Module.stoppedIn (m : Module) (rs : List (Nat × Nat)) : Option Nat :=
  if !m.hbmStacks.any Stack.stopped then none
  else rs.findSome? (fun r => (stacksOf r.1 r.2).find? (fun p => (m.stack p).stopped))

end Sys2Proof.Machine
end

