-- ==== Sys2Proof/Machine/Frames.lean ====
section
/-!
DEFINITION. The place of a module in its rope (R290 to R293), hawser frames and their sending (R294 to R296).
-/
namespace Sys2Proof.Machine

/-- OD 0x5200:01 rank. -/
def Module.rank (m : Module) : Nat := m.odGet (odKey 0x5200 1)

/-- OD 0x5200:02 size. -/
def Module.ropeSize (m : Module) : Nat := m.odGet (odKey 0x5200 2)

/-- OD 0x5200:04 rope_epoch. -/
def Module.ropeEpoch (m : Module) : Nat := m.odGet (odKey 0x5200 4)

/-- OD 0x5200:05 rope_job. -/
def Module.ropeJob (m : Module) : Nat := m.odGet (odKey 0x5200 5)

/-- OD 0x5200:06 rope_state: 0 SINGLE, 1 JOINING, 2 READY, 3 RESYNC, 4 BROKEN. -/
def Module.ropeState (m : Module) : Nat := m.odGet (odKey 0x5200 6)

/-- A transition of rope_state raises event 0x0547 (R293): old and new state, and the rope epoch. -/
def Module.setRopeState (fu : Fuses) (m : Module) (v : Nat) : Module :=
  if m.ropeState = v then m
  else (m.odSet (odKey 0x5200 6) v).event fu 0x0547 [m.ropeState, v, m.ropeEpoch]

/-- Whether job `j` reduces over the hawser ports: the rope job of a rope larger than 1 (R28, R290). -/
def Module.inRope (m : Module) (j : Nat) : Bool := decide (1 < m.ropeSize) && m.ropeJob == j

/-- Whether the module counts as rank 0 for job `j`: at size 1 whatever its rank (R290), and for every other job. -/
def Module.isRank0 (m : Module) (j : Nat) : Bool := !m.inRope j || m.rank == 0

/-- The number of ranks in the subtree of rank `k` in a heap of `n` (R291), by levels. -/
def contributorsFrom (n : Nat) : Nat → Nat → Nat → Nat
  | 0, _, _ => 0
  | fuel + 1, lo, width => if n ≤ lo then 0 else min width (n - lo) + contributorsFrom n fuel (2 * lo + 1) (2 * width)

/-- c(k) of R291. -/
def contributors (n k : Nat) : Nat := contributorsFrom n 9 k 1

/-- The rank at the far end of a bond (R291, R292): bond 0 (A) the parent, 1 (B) the left child, 2 (C) the right. -/
def bondPartner (rank : Nat) : Nat → Nat
  | 0 => (rank - 1) / 2
  | 1 => 2 * rank + 1
  | _ => 2 * rank + 2

/-- Whether the rank's place needs a bond (R317). -/
def bondNeeded (rank size : Nat) (b : Nat) : Bool :=
  decide (1 < size) && (if b = 0 then decide (0 < rank) else decide (bondPartner rank b < size))

/-- The spare port of a bond at this end (R292). -/
def bondSpare (rank : Nat) : Nat → Nat
  | 0 => if rank % 2 = 1 then 3 else 15
  | 1 => 7
  | _ => 11

/-- The four ports of a bond, one on each edge die (R292). -/
def bondPorts (b : Nat) : List Nat := [b, b + 4, b + 8, b + 12]

/-- The live ports of a bond: those up, and the spare while it stands in. -/
def Module.bondLive (m : Module) (b : Nat) : List Nat :=
  (bondPorts b).filter (fun n => (m.hawser n).state == 2) ++
  (if (m.hawser (bondSpare m.rank b)).state = 4 then [bondSpare m.rank b] else [])

/-- The bond a port serves at this end: its own, or the one whose spare it is. -/
def bondOf (n : Nat) : Nat :=
  if n % 4 < 3 then n % 4
  else if n = 7 then 1 else if n = 11 then 2 else 0

/-- The bytes of a frame with its CRC-32C (R294). -/
def Frame.bytes (f : Frame) : List Byte :=
  let len := f.payload.length / 64
  let w0 := f.type % 64 * 2 ^ 58 + f.src % 256 * 2 ^ 50 + f.attempt % 256 * 2 ^ 42 + len % 1024 * 2 ^ 32 + f.epoch % 2 ^ 32
  let w1 := f.step % 2 ^ 32 * 2 ^ 32 + f.bucket % 2 ^ 16 * 2 ^ 16 + f.segment % 2 ^ 16
  let w2 := f.maxExp % 256 * 2 ^ 56 + f.code % 256 * 2 ^ 48 + f.contrib % 512 * 2 ^ 39 + f.linkSeq % 2 ^ 32
  let head := leBytes 8 w0 ++ leBytes 8 w1 ++ leBytes 8 w2
  let w3 := f.ackSeq % 2 ^ 32 * 2 ^ 32
  let crc := crc32c (head ++ leBytes 8 w3 ++ f.payload)
  head ++ leBytes 8 (w3 + crc) ++ f.payload

/-- A frame read from the bytes of a port; none where its length or its CRC is wrong (R296). -/
def parseFrame (bs : List Byte) : Option Frame :=
  let w0 := word64 bs 0
  let w1 := word64 bs 1
  let w2 := word64 bs 2
  let w3 := word64 bs 3
  let pay := bs.drop 32
  if bs.length < 32 || pay.length != 64 * field w0 32 10 then none
  else if crc32c (bs.take 24 ++ leBytes 8 (w3 - w3 % 2 ^ 32) ++ pay) != w3 % 2 ^ 32 then none
  else some { type := field w0 58 6, src := field w0 50 8, attempt := field w0 42 8, epoch := field w0 0 32,
              step := field w1 32 32, bucket := field w1 16 16, segment := field w1 0 16,
              maxExp := field w2 56 8, code := field w2 48 8, contrib := field w2 39 9, linkSeq := field w2 0 32,
              ackSeq := field w3 32 32, payload := pay }

/-- The priority of a frame type on a port (R295); 1 is highest. -/
def framePriority : Nat → Nat
  | 8 => 1 | 1 => 2 | 2 => 2 | 4 => 3 | 5 => 3 | 7 => 3 | 9 => 3 | 11 => 5 | _ => 4

/-- Bytes that a port has sent and that are not acknowledged (R296). -/
def Hawser.inFlight (h : Hawser) : Nat := (h.unacked.map (fun u => u.2.length)).sum

/-- A queued frame put before the first one of a lower priority (R295: within a priority, in the order queued). -/
def enqueue : List (Nat × Frame) → Nat × Frame → List (Nat × Frame)
  | [], f => [f]
  | g :: gs, f => if f.1 < g.1 then f :: g :: gs else g :: enqueue gs f

/-- A frame leaves a port with the next link sequence number and the acknowledgement of the other direction. -/
def Hawser.put (h : Hawser) (f : Frame) : Hawser :=
  let bs := Frame.bytes { f with linkSeq := h.txSeq, ackSeq := (h.rxSeq + 2 ^ 32 - 1) % 2 ^ 32 }
  { h with txSeq := (h.txSeq + 1) % 2 ^ 32, unacked := h.unacked ++ [(h.txSeq, bs)], sentFrames := h.sentFrames ++ [bs] }

/-- Waiting frames leave, highest priority first, while less than 1 MiB is unacknowledged (R296). -/
def Hawser.drain : Nat → Hawser → Hawser
  | 0, h => h
  | n + 1, h =>
    match h.queue with
    | [] => h
    | f :: rest => if 2 ^ 20 ≤ h.inFlight then h else Hawser.drain n ({ h with queue := rest }.put f.2)

/-- A frame handed to a port. -/
def Hawser.send (h : Hawser) (f : Frame) : Hawser :=
  let q := enqueue h.queue (framePriority f.type, f)
  Hawser.drain q.length { h with queue := q }

/-- The frame fields that this rank's own sending fixes. -/
def Module.frameBase (m : Module) (type : Nat) : Frame :=
  let b := m.job (m.ropeJob)
  { type := type, src := m.rank % 256, attempt := b.run.ropeAttempt, epoch := m.ropeEpoch, step := b.step, bucket := 0,
    segment := 0, maxExp := 0, code := 0, contrib := 0, linkSeq := 0, ackSeq := 0, payload := [] }

/-- The port that carries segment `s` of a bond (R301): that of edge die E(s mod 4), the spare where it stands in for a lost
port (R313), or the next live port in the order E0 to E3. -/
def Module.portFor (m : Module) (b s : Nat) : Option Nat :=
  (List.range 4).findSome? (fun i =>
    let n := b + 4 * ((s + i) % 4)
    if (m.hawser n).state = 2 then some n
    else if (m.hawser n).spareUsed && (m.hawser (bondSpare m.rank b)).state == 4 then some (bondSpare m.rank b)
    else none)

/-- A frame sent on a bond. -/
def Module.sendBond (m : Module) (b : Nat) (f : Frame) : Module :=
  match m.portFor b f.segment with
  | none => m
  | some n => m.onHawser n (fun h => h.send f)

/-- A frame sent on every passed bond but one. -/
def Module.sendOthers (m : Module) (except : Nat) (f : Frame) : Module :=
  ([0, 1, 2].filter (fun b => b ≠ except && (m.rope.bonds.getD b Bond.reset).state == 2)).foldl
    (fun m b => m.sendBond b f) m

/-- An ABORT with a status code on every passed bond but one; 3 names no bond. -/
def Module.sendAbort (m : Module) (except code : Nat) : Module :=
  m.sendOthers except { m.frameBase 8 with code := code }

/-! ### Bonds -/

/-- The rope changed. -/
def Module.onRope (m : Module) (f : Rope → Rope) : Module := { m with rope := f m.rope }

/-- A bond's state changed. -/
def Module.onBond (m : Module) (b : Nat) (f : Bond → Bond) : Module := m.onRope (fun r => { r with bonds := modifyAt f r.bonds b })

/-- A bond of the rope. -/
def Module.bond (m : Module) (b : Nat) : Bond := m.rope.bonds.getD b Bond.reset

/-- The attempt number at which this rank starts a step of the rope job (R297, R312): 0, or what an ABORT raised it to before the
rank started that step. -/
def Module.startAttempt (m : Module) (step : Nat) : Nat :=
  match m.rope.raised with
  | some x => if x.1 = step then x.2 else 0
  | none => 0

/-- A copy of the rank's own scale descriptors kept as the mark of a snapshot's step; two marks are kept (R319). -/
def Rope.mark (r : Rope) (step : Nat) (ds : List ScaleDesc) : Rope :=
  { r with marks := (((r.marks.filter (fun x => x.1 != step)) ++ [(step, ds)]).reverse.take 2).reverse }

/-- What is discarded when a bond is lost (R315): the partial sums and what waited for them. -/
def Rope.discard (r : Rope) : Rope := { r with inputs := [], sums := [], trailers := [], wgtHeld := [] }

/-- A bond that has passed JOIN is lost while no step runs (R314, R315): it counts, and the rope breaks. -/
def Module.idleBondLost (fu : Fuses) (m : Module) (b : Nat) : Module :=
  let m := m.onBond b (fun x => { x with state := 4 })
  if !bondNeeded m.rank m.ropeSize b then m
  else
    let m := m.event fu 0x0542 [b, bondPartner m.rank b, (m.job m.ropeJob).step, (m.job m.ropeJob).run.ropeAttempt, 0]
    if m.ropeState = 4 then m else ((m.onRope Rope.discard).sendAbort b stPeerLost).setRopeState fu 4

/-- At a step boundary OD 0x5200:07 bond_min_ports takes effect for the rope job, and bonds are judged against it (R290, R314). -/
def Module.judgeIdle (fu : Fuses) (m : Module) (j : Nat) : Module :=
  if !m.inRope j then m
  else [0, 1, 2].foldl (fun (m : Module) b =>
    if (m.bond b).state == 2 && decide ((m.bondLive b).length < max 1 (m.odGet (odKey 0x5200 7))) then m.idleBondLost fu b else m) m

end Sys2Proof.Machine
end

