-- ==== Sys2Proof/Machine/Replies.lean ====
section
/-!
DEFINITION. Responses to host commands (R429, R430), and the parts of a job's tensors: slot regions, half bits, segments and
their exponents (R55, R241, R250).
-/
namespace Sys2Proof.Machine

/-! ### Responses -/

/-- A response without results. -/
def Resp.plain (opcode tag job status : Nat) (holdsTag : Bool) : Resp :=
  { opcode := opcode, tag := tag, last := true, dup := false, job := job, unsol := false, status := status, check := 0,
    section_ := 0, dataOffset := 0, w2 := 0, w4 := 0, w5 := 0, w6 := 0, payload := [], holdsTag := holdsTag }

/-- A response added to the end of a queue's waiting responses. -/
def Module.pushResp (m : Module) (q : Nat) (r : Resp) : Module :=
  m.onQueue q (fun t => { t with resps := t.resps ++ [r] })

/-- The command of a tag marked as answered. -/
def Queue.markAnswered (t : Queue) (tag : Nat) : Queue :=
  { t with cmds := t.cmds.map (fun c => if c.tag = tag then { c with state := 2 } else c) }

/-- The final response of a command, with words 4 and 5 of R426. -/
def Module.answer (m : Module) (q : Nat) (c : Cmd) (status w4 w5 : Nat) : Module :=
  (m.onQueue q (fun t => t.markAnswered c.tag)).pushResp q
    { Resp.plain c.opcode c.tag c.job status true with w4 := w4, w5 := w5 }

/-- Every command that satisfies a test answered with one status. -/
def Module.answerAll (m : Module) (p : Cmd → Bool) (status w4 w5 : Nat) : Module :=
  (List.range 16).foldl (fun m q =>
    ((m.queue q).cmds.filter (fun c => c.state != 2 && p c)).foldl (fun m c => m.answer q c status w4 w5) m) m

/-- Responses of one command that carries output in pieces of 16,384 bytes (R429): ascending offsets, the status and
last on the final one. -/
def outPieces (c : Cmd) (status w4 w5 : Nat) (fuel off : Nat) (data : List Byte) : List Resp :=
  match fuel with
  | 0 => []
  | n + 1 =>
    if data.length ≤ 16384 then
      [{ Resp.plain c.opcode c.tag c.job status true with
           w4 := w4, w5 := w5, dataOffset := off, payload := padTo (roundUp data.length 64) data }]
    else
      { Resp.plain c.opcode c.tag c.job stOk false with
          last := false, dataOffset := off, payload := data.take 16384 } ::
        outPieces c status w4 w5 n (off + 16384) (data.drop 16384)

/-- The answer of a command with output. -/
def Module.answerData (m : Module) (q : Nat) (c : Cmd) (status w4 w5 : Nat) (data : List Byte) : Module :=
  (outPieces c status w4 w5 (data.length / 16384 + 1) 0 data).foldl (fun m r => m.pushResp q r)
    (m.onQueue q (fun t => t.markAnswered c.tag))

/-! ### Regions and segments of a tensor -/

/-- The key of a half bit: tensor and slot region; a rank-0 tensor uses slot 0 (R241). -/
def halfKey (t v : Nat) : Nat := 64 * t + v

/-- The slots of the adapter tensors (R250); 1 without adapters. -/
def Job.slotCount (b : Job) : Nat := (b.prog.adapters.map Adapters.slots).getD 1

/-- Elements of one slot region of a tensor: all of them for a rank-0 tensor. -/
def Job.regionElems (b : Job) (t : Nat) : Nat :=
  match b.image.tensors[t]? with
  | some x => if x.rank = 0 then x.count else x.count / max 1 b.slotCount
  | none => 0

/-- The key of a segment of a tensor in the exponent table. -/
def segKey (tensor seg : Nat) : Nat := 2 ^ 32 * tensor + seg

/-- The descriptor of a tensor's gradient buffer. -/
def Job.gradDesc (b : Job) (tensor : Nat) : Option ScaleDesc :=
  (b.image.tensors[tensor]?).bind (fun t => (b.image.buffers[t.gradBuf]?).bind (fun u => b.descs[u.scale]?))

/-- The exponent of a segment in force (R55, R62): the table's, or the tensor's exp_cur where the table has none. -/
def Job.segExp (b : Job) (tensor seg : Nat) : Int :=
  match b.expTab.lookup (segKey tensor seg) with
  | some e => e
  | none => clampInt (-127) 112 (((b.gradDesc tensor).map ScaleDesc.expCur).getD 0)

end Sys2Proof.Machine
end

