-- ==== Sys2Proof/Machine/Store.lean ====
section
/-!
DEFINITION. The coil store: superblocks and extents (R393, R398, R405), bad blocks and health (R403, R404, R412), objects
and their atomic writes (R399, R400), and what a read delivers (R401, R402). Wear is kept by superblock: the blocks of one
superblock are erased together.
-/
namespace Sys2Proof.Machine

/-! ### Blocks and superblocks -/

/-- Bytes of an extent. -/
def extentBytes : Nat := 2 ^ 21

/-- Data bytes of a page, beside its spare area of `spareBytes` for the page code (R393, R401). -/
def pageBytes : Nat := 16384

/-- Bytes of a page's spare area: 256 of LDPC check for each of its 8 codewords (R393, R401). -/
def spareBytes : Nat := 8 * 256

/-- Pages of a block in TLC mode, and of one of the system area in SLC mode (R393). -/
def tlcPages : Nat := 1152

/-- Pages of a block of the system area, in SLC mode (R393). -/
def slcPages : Nat := 384

/-- Blocks of a die: 4 planes of 3,312 (R393). -/
def dieBlocks : Nat := 4 * 3312

/-- Blocks of a die that are the system area (R393). -/
def systemBlocks : Nat := 16

/-- The number of a block of a die. -/
def blockKey (die block : Nat) : Nat := 16384 * die + block

/-- The die at a target of a channel: die n is on channel n mod 16, at target n / 16 (R393). -/
def dieAt (channel target : Nat) : Nat := 16 * target + channel

/-- The edge die that a channel is on: E1 for channels 0 to 7, E3 for channels 8 to 15 (R393). -/
def channelEdge (channel : Nat) : Nat := if channel < 8 then 49 else 51

/-- The dies of parity group `k`: the target k of each channel (R393). -/
def groupDies (k : Nat) : List Nat := (List.range 16).map (fun c => dieAt c k)

/-- The die that holds the parity block of group `j` in superblock `s` (R394). -/
def parityDie (s j : Nat) : Nat := dieAt (s % 16) j

/-- A page of a stripe from the 15 other pages of it: their XOR (R394, R401). -/
def rebuildPage (others : List (List Byte)) : List Byte := others.foldl (List.zipWith (· ^^^ ·)) (zeros pageBytes)

/-- Data blocks of the store (R393). -/
def dataBlocks : Nat := 64 * (dieBlocks - systemBlocks)

/-- Blocks retired in the field: grown bad blocks, and all data blocks of each failed die (R404). -/
def Coil.retired (c : Coil) : Nat :=
  (c.bad.filter (fun b => !c.failedDies.contains (b / 16384) && decide (systemBlocks ≤ b % 16384))).length +
    (dieBlocks - systemBlocks) * c.failedDies.length

/-- Factory bad data blocks of dies that have not failed. -/
def Coil.factoryLost (c : Coil) : Nat :=
  c.factoryBad.countP (fun b => !c.failedDies.contains (b / 16384) && decide (systemBlocks ≤ b % 16384))

/-- Good data blocks. -/
def Coil.goodBlocks (c : Coil) : Nat := dataBlocks - c.factoryLost - c.retired

/-- Whether the block of a die in superblock `s` is good. -/
def Coil.blockGood (c : Coil) (s die : Nat) : Bool :=
  !c.failedDies.contains die && !c.bad.contains (blockKey die s) && !c.factoryBad.contains (blockKey die s)

/-- Good blocks of superblock `s`. -/
def Coil.goodIn (c : Coil) (s : Nat) : Nat := (List.range 64).countP (c.blockGood s)

/-- Spare data blocks: those beyond the 678,144 of the logical capacity (R398). -/
def Coil.spare (c : Coil) : Nat := c.goodBlocks - 678144

/-- Spare fraction in units of 0.01% (R412). -/
def Coil.spareFraction (c : Coil) : Nat := c.spare * 10000 / dataBlocks

/-- Mean wear in units of 0.01% of the rated 3,000 cycles, over the good data blocks (R405): the good blocks of a superblock have its
count, for they are erased together. -/
def Coil.meanWear (c : Coil) : Nat :=
  if c.goodBlocks = 0 then 0 else (c.pe.map (fun p => p.2 * c.goodIn p.1)).sum * 10000 / (c.goodBlocks * 3000)

/-- The P/E counts of superblocks that have a good block. -/
def Coil.goodPe (c : Coil) : List Nat := (c.pe.filter (fun p => decide (0 < c.goodIn p.1))).map Prod.snd

/-- Superblocks of which no block is good. -/
def Coil.deadSupers (c : Coil) : Nat :=
  if 64 ≤ c.failedDies.length then dieBlocks - systemBlocks
  else (((c.bad ++ c.factoryBad).map (· % 16384)).eraseDups).countP (fun s => decide (systemBlocks ≤ s) && c.goodIn s == 0)

/-- The highest P/E count of a good data block. -/
def Coil.maxPe (c : Coil) : Nat := c.goodPe.foldl max 0

/-- The lowest P/E count of a good data block: 0 while a superblock that has one has never been erased. -/
def Coil.minPe (c : Coil) : Nat :=
  if c.goodPe.length + c.deadSupers < dieBlocks - systemBlocks then 0 else c.goodPe.foldl min c.maxPe

/-- The die that holds the parity block of group `k` in superblock `s` (R394). DESIGN CHOICE (log entry 33): where the block that R394
names is bad, the group's first good one, since R404 lets a group run with 14 data blocks. -/
def Coil.parityOf (c : Coil) (s k : Nat) : Option Nat :=
  if c.blockGood s (parityDie s k) then some (parityDie s k) else (groupDies k).find? (c.blockGood s)

/-- The dies that hold the data blocks of a new superblock `s` (R394, R404). -/
def Coil.dataDies (c : Coil) (s : Nat) : List Nat :=
  (List.range 4).flatMap (fun k => (groupDies k).filter (fun d => c.blockGood s d && c.parityOf s k != some d))

/-- Extents that superblock `s` can hold: nine for each data block. -/
def Coil.cap (c : Coil) (s : Nat) : Nat := tlcPages * pageBytes / extentBytes * (c.dataDies s).length

/-- Live extents in a superblock. -/
def Coil.live (c : Coil) (s : Nat) : Nat := (c.objs.flatMap (fun o => (o.place.filter (fun p => p.1 == s)).map Prod.snd)).sum

/-- Whether a superblock can be opened for new data: not open, nothing live in it, and some capacity. -/
def Coil.isFree (c : Coil) (s : Nat) : Bool :=
  c.openObj != some s && c.openRel != some s && (c.written.get s == 0 || c.live s == 0) && decide (0 < c.cap s)

/-- The data superblocks. -/
@[irreducible] def superblocks : List Nat := (List.range (dieBlocks - systemBlocks)).map (· + systemBlocks)

/-- The element of a list with the least measure, the first of them. -/
def leastBy (f : Nat → Nat) : List Nat → Option Nat
  | [] => none
  | s :: ss =>
    match leastBy f ss with
    | none => some s
    | some t => if f s ≤ f t then some s else some t

/-- The free superblock with the fewest P/E cycles (R405). -/
def Coil.pickFree (c : Coil) : Option Nat := leastBy c.pe.get (superblocks.filter c.isFree)

/-- The open superblock of a kind of write: for relocations or for object writes (R405). -/
def Coil.opened (c : Coil) (rel : Bool) : Option Nat := if rel then c.openRel else c.openObj

/-- A superblock erased and opened. -/
def Coil.openAt (c : Coil) (rel : Bool) (s : Nat) : Coil :=
  let c := { c with pe := if c.written.get s = 0 && c.pe.get s != 0 then c.pe else c.pe.add s 1, written := c.written.set s 0,
                    formed := c.formed.set s c.failedDies.length }
  if rel then { c with openRel := some s } else { c with openObj := some s }

/-- `n` extents programmed, superblock after superblock. -/
def Coil.alloc (rel : Bool) : Nat → Coil → Nat → Coil × List (Nat × Nat)
  | 0, c, _ => (c, [])
  | fuel + 1, c, n =>
    if n = 0 then (c, [])
    else
      let room := fun s => c.cap s - c.written.get s
      match c.opened rel with
      | some s =>
        if room s = 0 then
          match c.pickFree with
          | none => (c, [])
          | some t => Coil.alloc rel fuel (c.openAt rel t) n
        else
          let k := min n (room s)
          let r := Coil.alloc rel fuel { c with written := c.written.add s k } (n - k)
          (r.1, (s, k) :: r.2)
      | none =>
        match c.pickFree with
        | none => (c, [])
        | some t => Coil.alloc rel fuel (c.openAt rel t) n

/-- `n` extents placed. -/
def Coil.place (c : Coil) (rel : Bool) (n : Nat) : Coil × List (Nat × Nat) := Coil.alloc rel (2 * n + 2) c n

/-- Bytes programmed for `n` extents, parity included (R393). -/
def flashBytes (n : Nat) : Nat := n * extentBytes * 16 / 15

/-- The module with the coil store changed. -/
def Module.onStore (m : Module) (f : Coil → Coil) : Module := { m with store := f m.store }

/-- OD 0x6000:02 coil_state. -/
def Module.coilState (m : Module) : Nat := m.odGet (odKey 0x6000 2)

/-- Whether the store serves reads. -/
def Module.storeReads (m : Module) : Bool := m.coilState == 2 || m.coilState == 3

/-! ### Pins (R406) -/

/-- The spread of the P/E counts. -/
def Coil.spread (c : Coil) : Nat := c.maxPe - c.minPe

/-- OD 0x6030:01 variant_pins. -/
def Module.pins (m : Module) : Nat := m.odGet (odKey 0x6030 1)

/-- The pinned sets with extents in a superblock. -/
def Module.pinnedIn (m : Module) (s : Nat) : List Nat :=
  (m.store.objs.filter (fun o => o.part == 2 && bitAt m.pins o.id && o.place.any (fun p => p.1 == s))).map Obj.id

/-- The superblocks that static levelling may move: closed, with live extents. -/
def Coil.closedLive (c : Coil) : List Nat :=
  superblocks.filter (fun s => decide (0 < c.live s) && c.openObj != some s && c.openRel != some s)

/-- The pins follow the wear spread (R406): past the bound they are overridden, below the target they are honoured again. The event
carries the sets that are pinned in the coldest superblock, which moves first. -/
def Module.judgePins (fu : Fuses) (m : Module) : Module :=
  let d := m.store.spread
  if m.store.pinsOverridden then
    if d < m.odGet (odKey 0x6020 14) then m.onStore (fun c => { c with pinsOverridden := false }) else m
  else if m.odGet (odKey 0x6020 15) < d && m.pins != 0 then
    let moved := ((leastBy m.store.pe.get m.store.closedLive).map (fun s => (m.pinnedIn s).length)).getD 0
    ((m.onStore (fun c => { c with pinsOverridden := true })).event fu 0x0608 [d, moved]).reason fu 2 [d, moved]
  else m

/-! ### Health -/

/-- The thresholds of R412 against the store as it was before: each acts when its condition first holds. The pins follow the wear
(R406). -/
def Module.checkStore (fu : Fuses) (m : Module) (old : Coil) : Module :=
  let c := m.store
  let m := if c.spare < 16937 && 16937 ≤ old.spare then (m.event fu 0x0606 [c.spare]).reason fu 2 [c.spare] else m
  let m := if 9000 < c.meanWear && old.meanWear ≤ 9000 then
    (m.event fu 0x0607 [c.meanWear, c.maxPe]).reason fu 2 [c.meanWear] else m
  let m := if c.spare * 200 < dataBlocks && dataBlocks ≤ old.spare * 200 && m.coilState == 2 then
      (m.odSet (odKey 0x6000 2) 3).event fu 0x0609 [0]
    else m
  m.judgePins fu

/-- Every live extent of a superblock moved to the superblock open for relocations. -/
def Module.relocate (m : Module) (s : Nat) : Module :=
  let n := m.store.live s
  let r := m.store.objs.foldl (fun (acc : Coil × List Obj) o =>
    let k := ((o.place.filter (fun p => p.1 == s)).map Prod.snd).sum
    if k = 0 then (acc.1, acc.2 ++ [o])
    else
      let a := acc.1.place true k
      (a.1, acc.2 ++ [{ o with place := o.place.filter (fun p => p.1 != s) ++ a.2 }])) (m.store, [])
  (m.onStore (fun _ => { r.1 with objs := r.2 })).bump (odKey 0x6020 13) (flashBytes n)

/-- A block retired (R403): its superblock's data moves, and it leaves the spare count. Cause 1 is a failed program or
erase, 2 a parity rebuild, 3 soft-decision decoding twice in a pass. The blocks of a failed die have left already (R404). -/
def Module.retireBlock (fu : Fuses) (m : Module) (die block cause : Nat) : Module :=
  let k := blockKey die block
  if m.store.bad.contains k || m.store.failedDies.contains die then m
  else
    let old := m.store
    let close := fun (o : Option Nat) => if o = some block then none else o
    let m := m.onStore (fun c => { c with
      bad := c.bad ++ [k], openObj := close c.openObj, openRel := close c.openRel })
    let m := if 16 ≤ block then m.relocate block else m
    (m.event fu 0x0601 [die, block, cause, m.store.spare]).checkStore fu old

/-- A page rebuilt from its stripe: counted, reported, and its block flagged (R401, R403). -/
def Module.pageRebuilt (fu : Fuses) (m : Module) (part die block page : Nat) : Module :=
  ((m.bump (odKey 0x6020 8) 1).event fu 0x0602 [part, die, block, page]).retireBlock fu die block 2

/-- The flaws of the array that work has met: of blocks in superblocks that `wrote` tells programmed or erased, and of pages in those
that `read` tells read (R401, R403). -/
def Module.meetFlaws (fu : Fuses) (wrote read : Coil → Nat → Bool) : Nat → Module → Module
  | 0, m => m
  | n + 1, m =>
    let met := m.store.flaws.find? (fun f => match f with
      | .block _ b => wrote m.store b
      | .page _ _ b _ => read m.store b)
    match met with
    | none => m
    | some f =>
      let m := m.onStore (fun c => { c with flaws := c.flaws.filter (· != f) })
      Module.meetFlaws fu wrote read n (match f with
        | .block d b => m.retireBlock fu d b 1
        | .page part d b p => m.pageRebuilt fu part d b p)

/-- The work of the array since it stood as `old` meets the flaws that lie in its way: in every superblock that has been programmed or
erased, and in every one whose live extents have been read to be moved. -/
def Module.afterWork (fu : Fuses) (m : Module) (old : Coil) : Module :=
  Module.meetFlaws fu (fun c s => c.written.get s != old.written.get s || c.pe.get s != old.pe.get s) (fun c s => decide (c.live s < old.live s))
    m.store.flaws.length m

/-! ### Objects -/

/-- An object of a partition. -/
def Coil.find (c : Coil) (part id : Nat) : Option Obj := c.objs.find? (fun o => o.part == part && o.id == id)

/-- Extents of an object: its data and its header extent (R399). -/
def extentsFor (len : Nat) : Nat := ceilDiv len extentBytes + 1

/-- Extents that a partition uses. -/
def Coil.used (c : Coil) (part : Nat) : Nat := ((c.objs.filter (fun o => o.part == part)).map (fun o => extentsFor o.len)).sum

/-- The quota of a partition (R398). -/
def Module.quota (m : Module) (part : Nat) : Nat := m.odGet (odKey 0x6010 part)

/-- Whether a job's image names an EXPERT object (R323, R400). -/
def Module.expertNamed (m : Module) (id : Nat) : Bool :=
  m.jobs.any (fun b => (b.state == 2 || b.state == 3) && b.prog.experts.any (fun x => x.storeId == id))

/-- The U64 identifier of an object that the module names (R399): kind 0 a state snapshot, 1 a SNAPSHOT command's content. -/
def moduleId (kind job step : Nat) : Nat := 2 ^ 63 + kind % 8 * 2 ^ 60 + job % 16 * 2 ^ 56 + step % 2 ^ 32

/-- Whether a SNAPSHOT identifier with bit 63 set breaks the layout of R399. -/
def badModuleId (id : Nat) : Bool := bitAt id 63 && (decide (1 < field id 60 3) || field id 32 24 != 0)

/-- Whether an object is a kept state snapshot of a job context (R285, R399). -/
def Obj.isSnapOf (j : Nat) (o : Obj) : Bool := o.part == 3 && bitAt o.id 63 && field o.id 60 3 == 0 && field o.id 56 4 == j

/-- The kept state snapshots of a job context, older first. -/
def Coil.kept (c : Coil) (j : Nat) : List Obj := c.objs.filter (Obj.isSnapOf j)

/-- Why an object cannot be written (R400), the status of R14's order first; OK where it can. -/
def Module.writeRefused (m : Module) (part id len : Nat) : Nat :=
  let old := ((m.store.find part id).map (fun o => extentsFor o.len)).getD 0
  if m.coilState != 2 || m.store.writing.contains (part, id) || (part == 1 && m.expertNamed id) ||
      decide (m.quota part < m.store.used part - old + extentsFor len) then stDenied
  else if len = 0 then stEmptyOp
  else if part = 2 && decide (1023 < id) then stBadIndex
  else stOk

/-- The kept snapshots after a new one came in: the two latest (R285). -/
def Coil.trimKept (c : Coil) (j : Nat) : Coil :=
  match (c.kept j).reverse.drop 2 with
  | [] => c
  | olds => { c with objs := c.objs.filter (fun o => !olds.contains o) }

/-- An object with its content placed, in the place of its previous version. -/
def Coil.putBytes (c : Coil) (o : Obj) (bs : List Byte) : Coil :=
  let a := ({ c with objs := c.objs.filter (fun x => !(x.part == o.part && x.id == o.id)) } : Coil).place false (extentsFor bs.length)
  { a.1 with objs := a.1.objs ++ [{ o with len := bs.length, sha := sha512 bs, data := Mem.cells 0 bs, place := a.2 }] }

/-- A version of an object recorded (R400): it replaces the previous one, whose extents are free. -/
def Module.putObj (fu : Fuses) (m : Module) (o : Obj) (bs : List Byte) : Module :=
  let m' := m.onStore (fun c =>
    if o.isSnapOf (field o.id 56 4) then (c.putBytes o bs).trimKept (field o.id 56 4) else c.putBytes o bs)
  (((m'.bump (odKey 0x6020 12) bs.length).bump (odKey 0x6020 13) (flashBytes (extentsFor bs.length))).checkStore fu m.store).afterWork fu
    m.store

/-- A plain object of a partition, before its content is known. -/
def Obj.named (part id : Nat) : Obj :=
  { part := part, id := id, len := 0, sha := [], data := [], poison := [], setSteps := 0, hasState := false, sites := [], place := [] }

/-- The bytes of an object. -/
def Obj.bytes (o : Obj) : List Byte := o.data.read 0 o.len

/-! ### Happenings in the flash array -/

/-- An unrecoverable page of an object (R402): its granules keep their poison until the object is written again or deleted. -/
def Module.pageLost (fu : Fuses) (m : Module) (part id granule count dies : Nat) : Module :=
  ((m.onStore (fun c => { c with objs := c.objs.map (fun o =>
    if o.part = part && o.id = id then { o with poison := insertAll o.poison ((List.range count).map (· + granule)) } else o) })).bump
    (odKey 0x6020 9) 1).event fu 0x0603 [part, id, 32 * granule, dies]

/-- A happening of the store's own work: a failed program or erase costs its block, and the data goes to another (R403); what its own
reads meet (R401, R402); and a flaw that later work is to meet. -/
def Module.ownUpset (fu : Fuses) (m : Module) : FlashUpset → Module
  | .programFail die block => m.retireBlock fu die block 1
  | .eraseFail die block => m.retireBlock fu die block 1
  | .pageRebuilt part die block page => m.pageRebuilt fu part die block page
  | .pageLost part id granule count dies => m.pageLost fu part id granule count dies
  | .flaw f => m.onStore (fun c => { c with flaws := c.flaws ++ [f] })
  | .rebuilt _ _ _ => m
  | .unreadable _ _ _ => m

/-- The happenings of a write, and of the store's own work (R403). -/
def Module.programs (fu : Fuses) (m : Module) (ups : List FlashUpset) : Module := ups.foldl (fun (m : Module) u => m.ownUpset fu u) m

/-- The happenings of a read of an object (R401, R402). -/
def Module.pageReads (fu : Fuses) (m : Module) (part id : Nat) (ups : List FlashUpset) : Module :=
  ups.foldl (fun (m : Module) u => match u with
    | .rebuilt die block page => m.pageRebuilt fu part die block page
    | .unreadable granule count dies => m.pageLost fu part id granule count dies
    | .programFail _ _ => m
    | .eraseFail _ _ => m
    | u => m.ownUpset fu u) m

/-! ### Failed dies (R404) -/

/-- Whether superblock `s` was formed with the block of a die. -/
def Coil.holds (c : Coil) (s die : Nat) : Bool :=
  !(c.failedDies.take (c.formed.get s)).contains die && !c.bad.contains (blockKey die s) && !c.factoryBad.contains (blockKey die s)

/-- The failed dies of a parity group that superblock `s` was formed with. -/
def Coil.failedIn (c : Coil) (s k : Nat) : List Nat := (groupDies k).filter (fun d => c.failedDies.contains d && c.holds s d)

/-- The superblock of extent `e` of an object, the header's extent being the last (DESIGN CHOICE, log entry 33). -/
def superOf : List (Nat × Nat) → Nat → Option Nat
  | [], _ => none
  | p :: ps, e => if e < p.2 then some p.1 else superOf ps (e - p.2)

/-- The die that holds the parity block of group `k` in superblock `s` as it was formed (R394; see `parityOf`). -/
def Coil.parityIn (c : Coil) (s k : Nat) : Option Nat :=
  if c.holds s (parityDie s k) then some (parityDie s k) else (groupDies k).find? (c.holds s)

/-- The superblock, the die and the page of its block where page `q` of an object lies (Config.flashPage). -/
def Coil.pageAt (c : Coil) (o : Obj) (q : Nat) : Option (Nat × Nat × Nat) :=
  (superOf o.place (q / 128)).bind (fun s =>
    let ds := (List.range 64).filter (fun d => c.holds s d && c.parityIn s (d / 16) != some d)
    let w := (Config.flashPage o.part o.id q).toNat
    (ds[w % 65536 % max 1 ds.length]?).map (fun d => (s, d, w / 65536 % tlcPages)))

/-- The pages of an object that lie on failed dies, with their places: those whose stripe has lost `n` blocks or more. -/
def Coil.failedPages (c : Coil) (o : Obj) (n : Nat) : List (Nat × Nat × Nat × Nat) :=
  (List.range (ceilDiv o.len pageBytes)).filterMap (fun q => (c.pageAt o q).bind (fun p =>
    if c.failedDies.contains p.2.1 && decide (n ≤ (c.failedIn p.1 (p.2.1 / 16)).length) then some (q, p) else none))

/-- Whether any superblock with live extents was formed with a failed die. -/
def Coil.servesFailed (c : Coil) : Bool :=
  c.objs.any (fun o => o.place.any (fun p => (List.range 4).any (fun k => !(c.failedIn p.1 k).isEmpty)))

/-- A read of an object rebuilds its pages on a failed die from their stripes (R401, R404); those of stripes that lost two dies are lost
already. -/
def Module.dieReads (fu : Fuses) (m : Module) (o : Obj) : Module :=
  if !m.store.servesFailed then m
  else
    let two := (m.store.failedPages o 2).map Prod.fst
    ((m.store.failedPages o 1).filter (fun p => !two.contains p.1)).foldl (fun (m : Module) p =>
      m.pageRebuilt fu o.part p.2.2.1 p.2.1 p.2.2.2) m

/-- The pages that a second failed die of a group makes unrecoverable (R402, R404). -/
def Module.losePages (fu : Fuses) (m : Module) : Module :=
  m.store.objs.foldl (fun (m : Module) o =>
    (m.store.failedPages o 2).foldl (fun (m : Module) p =>
      if (List.range 512).all (fun i => o.poison.contains (512 * p.1 + i)) then m
      else m.pageLost fu o.part o.id (512 * p.1) 512 (m.store.failedIn p.2.1 (p.2.2.1 / 16)).length) m) m

/-- The bytes of a range that a host read delivers (R402): all of them, or where a granule is poisoned those of the pages before the
first that holds one. -/
def Obj.delivered (o : Obj) (off n : Nat) : Nat :=
  match (o.poison.filter (fun g => decide (32 * g < off + n) && decide (off < 32 * g + 32))).head? with
  | none => n
  | some g => max off (32 * g) / 16384 * 16384 - off

/-- The first poisoned byte offset of a range of an object, counted from the range's start (R402). -/
def Obj.firstPoison (o : Obj) (off n : Nat) : Option Nat :=
  ((o.poison.filter (fun g => decide (32 * g < off + n) && decide (off < 32 * g + 32))).head?).map (fun g => 32 * g - off)

end Sys2Proof.Machine
end

