-- ==== Sys2Proof/Machine/Snap.lean ====
section
/-!
DEFINITION. The committed weights and optimizer state of a job (R241, R250, R268), the content of snapshots and stored
sets (R258, R285, R256), and their writing back (R286, R320).
-/
namespace Sys2Proof.Machine

/-! ### Weights and state -/

/-- The slot regions of a tensor: one region 0 for a rank-0 tensor (R241, R250). -/
def Job.regionsOf (b : Job) (t : Nat) : List Nat :=
  if ((b.image.tensors[t]?).map Tensor.rank).getD 0 = 0 then [0] else List.range b.slotCount

/-- The committed half of a region. -/
def Job.committed (b : Job) (t v : Nat) : Nat := b.halfBits.get (halfKey t v)

/-- The module HBM address of element `e` of a tensor in a half of its weight_buf. -/
def Job.weightAddr (b : Job) (t half e : Nat) : Nat :=
  match (b.image.tensors[t]?).bind (fun x => b.image.buffers[x.weightBuf]?) with
  | none => b.hbmBase
  | some u => b.hbmBase + u.base + (if u.halves then half * (u.size / 2) else 0) + 2 * e

/-- The rule of a tensor's group (R271). -/
def Job.ruleOf (b : Job) (t : Nat) : Nat :=
  ((b.image.tensors[t]?).bind (fun x => b.image.groups[x.group]?)).elim 0 Group.rule

/-- Whether a tensor is TRAIN. -/
def Job.isTrain (b : Job) (t : Nat) : Bool := (b.image.tensors[t]?).any (fun x => x.mode == 0)

/-- The TRAIN tensors in ascending index. -/
def Job.trains (b : Job) : List Nat := (List.range b.image.tensors.length).filter b.isTrain

/-! ### The state region (R268) -/

/-- The bytes of stack S(p) below a module HBM address (R355). -/
def stackBytes (p a : Nat) : Nat :=
  let u := a / 4096
  4096 * (2 * (u / 48) + min 2 (u % 48 - 2 * p)) + (if u % 48 / 2 = p then a % 4096 else 0)

/-- The module HBM address of byte `n` of stack S(p) (R355). -/
def stackByte (p n : Nat) : Nat := 4096 * (48 * (n / 8192) + 2 * p + n / 4096 % 2) + n % 4096

/-- The stack that holds an element's weight in a half (R267, R268). -/
def Job.homeOf (b : Job) (t half e : Nat) : Nat := b.weightAddr t half e / 4096 % 48 / 2

/-- The state values that a tensor's rule keeps for each element, two bytes each (R268). -/
def Job.stateVals (b : Job) (t : Nat) : Nat :=
  match b.ruleOf t with
  | 2 => 2
  | 4 => 0
  | _ => 1

/-- The first `e` elements of a tensor, those counted whose weight lies in stack S(p) in a half. -/
def Job.elemsIn (b : Job) (t half p e : Nat) : Nat :=
  (stackBytes p (b.weightAddr t half e) - stackBytes p (b.weightAddr t half 0)) / 2

/-- The offset of an adapter tensor in its set (R252). -/
def Adapters.offsetOf (a : Adapters) (t : Nat) : Nat :=
  match a.sites.find? (fun s => s.aTensor == t || s.bTensor == t) with
  | none => 0
  | some s => if s.aTensor = t then s.aOffset else s.bOffset

/-- The first element address of a tensor (R53, R252). DEDUCED (log 25): that of an adapter tensor is the one it has in set 0, so
that the order of the state region is one order for the life of the job. -/
def Job.firstAddr (b : Job) (t : Nat) : Nat :=
  match b.image.tensors[t]?, b.prog.adapters with
  | some x, some a => if x.rank = 0 then x.elemBase else a.base + a.offsetOf t
  | some x, none => x.elemBase
  | none, _ => 0

/-- The TRAIN tensors whose elements stand before those of a tensor in ascending element address. -/
def Job.ahead (b : Job) (t : Nat) : List Nat :=
  b.trains.filter (fun u => decide (b.firstAddr u < b.firstAddr t) || (b.firstAddr u == b.firstAddr t && decide (u < t)))

/-- The bytes of state that tensors keep in the part of stack S(p) for a half. -/
def Job.partBytes (b : Job) (ts : List Nat) (half p : Nat) : Nat :=
  (ts.map (fun u => 2 * b.stateVals u * b.elemsIn u half p (((b.image.tensors[u]?).map Tensor.count).getD 0))).sum

/-- The module HBM address of state value `k` of an element in a half (R268): in the part of the stack that holds the element's
weight, the elements in ascending element address. DESIGN CHOICE (log 25): within a part half 0 stands before half 1 and m before v. -/
def Job.stateAddr (b : Job) (t half e k : Nat) : Nat :=
  let p := b.homeOf t half e
  let off := (if half = 0 then 0 else b.partBytes b.trains 0 p) + b.partBytes (b.ahead t) half p +
    2 * b.stateVals t * b.elemsIn t half p e + 2 * k
  stackByte p (stackBytes p (b.hbmBase + b.image.hbmBytes) + off)

/-- Whether an address lies in the state region. A part that is longer than its stack's share of the region keeps what is
beyond it apart (`opt`; log 25). -/
def Job.inState (b : Job) (a : Nat) : Bool := decide (a < b.hbmBase + b.image.hbmBytes + b.stateBytes)

/-- The poison after a tackle's write: it writes granules whole, so the granule is clean (R106, R267). -/
def granuleClean (ps : List Nat) (a : Nat) : List Nat := ps.filter (fun g => g != a / 32)

/-- `n` bytes of optimizer state at an address, which lie in one granule. -/
def Module.stateAt (m : Module) (j a n : Nat) : Nat := (if (m.job j).inState a then m.hbm else (m.job j).opt).readLe a n

/-- `n` bytes of optimizer state written at an address within one granule. -/
def Module.putStateAt (m : Module) (j a n code : Nat) : Module :=
  if (m.job j).inState a then { m with hbm := m.hbm.write a (leBytes n code), hbmPoison := granuleClean m.hbmPoison a,
                                            bursts := rewritten m.bursts a n }
  else m.onJob j (fun b => { b with opt := b.opt.write a (leBytes n code) })

/-- Whether optimizer state at an address lies in a poisoned granule. -/
def Module.statePoisonAt (m : Module) (j a n : Nat) : Bool := (m.job j).inState a && poisonHit m.hbmPoison a n

/-- State value `k` of an element in a half. -/
def Module.stateCode (m : Module) (j t half e k : Nat) : Nat := m.stateAt j ((m.job j).stateAddr t half e k) 2

/-- State value `k` of an element written in a half. -/
def Module.putStateCode (m : Module) (j t half e k code : Nat) : Module := m.putStateAt j ((m.job j).stateAddr t half e k) 2 code

/-- Whether the state of an element in a half lies in a poisoned granule. -/
def Module.statePoison (m : Module) (j t half e : Nat) : Bool :=
  (List.range ((m.job j).stateVals t)).any (fun k => m.statePoisonAt j ((m.job j).stateAddr t half e k) 2)

/-! ### Factors and accumulators (R268, R277) -/

/-- The FACTORED entry of a tensor. -/
def Job.factoredOf (b : Job) (t : Nat) : Option Factored := b.factored.find? (fun f => f.tensor == t)

/-- The rows and columns of a FACTORED tensor (R272). -/
def Job.facDims (b : Job) (t : Nat) : Nat × Nat :=
  ((b.image.states.find? (fun s => s.tensor == t)).map (fun s => (s.rows, s.cols))).getD (0, 0)

/-- The factors of a tensor: R_i of every row, C_j of every column, and ρ; as many accumulators (R268). -/
def Job.facCount (b : Job) (t : Nat) : Nat := if (b.factoredOf t).isSome then (b.facDims t).1 + (b.facDims t).2 + 1 else 0

/-- The factors of a tensor whose home is stack S(p). DESIGN CHOICE (log 25): R277 spreads the homes over the 24 stacks and does not say
how; factor `k`, rows before columns before ρ, and its accumulator are at home in stack `k` mod 24. -/
def Job.facIn (b : Job) (t p : Nat) : Nat := (b.facCount t + 23 - p) / 24

/-- The bytes that a tensor's factors, of both halves, and accumulators take in the part of stack S(p). -/
def Job.facPart (b : Job) (t p : Nat) : Nat := roundUp (80 * b.facIn t p) 32

/-- Where the factors of a tensor begin in the part of stack S(p): after the elements' state of both halves. -/
def Job.facStart (b : Job) (t p : Nat) : Nat :=
  roundUp (b.partBytes b.trains 0 p + b.partBytes b.trains 1 p) 32 + ((b.ahead t).map (fun u => b.facPart u p)).sum

/-- The module HBM address of a byte of the part of stack S(p). -/
def Job.partAddr (b : Job) (p off : Nat) : Nat := stackByte p (stackBytes p (b.hbmBase + b.image.hbmBytes) + off)

/-- The address of factor `k` of a tensor in a half: 4 bytes of FP32. -/
def Job.facAddr (b : Job) (t half k : Nat) : Nat :=
  b.partAddr (k % 24) (b.facStart t (k % 24) + half * 4 * b.facIn t (k % 24) + 4 * (k / 24))

/-- The address of word `w` of the 9 U64 of accumulator `k` of a tensor. -/
def Job.accAddr (b : Job) (t k w : Nat) : Nat :=
  b.partAddr (k % 24) (b.facStart t (k % 24) + 8 * b.facIn t (k % 24) + 72 * (k / 24) + 8 * w)

/-- The code of factor `k` of a tensor in a half. -/
def Module.facCode (m : Module) (j t half k : Nat) : Nat := m.stateAt j ((m.job j).facAddr t half k) 4

/-- Factor `k` of a tensor written in a half. -/
def Module.putFac (m : Module) (j t half k code : Nat) : Module := m.putStateAt j ((m.job j).facAddr t half k) 4 code

/-- Accumulator `k` of a tensor: an exact sum of r² in units of 2^−254. -/
def Module.acc (m : Module) (j t k : Nat) : Nat :=
  ((List.range 9).map (fun w => m.stateAt j ((m.job j).accAddr t k w) 8 * 2 ^ (64 * w))).sum

/-- Accumulator `k` of a tensor written. -/
def Module.putAcc (m : Module) (j t k v : Nat) : Module :=
  (List.range 9).foldl (fun (m : Module) w => m.putStateAt j ((m.job j).accAddr t k w) 8 (field v (64 * w) 64)) m

/-- Every accumulator of a job at zero (R277). -/
def Module.zeroAccs (m : Module) (j : Nat) : Module :=
  (m.job j).factored.foldl (fun (m : Module) f =>
    (List.range ((m.job j).facCount f.tensor)).foldl (fun (m : Module) k => m.putAcc j f.tensor k 0) m) m

/-- The half that holds a FACTORED tensor's committed factors. -/
def Job.facHalf (b : Job) (t : Nat) : Nat := b.committed t 0

/-- Whether any of the given factors of a tensor lies in a poisoned granule, in its committed half. -/
def Module.facPoison (m : Module) (j t : Nat) (ks : List Nat) : Bool :=
  ks.any (fun k => m.statePoisonAt j ((m.job j).facAddr t ((m.job j).facHalf t) k) 4)

/-- The numbers of the factors of an element of a FACTORED tensor: its row's, its column's and ρ; none of another tensor. -/
def Job.facsOf (b : Job) (t e : Nat) : List Nat :=
  if (b.factoredOf t).isNone then []
  else
    let d := b.facDims t
    [e / max 1 d.2, d.1 + e % max 1 d.2, d.1 + d.2]

/-- The committed weights of a region as they stand. -/
def Module.regionWeights (m : Module) (j t v : Nat) : List Byte :=
  let b := m.job j
  m.hbm.read (b.weightAddr t (b.committed t v) (v * b.regionElems t)) (2 * b.regionElems t)

/-- Whether any granule of a region's committed weights carries poison. -/
def Module.regionPoison (m : Module) (j t v : Nat) : Bool :=
  let b := m.job j
  poisonHit m.hbmPoison (b.weightAddr t (b.committed t v) (v * b.regionElems t)) (2 * b.regionElems t)

/-- A FP32 value as bytes: four, or two as bfloat16 (R258). -/
def facByte (wide : Bool) (c : Nat) : List Byte := if wide then leBytes 4 c else leBytes 2 (fmtBF16.encode (ofF32 c)).code

/-- The committed optimizer state of a region (R268): m of every element then v under ADAPTIVE, m under MOMENTUM and SIGN, the
factors of rows, columns and their mean under FACTORED. `wide` keeps the factors in FP32, so that they come back bit for bit
(R286); a SNAPSHOT command ships them as bfloat16 (R258). -/
def Module.regionState (m : Module) (j t v : Nat) (wide : Bool) : List Byte :=
  let b := m.job j
  let n := b.regionElems t
  let values := (List.range (b.stateVals t)).flatMap (fun k =>
    (List.range n).flatMap (fun e => leBytes 2 (m.stateCode j t (b.committed t v) (v * n + e) k)))
  if b.ruleOf t = 4 then (List.range (b.facCount t)).flatMap (fun k => facByte wide (m.facCode j t (b.facHalf t) k)) else values

/-- The length of a region's optimizer state with factors in FP32. -/
def Job.stateLen (b : Job) (t : Nat) : Nat :=
  if b.ruleOf t = 4 then 4 * b.facCount t
  else 2 * b.stateVals t * b.regionElems t

/-- The HBM byte ranges of a region's committed weights and of its committed optimizer state (R258). -/
def Job.regionRanges (b : Job) (t v : Nat) (weights state : Bool) : List (Nat × Nat) :=
  let n := b.regionElems t
  (if weights then [(b.weightAddr t (b.committed t v) (v * n), 2 * n)] else []) ++
  (if state then
    ((List.range (b.stateVals t)).flatMap (fun k => (List.range n).map (fun e => (b.stateAddr t (b.committed t v) (v * n + e) k, 2))) ++
      (List.range (b.facCount t)).map (fun k => (b.facAddr t (b.facHalf t) k, 4))).filter (fun r => b.inState r.1)
   else [])

/-- Whether any granule of a region's committed optimizer state carries poison. -/
def Module.regionStatePoison (m : Module) (j t v : Nat) : Bool :=
  let b := m.job j
  (List.range (b.regionElems t)).any (fun e => m.statePoison j t (b.committed t v) (v * b.regionElems t + e)) ||
    m.facPoison j t (List.range (b.facCount t))

/-- Bytes written as a region's committed weights. -/
def Module.putWeights (m : Module) (j t v : Nat) (half : Nat) (bs : List Byte) : Module :=
  let b := m.job j
  let a := b.weightAddr t half (v * b.regionElems t)
  { m with hbm := m.hbm.write a bs, hbmPoison := poisonClean m.hbmPoison a bs.length, bursts := rewritten m.bursts a bs.length }

/-- Bytes written as a region's optimizer state in a half. -/
def Module.putState (m : Module) (j t v half : Nat) (bs : List Byte) : Module :=
  let b := m.job j
  let n := b.regionElems t
  if b.ruleOf t = 4 then
    (List.range (b.facCount t)).foldl (fun (m : Module) k => m.putFac j t half k (leAt bs (4 * k) 4)) m
  else
    (List.range (b.stateVals t)).foldl (fun (m : Module) k =>
      (List.range n).foldl (fun (m : Module) e => m.putStateCode j t half (v * n + e) k (leAt bs (2 * (k * n + e)) 2)) m) m

/-! ### Stored sets (R256) -/

/-- The adapter tensors of a job in ascending index. -/
def Job.adapterTensors (b : Job) : List Nat :=
  b.trains.filter (fun t => ((b.image.tensors[t]?).map Tensor.rank).getD 0 != 0)

/-- The hash of the ADAPTERS sites that a stored set records (R399). -/
def Job.sitesHash (b : Job) : List Byte :=
  match b.prog.adapters with
  | none => []
  | some a => sha512 (a.sites.flatMap (fun s =>
      leBytes 8 s.baseTensor ++ leBytes 8 s.aTensor ++ leBytes 8 s.bTensor ++ leBytes 8 s.aOffset ++ leBytes 8 s.bOffset))

/-- The content of a stored set: the slot's weights in every adapter tensor, and the set's optimizer state at rank 0. -/
def Module.setBytes (m : Module) (j v : Nat) : List Byte :=
  let b := m.job j
  b.adapterTensors.flatMap (fun t => m.regionWeights j t v) ++
  (if m.isRank0 j then b.adapterTensors.flatMap (fun t => m.regionState j t v true) else [])

/-- A stored set written into a slot region's committed half; without its state the state is zero. -/
def Module.takeSet (m : Module) (j v : Nat) (o : Obj) : Module :=
  let b := m.job j
  let bs := o.bytes
  let r := b.adapterTensors.foldl (fun (acc : Module × Nat) t =>
    let n := 2 * b.regionElems t
    (acc.1.putWeights j t v (b.committed t v) (padTo n (slice bs acc.2 n)), acc.2 + n)) (m, 0)
  if !m.isRank0 j then r.1
  else
    (b.adapterTensors.foldl (fun (acc : Module × Nat) t =>
      let n := b.stateLen t
      (acc.1.putState j t v (b.committed t v) (if o.hasState then padTo n (slice bs acc.2 n) else zeros n), acc.2 + n)) r).1

/-! ### Snapshots (R258, R285) -/

/-- A slot as OD 0x3240 shows it (R265). -/
def Slot.word (s : Slot) : Nat := s.state * 2 ^ 30 + (if s.state = 0 then 0 else s.set)

/-- The slot map of a job: 64 words. -/
def Job.slotMap (b : Job) : List Byte := (List.range 64).flatMap (fun v => leBytes 4 (((b.slots[v]?).map Slot.word).getD 0))

/-- The image_id of a job (R207). -/
def Job.imageId (b : Job) : Nat := beNat (b.hash.take 8)

/-- The header of a snapshot (R258): image_id, step count, rank and rope size, and the slot map. -/
def Module.snapHeader (m : Module) (j : Nat) : List Byte :=
  let b := m.job j
  leBytes 8 b.imageId ++ leBytes 8 b.step ++ leBytes 8 (m.rank + m.ropeSize * 2 ^ 32) ++ zeros 40 ++ b.slotMap

/-- The length of a snapshot header. -/
def snapHeaderLen : Nat := 320

/-- The regions that a SNAPSHOT of a scope and a slot mask ships, in order (R258). -/
def Job.scopeRegions (b : Job) (scope mask : Nat) : List (Nat × Nat) :=
  (List.range b.image.tensors.length).flatMap (fun t =>
    match b.image.tensors[t]? with
    | none => []
    | some x =>
      if x.mode = 1 then (if bitAt scope 1 then [(t, 0)] else [])
      else if x.rank = 0 then (if bitAt scope 0 then [(t, 0)] else [])
      else ((List.range b.slotCount).filter (bitAt mask)).map (fun v => (t, v)))

/-- What a SNAPSHOT of a scope and a slot mask ships of each tensor in order (R258): tensor, region, whether its weights go and
whether its optimizer state goes. Only TRAIN tensors have state. -/
def Job.scopeParts (b : Job) (scope mask : Nat) : List (Nat × Nat × Bool × Bool) :=
  (List.range b.image.tensors.length).flatMap (fun t =>
    match b.image.tensors[t]? with
    | none => []
    | some x =>
      if x.mode = 1 then [(t, 0, bitAt scope 1, false)]
      else if x.rank = 0 then [(t, 0, bitAt scope 0, bitAt scope 2)]
      else ((List.range b.slotCount).filter (bitAt mask)).map (fun v => (t, v, true, bitAt scope 2)))

/-- The content of a part of a SNAPSHOT. -/
def Module.partContent (m : Module) (j : Nat) (x : Nat × Nat × Bool × Bool) : List Byte :=
  (if x.2.2.1 then m.regionWeights j x.1 x.2.1 else []) ++ (if x.2.2.2 then m.regionState j x.1 x.2.1 false else [])

/-- Whether the source of a part of a SNAPSHOT cannot be read. -/
def Module.partPoison (m : Module) (j : Nat) (x : Nat × Nat × Bool × Bool) : Bool :=
  (x.2.2.1 && m.regionPoison j x.1 x.2.1) || (x.2.2.2 && m.regionStatePoison j x.1 x.2.1)

/-- The regions of a state snapshot: every TRAIN weight and every STAGED or ACTIVE slot region (R285). -/
def Job.snapRegions (b : Job) : List (Nat × Nat) :=
  b.scopeRegions 1 (maskOf ((List.range b.slotCount).filter (fun v => ((b.slots[v]?).map Slot.state).getD 0 != 0)))

/-- The regions' content: the weights of each, followed by its optimizer state where asked. -/
def Module.regionBytes (m : Module) (j : Nat) (rs : List (Nat × Nat)) (state : Bool) : List Byte :=
  rs.flatMap (fun r => m.regionWeights j r.1 r.2 ++ (if state then m.regionState j r.1 r.2 true else []))

/-- The segments of a TRAIN tensor. -/
def Job.segments (b : Job) (t : Nat) : Nat := ceilDiv (((b.image.tensors[t]?).map Tensor.count).getD 0) 4096

/-- The exponent tables in force as bytes: one for each segment of each TRAIN tensor (R55). -/
def Job.expBytes (b : Job) : List Byte :=
  b.trains.flatMap (fun t => (List.range (b.segments t)).flatMap (fun g => leBytes 1 (unsigned 8 (b.segExp t g))))

/-- The exponent table in a byte string. -/
def Job.readExps (b : Job) (bs : List Byte) : List (Nat × Int) :=
  (b.trains.foldl (fun (acc : List (Nat × Int) × Nat) t =>
    (acc.1 ++ (List.range (b.segments t)).map (fun g => (segKey t g, signed 8 (leAt bs (acc.2 + g) 1))), acc.2 + b.segments t))
    ([], 0)).1

/-- The set step counts of 64 slots. -/
def Job.setStepBytes (b : Job) : List Byte := (List.range 64).flatMap (fun v => leBytes 8 (((b.slots[v]?).map Slot.setSteps).getD 0))

/-- The content of a state snapshot (R285): the order of R258, then descriptors, exponent tables, set step counts, seed. -/
def Module.stateSnapshot (m : Module) (j : Nat) : List Byte :=
  let b := m.job j
  m.snapHeader j ++ m.regionBytes j b.snapRegions true ++ b.descs.flatMap ScaleDesc.bytes ++ b.expBytes ++
    b.setStepBytes ++ leBytes 8 b.seed

/-- Whether any source of the regions carries poison, in the weights or the optimizer state. -/
def Module.regionsPoison (m : Module) (j : Nat) (rs : List (Nat × Nat)) : Bool :=
  rs.any (fun r => m.regionPoison j r.1 r.2 || m.regionStatePoison j r.1 r.2)

/-- The regions that a snapshot's slot map names. -/
def Job.regionsIn (b : Job) (bs : List Byte) : List (Nat × Nat) :=
  b.scopeRegions 1 (maskOf ((List.range b.slotCount).filter (fun v => field (leAt bs (64 + 4 * v) 4) 30 2 != 0)))

/-- The regions' content written into halves of the weights and the state region. Answers the offset after it. -/
def Module.putRegions (m : Module) (j : Nat) (state : Bool) (half : Nat → Nat → Nat) (rs : List (Nat × Nat)) (bs : List Byte)
    (off : Nat) : Module × Nat :=
  rs.foldl (fun (acc : Module × Nat) r =>
    let b := m.job j
    let n := 2 * b.regionElems r.1
    let m1 := acc.1.putWeights j r.1 r.2 (half r.1 r.2) (padTo n (slice bs acc.2 n))
    let k := if state then b.stateLen r.1 else 0
    (if state then m1.putState j r.1 r.2 (half r.1 r.2) (padTo k (slice bs (acc.2 + n) k)) else m1, acc.2 + n + k)) (m, off)

/-- The seed that a state snapshot carries. -/
def snapSeed (bs : List Byte) : Nat := leAt bs (bs.length - 8) 8

/-- The slots with the set step counts at an offset. -/
def Job.withSetSteps (b : Job) (bs : List Byte) (off : Nat) : Job :=
  { b with slots := (b.slots.zipIdx).map (fun s => { s.1 with setSteps := leAt bs (off + 8 * s.2) 8 }) }

/-- RESTORE's writing (R286): the snapshot's contents into the committed halves, the descriptors, the exponent tables, the set
step counts and the step count. -/
def Module.restoreFrom (m : Module) (j : Nat) (bs : List Byte) : Module :=
  let b := m.job j
  let r := m.putRegions j true b.committed (b.regionsIn bs) bs snapHeaderLen
  let d := r.2
  let e := d + 128 * b.descs.length
  let s := bs.length - 8 - 512
  r.1.onJob j (fun b =>
    { b.withSetSteps bs s with
        descs := (List.range b.descs.length).map (fun i => readDesc (slice bs (d + 128 * i) 128)),
        expTab := b.readExps (slice bs e (s - e)), step := leAt bs 8 8 })

/-! ### Capturing (R258) -/

/-- A SNAPSHOT command's failure: event 0x0362. -/
def Module.snapFailed (fu : Fuses) (m : Module) (q : Nat) (c : Cmd) (status : Nat) : Module :=
  (m.event fu 0x0362 [c.job, c.args.getD 0 0, c.args.getD 2 0 % 2, status]).answer q c status 0 0

/-- A SNAPSHOT captures the committed state and is answered, to the host or into the SNAPSHOT partition: DENIED and the
partition's refusals before the source is read (R14). -/
def Module.captureSnapshot (fu : Fuses) (m : Module) (q : Nat) (c : Cmd) : Module :=
  let b := m.job c.job
  let scope := c.args.getD 0 0
  let ps := b.scopeParts scope (c.args.getD 1 0)
  let kept := bitAt (c.args.getD 2 0) 0
  let w5 := c.args.getD 3 0
  let id := if w5 = 0 then moduleId 1 c.job b.step else w5
  let bs := m.snapHeader c.job ++ ps.flatMap (m.partContent c.job)
  let st := if kept then m.writeRefused 3 id bs.length else stOk
  if bitAt scope 2 && !m.isRank0 c.job then m.snapFailed fu q c stDenied
  else if st != stOk then m.snapFailed fu q c st
  else
  let bad := ps.any (m.partPoison c.job)
  let m := m.hbmReads fu c.job (ps.flatMap (fun x => b.regionRanges x.1 x.2.1 x.2.2.1 x.2.2.2))
  if bad then m.snapFailed fu q c stPoison
  else if !kept then (m.bump (odKey 0x3230 6) bs.length).answerData q c stOk b.step bs.length bs
  else ((m.putObj fu (Obj.named 3 id) bs).bump (odKey 0x3230 6) bs.length).answer q c stOk b.step bs.length

/-- Every SNAPSHOT of a job that waits for the next step boundary captures it, those too whose port was reset meanwhile
(R432), which no queue answers. -/
def Module.captureAll (fu : Fuses) (m : Module) (j : Nat) : Module :=
  let os := m.host.orphans.filter (fun c => c.job == j)
  let m := { m with host := { m.host with orphans := m.host.orphans.filter (fun c => c.job != j) } }
  let m := os.foldl (fun (m : Module) c => m.captureSnapshot fu 16 c) m
  (List.range 16).foldl (fun (m : Module) q =>
    ((m.queue q).cmds.filter (fun c => c.opcode == 0x18 && c.job == j && c.state == 1)).foldl (fun (m : Module) c =>
      m.captureSnapshot fu q c) m) m

end Sys2Proof.Machine
end

