-- ==== Sys2Proof/Machine/Jobs.lean ====
section
/-!
DEFINITION. What happens to a job: completion records (R431), the fate of a step by an
instruction's status (R203), the end of a job (R208), and failed attempts (R481, R482, R485).
-/
namespace Sys2Proof.Machine

/-! ### Completion records -/

/-- The problem number of an instantiation (R193): that of its reel entry, 0 outside a TAKE region. -/
def Inst.problem (i : Inst) : Nat := (i.entry.map Entry.p).getD 0

/-- The completion record of an instruction with cmpl set (R431), to the ring of the queue that took the running STEP;
dropped and counted where that ring is not ENABLED or 4,096 such packets wait. -/
def Module.instrDone (fu : Fuses) (m : Module) (i : Inst) (status : Nat) : Module :=
  if !bitAt (i.words.getD 0 0) 48 then m
  else
    let b := m.job i.job
    let q := b.run.stepQ
    let t := m.queue q
    if t.state != 1 || decide (4096 ≤ (t.resps.filter Resp.unsol).length) then
      ((m.onQueue q (fun t => { t with dropped := t.dropped + 1 })).bump (odKey 0x5100 5) 1).event fu 0x0554
        [q / 8, q % 8, t.dropped + 1]
    else
      m.pushResp q
        { Resp.plain 0xF0 0 i.job status false with
            unsol := true, w2 := field (i.words.getD 0 0) 0 32 * 2 ^ 32 + i.core * 2 ^ 23 + status * 2 ^ 15,
            w4 := i.problem, w5 := b.step }

/-! ### Streams and instructions in flight -/

/-- The instruction stream of core `g` of a job: that of its position's role (R191), or of the SCHEDULE section in a
replayed attempt (R481). -/
def Job.stream (b : Job) (g : Nat) : List Words :=
  (if b.run.replay then b.prog.sched else b.prog.streams).getD (b.image.roleMap.getD (g % 8) 0xFF) []

/-- The instruction at the core's program position, as an instantiation. -/
def Module.instAt (m : Module) (g j : Nat) : Option Inst :=
  let c := m.core g
  ((m.job j).stream g)[c.seq.pc]?.map (fun w => { job := j, core := g, index := c.seq.pc, words := w, entry := c.seq.takes.head? })

/-- The instantiations that a core still has in flight: its movements, core tiles and gathers, the instruction its sequencer
waits at and the one that a fence request stopped. -/
def Module.inFlight (m : Module) (g j : Nat) : List Inst :=
  let c := m.core g
  ((c.channels.flatMap (fun ch => ch.map Move.inst)) ++ (c.tiles.filter Tile.last).map Tile.inst ++ c.gathers.map PendGather.inst ++
   (if c.seq.wait.isSome then (m.instAt g j).toList else []) ++ (c.fenceReq.bind FenceReq.inst).toList).eraseDups

/-- The contents of the slots of an instruction that ends without its commit are undefined (R74, R130): free bytes in those
that are EMPTY. `ss` are core and slot. -/
def Core.spoil (c : Core) (ss : List (Nat × Nat)) : Core :=
  let ss := (ss.filter (fun s => !c.mem.full.contains s.2)).eraseDups
  if ss.isEmpty then c
  else
    { c with spoils := c.spoils + 1,
             mem := { c.mem with sp := ss.foldl (fun sp s =>
               sp.write (4096 * s.2) ((List.range 4096).map (fun b => Config.freeSlot s.1 c.spoils (4096 * s.2 + b)))) c.mem.sp } }

/-- The destination slots of a core tile, with its core. -/
def Tile.places (t : Tile) : List (Nat × Nat) := t.slots.map (fun s => (t.inst.core, s))

/-- The destination slots of a gather under way, with its core. -/
def PendGather.places (p : PendGather) : List (Nat × Nat) := p.slots.map (fun s => (p.inst.core, s))

/-- A core with nothing in flight, its sequencer stopped at instruction `at_`. -/
def Core.stop (c : Core) (at_ : Nat) : Core :=
  { c.spoil (c.tiles.flatMap Tile.places ++ c.gathers.flatMap PendGather.places) with
      channels := List.replicate 8 [], tiles := [], gathers := [],
      fenceReq := c.fenceReq.map (fun r => { r with inst := none }),
      seq := { pc := at_, loops := [], takes := [], wait := none, done := false } }

/-- The record of an instruction that ends CANCELLED because of another one (R203): job, core and ident of the one, core and
ident of the other. -/
def Module.cancelRecord (fu : Fuses) (m : Module) (i : Inst) (status : Nat) : Module :=
  match (m.job i.job).run.cause with
  | some c =>
    if status = stCancelled && i != c then
      m.event fu (computeEvent Config.cancelEvent) [i.job, i.core, field (i.words.getD 0 0) 0 32, c.core, field (c.words.getD 0 0) 0 32]
    else m
  | none => m

/-- Every instruction of a job in flight on one core ends with a status. -/
def Module.endFlight (fu : Fuses) (m : Module) (j status : Nat) (g : Nat) : Module :=
  ((m.inFlight g j).foldl (fun (m : Module) i => (m.instrDone fu i status).cancelRecord fu i status) m).onCore g
    (fun c => c.stop c.seq.pc)

/-- The instruction whose status decides the fate of its step (R203). -/
def Module.blame (m : Module) (i : Inst) : Module := m.onRun i.job (fun r => { r with cause := some i })

/-- Every instruction of a job in flight ends with a status (R203, R481). -/
def Module.endFlights (fu : Fuses) (m : Module) (j status : Nat) : Module :=
  (m.job j).cores.foldl (fun m g => m.endFlight fu j status g) m

/-! ### The end of a step or a job -/

/-- A core returns to the pool (R208, R211): its job context forgets it; its memory keeps the last holder's data. -/
def Core.leave (c : Core) : Core := { c.stop 0 with job := none, lastHolder := c.job }

/-- A scale descriptor as a step that does not commit leaves it: the step's maximum and counts restart (R49, R50). -/
def ScaleDesc.dropStep (d : ScaleDesc) : ScaleDesc :=
  { d with stepMaxExp := none, stepSaturations := 0, tackleSaturations := 0, stepNonfinite := 0, tackleNonfinite := 0 }

/-- The run part of a job between steps: nothing of an uncommitted step is left (R50, R243). -/
def Run.idle (r : Run) : Run := { Run.empty with epoch := r.epoch, stepQ := r.stepQ }

/-- The STEP commands of a job when its step ends: the running one with the step's status, the waiting ones with
CANCELLED unless the step committed (R425). A STEP that was asked for and whose step has not started waits. -/
def Module.answerSteps (m : Module) (j status : Nat) : Module :=
  let n := (m.job j).step
  let m := if (m.job j).state = 3 then m.answerAll (fun c => c.opcode == 3 && c.job == j && c.state == 1) status n 0 else m
  if status = stOk then m else m.answerAll (fun c => c.opcode == 3 && c.job == j) stCancelled n 0

/-- The job ends with a status (R208): its cores return to the pool, its cluster ranges are released, its STEP commands
and the SNAPSHOTs and PINs that wait are answered, and its residency entries, frames and fetches are released (R334). -/
def Module.endJob (fu : Fuses) (m : Module) (j status : Nat) : Module :=
  let b := m.job j
  if b.state != 2 && b.state != 3 then m
  else
    let live := (m.liveCores j).length
    let m := m.endFlights fu j stCancelled
    let m := m.answerSteps j status
    let m := if b.state = 3 then m.bump (odKey 0x3210 5) (if status = stPoison || status = stTimeout then 1 else 0) else m
    let m := b.cores.foldl (fun m g => m.onCore g Core.leave) m
    let m := { m with clusters := m.clusters.map (fun (k : Cluster) => { k with ranges := k.ranges.filter (fun r => r.1 ≠ j) }) }
    let m := m.answerAll (fun c => (c.opcode == 0x18 || c.opcode == 0x1A) && c.job == j && c.state == 1) stCancelled 0 0
    let m := { m with residency := m.residency.filter (fun (r : Nat × Residency) => r.2.job != j),
                      host := { m.host with orphans := m.host.orphans.filter (fun c => c.job != j) } }
    (m.onJob j (fun b => { b with
      state := 4, endStatus := status, cores := [], fetches := [], descs := b.descs.map ScaleDesc.dropStep, run := b.run.idle })).event
      fu 0x0352 [j, status, b.step, live]

/-- The step is abandoned and the job returns to LOADED (R203): nothing of the step is left. A SNAPSHOT that waits for the step
boundary captures the committed state, which is that of the step before (R258), and the rope's bonds are judged (R290). -/
def Module.abandonStep (fu : Fuses) (m : Module) (j status : Nat) : Module :=
  if (m.job j).state != 3 then m
  else
    let m := m.endFlights fu j stCancelled
    let m := (m.job j).cores.foldl (fun m g => m.onCore g (fun c => c.stop 0)) m
    let m := m.answerSteps j status
    (((m.onJob j (fun b => { b with
      state := 2, descs := b.descs.map ScaleDesc.dropStep, run := b.run.idle })).bump (odKey 0x3210 5)
      (if status = stCancelled || status = stPeerLost then 0 else 1)).captureAll fu j).judgeIdle fu j

/-- The value of a dictionary object as the running step latched it. -/
def Run.latched (r : Run) (key : Nat) : Nat := r.latch.get key

/-- An attempt failed with CHECK_MISMATCH or FENCED (R482): it is to be replayed, or the limit ends the job. -/
def Module.failAttempt (fu : Fuses) (m : Module) (j status : Nat) : Module :=
  let b := m.job j
  if b.state != 3 || b.run.mustReplay.isSome then m
  else
    let fails := b.run.fails + 1
    if b.run.latched (odKey 0x3230 8) ≤ fails then
      ((m.endJob fu j status).bump (odKey 0x3230 10) 1).event fu 0x0393 [j, b.step, fails, status]
    else m.onRun j (fun r => { r with fails := fails, mustReplay := some status })

/-- A fence falls on a running attempt: a first attempt fails; a replayed one resumes and counts as the same attempt
(R261, R485). -/
def Module.fenceAttempt (fu : Fuses) (m : Module) (j status : Nat) : Module :=
  if 0 < (m.job j).run.attempt then
    if (m.job j).state = 3 && (m.job j).run.mustReplay.isNone then
      m.onRun j (fun r => { r with mustReplay := some stFenced })
    else m
  else m.failAttempt fu j status

/-- Whether the job can go on after a fence (R211): enough live cores, and a live core in every role that is used. -/
def Module.jobViable (m : Module) (j : Nat) : Bool :=
  let b := m.job j
  let live := m.liveCores j
  decide (b.image.coresMin ≤ live.length) &&
    (b.image.roleMap.filter (· ≠ 0xFF)).all (fun r => live.any (fun g => b.image.roleMap.getD (g % 8) 0xFF == r))

/-- What decides the fate of a step (R203) after an instruction ended with a status: the failing value and its plan go
into the record of an issue-time status. -/
def Module.fate (fu : Fuses) (m : Module) (i : Inst) (status value plan : Nat) : Module :=
  if status = stOk || status = stEmptyOp || status = stCancelled || status = stPeerLost then m
  else
  let m := m.blame i
  if status = stPoison || status = stTimeout then m.endJob fu i.job status
  else if status = stCheck || status = stFenced then m.fenceAttempt fu i.job status
  else (m.event fu 0x0351 [i.job, i.core, field (i.words.getD 0 0) 0 32, i.problem, status, value, plan]).abandonStep fu
    i.job status

/-- An instruction ends with a status: it signals on OK and EMPTY_OP (R198), raises its completion record, and decides
the fate of its step. -/
def Module.finish (fu : Fuses) (m : Module) (i : Inst) (status value plan : Nat) : Module :=
  let w := i.words.getD 0 0
  let ok := status == stOk || status == stEmptyOp
  let m := m.instrDone fu i status
  let m := if ok && bitAt w 55 then m.onRun i.job (fun r => { r with signals := r.signals ++ [field w 49 6] }) else m
  m.fate fu i status value plan

/-- The two words of a channel's state record (R390): IDLE 0, ACTIVE 1, HALTED 2, WAITING 3 for
an acknowledgement or a stack. -/
def channelRecord (ch : List Move) : List Nat :=
  match ch with
  | [] => [0, 0]
  | v :: _ =>
    let st := match v.wait with
      | some (.page _ _) => 2
      | some (.stack _) => 3
      | _ => if v.written then 3 else 1
    [st * 2 ^ 62 + v.op * 2 ^ 58 + ch.length * 2 ^ 53 + v.inst.job * 2 ^ 49 + field (v.inst.words.getD 0 0) 0 32,
     v.pos % 2 ^ 24 * 2 ^ 40 + v.len % 2 ^ 24 * 2 ^ 16 + v.desc % 64 * 2 ^ 10]

/-- Event 0x0382: a movement ended with FENCED, TIMEOUT or POISON (R392). -/
def Module.moveEnded (fu : Fuses) (m : Module) (i : Inst) (ch status : Nat) : Module :=
  if status = stFenced || status = stTimeout || status = stPoison then
    m.event fu 0x0382 ([i.job, i.core, ch, field (i.words.getD 0 0) 0 32, status] ++
      channelRecord ((m.core i.core).channels.getD ch []))
  else m

/-- The events of the movements of a core that a fence or a limit ends, that of a MOVE held at its full channel among them (R376). -/
def Module.movesEnded (fu : Fuses) (m : Module) (g status : Nat) : Module :=
  let held := match (m.core g).seq.wait, (m.core g).job.bind (m.instAt g) with
    | some (.channel ch), some i => some (i, ch)
    | _, _ => none
  let m := ((m.core g).channels.zipIdx).foldl (fun (m : Module) p =>
    p.1.foldl (fun (m : Module) v => m.moveEnded fu v.inst p.2 status) m) m
  match held with
  | some x => m.moveEnded fu x.1 x.2 status
  | none => m

/-- The copies of multicasts that core `g` issued and whose data has left end FENCED on core `h`, its own copy on itself: no destination
slot is FULL (R234). -/
def Module.endCopies (fu : Fuses) (g : Nat) (m : Module) (h : Nat) : Module :=
  let ours := fun (v : Move) => v.cast.any (fun c => c.1 == g)
  let vs := ((m.core h).channels.zipIdx).flatMap (fun p => (p.1.filter ours).map (fun v => (v, p.2)))
  let slots := vs.flatMap (fun v => (v.1.cast.map Prod.snd).getD [])
  if vs.isEmpty then m
  else
    (vs.foldl (fun (m : Module) v => (m.moveEnded fu v.1.inst v.2 stFenced).instrDone fu v.1.inst stFenced) m).onCore h (fun c =>
      ({ c with channels := c.channels.map (fun ch => ch.filter (fun v => !ours v)),
                mem := { c.mem with full := c.mem.full.filter (fun s => !slots.contains s) } } : Core).spoil
        (slots.map (fun s => (h, s))))

/-- The instruction that a fence request of a core stopped decides the fate of its step, unless another one did (R203). -/
def Module.blameFence (m : Module) (c : Core) : Module :=
  match c.fenceReq.bind FenceReq.inst with
  | some i => if (m.job i.job).run.cause.isSome then m else m.blame i
  | none => m

/-- The fence register of a core is set (R23): what the core had in flight ends with FENCED, it leaves its job's core
set, and the job goes on, resumes, replays or ends (R203, R211). -/
def Module.applyFence (fu : Fuses) (m : Module) (g : Nat) (hw : Bool) : Module :=
  let c := m.core g
  let status := (c.fenceReq.map FenceReq.status).getD stFenced
  let m := m.blameFence c
  let m := (List.range 384).foldl (fun (m : Module) h => m.endCopies fu g h) m
  let m := match c.job with
    | some j => (m.inFlight g j).foldl (fun (m : Module) i => m.instrDone fu i stFenced) (m.movesEnded fu g stFenced)
    | none => m
  let m := m.onCore g (fun c => { c.stop 0 with
    fenced := true, origin := if hw then 1 else (if c.fenced then c.origin else 2), fenceReq := none })
  let m := m.checkCores fu
  match c.job with
  | none => m
  | some j =>
    let m := m.onJob j (fun b => { b with cores := b.cores.filter (· ≠ g) })
    let m := m.onCore g (fun c => { c with job := none, lastHolder := some j })
    if !m.jobViable j then m.endJob fu j stFenced
    else if (m.job j).state = 3 then m.fenceAttempt fu j (if status = stCheck then stCheck else stFenced)
    else m

end Sys2Proof.Machine
end

