-- ==== Sys2Proof/Machine/Operands.lean ====
section
/-!
DEFINITION. Operands: the three spaces of a job's data (R93, R185, R210), shape fields (R193, R200), layout descriptors
(R215 to R219), two-half buffers (R378, R379, R241), and the reading and writing of one element with its scale and its
poison.
-/
namespace Sys2Proof.Machine

/-! ### Spaces -/

/-- The base of a job's range in a cluster (R210). -/
def Job.cmBase (b : Job) (k : Nat) : Nat := (b.cmBases.lookup k).getD 0

/-- Bytes of a space as core `g` of job `j` addresses it: 0 its scratchpad, 1 its cluster's memory within the job's
range, 2 the job's HBM region. -/
def Module.bytesAt (m : Module) (j g space addr n : Nat) : List Byte :=
  if space = 0 then (m.core g).mem.sp.read addr n
  else if space = 1 then (m.cluster (clusterOf g)).cm.read ((m.job j).cmBase (clusterOf g) + addr) n
  else m.hbm.read ((m.job j).hbmBase + addr) n

/-- Whether any granule of a byte range carries poison. -/
def Module.poisonAt (m : Module) (j g space addr n : Nat) : Bool :=
  if space = 0 then poisonHit (m.core g).mem.poison addr n
  else if space = 1 then
    poisonHit (m.cluster (clusterOf g)).poison ((m.job j).cmBase (clusterOf g) + addr) n
  else poisonHit m.hbmPoison ((m.job j).hbmBase + addr) n

/-- The poison after a store: set on every granule touched, or cleared from every granule written whole (R106, R362). -/
def poisonStore (ps : List Nat) (a n : Nat) (bad : Bool) : List Nat := if bad then poisonSet ps a n else poisonClean ps a n

/-- The scratchpad address of a granule of a row of a bank (R93). -/
def spAddr (bank row granule : Nat) : Nat := (bank + 48 * (row / 4)) * 4096 + row % 4 * 1024 + granule * 32

/-- The cluster-memory address of a granule of a row of a bank (R114). -/
def cmAddr (bank row granule : Nat) : Nat := (row * 32 + bank) * 1024 + granule * 32

/-- Rows whose remap is in progress after a write of `n` bytes at `a`, which goes to both the row and its spare (R110):
`at_` gives the address of a row's granule. -/
def touchRows (at_ : Nat → Nat → Nat → Nat) (ps : List PendRow) (a n : Nat) : List PendRow :=
  ps.map (fun r =>
    let hit := (List.range 32).filter (fun k => (granules a n).contains (at_ r.bank r.row k / 32))
    { r with written := insertAll r.written hit })

/-- Bytes stored into a space, with or without poison. -/
def Module.storeAt (m : Module) (j g space addr : Nat) (bs : List Byte) (bad : Bool) : Module :=
  if space = 0 then
    m.onCore g (fun c => { c with mem := { c.mem with
      sp := c.mem.sp.write addr bs, poison := poisonStore c.mem.poison addr bs.length bad,
      pending := touchRows spAddr c.mem.pending addr bs.length } })
  else if space = 1 then
    m.onCluster (clusterOf g) (fun k =>
      let a := (m.job j).cmBase (clusterOf g) + addr
      { k with cm := k.cm.write a bs, poison := poisonStore k.poison a bs.length bad,
               pending := touchRows cmAddr k.pending a bs.length })
  else
    let a := (m.job j).hbmBase + addr
    { m with hbm := m.hbm.write a bs, hbmPoison := poisonStore m.hbmPoison a bs.length bad,
             bursts := rewritten m.bursts a bs.length }

/-- The address that an address of a space has in its memory. -/
def Module.physAddr (m : Module) (j g space a : Nat) : Nat :=
  if space = 0 then a
  else if space = 1 then (m.job j).cmBase (clusterOf g) + a
  else (m.job j).hbmBase + a

/-- The granules whose 32 bytes all are among the given addresses. -/
def covered (addrs : List Nat) : List Nat :=
  ((addrs.map (· / 32)).eraseDups).filter (fun q => (List.range 32).all (fun b => addrs.contains (32 * q + b)))

/-- The poison after element-by-element writes to `addrs` of which those to `bads` carried poison: a granule written whole
with clean data is clean (R106, R362). -/
def Module.cleanCovered (m : Module) (j g space : Nat) (addrs bads : List Nat) : Module :=
  let as := addrs.map (m.physAddr j g space)
  let bs := (bads.map (m.physAddr j g space)).map (· / 32)
  let clean := (covered as).filter (fun q => !bs.contains q)
  let keep := fun (ps : List Nat) => ps.filter (fun q => !clean.contains q)
  if space = 0 then m.onCore g (fun c => { c with mem := { c.mem with poison := keep c.mem.poison } })
  else if space = 1 then m.onCluster (clusterOf g) (fun k => { k with poison := keep k.poison })
  else { m with hbmPoison := keep m.hbmPoison }

/-! ### Shapes -/

/-- A run-time shape value, or why there is none: an offset that is not allowed (R201), or a poisoned shape word (R200). -/
inductive ShapeVal where
  | val (n : Nat)
  | denied
  | poisoned
  deriving DecidableEq, Repr

/-- The value in force of a bound slot (R199). -/
def Job.boundValue (b : Job) (slot : Nat) : Nat := ((b.bounds.find? (fun d => d.slot == slot)).map Bound.value).getD 0

/-- A shape word: the U32 at a job-region offset (R193, R200, R201). -/
def Module.shapeWord (m : Module) (j off : Nat) : ShapeVal :=
  if off % 4 != 0 || decide ((m.job j).image.hbmBytes < off + 4) then .denied
  else if m.poisonAt j 0 2 off 4 then .poisoned
  else .val (leNat (m.bytesAt j 0 2 off 4))

/-- The run-time value of a shape field for problem `p` (R193). -/
def Module.shape (m : Module) (j p : Nat) (s : Shape) : ShapeVal :=
  if s.src = 0 then .val s.plan
  else if s.src = 1 then .val ((m.job j).boundValue s.slot)
  else m.shapeWord j ((m.job j).boundValue s.slot + 4 * p)

/-- The value, 0 where there is none. -/
def ShapeVal.get : ShapeVal → Nat
  | .val n => n
  | _ => 0

/-- The run-time extent of a layout dimension (R215): plan + 1 for an immediate. -/
def Module.extent (m : Module) (j p : Nat) (s : Shape) : ShapeVal :=
  if s.src = 0 then .val (s.plan + 1) else m.shape j p s

/-! ### Operands -/

/-- An operand resolved at issue: its reference and buffer, its layout with the run-time extents, the byte offset of its
base within the buffer, the half in use, the half bit of each slot region of an adapter's weight_buf (R241, R250) with
the region's size, the entry's coordinates where the descriptor asks for them, and the scale exponent in force. -/
structure Operand where
  job : Nat
  core : Nat
  ref : OpRef
  buf : Buffer
  lay : Layout
  ext : List Nat
  start : Nat
  half : Nat
  regions : List Nat
  regionBytes : Nat
  coords : List Nat
  exp : Int
  deriving DecidableEq, Repr

/-- The tensor whose weight_buf a buffer is, if it is a TRAIN tensor's (R241). -/
def Job.trainOfWeight (b : Job) (buf : Nat) : Option Nat :=
  indexOf (fun t => t.mode == 0 && t.weightBuf == buf) b.image.tensors

/-- Whether the selector of a two-half buffer names half 1 as the front (R379, R380); HBM buffers use cluster 96. -/
def Job.selOf (b : Job) (buf space g : Nat) : Nat :=
  if b.run.sels.contains (buf, if space = 2 then 96 else clusterOf g) then 1 else 0

/-- The half an access uses (R379): a read the front half, a write the back half; a TRAIN weight_buf its committed and
work half (R241). -/
def Job.halfOf (b : Job) (buf : Nat) (g : Nat) (write : Bool) : Nat :=
  match b.image.buffers[buf]? with
  | none => 0
  | some u =>
    if !u.halves then 0
    else
      let front := match b.trainOfWeight buf with
        | some t => b.halfBits.get (halfKey t 0)
        | none => b.selOf buf u.space g
      if write then 1 - front else front

/-- The coordinates of an instantiation: those of its reel entry, 0 outside a TAKE region (R217, R227). -/
def Inst.coord (i : Inst) : List Nat := (i.entry.map Entry.coords).getD []

/-- An operand of an instantiation, at a byte offset added to its base (the slot region of R255, or the pages of a view). -/
def Module.operand (m : Module) (i : Inst) (w : Nat) (write : Bool) (extra : Nat) : Option Operand :=
  let r := readRef w
  let b := m.job i.job
  if r.buf = 0 then none
  else
    match b.image.buffers[r.buf]? with
    | none => none
    | some u =>
      let lay := b.image.layouts.getD u.layout { dims := [], sparse := false, coord := false, aux := 0 }
      let tr := b.trainOfWeight r.buf
      let adapter := (tr.bind (fun t => b.image.tensors[t]?)).map (fun t => decide (0 < t.rank))
      some { job := i.job, core := i.core, ref := r, buf := u, lay := lay,
             ext := lay.dims.map (fun d => (m.extent i.job i.problem d.extent).get),
             start := 4096 * r.off + extra, half := b.halfOf r.buf i.core write,
             regions := if adapter = some true then
               (List.range b.slotCount).map (fun v => b.halfBits.get (halfKey (tr.getD 0) v)) else [],
             regionBytes := 2 * b.regionElems (tr.getD 0),
             coords := if lay.coord then i.coord else [],
             exp := if u.scaled then ((b.descs[u.scale]?).map ScaleDesc.expCur).getD 0 else 0 }

/-- The byte address, in the operand's space, of a byte offset within its half. -/
def Operand.addr (o : Operand) (off : Nat) : Nat :=
  let h := if o.regions.isEmpty || o.regionBytes = 0 then o.half else o.regions.getD (off / o.regionBytes) 0
  o.buf.base + (if o.buf.halves then h * (o.buf.size / 2) else 0) + off

/-- The digits of a logical index on the dimensions (R216): mixed radix over the dimensions of an axis, lowest first,
with the planned extents as radices; the last dimension of an axis takes what is left. -/
def digitsOf : List Dim → List Nat → List Nat
  | [], _ => []
  | d :: ds, idx =>
    let v := idx.getD d.axis 0
    if d.axis = 7 then 0 :: digitsOf ds idx
    else if ds.any (fun e => e.axis == d.axis) then
      let r := d.extent.plan + 1
      v % r :: digitsOf ds (idx.set d.axis (v / r))
    else v :: digitsOf ds idx

/-- The global index of a local one: the entry's coordinates added (R219). -/
def Operand.index (o : Operand) (idx : List Nat) : List Nat :=
  (List.range 5).map (fun a => idx.getD a 0 + o.coords.getD a 0)

/-- Whether an element is in extent of its descriptor (R219). -/
def Operand.inExtent (o : Operand) (idx : List Nat) : Bool :=
  let ix := o.index idx
  ((digitsOf o.lay.dims ix).zip o.ext).all (fun p => decide (p.1 < p.2)) &&
  (List.range 5).all (fun a => o.lay.dims.any (fun d => d.axis == a) || ix.getD a 0 == 0)

/-- The element offset Σ d_j × stride_j of an index (R216). -/
def Operand.elemOff (o : Operand) (idx : List Nat) : Int :=
  ((digitsOf o.lay.dims (o.index idx)).zip o.lay.dims).foldl (fun acc p => acc + (p.1 : Int) * p.2.stride) 0

/-- The format of an operand's buffer (R548). -/
def Operand.fmt (o : Operand) : Fmt := (fmtOfCode o.buf.fmt).getD .fp32

/-- The byte offset within the half of the element at an element offset. -/
def Operand.byteOff (o : Operand) (e : Int) : Nat := (((o.start : Int) * 8 + e * o.fmt.bits) / 8).toNat

/-- The raw code stored at an element offset (R36 for 4-bit elements). -/
def Module.codeAt (m : Module) (o : Operand) (e : Int) : Nat :=
  let a := o.addr (o.byteOff e)
  if o.fmt.is4bit then field (leNat (m.bytesAt o.job o.core o.buf.space a 1)) (4 * (e % 2).toNat) 4
  else leNat (m.bytesAt o.job o.core o.buf.space a (o.fmt.bits / 8))

/-- The byte offset, within the half, of the scale byte of the block that holds an element offset (R36, R215). -/
def Operand.scaleOff (o : Operand) (e : Int) : Nat := o.start + o.lay.aux + (e / 32).toNat

/-- The value of an element: its code under its format, its block scale or its tensor's exponent in force (R35, R46). -/
def Module.valueAt (m : Module) (o : Operand) (e : Int) : FVal :=
  let c := m.codeAt o e
  if o.fmt.isMx then
    o.fmt.decodeMx (leNat (m.bytesAt o.job o.core o.buf.space (o.addr (o.scaleOff e)) 1)) c
  else (o.fmt.decodeElem c).scale o.exp

/-- Whether reading an element meets poison: in its own granule or in that of its block's scale. -/
def Module.elemPoison (m : Module) (o : Operand) (e : Int) : Bool :=
  m.poisonAt o.job o.core o.buf.space (o.addr (o.byteOff e)) ((o.fmt.bits + 7) / 8) ||
  (o.fmt.isMx && m.poisonAt o.job o.core o.buf.space (o.addr (o.scaleOff e)) 1)

/-- The value of an operand at a logical index; +0 for a padding element, which is not read (R220). -/
def Module.get (m : Module) (o : Operand) (idx : List Nat) : FVal :=
  if o.inExtent idx then m.valueAt o (o.elemOff idx) else fZero

/-- Whether the read of a logical index meets poison; a padding element is not read (R220). -/
def Module.getPoison (m : Module) (o : Operand) (idx : List Nat) : Bool :=
  o.inExtent idx && m.elemPoison o (o.elemOff idx)

/-- A raw code stored at an element offset of an operand, with or without poison. -/
def Module.putCode (m : Module) (o : Operand) (e : Int) (code : Nat) (bad : Bool) : Module :=
  let a := o.addr (o.byteOff e)
  if o.fmt.is4bit then
    let old := leNat (m.bytesAt o.job o.core o.buf.space a 1)
    let new := if e % 2 = 0 then old - old % 16 + code % 16 else old % 16 + code % 16 * 16
    m.storeAt o.job o.core o.buf.space a (leBytes 1 new) bad
  else m.storeAt o.job o.core o.buf.space a (leBytes (o.fmt.bits / 8) code) bad

/-- The scale byte of a block stored. -/
def Module.putScale (m : Module) (o : Operand) (e : Int) (code : Nat) (bad : Bool) : Module :=
  m.storeAt o.job o.core o.buf.space (o.addr (o.scaleOff e)) (leBytes 1 code) bad

/-- One element written under the buffer's combine mode (R186): SUM adds to the stored value with one rounding and
clamps; NONE and OVERWRITE store. Answers the module and how many results were clamped; a sum with poisoned data counts none (R45). -/
def Module.putElem (m : Module) (o : Operand) (e : Int) (code : Nat) (bad : Bool) : Module × Nat :=
  if o.buf.combine = 2 then
    if o.buf.fmt = 5 then
      let v := signed 32 (m.codeAt o e) + signed 32 code
      let c := clampInt (-(2 ^ 31 : Nat)) ((2 ^ 31 - 1 : Nat) : Int) v
      let poison := bad || m.elemPoison o e
      (m.putCode o e (unsigned 32 c) poison, if c = v || poison then 0 else 1)
    else
      let r := fmtF32.encode ((fmtF32.decode (m.codeAt o e)).add (fmtF32.decode code))
      let poison := bad || m.elemPoison o e
      (m.putCode o e r.code poison, if r.sat && !poison then 1 else 0)
  else (m.putCode o e code bad, 0)

/-- The byte addresses of the element at an element offset. -/
def Operand.addrsOf (o : Operand) (e : Int) : List Nat :=
  (List.range ((o.fmt.bits + 7) / 8)).map (· + o.addr (o.byteOff e))

/-- The slots of a scratchpad operand over the bytes it may touch: 4 KiB each (R93). -/
def slotsOf (a n : Nat) : List Nat :=
  if n = 0 then [] else (List.range ((a + n - 1) / 4096 + 1 - a / 4096)).map (· + a / 4096)

end Sys2Proof.Machine
end

