-- ==== Sys2Proof/Machine/MemErr.lean ====
section
/-!
DEFINITION. Errors that the memories of the cores and clusters meet: corrections, poison and row map-out in scratchpad and cluster
memory (R106 to R112, R176), and what a core meets with a command.
-/
namespace Sys2Proof.Machine

/-! ### Scratchpad and cluster memory -/

/-- The U64 of a REPAIR record (R112). -/
def repairWord (kind reason unit bank row spare : Nat) : Nat :=
  kind * 2 ^ 56 + reason * 2 ^ 48 + unit * 2 ^ 39 + bank * 2 ^ 33 + row * 2 ^ 23 + spare * 2 ^ 18

/-- A core-wide stall of a core that is not fenced (R24, R107). -/
def Module.stallCore (m : Module) (g cycles : Nat) : Module :=
  if (m.core g).fenced then m
  else (m.onCore g (fun c => { c with stalls := c.stalls + cycles })).bump (odKey 0x4200 3) cycles

/-- The job that holds a core, 0xFF for none. -/
def Core.jobNo (c : Core) : Nat := c.job.getD 0xFF

/-- What tells one row of a REPAIR record from another: its kind, unit, bank and row. -/
def repairRow (w : Nat) : Nat × Nat := (field w 56 8, field w 23 25)

/-- Whether a row's REPAIR record waits to be written. -/
def Coil.repairWaits (c : Coil) (w : Nat) : Bool := c.repairQueue.any (fun v => repairRow v == repairRow w)

/-- A flagged row that finds no spare (R111): the core, or the four cores of the cluster, are fenced. -/
def Module.noSpare (fu : Fuses) (m : Module) (kind unit bank row : Nat) : Module :=
  let m := m.event fu 0x0412 [kind, unit, bank, row]
  if kind = 1 then m.askFence unit stFenced
  else (List.range 4).foldl (fun (m : Module) i => m.askFence (4 * unit + i) stFenced) m

/-- The first spare of a bank, from number `fused` on, that no REPAIR record names. -/
def Coil.nextSpare (c : Coil) (kind unit bank fused : Nat) : Nat :=
  let used := ((c.repairRecs ++ c.repairQueue).filter (fun w =>
    field w 56 8 == kind && field w 39 9 == unit && field w 33 6 == bank)).map (fun w => field w 18 5)
  fused + ((List.range 32).find? (fun i => !used.contains (fused + i))).getD 32

/-- The next unused spare of a bank taken and the flag's REPAIR record queued for the partition (R110, R112); `take` counts the spare.
Where 2,040 records are held the flag writes nothing and takes none (R397). -/
def Module.queueRepair (fu : Fuses) (m : Module) (kind reason unit bank row fused : Nat) (take : Module → Module) : Module :=
  let n := m.store.repairRecs.length + m.store.repairQueue.length
  let spare := m.store.nextSpare kind unit bank fused
  if 2040 ≤ n then (m.event fu 0x0604 [n, 0]).noSpare fu kind unit bank row
  else
  let m := take m
  { m with store := { m.store with repairQueue := m.store.repairQueue ++ [repairWord kind reason unit bank row spare] } }

/-- The flag of a written REPAIR record takes effect (R110, R397): the remap of the row is in progress. -/
def Module.startRemap (fu : Fuses) (m : Module) (w : Nat) : Module :=
  let unit := field w 39 9
  let r : PendRow := { bank := field w 33 6, row := field w 23 10, spare := field w 18 5, written := [] }
  let m := if field w 56 8 = 1 then m.onCore unit (fun c => { c with mem := { c.mem with pending := c.mem.pending ++ [r] } })
    else m.onCluster unit (fun c => { c with pending := c.pending ++ [r] })
  m.event fu 0x0411 [field w 56 8, unit, r.bank, r.row, r.spare, field w 48 8]

/-- A scratchpad row is flagged for remap (R110): a spare of its bank and a REPAIR record, or the core is fenced. -/
def Module.flagSpRow (fu : Fuses) (m : Module) (g bank row reason : Nat) : Module :=
  let c := m.core g
  let fused := fu.spFusedSpares.get (48 * g + bank)
  if c.mem.pending.any (fun r => r.bank == bank && r.row == row) || m.store.repairWaits (repairWord 1 0 g bank row 0) then m
  else if 16 ≤ c.mem.sparesUsed.get bank + fused then m.noSpare fu 1 g bank row
  else
    m.queueRepair fu 1 reason g bank row fused (fun m =>
      m.onCore g (fun c => { c with mem := { c.mem with sparesUsed := c.mem.sparesUsed.add bank 1 } }))

/-- A cluster-memory row is flagged (R110, R111). -/
def Module.flagCmRow (fu : Fuses) (m : Module) (k bank row reason : Nat) : Module :=
  let c := m.cluster k
  let fused := fu.cmFusedSpares.get (32 * k + bank)
  if c.pending.any (fun r => r.bank == bank && r.row == row) || m.store.repairWaits (repairWord 2 0 k bank row 0) then m
  else if 32 ≤ c.sparesUsed.get bank + fused then m.noSpare fu 2 k bank row
  else
    m.queueRepair fu 2 reason k bank row fused (fun m => m.onCluster k (fun c => { c with sparesUsed := c.sparesUsed.add bank 1 }))

/-- Whether the remap of a row is in progress. -/
def remapped (ps : List PendRow) (bank row : Nat) : Bool := ps.any (fun r => r.bank == bank && r.row == row)

/-- Whether the spare of a row whose remap is in progress holds a granule's true contents (R110). -/
def spareHolds (ps : List PendRow) (bank row granule : Nat) : Bool :=
  ps.any (fun r => r.bank == bank && r.row == row && r.written.contains granule)

/-- A wide correction in scratchpad: the whole core stalls for 3 A-cycles (R107). -/
def Module.wideStall (m : Module) (g : Nat) : Module := (m.bump (odKey 0x4200 2) 1).stallCore g 3

/-- A read of a scratchpad row whose remap is in progress is a wide correction (R107, R110). -/
def Module.spRemap (m : Module) (g bank row : Nat) : Module :=
  if remapped (m.core g).mem.pending bank row then m.wideStall g else m

/-- A single-bit correction in scratchpad (R106, R107, R110): counted, the row flagged at the threshold; a row whose remap
is in progress pays the wide stall. -/
def Module.spSingle (fu : Fuses) (m : Module) (g bank row : Nat) : Module :=
  let c := m.core g
  let n := c.mem.rowErrors.get (512 * bank + row) + 1
  let m := ((m.onCore g (fun c => { c with corrected := c.corrected + 1, mem := { c.mem with
    rowErrors := c.mem.rowErrors.add (512 * bank + row) 1 } })).bump (odKey 0x4200 1) 1).spRemap g bank row
  if c.mem.threshold ≤ n then m.flagSpRow fu g bank row 1 else m

/-- A double-adjacent correction in scratchpad (R107): the whole core stalls for 3 A-cycles, and the row is flagged. -/
def Module.spWide (fu : Fuses) (m : Module) (g bank row : Nat) : Module :=
  (m.wideStall g).flagSpRow fu g bank row 2

/-- A scratchpad granule whose row's own copy is uncorrectable (R108): poison, event 0x0410, and its row flagged. Where its
remap is in progress and the spare holds the granule, the read takes the spare's copy, which decodes (R110), unless `both` are
uncorrectable. -/
def Module.spBad (fu : Fuses) (m : Module) (g bank row granule : Nat) (both : Bool) : Module :=
  let m := m.spRemap g bank row
  if !both && spareHolds (m.core g).mem.pending bank row granule then m
  else
    let m := m.onCore g (fun c => { c with mem := { c.mem with
      poison := insertNat c.mem.poison (spAddr bank row granule / 32) } })
    ((m.bump (odKey 0x4200 4) 1).event fu 0x0410 [(m.core g).jobNo, g, bank, row, granule]).flagSpRow fu g bank row 3

/-- A stall of a cluster for 2 F-cycles (R109): it applies to the cores of the cluster that are not fenced, and counts only
while there are some (R24). -/
def Module.stallCluster (m : Module) (k : Nat) : Module :=
  let gs := ((List.range 4).map (4 * k + ·)).filter (fun g => !(m.core g).fenced)
  if gs.isEmpty then m
  else gs.foldl (fun (m : Module) g => m.onCore g (fun c => { c with clusterStalls := c.clusterStalls + 2 }))
    ((m.onCluster k (fun c => { c with stalls := c.stalls + 2 })).bump (odKey 0x4210 3) 2)

/-- A wide correction in cluster memory: the four cores and the crossbar stall together (R109). -/
def Module.clusterWide (m : Module) (k : Nat) : Module := (m.bump (odKey 0x4210 2) 1).stallCluster k

/-- A read of a cluster-memory row whose remap is in progress is a wide correction (R107, R109, R110). -/
def Module.cmRemap (m : Module) (k bank row : Nat) : Module :=
  if remapped (m.cluster k).pending bank row then m.clusterWide k else m

/-- What the reads of scratchpad slots pay (R107, R110): a wide correction for each row of them whose remap is in progress. DESIGN
CHOICE (log entry 23): reads are known by slot here, and a row counts once for a command; an Upset tells of further reads. -/
def Module.remapReads (m : Module) (g : Nat) (slots : List Nat) : Module :=
  ((m.core g).mem.pending.filter (fun r => slots.contains (spAddr r.bank r.row 0 / 4096))).foldl (fun (m : Module) _ => m.wideStall g) m

/-- What the reads of byte ranges of a job's range in cluster memory pay (R109, R110): a wide correction for each row of them whose
remap is in progress. -/
def Module.clusterReads (m : Module) (j g : Nat) (rs : List (Nat × Nat)) : Module :=
  let k := clusterOf g
  let base := (m.job j).cmBase k
  ((m.cluster k).pending.filter (fun r => rs.any (fun x => decide (base + x.1 < cmAddr r.bank r.row 0 + 1024) &&
    decide (cmAddr r.bank r.row 0 < base + x.1 + x.2)))).foldl (fun (m : Module) _ => m.clusterWide k) m

/-- A single-bit correction in cluster memory. -/
def Module.cmSingle (fu : Fuses) (m : Module) (k bank row : Nat) : Module :=
  let c := m.cluster k
  let n := c.rowErrors.get (1024 * bank + row) + 1
  let m := ((m.onCluster k (fun c => { c with
    corrected := c.corrected + 1, rowErrors := c.rowErrors.add (1024 * bank + row) 1 })).bump (odKey 0x4210 1) 1).cmRemap k bank row
  if c.threshold ≤ n then m.flagCmRow fu k bank row 1 else m

/-- A double-adjacent correction in cluster memory, which flags its row. -/
def Module.cmWide (fu : Fuses) (m : Module) (k bank row : Nat) : Module := (m.clusterWide k).flagCmRow fu k bank row 2

/-- A granule of cluster memory whose row's own copy is uncorrectable: poison and event 0x0413, unless the spare of a remap
in progress holds the granule and decodes (R110). -/
def Module.cmBad (fu : Fuses) (m : Module) (g bank row granule : Nat) (both : Bool) : Module :=
  let k := clusterOf g
  let m := m.cmRemap k bank row
  if !both && spareHolds (m.cluster k).pending bank row granule then m
  else
    let m := m.onCluster k (fun c => { c with poison := insertNat c.poison (cmAddr bank row granule / 32) })
    ((m.bump (odKey 0x4210 4) 1).event fu 0x0413 [(m.core g).jobNo, k, bank, row, granule]).flagCmRow fu k bank row 3

/-! ### What a core meets -/

/-- A statistics-memory row that met a flagging condition of R110 fences its core: the memory has no spare rows (R176). -/
def Module.flagStatRow (fu : Fuses) (m : Module) (g bank row reason : Nat) : Module :=
  (m.event fu 0x0334 [g, bank, row, reason]).askFence g stFenced

/-- A single-bit correction in the statistics memory (R177), which flags its row at the threshold of R110. -/
def Module.statSingle (fu : Fuses) (m : Module) (g bank row : Nat) : Module :=
  let n := (m.core g).mem.statErrors.get (512 * bank + row) + 1
  let m := (m.onCore g (fun c => { c with mem := { c.mem with statErrors := c.mem.statErrors.add (512 * bank + row) 1 } })).bump
    (odKey 0x3160 5) 1
  if (m.core g).mem.threshold ≤ n then m.flagStatRow fu g bank row 1 else m

/-- An uncorrectable granule of the statistics memory: the records it holds are poisoned (R154, R176). -/
def Module.statBad (fu : Fuses) (m : Module) (g bank row set page granule : Nat) : Module :=
  (m.onCore g (fun c => { c with mem := { c.mem with pages := c.mem.pages.map (fun p =>
    if p.set = set && p.page = page then { p with poison := insertNat p.poison granule } else p) } })).flagStatRow fu g bank row 3

/-- The memory errors among the happenings of a command of core `g`. -/
def Module.meetMemory (fu : Fuses) (g : Nat) (m : Module) : Upset → Module
  | .spSingle bank row _ => m.spSingle fu g bank row
  | .spWide bank row _ => m.spWide fu g bank row
  | .spBad bank row granule => m.spBad fu g bank row granule false
  | .spBothBad bank row granule => m.spBad fu g bank row granule true
  | .spRemap bank row => m.spRemap g bank row
  | .cmRemap bank row => m.cmRemap (clusterOf g) bank row
  | .cmSingle bank row _ => m.cmSingle fu (clusterOf g) bank row
  | .cmWide bank row _ => m.cmWide fu (clusterOf g) bank row
  | .cmBad bank row granule => m.cmBad fu g bank row granule false
  | .cmBothBad bank row granule => m.cmBad fu g bank row granule true
  | .statSingle bank row => m.statSingle fu g bank row
  | .statWide bank row => (m.bump (odKey 0x3160 5) 1).flagStatRow fu g bank row 2
  | .statBad bank row set page granule => m.statBad fu g bank row set page granule
  | .hbmErr a syms => m.addErrors a syms
  | _ => m

end Sys2Proof.Machine
end

