-- ==== Sys2Proof/Machine/Seq.lean ====
section
/-!
DEFINITION. The sequencer of a core: when its next instruction can issue (R196, R200, R484), the issue checks on run-time
shapes (R201), tag waits (R95 to R98), where the program goes next (R196, R233), and the faults a core meets at issue
(R22, R85, R190).
-/
namespace Sys2Proof.Machine

/-! ### Issue -/

/-- Whether core `g` runs a step in which its next instruction may issue. -/
def Module.running (m : Module) (g : Nat) : Bool :=
  let c := m.core g
  match c.job with
  | none => false
  | some j =>
    let b := m.job j
    c.live && c.fenceReq.isNone && b.state == 3 && b.run.active && b.run.mustReplay.isNone && !c.seq.done

/-- Whether a movement or a late gather of a core waits for its combine turn: the whole core then waits with it (R186). -/
def Core.turnHeld (c : Core) : Bool :=
  c.channels.any (fun ch => ch.head?.any (fun v => v.wait == some .turn)) || c.gathers.head?.any PendGather.waits

/-- Whether the instruction at the core's position may issue: the step runs, the core waits for nothing, with no movement or gather of
its own, and every core tile of its earlier instructions has committed. -/
def Module.canIssue (m : Module) (g : Nat) : Bool :=
  m.running g && (m.core g).seq.wait.isNone && (m.core g).tiles.isEmpty && !(m.core g).turnHeld

/-- The core waits (R98): its sequencers, engines and commit gate. -/
def Module.hold (m : Module) (g : Nat) (w : Wait) : Module := m.onCore g (fun c => { c with seq := { c.seq with wait := some w } })

/-! ### Where the program goes -/

/-- The open TAKE regions when control reaches an instruction: the region of a TAKE whose target that is has ended, with
those inside it (R233). -/
def closeTakes (pc : Nat) : List Entry → List Entry
  | [] => []
  | e :: es =>
    if es.any (fun f => f.target == pc) then closeTakes pc es else if e.target = pc then es else e :: es

/-- The resume point that a role's stream reaches at an instruction and that has not been passed (R484). -/
def Job.resumeAt (b : Job) (role pc : Nat) : Option Nat :=
  if !b.run.replay then none
  else
    let passed := (b.run.mark.map (fun k => k.point + 1)).getD 0
    (findFrom (fun r : Resume => r.points.getD role 0xFFFF == pc) (b.prog.resumes.drop passed) passed).map Prod.fst

/-- The core's next instruction is number `pc`: TAKE regions that end there are closed, and at a resume point that is not
passed yet the core holds (R484). -/
def Module.goto (m : Module) (g j pc : Nat) : Module :=
  let role := (m.job j).image.roleMap.getD (g % 8) 0xFF
  m.onCore g (fun c => { c with seq := { c.seq with
    pc := pc, takes := closeTakes pc c.seq.takes, wait := ((m.job j).resumeAt role pc).map Wait.resume } })

/-- The core goes on with the next instruction of its stream. -/
def Module.advance (m : Module) (i : Inst) : Module := m.goto i.core i.job (i.index + 1)

/-! ### Issue checks -/

/-- A failed issue check: the status, the failing value and its plan (R213). -/
structure Bad where
  status : Nat
  value : Nat
  plan : Nat
  deriving DecidableEq, Repr

/-- What is wrong with one run-time shape (R200, R201): its offset is not allowed, its word is poisoned, or its value
exceeds its plan; the planned extent of a layout dimension is its plan plus 1 (R215). -/
def Module.shapeBad (m : Module) (j p : Nat) (ext : Bool) (s : Shape) : Option Bad :=
  if s.src = 0 then none
  else
    let plan := if ext then s.plan + 1 else s.plan
    match m.shape j p s with
    | .denied => some { status := stDenied, value := (m.job j).boundValue s.slot + 4 * p, plan := plan }
    | .poisoned => some { status := stPoison, value := 0, plan := plan }
    | .val v => if plan < v then some { status := stShape, value := v, plan := plan } else none

/-- The layout extents of an operand reference. -/
def Job.extentsOf (b : Job) (w : Nat) : List Shape :=
  let r := readRef w
  if r.buf = 0 then []
  else
    match b.image.buffers[r.buf]? with
    | none => []
    | some u => ((b.image.layouts[u.layout]?).map (fun l => l.dims.map Dim.extent)).getD []

/-- The shape fields of an instruction by class (R194 to R197). -/
def instShapes (ws : Words) : List Shape :=
  match classOf ws with
  | 1 => [readShape (hiOf ws 4), readShape (loOf ws 4), readShape (hiOf ws 5)]
  | 2 => [readShape (hiOf ws 4), readShape (loOf ws 4), readShape (hiOf ws 5)]
  | 3 => [hiOf ws 5, loOf ws 5, hiOf ws 6, loOf ws 6, hiOf ws 7, loOf ws 7].map readShape
  | 4 => [readShape (hiOf ws 3)]
  | 5 => [readShape (hiOf ws 2)]
  | _ => []

/-- The operand references of an instruction by class. -/
def instRefs (ws : Words) : List Nat :=
  match classOf ws with
  | 1 => [hiOf ws 2, loOf ws 2, hiOf ws 3, loOf ws 3]
  | 2 => [hiOf ws 2, loOf ws 2, hiOf ws 3, loOf ws 3]
  | 3 => [hiOf ws 2, loOf ws 2, hiOf ws 3, loOf ws 3, hiOf ws 4]
  | 4 => [hiOf ws 2, loOf ws 2]
  | _ => []

/-- The addresses of the shape words that instruction `i` reads as it issues: those of its shape fields and of its operands'
layout extents (R193, R215). -/
def Module.shapeWords (m : Module) (i : Inst) : List Nat :=
  let b := m.job i.job
  (((instShapes i.words ++ (instRefs i.words).flatMap b.extentsOf).filter (fun s => s.src == 2)).map (fun s =>
    b.hbmBase + b.boundValue s.slot + 4 * i.problem)).eraseDups

/-- The shape words of an instruction are read on the narrow path (R361, R363). -/
def Module.readShapes (fu : Fuses) (m : Module) (i : Inst) : Module :=
  let ws := m.shapeWords i
  (m.hbmReads fu i.job (ws.map (fun a => (a, 4)))).narrowReads ws.length

/-- The first failed shape check of an instruction with shape fields `ss` and operand references `refs`, stage by stage. R14
names no stage for a poisoned shape word: DESIGN CHOICE (log entry 23), it ranks before SHAPE_EXCEEDS_PLAN of another shape, since
no value was there to compare. -/
def Module.shapesBad (m : Module) (i : Inst) (ss : List Shape) (refs : List Nat) : Option Bad :=
  let bs := ss.filterMap (m.shapeBad i.job i.problem false) ++
    (refs.flatMap (m.job i.job).extentsOf).filterMap (m.shapeBad i.job i.problem true)
  match bs.find? (fun b => b.status == stDenied) with
  | some b => some b
  | none =>
    match bs.find? (fun b => b.status == stPoison) with
    | some b => some b
    | none => bs.head?

/-- The run-time value of a shape field. -/
def Module.shapeOf (m : Module) (i : Inst) (s : Shape) : Nat := (m.shape i.job i.problem s).get

/-- Whether any shape is a shape word, which can arrive late (R200). -/
def hasShapeWord (ss : List Shape) : Bool := ss.any (fun s => s.src == 2)

/-! ### Tags -/

/-- The slots of a scratchpad operand that the elements at the given logical indices touch, its block scales included. -/
def Operand.slots (o : Operand) (ixs : List (List Nat)) : List Nat :=
  if o.buf.space != 0 then []
  else
    ((ixs.filter o.inExtent).flatMap (fun ix =>
      let e := o.elemOff ix
      slotsOf (o.addr (o.byteOff e)) ((o.fmt.bits + 7) / 8) ++
      (if o.fmt.isMx then slotsOf (o.addr (o.scaleOff e)) 1 else []))).eraseDups

/-- The slots of a row of a byte range of an operand. -/
def Operand.byteSlots (o : Operand) (off n : Nat) : List Nat :=
  if o.buf.space != 0 then [] else slotsOf (o.addr off) n

/-- What a core must wait for before it touches slots (R95, R98): the first input slot that is EMPTY, or the first output
slot that is FULL and that the same instruction does not consume. A core in tag-bypass mode checks no tag (R100). -/
def Module.tagWait (m : Module) (g : Nat) (fulls empties consumes : List Nat) : Option Wait :=
  let full := (m.core g).mem.full
  if (m.core g).bypass then none
  else
    match fulls.find? (fun s => !full.contains s) with
    | some s => some (.tag s true)
    | none => (empties.find? (fun s => full.contains s && !consumes.contains s)).map (fun s => .tag s false)

/-- Slots set FULL (R96); a core in tag-bypass mode changes no tag (R100). -/
def Module.setFull (m : Module) (g : Nat) (ss : List Nat) : Module :=
  m.onCore g (fun c => if c.bypass then c else { c with mem := { c.mem with full := insertAll c.mem.full ss } })

/-- Slots set EMPTY by a CONSUME (R96, R100). -/
def Module.setEmpty (m : Module) (g : Nat) (ss : List Nat) : Module :=
  m.onCore g (fun c => if c.bypass then c
    else { c with mem := { c.mem with full := c.mem.full.filter (fun s => !ss.contains s) } })

/-! ### Stale answers (R342, R343) -/

/-- Whether an instantiation belongs to a router's reel (R342). -/
def Module.ofRouter (m : Module) (i : Inst) : Bool :=
  match i.entry, (m.job i.job).prog.experts with
  | some e, some x => x.routers.any (fun r => r.reel == e.tmpl)
  | _, _ => false

/-- Whether its answer is stale: the epoch latched at its TAKE is no longer in force. -/
def Module.stale (m : Module) (i : Inst) : Bool :=
  m.ofRouter i && ((i.entry.map Entry.epoch).getD 0 != (m.job i.job).run.epoch)

/-- A stale answer is dropped (R343): the instruction ends CANCELLED and does not signal. -/
def Module.dropStale (fu : Fuses) (m : Module) (i : Inst) : Module :=
  (m.bump (odKey 0x3250 3) 1).instrDone fu i stCancelled

/-- Once a cancelled attempt has no instruction left in flight, its step ends CANCELLED and the job is LOADED (R344). -/
def Module.settleCancel (fu : Fuses) (m : Module) (j : Nat) : Module :=
  let b := m.job j
  if b.run.mustReplay = some stCancelled && b.cores.all (fun g => (m.inFlight g j).isEmpty) then
    m.abandonStep fu j stCancelled
  else m

/-! ### What a core meets at issue -/

/-- The core tiles and gathers of an instruction end without their commits; their slots stay EMPTY with undefined contents
(R74, R130). -/
def Module.dropInst (m : Module) (i : Inst) : Module :=
  m.onCore i.core (fun c =>
    { c.spoil ((c.tiles.filter (fun t => t.inst == i)).flatMap Tile.places ++
        (c.gathers.filter (fun p => p.inst == i)).flatMap PendGather.places) with
        tiles := c.tiles.filter (fun t => t.inst != i), gathers := c.gathers.filter (fun p => p.inst != i) })

/-- The instruction `i` that a fence request of its core stopped is in flight until the fence register is set (R23). -/
def Module.holdFence (m : Module) (i : Inst) : Module :=
  m.onCore i.core (fun c => { c with fenceReq := c.fenceReq.map (fun r => { r with inst := some i }) })

/-- The checker's sequencer (R85): the leader's, two A-cycles behind it, but for what the comparator last found to differ. -/
def Core.checker (c : Core) : CoreSeq :=
  match c.checkerDiff with
  | some (1, v) => { c.seq with pc := v }
  | some (2, v) => { c.seq with loops := modifyAt (fun f => { f with left := v }) c.seq.loops 0 }
  | _ => c.seq

/-- The record of a sequencer mismatch and its fence (R85, R86, R91, R479): job, core, leader's program counter, the
differing field and the committed step count. Every held action is dropped, and the instruction ends when the register is set. -/
def Module.lockstep (fu : Fuses) (m : Module) (i : Inst) (fieldNo other : Nat) : Module :=
  let g := i.core
  ((((m.bump (odKey 0x3120 5) 1).event fu 0x0312 [i.job, g, (m.core g).seq.pc, fieldNo, (m.job i.job).step]).askFence g
    stFenced).holdFence i).onCore g (fun c => { c with checkerDiff := some (fieldNo, other) })

/-- The engine whose bus a parity error of an instruction met: that of its class, or for bus 2 of a MATRIX EXPAND the splice
engine, which feeds the weight bus (R149). -/
def busEngine (ws : Words) (bus : Nat) : Nat :=
  if classOf ws = 1 && field (wordAt ws 1) 60 4 = 4 && bus = 2 then 2 else classOf ws

/-- The count and the record of a parity error on a bus of an engine (R76, R149, R176): 1 is the arrays, 2 the splice engine,
3 the row engine. `hidden` where the instruction reports another condition (R14). -/
def Module.busRecord (fu : Fuses) (m : Module) (i : Inst) (hidden : Bool) (bus array : Nat) : Module :=
  let eng := busEngine i.words bus
  if eng = 1 then (m.bump (odKey 0x3120 4) 1).eventX fu hidden 0x0311 [i.job, i.core, bus, array]
  else if eng = 2 then (m.bump (odKey 0x3150 8) 1).eventX fu hidden 0x0320 [i.job, i.core, bus]
  else (m.bump (odKey 0x3160 9) 1).eventX fu hidden 0x0330 [i.job, i.core, bus]

/-- Whether a happening stops its command with FENCED: the sequencers differ, or the instruction word cannot be corrected. -/
def upsetFences : Upset → Bool
  | .lockstep _ _ => true
  | .imemBad => true
  | _ => false

/-- Whether a happening is a parity error on a bus of the engine that runs an instruction. -/
def upsetParity (ws : Words) : Upset → Bool
  | .busParity _ _ => classOf ws == 1 || classOf ws == 2 || classOf ws == 3
  | _ => false

/-- What one happening of an instruction records beside the memories' own. -/
def Module.meetStop (fu : Fuses) (i : Inst) (hidden : Bool) (m : Module) (u : Upset) : Module :=
  match u with
  | .lockstep f v => m.lockstep fu i f v
  | .imemBad => (m.askFence i.core stFenced).holdFence i
  | .busParity bus array => if upsetParity i.words u then m.busRecord fu i hidden bus array else m
  | _ => m

/-- The record of poison that an instruction consumed and does not report, because a fence or a check error ended it (R14). -/
def Module.hiddenPoison (fu : Fuses) (m : Module) (i : Inst) : Module :=
  m.eventX fu true (computeEvent Config.unreportedEvent) [i.job, i.core, field (i.words.getD 0 0) 0 32, stPoison]

/-- What a command that a fence or a check error stopped leaves (R14): `r` is the stopped module and `x` what the command would have
come to; where it would have ended its job with POISON, the poison it consumed is recorded. -/
def Module.stopped (fu : Fuses) (m r x : Module) (i : Inst) : Module :=
  if (m.job i.job).state = 3 && (x.job i.job).state == 4 && (x.job i.job).endStatus == stPoison then r.hiddenPoison fu i else r

/-- The happenings of a command of core `g`, all detected together (R14): memory errors act, every condition is recorded, and
the first of FENCED and CHECK_MISMATCH that is among them ends the command; the answer tells whether it goes on. -/
def Module.meet (fu : Fuses) (m : Module) (i : Inst) (us : List Upset) : Module × Bool :=
  let m := us.foldl (fun m u => m.meetMemory fu i.core u) m
  let fenced := us.any upsetFences || (m.core i.core).fenceReq.isSome
  let m := us.foldl (fun m u => m.meetStop fu i fenced u) m
  if fenced then (m.holdFence i, false)
  else if us.any (fun u => upsetParity i.words u) then
    ((((m.blame i).dropInst i).instrDone fu i stCheck).askFence i.core stCheck, false)
  else (m, true)

/-- An instruction whose issue check failed: it moves nothing, sets no tag and applies no CONSUME (R201). -/
def Module.issueFail (fu : Fuses) (m : Module) (i : Inst) (b : Bad) : Module := m.finish fu i b.status b.value b.plan

/-- An EMPTY_OP (R202): nothing is written and the core goes on. -/
def Module.emptyOp (fu : Fuses) (m : Module) (i : Inst) : Module := (m.advance i).finish fu i stEmptyOp 0 0

/-- Whether a command's upsets say that its shape word is late. -/
def shapeIsLate (us : List Upset) : Bool := us.any (fun u => u == .shapeLate)

/-- The command of a row of the instruction set at core `g`: the instruction at its position, where it is of the row's
kind and may issue, meets what happens, reads its shape words and runs. -/
def Module.issueRow (fu : Fuses) (m : Module) (g : Nat) (kind : Words → Bool) (us : List Upset)
    (body : Module → Inst → Module) : Module :=
  if !m.canIssue g then m
  else
    match (m.core g).job with
    | none => m
    | some j =>
      match m.instAt g j with
      | none => m
      | some i =>
        if !kind i.words then m
        else
          let r := m.meet fu i us
          if !r.2 then m.stopped fu r.1 (body ((us.foldl (fun m u => m.meetMemory fu i.core u) m).readShapes fu i) i) i
          else if r.1.stale i then (r.1.dropStale fu i).advance i
          else body (r.1.readShapes fu i) i

/-- The same for an instruction with shape fields: it waits while a shape word of its own or of an operand's layout extent has
not arrived (R200), fails its issue checks (R201), or runs. -/
def Module.withShapes (fu : Fuses) (us : List Upset) (ss : List Shape) (refs : List Nat) (m : Module) (i : Inst)
    (body : Module → Inst → Module) : Module :=
  let all := ss ++ refs.flatMap (m.job i.job).extentsOf
  if shapeIsLate us && hasShapeWord all then
    m.hold i.core (.shape (((all.find? (fun s => s.src == 2)).map (fun s => (m.job i.job).boundValue s.slot + 4 * i.problem)).getD 0))
  else
    match m.shapesBad i ss refs with
    | some b => m.issueFail fu i b
    | none => body m i

end Sys2Proof.Machine
end

