-- ==== Sys2Proof/Machine/Sparse.lean ====
section
/-!
DEFINITION. Block masks and packed blocks (R133 to R140, R143, R144): where an element of a block-sparse tensor stands in
its block plane, and what a mask or a 2-of-4 nibble says of it. Tiles are numbered with K ascending within a stretch of
128 columns, as two consecutive masks along K describe a 4-bit tile (R133).
-/
namespace Sys2Proof.Machine

/-- Bit j of the transposed mask is bit 8 × (j mod 8) + j / 8 of the original (R133). -/
def transposeMask (w : Nat) : Nat := maskOf ((List.range 64).filter (fun j => bitAt w (8 * (j % 8) + j / 8)))

/-- The planned extent of a logical axis of a layout: the product over its dimensions (R216). -/
def Layout.axisPlan (l : Layout) (a : Nat) : Nat :=
  (l.dims.filter (fun d => d.axis == a)).foldl (fun n d => n * (d.extent.plan + 1)) 1

/-- Tiles of 128 rows along K that a tensor with `k` rows has: an even number in the 4-bit formats (R133). -/
def kTiles (f : Fmt) (k : Nat) : Nat := if f.is4bit then 2 * ceilDiv k 256 else ceilDiv k 128

/-- The MASKS entry of an operand whose layout is sparse (R215). -/
def Job.maskEntry (b : Job) (o : Operand) : Option MaskEntry :=
  if o.lay.sparse then b.prog.masks[o.lay.aux]? else none

/-- The output references of an instruction, by class (R194, R197). -/
def outRefs (ws : Words) : List Nat :=
  if classOf ws = 1 then [hiOf ws 3]
  else if classOf ws = 2 then [loOf ws 3]
  else if classOf ws = 3 then [loOf ws 3, hiOf ws 4]
  else if classOf ws = 4 then [loOf ws 2]
  else []

/-- Whether a buffer is written under DETECT by some instruction of the image (R143); its tiles then keep full spaces. -/
def Job.detects (b : Job) (buf : Nat) : Bool :=
  (b.prog.streams ++ b.prog.sched).any (fun st => st.any (fun ws => (outRefs ws).any (fun w =>
    (readRef w).buf == buf && (readRef w).fid == 1)))

/-- How a packed tensor is laid out: its format, its 2-of-4 form, its masks in tile order, its K tiles, whether each tile
keeps the space of a full one (R144), and then where the mask plane begins (R388). -/
structure Packing where
  fmt : Fmt
  s24 : Bool
  masks : List Nat
  kt : Nat
  full : Bool
  plane : Nat
  deriving DecidableEq, Repr

/-- Bytes of one packed unit: a block; in MX formats a pair of blocks with its 16 scales (R134, R140). -/
def Packing.unitBytes (p : Packing) : Nat :=
  if p.fmt.isMx then 512 * p.fmt.bits / 8 + 16
  else if p.s24 then 128 * (p.fmt.bits / 8) + 32
  else 256 * (p.fmt.bits / 8)

/-- Units of a tile before the one that holds bit `i` of its mask: present blocks of a lower bit; in MX formats present
pairs of a lower even block row and column. -/
def Packing.unitsBefore (p : Packing) (mask i : Nat) : Nat :=
  if p.fmt.isMx then ((List.range i).filter (fun j => j / 8 % 2 == 0 && bitAt mask j)).length else popCount mask i

/-- Units of a whole tile. -/
def Packing.tileUnits (p : Packing) (mask : Nat) : Nat := p.unitsBefore mask 64

/-- The byte offset of a tile's units from the operand's base. -/
def Packing.tileOff (p : Packing) (t : Nat) : Nat :=
  if p.full then t * (if p.fmt.isMx then 32 else 64) * p.unitBytes
  else ((p.masks.take t).map p.tileUnits).sum * p.unitBytes

/-- The tile number of an element. -/
def Packing.tileOf (p : Packing) (k n : Nat) : Nat := n / 128 * p.kt + k / 128

/-- The mask bit of an element within its tile. -/
def maskBit (k n : Nat) : Nat := 8 * (k % 128 / 16) + n % 128 / 16

/-- Whether an element's block is present. -/
def Packing.present (p : Packing) (k n : Nat) : Bool := bitAt (p.masks.getD (p.tileOf k n) 0) (maskBit k n)

/-- The byte offset of the unit that holds an element. -/
def Packing.unitOff (p : Packing) (k n : Nat) : Nat :=
  let t := p.tileOf k n
  let bit := if p.fmt.isMx then 8 * (2 * (k % 128 / 32)) + n % 128 / 16 else maskBit k n
  p.tileOff t + p.unitsBefore (p.masks.getD t 0) bit * p.unitBytes

/-- The number of an element within its unit: K row by K row, 16 columns each. -/
def Packing.index (p : Packing) (k n : Nat) : Nat := (if p.fmt.isMx then k % 32 else k % 16) * 16 + n % 16

/-- The 2-of-4 group of an element within its block, and the byte offset of the metadata byte that holds its nibble. -/
def group24 (k n : Nat) : Nat := k % 16 / 4 * 16 + n % 16

/-- The byte offset of the metadata byte of an element's group. -/
def Packing.metaOff (p : Packing) (k n : Nat) : Nat := p.unitOff k n + 128 * (p.fmt.bits / 8) + group24 k n / 2

/-- The kept slots of a group from its nibble (R140). -/
def nibbleOf (byte g : Nat) : Nat := field byte (4 * (g % 2)) 4

/-- Which kept slot of its group an element takes, if it is kept. -/
def keptSlot (nib k : Nat) : Option Nat :=
  if nib % 4 = k % 4 then some 0 else if nib / 4 = k % 4 then some 1 else none

/-- Whether a nibble is valid: slot 0 below slot 1 (R140). -/
def nibbleOk (nib : Nat) : Bool := decide (nib % 4 < nib / 4)

/-- The number of an element's value in the plane: its own in dense blocks, its kept slot's in 2-of-4 blocks. -/
def Packing.valueIndex (p : Packing) (nib k n : Nat) : Option Nat :=
  if p.s24 then (keptSlot nib k).map (fun s => 2 * group24 k n + s) else some (p.index k n)

/-- A byte of an operand, by its offset from the operand's base. -/
def Module.opByte (m : Module) (o : Operand) (off : Nat) : Nat :=
  leNat (m.bytesAt o.job o.core o.buf.space (o.addr (o.start + off)) 1)

/-- Whether a byte range of an operand is poisoned. -/
def Module.opPoison (m : Module) (o : Operand) (off n : Nat) : Bool :=
  m.poisonAt o.job o.core o.buf.space (o.addr (o.start + off)) n

/-- The metadata nibble of an element of a packed operand; 0 where it has none. -/
def Module.packNib (m : Module) (o : Operand) (p : Packing) (k n : Nat) : Nat :=
  if p.s24 then nibbleOf (m.opByte o (p.metaOff k n)) (group24 k n) else 0

/-- The code of an element of a packed operand: none where its block is absent or its position is not kept. -/
def Module.packCode (m : Module) (o : Operand) (p : Packing) (k n : Nat) : Option Nat :=
  if !p.present k n then none
  else
    (p.valueIndex (m.packNib o p k n) k n).map (fun v =>
      let u := p.unitOff k n
      if p.fmt.is4bit then field (m.opByte o (u + v / 2)) (4 * (v % 2)) 4
      else leNat (m.bytesAt o.job o.core o.buf.space (o.addr (o.start + u + v * (p.fmt.bits / 8))) (p.fmt.bits / 8)))

/-- The offset of the scale byte of an element's pair of blocks (R134). -/
def Packing.scaleAt (p : Packing) (k n : Nat) : Nat := p.unitOff k n + 512 * p.fmt.bits / 8 + n % 16

/-- The value of an element of a packed operand, without a per-tensor scale; +0 where it is absent or not kept. -/
def Module.packValue (m : Module) (o : Operand) (p : Packing) (k n : Nat) : FVal :=
  match m.packCode o p k n with
  | none => fZero
  | some c => if p.fmt.isMx then p.fmt.decodeMx (m.opByte o (p.scaleAt k n)) c else p.fmt.decodeElem c

/-- Whether reading a present element meets poison: in its granule, its scale's or its metadata's. -/
def Module.packPoison (m : Module) (o : Operand) (p : Packing) (k n : Nat) : Bool :=
  p.present k n &&
  ((match p.valueIndex (m.packNib o p k n) k n with
    | none => false
    | some v => m.opPoison o (p.unitOff k n + v * p.fmt.bits / 8) ((p.fmt.bits + 7) / 8)) ||
   (p.fmt.isMx && m.opPoison o (p.scaleAt k n) 1) ||
   (p.s24 && m.opPoison o (p.metaOff k n) 1)) ||
  (p.full && m.opPoison o (p.plane + 8 * p.tileOf k n) 8)

/-- The first invalid nibble of a packed operand's present blocks among K rows `ks` and columns `cols` of the expanded tiles, as
its metadata byte (R140), block row by block row; `tr` reads the blocks transposed (R139). -/
def Module.badNibble (m : Module) (o : Operand) (p : Packing) (tr : Bool) (ks cols : List Nat) : Option Nat :=
  if !p.s24 then none
  else
    (((ks.map (· / 16)).eraseDups).flatMap (fun r => ((cols.map (· / 16)).eraseDups).flatMap (fun c =>
      let k := 16 * (if tr then c else r)
      let n := 16 * (if tr then r else c)
      if p.present k n then
        (List.range 64).filterMap (fun g =>
          let byte := m.opByte o (p.metaOff (k + 4 * (g / 16)) (n + g % 16))
          if nibbleOk (nibbleOf byte g) then none else some byte)
      else []))).head?

/-- The byte size of a tile as it is stored: the space of a full one where the tensor keeps it. -/
def Packing.tileBytes (p : Packing) (t : Nat) : Nat :=
  (if p.full then (if p.fmt.isMx then 32 else 64) else p.tileUnits (p.masks.getD t 0)) * p.unitBytes

/-- Slots of the stored tiles of an operand, their masks included where they stand with the tensor (R388). -/
def Packing.tileSlots (p : Packing) (o : Operand) (tiles : List Nat) : List Nat :=
  (tiles.flatMap (fun t => o.byteSlots (o.start + p.tileOff t) (p.tileBytes t) ++
    (if p.full then o.byteSlots (o.start + p.plane + 8 * t) 8 else []))).eraseDups

/-- The 2-of-4 nibble that a tensor's fixed metadata plane gives an element (R140, R143): the plane holds 32 bytes for
each present block in order. -/
def MaskEntry.nib (e : MaskEntry) (p : Packing) (k n : Nat) : Nat :=
  let t := p.tileOf k n
  let blk := ((p.masks.take t).map (fun w => popCount w 64)).sum + popCount (p.masks.getD t 0) (maskBit k n)
  nibbleOf (leAt e.meta24 (32 * blk + group24 k n / 2) 1) (group24 k n)

/-- Whether APPLY lets an element be written (R143): its block is present and, for a 2-of-4 tensor, its position kept. -/
def MaskEntry.keeps (e : MaskEntry) (p : Packing) (k n : Nat) : Bool :=
  p.present k n && (e.meta24.isEmpty || (keptSlot (e.nib p k n) k).isSome)

/-- The packing of a sparse operand with `kRows` rows of its K axis. A detected tensor's masks stand directly after its
tile space, one U64 per tile (R388); a fixed mask stands in the MASKS section (R135). -/
def Module.packing (m : Module) (o : Operand) (s24 : Bool) (kRows : Nat) : Packing :=
  let b := m.job o.job
  let kt := kTiles o.fmt kRows
  let full := b.detects o.ref.buf
  let p : Packing := { fmt := o.fmt, s24 := s24, masks := [], kt := kt, full := full, plane := 0 }
  if full then
    let tiles := kt * ceilDiv (o.lay.axisPlan 0 * o.lay.axisPlan 1 / max 1 kRows) 128
    let plane := p.tileOff tiles
    { p with plane := plane,
             masks := (List.range tiles).map (fun t =>
               leNat (m.bytesAt o.job o.core o.buf.space (o.addr (o.start + plane + 8 * t)) 8)) }
  else { p with masks := ((b.maskEntry o).map MaskEntry.masks).getD [] }

end Sys2Proof.Machine
end

