-- ==== Sys2Proof/Machine/Turns.lean ====
section
/-!
DEFINITION. The order of combined writes (R186, R222, R235): which instructions still to come write a buffer, and when a writer
has its turn.
-/
namespace Sys2Proof.Machine

/-- The class and operation of a CONTROL row. -/
def isControl (op : Nat) (ws : Words) : Bool := classOf ws == 5 && opOf ws == op

/-- The target of a TAKE. -/
def targetOf (ws : Words) : Nat := field (wordAt ws 1) 44 12

/-- The length shape of a MOVE. -/
def lengthShape (ws : Words) : Shape := readShape (hiOf ws 3)

/-- The class and operation of a MOVE row. -/
def isMove (op : Nat) (ws : Words) : Bool := classOf ws == 4 && opOf ws == op

/-- Word `k` of descriptor `d` of a coil (R384). -/
def Module.coilWord (m : Module) (o : Operand) (d k : Nat) : Nat :=
  leNat (m.bytesAt o.job o.core o.buf.space (o.addr (o.start + 32 * d + 8 * k)) 8)

/-- Whether an instantiation writes a buffer, a coil by any of the descriptors that it runs. -/
def Module.writesBuf (m : Module) (i : Inst) (buf : Nat) : Bool :=
  (outRefs i.words).any (fun w => (readRef w).buf == buf) ||
  (isMove 5 i.words && (m.operand i (hiOf i.words 2) false 0).any (fun o =>
    (List.range (m.shapeOf i (lengthShape i.words))).any (fun d => field (m.coilWord o d 0) 32 14 == buf)))

/-- Source and destination buffer of a fetched coil descriptor (R384). -/
def descSrc (w : Words) : Nat := field (wordAt w 0) 46 14
/-- Its destination buffer. -/
def descDst (w : Words) : Nat := field (wordAt w 0) 32 14
/-- Its length in 64-byte units. -/
def descLen (w : Words) : Nat := field (wordAt w 0) 8 24

/-- Whether a movement in a channel writes a buffer: a coil whose burst has been fetched, by the descriptors in it. -/
def Module.moveWrites (m : Module) (v : Move) (buf : Nat) : Bool :=
  match v.burst with
  | some ws => ws.any (fun w => descDst w == buf)
  | none => m.writesBuf v.inst buf

/-- Whether an instruction index lies in the open TAKE region of an entry (R233). -/
def Entry.holds (f : Entry) (n : Nat) : Bool :=
  if f.at_ < f.target then decide (f.at_ < n) && decide (n < f.target) else decide (f.at_ < n) || decide (n < f.target)

/-- Whether an instruction index lies after some TAKE of a stream and before its target. -/
def inTake (st : List Words) (n : Nat) : Bool :=
  (st.take n).zipIdx.any (fun w => isControl 1 w.1 && (decide (n < targetOf w.1) || decide (targetOf w.1 ≤ w.2)))

/-- The instantiations that a core may still execute in its open TAKE regions, or outside every TAKE region: from its position on, or
from its outermost open loop. -/
def Module.toCome (m : Module) (g j : Nat) : List Inst :=
  let q := (m.core g).seq
  let st := (m.job j).stream g
  let low := q.loops.foldl (fun n f => min n f.at_) q.pc
  if q.done then []
  else
    (st.zipIdx.filter (fun w => decide (low ≤ w.2))).filterMap (fun w =>
      match q.takes.find? (fun f => f.holds w.2) with
      | some f => some { job := j, core := g, index := w.2, words := w.1, entry := some f }
      | none => if inTake st w.2 then none else some { job := j, core := g, index := w.2, words := w.1, entry := none })

/-- The instructions of a stream that stand between a TAKE of template `n` and its target (R233). -/
def regionOf (st : List Words) (n : Nat) : List (Words × Nat) :=
  (st.zipIdx).flatMap (fun w =>
    if isControl 1 w.1 && field (wordAt w.1 1) 56 8 == n then
      (st.zipIdx).filter (fun x => if w.2 < targetOf w.1 then decide (w.2 < x.2) && decide (x.2 < targetOf w.1)
        else decide (w.2 < x.2) || decide (x.2 < targetOf w.1))
    else [])

/-- The streams that a job's cores run. -/
def Job.streamsNow (b : Job) : List (List Words) := if b.run.replay then b.prog.sched else b.prog.streams

/-- Whether a stream takes all entries of template `x` before those of template `y`: every TAKE of `x` targets an instruction at or
before every TAKE of `y`. -/
def takesFirst (st : List Words) (x y : Nat) : Bool :=
  let takes := fun (n : Nat) => (st.zipIdx).filter (fun w => isControl 1 w.1 && field (wordAt w.1 1) 56 8 == n)
  !(takes x).isEmpty && !(takes y).isEmpty &&
    (takes x).all (fun a => (takes y).all (fun c => decide (a.2 < targetOf a.1) && decide (targetOf a.1 ≤ c.2)))

/-- Whether the entries of template `x` all come before those of template `y` because some role takes them so. DESIGN CHOICE (log entry
26): R186 orders by reel entry number and does not say how the entries of two templates compare that one role takes one after the
other; taken by number alone they would wait for each other. -/
def Job.templateFirst (b : Job) (x y : Nat) : Bool := x != y && b.streamsNow.any (fun st => takesFirst st x y)

/-- The order of R186: the lower reel entry number, then the lower instruction index. A write inside a TAKE region and one outside
every region are not ordered. -/
def Job.before (j : Job) (a b : Inst) : Bool :=
  match a.entry, b.entry with
  | some x, some y =>
    if j.templateFirst x.tmpl y.tmpl then true
    else if j.templateFirst y.tmpl x.tmpl then false
    else decide (x.e < y.e) || (x.e == y.e && decide (a.index < b.index))
  | none, none => decide (a.index < b.index)
  | _, _ => false

/-- The indices of the instructions in the TAKE regions of template `n` that write a buffer; `i` supplies the core. -/
def Module.regionWriters (m : Module) (i : Inst) (n buf : Nat) : List Nat :=
  ((m.job i.job).streamsNow.flatMap (fun st => regionOf st n)).filterMap (fun x =>
    if m.writesBuf { i with index := x.2, words := x.1, entry := none } buf then some x.2 else none)

/-- Whether an entry of a die reel that no core has taken yet writes a buffer before instantiation `i` of entry `e` (R186). -/
def Module.reelBefore (m : Module) (i : Inst) (e : Entry) (buf : Nat) (d : DieReel) : Bool :=
  let b := m.job i.job
  let ws := m.regionWriters i d.tmpl buf
  if d.left.isEmpty || ws.isEmpty then false
  else if d.tmpl = e.tmpl then d.left.any (fun n => decide (n < e.e))
  else if b.templateFirst d.tmpl e.tmpl then true
  else if b.templateFirst e.tmpl d.tmpl then false
  else d.left.any (fun n => decide (n < e.e) || (n == e.e && ws.any (fun k => decide (k < i.index))))

/-- Whether a write of an instantiation into a combine buffer has its turn (R186, R222): no entry still in a reel writes the buffer
before it, and no live core still has an earlier write into the buffer to come or under way. -/
def Module.hasTurn (m : Module) (i : Inst) (buf : Nat) : Bool :=
  let before := (m.job i.job).before
  let earlier := fun (x : Inst) => before x i && m.writesBuf x buf
  (match i.entry with
   | none => true
   | some e => !(m.job i.job).run.reels.any (m.reelBefore i e buf)) &&
  (m.liveCores i.job).all (fun g =>
    let c := m.core g
    (g == i.core || (m.toCome g i.job).all (fun x => !earlier x)) &&
    (c.channels.flatMap id).all (fun v => v.written || !(before v.inst i && m.moveWrites v buf)) && c.gathers.all (fun p => !earlier p.inst))

end Sys2Proof.Machine
end

