-- ==== Sys2Proof/Machine/Matrix.lean ====
section
/-!
DEFINITION. MATRIX (R194): issue, operands, the split into core tiles (R69, R74, R214), the passes with their block masks
(R136, R137) and predicted sparsity (R348), and the check lanes (R77).
-/
namespace Sys2Proof.Machine

/-- The splice word (R123). -/
structure SpliceWord where
  op : Nat
  neg : Nat
  idxKeep : Bool
  srcKeep : Bool
  rowBytes : Nat
  valFmt : Nat
  maskMode : Nat
  sparse24 : Bool
  dropFault : Bool
  kcompact : Bool
  srcMem : Bool
  base : Bool
  deriving DecidableEq, Repr

/-- The splice word of an instruction (R123). -/
def readSplice (ws : Words) : SpliceWord :=
  let w := wordAt ws 1
  { op := field w 60 4, neg := field w 58 2, idxKeep := bitAt w 57, srcKeep := bitAt w 56,
    rowBytes := 32 * (field w 49 7 + 1), valFmt := field w 45 4, maskMode := field w 43 2, sparse24 := bitAt w 42,
    dropFault := bitAt w 41, kcompact := bitAt w 40, srcMem := bitAt w 39, base := bitAt w 38 }

/-- The shape fields of a MATRIX instruction (R194): M, N, K. -/
def matrixShapes (ws : Words) : List Shape := [readShape (hiOf ws 4), readShape (loOf ws 4), readShape (hiOf ws 5)]

/-- The operand references of a MATRIX instruction (R194): A, B, output, addend. -/
def matrixRefs (ws : Words) : List Nat := [hiOf ws 2, loOf ws 2, hiOf ws 3, loOf ws 3]

/-- Row groups of an instruction with `m` rows (R69). -/
def groupCountOf (m a : Nat) : Nat := ceilDiv m (512 * a)

/-- Rows per array (R69). -/
def rowsPerArray (m a : Nat) : Nat := ceilDiv m (a * groupCountOf m a)

/-- The rows of a row group among the instruction's in-extent rows, on `a` arrays (R69). -/
def rowsOf (rows : List Nat) (a gi : Nat) : List Nat :=
  let n := a * rowsPerArray rows.length a
  slice rows (gi * n) n

/-- Whether the digits of an operand on every dimension but those of axis `free` are in extent at an index (R219). -/
def Operand.inExtentBut (o : Operand) (free : Nat) (idx : List Nat) : Bool :=
  let ix := o.index idx
  ((digitsOf o.lay.dims ix).zip (o.lay.dims.zip o.ext)).all (fun p => p.2.1.axis == free || decide (p.1 < p.2.2)) &&
  (List.range 5).all (fun a => a == free || o.lay.dims.any (fun d => d.axis == a) || ix.getD a 0 == 0)

/-- The in-extent rows of a MATRIX with `mM` rows: those that operand A's descriptor has in extent, which alone are streamed (R69,
R219, R220). -/
def Operand.rowsIn (a : Operand) (mM : Nat) : List Nat := (List.range mM).filter (fun r => a.inExtentBut 0 [0, r])

/-- The columns of a 128-column stretch. -/
def colsOf (n si : Nat) : List Nat := (List.range (min 128 (n - 128 * si))).map (· + 128 * si)

/-- The core tiles of an instruction as (row group, stretch) in the level-3 order (R214): M-groups outer, or N-stretches
outer where the entry's template says so. -/
def tileOrder (nOuter : Bool) (groups stretches : Nat) : List (Nat × Nat) :=
  if nOuter then (List.range stretches).flatMap (fun s => (List.range groups).map (fun g => (g, s)))
  else (List.range groups).flatMap (fun g => (List.range stretches).map (fun s => (g, s)))

/-- Whether the level-3 order of an instantiation puts N-stretches outer (R214, R225). -/
def Module.nOuter (m : Module) (i : Inst) : Bool :=
  match i.entry with
  | none => false
  | some e => (((m.job i.job).image.templates[e.tmpl]?).map Template.nOuter).getD false

/-- The elements of a rectangle as logical indices [axis 0, axis 1]. -/
def rect (axis0 axis1 : List Nat) : List (List Nat) := axis1.flatMap (fun b => axis0.map (fun a => [a, b]))

/-! ### Variant selection (R255) -/

/-- The micro-batch count in force (R253). -/
def Job.mbCount (b : Job) : Nat := (b.prog.adapters.map (fun x => b.boundValue x.mbcSlot)).getD 0

/-- Entry `p` of the micro-batch table (R253). -/
def Module.mbEntry (m : Module) (j p : Nat) : Nat :=
  let b := m.job j
  match b.prog.adapters with
  | none => 0
  | some x => leNat (m.bytesAt j 0 2 (b.boundValue x.mbtSlot + 8 * p) 8)

/-- The ACTIVE slot that holds an adapter set (R255). -/
def Job.slotOfSet (b : Job) (set : Nat) : Option Nat := indexOf (fun v => v.state == 2 && v.set == set) b.slots

/-- The byte offset of the slot region that operand B moves to (R250, R255). -/
def Module.slotOffset (m : Module) (i : Inst) (bufB : Nat) : Nat :=
  let b := m.job i.job
  match b.trainOfWeight bufB with
  | none => 0
  | some t => 2 * b.regionElems t * ((b.slotOfSet (field (m.mbEntry i.job i.problem) 48 16)).getD 0)

/-! ### Predicted sparsity (R345 to R350) -/

/-- The predictor of a job whose mask acts on an instruction: its up projection writes `up`, or its down projection reads
`down` (R350); none where it is OFF or overridden. -/
def Job.predictor (b : Job) (test : Predictor → Bool) : Option Predictor :=
  if b.run.latch.get (odKey 0x3260 1) = 1 then none
  else (b.prog.experts.map Experts.preds).getD [] |>.find? (fun p => p.mode != 0 && test p)

/-- Whether neuron tile `t` of row group `gi` is active in the mask of problem `p` (R347). -/
def Module.maskActive (m : Module) (i : Inst) (pr : Predictor) (planM t gi : Nat) : Bool :=
  let b := m.job i.job
  let base := ((b.image.buffers[pr.maskBuf]?).map Buffer.base).getD 0
  let word := (i.problem * groupCountOf planM b.image.arrays + gi) * 4 + t / 64
  bitAt (leNat (m.bytesAt i.job i.core 2 (base + 8 * word) 8)) (t % 64)

/-- Whether a skipped neuron tile is sampled (R348). -/
def Job.samples (b : Job) (pr : Predictor) (t gi p : Nat) : Bool :=
  (t + 7 * gi + 13 * p + 29 * pr.layerId + b.step) % max 1 (b.run.latch.get (odKey 0x3260 2)) == 0

/-! ### The K rows of the passes -/

/-- The K rows of the weight tiles of a stretch, tile by tile (R67). -/
def kChunks (tk k : Nat) : List (List Nat) :=
  (List.range (ceilDiv k tk)).map (fun t => (List.range (min tk (k - tk * t))).map (· + tk * t))

/-- Whether the weight tile of `tk` K rows from row `k0` on is loaded for the stretch at column `n0` (R136): a mask of its 128-row
tiles is not zero, whatever the run-time shape. -/
def Packing.loaded (p : Packing) (tk k0 n0 : Nat) (tr : Bool) : Bool :=
  (List.range (tk / 128)).any (fun i =>
    let k := k0 + 128 * i
    p.masks.getD (if tr then p.tileOf n0 k else p.tileOf k n0) 0 != 0)

/-- Whether the block-row of 16 K rows from row `k0` on is kept for the stretch at column `n0` (R137): any of its 8 mask bits is
set. -/
def Packing.rowKept (p : Packing) (k0 n0 : Nat) (tr : Bool) : Bool :=
  (List.range 8).any (fun c => if tr then p.present (n0 + 16 * c) k0 else p.present k0 (n0 + 16 * c))

/-- The kept 16-row block-rows of a stretch (R137), with how many are left out. DESIGN CHOICE (log entry 23): the block-rows of a
stretch are the first K / 16, rounded up, so one that lies past K in its last tile counts neither way. -/
def keptRows (p : Packing) (k n0 : Nat) (tr : Bool) : List (List Nat) × Nat :=
  let rows := (List.range (ceilDiv k 16)).map (fun r => (List.range (min 16 (k - 16 * r))).map (· + 16 * r))
  let kept := rows.filter (fun ks => p.rowKept (ks.headD 0) n0 tr)
  (kept, rows.length - kept.length)

/-- The passes of one core tile: the K rows of each, how many tiles or block-rows were left out, and the K rows that K of R78
counts. -/
structure Passes where
  runs : List (List Nat)
  skippedTiles : Nat
  skippedRows : Nat
  ks : List Nat
  deriving DecidableEq, Repr

/-- The passes over a dense or packed weight operand (R136, R137). -/
def passesOf (tk k n0 : Nat) (sw : SpliceWord) (p : Option Packing) : Passes :=
  match p with
  | none => { runs := kChunks tk k, skippedTiles := 0, skippedRows := 0, ks := List.range k }
  | some pk =>
    let tr := sw.maskMode == 2
    if sw.kcompact then
      let kr := keptRows pk k n0 tr
      { runs := groupsOf tk (ceilDiv k 16) kr.1.flatten, skippedTiles := 0, skippedRows := kr.2, ks := kr.1.flatten }
    else
      let all := kChunks tk k
      let kept := all.filter (fun ks => pk.loaded tk (ks.headD 0) n0 tr)
      { runs := kept, skippedTiles := all.length - kept.length, skippedRows := 0, ks := List.range k }

/-- The passes that a down projection's mask leaves (R348), with the neuron tiles it left out. -/
def Passes.masked (p : Passes) (active : Nat → Bool) : Passes × Nat :=
  let kept := p.runs.map (fun ks => ks.filter (fun k => active (k / 128)))
  let dropped := ((p.runs.flatten.map (· / 128)).eraseDups.filter (fun t => !active t)).length
  ({ p with runs := kept.filter (fun ks => !ks.isEmpty), ks := p.ks.filter (fun k => active (k / 128)) }, dropped)

/-! ### One core tile -/

/-- A weight tile of one pass, K row by K row, with the number of each. -/
abbrev WeightTile := List (Nat × WeightRow)

/-- The products of a row and a column over the weight tiles of the passes; padding lanes hold +0 in both operands (R220, R221). -/
def products (tk : Nat) (tiles : List WeightTile) (a : Nat → FVal) (w : WeightRow → FVal) : List (FVal × FVal) :=
  tiles.flatMap (fun t => t.map (fun r => (a r.1, w r.2)) ++ List.replicate (tk - t.length) (fZero, fZero))

/-- What a row without an addend starts from (R73): zero, of the sign that leaves a sum of −0 products −0 (R221), and +0 where no
pass runs. -/
def rowStart (kind : PairKind) (tiles : List WeightTile) : FVal :=
  if kind = .int8 || tiles.isEmpty then fZero else fZero.neg

/-- What one row of a core tile leaves: the accumulators' values with their clamps, and the columns beside them (R77 to R79). -/
structure RowResult where
  vals : List FVal
  clamps : Nat
  check : RowCheck
  deriving DecidableEq, Repr

/-- One row of a core tile: `tiles` are the weight tiles that work in its passes, `a` gives the row's elements by K, `d` the addends
of its columns, `fault` the value a faulty array leaves in a column, `lane` in a checksum column. -/
def rowResult (kind : PairKind) (tk : Nat) (tiles : List WeightTile) (cols : List Nat) (a : Nat → FVal)
    (d : List FVal) (fault : Nat → Option FVal) (lane : Bool → Option FVal) : RowResult :=
  let cells := ((cols.zip d).zipIdx).map (fun c =>
    let r := accumulate kind c.1.2 (products tk tiles a (fun w => w.vals.getD c.2 fZero))
    ((fault c.1.1).getD r.1, r.2))
  let ws := tiles.flatten.map (fun r => r.2.vals)
  let row := tiles.flatten.map (fun r => a r.1)
  let sum := fun (second : Bool) =>
    let init := checkInit kind second d
    let r := accumulateCheck kind init.1 (products tk tiles a (fun w => if second then w.c1 else w.c0))
    ((lane second).getD r.1, r.2 + (if init.2 then 1 else 0))
  let c0 := sum false
  let c1 := sum true
  { vals := cells.map Prod.fst, clamps := (cells.map Prod.snd).sum,
    check := { c0 := c0.1, c1 := c1.1, m0 := magnitude false row ws d, m1 := magnitude true row ws d,
               clamped := decide (0 < (cells.map Prod.snd).sum + c0.2 + c1.2) } }

/-- The 32-bit code of an accumulator. -/
def accCode (kind : PairKind) (v : FVal) : Nat := if kind = .int8 then unsigned 32 (roundInt v) else toF32 v

/-- The value of an accumulator code. -/
def accValue (kind : PairKind) (c : Nat) : FVal := if kind = .int8 then fInt (signed 32 c) else ofF32 c

/-- The operands of a MATRIX instruction, resolved: A, B, the output, the addend, the splice word and B's packing. -/
structure MatOps where
  a : Operand
  b : Operand
  out : Operand
  addend : Option Operand
  sw : SpliceWord
  pack : Option Packing
  deriving DecidableEq, Repr

/-- The packing of an operand that EXPAND reads (R136, R139, R140): its masks, or every block present with mask_mode 0b00.
`tiles` are the tiles that it holds, `kRows` the rows of its K axis. -/
def Module.expandPacking (m : Module) (o : Operand) (sw : SpliceWord) (kRows tiles : Nat) : Packing :=
  let p := m.packing o sw.sparse24 kRows
  if sw.maskMode = 0 then { p with masks := List.replicate tiles (2 ^ 64 - 1) } else p

/-- The operands without their per-tensor scales, which the array does not apply (R42). -/
def Module.matOps (m : Module) (i : Inst) : Option MatOps :=
  let ws := i.words
  let sw := readSplice ws
  let vsel := bitAt (wordAt ws 7) 63
  let extra := if vsel then m.slotOffset i (readRef (loOf ws 2)).buf else 0
  match m.operand i (hiOf ws 2) false 0, m.operand i (loOf ws 2) false extra, m.operand i (hiOf ws 3) true 0 with
  | some a, some b, some o =>
    let tr := sw.maskMode == 2
    let kRows := b.lay.axisPlan (if tr then 0 else 1)
    some { a := { a with exp := 0 }, b := { b with exp := 0 }, out := o,
           addend := (m.operand i (loOf ws 3) false 0).map (fun d => { d with exp := 0 }), sw := sw,
           pack := if sw.op = 4 then
               some (m.expandPacking b sw kRows (kTiles b.fmt kRows * ceilDiv (b.lay.axisPlan (if tr then 1 else 0)) 128))
             else none }
  | _, _, _ => none

/-- A weight as operand B gives it: dense, expanded from packed blocks, or expanded and transposed (R136, R139); +0 where its
descriptor has it out of extent (R219, R220). -/
def Module.weight (m : Module) (x : MatOps) (k n : Nat) : FVal :=
  match x.pack with
  | none => m.get x.b [n, k]
  | some p =>
    if !x.b.inExtent [n, k] then fZero else if x.sw.maskMode = 2 then m.packValue x.b p n k else m.packValue x.b p k n

/-- Whether a weight's read meets poison. -/
def Module.weightPoison (m : Module) (x : MatOps) (k n : Nat) : Bool :=
  match x.pack with
  | none => m.getPoison x.b [n, k]
  | some p => x.b.inExtent [n, k] && (if x.sw.maskMode = 2 then m.packPoison x.b p n k else m.packPoison x.b p k n)

/-- The weight tile that the bus loads into the shadow registers for a pass over K rows `ks` (R68, R77). -/
def Module.loadTile (m : Module) (x : MatOps) (kind : PairKind) (cols ks : List Nat) : WeightTile :=
  ks.map (fun k => (k, weightRow kind (cols.map (m.weight x k))))

/-- The values that faults leave in the accumulators (R78), by row and column. -/
def faultAt (kind : PairKind) (us : List Upset) (row col : Nat) : Option FVal :=
  (us.filterMap (fun u => match u with
    | .acc r c code => if r = row && c = col then some (accValue kind code) else none
    | _ => none)).head?

/-- The value that a fault leaves in a checksum column (R81): FP32, or a 48-bit integer for INT8 (R77). -/
def faultCheck (kind : PairKind) (us : List Upset) (row si : Nat) (second : Bool) : Option FVal :=
  (us.filterMap (fun u => match u with
    | .accCheck r s w code =>
      if r = row && s = si && w = second then some (if kind = .int8 then fInt (signed 48 code) else ofF32 code) else none
    | _ => none)).head?

/-- The passes of one core tile with what masks left out (R136, R137, R348): the passes, and the neuron tiles skipped. -/
def Module.tilePasses (m : Module) (i : Inst) (x : MatOps) (tk planM mK : Nat) (gi : Nat) (cols : List Nat) : Passes × Nat :=
  let p := passesOf tk mK (cols.headD 0) x.sw x.pack
  match (m.job i.job).predictor (fun pr => pr.downBuf == x.a.ref.buf) with
  | none => (p, 0)
  | some pr => p.masked (fun t => m.maskActive i pr planM t gi)

/-- How predicted sparsity treats a core tile of an up projection (R348): whether its stretch is skipped, and whether it
is computed as a sample all the same. -/
def Module.upSkip (m : Module) (i : Inst) (x : MatOps) (planM gi si : Nat) : Bool × Bool :=
  let b := m.job i.job
  match b.predictor (fun pr => pr.upBuf == x.out.ref.buf) with
  | none => (false, false)
  | some pr => if m.maskActive i pr planM si gi then (false, false) else (true, b.samples pr si gi i.problem)

/-- A core tile, what its passes count: clamped partial sums, tiles and block-rows left out, neuron tiles skipped; and the weight
tiles of its passes. -/
structure TileWork where
  tile : Tile
  clamps : Nat
  skippedTiles : Nat
  skippedRows : Nat
  neurons : Nat
  weights : List WeightTile
  deriving DecidableEq, Repr

/-- The run-time shape of a MATRIX instruction and what its core tiles share: M, N and K, the in-extent rows (R69), the arrays
that the image uses, and the plan of M. -/
structure MatShape where
  m : Nat
  n : Nat
  k : Nat
  rows : List Nat
  arrays : Nat
  planM : Nat
  deriving DecidableEq, Repr

/-- K of R78: the K rows that both descriptors have in extent, or with kcompact the kept K rows (R137). -/
def MatOps.reduction (x : MatOps) (ps : Passes) : Nat :=
  if x.sw.kcompact && x.pack.isSome then ps.ks.length
  else (ps.ks.filter (fun k => x.a.inExtentBut 1 [k, 0] && x.b.inExtentBut 0 [0, k])).length

/-- Whether a mask that stands beside a packed weight operand is poisoned for a tile of a stretch (R132). -/
def Module.maskPoison (m : Module) (x : MatOps) (k : Nat) (cols : List Nat) : Bool :=
  match x.pack with
  | none => false
  | some p => p.full && ((List.range k).flatMap (fun kk => cols.map (fun n => if x.sw.maskMode = 2 then p.tileOf n kk else p.tileOf kk n))).eraseDups.any
      (fun t => m.opPoison x.b (p.plane + 8 * t) 8)

/-- The first invalid nibble that the passes of a core tile would read (R140), as its metadata byte. -/
def Module.tileNibble (m : Module) (x : MatOps) (ks cols : List Nat) : Option Nat :=
  match x.pack with
  | none => none
  | some p => m.badNibble x.b p (x.sw.maskMode == 2) ks cols

/-- The slots that a store of the elements at the given indices sets FULL: those of the elements, or under DETECT and APPLY
those of the tiles they touch. -/
def Module.storeSlots (m : Module) (o : Operand) (ixs : List (List Nat)) : List Nat :=
  if o.ref.fid = 0 then o.slots ixs
  else
    let p := m.packing o (((m.job o.job).maskEntry o).any (fun e => !e.meta24.isEmpty)) (o.lay.axisPlan 1)
    p.tileSlots o (((ixs.filter o.inExtent).map (fun ix => p.tileOf ((o.index ix).getD 1 0) ((o.index ix).getD 0 0))).eraseDups)

/-- The predictor whose score instruction writes a buffer (R345). -/
def Job.scorer (b : Job) (buf : Nat) : Option Predictor :=
  ((b.prog.experts.map Experts.preds).getD []).find? (fun p => p.scoreBuf == buf)

/-- The slots of the destination of a core tile: none for a weight-gradient slice (R245) or a score instruction (R347). -/
def Module.tileSlots (m : Module) (i : Inst) (o : Operand) (rows cols : List Nat) : List Nat :=
  if bitAt (wordAt i.words 5) 16 || ((m.job i.job).scorer o.ref.buf).isSome then [] else m.storeSlots o (rect cols rows)

/-- One core tile of a MATRIX instruction at its place in the level-3 order. -/
def Module.coreTile (m : Module) (i : Inst) (x : MatOps) (kind : PairKind) (tk : Nat) (s : MatShape) (us : List Upset)
    (place : Nat × Nat × Nat) : TileWork :=
  let gi := place.2.1
  let si := place.2.2
  let rows := rowsOf s.rows s.arrays gi
  let cols := colsOf s.n si
  let sk := m.upSkip i x s.planM gi si
  let tile : Tile :=
    { inst := i, number := place.1, group := gi, perArray := rowsPerArray s.rows.length s.arrays, rows := rows, cols := cols,
      acc := [], checks := [], k := 0, poisoned := false, skipped := sk.1 && !sk.2, sampled := sk.2, passes := 0, last := false,
      m := s.m, n := s.n, slots := m.tileSlots i x.out rows cols, invalid := none }
  if sk.1 && !sk.2 then { tile := tile, clamps := 0, skippedTiles := 0, skippedRows := 0, neurons := 1, weights := [] }
  else
    let pr := m.tilePasses i x tk s.planM s.k gi cols
    let ps := pr.1
    let ks := ps.runs.flatten
    match m.tileNibble x ks cols with
    | some byte =>
      { tile := { tile with invalid := some byte, slots := [] }, clamps := 0, skippedTiles := 0, skippedRows := 0, neurons := 0,
        weights := [] }
    | none =>
      let tiles := ps.runs.map (m.loadTile x kind cols)
      let start := rowStart kind tiles
      let addends := fun (r : Nat) => cols.map (fun c => (x.addend.map (fun d => m.get d [c, r])).getD start)
      let rs := rows.map (fun r => rowResult kind tk tiles cols (fun k => m.get x.a [k, r]) (addends r)
        (faultAt kind us r) (faultCheck kind us r si))
      let bad := rows.any (fun r => ks.any (fun k => m.getPoison x.a [k, r])) ||
        ks.any (fun k => cols.any (fun c => m.weightPoison x k c)) || m.maskPoison x s.k cols ||
        (match x.addend with
         | none => false
         | some d => rows.any (fun r => cols.any (fun c => m.getPoison d [c, r])))
      { tile := { tile with acc := (rs.flatMap RowResult.vals).map (accCode kind), checks := rs.map RowResult.check,
                            k := x.reduction ps, poisoned := bad, passes := ps.runs.length },
        clamps := if bad then 0 else (rs.map RowResult.clamps).sum, skippedTiles := ps.skippedTiles,
        skippedRows := ps.skippedRows, neurons := pr.2,
        weights := tiles }

/-- What a core tile reads: its rows, its columns and the K rows of its passes; no K row of a stretch that is skipped (R348). -/
def Module.tileReads (m : Module) (i : Inst) (x : MatOps) (tk : Nat) (s : MatShape) (gi si : Nat) : List Nat × List Nat × List Nat :=
  let sk := m.upSkip i x s.planM gi si
  let cols := colsOf s.n si
  if sk.1 && !sk.2 then ([], [], [])
  else (rowsOf s.rows s.arrays gi, cols, (m.tilePasses i x tk s.planM s.k gi cols).1.runs.flatten)

/-- The tiles of a packed weight operand that K rows and columns of the expanded operand lie in. -/
def MatOps.tilesOf (x : MatOps) (p : Packing) (ks cols : List Nat) : List Nat :=
  (ks.flatMap (fun k => cols.map (fun n => if x.sw.maskMode = 2 then p.tileOf n k else p.tileOf k n))).eraseDups

/-- The slots that a MATRIX instruction reads (R130, R95), and those it reads last with CONSUME: of operand A only the K rows of the
passes (R137), of a packed operand B the tiles that are loaded, with every mask that stands beside them (R136, R388). -/
def Module.matSlots (m : Module) (i : Inst) (x : MatOps) (tk : Nat) (s : MatShape) : List Nat × List Nat :=
  let reads := (tileOrder false (groupCountOf s.rows.length s.arrays) (ceilDiv s.n 128)).map (fun t => m.tileReads i x tk s t.1 t.2)
  let a := x.a.slots ((reads.flatMap (fun r => rect r.2.2 r.1)).eraseDups)
  let b := match x.pack with
    | none => x.b.slots ((reads.flatMap (fun r => rect r.2.1 r.2.2)).eraseDups)
    | some p =>
      (p.tileSlots x.b ((reads.flatMap (fun r => x.tilesOf p r.2.2 r.2.1)).eraseDups) ++
       (if p.full then x.b.byteSlots (x.b.start + p.plane) (8 * p.masks.length) else [])).eraseDups
  let d := (x.addend.map (fun d => d.slots ((reads.flatMap (fun r => rect r.2.1 r.1)).eraseDups))).getD []
  let keepB := if x.sw.op = 4 then x.sw.srcKeep else !x.b.ref.consume
  ((a ++ b ++ d).eraseDups,
   (if x.a.ref.consume then a else []) ++ (if keepB then [] else b) ++
   (match x.addend with
    | some o => if o.ref.consume then d else []
    | none => []))

/-- The core tiles of a list up to the first that an invalid nibble ends (R140). -/
def uptoInvalid : List TileWork → List TileWork
  | [] => []
  | t :: ts => if t.tile.invalid.isSome then [t] else t :: uptoInvalid ts

/-- The divisor of dup_share (R474); 0 for none. -/
def dupDivisor : Nat → Nat
  | 0 => 0 | 1 => 64 | 2 => 16 | _ => 4

/-- Whether a core tile is selected (R475). -/
def Module.dupSelected (m : Module) (t : Tile) : Bool :=
  let b := m.job t.inst.job
  let d := dupDivisor (b.run.latch.get (odKey 0x3120 6))
  d != 0 && ((t.inst.entry.map Entry.e).getD 0 + 13 * t.number + b.step) % d == 0

/-- The A-cycles that arrays spend on the rows of a core tile (R90), those of its duplicate included (R476). -/
def Module.tileCycles (m : Module) (t : Tile) (rowCycles : Nat) : Nat :=
  t.rows.length * rowCycles * t.passes * (if m.dupSelected t && !t.skipped then 2 else 1)

/-- A weight tile loads into the shadow registers while another works (R68). -/
def Core.loadShadow (c : Core) (t : WeightTile) : Core := { c with weights := { c.weights with shadow := t.map Prod.snd } }

/-- The boundary between passes: the shadow tile becomes the working tile (R68). -/
def Core.swapWeights (c : Core) : Core := { c with weights := { c.weights with working := c.weights.shadow } }

/-- The accumulator rows that array `array` holds of a core tile (R69, R73). -/
def Tile.accRows (t : Tile) (array : Nat) : List AccRow :=
  ((List.range t.rows.length).filter (fun r => r / max 1 t.perArray == array)).filterMap (fun r =>
    (t.checks[r]?).map (fun k => { vals := slice t.acc (r * t.cols.length) t.cols.length, check := k }))

/-- A core tile's passes on the arrays: each tile of weights is loaded and swapped in, and the accumulators take its rows over those of
the core tile before (R68, R73). -/
def Core.runTile (c : Core) (w : TileWork) : Core :=
  let c := w.weights.foldl (fun (c : Core) t => (c.loadShadow t).swapWeights) c
  { c with accums := (List.range 4).map (fun a => w.tile.accRows a ++ (c.accums.getD a []).drop (w.tile.accRows a).length) }

/-- The FP32 code in cell (`k`, `n`) of a weight register of core number `g`, the working one or the shadow (R68, R77): column 128
and 129 are the checksum columns'. What no tile has reached is undefined (R88). -/
def Core.weightCell (c : Core) (g : Nat) (working : Bool) (k n : Nat) : Nat :=
  match (if working then c.weights.working else c.weights.shadow)[k]? with
  | some r => toF32 (if n = 128 then r.c0 else if n = 129 then r.c1 else r.vals.getD n fZero)
  | none => (Config.undefWeight g c.undefNo working k n).toNat

/-- The code in a cell of an array's accumulator of core number `g` (R73): column 128 and 129 are the checksum columns, 130 and 131
the magnitude lanes. What no core tile has reached is undefined (R88). -/
def Core.accCell (c : Core) (g array row col : Nat) : Nat :=
  match (c.accums.getD array [])[row]? with
  | some r =>
    if col = 128 then toF32 r.check.c0 else if col = 129 then toF32 r.check.c1
    else if col = 130 then toF32 r.check.m0 else if col = 131 then toF32 r.check.m1
    else (r.vals[col]?).getD (Config.undefAccum g c.undefNo array row col).toNat
  | none => (Config.undefAccum g c.undefNo array row col).toNat

/-- The core tiles of a MATRIX run through the arrays: what their passes count, the registers and accumulators that they leave (R68,
R73), and the tiles, which wait for their commits (R74). DESIGN CHOICE (log entry 23): R136 and R137 do not say how often a tile or
block-row left out counts; it counts once for each core tile that would have used it. `reads` are the slots read (R110). -/
def Module.startTiles (m : Module) (i : Inst) (work : List TileWork) (rowCycles : Nat) (reads consume : List Nat) : Module :=
  let m := m.remapReads i.core reads
  let tiles := (work.zipIdx).map (fun t => { t.1.tile with last := t.2 + 1 == work.length })
  let m' := (m.onCore i.core (fun c => { work.foldl Core.runTile c with tiles := tiles })).setEmpty i.core consume
  (((((m'.bump (odKey 0x3140 3) (work.map TileWork.clamps).sum).bump (odKey 0x3150 10)
    (work.map TileWork.skippedTiles).sum).bump (odKey 0x3150 9) (work.map TileWork.skippedRows).sum).bump
    (odKey 0x3260 3) (work.map TileWork.neurons).sum).bump (odKey 0x3130 1)
    (tiles.map (fun t => m.tileCycles t rowCycles)).sum)

/-- The run-time shape of a MATRIX instruction with the operands `x`. -/
def Module.matShape (m : Module) (i : Inst) (x : MatOps) : MatShape :=
  let mM := m.shapeOf i (readShape (hiOf i.words 4))
  { m := mM, n := m.shapeOf i (readShape (loOf i.words 4)), k := m.shapeOf i (readShape (hiOf i.words 5)), rows := x.a.rowsIn mM,
    arrays := (m.job i.job).image.arrays, planM := (readShape (hiOf i.words 4)).plan }

/-- The places of the core tiles of a MATRIX instruction, in their order (R214): row group and stretch. -/
def Module.matOrder (m : Module) (i : Inst) (x : MatOps) : List (Nat × Nat) :=
  let s := m.matShape i x
  tileOrder (m.nOuter i) (groupCountOf s.rows.length s.arrays) (ceilDiv s.n 128)

/-- The core tiles of a MATRIX instruction in their order, up to the first that an invalid nibble ends. -/
def Module.matWork (m : Module) (i : Inst) (us : List Upset) (x : MatOps) (kind : PairKind) : List TileWork :=
  uptoInvalid (((m.matOrder i x).zipIdx).map (fun t =>
    m.coreTile i x kind (tileK x.a.fmt) (m.matShape i x) us (t.2, t.1.1, t.1.2)))

/-- A MATRIX instruction past its issue checks: its core tiles run through the arrays and wait for their commits; its
input slots are consumed (R74, R96). With no row in extent it reads and writes nothing (R227). An operand pair that R39 does not
list, or a missing operand, ends it MALFORMED. -/
def Module.runMatrix (fu : Fuses) (us : List Upset) (m : Module) (i : Inst) : Module :=
  let ws := i.words
  let mM := m.shapeOf i (readShape (hiOf ws 4))
  let mN := m.shapeOf i (readShape (loOf ws 4))
  let b := m.job i.job
  if mM = 0 || mN = 0 then m.emptyOp fu i
  else if bitAt (wordAt ws 7) 63 && decide (b.mbCount ≤ i.problem) then
    m.issueFail fu i { status := stBadIndex, value := i.problem, plan := b.mbCount }
  else
    match m.matOps i with
    | none => m.issueFail fu i { status := stMalformed, value := 0, plan := 0 }
    | some x =>
      match pairKind x.a.fmt x.b.fmt with
      | none => m.issueFail fu i { status := stMalformed, value := 0, plan := 0 }
      | some kind =>
        let sl := m.matSlots i x (tileK x.a.fmt) (m.matShape i x)
        match m.tagWait i.core sl.1 [] sl.2 with
        | some w => m.hold i.core w
        | none =>
          let work := m.matWork i us x kind
          match work with
          | [] => ((m.setEmpty i.core sl.2).advance i).finish fu i stOk 0 0
          | w :: _ =>
            match w.tile.invalid with
            | some byte => m.issueFail fu i { status := stMalformed, value := byte, plan := 0 }
            | none => m.startTiles i work (if x.a.fmt = .bf16 then 4 else 1) sl.1 sl.2

/-- MATRIX at core `g` (R194). -/
def Module.matrixAt (fu : Fuses) (us : List Upset) (m : Module) (i : Inst) : Module :=
  m.withShapes fu us (matrixShapes i.words) (matrixRefs i.words) i (fun m i => m.runMatrix fu us i)

/-- MATRIX: the instruction at the core's position issues, passes its checks and runs through the arrays. -/
def execMatrix (g : Nat) (ups : List Upset) (s : State) : Host.Outcome State Fault Refusal :=
  s.actOn (g < 384) (fun fu m => m.issueRow fu g (fun w => classOf w == 1) ups (fun m i => m.matrixAt fu ups i))

end Sys2Proof.Machine
end

