-- ==== Sys2Proof/Machine/Commit.lean ====
section
/-!
DEFINITION. The store path and the commit of a core tile (R42 to R48, R74 to R80, R143 to R145, R223, R245, R347, R348,
R475 to R477), and the output conversion that the row engine shares with it.
-/
namespace Sys2Proof.Machine

/-! ### Conversion of outputs -/

/-- Converted elements: codes and block scales by element offset, with what was counted. -/
structure Encoded where
  codes : List (Int × Nat)
  scales : List (Int × Nat)
  sats : Nat
  nonfins : Nat
  deriving DecidableEq, Repr

/-- Two conversions together. -/
def Encoded.append (a b : Encoded) : Encoded :=
  { codes := a.codes ++ b.codes, scales := a.scales ++ b.scales, sats := a.sats + b.sats, nonfins := a.nonfins + b.nonfins }

/-- Nothing converted. -/
def Encoded.empty : Encoded := { codes := [], scales := [], sats := 0, nonfins := 0 }

/-- One block of an MX output from its in-extent elements (R37). -/
def encodeBlock (f : Fmt) (block : Int) (es : List (Int × FVal)) : Encoded :=
  let k := f.encodeMx (es.map Prod.snd)
  { codes := (es.map Prod.fst).zip k.codes, scales := [(32 * block, k.scale)], sats := k.sats, nonfins := if k.nonfin then 1 else 0 }

/-- Elements converted into a format (R43, R44, R45): one by one, or by blocks of 32 element offsets in an MX format. -/
def encodeElems (f : Fmt) (es : List (Int × FVal)) : Encoded :=
  if f.isMx then
    ((es.map (fun e => e.1 / 32)).eraseDups.map (fun b =>
      encodeBlock f b (es.filter (fun e => e.1 / 32 == b)))).foldl Encoded.append Encoded.empty
  else
    let cs := es.map (fun e => (e.1, f.encodeElem e.2))
    { codes := cs.map (fun c => (c.1, c.2.code)), scales := [], sats := (cs.filter (fun c => c.2.sat)).length,
      nonfins := (cs.filter (fun c => c.2.nonfin)).length }

/-- The elements that stand where several meet at one element offset (R222, R223): the last of the writer's order; under SUM all of
them are added. -/
def keepLast : List (Int × FVal) → List (Int × FVal)
  | [] => []
  | e :: es => if es.any (fun x => x.1 == e.1) then keepLast es else e :: keepLast es

/-- The elements of an output to convert, by element offset, as real values divided by the tensor's exponent in force (R42, R46): those
that stand. -/
def Operand.standing (o : Operand) (es : List (Int × FVal)) : List (Int × FVal) := if o.buf.combine = 2 then es else keepLast es

/-- Converted elements written in their order under the buffer's combine mode (R186, R222); the clamped sums are counted. -/
def Module.putEncoded (m : Module) (o : Operand) (x : Encoded) (bad : Bool) : Module :=
  let r := x.codes.foldl (fun (acc : Module × Nat) c =>
    let p := acc.1.putElem o c.1 c.2 bad
    (p.1, acc.2 + p.2)) (m, 0)
  let m := x.scales.foldl (fun (m : Module) c => m.putScale o c.1 c.2 bad) r.1
  let m := if o.buf.combine = 2 then m
    else m.cleanCovered o.job o.core o.buf.space
      (x.codes.flatMap (fun c => o.addrsOf c.1) ++ x.scales.map (fun c => o.addr (o.scaleOff c.1))) []
  m.bump (odKey 0x3140 3) r.2

/-- The largest ceil(log2 |x|) of the finite non-zero values, clamped (R48). -/
def stepMax (vs : List FVal) : Option Int :=
  (vs.filter (fun v => v.isFin && !v.isZero)).foldl (fun acc v =>
    let k := clampInt (-127) 127 v.ceilLog2
    some (match acc with
      | none => k
      | some a => max a k)) none

/-- The larger of two maxima that may be absent. -/
def maxOpt : Option Int → Option Int → Option Int
  | none, b => b
  | a, none => a
  | some a, some b => some (max a b)

/-- What a commit folds into a tensor's scale descriptor (R45, R48, R49). -/
def ScaleDesc.fold (d : ScaleDesc) (mx : Option Int) (sats nonfins : Nat) : ScaleDesc :=
  { d with stepMaxExp := maxOpt d.stepMaxExp mx, stepSaturations := (d.stepSaturations + sats) % 2 ^ 32,
           stepNonfinite := d.stepNonfinite + nonfins }

/-- The descriptor of an operand's buffer folded, where it has one. -/
def Module.foldDesc (m : Module) (o : Operand) (mx : Option Int) (sats nonfins : Nat) : Module :=
  if o.buf.scaled then m.onJob o.job (fun b => { b with descs := modifyAt (fun d => d.fold mx sats nonfins) b.descs o.buf.scale })
  else m

/-! ### The Fid compressor (R143 to R145) -/

/-- The output of a store path before addressing: the element's row and column in the operand's coordinates and its
value. -/
structure OutElem where
  row : Nat
  col : Nat
  val : FVal
  deriving DecidableEq, Repr

/-- The global row and column of an element of an operand with N on axis 0 and rows on axis 1. -/
def Operand.place (o : Operand) (e : OutElem) : Nat × Nat :=
  let ix := o.index [e.col, e.row]
  (ix.getD 1 0, ix.getD 0 0)

/-- The codes of a group of elements that share a scale, or of single elements. -/
def encodeGroup (f : Fmt) (vs : List FVal) : List Nat × Nat × Nat × Nat :=
  if f.isMx then
    let k := f.encodeMx vs
    (k.codes, k.scale, k.sats, if k.nonfin then 1 else 0)
  else
    let cs := vs.map f.encodeElem
    (cs.map Conv.code, 0, (cs.filter Conv.sat).length, (cs.filter Conv.nonfin).length)

/-- Whether a code is +0 or −0 of a format. -/
def zeroCode (f : Fmt) (c : Nat) : Bool := (f.decodeElem c).isZero

/-- The byte address of an element's value in a packed operand: none where its position is not kept. -/
def Operand.packAddr (o : Operand) (p : Packing) (nib k n : Nat) : Option Nat :=
  (p.valueIndex nib k n).map (fun v => o.addr (o.start + p.unitOff k n + v * p.fmt.bits / 8))

/-- A code written at an element of a packed operand. -/
def Module.putPacked (m : Module) (o : Operand) (p : Packing) (nib k n code : Nat) (bad : Bool) : Module :=
  match o.packAddr p nib k n with
  | none => m
  | some a =>
    if p.fmt.is4bit then
      let old := leNat (m.bytesAt o.job o.core o.buf.space a 1)
      m.storeAt o.job o.core o.buf.space a
        (leBytes 1 (if ((p.valueIndex nib k n).getD 0) % 2 = 0 then old - old % 16 + code % 16 else old % 16 + 16 * (code % 16))) bad
    else m.storeAt o.job o.core o.buf.space a (leBytes (p.fmt.bits / 8) code) bad

/-- The byte addresses that writing an element of a packed operand touches, its scale included. -/
def Operand.packAddrs (o : Operand) (p : Packing) (nib k n : Nat) : List Nat :=
  (((o.packAddr p nib k n).map (fun a => (List.range ((p.fmt.bits + 7) / 8)).map (· + a))).getD []) ++
  (if p.fmt.isMx then [o.addr (o.start + p.scaleAt k n)] else [])

/-- A converted element with its place in the tensor. -/
structure FidElem where
  row : Nat
  col : Nat
  code : Nat
  scale : Nat
  deriving DecidableEq, Repr

/-- Elements converted for the Fid compressor, with their counts: in an MX format the 32 rows of a column share a scale. -/
def fidEncode (o : Operand) (es : List OutElem) : List FidElem × Nat × Nat :=
  let ps := es.map (fun e => (o.place e, e.val))
  let key := fun (q : (Nat × Nat) × FVal) => if o.fmt.isMx then (q.1.1 / 32, q.1.2) else q.1
  ((ps.map key).eraseDups).foldl (fun (acc : List FidElem × Nat × Nat) k =>
    let grp := ps.filter (fun q => key q == k)
    let c := encodeGroup o.fmt (grp.map Prod.snd)
    (acc.1 ++ (grp.zip c.1).map (fun z => { row := z.1.1.1, col := z.1.1.2, code := z.2, scale := c.2.1 }),
     acc.2.1 + c.2.2.1, acc.2.2 + c.2.2.2)) ([], 0, 0)

/-- Elements written packed where `keep` lets them; in an MX format with the scale of each kept column. A granule written whole is
clean (R106). -/
def Module.putFid (m : Module) (o : Operand) (p : Packing) (es : List FidElem) (keep : Nat → Nat → Bool)
    (nib : Nat → Nat → Nat) : Module :=
  let kept := es.filter (fun e => keep e.row e.col)
  (kept.foldl (fun (m : Module) e =>
    let m := m.putPacked o p (nib e.row e.col) e.row e.col e.code false
    if p.fmt.isMx then
      m.storeAt o.job o.core o.buf.space (o.addr (o.start + p.scaleAt e.row e.col)) (leBytes 1 e.scale) false
    else m) m).cleanCovered o.job o.core o.buf.space (kept.flatMap (fun e => o.packAddrs p (nib e.row e.col) e.row e.col)) []

/-- DETECT (R143, R144): the masks of the tiles that the elements touch, from the encoded values; in an MX format the two
blocks of a pair are marked alike. -/
def detectMask (p : Packing) (es : List FidElem) (t : Nat) : Nat :=
  let live := es.filter (fun e => p.tileOf e.row e.col == t && !zeroCode p.fmt e.code || (p.tileOf e.row e.col == t && e.scale == 0xFF))
  maskOf ((live.flatMap (fun e =>
    let b := maskBit e.row e.col
    if p.fmt.isMx then [16 * (b / 16) + b % 8, 16 * (b / 16) + 8 + b % 8] else [b])).eraseDups)

/-- The elements of a tile of a detected tensor as they are stored, in the `n` rows from row `base` on. -/
def Module.storedFid (m : Module) (o : Operand) (p : Packing) (t base n : Nat) : List FidElem :=
  let k0 := t % max 1 p.kt * 128
  let n0 := t / max 1 p.kt * 128
  ((List.range 128).filter (fun k => decide (base ≤ k0 + k) && decide (k0 + k < base + n))).flatMap (fun k =>
    (List.range 128).filterMap (fun c => (m.packCode o p (k0 + k) (n0 + c)).map (fun x =>
      { row := k0 + k, col := n0 + c, code := x,
        scale := if p.fmt.isMx then m.opByte o (p.scaleAt (k0 + k) (n0 + c)) else 0 })))

/-- The absent blocks of a tile that a store finds (R145): in the block rows that no earlier row of its instruction reaches, up to
the last row written, or to the tile's end where that is the instruction's last. -/
def absentBlocks (p : Packing) (mask t prior stop : Nat) : Nat :=
  let k0 := t % max 1 p.kt * 128
  ((List.range 64).filter (fun b => decide (prior ≤ k0 + 16 * (b / 8)) && decide (k0 + 16 * (b / 8) < stop) && !bitAt mask b)).length

/-- The store of an output under DETECT: present blocks packed from the start of each tile's space, padding as zero, and
the masks of the tiles written. Rows below `prior`, which earlier core tiles of the instruction wrote, keep their elements;
`final` where no row of the instruction follows. -/
def Module.storeDetect (m : Module) (o : Operand) (es : List FidElem) (prior : Nat) (final : Bool) : Module :=
  let p0 := m.packing o false (o.lay.axisPlan 1)
  let base := o.coords.getD 1 0
  let tiles := (es.map (fun e => p0.tileOf e.row e.col)).eraseDups
  let all := tiles.flatMap (fun t => m.storedFid o p0 t base prior) ++ es
  let masks := tiles.foldl (fun ms t => ms.take t ++ List.replicate (t - ms.length) 0 ++ [detectMask p0 all t] ++ ms.drop (t + 1)) p0.masks
  let p := { p0 with masks := masks }
  let m := tiles.foldl (fun (m : Module) t =>
    m.storeAt o.job o.core o.buf.space (o.addr (o.start + p.plane + 8 * t)) (leBytes 8 (masks.getD t 0)) false) m
  let m := tiles.foldl (fun (m : Module) t =>
    m.storeAt o.job o.core o.buf.space (o.addr (o.start + p.tileOff t)) (zeros (p.tileUnits (masks.getD t 0) * p.unitBytes)) false) m
  let stop := fun t => if final then (t % max 1 p.kt + 1) * 128 else es.foldl (fun n e => max n (e.row + 1)) 0
  (m.putFid o p all (fun k n => p.present k n) (fun _ _ => 0)).bump (odKey 0x3150 6)
    ((tiles.map (fun t => absentBlocks p (masks.getD t 0) t (base + prior) (stop t))).sum)

/-- The blocks that APPLY leaves out among those the elements touch (R145). -/
def droppedBlocks (p : Packing) (places : List (Nat × Nat)) : Nat :=
  ((places.filter (fun q => !p.present q.1 q.2)).map (fun q => (p.tileOf q.1 q.2, maskBit q.1 q.2))).eraseDups.length

/-- The store of an output under APPLY: only kept elements, at the tensor's own offsets. -/
def Module.storeApply (m : Module) (o : Operand) (es : List FidElem) : Module :=
  match (m.job o.job).maskEntry o with
  | none => m
  | some e =>
    let p := m.packing o (!e.meta24.isEmpty) (o.lay.axisPlan 1)
    (m.putFid o p es (fun k n => e.keeps p k n) (fun k n => e.nib p k n)).bump (odKey 0x3150 7)
      (droppedBlocks p (es.map (fun x => (x.row, x.col))))

/-- The scaled value that a store path or row engine writes: divided by the output tensor's exponent in force (R42, R46). -/
def Operand.unscale (o : Operand) (v : FVal) : FVal := v.scale (-o.exp)

/-- An output's in-extent elements converted and written, with saturations, non-finite values and the tensor's maximum
folded in (R43, R45, R48, R75, R143). `es` are in the writer's order, values real; rows below `prior` are the instruction's earlier
ones, and `final` tells that none follows. -/
def Module.writeOut (m : Module) (o : Operand) (es : List OutElem) (prior : Nat) (final : Bool) : Module :=
  let es := es.filter (fun e => o.inExtent [e.col, e.row])
  let mx := stepMax (es.map OutElem.val)
  let done := fun (m : Module) (sats nonfins : Nat) =>
    ((m.foldDesc o mx sats nonfins).bump (odKey 0x3140 1) sats).bump (odKey 0x3140 4) nonfins
  if o.ref.fid = 0 then
    let x := encodeElems o.fmt (o.standing (es.map (fun e => (o.elemOff [e.col, e.row], o.unscale e.val))))
    done (m.putEncoded o x false) x.sats x.nonfins
  else
    let f := fidEncode o (es.map (fun e => { e with val := o.unscale e.val }))
    done (if o.ref.fid = 1 then m.storeDetect o f.1 prior final else m.storeApply o f.1) f.2.1 f.2.2

/-! ### Weight-gradient slices (R244 to R247) -/

/-- The tensor whose grad_buf a buffer is (R188). -/
def Job.tensorOfGrad (b : Job) (buf : Nat) : Option Nat := indexOf (fun t => t.mode == 0 && t.gradBuf == buf && buf != 0) b.image.tensors

/-- A braid-8 slice from gradient elements (R54 to R56, R59, R61, R245) at offset 0. -/
def Job.slice (b : Job) (tensor core : Nat) (es : List (Nat × FVal)) : Slice :=
  let cs := es.map (fun e => (e.1, Fmt.braid8.encodeElem (e.2.scale (-(b.segExp tensor (e.1 / 4096))))))
  let segs := (es.map (fun e => e.1 / 4096)).eraseDups
  { tensor := tensor, elems := cs.map (fun c => (c.1, c.2.code)),
    maxExp := segs.filterMap (fun sg => (stepMax ((es.filter (fun e => e.1 / 4096 == sg)).map Prod.snd)).map (fun k => (sg, k))),
    sats := (cs.filter (fun c => c.2.sat)).foldl (fun (t : NatMap) c => t.add (c.1 / 4096) 1) [],
    core := core }

/-- Saturated elements of a slice. -/
def Slice.satTotal (s : Slice) : Nat := (s.sats.map Prod.snd).sum

/-- Non-finite elements of a slice (R59). -/
def Slice.nonfin (s : Slice) : Nat := s.elems.countP (fun e => e.2 == 0x80)

/-- The code of an element that no gradient value travels for (R139, R280): every element of a slice's tile is covered, and
those that APPLY leaves out carry this mark instead of a code. -/
def noCode : Nat := 0x100

/-- Where a segment of a tensor lies in the buckets (R298): its bucket and its number there. -/
def segPlaceFrom (tensor seg : Nat) : List ReduceEntry → List (Nat × Nat) → Option (Nat × Nat)
  | [], _ => none
  | e :: es, at_ =>
    let n := (at_.lookup e.bucket).getD 0
    if e.tensor = tensor && decide (e.firstSeg ≤ seg) && decide (seg < e.firstSeg + e.segCount) then
      some (e.bucket, n + (seg - e.firstSeg))
    else segPlaceFrom tensor seg es [(e.bucket, n + e.segCount)]

/-- The bucket and the segment number of a segment of a tensor of a job. -/
def Job.segPlace (b : Job) (tensor seg : Nat) : Option (Nat × Nat) :=
  b.prog.reduce.bind (fun r => segPlaceFrom tensor seg r.entries [])

/-- Whether the staging slot of a bucket still holds an earlier one (R300). -/
def Job.slotHeld (b : Job) (bucket : Nat) : Bool :=
  match b.prog.reduce with
  | none => false
  | some r =>
    (List.range bucket).any (fun k => k % max 1 r.stagingCount == bucket % max 1 r.stagingCount &&
      ((b.run.buckets[k]?).map Bucket.state).getD 4 != 4)

/-- Whether a slice of these gradient elements must wait for a staging slot (R300). -/
def Module.sliceWaits (m : Module) (j tensor : Nat) (elems : List Nat) : Bool :=
  m.inRope j && ((elems.map (· / 4096)).eraseDups).any (fun sg =>
    (((m.job j).segPlace tensor sg).map (fun p => (m.job j).slotHeld p.1)).getD false)

/-- The same for an output. -/
def Module.outWaits (m : Module) (o : Operand) (es : List OutElem) : Bool :=
  match (m.job o.job).tensorOfGrad o.ref.buf with
  | none => false
  | some t => m.sliceWaits o.job t ((es.filter (fun e => o.inExtent [e.col, e.row])).map (fun e => o.byteOff (o.elemOff [e.col, e.row])))

/-- A weight-gradient output released (R245): only in-extent elements travel, and under APPLY only present blocks and kept
positions (R139); the maxima and counts of the conversion come before the compressor (R145). -/
def Module.releaseSlice (m : Module) (o : Operand) (es : List OutElem) : Module :=
  let b := m.job o.job
  match b.tensorOfGrad o.ref.buf with
  | none => m
  | some t =>
    let es := es.filter (fun e => o.inExtent [e.col, e.row])
    let mx := stepMax (es.map OutElem.val)
    let entry := if o.ref.fid = 2 then b.maskEntry o else none
    let p := m.packing o (entry.any (fun e => !e.meta24.isEmpty)) (o.lay.axisPlan 1)
    let at_ := fun (e : OutElem) => o.byteOff (o.elemOff [e.col, e.row])
    let left := match entry with
      | none => []
      | some e => (es.filter (fun x => !e.keeps p (o.place x).1 (o.place x).2)).map at_
    let drop := if entry.isSome then droppedBlocks p (es.map o.place) else 0
    let s := b.slice t o.core (es.map (fun e => (at_ e, e.val)))
    let sent := { s with elems := s.elems.map (fun x => if left.contains x.1 then (x.1, noCode) else x) }
    let m := m.onRun o.job (fun r => { r with slices := r.slices ++ [sent] })
    (((((m.foldDesc o mx s.satTotal s.nonfin).bump (odKey 0x7120 4) s.satTotal).bump (odKey 0x3140 1) s.satTotal).bump
      (odKey 0x7120 5) sent.nonfin).bump (odKey 0x3140 4) s.nonfin).bump (odKey 0x3150 7) drop

/-! ### The checks at the commit of a core tile -/

/-- The accumulators of a core tile row by row. -/
def Tile.rowVals (t : Tile) (kind : PairKind) : List (List FVal) :=
  (List.range t.rows.length).map (fun r => (slice t.acc (r * t.cols.length) t.cols.length).map (accValue kind))

/-- The two differences of R78 of a row. DESIGN CHOICE (log entry 23): the compare sums, whose rounding R78 only bounds, are formed
exactly. -/
def rowDiffs (vals : List FVal) (c : RowCheck) : FVal × FVal :=
  ((weightedSum false vals).sub c.c0, (weightedSum true vals).sub c.c1)

/-- Whether a row is not compared (R79): a non-finite value or a clamped partial sum in any of its 130 accumulator columns. -/
def rowUnchecked (vals : List FVal) (c : RowCheck) : Bool := vals.any (fun v => !v.isFin) || !c.c0.isFin || !c.c1.isFin || c.clamped

/-- Whether a row fails its checksum compare (R78, R79). A difference above the exact tolerance may still pass: the lane's
magnitude is an upper bound whose excess the spec leaves open. -/
def rowFails (kind : PairKind) (k guard free row : Nat) (vals : List FVal) (c : RowCheck) : Bool :=
  let d := rowDiffs vals c
  let t0 := tolerance kind k guard c.m0
  let t1 := tolerance kind k guard c.m1
  !rowUnchecked vals c && (!(d.1.abs.le t0) || !(d.2.abs.le t1)) && !(!t0.isZero && Config.laneSlack free row)

/-- The first row of a core tile that fails. -/
def Module.failingRow (m : Module) (t : Tile) (kind : PairKind) : Option (Nat × List FVal × RowCheck) :=
  let guard := (m.job t.inst.job).run.latch.get (odKey 0x3120 1)
  (findFrom (fun p : Nat × List FVal × RowCheck => rowFails kind t.k guard m.freeNo p.1 p.2.1 p.2.2)
    ((List.range t.rows.length).zip ((t.rowVals kind).zip t.checks)) 0).map Prod.snd

/-- The rows of a core tile that commit unchecked. -/
def Tile.uncheckedRows (t : Tile) (kind : PairKind) : Nat :=
  ((t.rowVals kind).zip t.checks).countP (fun p => rowUnchecked p.1 p.2)

/-- The physical array of a logical one (R70). -/
def physicalArray (fu : Fuses) (g logical : Nat) : Nat :=
  let nib := field (fu.arrayMap.getD (dieOf g) 0) (4 * (g % 8)) 4
  (setBits nib 4).getD logical logical

/-- The logical array that computed a row of a core tile (R69). -/
def Tile.logical (t : Tile) (local_ : Nat) : Nat := local_ / max 1 t.perArray

/-- A difference in a record: FP32 bits, or 64-bit two's complement for INT8 (DEDUCED). -/
def diffWord (kind : PairKind) (v : FVal) : Nat := if kind = .int8 then unsigned 64 (roundInt v) else toF32 v

/-- The instruction of a core's tiles ends without their commits; their slots stay EMPTY (R74). -/
def Module.dropTiles (m : Module) (g : Nat) : Module :=
  m.onCore g (fun c => { c.spoil (c.tiles.flatMap Tile.places) with tiles := [] })

/-- A CHECK_MISMATCH at a commit (R76, R80, R477): no commit, the instruction ends and the core is to be fenced. -/
def Module.mismatch (fu : Fuses) (m : Module) (i : Inst) : Module :=
  ((((m.blame i).dropTiles i.core).instrDone fu i stCheck).askFence i.core stCheck)

/-- A checksum mismatch (R80): its record, then R76. The poison of the same core tile goes into the same record. -/
def Module.checksumFail (fu : Fuses) (m : Module) (t : Tile) (kind : PairKind) (row : Nat) (vals : List FVal) (c : RowCheck) : Module :=
  let i := t.inst
  let b := m.job i.job
  let d := rowDiffs vals c
  (((m.bump (odKey 0x3120 2) 1).event fu 0x0310
    ([i.job, i.core, physicalArray fu i.core (t.logical row), t.rows.getD row 0, diffWord kind d.1,
      diffWord kind d.2, unsigned 64 (suspectColumn d.1 d.2), b.step] ++ (if t.poisoned then [stPoison] else [])))).mismatch fu i

/-! ### Duplicate execution (R474 to R477) -/

/-- The first element whose check-lane copy differs from the first copy (R476), with the other copy's value. -/
def dupDiff (us : List Upset) (codes : List (Int × Nat)) : Option (Nat × Nat × Nat) :=
  (us.filterMap (fun u => match u with
    | .dup n other =>
      match codes[n]? with
      | some c => if c.2 = other then none else some (n, c.2, other)
      | none => none
    | _ => none)).head?

/-- A duplicate's mismatch (R477); the poison of the same core tile goes into the same record (R76). -/
def Module.dupFail (fu : Fuses) (m : Module) (t : Tile) (d : Nat × Nat × Nat) : Module :=
  let i := t.inst
  let b := m.job i.job
  let l := t.logical (d.1 / max 1 t.cols.length)
  (((m.bump (odKey 0x3120 8) 1).event fu 0x0314
    ([i.job, b.step, i.core, physicalArray fu i.core l, physicalArray fu i.core ((l + 1) % max 1 b.image.arrays), d.1,
     d.2.1, d.2.2] ++ (if t.poisoned then [stPoison] else [])))).mismatch fu i

/-! ### What a core tile writes -/

/-- The real values of a core tile in writing order (R42, R222): acc × 2^(sa + sb), +0 for a skipped or sampled stretch
(R348). -/
def Module.tileElems (m : Module) (t : Tile) (kind : PairKind) : List OutElem :=
  let ws := t.inst.words
  let expOf := fun w => ((m.operand t.inst w false 0).map Operand.exp).getD 0
  let e := expOf (hiOf ws 2) + expOf (loOf ws 2)
  (t.rows.zipIdx).flatMap (fun r => (t.cols.zipIdx).map (fun c =>
    { row := r.1, col := c.1,
      val := if t.skipped || t.sampled then fZero
             else (accValue kind (t.acc.getD (r.2 * t.cols.length + c.2) 0)).scale e }))

/-- The converted codes of a core tile's in-extent elements, which the check lane repeats (R476). -/
def Module.tileCodes (m : Module) (t : Tile) (kind : PairKind) (o : Operand) : List (Int × Nat) :=
  let es := (m.tileElems t kind).filter (fun e => o.inExtent [e.col, e.row])
  if o.fmt = .braid8 then
    let b := m.job o.job
    match b.tensorOfGrad o.ref.buf with
    | none => []
    | some ten => (b.slice ten o.core (es.map (fun e => (o.byteOff (o.elemOff [e.col, e.row]), e.val)))).elems.map (fun x => ((x.1 : Int), x.2))
  else (encodeElems o.fmt (o.standing (es.map (fun e => (o.elemOff [e.col, e.row], o.unscale e.val))))).codes

/-- The elements that a core tile's store path merges at one address (R223). DESIGN CHOICE (log entry 23): R223 does not say how
elements that meet are counted; each one beyond the first at an address counts. -/
def Module.mergedElems (m : Module) (t : Tile) (kind : PairKind) (o : Operand) : Nat :=
  let offs := ((m.tileElems t kind).filter (fun e => o.inExtent [e.col, e.row])).map (fun e => o.elemOff [e.col, e.row])
  offs.length - offs.eraseDups.length

/-- The committed values of a core tile's elements: converted, in an MX format with their block's scale, and read back (R347, R348). -/
def Operand.committed (o : Operand) (es : List OutElem) : List (OutElem × FVal) :=
  let at_ := fun (e : OutElem) => o.elemOff [e.col, e.row]
  let x := encodeElems o.fmt (o.standing (es.map (fun e => (at_ e, o.unscale e.val))))
  es.map (fun e =>
    let c := (x.codes.lookup (at_ e)).getD 0
    (e, (if o.fmt.isMx then o.fmt.decodeMx ((x.scales.lookup (32 * (at_ e / 32))).getD 0) c else o.fmt.decodeElem c).scale o.exp))

/-- The mask bits that a score instruction's core tile writes (R347): a column's bit is 1 when its largest committed score
is at least τ or any of them is NaN. -/
def scoreBits (tau : FVal) (cols : List Nat) (es : List OutElem) (o : Operand) : Nat :=
  let cs := o.committed es
  maskOf ((cols.zipIdx).filterMap (fun c =>
    let vs := (cs.filter (fun e => e.1.col == c.1)).map Prod.snd
    if vs.any (fun v => v == .nan || tau.le v) then some c.2 else none))

/-- The mask words of a score core tile stored (R347). -/
def Module.storeMask (m : Module) (t : Tile) (pr : Predictor) (bits : Nat) : Module :=
  let i := t.inst
  let b := m.job i.job
  let base := ((b.image.buffers[pr.maskBuf]?).map Buffer.base).getD 0
  let gmax := groupCountOf (readShape (hiOf i.words 4)).plan b.image.arrays
  let si := t.cols.headD 0 / 128
  let a := base + 8 * ((i.problem * gmax + t.group) * 4 + 2 * si)
  m.storeAt i.job i.core 2 a (leBytes (if t.n ≤ 128 then 32 else 16) bits) false

/-- What a sample of an up projection shows (R348, R349): a misprediction is counted and, under EXACT, its problem's
replay word is written. -/
def Module.checkSample (fu : Fuses) (m : Module) (t : Tile) (kind : PairKind) (o : Operand) : Module :=
  let i := t.inst
  let b := m.job i.job
  match ((b.prog.experts.map Experts.preds).getD []).find? (fun p => p.upBuf == o.ref.buf) with
  | none => m
  | some pr =>
    let m := m.bump (odKey 0x3260 4) 1
    let es := (m.tileElems { t with sampled := false } kind).filter (fun e => o.inExtent [e.col, e.row])
    if !(o.committed es).any (fun e => (ofF32 pr.activeLevel).lt e.2) then m
    else
      let m := m.bump (odKey 0x3260 5) 1
      if pr.mode != 2 then m
      else
        let a := pr.replayBase + 4 * i.problem
        let first := leNat (m.bytesAt i.job i.core 2 a 4) == 0
        let m := m.storeAt i.job i.core 2 a (leBytes 4 t.m) false
        if first then
          (m.bump (odKey 0x3260 6) 1).event fu 0x0372 [i.job, pr.layerId, i.problem, t.group, t.cols.headD 0 / 128]
        else m

/-- The counts of a core tile that commits: unchecked rows (R79) and duplicates (R476). -/
def Module.countTile (m : Module) (t : Tile) (kind : PairKind) (dup : Bool) : Module :=
  (m.bump (odKey 0x3120 3) (t.uncheckedRows kind)).bump (odKey 0x3120 7) (if dup then 1 else 0)

/-- The difference that a core tile's duplicate shows, where it is selected (R475 to R477). -/
def Module.dupMismatch (us : List Upset) (m : Module) (t : Tile) (kind : PairKind) (o : Operand) : Option (Nat × Nat × Nat) :=
  if m.dupSelected t && !t.skipped then dupDiff us (m.tileCodes t kind o) else none

/-- Whether a core tile holds the last in-extent row of its instruction. -/
def Module.endsRows (m : Module) (t : Tile) : Bool :=
  (m.operand t.inst (hiOf t.inst.words 2) false 0).all (fun a => (a.rowsIn t.m).getLast? == t.rows.getLast?)

/-- A core tile past its checks: its slots must be EMPTY (R74, R95) and its turn come, or the core waits; then it writes its
output, its slots become FULL together (R74), and the last one ends its instruction. -/
def Module.writeTile (fu : Fuses) (us : List Upset) (m : Module) (t : Tile) (rest : List Tile) (kind : PairKind) (o : Operand) : Module :=
  let i := t.inst
  let b := m.job i.job
  let wg := bitAt (wordAt i.words 5) 16
  let score := b.scorer o.ref.buf
  match m.tagWait i.core [] t.slots [] with
  | some w => m.hold i.core w
  | none =>
    if o.buf.combine != 0 && !m.hasTurn i o.ref.buf then m.hold i.core .turn
    else
      let dup := m.dupSelected t && !t.skipped
      match m.dupMismatch us t kind o with
      | some d => (m.bump (odKey 0x3120 7) 1).dupFail fu t d
      | none =>
        let es := m.tileElems t kind
        if wg && m.outWaits o es then m.hold i.core .turn
        else
        let m := if t.sampled then m.checkSample fu t kind o else m
        let m := match score with
          | some pr => m.storeMask t pr (scoreBits (ofF32 pr.tau) t.cols (es.filter (fun e => o.inExtent [e.col, e.row])) o)
          | none => if wg then m.releaseSlice o es
              else (m.writeOut o es (t.rows.headD 0) (m.endsRows t)).bump (odKey 0x3220 5) (m.mergedElems t kind o)
        let m := (m.countTile t kind dup).setFull i.core t.slots
        let m := m.onCore i.core (fun c => { c with tiles := rest })
        if t.last then (m.advance i).finish fu i stOk 0 0 else m

/-- The commit of a core's first core tile (R74 to R80): a stale answer is dropped, an invalid nibble ends it (R140), a failing
check row, a failing duplicate or poison keeps it from its commit, in the order of R14, and otherwise it writes. -/
def Module.commitTile (fu : Fuses) (us : List Upset) (m : Module) (g : Nat) : Module :=
  match (m.core g).tiles with
  | [] => m
  | t :: rest =>
    let i := t.inst
    if m.stale i then ((m.dropTiles g).dropStale fu i).settleCancel fu i.job
    else if t.invalid.isSome then (m.dropTiles g).finish fu i stMalformed (t.invalid.getD 0) 0
    else
      match m.operand i (hiOf i.words 2) false 0, m.operand i (loOf i.words 2) false 0, m.operand i (hiOf i.words 3) true 0 with
      | some a, some b, some o =>
        let kind := (pairKind a.fmt b.fmt).getD .float
        match m.failingRow t kind with
        | some r => m.nextFree.checksumFail fu t kind r.1 r.2.1 r.2.2
        | none =>
          if t.poisoned then
            match m.dupMismatch us t kind o with
            | some d => (m.nextFree.bump (odKey 0x3120 7) 1).dupFail fu t d
            | none => (m.nextFree.dropTiles g).finish fu i stPoison 0 0
          else m.nextFree.writeTile fu us t rest kind o
      | _, _, _ => m

/-- Whether core `g` can take the commit of a core tile. -/
def Module.canCommit (m : Module) (g : Nat) : Bool :=
  let c := m.core g
  c.live && c.fenceReq.isNone && !c.tiles.isEmpty && c.seq.wait.isNone && !c.turnHeld

/-- TILE_COMMIT: the happenings of the commit tail, then the commit of the core's first core tile. -/
def execTileCommit (g : Nat) (ups : List Upset) (s : State) : Host.Outcome State Fault Refusal :=
  s.actOn (g < 384) (fun fu m =>
    if !m.canCommit g then m
    else
      match (m.core g).tiles with
      | [] => m
      | t :: _ =>
        let r := m.meet fu t.inst ups
        if r.2 then r.1.commitTile fu ups g else if t.poisoned then r.1.hiddenPoison fu t.inst else r.1)

end Sys2Proof.Machine
end

