-- ==== Sys2Proof/Machine/Calib.lean ====
section
/-!
DEFINITION. Calibration (R471, R543 to R545): the factory values and their declared ranges, the effective values, and the user values
that a block takes up at its enable. The operands of the commands that report temperatures, voltages and currents are the figures
after their sensors' calibration (DEDUCED, log entry 2).
-/
namespace Sys2Proof.Machine

/-- The typical VCORE of each A point in mV, 2.1 GHz first (R504). -/
def typicalVcore : List Nat := [830, 770, 720, 660, 620]

/-- The design nominal of a factory calibration object (R545). -/
def calibNominal (i s : Nat) : Nat :=
  if 0x9100 ≤ i && i ≤ 0x912F then typicalVcore.getD (s - 1) 0 else if i = 0x9060 && s = 2 then 0x3F800000 else 0

/-- The group of a factory calibration object, as event 0x0901 and `badGroups` name it: its index. -/
def calibBad (fu : Fuses) (i : Nat) : Bool := fu.badGroups.contains i

/-- A factory calibration value (R545): the fused one, or the nominal where its group failed or none is fused. -/
def calibFactory (fu : Fuses) (i s : Nat) : Nat :=
  if calibBad fu i then calibNominal i s else (NatMap.find? fu.calib (odKey i s)).getD (calibNominal i s)

/-- The declared range of an integer factory calibration object (R544). -/
def calibRange (i s : Nat) : Int × Int :=
  if i < 0x9060 then (-256, 256)
  else if i = 0x9060 then (-500, 500)
  else if i < 0x9200 then ((typicalVcore.getD (s - 1) 0 : Int) - 50, (typicalVcore.getD (s - 1) 0 : Int) + 50)
  else if i < 0x9300 then (0, 4095)
  else if i < 0x9400 then (0, 31)
  else if s = 1 && 0x9430 ≤ i then (0, 0)
  else (-32, 32)

/-- The bits of a scalar type. -/
def typeBits (ty : Nat) : Nat := 8 * typeWidth ty

/-- The effective value of a calibration object: the factory value plus the user value, which is signed, an F32 rounded once
(R543). -/
def calibSum (ty f u : Nat) : Nat :=
  if ty = 6 then toF32 ((ofF32 f).add (ofF32 u))
  else unsigned (typeBits ty) ((if ty = 5 || ty = 9 then signed (typeBits ty) f else (f : Int)) + signed (typeBits ty) u)

/-- The user values of the factory objects at index `i` as they stand in force, taken up by the block that uses them (R543, R544). -/
def Module.latchCalib (m : Module) (i : Nat) : Module :=
  { m with calib := (List.range 16).foldl (fun (t : NatMap) k =>
      t.set (odKey (i + 0x800) (k + 1)) (NatMap.get m.od (odKey (i + 0x800) (k + 1)))) m.calib }

/-- The user values of several indices taken up. -/
def Module.latchAll (m : Module) (is : List Nat) : Module := is.foldl Module.latchCalib m

/-- The effective value that the block of a calibration object works with. -/
def Module.calibInUse (fu : Fuses) (m : Module) (ty i s : Nat) : Nat :=
  calibSum ty (calibFactory fu i s) (NatMap.get m.calib (odKey (i + 0x800) s))

/-- The indices of a die's objects: its sensors, the VCORE of its points and its clock trims (R544). -/
def dieCalib (d : Nat) : List Nat := [0x9000 + d, 0x9400 + d] ++ (if d < 48 then [0x9100 + d] else [])

/-- The index of a stack's sensor offset. -/
def stackCalib (p : Nat) : List Nat := [0x9040 + p]

/-- The indices of a hawser port's modulator bias and receiver seeds. -/
def portCalib (n : Nat) : List Nat := [0x9200 + n, 0x9300 + n]

/-- The index of a host port's receiver seeds. -/
def hostCalib (port : Nat) : List Nat := [0x9320 + port]

/-- The index of the input measurement. -/
def inputCalib : List Nat := [0x9060]

end Sys2Proof.Machine
end

