-- ==== Sys2Proof/Machine/Func.lean ====
section
/-!
DEFINITION. The arithmetic of the row engine (R154): FP32 operations with one rounding, sums in ascending order, and the
functions exp, log, reciprocal, reciprocal square root, tanh, erf and expm1, each the FP32 value nearest the exact result.
The transcendental ones are taken to more than 100 bits beyond FP32 in fixed point with 256 fraction bits, then rounded.
-/
namespace Sys2Proof.Machine

/-! ### FP32 operations -/

/-- An addition rounded once. -/
def fAdd (a b : FVal) : FVal := rnd (a.add b)

/-- A subtraction rounded once. -/
def fSub (a b : FVal) : FVal := rnd (a.sub b)

/-- A multiplication rounded once. -/
def fMul (a b : FVal) : FVal := rnd (a.mul b)

/-- One. -/
def fOne : FVal := fInt 1

/-- A sum of terms in order, one rounding per addition (R154). -/
def fSum : List FVal → FVal
  | [] => fZero
  | x :: xs => xs.foldl fAdd x

/-- The sum of products of two lists, term by term. -/
def fDot (a b : List FVal) : FVal := fSum ((a.zip b).map (fun p => fMul p.1 p.2))

/-- The larger of two values; a NaN on either side gives NaN (DEDUCED: the spec orders no NaN here). -/
def fMax (a b : FVal) : FVal := if a = .nan || b = .nan then .nan else if a.lt b then b else a

/-! ### Fixed point -/

/-- Fraction bits of the fixed-point numbers. -/
def fracBits : Nat := 256

/-- ln 2 in fixed point. -/
def lnTwo : Nat := 0xb17217f7d1cf79abc9e3b39803f2f6af40f343267298b62d8a0d175b8baafa2b

/-- 2 / sqrt π in fixed point. -/
def twoOverRootPi : Nat := 0x120dd750429b6d11ae3a914fed7fd8688281341d7587cea2e7342b06199cc4161

/-- The magnitude m × 2^e in fixed point, cut at the last fraction bit. -/
def toFixed (m : Nat) (e : Int) : Nat := if -256 ≤ e then m <<< (e + 256).toNat else m >>> (-256 - e).toNat

/-- Σ r^n / n! from term `t`, the `n`-th. -/
def expSeries (r : Nat) : Nat → Nat → Nat → Nat
  | 0, _, _ => 0
  | fuel + 1, t, n => t + expSeries r fuel (t * r / (2 ^ fracBits * (n + 1))) (n + 1)

/-- e^x for a fixed-point x: a mantissa with 256 fraction bits and a power of two. -/
def expFixed (x : Int) : Nat × Int :=
  let k := x / (lnTwo : Int)
  (expSeries (x - k * lnTwo).toNat 80 (2 ^ fracBits) 0, k)

/-- Σ z^(2n+1) / (2n+1) with alternating or equal signs is built from these terms: the power `p` = z^(2n+1). -/
def atanhSeries (z2 : Nat) : Nat → Nat → Nat → Nat
  | 0, _, _ => 0
  | fuel + 1, p, n => p / (2 * n + 1) + atanhSeries z2 fuel (p * z2 / 2 ^ fracBits) (n + 1)

/-- ln of m × 2^e, m above 0, in fixed point. -/
def lnFixed (m : Nat) (e : Int) : Int :=
  let n := Nat.log2 m
  let y := m <<< fracBits >>> n
  let big := decide (3 * 2 ^ fracBits ≤ 2 * y)
  let v := if big then y / 2 else y
  let ex : Int := e + n + (if big then 1 else 0)
  let d : Int := (v : Int) - ((2 ^ fracBits : Nat) : Int)
  let z := d.natAbs * 2 ^ fracBits / (v + 2 ^ fracBits)
  let s := 2 * atanhSeries (z * z / 2 ^ fracBits) 70 z 0
  ex * lnTwo + (if d < 0 then -(s : Int) else s)

/-- The alternating series Σ (−1)^n x^(2n+1) / (n! (2n+1)) from the power-over-factorial `p`. -/
def erfSeries (x2 : Nat) : Nat → Nat → Nat → Int
  | 0, _, _ => 0
  | fuel + 1, p, n => ((p / (2 * n + 1) : Nat) : Int) - erfSeries x2 fuel (p * x2 / (2 ^ fracBits * (n + 1))) (n + 1)

/-- A signed fixed-point number as a value. -/
def ofFixed (x : Int) : FVal := .fin (decide (x < 0)) x.natAbs (-256)

/-- |x| < 2^k for a finite value. -/
def below2 (m : Nat) (e k : Int) : Bool := m == 0 || decide ((Nat.log2 m : Int) + e < k)

/-! ### The functions -/

/-- What a function answers where the exact result is no real number and the spec states none: a fixed but unknown FP32
code for each function number and operand. -/
def openResult (f : Nat) (x : FVal) : FVal := ofF32 (Config.openFunc f (BitVec.ofNat 32 (toF32 x))).toNat

/-- exp. -/
def fExp : FVal → FVal
  | .nan => .nan
  | .inf s => if s then fZero else .inf false
  | .fin s m e =>
    if below2 m e (-30) then fOne
    else if !below2 m e 8 then (if s then fZero else ofF32 0x7F7FFFFF)
    else
      let x : Int := toFixed m e
      let r := expFixed (if s then -x else x)
      rnd (.fin false r.1 (r.2 - 256))

/-- log. The logarithm of zero or of a negative number has no exact result. -/
def fLog : FVal → FVal
  | .nan => .nan
  | .inf s => if s then openResult 1 (.inf true) else .inf false
  | .fin s m e => if s || m == 0 then openResult 1 (.fin s m e) else rnd (ofFixed (lnFixed m e))

/-- Reciprocal. The reciprocal of zero has no exact result. -/
def fRecip : FVal → FVal
  | .fin s m e => if m = 0 then openResult 2 (.fin s m e) else rnd (fOne.div (.fin s m e))
  | v => rnd (fOne.div v)

/-- Reciprocal square root. That of zero or of a negative number has no exact result. -/
def fRsqrt : FVal → FVal
  | .nan => .nan
  | .inf s => if s then openResult 3 (.inf true) else fZero
  | .fin s m e =>
    if s || m == 0 then openResult 3 (.fin s m e)
    else
      let odd := e % 2 != 0
      let m2 := if odd then 2 * m else m
      let e2 := if odd then e - 1 else e
      let p := 100 + Nat.log2 m2
      let r := isqrt (2 ^ (2 * p) / m2)
      let sticky := if r * r * m2 = 2 ^ (2 * p) then 0 else 1
      rnd (.fin false (2 * r + sticky) (-(p : Int) - 1 - e2 / 2))

/-- tanh. -/
def fTanh : FVal → FVal
  | .nan => .nan
  | .inf s => fInt (if s then -1 else 1)
  | .fin s m e =>
    if below2 m e (-30) then .fin s m e
    else if !below2 m e 4 then fInt (if s then -1 else 1)
    else
      let r := expFixed (2 * (toFixed m e : Int))
      let v : Nat := if 0 ≤ r.2 then r.1 <<< r.2.toNat else r.1 >>> (-r.2).toNat
      let q := rnd ((FVal.fin false (v - 2 ^ fracBits) 0).div (.fin false (v + 2 ^ fracBits) 0))
      if s then q.neg else q

/-- erf. -/
def fErf : FVal → FVal
  | .nan => .nan
  | .inf s => fInt (if s then -1 else 1)
  | .fin s m e =>
    if m = 0 then .fin s m e
    else if !below2 m e 3 then fInt (if s then -1 else 1)
    else
      let x := toFixed m e
      let v := rnd (ofFixed (erfSeries (x * x / 2 ^ fracBits) 400 x 0 * twoOverRootPi / ((2 ^ fracBits : Nat) : Int)))
      if s then v.neg else v

/-- expm1. -/
def fExpm1 : FVal → FVal
  | .nan => .nan
  | .inf s => if s then fInt (-1) else .inf false
  | .fin s m e =>
    if below2 m e (-30) then .fin s m e
    else if !below2 m e 8 then (if s then fInt (-1) else ofF32 0x7F7FFFFF)
    else
      let x : Int := toFixed m e
      let r := expFixed (if s then -x else x)
      rnd ((FVal.fin false r.1 (r.2 - 256)).sub fOne)

end Sys2Proof.Machine
end

