-- ==== Sys2Proof/Machine/Splice.lean ====
section
/-!
DEFINITION. The splice engine (R123 to R149): the index pass and its policies, GATHER, SCATTER, SCATTER_ADD, EXPAND and
COMPRESS of packed tiles, TRANSPOSE, and the commit of a gather whose source lies outside the scratchpad (R131).
-/
namespace Sys2Proof.Machine

/-! ### The index pass (R125 to R129) -/

/-- What an index entry resolves to (R127). -/
inductive Resolved where
  | row (r : Nat)
  | null
  | bad
  deriving DecidableEq, Repr

/-- The resolution of an entry against the extent under a policy (R127): 0 FAULT, 1 WRAP, 2 ZERO. -/
def resolveIndex (policy extent : Nat) (i : Int) : Resolved :=
  if 0 ≤ i then (if i < (extent : Int) then .row i.toNat else .bad)
  else if policy = 1 then (if -(extent : Int) ≤ i then .row (i + extent).toNat else .bad)
  else if policy = 2 then .null
  else .bad

/-- The row of a resolved entry. -/
def Resolved.row? : Resolved → Option Nat
  | .row r => some r
  | _ => none

/-- The byte offset within its half of an operand's first row: its base, moved by the entry's coordinates where its
descriptor has them (R125, R227). -/
def Operand.rowBase (o : Operand) : Nat := o.byteOff (o.elemOff [])

/-- How many of the first `n` entries of an index tensor its descriptor has in extent (R219): DEDUCED (log entry 23), entry k is
element k of axis 0, or of axis 1 where no dimension carries axis 0. -/
def Operand.entries (o : Operand) (n : Nat) : Nat :=
  ((List.range n).takeWhile (fun k => o.inExtent (if o.lay.dims.any (fun d => d.axis == 0) then [k] else [0, k]))).length

/-- The index tensor as integers (R125). -/
def Module.indexVals (m : Module) (o : Operand) (n : Nat) : List Int :=
  (List.range n).map (fun k => signed 32 (leNat (m.bytesAt o.job o.core o.buf.space (o.addr (o.rowBase + 4 * k)) 4)))

/-- Bytes of an element of a row; the rows' formats have whole bytes (R124). -/
def Operand.width (o : Operand) : Nat := max 1 (o.fmt.bits / 8)

/-- Whether byte `k` of row `r` belongs to an element in extent (R219). -/
def Operand.byteIn (o : Operand) (r k : Nat) : Bool := o.inExtent [k / o.width, r]

/-- The granules of row `r` that hold an element in extent (R219, R220). -/
def Operand.rowGranules (o : Operand) (rb r : Nat) : List Nat :=
  (List.range (rb / 32)).filter (fun q => (List.range (32 / o.width)).any (fun c => o.byteIn r (32 * q + o.width * c)))

/-- The bytes of row `r` of an operand at its row length (R125), as they are stored. -/
def Module.rawRow (m : Module) (o : Operand) (rb r : Nat) : List Byte :=
  m.bytesAt o.job o.core o.buf.space (o.addr (o.rowBase + r * rb)) rb

/-- The bytes of row `r` with zeros for the elements out of an operand's extent. -/
def Operand.maskRow (o : Operand) (r : Nat) (bs : List Byte) : List Byte :=
  (bs.zipIdx).map (fun b => if o.byteIn r b.2 then b.1 else 0)

/-- Row `r` of an operand with zeros for the elements out of extent, which are not read (R220). -/
def Module.rowAt (m : Module) (o : Operand) (rb r : Nat) : List Byte := o.maskRow r (m.rawRow o rb r)

/-- The poison bits of the granules of row `r`; a granule with no element in extent is not read. -/
def Module.rowPoison (m : Module) (o : Operand) (rb r : Nat) : List Bool :=
  (List.range (rb / 32)).map (fun k => (o.rowGranules rb r).contains k &&
    m.poisonAt o.job o.core o.buf.space (o.addr (o.rowBase + r * rb) + 32 * k) 32)

/-- The slots of the in-extent elements of rows of an operand. -/
def Operand.rowSlots (o : Operand) (rb : Nat) (rows : List Nat) : List Nat :=
  (rows.flatMap (fun r => (o.rowGranules rb r).flatMap (fun q => o.byteSlots (o.rowBase + r * rb + 32 * q) 32))).eraseDups

/-- Row reads saved by coalescing (R129): positions that name a row already named in their window of 64. -/
def coalesced (rs : List Resolved) : Nat :=
  let named := (rs.zipIdx).filterMap (fun p => p.1.row?.map (fun r => (p.2 / 64, r)))
  named.length - named.eraseDups.length

/-- A row with the poison bits of its granules. -/
abbrev Row := List Byte × List Bool

/-- A row of zeros. -/
def zeroRow (rb : Nat) : Row := (zeros rb, List.replicate (rb / 32) false)

/-- The elements of a row of 4-byte values summed under a format: INT32 or FP32 with one rounding, clamped (R128, R41);
with the clamps. -/
def addRows (int : Bool) : List Byte → List Byte → Nat → List Byte × Nat
  | _, _, 0 => ([], 0)
  | a, b, n + 1 =>
    let x := leAt a 0 4
    let y := leAt b 0 4
    let r := if int then
        let s := addI32 (signed 32 x, 0) (signed 32 y)
        (unsigned 32 s.1, s.2)
      else
        let c := fmtF32.encode ((ofF32 x).add (ofF32 y))
        (c.code, if c.sat then 1 else 0)
    let rest := addRows int (a.drop 4) (b.drop 4) n
    (leBytes 4 r.1 ++ rest.1, r.2 + rest.2)

/-- One granule `q` of row `r` of a destination stored: its in-extent elements alone are written (R220). It carries the poison of
what is written, and the stored poison where the buffer sums or an element keeps its bytes (R106, R186). -/
def Module.putGranule (m : Module) (o : Operand) (rb r : Nat) (bytes : List Byte) (q : Nat) (bad : Bool) : Module :=
  let a := o.addr (o.rowBase + r * rb + 32 * q)
  let old := m.bytesAt o.job o.core o.buf.space a 32
  let whole := (List.range 32).all (fun k => o.byteIn r (32 * q + k))
  let new := (old.zipIdx).map (fun b => if o.byteIn r (32 * q + b.2) then bytes.getD (32 * q + b.2) 0 else b.1)
  m.storeAt o.job o.core o.buf.space a new
    (bad || ((o.buf.combine == 2 || !whole) && m.poisonAt o.job o.core o.buf.space a 32))

/-- The clamped sums of a row added to the stored one, of the granules whose data and stored bytes carry no poison (R41, R45). -/
def Module.rowClamps (m : Module) (o : Operand) (rb r : Nat) (row : Row) : Nat :=
  let old := m.rowPoison o rb r
  (((row.2.zip old).zipIdx).map (fun p => if p.1.1 || p.1.2 then 0
    else (addRows (o.buf.fmt == 5) (slice (m.rowAt o rb r) (32 * p.2) 32) (slice (o.maskRow r row.1) (32 * p.2) 32) 8).2)).sum

/-- A row of a destination stored granule by granule with its poison; where the buffer sums, it is added to the stored row, and
the clamped sums are counted (R186, R41). -/
def Module.putRow (m : Module) (o : Operand) (rb r : Nat) (row : Row) : Module :=
  let sum := if o.buf.combine = 2 then (addRows (o.buf.fmt == 5) (m.rowAt o rb r) (o.maskRow r row.1) (rb / 4)).1 else row.1
  let clamps := if o.buf.combine = 2 then m.rowClamps o rb r row else 0
  let m := (row.2.zipIdx).foldl (fun (m : Module) p =>
    if (o.rowGranules rb r).contains p.2 then m.putGranule o rb r sum p.2 p.1 else m) m
  if clamps = 0 then m else m.bump (odKey 0x3140 3) clamps

/-! ### Instruction fields -/

/-- The shape fields of a SPLICE instruction (R194): n, e, t. -/
def spliceShapes (ws : Words) : List Shape := [readShape (hiOf ws 4), readShape (loOf ws 4), readShape (hiOf ws 5)]

/-- The operand references of a SPLICE instruction: index, source, base, destination. -/
def spliceRefs (ws : Words) : List Nat := [hiOf ws 2, loOf ws 2, hiOf ws 3, loOf ws 3]

/-- The commit of an instruction of the splice or row engine (R130, R156): its destination slots become FULL together, its
consumed slots EMPTY, and it ends OK; the rows in remap among the slots that it `reads` have paid their stall (R110). -/
def Module.engineCommit (fu : Fuses) (m : Module) (i : Inst) (reads full consume : List Nat) : Module :=
  ((((m.remapReads i.core reads).setEmpty i.core consume).setFull i.core full).advance i).finish fu i stOk 0 0

/-- An instruction of the splice or row engine that ends POISON without its commit (R132, R154). -/
def Module.enginePoison (fu : Fuses) (m : Module) (i : Inst) : Module := m.finish fu i stPoison 0 0

/-- The start of an index operation: it waits for its index slots, ends POISON or BAD_INDEX (R127, R132), or goes on with
the resolved entries. -/
def Module.indexPass (fu : Fuses) (m : Module) (i : Inst) (ix : Option Operand) (n e : Nat)
    (body : Module → List Resolved → Module) : Module :=
  let sw := readSplice i.words
  match ix with
  | none => if n = 0 then body m [] else m.issueFail fu i { status := stMalformed, value := 0, plan := 0 }
  | some o =>
    match m.tagWait i.core (o.byteSlots o.rowBase (4 * n)) [] [] with
    | some w => m.hold i.core w
    | none =>
      if m.poisonAt i.job i.core o.buf.space (o.addr o.rowBase) (4 * n) then m.enginePoison fu i
      else
        let vals := m.indexVals o n
        let rs := vals.map (resolveIndex sw.neg e)
        match findFrom (fun r => r == Resolved.bad) rs 0 with
        | some p =>
          ((m.bump (odKey 0x3150 1) 1).event fu 0x0321
            [i.job, i.core, p.1, unsigned 64 (vals.getD p.1 0), e, sw.neg]).issueFail fu i
            { status := stBadIndex, value := unsigned 32 (vals.getD p.1 0), plan := e }
        | none => body m rs

/-- The counts of an index pass that every entry passed (R127). -/
def Module.countIndex (m : Module) (vals : List Int) (rs : List Resolved) : Module :=
  (m.bump (odKey 0x3150 2) ((vals.zip rs).filter (fun p => decide (p.1 < 0) && p.2.row?.isSome)).length).bump
    (odKey 0x3150 3) (rs.filter (fun r => r == Resolved.null)).length

/-- The index slots, and whether the instruction consumes them. -/
def indexSlots (ix : Option Operand) (n : Nat) : List Nat :=
  match ix with
  | none => []
  | some o => o.byteSlots o.rowBase (4 * n)

/-- The entries of an index operand that are read (R219). -/
def entriesOf (ix : Option Operand) (n : Nat) : Nat :=
  match ix with
  | none => n
  | some o => o.entries n

/-- Positions that each window of 64 keeps (R129): the highest that names a row in it. -/
def windowLast (rs : List Resolved) : List Nat :=
  ((rs.zipIdx).filter (fun p => p.1.row?.isSome &&
    !(rs.zipIdx).any (fun q => q.1 == p.1 && q.2 / 64 == p.2 / 64 && decide (p.2 < q.2)))).map Prod.snd

/-- The rows that a gather reads, once each in their windows (R129). -/
def windowReads (rs : List Resolved) : List Nat :=
  (((rs.zipIdx).filterMap (fun p => p.1.row?.map (fun r => (p.2 / 64, r)))).eraseDups).map Prod.snd

/-- The HBM byte ranges of the rows that a gather reads, once each in their windows. -/
def rowRanges (m : Module) (src : Operand) (rb : Nat) (rs : List Resolved) : List (Nat × Nat) :=
  if src.buf.space != 2 then []
  else (windowReads rs).map (fun k => (m.physAddr src.job src.core 2 (src.addr (src.rowBase + k * rb)), rb))

/-- The reads of a gather from HBM: those that return poison (R361), and rows of 32 bytes on the narrow path (R131, R363); from
cluster memory, the rows in remap (R109). -/
def Module.gatherReads (fu : Fuses) (m : Module) (src : Operand) (rb : Nat) (rs : List Resolved) : Module :=
  if src.buf.space = 1 then m.clusterReads src.job src.core ((windowReads rs).map (fun k => (src.addr (src.rowBase + k * rb), rb)))
  else if src.buf.space != 2 then m
  else
    (rowRanges m src rb rs).foldl (fun (m : Module) r => m.request fu src.job r.1 r.2) m

/-- Holds the core for a combine turn, or goes on. -/
def Module.withTurn (m : Module) (i : Inst) (o : Operand) (body : Module → Module) : Module :=
  if o.buf.combine != 0 && !m.hasTurn i o.ref.buf then m.hold i.core .turn else body m

/-! ### GATHER (R127 to R131) -/

/-- The rows a gather delivers: row j is a copy of the row that entry j names, or zeros for a null entry. -/
def Module.gatherRows (m : Module) (src : Operand) (rb : Nat) (rs : List Resolved) : List Row :=
  rs.map (fun r => match r.row? with
    | some k => (m.rowAt src rb k, m.rowPoison src rb k)
    | none => zeroRow rb)

/-- A gather past its index pass. With src_mem the rows are on their way and commit later (R131). -/
def Module.gatherData (fu : Fuses) (m : Module) (i : Inst) (ix : Option Operand) (src dst : Operand) (n : Nat)
    (rs : List Resolved) : Module :=
  let sw := readSplice i.words
  let rb := sw.rowBytes
  let used := (rs.filterMap Resolved.row?).eraseDups
  let srcSlots := if sw.srcMem then [] else src.rowSlots rb used
  let dstSlots := dst.rowSlots rb (List.range n)
  let consume := (if sw.idxKeep then [] else indexSlots ix n) ++ (if sw.srcKeep then [] else srcSlots)
  match m.tagWait i.core (indexSlots ix n ++ srcSlots) dstSlots consume with
  | some w => m.hold i.core w
  | none =>
    let vals := (ix.map (fun o => m.indexVals o n)).getD []
    let rows := m.gatherRows src rb rs
    let counted := fun (m : Module) => (m.countIndex vals rs).bump (odKey 0x3150 4) (coalesced rs)
    if sw.srcMem then
      let cells := (rows.zipIdx).flatMap (fun p => ((p.1.1.zipIdx).filter (fun b => dst.byteIn p.2 b.2)).map (fun b =>
        (dst.addr (dst.rowBase + p.2 * rb + b.2), b.1)))
      let bads := (rows.zipIdx).flatMap (fun p => (p.1.2.zipIdx).filterMap (fun b =>
        if b.1 then some (dst.addr (dst.rowBase + p.2 * rb + 32 * b.2) / 32) else none))
      (((((counted m).gatherReads fu src rb rs).remapReads i.core (indexSlots ix n)).setEmpty i.core consume).onCore i.core (fun c => { c with
        gathers := c.gathers ++ [{ inst := i, reads := rowRanges m src rb rs, writes := cells, poison := bads, slots := dstSlots, waits := false }] })).advance i
    else
      m.withTurn i dst (fun m =>
        ((rows.zipIdx).foldl (fun (m : Module) p => m.putRow dst rb p.2 p.1) (counted m)).engineCommit fu i (indexSlots ix n ++ srcSlots) dstSlots consume)

/-- GATHER at its core. -/
def Module.gatherAt (fu : Fuses) (us : List Upset) (m : Module) (i : Inst) : Module :=
  let ws := i.words
  m.withShapes fu us (spliceShapes ws) (spliceRefs ws) i (fun m i =>
    let n := m.shapeOf i (readShape (hiOf ws 4))
    let e := m.shapeOf i (readShape (loOf ws 4))
    if n = 0 then m.emptyOp fu i
    else
      let ix := m.operand i (hiOf ws 2) false 0
      m.indexPass fu i ix (entriesOf ix n) e (fun m rs =>
        match m.operand i (loOf ws 2) false 0, m.operand i (loOf ws 3) true 0 with
        | some src, some dst => m.gatherData fu i ix src dst (entriesOf ix n) rs
        | _, _ => m.issueFail fu i { status := stMalformed, value := 0, plan := 0 }))

/-- The class and operation of a row of the splice engine. -/
def isSplice (op : Nat) (ws : Words) : Bool := classOf ws == 2 && (readSplice ws).op == op

/-- GATHER. -/
def execGather (g : Nat) (ups : List Upset) (s : State) : Host.Outcome State Fault Refusal :=
  s.actOn (g < 384) (fun fu m => m.issueRow fu g (isSplice 1) ups (fun m i => m.gatherAt fu ups i))

/-- One 4-byte element of a gather added to the stored one (R186), with its clamp counted unless it is poisoned (R45). -/
def Module.sumCells (m : Module) (i : Inst) (u : Buffer) (poison : List Nat) (q : List Host.Cell) : Module :=
  match q with
  | [] => m
  | c :: _ =>
    let s := addRows (u.fmt == 5) (m.bytesAt i.job i.core u.space c.1 4) (q.map Prod.snd) 1
    let bad := poison.contains (c.1 / 32) || m.poisonAt i.job i.core u.space c.1 4
    let m := m.storeAt i.job i.core u.space c.1 s.1 bad
    if s.2 = 0 || bad then m else m.bump (odKey 0x3140 3) s.2

/-- The rows of a gather written under its buffer's combine mode. -/
def Module.putGather (m : Module) (i : Inst) (u : Buffer) (p : PendGather) : Module :=
  if u.combine = 2 then (groupsOf 4 p.writes.length p.writes).foldl (fun (m : Module) q => m.sumCells i u p.poison q) m
  else
    (p.writes.foldl (fun (m : Module) c =>
      m.storeAt i.job i.core u.space c.1 [c.2] (p.poison.contains (c.1 / 32))) m).cleanCovered i.job i.core u.space
      (p.writes.map Prod.fst) ((p.writes.filter (fun c => p.poison.contains (c.1 / 32))).map Prod.fst)

/-- The destination buffer of a SPLICE instruction. -/
def Module.spliceDst (m : Module) (i : Inst) : Option Buffer := (m.job i.job).image.buffers[(readRef (loOf i.words 3)).buf]?

/-- The commit of a core's oldest gather with src_mem = 1 (R131): its rows are written, its slots become FULL. -/
def Module.commitGather (fu : Fuses) (m : Module) (g : Nat) : Module :=
  match (m.core g).gathers with
  | [] => m
  | p :: rest =>
    let i := p.inst
    let m := m.onCore g (fun c => { c with gathers := rest })
    if m.stale i then (m.dropStale fu i).settleCancel fu i.job
    else
      match m.spliceDst i with
      | none => m.finish fu i stMalformed 0 0
      | some u => ((m.putGather i u p).setFull g p.slots).finish fu i stOk 0 0

/-- Whether a gather's commit has its turn in a combine buffer (R186). -/
def Module.gatherTurn (m : Module) (i : Inst) : Bool :=
  m.stale i || !(m.spliceDst i).any (fun u => u.combine != 0) || m.hasTurn i (readRef (loOf i.words 3)).buf

/-- The oldest gather of a core waits for its combine turn, and the core with it (R186). -/
def Module.gatherHold (m : Module) (g : Nat) : Module :=
  m.onCore g (fun c => { c with gathers := modifyAt (fun p => { p with waits := true }) c.gathers 0 })

/-- The poison that a gather meets in the same cycle as a happening that ranks before it is recorded (R14). -/
def Module.gatherPoison (fu : Fuses) (m : Module) (p : PendGather) : Module :=
  if p.poison.isEmpty then m else m.hiddenPoison fu p.inst

/-- SRC_MEM_GATHER_COMMIT: not while a row is to come from a stopped stack (R367). -/
def execSrcMemGatherCommit (g : Nat) (ups : List Upset) (s : State) : Host.Outcome State Fault Refusal :=
  s.actOn (g < 384) (fun fu m =>
    let c := m.core g
    match c.gathers with
    | [] => m
    | p :: _ =>
      if !c.live || c.fenceReq.isSome || (!p.waits && (m.stoppedIn p.reads).isSome) then m
      else if !m.gatherTurn p.inst then m.gatherHold g
      else
        let r := m.meet fu p.inst ups
        if r.2 then r.1.commitGather fu g else r.1.gatherPoison fu p)

/-! ### SCATTER and SCATTER_ADD (R126, R128) -/

/-- The last position that names a destination row. -/
def lastNaming (rs : List Resolved) (r : Nat) : Option Nat :=
  ((rs.zipIdx).filter (fun p => p.1 == Resolved.row r)).getLast?.map Prod.snd

/-- The positions that name a destination row, ascending. -/
def naming (rs : List Resolved) (r : Nat) : List Nat := ((rs.zipIdx).filter (fun p => p.1 == Resolved.row r)).map Prod.snd

/-- What a scatter leaves in a destination row before the values: its base row, or zeros (R126). -/
def Module.baseRow (m : Module) (base : Option Operand) (rb r : Nat) : Row :=
  match base with
  | some o => (m.rowAt o rb r, m.rowPoison o rb r)
  | none => zeroRow rb

/-- The destination rows of a SCATTER: the highest position that names a row wins (R128). -/
def Module.scatterRows (m : Module) (src : Operand) (base : Option Operand) (rb e : Nat) (rs : List Resolved) : List Row :=
  (List.range e).map (fun r => match lastNaming rs r with
    | some j => (m.rowAt src rb j, m.rowPoison src rb j)
    | none => m.baseRow base rb r)

/-- The destination rows of a SCATTER_ADD: the base plus the value rows in ascending position, one rounding per addition
(R128); with the clamped sums. -/
def Module.scatterAddRows (m : Module) (src dst : Operand) (base : Option Operand) (int : Bool) (rb e : Nat)
    (rs : List Resolved) : List Row × Nat :=
  let sums := (List.range e).map (fun r =>
    (naming rs r).foldl (fun (acc : List Byte × Nat) j =>
      let s := addRows int acc.1 (dst.maskRow r (m.rowAt src rb j)) (rb / 4)
      (s.1, acc.2 + s.2)) (dst.maskRow r (m.baseRow base rb r).1, 0))
  (sums.map (fun s => (s.1, List.replicate (rb / 32) false)), (sums.map Prod.snd).sum)

/-- A scatter past its index pass: the rows it leaves, or POISON (R132). -/
def Module.scatterData (fu : Fuses) (add : Bool) (m : Module) (i : Inst) (ix : Option Operand) (src : Option Operand)
    (dst : Operand) (base : Option Operand) (n e : Nat) (rs : List Resolved) : Module :=
  let sw := readSplice i.words
  let rb := sw.rowBytes
  let used := (rs.zipIdx).filterMap (fun p => p.1.row?.map (fun _ => p.2))
  let read := if add then used else windowLast rs
  let srcSlots := (src.map (fun o => o.rowSlots rb read)).getD []
  let baseSlots := (base.map (fun o => o.rowSlots rb (List.range e))).getD []
  let dstSlots := dst.rowSlots rb (List.range e)
  let consume := (if sw.idxKeep then [] else indexSlots ix n) ++ (if sw.srcKeep then [] else srcSlots) ++
    (if base.any (fun o => o.ref.consume) then baseSlots else [])
  match m.tagWait i.core (indexSlots ix n ++ srcSlots ++ baseSlots) dstSlots consume with
  | some w => m.hold i.core w
  | none =>
    m.withTurn i dst (fun m =>
      let m := m.countIndex ((ix.map (fun o => m.indexVals o n)).getD []) rs
      let poisoned := add && (
        (match src with
         | some o => read.any (fun j => (m.rowPoison o rb j).any id)
         | none => false) ||
        (match base with
         | some o => (List.range e).any (fun r => (m.rowPoison o rb r).any id)
         | none => false))
      if poisoned then m.enginePoison fu i
      else
        let r := match src with
          | some o => if add then m.scatterAddRows o dst base (sw.valFmt == 5) rb e rs else (m.scatterRows o base rb e rs, 0)
          | none => ((List.range e).map (m.baseRow base rb), 0)
        let m := (m.bump (odKey 0x3150 4) (coalesced rs)).bump (odKey 0x3140 3) r.2
        ((r.1.zipIdx).foldl (fun (m : Module) p => m.putRow dst rb p.2 p.1) m).engineCommit fu i
          (indexSlots ix n ++ srcSlots ++ baseSlots) dstSlots consume)

/-- SCATTER or SCATTER_ADD at its core: zero only when the extent is 0 (R126). -/
def Module.scatterAt (fu : Fuses) (us : List Upset) (add : Bool) (m : Module) (i : Inst) : Module :=
  let ws := i.words
  m.withShapes fu us (spliceShapes ws) (spliceRefs ws) i (fun m i =>
    let n := m.shapeOf i (readShape (hiOf ws 4))
    let e := m.shapeOf i (readShape (loOf ws 4))
    if e = 0 then m.emptyOp fu i
    else
      let ix := m.operand i (hiOf ws 2) false 0
      m.indexPass fu i ix (entriesOf ix n) e (fun m rs =>
        match m.operand i (loOf ws 3) true 0 with
        | some dst =>
          m.scatterData fu add i ix (m.operand i (loOf ws 2) false 0) dst
            (if (readSplice ws).base then m.operand i (hiOf ws 3) false 0 else none) (entriesOf ix n) e rs
        | none => m.issueFail fu i { status := stMalformed, value := 0, plan := 0 }))

/-- SCATTER. -/
def execScatter (g : Nat) (ups : List Upset) (s : State) : Host.Outcome State Fault Refusal :=
  s.actOn (g < 384) (fun fu m => m.issueRow fu g (isSplice 2) ups (fun m i => m.scatterAt fu ups false i))

/-- SCATTER_ADD. -/
def execScatterAdd (g : Nat) (ups : List Upset) (s : State) : Host.Outcome State Fault Refusal :=
  s.actOn (g < 384) (fun fu m => m.issueRow fu g (isSplice 3) ups (fun m i => m.scatterAt fu ups true i))

/-! ### Tiles: EXPAND, COMPRESS and TRANSPOSE (R136 to R146) -/

/-- The 128 × 128 places of tile `t` of a tensor with `kt` tiles along axis 1: (axis 1, axis 0). -/
def tilePlaces (kt t : Nat) : List (Nat × Nat) :=
  (List.range 128).flatMap (fun k => (List.range 128).map (fun n => (128 * (t % max 1 kt) + k, 128 * (t / max 1 kt) + n)))

/-- The places of the first `t` tiles of a destination that its descriptor has in extent. -/
def Operand.tilesIn (o : Operand) (kt t : Nat) : List (Nat × Nat) :=
  ((List.range t).flatMap (tilePlaces kt)).filter (fun p => o.inExtent [p.2, p.1])

/-- An operand whose extents are the planned ones. -/
def Operand.planned (o : Operand) : Operand := { o with ext := o.lay.dims.map (fun d => d.extent.plan + 1) }

/-- Whether an element lies inside the planned extents of an operand's descriptor, so that it can be addressed (R218, R219). -/
def Operand.inPlan (o : Operand) (idx : List Nat) : Bool := o.planned.inExtent idx

/-- Codes written at places of a dense operand under its combine mode (R186), each with its poison and, in an MX format, its scale
byte. -/
def Module.putPlaces (m : Module) (o : Operand) (cs : List ((Nat × Nat) × Nat × Nat × Bool)) : Module :=
  let r := cs.foldl (fun (acc : Module × Nat) c =>
    let e := o.elemOff [c.1.2, c.1.1]
    let p := acc.1.putElem o e c.2.1 c.2.2.2
    (if o.fmt.isMx then p.1.putScale o e c.2.2.1 c.2.2.2 else p.1, acc.2 + p.2)) (m, 0)
  let m' := if r.2 = 0 then r.1 else r.1.bump (odKey 0x3140 3) r.2
  let addr := fun (c : (Nat × Nat) × Nat × Nat × Bool) =>
    let e := o.elemOff [c.1.2, c.1.1]
    o.addrsOf e ++ (if o.fmt.isMx then [o.addr (o.scaleOff e)] else [])
  if o.buf.combine = 2 then m'
  else m'.cleanCovered o.job o.core o.buf.space (cs.flatMap addr) ((cs.filter (fun c => c.2.2.2)).flatMap addr)

/-- An instruction over tiles: zero when its tile count is 0 (R126), else its body. -/
def Module.tileOp (fu : Fuses) (us : List Upset) (m : Module) (i : Inst)
    (body : Module → Operand → Operand → Nat → Module) : Module :=
  let ws := i.words
  m.withShapes fu us (spliceShapes ws) (spliceRefs ws) i (fun m i =>
    let t := m.shapeOf i (readShape (hiOf ws 5))
    if t = 0 then m.emptyOp fu i
    else
      match m.operand i (loOf ws 2) false 0, m.operand i (loOf ws 3) true 0 with
      | some src, some dst => body m src dst t
      | _, _ => m.issueFail fu i { status := stMalformed, value := 0, plan := 0 })

/-- The first invalid nibble that an EXPAND of `t` tiles reads (R140), tile by tile. -/
def Module.tilesNibble (m : Module) (src dst : Operand) (p : Packing) (tr : Bool) (kt t : Nat) : Option Nat :=
  ((List.range t).filterMap (fun tl =>
    let ps := (tilePlaces kt tl).filter (fun q => dst.inExtent [q.2, q.1])
    m.badNibble src p tr ((ps.map Prod.fst).eraseDups) ((ps.map Prod.snd).eraseDups))).head?

/-- EXPAND to slots (R136, R132): absent blocks and positions not kept become zeros, poison follows its elements. -/
def Module.expandTiles (fu : Fuses) (m : Module) (i : Inst) (src dst : Operand) (t : Nat) : Module :=
  let sw := readSplice i.words
  let tr := sw.maskMode == 2
  let kRows := dst.lay.axisPlan (if tr then 0 else 1)
  let p := m.expandPacking src sw kRows t
  let kt := kTiles dst.fmt (dst.lay.axisPlan 1)
  let places := dst.tilesIn kt t
  let tiles := (places.map (fun q => if tr then p.tileOf q.2 q.1 else p.tileOf q.1 q.2)).eraseDups
  let srcSlots := p.tileSlots src tiles
  let dstSlots := dst.slots (places.map (fun q => [q.2, q.1]))
  let consume := if sw.srcKeep then [] else srcSlots
  match m.tagWait i.core srcSlots dstSlots consume with
  | some w => m.hold i.core w
  | none =>
    match m.tilesNibble src dst p tr kt t with
    | some byte => m.issueFail fu i { status := stMalformed, value := byte, plan := 0 }
    | none =>
      m.withTurn i dst (fun m =>
        let cs := places.map (fun q =>
          let k := if tr then q.2 else q.1
          let n := if tr then q.1 else q.2
          (q, (m.packCode src p k n).getD 0, if p.fmt.isMx && p.present k n then m.opByte src (p.scaleAt k n) else 0,
            m.packPoison src p k n))
        (m.putPlaces dst cs).engineCommit fu i srcSlots dstSlots consume)

/-- EXPAND as a splice instruction. -/
def execExpand (g : Nat) (ups : List Upset) (s : State) : Host.Outcome State Fault Refusal :=
  s.actOn (g < 384) (fun fu m => m.issueRow fu g (isSplice 4) ups (fun m i =>
    m.tileOp fu ups i (fun m src dst t => m.expandTiles fu i src dst t)))

/-- The rank of a code of a group by magnitude: a NaN above every other value (R142). -/
def rankLt (a b : FVal) : Bool := if b = .nan then a != .nan else if a = .nan then false else a.abs.lt b.abs

/-- The two positions that a 2-of-4 group keeps (R142): slot 0 and slot 1. -/
def keep24 (vs : List FVal) : Nat × Nat :=
  let nz := (List.range 4).filter (fun q => !(vs.getD q fZero).isZero)
  match nz with
  | [] => (0, 1)
  | [p] => if p = 0 then (0, 1) else (0, p)
  | _ =>
    let first := nz.foldl (fun b q => if rankLt (vs.getD b fZero) (vs.getD q fZero) then q else b) (nz.headD 0)
    let rest := nz.filter (· ≠ first)
    let second := rest.foldl (fun b q => if rankLt (vs.getD b fZero) (vs.getD q fZero) then q else b) (rest.headD 0)
    (min first second, max first second)

/-- The four values of a group of a dense tile operand; `tr` reads it transposed. -/
def Module.groupVals (m : Module) (src : Operand) (tr : Bool) (k n : Nat) : List FVal :=
  (List.range 4).map (fun q => m.get { src with exp := 0 } (if tr then [k + q, n] else [n, k + q]))

/-- The groups of the present blocks of the first `t` tiles in tile, bit and group order: (tile, group of the tile, first
K row, column). DESIGN CHOICE (log entry 23): R142 does not say how groups are numbered, and a group has the number 64 × mask bit +
its number in the block; elements of blocks that the given mask has absent are in no group, so they are neither dropped under R142
nor refused by drop_fault. -/
def groups24 (p : Packing) (t : Nat) : List (Nat × Nat × Nat × Nat) :=
  (List.range t).flatMap (fun tl => ((List.range 64).filter (bitAt (p.masks.getD tl 0))).flatMap (fun bit =>
    (List.range 64).map (fun q =>
      (tl, 64 * bit + q, 128 * (tl % max 1 p.kt) + 16 * (bit / 8) + 4 * (q / 16), 128 * (tl / max 1 p.kt) + 16 * (bit % 8) + q % 16))))

/-- The writes of COMPRESS of one 2-of-4 group: its two values and its nibble. -/
def Module.putGroup (m : Module) (src dst : Operand) (p : Packing) (tr : Bool) (q : Nat × Nat × Nat × Nat) : Module :=
  let k := q.2.2.1
  let n := q.2.2.2
  let kp := keep24 (m.groupVals src tr k n)
  let nib := kp.1 + 4 * kp.2
  let code := fun pos =>
    let ix := if tr then [k + pos, n] else [n, k + pos]
    if src.inExtent ix then m.codeAt src (src.elemOff ix) else 0
  let m := m.putPacked dst p nib (k + kp.1) n (code kp.1) false
  let m := m.putPacked dst p nib (k + kp.2) n (code kp.2) false
  let a := dst.addr (dst.start + p.metaOff k n)
  let old := leNat (m.bytesAt dst.job dst.core dst.buf.space a 1)
  m.storeAt dst.job dst.core dst.buf.space a
    (leBytes 1 (if group24 k n % 2 = 0 then old - old % 16 + nib else old % 16 + 16 * nib)) false

/-- The byte addresses that COMPRESS of one 2-of-4 group writes: its two values and its nibble's byte. -/
def Module.groupAddrs (m : Module) (src dst : Operand) (p : Packing) (tr : Bool) (q : Nat × Nat × Nat × Nat) : List Nat :=
  let k := q.2.2.1
  let n := q.2.2.2
  let kp := keep24 (m.groupVals src tr k n)
  dst.packAddrs p (kp.1 + 4 * kp.2) (k + kp.1) n ++ dst.packAddrs p (kp.1 + 4 * kp.2) (k + kp.2) n ++
    [dst.addr (dst.start + p.metaOff k n)]

/-- Non-zero elements of a group. -/
def nonZeros (vs : List FVal) : Nat := (vs.filter (fun v => !v.isZero)).length

/-- COMPRESS (R142): dense tiles to the block plane, under the given mask or with every block present. DESIGN CHOICE (log entry 23):
mask_mode 0b10 reads the dense source transposed. A granule that is written whole is clean (R106). -/
def Module.compressTiles (fu : Fuses) (m : Module) (i : Inst) (src dst : Operand) (t : Nat) : Module :=
  let sw := readSplice i.words
  let tr := sw.maskMode == 2
  let p0 := m.packing dst sw.sparse24 (src.lay.axisPlan (if tr then 0 else 1))
  let p := if sw.maskMode = 0 then { p0 with masks := List.replicate t (2 ^ 64 - 1), full := false } else p0
  let all := (List.range t).flatMap (tilePlaces p.kt)
  let places := all.filter (fun q => p.present q.1 q.2)
  let idx := fun (q : Nat × Nat) => if tr then [q.1, q.2] else [q.2, q.1]
  let srcSlots := src.slots (all.map idx)
  let dstSlots := p.tileSlots dst (List.range t)
  let consume := if sw.srcKeep then [] else srcSlots
  match m.tagWait i.core srcSlots dstSlots consume with
  | some w => m.hold i.core w
  | none =>
    if all.any (fun q => m.getPoison src (idx q)) then m.enginePoison fu i
    else
      m.withTurn i dst (fun m =>
      let gs := if sw.sparse24 then groups24 p t else []
      match (if sw.dropFault then gs.find? (fun q => decide (3 ≤ nonZeros (m.groupVals src tr q.2.2.1 q.2.2.2))) else none) with
      | some q => (m.event fu 0x0322 [i.job, i.core, q.1, q.2.1]).issueFail fu i { status := stDenied, value := q.2.1, plan := 0 }
      | none =>
        let dropped := (gs.map (fun q => nonZeros (m.groupVals src tr q.2.2.1 q.2.2.2) - 2)).sum
        let m' := if sw.sparse24 then gs.foldl (fun (m : Module) q => m.putGroup src dst p tr q) m
          else places.foldl (fun (m : Module) q =>
            let ix := idx q
            let code := if src.inExtent ix then m.codeAt src (src.elemOff ix) else 0
            let m1 := m.putPacked dst p 0 q.1 q.2 code false
            if p.fmt.isMx then
              m1.storeAt dst.job dst.core dst.buf.space (dst.addr (dst.start + p.scaleAt q.1 q.2))
                (leBytes 1 (if src.inExtent ix then leNat (m.bytesAt src.job src.core src.buf.space (src.addr (src.scaleOff (src.elemOff ix))) 1) else 0))
                false
            else m1) m
        let addrs := if sw.sparse24 then gs.flatMap (m.groupAddrs src dst p tr) else places.flatMap (fun q => dst.packAddrs p 0 q.1 q.2)
        ((m'.cleanCovered dst.job dst.core dst.buf.space addrs []).bump (odKey 0x3150 5) dropped).engineCommit fu i srcSlots dstSlots consume)

/-- COMPRESS. -/
def execCompress (g : Nat) (ups : List Upset) (s : State) : Host.Outcome State Fault Refusal :=
  s.actOn (g < 384) (fun fu m => m.issueRow fu g (isSplice 5) ups (fun m i =>
    m.tileOp fu ups i (fun m src dst t => m.compressTiles fu i src dst t)))

/-- TRANSPOSE (R146): element (row, column) of each source tile goes to (column, row) of the destination; what lies out of an
extent inside the planned tile is written as zeros. DESIGN CHOICE (log entry 23): the tile count names the source's tiles along
axis 1 first. -/
def Module.transposeTiles (fu : Fuses) (m : Module) (i : Inst) (src dst : Operand) (t : Nat) : Module :=
  let sw := readSplice i.words
  let all := (List.range t).flatMap (tilePlaces (ceilDiv (src.lay.axisPlan 1) 128))
  let places := all.filter (fun q => dst.inPlan [q.1, q.2])
  let srcSlots := src.slots (places.map (fun q => [q.2, q.1]))
  let dstSlots := dst.planned.slots (places.map (fun q => [q.1, q.2]))
  let consume := if sw.srcKeep then [] else srcSlots
  match m.tagWait i.core srcSlots dstSlots consume with
  | some w => m.hold i.core w
  | none =>
    m.withTurn i dst (fun m =>
      let cs := places.map (fun q =>
        let ix := [q.2, q.1]
        let both := src.inExtent ix && dst.inExtent [q.1, q.2]
        ((q.2, q.1), (if both then m.codeAt src (src.elemOff ix) else 0), 0, both && m.elemPoison src (src.elemOff ix)))
      (m.putPlaces dst cs).engineCommit fu i srcSlots dstSlots consume)

/-- TRANSPOSE. -/
def execTranspose (g : Nat) (ups : List Upset) (s : State) : Host.Outcome State Fault Refusal :=
  s.actOn (g < 384) (fun fu m => m.issueRow fu g (isSplice 6) ups (fun m i =>
    m.tileOp fu ups i (fun m src dst t => m.transposeTiles fu i src dst t)))

end Sys2Proof.Machine
end

