-- ==== Sys2Proof/Machine/Stats.lean ====
section
/-!
DEFINITION. The statistics memory of a core (R169 to R174): pages of 512 records in lines of 8, their allocation, spill,
fetch and flush, and the reading and writing of records.
-/
namespace Sys2Proof.Machine

/-- The statistics set of a number (R170, R549). -/
def Job.statSet (b : Job) (set : Nat) : Option StatSet := b.image.statSets.find? (fun t => t.set == set)

/-- The page of a set that a core holds. -/
def Core.page (c : Core) (set page : Nat) : Option StatPage := c.mem.pages.find? (fun p => p.set == set && p.page == page)

/-- A core's page changed. -/
def Module.onPage (m : Module) (g set page : Nat) (f : StatPage → StatPage) : Module :=
  m.onCore g (fun c => { c with mem := { c.mem with
    pages := c.mem.pages.map (fun p => if p.set = set && p.page = page then f p else p) } })

/-- The pages that a row range touches. -/
def pagesOf (row0 rows : Nat) : List Nat := if rows = 0 then [] else (List.range ((row0 + rows - 1) / 512 + 1 - row0 / 512)).map (· + row0 / 512)

/-- The lines of a page that a row range touches. -/
def linesIn (page row0 rows : Nat) : List Nat :=
  (List.range 64).filter (fun l => decide (row0 < 512 * page + 8 * l + 8) && decide (512 * page + 8 * l < row0 + rows))

/-- Whether a core holds the records of a row range that lie in a page. -/
def Core.holdsStats (c : Core) (set row0 rows page : Nat) : Bool :=
  (c.page set page).any (fun q => (linesIn page row0 rows).all (bitAt q.valid))

/-- The pages that the reads of an instruction lack, set by set, ascending. -/
def Core.lacks (c : Core) (reads : List Nat) (row0 rows : Nat) : List (Nat × Nat) :=
  reads.flatMap (fun s => ((pagesOf row0 rows).filter (fun p => !c.holdsStats s row0 rows p)).map (fun p => (s, p)))

/-- Whether a page can be had for an instruction that uses the pages `uses`: one is free, or one that it does not use can be
spilled (R171). -/
def Core.pageRoom (c : Core) (uses : List (Nat × Nat)) : Bool :=
  decide (c.mem.pages.length < 512) || c.mem.pages.any (fun p => !uses.contains (p.set, p.page))

/-- The pages that an instruction uses. -/
def statUses (reads writes : List Nat) (row0 rows : Nat) : List (Nat × Nat) :=
  ((reads ++ writes).flatMap (fun s => (pagesOf row0 rows).map (fun p => (s, p)))).eraseDups

/-- What an instruction must wait for before it uses records (R171): a page to fetch back for a read, then room for every page it
writes. DESIGN CHOICE (log entry 24): where all 512 pages are in use by the instruction itself, it does not wait for further ones; it
takes its records beyond them from their homes and spills as it writes. -/
def Core.statWait (c : Core) (reads writes : List Nat) (row0 rows : Nat) : Option Wait :=
  let uses := statUses reads writes row0 rows
  let first := ((c.lacks reads row0 rows).find? (fun k => (c.page k.1 k.2).isSome || c.pageRoom uses)).map (fun k => .stat k.1 k.2)
  match first with
  | some w => some w
  | none =>
    let absent := ((statUses [] writes row0 rows).filter (fun k => (c.page k.1 k.2).isNone))
    if c.mem.pages.length + absent.length ≤ 512 || !c.mem.pages.any (fun p => !uses.contains (p.set, p.page)) then none
    else absent.head?.map (fun k => .stat k.1 k.2)

/-- Whether no page is free for what an instruction still needs (R171): all 512 are held, or its reads lack none and its writes need
more pages than are free. -/
def Core.pagesShort (c : Core) (reads writes : List Nat) (row0 rows : Nat) : Bool :=
  decide (512 ≤ c.mem.pages.length) ||
    ((c.lacks reads row0 rows).isEmpty && decide (512 < c.mem.pages.length +
      ((statUses [] writes row0 rows).filter (fun k => (c.page k.1 k.2).isNone)).length))

/-- An empty page. -/
def StatPage.fresh (set page : Nat) : StatPage :=
  { set := set, page := page, recs := [], valid := 0, dirty := 0, poison := [] }

/-- The core with a page of a set allocated, unless it holds it. -/
def Core.takePage (c : Core) (set page : Nat) : Core :=
  if (c.page set page).isSome then c else { c with mem := { c.mem with pages := c.mem.pages ++ [StatPage.fresh set page] } }

/-- Record `row` of a set as a core holds it: stat_hi and stat_lo (R169). -/
def Core.stat (c : Core) (set row : Nat) : FVal × FVal :=
  let w := ((c.page set (row / 512)).map (fun p => p.recs.get (row % 512))).getD 0
  (ofF32 (field w 32 32), ofF32 (field w 0 32))

/-- Whether a record carries poison. -/
def Core.statPoison (c : Core) (set row : Nat) : Bool :=
  ((c.page set (row / 512)).map (fun p => p.poison.contains (row % 512 / 4))).getD false

/-- A record written into a page: its line becomes dirty, and a line that held nothing starts with undefined records. -/
def StatPage.put (p : StatPage) (free row : Nat) (hi lo : Nat) : StatPage :=
  let l := row / 8
  let recs := if bitAt p.valid l then p.recs
    else (List.range 8).foldl (fun (t : NatMap) k =>
      t.set (8 * l + k) ((Config.freeWord (free + 2 * k)).toNat * 2 ^ 32 + (Config.freeWord (free + 2 * k + 1)).toNat)) p.recs
  { p with recs := recs.set row (hi * 2 ^ 32 + lo), valid := setBit p.valid l, dirty := setBit p.dirty l,
           poison := if bitAt p.valid l then p.poison else eraseNat (eraseNat p.poison (2 * l)) (2 * l + 1) }

/-- A record to be written: set, row, stat_hi, stat_lo. -/
structure StatRec where
  set : Nat
  row : Nat
  hi : FVal
  lo : FVal
  deriving DecidableEq, Repr

/-- The dirty lines of a page written to their homes in ascending address order (R171); they stay in the page, clean. -/
def Module.writeBack (m : Module) (j g set page : Nat) : Module :=
  match (m.core g).page set page, (m.job j).statSet set with
  | some p, some t =>
    let lines := setBits p.dirty 64
    let m := lines.foldl (fun (m : Module) l =>
      let a := (m.job j).hbmBase + t.home + 4096 * page + 64 * l
      let bs := (List.range 8).flatMap (fun k => leBytes 8 (p.recs.get (8 * l + k)))
      (List.range 2).foldl (fun (m : Module) h =>
        { m with hbm := m.hbm.write (a + 32 * h) (slice bs (32 * h) 32),
                 hbmPoison := poisonStore m.hbmPoison (a + 32 * h) 32 (p.poison.contains (2 * l + h)),
                 bursts := rewritten m.bursts (a + 32 * h) 32 }) m) m
    (m.onPage g set page (fun p => { p with dirty := 0 })).bump (odKey 0x3160 2) (64 * lines.length)
  | _, _ => m

/-- A page spilled (R171): its dirty lines go to their homes and it is free. -/
def Module.spillPage (m : Module) (j g set page : Nat) : Module :=
  (m.writeBack j g set page).onCore g (fun c => { c with mem := { c.mem with
    pages := c.mem.pages.filter (fun q => !(q.set == set && q.page == page)) } })

/-- The oldest page, of those that no record still to be written needs where there is one. -/
def Core.oldestPage (c : Core) (rest : List StatRec) : Option StatPage :=
  match c.mem.pages.find? (fun p => !rest.any (fun r => r.set == p.set && r.row / 512 == p.page)) with
  | some p => some p
  | none => c.mem.pages.head?

/-- Room for a page that core `g` writes: an instruction that fills the memory spills as it goes. -/
def Module.statRoom (m : Module) (j g set page : Nat) (rest : List StatRec) : Module :=
  let c := m.core g
  if (c.page set page).isSome || c.mem.pages.length < 512 then m
  else
    match c.oldestPage rest with
    | none => m
    | some p => m.spillPage j g p.set p.page

/-- One record written by core `g`. -/
def Module.putStat (m : Module) (g : Nat) (r : StatRec) : Module :=
  let m := m.onCore g (fun c => c.takePage r.set (r.row / 512))
  { m.onPage g r.set (r.row / 512) (fun p => p.put m.freeNo (r.row % 512) (toF32 r.hi) (toF32 r.lo)) with freeNo := m.freeNo + 16 }

/-- Records written by core `g` in their order. -/
def Module.putRecords (j g : Nat) : List StatRec → Module → Module
  | [], m => m
  | r :: rs, m => Module.putRecords j g rs ((m.statRoom j g r.set (r.row / 512) rs).putStat g r)

/-- Records written by core `g`, with their count (R171, R177). -/
def Module.putStats (m : Module) (j g : Nat) (rs : List StatRec) : Module :=
  (Module.putRecords j g rs m).bump (odKey 0x3160 1) rs.length

/-- Record `row` of a set at its home (R170). -/
def Module.homeStat (m : Module) (j set row : Nat) : FVal × FVal :=
  let w := leNat (m.hbm.read ((m.job j).hbmBase + (((m.job j).statSet set).map StatSet.home).getD 0 + 8 * row) 8)
  (ofF32 (field w 32 32), ofF32 (field w 0 32))

/-- Record `row` of a set as core `g` reads it (R171, R173): from its page, or from its home. -/
def Module.statAt (m : Module) (j g set row : Nat) : FVal × FVal :=
  if (m.core g).holdsStats set row 1 (row / 512) then (m.core g).stat set row else m.homeStat j set row

/-- Whether a record that core `g` reads carries poison. -/
def Module.statPoisonAt (m : Module) (j g set row : Nat) : Bool :=
  if (m.core g).holdsStats set row 1 (row / 512) then (m.core g).statPoison set row
  else poisonHit m.hbmPoison ((m.job j).hbmBase + (((m.job j).statSet set).map StatSet.home).getD 0 + 8 * row) 8

/-- The bytes of a page at its home. -/
def Job.pageBytes (b : Job) (set page : Nat) : Nat :=
  roundUp (8 * min 512 (((b.statSet set).map StatSet.rows).getD 0 - 512 * page)) 64

/-- Every dirty line of a core written to its home (R172). -/
def Module.flushStats (m : Module) (j g : Nat) : Module :=
  (m.core g).mem.pages.foldl (fun (m : Module) p => m.writeBack j g p.set p.page) m

/-- The pages without the lines that were fetched back: at the boundary of the passes only the lines that the core wrote itself stay
valid, since another core may write a home after it was fetched (R172, R173). -/
def Core.dropFetched (c : Core) : Core :=
  { c with mem := { c.mem with pages := c.mem.pages.map (fun p => { p with valid := p.dirty }) } }

/-- A page fetched back whole, its lines clean (R171); a line that is dirty keeps its own records. -/
def Module.fetchPage (fu : Fuses) (m : Module) (j g set page : Nat) : Module :=
  match (m.job j).statSet set with
  | none => m
  | some t =>
    let a := (m.job j).hbmBase + t.home + 4096 * page
    let n := min 512 (t.rows - 512 * page)
    let m := (m.request fu j a (8 * n)).onCore g (fun c => c.takePage set page)
    (m.onPage g set page (fun p =>
      let recs := (List.range n).foldl (fun (r : NatMap) k =>
        if bitAt p.dirty (k / 8) then r else r.set k (leNat (m.hbm.read (a + 8 * k) 8))) p.recs
      let bad := (List.range 128).filter (fun q =>
        if bitAt p.dirty (q / 2) then p.poison.contains q else decide (4 * q < n) && poisonHit m.hbmPoison (a + 32 * q) 32)
      { p with recs := recs, valid := maskOf (List.range ((n + 7) / 8)) ||| p.dirty, poison := bad })).bump (odKey 0x3160 3)
      (roundUp (8 * n) 64)

end Sys2Proof.Machine
end

