-- ==== Sys2Proof/Machine/Row.lean ====
section
/-!
DEFINITION. The row engine (R152 to R178): its operands, its checks at issue, its seventeen functions and their commit.
-/
namespace Sys2Proof.Machine

/-! ### Fields (R152, R197) -/

/-- The row word (R152). -/
structure RowWord where
  func : Nat
  act : Nat
  k : Nat
  phase : Nat
  causal : Bool
  gateMul : Bool
  sideOut : Bool
  saveStats : Bool
  renorm : Bool
  statSet : Nat
  deriving DecidableEq, Repr

/-- The row word of an instruction. -/
def readRow (ws : Words) : RowWord :=
  let w := wordAt ws 1
  { func := field w 58 6, act := field w 46 4, k := field w 43 3 + 1, phase := field w 41 2, causal := bitAt w 40,
    gateMul := bitAt w 39, sideOut := bitAt w 38, saveStats := bitAt w 37, renorm := bitAt w 36, statSet := field w 24 12 }

/-- The shape fields of a ROW instruction: rows, cols, total_cols, stat_row, row_pos, col_pos. -/
def rowShapes (ws : Words) : List Shape :=
  [hiOf ws 5, loOf ws 5, hiOf ws 6, loOf ws 6, hiOf ws 7, loOf ws 7].map readShape

/-- The operand references of a ROW instruction. -/
def rowRefs (ws : Words) : List Nat := [hiOf ws 2, loOf ws 2, hiOf ws 3, loOf ws 3, hiOf ws 4]

/-- Whether the phase starts the records: WHOLE or FIRST. -/
def RowWord.starts (w : RowWord) : Bool := w.phase == 0 || w.phase == 1

/-- Whether the phase ends the row: WHOLE or LAST. -/
def RowWord.ends (w : RowWord) : Bool := w.phase == 0 || w.phase == 3

/-- The statistics sets that a function reads (R153). -/
def RowWord.statReads (w : RowWord) : List Nat :=
  if [0x05, 0x11, 0x12, 0x15, 0x16, 0x17, 0x19].contains w.func then [w.statSet]
  else if w.func = 0x04 && !w.starts then [w.statSet]
  else if w.func = 0x07 && !w.starts then [w.statSet, w.statSet + 1]
  else []

/-- The statistics sets that a function writes (R153). -/
def RowWord.statWrites (w : RowWord) : List Nat :=
  if w.func = 0x07 then [w.statSet, w.statSet + 1]
  else if w.func = 0x04 then [w.statSet]
  else if [0x01, 0x02, 0x03, 0x06].contains w.func && w.saveStats then [w.statSet]
  else []

/-! ### What a function sees -/

/-- A row instruction at issue: the module, its word, its run-time shapes and parameters, and its operands. -/
structure RowCtx where
  m : Module
  i : Inst
  w : RowWord
  rows : Nat
  cols : Nat
  total : Nat
  statRow : Nat
  rowPos : Nat
  colPos : Nat
  p0 : FVal
  p1 : FVal
  in0 : Option Operand
  in1 : Option Operand
  in2 : Option Operand
  out0 : Option Operand
  out1 : Option Operand
  deriving DecidableEq, Repr

/-- A parameter (R197): its field, or bits 31:0 of its bound slot. -/
def Module.rowParam (m : Module) (i : Inst) (bound : Bool) (slot code : Nat) : FVal :=
  ofF32 (if bound then field ((m.job i.job).boundValue slot) 0 32 else code)

/-- The instruction as its function sees it. -/
def Module.rowCtx (m : Module) (i : Inst) : RowCtx :=
  let ws := i.words
  let sh := fun w => m.shapeOf i (readShape w)
  let b := wordAt ws 9
  { m := m, i := i, w := readRow ws, rows := sh (hiOf ws 5), cols := sh (loOf ws 5), total := sh (hiOf ws 6),
    statRow := sh (loOf ws 6), rowPos := sh (hiOf ws 7), colPos := sh (loOf ws 7),
    p0 := m.rowParam i (bitAt b 63) (field b 56 6) (hiOf ws 8), p1 := m.rowParam i (bitAt b 62) (field b 50 6) (loOf ws 8),
    in0 := m.operand i (hiOf ws 2) false 0, in1 := m.operand i (loOf ws 2) false 0, in2 := m.operand i (hiOf ws 3) false 0,
    out0 := m.operand i (loOf ws 3) true 0, out1 := m.operand i (hiOf ws 4) true 0 }

/-- An operand's value at an index; the default where the instruction names no operand. -/
def RowCtx.val (c : RowCtx) (o : Option Operand) (ix : List Nat) (dflt : FVal) : FVal :=
  match o with
  | some o => c.m.get o ix
  | none => dflt

/-- An operand's value at row `i` and column `j`. -/
def RowCtx.at_ (c : RowCtx) (o : Option Operand) (i j : Nat) : FVal := c.val o [j, i] fZero

/-- The in-extent columns of row `i`: those of the main input's descriptor (R155). A row without any is padding. -/
def RowCtx.inCols (c : RowCtx) (i : Nat) : List Nat :=
  (List.range c.cols).filter (fun j => c.in0.any (fun o => o.inExtent [j, i]))

/-- The in-extent rows. -/
def RowCtx.inRows (c : RowCtx) : List Nat := (List.range c.rows).filter (fun i => !(c.inCols i).isEmpty)

/-- Whether the causal mask removes a column of a row (R162). -/
def RowCtx.masked (c : RowCtx) (i j : Nat) : Bool := c.w.causal && decide (c.rowPos + i < c.colPos + j)

/-- The columns of row `i` that enter its sums (R155, R162). -/
def RowCtx.colsOf (c : RowCtx) (i : Nat) : List Nat := (c.inCols i).filter (fun j => !c.masked i j)

/-- A row of outputs: a masked column is written as +0 (DEDUCED: the rules give P of a fully masked row so). -/
def RowCtx.emit (c : RowCtx) (i : Nat) (f : Nat → FVal) : List OutElem :=
  (c.inCols i).map (fun j => { row := i, col := j, val := if c.masked i j then fZero else f j })

/-- The record of row `i` in a set, as this core reads it. -/
def RowCtx.stat (c : RowCtx) (set i : Nat) : FVal × FVal := c.m.statAt c.i.job c.i.core set (c.statRow + i)

/-- A record of row `i`. -/
def RowCtx.rec_ (c : RowCtx) (set i : Nat) (hi lo : FVal) : StatRec := { set := set, row := c.statRow + i, hi := hi, lo := lo }

/-- What a function writes: its two outputs, its records, and what it counts, by sub-index of OD 0x3160. -/
structure RowOut where
  out0 : List OutElem
  out1 : List OutElem
  stats : List StatRec
  counts : List (Nat × Nat)
  deriving DecidableEq, Repr

/-- A function's outputs, row by row. -/
def RowCtx.byRow (c : RowCtx) (f : Nat → RowOut) : RowOut :=
  (c.inRows.map f).foldl (fun a b =>
    { out0 := a.out0 ++ b.out0, out1 := a.out1 ++ b.out1, stats := a.stats ++ b.stats, counts := a.counts ++ b.counts })
    { out0 := [], out1 := [], stats := [], counts := [] }

/-- A row that writes only its first output. -/
def RowOut.one (es : List OutElem) : RowOut := { out0 := es, out1 := [], stats := [], counts := [] }

/-! ### Normalisation (R157 to R159) -/

/-- The columns' γ; absent counts as 1 (R157). -/
def RowCtx.gain (c : RowCtx) (o : Option Operand) (j : Nat) : FVal := c.val o [j, 0] fOne

/-- x̂ of R157 from the row's mean and rstd; RMS normalisation has no mean. -/
def normHat (ln : Bool) (mu rstd x : FVal) : FVal := fMul (if ln then fSub x mu else x) rstd

/-- LAYERNORM_FWD (`ln`) or RMSNORM_FWD (R157). -/
def RowCtx.normFwd (c : RowCtx) (ln : Bool) : RowOut :=
  c.byRow (fun i =>
    let xs := (c.colsOf i).map (c.at_ c.in0 i)
    let rn := fRecip (fInt xs.length)
    let mu := if ln then fMul (fSum xs) rn else fZero
    let ds := if ln then xs.map (fun x => fSub x mu) else xs
    let rstd := fRsqrt (fAdd (fMul (fDot ds ds) rn) c.p0)
    { out0 := c.emit i (fun j => fAdd (fMul (normHat ln mu rstd (c.at_ c.in0 i j)) (c.gain c.in1 j)) (c.val c.in2 [j, 0] fZero)),
      out1 := [], stats := if c.w.saveStats then [c.rec_ c.w.statSet i mu rstd] else [], counts := [] })

/-- LAYERNORM_BWD (`ln`) or RMSNORM_BWD (R158). -/
def RowCtx.normBwd (c : RowCtx) (ln : Bool) : RowOut :=
  c.byRow (fun i =>
    let s := c.stat c.w.statSet i
    let hat := fun j => normHat ln s.1 s.2 (c.at_ c.in0 i j)
    let g := fun j => fMul (c.at_ c.in1 i j) (c.gain c.in2 j)
    let js := c.colsOf i
    let rn := fRecip (fInt js.length)
    let an := fMul (fSum (js.map g)) rn
    let bn := fMul (fSum (js.map (fun j => fMul (g j) (hat j)))) rn
    .one (c.emit i (fun j => fMul s.2 (fSub (if ln then fSub (g j) an else g j) (fMul (hat j) bn)))))

/-- GAIN_GRAD (R159): sums over every in-extent row, ascending. -/
def RowCtx.gainGrad (c : RowCtx) : RowOut :=
  let rowsOf := fun j => c.inRows.filter (fun i => (c.colsOf i).contains j)
  let js := (List.range c.cols).filter (fun j => !(rowsOf j).isEmpty)
  let dy := fun i j => c.at_ c.in0 i j
  { out0 := js.map (fun j => { row := 0, col := j, val := fSum ((rowsOf j).map (fun i =>
      let s := c.stat c.w.statSet i
      fMul (dy i j) (normHat true s.1 s.2 (c.at_ c.in1 i j)))) }),
    out1 := js.map (fun j => { row := 0, col := j, val := fSum ((rowsOf j).map (fun i => dy i j)) }),
    stats := [], counts := [] }

/-! ### Softmax and attention (R160 to R163) -/

/-- The scaled value z of a logit (R160). -/
def RowCtx.z (c : RowCtx) (i j : Nat) : FVal := fMul c.p0 (c.at_ c.in0 i j)

/-- One group of the first pass of R160. -/
def groupStep (ml : FVal × FVal) (zs : List FVal) : FVal × FVal :=
  let m' := zs.foldl fMax ml.1
  (m', fAdd (fMul ml.2 (fExp (fSub ml.1 m'))) (fSum (zs.map (fun z => fExp (fSub z m')))))

/-- The first pass of R160 over row `i` from a record: groups of 64 columns. -/
def RowCtx.online (c : RowCtx) (i : Nat) (ml : FVal × FVal) : FVal × FVal :=
  let js := c.colsOf i
  ((js.map (· / 64)).eraseDups).foldl (fun ml q => groupStep ml ((js.filter (fun j => j / 64 == q)).map (c.z i))) ml

/-- The record before any column: m = −∞ and l = 0. -/
def statStart : FVal × FVal := (.inf true, fZero)

/-- exp(z − m) × (1 / l). -/
def softProb (ml : FVal × FVal) (z : FVal) : FVal := fMul (fExp (fSub z ml.1)) (fRecip ml.2)

/-- SOFTMAX_FWD (R160). -/
def RowCtx.softmaxFwd (c : RowCtx) : RowOut :=
  c.byRow (fun i =>
    let ml := c.online i statStart
    { out0 := c.emit i (fun j => softProb ml (c.z i j)), out1 := [],
      stats := if c.w.saveStats then [c.rec_ c.w.statSet i ml.1 ml.2] else [], counts := [] })

/-- SOFTMAX_BWD (R160). -/
def RowCtx.softmaxBwd (c : RowCtx) : RowOut :=
  c.byRow (fun i =>
    let y := fun j => c.at_ c.in0 i j
    let dy := fun j => c.at_ c.in1 i j
    let s := fSum ((c.colsOf i).map (fun j => fMul (dy j) (y j)))
    .one (c.emit i (fun j => fMul c.p0 (fMul (y j) (fSub (dy j) s)))))

/-- The columns of an operand's own width: its axis-0 planned columns that are in extent in row `i`. -/
def wideCols (o : Option Operand) (i : Nat) : List Nat :=
  match o with
  | some o => (List.range (o.lay.axisPlan 0)).filter (fun j => o.inExtent [j, i])
  | none => []

/-- ONLINE_SOFTMAX (R161). A row with no unmasked column leaves its record and passes O_prev on; FIRST has no O_prev, and
its addend is +0 (DEDUCED). -/
def RowCtx.onlineSoftmax (c : RowCtx) : RowOut :=
  c.byRow (fun i =>
    let old := if c.w.starts then statStart else c.stat c.w.statSet i
    let none_ := (c.colsOf i).isEmpty
    let new := c.online i old
    let alpha := if none_ then fOne else fExp (fSub old.1 new.1)
    { out0 := c.emit i (fun j => fExp (fSub (c.z i j) new.1)),
      out1 := (wideCols c.out1 i).map (fun j =>
        { row := i, col := j, val := if c.w.starts then fZero else fMul (c.at_ c.in1 i j) alpha }),
      stats := if none_ && !c.w.starts then [] else [c.rec_ c.w.statSet i new.1 new.2], counts := [] })

/-- ONLINE_FINAL (R161). -/
def RowCtx.onlineFinal (c : RowCtx) : RowOut :=
  c.byRow (fun i =>
    let l := (c.stat c.w.statSet i).2
    { out0 := c.emit i (fun j => if l.isZero then fZero else fMul (c.at_ c.in0 i j) (fRecip l)), out1 := [], stats := [],
      counts := if l.isZero then [(0x0A, 1)] else [] })

/-- ROWDOT (R163). -/
def RowCtx.rowdot (c : RowCtx) : RowOut :=
  c.byRow (fun i =>
    let d := fSum ((c.colsOf i).map (fun j => fMul (c.at_ c.in0 i j) (c.at_ c.in1 i j)))
    .one [{ row := i, col := 0, val := d }])

/-- ATTN_BWD_P (R163). -/
def RowCtx.attnBwdP (c : RowCtx) : RowOut :=
  c.byRow (fun i =>
    let ml := c.stat c.w.statSet i
    let p := fun j => softProb ml (c.z i j)
    { out0 := c.emit i (fun j => fMul c.p0 (fMul (p j) (fSub (c.at_ c.in1 i j) (c.val c.in2 [0, i] fZero)))),
      out1 := if c.out1.isSome then c.emit i p else [], stats := [], counts := [] })

/-! ### Routing (R164, R165) -/

/-- Whether logit `a` ranks above logit `b`: a NaN above every other value, and a tie to the lower index (R164). -/
def ranksAbove (a b : FVal × Nat) : Bool :=
  if a.1 = .nan then (if b.1 = .nan then decide (a.2 < b.2) else true)
  else if b.1 = .nan then false
  else if b.1.lt a.1 then true
  else if a.1.lt b.1 then false
  else decide (a.2 < b.2)

/-- The `k` experts of largest logit in descending rank. -/
def topK : Nat → List (FVal × Nat) → List Nat
  | 0, _ => []
  | k + 1, es =>
    match es with
    | [] => []
    | e :: rest =>
      let best := rest.foldl (fun b x => if ranksAbove x b then x else b) e
      best.2 :: topK k (es.filter (fun x => x.2 ≠ best.2))

/-- A probability of the selected experts under renorm (R164), the sum in ascending index. DESIGN CHOICE (log entry 23): the quotient
is formed as p × (1 / Σ p_sel), with two roundings, since R154 lists the reciprocal among the functions and no division. -/
def renormed (p : Nat → FVal) (sel : List Nat) (j : Nat) : FVal :=
  fMul (p j) (fRecip (fSum ((insertAll [] sel).map p)))

/-- TOPK_ROUTE (R164). -/
def RowCtx.topkRoute (c : RowCtx) : RowOut :=
  c.byRow (fun i =>
    let js := c.colsOf i
    let ml := c.online i statStart
    let p := fun j => softProb ml (c.z i j)
    let sel := topK c.w.k (js.map (fun j => (c.at_ c.in0 i j, j)))
    let gate := fun j => if c.w.renorm then renormed p sel j else p j
    { out0 := (List.range c.w.k).map (fun q => { row := i, col := q, val := (sel[q]?.map gate).getD fZero }),
      out1 := (List.range c.w.k).map (fun q => { row := i, col := q, val := (sel[q]?.map (fun j => fInt (j : Int))).getD (fInt (-1)) }),
      stats := if c.w.saveStats then [c.rec_ c.w.statSet i ml.1 ml.2] else [],
      counts := if js.length < c.w.k then [(0x08, 1)] else [] })

/-- ROUTE_BWD (R165). -/
def RowCtx.routeBwd (c : RowCtx) : RowOut :=
  c.byRow (fun i =>
    let ml := c.stat c.w.statSet i
    let p := fun j => softProb ml (c.z i j)
    let named := (wideCols c.in1 i).map (fun q => (roundInt (c.at_ c.in1 i q), c.at_ c.in2 i q))
    let sel := (c.colsOf i).filter (fun (j : Nat) => named.any (fun e => e.1 == (j : Int)))
    let g := fun (j : Nat) => ((named.find? (fun e => e.1 == (j : Int))).map Prod.snd).getD fZero
    let q := fun j => if c.w.renorm then renormed p sel j else p j
    let s := fSum (sel.map (fun j => fMul (g j) (q j)))
    .one (c.emit i (fun j =>
      if sel.contains j then fMul (q j) (fSub (g j) s)
      else if c.w.renorm then fZero else fMul (p j).neg s)))

/-! ### Cross-entropy (R166) -/

/-- The label of a row, where it has one. -/
def RowCtx.label (c : RowCtx) (i : Nat) : Option Int :=
  c.in1.bind (fun o => if o.inExtent [0, i] then some (roundInt (c.m.get o [0, i])) else none)

/-- The first row whose label is total_cols or more. -/
def RowCtx.badLabel (c : RowCtx) : Option (Nat × Int) :=
  ((List.range c.rows).filterMap (fun i => (c.label i).bind (fun y => if (c.total : Int) ≤ y then some (i, y) else none))).head?

/-- XENT_FWD past its label pass. Negative labels count in OD 0x3160:07 here, once each, in WHOLE and LAST, and never in XENT_BWD
(DESIGN CHOICE, log 23: the spec does not say at which chunk or pass). -/
def RowCtx.xentFwd (c : RowCtx) : RowOut :=
  c.byRow (fun i =>
    match c.label i with
    | none => .one []
    | some y =>
      let ml := c.online i (if c.w.starts then statStart else c.stat c.w.statSet i)
      let col := y - (c.colPos : Int)
      let here := decide (0 ≤ col) && (c.inCols i).contains col.toNat
      let zy := if here then c.z i col.toNat else if c.w.starts then fZero else (c.stat (c.w.statSet + 1) i).1
      { out0 := if c.w.ends then
            [{ row := i, col := 0, val := if y < 0 then fZero else fSub (fAdd (fLog ml.2) ml.1) zy }] else [],
        out1 := [], stats := [c.rec_ c.w.statSet i ml.1 ml.2, c.rec_ (c.w.statSet + 1) i zy fZero],
        counts := if c.w.ends && decide (y < 0) then [(0x07, 1)] else [] })

/-- XENT_BWD. -/
def RowCtx.xentBwd (c : RowCtx) : RowOut :=
  c.byRow (fun i =>
    match c.label i with
    | none => .one []
    | some y =>
      let ml := c.stat c.w.statSet i
      .one (c.emit i (fun j =>
        if y < 0 then fZero
        else fMul c.p1 (fSub (softProb ml (c.z i j)) (if ((c.colPos + j : Nat) : Int) = y then fOne else fZero)))))

/-! ### Activations (R167, R168) -/

/-- Whether a value counts as above zero. -/
def isPos (x : FVal) : Bool := fZero.lt x

/-- 1 / (1 + exp(−x)). -/
def sigmoid (x : FVal) : FVal := fRecip (fAdd fOne (fExp x.neg))

/-- One half. -/
def fHalf : FVal := .fin false 1 (-1)

/-- x / sqrt 2 with the constant rounded to FP32. -/
def overRoot2 (x : FVal) : FVal := fMul x (ofF32 0x3F3504F3)

/-- The argument of the tanh form: sqrt(2/π) × (x + 0.044715 × x³). -/
def geluArg (x : FVal) : FVal := fMul (ofF32 0x3F4C422A) (fAdd x (fMul (ofF32 0x3D372713) (fMul (fMul x x) x)))

/-- f of R167. The compositions of the sigmoid, softplus, SiLU and GELU forms are the model's (DESIGN CHOICE). -/
def actF (act : Nat) (p1 x : FVal) : FVal :=
  match act with
  | 1 => if x = .nan || isPos x then x else fZero
  | 2 => if x = .nan || isPos x then x else fMul p1 x
  | 3 => sigmoid x
  | 4 => fTanh x
  | 5 => if x = .nan || isPos x then x else fMul p1 (fExpm1 x)
  | 6 => fLog (fAdd fOne (fExp x))
  | 7 => fMul x (sigmoid x)
  | 8 => fMul (fMul fHalf x) (fAdd fOne (fErf (overRoot2 x)))
  | 9 => fMul (fMul fHalf x) (fAdd fOne (fTanh (geluArg x)))
  | _ => x

/-- f′ of R167 from the saved output. -/
def actSlopeY (act : Nat) (p1 y : FVal) : FVal :=
  match act with
  | 1 => if isPos y then fOne else fZero
  | 2 => if isPos y then fOne else p1
  | 3 => fMul y (fSub fOne y)
  | 4 => fSub fOne (fMul y y)
  | 5 => if isPos y then fOne else fAdd y p1
  | 6 => (fExpm1 y.neg).neg
  | _ => fOne

/-- f′ at the side value (R167, R168). -/
def actSlopeX (act : Nat) (p1 x : FVal) : FVal :=
  match act with
  | 7 =>
    let s := sigmoid x
    fMul s (fAdd fOne (fMul x (fSub fOne s)))
  | 8 =>
    let phi := fMul (ofF32 0x3ECC422A) (fExp (fMul fHalf.neg (fMul x x)))
    fAdd (fMul fHalf (fAdd fOne (fErf (overRoot2 x)))) (fMul x phi)
  | 9 =>
    let t := fTanh (geluArg x)
    let du := fMul (ofF32 0x3F4C422A) (fAdd fOne (fMul (ofF32 0x3E095D4F) (fMul x x)))
    fAdd (fMul fHalf (fAdd fOne t)) (fMul (fMul fHalf x) (fMul (fSub fOne (fMul t t)) du))
  | a => actSlopeY a p1 (actF a p1 x)

/-- ACT_FWD (R167, R168). -/
def RowCtx.actFwd (c : RowCtx) : RowOut :=
  c.byRow (fun i =>
    { out0 := c.emit i (fun j =>
        let y := actF c.w.act c.p1 (c.at_ c.in0 i j)
        if c.w.gateMul then fMul y (c.at_ c.in1 i j) else y),
      out1 := if c.w.sideOut then c.emit i (fun j => c.at_ c.in0 i j) else [], stats := [], counts := [] })

/-- ACT_BWD (R167, R168). -/
def RowCtx.actBwd (c : RowCtx) : RowOut :=
  let side := decide (7 ≤ c.w.act) || c.w.gateMul
  c.byRow (fun i =>
    let dy := fun j => c.at_ c.in0 i j
    let v := fun j => c.at_ c.in1 i j
    { out0 := c.emit i (fun j =>
        let d := if c.w.gateMul then fMul (dy j) (c.at_ c.in2 i j) else dy j
        fMul d (if side then actSlopeX c.w.act c.p1 (v j) else actSlopeY c.w.act c.p1 (v j))),
      out1 := if c.w.gateMul then c.emit i (fun j => fMul (dy j) (actF c.w.act c.p1 (v j))) else [], stats := [], counts := [] })

/-- The outputs of the function that an instruction names. -/
def RowCtx.compute (c : RowCtx) : RowOut :=
  match c.w.func with
  | 0x01 => c.normFwd true
  | 0x02 => c.normFwd false
  | 0x03 => c.softmaxFwd
  | 0x04 => c.onlineSoftmax
  | 0x05 => c.onlineFinal
  | 0x06 => c.topkRoute
  | 0x07 => c.xentFwd
  | 0x08 => c.actFwd
  | 0x11 => c.normBwd true
  | 0x12 => c.normBwd false
  | 0x13 => c.softmaxBwd
  | 0x14 => c.rowdot
  | 0x15 => c.attnBwdP
  | 0x16 => c.routeBwd
  | 0x17 => c.xentBwd
  | 0x18 => c.actBwd
  | _ => c.gainGrad

/-! ### What a function reads and writes -/

/-- The indices of a whole row grid. -/
def RowCtx.gridIx (c : RowCtx) : List (List Nat) := c.inRows.flatMap (fun i => (c.inCols i).map (fun j => [j, i]))

/-- The indices of a vector by column. -/
def RowCtx.colIx (c : RowCtx) : List (List Nat) := (List.range c.cols).map (fun j => [j, 0])

/-- The indices of a vector by row. -/
def RowCtx.rowIx (c : RowCtx) : List (List Nat) := (List.range c.rows).map (fun i => [0, i])

/-- The indices of an operand of its own width. -/
def RowCtx.wideIx (c : RowCtx) (o : Option Operand) : List (List Nat) := c.inRows.flatMap (fun i => (wideCols o i).map (fun j => [j, i]))

/-- The inputs of a function with the indices it reads of each (R197). -/
def RowCtx.inputs (c : RowCtx) : List (Operand × List (List Nat)) :=
  let f := c.w.func
  let ix1 := if f = 0x01 || f = 0x02 then c.colIx
    else if f = 0x07 || f = 0x17 then c.rowIx
    else if f = 0x04 || f = 0x16 then c.wideIx c.in1
    else c.gridIx
  let ix2 := if f = 0x01 || f = 0x02 || f = 0x11 || f = 0x12 then c.colIx
    else if f = 0x15 then c.rowIx
    else if f = 0x16 then c.wideIx c.in2
    else c.gridIx
  (c.in0.map (fun o => (o, c.gridIx))).toList ++ (c.in1.map (fun o => (o, ix1))).toList ++ (c.in2.map (fun o => (o, ix2))).toList

/-- The slots of one input. -/
def inputSlots (p : Operand × List (List Nat)) : List Nat := p.1.slots p.2

/-- The statistics wait of a row instruction (R171): the pages of its reads, then those of its writes. -/
def RowCtx.statWait (c : RowCtx) : Option Wait :=
  (c.m.core c.i.core).statWait c.w.statReads c.w.statWrites c.statRow c.rows

/-- The bytes that a row instruction fetches of pages that it holds only while it reads them. -/
def RowCtx.streamed (c : RowCtx) : Nat :=
  (((c.m.core c.i.core).lacks c.w.statReads c.statRow c.rows).map (fun k => (c.m.job c.i.job).pageBytes k.1 k.2)).sum

/-- Whether an input element or a record read carries poison (R154). -/
def RowCtx.poisoned (c : RowCtx) : Bool :=
  c.inputs.any (fun p => p.2.any (c.m.getPoison p.1)) ||
  c.w.statReads.any (fun s => (List.range c.rows).any (fun i => c.m.statPoisonAt c.i.job c.i.core s (c.statRow + i)))

/-- One output written: a braid-8 output is released as a slice (R159), any other leaves through the store path. -/
def Module.rowWrite (m : Module) (o : Option Operand) (es : List OutElem) : Module :=
  match o with
  | none => m
  | some o => if o.fmt = .braid8 then m.releaseSlice o es else m.writeOut o es 0 true

/-- Whether a braid-8 output must wait for its staging slot (R300). -/
def Module.gradWaits (m : Module) (o : Option Operand) (es : List OutElem) : Bool :=
  match o with
  | none => false
  | some o => o.fmt == .braid8 && m.outWaits o es

/-- The slots that an output sets FULL. -/
def Module.outSlots (m : Module) (o : Option Operand) (es : List OutElem) : List Nat :=
  match o with
  | none => []
  | some o => if o.fmt = .braid8 then [] else m.storeSlots o (es.map (fun e => [e.col, e.row]))

/-- Holds the core for the combine turn of an output that has one, or goes on (R186). -/
def Module.turnOf (m : Module) (i : Inst) (o : Option Operand) (body : Module → Module) : Module :=
  match o with
  | none => body m
  | some o => m.withTurn i o body

/-- A row instruction past its issue checks: it waits for its slots, its pages or its turn, ends POISON, or commits all
its outputs and records together (R154, R156). -/
def RowCtx.run (fu : Fuses) (c : RowCtx) : Module :=
  let m := c.m
  let i := c.i
  let r := c.compute
  let fulls := (c.inputs.flatMap inputSlots).eraseDups
  let consume := ((c.inputs.filter (fun p => p.1.ref.consume)).flatMap inputSlots).eraseDups
  let outs := (m.outSlots c.out0 r.out0 ++ m.outSlots c.out1 r.out1).eraseDups
  match m.tagWait i.core fulls outs consume with
  | some w => m.hold i.core w
  | none =>
    match c.statWait with
    | some w => m.hold i.core w
    | none =>
      m.turnOf i c.out0 (fun m => m.turnOf i c.out1 (fun m =>
        if m.gradWaits c.out0 r.out0 || m.gradWaits c.out1 r.out1 then m.hold i.core .turn
        else if c.poisoned then m.enginePoison fu i
        else
          let m := (m.rowWrite c.out0 r.out0).rowWrite c.out1 r.out1
          let m := (m.bump (odKey 0x3160 3) c.streamed).putStats i.job i.core r.stats
          (r.counts.foldl (fun (m : Module) k => m.bump (odKey 0x3160 k.1) k.2) m).engineCommit fu i fulls outs consume))

/-- The label pass of XENT_FWD (R166): it waits for its labels, and a label of total_cols or more ends the instruction. -/
def RowCtx.labelPass (fu : Fuses) (c : RowCtx) : Module :=
  let m := c.m
  let i := c.i
  match c.in1 with
  | none => c.run fu
  | some o =>
    match m.tagWait i.core (o.slots c.rowIx) [] [] with
    | some w => m.hold i.core w
    | none =>
      if c.rowIx.any (m.getPoison o) then m.enginePoison fu i
      else
        match c.badLabel with
        | some b =>
          ((m.bump (odKey 0x3160 6) 1).event fu 0x0331 [i.job, i.core, b.1, unsigned 32 b.2, c.total]).issueFail fu i
            { status := stBadIndex, value := unsigned 32 b.2, plan := c.total }
        | none => c.run fu

/-- The statistics range check of R170: the first set that the row range passes. -/
def RowCtx.statBad (c : RowCtx) : Option Bad :=
  (c.w.statReads ++ c.w.statWrites).findSome? (fun s =>
    let rows := (((c.m.job c.i.job).statSet s).map StatSet.rows).getD 0
    if rows < c.statRow + c.rows then some { status := stShape, value := c.statRow + c.rows, plan := rows } else none)

/-- A row instruction at its core (R201, R202). -/
def Module.rowCmdAt (fu : Fuses) (us : List Upset) (m : Module) (i : Inst) : Module :=
  let ws := i.words
  let sr := m.shapeOf i (readShape (loOf ws 6))
  if !(shapeIsLate us && hasShapeWord (rowShapes ws)) && sr % 8 != 0 then
    m.issueFail fu i { status := stMalformed, value := sr, plan := field (loOf ws 6) 0 24 }
  else
    m.withShapes fu us (rowShapes ws) (rowRefs ws) i (fun m i =>
      let c := m.rowCtx i
      match c.statBad with
      | some b => m.issueFail fu i b
      | none =>
        if c.rows = 0 || c.cols = 0 then m.emptyOp fu i
        else if c.w.func = 0x07 then c.labelPass fu else c.run fu)

/-- The statistics pages that an instantiation uses; none where it is no row instruction. -/
def Module.statPages (m : Module) (i : Inst) : List (Nat × Nat) :=
  if classOf i.words != 3 then []
  else
    let w := readRow i.words
    statUses w.statReads w.statWrites (m.shapeOf i (readShape (loOf i.words 6))) (m.shapeOf i (readShape (hiOf i.words 5)))

/-- Whether no page is free for what the instruction of a core still needs (R171). -/
def Module.pagesShort (m : Module) (g : Nat) (i : Inst) : Bool :=
  if classOf i.words != 3 then decide (512 ≤ (m.core g).mem.pages.length)
  else
    let w := readRow i.words
    (m.core g).pagesShort w.statReads w.statWrites (m.shapeOf i (readShape (loOf i.words 6))) (m.shapeOf i (readShape (hiOf i.words 5)))

/-- The instructions from index `pc` on in the order in which a core comes to them: an ENDLOOP whose loop has iterations left goes back
once for each, within `n` instructions; `loops` holds the open loops, innermost first, as LOOP index and iterations left. A LOOP whose
count is known when it is met opens; TAKE targets are not followed. -/
def walkFrom (count : Words → Nat) (st : List Words) : Nat → Nat → List (Nat × Nat) → List (Words × Nat)
  | 0, _, _ => []
  | n + 1, pc, loops =>
    match st[pc]? with
    | none => []
    | some w =>
      let go := fun pc loops => (w, pc - 1) :: walkFrom count st n pc loops
      if classOf w == 5 && opOf w == 2 then go (pc + 1) ((pc, count w - 1) :: loops)
      else if classOf w == 5 && opOf w == 3 then
        match loops with
        | (a, k + 1) :: ls => (w, pc) :: walkFrom count st n (a + 1) ((a, k) :: ls)
        | _ => go (pc + 1) (loops.drop 1)
      else go (pc + 1) loops

/-- The row instructions that core `g` comes to next, at most 8, before the next PASS_END (R173). -/
def Module.rowsAhead (m : Module) (g j : Nat) : List (Words × Nat) :=
  let q := (m.core g).seq
  let st := (m.job j).stream g
  let count := fun (w : Words) => m.shapeOf { job := j, core := g, index := 0, words := w, entry := q.takes.head? } (readShape (hiOf w 2))
  (((walkFrom count st (8 * st.length + 8) q.pc (q.loops.map (fun f => (f.at_, f.left)))).takeWhile (fun w =>
    !(classOf w.1 == 5 && opOf w.1 == 6))).filter (fun w => classOf w.1 == 3)).take 8

/-- The home address of a page. -/
def Job.pageHome (b : Job) (k : Nat × Nat) : Nat := ((b.statSet k.1).map StatSet.home).getD 0 + 4096 * k.2

/-- The statistics pages that the next 8 row instructions of a core read before the next PASS_END (R173), which are fetched ahead of
time. -/
def Module.statAhead (m : Module) (g j : Nat) : List (Nat × Nat) :=
  let q := (m.core g).seq
  ((m.rowsAhead g j).flatMap (fun w =>
    let i : Inst := { job := j, core := g, index := w.2, words := w.1, entry := q.takes.head? }
    statUses (readRow w.1).statReads [] (m.shapeOf i (readShape (loOf w.1 6))) (m.shapeOf i (readShape (hiOf w.1 5))))).eraseDups

/-- The page that is fetched ahead of time next (R173): of those that the core does not hold whole, the lowest by its home address. -/
def Module.nextAhead (m : Module) (g j : Nat) : Option (Nat × Nat) :=
  let whole := fun (k : Nat × Nat) => ((m.core g).page k.1 k.2).any (fun p =>
    (List.range (((m.job j).pageBytes k.1 k.2 + 63) / 64)).all (bitAt p.valid))
  ((m.statAhead g j).filter (fun k => !whole k)).foldl (fun (x : Option (Nat × Nat)) k =>
    match x with
    | none => some k
    | some y => if (m.job j).pageHome k < (m.job j).pageHome y then some k else some y) none

/-- The class and function of a row of the row engine. -/
def isRow (func : Nat) (ws : Words) : Bool := classOf ws == 3 && (readRow ws).func == func

/-- The command of one row function at core `g`. -/
def rowCommand (func g : Nat) (ups : List Upset) (s : State) : Host.Outcome State Fault Refusal :=
  s.actOn (g < 384) (fun fu m => m.issueRow fu g (isRow func) ups (fun m i => m.rowCmdAt fu ups i))

/-- LAYERNORM_FWD. -/
def execLayernormFwd (g : Nat) (ups : List Upset) (s : State) : Host.Outcome State Fault Refusal := rowCommand 0x01 g ups s

/-- RMSNORM_FWD. -/
def execRmsnormFwd (g : Nat) (ups : List Upset) (s : State) : Host.Outcome State Fault Refusal := rowCommand 0x02 g ups s

/-- SOFTMAX_FWD. -/
def execSoftmaxFwd (g : Nat) (ups : List Upset) (s : State) : Host.Outcome State Fault Refusal := rowCommand 0x03 g ups s

/-- ONLINE_SOFTMAX. -/
def execOnlineSoftmax (g : Nat) (ups : List Upset) (s : State) : Host.Outcome State Fault Refusal := rowCommand 0x04 g ups s

/-- ONLINE_FINAL. -/
def execOnlineFinal (g : Nat) (ups : List Upset) (s : State) : Host.Outcome State Fault Refusal := rowCommand 0x05 g ups s

/-- TOPK_ROUTE. -/
def execTopkRoute (g : Nat) (ups : List Upset) (s : State) : Host.Outcome State Fault Refusal := rowCommand 0x06 g ups s

/-- XENT_FWD. -/
def execXentFwd (g : Nat) (ups : List Upset) (s : State) : Host.Outcome State Fault Refusal := rowCommand 0x07 g ups s

/-- ACT_FWD. -/
def execActFwd (g : Nat) (ups : List Upset) (s : State) : Host.Outcome State Fault Refusal := rowCommand 0x08 g ups s

/-- LAYERNORM_BWD. -/
def execLayernormBwd (g : Nat) (ups : List Upset) (s : State) : Host.Outcome State Fault Refusal := rowCommand 0x11 g ups s

/-- RMSNORM_BWD. -/
def execRmsnormBwd (g : Nat) (ups : List Upset) (s : State) : Host.Outcome State Fault Refusal := rowCommand 0x12 g ups s

/-- SOFTMAX_BWD. -/
def execSoftmaxBwd (g : Nat) (ups : List Upset) (s : State) : Host.Outcome State Fault Refusal := rowCommand 0x13 g ups s

/-- ROWDOT. -/
def execRowdot (g : Nat) (ups : List Upset) (s : State) : Host.Outcome State Fault Refusal := rowCommand 0x14 g ups s

/-- ATTN_BWD_P. -/
def execAttnBwdP (g : Nat) (ups : List Upset) (s : State) : Host.Outcome State Fault Refusal := rowCommand 0x15 g ups s

/-- ROUTE_BWD. -/
def execRouteBwd (g : Nat) (ups : List Upset) (s : State) : Host.Outcome State Fault Refusal := rowCommand 0x16 g ups s

/-- XENT_BWD. -/
def execXentBwd (g : Nat) (ups : List Upset) (s : State) : Host.Outcome State Fault Refusal := rowCommand 0x17 g ups s

/-- ACT_BWD. -/
def execActBwd (g : Nat) (ups : List Upset) (s : State) : Host.Outcome State Fault Refusal := rowCommand 0x18 g ups s

/-- GAIN_GRAD. -/
def execGainGrad (g : Nat) (ups : List Upset) (s : State) : Host.Outcome State Fault Refusal := rowCommand 0x19 g ups s

end Sys2Proof.Machine
end

