-- ==== Sys2Proof/Machine/Twine.lean ====
section
/-!
DEFINITION. The die grid and the twine (R17 to R21): the neighbours of a die and its ports, the ends and the kind of every
link, the way of an HBM access, the virtual channels with their traffic, dimension-ordered routing, and the arbitration of
each level. Between two commands no packet is under way, so every buffer is empty and every credit is home; what an arbiter
grants first within one cycle decides times only (R30; notes/assumptions/22.md).
-/
namespace Sys2Proof.Machine

/-! ### The grid (R17) -/

/-- The row of a compute die. -/
def dieRow (d : Nat) : Nat := d / 8

/-- The column of a compute die. -/
def dieCol (d : Nat) : Nat := d % 8

/-- The die of a pair's partner (R17). -/
def pairDie (d : Nat) : Nat := if d % 2 = 0 then d + 1 else d - 1

/-- The four mesh directions. -/
inductive MeshDir where
  | north | south | east | west
  deriving DecidableEq, Repr

/-- The compute die that a mesh port faces: N faces row r − 1 and W faces column c − 1. -/
def meshNeighbour (d : Nat) : MeshDir → Option Nat
  | .north => if dieRow d = 0 then none else some (d - 8)
  | .south => if dieRow d = 5 then none else some (d + 8)
  | .east => if dieCol d = 7 then none else some (d + 1)
  | .west => if dieCol d = 0 then none else some (d - 1)

/-- The ports of a compute die: four mesh ports and one pair-bridge port. -/
inductive TwinePort where
  | mesh (dir : MeshDir)
  | bridge
  deriving DecidableEq, Repr

/-! ### Links (R18) -/

/-- The kinds of twine link. -/
inductive LinkKind where
  | meshEdge | pairBridge | edgeLink
  deriving DecidableEq, Repr

/-- The ends of a link: its kind and the two dies that it joins, E0 to E3 as 48 to 51. -/
structure LinkEnds where
  kind : LinkKind
  a : Nat
  b : Nat
  deriving DecidableEq, Repr

/-- The attachments of the edge dies: compute die, port and edge die. -/
def edgeAttach : List (Nat × MeshDir × Nat) :=
  [(3, .north, 48), (4, .north, 48), (23, .east, 49), (31, .east, 49), (43, .south, 50), (44, .south, 50), (16, .west, 51),
   (24, .west, 51)]

/-- The 42 horizontal mesh edges, row by row, then the 40 vertical ones. -/
def meshEdges : List LinkEnds :=
  ((List.range 48).filter (fun d => dieCol d != 7)).map (fun d => { kind := .meshEdge, a := d, b := d + 1 }) ++
  ((List.range 48).filter (fun d => dieRow d != 5)).map (fun d => { kind := .meshEdge, a := d, b := d + 8 })

/-- The links by number: the mesh edges, the bridges by pair, the edge links. -/
def twineLinks : List LinkEnds :=
  meshEdges ++ (List.range 24).map (fun p => { kind := .pairBridge, a := 2 * p, b := 2 * p + 1 }) ++
  edgeAttach.map (fun x => { kind := .edgeLink, a := x.1, b := x.2.2 })

/-- The die that a port of a compute die reaches, over a mesh edge, an edge link or the bridge. -/
def portReaches (d : Nat) : TwinePort → Option Nat
  | .bridge => some (pairDie d)
  | .mesh dir =>
    match meshNeighbour d dir with
    | some n => some n
    | none => (edgeAttach.find? (fun x => x.1 == d && x.2.1 == dir)).map (fun x => x.2.2)

/-- Whether a port reads as absent in the die controller: it faces the package boundary and carries no edge link. -/
def portAbsent (d : Nat) (p : TwinePort) : Bool := (portReaches d p).isNone

/-- The link that a port is the end of. -/
def portLink (d : Nat) (p : TwinePort) : Option Nat :=
  (portReaches d p).bind (fun n => indexOf (fun (l : LinkEnds) =>
    (l.kind == .pairBridge) == (p == .bridge) && ((l.a == d && l.b == n) || (l.a == n && l.b == d))) twineLinks)

/-- The links of a die. -/
def linksOf (d : Nat) : List Nat :=
  (twineLinks.zipIdx.filter (fun x => x.1.a == d || x.1.b == d)).map Prod.snd

/-! ### Ways (R19, R21) -/

/-- The dies that a packet passes from a compute die to another: along the source row first, then along the column. -/
def meshRoute (src dst : Nat) : List Nat :=
  let along := (List.range (max (dieCol src) (dieCol dst) - min (dieCol src) (dieCol dst))).map (fun k =>
    8 * dieRow src + (if dieCol src ≤ dieCol dst then dieCol src + k + 1 else dieCol src - k - 1))
  let down := (List.range (max (dieRow src) (dieRow dst) - min (dieRow src) (dieRow dst))).map (fun k =>
    8 * (if dieRow src ≤ dieRow dst then dieRow src + k + 1 else dieRow src - k - 1) + dieCol dst)
  along ++ down

/-- The compute dies that an edge die is attached to, lower number first (R18). -/
def edgeDoors (e : Nat) : List Nat := (edgeAttach.filter (fun x => x.2.2 == e)).map (fun x => x.1)

/-- The door of an edge die with the shortest way on the grid to or from a compute die. DESIGN CHOICE (log entry 22): no rule says
which of its two doors a packet of an edge die takes; at equal length it is the lower die. -/
def edgeDoor (e d : Nat) : Nat :=
  match edgeDoors e with
  | [a, b] => if (meshRoute b d).length < (meshRoute a d).length then b else a
  | _ => d

/-- The dies that a packet passes between any two dies (R18, R21): the grid lies between the doors of the edge dies. -/
def twineRoute (src dst : Nat) : List Nat :=
  let into := if src < 48 then src else if dst < 48 then edgeDoor src dst else (edgeDoors src).headD 0
  let out := if dst < 48 then dst else edgeDoor dst into
  (if src < 48 then [] else [into]) ++ meshRoute into out ++ (if dst < 48 then [] else [dst])

/-- How a compute die reaches a half-interface. -/
inductive HbmWay where
  /-- Its own half of the stack of its pair. -/
  | own
  /-- The partner's half, over the pair bridge. -/
  | bridge
  /-- A half of another stack, over the mesh to the die that drives it. -/
  | mesh (dies : List Nat)
  deriving DecidableEq, Repr

/-- The die that drives a half-interface: half h mod 2 of S(h / 2) is die h's (R17, R355). -/
def halfDie (h : Nat) : Nat := h

/-- The half-interface of a module HBM address (R355). -/
def hbmHalf (addr : Nat) : Nat := addr / 4096 % 48

/-- The way of an access of a compute die to a module HBM address (R19). -/
def hbmWay (d addr : Nat) : HbmWay :=
  let t := halfDie (hbmHalf addr)
  if t = d then .own else if t = pairDie d then .bridge else .mesh (meshRoute d t)

/-- What the twine carries. -/
inductive TwineTraffic where
  | hbmReadRequest | hbmWrite | singleFill | singleStore
  | hbmReadResponse | writeAck
  | multicastFill | broadcastWeights
  | gradientSlice | reduction
  deriving DecidableEq, Repr

/-- The virtual channel of a packet, which it never leaves on its path (R21). -/
def TwineTraffic.vc : TwineTraffic → Nat
  | .hbmReadRequest | .hbmWrite | .singleFill | .singleStore => 0
  | .hbmReadResponse | .writeAck => 1
  | .multicastFill | .broadcastWeights => 2
  | .gradientSlice | .reduction => 3

/-- What the reels and the die controllers of a pair exchange. -/
inductive PairTraffic where
  | reelOverflow | heartbeat | fence
  deriving DecidableEq, Repr

/-- Where a packet from one die to another travels: over the bridge of a pair, or over the mesh in a channel. -/
inductive TwineWay where
  | bridge
  | mesh (vc : Nat) (dies : List Nat)
  deriving DecidableEq, Repr

/-- Whether traffic is that of an HBM access, which partners exchange over their bridge. -/
def TwineTraffic.ofHbm : TwineTraffic → Bool
  | .hbmReadRequest | .hbmWrite | .hbmReadResponse | .writeAck => true
  | _ => false

/-- The way of a packet between two dies (R19, R21): traffic between a die and its partner's half of the shared stack takes
the bridge, all other traffic of the channels the mesh. -/
def twineWay (t : TwineTraffic) (src dst : Nat) : TwineWay :=
  if t.ofHbm && decide (src < 48) && dst == pairDie src then .bridge else .mesh t.vc (twineRoute src dst)

/-- The way of what partners exchange (R19): reel overflow, heartbeats and fence messages take the bridge, and go to no other
die on it. -/
def PairTraffic.way (_ : PairTraffic) (src dst : Nat) : Option TwineWay :=
  if src < 48 && dst == pairDie src then some .bridge else none

/-- The way of an entry that a die takes from the reel of its pair die (R19, R229). -/
def overflowWay (d : Nat) : Option TwineWay := PairTraffic.reelOverflow.way (pairDie d) d

/-- Where a die controller's fence and error messages go: never with data. -/
inductive ControlWay where
  /-- To the partner, over the pair bridge. -/
  | bridge
  /-- To E0, over the management ring in the S clock domain. -/
  | ring
  deriving DecidableEq, Repr

/-- The way of a message of die controller `d` (R21): to its partner or to E0, and to no other die. -/
def controlWay (d dst : Nat) : Option ControlWay :=
  if (PairTraffic.fence.way d dst).isSome then some .bridge else if dst = 48 then some .ring else none

/-! ### Virtual channels at an output port (R20, R21) -/

/-- The next of `n` contenders in round-robin order after the one served last. -/
def roundRobin (n last : Nat) (ready : Nat → Bool) : Option Nat :=
  ((List.range n).map (fun k => (last + 1 + k) % n)).find? ready

/-- The channel that an output port serves: round-robin among those that hold a packet and a credit. -/
def grantVc (last : Nat) (vcs : List VcBuffer) : Option Nat :=
  roundRobin 4 last (fun c => (vcs[c]?.map (fun v => !v.packets.isEmpty && decide (v.spent < Config.vcCredits))).getD false)

/-- The port after its grant: the oldest packet of the channel leaves and takes a credit. -/
def sendVc (last : Nat) (vcs : List VcBuffer) : Option (Nat × Nat × List VcBuffer) :=
  (grantVc last vcs).bind (fun c => (vcs[c]?.bind (fun v => v.packets.head?)).map (fun p =>
    (c, p, modifyAt (fun v => { packets := v.packets.drop 1, spent := v.spent + 1 }) vcs c)))

/-! ### Core and cluster (R20) -/

/-- The DMA channel that goes first among those ready in one A-cycle: round-robin by channel. -/
def grantDma (last : Nat) (ready : Nat → Bool) : Option Nat := roundRobin 8 last ready

/-- Who contends for a cluster's memory banks and crossbar outputs. -/
inductive ClusterSource where
  /-- A fill or store of one of the 4 cores. -/
  | core (n : Nat)
  | layoutUnit
  | twine
  deriving DecidableEq, Repr

/-- The rank of a source at equal age: the lower core first, twine arrivals last. DESIGN CHOICE (log entry 22): R20 gives the layout
unit no place at equal age; it stands between them. -/
def ClusterSource.rank : ClusterSource → Nat
  | .core n => min n 3
  | .layoutUnit => 4
  | .twine => 5

/-- A request to a cluster's memory: its arrival F-cycle and its source. -/
structure ClusterReq where
  arrival : Nat
  source : ClusterSource
  deriving DecidableEq, Repr

/-- Whether a request goes before another: the older one, at equal age the source of lower rank. -/
def ClusterReq.before (x y : ClusterReq) : Bool :=
  x.arrival < y.arrival || (x.arrival == y.arrival && x.source.rank < y.source.rank)

/-- The request that a cluster serves first. -/
def grantCluster : List ClusterReq → Option ClusterReq
  | [] => none
  | x :: xs =>
    match grantCluster xs with
    | none => some x
    | some y => if y.before x then some y else some x

end Sys2Proof.Machine
end

