-- ==== Sys2Proof/Machine/Reels.lean ====
section
/-!
DEFINITION. Reel templates and die reels (R225 to R231): the grid of a template, its entries in order, their dealing to
the dies, and the taking of an entry.
-/
namespace Sys2Proof.Machine

/-- The positions of a range of each loop index, the last listed index running fastest. -/
def tuplesIn (lo hi : Nat → Nat) : List Nat → List Nat → List (List Nat)
  | [], pos => [pos]
  | g :: gs, pos => (List.range (hi g - lo g)).flatMap (fun k => tuplesIn lo hi gs (pos.set g (lo g + k)))

/-- The entries of a template for the run-time counts, in the order of their numbers (R226): the block of each and its
positions. The block grid is that of the run-time counts. -/
def Template.grid (t : Template) (counts : List Nat) : List (Nat × List Nat) :=
  let cnt := fun g => counts.getD g 0
  let blk := fun g => max 1 ((t.loops[g]?.map ReelLoop.block).getD 1)
  if (List.range 5).any (fun g => cnt g == 0) then []
  else
    ((tuplesIn (fun _ => 0) (fun g => ceilDiv (cnt g) (blk g)) t.l1.reverse [0, 0, 0, 0, 0]).zipIdx).flatMap (fun b =>
      (tuplesIn (fun g => b.1.getD g 0 * blk g) (fun g => min (cnt g) ((b.1.getD g 0 + 1) * blk g)) t.l2.reverse
        [0, 0, 0, 0, 0]).map (fun pos => (b.2, pos)))

/-- The run-time counts of a template: read once per step from plans and bound slots (R226). A bound count above its plan builds the
larger grid (DESIGN CHOICE, log 23: R201's check stands at an instruction's issue, and no rule says what step start does). -/
def Module.reelCounts (m : Module) (j : Nat) (t : Template) : List Nat := t.loops.map (fun l => (m.shape j 0 l.count).get)

/-- The dies that hold a live core of the job in a role that takes from a template, ascending (R228). -/
def Module.reelDies (m : Module) (j : Nat) (t : Template) : List Nat :=
  (List.range 48).filter (fun d => (m.liveCores j).any (fun g =>
    dieOf g == d && bitAt t.roles ((m.job j).image.roleMap.getD (g % 8) 0xFF)))

/-- Whether the output tile of a weight-gradient product under APPLY has only zero masks at an entry's coordinates (R139, R143). -/
def Module.zeroTile (m : Module) (i : Inst) : Bool :=
  classOf i.words == 1 && bitAt (wordAt i.words 5) 16 && (readRef (hiOf i.words 3)).fid == 2 &&
  (match m.operand i (hiOf i.words 3) true 0 with
   | none => false
   | some o =>
     let p := m.packing o false (o.lay.axisPlan 1)
     let rows := m.shapeOf i (readShape (hiOf i.words 4))
     let cols := m.shapeOf i (readShape (loOf i.words 4))
     let at_ := o.index [0, 0]
     let span := fun (a n : Nat) => (List.range ((a + n + 127) / 128 - a / 128)).map (· + a / 128)
     (m.job i.job).maskEntry o |>.any (fun _ => (span (at_.getD 1 0) rows).all (fun k => (span (at_.getD 0 0) cols).all (fun c =>
       p.masks.getD (p.tileOf (128 * k) (128 * c)) 0 == 0))))

/-- An entry of template `n` at its positions, as a core would take it. -/
def Template.entryAt (t : Template) (n e : Nat) (pos : List Nat) : Entry :=
  { tmpl := n, e := e, p := pos.getD t.pIndex 0, coords := (List.range 5).map (fun g =>
      pos.getD g 0 * ((t.loops[g]?.map ReelLoop.step).getD 0)), at_ := 0, target := 0, epoch := 0 }

/-- Whether a reel holds no entry for a position (R139): what the entry would write are weight-gradient products whose output tiles have
a zero mask, beside what it stages in scratchpad and, by movements, in cluster memory. The coordinates of a template with a per-problem
base are not known when it is dealt. -/
def Module.entryEmpty (m : Module) (j n : Nat) (t : Template) (e : Nat) (pos : List Nat) : Bool :=
  let outs := ((m.job j).streamsNow.flatMap (fun st => regionOf st n)).filter (fun x => (outRefs x.1).any (fun w =>
    ((m.job j).image.buffers[(readRef w).buf]?).any (fun u =>
      (readRef w).buf != 0 && u.space != 0 && !(classOf x.1 == 4 && u.space == 1))))
  !t.pbaseEn && !outs.isEmpty && outs.all (fun x =>
    m.zeroTile { job := j, core := 0, index := x.2, words := x.1, entry := some (t.entryAt n e pos) })

/-- The elements of the output tile of a weight-gradient product that no reel entry covers, as a slice that carries no code: the rope's
buckets and the tackles handle them like every element that no gradient value travels for (R242, R247, R280). -/
def Module.emptySlice (m : Module) (i : Inst) : List Slice :=
  if !m.zeroTile i then []
  else
    match m.operand i (hiOf i.words 3) true 0 with
    | none => []
    | some o =>
      let rows := List.range (m.shapeOf i (readShape (hiOf i.words 4)))
      let cols := List.range (m.shapeOf i (readShape (loOf i.words 4)))
      match (m.job i.job).tensorOfGrad o.ref.buf with
      | none => []
      | some t => [{ tensor := t, maxExp := [], sats := [], core := ((m.liveCores i.job).head?).getD 0,
                     elems := ((rows.flatMap (fun r => cols.map (fun c => [c, r]))).filter o.inExtent).map (fun ix =>
                       (o.byteOff (o.elemOff ix), noCode)) }]

/-- The slices of the entries that the reels of a job leave out (R139). -/
def Module.emptySlices (m : Module) (j : Nat) : List Slice :=
  (((m.job j).image.templates.zipIdx).flatMap (fun t =>
    (((t.1.grid (m.reelCounts j t.1)).zipIdx).filter (fun e => m.entryEmpty j t.2 t.1 e.2 e.1.2)).flatMap (fun e =>
      ((m.job j).streamsNow.flatMap (fun st => regionOf st t.2)).flatMap (fun x =>
        m.emptySlice { job := j, core := 0, index := x.2, words := x.1, entry := some (t.1.entryAt t.2 e.2 e.1.2) })))).eraseDups

/-- The die reels of a template (R228): block b goes to the (b mod D)-th die. -/
def Module.dealReel (m : Module) (j n : Nat) (t : Template) : List DieReel :=
  let dies := m.reelDies j t
  let es := ((t.grid (m.reelCounts j t)).zipIdx).filter (fun e => !m.entryEmpty j n t e.2 e.1.2)
  (dies.zipIdx).map (fun d =>
    { tmpl := n, die := d.1, left := (es.filter (fun e => e.1.1 % max 1 dies.length == d.2)).map Prod.snd })

/-- Every die reel of a job's step attempt. -/
def Module.dealReels (m : Module) (j : Nat) : List DieReel :=
  ((m.job j).image.templates.zipIdx).flatMap (fun t => m.dealReel j t.2 t.1)

/-- The lowest untaken entry that a core can take from a template: its number and the die that holds it (R229, R230). -/
def Module.nextEntry (m : Module) (g j n : Nat) : Option (Nat × Nat) :=
  let of := fun (d : Nat) => ((m.job j).run.reels.find? (fun r => r.tmpl == n && r.die == d)).bind (fun r => r.left.head?)
  match of (dieOf g) with
  | some e => some (e, dieOf g)
  | none =>
    if ((m.job j).image.templates[n]?).any (fun t => t.overflow && (m.reelDies j t).contains (dieOf g)) then
      (of (pairDie (dieOf g))).map (fun e => (e, pairDie (dieOf g)))
    else none

/-- An entry taken out of the reel of a die. -/
def Module.takeEntry (m : Module) (j n d e : Nat) : Module :=
  m.onRun j (fun r => { r with reels := r.reels.map (fun x =>
    if x.tmpl = n && x.die = d then { x with left := x.left.filter (fun y => y ≠ e) } else x) })

/-- The positions of entry `e` of a template. -/
def Module.entryPos (m : Module) (j n e : Nat) : List Nat :=
  (((m.job j).image.templates[n]?.bind (fun t => (t.grid (m.reelCounts j t))[e]?)).map Prod.snd).getD []

/-- The coordinates of an entry at the given positions (R227), with the per-problem base. -/
def Template.coords (t : Template) (pos : List Nat) (base : Nat) : List Nat :=
  (List.range 5).map (fun g => pos.getD g 0 * ((t.loops[g]?.map ReelLoop.step).getD 0) +
    (if t.pbaseEn && t.pbaseAxis == g then base else 0))

end Sys2Proof.Machine
end

