-- ==== Sys2Proof/Machine/Move.lean ====
section
/-!
DEFINITION. The core DMA (R94, R102, R119, R195, R220, R232 to R234, R339, R376 to R388): the units of 64 destination bytes
of a movement in their write order, how far a movement runs before a tag or an absent page holds it, coils, multicast
fills, and the completion of a movement.
-/
namespace Sys2Proof.Machine

/-! ### Fields -/

/-- The channel of a MOVE instruction. -/
def channelOf (ws : Words) : Nat := field (wordAt ws 1) 54 3

/-- The scope of a FILL; 0 is its own core. -/
def scopeOf (ws : Words) : Nat := field (wordAt ws 1) 61 3

/-! ### Paged experts (R335, R339) -/

/-- The residency entry of a paged expert of a job that is not FREE. -/
def Module.residentOf (m : Module) (j e : Nat) : Option Residency :=
  (m.residency.find? (fun r => r.2.job == j && r.2.expert == e && r.2.state != 0)).map Prod.snd

/-- The view that a LOAD_CM reads, and its expert e = expert_base + p (R339). -/
def Module.viewOf (m : Module) (i : Inst) : Option (View × Nat) :=
  match (m.job i.job).prog.experts with
  | none => none
  | some x =>
    if opOf i.words != 1 then none
    else
      (x.views.find? (fun v => v.buffer == (readRef (hiOf i.words 2)).buf)).bind (fun v =>
        (x.routers[v.router]?).map (fun r => (v, r.expertBase + i.problem)))

/-- Whether a page of an expert is in its frame. -/
def Module.pageHere (m : Module) (j e page : Nat) : Bool := (m.residentOf j e).any (fun r => bitAt r.present page)

/-- The job-region offset of byte `off` of an expert's page. -/
def Module.pageAddr (m : Module) (j e page off : Nat) : Nat :=
  (((m.job j).prog.experts.map Experts.poolBase).getD 0) +
    2 ^ 21 * ((((m.residentOf j e).map Residency.frame).getD 0) + page) + off

/-- The readers of a paged expert: the movements in channels that joined it (R339). -/
def Module.readersOf (m : Module) (j e : Nat) : Nat :=
  (m.cores.map (fun c => ((c.channels.flatMap id).filter (fun v => v.inst.job == j && v.reader.any (fun x => x.1 == e))).length)).sum

/-- The use stamp of the latest reader of a paged expert that is in flight or halted (R335); 0 where there is none. -/
def Module.readStamp (m : Module) (j e : Nat) : Nat :=
  ((m.cores.flatMap (fun c => (c.channels.flatMap id).filter (fun v => v.inst.job == j && v.reader.any (fun x => x.1 == e)))).map
    (fun v => (v.reader.map Prod.snd).getD 0)).foldl max 0

/-! ### The units of a movement -/

/-- What one element, scale byte or granule of a movement writes: its unit of 64 destination bytes, its destination byte
address, the bytes or, for a 4-bit element, the nibble, its poison, the source bytes it reads, and the expert pages it needs. -/
structure MoveItem where
  unit : Nat
  dst : Nat
  data : List Byte
  nib : Option Nat
  bad : Bool
  src : Option (Nat × Nat)
  pages : List Nat
  deriving DecidableEq, Repr

/-- A unit of a movement with the slots it reads and writes. -/
structure MoveUnit where
  items : List MoveItem
  reads : List Nat
  writes : List Nat
  deriving DecidableEq, Repr

/-- A movement laid out: its units, the saturations and the non-finite values of its conversions, and the bytes it leaves out
(R388). -/
structure MovePlan where
  units : List MoveUnit
  sats : Nat
  nonfins : Nat
  skipped : Nat
  deriving DecidableEq, Repr

/-- The logical index of a destination position, dimension 0 fastest over the planned extents (R222): `ws` are the weights
reached on each axis. -/
def posIndexFrom : List Dim → Nat → List Nat → List Nat → List Nat
  | [], _, _, ix => ix
  | d :: ds, n, ws, ix =>
    let r := d.extent.plan + 1
    let w := ws.getD d.axis 1
    posIndexFrom ds (n / r) (ws.set d.axis (w * r)) (ix.set d.axis (ix.getD d.axis 0 + n % r * w))

/-- The logical index of destination position `n` of a layout. -/
def posIndex (dims : List Dim) (n : Nat) : List Nat := (posIndexFrom dims n [1, 1, 1, 1, 1] [0, 0, 0, 0, 0]).take 5

/-- The planned elements of a layout. -/
def Layout.planned (l : Layout) : Nat := l.dims.foldl (fun n d => n * (d.extent.plan + 1)) 1

/-- Where a source element is read: its byte address, none for a view's absent page, and the page. -/
def Module.srcAddr (m : Module) (i : Inst) (src : Operand) (off : Nat) : Option Nat × Option Nat :=
  match m.viewOf i with
  | none => (some (src.addr off), none)
  | some v =>
    let page := v.1.pageOffset + off / 2 ^ 21
    (if m.pageHere i.job v.2 page then some (m.pageAddr i.job v.2 page (off % 2 ^ 21)) else none, some page)

/-- A raw code of an operand's format at a byte address; the parity of `e` selects a nibble. -/
def Module.codeHere (m : Module) (o : Operand) (a : Nat) (e : Int) : Nat :=
  if o.fmt.is4bit then field (leNat (m.bytesAt o.job o.core o.buf.space a 1)) (4 * (e % 2).toNat) 4
  else leNat (m.bytesAt o.job o.core o.buf.space a (o.fmt.bits / 8))

/-- An element of a movement before conversion: position, index, whether it is copied or padding (R220), its source code
and poison, its block scale with that byte's poison, its source address and its scale's, and pages. -/
structure MoveElem where
  pos : Nat
  ix : List Nat
  copied : Bool
  code : Nat
  scale : Nat
  bad : Bool
  scaleBad : Bool
  src : Option Nat
  scaleSrc : Option Nat
  pages : List Nat
  deriving DecidableEq, Repr

/-- The elements of a movement in write order, cut at `len` units (R220, R222). A fill writes its padding as +0. -/
def Module.moveElems (m : Module) (i : Inst) (src dst : Operand) (fill : Bool) (len : Nat) : List MoveElem :=
  (List.range (min (len * (512 / dst.fmt.bits)) dst.lay.planned)).filterMap (fun n =>
    let ix := posIndex dst.lay.dims n
    if dst.inExtent ix && src.inExtent ix then
      let e := src.elemOff ix
      let a := m.srcAddr i src (src.byteOff e)
      let z := if src.fmt.isMx then m.srcAddr i src (src.scaleOff e) else (none, none)
      let bad := fun (a : Option Nat) (n : Nat) => a.any (fun a => m.poisonAt src.job src.core src.buf.space a n)
      some { pos := n, ix := ix, copied := true,
             code := (a.1.map (fun a => m.codeHere src a e)).getD 0,
             scale := (z.1.map (fun a => leNat (m.bytesAt src.job src.core src.buf.space a 1))).getD 0,
             bad := bad a.1 ((src.fmt.bits + 7) / 8), scaleBad := bad z.1 1,
             src := a.1, scaleSrc := z.1, pages := a.2.toList ++ z.2.toList }
    else if fill && dst.inPlan ix then
      some { pos := n, ix := ix, copied := false, code := 0, scale := 0, bad := false, scaleBad := false, src := none,
             scaleSrc := none, pages := [] }
    else none)

/-- The item of a code at a destination element. -/
def codeItem (dst : Operand) (per : Nat) (srcBytes : Nat) (x : MoveElem) (code : Nat) : MoveItem :=
  let e := dst.elemOff x.ix
  { unit := x.pos / per, dst := dst.addr (dst.byteOff e),
    data := if dst.fmt.is4bit then leBytes 1 (code % 16) else leBytes (dst.fmt.bits / 8) code,
    nib := if dst.fmt.is4bit then some (e % 2).toNat else none, bad := x.bad,
    src := x.src.map (fun a => (a, srcBytes)), pages := x.pages }

/-- The item of the scale byte of a block, with the source byte that it copies. -/
def scaleItem (dst : Operand) (unit : Nat) (e : Int) (scale : Nat) (bad : Bool) (src : Option Nat) : MoveItem :=
  { unit := unit, dst := dst.addr (dst.scaleOff e), data := leBytes 1 scale, nib := none, bad := bad,
    src := src.map (fun a => (a, 1)), pages := [] }

/-- The blocks of an MX destination that elements of a movement lie in, each with the first of them that is copied. -/
def blocksOf (dst : Operand) (es : List MoveElem) : List (Int × MoveElem × Option MoveElem) :=
  if !dst.fmt.isMx then []
  else
    ((es.map (fun z => dst.elemOff z.ix / 32)).eraseDups).filterMap (fun b =>
      let zs := es.filter (fun z => dst.elemOff z.ix / 32 == b)
      zs.head?.map (fun z => (b, z, zs.find? MoveElem.copied)))

/-- The items of a movement between layouts, its saturations and its non-finite values: codes copied unchanged with their block
scales, each with the poison of its own granule (R377, R120, R106), or converted on a fill from bfloat16 (R43, R119); poisoned data
is not converted (R45). A block of padding lanes alone is written as a block of zeros (R220, R37). -/
def Module.dmaItems (m : Module) (i : Inst) (src dst : Operand) (len : Nat) : List MoveItem × Nat × Nat :=
  let op := opOf i.words
  let es := m.moveElems i src dst (op == 1 || op == 2) len
  let per := 512 / dst.fmt.bits
  let sb := (src.fmt.bits + 7) / 8
  let empty := (dst.fmt.encodeMx []).scale
  if op = 2 && src.fmt = .bf16 && dst.fmt != .bf16 then
    let x := encodeElems dst.fmt ((es.filter (fun z => z.copied && !z.bad)).map (fun z =>
      (dst.elemOff z.ix, dst.unscale (src.fmt.decodeElem z.code))))
    (es.map (fun z => codeItem dst per sb z ((x.codes.lookup (dst.elemOff z.ix)).getD 0)) ++
     (blocksOf dst es).map (fun b => scaleItem dst (b.2.1.pos / per) (32 * b.1) ((x.scales.lookup (32 * b.1)).getD empty)
       (es.any (fun z => dst.elemOff z.ix / 32 == b.1 && z.bad)) none),
     x.sats, x.nonfins)
  else
    (es.map (fun z => codeItem dst per sb z z.code) ++
     (blocksOf dst es).map (fun b => match b.2.2 with
       | some z => scaleItem dst (z.pos / per) (32 * b.1) z.scale z.scaleBad z.scaleSrc
       | none => scaleItem dst (b.2.1.pos / per) (32 * b.1) empty false none), 0, 0)

/-- The slots of an address range of an operand. -/
def Operand.slotsAt (o : Operand) (a n : Nat) : List Nat := if o.buf.space != 0 then [] else slotsOf a n

/-- Items put into their units. -/
def unitsFrom (src dst : Operand) (n : Nat) (items : List MoveItem) : List MoveUnit :=
  (List.range n).map (fun u =>
    let xs := items.filter (fun x => x.unit == u)
    { items := xs, reads := (xs.flatMap (fun x => (x.src.map (fun a => src.slotsAt a.1 a.2)).getD [])).eraseDups,
      writes := (xs.flatMap (fun x => dst.slotsAt x.dst x.data.length)).eraseDups })

/-- A byte range copied in pieces of 32 bytes with their poison, from one byte offset to another, each piece at the address that its
own offset has (R379); `pos0` is the position of its first byte. -/
def Module.copyItems (m : Module) (src dst : Operand) (from_ to_ pos0 n : Nat) : List MoveItem :=
  (List.range (ceilDiv n 32)).map (fun k =>
    let len := min 32 (n - 32 * k)
    let a := src.addr (from_ + 32 * k)
    { unit := (pos0 + 32 * k) / 64, dst := dst.addr (to_ + 32 * k),
      data := m.bytesAt src.job src.core src.buf.space a len, nib := none,
      bad := m.poisonAt src.job src.core src.buf.space a len, src := some (a, len), pages := [] })

/-- A movement of a detected tensor (R388) between byte offsets `so` and `to_` of its tile spaces: of each tile that it covers the mask
and the present blocks; the tile's whole space counts toward the length, and its slots go with it. -/
def Module.detectedPlan (m : Module) (src dst : Operand) (so to_ len : Nat) : MovePlan :=
  let p := m.packing src false (src.lay.axisPlan 1)
  let last := so + 64 * len
  let tiles := (List.range p.masks.length).filter (fun t => decide (p.tileOff t < last) && decide (so < p.tileOff t + p.tileBytes t))
  let lo := fun t => max so (p.tileOff t)
  let bytes := fun t => min (p.tileOff t + p.tileUnits (p.masks.getD t 0) * p.unitBytes) last - lo t
  let tile := fun t => (p.tileOff t + to_ - so) / max 1 (p.tileBytes t)
  let items := tiles.flatMap (fun t =>
    (m.copyItems src dst (src.start + p.plane + 8 * t) (dst.start + p.plane + 8 * tile t) 0 8).map (fun x => { x with unit := (lo t - so) / 64 }) ++
    m.copyItems src dst (src.start + lo t) (dst.start + (lo t - so + to_)) (lo t - so) (bytes t))
  let n := min len (ceilDiv (p.tileOff p.masks.length - so) 64)
  let whole := fun (u : MoveUnit × Nat) =>
    { u.1 with reads := (u.1.reads ++ src.slotsAt (src.addr (src.start + so + 64 * u.2)) 64).eraseDups,
               writes := (u.1.writes ++ dst.slotsAt (dst.addr (dst.start + to_ + 64 * u.2)) 64).eraseDups }
  { units := ((unitsFrom src dst n items).zipIdx).map whole, sats := 0, nonfins := 0,
    skipped := (tiles.map (fun t => min (p.tileOff t + p.tileBytes t) last - lo t - bytes t)).sum }

/-- FILLC and COPY (R102): whole slots of 4 KiB. -/
def Module.slotPlan (m : Module) (i : Inst) (src : Option Operand) (dst : Operand) (n : Nat) : MovePlan :=
  let to_ := dst.addr dst.start
  let items := match src with
    | some s => m.copyItems s dst s.start dst.start 0 (4096 * n)
    | none => (List.range (128 * n)).map (fun k =>
        { unit := k / 2, dst := to_ + 32 * k, data := (List.range 8).flatMap (fun _ => leBytes 4 (field (wordAt i.words 1) 0 32)),
          nib := none, bad := false, src := none, pages := [] })
  { units := unitsFrom (src.getD dst) dst (64 * n) items, sats := 0, nonfins := 0, skipped := 0 }

/-- A movement other than a coil, laid out with the module as it is: `i` supplies the source, `dst` the destination, and `len` is its
length in 64-byte units. -/
def Module.movePlan (m : Module) (i : Inst) (dst : Operand) (len : Nat) : MovePlan :=
  let op := opOf i.words
  let src := m.operand i (hiOf i.words 2) false 0
  if op = 6 then m.slotPlan i none dst (len / 64)
  else
    match src with
    | none => { units := [], sats := 0, nonfins := 0, skipped := 0 }
    | some s =>
      if (m.job i.job).detects s.ref.buf then m.detectedPlan s dst 0 0 len
      else if op = 7 then m.slotPlan i (some s) dst (len / 64)
      else
        let x := m.dmaItems i s dst len
        { units := unitsFrom s dst (min len (ceilDiv (dst.lay.planned * dst.fmt.bits) 512)) x.1, sats := x.2.1, nonfins := x.2.2, skipped := 0 }

/-! ### Running -/

/-- Bytes of a movement added to the stored ones, element by element (R186, R222), with the clamped sums counted (R41); a sum
with poisoned data counts no clamp (R45). -/
def Module.sumItem (m : Module) (o : Operand) (x : MoveItem) : Module :=
  let s := addRows (o.buf.fmt == 5) (m.bytesAt o.job o.core o.buf.space x.dst x.data.length) x.data (x.data.length / 4)
  let bad := x.bad || m.poisonAt o.job o.core o.buf.space x.dst x.data.length
  let m := m.storeAt o.job o.core o.buf.space x.dst s.1 bad
  if s.2 = 0 || bad then m else m.bump (odKey 0x3140 3) s.2

/-- One item stored under the buffer's combine mode. -/
def Module.putItem (m : Module) (o : Operand) (x : MoveItem) : Module :=
  match x.nib with
  | none => if o.buf.combine = 2 then m.sumItem o x else m.storeAt o.job o.core o.buf.space x.dst x.data x.bad
  | some k =>
    let old := leNat (m.bytesAt o.job o.core o.buf.space x.dst 1)
    let c := leNat x.data
    m.storeAt o.job o.core o.buf.space x.dst (leBytes 1 (if k = 0 then old - old % 16 + c else old % 16 + 16 * c)) x.bad

/-- The byte addresses of items. -/
def itemAddrs (xs : List MoveItem) : List Nat := xs.flatMap (fun x => (List.range x.data.length).map (· + x.dst))

/-- The poison of granules that items wrote whole with clean data cleared (R106, R362); sums keep the stored poison. -/
def Module.cleanItems (m : Module) (o : Operand) (xs : List MoveItem) : Module :=
  if o.buf.combine = 2 then m
  else m.cleanCovered o.job o.core o.buf.space (itemAddrs xs) (itemAddrs (xs.filter MoveItem.bad))

/-- Whether a write of an instantiation into a buffer must wait for its combine turn (R186, R222). -/
def Module.turnWaits (m : Module) (i : Inst) (o : Operand) : Bool := o.buf.combine != 0 && !m.hasTurn i o.ref.buf

/-- The HBM byte ranges that items read from a source operand. -/
def Module.sourceRanges (m : Module) (src : Operand) (xs : List MoveItem) : List (Nat × Nat) :=
  if src.buf.space != 2 then []
  else xs.filterMap (fun x => x.src.map (fun a => (m.physAddr src.job src.core 2 a.1, a.2)))

/-- What items of a movement read of their source: poison that was there, and the narrow path where they are one request within one
granule (R361, R363). -/
def Module.sourceReads (fu : Fuses) (m : Module) (src : Option Operand) (xs : List MoveItem) : Module :=
  let rs := (src.map (fun o => m.sourceRanges o xs)).getD []
  (m.hbmReads fu ((src.map Operand.job).getD 0) rs).narrowReads (if ((rs.flatMap (fun r => granules r.1 r.2)).eraseDups).length = 1 then 1 else 0)

/-- The stopped stack that a byte range of an operand lies in, where there is one (R367). -/
def Module.stoppedAt (m : Module) (o : Operand) (a n : Nat) : Option Nat :=
  if o.buf.space != 2 || !m.hbmStacks.any Stack.stopped then none
  else (stacksOf (m.physAddr o.job o.core 2 a) n).find? (fun p => (m.stack p).stopped)

/-- The stopped stack that an item of a movement reads or writes. -/
def Module.itemStopped (m : Module) (src : Option Operand) (dst : Operand) (x : MoveItem) : Option Nat :=
  match src.bind (fun o => x.src.bind (fun a => m.stoppedAt o a.1 a.2)) with
  | some p => some p
  | none => m.stoppedAt dst x.dst x.data.length

/-- What keeps a unit from being moved: an absent page (R339), an EMPTY source slot or a FULL destination slot (R98), a stopped
stack (R367), or a combine turn (R186), for which the channel waits. -/
def Module.unitWait (m : Module) (i : Inst) (dst : Operand) (u : MoveUnit) : Option Wait :=
  let e := ((m.viewOf i).map Prod.snd).getD 0
  match (u.items.flatMap MoveItem.pages).find? (fun p => !m.pageHere i.job e p) with
  | some p => some (.page e p)
  | none =>
    match m.tagWait dst.core u.reads u.writes [] with
    | some w => some w
    | none =>
      match u.items.findSome? (m.itemStopped (m.operand i (hiOf i.words 2) false 0) dst) with
      | some p => some (.stack p)
      | none => if m.turnWaits i dst then some .turn else none

/-- The units moved in order until one must wait: the module, the position reached and the wait. A slot becomes FULL after
its last write and EMPTY after its last read with CONSUME (R96). -/
def Module.moveUnits (i : Inst) (dst : Operand) (consume : Bool) : List MoveUnit → Module → Nat → Module × Nat × Option Wait
  | [], m, pos => (m, pos, none)
  | u :: us, m, pos =>
    match m.unitWait i dst u with
    | some w => (m, pos, some w)
    | none =>
      let m := u.items.foldl (fun (m : Module) x => m.putItem dst x) m
      let full := u.writes.filter (fun s => us.all (fun v => !v.writes.contains s))
      let empty := if consume then u.reads.filter (fun s => us.all (fun v => !v.reads.contains s)) else []
      Module.moveUnits i dst consume us ((m.setFull dst.core full).setEmpty dst.core empty) (pos + 1)

/-- Destination bytes of items, counted in nibbles for 4-bit elements. -/
def itemBytes (xs : List MoveItem) : Nat := (xs.map (fun x => if x.nib.isSome then 1 else 2 * x.data.length)).sum / 2

/-- The bytes that units of a movement write, counted as they are written (R391). -/
def Module.countBytes (m : Module) (us : List MoveUnit) : Module := m.bump (odKey 0x3270 3) (itemBytes (us.flatMap MoveUnit.items))

/-- The counts of a movement whose data has been written (R37, R49, R119, R388, R391): its non-finite values go into the tensor's
descriptor, and NaN blocks of an MX tensor into OD 0x3140:04. DESIGN CHOICE (log entry 23): the spec does not say whether a NaN or an
infinity that a fill converts into FP8 or INT8 counts in 0x3140:04 too; the model counts it in the descriptor alone. -/
def Module.countMove (m : Module) (dst : Operand) (p : MovePlan) : Module :=
  (((m.foldDesc dst none p.sats p.nonfins).bump (odKey 0x3140 2) p.sats).bump (odKey 0x3140 4)
    (if dst.fmt.isMx then p.nonfins else 0)).bump (odKey 0x3270 9) p.skipped

/-- The head movement of a channel changed. -/
def Module.onHead (m : Module) (g ch : Nat) (f : Move → Move) : Module :=
  m.onCore g (fun c => { c with channels := modifyAt (fun l => modifyAt f l 0) c.channels ch })

/-- The head movement of a channel. -/
def Core.head (c : Core) (ch : Nat) : Option Move := (c.channels.getD ch []).head?

/-- A fetch of a paged expert requested, unless it is there, on its way or requested already (R336). -/
def Module.askFetch (m : Module) (j e : Nat) : Module :=
  if (m.residentOf j e).isSome || (m.job j).fetches.any (fun f => f.expert == e) then m
  else m.onJob j (fun b => { b with fetches := b.fetches ++ [{ expert := e, started := false, pin := false }] })

/-- The rows in remap that units of a movement read of its source pay their stall (R107, R109, R110). -/
def Module.remapMoved (m : Module) (i : Inst) (src : Option Operand) (us : List MoveUnit) : Module :=
  match src with
  | none => m
  | some o =>
    if o.buf.space = 1 then m.clusterReads i.job i.core ((us.flatMap MoveUnit.items).filterMap MoveItem.src)
    else m.remapReads i.core ((us.flatMap MoveUnit.reads).eraseDups)

/-- A movement runs from its position as far as it can. A stale answer writes nothing (R343). -/
def Module.runMove (fu : Fuses) (m : Module) (g ch : Nat) (v : Move) : Module :=
  let i := v.inst
  match m.operand i (loOf i.words 2) true 0 with
  | none => m.onHead g ch (fun v => { v with written := true })
  | some dst =>
    if m.stale i then m.onHead g ch (fun v => { v with written := true, status := stCancelled, wait := none })
    else
      let p := m.movePlan i dst v.len
      let r : Module × Nat × Option Wait := Module.moveUnits i dst (readRef (hiOf i.words 2)).consume (p.units.drop v.pos) m v.pos
      let moved := (p.units.take r.2.1).flatMap MoveUnit.items
      let now := (p.units.take r.2.1).drop v.pos
      let src := m.operand i (hiOf i.words 2) false 0
      let m := (((r.1.cleanItems dst moved).sourceReads fu src (now.flatMap MoveUnit.items)).remapMoved i src now).countBytes now
      let m := m.onHead g ch (fun v => { v with pos := r.2.1, wait := r.2.2, written := r.2.2.isNone })
      match r.2.2 with
      | none => m.countMove dst p
      | some (.page e _) => (m.bump (odKey 0x4220 4) 1).askFetch i.job e
      | some _ => m

/-! ### Coils (R384 to R387) -/

/-- The source and destination of a fetched descriptor. -/
def Module.descEnds (m : Module) (i : Inst) (w : Words) : Option (Operand × Operand) :=
  (m.operand i (descSrc w * 2 ^ 18) false 0).bind (fun s => (m.operand i (descDst w * 2 ^ 18) true 0).map (fun t => (s, t)))

/-- What a descriptor copies: its bytes from the source's front half to the destination's back half, in ascending order; of a detected
buffer the present blocks and masks of the tiles that they cover (R388). With the bytes that it leaves out. -/
def Module.descItems (m : Module) (i : Inst) (w : Words) (s t : Operand) : List MoveItem × Nat :=
  if (m.job i.job).detects s.ref.buf then
    let p := m.detectedPlan s t (wordAt w 1) (wordAt w 2) (descLen w)
    (p.units.flatMap MoveUnit.items, p.skipped)
  else (m.copyItems s t (wordAt w 1) (wordAt w 2) 0 (64 * descLen w), 0)

/-- A descriptor of a coil run; one of length 0 moves nothing. -/
def Module.runDescriptor (fu : Fuses) (m : Module) (i : Inst) (w : Words) : Module :=
  if descLen w = 0 then m.bump (odKey 0x3270 6) 1
  else
    match m.descEnds i w with
    | some (s, t) =>
      let x := m.descItems i w s t
      let m := (x.1.foldl (fun (m : Module) y => m.putItem t y) (m.sourceReads fu (some s) x.1)).cleanItems t x.1
      (((m.remapMoved i (some s) [{ items := x.1, reads := [], writes := [] }]).bump (odKey 0x3270 3) (itemBytes x.1)).bump
        (odKey 0x3270 5) 1).bump (odKey 0x3270 9) x.2
    | none => m

/-- A movement whose answer is stale moves nothing more and ends CANCELLED (R343). -/
def Move.cancelled (v : Move) : Move :=
  if v.written then v else { v with started := true, written := true, status := stCancelled, wait := none }

/-- What a descriptor waits for: a stopped stack that its data lie in (R367), or its combine turn (R186). -/
def Module.descWait (m : Module) (i : Inst) (w : Words) : Option Wait :=
  if descLen w = 0 then none
  else
    match m.descEnds i w with
    | none => none
    | some (s, t) =>
      match (m.descItems i w s t).1.findSome? (m.itemStopped (some s) t) with
      | some p => some (.stack p)
      | none => if m.turnWaits i t then some .turn else none

/-- The descriptors of a coil from number `d` on, run in ascending order until one must wait: the module, the number reached and the
wait (R387). -/
def Module.runDescriptors (fu : Fuses) (i : Inst) : List Words → Nat → Module → Module × Nat × Option Wait
  | [], d, m => (m, d, none)
  | w :: ws, d, m =>
    match m.descWait i w with
    | some x => (m, d, some x)
    | none => Module.runDescriptors fu i ws (d + 1) (m.runDescriptor fu i w)

/-- A coil at the head of its channel goes on with the current descriptor of its burst. A stale one moves nothing (R343). -/
def Module.runCoil (fu : Fuses) (m : Module) (g ch : Nat) (v : Move) (ws : List Words) : Module :=
  if m.stale v.inst then m.onHead g ch (fun v => { v with burst := some ws, written := true, status := stCancelled, wait := none })
  else
    let r := Module.runDescriptors fu v.inst (ws.drop v.desc) v.desc m
    let d := min r.2.1 (ws.length - 1)
    let len := descLen (ws.getD d [])
    r.1.onHead g ch (fun v => { v with
      burst := some ws, desc := d, len := len, pos := if r.2.2.isNone then len else 0, wait := r.2.2, written := r.2.2.isNone })

/-- The number of descriptors that a coil runs. -/
def Module.coilCount (m : Module) (i : Inst) : Nat := m.shapeOf i (lengthShape i.words)

/-- The first descriptor of a burst that carries poison. -/
def Module.burstBad (m : Module) (i : Inst) (o : Operand) : Option Nat :=
  (List.range (m.coilCount i)).find? (fun d => m.poisonAt i.job i.core o.buf.space (o.addr (o.start + 32 * d)) 32)

/-- The burst of a coil (R386). -/
def Module.fetchBurst (m : Module) (i : Inst) (o : Operand) : List Words :=
  (List.range (m.coilCount i)).map (fun d => (List.range 3).map (m.coilWord o d))

/-- The read of a burst in the memory that holds it (R109, R361). -/
def Module.burstReads (fu : Fuses) (m : Module) (i : Inst) (o : Operand) : Module :=
  let a := o.addr o.start
  if o.buf.space = 2 then m.request fu i.job (m.physAddr i.job i.core 2 a) (32 * m.coilCount i)
  else m.clusterReads i.job i.core [(a, 32 * m.coilCount i)]

/-- Descriptor `d` of a coil's burst, the last movement of channel `ch`, carries poison: events 0x0380 and 0x0382, and the job ends with
POISON; nothing of the coil moves (R386, R392). -/
def Module.burstPoison (fu : Fuses) (m : Module) (i : Inst) (ch : Nat) (o : Operand) (d : Nat) : Module :=
  let m := (m.burstReads fu i o).event fu 0x0380 ([i.job, i.core, ch, o.ref.buf, d] ++ channelRecord ((m.core i.core).channels.getD ch []))
  ((m.moveEnded fu i ch stPoison).onCore i.core (fun c => { c with
    channels := modifyAt (fun l => l.filter (fun v => v.inst != i)) c.channels ch })).finish fu i stPoison 0 0

/-- A coil at the head of its channel starts or goes on. Its burst is there from its issue, unless the stack that holds it had stopped:
then it is fetched now, or the channel waits for the stack (R367). -/
def Module.startCoil (fu : Fuses) (m : Module) (g ch : Nat) (v : Move) : Module :=
  if m.stale v.inst then m.onHead g ch Move.cancelled
  else
  match v.burst, m.operand v.inst (hiOf v.inst.words 2) false 0 with
  | some ws, _ => m.runCoil fu g ch v ws
  | none, none => m
  | none, some o =>
    match m.stoppedAt o (o.addr o.start) (32 * m.coilCount v.inst), m.burstBad v.inst o with
    | some p, _ => m.onHead g ch (fun v => { v with wait := some (.stack p) })
    | none, some d => m.burstPoison fu v.inst ch o d
    | none, none => (m.burstReads fu v.inst o).runCoil fu g ch v (m.fetchBurst v.inst o)

/-! ### Multicast (R232 to R234) -/

/-- The destination set of a multicast FILL: the job's live cores of the issuing role within the scope, ascending. -/
def Module.castSet (m : Module) (i : Inst) : List Nat :=
  let ws := i.words
  let role := fun (g : Nat) => (m.job i.job).image.roleMap.getD (g % 8) 0xFF
  let cmask := field (wordAt ws 1) 57 4
  let dies := field (wordAt ws 4) 16 48
  (List.range 384).filter (fun g => (m.liveCores i.job).contains g && role g == role i.core && bitAt cmask (g % 4) &&
    (if scopeOf ws = 1 then clusterOf g == clusterOf i.core
     else if scopeOf ws = 2 then dieOf g == dieOf i.core
     else bitAt dies (dieOf g)))

/-! ### Channels -/

/-- The head movement of a channel starts, unless it has. A core outside the set of its multicast FILL moves nothing
(DEDUCED). -/
def Module.startChannel (fu : Fuses) (m : Module) (g ch : Nat) : Module :=
  match (m.core g).head ch with
  | none => m
  | some v =>
    if v.started then m
    else
      let m := m.onHead g ch (fun v => { v with started := true })
      if v.op = 5 then m.startCoil fu g ch v
      else if v.op = 2 && scopeOf v.inst.words != 0 then
        if (m.castSet v.inst).contains g then m.onHead g ch (fun v => { v with wait := some .multicast })
        else m.onHead g ch (fun v => { v with written := true })
      else m.runMove fu g ch v

/-- A MOVE instruction put into its channel, where it finds room, or the core holds (R376). A view read joins the readers of
its expert at issue (R339), and a coil fetches its burst (R386). -/
def Module.issueMove (fu : Fuses) (m : Module) (i : Inst) : Module :=
  let g := i.core
  let ch := channelOf i.words
  if 16 ≤ ((m.core g).channels.getD ch []).length then m.hold g (.channel ch)
  else
    let e := (m.viewOf i).map Prod.snd
    let op := opOf i.words
    let n := m.shapeOf i (lengthShape i.words)
    let coil := if op = 5 then m.operand i (hiOf i.words 2) false 0 else none
    let ready := coil.bind (fun o => if (m.stoppedAt o (o.addr o.start) (32 * n)).isSome then none else some o)
    let burst := ready.map (m.fetchBurst i)
    let v : Move := { inst := i, op := op, len := if op = 5 then descLen ((burst.getD []).getD 0 []) else if op = 6 || op = 7 then 64 * n else n,
                      burst := burst, desc := 0, pos := 0, started := false, written := false, status := stOk,
                      wait := none, reader := e.map (fun e => (e, m.useStamp + 1)), cast := none }
    let m := m.onCore g (fun c => { c with channels := modifyAt (fun l => l ++ [v]) c.channels ch })
    let m := if op = 5 then m.bump (odKey 0x3270 4) 1 else m
    let m := match e with
      | none => m
      | some e =>
        let touch := fun (r : Nat × Residency) =>
          if r.2.job = i.job && r.2.expert = e && r.2.state != 0 then (r.1, { r.2 with lastUse := m.useStamp + 1 }) else r
        { m with useStamp := m.useStamp + 1, residency := m.residency.map touch }
    let m := m.advance i
    match ready.bind (fun o => (m.burstBad i o).map (fun d => (o, d))) with
    | some x => m.burstPoison fu i ch x.1 x.2
    | none => (ready.elim m (m.burstReads fu i)).startChannel fu g ch

/-- Whether the ranges of a COPY share a slot (R102). -/
def Module.copyAlias (m : Module) (i : Inst) : Bool :=
  let n := 4096 * m.shapeOf i (lengthShape i.words)
  match m.operand i (hiOf i.words 2) false 0, m.operand i (loOf i.words 2) true 0 with
  | some s, some d =>
    opOf i.words == 7 && s.buf.space == d.buf.space &&
      decide (s.addr s.start < d.addr d.start + n) && decide (d.addr d.start < s.addr s.start + n)
  | _, _ => false

/-- A MOVE at its core (R195, R201, R202): ALIAS_REJECTED comes before SHAPE_EXCEEDS_PLAN within their stage (R14). -/
def Module.moveAt (fu : Fuses) (us : List Upset) (m : Module) (i : Inst) : Module :=
  let ws := i.words
  let ss := [lengthShape ws]
  let refs := [hiOf ws 2, loOf ws 2]
  let first := !(shapeIsLate us && hasShapeWord (ss ++ refs.flatMap (m.job i.job).extentsOf)) &&
    ((m.shapesBad i ss refs).all (fun b => b.status == stShape)) && m.copyAlias i
  if first then m.issueFail fu i { status := stAlias, value := m.shapeOf i (lengthShape ws), plan := (lengthShape ws).plan }
  else
    m.withShapes fu us ss refs i (fun m i =>
      if m.shapeOf i (lengthShape ws) = 0 then m.emptyOp fu i else m.issueMove fu i)

/-- The command of one MOVE operation at core `g`. -/
def moveCommand (op g : Nat) (ups : List Upset) (s : State) : Host.Outcome State Fault Refusal :=
  s.actOn (g < 384) (fun fu m => m.issueRow fu g (isMove op) ups (fun m i => m.moveAt fu ups i))

/-- LOAD_CM. -/
def execLoadCm (g : Nat) (ups : List Upset) (s : State) : Host.Outcome State Fault Refusal := moveCommand 1 g ups s

/-- FILL. -/
def execFill (g : Nat) (ups : List Upset) (s : State) : Host.Outcome State Fault Refusal := moveCommand 2 g ups s

/-- DRAIN. -/
def execDrain (g : Nat) (ups : List Upset) (s : State) : Host.Outcome State Fault Refusal := moveCommand 3 g ups s

/-- STORE_HBM. -/
def execStoreHbm (g : Nat) (ups : List Upset) (s : State) : Host.Outcome State Fault Refusal := moveCommand 4 g ups s

/-- COIL. -/
def execCoil (g : Nat) (ups : List Upset) (s : State) : Host.Outcome State Fault Refusal := moveCommand 5 g ups s

/-- FILLC. -/
def execFillc (g : Nat) (ups : List Upset) (s : State) : Host.Outcome State Fault Refusal := moveCommand 6 g ups s

/-- COPY. -/
def execCopy (g : Nat) (ups : List Upset) (s : State) : Host.Outcome State Fault Refusal := moveCommand 7 g ups s

/-! ### Completion -/

/-- What a movement that completes counts in OD 0x3270:02: itself, or the descriptors of a coil that moved something (R391). -/
def Move.completes (v : Move) : Nat := if v.op = 5 then (v.burst.getD []).countP (fun w => descLen w != 0) else 1

/-- The head movement of a channel completes (R377): its status, completion record and signal; the next one starts. -/
def Module.completeMove (fu : Fuses) (m : Module) (g ch : Nat) (v : Move) : Module :=
  let i := v.inst
  let m := m.onCore g (fun c => { c with channels := modifyAt (fun l => l.drop 1) c.channels ch })
  let m := if v.status = stCancelled then (m.dropStale fu i).settleCancel fu i.job
    else ((m.bump (odKey 0x3270 2) v.completes).finish fu i v.status 0 0)
  m.startChannel fu g ch

/-- MOVEMENT_COMPLETE: the last write of the channel's head movement has been acknowledged. -/
def execMovementComplete (g ch : Nat) (s : State) : Host.Outcome State Fault Refusal :=
  s.actOn (g < 384 && ch < 8) (fun fu m =>
    let c := m.core g
    match c.head ch with
    | none => m
    | some v => if c.live && c.fenceReq.isNone && v.written && (m.job v.inst.job).state == 3 then m.completeMove fu g ch v else m)

/-- The destination operand of core `h`'s copy of a multicast, and its movement laid out from the issuer's source. -/
def Module.castDst (m : Module) (i : Inst) (h : Nat) : Option (Operand × MovePlan) :=
  (m.operand { i with core := h } (loOf i.words 2) true 0).map (fun d => (d, m.movePlan i d (m.shapeOf i (lengthShape i.words))))

/-- The slots that a movement writes. -/
def MovePlan.slots (p : MovePlan) : List Nat := (p.units.flatMap MoveUnit.writes).eraseDups

/-- The first destination slot of a multicast that is FULL (R234). -/
def Module.castFull (m : Module) (i : Inst) : Option Nat :=
  (m.castSet i).findSome? (fun h => (m.castDst i h).bind (fun d => d.2.slots.find? (fun s => (m.core h).mem.full.contains s)))

/-- One copy of a multicast that core `g` issued, written at its destination. DESIGN CHOICE (log entry 23): the saturations of a
converting fill are counted at each destination. -/
def Module.castCopy (i : Inst) (g ch : Nat) (m0 m : Module) (h : Nat) : Module :=
  match m0.castDst i h with
  | none => m
  | some d =>
    let xs := d.2.units.flatMap MoveUnit.items
    let m := ((xs.foldl (fun (m : Module) x => m.putItem d.1 x) m).cleanItems d.1 xs).setFull h d.2.slots
    ((m.onHead h ch (fun w => { w with
      wait := none, written := true, pos := d.2.units.length, cast := some (g, d.2.slots) })).countBytes d.2.units).countMove d.1 d.2

/-- The one read of the issuer's source that serves every destination of a multicast (R232). -/
def Module.castReads (fu : Fuses) (m : Module) (i : Inst) : Module :=
  match m.castDst i i.core with
  | none => m
  | some d =>
    let src := m.operand i (hiOf i.words 2) false 0
    (m.sourceReads fu src (d.2.units.flatMap MoveUnit.items)).remapMoved i src d.2.units

/-- MULTICAST_INSTANCE (R232): core `g` is the lowest live core of the set, every core of the set has the FILL at the head of
its channel, and every destination slot is EMPTY; the issuer's data is written at every destination. -/
def Module.castInstance (fu : Fuses) (m : Module) (g ch : Nat) (v : Move) : Module :=
  let i := v.inst
  let set := m.castSet i
  let ready := set.head? == some g && set.all (fun h => ((m.core h).head ch).any (fun w =>
    w.inst.job == i.job && w.inst.index == i.index && w.wait == some .multicast))
  if ready && set.all (fun h => (m.castDst i h).isSome) && (m.castFull i).isNone then
    (set.foldl (Module.castCopy i g ch m) (m.castReads fu i)).bump (odKey 0x3220 4) 1
  else m

/-- MULTICAST_INSTANCE. -/
def execMulticastInstance (g ch : Nat) (s : State) : Host.Outcome State Fault Refusal :=
  s.actOn (g < 384 && ch < 8) (fun fu m =>
    match (m.core g).head ch with
    | none => m
    | some v => if v.wait == some .multicast && (m.job v.inst.job).state == 3 then m.castInstance fu g ch v else m)

/-- VIEW_RESUME (R339): the page of a halted view read is present, and the movement goes on from its saved position. -/
def execViewResume (g ch us : Nat) (s : State) : Host.Outcome State Fault Refusal :=
  s.actOn (g < 384 && ch < 8) (fun fu m =>
    match (m.core g).head ch with
    | none => m
    | some v =>
      match v.wait with
      | some (.page e p) =>
        if m.pageHere v.inst.job e p then
          (m.bump (odKey 0x4220 5) us).runMove fu g ch { v with wait := none }
        else m
      | _ => m)

end Sys2Proof.Machine
end

