-- ==== Sys2Proof/Machine/Control.lean ====
section
/-!
DEFINITION. CONTROL instructions (R196, R198, R229 to R233, R381, R484) and the happenings that end their holds: signals,
SWAP instances, the pass barrier and resume points.
-/
namespace Sys2Proof.Machine

/-! ### Fields and loops -/

/-- The fields of the control word: reel, target, counter, buffer. -/
def reelOf (ws : Words) : Nat := field (wordAt ws 1) 56 8
/-- The counter of a WAIT. -/
def counterOf (ws : Words) : Nat := field (wordAt ws 1) 38 6
/-- The buffer of a SWAP. -/
def swapBufOf (ws : Words) : Nat := field (wordAt ws 1) 24 14

/-- The shape of a LOOP or WAIT. -/
def controlShape (ws : Words) : Shape := readShape (hiOf ws 2)

/-- The index of the ENDLOOP that closes a LOOP, searched from instruction `at_` with `depth` loops open inside it. -/
def endloopFrom : List Words → Nat → Nat → Option Nat
  | [], _, _ => none
  | w :: ws, at_, depth =>
    if isControl 2 w then endloopFrom ws (at_ + 1) (depth + 1)
    else if isControl 3 w then (if depth = 0 then some at_ else endloopFrom ws (at_ + 1) (depth - 1))
    else endloopFrom ws (at_ + 1) depth

/-- The ENDLOOP of the LOOP at an instruction of a core's stream. -/
def Module.endloop (m : Module) (i : Inst) (at_ : Nat) : Nat :=
  let st := (m.job i.job).stream i.core
  (endloopFrom (st.drop (at_ + 1)) (at_ + 1) 0).getD st.length

/-- The open loops that still hold an instruction, innermost first. -/
def Module.loopsAt (m : Module) (i : Inst) (pc : Nat) : List LoopFrame → List LoopFrame
  | [] => []
  | f :: fs => if decide (f.at_ < pc) && decide (pc ≤ m.endloop i f.at_) then f :: fs else Module.loopsAt m i pc fs

/-- A core's sequencer state changed. -/
def Module.onSeq (m : Module) (g : Nat) (f : CoreSeq → CoreSeq) : Module := m.onCore g (fun c => { c with seq := f c.seq })

/-- A CONTROL instruction that ends OK at once and goes on with the next one. -/
def Module.controlDone (fu : Fuses) (m : Module) (i : Inst) : Module := (m.advance i).finish fu i stOk 0 0

/-- A CONTROL instruction that ends OK and continues elsewhere. -/
def Module.controlJump (fu : Fuses) (m : Module) (i : Inst) (pc status : Nat) : Module :=
  (m.goto i.core i.job pc).finish fu i status 0 0

/-! ### NOP, LOOP and ENDLOOP -/

/-- CONTROL NOP. -/
def execControlNop (g : Nat) (ups : List Upset) (s : State) : Host.Outcome State Fault Refusal :=
  s.actOn (g < 384) (fun fu m => m.issueRow fu g (isControl 0) ups (fun m i => m.controlDone fu i))

/-- LOOP at its core: a count of 0 continues after the ENDLOOP (R202). -/
def Module.loopAt (fu : Fuses) (us : List Upset) (m : Module) (i : Inst) : Module :=
  let sh := controlShape i.words
  m.withShapes fu us [sh] [] i (fun m i =>
    let n := m.shapeOf i sh
    if n = 0 then m.controlJump fu i (m.endloop i i.index + 1) stEmptyOp
    else (m.onSeq i.core (fun q => { q with loops := { at_ := i.index, left := n - 1 } :: q.loops })).controlDone fu i)

/-- LOOP. -/
def execLoop (g : Nat) (ups : List Upset) (s : State) : Host.Outcome State Fault Refusal :=
  s.actOn (g < 384) (fun fu m => m.issueRow fu g (isControl 2) ups (fun m i => m.loopAt fu ups i))

/-- ENDLOOP at its core. -/
def Module.endloopAt (fu : Fuses) (m : Module) (i : Inst) : Module :=
  match (m.core i.core).seq.loops with
  | [] => m.controlDone fu i
  | f :: fs =>
    if m.endloop i f.at_ != i.index then m.controlDone fu i
    else if f.left = 0 then (m.onSeq i.core (fun q => { q with loops := fs })).controlDone fu i
    else
      (m.onSeq i.core (fun q => { q with loops := { f with left := f.left - 1 } :: fs })).controlJump fu i (f.at_ + 1) stOk

/-- ENDLOOP. -/
def execEndloop (g : Nat) (ups : List Upset) (s : State) : Host.Outcome State Fault Refusal :=
  s.actOn (g < 384) (fun fu m => m.issueRow fu g (isControl 3) ups (fun m i => m.endloopAt fu i))

/-! ### TAKE (R227 to R231) -/

/-- Both reels are exhausted: the core continues at the target and leaves the loops that do not hold it. -/
def Module.takeExhausted (fu : Fuses) (m : Module) (i : Inst) : Module :=
  let t := targetOf i.words
  ((m.bump (odKey 0x3220 3) 1).onSeq i.core (fun q => { q with loops := m.loopsAt i t q.loops })).controlJump fu i t stOk

/-- An entry becomes effective for the core. -/
def Module.takeEntryAt (fu : Fuses) (m : Module) (i : Inst) (t : Template) (e die : Nat) (pos : List Nat) (base : Nat) : Module :=
  let n := reelOf i.words
  let x : Entry := { at_ := i.index, target := targetOf i.words, tmpl := n, e := e, p := pos.getD t.pIndex 0,
                     coords := t.coords pos base, epoch := (m.job i.job).run.epoch }
  let m := (m.takeEntry i.job n die e).bump (odKey 0x3220 1) 1
  let m := m.bump (odKey 0x3220 2) (if die = dieOf i.core then 0 else 1)
  (m.onSeq i.core (fun q => { q with takes := x :: q.takes.filter (fun y => y.at_ ≠ i.index) })).controlDone fu i

/-- TAKE at its core. The per-problem base is read as a shape word (R200, R227). -/
def Module.takeAt (fu : Fuses) (us : List Upset) (m : Module) (i : Inst) : Module :=
  let n := reelOf i.words
  match m.nextEntry i.core i.job n, (m.job i.job).image.templates[n]? with
  | some (e, die), some t =>
    let pos := m.entryPos i.job n e
    let off := (m.job i.job).boundValue t.pbaseSlot + 4 * pos.getD t.pIndex 0
    if !t.pbaseEn then m.takeEntryAt fu i t e die pos 0
    else if shapeIsLate us then m.hold i.core (.shape off)
    else
      match m.shapeWord i.job off with
      | .denied => m.issueFail fu i { status := stDenied, value := off, plan := 0 }
      | .poisoned => (m.request fu i.job ((m.job i.job).hbmBase + off) 4).issueFail fu i { status := stPoison, value := 0, plan := 0 }
      | .val b => (m.request fu i.job ((m.job i.job).hbmBase + off) 4).takeEntryAt fu i t e die pos b
  | _, _ => m.takeExhausted fu i

/-- TAKE. -/
def execTake (g : Nat) (ups : List Upset) (s : State) : Host.Outcome State Fault Refusal :=
  s.actOn (g < 384) (fun fu m => m.issueRow fu g (isControl 1) ups (fun m i => m.takeAt fu ups i))

/-! ### WAIT and signals (R198) -/

/-- The value of a sync counter. -/
def Job.counter (b : Job) (k : Nat) : Nat := b.run.counters.getD k 0

/-- WAIT at its core: it issues once its counter is at least its target, and holds the core until then. -/
def Module.waitAt (fu : Fuses) (us : List Upset) (m : Module) (i : Inst) : Module :=
  let sh := controlShape i.words
  m.withShapes fu us [sh] [] i (fun m i =>
    if m.shapeOf i sh ≤ (m.job i.job).counter (counterOf i.words) then m.controlDone fu i
    else m.hold i.core (.counter (counterOf i.words)))

/-- WAIT. -/
def execWait (g : Nat) (ups : List Upset) (s : State) : Host.Outcome State Fault Refusal :=
  s.actOn (g < 384) (fun fu m => m.issueRow fu g (isControl 4) ups (fun m i => m.waitAt fu ups i))

/-- A core whose WAIT on a counter has reached its target issues it. -/
def Module.wakeWait (fu : Fuses) (m : Module) (j ctr g : Nat) : Module :=
  if (m.core g).seq.wait != some (.counter ctr) then m
  else
    match m.instAt g j with
    | none => m
    | some i =>
      if m.shapeOf i (controlShape i.words) ≤ (m.job j).counter ctr then
        (m.onSeq g (fun q => { q with wait := none })).controlDone fu i
      else m

/-- SIGNAL: an increment of a sync counter becomes visible, and the WAITs it satisfies issue. -/
def execSignal (j ctr : Nat) (s : State) : Host.Outcome State Fault Refusal :=
  s.actOn (j < 16 && ctr < 64) (fun fu m =>
    if (m.job j).state != 3 || !(m.job j).run.signals.contains ctr then m
    else
      let m := m.onRun j (fun r => { r with signals := r.signals.erase ctr,
                                            counters := modifyAt (fun c => (c + 1) % 2 ^ 32) r.counters ctr })
      (m.liveCores j).foldl (fun m g => m.wakeWait fu j ctr g) m)

/-! ### SWAP (R379 to R383) -/

/-- SWAP: the core reaches it and holds, with every engine. -/
def execSwap (g : Nat) (ups : List Upset) (s : State) : Host.Outcome State Fault Refusal :=
  s.actOn (g < 384) (fun fu m => m.issueRow fu g (isControl 5) ups (fun m i => m.hold i.core (.swap (swapBufOf i.words))))

/-- Whether an instantiation reads or writes a buffer, a coil by any of its descriptors. -/
def Module.touches (m : Module) (i : Inst) (buf : Nat) : Bool :=
  let ws := i.words
  let refs := if classOf ws = 4 then [hiOf ws 2, loOf ws 2] else spliceRefs ws
  refs.any (fun w => (readRef w).buf == buf) ||
  (isMove 5 ws && (m.operand i (hiOf ws 2) false 0).any (fun o =>
    (List.range (m.shapeOf i (lengthShape ws))).any (fun d =>
      field (m.coilWord o d 0) 46 14 == buf || field (m.coilWord o d 0) 32 14 == buf)))

/-- Whether a movement in a channel reads or writes a buffer. -/
def Module.moveTouches (m : Module) (v : Move) (buf : Nat) : Bool :=
  match v.burst with
  | some ws => ws.any (fun w => descSrc w == buf || descDst w == buf)
  | none => m.touches v.inst buf

/-- Whether a movement or gather of a core keeps a SWAP of a buffer waiting (R381): a write of it is not acknowledged, or a read of it
has not finished, as it has once a movement's data has been written or a gather's rows are there. -/
def Module.busyOn (m : Module) (g buf : Nat) : Bool :=
  let c := m.core g
  (c.channels.flatMap id).any (fun v => if v.written then m.moveWrites v buf else m.moveTouches v buf) ||
  c.gathers.any (fun p => if p.waits then m.writesBuf p.inst buf else m.touches p.inst buf)

/-- The set of a SWAP (R381): the job's live cores in the cluster, or all of them for an HBM buffer (`cluster` 96). -/
def Module.swapSet (m : Module) (j cluster : Nat) : List Nat :=
  (m.liveCores j).filter (fun g => cluster == 96 || clusterOf g == cluster)

/-- A held CONTROL instruction of a core ends OK and the core goes on. -/
def Module.releaseHold (fu : Fuses) (m : Module) (j g : Nat) : Module :=
  match m.instAt g j with
  | none => m
  | some i => (m.onSeq g (fun q => { q with wait := none })).controlDone fu i

/-- SWAP_COMPLETE (R381): every core of the set has reached the SWAP and nothing they issued still touches the buffer; sel
flips and the cores resume. `cycles` are the A-cycles held, summed over the cores. -/
def execSwapComplete (j buf cluster cycles : Nat) (s : State) : Host.Outcome State Fault Refusal :=
  s.actOn (j < 16 && cluster ≤ 96) (fun fu m =>
    let set := m.swapSet j cluster
    let space := (((m.job j).image.buffers[buf]?).map Buffer.space).getD 0
    if (m.job j).state != 3 || set.isEmpty || (cluster == 96) != (space == 2) ||
        !set.all (fun g => (m.core g).seq.wait == some (.swap buf) && !m.busyOn g buf) then m
    else
      let k := (buf, cluster)
      let m := m.onRun j (fun r => { r with sels := if r.sels.contains k then r.sels.filter (fun x => x ≠ k) else r.sels ++ [k] })
      let m := (m.bump (odKey 0x3270 7) 1).bump (odKey 0x3270 8) cycles
      set.foldl (fun m g => m.releaseHold fu j g) m)

/-! ### Barriers (R172, R196, R484) -/

/-- Whether a core has nothing in flight: every write it issued has been acknowledged. -/
def Core.quiet (c : Core) : Bool := c.channels.all List.isEmpty && c.tiles.isEmpty && c.gathers.isEmpty

/-- PASS_END: the core flushes its dirty statistics lines, keeps no line that it fetched, and holds at the barrier. -/
def execPassEnd (g : Nat) (ups : List Upset) (s : State) : Host.Outcome State Fault Refusal :=
  s.actOn (g < 384) (fun fu m => m.issueRow fu g (isControl 6) ups (fun m i =>
    ((m.onCore g Core.dropFetched).flushStats i.job g).hold g .passEnd))

/-- PASS_END_BARRIER: every live core has reached PASS_END with every write acknowledged; backward instructions may issue. The
count is of the A-cycles that cores waited for the flush (R172, R177). -/
def execPassEndBarrier (t : Counted) (s : State) : Host.Outcome State Fault Refusal :=
  s.actOn (t.unit < 16) (fun fu m =>
    let j := t.unit
    let set := m.liveCores j
    if (m.job j).state != 3 || set.isEmpty || !set.all (fun g => (m.core g).seq.wait == some .passEnd && (m.core g).quiet) then m
    else set.foldl (fun m g => m.releaseHold fu j g) (m.bump (odKey 0x3160 4) t.count))

/-- RESUME_POINT (R484): every live core holds at the same resume point with every write acknowledged; the point is recorded
as passed, with the sync counters and the tags, and the cores go on. -/
def execResumePoint (j : Nat) (s : State) : Host.Outcome State Fault Refusal :=
  s.actOn (j < 16) (fun _ m =>
    let set := m.liveCores j
    match (set.head?.bind (fun g => (m.core g).seq.wait)) with
    | some (.resume p) =>
      if (m.job j).state != 3 || !(m.job j).run.signals.isEmpty ||
          !set.all (fun g => (m.core g).seq.wait == some (.resume p) && (m.core g).quiet) then m
      else
        let m := m.onRun j (fun r => { r with
          mark := some { point := p, counters := r.counters, sels := r.sels, dispatched := r.dispatched }, tags := set.map (fun g => (g, (m.core g).mem.full)) })
        set.foldl (fun (m : Module) g => m.onSeq g (fun q => { q with wait := none })) m
    | _ => m)

/-- STEP_END: the core's work for the step ends. -/
def execStepEnd (g : Nat) (ups : List Upset) (s : State) : Host.Outcome State Fault Refusal :=
  s.actOn (g < 384) (fun fu m => m.issueRow fu g (isControl 7) ups (fun m i =>
    (m.onSeq g (fun q => { q with done := true })).finish fu i stOk 0 0))

end Sys2Proof.Machine
end

