-- ==== Sys2Proof/Machine/Waits.lean ====
section
/-!
DEFINITION. The ends of waits (R98, R101, R171, R200): a held instruction issues again when what it waits for has come, or
ends TIMEOUT at the tag wait limit.
-/
namespace Sys2Proof.Machine

/-- An instruction issued by its class and operation, whatever row first issued it. -/
def Module.issueAt (fu : Fuses) (m : Module) (us : List Upset) (i : Inst) : Module :=
  let ws := i.words
  if classOf ws = 1 then m.matrixAt fu us i
  else if classOf ws = 2 then
    match (readSplice ws).op with
    | 1 => m.gatherAt fu us i
    | 2 => m.scatterAt fu us false i
    | 3 => m.scatterAt fu us true i
    | 4 => m.tileOp fu us i (fun m src dst t => m.expandTiles fu i src dst t)
    | 5 => m.tileOp fu us i (fun m src dst t => m.compressTiles fu i src dst t)
    | _ => m.tileOp fu us i (fun m src dst t => m.transposeTiles fu i src dst t)
  else if classOf ws = 3 then m.rowCmdAt fu us i
  else if classOf ws = 4 then m.moveAt fu us i
  else
    match opOf ws with
    | 1 => m.takeAt fu us i
    | 2 => m.loopAt fu us i
    | 4 => m.waitAt fu us i
    | _ => m

/-- A held core tries again: the commit of its first core tile where it has one, else the issue of its instruction, with what
happens to it then. -/
def Module.retry (fu : Fuses) (us : List Upset) (m : Module) (g : Nat) : Module :=
  let m := m.onSeq g (fun q => { q with wait := none })
  match (m.core g).tiles with
  | t :: _ =>
    let r := m.meet fu t.inst us
    if r.2 then r.1.commitTile fu us g else if t.poisoned then r.1.hiddenPoison fu t.inst else r.1
  | [] =>
    match (m.core g).job.bind (m.instAt g) with
    | none => m
    | some i =>
      let r := m.meet fu i us
      if !r.2 then m.stopped fu r.1 ((us.foldl (fun m u => m.meetMemory fu i.core u) m).issueAt fu us i) i
      else if r.1.stale i then (r.1.dropStale fu i).advance i
      else r.1.issueAt fu us i

/-- Whether a wait is one of R98: a tag, a combine turn (R186) or a full channel (R376), or a stopped stack (R367). -/
def Wait.isTag : Wait → Bool
  | .tag _ _ => true
  | .turn => true
  | .stack _ => true
  | .channel _ => true
  | _ => false

/-- TAG_WAIT_END: the tag has the required state, and the read or write issues; or the combine turn of a movement or of a late gather
has come, for which the whole core waited (R186). -/
def execTagWaitEnd (g ch cycles : Nat) (ups : List Upset) (s : State) : Host.Outcome State Fault Refusal :=
  s.actOn (g < 384 && ch ≤ 8) (fun fu m =>
    let c := m.core g
    if !c.live || c.fenceReq.isSome then m
    else if ch < 8 then
      match c.head ch with
      | some v =>
        if !(v.wait.any Wait.isTag) then m
        else
          let m := ups.foldl (fun (m : Module) u => m.meetMemory fu g u) m
          let n := if v.op = 5 then m.startCoil fu g ch { v with wait := none } else m.runMove fu g ch { v with wait := none }
          if v.wait == some .turn && ((n.core g).head ch).bind Move.wait != some .turn then n.bump (odKey 0x4200 6) cycles else n
      | none => m
    else if c.gathers.head?.any (fun p => p.waits && m.gatherTurn p.inst) then
      match c.gathers with
      | [] => m
      | p :: _ =>
        let r := m.meet fu p.inst ups
        if r.2 then (r.1.commitGather fu g).bump (odKey 0x4200 6) cycles else r.1.gatherPoison fu p
    else
      match c.seq.wait with
      | none => m
      | some w =>
        let m' := m.retry fu ups g
        if !w.isTag || (m'.core g).seq.wait == some w then m else m'.bump (odKey 0x4200 6) cycles)

/-- SHAPE_WORD_ARRIVAL: the shape word is there, and the stalled instruction issues. -/
def execShapeWordArrival (g cycles : Nat) (ups : List Upset) (s : State) : Host.Outcome State Fault Refusal :=
  s.actOn (g < 384) (fun fu m =>
    match (m.core g).seq.wait with
    | some (.shape _) =>
      if (m.core g).live && (m.core g).fenceReq.isNone then (m.bump (odKey 0x3210 4) cycles).retry fu ups g else m
    | _ => m)

/-- The HBM byte range of a statistics page's home (R171). -/
def Module.pageHomes (m : Module) (j set page : Nat) : List (Nat × Nat) :=
  (((m.job j).statSet set).map (fun t => ((m.job j).hbmBase + t.home + 4096 * page, (m.job j).pageBytes set page))).toList

/-- Whether a statistics page can arrive: its set exists, the page is resident or one is free for it, and its home lies in no stopped
stack (R367). -/
def Module.pageFits (m : Module) (j g set page : Nat) : Bool :=
  ((m.job j).statSet set).isSome && (m.stoppedIn (m.pageHomes j set page)).isNone && (((m.core g).page set page).isSome || decide ((m.core g).mem.pages.length < 512))

/-- Whether the page that a core waits for is one to fetch back: a page that its instruction reads, or any page where it holds at no
row instruction; a page that it only writes needs no fetch (R171). -/
def Module.fetchWaits (m : Module) (g set page : Nat) : Bool :=
  match (m.core g).job.bind (m.instAt g) with
  | some i => classOf i.words != 3 || ((m.core g).lacks (readRow i.words).statReads (m.shapeOf i (readShape (loOf i.words 6)))
      (m.shapeOf i (readShape (hiOf i.words 5)))).contains (set, page)
  | none => true

/-- STAT_PAGE_FETCH: the page that the core waits for arrives whole and clean, where a page is free for it; or the page that its
next 8 row instructions read, lowest in home address, arrives ahead of time (R173). -/
def execStatPageFetch (g set page cycles : Nat) (ups : List Upset) (s : State) : Host.Outcome State Fault Refusal :=
  s.actOn (g < 384) (fun fu m =>
    let c := m.core g
    match c.job with
    | none => m
    | some j =>
      if c.fenceReq.isSome || !m.pageFits j g set page then m
      else if c.seq.wait == some (.stat set page) && m.fetchWaits g set page then ((m.fetchPage fu j g set page).bump (odKey 0x3160 4) cycles).retry fu ups g
      else if c.live && (m.job j).run.active && m.nextAhead g j == some (set, page) then m.fetchPage fu j g set page
      else m)

/-- The page that a spill frees for a core that waits for one (R171): the oldest that its instruction does not use. -/
def Module.spillVictim (m : Module) (g : Nat) : Option (Nat × StatPage) :=
  let c := m.core g
  match c.job.bind (m.instAt g), c.seq.wait with
  | some i, some (.stat _ _) =>
    if !m.pagesShort g i then none
    else (c.mem.pages.find? (fun p => !(m.statPages i).contains (p.set, p.page))).map (fun p => (i.job, p))
  | _, _ => none

/-- STAT_PAGE_SPILL: the dirty lines of the oldest page that no instruction in flight uses have been written to their homes; the page
is free, and the access that waited for it goes on. -/
def execStatPageSpill (t : Counted) (set page : Nat) (ups : List Upset) (s : State) : Host.Outcome State Fault Refusal :=
  s.actOn (t.unit < 384) (fun fu m =>
    let g := t.unit
    match m.spillVictim g with
    | none => m
    | some v =>
      if v.2.set != set || v.2.page != page || (m.core g).fenceReq.isSome || (m.stoppedIn (m.pageHomes v.1 set page)).isSome then m
      else ((m.spillPage v.1 g set page).bump (odKey 0x3160 4) t.count).retry fu ups g)

/-- The event of a wait that reached the limit (R122, R178, R213, R352, R392): agent is the class of the waiting
instruction, tag the state found (0 EMPTY, 1 FULL); a multicast carries the first FULL slot of its destinations (R234), and a wait
that is for no slot carries slot 0xFFFF. A SWAP has no channel: its record carries that of the core's channel 0 (DESIGN CHOICE, log
entry 23). -/
def Module.limitEvent (fu : Fuses) (m : Module) (g : Nat) (i : Inst) (pos : Nat) (w : Wait) : Module :=
  let j := i.job
  let cls := classOf i.words
  match w with
  | .tag s full => m.event fu 0x0414 [j, g, s, cls, if full then 0 else 1]
  | .counter k => m.event fu 0x0353 [j, g, identOf i.words, k]
  | .shape off => m.event fu 0x0353 [j, g, identOf i.words, off]
  | .stat set page => m.event fu 0x0333 [j, g, set, max (512 * page) (m.shapeOf i (readShape (loOf i.words 6)))]
  | .swap buf =>
    let space := (((m.job j).image.buffers[buf]?).map Buffer.space).getD 0
    let set := m.swapSet j (if space = 2 then 96 else clusterOf g)
    m.event fu 0x0381 ([j, g, buf, (set.filter (fun h => (m.core h).seq.wait != some (.swap buf))).length] ++
      channelRecord ((m.core g).channels.getD 0 []))
  | .page e p => m.event fu 0x0421 [j, g, e, p, pos]
  | .multicast => m.event fu 0x0414 [j, g, (m.castFull i).getD 0xFFFF, cls, 1]
  | _ => m.event fu 0x0414 [j, g, 0xFFFF, cls, 1]

/-- The counter that the time of a wait adds to (R98, R171, R200, R339, R381); none counts a WAIT. -/
def Wait.timed : Wait → Option Nat
  | .tag _ _ | .turn | .stack _ | .channel _ | .multicast => some (odKey 0x4200 6)
  | .shape _ => some (odKey 0x3210 4)
  | .stat _ _ => some (odKey 0x3160 4)
  | .swap _ => some (odKey 0x3270 8)
  | .page _ _ => some (odKey 0x4220 5)
  | .counter _ | .passEnd | .resume _ => none

/-- A wait of core `g` reached the limit after `held`: its instructions in flight end TIMEOUT, and the job ends (R101, R203). -/
def Module.waitLimit (fu : Fuses) (m : Module) (g held : Nat) (i : Inst) (pos : Nat) (w : Wait) : Module :=
  if (m.job i.job).tagLimit = 0 || (m.job i.job).state != 3 then m
  else
    let m := (w.timed.map (fun k => m.bump k held)).getD m
    ((((m.limitEvent fu g i pos w).movesEnded fu g stTimeout).blame i).endFlight fu i.job stTimeout g).endJob fu i.job stTimeout

end Sys2Proof.Machine
end

