-- ==== Sys2Proof/Machine/Update.lean ====
section
/-!
DEFINITION. The tackles (R267 to R284): schedule curves and constants, the four rules, stochastic rounding of weights (R52,
R53), the factor accumulators and their finalisation (R277), the bias and the next exponents of a tensor (R62, R63), and
the arrival of weight-gradient slices (R247, R300, R310).
-/
namespace Sys2Proof.Machine

/-! ### Constants of a step (R274, R275) -/

/-- The power β^n, exact. -/
def FVal.pow : FVal → Nat → FVal
  | v, n => match v with
    | .fin _ m e => .fin false (m ^ n) (e * n)
    | w => w

/-- The last point of a curve whose step is at most `n`, with its number. -/
def curveAt (curve : List (Nat × Nat)) (n : Nat) : Option Nat :=
  ((curve.zipIdx).filter (fun p => decide (p.1.1 ≤ n))).getLast?.map Prod.snd

/-- The multiplier μ(n) of a curve (R274). -/
def curveMu (curve : List (Nat × Nat)) (n : Nat) : FVal :=
  let step := fun i => (curve.getD i (0, 0)).1
  let mult := fun i => ofF32 (curve.getD i (0, 0)).2
  match curveAt curve n with
  | none => mult 0
  | some i =>
    if i = 255 then mult 255
    else
      let num := rnd ((rnd ((mult (i + 1)).sub (mult i))).mul (rnd (fInt ((n - step i : Nat) : Int))))
      rnd ((mult i).add (rnd (num.div (rnd (fInt ((step (i + 1) - step i : Nat) : Int))))))

/-- The constants of a group for an update number (R275). -/
structure Consts where
  rule : Nat
  n : Nat
  beta1 : FVal
  beta2 : FVal
  eps : FVal
  eps1 : FVal
  gscale : FVal
  eta : FVal
  d : FVal
  b1 : FVal
  b2 : FVal
  c1 : FVal
  c2 : FVal
  gs2 : FVal
  deriving DecidableEq, Repr

/-- 1 / (1 − β^n): the power is the FP32 value nearest the exact one, and the reciprocal is rounded once. -/
def biasFix (beta : FVal) (n : Nat) : FVal := rnd (fOne.div (fOne.sub (rnd (beta.pow n))))

/-- The constants of a group at update number `n`. -/
def Group.consts (g : Group) (n : Nat) : Consts :=
  let eta := rnd ((ofF32 g.eta).mul (curveMu g.curve n))
  { rule := g.rule, n := n, beta1 := ofF32 g.beta1, beta2 := ofF32 g.beta2, eps := ofF32 g.eps, eps1 := ofF32 g.eps1,
    gscale := ofF32 g.gscale, eta := eta, d := rnd (fOne.sub (eta.mul (ofF32 g.lambda))),
    b1 := rnd (fOne.sub (ofF32 g.beta1)), b2 := rnd (fOne.sub (ofF32 g.beta2)),
    c1 := if g.biasCorr then biasFix (ofF32 g.beta1) n else fOne,
    c2 := if g.biasCorr then biasFix (ofF32 g.beta2) n else fOne,
    gs2 := rnd ((ofF32 g.gscale).mul (ofF32 g.gscale)) }

/-! ### One element (R276) -/

/-- The result of a rule on one element: the new weight and state in FP32, and how many results were clamped. -/
structure Applied where
  w : FVal
  m : FVal
  v : FVal
  clamps : Nat
  deriving DecidableEq, Repr

/-- Whether an exact result is clamped on its way to FP32 (R276). -/
def clamps (v : FVal) : Nat := if v.isFin && (fmtF32.encode v).sat then 1 else 0

/-- w′ = (d × w) − (η_n × u). -/
def Consts.weight (c : Consts) (w u : FVal) : FVal × Nat :=
  let a := c.d.mul w
  let b := c.eta.mul u
  let x := (rnd a).sub (rnd b)
  (rnd x, clamps a + clamps b + clamps x)

/-- (β × s) + t for FP32 operands. -/
def blend (beta s t : FVal) : FVal × Nat :=
  let a := beta.mul s
  let x := (rnd a).add t
  (rnd x, clamps a + clamps x)

/-- MOMENTUM. -/
def Consts.momentum (c : Consts) (w m g : FVal) : Applied :=
  let m' := blend c.beta1 m g
  let w' := c.weight w m'.1
  { w := w'.1, m := m'.1, v := fZero, clamps := m'.2 + w'.2 }

/-- ADAPTIVE. -/
def Consts.adaptive (c : Consts) (w m v g : FVal) : Applied :=
  let p := c.b1.mul g
  let m' := blend c.beta1 m (rnd p)
  let q := g.mul g
  let r := c.b2.mul (rnd q)
  let v' := blend c.beta2 v (rnd r)
  let num := m'.1.mul c.c1
  let s := v'.1.mul c.c2
  let den := (rnd (rnd s).sqrt).add c.eps
  let u := (rnd num).div (rnd den)
  let w' := c.weight w (rnd u)
  { w := w'.1, m := m'.1, v := v'.1,
    clamps := clamps p + m'.2 + clamps q + clamps r + v'.2 + clamps num + clamps s + clamps den + clamps u + w'.2 }

/-- The sign of a value: ±1, 0 for ±0, NaN for NaN. -/
def signOf : FVal → FVal
  | .nan => .nan
  | .inf s => .fin s 1 0
  | .fin s m _ => if m = 0 then fZero else .fin s 1 0

/-- SIGN. -/
def Consts.sign (c : Consts) (w m g : FVal) : Applied :=
  let p := c.b2.mul g
  let m' := blend c.beta2 m (rnd p)
  let q := c.b1.mul g
  let s := blend c.beta1 m (rnd q)
  let w' := c.weight w (signOf s.1)
  { w := w'.1, m := m'.1, v := fZero, clamps := clamps p + m'.2 + clamps q + s.2 + w'.2 }

/-- g / sqrt(0) under FACTORED: 0 of g = 0 and else a free finite value (log 25), since R276 states no division by zero and R279 has no
NaN arise there. -/
def factoredOver (g : FVal) : FVal :=
  if g.isZero then fZero
  else
    let c := (Config.factoredOverZero (BitVec.ofNat 32 (toF32 g))).toNat
    if (ofF32 c).isFin then ofF32 c else ofF32 (c - 2 ^ 30)

/-- FACTORED, with the committed factors of the element's row and column and their mean. -/
def Consts.factored (c : Consts) (w g ri cj rho : FVal) : Applied :=
  let q := if c.n = 1 || rho.isZero then g.mul g else ri.mul cj
  let x := if c.n = 1 || rho.isZero then (rnd q).add c.eps1 else (rnd q).div rho
  let root := rnd (rnd x).sqrt
  let u := if root.isZero && g.isFin then factoredOver g else g.div root
  let w' := c.weight w (rnd u)
  { w := w'.1, m := fZero, v := fZero, clamps := clamps q + clamps x + clamps u + w'.2 }

/-! ### Stochastic rounding (R52) -/

/-- A weight as written: its bfloat16 code, whether it was clamped, and whether it was not finite. -/
structure Written where
  code : Nat
  sat : Bool
  nonfin : Bool
  deriving DecidableEq, Repr

/-- The bfloat16 code of a weight result with the 16-bit random value `r`. -/
def roundWeight (v : FVal) (r : Nat) : Written :=
  match v with
  | .nan => { code := 0x7FC0, sat := false, nonfin := true }
  | .inf s => { code := (if s then 0x8000 else 0) + 0x7F7F, sat := true, nonfin := true }
  | .fin _ _ _ =>
    let c := toF32 v
    let mag := c % 2 ^ 31
    let sum := if mag = 0 then 0 else (mag + r) / 2 ^ 16
    let sgn := c / 2 ^ 31 * 2 ^ 15
    if 0x7F80 ≤ sum then { code := sgn + 0x7F7F, sat := true, nonfin := false }
    else { code := sgn + sum, sat := false, nonfin := false }

/-! ### Where an element lies -/

/-- The slot region of an element. -/
def Job.regionOf (b : Job) (t e : Nat) : Nat :=
  if ((b.image.tensors[t]?).map Tensor.rank).getD 0 = 0 then 0 else e / max 1 (b.regionElems t)

/-- Whether the tackles write an element: always in a rank-0 tensor, in an adapter only where its slot is ACTIVE (R242). -/
def Job.writes (b : Job) (t e : Nat) : Bool :=
  ((b.image.tensors[t]?).map Tensor.rank).getD 0 == 0 || ((b.slots[b.regionOf t e]?).map Slot.state).getD 0 == 2

/-- The element address that keys the rounding (R53, R252). -/
def Job.elemAddr (b : Job) (t e : Nat) : Nat :=
  match b.image.tensors[t]?, b.prog.adapters with
  | some x, some a =>
    if x.rank = 0 then x.elemBase + e
    else
      let v := b.regionOf t e
      a.base + ((b.slots[v]?).map Slot.set).getD 0 * a.stride + a.offsetOf t + e % max 1 (b.regionElems t)
  | some x, none => x.elemBase + e
  | none, _ => e

/-- The update number of an element's tensor or slot region (R274). -/
def Job.updateNo (b : Job) (t e : Nat) : Nat :=
  if ((b.image.tensors[t]?).map Tensor.rank).getD 0 = 0 then b.step + 1
  else ((b.slots[b.regionOf t e]?).map Slot.setSteps).getD 0 + 1

/-- The stack whose tackle applies an element: that of its work-half granule (R267, R355). -/
def Job.homeStack (b : Job) (t e : Nat) : Nat :=
  (hbmPlace (b.weightAddr t (1 - b.committed t (b.regionOf t e)) e)).stack

/-- The buffers that movements reach from a list of buffers in at most `n` hops. -/
def Job.reachFrom (moves : List (Nat × Nat)) : Nat → List Nat → List Nat
  | 0, bs => bs
  | n + 1, bs => Job.reachFrom moves n ((bs ++ (moves.filter (fun p => bs.contains p.1)).map Prod.snd).eraseDups)

/-- The scale descriptors fed by the weights of a tensor (R51). DESIGN CHOICE (log 23): no table names the descriptor of a
bfloat16 weight tensor; the model takes those of every scaled FP8 or INT8 buffer that LOAD_CM, FILL and the LOAD_CM descriptors of
coils reach from its weight_buf in at most four hops, so weights that share a cluster-memory buffer feed each other's. -/
def Job.weightDescs (b : Job) (t : Nat) : List Nat :=
  let moves := ((b.prog.streams ++ b.prog.sched).flatMap id).filterMap (fun w =>
    if classOf w = 4 && (opOf w == 1 || opOf w == 2) then some ((readRef (hiOf w 2)).buf, (readRef (loOf w 2)).buf) else none) ++ b.prog.coils
  let wb := ((b.image.tensors[t]?).map Tensor.weightBuf).getD 0
  ((Job.reachFrom moves 4 [wb]).filterMap (fun k => (b.image.buffers[k]?).bind (fun u =>
    if u.scaled && (u.fmt == 2 || u.fmt == 3 || u.fmt == 4) then some u.scale else none))).eraseDups

/-! ### Applying (R276 to R284) -/

/-- What applying a run of elements counted. -/
structure Tally where
  applied : Nat
  skipped : Nat
  wsat : Nat
  ssat : Nat
  clamp : Nat
  nonfin : Nat
  maxes : List (Nat × Int)
  deriving DecidableEq, Repr

/-- Nothing counted. -/
def Tally.zero : Tally := { applied := 0, skipped := 0, wsat := 0, ssat := 0, clamp := 0, nonfin := 0, maxes := [] }

/-- A braid-8 element to apply: its tensor, number and code, and the exponent E + o of its unit (R57). -/
structure Grad where
  t : Nat
  e : Nat
  code : Nat
  unit : Int
  deriving DecidableEq, Repr

/-- Whether a code carries a gradient value (R54, R280). -/
def Grad.carries (g : Grad) : Bool := g.code != 0x80 && g.code != noCode

/-- The committed bfloat16 weight code of an element. -/
def Module.weightCode (m : Module) (j t e : Nat) : Nat :=
  let b := m.job j
  leNat (m.hbm.read (b.weightAddr t (b.committed t (b.regionOf t e)) e) 2)

/-- A weight that a tackle wrote folded into a descriptor: its maximum, and its counts where it is not finite or was clamped (R45, R49,
R51, R52). -/
def ScaleDesc.foldWeight (d : ScaleDesc) (mx : Option Int) (nonfin sat : Bool) : ScaleDesc :=
  { d with stepMaxExp := maxOpt d.stepMaxExp mx, tackleNonfinite := d.tackleNonfinite + (if nonfin then 1 else 0),
           tackleSaturations := d.tackleSaturations + (if sat then 1 else 0) }

/-- A weight code written into the work half, `sat` where it was clamped; the descriptors it feeds take it in (R49, R51). -/
def Module.putWeight (m : Module) (j t e code : Nat) (sat : Bool) : Module :=
  let b := m.job j
  let a := b.weightAddr t (1 - b.committed t (b.regionOf t e)) e
  let m := { m with hbm := m.hbm.write a (leBytes 2 code), hbmPoison := granuleClean m.hbmPoison a, bursts := rewritten m.bursts a 2 }
  let ds := b.weightDescs t
  if ds.isEmpty then m
  else
    let v := fmtBF16.decode code
    m.onJob j (fun b => { b with descs := ds.foldl (fun d i => modifyAt (fun x => x.foldWeight (stepMax [v]) (!v.isFin) sat) d i) b.descs })

/-- State codes written into the work half. -/
def Module.putElemState (m : Module) (j t e mc vc : Nat) : Module :=
  let b := m.job j
  let h := 1 - b.committed t (b.regionOf t e)
  ([mc, vc].zipIdx.filter (fun c => decide (c.2 < b.stateVals t))).foldl (fun (m : Module) c => m.putStateCode j t h e c.2 c.1) m

/-- The committed state codes of an element. -/
def Module.stateCodes (m : Module) (j t e : Nat) : Nat × Nat :=
  let b := m.job j
  let h := b.committed t (b.regionOf t e)
  (if 0 < b.stateVals t then m.stateCode j t h e 0 else 0, if 1 < b.stateVals t then m.stateCode j t h e 1 else 0)

/-- r² folded into the accumulators of a row and a column, in units of 2^−254 (R277). -/
def Module.foldSquare (m : Module) (j : Nat) (g : Grad) : Module :=
  let sq := (((signed 8 g.code).natAbs * 2 ^ (g.unit + 127).toNat) ^ 2 : Nat)
  (((m.job j).facsOf g.t g.e).take 2).foldl (fun (m : Module) k => m.putAcc j g.t k (m.acc j g.t k + sq)) m

/-- The key of an applied element. -/
def appliedKey (t e : Nat) : Nat := 2 ^ 40 * t + e

/-- The result of the rule of an element's group. -/
def Module.rule (m : Module) (j : Nat) (g : Grad) (c : Consts) (w mv vv : FVal) : Applied :=
  let r := (fInt (signed 8 g.code)).scale g.unit
  let x := r.mul c.gscale
  let y := rnd x
  let a := match c.rule with
    | 1 => c.momentum w mv y
    | 2 => c.adaptive w mv vv y
    | 3 => c.sign w mv y
    | _ =>
      let fs := ((m.job j).facsOf g.t g.e).map (fun k => ofF32 (m.facCode j g.t ((m.job j).facHalf g.t) k))
      c.factored w y (fs.getD 0 fZero) (fs.getD 1 fZero) (fs.getD 2 fZero)
  { a with clamps := a.clamps + clamps x }

/-- One element handled by its tackle: left as committed where no gradient value came (R280), else updated under its rule
and written (R276, R279). `skipWrite` is set where the two datapaths differ (R283). An element of a slot region that is not ACTIVE
is handled by writing nothing (R242). -/
def Module.applyElem (m : Module) (j : Nat) (g : Grad) (tl : Tally) (skipWrite : Bool) : Module × Tally :=
  let b := m.job j
  let done := fun (m : Module) => m.onRun j (fun r => { r with applied := r.applied.set (appliedKey g.t g.e) 1 })
  if !b.writes g.t g.e then (done m, tl)
  else
    let old := m.weightCode j g.t g.e
    let st := m.stateCodes j g.t g.e
    let first := b.run.applied.get (appliedKey g.t g.e) == 0
    if !g.carries then
      (done ((m.putWeight j g.t g.e old false).putElemState j g.t g.e st.1 st.2),
       { tl with skipped := tl.skipped + (if g.code = 0x80 then 1 else 0) })
    else
      let c := ((b.image.groups[((b.image.tensors[g.t]?).map Tensor.group).getD 0]?).map (fun k => k.consts (b.updateNo g.t g.e)))
      match c with
      | none => (m, tl)
      | some c =>
        let a := m.rule j g c (fmtBF16.decode old) (fmtBF16.decode st.1) (fmtBF16.decode st.2)
        let tl := { tl with applied := tl.applied + 1, clamp := tl.clamp + a.clamps }
        if skipWrite then (m, tl)
        else
          let w := roundWeight a.w (weightRandom b.seed b.step (b.elemAddr g.t g.e))
          let mc := fmtBF16.encode a.m
          let vc := fmtBF16.encode a.v
          let n := (if w.nonfin then 1 else 0) + (if a.m == .nan then 1 else 0) + (if a.v == .nan then 1 else 0)
          let m := (m.putWeight j g.t g.e w.code w.sat).putElemState j g.t g.e mc.code vc.code
          let m := if c.rule = 4 && first then m.foldSquare j g else m
          (done m, { tl with wsat := tl.wsat + (if w.sat then 1 else 0), nonfin := tl.nonfin + n,
                             ssat := tl.ssat + (if mc.sat then 1 else 0) + (if vc.sat then 1 else 0) })

/-- The counters of a run of elements (R64, R288). -/
def Module.count (m : Module) (tl : Tally) : Module :=
  (((((m.bump (odKey 0x7130 1) tl.applied).bump (odKey 0x7120 6) tl.skipped).bump (odKey 0x7120 7) tl.wsat).bump
    (odKey 0x7130 3) tl.ssat).bump (odKey 0x7130 4) tl.clamp).bump (odKey 0x3140 4) tl.nonfin

/-- The first element whose committed weight or state granule carries poison (R284), with the kind that event 0x0731 carries:
1 a weight, 2 state; 0 is a gradient (DESIGN CHOICE, log 25). -/
def Module.poisonedGrad (m : Module) (j : Nat) (gs : List Grad) : Option (Grad × Nat) :=
  let b := m.job j
  gs.findSome? (fun g =>
    let h := b.committed g.t (b.regionOf g.t g.e)
    if !b.writes g.t g.e then none
    else if poisonHit m.hbmPoison (b.weightAddr g.t h g.e) 2 then some (g, 1)
    else if m.statePoison j g.t h g.e || m.facPoison j g.t (b.facsOf g.t g.e) then some (g, 2)
    else none)

/-- The HBM byte ranges that the tackles read of elements that they write: weights, state and factors. -/
def Module.gradRanges (m : Module) (j : Nat) (gs : List Grad) : List (Nat × Nat) :=
  let b := m.job j
  (gs.filter (fun g => b.writes g.t g.e)).flatMap (fun g =>
    let h := b.committed g.t (b.regionOf g.t g.e)
    (b.weightAddr g.t h g.e, 2) :: ((List.range (b.stateVals g.t)).map (fun k => (b.stateAddr g.t h g.e k, 2)) ++
      (b.facsOf g.t g.e).map (fun k => (b.facAddr g.t (b.facHalf g.t) k, 4))).filter (fun r => b.inState r.1))

/-- A poisoned granule at a tackle: event 0x0731, and the job ends with POISON (R284). -/
def Module.tacklePoison (fu : Fuses) (m : Module) (j kind t e : Nat) : Module :=
  (m.event fu 0x0731 [j, (m.job j).homeStack t e, kind, (m.job j).elemAddr t e]).endJob fu j stPoison

/-- Whether a home stack of any of the elements is stopped: its tackle waits (R284). -/
def Module.tackleWaits (m : Module) (j : Nat) (gs : List Grad) : Bool :=
  gs.any (fun g => (m.job j).writes g.t g.e && (m.stack ((m.job j).homeStack g.t g.e)).stopped)

/-- The elements at which the two datapaths of a lane differ (R283): those at the positions `differ` that a rule computes. -/
def Job.mismatches (b : Job) (gs : List Grad) (differ : List Nat) : List Grad :=
  (gs.zipIdx.filter (fun g => differ.contains g.2 && g.1.carries && b.writes g.1.t g.1.e)).map Prod.fst

/-- Elements applied by their tackles; the lanes of those in `bad` write nothing. -/
def Module.applyGrads (m : Module) (j : Nat) (gs bad : List Grad) : Module × Tally :=
  gs.foldl (fun (acc : Module × Tally) g => acc.1.applyElem j g acc.2 (bad.contains g)) (m, Tally.zero)

/-- The record of one tackle compare mismatch (R283). -/
def Module.mismatchEvent (fu : Fuses) (j : Nat) (m : Module) (g : Grad) : Module :=
  (m.bump (odKey 0x7130 5) 1).event fu 0x0730 [j, (m.job j).homeStack g.t g.e, (m.job j).elemAddr g.t g.e, (m.job j).run.attempt]

/-- Tackle compare mismatches (R283): their records, each tackle's count of consecutive attempts, and at the limit its suspect
bit. The answer tells whether the limit ends the job. -/
def Module.tackleMismatch (fu : Fuses) (m : Module) (j : Nat) (bad : List Grad) : Module × Bool :=
  let b := m.job j
  let fails := ((bad.map (fun g => b.homeStack g.t g.e)).eraseDups).map (fun p => (p, (b.run.tackleFails.lookup p).getD 0 + 1))
  let m := bad.foldl (Module.mismatchEvent fu j) m
  let m := m.onRun j (fun r => { r with tackleFails := fails, sampleFails := [], mismatched := true })
  let atLimit := fails.filter (fun f => decide (b.run.latched (odKey 0x7130 6) ≤ f.2))
  (atLimit.foldl (fun (m : Module) f =>
    (m.odSet (odKey 0x7130 7) (setBit (m.odGet (odKey 0x7130 7)) f.1)).event fu 0x0732 [j, f.1, f.2]) m, !atLimit.isEmpty)

/-! ### Biases and next exponents (R62, R63) -/

/-- The REDUCE entries' tensor saturations added to the step's count. -/
def Run.addSats (r : Run) (t n : Nat) : Run := { r with satCount := r.satCount.add t n }

/-- The largest maximum of a segment folded in. -/
def putMax (l : List (Nat × Int)) (k : Nat) (v : Int) : List (Nat × Int) :=
  match l.lookup k with
  | none => l ++ [(k, v)]
  | some w => if w < v then l.map (fun p => if p.1 = k then (k, v) else p) else l

/-- The new bias and clean-step count of a tensor from its rope-wide saturation count (R63), and whether its fraction exceeds
the threshold. `n` is the rope size. -/
def Job.biasOf (b : Job) (t n : Nat) (d : ScaleDesc) : Nat × Nat × Bool :=
  let cnt := b.run.satCount.get t
  let elems := ((b.image.tensors[t]?).map Tensor.count).getD 0 * n
  let thr := if d.satThreshold = 0 then b.run.latched (odKey 0x7120 1) else d.satThreshold
  let bmax := b.run.latched (odKey 0x7120 2)
  let decay := b.run.latched (odKey 0x7120 3)
  if thr * elems < cnt * 2 ^ 20 then ((if bmax ≤ d.braidBias then d.braidBias else d.braidBias + 1), 0, true)
  else if cnt != 0 then (d.braidBias, 0, false)
  else if decay != 0 && decide (decay ≤ d.cleanSteps + 1) then (d.braidBias - 1, 0, false)
  else (d.braidBias, d.cleanSteps + 1, false)

/-- The index of the descriptor of a tensor's gradient. -/
def Job.gradDescNo (b : Job) (t : Nat) : Nat :=
  ((b.image.tensors[t]?).bind (fun x => b.image.buffers[x.gradBuf]?)).elim 0 Buffer.scale

/-- The bias of a tensor decided for the step, with event 0x0720. -/
def Module.setBias (fu : Fuses) (m : Module) (j t n : Nat) : Module :=
  let b := m.job j
  match b.gradDesc t with
  | none => m
  | some d =>
    let x := b.biasOf t n d
    let m := m.onRun j (fun r => { r with bias := r.bias ++ [(t, x.1, min 65535 x.2.1)] })
    if x.2.2 then m.event fu 0x0720 [j, b.gradDescNo t, b.run.satCount.get t, x.1] else m

/-- The next exponent of a segment from the maximum received (R62), and whether it was clamped. -/
def Job.nextExpOf (b : Job) (t sg : Nat) : Int × Bool :=
  match b.gradDesc t with
  | none => (b.segExp t sg, false)
  | some d =>
    let bias := match b.run.bias.find? (fun x => x.1 == t) with
      | some x => x.2.1
      | none => d.braidBias
    match b.run.segMax.lookup (segKey t sg) with
    | none => (b.segExp t sg, false)
    | some mx =>
      let e := mx - 6 + d.margin + (bias : Int)
      (clampInt (-127) 112 e, e != clampInt (-127) 112 e)

/-- The next exponent of a segment put into the next table, with event 0x0722 where it was clamped. -/
def Module.setNextExp (fu : Fuses) (m : Module) (j t sg : Nat) : Module :=
  let x := (m.job j).nextExpOf t sg
  let m := m.onRun j (fun r => { r with nextExp := r.nextExp.filter (fun p => p.1 != segKey t sg) ++ [(segKey t sg, x.1)] })
  if x.2 then m.event fu 0x0722 [j, (m.job j).gradDescNo t] else m

/-! ### Weight-gradient slices (R247, R300, R310) -/

/-- The elements that a bucket holds of its REDUCE entries (R298): for each entry its segments. -/
def Reduce.segsOf (r : Reduce) (bucket : Nat) : List (Nat × Nat) :=
  (r.entries.filter (fun e => e.bucket == bucket)).flatMap (fun e => (List.range e.segCount).map (fun k => (e.tensor, e.firstSeg + k)))

/-- The elements of a tensor's segment. -/
def Job.segLen (b : Job) (t sg : Nat) : Nat := min 4096 (((b.image.tensors[t]?).map Tensor.count).getD 0 - 4096 * sg)

/-- The elements of a bucket. -/
def Job.bucketLen (b : Job) (bucket : Nat) : Nat :=
  match b.prog.reduce with
  | none => 0
  | some r => ((r.segsOf bucket).map (fun s => b.segLen s.1 s.2)).sum

/-- The number of a tensor's entry within a bucket (R302). -/
def Reduce.entryNo (r : Reduce) (bucket t sg : Nat) : Nat :=
  (indexOf (fun e => e.tensor == t && decide (e.firstSeg ≤ sg) && decide (sg < e.firstSeg + e.segCount))
    (r.entries.filter (fun e => e.bucket == bucket))).getD 0

/-- The job-region address of a position in a bucket's staging slot (R300). -/
def Reduce.slotAddr (r : Reduce) (bucket pos : Nat) : Nat :=
  r.stagingBase + bucket % max 1 r.stagingCount * 2 ^ r.bucketLog2 + pos

/-- A byte of a bucket's staging slot stored. -/
def Module.stage (m : Module) (j bucket pos code : Nat) (bad : Bool) : Module :=
  match (m.job j).prog.reduce with
  | none => m
  | some r => m.storeAt j 0 2 (r.slotAddr bucket pos) (leBytes 1 code) bad

/-- A job's bucket changed. -/
def Module.onBucket (m : Module) (j k : Nat) (f : Bucket → Bucket) : Module :=
  m.onRun j (fun r => { r with buckets := modifyAt f r.buckets k })

/-- An empty bucket. -/
def Bucket.fresh : Bucket := { state := 0, elems := [], maxExp := [], sats := [], nonfins := [] }

/-- Bucket `k` of a job. -/
def Job.bucket (b : Job) (k : Nat) : Bucket := b.run.buckets.getD k Bucket.fresh

/-- One released element at its bucket. The second answer tells that a re-released element differs from the held one. -/
def Module.placeElem (fu : Fuses) (m : Module) (j core t : Nat) (x : Nat × Nat) (bad : Bool) : Module × Bool :=
  let b := m.job j
  match b.segPlace t (x.1 / 4096), b.prog.reduce with
  | some p, some r =>
    let pos := 4096 * p.2 + x.1 % 4096
    let k := b.bucket p.1
    if k.state != 0 then (if x.2 = noCode then m else m.bump (odKey 0x5210 9) 1, false)
    else
      match k.elems.lookup pos with
      | some c =>
        let m := if x.2 = noCode then m else m.bump (odKey 0x5210 9) 1
        if c = x.2 then (m, false) else (m.event fu 0x0725 [j, core, p.1, p.2], true)
      | none =>
        let n := r.entryNo p.1 t (x.1 / 4096)
        ((m.stage j p.1 pos (if x.2 = noCode then 0 else x.2) bad).onBucket j p.1 (fun k =>
          { k with elems := k.elems ++ [(pos, x.2)], nonfins := if x.2 = 0x80 then k.nonfins.add n 1 else k.nonfins }), false)
  | _, _ => (m, false)

/-- Buckets that have every element become FULL (R300). -/
def Module.fillBuckets (m : Module) (j : Nat) : Module :=
  (List.range (m.job j).run.buckets.length).foldl (fun (m : Module) k =>
    let b := m.job j
    if (b.bucket k).state = 0 && (b.bucket k).elems.length == b.bucketLen k then
      m.onBucket j k (fun x => { x with state := 1 })
    else m) m

/-- The job-region addresses at which a slice stores elements that its buckets do not hold yet, each with whether it arrives poisoned. -/
def Job.slicePlaces (b : Job) (s : Slice) (poisoned : List Nat) : List (Nat × Bool) :=
  (s.elems.zipIdx).filterMap (fun x =>
    match b.segPlace s.tensor (x.1.1 / 4096), b.prog.reduce with
    | some p, some r =>
      let pos := 4096 * p.2 + x.1.1 % 4096
      if (b.bucket p.1).state = 0 && ((b.bucket p.1).elems.lookup pos).isNone then some (r.slotAddr p.1 pos, poisoned.contains x.2) else none
    | _, _ => none)

/-- A slice at the buckets of a rope. A granule of a staging slot that it writes whole with clean data is clean (R362). -/
def Module.sliceToBuckets (fu : Fuses) (m : Module) (j : Nat) (s : Slice) (poisoned : List Nat) : Module :=
  let b := m.job j
  let fresh := fun (sg : Nat) => match b.segPlace s.tensor sg with
    | some p => (b.bucket p.1).state == 0 && s.elems.any (fun e => e.1 / 4096 == sg && ((b.bucket p.1).elems.lookup (4096 * p.2 + e.1 % 4096)).isNone)
    | none => false
  let m := (s.sats.filter (fun c => fresh c.1)).foldl (fun (m : Module) c =>
    match b.segPlace s.tensor c.1, b.prog.reduce with
    | some p, some r => m.onBucket j p.1 (fun k => { k with sats := k.sats.add (r.entryNo p.1 s.tensor c.1) c.2 })
    | _, _ => m) m
  let m := s.maxExp.foldl (fun (m : Module) x =>
    match b.segPlace s.tensor x.1 with
    | some p => if (b.bucket p.1).state = 0 then m.onBucket j p.1 (fun k => { k with maxExp := putMax k.maxExp p.2 x.2 }) else m
    | none => m) m
  let r := (s.elems.zipIdx).foldl (fun (acc : Module × Bool) x =>
    if acc.2 then acc else acc.1.placeElem fu j s.core s.tensor x.1 (poisoned.contains x.2)) (m, false)
  let ps := b.slicePlaces s poisoned
  let m := r.1.cleanCovered j 0 2 (ps.map Prod.fst) ((ps.filter Prod.snd).map Prod.fst)
  if r.2 then m.failAttempt fu j stCheck else m.fillBuckets j

/-- The elements of a slice as gradients in a rope of size 1 (R56). -/
def Job.sliceGrads (b : Job) (s : Slice) : List Grad :=
  s.elems.map (fun x => { t := s.tensor, e := x.1, code := x.2, unit := b.segExp s.tensor (x.1 / 4096) })

/-- Event 0x0721: the tackles skipped non-finite elements of a bucket (R59, R65). The record names the descriptor of the tensor
of the first of them (DEDUCED, log 23: a bucket can hold such elements of several tensors). -/
def Module.skippedEvent (fu : Fuses) (m : Module) (j t n : Nat) : Module :=
  if n = 0 then m else m.event fu 0x0721 [j, (m.job j).gradDescNo t, n]

/-- The first element that the tackles skip. -/
def Job.firstSkipped (b : Job) (gs : List Grad) : Option Grad := gs.find? (fun g => g.code == 0x80 && b.writes g.t g.e)

/-- Whether every element of a bucket has been handled in the attempt. -/
def Job.bucketApplied (b : Job) (k : Nat) : Bool :=
  match b.prog.reduce with
  | none => true
  | some r => (r.segsOf k).all (fun s =>
      (List.range (b.segLen s.1 s.2)).all (fun i => b.run.applied.get (appliedKey s.1 (4096 * s.2 + i)) == 1))

/-- Skipped elements of a bucket added to its count. -/
def addSkip : List (Nat × Nat × Nat) → Nat → Nat → List (Nat × Nat × Nat)
  | [], k, t => [(k, t, 1)]
  | (i, u, n) :: xs, k, t => if i = k then (i, u, n + 1) :: xs else (i, u, n) :: addSkip xs k t

/-- The skipped elements of a slice in a rope of size 1, counted for their buckets of the REDUCE plan (R298). Those of an
element that its attempt has handled before do not count again. -/
def Module.countSkips (m : Module) (j : Nat) (gs : List Grad) : Module :=
  let b := m.job j
  let new := gs.filter (fun g => g.code == 0x80 && b.writes g.t g.e && b.run.applied.get (appliedKey g.t g.e) == 0)
  m.onRun j (fun r => { r with skips := new.foldl (fun l g => addSkip l (((b.segPlace g.t (g.e / 4096)).map Prod.fst).getD 65536) g.t) r.skips })

/-- In a rope of size 1 event 0x0721 is raised once for each bucket, when the last of its elements has been handled (R59). -/
def Module.reportSkips (fu : Fuses) (m : Module) (j : Nat) : Module :=
  let b := m.job j
  let ready := b.run.skips.filter (fun x => x.1 == 65536 || b.bucketApplied x.1)
  let m := m.onRun j (fun r => { r with skips := r.skips.filter (fun x => !ready.contains x) })
  ready.foldl (fun (m : Module) x => m.skippedEvent fu j x.2.1 x.2.2) m

/-- A slice straight at the tackles (R247). `differ`: the positions of its elements whose two datapaths differ. -/
def Module.sliceToTackles (fu : Fuses) (m : Module) (j : Nat) (s : Slice) (differ : List Nat) : Module :=
  let b := m.job j
  let gs := b.sliceGrads s
  let bad := m.poisonedGrad j gs
  let m := m.hbmReads fu j (m.gradRanges j gs)
  match bad with
  | some x => m.tacklePoison fu j x.2 x.1.t x.1.e
  | none =>
    let m := m.onRun j (fun r => { r with
      segMax := s.maxExp.foldl (fun l x => putMax l (segKey s.tensor x.1) x.2) r.segMax,
      satCount := if (gs.any (fun g => r.applied.get (appliedKey g.t g.e) == 0)) then r.satCount.add s.tensor s.satTotal else r.satCount })
    let bad := b.mismatches gs differ
    let x := (m.countSkips j gs).applyGrads j gs bad
    let m := (x.1.count x.2).reportSkips fu j
    if bad.isEmpty then m
    else
      let y := m.tackleMismatch fu j bad
      if y.2 then y.1.endJob fu j stCheck else y.1.failAttempt fu j stCheck

/-- WEIGHT_GRADIENT_SLICE: the oldest released slice arrives. `poisoned`: the positions of its elements that arrive poisoned; `differ`:
the positions of its elements at which the two datapaths of a tackle lane differ. -/
def execWeightGradientSlice (j : Nat) (poisoned : List Nat) (differ : List Nat) (s : State) : Host.Outcome State Fault Refusal :=
  s.actOn (j < 16) (fun fu m =>
    let b := m.job j
    match b.run.slices with
    | [] => m
    | x :: rest =>
      if b.state != 3 || b.run.mustReplay.isSome then m
      else
        let take := fun (m : Module) => m.onRun j (fun r => { r with slices := rest })
        if m.inRope j then
          if m.sliceWaits j x.tensor (x.elems.map Prod.fst) then m else (take m).sliceToBuckets fu j x poisoned
        else if m.tackleWaits j (b.sliceGrads x) then m
        else
          match (x.elems.zipIdx).find? (fun e => poisoned.contains e.2) with
          | some e => (take m).tacklePoison fu j 0 x.tensor e.1.1
          | none => (take m).sliceToTackles fu j x differ)

/-! ### FACTORED finalisation (R277) -/

/-- The new factors of rows or columns from their exact sums `acc` and the committed ones: `other` is the count that each sum runs over.
With the clamped results. -/
def newFactors (c : Consts) (count other : Nat) (acc : Nat → Nat) (fac : Nat → FVal) : List FVal × Nat :=
  let inv := rnd (fOne.div (fInt (other : Int)))
  (List.range count).foldl (fun (r : List FVal × Nat) i =>
    let s := FVal.fin false (acc i) (-254)
    let x := (rnd s).mul c.gs2
    let a := (rnd x).mul inv
    let y := (rnd a).add c.eps1
    let z := c.b2.mul (rnd y)
    let w := blend c.beta2 (fac i) (rnd z)
    (r.1 ++ [w.1], r.2 + clamps s + clamps x + clamps a + clamps y + clamps z + w.2)) ([], 0)

/-- The mean of the new row factors: their exact sum rounded once, times 1 / rows; with the clamped results. -/
def factorMean (rows : Nat) (fac : List FVal) : FVal × Nat :=
  let sum := fac.foldl FVal.add fZero
  let x := (rnd sum).mul (rnd (fOne.div (fInt (rows : Int))))
  (rnd x, clamps sum + clamps x)

/-- The new factors of a FACTORED tensor: rows, columns and ρ, with the clamped results (R277). -/
def Module.finalFactors (m : Module) (j t : Nat) (c : Consts) : List FVal × Nat :=
  let d := (m.job j).facDims t
  let fac := fun (k : Nat) => ofF32 (m.facCode j t ((m.job j).facHalf t) k)
  let rs := newFactors c d.1 d.2 (m.acc j t) fac
  let cs := newFactors c d.2 d.1 (fun i => m.acc j t (d.1 + i)) (fun i => fac (d.1 + i))
  let x := factorMean d.1 rs.1
  (rs.1 ++ cs.1 ++ [x.1], rs.2 + cs.2 + x.2)

/-- New factors written into the work half. -/
def Module.putFactors (m : Module) (j t : Nat) (fs : List FVal) : Module :=
  (fs.zipIdx).foldl (fun (m : Module) f => m.putFac j t (1 - (m.job j).facHalf t) f.2 (toF32 f.1)) m

/-- The first factor or accumulator that a finalisation reads poisoned. -/
def Module.finalPoison (m : Module) (j t : Nat) : Option Nat :=
  (List.range ((m.job j).facCount t)).find? (fun k => m.facPoison j t [k] ||
    (List.range 9).any (fun w => m.statePoisonAt j ((m.job j).accAddr t k w) 8))

/-- The HBM byte ranges that a finalisation reads: the committed factors and the accumulators. -/
def Module.finalRanges (m : Module) (j t : Nat) : List (Nat × Nat) :=
  let b := m.job j
  ((List.range (b.facCount t)).flatMap (fun k =>
    (b.facAddr t (b.facHalf t) k, 4) :: (List.range 9).map (fun w => (b.accAddr t k w, 8)))).filter (fun r => b.inState r.1)

/-- Whether the home of any factor of a tensor is a stopped stack: its tackle waits (R284). -/
def Module.facWaits (m : Module) (j t : Nat) : Bool :=
  (List.range (min 24 ((m.job j).facCount t))).any (fun p => (m.stack p).stopped)

/-- Whether every element of a tensor has been handled in the attempt. -/
def Job.allApplied (b : Job) (t : Nat) : Bool :=
  (List.range (((b.image.tensors[t]?).map Tensor.count).getD 0)).all (fun e => b.run.applied.get (appliedKey t e) == 1)

/-- FACTORED_FINALISATION: the home tackles write the new factors of a tensor into the work half, once none of them waits for its
stack; a poisoned factor or accumulator ends the job (R284). -/
def execFactoredFinalisation (j t : Nat) (s : State) : Host.Outcome State Fault Refusal :=
  s.actOn (j < 16) (fun fu m =>
    let b := m.job j
    match b.factoredOf t, (b.image.tensors[t]?).bind (fun x => b.image.groups[x.group]?) with
    | some f, some g =>
      if b.state != 3 || b.run.mustReplay.isSome || f.finished || !b.allApplied t || m.facWaits j t then m
      else
        match m.finalPoison j t with
        | some k => ((m.hbmReads fu j (m.finalRanges j t)).event fu 0x0731 [j, k % 24, 2, b.firstAddr t]).endJob fu j stPoison
        | none =>
          let x := m.finalFactors j t (g.consts (b.step + 1))
          (((((m.hbmReads fu j (m.finalRanges j t)).putFactors j t x.1).onJob j (fun b => { b with
            factored := b.factored.map (fun f => if f.tensor = t then { f with finished := true } else f) })).bump (odKey 0x7130 4) x.2).bump
            (odKey 0x3140 4) (x.1.countP (fun v => v == .nan)))
    | _, _ => m)

end Sys2Proof.Machine
end

