-- ==== Sys2Proof/Machine/StepCtl.lean ====
section
/-!
DEFINITION. The step as a whole: its start (R239, R253, R254, R256), its commit (R49, R240, R242, R285, R487), a replayed
attempt and its resumption (R481, R485), and the end of a state snapshot (R285).
-/
namespace Sys2Proof.Machine

/-! ### Step start -/

/-- The dictionary objects that take effect at a step boundary (R64, R90, R288, R321, R351, R496). -/
def stepObjects : List Nat :=
  [odKey 0x3120 1, odKey 0x3120 6, odKey 0x3230 8, odKey 0x3260 1, odKey 0x3260 2, odKey 0x7110 1, odKey 0x7110 4,
   odKey 0x7110 5, odKey 0x5200 7, odKey 0x7120 1, odKey 0x7120 2, odKey 0x7120 3, odKey 0x7130 6, odKey 0x7140 1]

/-- Their values now. -/
def Module.latchNow (m : Module) : NatMap := stepObjects.foldl (fun (t : NatMap) k => t.set k (m.odGet k)) []

/-- The variant commands since the last boundary take effect (R256). -/
def Slot.turnOver (s : Slot) : Slot :=
  { s with state := if s.next = 1 then 2 else if s.next = 2 then 1 else s.state, next := 0 }

/-- An entry of the micro-batch table: set, rows and reserved bits (R253). -/
structure MicroBatch where
  set : Nat
  rows : Nat
  rsv : Nat
  deriving DecidableEq, Repr

/-- A failed table check: its status and what event 0x0360 carries. -/
structure TableBad where
  status : Nat
  mb : Nat
  set : Nat
  rows : Nat
  deriving DecidableEq, Repr

/-- The micro-batch table of a job (R253). DESIGN CHOICE (log entry 23): no status is given for a table at an offset that is not 8-byte
aligned or whose entries pass the end of the job region, so the entries are the bytes that lie there. -/
def Module.microBatches (m : Module) (j : Nat) (a : Adapters) : List MicroBatch :=
  let b := m.job j
  (List.range (b.boundValue a.mbcSlot)).map (fun i =>
    let w := leNat (m.bytesAt j 0 2 (b.boundValue a.mbtSlot + 8 * i) 8)
    { set := field w 48 16, rows := field w 24 24, rsv := field w 0 24 })

/-- The ACTIVE slot that holds a set. -/
def Job.activeSlot (b : Job) (set : Nat) : Option Nat := indexOf (fun s => s.state == 2 && s.set == set) b.slots

/-- The first entry at which the rows of one slot or of the step pass their limit. -/
def rowsBad (b : Job) (a : Adapters) : List (MicroBatch × Nat) → NatMap → Nat → Option TableBad
  | [], _, _ => none
  | (e, i) :: es, per, total =>
    let v := (b.activeSlot e.set).getD 64
    let n := per.get v + e.rows
    if a.rlMax < n || 16777216 < total + e.rows then some { status := stShape, mb := i, set := e.set, rows := e.rows }
    else rowsBad b a es (per.set v n) (total + e.rows)

/-- The check of the micro-batch table (R253). -/
def Module.tableBad (m : Module) (j : Nat) (a : Adapters) : Option TableBad :=
  let b := m.job j
  let n := b.boundValue a.mbcSlot
  if a.mbMax < n then some { status := stShape, mb := n, set := 0, rows := 0 }
  else
    let es := (m.microBatches j a).zipIdx
    match es.find? (fun e => m.poisonAt j 0 2 (b.boundValue a.mbtSlot + 8 * e.2) 8) with
    | some e => some { status := stPoison, mb := e.2, set := e.1.set, rows := e.1.rows }
    | none =>
      match es.find? (fun e => decide (1023 < e.1.set) || e.1.rsv != 0 || (b.activeSlot e.1.set).isNone) with
      | some e => some { status := stBadIndex, mb := e.2, set := e.1.set, rows := e.1.rows }
      | none => rowsBad b a es [] 0

/-- The step row numbers of each micro-batch: its entry and its first row. -/
def firstRows : List MicroBatch → Nat → List (MicroBatch × Nat)
  | [], _ => []
  | e :: es, at_ => (e, at_) :: firstRows es (at_ + e.rows)

/-- The slot row lists written into the job region (R254). -/
def Module.writeRowLists (m : Module) (j : Nat) (a : Adapters) : Module :=
  let b := m.job j
  let es := firstRows (m.microBatches j a) 0
  let rowsOf := fun (v : Nat) => (es.filter (fun e => b.activeSlot e.1.set == some v)).flatMap (fun e => (List.range e.1.rows).map (· + e.2))
  let base := b.boundValue a.rlSlot
  let counts := (List.range 64).flatMap (fun v => leBytes 4 (if v < a.slots then (rowsOf v).length else 0))
  (List.range a.slots).foldl (fun (m : Module) v =>
    m.storeAt j 0 2 (base + 256 + 4 * a.rlMax * v) ((rowsOf v).flatMap (leBytes 4)) false) (m.storeAt j 0 2 base counts false)

/-- The problems of the reel region whose up projection writes a buffer (R349): the run-time count of its template's problem
index. -/
def Module.problemsOf (m : Module) (j buf : Nat) : Nat :=
  let b := m.job j
  ((b.prog.streams.flatMap (fun st => (st.zipIdx).filterMap (fun w =>
    if classOf w.1 = 1 && (readRef (hiOf w.1 3)).buf = buf then
      ((((st.take w.2).zipIdx).filter (fun t => isControl 1 t.1 && decide (w.2 < targetOf t.1))).getLast?).map (fun t => reelOf t.1)
    else none))).map (fun n => match b.image.templates[n]? with
      | some t => (m.reelCounts j t).getD t.pIndex 0
      | none => 0)).foldl max 1

/-- Every replay word of the EXACT predictors at 0 (R349). -/
def Module.clearReplayWords (m : Module) (j : Nat) : Module :=
  (((m.job j).prog.experts.map Experts.preds).getD []).foldl (fun (m : Module) p =>
    if p.mode = 2 then m.storeAt j 0 2 p.replayBase (zeros (4 * m.problemsOf j p.upBuf)) false else m) m

/-- A FACTORED tensor at an attempt's start (R277); its accumulators are zeroed with it (Module.zeroAccs). -/
def Factored.restart (f : Factored) : Factored := { f with finished := false }

/-- The buckets of a job in a rope, all empty (R300); none in a rope of size 1. -/
def Module.freshBuckets (m : Module) (j : Nat) : List Bucket :=
  if m.inRope j then List.replicate (((m.job j).prog.reduce.map Reduce.bucketCount).getD 0) Bucket.fresh else []

/-- A core of a job stopped at an instruction, with the tags that it starts with. At the start of a task it holds no statistics page
(R103, R174); DEDUCED (log entry 27): every attempt that starts at instruction 0 starts a task. `resumed` tells that the attempt goes
on at a resume point, where the records committed before it stand (R485). -/
def Core.restartAt (c : Core) (full : List Nat) (resumed : Bool) : Core :=
  { c.stop 0 with mem := { (c.stop 0).mem with full := full, pages := if resumed then c.mem.pages else [] } }

/-- Every live core of a job released at its role's instruction, with the tags of the run part: EMPTY at the start of a task (R103),
those of the resume point where one is passed. -/
def Module.release (m : Module) (j : Nat) (resumed : Bool) (at_ : Nat → Nat) : Module :=
  (m.liveCores j).foldl (fun (m : Module) g =>
    let m := m.onCore g (fun c => c.restartAt (((m.job j).run.tags.lookup g).getD []) resumed)
    m.goto g j (at_ ((m.job j).image.roleMap.getD (g % 8) 0xFF))) m

/-- The dies ready at the step's start, which the sample comparisons use (R304). -/
def Module.readyDies (m : Module) : List Nat := (List.range 48).filter (fun d => (m.die d).ready)

/-- Frames of earlier steps forgotten by the receive interfaces. -/
def Rope.forward (r : Rope) (step : Nat) : Rope :=
  { r with inputs := r.inputs.filter (fun x => decide (step ≤ x.step)), sums := [],
           trailers := r.trailers.filter (fun x => decide (step ≤ x.step)),
           hashes := r.hashes.filter (fun x => decide (step ≤ x.step + 1)),
           wgtSeen := [], etabSeen := [], wgtHeld := [] }

/-- The run part of a step's first attempt. -/
def Module.firstRun (m : Module) (j : Nat) : Run :=
  let b := m.job j
  { Run.empty with
      active := true, ropeAttempt := if m.inRope j then m.startAttempt b.step else 0,
      epoch := (b.run.epoch + 1) % 65536, stepQ := b.run.stepQ, latch := m.latchNow,
      replay := m.odGet (odKey 0x3230 11) == j, accept := m.odGet (odKey 0x3230 11) == j,
      buckets := m.freshBuckets j, tags := b.cores.map (fun g => (g, [])) }

/-- The HBM byte ranges of the micro-batch table's entries, which a step start reads (R253). -/
def Module.tableRanges (m : Module) (j : Nat) (a : Adapters) : List (Nat × Nat) :=
  let b := m.job j
  if a.mbMax < b.boundValue a.mbcSlot then []
  else (List.range (b.boundValue a.mbcSlot)).map (fun i => (b.hbmBase + b.boundValue a.mbtSlot + 8 * i, 8))

/-- A table check failed: event 0x0360, and the step is abandoned, or the job ends with POISON (R253). -/
def Module.tableFailed (fu : Fuses) (m : Module) (j : Nat) (x : TableBad) : Module :=
  let m := (m.bump (odKey 0x3230 2) (if x.status = stPoison then 0 else 1)).event fu 0x0360 [j, x.status, x.mb, x.set, x.rows]
  if x.status = stPoison then m.endJob fu j stPoison else m.abandonStep fu j x.status

/-- The A point request and the power limit take effect at the step boundary (R468). -/
def Module.takePower (m : Module) (j : Nat) : Module :=
  let p := pointOf (m.odGet (odKey 0x2020 1))
  ((m.job j).cores.map dieOf).eraseDups.foldl (fun (m : Module) d => m.onDie d (fun x => { x with request := p }))
    { m with power := { m.power with limit := m.odGet (odKey 0x2030 1) } }

/-- The start of a step before its tables are read (R239): the requests, the bound values and the variants take effect and
nothing of an earlier attempt is left. -/
def Module.beginStep (m : Module) (j : Nat) : Module :=
  let r := m.firstRun j
  let m := (m.takePower j).onJob j (fun b => { b with
    state := 3, bounds := b.bounds.map (fun x => { x with value := x.next }), slots := b.slots.map Slot.turnOver,
    descs := b.descs.map ScaleDesc.dropStep, factored := b.factored.map Factored.restart, run := r })
  if m.inRope j then { m with rope := { m.rope.forward (m.job j).step with compareDies := m.readyDies } } else m

/-- What a started step writes before its cores run: the slot row lists, the replay words and the zeroed accumulators (R254, R277, R349). -/
def Module.openStep (m : Module) (j : Nat) : Module :=
  ((match (m.job j).prog.adapters with
    | some a => m.writeRowLists j a
    | none => m).clearReplayWords j).zeroAccs j

/-- The wait of a step start for a STAGE in progress on a slot that turns ACTIVE (R256). -/
def Module.countStageWait (m : Module) (j stageUs : Nat) : Module :=
  if (m.job j).slots.any (fun s => s.next == 1) then m.bump (odKey 0x3230 7) stageUs else m

/-- A step starts (R239). -/
def Module.startStep (fu : Fuses) (m : Module) (j : Nat) : Module :=
  let m := m.beginStep j
  let bad := (m.job j).prog.adapters.bind (m.tableBad j)
  let m := m.hbmReads fu j (((m.job j).prog.adapters.map (m.tableRanges j)).getD [])
  match bad with
  | some x => m.tableFailed fu j x
  | none =>
    let m := m.openStep j
    (m.onRun j (fun r => { r with reels := m.dealReels j, slices := m.emptySlices j })).release j false (fun _ => 0)

/-! ### Replays (R481, R485) -/

/-- A descriptor that a local replay leaves with what the tackles' writes folded into it: the counts of conversions restart. -/
def ScaleDesc.dropFill (d : ScaleDesc) : ScaleDesc := { d with stepSaturations := 0, stepNonfinite := 0 }

/-- A replayed attempt starts. `wide` tells that it is an attempt of the whole rope, or that the job has no rope: a local
replay inside a rope keeps its buckets, what it received from the broadcast and, of the descriptors, the maxima and counts of the
weights that it wrote (R50, R310). -/
def Module.restart (fu : Fuses) (m : Module) (j cause : Nat) (wide : Bool) : Module :=
  let m := m.endFlights fu j stCancelled
  let b := m.job j
  let keep := if wide then [] else (b.trains.flatMap b.weightDescs)
  let m := m.onJob j (fun b => { b with
    descs := (b.descs.zipIdx).map (fun d => if keep.contains d.2 then d.1.dropFill else d.1.dropStep),
    factored := b.factored.map Factored.restart })
  let m := (m.clearReplayWords j).zeroAccs j
  let m := m.onRun j (fun r => { r with
    attempt := r.attempt + 1, ropeAttempt := r.ropeAttempt + (if wide then 1 else 0), replay := true, mustReplay := none, cause := none,
    counters := List.replicate 64 0, signals := [], sels := [], slices := [], mark := none, dispatched := [],
    nextExp := if wide then [] else r.nextExp, applied := if wide then [] else r.applied, skips := [],
    segMax := if wide then [] else r.segMax, satCount := [], bias := [],
    buckets := if wide then m.freshBuckets j else r.buckets,
    tackleFails := if r.mismatched then r.tackleFails else [], sampleFails := if r.mismatched then r.sampleFails else [],
    tags := r.tags.map (fun t => (t.1, [])),
    mismatched := false, epoch := (r.epoch + 1) % 65536 })
  let m := if wide && m.inRope j then
    { m with rope := { m.rope with inputs := m.rope.inputs.filter (fun x => x.step != b.step), sums := [], trailers := [],
                                   hashes := m.rope.hashes.filter (fun x => x.step != b.step), wgtSeen := [],
                                   etabSeen := [], wgtHeld := [] } } else m
  let m := m.onRun j (fun r => { r with reels := m.dealReels j, slices := m.emptySlices j })
  let m := m.release j false (fun _ => 0)
  (m.bump (odKey 0x3230 9) 1).event fu 0x0392 [j, b.step, (m.job j).run.attempt, cause, (m.liveCores j).length]

/-- Whether a failed attempt is to resume at its latest resume point and not to start again (R485). -/
def Run.resumes (r : Run) : Bool := decide (0 < r.attempt) && r.mustReplay == some stFenced

/-- REPLAY_START: the failed attempt is replayed on the SCHEDULE streams; at rank 0 of a rope every rank replays (R311). -/
def execReplayStart (j : Nat) (s : State) : Host.Outcome State Fault Refusal :=
  s.actOn (j < 16) (fun fu m =>
    let b := m.job j
    match b.run.mustReplay with
    | none => m
    | some st =>
      if b.state != 3 || st = stCancelled || b.run.resumes then m
      else if m.inRope j && m.rank != 0 then m.restart fu j st false
      else (if m.inRope j then m.sendAbort 3 st else m).restart fu j st true)

/-- The templates that the SCHEDULE streams take from after a resume point (R485). -/
def Job.templatesAfter (b : Job) (points : List Nat) : List Nat :=
  ((b.prog.sched.zipIdx).flatMap (fun st =>
    ((st.1.drop (points.getD st.2 0)).filter (isControl 1)).map reelOf)).eraseDups

/-- The instruction of each role at the latest passed resume point; none was passed: the start (R485). -/
def Job.resumePoints (b : Job) : List Nat := ((b.run.mark.bind (fun k => b.prog.resumes[k.point]?)).map Resume.points).getD []

/-- REPLAY_RESUME: every live core goes on at the latest passed resume point with its saved counters. It is the same attempt
(R485), so the batch epoch stays (R342). -/
def execReplayResume (j : Nat) (s : State) : Host.Outcome State Fault Refusal :=
  s.actOn (j < 16) (fun fu m =>
    let b := m.job j
    if b.state != 3 || !b.run.resumes then m
    else
      let m := m.endFlights fu j stCancelled
      let points := b.resumePoints
      let ts := b.templatesAfter points
      let m := m.onRun j (fun r => { r with
        mustReplay := none, cause := none, signals := [], counters := (r.mark.map ResumeMark.counters).getD (List.replicate 64 0),
        sels := (r.mark.map ResumeMark.sels).getD [], dispatched := (r.mark.map ResumeMark.dispatched).getD [],
        reels := r.reels.filter (fun x => !ts.contains x.tmpl) ++ (m.dealReels j).filter (fun x => ts.contains x.tmpl) })
      m.release j true (fun role => points.getD role 0))

/-! ### Step commit (R240) -/

/-- A descriptor at a commit (R49): `entry` is its history entry and `bias` the bias after R63. The answer tells whether the
exponent was clamped. -/
def ScaleDesc.commit (d : ScaleDesc) (entry : Option Int) : ScaleDesc × Bool :=
  let braid := d.fmt == 0xB
  let top : Int := if braid then 112 else 127
  let n := d.histLenM1 + 1
  let d1 := { d with
    satTotal := (d.satTotal + d.stepSaturations + d.tackleSaturations) % 2 ^ 64, nonfiniteTotal := (d.nonfiniteTotal + d.stepNonfinite + d.tackleNonfinite) % 2 ^ 64 }
  if d.frozen then (d1.dropStep, false)
  else
    let hist := d.hist.set d.histHead entry
    let count := min (d.histCount + 1) n
    let valid := (hist.take count).filterMap id
    let d2 := { d1 with hist := hist, histHead := (d.histHead + 1) % n, histCount := count }
    match valid with
    | [] => (d2.dropStep, false)
    | v :: vs =>
      let e := vs.foldl max v - ((fmtOfCode d.fmt).elim 0 Fmt.emax) + d.margin + (if braid then (d.braidBias : Int) else 0)
      ({ d2 with expCur := clampInt (-127) top e }.dropStep, e != clampInt (-127) top e)

/-- The history entry of a descriptor: for a gradient tensor the largest maximum-exponent byte of its segments (R49). -/
def Job.histEntry (b : Job) (i : Nat) (d : ScaleDesc) : Option Int :=
  if d.fmt != 0xB then d.stepMaxExp
  else
    ((b.run.segMax.filter (fun p => b.gradDescNo (p.1 / 2 ^ 32) == i)).map (fun p => some p.2)).foldl maxOpt none

/-- The bias decided for the tensor of a descriptor put into it (R63). -/
def Job.withBias (b : Job) (i : Nat) (d : ScaleDesc) : ScaleDesc :=
  match b.run.bias.find? (fun x => b.gradDescNo x.1 == i) with
  | none => d
  | some x => if d.fmt = 0xB then { d with braidBias := x.2.1, cleanSteps := x.2.2 } else d

/-- Every descriptor of a job updated, with events 0x0340 and 0x0722 for clamped exponents (R49, R65). -/
def Module.commitDescs (fu : Fuses) (m : Module) (j : Nat) : Module :=
  let b := m.job j
  let ds := (b.descs.zipIdx).map (fun d => ((b.withBias d.2 d.1).commit (b.histEntry d.2 d.1), d))
  let m := m.onJob j (fun b => { b with descs := ds.map (fun x => x.1.1) })
  (ds.filter (fun x => x.1.2)).foldl (fun (m : Module) x =>
    m.event fu (if x.2.1.fmt = 0xB then 0x0722 else 0x0340) [j, x.2.2]) m

/-- In a rope of size 1 the module decides biases and next exponents itself (R55, R62, R63). -/
def Module.ownExponents (fu : Fuses) (m : Module) (j : Nat) : Module :=
  (m.job j).trains.foldl (fun (m : Module) t =>
    (List.range ((m.job j).segments t)).foldl (fun (m : Module) sg => m.setNextExp fu j t sg) (m.setBias fu j t 1)) m

/-- The half bits after a commit (R242): they flip for every rank-0 TRAIN tensor and for every region of an ACTIVE slot. -/
def Job.flipHalves (b : Job) : NatMap :=
  b.trains.foldl (fun (h : NatMap) t =>
    (b.regionsOf t).foldl (fun (h : NatMap) v =>
      if ((b.image.tensors[t]?).map Tensor.rank).getD 0 = 0 || ((b.slots[v]?).map Slot.state).getD 0 = 2 then
        h.set (halfKey t v) (1 - h.get (halfKey t v))
      else h) h) b.halfBits

/-- The next exponent tables become those in force (R307). -/
def Job.commitExps (b : Job) : List (Nat × Int) :=
  b.expTab.filter (fun p => (b.run.nextExp.lookup p.1).isNone) ++ b.run.nextExp

/-- The WGT frames of a bucket: half segments that hold an element (R306). -/
def Job.wgtFrames (b : Job) (k : Nat) : Nat :=
  match b.prog.reduce with
  | none => 0
  | some r => ((r.segsOf k).map (fun s => ceilDiv (b.segLen s.1 s.2) 2048)).sum

/-- Whether every bucket of the step has been handled (R240): applied at rank 0, its broadcast written elsewhere. -/
def Module.bucketsHandled (m : Module) (j : Nat) : Bool :=
  let b := m.job j
  if !m.inRope j then b.run.slices.isEmpty
  else (List.range b.run.buckets.length).all (fun k =>
    if m.rank = 0 then (b.bucket k).state == 4
    else decide (b.wgtFrames k ≤ m.rope.wgtSeen.countP (fun x => x.1 == k)) && m.rope.etabSeen.contains k)

/-- Whether every FACTORED finalisation has ended where the tackles of this rank apply (R277). -/
def Module.factorsDone (m : Module) (j : Nat) : Bool :=
  !m.isRank0 j || (m.job j).factored.all Factored.finished

/-- Whether a step can commit, apart from its acceptance test (R240). -/
def Module.canCommitStep (m : Module) (j : Nat) : Bool :=
  let b := m.job j
  b.state == 3 && b.run.active && b.run.mustReplay.isNone && !(m.liveCores j).isEmpty &&
  (m.liveCores j).all (fun g => (m.core g).seq.done && (m.core g).quiet) &&
  b.run.slices.isEmpty && m.bucketsHandled j && m.factorsDone j && b.pendingSnap.isNone

/-- The HBM byte range that a reference entry has read; in a weight_buf it lies in the work half (R487). -/
def Job.refRange (b : Job) (r : RefEntry) : Nat × Nat :=
  match b.trains.findSome? (fun t => (b.image.tensors[t]?).bind (fun x => (b.image.buffers[x.weightBuf]?).bind (fun u =>
      if u.base ≤ r.offset && r.offset < u.base + u.size then some (t, u) else none))) with
  | some (t, u) =>
    let o := (r.offset - u.base) % (u.size / 2)
    (b.hbmBase + u.base + (1 - b.committed t (b.regionOf t (o / 2))) * (u.size / 2) + o, r.length)
  | none => (b.hbmBase + r.offset, r.length)

/-- The first reference entry whose CRC-64 differs in an acceptance test (R487). -/
def Module.acceptFails (m : Module) (j : Nat) : Option Nat :=
  if !(m.job j).run.accept then none else indexOf (fun r => crc64 (m.hbm.read ((m.job j).refRange r).1 r.length) != r.crc) (m.job j).prog.refs

/-- SNAPMARK and the replica's REPL frames: at most 4,096 bytes each behind a 64-byte prefix of step, offset and length. -/
def dataFrames (base : Frame) (step : Nat) (data : List Byte) : List Frame :=
  (List.range (max 1 (ceilDiv data.length 4096))).map (fun i =>
    let p := slice data (4096 * i) 4096
    { base with payload := leBytes 8 step ++ leBytes 8 (4096 * i) ++ leBytes 8 data.length ++ zeros 40 ++ padTo (roundUp p.length 64) p })

/-- The object of a state snapshot has no write in progress any more. -/
def Module.closeSnap (m : Module) (id : Nat) : Module :=
  m.onStore (fun c => { c with writing := c.writing.filter (· != (3, id)) })

/-- The state snapshot that follows a commit at rank 0 (R285), with SNAPMARK, its own mark and the replica in a rope (R319). -/
def Module.startSnapshot (fu : Fuses) (m : Module) (j : Nat) (interval : Nat) : Module :=
  let b := m.job j
  if !m.isRank0 j || interval = 0 || b.step % interval != 0 then m
  else
  let bad := m.regionsPoison j b.snapRegions
  let m := m.hbmReads fu j (b.snapRegions.flatMap (fun r => b.regionRanges r.1 r.2 true true))
  if bad then m.event fu 0x0733 [j, b.step, stPoison]
  else
    let bs := m.stateSnapshot j
    let id := moduleId 0 j b.step
    if m.store.writing.contains (3, id) then m.event fu 0x0733 [j, b.step, stDenied]
    else
    let m := (m.onJob j (fun b => { b with pendingSnap := some (b.step, bs) })).onStore (fun c => { c with writing := c.writing ++ [(3, id)] })
    if !m.inRope j then m
    else
      let m := (m.onRope (fun r => r.mark b.step b.descs)).sendOthers 3 { m.frameBase 9 with payload := padTo 64 (leBytes 8 b.step) }
      if m.odGet (odKey 0x5200 8) = 0 then m
      else (dataFrames (m.frameBase 11) b.step bs).foldl (fun (m : Module) f => m.sendBond 1 f) m

/-- A step commits (R240). -/
def Module.commitStep (fu : Fuses) (m : Module) (j waitUs : Nat) : Module :=
  let interval := (m.job j).run.latched (odKey 0x7140 1)
  let m := if m.inRope j then m else m.ownExponents fu j
  let m := m.commitDescs fu j
  let m := m.onJob j (fun b => { b with
    step := (b.step + 1) % 2 ^ 32, halfBits := b.flipHalves, expTab := b.commitExps,
    factored := b.factored.map Factored.restart,
    slots := b.slots.map (fun s => if s.state = 2 then { s with setSteps := s.setSteps + 1 } else s) })
  let m := (m.bump (odKey 0x3230 1) 1).bump (odKey 0x3230 3) waitUs
  let m := if (m.job j).run.accept then m.odSet (odKey 0x3230 11) 0xFF else m
  let m := m.answerSteps j stOk
  let m := (m.job j).cores.foldl (fun (m : Module) g => m.onCore g (fun c => c.stop 0)) m
  let m := m.onJob j (fun b => { b with state := 2, run := b.run.idle })
  ((m.captureAll fu j).startSnapshot fu j interval).judgeIdle fu j

/-- STEP_COMMIT: in the first cycle in which every condition holds, the step commits; an acceptance test that differs
abandons it. `waitUs` are the µs that the commit waited for snapshot and SAVE reads. -/
def execStepCommit (j waitUs : Nat) (s : State) : Host.Outcome State Fault Refusal :=
  s.actOn (j < 16) (fun fu m =>
    if !m.canCommitStep j then m
    else
      let fails := m.acceptFails j
      let m := if (m.job j).run.accept then m.hbmReads fu j ((m.job j).prog.refs.map (m.job j).refRange) else m
      match fails with
      | some e =>
        ((m.event fu 0x0396 [j, (m.job j).step, e]).odSet (odKey 0x3230 11) 0xFF).abandonStep fu j stCheck
      | none => m.commitStep fu j waitUs)

/-- STATE_SNAPSHOT_COMPLETE: the write of a state snapshot finishes, or fails and leaves both earlier ones (R285). -/
def execStateSnapshotComplete (j : Nat) (ok : Bool) (s : State) : Host.Outcome State Fault Refusal :=
  s.actOn (j < 16) (fun fu m =>
    match (m.job j).pendingSnap with
    | none => m
    | some x =>
      let id := moduleId 0 j x.1
      let m := (m.onJob j (fun b => { b with pendingSnap := none })).closeSnap id
      let st := m.writeRefused 3 id x.2.length
      if ok && st == stOk then (m.putObj fu (Obj.named 3 id) x.2).bump (odKey 0x7140 4) 1
      else m.event fu 0x0733 [j, x.1, if st = stOk then stDenied else st])

end Sys2Proof.Machine
end

