-- ==== Sys2Proof/Machine/Rope.lean ====
section
/-!
DEFINITION. The rope: receiving frames (R296, R297), joining (R293, R297, R317, R318), summing and sample comparison (R301
to R305), applying a bucket and its broadcast (R303, R306), the weight hash (R308, R309), aborts and losses (R311 to R316)
and the resync (R320).
-/
namespace Sys2Proof.Machine

/-! ### The link layer (R296) -/

/-- The frames that an acknowledgement covers leave the replay buffer; waiting frames may follow. -/
def Hawser.acked (h : Hawser) (ack : Nat) : Hawser :=
  let h := { h with unacked := h.unacked.filter (fun u => decide (2 ^ 31 ≤ (ack + 2 ^ 32 - u.1) % 2 ^ 32)) }
  Hawser.drain h.queue.length h

/-- Whether a port is up. -/
def Hawser.up (h : Hawser) : Bool := h.state == 2 || h.state == 4

/-- A frame that fails its CRC (R296): it and every later one are discarded, and the port asks its partner for a replay from the
first missing link_seq. DEDUCED (log entry 23): every frame that fails asks, also while a replay asked for is under way, since the frame
may be one that was sent again. -/
def Module.askReplay (m : Module) (n : Nat) : Module :=
  if !(m.hawser n).up then m
  else (m.onHawser n (fun h => { h with replayAsked := true, requests := h.requests ++ [h.rxSeq] })).bump (odKey 0x5210 3) 1

/-- The partner asks for a replay from a link_seq (R296): what it has received in order leaves the replay buffer, and the rest is
sent again as it stands there. -/
def Hawser.resend (h : Hawser) (q : Nat) : Hawser :=
  let h := h.acked ((q + 2 ^ 32 - 1) % 2 ^ 32)
  { h with sentFrames := h.sentFrames ++ h.unacked.map Prod.snd }

/-- Whether frames of a bucket of a kind are still unacknowledged or unsent on the bond to the parent. -/
def Module.bucketInFlight (m : Module) (k : Nat) : Bool :=
  (m.bondLive 0).any (fun n =>
    (m.hawser n).unacked.any (fun u => (field (word64 u.2 0) 58 6 == 3 || field (word64 u.2 0) 58 6 == 4) && field (word64 u.2 1) 16 16 == k) ||
    (m.hawser n).queue.any (fun f => (f.2.type == 3 || f.2.type == 4) && f.2.bucket == k))

/-- The slots of SENT buckets whose last frame the parent has acknowledged are free (R300). -/
def Module.freeSlots (m : Module) (j : Nat) : Module :=
  (List.range (m.job j).run.buckets.length).foldl (fun (m : Module) k =>
    if ((m.job j).bucket k).state = 2 && m.rope.trailers.any (fun t => t.bucket == k && t.input == 2) && !m.bucketInFlight k then
      m.onBucket j k (fun b => { b with state := 4 })
    else m) m

/-- A partner's replay request on a port. -/
def Module.answerReplay (m : Module) (n q : Nat) : Module :=
  if !(m.hawser n).up then m else ((m.onHawser n (fun h => h.resend q)).bump (odKey 0x5210 3) 1).freeSlots m.ropeJob

/-- A frame taken in order (R296): its sequence number counts and its acknowledgement frees what it covers. -/
def Module.acceptFrame (m : Module) (n : Nat) (f : Frame) : Module :=
  (m.onHawser n (fun h => ({ h with rxSeq := (h.rxSeq + 1) % 2 ^ 32, replayAsked := false }).acked f.ackSeq)).freeSlots m.ropeJob

/-- Whether a link_seq lies ahead of the one that is expected. -/
def Hawser.ahead (h : Hawser) (q : Nat) : Bool := q != h.rxSeq && decide ((q + 2 ^ 32 - h.rxSeq) % 2 ^ 32 < 2 ^ 31)

/-- A frame of a type received on a port: in order it acknowledges and counts; of another epoch it is dropped (R297), but for a JOIN,
whose epoch the bond's own check names; else the body acts on it with the bond that the port serves. A frame ahead of a missing one
asks for the replay that none has asked for yet (R296). -/
def Module.receive (m : Module) (n type : Nat) (bytes : List Byte) (body : Module → Nat → Frame → Module) : Module :=
  if !(m.hawser n).up then m
  else
    match parseFrame bytes with
    | none => m.askReplay n
    | some f =>
      if f.type != type && decide (1 ≤ f.type) && decide (f.type ≤ 11) then m
      else if f.linkSeq != (m.hawser n).rxSeq then
        (if (m.hawser n).ahead f.linkSeq && !(m.hawser n).replayAsked then m.askReplay n else m)
      else
        let m := m.acceptFrame n f
        if f.type != type then m.bump (odKey 0x5210 8) 1
        else if f.epoch = m.ropeEpoch then body m (bondOf n) f
        else if type = 2 then body (m.bump (odKey 0x5210 8) 1) (bondOf n) f
        else m.bump (odKey 0x5210 8) 1

/-- Whether a data frame belongs to the current attempt or the first of the next step (R297). -/
def Module.fresh (m : Module) (f : Frame) : Bool :=
  let b := m.job m.ropeJob
  if b.state = 3 then
    (f.step == b.step && f.attempt == b.run.ropeAttempt % 256) ||
      (f.step == (b.step + 1) % 2 ^ 32 && f.attempt == m.startAttempt f.step % 256)
  else b.state == 2 && f.step == b.step && f.attempt == m.startAttempt f.step % 256

/-- Whether a data frame is of the running attempt, so that it can be acted on at once. -/
def Module.current (m : Module) (f : Frame) : Bool :=
  let b := m.job m.ropeJob
  b.state == 3 && b.run.active && f.step == b.step && f.attempt == b.run.ropeAttempt % 256

/-- A data frame that is fresh, or is dropped and counted. -/
def Module.ifFresh (m : Module) (f : Frame) (body : Module → Module) : Module :=
  if m.inRope m.ropeJob && m.fresh f then body m else m.bump (odKey 0x5210 8) 1

/-- A frame forwarded to the children. -/
def Module.forwardDown (m : Module) (f : Frame) : Module := ([1, 2].filter (bondNeeded m.rank m.ropeSize)).foldl (fun m b => m.sendBond b f) m

/-! ### Joining (R293, R297, R318) -/

/-- The hash of the job seed in a JOIN. -/
def seedHash (seed : Nat) : Nat := leNat ((sha512 (leBytes 8 seed)).take 8)

/-- The payload of a JOIN (R295): rank, size and epoch; image_id; job seed hash; committed step count. -/
def Module.joinPayload (m : Module) : List Byte :=
  let b := m.job m.ropeJob
  padTo 64 (leBytes 2 m.rank ++ leBytes 2 m.ropeSize ++ leBytes 4 m.ropeEpoch ++ leBytes 8 b.imageId ++ leBytes 8 (seedHash b.seed) ++
    leBytes 8 b.step)

/-- OD 0x5200:07 bond_min_ports as it is in force (R290): a running rope job holds the value its step latched. -/
def Module.minPorts (m : Module) : Nat :=
  let b := m.job m.ropeJob
  max 1 (if m.inRope m.ropeJob && b.state == 3 then b.run.latched (odKey 0x5200 7) else m.odGet (odKey 0x5200 7))

/-- Whether a bond is up: it holds the live ports that keep it (R314, R317). -/
def Module.bondUp (m : Module) (b : Nat) : Bool := decide (m.minPorts ≤ (m.bondLive b).length)

/-- A JOIN handed to a needed bond that is up. -/
def Module.putJoin (m : Module) (b : Nat) : Module :=
  if !bondNeeded m.rank m.ropeSize b || !m.bondUp b then m
  else (m.onBond b (fun x => { x with state := max 1 x.state, sent := true })).sendBond b { m.frameBase 2 with payload := m.joinPayload }

/-- JOIN sent on a bond when it first comes up (R297). -/
def Module.sendJoin (m : Module) (b : Nat) : Module :=
  if (m.bond b).sent || 2 < (m.bond b).state then m else m.putJoin b

/-- JOIN sent in answer to the first good one of the partner, which may have dropped an earlier one as of another epoch (R297). DEDUCED
(log entry 23). -/
def Module.answerJoin (m : Module) (b : Nat) : Module :=
  if (m.bond b).state = 2 then m.sendJoin b else (m.onBond b (fun x => { x with state := 1 })).putJoin b

/-- The first field of a JOIN that disagrees with the receiver's own (R297), with the received value: 1 epoch, 2 size,
3 image_id, 4 job seed hash, 5 src_rank. -/
def Module.joinBad (m : Module) (b : Nat) (f : Frame) : Option (Nat × Nat) :=
  let j := m.job m.ropeJob
  let p := f.payload
  if leAt p 4 4 != m.ropeEpoch then some (1, leAt p 4 4)
  else if leAt p 2 2 != m.ropeSize then some (2, leAt p 2 2)
  else if leAt p 8 8 != j.imageId then some (3, leAt p 8 8)
  else if leAt p 16 8 != seedHash j.seed then some (4, leAt p 16 8)
  else if f.src != bondPartner m.rank b % 256 || leAt p 0 2 != bondPartner m.rank b then some (5, f.src)
  else none

/-- The resync data of rank 0 (R320): the snapshot step a RESTORE left plus 1, or 0; the slot map; weights with the set step counts; the
weight tensors' descriptors; exponent tables; the step count. -/
def Module.resyncBytes (m : Module) (j : Nat) : List Byte :=
  let b := m.job j
  leBytes 8 ((m.rope.afterRestore.map (· + 1)).getD 0) ++ zeros 56 ++ b.slotMap ++ m.regionBytes j b.snapRegions false ++ b.setStepBytes ++
  ((b.trains.flatMap b.weightDescs).eraseDups.flatMap (fun i => ((b.descs[i]?).map ScaleDesc.bytes).getD (zeros 128))) ++
  b.expBytes ++ leBytes 8 b.step

/-- Rank 0 sends its committed state down the tree (R320). -/
def Module.startResync (fu : Fuses) (m : Module) : Module :=
  let j := m.ropeJob
  let b := m.job j
  (dataFrames (m.frameBase 10) b.step (m.resyncBytes j)).foldl (fun (m : Module) f => m.forwardDown f)
    (m.hbmReads fu j (b.snapRegions.flatMap (fun r => b.regionRanges r.1 r.2 true false)))

/-- The rope leaves JOINING once every bond the rank needs is up and has passed JOIN (R293, R317): READY where the step counts agree on
every bond, else RESYNC, which rank 0 starts at once (R318). -/
def Module.settleRope (fu : Fuses) (m : Module) : Module :=
  let needed := (List.range 3).filter (bondNeeded m.rank m.ropeSize)
  if m.ropeState != 1 || !needed.all (fun b => (m.bond b).state == 2 && (m.bond b).sent && m.bondUp b) then m
  else if !m.rope.deeper && needed.all (fun b => (m.bond b).partnerStep == (m.job m.ropeJob).step) && m.rope.afterRestore.isNone then
    m.setRopeState fu 2
  else
    let m := (m.onRope (fun r => { r with deeper := false })).setRopeState fu 3
    if m.rank = 0 then m.startResync fu else m

/-- JOIN received: a good one is answered, and its bond passes; any other leaves the bond out of service (R297). -/
def execJoin (n : Joining) (bytes : List Byte) (s : State) : Host.Outcome State Fault Refusal :=
  s.actOn (n.port < 16) (fun fu m => m.receive n.port 2 bytes (fun m b f =>
    match m.joinBad b f with
    | some x => (m.onBond b (fun k => { k with state := 3 })).event fu 0x0543 [b, x.1, x.2]
    | none =>
      let m := (m.answerJoin b).onRope (fun r => { r with deeper := r.deeper || n.deeper })
      (m.onBond b (fun k => { k with state := 2, partnerStep := leAt f.payload 24 8 })).settleRope fu))

/-- IDLE received: it acknowledges and shows life. The count is of the FEC symbols corrected on the port
since its last IDLE (R296). -/
def execIdle (t : Counted) (bytes : List Byte) (s : State) : Host.Outcome State Fault Refusal :=
  s.actOn (t.unit < 16) (fun _ m =>
    (if (m.hawser t.unit).up then m.bump (odKey 0x5210 2) t.count else m).receive t.unit 1 bytes (fun m _ _ => m))

/-! ### Summing (R301 to R305) -/

/-- Whether a SEG frame finds the 2 MiB of its port's receive interface full of segments of 4,096 bytes whose other inputs are
not present (R301): it stays on the link unacknowledged, and the window of R296 holds its sender. -/
def Module.segWaits (m : Module) (n : Nat) (bytes : List Byte) : Bool :=
  match parseFrame bytes with
  | none => false
  | some f => m.inRope m.ropeJob && m.fresh f && decide (512 ≤ m.rope.inputs.countP (fun x => x.port == n))

/-- SEG received: held at the receive interface until the segment's other inputs are present. -/
def execSeg (n : Nat) (bytes : List Byte) (s : State) : Host.Outcome State Fault Refusal :=
  s.actOn (n < 16) (fun _ m => if m.segWaits n bytes then m else m.receive n 3 bytes (fun m b f => m.ifFresh f (fun m =>
    if b = 0 then m
    else
      m.onRope (fun r => { r with inputs := r.inputs ++ [
        { port := n, step := f.step, attempt := f.attempt, bucket := f.bucket, seg := f.segment, input := b - 1,
          codes := f.payload.map BitVec.toNat, maxExp := readI8 f.maxExp, contrib := f.contrib }] }))))

/-- The level offset of a subtree of `c` contributors (R56). -/
def levelOffset (c : Nat) : Nat := ceilLog2 c

/-- One element at an adder (R57, R59, R60): the sum (left + right) + local in units of 2^E, re-quantised to the node's
offset with nearest even. -/
def addCodes (ol orr o : Nat) (l r c : Nat) : Nat :=
  if l = 0x80 || r = 0x80 || c = 0x80 then 0x80
  else
    let v := (((fInt (signed 8 l)).scale (ol : Int)).add ((fInt (signed 8 r)).scale (orr : Int))).add (fInt (signed 8 c))
    unsigned 8 (roundInt (v.scale (-(o : Int))))

/-- The input of a child for a segment of the running attempt. -/
def Module.segInput (m : Module) (k sg input : Nat) : Option SegInput :=
  let b := m.job m.ropeJob
  m.rope.inputs.find? (fun x => x.step == b.step && x.attempt == b.run.ropeAttempt % 256 && x.bucket == k && x.seg == sg && x.input == input)

/-- Whether a child's input for a segment is present or not needed. -/
def Module.inputReady (m : Module) (k sg input : Nat) : Bool :=
  !bondNeeded m.rank m.ropeSize (input + 1) || (m.segInput k sg input).isSome

/-- Whether a segment is sampled (R304). -/
def Module.sampled (m : Module) (k sg : Nat) : Bool :=
  let b := m.job m.ropeJob
  (sg + 37 * k + 101 * b.step) % max 1 (b.run.latched (odKey 0x7110 1)) == 0

/-- The segments of a bucket of the rope job. -/
def Module.segCount (m : Module) (k : Nat) : Nat := (((m.job m.ropeJob).prog.reduce.map (fun r => (r.segsOf k).length)).getD 0)

/-- The bucket that is to be summed next: the lowest that has not been, where it is FULL (R301). -/
def Module.nextBucket (m : Module) : Option Nat :=
  match findFrom (fun (k : Bucket) => decide (k.state ≤ 1)) (m.job m.ropeJob).run.buckets 0 with
  | some (i, k) => if k.state = 1 then some i else none
  | none => none

/-- The counts of a trailer's entries added. -/
def addCounts : List (Nat × Nat) → List (Nat × Nat) → List (Nat × Nat)
  | [], l => l
  | l, [] => l
  | a :: as, b :: bs => ((a.1 + b.1) % 2 ^ 64, (a.2 + b.2) % 2 ^ 64) :: addCounts as bs

/-- The payload of a TRAIL (R302): the entries' counts, then the mismatch flag and the lowest rank. -/
def trailPayload (t : Trailer) : List Byte :=
  let bs := leBytes 8 (t.counts.length) ++ leBytes 4 (if t.mismatch then 1 else 0) ++ leBytes 4 t.lowest ++
    t.counts.flatMap (fun c => leBytes 8 c.1 ++ leBytes 8 c.2)
  padTo (roundUp bs.length 64) bs

/-- The trailer in a TRAIL frame. -/
def readTrailer (f : Frame) (input : Nat) : Trailer :=
  { step := f.step, attempt := f.attempt, bucket := f.bucket, input := input,
    counts := (List.range (min 255 (leAt f.payload 0 8))).map (fun i => (leAt f.payload (16 + 16 * i) 8, leAt f.payload (24 + 16 * i) 8)),
    mismatch := leAt f.payload 8 4 % 2 == 1, lowest := leAt f.payload 12 4 }

/-- The trailer of an input of a bucket in the running attempt. -/
def Module.trailer (m : Module) (k input : Nat) : Option Trailer :=
  let b := m.job m.ropeJob
  m.rope.trailers.find? (fun t => t.step == b.step && t.attempt == b.run.ropeAttempt % 256 && t.bucket == k && t.input == input)

/-- The sums of a bucket so far. -/
def Module.sumsOf (m : Module) (k : Nat) : List SegSum := m.rope.sums.filter (fun x => x.bucket == k)

/-- A sample mismatch reached rank 0 (R305): the bucket is not applied and the attempt ends, or at the limit of consecutive
attempts of one rank the job ends at every rank. An attempt that has failed already counts once. -/
def Module.sampleFail (fu : Fuses) (m : Module) (rank : Nat) : Module :=
  let j := m.ropeJob
  if (m.job j).state != 3 || (m.job j).run.mustReplay.isSome then m
  else
  let n := ((m.job j).run.sampleFails.lookup rank).getD 0 + 1
  let m := m.onRun j (fun r => { r with sampleFails := [(rank, n)], tackleFails := [], mismatched := true })
  if (m.job j).run.latched (odKey 0x7110 4) ≤ n then
    (m.sendOthers 3 { m.frameBase 8 with code := stCheck, segment := 1 }).endJob fu j stCheck
  else m.failAttempt fu j stCheck

/-- A node's own trailer (R302): once its sums are complete, its comparisons have finished and the trailers of its children
have arrived, it goes up; at rank 0 it decides whether the bucket can be applied. -/
def Module.tryTrailer (fu : Fuses) (m : Module) (k : Nat) : Module :=
  let b := m.job m.ropeJob
  let need := [0, 1].filter (fun i => bondNeeded m.rank m.ropeSize (i + 1))
  let sums := m.sumsOf k
  if (m.trailer k 2).isSome || sums.isEmpty || sums.length != m.segCount k || !sums.all (fun x => !x.sampled || x.compared) ||
      !need.all (fun i => (m.trailer k i).isSome) then m
  else
    let kids := need.filterMap (m.trailer k)
    let bk := b.bucket k
    let n := ((b.prog.reduce.map (fun r => (r.entries.filter (fun e => e.bucket == k)).length)).getD 0)
    let own := (List.range n).map (fun i => (bk.sats.get i, bk.nonfins.get i))
    let bad := sums.any SegSum.bad
    let t : Trailer :=
      { step := b.step, attempt := b.run.ropeAttempt % 256, bucket := k, input := 2,
        counts := kids.foldl (fun c x => addCounts c x.counts) own, mismatch := bad || kids.any Trailer.mismatch,
        lowest := kids.foldl (fun l x => min l x.lowest) (if bad then m.rank else 0xFFFF) }
    let m := m.onRope (fun r => { r with trailers := r.trailers ++ [t], sums := r.sums.filter (fun x => x.bucket != k) })
    if m.rank = 0 then (if t.mismatch then m.sampleFail fu t.lowest else m)
    else m.sendBond 0 { m.frameBase 4 with bucket := k, contrib := contributors m.ropeSize m.rank, payload := trailPayload t }

/-- TRAIL received. -/
def execTrail (n : Nat) (bytes : List Byte) (s : State) : Host.Outcome State Fault Refusal :=
  s.actOn (n < 16) (fun fu m => m.receive n 4 bytes (fun m b f => m.ifFresh f (fun m =>
    if b = 0 then m
    else (m.onRope (fun r => { r with trailers := r.trailers ++ [readTrailer f (b - 1)] })).tryTrailer fu f.bucket)))

/-- The sum of a segment at this node's adder: the codes, the maximum, and the contributors of the children. -/
def Module.sumSegment (m : Module) (k sg : Nat) : List Nat × Option Int :=
  let b := m.job m.ropeJob
  let bk := b.bucket k
  let at_ := fun (x : Option SegInput) => x.map SegInput.codes
  let l := m.segInput k sg 0
  let r := m.segInput k sg 1
  let o := levelOffset (contributors m.ropeSize m.rank)
  let off := fun (x : Option SegInput) => levelOffset ((x.map SegInput.contrib).getD 0)
  ((List.range 4096).map (fun i =>
      addCodes (off l) (off r) o (((at_ l).map (fun c => c.getD i 0)).getD 0) (((at_ r).map (fun c => c.getD i 0)).getD 0)
        (let c := (bk.elems.lookup (4096 * sg + i)).getD 0
         if c = noCode then 0 else c)),
   maxOpt (maxOpt (l.bind SegInput.maxExp) (r.bind SegInput.maxExp)) (bk.maxExp.lookup sg))

/-- The summed codes of a segment put into rank 0's bucket and its staging slot; positions that no gradient travels for keep
their mark (R280). -/
def Module.keepSum (m : Module) (k sg : Nat) (codes : List Nat) : Module :=
  let j := m.ropeJob
  let bk := (m.job j).bucket k
  (codes.zipIdx).foldl (fun (m : Module) c =>
    let pos := 4096 * sg + c.2
    match bk.elems.lookup pos with
    | none => m
    | some old =>
      if old = noCode then m
      else
        let m := m.onBucket j k (fun b => { b with elems := b.elems.map (fun e => if e.1 = pos then (pos, c.1) else e) })
        -- the staging slot is rewritten with the sum (R303); poison of the local input stays
        match (m.job j).prog.reduce with
        | none => m
        | some r => m.storeAt j 0 2 (r.slotAddr k pos) (leBytes 1 c.1) (m.poisonAt j 0 2 (r.slotAddr k pos) 1)) m

/-- The maximum of a summed segment noted for its exponent (R62). -/
def Module.noteSegMax (m : Module) (k sg : Nat) (mx : Option Int) : Module :=
  match ((m.job m.ropeJob).prog.reduce.bind (fun r => (r.segsOf k)[sg]?)), mx with
  | some ts, some e => m.onRun m.ropeJob (fun r => { r with segMax := putMax r.segMax (segKey ts.1 ts.2) e })
  | _, _ => m

/-- SEGMENT_SUM: the adder takes the next segment of the lowest FULL bucket; the sum goes up, or at rank 0 into the staging
slot. -/
def execSegmentSum (k sg : Nat) (s : State) : Host.Outcome State Fault Refusal :=
  s.act (fun fu m =>
    let j := m.ropeJob
    let b := m.job j
    if !m.powered || !m.inRope j || b.state != 3 || b.run.mustReplay.isSome || m.nextBucket != some k ||
        (m.sumsOf k).length != sg || !m.inputReady k sg 0 || !m.inputReady k sg 1 then m
    else
      let x := m.sumSegment k sg
      let m := m.onRope (fun r => { r with
        inputs := r.inputs.filter (fun y => !(y.step == b.step && y.bucket == k && y.seg == sg)),
        sums := r.sums ++ [{ bucket := k, seg := sg, codes := x.1, maxExp := x.2, sampled := m.sampled k sg, compared := false, bad := false }] })
      let m := m.noteSegMax k sg x.2
      let m := if m.rank = 0 then m.keepSum k sg x.1
        else m.sendBond 0 { m.frameBase 3 with bucket := k, segment := sg, maxExp := byteI8 x.2,
                                               contrib := contributors m.ropeSize m.rank,
                                               payload := x.1.flatMap (leBytes 1) }
      if sg + 1 < m.segCount k then m
      else
        let m := m.onBucket j k (fun y => { y with state := if m.rank = 0 then 3 else 2 })
        (if m.rank = 0 then m else m.bump (odKey 0x5210 6) 1).tryTrailer fu k)

/-- The die whose comparison adder takes a segment (R304): a die that has stopped answering passes it on. -/
def Module.compareDie (m : Module) (sg : Nat) : Nat :=
  let l := m.rope.compareDies
  let p := max 1 ((m.job m.ropeJob).run.latched (odKey 0x7110 1))
  let at_ := sg / p % max 1 l.length
  (((l.drop at_ ++ l.take at_).find? (fun d => (m.die d).answering)).getD (l.getD at_ 0))

/-- SAMPLE_COMPARISON: a comparison adder finishes with a sampled segment; `bad` tells that it differs from what the hawser
adder sent. -/
def execSampleComparison (k sg : Nat) (bad : Bool) (s : State) : Host.Outcome State Fault Refusal :=
  s.act (fun fu m =>
    if !m.powered || !m.rope.sums.any (fun x => x.bucket == k && x.seg == sg && x.sampled && !x.compared) then m
    else
      let m := (m.onRope (fun r => { r with sums := r.sums.map (fun x =>
        if x.bucket = k && x.seg = sg then { x with compared := true, bad := bad } else x) })).bump (odKey 0x7110 2) 1
      let m := if bad then
        (m.bump (odKey 0x7110 3) 1).event fu 0x0723 [m.ropeJob, m.rank, k, sg, m.compareDie sg] else m
      m.tryTrailer fu k)

/-! ### Applying a bucket and its broadcast (R303, R306) -/

/-- Whether the weight hash is on (R308). -/
def Module.hashOn (m : Module) : Bool :=
  let r := (m.job m.ropeJob).run
  let mode := if r.active then r.latched (odKey 0x7110 5) else m.odGet (odKey 0x7110 5)
  mode == 1 || (mode == 0 && decide (16 < m.ropeSize))

/-- The weights of a half segment as they stand after application. -/
def Module.halfSegment (m : Module) (t sg half : Nat) : List Byte :=
  let b := m.job m.ropeJob
  (List.range (min 2048 (b.segLen t sg - 2048 * half))).flatMap (fun i =>
    let e := 4096 * sg + 2048 * half + i
    let h := b.committed t (b.regionOf t e)
    m.hbm.read (b.weightAddr t (if b.writes t e then 1 - h else h) e) 2)

/-- This rank's own hash of a bucket, complete (R308): over the bytes of its weights in the order of R306, ascending segments and
ascending elements, whatever the order in which its frames came. -/
def Module.ownHash (m : Module) (k : Nat) : Module :=
  let b := m.job m.ropeJob
  let bs := ((b.prog.reduce.map (fun r => r.segsOf k)).getD []).flatMap (fun s => m.halfSegment s.1 s.2 0 ++ m.halfSegment s.1 s.2 1)
  if !m.hashOn then m
  else m.onRope (fun r => { r with hashes := r.hashes ++ [{ step := b.step, bucket := k, input := 2, crc := crc64 bs, lowest := 0xFFFF }] })

/-- The hash record of an input of a bucket of a step. -/
def Module.hashOf (m : Module) (step k input : Nat) : Option HashRec :=
  m.rope.hashes.find? (fun h => h.step == step && h.bucket == k && h.input == input)

/-- A node whose own hash and its children's are complete compares and sends its own up; rank 0 makes the final compare
(R308, R309). -/
def Module.tryHash (fu : Fuses) (m : Module) (step k : Nat) : Module :=
  let need := [0, 1].filter (fun i => bondNeeded m.rank m.ropeSize (i + 1))
  match m.hashOf step k 2 with
  | none => m
  | some own =>
    if !need.all (fun i => (m.hashOf step k i).isSome) then m
    else
      let low := need.foldl (fun l i => match m.hashOf step k i with
        | none => l
        | some h => min (min l h.lowest) (if h.crc = own.crc then 0xFFFF else bondPartner m.rank (i + 1))) 0xFFFF
      let m := m.onRope (fun r => { r with hashes := r.hashes.filter (fun h => !(h.step == step && h.bucket == k)) })
      if m.rank != 0 then
        m.sendBond 0 { m.frameBase 7 with step := step, bucket := k, payload := padTo 64 (leBytes 8 own.crc ++ leBytes 8 low) }
      else if low = 0xFFFF then m
      else
        (((m.odSet (odKey 0x7110 6) 1).bump (odKey 0x7110 7) 1).event fu 0x0724 [m.ropeJob, k, low])

/-- HASH received. -/
def execHash (n : Nat) (bytes : List Byte) (s : State) : Host.Outcome State Fault Refusal :=
  s.actOn (n < 16) (fun fu m => m.receive n 7 bytes (fun m b f =>
    if b = 0 || !m.inRope m.ropeJob then m
    else
      (m.onRope (fun r => { r with hashes := r.hashes ++ [
        { step := f.step, bucket := f.bucket, input := b - 1, crc := leAt f.payload 0 8, lowest := leAt f.payload 8 8 }] })).tryHash
        fu f.step f.bucket))

/-- The elements of a bucket as gradients at rank 0 (R57): each at its segment's exponent and the offset of the rope. -/
def Module.bucketGrads (m : Module) (k : Nat) : List Grad :=
  let b := m.job m.ropeJob
  match b.prog.reduce with
  | none => []
  | some r =>
    let segs := r.segsOf k
    let o : Int := levelOffset m.ropeSize
    ((b.bucket k).elems).filterMap (fun x =>
      (segs[x.1 / 4096]?).map (fun s => { t := s.1, e := 4096 * s.2 + x.1 % 4096, code := x.2, unit := b.segExp s.1 s.2 + o }))

/-- The weights of a bucket sent down the tree (R306). -/
def Module.broadcast (m : Module) (k : Nat) : Module :=
  let b := m.job m.ropeJob
  match b.prog.reduce with
  | none => m
  | some r =>
    (r.segsOf k).zipIdx.foldl (fun (m : Module) s => [0, 1].foldl (fun (m : Module) h =>
      let bs := m.halfSegment s.1.1 s.1.2 h
      if bs.isEmpty then m
      else m.forwardDown { m.frameBase 6 with bucket := k, segment := s.2, code := h, payload := padTo (roundUp bs.length 64) bs }) m) m

/-- The exponent table of a bucket sent down the tree (R306). -/
def Module.sendTable (m : Module) (k : Nat) : Module :=
  let b := m.job m.ropeJob
  match b.prog.reduce with
  | none => m
  | some r =>
    let segs := (r.segsOf k).zipIdx
    (List.range (max 1 (ceilDiv segs.length 4096))).foldl (fun (m : Module) i =>
      let es := (slice segs (4096 * i) 4096).flatMap (fun s =>
        leBytes 1 (unsigned 8 (((m.job m.ropeJob).run.nextExp.lookup (segKey s.1.1 s.1.2)).getD (b.segExp s.1.1 s.1.2))))
      m.forwardDown { m.frameBase 5 with bucket := k, segment := 4096 * i, payload := padTo (roundUp es.length 64) es }) m

/-- The tensors of a bucket. -/
def Reduce.tensorsOf (r : Reduce) (k : Nat) : List Nat := ((r.entries.filter (fun e => e.bucket == k)).map ReduceEntry.tensor).eraseDups

/-- The rope-wide saturation counts of a bucket's entries added to their tensors' counts (R63). -/
def Module.takeCounts (m : Module) (k : Nat) (t : Trailer) : Module :=
  let j := m.ropeJob
  match (m.job j).prog.reduce with
  | none => m
  | some r => (((r.entries.filter (fun e => e.bucket == k)).zip t.counts)).foldl (fun (m : Module) x =>
      m.onRun j (fun q => q.addSats x.1.tensor x.2.1)) m

/-- Whether every bucket that holds elements of a tensor has been applied, so that its saturation count is complete (R63). -/
def Module.tensorCounted (m : Module) (r : Reduce) (t : Nat) : Bool :=
  let b := m.job m.ropeJob
  r.entries.all (fun e => e.tensor != t || (b.bucket e.bucket).state == 4)

/-- The biases of the tensors of a bucket whose counts are complete, each decided once in an attempt (R63). -/
def Module.bucketBiases (fu : Fuses) (m : Module) (r : Reduce) (k : Nat) : Module :=
  (r.tensorsOf k).foldl (fun (m : Module) t =>
    if m.tensorCounted r t && !(m.job m.ropeJob).run.bias.any (fun x => x.1 == t) then m.setBias fu m.ropeJob t m.ropeSize else m) m

/-- The tables of the applied buckets whose tensors' biases are decided, each sent once: their exponents are set by R62 with the new
b, and the ETAB goes down (R62, R63, R306). DEDUCED (log 23): the ETAB of a bucket waits until its tensors' counts are complete, so
that the new b stands in every exponent that rank 0 broadcasts (R63). `etabSeen` lists at rank 0 the tables sent. -/
def Module.sendTables (fu : Fuses) (m : Module) (r : Reduce) : Module :=
  (List.range (m.job m.ropeJob).run.buckets.length).foldl (fun (m : Module) k =>
    if ((m.job m.ropeJob).bucket k).state != 4 || m.rope.etabSeen.contains k || !(r.tensorsOf k).all (m.tensorCounted r) then m
    else (((r.segsOf k).foldl (fun (m : Module) s => m.setNextExp fu m.ropeJob s.1 s.2) m).sendTable k).onRope
      (fun q => { q with etabSeen := q.etabSeen ++ [k] })) m

/-- A bucket that the tackles have applied at rank 0: its weights go down the tree, and so do the tables that are complete. -/
def Module.bucketDone (fu : Fuses) (m : Module) (r : Reduce) (k : Nat) : Module :=
  let st := (m.job m.ropeJob).step
  let m := (m.broadcast k).onBucket m.ropeJob k (fun z => { z with state := 4 })
  let m := (m.bucketBiases fu r k).sendTables fu r
  ((m.bump (odKey 0x5210 6) 1).ownHash k).tryHash fu st k

/-- The position of an element of a bucket in its staging slot. -/
def Reduce.stagedAt (r : Reduce) (k : Nat) (g : Grad) : Nat :=
  r.slotAddr k (4096 * ((indexOf (fun x => x == (g.t, g.e / 4096)) (r.segsOf k)).getD 0) + g.e % 4096)

/-- The tackles apply a bucket (R276, R303); `differ` are the positions of elements whose two datapaths differ (R283). -/
def Module.applyBucket (fu : Fuses) (m : Module) (r : Reduce) (k : Nat) (t : Trailer) (gs : List Grad) (differ : List Nat) : Module :=
  let j := m.ropeJob
  let b := m.job j
  let bad := b.mismatches gs differ
  let x := (m.takeCounts k t).applyGrads j gs bad
  let m := (x.1.count x.2).skippedEvent fu j (((b.firstSkipped gs).map Grad.t).getD 0) x.2.skipped
  if bad.isEmpty then m.bucketDone fu r k
  else
    let y := m.tackleMismatch fu j bad
    if y.2 then (y.1.sendOthers 3 { m.frameBase 8 with code := stCheck, segment := 1 }).endJob fu j stCheck
    else y.1.failAttempt fu j stCheck

/-- BUCKET_APPLY: at rank 0 the bucket's trailers and comparisons are in without a mismatch. The tackles apply it, the new weights
go down the tree, and the exponents are set. -/
def execBucketApply (j k : Nat) (differ : List Nat) (s : State) : Host.Outcome State Fault Refusal :=
  s.actOn (j < 16) (fun fu m =>
    let b := m.job j
    if !m.inRope j || m.rank != 0 || b.state != 3 || b.run.mustReplay.isSome || (b.bucket k).state != 3 then m
    else
      match m.trailer k 2, b.prog.reduce with
      | some t, some r =>
        let gs := m.bucketGrads k
        if t.mismatch || m.tackleWaits j gs then m
        else
          let staged := gs.find? (fun g => m.poisonAt j 0 2 (r.stagedAt k g) 1)
          let bad := m.poisonedGrad j gs
          let m := m.hbmReads fu j (gs.map (fun g => (b.hbmBase + r.stagedAt k g, 1)) ++ m.gradRanges j gs)
          match staged, bad with
          | some g, _ => m.tacklePoison fu j 0 g.t g.e
          | none, some x => m.tacklePoison fu j x.2 x.1.t x.1.e
          | none, none => m.applyBucket fu r k t gs differ
      | _, _ => m)

/-- A bucket whose last WGT frame has been written and whose ETAB is stored has been received (R306). -/
def Module.bucketReceived (fu : Fuses) (m : Module) (k : Nat) : Module :=
  let b := m.job m.ropeJob
  if b.wgtFrames k ≤ m.rope.wgtSeen.countP (fun x => x.1 == k) && m.rope.etabSeen.contains k then
    ((m.bump (odKey 0x5210 7) 1).ownHash k).tryHash fu b.step k
  else m

/-- A poisoned frame of the broadcast or the resync ends the job at this rank, and the rope learns of it (R316). -/
def Module.framePoison (fu : Fuses) (m : Module) : Module := (m.sendAbort 3 stPoison).endJob fu m.ropeJob stPoison

/-- ETAB received: the next exponents of a bucket are stored and forwarded. -/
def execEtab (n : Nat) (bytes : List Byte) (poisoned : Bool) (s : State) : Host.Outcome State Fault Refusal :=
  s.actOn (n < 16) (fun fu m => m.receive n 5 bytes (fun m b f => m.ifFresh f (fun m =>
    let j := m.ropeJob
    if b != 0 || !m.current f then m
    else if poisoned then m.framePoison fu
    else
      match (m.job j).prog.reduce with
      | none => m
      | some r =>
        let segs := (r.segsOf f.bucket).drop f.segment
        let m := ((segs.take 4096).zipIdx).foldl (fun (m : Module) s =>
          m.onRun j (fun q => { q with nextExp := q.nextExp.filter (fun p => p.1 != segKey s.1.1 s.1.2) ++
            [(segKey s.1.1 s.1.2, signed 8 (leAt f.payload s.2 1))] })) m
        let m := m.forwardDown { m.frameBase 5 with bucket := f.bucket, segment := f.segment, payload := f.payload }
        if 4096 < segs.length || m.rope.etabSeen.contains f.bucket then m
        else (m.onRope (fun q => { q with etabSeen := q.etabSeen ++ [f.bucket] })).bucketReceived fu f.bucket)))

/-- The weights of a WGT frame written into the work half (R281). -/
def Module.writeBroadcast (m : Module) (t sg half : Nat) (payload : List Byte) : Module :=
  let j := m.ropeJob
  let n := min 2048 ((m.job j).segLen t sg - 2048 * half)
  (List.range n).foldl (fun (m : Module) i =>
    let e := 4096 * sg + 2048 * half + i
    if (m.job j).writes t e then (m.putWeight j t e (leAt payload (2 * i) 2) false).bump (odKey 0x7130 2) 1 else m) m

/-- Whether a WGT frame that arrives in order meets a stopped stack (R284): a tackle that would write it waits, and the frame waits in
front of it. -/
def Module.wgtWaits (m : Module) (n : Nat) (bytes : List Byte) : Bool :=
  let b := m.job m.ropeJob
  match parseFrame bytes with
  | none => false
  | some f =>
    match b.prog.reduce.bind (fun r => (r.segsOf f.bucket)[f.segment]?) with
    | none => false
    | some s => m.inRope m.ropeJob && (m.hawser n).up && f.type == 6 && f.linkSeq == (m.hawser n).rxSeq && f.epoch == m.ropeEpoch &&
        bondOf n == 0 && m.current f &&
        (List.range (min 2048 (b.segLen s.1 s.2 - 2048 * (f.code % 2)))).any (fun i =>
          let e := 4096 * s.2 + 2048 * (f.code % 2) + i
          b.writes s.1 e && (m.stack (b.homeStack s.1 e)).stopped)

/-- A WGT frame that waits is held in front of its tackles. -/
def Module.holdWgt (m : Module) (bytes : List Byte) : Module :=
  match parseFrame bytes with
  | none => m
  | some f =>
    let key := (f.bucket, 2 * f.segment + f.code % 2)
    if m.rope.wgtHeld.contains key then m else m.onRope (fun r => { r with wgtHeld := r.wgtHeld ++ [key] })

/-- WGT received: forwarded to the children as it arrives and written by the tackles, once no tackle that it needs waits; one that was
sent again after a port loss (R313) has had its effect. -/
def execWgt (n : Nat) (bytes : List Byte) (poisoned : Bool) (s : State) : Host.Outcome State Fault Refusal :=
  s.actOn (n < 16) (fun fu m => if m.wgtWaits n bytes then m.holdWgt bytes else m.receive n 6 bytes (fun m b f => m.ifFresh f (fun m =>
    let j := m.ropeJob
    let half := f.code % 2
    if b != 0 || !m.current f then m
    else if poisoned then m.framePoison fu
    else
      match ((m.job j).prog.reduce.bind (fun r => (r.segsOf f.bucket)[f.segment]?)) with
      | none => m
      | some s =>
        let key := (f.bucket, 2 * f.segment + half)
        if m.rope.wgtSeen.contains key then m
        else
        let m := m.forwardDown { m.frameBase 6 with bucket := f.bucket, segment := f.segment, code := f.code, payload := f.payload }
        let m := m.writeBroadcast s.1 s.2 half f.payload
        (m.onRope (fun q => { q with wgtSeen := q.wgtSeen ++ [key], wgtHeld := q.wgtHeld.filter (· != key) })).bucketReceived fu f.bucket)))

/-! ### Aborts and losses (R311 to R316) -/

/-- The rope breaks (R315): a rank whose commit conditions all hold commits first; the ABORT goes on with its code (R312, R315,
R316), the attempt ends with PEER_LOST and the job returns to LOADED. -/
def Module.breakRope (fu : Fuses) (m : Module) (except code : Nat) : Module :=
  let j := m.ropeJob
  let m := if m.canCommitStep j && (m.acceptFails j).isNone then m.commitStep fu j 0 else m
  let m := m.onRope Rope.discard
  let m := m.sendAbort except code
  let m := m.abandonStep fu j stPeerLost
  m.setRopeState fu 4

/-- Event 0x0542 of a bond (R315). -/
def Module.lossEvent (fu : Fuses) (m : Module) (b : Nat) : Module :=
  let k := m.job m.ropeJob
  m.event fu 0x0542 [b, bondPartner m.rank b, k.step, k.run.ropeAttempt, (m.nextBucket).getD 0]

/-- An ABORT of an attempt that this rank has not started (R312): it will start that step with the raised attempt number, and what came
for the earlier attempt is stale. -/
def Rope.raise_ (r : Rope) (f : Frame) : Rope :=
  { r with raised := some (f.step, f.attempt + 1), inputs := r.inputs.filter (fun x => x.step != f.step),
           trailers := r.trailers.filter (fun x => x.step != f.step), hashes := r.hashes.filter (fun x => x.step != f.step) }

/-- ABORT received: forwarded on every other bond; PEER_LOST and POISON break the rope, the final flag ends the job, and any
other code starts the attempt again, or raises the number of one to come (R305, R312, R315, R316). -/
def execAbort (n : Nat) (bytes : List Byte) (s : State) : Host.Outcome State Fault Refusal :=
  s.actOn (n < 16) (fun fu m => m.receive n 8 bytes (fun m b f =>
    let j := m.ropeJob
    if !m.inRope j then m
    else if f.code = stPeerLost || f.code = stPoison then
      if m.ropeState = 4 then m
      else (if f.code = stPeerLost then m.lossEvent fu b else m).breakRope fu b f.code
    else if !m.fresh f then m.bump (odKey 0x5210 8) 1
    else
      let m := m.sendOthers b { m.frameBase 8 with step := f.step, attempt := f.attempt, code := f.code, segment := f.segment }
      if f.segment = 1 then m.endJob fu j f.code
      else if m.current f then m.restart fu j f.code true
      else m.onRope (fun r => r.raise_ f)))

/-- A bond is lost (R315). -/
def Module.bondLost (fu : Fuses) (m : Module) (b : Nat) : Module :=
  let m := m.onBond b (fun x => { x with state := 4 })
  if !m.inRope m.ropeJob || !bondNeeded m.rank m.ropeSize b then m
  else
    let m := m.lossEvent fu b
    if m.ropeState = 4 then m else m.breakRope fu b stPeerLost

/-- Bonds that have passed JOIN and hold fewer live ports than bond_min_ports are lost (R314). -/
def Module.judgeBonds (fu : Fuses) (m : Module) : Module :=
  [0, 1, 2].foldl (fun (m : Module) b =>
    if (m.rope.bonds.getD b Bond.reset).state == 2 && decide ((m.bondLive b).length < m.minPorts) then
      m.bondLost fu b
    else m) m

/-- The frames of a lost port, to be sent again: those unacknowledged, then those waiting. -/
def Hawser.leftOver (h : Hawser) : List Frame := (h.unacked.filterMap (fun u => parseFrame u.2)) ++ h.queue.map Prod.snd

/-- A port is lost (R313, R314). A port of a bond that the rank's place does not need (R291) serves no bond. -/
def Module.losePort (fu : Fuses) (m : Module) (n : Nat) : Module :=
  if !(m.hawser n).up then m
  else
    let b := bondOf n
    let sp := bondSpare m.rank b
    let left := (m.hawser n).leftOver
    let spare := (m.hawser n).state == 4
    let isBond := bondNeeded m.rank m.ropeSize b && (spare || (decide (n % 4 < 3) && n % 4 == b))
    let m := (m.onHawser n (fun h => { h with state := 3, unacked := [], queue := [], replayAsked := false })).bump (odKey 0x5210 4) 1
    let m := if spare then { m with hawsers := m.hawsers.zipIdx.map (fun h => if h.2 % 4 = b then { h.1 with spareUsed := false } else h.1) } else m
    if !isBond then m
    else
      let live := (m.bondLive b).length
      if live < m.minPorts then
        ((m.event fu 0x0540 [n, b, live]).reason fu 3 [b, live]).bondLost fu b
      else if !spare && (m.hawser sp).state == 2 then
        let m := (m.onHawser sp (fun h => { h with state := 4 })).onHawser n (fun h => { h with spareUsed := true })
        left.foldl (fun (m : Module) f => m.onHawser sp (fun h => h.send f)) ((m.bump (odKey 0x5210 5) 1).event fu 0x0541 [n, sp])
      else
        left.foldl (fun (m : Module) f => m.sendBond b f) ((m.event fu 0x0540 [n, b, live]).reason fu 3 [b, live])

/-- PORT_LOST: a port has received no valid frame for 100 µs. -/
def execPortLost (n : Nat) (s : State) : Host.Outcome State Fault Refusal := s.actOn (n < 16) (fun fu m => m.losePort fu n)

/-- FRAME_CRC_FAILURE: a frame that the port received fails its CRC, or one that it sent failed at the partner,
whose replay request comes back. -/
def execFrameCrcFailure (f : CrcFailure) (s : State) : Host.Outcome State Fault Refusal :=
  s.actOn (f.port < 16) (fun _ m => match f.asked with
    | none => m.askReplay f.port
    | some q => m.answerReplay f.port q)

/-- KEEPALIVE: a port with nothing queued for 10 µs sends an IDLE. -/
def execKeepalive (n : Nat) (s : State) : Host.Outcome State Fault Refusal :=
  s.actOn (n < 16) (fun _ m =>
    if (m.hawser n).up && (m.hawser n).queue.isEmpty then m.onHawser n (fun h => h.send (m.frameBase 1)) else m)

/-- Whether an input delivers its light (R529): powered, and not failed. -/
def Laser.lit (l : Laser) : Bool := l.present && l.powered && !l.faultLow && !l.dim

/-- No laser source. -/
def Laser.none : Laser := { present := false, powered := false, faultLow := false, eolLow := false, dim := false, uw := 0, last := 0 }

/-- Whether a port is enabled and the laser source input that feeds it works (R529): input 0 feeds H00 to H07. -/
def Module.portLit (m : Module) (n : Nat) : Bool :=
  bitAt (m.odGet (odKey 0x5220 1)) n && (m.lasers.getD (n / 8) Laser.none).lit

/-- HAWSER_PORT_UP: a lit port has trained (R317) with its calibration (R544); when its bond comes up the two ends exchange JOIN, and a bond that has passed may be
the last that the rank waited for. -/
def execHawserPortUp (n : Nat) (s : State) : Host.Outcome State Fault Refusal :=
  s.actOn (n < 16) (fun fu m =>
    if !m.portLit n || (m.hawser n).up then m
    else
      let m := (m.onHawser n (fun _ => { Hawser.reset with state := 2 })).latchAll (portCalib n)
      if m.ropeState = 1 && n % 4 < 3 then (m.sendJoin (bondOf n)).settleRope fu else m)

/-! ### State marks, replicas and the resync (R318 to R320) -/

/-- SNAPMARK received: the rank copies its descriptors into the mark of the snapshot's step; two marks are kept. -/
def execSnapmark (n : Nat) (bytes : List Byte) (s : State) : Host.Outcome State Fault Refusal :=
  s.actOn (n < 16) (fun _ m => m.receive n 9 bytes (fun m b f =>
    if b != 0 || !m.inRope m.ropeJob then m
    else
      let step := leAt f.payload 0 8
      let m := m.forwardDown { m.frameBase 9 with payload := f.payload }
      m.onRope (fun r => r.mark step (m.job m.ropeJob).descs)))

/-- The data of a RESYNC or REPL frame joined to what has come: out of place it is dropped. -/
def joinData (held : List Byte) (f : Frame) : List Byte :=
  let off := leAt f.payload 8 8
  let len := leAt f.payload 16 8
  let held := if off = 0 then [] else held
  if held.length != off then held else (held ++ (f.payload.drop 64).take (min 4096 (len - off)))

/-- RESYNC received. -/
def execResync (n : Nat) (bytes : List Byte) (poisoned : Bool) (s : State) : Host.Outcome State Fault Refusal :=
  s.actOn (n < 16) (fun fu m => m.receive n 10 bytes (fun m b f =>
    if b != 0 || !m.inRope m.ropeJob || (m.job m.ropeJob).state != 2 then m
    else if poisoned then m.framePoison fu
    else
      let m := m.forwardDown { m.frameBase 10 with payload := f.payload }
      let m := m.onRope (fun r => { r with resyncData := joinData r.resyncData f })
      if m.ropeState = 2 then m.setRopeState fu 3 else m))

/-- REPL received at rank 1: kept as a state snapshot once it is whole (R319). -/
def execRepl (n : Nat) (bytes : List Byte) (s : State) : Host.Outcome State Fault Refusal :=
  s.actOn (n < 16) (fun fu m => m.receive n 11 bytes (fun m b f =>
    if b != 0 || m.rank != 1 || !m.inRope m.ropeJob then m
    else
      let data := joinData m.rope.replData f
      let m := m.onRope (fun r => { r with replData := data })
      if data.length != leAt f.payload 16 8 then m
      else
        let step := leAt f.payload 0 8
        let id := moduleId 0 m.ropeJob step
        let st := m.writeRefused 3 id data.length
        let m := m.onRope (fun r => { r with replData := [] })
        if st = stOk then m.putObj fu (Obj.named 3 id) data else m.event fu 0x0733 [m.ropeJob, step, st]))

/-- The length of the resync data that the header of a job's data promises. -/
def Module.resyncLen (m : Module) (j : Nat) : Nat :=
  let b := m.job j
  let rs := b.regionsIn m.rope.resyncData
  320 + (rs.map (fun r => 2 * b.regionElems r.1)).sum + 128 * (b.trains.flatMap b.weightDescs).eraseDups.length +
    b.expBytes.length + 512 + 8

/-- The resync data committed at a rank other than 0: weights into the work halves, half bits flipped, the weight tensors'
descriptors, exponent tables, set step counts and the step count (R320). -/
def Module.takeResync (fu : Fuses) (m : Module) (j : Nat) : Module :=
  let b := m.job j
  let bs := m.rope.resyncData
  let rs := b.regionsIn bs
  let w := m.putRegions j false (fun t v => 1 - b.committed t v) rs bs 320
  let ds := (b.trains.flatMap b.weightDescs).eraseDups
  let d := w.2 + 512
  let e := d + 128 * ds.length
  let m := w.1.onJob j (fun b =>
    { b.withSetSteps bs w.2 with
        halfBits := rs.foldl (fun (h : NatMap) r => h.set (halfKey r.1 r.2) (1 - h.get (halfKey r.1 r.2))) b.halfBits,
        descs := (ds.zipIdx).foldl (fun ds i => modifyAt (fun _ => readDesc (slice bs (d + 128 * i.2) 128)) ds i.1) b.descs,
        expTab := b.readExps (slice bs e (bs.length - 8 - e)), step := leAt bs (bs.length - 8) 8 })
  let after := leAt bs 0 8
  if after = 0 then m
  else
    match m.rope.marks.lookup (after - 1) with
    | some d => m.onJob j (fun b => { b with descs := d })
    | none => m.event fu 0x0546 [j, after - 1]

/-- RESYNC_COMMIT: all resync data is written, and the rank commits it; the rope enters READY. -/
def execResyncCommit (s : State) : Host.Outcome State Fault Refusal :=
  s.act (fun fu m =>
    let j := m.ropeJob
    if !m.powered || !m.inRope j || m.ropeState != 3 || (m.job j).state != 2 then m
    else if m.rank = 0 then (m.onRope (fun r => { r with afterRestore := none })).setRopeState fu 2
    else if m.rope.resyncData.length < 320 || m.rope.resyncData.length != m.resyncLen j then m
    else ((m.takeResync fu j).onRope (fun r => { r with resyncData := [] })).setRopeState fu 2)

/-! ### The limit of a wait (R101, R284) -/

/-- Whether a tackle holds work of a job that waits for stack `p` (R284): the oldest slice at size 1, a summed bucket at rank 0, or
elsewhere a frame of the broadcast that has arrived and waits. -/
def Module.tackling (m : Module) (j p : Nat) : Bool :=
  let b := m.job j
  let lies := fun (t e : Nat) => b.writes t e && b.homeStack t e == p
  b.state == 3 &&
  (if !m.inRope j then (match b.run.slices with
      | [] => false
      | x :: _ => x.elems.any (fun e => lies x.tensor e.1))
   else
    (List.range b.run.buckets.length).any (fun k =>
      if m.rank = 0 then (b.bucket k).state == 3 && (m.bucketGrads k).any (fun g => lies g.t g.e)
      else (((b.prog.reduce.map (fun r => r.segsOf k)).getD []).zipIdx).any (fun s =>
        (List.range (b.segLen s.1.1 s.1.2)).any (fun i =>
          m.rope.wgtHeld.contains (k, 2 * s.2 + i / 2048) && lies s.1.1 (4096 * s.1.2 + i)))))

/-- Whether a command of a queue reads or writes its job's data in stack `p`, and so waits while that stack is stopped (R367). -/
def Module.dataWaits (m : Module) (p : Nat) (c : Cmd) : Bool :=
  (c.opcode == 0x20 || c.opcode == 0x21) && c.state != 2 &&
    (stacksOf ((m.job c.job).hbmBase + c.args.getD 0 0) (c.args.getD 1 0)).contains p && (m.stack p).stopped

/-- A stopped stack kept work of jobs waiting to the limit (R284, R367): a job whose tackle waits ends TIMEOUT, and commands on job data
are answered TIMEOUT. -/
def Module.stackLimit (fu : Fuses) (m : Module) (p : Nat) : Module :=
  let js := (List.range 16).filter (fun j => (m.job j).tagLimit != 0)
  let m := js.foldl (fun (m : Module) j => m.answerAll (fun c => c.job == j && m.dataWaits p c) stTimeout 0 0) m
  (js.filter (fun j => m.tackling j p)).foldl (fun (m : Module) j => (m.event fu 0x0735 [j, p]).endJob fu j stTimeout) m

/-- What keeps the gather at the head of a core waiting: a stopped stack that rows are to come from, or its combine turn. -/
def Module.gatherWait (m : Module) (p : PendGather) : Option Wait :=
  if p.waits then some .turn else (m.stoppedIn p.reads).map Wait.stack

/-- TAG_WAIT_LIMIT: a wait of core `w.unit` (`ch` 8 its engines, below 8 a channel) or of what waits for stack `w.unit` while it is
stopped (`ch` 9, R284, R367) reaches the limit. -/
def execTagWaitLimit (w : Counted) (ch : Nat) (s : State) : Host.Outcome State Fault Refusal :=
  s.actOn (ch ≤ 9 && (if ch = 9 then w.unit < 24 else w.unit < 384)) (fun fu m =>
    let g := w.unit
    if ch = 9 then (if (m.stack g).stopped then m.stackLimit fu g else m)
    else
      let c := m.core g
      if ch < 8 then
        match c.head ch with
        | some v => (v.wait.map (m.waitLimit fu g w.count v.inst v.pos)).getD m
        | none => m
      else
        match c.job, c.seq.wait with
        | some _, none => ((c.gathers.head?.bind (fun p => (m.gatherWait p).map (fun x => (p, x)))).map (fun x =>
            m.waitLimit fu g w.count x.1.inst 0 x.2)).getD m
        | some j, some x =>
          match x, m.instAt g j with
          | .passEnd, _ => m
          | .resume _, _ => m
          | x, some i => m.waitLimit fu g w.count i 0 x
          | _, none => m
        | _, _ => m)

end Sys2Proof.Machine
end

