-- ==== Sys2Proof/Machine/Boot.lean ====
section
/-!
DEFINITION. The management domain's start: the register snapshot area (R494, R495), the copying of Logline (R493), the
firmware slots and their verification (R456, R536 to R538), the defaults of R512, and the boot ROM.
-/
namespace Sys2Proof.Machine

/-! ### Register snapshots (R494, R495) -/

/-- Word 0 of a job context (R207). -/
def Job.word0 (b : Job) : Nat := b.state * 2 ^ 56 + b.endStatus * 2 ^ 48 + b.loadCheck * 2 ^ 32 + b.image.arrays * 2 ^ 24

/-- OD 0x3020:02 die_ready. -/
def Module.dieReady (m : Module) : Nat := wordOf (fun d => (m.die d).ready) 0 52

/-- OD 0x4010:02 stack_ready. -/
def Module.stackReady (m : Module) : Nat := wordOf (fun p => (m.stack p).ready) 0 24

/-- OD 0x4010:03 stack_failed. -/
def Module.stackFailed (m : Module) : Nat := wordOf (fun p => (m.stack p).failed) 0 24

/-- The hottest of a list of temperatures with its number: number × 2^16 + the 16-bit code of the temperature. -/
def hottest (ts : List Int) : Nat :=
  let best := (ts.zipIdx).foldl (fun (b : Int × Nat) t => if b.1 < t.1 then t else b) (ts.headD 0, 0)
  best.2 * 2 ^ 16 + unsigned 16 best.1

/-- OD 0xA010:02 fw_slot_state of a slot. -/
def FwSlot.word (s : FwSlot) : Nat := s.state * 2 ^ 24 + s.trials

/-- The A point requested of a die that the loops do not hold (R504): what the latest step of a job on it took up, or the
object's value while it runs none (R468); 2.1 GHz during a stress test (R488). -/
def Module.dieRequest (m : Module) (d : Nat) : Nat :=
  if m.stress.state != 0 then 0
  else if m.cores.zipIdx.any (fun c => dieOf c.2 == d && c.1.job.any (fun j => (m.job j).state == 3)) then (m.die d).request
  else pointOf (m.odGet (odKey 0x2020 1))

/-- Whether a loop keeps a compute die below its request or under duty gating (R507, R509). -/
def Module.dieHeld (m : Module) (d : Nat) : Bool :=
  (m.die d).ready && (decide (m.dieRequest d < max (m.die d).thermalHold m.power.powerHold) || (m.die d).gating || m.power.gating)

/-- The 64 registers of a snapshot (R494). The fields within a register stand in the order of its row, from the top (DEDUCED:
the rule gives no bits). -/
def Module.snapRegs (m : Module) : List Nat :=
  [m.fw.bootStage * 2 ^ 32 + m.fw.bootResult,
   ((m.fw.slots.getD 1 { state := 0, trials := 0, data := [], written := [], factory := false }).word) * 2 ^ 32 +
     (m.fw.slots.getD 0 { state := 0, trials := 0, data := [], written := [], factory := false }).word,
   m.odGet (odKey 0x2030 2) * 2 ^ 32 + m.odGet (odKey 0x2030 3),
   hottest (m.dies.map Die.tj) * 2 ^ 32 + hottest (m.hbmStacks.map Stack.temp), m.odGet (odKey 0x3020 1), m.dieReady] ++
  (List.range 6).map (fun i => wordOf (fun g => (m.core g).fenced) (64 * i) 64) ++
  (List.range 6).map (fun i => wordOf (fun g => (m.core g).ready) (64 * i) 64) ++
  [m.stackReady * 2 ^ 32 + m.stackFailed,
   m.coilState * 2 ^ 32 + m.odGet (odKey 0x5220 1) * 2 ^ 16 + m.ropeState,
   m.odGet (odKey 0x1F10 1) * 2 ^ 32 + m.fencedCount] ++
  m.jobs.map Job.word0 ++ [m.odGet (odKey 0x8020 4)] ++
  (List.range 9).map (fun i => (Config.snapshotRegister m.freeNo i).toNat) ++
  (List.range 16).map (fun i => match m.log.recent[i]? with
    | some r => r.1 * 2 ^ 48 + r.2 % 2 ^ 40
    | none => 0) ++
  [wordOf m.dieHeld 0 48]

/-- A snapshot taken into the next slot (R495). Causes: 1 no valid slot, 2 Capstan restart, 3 recorder fault, 4 trip. -/
def Module.snapshotTo (m : Module) (cause code : Nat) (reported : Bool) : Module :=
  let slot : RegSlot := { cause := cause, code := code, cycles := m.odGet (odKey 0x1018 9) % 2 ^ 24, reported := reported,
                          ops := m.odGet (odKey 0x1018 10) % 2 ^ 40, regs := m.snapRegs }
  { m with log := { m.log with slots := modifyAt (fun _ => some slot) m.log.slots m.log.nextSlot,
                               nextSlot := (m.log.nextSlot + 1) % 7 } }.nextFree

/-- Capstan reads the area at a boot (R495): each slot not yet reported is recorded with its cause and registers 0 to 20. -/
def Module.reportSlots (fu : Fuses) (m : Module) : Module :=
  (List.range 7).foldl (fun (m : Module) i =>
    match (m.log.slots.getD i none) with
    | none => m
    | some s =>
      if s.reported then m
      else
        let m := { m with log := { m.log with slots := modifyAt (fun _ => some { s with reported := true }) m.log.slots i } }
        m.event fu (if s.cause = 4 then 0x0803 else s.code) (s.cause :: s.regs.take 21)) m

/-! ### Copies of Logline (R493) -/

/-- The newest records that fit in a number of bytes. -/
def fitBytes (limit : Nat) (rs : List LogRec) : List LogRec :=
  (rs.foldr (fun r (acc : Nat × List LogRec) =>
    if acc.1 + r.size ≤ limit then (acc.1 + r.size, r :: acc.2) else (limit + 1, acc.2)) (0, [])).2

/-- The format record takes the value in force of a persistent object (R462). -/
def Module.save (m : Module) (key : Nat) : Module :=
  { m with saved := NatMap.put (odDefault key) m.saved key (m.odGet key) }

/-- The sequence numbers of the record as the format record holds them (R462). -/
def Module.saveSeqs (m : Module) : Module := (m.save (odKey 0x8020 3)).save (odKey 0x8020 4)

/-- The records that have not been copied go to the LOG partition. -/
def Module.copyToPart (m : Module) : Module :=
  let part := fitBytes (2048 * extentBytes) (m.log.part ++ m.log.ring)
  let m := { m with log := { m.log with part := part, ring := [] } }
  (match part with
    | [] => m
    | r :: _ => m.odSet (odKey 0x8020 3) r.seq).saveSeqs

/-- The records that have not been copied are kept before the power goes: in the LOG partition where the store is MOUNTED,
otherwise in the pre-mount log. -/
def Module.keepLog (m : Module) : Module :=
  if m.coilState = 2 then m.copyToPart
  else
    { m with log := { m.log with premount := fitBytes (2 ^ 20) (m.log.premount ++ m.log.ring), ring := [] } }.saveSeqs

/-- The events held while Capstan was away are recorded in order (R490). -/
def Module.releaseHeld (fu : Fuses) (m : Module) : Module :=
  m.mgmt.held.foldl (fun (m : Module) e => m.eventX fu (decide (65536 ≤ e.1)) (e.1 % 65536) e.2)
    { m with mgmt := { m.mgmt with held := [] } }

/-! ### Firmware slots (R456, R536 to R538) -/

/-- An empty slot. -/
def FwSlot.empty : FwSlot := { state := 0, trials := 0, data := [], written := [], factory := false }

/-- Slot `i`: 0 A, 1 B. -/
def Firmware.slot (f : Firmware) (i : Nat) : FwSlot := f.slots.getD i FwSlot.empty

/-- The firmware with a slot changed. -/
def Firmware.onSlot (f : Firmware) (i : Nat) (g : FwSlot → FwSlot) : Firmware := { f with slots := modifyAt g f.slots i }

/-- The version of a slot's header. -/
def FwSlot.version (s : FwSlot) : Nat := if s.factory then Config.factoryVersion.toNat else s.data.readLe 0 4

/-- The image length of a slot's header. -/
def FwSlot.imageBytes (s : FwSlot) : Nat := s.data.readLe 8 8

/-- The generation of a slot's header. -/
def FwSlot.generation (s : FwSlot) : Nat := s.data.readLe 20 4

/-- Where a slot's signature block lies (R537). -/
def FwSlot.blockAt (s : FwSlot) : Nat := roundUp (64 + s.imageBytes) 64

/-- The bytes that a slot's signature covers. -/
def FwSlot.covered (s : FwSlot) : List Byte := s.data.read 0 (64 + s.imageBytes)

/-- The SHA-512 hash of a slot's covered bytes. -/
def FwSlot.hash (s : FwSlot) : List Byte := if s.factory then (List.range 64).map Config.factoryHash else sha512 s.covered

/-- The rollback floor that a slot's block raises (R536). -/
def FwSlot.floorRaise (s : FwSlot) : Nat := if s.factory then 0 else s.data.readLe (s.blockAt + 20) 4

/-- The rollback floor (R538): the value of the highest-numbered valid row. -/
def Firmware.floor (f : Firmware) : Nat := f.floorRows.getLastD 0

/-- Whether a signature block has its form (R536, R537): its kind, what it covers, and no reserved bit set. -/
def blockForm (blk : List Byte) (kind covers : Nat) : Bool :=
  field (word64 blk 0) 32 32 == 0x53474E31 && field (word64 blk 0) 24 8 == kind && field (word64 blk 0) 16 8 == 1 &&
  field (word64 blk 0) 0 16 == 0 && word64 blk 1 == covers && field (word64 blk 2) 0 32 == 0 &&
  (slice blk 24 40).all (fun b => b == 0)

/-- The modulus of a signature block. -/
def blockN (blk : List Byte) : List Byte := slice blk 64 512

/-- The key that a firmware block names (R538): 0 primary, 1 secondary, none where it is not allowed. -/
def fwKeyOf (fu : Fuses) (f : Firmware) (n : List Byte) : Option Nat :=
  let h := sha512 n
  if h = fu.keySecondary then some 1 else if h = fu.keyPrimary && !f.revoked then some 0 else none

/-- The check of a slot (R456, R537): 0 and the key on a pass, otherwise what failed: 1 a page cannot be read, 2 the header
or the block, 3 the key, 4 the signature, 5 the version. The factory's image passes. -/
def Firmware.verify (fu : Fuses) (f : Firmware) (i : Nat) (readable : Bool) : Nat × Nat :=
  let s := f.slot i
  if !readable then (1, 0)
  else if s.factory then (0, 0)
  else
    let blk := s.data.read s.blockAt 1088
    if s.data.readLe 4 4 != 0x43415053 || decide (2 ^ 28 - 64 < s.imageBytes) || !blockForm blk 1 (64 + s.imageBytes) then (2, 0)
    else
      match fwKeyOf fu f (blockN blk) with
      | none => (3, 0)
      | some k =>
        if !pssVerify (leNat (blockN blk)) (leNat (slice blk 576 512)) s.covered then (4, 0)
        else if s.version < f.floor then (5, 0)
        else (0, k)

/-! ### The defaults of R512 -/

/-- A stack without power: its contents and marks are lost, its repairs stand in the DRAM's fuses (R369). -/
def Stack.off (t : Stack) : Stack := { Stack.reset with sparesUsed := t.sparesUsed, corrected := t.corrected }

/-- A laser source without power: it keeps the state it last took (R529). -/
def Laser.off (l : Laser) : Laser := { l with powered := false, dim := false }

/-- The dies and stacks lose their power (R503, R518, R519): every block outside the management domain stands at its default,
and its enable bits with it. -/
def Module.domainsOff (m : Module) : Module :=
  { m with
    dies := m.dies.zipIdx.map (fun (d : Die × Nat) => if d.2 = 48 then d.1 else Die.reset false),
    links := m.links.map (fun (_ : Link) => Link.reset),
    hbmStacks := m.hbmStacks.map Stack.off, lasers := m.lasers.map Laser.off,
    cores := m.cores.map (fun (_ : Core) => Core.reset), clusters := m.clusters.map (fun (_ : Cluster) => Cluster.reset),
    hbm := [], hbmPoison := [], bursts := [], residency := [], hawsers := m.hawsers.map (fun (_ : Hawser) => Hawser.reset),
    stress := { state := 0, runs := 0, fencedCores := 0 }, store := { m.store with writing := [] },
    power := { m.power with powerHold := 0, highCount := 0, lowCount := 0, gating := false, currentHeld := false },
    od := m.od.filter (fun e => !(e.1 == odKey 0x3020 1 || (decide (odKey 0x3030 1 ≤ e.1) && decide (e.1 ≤ odKey 0x3030 12)) ||
      e.1 == odKey 0x4010 1 || e.1 == odKey 0x5220 1 || e.1 == odKey 0x6000 1 || e.1 == odKey 0x6000 2)) }

/-- The coil store as flash keeps it (R410): what was being written is gone. -/
def Coil.cold (c : Coil) : Coil := { c with writing := [], repairQueue := [], catchUp := false, unmountAsked := false }

/-- A host port as the module's reset leaves it: the level of PERST# is the host's. -/
def Port.cold (p : Port) : Port := { Port.reset with perst := p.perst }

/-- A laser source input as a loss of power leaves it. -/
def Laser.cold (l : Laser) : Laser := { l with powered := false, dim := false, last := 0 }

/-- Every block at its default (R512, R516, R518). What flash and fuses hold stays (R462), and what the outside holds: the
host's memory, the messages already sent, the sources and the pins. -/
def Module.cold (m : Module) (p : Power) : Module :=
  { Module.reset with
    power := p, hbmStacks := m.hbmStacks.map Stack.off, lasers := m.lasers.map Laser.cold,
    od := m.saved, saved := m.saved,
    mgmt := { Module.reset.mgmt with frames := m.mgmt.frames },
    log := { Module.reset.log with part := m.log.part, premount := m.log.premount, slots := m.log.slots,
                                   nextSlot := m.log.nextSlot, nextSeq := m.saved.get (odKey 0x8020 4) + 1 },
    fw := { m.fw with session := none, bootStage := 0, bootResult := 0 },
    store := m.store.cold,
    host := { Module.reset.host with ports := m.host.ports.map Port.cold, hostMem := m.host.hostMem, irqs := m.host.irqs },
    freeNo := m.freeNo }

/-! ### The boot ROM (R456) -/

/-- The slot the boot ROM picks among those not yet tried: the higher generation. -/
def Firmware.pick (f : Firmware) (tried : List Nat) : Option Nat :=
  let ok := fun i => !tried.contains i && ((f.slot i).state == 3 || ((f.slot i).state == 2 && decide ((f.slot i).trials < 3)))
  match ok 0, ok 1 with
  | true, true => if (f.slot 0).generation < (f.slot 1).generation then some 1 else some 0
  | true, false => some 0
  | false, true => some 1
  | false, false => none

/-- The boot ROM tries the slots: the firmware after it, the slot and key that it starts, and why the others failed. -/
def Firmware.boot (fu : Fuses) (bad : List Nat) : Nat → Firmware → List Nat → List (Nat × Nat) →
    Firmware × Option (Nat × Nat) × List (Nat × Nat)
  | 0, f, _, why => (f, none, why)
  | fuel + 1, f, tried, why =>
    match f.pick tried with
    | none => (f, none, why)
    | some i =>
      let f := f.onSlot i (fun s => if s.state = 2 then { s with trials := s.trials + 1 } else s)
      let v := f.verify fu i (!bad.contains i)
      if v.1 = 0 then (f, some (i, v.2), why)
      else Firmware.boot fu bad fuel (f.onSlot i (fun s => { s with state := 0 })) (i :: tried) (why ++ [(i, v.1)])

/-- A TRIAL slot that reached three trials without confirming is EMPTY at the next boot (R456). -/
def Module.dropTrials (fu : Fuses) (m : Module) : Module :=
  [0, 1].foldl (fun (m : Module) i =>
    let s := m.fw.slot i
    if s.state = 2 && decide (3 ≤ s.trials) then
      { m with fw := m.fw.onSlot i (fun s => { s with state := 0 }) }.event fu 0x0A02 [i, s.version]
    else m) m

/-- A page of a REPAIR copy as it is written (R396): header, records from byte 64, unused positions 0; the CRC is of the page with its
field 0. -/
def repairPage (gen : Nat) (recs : List Nat) : List Byte :=
  let page := fun (crc : Nat) => leBytes 8 (0x53504C43 * 2 ^ 32 + gen % 2 ^ 32) ++ leBytes 8 (recs.length * 2 ^ 48 + crc) ++ zeros 48 ++
    padTo 16320 (recs.flatMap (leBytes 8))
  page (crc32c (page 0))

/-- Whether a page read from a REPAIR copy has the right magic and CRC (R396). -/
def repairPageOk (p : List Byte) : Bool :=
  leAt p 4 4 == 0x53504C43 && crc32c (p.take 8 ++ zeros 4 ++ p.drop 12) == leAt p 8 4

/-- Every page written in a copy, oldest first. -/
def RepairCopy.written (k : RepairCopy) : List RepairPage := k.other ++ k.pages

/-- The generation of a copy's latest page. -/
def RepairCopy.latest (k : RepairCopy) : Nat := ((k.written.getLast?).map RepairPage.gen).getD 0

/-- A page appended to a copy (R397): where the current block is full, the copy moves to its other block, erased first. -/
def RepairCopy.append (k : RepairCopy) (p : RepairPage) : RepairCopy :=
  if k.pages.length < 384 then { k with pages := k.pages ++ [p] } else { block := 1 - k.block, pages := [p], other := k.pages }

/-- The pages of a copy that qualify at a boot, of whose latest `spoiled` the bytes have changed (R396). A page that stands as it was
written qualifies, its magic and CRC being of its making. -/
def RepairCopy.qualifying (k : RepairCopy) (spoiled : Nat) : List RepairPage :=
  let ps := k.written
  ps.take (ps.length - spoiled) ++
    (ps.drop (ps.length - spoiled)).filter (fun p => repairPageOk ((repairPage p.gen p.recs).map (fun b => ~~~b)))

/-- The page with the highest generation among those of all copies that qualify; `bad` names a copy once for each of its latest pages
whose bytes have changed. -/
def Coil.bestRepair (c : Coil) (bad : List Nat) : Option RepairPage :=
  ((c.repairCopies.zipIdx).flatMap (fun x => x.1.qualifying (bad.count x.2))).foldl (fun (best : Option RepairPage) p =>
    match best with
    | none => some p
    | some b => if b.gen < p.gen then some p else some b) none

/-- The copies of the REPAIR records as a boot reads them (R113, R396): a copy whose latest page fails its check raises event 0x060C;
the records are those of the page with the highest generation that qualifies; and where none does cores enable with the fuse map
only. -/
def Module.readRepair (fu : Fuses) (m : Module) (bad : List Nat) : Module :=
  let m := ((bad.eraseDups.filter (· < 4))).foldl (fun (m : Module) i =>
    m.event fu 0x060C [9 * i, (m.store.repairCopies.getD i RepairCopy.reset).latest]) m
  match m.store.bestRepair bad with
  | none => (m.event fu 0x0415 [4]).onStore (fun c => { c with repairRecs := [] })
  | some p => m.onStore (fun c => { c with repairRecs := p.recs, repairGen := p.gen })

/-- Whether the reading of a slot met a page that cannot be read (R402, R456). -/
def slotLost (ups : List FlashUpset) : Bool := ups.any (fun u => match u with
  | .unreadable _ _ _ => true
  | _ => false)

/-- The boot ROM runs on a module at its defaults: it reads the system area and picks, verifies and starts a slot. -/
def Module.bootRom (fu : Fuses) (m : Module) (finds : BootFinds) : Module :=
  let m := m.readRepair fu finds.repairBad
  let m := if finds.formatOk then m else { m with od := [], saved := [] }.event fu 0x060B [0]
  let m := { m with trust := { m.trust with secOk := finds.secOk } }
  let m := if finds.secOk then m else m.event fu 0x0A0B [0]
  let m := m.dropTrials fu
  let b := Firmware.boot fu ((finds.slots.filter (fun s => slotLost s.2)).map Prod.fst) 2 m.fw [] []
  let m := { m with fw := b.1 }
  let tried := b.2.2.map Prod.fst ++ (b.2.1.map Prod.fst).toList
  let m := tried.foldl (fun (m : Module) i =>
    (finds.slots.filter (fun s => s.1 == i)).foldl (fun (m : Module) s => m.pageReads fu 5 i s.2) m) m
  match b.2.1 with
  | some (i, k) =>
    let m := { m with fw := { m.fw with running := i, keyUsed := k, bootStage := 1, bootResult := 0 } }
    (match b.2.2 with
      | [] => m
      | w :: _ => m.event fu 0x0A01 [i, w.2])
  | none =>
    let m := { m with mgmt := { m.mgmt with romService := true },
                      fw := { m.fw with bootStage := 1, bootResult := (b.2.2.map Prod.snd).headD 6 } }
    m.snapshotTo 1 0x0A05 false

end Sys2Proof.Machine
end

