-- ==== Sys2Proof/Machine/Power.lean ====
section
/-!
DEFINITION. The 54 V input, PWRGD, MRST_N and the thermal trip (R498, R499, R512, R513, R516, R518, R519), the reference
(R503), the loops that act on their own (R504 to R510), the sideband pins (R466, R520), the laser sources (R529, R530) and
Capstan's restarts (R490).
-/
namespace Sys2Proof.Machine

/-! ### Pins -/

/-- PWRGD. -/
def Module.pwrgd (m : Module) : Bool := m.power.phase == .on

/-- Whether ALERT_N is asserted (R520). -/
def Module.alert (m : Module) : Bool :=
  m.pwrgd && (m.power.outOfRange || (List.range 48).any m.dieHeld || m.power.refState != 0 ||
    m.hbmStacks.any (fun t => t.stopped) || m.mgmt.romService)

/-- Whether REPLACE_N is asserted (R466). -/
def Module.replaceAsserted (m : Module) : Bool := m.pwrgd && m.odGet (odKey 0x1F10 1) != 0

/-! ### Application and loss of 54 V -/

/-- The power state that starts a module from its defaults: the phase, and what the pins and the input show. -/
def Power.started (p : Power) (phase : Phase) : Power :=
  { Module.reset.power with
    phase := phase, mv := p.mv, outOfRange := p.outOfRange, masterSel := p.masterSel, node := p.node, mrst := p.mrst,
    grace := p.grace, mrstPin := p.mrstPin, refState := p.refState, thermtrip := p.thermtrip }

/-- The module starts from its defaults with the boot ROM (R512, R513): the rank follows MASTER_SEL (R290) and the node the
straps (R435), and E0, which the boot ROM enables, and the input's measurement take their calibration (R543, R544). -/
def Module.startUp (fu : Fuses) (m : Module) (p : Power) (finds : BootFinds) : Module :=
  let m := (m.cold p).bootRom fu finds
  let m := if m.power.masterSel then m.odSet (odKey 0x5200 1) 0 else m
  (m.odSet (odKey 0x1010 2) m.power.node).latchAll (inputCalib ++ dieCalib 48)

/-- POWER_APPLY: the input passes 39.0 V, and precharge begins. -/
def execPowerApply (mv : Nat) (s : State) : Host.Outcome State Fault Refusal :=
  s.act (fun _ m =>
    if m.power.phase != .off || decide (mv < 39000) then m
    else { m with power := { m.power with phase := .precharge, mv := mv, outOfRange := decide (60000 < mv) || decide (mv < 40000) } })

/-- PWRGD_ASSERT: the management domain is up, the straps are sampled, power_cycles counts (R465), and the boot ROM runs. -/
def execPwrgdAssert (masterSel : Bool) (node : Nat) (ref : Option Int) (finds : BootFinds) (s : State) :
    Host.Outcome State Fault Refusal :=
  s.act (fun fu m =>
    if m.power.phase != .precharge then m
    else
      let p := { m.power.started .on with masterSel := masterSel, node := node % 8, mrst := false, grace := false,
                                          mrstPin := false, thermtrip := false, refState := if ref.isSome then 3 else 0 }
      let m := m.startUp fu p finds
      let n := m.odGet (odKey 0x1018 9)
      let m := (m.odSet (odKey 0x1018 9) (min (n + 1) 0xFFFFFF)).save (odKey 0x1018 9)
      match ref with
      | none => m
      | some ppm => m.event fu 0x0206 [unsigned 64 ppm, 0])

/-- A slot on trial is confirmed (R456), and the running slot's block acts on the fuses (R538). -/
def Module.confirmSlot (fu : Fuses) (m : Module) : Module :=
  let r := m.fw.running
  let m := { m with fw := m.fw.onSlot r (fun s => if s.state = 2 then { s with state := 3, trials := 0 } else s) }
  let s := m.fw.slot r
  let m := if s.floorRaise ≤ m.fw.floor then m
    else if m.fw.floorRows.length < 32 then
      ({ m with fw := { m.fw with floorRows := m.fw.floorRows ++ [s.floorRaise] } }).event fu 0x0A07
        [m.fw.floor, s.floorRaise, 31 - m.fw.floorRows.length]
    else m.event fu 0x0A07 [m.fw.floor, m.fw.floor, 0]
  if m.fw.keyUsed = 1 && !m.fw.revoked then
    ({ m with fw := { m.fw with revoked := true } }).event fu 0x0A08 [r, s.version]
  else m

/-- The replace reasons whose conditions lie in the DRAM fuses and the coil store set again (R466). -/
def Module.bootReasons (fu : Fuses) (m : Module) : Module :=
  let m := (m.hbmStacks.zipIdx).foldl (fun (m : Module) t => if 2 ≤ t.1.emptyBanks then m.reason fu 1 [t.2, t.1.emptyBanks] else m) m
  let c := m.store
  if c.spare < 16937 then m.reason fu 2 [c.spare]
  else if 9000 < c.meanWear then m.reason fu 2 [c.meanWear]
  else if c.pinsOverridden then m.reason fu 2 [c.maxPe - c.minPe]
  else m

/-- DICTIONARY_REACHABLE: Capstan runs. -/
def execDictionaryReachable (s : State) : Host.Outcome State Fault Refusal :=
  s.act (fun fu m =>
    if !m.powered || m.mgmt.reachable || m.mgmt.romService || m.mgmt.restartCause != 0 then m
    else
      let m := { m with mgmt := { m.mgmt with reachable := true, capstanUp := true, staged := [], kept := [], windows := [] } }
      let m := m.releaseHeld fu
      let m := fu.badGroups.foldl (fun (m : Module) g => m.event fu 0x0901 [g]) m
      ((m.reportSlots fu).confirmSlot fu).bootReasons fu)

/-- INPUT_RANGE_EXCURSION: the input leaves 40 V to 60 V (R499). -/
def execInputRangeExcursion (mv : Nat) (s : State) : Host.Outcome State Fault Refusal :=
  s.actOn true (fun fu m =>
    if decide (40000 ≤ mv) && decide (mv ≤ 60000) then m
    else
      let out := m.power.outOfRange
      let m := { m with power := { m.power with mv := mv, outOfRange := true } }
      if out then m else m.event fu 0x0205 [mv])

/-- INPUT_RANGE_RETURN: the input is inside 40 V to 60 V again. -/
def execInputRangeReturn (mv : Nat) (s : State) : Host.Outcome State Fault Refusal :=
  s.actOn true (fun _ m =>
    if decide (40000 ≤ mv) && decide (mv ≤ 60000) then { m with power := { m.power with mv := mv, outOfRange := false } } else m)

/-- POWER_LOSS: PWRGD falls. The die and stack domains are switched off, and the records are copied (R493, R518). -/
def execPowerLoss (s : State) : Host.Outcome State Fault Refusal :=
  s.act (fun _ m =>
    match m.power.phase with
    | .on =>
      let m := m.keepLog.domainsOff
      { m with power := { m.power with phase := .holdup, outOfRange := false } }
    | .off => m
    | .holdup => m
    | .precharge => { m with power := { m.power with phase := .off } }
    | .tripped => { m with power := { m.power with phase := .off, thermtrip := false } })

/-- HOLDUP_END: everything is off. -/
def execHoldupEnd (s : State) : Host.Outcome State Fault Refusal :=
  s.act (fun _ m => if m.power.phase != .holdup then m else m.cold { Module.reset.power with phase := .off, mv := 0 })

/-! ### MRST_N and the thermal trip -/

/-- MRST_N_ASSERT: MRST_N has been low for 10 µs. The grace for the copies begins (R516); a tripped module only sees the
pulse (R519). -/
def execMrstNAssert (s : State) : Host.Outcome State Fault Refusal :=
  s.act (fun _ m =>
    if m.power.phase = .tripped then { m with power := { m.power with mrstPin := true } }
    else if !m.powered || m.power.grace then { m with power := { m.power with mrstPin := true } }
    else
      let m := m.keepLog
      { m with power := { m.power with mrstPin := true, grace := true } })

/-- The reset ends and the boot ROM starts. PWRGD stays, and power_cycles does not advance. -/
def Module.leaveReset (fu : Fuses) (m : Module) (finds : BootFinds) : Module :=
  m.startUp fu { m.power.started .on with mrst := false, grace := false } finds

/-- MRST_GRACE_END: every block returns to its defaults (R516); with MRST_N high again, the boot ROM starts. tackle_suspect
stays until 54 V is lost (R288). -/
def execMrstGraceEnd (finds : BootFinds) (s : State) : Host.Outcome State Fault Refusal :=
  s.act (fun fu m =>
    if !m.powered || !m.power.grace then m
    else
      let suspect := m.odGet (odKey 0x7130 7)
      let m := m.keepLog
      let m := if m.power.mrstPin then m.cold { m.power.started .on with mrst := true, grace := false } else m.leaveReset fu finds
      m.odSet (odKey 0x7130 7) suspect)

/-- MRST_N_RELEASE: MRST_N rises. After the grace the boot ROM starts; a tripped module starts as a new power-up (R519). -/
def execMrstNRelease (finds : BootFinds) (s : State) : Host.Outcome State Fault Refusal :=
  s.act (fun fu m =>
    if !m.power.mrstPin then m
    else
      let m := { m with power := { m.power with mrstPin := false } }
      if m.power.phase = .tripped then { m with power := { m.power with phase := .precharge, thermtrip := false } }
      else if m.power.phase = .on && m.power.mrst then
        let suspect := m.odGet (odKey 0x7130 7)
        (m.leaveReset fu finds).odSet (odKey 0x7130 7) suspect
      else m)

/-- THERMAL_TRIP: a junction of a powered die reaches 115 °C (R519), its enable ended or not: THERMTRIP_N, the domains off, the
snapshot, then PWRGD falls.
DEDUCED (log entry 23): the snapshot shows the module as it stood when THERMTRIP_N was asserted. -/
def execThermalTrip (d : Nat) (celsius : Int) (s : State) : Host.Outcome State Fault Refusal :=
  s.actOn (d < 52) (fun _ m =>
    if !((m.die d).ready || (m.die d).enabled) || decide (celsius < 115) then m
    else
      let m := (m.onDie d (fun x => { x with tj := celsius })).snapshotTo 4 0 false
      m.cold { m.power.started .tripped with thermtrip := true, grace := false, mrst := false, outOfRange := false })

/-! ### The reference (R503) -/

/-- REFERENCE_LOSS: the reference has been absent or off frequency for 10 µs, and the PLLs hold. -/
def execReferenceLoss (ppm : Int) (s : State) : Host.Outcome State Fault Refusal :=
  s.actOn true (fun fu m =>
    if m.power.refState != 0 then m
    else { m with power := { m.power with refState := 1 } }.event fu 0x0206 [unsigned 64 ppm, 1])

/-- REFERENCE_RETURN. -/
def execReferenceReturn (s : State) : Host.Outcome State Fault Refusal :=
  s.actOn true (fun _ m => { m with power := { m.power with refState := 0 } })

/-- The blocks outside the management domain that are enabled. -/
def Module.enabledBlocks (m : Module) : Nat :=
  popCount (m.odGet (odKey 0x3020 1)) 52 - 1 + ((List.range 12).map (fun i => popCount (m.odGet (odKey 0x3030 (i + 1))) 32)).sum +
  popCount (m.odGet (odKey 0x4010 1)) 24 + popCount (m.odGet (odKey 0x5220 1)) 16 + m.odGet (odKey 0x6000 1)

/-! ### The loops (R504 to R510) -/

/-- The point of a die (R504): the slowest of the request, its thermal hold and the power hold. -/
def Module.dieTarget (m : Module) (d : Nat) : Nat := max (m.dieRequest d) (max (m.die d).thermalHold m.power.powerHold)

/-- An A point in MHz. -/
def pointMhz (p : Nat) : Nat := aPoints.getD p 1050

/-- The VCORE of a die at a point, in mV (R504, R544): its effective calibration, less the offset of a stress test (R488), through the
limiter, which holds every request at the fused ceiling of 0.88 V (R506). -/
def Module.vcoreAt (fu : Fuses) (m : Module) (d point : Nat) : Nat :=
  min 880 (m.calibInUse fu 2 (0x9100 + d) (point + 1) - (if m.stress.state = 0 then 0 else m.odGet (odKey 0x3120 11)))

/-- The VCORE that a die is at or ramps to (R505): that of its point after the divider stepped down, and of the faster point to come
before it steps up; none while the die is off. -/
def Module.vcore (fu : Fuses) (m : Module) (d : Nat) : Nat := if (m.die d).enabled then m.vcoreAt fu d (m.dieTarget d) else 0

/-- The junction regulation target of the compute dies in °C (R504), raised during a stress test and never above 99 (R488). -/
def Module.tjTarget (m : Module) : Nat := if m.stress.state = 0 then 85 else min 99 (85 + m.odGet (odKey 0x3120 12))

/-- The thermal hold of a die at a new point: events 0x0201 and 0x0202 tell a point that fell or rose with it (R521). -/
def Module.setThermalHold (fu : Fuses) (m : Module) (d hold : Nat) (tj : Int) : Module :=
  let old := m.dieTarget d
  let m := m.onDie d (fun x => { x with thermalHold := hold })
  let now := m.dieTarget d
  if old < now then m.event fu 0x0201 [d, unsigned 64 tj, pointMhz now]
  else if now < old then m.event fu 0x0202 [d, pointMhz now, 0] else m

/-- A sample at or above 100 °C: the hold steps down at the first and after each further 1 ms, and duty gating begins at 1.05 GHz
with 103 °C. -/
def Module.hotSample (fu : Fuses) (m : Module) (d : Nat) (tj : Int) : Module :=
  let x := m.die d
  let m := m.onDie d (fun x => { x with hotSamples := x.hotSamples + 1, coolSamples := 0 })
  let m := if x.hotSamples % 10 = 0 && decide (x.thermalHold < 4) then m.setThermalHold fu d (x.thermalHold + 1) tj else m
  if x.point = 4 && decide (103 ≤ tj) && !x.gating then
    (m.onDie d (fun x => { x with gating := true })).event fu 0x0203 [d, unsigned 64 tj, 0]
  else m

/-- A sample at or below 95 °C: after each 10 ms of them the gating ends, or the hold rises one point. DEDUCED (log entry 23): the run
that ends the gating does not also raise the hold. -/
def Module.coolSample (fu : Fuses) (m : Module) (d : Nat) (tj : Int) : Module :=
  let x := m.die d
  if x.coolSamples + 1 < 100 then m.onDie d (fun x => { x with hotSamples := 0, coolSamples := x.coolSamples + 1 })
  else
    let m := m.onDie d (fun x => { x with hotSamples := 0, coolSamples := 0 })
    if x.gating then m.onDie d (fun x => { x with gating := false })
    else if 0 < x.thermalHold then m.setThermalHold fu d (x.thermalHold - 1) tj else m

/-- JUNCTION_SAMPLE: the hottest sensor of a die (R507). An edge die slows the coil store channels that it carries. -/
def execJunctionSample (d : Nat) (celsius : Int) (s : State) : Host.Outcome State Fault Refusal :=
  s.actOn (d < 52) (fun fu m =>
    if !(m.die d).ready then m
    else
      let m := m.onDie d (fun x => { x with tj := celsius })
      if d < 48 then
        if 100 ≤ celsius then m.hotSample fu d celsius
        else if celsius ≤ 95 then m.coolSample fu d celsius
        else m.onDie d (fun x => { x with hotSamples := 0, coolSamples := 0 })
      else if 100 ≤ celsius && (d == 49 || d == 51) && !(m.die d).channelHalf then
        (m.onDie d (fun x => { x with channelHalf := true })).event fu 0x0203 [d, unsigned 64 celsius, 1]
      else if celsius ≤ 95 then m.onDie d (fun x => { x with channelHalf := false })
      else m)

/-- The power limit in force (R468). -/
def Module.powerLimit (m : Module) : Nat := if m.jobs.any (fun b => b.state == 3) then m.power.limit else m.odGet (odKey 0x2030 1)

/-- The power hold at a new point, its counts at 0 (R509). -/
def Module.setPowerHold (m : Module) (hold : Nat) : Module :=
  { m with power := { m.power with powerHold := hold, highCount := 0, lowCount := 0 } }

/-- FAST_POWER_WINDOW: the mean of 100 µs, in W and A. -/
def execFastPowerWindow (w a : Nat) (s : State) : Host.Outcome State Fault Refusal :=
  s.actOn true (fun fu m =>
    if (w ≤ 27000 && a ≤ 675) || decide (4 ≤ m.power.powerHold) then m
    else
      let m := m.setPowerHold 4
      { m with power := { m.power with currentHeld := decide (w ≤ 27000) } }.event fu 0x0204
        [w, m.odGet (odKey 0x2030 2), a, 1050])

/-- Ten windows above the limit (R509): one point down, or duty gating on every compute die. -/
def Module.powerDown (fu : Fuses) (m : Module) (w a mv : Nat) : Module :=
  let m := { m with power := { m.power with highCount := 0, currentHeld := decide (w ≤ m.powerLimit) } }
  if m.power.powerHold < 4 then (m.setPowerHold (m.power.powerHold + 1)).event fu 0x0204 [w, mv, a, pointMhz (m.power.powerHold + 1)]
  else if m.power.gating then m
  else
    { m with power := { m.power with gating := true } }.event fu 0x0203
      [0xFF, unsigned 64 (((m.dies.take 48).map Die.tj).foldl max ((m.die 0).tj)), 2]

/-- A hundred windows at or below 95% of the limit: the gating ends, or one point up. DEDUCED (log entry 23): not both at once. -/
def Module.powerUp (fu : Fuses) (m : Module) : Module :=
  let m := { m with power := { m.power with lowCount := 0 } }
  if m.power.gating then { m with power := { m.power with gating := false } }
  else if 0 < m.power.powerHold then (m.setPowerHold (m.power.powerHold - 1)).event fu 0x0202 [0xFF, pointMhz (m.power.powerHold - 1), 1]
  else m

/-- POWER_WINDOW: the mean of 1 ms in W and A, and the input in mV. -/
def execPowerWindow (w a mv : Nat) (s : State) : Host.Outcome State Fault Refusal :=
  s.actOn true (fun fu m =>
    let e := m.power.mj + w
    let m := ((m.odSet (odKey 0x2030 2) mv).odSet (odKey 0x2030 3) w)
    let m := if m.mgmt.reachable then m.bump (odKey 0x2030 4) (e / 1000) else m
    let limit := m.powerLimit
    let hi := if limit < w || 600 < a then m.power.highCount + 1 else 0
    let lo := if 100 * w ≤ 95 * limit && 100 * a ≤ 95 * 600 then m.power.lowCount + 1 else 0
    let m := { m with power := { m.power with highCount := hi, lowCount := lo, mj := e % 1000 } }
    if 10 ≤ hi then m.powerDown fu w a mv else if 100 ≤ lo then m.powerUp fu else m)

/-- DROOP: VCORE fell more than 40 mV below a die's target, and its cores that are not fenced stalled for `cycles` A-cycles (R508); a die
whose cores are all fenced has no stall to count (R24). The record carries what has gathered since the last one. -/
def execDroop (d mv cycles : Nat) (s : State) : Host.Outcome State Fault Refusal :=
  s.actOn (d < 48) (fun fu m =>
    if !(m.die d).ready || decide (mv ≤ 40) || decide (cycles < 16) || (List.range 8).all (fun i => (m.core (8 * d + i)).fenced) then m
    else
      let m := m.onDie d (fun x => { x with droopStalls := x.droopStalls + 1, deepestDroop := max x.deepestDroop mv })
      let n := m.event fu 0x0208 [d, (m.die d).deepestDroop, (m.die d).droopStalls]
      if n.log.nextSeq = m.log.nextSeq && n.mgmt.held.length = m.mgmt.held.length then n
      else n.onDie d (fun x => { x with droopStalls := 0, deepestDroop := 0 }))

/-- A_POINT_SWITCH: a die's divider switches to its point (R505). -/
def execAPointSwitch (d : Nat) (s : State) : Host.Outcome State Fault Refusal :=
  s.actOn (d < 48) (fun _ m => if (m.die d).ready then m.onDie d (fun x => { x with point := m.dieTarget d }) else m)

/-! ### Laser sources (R467, R529) -/

/-- OD 0x5230:01 laser_state of an input. -/
def Laser.state (l : Laser) : Nat :=
  if !l.present then 0
  else if !l.powered then l.last
  else if l.faultLow || l.dim then 3
  else if l.eolLow then 2
  else if 31623 ≤ l.uw then 1
  else l.last

/-- A laser source input changed: the state that it takes while powered is kept (R529). -/
def Module.onLaser (m : Module) (i : Nat) (f : Laser → Laser) : Module :=
  { m with lasers := modifyAt (fun l => let x := f l; if x.powered && x.present then { x with last := x.state } else x) m.lasers i }

/-- The ports that an input feeds go dark and are lost (R467). -/
def Module.darken (fu : Fuses) (m : Module) (i : Nat) : Module :=
  (List.range 8).foldl (fun (m : Module) k => m.losePort fu (8 * i + k)) m

/-- LS_FAULT: a source pulls LS_FAULT_N low. -/
def execLsFault (i : Nat) (s : State) : Host.Outcome State Fault Refusal :=
  s.actOn (i < 2) (fun fu m =>
    if !(m.lasers.getD i Laser.none).present then m
    else
      let m := m.onLaser i (fun l => { l with faultLow := true })
      if (m.lasers.getD i Laser.none).powered then m.darken fu i else m)

/-- LS_EOL: a source pulls LS_EOL_N low. An input in state 2 sets the laser reason. -/
def execLsEol (i : Nat) (s : State) : Host.Outcome State Fault Refusal :=
  s.actOn (i < 2) (fun fu m =>
    if !(m.lasers.getD i Laser.none).present then m
    else
      let m := m.onLaser i (fun l => { l with eolLow := true })
      let l := m.lasers.getD i Laser.none
      if l.state = 2 then m.reason fu 4 [i, l.uw] else m)

/-- LASER_POWER_LOW: a fibre of a powered input has been below +13.0 dBm, 19,953 µW, for 1 ms. -/
def execLaserPowerLow (i uw : Nat) (s : State) : Host.Outcome State Fault Refusal :=
  s.actOn (i < 2) (fun fu m =>
    let l := m.lasers.getD i Laser.none
    if !l.present || !l.powered || decide (19953 ≤ uw) then m
    else (m.onLaser i (fun l => { l with uw := uw, dim := true })).darken fu i)

/-- LS_PRESENT_N_CHANGE: a source is mated or unmated, with the module powered or not. Without it no fibre has light, and
its open-drain outputs are released. -/
def execLsPresentNChange (i : Nat) (present : Bool) (uw : Nat) (s : State) : Host.Outcome State Fault Refusal :=
  if i < 2 then s.act (fun fu m =>
    let l := m.lasers.getD i Laser.none
    if l.present = present then m
    else
      let m := m.onLaser i (fun l => { l with
        present := present, faultLow := false, eolLow := false, dim := false, uw := if present && l.powered then uw else 0 })
      if present || !m.powered then m else m.darken fu i)
  else .fault .noSuchUnit

/-! ### The field network's beacon and Capstan's restarts -/

/-- BEACON_LOSS: a module that is not node 0 has heard no beacon for 10 ms (R534). -/
def execBeaconLoss (s : State) : Host.Outcome State Fault Refusal :=
  s.actOn true (fun _ m => if m.power.node = 0 then m else { m with mgmt := { m.mgmt with beaconLost := true } })

/-- BEACON_RETURN. -/
def execBeaconReturn (s : State) : Host.Outcome State Fault Refusal :=
  s.actOn true (fun _ m => { m with mgmt := { m.mgmt with beaconLost := false } })

/-- Capstan is restarted from the running slot (R490): 1 a lockstep mismatch, 2 the watchdog. -/
def Module.restartCapstan (m : Module) (cause : Nat) : Module :=
  if !m.mgmt.capstanUp then m
  else
    let m := m.snapshotTo 2 0x0A06 true
    { m with mgmt := { m.mgmt with capstanUp := false, reachable := false, restartCause := cause } }

/-- WATCHDOG_EXPIRY. -/
def execWatchdogExpiry (s : State) : Host.Outcome State Fault Refusal := s.actOn true (fun _ m => m.restartCapstan 2)

/-- CAPSTAN_RESTART: the two management processors differ. -/
def execCapstanRestart (s : State) : Host.Outcome State Fault Refusal := s.actOn true (fun _ m => m.restartCapstan 1)

/-- The fence registers as one word (R453). -/
def Module.fenceWord (m : Module) : Nat := wordOf (fun g => (m.core g).fenced) 0 384

end Sys2Proof.Machine
end

