-- ==== Sys2Proof/Machine/Enable.lean ====
section
/-!
DEFINITION. What ends an enable: dies, stacks and cores (R26, R27, R87, R113, R148, R176, R372, R373, R486, R515); the twine
links (R22, R25); refresh, scrub, temperature and row repair of the stacks (R363 to R371); the fence registers and their
mirror (R23, R453, R455).
-/
namespace Sys2Proof.Machine

/-! ### Fences -/

/-- FENCE_REGISTER_SET: the register of a core whose unit asked for a fence is set (R23), the oldest report of a cluster
first (R22). -/
def execFenceRegisterSet (g : Nat) (s : State) : Host.Outcome State Fault Refusal :=
  s.actOn (g < 384) (fun fu m => if m.reportFirst g then m.applyFence fu g true else m)

/-- FENCE_MIRROR_REFRESH: Capstan reads every fence register and updates the mirror; one that has differed for too long is a
disagreement (R453, R455). -/
def execFenceMirrorRefresh (late : List Nat) (s : State) : Host.Outcome State Fault Refusal :=
  s.actOn true (fun fu m =>
    if !m.mgmt.capstanUp then m
    else
      let m := (late.filter (fun g => bitAt m.mgmt.mirror g != (m.core g).fenced)).foldl (fun (m : Module) g =>
        m.event fu 0x0390 [g, if (m.core g).fenced then 1 else 0, if bitAt m.mgmt.mirror g then 1 else 0]) m
      { m with mgmt := { m.mgmt with mirror := m.fenceWord } })

/-- A core fenced by hardware outside any job's work: it failed a test, or its die did. -/
def Module.fenceIdle (fu : Fuses) (m : Module) (g : Nat) : Module :=
  (m.onCore g (fun c => { c.stop 0 with fenced := true, origin := 1, ready := false, testing := false, bypass := false, fenceReq := none })).checkCores fu

/-- A dead link fences every core of the module, and every job ends with FENCED (R25). -/
def Module.fenceAll (fu : Fuses) (m : Module) : Module :=
  let held := (List.range 384).filter (fun g => (m.core g).job.isSome)
  let m := held.foldl (fun (m : Module) g => (List.range 384).foldl (fun (m : Module) h => m.endCopies fu g h) m) m
  let m := held.foldl (fun (m : Module) g =>
    (m.inFlight g ((m.core g).job.getD 0)).foldl (fun (m : Module) i => m.instrDone fu i stFenced) (m.movesEnded fu g stFenced)) m
  let m := { m with cores := m.cores.map (fun (c : Core) => { c.stop 0 with fenced := true, origin := 1, testing := false, bypass := false, fenceReq := none }) }
  ((List.range 16).foldl (fun (m : Module) j => m.endJob fu j stFenced) m).checkCores fu

/-! ### Twine links (R22, R25) -/

/-- The module with a twine link changed. -/
def Module.onLink (m : Module) (l : Nat) (f : Link → Link) : Module := { m with links := modifyAt f m.links l }

/-- A link at its number. -/
def Module.link (m : Module) (l : Nat) : Link := m.links.getD l Link.reset

/-- FLIT_CRC_ERROR: the flit is replayed; `again` tells a failed replay. -/
def execFlitCrcError (l : Nat) (again : Bool) (s : State) : Host.Outcome State Fault Refusal :=
  s.actOn (l < 114) (fun _ m => m.onLink l (fun x => { x with
    replays := x.replays + 1, failedRun := if again then x.failedRun + 1 else 0 }))

/-- Spare lanes that a direction of a link has left of its 4, after `lost` lane failures (R22). -/
def spareLanes (lost : Nat) : Nat := 4 - min 4 lost

/-- Lanes by which a direction runs short once its spares are used: its bandwidth falls in proportion (R22). -/
def lanesShort (lost : Nat) : Nat := lost - 4

/-- LINK_RETRAIN: after 16 consecutive failed replays, with an event that names the link and the dies that it joins (R22). -/
def execLinkRetrain (l : Nat) (s : State) : Host.Outcome State Fault Refusal :=
  s.actOn (l < 114) (fun fu m =>
    if (m.link l).failedRun < 16 then m
    else (m.onLink l (fun x => { x with retraining := true, failedRun := 0 })).event fu (computeEvent Config.retrainEvent) [l])

/-- LINK_RETRAIN_COMPLETE: a training of a link ends. Failed lanes are counted against the spares; a direction without a lane fences every
core (R25, R515). -/
def execLinkRetrainComplete (l fwd bwd : Nat) (dead : Bool) (s : State) : Host.Outcome State Fault Refusal :=
  s.actOn (l < 114) (fun fu m =>
    if !(m.link l).retraining then m
    else
      let m := m.onLink l (fun x => { x with retraining := false, lostFwd := x.lostFwd + fwd, lostBwd := x.lostBwd + bwd })
      let x := m.link l
      let m := if fwd + bwd = 0 then m
        else m.event fu (computeEvent Config.laneEvent) [l, spareLanes x.lostFwd, spareLanes x.lostBwd, lanesShort x.lostFwd, lanesShort x.lostBwd]
      if dead then (m.onLink l (fun x => { x with dead := true })).fenceAll fu else m)

/-! ### Dies -/

/-- The VCORE stage of a die's enable fails where its calibration group does (R545). -/
def dieStage (fu : Fuses) (d stage : Nat) : Nat :=
  if stage = 0 && decide (d < 48) && fu.badGroups.contains (0x9100 + d) then 1 else stage

/-- The ports of an edge die that OD 0x5220:01 lights begin to train as the die comes into service (R26, R317). -/
def Module.lightPorts (m : Module) (d : Nat) : Module :=
  (List.range 4).foldl (fun (m : Module) i =>
    let n := 4 * (d - 48) + i
    if bitAt (m.odGet (odKey 0x5220 1)) n && (m.hawser n).state == 0 then m.onHawser n (fun _ => { Hawser.reset with state := 1 })
    else m) m

/-- DIE_ENABLE_COMPLETE: the die enters die_ready at 1.05 GHz with its calibration (R543), or its cores are fenced (R27, R515). -/
def execDieEnableComplete (d stage : Nat) (router : Bool) (s : State) : Host.Outcome State Fault Refusal :=
  s.actOn (d < 52) (fun fu m =>
    if !(m.die d).enabled || (m.die d).ended then m
    else
      let st := dieStage fu d stage
      let m := (m.latchAll (dieCalib d)).onDie d (fun x => { x with
        ended := true, ready := decide (st = 0), answering := decide (st = 0), failStage := st, routerFailed := router, point := 4 })
      let m := if st = 0 then m else
        (if d < 48 then (List.range 8).foldl (fun (m : Module) i => m.fenceIdle fu (8 * d + i)) m else m).event fu 0x0209 [d, st]
      if router then ((linksOf d).foldl (fun (m : Module) l => m.onLink l (fun x => { x with dead := true })) m).fenceAll fu
      else if st = 0 && decide (48 ≤ d) then m.lightPorts d
      else m)

/-! ### Stacks -/

/-- The memory of a stack reads as zero, without poison (R372). -/
def Module.zeroStack (m : Module) (p : Nat) : Module :=
  { m with hbm := m.hbm.filter (fun c => (hbmPlace c.1).stack != p),
           hbmPoison := m.hbmPoison.filter (fun g => (hbmPlace (32 * g)).stack != p),
           bursts := m.bursts.filter (fun b => (hbmPlace (32 * b.granule)).stack != p) }

/-- A lane that the lane check finds is marked, unless two are (R359, R372). -/
def Module.markLane (fu : Fuses) (m : Module) (p pc sym : Nat) : Module :=
  let w := (m.stack p).marked pc
  if bitAt w sym then m
  else if popCount w 36 < 2 then
    ((m.onStack p (fun t => { t with marks := t.marks.set pc (setBit w sym) })).judgeErrors p pc).event fu 0x0401 [p, pc, sym]
  else m.event fu 0x0402 [p, pc, sym]

/-- STACK_ENABLE_COMPLETE. -/
def execStackEnableComplete (p stage pc lanes : Nat) (tackle : Option Nat) (marks : List (Nat × Nat)) (rows : List (Nat × Nat × Nat))
    (s : State) : Host.Outcome State Fault Refusal :=
  s.actOn (p < 24) (fun fu m =>
    let t := m.stack p
    if !t.enabled || t.ready || t.failed then m
    else if stage != 0 then
      ((m.onStack p (fun t => { t with failed := true })).event fu 0x0408 [p, stage, pc, lanes]).reason fu 1 [p, stage]
    else
      let m := ((m.zeroStack p).latchAll (stackCalib p)).onStack p (fun t => { t with
        ready := true, marks := [], laneRows := [], rowErrors := [], share := 64, warm := false, hot := false, stopped := false })
      let m := marks.foldl (fun (m : Module) x => m.markLane fu p x.1 x.2) m
      let m := rows.foldl (fun (m : Module) x => m.flagHbmRow fu p x.1 x.2.1 x.2.2 4) m
      match tackle with
      | none => m
      | some n => (m.odSet (odKey 0x7130 7) (setBit (m.odGet (odKey 0x7130 7)) p)).event fu 0x0734 [p, n])

/-- The addresses of the 32 granules of a row. -/
def rowGranules (p pc bank row : Nat) : List Nat :=
  (List.range 32).map (fun k => hbmAddr { stack := p, pc := pc, bank := bank, row := row, granule := k })

/-- The row read granule by granule, decoded and written into its spare: an uncorrectable granule stays with poison (R369). -/
def Module.copyRow (fu : Fuses) (m : Module) (p pc bank row : Nat) : Module :=
  let as := rowGranules p pc bank row
  let m := m.hbmReads fu 0xFF (as.map (fun a => (a, 32)))
  { m with bursts := m.bursts.filter (fun b => !as.contains (32 * b.granule)) }

/-- ROW_REPAIR_COMPLETE: the spare of the bank is taken and holds the row (R369); a stack with two banks at no spare asks for
replacement (R370). -/
def execRowRepairComplete (p pc bank row : Nat) (s : State) : Host.Outcome State Fault Refusal :=
  s.actOn (p < 24 && pc < 32 && bank < 32 && row < 65536) (fun fu m =>
    let key := rowKey pc bank row
    match (m.stack p).repairing.find? (fun r => r / 8 == key) with
    | none => m
    | some r =>
      let m := (m.copyRow fu p pc bank row).onStack p (fun t => { t with
        repairing := t.repairing.filter (fun x => x / 8 != key), sparesUsed := t.sparesUsed.add (32 * pc + bank) 1,
        rowErrors := t.rowErrors.filter (fun e => e.1 / 64 != key) })
      let m := (m.bump (odKey 0x4020 7) 1).event fu 0x0406 [p, pc, bank, row, r % 8, (m.stack p).sparesLeft pc bank]
      if 2 ≤ (m.stack p).emptyBanks && (m.stack p).sparesLeft pc bank == 0 then m.reason fu 1 [p, (m.stack p).emptyBanks] else m)

/-- DRAM_REFRESH: a pseudo-channel refreshes; nothing is written (R363). -/
def execDramRefresh (p pc : Nat) (s : State) : Host.Outcome State Fault Refusal :=
  s.actOn (p < 24 && pc < 32) (fun _ m =>
    if (m.stack p).ready then m.onStack p (fun t => { t with refreshes := t.refreshes + 1 }) else m)

/-- The module address of the scrubber's granule `k` of stack S(p): pseudo-channel first, then along a row. -/
def scrubAddr (p k : Nat) : Nat :=
  hbmAddr { stack := p, pc := k % 32, granule := k / 32 % 32, bank := k / 1024 % 32, row := k / 32768 % 65536 }

/-- The scrubber's read of a granule: one that the decoder corrects, rightly or not, is written back without its errors (R371). -/
def Module.scrub (fu : Fuses) (m : Module) (a : Nat) : Module :=
  let fixed := m.bursts.any (fun b => b.granule == a / 32 && b.kind != 2)
  let m := m.hbmReads fu 0xFF [(a, 32)]
  if fixed then { m.bump (odKey 0x4020 8) 1 with bursts := m.bursts.filter (fun b => b.granule != a / 32) } else m

/-- PATROL_SCRUB: the scrubber reads its next granule, in whose codeword errors at `symbols` stand by then, and writes back one that it
corrects (R371). -/
def execPatrolScrub (p : Nat) (symbols : List Nat) (s : State) : Host.Outcome State Fault Refusal :=
  s.actOn (p < 24) (fun fu m =>
    let t := m.stack p
    if !t.ready || t.stopped then m
    else ((m.addErrors (scrubAddr p t.scrubAt) symbols).scrub fu (scrubAddr p t.scrubAt)).onStack p (fun t => { t with scrubAt := (t.scrubAt + 1) % 2 ^ 31 }))

/-! ### Cores -/

/-- The spares that the REPAIR records of a unit name, by bank (R112, R113). -/
def Coil.sparesOf (c : Coil) (kind unit : Nat) : NatMap :=
  ((c.repairRecs ++ c.repairQueue).filter (fun w => field w 56 8 == kind && field w 39 9 == unit)).foldl
    (fun (t : NatMap) w => t.add (field w 33 6) 1) []

/-- The repair maps of a core and its cluster applied at its enable: each spare replaces its row outright, and the error counts
start again (R110, R113). Contents of the memories are lost to the march test, and those of the weight registers and accumulators
are undefined: free values under a fresh number (R88). -/
def Module.applyRepair (m : Module) (g : Nat) : Module :=
  let th := m.odGet (odKey 0x4200 7)
  let sp := m.store.sparesOf 1 g
  let cm := m.store.sparesOf 2 (clusterOf g)
  let m := m.nextFree.onCore g (fun c => { c with
    weights := { shadow := [], working := [] }, accums := [], undefNo := m.freeNo,
    mem := { sp := [], poison := [], full := [], rowErrors := [], statErrors := [], sparesUsed := sp, pending := [], threshold := th, pages := [] } })
  m.onCluster (clusterOf g) (fun k => { k with rowErrors := [], sparesUsed := cm, pending := [], threshold := th })

/-- The event of a failed core enable (R91, R151, R178, R497). -/
def Module.enableFailed (fu : Fuses) (m : Module) (g : Nat) : EnableFail → Module
  | .pass => m
  | .array a n => m.event fu 0x0313 [g, a, n]
  | .splice n => m.event fu 0x0323 [g, n]
  | .row n => m.event fu 0x0332 [g, n]
  | .reference t => m.event fu 0x0394 [g, t, 0]

/-- Whether a core's tests pass: the reference step counts only while it is enabled (R486). -/
def Module.enablePasses (m : Module) : EnableFail → Bool
  | .pass => true
  | .reference _ => m.odGet (odKey 0x3120 9) == 0
  | _ => false

/-- CORE_ENABLE_COMPLETE: a core being enabled, or tested again after a fence (R454), enters core_ready and the pool, or is
fenced with origin hardware. A core that core_enable does not enable is unfenced by its test and stays out of core_ready. DESIGN CHOICE
(log entry 23): R113 does not say whether rows that fail the march test are flagged when another test of the enable fails; they are
flagged only when it passes. -/
def execCoreEnableComplete (g : Nat) (fail : EnableFail) (march : List MarchRow) (s : State) : Host.Outcome State Fault Refusal :=
  s.actOn (g < 384) (fun fu m =>
    let c := m.core g
    if !((c.enabled && !c.ready && !c.fenced) || c.testing) then m
    else
      let again := c.testing
      let m := m.applyRepair g
      let pass := m.enablePasses fail
      let m := if pass then m.onCore g (fun c => { c with ready := c.enabled, fenced := false, origin := 0, testing := false, bypass := false, fenceReq := none })
        else (m.fenceIdle fu g).enableFailed fu g fail
      let m := if pass then march.foldl (fun (m : Module) r =>
        if r.cluster then m.flagCmRow fu (clusterOf g) r.bank r.row 4 else m.flagSpRow fu g r.bank r.row 4) m else m
      let m := if again then m.event fu 0x0391 [g, if pass then 0 else 1] else m
      { m with mgmt := { m.mgmt with mirror := putBit m.mgmt.mirror g (m.core g).fenced } })

end Sys2Proof.Machine
end

