-- ==== Sys2Proof/Machine/Flash.lean ====
section
/-!
DEFINITION. The coil store's own work: REPAIR updates (R397), mount and unmount (R411), the retention scan (R407), static
levelling (R405, R406), garbage collection (R409), failed dies (R404), and the copies of Logline and the format record (R465,
R492, R493, R495).
-/
namespace Sys2Proof.Machine

/-! ### The system area -/

/-- The spare that a flag took is free again, its record not having been written. -/
def Module.giveBack (m : Module) (w : Nat) : Module :=
  let less := fun (t : NatMap) => t.set (field w 33 6) (t.get (field w 33 6) - 1)
  if field w 56 8 = 1 then m.onCore (field w 39 9) (fun c => { c with mem := { c.mem with sparesUsed := less c.mem.sparesUsed } })
  else m.onCluster (field w 39 9) (fun c => { c with sparesUsed := less c.sparesUsed })

/-- REPAIR_UPDATE: the page with the next record is appended to the copies in turn, from the copy on die 0 on; `copies` of them can be
written. The update is complete when two hold it (R397). Otherwise the row is treated as one without a spare, and a page written on
die 0 alone stays there. -/
def execRepairUpdate (copies : Nat) (s : State) : Host.Outcome State Fault Refusal :=
  s.actOn true (fun fu m =>
    match m.store.repairQueue with
    | [] => m
    | w :: rest =>
      let n := min 4 copies
      let m := m.onStore (fun c => { c with repairQueue := rest })
      let page := fun (c : Coil) => ({ gen := c.repairGen + 1, recs := c.repairRecs ++ [w] } : RepairPage)
      let m := m.onStore (fun c => { c with
        repairGen := c.repairGen + (if n = 0 then 0 else 1),
        repairCopies := c.repairCopies.zipIdx.map (fun x => if x.2 < n then x.1.append (page c) else x.1) })
      if n < 2 then
        ((m.giveBack w).event fu 0x0604 [m.store.repairRecs.length + 1, n]).noSpare fu (field w 56 8) (field w 39 9) (field w 33 6) (field w 23 10)
      else (m.onStore (fun c => { c with repairRecs := c.repairRecs ++ [w] })).startRemap fu w)

/-- FORMAT_RECORD_UPDATE: once a minute the format record takes power_cycles and operating_seconds (R465); the minute of event
0x0104 ends too (R450). -/
def execFormatRecordUpdate (s : State) : Host.Outcome State Fault Refusal :=
  s.actOn true (fun _ m =>
    let m := m.odSet (odKey 0x1018 10) (min (m.odGet (odKey 0x1018 10) + 60) (2 ^ 40 - 1))
    let m := (m.save (odKey 0x1018 9)).save (odKey 0x1018 10)
    { m with mgmt := { m.mgmt with dropEventHeld := false } })

/-- LOGLINE_TOKEN: a code's bucket gains a token (R492). -/
def execLoglineToken (code : Nat) (s : State) : Host.Outcome State Fault Refusal :=
  s.actOn (code < 65536) (fun _ m =>
    if !m.mgmt.capstanUp then m
    else { m with log := { m.log with spent := m.log.spent.set code (m.log.spent.get code - 1) } })

/-- A recorder fault (R495): the snapshot, the ring rebuilt empty, event 0x0804, and the records lost counted for the record
0x0801 that follows. -/
def Module.recorderFault (fu : Fuses) (m : Module) (off : Nat) : Module :=
  let m := m.snapshotTo 3 0x0804 true
  let n := m.log.ring.length
  let m := { m with log := { m.log with ring := [] } }.event fu 0x0804 [off]
  { m with log := { m.log with lost := m.log.lost + n } }

/-- LOG_COPY: Capstan copies the accepted records to the LOG partition while the store is MOUNTED (R493); the copy is programmed into the
superblock open for object writes, whose flaws it meets (R403). -/
def execLogCopy (bad : Option Nat) (s : State) : Host.Outcome State Fault Refusal :=
  s.actOn true (fun fu m =>
    if !m.mgmt.capstanUp then m
    else
      match bad with
      | some off => m.recorderFault fu off
      | none =>
        if m.coilState = 2 then
          Module.meetFlaws fu (fun c s => !m.log.ring.isEmpty && c.openObj == some s) (fun _ _ => false) m.store.flaws.length m.copyToPart
        else m)

/-! ### Mount (R411) -/

/-- Whether two dies of one parity group have failed (R404). -/
def Coil.groupLost (c : Coil) : Bool := (List.range 4).any (fun k => decide (2 ≤ c.failedDies.countP (fun d => d / 16 == k)))

/-- Every superblock with live extents that was formed with a failed die is relocated (R404). -/
def Module.leaveDies (m : Module) : Module :=
  (superblocks.filter (fun s => decide (0 < m.store.live s) && (List.range 4).any (fun k => !(m.store.failedIn s k).isEmpty))).foldl
    (fun (m : Module) s => m.relocate s) m

/-- COIL_MOUNT_COMPLETE: the journal is replayed, or cannot be read. The pre-mount log enters the LOG partition ahead of newer
records, and superblocks that still hold a failed die are relocated. -/
def execCoilMountComplete (ok : Bool) (s : State) : Host.Outcome State Fault Refusal :=
  s.actOn true (fun fu m =>
    if m.coilState != 1 then m
    else if !ok then (m.odSet (odKey 0x6000 2) 4).event fu 0x060B [1]
    else
      let c := m.store
      let ro := c.groupLost || decide (c.spare * 200 < dataBlocks)
      let m := { m with log := { m.log with part := fitBytes (2048 * extentBytes) (m.log.part ++ m.log.premount), premount := [] } }
      let m := (m.odSet (odKey 0x6000 2) (if ro then 3 else 2)).onStore (fun c => { c with catchUp := true })
      if ro then m.event fu 0x0609 [if c.groupLost then 1 else 0]
      else if c.failedDies.isEmpty then m
      else m.leaveDies.afterWork fu c)

/-- COIL_UNMOUNT: writes in progress have completed, and the store is unmounted. -/
def execCoilUnmount (s : State) : Host.Outcome State Fault Refusal :=
  s.actOn true (fun _ m =>
    if !m.store.unmountAsked || !m.store.writing.isEmpty then m
    else
      let m := (m.save (odKey 0x1018 9)).save (odKey 0x1018 10)
      (m.odSet (odKey 0x6000 2) 0).onStore (fun c => { c with unmountAsked := false, catchUp := false }))

/-! ### Background work -/

/-- Event 0x0605: a superblock's live extents are copied into a new one (R407). -/
def Module.rewriteSuper (fu : Fuses) (m : Module) (s worst : Nat) : Module :=
  let close := fun (o : Option Nat) => if o = some s then none else o
  let m := m.onStore (fun c => { c with openObj := close c.openObj, openRel := close c.openRel })
  ((m.relocate s).bump (odKey 0x6020 10) 1).event fu 0x0605 [s, worst]

/-- The copy of the REPAIR partition whose latest page is the newest. -/
def Coil.newestRepair (c : Coil) : Option RepairCopy :=
  c.repairCopies.foldl (fun (best : Option RepairCopy) k =>
    match best with
    | none => some k
    | some b => if b.latest < k.latest then some k else some b) none

/-- A block of the system area rewritten in place from its other copy or its parity (R407): a REPAIR copy takes the pages of the newest;
what the other blocks hold is held once here, with its copies. Its bytes are programmed; it is no superblock. -/
def Module.rewriteSystem (m : Module) (die block : Nat) : Module :=
  let m := m.bump (odKey 0x6020 13) (slcPages * pageBytes)
  if die % 9 = 0 && decide (die ≤ 27) && decide (block < 2) then
    m.onStore (fun c => { c with repairCopies := match c.newestRepair with
      | none => c.repairCopies
      | some k => modifyAt (fun _ => k) c.repairCopies (die / 9) })
  else m

/-- Pages of the data blocks: those of 64 blocks in each of the superblocks. -/
def scanData : Nat := (dieBlocks - systemBlocks) * tlcPages * 64

/-- Pages of a pass of the scan: those of the data blocks, then those of the system-area blocks of every die. -/
def scanPages : Nat := scanData + systemBlocks * slcPages * 64

/-- The block that page `n` of a pass lies in. -/
def scanBlock (n : Nat) : Nat := if n < scanData then systemBlocks + n / (64 * tlcPages) else (n - scanData) / (64 * slcPages)

/-- A page that needed soft-decision decoding twice in one pass costs its block (R403). -/
def Module.softDecoded (fu : Fuses) (m : Module) (die block : Nat) : Module :=
  let k := blockKey die block
  if m.store.softSeen.contains k then m.retireBlock fu die block 3
  else m.onStore (fun c => { c with softSeen := c.softSeen ++ [k] })

/-- RETENTION_SCAN: the scanner reads its next page. A rewrite waits for no pin, no quota and no write of objects (R407). -/
def execRetentionScan (corrected retry : Nat) (ups : List FlashUpset) (s : State) : Host.Outcome State Fault Refusal :=
  s.actOn true (fun fu m =>
    if !m.storeReads then m
    else
      let n := m.store.scanAt
      let die := n % 64
      let sb := scanBlock n
      let old := m.store
      let m := m.programs fu ups
      let m := if retry = 2 then m.softDecoded fu die sb else m
      let m := if !(decide (m.odGet (odKey 0x6020 16) < corrected) || decide (0 < retry)) then m
        else if sb < systemBlocks then m.rewriteSystem die sb
        else (m.rewriteSuper fu sb corrected).afterWork fu old
      let last := n + 1 == scanPages
      m.onStore (fun c => { c with
        scanAt := if last then 0 else n + 1, softSeen := if last then [] else c.softSeen, catchUp := c.catchUp && !last }))

/-- STATIC_LEVELLING: the coldest superblock's data moves onto the most worn free superblock (R405). -/
def execStaticLevelling (s : State) : Host.Outcome State Fault Refusal :=
  s.actOn true (fun fu m =>
    if m.coilState != 2 then m
    else
      let m := m.judgePins fu
      if m.store.spread ≤ m.odGet (odKey 0x6020 14) then m
      else
        let movable := m.store.closedLive.filter (fun s => m.store.pinsOverridden || (m.pinnedIn s).isEmpty)
        match leastBy m.store.pe.get movable, leastBy (fun s => 2 ^ 32 - m.store.pe.get s) (superblocks.filter m.store.isFree) with
        | some cold, some worn =>
          ((((m.onStore (fun c => c.openAt true worn)).relocate cold).checkStore fu m.store)).afterWork fu m.store
        | _, _ => m)

/-- GARBAGE_COLLECTION: the closed superblock with stale extents and the fewest live ones is reclaimed. -/
def execGarbageCollection (ups : List FlashUpset) (s : State) : Host.Outcome State Fault Refusal :=
  s.actOn true (fun fu m =>
    if m.coilState != 2 then m
    else
      let c := m.store
      let stale := superblocks.filter (fun s => c.openObj != some s && c.openRel != some s && decide (0 < c.live s) &&
        decide (c.live s < c.written.get s))
      match leastBy c.live stale with
      | none => m
      | some sb => (((m.relocate sb).programs fu ups).checkStore fu c).afterWork fu c)

/-- NAND_DIE_FAILURE: the die is served from its stripes, its superblocks are relocated while the store is MOUNTED, and its blocks leave
the spares; a second die of a parity group makes every stripe unrecoverable that includes both, and the store READ_ONLY (R404). -/
def execNandDieFailure (die cause : Nat) (s : State) : Host.Outcome State Fault Refusal :=
  s.actOn (die < 64) (fun fu m =>
    if m.store.failedDies.contains die || decide (1 < cause) ||
        (cause == 1 && decide (m.store.bad.countP (fun b => b / 16384 == die) < 64)) then m
    else
      let old := m.store
      let m := m.onStore (fun c => { c with failedDies := c.failedDies ++ [die], openObj := none, openRel := none })
      let m := m.losePages fu
      let m := if m.coilState = 2 then m.leaveDies else m
      let m := m.event fu 0x060A [die, cause]
      let m := if m.store.groupLost && m.coilState == 2 then (m.odSet (odKey 0x6000 2) 3).event fu 0x0609 [1] else m
      (m.checkStore fu old).afterWork fu old)

end Sys2Proof.Machine
end

