-- ==== Sys2Proof/Machine/Experts.lean ====
section
/-!
DEFINITION. Experts (R327 to R330, R334 to R338, R341): the dispatch build of a router, the fetch of a paged expert with the
evictions it needs, and the pages that a fetch brings in.
-/
namespace Sys2Proof.Machine

/-! ### The dispatch build -/

/-- The lists of R327: the placed pairs of each expert in ascending q, how many were routed to each, and the pairs dropped. -/
structure Dispatch where
  placed : List (Nat × Nat)
  routed : NatMap
  dropped : Nat
  firstFull : Option Nat
  deriving DecidableEq, Repr

/-- The sequential rule of R327 over the index row: none where an index names no expert of the router. -/
def dispatchFrom (span cap : Nat) : Nat → List Int → Dispatch → Option Dispatch
  | _, [], d => some d
  | q, v :: vs, d =>
    if v < 0 then dispatchFrom span cap (q + 1) vs d
    else
      let i := v.toNat
      if span ≤ i then none
      else
        let full := decide (cap ≤ d.routed.get i)
        dispatchFrom span cap (q + 1) vs
          { placed := if full then d.placed else d.placed ++ [(i, q)], routed := d.routed.add i 1,
            dropped := if full then d.dropped + 1 else d.dropped,
            firstFull := if full && d.firstFull.isNone then some i else d.firstFull }

/-- The list order of R327: by expert, then by q. -/
def Dispatch.list (d : Dispatch) (span : Nat) : List Nat :=
  (List.range span).flatMap (fun e => (d.placed.filter (fun p => p.1 == e)).map Prod.snd)

/-- count[e]. -/
def Dispatch.count (d : Dispatch) (e : Nat) : Nat := d.placed.countP (fun p => p.1 == e)

/-- row_start[e] of each expert, from a start. -/
def rowStarts : Nat → List Nat → List Nat
  | _, [] => []
  | n, c :: cs => n :: rowStarts (n + c) cs

/-- An instantiation that stands for a die controller's own accesses to a job's buffers. -/
def controllerInst (j core : Nat) : Inst := { job := j, core := core, index := 0, words := [], entry := none }

/-- A buffer of a job, as the die controllers read it. -/
def Module.bufOperand (m : Module) (j buf : Nat) : Option Operand :=
  m.operand (controllerInst j ((m.job j).cores.headD 0)) (buf * 2 ^ 18) false 0

/-- The index [slot, token] of pair q of an index row of k slots (R164). -/
def pairIndex (k q : Nat) : List Nat := [q % k, q / k]

/-- The dispatch area of a router (R328) as pieces of (offset within it, bytes). -/
def Dispatch.area (d : Dispatch) (span k planRows width : Nat) (gate : Nat → Nat) : List (Nat × List Byte) :=
  let counts := (List.range span).map d.count
  let qs := d.list span
  let a1 := 64 * ceilDiv (4 * (span + 1)) 64
  let a2 := 2 * a1
  let a3 := a2 + 64 * ceilDiv (4 * (planRows * k)) 64
  let a4 := a3 + 64 * ceilDiv (4 * (planRows * k)) 64
  [(0, counts.flatMap (leBytes 4) ++ leBytes 4 qs.length), (a1, (rowStarts 0 counts).flatMap (leBytes 4)),
   (a2, qs.flatMap (fun q => leBytes 4 (q / k))), (a3, qs.flatMap (leBytes 4)), (a4, qs.flatMap (fun q => leBytes width (gate q)))]

/-- The bytes of a router's dispatch area (R328). -/
def Router.areaBytes (r : Router) (width : Nat) : Nat :=
  let n := r.rows.plan * (r.kM1 + 1)
  2 * (64 * ceilDiv (4 * (r.span + 1)) 64) + 2 * (64 * ceilDiv (4 * n) 64) + 64 * ceilDiv (width * n) 64

/-- A build that ends without its area: event 0x0351 and the step is abandoned with a status (R329, R203), or the job ends with POISON.
DESIGN CHOICE (log entry 23): no core and no instruction issues a build, so the record names the job's first core and the router's index
buffer. -/
def Module.buildFails (fu : Fuses) (m : Module) (j : Nat) (r : Router) (status value plan : Nat) : Module :=
  if status = stPoison then m.endJob fu j stPoison
  else (m.event fu 0x0351 [j, (m.job j).cores.headD 0, r.idxBuf, 0, status, value, plan]).abandonStep fu j status

/-- The experts above count 0 requested in ascending index (R336). -/
def Module.askCounted (m : Module) (j : Nat) (r : Router) (d : Dispatch) : Module :=
  ((List.range r.span).filter (fun e => decide (0 < d.count e))).foldl (fun (m : Module) e => m.askFetch j (r.expertBase + e)) m

/-- Event 0x0370 of a build that dropped pairs, once per router and step (R329). -/
def Module.tellDropped (fu : Fuses) (m : Module) (j n : Nat) (d : Dispatch) : Module :=
  if (m.job j).run.overfull.contains n then m
  else (m.onRun j (fun x => { x with overfull := x.overfull ++ [n] })).event fu 0x0370 [j, n, d.firstFull.getD 0, d.dropped]

/-- The HBM byte ranges of a router's index or gate rows. -/
def Module.routerRanges (m : Module) (o : Operand) (k rows : Nat) : List (Nat × Nat) :=
  if o.buf.space != 2 then []
  else ((List.range (rows * k)).filter (fun q => o.inExtent (pairIndex k q))).map (fun q =>
    (m.physAddr o.job o.core 2 (o.addr (o.byteOff (o.elemOff (pairIndex k q)))), ceilDiv o.fmt.bits 8))

/-- The reads of a router's index and gate rows from HBM, a row of a token that lies in one granule on the narrow path (R361,
R363). -/
def Module.routerReads (fu : Fuses) (m : Module) (o : Operand) (k rows : Nat) : Module :=
  if o.buf.space != 2 then m
  else
    let w := ceilDiv o.fmt.bits 8
    let at_ := fun q => m.physAddr o.job o.core 2 (o.addr (o.byteOff (o.elemOff (pairIndex k q))))
    let toks := (List.range rows).filter (fun t =>
      let gs := (List.range k).flatMap (fun s => granules (at_ (k * t + s)) w)
      gs.all (fun g => some g == gs.head?))
    (m.hbmReads fu o.job (m.routerRanges o k rows)).narrowReads toks.length

/-- The HBM byte ranges of the shape words that a build reads: its target and its rows (R327). -/
def Module.routerShapes (m : Module) (j : Nat) (r : Router) : List (Nat × Nat) :=
  let b := m.job j
  ([r.startTarget, r.rows].filter (fun s => s.src == 2)).map (fun s => (b.hbmBase + b.boundValue s.slot, 4))

/-- The build of router `n` over R rows. -/
def Module.build (fu : Fuses) (m : Module) (j n rows : Nat) (r : Router) (idx gate : Operand) : Module :=
  let k := r.kM1 + 1
  let qs := List.range (rows * k)
  let m := (m.routerReads fu idx k rows).routerReads fu gate k rows
  if qs.any (fun q => m.getPoison idx (pairIndex k q) || m.getPoison gate (pairIndex k q)) then m.buildFails fu j r stPoison 0 0
  else
    let vals := qs.map (fun q => if idx.inExtent (pairIndex k q) then signed 32 (m.codeAt idx (idx.elemOff (pairIndex k q))) else -1)
    match dispatchFrom r.span r.cap 0 vals { placed := [], routed := [], dropped := 0, firstFull := none } with
    | none => m.buildFails fu j r stBadIndex ((vals.find? (fun v => decide ((r.span : Int) ≤ v))).getD 0).toNat r.span
    | some d =>
      let parts := d.area r.span k r.rows.plan (gate.fmt.bits / 8) (fun q => m.codeAt gate (gate.elemOff (pairIndex k q)))
      let m := parts.foldl (fun (m : Module) p => m.storeAt j 0 2 (r.dispatchBase + p.1) p.2 false) m
      let m := ((m.bump (odKey 0x3250 2) 1).bump (odKey 0x3250 1) d.dropped).onRun j (fun x =>
        { x with dispatched := x.dispatched ++ [n], signals := x.signals ++ [r.doneCtr] })
      let m := if d.dropped = 0 then m else m.tellDropped fu j n d
      m.askCounted j r d

/-- DISPATCH_BUILD: the router's counter has reached its target in this step attempt. -/
def execDispatchBuild (j router : Nat) (s : State) : Host.Outcome State Fault Refusal :=
  s.actOn (j < 16) (fun fu m =>
    let b := m.job j
    match b.prog.experts.bind (fun x => x.routers[router]?) with
    | none => m
    | some r =>
      let due := match m.shape j 0 r.startTarget with
        | .val t => decide (t ≤ b.counter r.startCtr)
        | _ => true
      if b.state != 3 || !b.run.active || b.run.mustReplay.isSome || b.run.dispatched.contains router || !due then m
      else
        match m.shape j 0 r.startTarget, m.shape j 0 r.rows, m.bufOperand j r.idxBuf, m.bufOperand j r.gateBuf with
        | .val t, .val rows, some idx, some gate =>
          let k := r.kM1 + 1
          let stops := m.routerShapes j r ++ m.routerRanges idx k rows ++ m.routerRanges gate k rows ++
            [(b.hbmBase + r.dispatchBase, r.areaBytes (gate.fmt.bits / 8))]
          let read := (m.routerShapes j r).foldl (fun (m : Module) x => m.request fu j x.1 x.2) m
          if (m.stoppedIn stops).isSome then m
          else if r.startTarget.plan < t then read.buildFails fu j r stShape t r.startTarget.plan
          else if r.rows.plan < rows then read.buildFails fu j r stShape rows r.rows.plan
          else read.build fu j router rows r idx gate
        | .denied, _, _, _ => m.buildFails fu j r stDenied (b.boundValue r.startTarget.slot) r.startTarget.plan
        | _, .denied, _, _ => m.buildFails fu j r stDenied (b.boundValue r.rows.slot) r.rows.plan
        | .poisoned, _, _, _ => ((m.routerShapes j r).foldl (fun (m : Module) x => m.request fu j x.1 x.2) m).buildFails fu j r stPoison 0 0
        | _, .poisoned, _, _ => ((m.routerShapes j r).foldl (fun (m : Module) x => m.request fu j x.1 x.2) m).buildFails fu j r stPoison 0 0
        | _, _, _, _ => m)

/-! ### Fetches (R336, R337) -/

/-- The experts that a job's pool holds (R334). -/
def Experts.capacity (x : Experts) : Nat := x.frameCount / max 1 x.pageCount

/-- The residency entries of a job, by table entry. -/
def Module.entriesOf (m : Module) (j : Nat) : List (Nat × Residency) := m.residency.filter (fun r => r.2.job == j)

/-- A run of frames that no entry of the job holds: the lowest multiple of the pages of an expert. -/
def Module.freeRun (m : Module) (j : Nat) (x : Experts) : Option Nat :=
  ((List.range x.capacity).map (· * x.pageCount)).find? (fun f =>
    (m.entriesOf j).all (fun r => r.2.state == 0 || r.2.frame != f))

/-- The entry that an eviction takes (R337): RESIDENT, unpinned, without readers, with the smallest last_use; the lower table
entry on a tie. -/
def Module.victim (m : Module) (j : Nat) : Option Nat :=
  let rs := (m.entriesOf j).filter (fun r => r.2.state == 2 && !r.2.pinned && m.readersOf j r.2.expert == 0)
  leastBy (fun n => ((rs.lookup n).map Residency.lastUse).getD 0) (insertAll [] (rs.map Prod.fst))

/-- A residency entry changed. -/
def Module.onEntry (m : Module) (n : Nat) (f : Residency → Residency) : Module :=
  { m with residency := m.residency.map (fun r => if r.1 = n then (r.1, f r.2) else r) }

/-- An entry FREE again. -/
def Residency.free (r : Residency) : Residency :=
  { r with expert := 0, state := 0, pinned := false, poisoned := false, frame := 0, present := 0, lastUse := 0 }

/-- The fetch at the head of a job's requests started in a run of frames; the entry takes up the use stamp of the readers that halted on
the expert (R335). -/
def Module.beginFetch (m : Module) (j : Nat) (f : Fetch) (frame : Nat) : Module :=
  match leastBy id (((m.entriesOf j).filter (fun r => r.2.state == 0)).map Prod.fst) with
  | none => m
  | some n =>
    (m.onEntry n (fun _ => { expert := f.expert, job := j, state := 1, pinned := f.pin, poisoned := false, frame := frame,
                             present := 0, lastUse := m.readStamp j f.expert })).onJob j
      (fun b => { b with fetches := modifyAt (fun (f : Fetch) => { f with started := true }) b.fetches 0 })

/-- EXPERT_FETCH: the job's earliest request starts, evicting one expert where its pool has no free run. -/
def execExpertFetch (j : Nat) (s : State) : Host.Outcome State Fault Refusal :=
  s.actOn (j < 16) (fun _ m =>
    match (m.job j).prog.experts, (m.job j).fetches.head? with
    | some x, some f =>
      if f.started || !m.storeReads then m
      else
        match m.freeRun j x with
        | some r => m.beginFetch j f r
        | none =>
          match m.victim j with
          | none => m
          | some n =>
            let m := (m.onEntry n Residency.free).bump (odKey 0x4220 3) 1
            match m.freeRun j x with
            | some r => m.beginFetch j f r
            | none => m
    | _, _ => m)

/-- The cells of `n` bytes from `b` of one memory copied to `a` of another. -/
def Mem.copyFrom (mem : Mem) (a : Nat) (src : Mem) (b n : Nat) : Mem :=
  mem.filter (fun c => c.1 < a) ++
  (src.filter (fun c => decide (b ≤ c.1) && decide (c.1 < b + n))).map (fun c => (c.1 - b + a, c.2)) ++
  mem.filter (fun c => a + n ≤ c.1)

/-- Page `q` of an expert written into its frame, with the poison of the granules that the store could not read (R341). -/
def Module.pageIn (m : Module) (j : Nat) (x : Experts) (o : Obj) (r : Residency) (q : Nat) : Module :=
  let src := extentBytes * (x.pageCount * r.expert + q)
  let dst := (m.job j).hbmBase + x.poolBase + extentBytes * (r.frame + q)
  let bad := (o.poison.filter (fun g => decide (src / 32 ≤ g) && decide (g < (src + extentBytes) / 32))).map
    (fun g => g - src / 32 + dst / 32)
  { m with hbm := m.hbm.copyFrom dst o.data src extentBytes,
           hbmPoison := insertAll (eraseRange m.hbmPoison (dst / 32) (extentBytes / 32)) bad,
           bursts := rewritten m.bursts dst extentBytes }

/-- Whether a page of an object holds granules that could not be read. -/
def Obj.pageBad (o : Obj) (first : Nat) : Bool := (o.firstPoison (extentBytes * first) extentBytes).isSome

/-- The entry's last page is in: RESIDENT, and its PIN commands complete (R338). -/
def Module.resident (m : Module) (j n : Nat) (r : Residency) : Module :=
  let m := (m.onEntry n (fun r => { r with state := 2 })).onJob j (fun b => { b with fetches := b.fetches.drop 1 })
  m.answerAll (fun c => c.opcode == 0x1A && c.job == j && c.state == 1 && c.args.getD 0 0 == r.expert)
    (if r.poisoned then stPoison else stOk) 0 0

/-- EXPERT_PAGE_PRESENT: the next page of the expert that is being fetched arrives in its frame. -/
def execExpertPagePresent (j expert page : Nat) (ups : List FlashUpset) (s : State) : Host.Outcome State Fault Refusal :=
  s.actOn (j < 16) (fun fu m =>
    match (m.job j).prog.experts, (m.entriesOf j).find? (fun r => r.2.state == 1 && r.2.expert == expert) with
    | some x, some (n, r) =>
      if r.present != 2 ^ page - 1 || x.pageCount ≤ page || !m.storeReads ||
          (m.stoppedIn [((m.job j).hbmBase + x.poolBase + extentBytes * (r.frame + page), extentBytes)]).isSome then m
      else
        let m := m.pageReads fu 1 x.storeId ups
        let m := ((m.store.find 1 x.storeId).map (m.dieReads fu)).getD m
        match m.store.find 1 x.storeId with
        | none => m
        | some o =>
          let bad := o.pageBad (x.pageCount * expert + page)
          let r := { r with present := r.present + 2 ^ page, poisoned := r.poisoned || bad }
          let m := (((m.pageIn j x o r page).onEntry n (fun _ => r)).bump (odKey 0x4220 2) 1).bump (odKey 0x6020 11) extentBytes
          let m := if bad then (m.bump (odKey 0x4220 6) 1).event fu 0x0420 [j, expert, page] else m
          if page + 1 = x.pageCount then m.resident j n r else m
    | _, _ => m)

end Sys2Proof.Machine
end

