-- ==== Sys2Proof/Machine/LoadForm.lean ====
section
/-!
DEFINITION. The loader's checks of an image's form (R205): the header and the section table (R179 to R183), the signature
(R181, R537, R539), and the buffer plan with its layouts and scale descriptors (R31, R36, R38, R184, R185, R215, R378).
A failed check is its code with the image offset it is found at.
-/
namespace Sys2Proof.Machine

/-- What a failed check reports: its code (R205) and the image offset. -/
abbrev Finding := Nat × Nat

/-- What the module lends to the checks: the array grade, OD 0x3210:01 and 0x3210:06, the offered features, the agreed word
of the port, the signature policy, the keys in use, the EXPERT objects as (identifier, length), and whether the loaded
image is a T7 translation. -/
structure LoadEnv where
  grade : Nat
  capacity : Nat
  minorMax : Nat
  offered : Nat
  agreed : Nat
  policy : Nat
  keys : List (List Byte)
  experts : List (Nat × Nat)
  given : Nat
  deriving DecidableEq, Repr

/-- An image under the loader. -/
structure Loading where
  env : LoadEnv
  im : List Byte
  h : XwHeader
  ss : List Sect
  img : Image
  prog : Program
  bounds : List Bound
  descs : List ScaleDesc
  deriving DecidableEq, Repr

/-- An image as the loader takes it apart. -/
def Loading.of (env : LoadEnv) (im : List Byte) : Loading :=
  let h := readHeader im
  let ss := readSections im h
  { env := env, im := im, h := h, ss := ss, img := readImage im h ss, prog := readProgram im ss,
    bounds := (entries (sectBytes im ss 9) 2 (sectCount ss 9)).map readBound,
    descs := (List.range (sectCount ss 3)).map (fun i => readDesc (slice (sectBytes im ss 3) (128 * i) 128)) }

/-- The bytes of a section. -/
def Loading.sec (l : Loading) (t : Nat) : List Byte := sectBytes l.im l.ss t

/-- The entry count of a section. -/
def Loading.count (l : Loading) (t : Nat) : Nat := sectCount l.ss t

/-- Whether a section is present. -/
def Loading.has (l : Loading) (t : Nat) : Bool := (findSect l.ss t).isSome

/-- The image offset of a section; 0 where it is absent. -/
def Loading.base (l : Loading) (t : Nat) : Nat := ((findSect l.ss t).map Sect.off).getD 0

/-- The length of a section. -/
def Loading.len (l : Loading) (t : Nat) : Nat := ((findSect l.ss t).map Sect.len).getD 0

/-- A finding where a condition holds. -/
def flag (bad : Bool) (code off : Nat) : List Finding := if bad then [(code, off)] else []

/-- Whether the range [a, a + n) meets [b, b + k). -/
def meets (a n b k : Nat) : Bool := decide (a < b + k) && decide (b < a + n) && decide (0 < n) && decide (0 < k)

/-- Whether any two of a list of ranges meet. -/
def anyMeet : List (Nat × Nat) → Bool
  | [] => false
  | r :: rs => rs.any (fun q => meets r.1 r.2 q.1 q.2) || anyMeet rs

/-- Whether numbers strictly rise. -/
def rising : List Nat → Bool
  | a :: b :: rest => decide (a < b) && rising (b :: rest)
  | _ => true

/-- Whether numbers never fall. -/
def notFalling : List Nat → Bool
  | a :: b :: rest => decide (a ≤ b) && notFalling (b :: rest)
  | _ => true

/-! ### The header (R179, R182, R183) -/

/-- The checks of the header. -/
def Loading.header (l : Loading) : List Finding :=
  let h := l.h
  flag (h.magic != 0x58570009) 0x0001 0 ++
  flag (h.bytes != l.im.length || h.bytes != l.env.given || h.bytes % 64 != 0) 0x0001 8 ++
  flag ((h.arrays != 2 && h.arrays != 4) || h.coresMin == 0 || decide (h.coresMax < h.coresMin) || decide (384 < h.coresMax) ||
    h.roles == 0 || decide (h.sections < 5) || h.rsv2 != 0) 0x0001 16 ++
  flag (decide (h.hbmBytes < 2 ^ 21) || h.hbmBytes % 2 ^ 21 != 0) 0x0001 24 ++
  flag (h.rsv7 != 0) 0x0001 56 ++
  flag (decide (8 < h.roles) || decide (64 < h.sections) || decide (64 < h.bounds)) 0x0022 16 ++
  flag (decide (2 ^ 34 < h.bytes)) 0x0022 8 ++
  flag ((h.major != 1 && h.major != 2) || decide (l.env.minorMax < h.minor) ||
    (h.major == 2 && !bitAt l.env.agreed 8) || (h.major == 1 && !bitAt l.env.agreed 9)) 0x0025 0 ++
  flag (h.arrays == 4 && l.env.grade == 2) 0x0020 16 ++
  flag ((setBits h.features 128).any (fun b => !bitAt l.env.offered b)) 0x0021 32

/-! ### The section table (R180, R181) -/

/-- The known section types. -/
def sectTypes : List Nat := (List.range 15).map (· + 1) ++ [0xFF]

/-- The checks of one entry of the section table that stand alone. -/
def Loading.entry (l : Loading) (s : Sect) : List Finding :=
  flag (s.rsv != 0 || !sectTypes.contains s.type || s.off % 64 != 0 || s.len % 64 != 0 || decide (l.im.length < s.off + s.len) ||
    decide (1 < (l.ss.filter (fun t => t.type == s.type)).length)) 0x0002 s.at_ ++
  flag (decide (s.off + s.len ≤ l.im.length) && crc32c (slice l.im s.off s.len) != s.crc) 0x0002 s.at_

/-- The ranges that the header, the table and the sections take. -/
def Loading.taken (l : Loading) : List (Nat × Nat) :=
  (0, 64) :: (l.h.sectTable, 32 * l.h.sections) :: l.ss.map (fun s => (s.off, s.len))

/-- Whether an entry's section meets an earlier one, the header or the table. -/
def Loading.overlaps (l : Loading) : List Finding :=
  (l.ss.zipIdx).flatMap (fun p =>
    flag (((l.taken).take (2 + p.2)).any (fun r => meets r.1 r.2 p.1.off p.1.len)) 0x0002 p.1.at_)

/-- The first byte outside the header, the table and the sections that is not 0. -/
def Loading.gap (l : Loading) : List Finding :=
  match findFrom (fun (p : Byte × Nat) => p.1 != 0 && !(l.taken).any (fun r => decide (r.1 ≤ p.2) && decide (p.2 < r.1 + r.2)))
      l.im.zipIdx 0 with
  | some p => [(0x0002, p.1)]
  | none => []

/-- The instructions of the role streams and of the SCHEDULE section, each with its image offset, its stream (8 and above for
the SCHEDULE section) and its index. -/
structure At where
  ws : Words
  off : Nat
  stream : Nat
  idx : Nat
  deriving DecidableEq, Repr

/-- The image offset of each role's stream (R191). -/
def Loading.roleAt (l : Loading) (r : Nat) : Nat :=
  l.base 7 + 128 + 128 * ((roleCounts (l.sec 7)).take r).sum

/-- The instructions of a stream. -/
def instsAt (stream base : Nat) (st : List Words) : List At :=
  st.zipIdx.map (fun p => { ws := p.1, off := base + 128 * p.2, stream := stream, idx := p.2 })

/-- The streams of the ROLES section. -/
def Loading.roleStreams (l : Loading) : List (List At) :=
  ((l.prog.streams.take l.h.roles).zipIdx).map (fun p => instsAt p.2 (l.roleAt p.2) p.1)

/-- The streams of the SCHEDULE section. -/
def Loading.schedStreams (l : Loading) : List (List At) :=
  let t := schedTables (l.sec 0xE)
  (l.prog.sched.zipIdx).map (fun p => instsAt (8 + p.2) (l.base 0xE + (t.streamAt.getD p.2 (0, 0)).1) p.1)

/-- Every instruction of the image. -/
def Loading.insts (l : Loading) : List At := (l.roleStreams ++ l.schedStreams).flatMap id

/-- A buffer by its index; entry 0 stands for none. -/
def Loading.buf (l : Loading) (i : Nat) : Option Buffer := if i = 0 then none else l.img.buffers[i]?

/-- The buffer of an operand reference. -/
def Loading.bufOf (l : Loading) (w : Nat) : Option Buffer := l.buf (readRef w).buf

/-- The format of a buffer. -/
def Buffer.format (u : Buffer) : Fmt := (fmtOfCode u.fmt).getD .fp32

/-- The layout of a buffer. -/
def Loading.layout (l : Loading) (u : Buffer) : Layout :=
  l.img.layouts.getD u.layout { dims := [], sparse := false, coord := false, aux := 0 }

/-- The operand references of an instruction that it reads, by class. -/
def inRefs (ws : Words) : List Nat :=
  if classOf ws = 1 then [hiOf ws 2, loOf ws 2, loOf ws 3]
  else if classOf ws = 2 then [hiOf ws 2, loOf ws 2, hiOf ws 3]
  else if classOf ws = 3 then [hiOf ws 2, loOf ws 2, hiOf ws 3]
  else if classOf ws = 4 then [hiOf ws 2]
  else []

/-- Whether an instruction is a MATRIX that releases a weight gradient. -/
def isWg (ws : Words) : Bool := classOf ws == 1 && bitAt (loOf ws 5) 16

/-- Whether an instruction writes a weight gradient (R189). -/
def isProducer (ws : Words) : Bool := isWg ws || (classOf ws == 3 && (readRow ws).func == 0x19)

/-- Whether an image uses a block mask: a sparse layout or a splice word with a mask mode. -/
def Loading.masked (l : Loading) : Bool :=
  l.img.layouts.any Layout.sparse || l.insts.any (fun a => (classOf a.ws == 1 || classOf a.ws == 2) && (readSplice a.ws).maskMode != 0)

/-- The sections that the image's contents require (R181). -/
def Loading.required (l : Loading) : List Nat :=
  [1, 2, 7, 8, 0xE] ++
  (if l.img.buffers.any Buffer.scaled then [3] else []) ++
  (if l.insts.any (fun a => classOf a.ws == 3 && (readRow a.ws).saveStats) then [4] else []) ++
  (if l.insts.any (fun a => isProducer a.ws) then [5] else []) ++
  (if l.has 5 then [6, 0xD] else []) ++
  (if l.h.bounds != 0 then [9] else []) ++
  (if l.masked then [0xA] else []) ++
  (if l.img.tensors.any (fun t => t.rank != 0) then [0xB] else []) ++
  (if l.insts.any (fun a => classOf a.ws == 3 && (readRow a.ws).func == 6) then [0xC] else []) ++
  (if l.h.signed then [0xFF] else [])

/-- The place of the SIGNATURE section: last in the table, highest in the image, ending at its last byte (R181). -/
def Loading.sigPlace (l : Loading) : Bool :=
  match findSect l.ss 0xFF with
  | none => true
  | some s => l.h.signed && s.off + s.len == l.im.length && l.ss.all (fun t => decide (t.off ≤ s.off)) &&
      (l.ss.getLast?.any (fun t => t.type == 0xFF))

/-- The checks of the section table as a whole. -/
def Loading.table (l : Loading) : List Finding :=
  let b := l.h.sectTable
  if b < 64 || b % 64 != 0 || decide (l.im.length < b + 32 * l.h.sections) then [(0x0002, 48)]
  else l.ss.flatMap l.entry ++ l.overlaps ++ l.gap ++
    flag (!l.sigPlace || l.required.any (fun t => !l.has t)) 0x0002 b

/-! ### The signature (R181, R537, R539) -/

/-- The check of the signature, which is made in the order of R537. -/
def Loading.signature (l : Loading) : List Finding :=
  if !l.has 0xFF then flag (l.env.policy == 1) 0x0031 16
  else
    let blk := l.sec 0xFF
    let off := l.base 0xFF
    flag (blk.length != 1088 || !blockForm blk 2 off || field (word64 blk 2) 32 32 != 0 ||
      !l.env.keys.contains (sha512 (blockN blk)) ||
      !pssVerify (leNat (blockN blk)) (leNat (slice blk 576 512)) (l.im.take off)) 0x0031 off

/-! ### Layouts, scale descriptors and buffers -/

/-- Whether the fields of a shape are in range (R193). -/
def Shape.ok (s : Shape) : Bool := decide (s.src < 3) && (s.src != 0 || s.slot == 0)

/-- The raw words of an entry. -/
def Loading.words (l : Loading) (t size i : Nat) : List Nat :=
  (List.range (size / 8)).map (fun k => leAt (l.sec t) (size * i + 8 * k) 8)

/-- An entry's words with its image offset, for every entry of a section of fixed entries. -/
def Loading.rows (l : Loading) (t size : Nat) : List (Nat × List Nat) :=
  (List.range (l.count t)).map (fun i => (l.base t + size * i, l.words t size i))

/-- A section shorter than its entries (R180). -/
def Loading.short (l : Loading) (t size : Nat) : List Finding :=
  flag (l.has t && decide (l.len t < size * l.count t)) 0x0002 (((findSect l.ss t).map Sect.at_).getD 0)

/-- One dimension in its form (R215). -/
def Dim.ok (d : Dim) : Bool :=
  d.extent.ok && (decide (d.axis < 5) || (d.axis == 7 && d.extent.src == 0 && d.extent.plan == 0 && d.stride == 0))

/-- The checks of the layout descriptors (R215). -/
def Loading.layouts (l : Loading) : List Finding :=
  l.short 2 64 ++
  ((l.rows 2 64).zip l.img.layouts).flatMap (fun p =>
    flag (field (p.1.2.getD 0 0) 32 15 != 0 || p.1.2.getD 6 0 != 0 || p.1.2.getD 7 0 != 0 || !p.2.dims.all Dim.ok ||
      (p.2.sparse && decide (l.count 0xA ≤ p.2.aux))) 0x0008 p.1.1)

/-- Whether the reserved fields of a raw scale descriptor are 0 (R47). -/
def descRsv (b : List Byte) : Bool :=
  field (word64 b 0) 0 20 == 0 && field (word64 b 4) 16 48 == 0 && (slice b 40 24).all (fun x => x == 0)

/-- Whether a scale descriptor names a format, and an MX tensor's is frozen at exponent 0 (R31, R38). -/
def ScaleDesc.formOk (d : ScaleDesc) : Bool :=
  match fmtOfCode d.fmt with
  | none => false
  | some f => !f.isMx || (d.frozen && d.expInit == 0)

/-- The checks of the scale descriptors (R38, R47): a format code of R31, and that of an MX tensor frozen at exponent 0. -/
def Loading.scales (l : Loading) : List Finding :=
  l.short 3 128 ++
  (l.descs.zipIdx).flatMap (fun (p : ScaleDesc × Nat) =>
    flag (!p.1.formOk || !descRsv (slice (l.sec 3) (128 * p.2) 128)) 0x0003 (l.base 3 + 128 * p.2))

/-- The alignment of a space and the end of its buffers (R185). -/
def spaceRule (hbm : Nat) : Nat → Nat × Nat
  | 0 => (4096, 0x1800000)
  | 1 => (1024, 2 ^ 25)
  | _ => (64, hbm)

/-- Bytes that operands see of a buffer: one half of a two-half buffer (R378). -/
def Buffer.room (u : Buffer) : Nat := if u.halves then u.size / 2 else u.size

/-- The lowest and the highest element offset that a descriptor can address at its planned extents (R218). -/
def Layout.span (y : Layout) : Int × Int :=
  y.dims.foldl (fun (a : Int × Int) d =>
    let e := (d.extent.plan : Int) * d.stride
    (a.1 + min 0 e, a.2 + max 0 e)) (0, 0)

/-- Whether a sparse or a detected tensor is addressed tile by tile, not by its strides. -/
def Loading.tiled (l : Loading) (i : Nat) : Bool :=
  ((l.buf i).any (fun u => (l.layout u).sparse)) ||
  l.insts.any (fun a => (outRefs a.ws).any (fun w => (readRef w).buf == i && (readRef w).fid == 1))

/-- Tiles of a tensor of a layout: 128 elements of axis 0 by 128 of axis 1. -/
def Layout.tiles (y : Layout) (f : Fmt) : Nat := kTiles f (y.axisPlan 1) * ceilDiv (y.axisPlan 0) 128

/-- Bytes that a detected tensor takes with its mask plane (R388), or a packed one with its fixed masks (R134). -/
def Loading.packedBytes (l : Loading) (i : Nat) (u : Buffer) : Nat :=
  let y := l.layout u
  let e := if y.sparse then l.prog.masks[y.aux]? else none
  let detects := l.insts.any (fun a => (outRefs a.ws).any (fun w => (readRef w).buf == i && (readRef w).fid == 1))
  let p : Packing := { fmt := u.format, s24 := e.any (fun x => !x.meta24.isEmpty), masks := (e.map MaskEntry.masks).getD [],
                       kt := kTiles u.format (y.axisPlan 1), full := detects, plane := 0 }
  let n := y.tiles u.format
  if detects then p.tileOff n + 8 * n else p.tileOff n

/-- The bytes of an operand at a 4 KiB offset against its buffer or half (R218, R36): code 0x000C. -/
def Loading.reach (l : Loading) (i : Nat) (u : Buffer) (off4k at_ : Nat) : List Finding :=
  let y := l.layout u
  let f := u.format
  let base := 4096 * off4k
  if l.tiled i then flag (decide (u.room < base + l.packedBytes i u)) 0x000C at_
  else
    let s := y.span
    let lo := (base : Int) * 8 + s.1 * f.bits
    let hi := (base : Int) * 8 + (s.2 + 1) * f.bits
    flag (decide (lo < 0) || decide ((u.room : Int) * 8 < hi) ||
      (f.isMx && (decide ((base : Int) + y.aux + s.1 / 32 < 0) || decide ((u.room : Int) ≤ (base : Int) + y.aux + s.2 / 32)))) 0x000C at_

/-- The strides that a format allows (R36, R218): MX blocks along dimension 0, 4-bit elements in pairs. -/
def Layout.stridesOk (y : Layout) (f : Fmt) : Bool :=
  let outer := y.dims.drop 1
  (!f.isMx || (((y.dims[0]?).map Dim.stride).getD 1 == 1 && outer.all (fun d => d.stride % 32 == 0) &&
    (y.sparse || y.aux % 64 == 0))) &&
  (!f.is4bit || outer.all (fun d => d.stride % 2 == 0)) && (f.isMx || y.sparse || y.aux == 0)

/-- Whether a buffer is a view, whose own bytes are never accessed (R326). -/
def Loading.isView (l : Loading) (i : Nat) : Bool := l.prog.experts.any (fun x => x.views.any (fun v => v.buffer == i))

/-- Whether a buffer is the grad_buf of a tensor, whose bytes are never accessed (R246). -/
def Loading.isGrad (l : Loading) (i : Nat) : Bool := i != 0 && l.img.tensors.any (fun t => t.gradBuf == i)

/-- Whether a buffer is the weight_buf of a TRAIN tensor. -/
def Loading.isWeight (l : Loading) (i : Nat) : Bool := l.img.tensors.any (fun t => t.mode == 0 && t.weightBuf == i)

/-- The checks of one buffer entry (R184 to R186, R378). -/
def Loading.buffer (l : Loading) (i : Nat) (u : Buffer) (ws : List Nat) (at_ : Nat) : List Finding :=
  let r := spaceRule l.h.hbmBytes u.space
  let scaled := (fmtOfCode u.fmt).any Fmt.isScaled
  flag (fmtOfCode u.fmt).isNone 0x0003 at_ ++
  flag (field (ws.getD 0 0) 48 2 != 0 || field (ws.getD 2 0) 0 47 != 0 || ws.getD 3 0 != 0 || u.space == 3 || u.consumer == 0 ||
    decide (7 < u.consumer) || u.combine == 3 || (u.space == 0 && (u.combine != 0 || u.halves)) ||
    (u.combine == 2 && u.fmt != 0 && u.fmt != 5) || u.size == 0 || u.base % r.1 != 0 || u.size % r.1 != 0 ||
    decide (r.2 < u.base + u.size) || (u.halves && (u.size % 2 != 0 || u.size / 2 % r.1 != 0)) || u.scaled != scaled ||
    (u.scaled && decide (l.count 3 ≤ u.scale)) || decide (l.count 2 ≤ u.layout)) 0x0004 at_ ++
  flag (!(l.layout u).stridesOk u.format) 0x0008 (l.base 2 + 64 * u.layout) ++
  (if l.isView i then [] else l.reach i u 0 at_)

/-- The checks of the buffer plan. -/
def Loading.buffers (l : Loading) : List Finding :=
  l.short 1 32 ++ flag (decide (16384 < l.count 1)) 0x0022 (l.base 1) ++
  ((l.rows 1 32).zip l.img.buffers).zipIdx.flatMap (fun p =>
    if p.2 = 0 then flag (p.1.1.2.any (fun w => w != 0)) 0x0004 p.1.1.1
    else l.buffer p.2 p.1.2 p.1.1.2 p.1.1.1)

end Sys2Proof.Machine
end

