-- ==== Sys2Proof/Machine/LoadInst.lean ====
section
/-!
DEFINITION. The loader's checks of instruction encodings (R123, R124, R152, R153, R190 to R197, R548), of the store and
layout rules that an instruction must keep (R120, R137, R143, R164, R175, R388), and of the shapes and bound slots that the
image names (R193, R199).
-/
namespace Sys2Proof.Machine

/-! ### Operand references and words (R190 to R192) -/

/-- Words of an instruction that its class leaves unused, which are reserved (R191). -/
def unusedFrom : Nat → Nat
  | 1 => 8
  | 2 => 6
  | 3 => 10
  | 4 => 5
  | _ => 3

/-- The reserved bits of the operand words of a class (R194 to R197). -/
def operandRsv (ws : Words) : Bool :=
  match classOf ws with
  | 1 => field (wordAt ws 1) 0 38 != 0 || field (wordAt ws 5) 0 16 != 0 || field (wordAt ws 6) 0 16 != 0 || field (wordAt ws 7) 0 63 != 0
  | 2 => field (wordAt ws 1) 0 38 != 0 || loOf ws 5 != 0
  | 3 => field (wordAt ws 1) 0 24 != 0 || loOf ws 4 != 0 || field (wordAt ws 9) 0 50 != 0
  | 4 => field (wordAt ws 1) 32 22 != 0 || loOf ws 3 != 0 || field (wordAt ws 4) 0 16 != 0
  | _ => field (wordAt ws 1) 0 24 != 0 || loOf ws 2 != 0

/-- The class, the op and the reserved fields of an instruction (R190, R191). -/
def encodingBad (ws : Words) : Bool :=
  let c := classOf ws
  let o := opOf ws
  c == 0 || decide (5 < c) || (decide (c < 4) && o != 0) || (c == 4 && (o == 0 || decide (7 < o))) || (c == 5 && decide (7 < o)) ||
  field (wordAt ws 0) 32 15 != 0 || operandRsv ws ||
  (ws.drop (unusedFrom c)).any (fun w => w != 0)

/-- An input reference (R192): no operand, or a buffer of the plan, without a Fid mode. -/
def Loading.inRefOk (l : Loading) (w : Nat) : Bool := w == 0 || ((l.bufOf w).isSome && (readRef w).fid == 0)

/-- An output reference (R192, R143). -/
def Loading.outRefOk (l : Loading) (w : Nat) : Bool :=
  w == 0 || ((l.bufOf w).isSome && !(readRef w).consume && (readRef w).fid != 3)

/-- The consuming agent (R97, R184) that reads an instruction's n-th input reference. DESIGN CHOICE (log entry 23): no agent code names
the addend of a MATRIX, which is taken as read by the agent of the streamed operand. -/
def agentOf (ws : Words) (n : Nat) : Nat :=
  match classOf ws with
  | 1 => if n = 1 then 2 else 1
  | 2 => 3
  | 3 => 4
  | _ => 5

/-- Whether the splice word carries the keep flag of an instruction's n-th input (R123, R192): the index and the source of a SPLICE
instruction, and operand B of a MATRIX EXPAND. -/
def keepInWord (ws : Words) (n : Nat) : Bool :=
  (classOf ws == 2 && decide (n < 2)) || (classOf ws == 1 && n == 1 && (readSplice ws).op == 4)

/-- Whether an instruction's n-th input is read with CONSUME: by its reference, or by the splice word's keep flag, which stands for
it (R123, R192). -/
def consumes (ws : Words) (n w : Nat) : Bool :=
  if keepInWord ws n then w != 0 && !(if classOf ws = 2 && n = 0 then (readSplice ws).idxKeep else (readSplice ws).srcKeep)
  else (readRef w).consume

/-- The checks of an instruction's references: their encodings (0x0005), and the agents that consume (0x0004). A CONSUME by the
splice word has an effect only on scratchpad. -/
def Loading.refs (l : Loading) (a : At) : List Finding :=
  (inRefs a.ws).zipIdx.flatMap (fun p =>
    flag (!l.inRefOk p.1 || (keepInWord a.ws p.2 && (readRef p.1).consume)) 0x0005 a.off ++
    flag (consumes a.ws p.2 p.1 && (l.bufOf p.1).any (fun u => u.consumer != agentOf a.ws p.2 &&
      (u.space == 0 || (readRef p.1).consume))) 0x0004 a.off) ++
  (outRefs a.ws).flatMap (fun w => flag (!l.outRefOk w) 0x0005 a.off)

/-- The format of a reference's buffer. -/
def Loading.fmtOf (l : Loading) (w : Nat) : Option Nat := (l.bufOf w).map Buffer.fmt

/-- Whether a present reference's buffer has a format that a test refuses. -/
def Loading.fmtBad (l : Loading) (w : Nat) (ok : Nat → Bool) : Bool := (l.fmtOf w).any (fun f => !ok f)

/-- Whether a format code names an MX format. -/
def isMxCode (f : Nat) : Bool := decide (6 ≤ f) && decide (f ≤ 10)

/-- The operand formats of R39. -/
def isOperandCode (f : Nat) : Bool := f == 1 || f == 2 || f == 3 || f == 4 || isMxCode f

/-- Bytes at an operand's offset against its buffer or half (R205): code 0x000C. -/
def Loading.bytesIn (l : Loading) (w n off : Nat) : List Finding :=
  match l.bufOf w with
  | none => []
  | some u => flag (decide (u.room < 4096 * (readRef w).off + n)) 0x000C off

/-- The layout of a reference's buffer at its offset against the buffer (R218). -/
def Loading.reachOf (l : Loading) (w off : Nat) : List Finding :=
  match l.bufOf w with
  | none => []
  | some u => if l.isView (readRef w).buf then [] else l.reach (readRef w).buf u (readRef w).off off

/-! ### MATRIX (R194) -/

/-- Whether the offsets of an axis rise with its index (R244). -/
def Layout.rises (y : Layout) (a : Nat) : Bool :=
  ((y.dims.filter (fun d => d.axis == a)).foldl (fun (s : Bool × Int) d =>
    (s.1 && (d.extent.plan == 0 || decide (s.2 < d.stride)), s.2 + (d.extent.plan : Int) * d.stride)) (true, 0)).1

/-- Whether a layout is K-blocked (R137): dimension 0 is 16 elements of K and dimension 1 is the row. -/
def Layout.kBlocked (y : Layout) : Bool :=
  (y.dims[0]?).any (fun d => d.axis == 0 && d.extent.plan == 15) && (y.dims[1]?).any (fun d => d.axis == 1)

/-- Whether an output under DETECT or APPLY keeps its blocks in tile coordinates (R143). -/
def Layout.tileOrdered (y : Layout) : Bool := (y.dims[0]?).any (fun d => d.axis == 0) && (y.dims[1]?).any (fun d => d.axis == 1)

/-- The Fid rules of an output (R143): its permutation, and under APPLY a tensor with fixed planes. -/
def Loading.fid (l : Loading) (w off : Nat) : List Finding :=
  match l.bufOf w with
  | none => []
  | some u =>
    flag ((readRef w).fid != 0 && !(l.layout u).tileOrdered) 0x0008 off ++
    flag ((readRef w).fid == 2 && !(l.layout u).sparse) 0x0007 off

/-- The splice word of a MATRIX or SPLICE instruction: the fields that belong to other operations (R123). -/
def spliceFieldsBad (ws : Words) : Bool :=
  let s := readSplice ws
  let cls := classOf ws
  s.neg == 3 || s.maskMode == 3 || (s.dropFault && !(cls == 2 && s.op == 5)) || (s.kcompact && !(cls == 1 && s.op == 4)) ||
  (s.srcMem && !(cls == 2 && s.op == 1)) || (s.base && !(cls == 2 && (s.op == 2 || s.op == 3)))

/-- The formats of EXPAND and COMPRESS (R124). -/
def packFmtOk (s : SpliceWord) : Bool :=
  isOperandCode s.valFmt && (!s.sparse24 || (s.valFmt != 0 && decide (s.valFmt ≤ 4))) && (s.maskMode != 2 || !isMxCode s.valFmt)

/-- Whether an addend's format decodes exactly into the accumulator (R548). -/
def addendOk (int : Bool) (f : Nat) : Bool :=
  if int then f == 4 || f == 5 else decide (f ≤ 3) || f == 6 || f == 7 || f == 9

/-- The checks of a MATRIX instruction. -/
def Loading.matrix (l : Loading) (a : At) : List Finding :=
  let ws := a.ws
  let s := readSplice ws
  let w5 := loOf ws 5
  let fa := field w5 28 4
  let fb := field w5 24 4
  let fo := field w5 20 4
  let wg := bitAt w5 16
  let vsel := bitAt (wordAt ws 7) 63
  let k := readShape (hiOf ws 5)
  let sc := fun (bit lo w : Nat) => (l.bufOf w).any (fun u =>
    u.scaled != bitAt w5 bit || (u.scaled && field (wordAt ws 6) lo 16 != u.scale))
  let pair := match fmtOfCode fa, fmtOfCode fb with
    | some x, some y => (pairKind x y).isSome
    | _, _ => false
  flag (s.op != 0 && s.op != 4) 0x0003 a.off ++ flag (spliceFieldsBad ws) 0x0005 a.off ++
  flag (decide (11 < s.valFmt) || (s.op == 4 && (!packFmtOk s || s.valFmt != fb))) 0x0003 a.off ++
  flag (hiOf ws 2 == 0 || loOf ws 2 == 0 || hiOf ws 3 == 0) 0x0005 a.off ++
  flag (!pair || decide (11 < fo) || (fo == 11) != wg || l.fmtBad (hiOf ws 2) (· == fa) || l.fmtBad (loOf ws 2) (· == fb) ||
    l.fmtBad (hiOf ws 3) (· == fo) || l.fmtBad (loOf ws 3) (addendOk (fa == 4))) 0x0003 a.off ++
  flag (sc 19 48 (hiOf ws 2) || sc 18 32 (loOf ws 2) || sc 17 16 (hiOf ws 3)) 0x0005 a.off ++
  flag (wg && !l.isGrad (readRef (hiOf ws 3)).buf) 0x0005 a.off ++
  flag (vsel && (wg || !l.has 0xB || !l.img.tensors.any (fun t => t.rank != 0 && t.weightBuf == (readRef (loOf ws 2)).buf)))
    0x000B a.off ++
  flag (s.kcompact && !(l.bufOf (hiOf ws 2)).any (fun u => (l.layout u).kBlocked)) 0x0008 a.off ++
  flag (s.kcompact && (k.src != 0 || fb == 9 || fb == 10)) 0x0007 a.off ++
  flag (wg && ((l.bufOf (hiOf ws 2)).any (fun u => !(l.layout u).rises 0) || (l.bufOf (loOf ws 2)).any (fun u => !(l.layout u).rises 1)))
    0x0008 a.off ++
  l.fid (hiOf ws 3) a.off ++ (matrixRefs ws).flatMap (fun w => l.reachOf w a.off)

/-! ### SPLICE (R124, R125, R194) -/

/-- Whether the dimensions of an axis give it consecutive offsets in steps of `s` elements. -/
def Layout.packedAxis (y : Layout) (a : Nat) (s : Int) : Bool :=
  ((y.dims.filter (fun d => d.axis == a)).foldl (fun (p : Bool × Int) d =>
    (p.1 && (d.extent.plan == 0 || d.stride == p.2), p.2 * (d.extent.plan + 1))) (true, s)).1

/-- Whether the rows of an operand that moves with the entry lie at row-length strides (R125). -/
def Loading.rowsPacked (l : Loading) (w rb : Nat) : Bool :=
  (l.bufOf w).all (fun u =>
    let y := l.layout u
    !y.coord || (y.packedAxis 0 1 && y.packedAxis 1 ((rb * 8 / u.format.bits : Nat) : Int)))

/-- The checks of a SPLICE instruction. -/
def Loading.splice (l : Loading) (a : At) : List Finding :=
  let ws := a.ws
  let s := readSplice ws
  let index := decide (1 ≤ s.op) && decide (s.op ≤ 3)
  let n := (readShape (hiOf ws 4)).plan
  let e := (readShape (loOf ws 4)).plan
  let fmtOk := if s.op = 1 || s.op = 2 then decide (s.valFmt < 6)
    else if s.op = 3 then s.valFmt == 0 || s.valFmt == 5
    else if s.op = 6 then decide (s.valFmt < 6) || s.valFmt == 11
    else packFmtOk s
  flag (s.op == 0 || decide (6 < s.op) || !fmtOk || l.fmtBad (loOf ws 2) (· == s.valFmt) || l.fmtBad (loOf ws 3) (· == s.valFmt) ||
    l.fmtBad (hiOf ws 2) (· == 5) || (s.base && l.fmtBad (hiOf ws 3) (· == s.valFmt))) 0x0003 a.off ++
  flag (spliceFieldsBad ws || (hiOf ws 2 != 0) != index || loOf ws 2 == 0 || loOf ws 3 == 0 || (hiOf ws 3 != 0) != s.base) 0x0005 a.off ++
  flag (index && (l.bufOf (hiOf ws 2)).any (fun u => u.space != 0)) 0x0005 a.off ++
  flag (s.op == 1 && (l.bufOf (loOf ws 2)).any (fun u => (u.space != 0) != s.srcMem)) 0x0005 a.off ++
  (if index then
    flag ([loOf ws 2, hiOf ws 3, loOf ws 3].any (fun w => !l.rowsPacked w s.rowBytes) || !l.rowsPacked (hiOf ws 2) 4) 0x0008 a.off ++
    (spliceRefs ws).flatMap (fun w => l.reachOf w a.off) ++
    l.bytesIn (hiOf ws 2) (4 * n) a.off ++ l.bytesIn (loOf ws 2) (s.rowBytes * (if s.op = 1 then e else n)) a.off ++
    l.bytesIn (loOf ws 3) (s.rowBytes * (if s.op = 1 then n else e)) a.off ++ l.bytesIn (hiOf ws 3) (s.rowBytes * e) a.off
  else l.reachOf (loOf ws 2) a.off ++ l.reachOf (loOf ws 3) a.off)

/-! ### ROW (R152, R153, R197) -/

/-- Which operands in0, in1, in2, out0, out1 a function takes (R197): 0 none, 1 required, 2 optional. -/
def rowOperands (w : RowWord) : Option (List Nat) :=
  let g := if w.gateMul then 1 else 0
  match w.func with
  | 0x01 => some [1, 2, 2, 1, 0]
  | 0x02 => some [1, 2, 2, 1, 0]
  | 0x03 => some [1, 0, 0, 1, 0]
  | 0x04 => some [1, if w.phase = 1 then 0 else 1, 0, 1, 1]
  | 0x05 => some [1, 0, 0, 1, 0]
  | 0x06 => some [1, 0, 0, 1, 1]
  | 0x07 => some [1, 1, 0, 1, 0]
  | 0x08 => some [1, g, 0, 1, if w.sideOut then 1 else 0]
  | 0x11 => some [1, 1, 2, 1, 0]
  | 0x12 => some [1, 1, 2, 1, 0]
  | 0x13 => some [1, 1, 0, 1, 0]
  | 0x14 => some [1, 1, 0, 1, 0]
  | 0x15 => some [1, 1, 1, 1, 2]
  | 0x16 => some [1, 1, 1, 1, 0]
  | 0x17 => some [1, 1, 0, 1, 0]
  | 0x18 => some [1, 1, g, 1, g]
  | 0x19 => some [1, 1, 0, 1, 2]
  | _ => none

/-- The phases of a function (R153). -/
def phaseOk (w : RowWord) : Bool :=
  if w.func = 0x04 then w.phase == 1 || w.phase == 2
  else if w.func = 0x07 then true
  else if w.func = 0x17 then w.phase != 3
  else w.phase == 0

/-- Whether a function reads or writes its statistics set (R153); save_stats has an effect only where the function's row in R153 has
one. -/
def usesStats (w : RowWord) : Bool :=
  (w.saveStats && [0x01, 0x02, 0x03, 0x06].contains w.func) || w.func == 0x04 || w.func == 0x05 || w.func == 0x07 || w.func == 0x11 || w.func == 0x12 || w.func == 0x15 ||
  w.func == 0x16 || w.func == 0x17 || w.func == 0x19

/-- The fields of a row word that break a rule (R152, R153, R168): R152 asks the value 0 on other functions of act alone. -/
def rowFieldsBad (w : RowWord) : Bool :=
  !phaseOk w || (w.act != 0 && w.func != 0x08 && w.func != 0x18) || (w.func == 0x04 && !w.saveStats) ||
  ((decide (7 ≤ w.act) || w.gateMul) && !w.sideOut)

/-- The formats that a function's operands must have (R548, R168): an operand that no field names has a format that the engine
decodes (R154), and ROWDOT's result, which ATTN_BWD_P reads, is FP32 (R163). -/
def Loading.rowFmts (l : Loading) (ws : Words) : Bool :=
  let w := readRow ws
  let inF := field (wordAt ws 1) 54 4
  let outF := field (wordAt ws 1) 50 4
  let grad := w.func == 0x19
  let side := w.func == 0x18 && (decide (7 ≤ w.act) || w.gateMul)
  decide (10 < inF) || decide (11 < outF) || (outF == 11) != grad || (w.func == 0x14 && outF != 0) || l.fmtBad (hiOf ws 2) (· == inF) ||
  [loOf ws 2, hiOf ws 3].any (fun r => l.fmtBad r (fun f => decide (f ≤ 10))) ||
  (!grad && l.fmtBad (hiOf ws 4) (fun f => decide (f ≤ 10))) || (w.func == 0x15 && l.fmtBad (hiOf ws 3) (· == 0)) ||
  l.fmtBad (loOf ws 3) (· == outF) ||
  ((w.func == 1 || w.func == 2) && (l.fmtBad (loOf ws 2) (· == 1) || l.fmtBad (hiOf ws 3) (· == 1))) ||
  ((w.func == 0x11 || w.func == 0x12) && l.fmtBad (hiOf ws 3) (· == 1)) ||
  ((w.func == 0x07 || w.func == 0x16 || w.func == 0x17) && l.fmtBad (loOf ws 2) (· == 5)) ||
  (w.func == 0x06 && (l.fmtBad (loOf ws 3) (fun f => f == 0 || f == 1) || l.fmtBad (hiOf ws 4) (· == 5))) ||
  (w.func == 0x08 && l.fmtBad (hiOf ws 4) (· == 6)) || (side && l.fmtBad (loOf ws 2) (· == 6)) ||
  (grad && l.fmtBad (hiOf ws 4) (· == 11))

/-- Whether a parameter that the act field limits is out of its range (R167). -/
def actParamBad (ws : Words) : Bool :=
  let w := readRow ws
  let p1 := ofF32 (loOf ws 8)
  (w.func == 0x08 || w.func == 0x18) && !bitAt (wordAt ws 9) 62 &&
  ((w.act == 2 && (!p1.isFin || p1.lt fZero || fOne.lt p1)) || (w.act == 5 && !fZero.lt p1))

/-- The checks of a ROW instruction. -/
def Loading.row (l : Loading) (a : At) : List Finding :=
  let ws := a.ws
  let w := readRow ws
  let cols := (readShape (loOf ws 5)).plan
  let b0 := bitAt (wordAt ws 9) 63
  let b1 := bitAt (wordAt ws 9) 62
  match rowOperands w with
  | none => [(0x0003, a.off)]
  | some ops =>
    flag (l.rowFmts ws || decide (9 < w.act)) 0x0003 a.off ++
    flag (rowFieldsBad w || actParamBad ws || (ops.zip (rowRefs ws)).any (fun p =>
      (p.1 == 0 && p.2 != 0) || (p.1 == 1 && p.2 == 0))) 0x0005 a.off ++
    flag ((b0 && hiOf ws 8 != 0) || (b1 && loOf ws 8 != 0) || (!b0 && field (wordAt ws 9) 56 6 != 0) ||
      (!b1 && field (wordAt ws 9) 50 6 != 0)) 0x0005 a.off ++
    flag (w.func == 0x06 && (decide (cols < w.k) || decide (65536 < cols))) 0x0008 a.off ++
    flag (w.func == 0x19 && decide (4096 < cols)) 0x0008 a.off ++
    flag ((w.func == 0x01 || w.func == 0x02 || w.func == 0x11 || w.func == 0x12) && decide (65536 < cols)) 0x0008 a.off ++
    flag (usesStats w && ((w.statSet :: (if w.func = 0x07 then [w.statSet + 1] else [])).any (fun t =>
      !l.img.statSets.any (fun x => x.set == t)))) 0x000A a.off ++
    flag (w.func == 0x19 && [loOf ws 3, hiOf ws 4].any (fun r => r != 0 && !l.isGrad (readRef r).buf)) 0x0005 a.off ++
    l.fid (loOf ws 3) a.off ++ l.fid (hiOf ws 4) a.off ++ (rowRefs ws).flatMap (fun r => l.reachOf r a.off)

/-! ### MOVE (R195, R102, R120, R377, R384, R385, R388) -/

/-- Whether the spaces of a movement are those of its path (R195, R102). -/
def pathOk (op s d : Nat) : Bool :=
  match op with
  | 1 => s == 2 && d == 1
  | 2 => s == 1 && d == 0
  | 3 => s == 0 && (d == 1 || d == 2)
  | 4 => s == 1 && d == 2
  | 7 => s == d && decide (s < 2)
  | _ => true

/-- Whether the layout unit may move an MX tensor as MX (R120): its block dimension stays dimension 0, in whole blocks. -/
def mxMoveOk (s d : Layout) : Bool :=
  match s.dims[0]?, d.dims[0]? with
  | some x, some y => x.axis == y.axis && (x.extent.plan + 1) % 32 == 0 && (y.extent.plan + 1) % 32 == 0
  | _, _ => true

/-- Whether some instruction writes a buffer under DETECT (R388). -/
def Loading.detected (l : Loading) (i : Nat) : Bool :=
  l.insts.any (fun a => (outRefs a.ws).any (fun w => (readRef w).buf == i && (readRef w).fid == 1))

/-- Whether ranges (offset, length) cover every byte from `a` up to `last`, one range taken after another. -/
def coversFrom (rs : List (Nat × Nat)) (last : Nat) : Nat → Nat → Bool
  | 0, a => decide (last ≤ a)
  | n + 1, a =>
    if last ≤ a then true
    else
      match (rs.filter (fun r => decide (r.1 ≤ a) && decide (a < r.1 + r.2))).map (fun r => r.1 + r.2) with
      | [] => false
      | e :: es => coversFrom rs last n (es.foldl max e)

/-- The coil buffer's rules (R384): fixed, outside the scratchpad, whole descriptors, and placed from INIT, by one chunk or by several
(R549). DEDUCED (log entry 15): INIT fills the job region alone (R208), so a coil buffer in cluster memory, which nothing can place, is
rejected. -/
def Loading.coilBuffer (l : Loading) (u : Buffer) (at_ : Nat) : List Finding :=
  let cs := (readInit (l.count 0xF) (l.sec 0xF)).map (fun c => (c.1, c.2.1.length))
  let held := u.space == 2 && coversFrom cs (u.base + u.size) cs.length u.base
  flag (u.space == 0 || !u.fixed || u.size % 32 != 0 || !held) 0x0004 at_

/-- The bytes that INIT leaves at a job-region offset: each that of the last chunk that covers it (R549). -/
def Loading.initAt (l : Loading) (o n : Nat) : List Byte :=
  let cs := (readInit (l.count 0xF) (l.sec 0xF)).reverse.filter (fun c => decide (c.1 < o + n) && decide (o < c.1 + c.2.1.length))
  (List.range n).map (fun k =>
    match cs.find? (fun c => decide (c.1 ≤ o + k) && decide (o + k < c.1 + c.2.1.length)) with
    | some c => c.2.1.getD (o + k - c.1) 0
    | none => 0)

/-- The bytes of a dispatch area (R328): counts, row starts, tokens, pair positions and gates, each from a 64-byte boundary. -/
def Loading.dispatchBytes (l : Loading) (r : Router) : Nat :=
  let n := r.rows.plan * (r.kM1 + 1)
  let width := ((l.buf r.gateBuf).map (fun u => u.format.bits / 8)).getD 4
  2 * (64 * ceilDiv (4 * (r.span + 1)) 64) + 2 * (64 * ceilDiv (4 * n) 64) + 64 * ceilDiv (width * n) 64

/-- Whether a write of `n` bytes from byte `o` of buffer `i` writes a view buffer or a dispatch area (R326), which a grad_buf, whose bytes
are nowhere (R246), cannot. -/
def Loading.writesRouted (l : Loading) (i : Nat) (u : Buffer) (o n : Nat) : Bool :=
  l.isView i || (u.space == 2 && !l.isGrad i && ((l.prog.experts.map Experts.routers).getD []).any (fun r =>
    meets r.dispatchBase (l.dispatchBytes r) (u.base + o) n))

/-- The checks of one coil descriptor (R384, R385), whose write is held to R326 as an instruction's is. -/
def Loading.descriptor (l : Loading) (d : List Byte) (off : Nat) : List Finding :=
  let w := word64 d 0
  let op := field w 60 4
  let s := field w 46 14
  let t := field w 32 14
  let n := 64 * field w 8 24
  match l.buf s, l.buf t with
  | some u, some v =>
    flag ((op != 1 && op != 4) || field w 0 8 != 0 || word64 d 3 != 0 || !pathOk op u.space v.space || u.fmt != v.fmt ||
      l.isView s || l.isView t || word64 d 1 % 64 != 0 || word64 d 2 % 64 != 0) 0x0005 off ++
    flag (decide (u.room < word64 d 1 + n) || decide (v.room < word64 d 2 + n)) 0x000C off ++
    flag (l.detected s && (!l.detected t || (l.layout u).tiles u.format != (l.layout v).tiles v.format)) 0x0008 off ++
    flag (v.fixed || l.isWeight t) 0x0041 off ++ flag (l.writesRouted t v (word64 d 2) n) 0x0042 off
  | _, _ => [(0x0005, off)]

/-- The descriptors of a COIL at its plan, as INIT places them. -/
def Loading.coilDescs (l : Loading) (ws : Words) : List (List Byte) :=
  match l.bufOf (hiOf ws 2) with
  | none => []
  | some u => if u.space != 2 then [] else
      (List.range (lengthShape ws).plan).map (fun d => l.initAt (u.base + 4096 * (readRef (hiOf ws 2)).off + 32 * d) 32)

/-- The checks of a COIL. -/
def Loading.coil (l : Loading) (a : At) : List Finding :=
  let ws := a.ws
  flag (hiOf ws 2 == 0 || loOf ws 2 != 0 || decide (64 < (lengthShape ws).plan)) 0x0005 a.off ++
  (match l.bufOf (hiOf ws 2) with
   | none => []
   | some u => l.coilBuffer u (l.base 1 + 32 * (readRef (hiOf ws 2)).buf)) ++
  l.bytesIn (hiOf ws 2) (32 * (lengthShape ws).plan) a.off ++ (l.coilDescs ws).flatMap (fun d => l.descriptor d a.off)

/-- The checks of a MOVE instruction. -/
def Loading.move (l : Loading) (a : At) : List Finding :=
  let ws := a.ws
  let op := opOf ws
  let r := hiOf ws 2
  let t := loOf ws 2
  flag (decide (3 < scopeOf ws) || (scopeOf ws != 0 && op != 2) || (op != 6 && loOf ws 1 != 0)) 0x0005 a.off ++
  (if op = 5 then l.coil a
   else
     flag (t == 0 || (r == 0) != (op == 6)) 0x0005 a.off ++
     flag (op == 6 && (l.bufOf t).any (fun v => v.space == 2)) 0x0005 a.off ++
     (match l.bufOf r, l.bufOf t with
      | some u, some v =>
        let mx := isMxCode u.fmt && isMxCode v.fmt
        flag (!pathOk op u.space v.space) 0x0005 a.off ++
        flag (u.fmt != v.fmt && !(op == 2 && u.fmt == 1 && isOperandCode v.fmt && v.fmt != 1)) 0x0003 a.off ++
        flag ((op == 1 || op == 2) && mx && !mxMoveOk (l.layout u) (l.layout v)) 0x0008 a.off ++
        flag (l.detected (readRef r).buf && (!l.detected (readRef t).buf || (l.layout u).tiles u.format != (l.layout v).tiles v.format))
          0x0008 a.off
      | _, _ => []) ++
     (if op = 6 || op = 7 then l.bytesIn r (4096 * (lengthShape ws).plan) a.off ++ l.bytesIn t (4096 * (lengthShape ws).plan) a.off
      else l.reachOf r a.off ++ l.reachOf t a.off))

/-! ### CONTROL (R196, R382) -/

/-- The fields of the control word: reel, target, counter, buffer. -/
def controlFields (ws : Words) : List Nat :=
  [field (wordAt ws 1) 56 8, field (wordAt ws 1) 44 12, field (wordAt ws 1) 38 6, field (wordAt ws 1) 24 14]

/-- Which fields an operation uses: reel, target, counter, buffer, shape. -/
def controlUses : Nat → List Bool
  | 1 => [true, true, false, false, false]
  | 2 => [false, false, false, false, true]
  | 4 => [false, false, true, false, true]
  | 5 => [false, false, false, true, false]
  | _ => [false, false, false, false, false]

/-- The checks of a CONTROL instruction in a stream of `n` instructions. -/
def Loading.control (l : Loading) (n : Nat) (a : At) : List Finding :=
  let op := opOf a.ws
  let buf := field (wordAt a.ws 1) 24 14
  let fs := controlFields a.ws ++ [hiOf a.ws 2]
  flag ((fs.zip (controlUses op)).any (fun p => p.1 != 0 && !p.2)) 0x0005 a.off ++
  flag (op == 1 && decide (l.img.templates.length ≤ field (wordAt a.ws 1) 56 8)) 0x0005 a.off ++
  flag (op == 1 && decide (n ≤ field (wordAt a.ws 1) 44 12)) 0x0006 a.off ++
  flag (op == 5 && !(l.buf buf).any Buffer.halves) 0x0005 a.off ++ flag (op == 5 && l.isWeight buf) 0x000B a.off

/-! ### Every instruction -/

/-- Whether a buffer holds a weight of some tensor with fixed masks, whose mask plane no instruction may write (R135). -/
def Loading.maskedWeight (l : Loading) (i : Nat) (u : Buffer) : Bool :=
  (l.layout u).sparse && l.img.tensors.any (fun t => t.weightBuf == i)

/-- What an instruction must not write: fixed buffers, TRAIN weights and the mask planes of weights, which DETECT would write (0x0041),
views and dispatch areas (0x0042). -/
def Loading.writes (l : Loading) (a : At) : List Finding :=
  (outRefs a.ws).flatMap (fun w =>
    let i := (readRef w).buf
    match l.buf i with
    | none => []
    | some u =>
      flag (u.fixed || l.isWeight i || ((readRef w).fid == 1 && l.maskedWeight i u)) 0x0041 a.off ++
      flag (l.writesRouted i u 0 u.size) 0x0042 a.off)

/-- The checks of one instruction of a stream of `n`. -/
def Loading.inst (l : Loading) (n : Nat) (a : At) : List Finding :=
  flag (bitAt (wordAt a.ws 0) 47) 0x0030 a.off ++
  (if encodingBad a.ws then [(0x0005, a.off)]
   else
     flag ((instShapes a.ws).any (fun s => !s.ok)) 0x0005 a.off ++ l.refs a ++ l.writes a ++
     (match classOf a.ws with
      | 1 => l.matrix a
      | 2 => l.splice a
      | 3 => l.row a
      | 4 => l.move a
      | _ => l.control n a))

/-- The checks of every instruction. -/
def Loading.encodings (l : Loading) : List Finding :=
  (l.roleStreams ++ l.schedStreams).flatMap (fun st => st.flatMap (l.inst st.length))

/-! ### Bound slots (R199, R549) -/

/-- The uses of bound slots: the slot, whether it must be an ADDRESS slot, and where. -/
def Loading.slotUses (l : Loading) : List (Nat × Bool × Nat) :=
  let ofShape := fun (off : Nat) (s : Shape) => if s.src = 1 then [(s.slot, false, off)] else if s.src = 2 then [(s.slot, true, off)] else []
  l.insts.flatMap (fun a => (instShapes a.ws).flatMap (ofShape a.off) ++
    (if classOf a.ws = 3 then
      (if bitAt (wordAt a.ws 9) 63 then [(field (wordAt a.ws 9) 56 6, false, a.off)] else []) ++
      (if bitAt (wordAt a.ws 9) 62 then [(field (wordAt a.ws 9) 50 6, false, a.off)] else []) else [])) ++
  (l.img.layouts.zipIdx).flatMap (fun p => p.1.dims.flatMap (fun d => ofShape (l.base 2 + 64 * p.2) d.extent)) ++
  (l.img.templates.zipIdx).flatMap (fun p =>
    p.1.loops.flatMap (fun x => ofShape (l.base 8 + 64 * p.2) x.count) ++
    (if p.1.pbaseEn then [(p.1.pbaseSlot, true, l.base 8 + 64 * p.2)] else [])) ++
  (((l.prog.experts.map Experts.routers).getD []).zipIdx).flatMap (fun p =>
    ofShape (l.base 0xC + 64 + 32 * p.2) p.1.rows ++ ofShape (l.base 0xC + 64 + 32 * p.2) p.1.startTarget)

/-- The checks of the BOUND section and of every use of a slot. -/
def Loading.boundSlots (l : Loading) : List Finding :=
  flag (l.has 9 && (l.count 9 != l.h.bounds || l.len 9 != 64 * ceilDiv (16 * l.count 9) 64 ||
    ((l.sec 9).drop (16 * l.count 9)).any (fun b => b != 0) || !rising (l.bounds.map Bound.slot))) 0x000D (l.base 9) ++
  ((l.rows 9 16).zip l.bounds).flatMap (fun p =>
    flag (decide (1 < field (p.1.2.getD 0 0) 56 2) || field (p.1.2.getD 0 0) 0 56 != 0 ||
      (p.2.address && decide (l.h.hbmBytes ≤ p.2.value))) 0x000D p.1.1) ++
  l.slotUses.flatMap (fun u => flag (!l.bounds.any (fun b => b.slot == u.1 && b.address == u.2.1)) 0x000D u.2.2)

end Sys2Proof.Machine
end

