-- ==== Sys2Proof/Machine/LoadData.lean ====
section
/-!
DEFINITION. The loader's checks of the tables of an image (R205): statistics sets (R170, R549), parameter tensors and groups
(R187, R188, R241, R270 to R273), adapters (R250, R251), the bucket plan (R298, R299), the expert tables (R323 to R326,
R346), reel templates (R225), masks (R134, R140), INIT chunks (R549) and the tables of the SCHEDULE section (R483).
-/
namespace Sys2Proof.Machine

/-! ### Statistics sets (R170, R549) -/

/-- The home range of a statistics set. -/
def StatSet.home_ (s : StatSet) : Nat × Nat := (s.home, 8 * s.rows)

/-- The checks of the statistics sets. -/
def Loading.statSets (l : Loading) : List Finding :=
  let ss := l.img.statSets
  flag (l.has 4 && (l.len 4 != 64 * ceilDiv (16 * l.count 4) 64 || ((l.sec 4).drop (16 * l.count 4)).any (fun b => b != 0) ||
    !rising (ss.map StatSet.set) || anyMeet (ss.map StatSet.home_))) 0x000A (l.base 4) ++
  ((l.rows 4 16).zip ss).flatMap (fun p =>
    flag (field (p.1.2.getD 0 0) 0 28 != 0 || p.2.home % 64 != 0 || decide (l.h.hbmBytes < p.2.home + 8 * p.2.rows)) 0x000A p.1.1)

/-! ### Parameter tensors (R187, R188, R241) -/

/-- The checks of one tensor entry. -/
def Loading.tensor (l : Loading) (t : Tensor) (ws : List Nat) (i at_ : Nat) : List Finding :=
  let g := l.buf t.gradBuf
  let w := l.buf t.weightBuf
  let train := t.mode == 0
  flag (field (ws.getD 0 0) 0 10 != 0 || field (ws.getD 1 0) 0 15 != 0 || field (ws.getD 2 0) 0 36 != 0 || ws.getD 3 0 != 0 ||
    decide (1 < t.mode) || t.count == 0 || decide (2 ^ 40 < t.elemBase + t.count) ||
    !w.any (fun u => u.space == 2 && u.fmt == 1) ||
    (train && (!g.any (fun u => u.fmt == 11 && u.consumer == 6) || decide (l.img.groups.length ≤ t.group) || !w.any Buffer.halves)) ||
    (!train && (t.gradBuf != 0 || t.group != 0)) || (t.rank != 0 && !train) ||
    (l.h.adapterOnly && t.rank == 0 && train) ||
    (l.img.tensors.take i).any (fun x => meets x.elemBase x.count t.elemBase t.count)) 0x000B at_ ++
  flag (decide (256 < t.rank)) 0x0022 at_ ++ flag (decide (256 < t.rank)) 0x0025 at_ ++
  flag (train && t.rank != 0 && (l.img.groups[t.group]?).any (fun x => x.rule == 4)) 0x0025 at_

/-- A braid-8 buffer with consumer tackle is the grad_buf of exactly one tensor (R188). -/
def Loading.gradBuffers (l : Loading) : List Finding :=
  (l.img.buffers.zipIdx).flatMap (fun p =>
    flag (p.2 != 0 && p.1.fmt == 11 && p.1.consumer == 6 && (l.img.tensors.filter (fun t => t.mode == 0 && t.gradBuf == p.2)).length != 1)
      0x000B (l.base 1 + 32 * p.2))

/-- The checks of the tensor table. -/
def Loading.tensors (l : Loading) : List Finding :=
  l.short 5 32 ++ ((l.rows 5 32).zip l.img.tensors).zipIdx.flatMap (fun p => l.tensor p.1.2 p.1.1.2 p.2 p.1.1.1) ++ l.gradBuffers

/-! ### Parameter groups (R270 to R274) -/

/-- An FP32 code that is finite and at least 0. -/
def f32NonNeg (c : Nat) : Bool := (ofF32 c).isFin && !(ofF32 c).lt fZero

/-- An FP32 code in [0, 1). -/
def f32Below1 (c : Nat) : Bool := f32NonNeg c && (ofF32 c).lt fOne

/-- An FP32 code above 0: R271 asks no more of eps and eps1, so that +∞ passes. -/
def f32Pos (c : Nat) : Bool := fZero.lt (ofF32 c)

/-- A group entry in its ranges (R271) with its curve (R273). -/
def Group.ok (g : Group) : Bool :=
  decide (1 ≤ g.rule) && decide (g.rule ≤ 4) && (!g.biasCorr || g.rule == 2) && f32NonNeg g.eta && f32NonNeg g.lambda &&
  f32NonNeg g.gscale && f32Below1 g.beta1 && f32Below1 g.beta2 && (g.rule != 4 || g.beta1 == 0) && (g.rule != 1 || g.beta2 == 0) &&
  (if g.rule = 2 then f32Pos g.eps else g.eps == 0) && (if g.rule = 4 then f32Pos g.eps1 else g.eps1 == 0) &&
  notFalling (g.curve.map Prod.fst) && g.curve.all (fun p => f32NonNeg p.2)

/-- The reserved bits of a raw group entry. -/
def groupRsv (b : List Byte) : Bool :=
  field (word64 b 0) 0 59 == 0 && field (word64 b 4) 0 32 == 0 && (slice b 40 24).all (fun x => x == 0)

/-- The TRAIN tensors in ascending index. -/
def Loading.trains (l : Loading) : List Nat :=
  (List.range l.img.tensors.length).filter (fun i => (l.img.tensors[i]?).any (fun t => t.mode == 0))

/-- The rule of a tensor's group. -/
def Loading.ruleOf (l : Loading) (t : Nat) : Nat :=
  ((l.img.tensors[t]?).bind (fun x => l.img.groups[x.group]?)).elim 0 Group.rule

/-- A state entry against its tensor's rule (R272, R273). -/
def Loading.stateOk (l : Loading) (s : StateEntry) : Bool :=
  let n := ((l.img.tensors[s.tensor]?).map Tensor.count).getD 0
  if l.ruleOf s.tensor = 4 then s.rows != 0 && s.cols != 0 && s.rows * s.cols == n else s.rows == 0 && s.cols == 0

/-- The checks of the GROUPS section. -/
def Loading.groupChecks (l : Loading) : List Finding :=
  if !l.has 6 then []
  else
    let b := l.sec 6
    let o := l.base 6
    let g := groupCount b
    let t := trainCount b
    let st := 64 + 2112 * g
    if decide (l.len 6 < st + 32 * t) then [(0x000B, o)]
    else
      flag (g == 0 || decide (4096 < g) || t == 0 || t != l.trains.length || field (word64 b 0) 0 34 != 0 ||
        (slice b 8 56).any (fun x => x != 0) || l.img.states.map StateEntry.tensor != l.trains) 0x000B o ++
      (l.img.groups.zipIdx).flatMap (fun p =>
        flag (!p.1.ok || !groupRsv (slice b (64 + 64 * p.2) 64)) 0x000B (o + 64 + 64 * p.2)) ++
      (l.img.states.zipIdx).flatMap (fun p =>
        flag (!l.stateOk p.1 || (slice b (st + 32 * p.2 + 8) 24).any (fun x => x != 0)) 0x000B (o + st + 32 * p.2))

/-! ### Adapters (R250, R251) -/

/-- Whether a bound slot is declared with a kind. -/
def Loading.declared (l : Loading) (slot : Nat) (address : Bool) : Bool :=
  l.bounds.any (fun b => b.slot == slot && b.address == address)

/-- The ranges within a set that the sites take (R251). -/
def Loading.setRanges (l : Loading) (a : Adapters) : List (Nat × Nat) :=
  a.sites.flatMap (fun s =>
    let n := fun t => ((l.img.tensors[t]?).map Tensor.count).getD 0 / max 1 a.slots
    [(s.aOffset, n s.aTensor), (s.bOffset, n s.bTensor)])

/-- A site's tensors (R251): the base is PASS, A and B are TRAIN of equal non-zero rank. -/
def Loading.siteOk (l : Loading) (s : AdapterSite) : Bool :=
  match l.img.tensors[s.baseTensor]?, l.img.tensors[s.aTensor]?, l.img.tensors[s.bTensor]? with
  | some p, some x, some y => p.mode == 1 && x.mode == 0 && y.mode == 0 && x.rank == y.rank && x.rank != 0
  | _, _, _ => false

/-- The reserved bits of the ADAPTERS header and sites. -/
def adapterRsv (l : List Byte) (count : Nat) : Bool :=
  field (word64 l 0) 0 5 == 0 && field (word64 l 1) 0 18 == 0 && field (word64 l 2) 0 27 == 0 && word64 l 3 == 0 &&
  (List.range (count - 1)).all (fun i =>
    let e := slice l (32 + 32 * i) 32
    field (word64 e 0) 0 16 == 0 && field (word64 e 1) 0 24 == 0 && field (word64 e 2) 0 24 == 0 && word64 e 3 == 0)

/-- The checks of the ADAPTERS section. -/
def Loading.adapters (l : Loading) : List Finding :=
  match l.prog.adapters with
  | none => []
  | some a =>
    let o := l.base 0xB
    let ads := (l.img.tensors.zipIdx).filter (fun t => t.1.rank != 0)
    let named := a.sites.flatMap (fun s => [s.aTensor, s.bTensor])
    let rs := l.setRanges a
    flag (decide (16383 < a.sites.length) || decide (64 < a.slots)) 0x0022 o ++ l.short 0xB 32 ++
    flag (l.count 0xB == 0 || a.slots == 0 || a.rlMax == 0 || a.mbMax == 0 || decide (4096 < a.mbMax) ||
      !adapterRsv (l.sec 0xB) (l.count 0xB) || a.sites.any (fun s => !l.siteOk s) ||
      ads.any (fun t => (named.filter (· == t.2)).length != 1) ||
      ads.any (fun t => t.1.count % max 1 a.slots != 0 || (2 * (t.1.count / max 1 a.slots)) % 4096 != 0) ||
      decide (2 ^ 40 < a.base + 1024 * a.stride) || l.img.tensors.any (fun t => meets t.elemBase t.count a.base (1024 * a.stride)) ||
      rs.any (fun r => decide (a.stride < r.1 + r.2)) || anyMeet rs ||
      !l.declared a.mbtSlot true || !l.declared a.rlSlot true || !l.declared a.mbcSlot false) 0x000B o

/-! ### The bucket plan (R298, R299) -/

/-- Segments of a tensor's gradient. -/
def Tensor.segs (t : Tensor) : Nat := ceilDiv t.count 4096

/-- Whether a tensor's segments lie in exactly one entry each: its entries, in ascending order, follow one another. -/
def coversOnce (n : Nat) (es : List (Nat × Nat)) : Bool :=
  (es.map Prod.snd).sum == n && !anyMeet es && es.all (fun e => decide (e.1 + e.2 ≤ n))

/-- The checks of the REDUCE section but for the order of its producers. -/
def Loading.reduce (l : Loading) : List Finding :=
  match l.prog.reduce with
  | none => []
  | some r =>
    let o := l.base 0xD
    let b := l.sec 0xD
    let of := fun k => r.entries.filter (fun e => e.bucket == k)
    flag (decide (l.len 0xD < 64 + 16 * l.count 0xD) || field (word64 b 0) 0 34 != 0 || (slice b 16 48).any (fun x => x != 0) ||
      decide (r.bucketLog2 < 20) || decide (26 < r.bucketLog2) || r.bucketCount == 0 || r.stagingCount == 0 ||
      r.stagingBase % 4096 != 0 || decide (l.h.hbmBytes < r.stagingBase + r.stagingCount * 2 ^ r.bucketLog2) ||
      !notFalling (r.entries.map ReduceEntry.bucket) ||
      (List.range r.bucketCount).any (fun k => (of k).isEmpty || decide (2 ^ (r.bucketLog2 - 12) < ((of k).map ReduceEntry.segCount).sum)) ||
      l.trains.any (fun t => !coversOnce (((l.img.tensors[t]?).map Tensor.segs).getD 0)
        ((r.entries.filter (fun e => e.tensor == t)).map (fun e => (e.firstSeg, e.segCount))))) 0x000B o ++
    flag ((List.range r.bucketCount).any (fun k => decide (255 < (of k).length))) 0x0022 o ++
    (r.entries.zipIdx).flatMap (fun p =>
      let w := fun k => word64 (slice b (64 + 16 * p.2) 16) k
      flag (field (w 0) 0 4 != 0 || field (w 1) 0 49 != 0 || decide (r.bucketCount ≤ p.1.bucket) || !l.trains.contains p.1.tensor ||
        p.1.segCount == 0 || decide (16384 < p.1.segCount)) 0x000B (o + 64 + 16 * p.2))

/-! ### Experts (R323 to R326, R346) -/

/-- The instructions of a stream set that satisfy a test. -/
def Loading.matching (l : Loading) (p : Words → Bool) : List At := l.insts.filter (fun a => p a.ws)

/-- The rules of a predictor that its entry alone shows (R345). -/
def Predictor.formOk (p : Predictor) : Bool :=
  p.mode != 3 && (p.mode == 2 || p.replayBase == 0) && p.replayBase % 4 == 0

/-- The buffers that hold bytes of the buffers `bs` once the movements of the program have staged them, over `n` further steps. -/
def Loading.stagedFrom (l : Loading) : Nat → List Nat → List Nat
  | 0, bs => bs
  | n + 1, bs =>
    let more := (l.matching (fun ws => classOf ws == 4 && (opOf ws == 1 || opOf ws == 2 || opOf ws == 7) &&
      bs.contains (readRef (hiOf ws 2)).buf && !bs.contains (readRef (loOf ws 2)).buf)).map (fun a => (readRef (loOf a.ws 2)).buf)
    if more.isEmpty then bs else l.stagedFrom n (more ++ bs)

/-- The weight operand of a product is the weight_buf of a PASS tensor or a view (R346): that buffer itself, or one that LOAD_CM, FILL and
COPY stage it into, since a view is read by a LOAD_CM alone (R326). DEDUCED (log entry 15). -/
def Loading.passWeight (l : Loading) (ws : Words) : Bool :=
  let pass := (List.range l.img.buffers.length).filter (fun i => l.isView i || l.img.tensors.any (fun t => t.mode == 1 && t.weightBuf == i))
  (l.stagedFrom l.img.buffers.length pass).contains (readRef (loOf ws 2)).buf

/-- The rules of R346 between the score instruction, the up projection and the down projection, as far as one stream set
shows them; `reelOf` gives the template whose TAKE region holds an instruction. -/
def Loading.predictorOk (l : Loading) (reelOf : At → Option Nat) (p : Predictor) : Bool :=
  let writes := fun (b : Nat) => l.matching (fun ws => classOf ws == 1 && (readRef (hiOf ws 3)).buf == b)
  let sc := writes p.scoreBuf
  let up := writes p.upBuf
  let down := l.matching (fun ws => classOf ws == 1 && (readRef (hiOf ws 2)).buf == p.downBuf)
  let all := sc ++ up ++ down
  p.formOk && !sc.isEmpty && !up.isEmpty && !down.isEmpty && (all.head?.bind reelOf).isSome &&
  all.all (fun a => reelOf a == all.head?.bind reelOf && (hiOf a.ws 4 == ((all.head?.map At.ws).elim 0 (fun w => hiOf w 4)))) &&
  (up ++ down).all (fun a => l.passWeight a.ws) && up.all (fun a => loOf a.ws 3 == 0) &&
  sc.all (fun a => decide ((readShape (loOf a.ws 4)).plan ≤ 256) &&
    up.all (fun u => (readShape (loOf a.ws 4)).plan == ceilDiv (readShape (loOf u.ws 4)).plan 128)) &&
  (match up.head?, l.buf p.maskBuf with
   | some u, some mb =>
     let problems := ((reelOf u).bind (fun r => l.img.templates[r]?)).elim 1 (fun t => ((t.loops[t.pIndex]?).map (fun x => x.count.plan)).getD 1)
     mb.space == 2 && decide (problems * groupCountOf (readShape (hiOf u.ws 4)).plan l.h.arrays * 32 ≤ mb.size)
   | _, _ => false)

/-- A router entry's rules (R324, R326). -/
def Loading.routerOk (l : Loading) (x : Experts) (r : Router) : Bool :=
  let k := r.kM1 + 1
  let topk := l.matching (fun ws => classOf ws == 3 && (readRow ws).func == 6 && (readRef (hiOf ws 4)).buf == r.idxBuf)
  (l.buf r.idxBuf).isSome && (l.buf r.gateBuf).any (fun u => decide (u.fmt < 2)) && r.span != 0 && decide (r.span ≤ 65536) &&
  decide (r.expertBase + r.span ≤ x.expertCount) && r.dispatchBase % 64 == 0 &&
  decide (r.dispatchBase + l.dispatchBytes r ≤ l.h.hbmBytes) && r.cap != 0 && r.rows.ok && r.startTarget.ok &&
  decide (r.rows.plan * k ≤ 16777215) && topk.all (fun a => decide ((readShape (loOf a.ws 5)).plan ≤ r.span) && (readRow a.ws).k == k) &&
  (l.img.templates[r.reel]?).any (fun t => decide (((t.loops[t.pIndex]?).map (fun c => c.count.plan)).getD 0 ≤ r.span))

/-- A view entry's rules (R325, R326). -/
def Loading.viewOk (l : Loading) (x : Experts) (v : View) : Bool :=
  decide (v.router < x.routers.length) && decide (v.pageOffset + v.pages ≤ x.pageCount) &&
  (l.buf v.buffer).any (fun u => u.space == 2 && u.size == v.pages * 2 ^ 21)

/-- The reserved bits of the EXPERTS header. -/
def expertRsv (b : List Byte) : Bool :=
  field (word64 b 0) 0 7 == 0 && field (word64 b 2) 0 32 == 0 && (slice b 32 32).all (fun x => x == 0)

/-- Where the view and the predictor tables of the section begin. -/
def expertTables (x : Experts) : Nat × Nat :=
  let v := roundUp (64 + 32 * x.routers.length) 64
  (v, roundUp (v + 16 * x.views.length) 64)

/-- The pool's rules (R326): it lies within the region, with two frames' worth of pages for each expert held at least. -/
def Loading.poolOk (l : Loading) (x : Experts) : Bool :=
  x.poolBase % 2 ^ 21 == 0 && decide (x.poolBase + x.frameCount * 2 ^ 21 ≤ l.h.hbmBytes) && decide (2 * x.pageCount ≤ x.frameCount)

/-- The checks of the EXPERTS section. -/
def Loading.experts (l : Loading) (reelOf : At → Option Nat) : List Finding :=
  match l.prog.experts with
  | none => []
  | some x =>
    let o := l.base 0xC
    let b := l.sec 0xC
    let ts := expertTables x
    flag (decide (65536 < x.expertCount) || decide (64 < x.pageCount) || !expertRsv b || !l.poolOk x ||
      decide (l.len 0xC < ts.2 + 32 * x.preds.length)) 0x000E o ++
    (x.routers.zipIdx).flatMap (fun p => flag (!l.routerOk x p.1 || field (leAt b (64 + 32 * p.2 + 24) 8) 0 20 != 0) 0x000E (o + 64 + 32 * p.2)) ++
    (x.views.zipIdx).flatMap (fun p => flag (!l.viewOk x p.1 || field (leAt b (ts.1 + 16 * p.2) 8) 0 26 != 0 ||
      leAt b (ts.1 + 16 * p.2 + 8) 8 != 0) 0x000E (o + ts.1 + 16 * p.2)) ++
    (x.preds.zipIdx).flatMap (fun p => flag (!l.predictorOk reelOf p.1 || field (leAt b (ts.2 + 32 * p.2) 8) 0 6 != 0 ||
      field (leAt b (ts.2 + 32 * p.2 + 24) 8) 0 48 != 0) 0x000E (o + ts.2 + 32 * p.2)) ++
    flag (!l.env.experts.contains (x.storeId, x.expertCount * x.pageCount * 2 ^ 21)) 0x0026 o

/-! ### Reel templates, masks and INIT -/

/-- The checks of the reel templates (R225). -/
def Loading.reels (l : Loading) : List Finding :=
  l.short 8 64 ++ flag (decide (256 < l.count 8)) 0x0022 (l.base 8) ++
  ((l.rows 8 64).zip l.img.templates).flatMap (fun p =>
    let t := p.2
    let perm := fun (o : List Nat) => (List.range 5).all (fun g => o.contains g)
    flag (field (p.1.2.getD 0 0) 0 11 != 0 || p.1.2.getD 6 0 != 0 || p.1.2.getD 7 0 != 0 || t.roles == 0 || !perm t.l1 || !perm t.l2 ||
      decide (4 < t.pIndex) || (t.pbaseEn && decide (4 < t.pbaseAxis)) || t.loops.any (fun x => x.block == 0 || !x.count.ok || x.count.src == 2) ||
      decide (2 ^ 24 < (t.loops.map (fun x => x.count.plan)).foldl (· * ·) 1)) 0x0008 p.1.1)

/-- Whether the masks of an MX tensor mark the blocks of each pair of block rows alike (R134). -/
def mxMaskOk (m : Nat) : Bool :=
  (List.range 32).all (fun i => bitAt m (16 * (i / 8) + i % 8) == bitAt m (16 * (i / 8) + 8 + i % 8))

/-- The masks of a sparse layout against the tensors that use it (R134, R140): one mask for each tile, alike in pairs for MX,
and metadata, where there is any, of 32 bytes for each present block. -/
def Loading.masks (l : Loading) : List Finding :=
  (l.img.buffers.zipIdx).flatMap (fun p =>
    let y := l.layout p.1
    if p.2 = 0 || !y.sparse then []
    else
      match l.prog.masks[y.aux]? with
      | none => []
      | some e =>
        let blocks := (e.masks.map (fun m => popCount m 64)).sum
        flag (e.masks.length != y.tiles p.1.format || (isMxCode p.1.fmt && e.masks.any (fun m => !mxMaskOk m)) ||
          (!e.meta24.isEmpty && e.meta24.length != 32 * blocks)) 0x0007 (l.base 0xA + 32 * y.aux))

/-- The checks of the INIT chunks (R549). -/
def Loading.initChunks (l : Loading) : Nat → Nat → List Finding
  | 0, pos => flag (pos != l.len 0xF) 0x000C (l.base 0xF + pos)
  | n + 1, pos =>
    let b := (l.sec 0xF).drop pos
    let len := word64 b 1
    let pad := roundUp len 64
    if (slice b 16 48).any (fun x => x != 0) || len == 0 || decide (l.len 0xF < pos + 64 + len) ||
        decide (l.h.hbmBytes < word64 b 0 + len) || (slice b (64 + len) (pad - len)).any (fun x => x != 0) then [(0x000C, l.base 0xF + pos)]
    else l.initChunks n (pos + 64 + pad)

/-- The checks of the INIT section. -/
def Loading.init (l : Loading) : List Finding := if l.has 0xF then l.initChunks (l.count 0xF) 0 else []

/-! ### The tables of the SCHEDULE section (R483, R484) -/

/-- The checks of a resume entry, with the entry before it. -/
def Loading.resumeOk (l : Loading) (e : List Nat) (r : Resume) (before : Option Resume) (first : Bool) : Bool :=
  let n := fun i => ((l.prog.sched[i]?).map List.length).getD 0
  decide (r.kind < 2) && e.getD 3 0 == 0 && field (e.getD 0 0) 0 27 == 0 && field (e.getD 0 0) 27 13 == (if first then n 0 else 0) &&
  (List.range 8).all (fun i =>
    if i < l.h.roles then decide (r.points.getD i 0 < n i) && before.all (fun p => decide (p.points.getD i 0 < r.points.getD i 0))
    else r.points.getD i 0 == 0xFFFF)

/-- The ranges of the tables and the streams of the section. -/
def SchedTables.ranges (t : SchedTables) : List (Nat × Nat) :=
  (0, 128 + 16 * t.roles) :: (t.resumeOff, 32 * t.resumeCount) :: (t.refOff, 32 * t.refCount) :: t.streamAt.map (fun p => (p.1, 128 * p.2))

/-- The checks of the SCHEDULE section's tables and of its keep area. -/
def Loading.schedule (l : Loading) : List Finding :=
  let o := l.base 0xE
  let b := l.sec 0xE
  let t := schedTables b
  flag (field (word64 b 0) 0 28 != 0 || (slice b 24 40).any (fun x => x != 0) || t.roles != l.h.roles || t.resumeCount == 0 ||
    t.streamAt.any (fun p => p.2 == 0 || p.1 % 128 != 0) || (List.range t.roles).any (fun r => field (leAt b (136 + 16 * r) 8) 0 51 != 0) ||
    anyMeet t.ranges) 0x0006 o ++
  flag (t.streamAt.any (fun p => decide (4096 < p.2))) 0x0022 o ++
  flag (t.streamAt.any (fun p => decide (l.len 0xE < p.1 + 128 * p.2)) || decide (l.len 0xE < t.resumeOff + 32 * t.resumeCount) ||
    (t.refCount != 0 && decide (l.len 0xE < t.refOff + 32 * t.refCount)) || t.keepBase % 4096 != 0 ||
    decide (l.h.hbmBytes < t.keepBase + t.keepBytes) || l.prog.refs.any (fun r => decide (l.h.hbmBytes < r.offset + r.length))) 0x000C o ++
  (l.prog.resumes.zipIdx).flatMap (fun p =>
    let e := ((entries (slice b (t.resumeOff + 32 * p.2) 32) 4 1).headD [])
    flag (!l.resumeOk e p.1 (if p.2 = 0 then none else l.prog.resumes[p.2 - 1]?) (p.2 == 0)) 0x0006 (o + t.resumeOff + 32 * p.2)) ++
  (l.prog.refs.zipIdx).flatMap (fun p =>
    flag (p.1.offset % 64 != 0 || p.1.length % 64 != 0 || leAt b (t.refOff + 32 * p.2 + 24) 8 != 0) 0x0006 (o + t.refOff + 32 * p.2))

/-! ### The ROLES section (R191) -/

/-- The checks of the role map and the counts. -/
def Loading.roles (l : Loading) : List Finding :=
  let b := l.sec 7
  let o := l.base 7
  let cs := roleCounts b
  flag (l.img.roleMap.any (fun r => r != 0xFF && decide (l.h.roles ≤ r)) || (slice b 24 104).any (fun x => x != 0) || l.count 7 != l.h.roles ||
    (cs.zipIdx).any (fun p => (p.1 == 0) == decide (p.2 < l.h.roles)) || l.len 7 != roundUp (128 + 128 * cs.sum) 64) 0x0006 o ++
  flag (cs.any (fun c => decide (4096 < c))) 0x0022 o

end Sys2Proof.Machine
end

