-- ==== Sys2Proof/Machine/LoadFlow.lean ====
section
/-!
DEFINITION. The loader's checks that follow an image's streams: control structure (R191, R196, R233, R237, R382, R484), the
readers of views (R326), read before write (R105, R174, R380), tied weights (R189), the order of the buckets (R299), and
static write aliasing (R206).
-/
namespace Sys2Proof.Machine

/-! ### Control structure -/

/-- Whether an instruction waits in the order of a WAIT on a counter. -/
def waitsOn (ctr : Nat) (ws : Words) : Bool := isControl 4 ws && field (wordAt ws 1) 38 6 == ctr

/-- The counter that an instruction signals. -/
def signalOf (ws : Words) : Option Nat := if bitAt (wordAt ws 0) 55 then some (field (wordAt ws 0) 49 6) else none

/-- The open LOOPs before each instruction, innermost first, and whether an ENDLOOP found none. -/
def loopStacks : List Words → Nat → List Nat → List (List Nat)
  | [], _, _ => []
  | w :: rest, k, open_ =>
    open_ :: loopStacks rest (k + 1) (if isControl 2 w then k :: open_ else if isControl 3 w then open_.drop 1 else open_)

/-- The index of the ENDLOOP of the LOOP at `k`, from the open loops of each instruction. -/
def endLoopOf (st : List Words) (opens : List (List Nat)) (k : Nat) : Option Nat :=
  indexOf (fun (p : Words × List Nat) => isControl 3 p.1 && p.2.head? == some k) (st.zip opens)

/-- The instructions that can follow one (R233): the next, a TAKE's target, and the edges of a loop. -/
def followers (st : List Words) (opens : List (List Nat)) (k : Nat) : List Nat :=
  let w := st.getD k []
  if isControl 7 w then []
  else if isControl 1 w then [k + 1, field (wordAt w 1) 44 12]
  else if isControl 2 w then [k + 1] ++ ((endLoopOf st opens k).map (· + 1)).toList
  else if isControl 3 w then [k + 1] ++ (((opens.getD k []).head?).map (· + 1)).toList
  else [k + 1]

/-- The instructions reached from a frontier without passing the target. -/
def reachFrom (st : List Words) (opens : List (List Nat)) (target : Nat) : Nat → List Nat → List Nat → List Nat
  | 0, _, seen => seen
  | fuel + 1, front, seen =>
    let new := (front.filter (fun k => k != target && decide (k < st.length) && !seen.contains k)).eraseDups
    if new.isEmpty then seen else reachFrom st opens target fuel (new.flatMap (followers st opens)) (seen ++ new)

/-- The instructions of a set from which control can reach the target within the set. -/
def leadsTo (st : List Words) (opens : List (List Nat)) (target : Nat) (within : List Nat) : Nat → List Nat → List Nat
  | 0, seen => seen
  | fuel + 1, seen =>
    let next := within.filter (fun k => (followers st opens k).any (fun f => f == target || seen.contains f))
    if next.length = seen.length then seen else leadsTo st opens target within fuel next

/-- The TAKE regions of a stream (R233): the index of each TAKE, its template and the instructions of its region, which lie on a control
path that starts after the TAKE and ends where control reaches its target. -/
def takeRegions (st : List Words) : List (Nat × Nat × List Nat) :=
  let opens := loopStacks st 0 []
  (List.range st.length).filterMap (fun k =>
    let w := st.getD k []
    if isControl 1 w then
      let t := field (wordAt w 1) 44 12
      some (k, field (wordAt w 1) 56 8, leadsTo st opens t (reachFrom st opens t st.length [k + 1] []) st.length [])
    else none)

/-- A stream with its TAKE regions. -/
structure Flow where
  st : List At
  regions : List (Nat × Nat × List Nat)
  sched : Bool
  deriving DecidableEq, Repr

/-- Every stream of the image. -/
def Loading.flows (l : Loading) : List Flow :=
  l.roleStreams.map (fun st => { st := st, regions := takeRegions (st.map At.ws), sched := false }) ++
  l.schedStreams.map (fun st => { st := st, regions := takeRegions (st.map At.ws), sched := true })

/-- The template whose entry an instruction runs under: that of the last TAKE before it whose region holds it, or else of any
region that holds it. -/
def Flow.templateOf (f : Flow) (k : Nat) : Option Nat :=
  let rs := f.regions.filter (fun r => r.2.2.contains k)
  (((rs.filter (fun r => decide (r.1 < k))).getLast?.orElse (fun _ => rs.head?))).map (fun r => r.2.1)

/-- The offset of a stream's first instruction. -/
def Flow.off (f : Flow) : Nat := (f.st.head?.map At.off).getD 0

/-- The checks of one stream's control structure. -/
def Loading.control_ (l : Loading) (f : Flow) : List Finding :=
  let ws := f.st.map At.ws
  let opens := loopStacks ws 0 []
  let passes := ws.countP (isControl 6)
  let srcOf := fun k => (readShape (hiOf (ws.getD k []) 2)).src
  flag (!(ws.getLast?.any (isControl 7)) || !(loopStacks (ws ++ [[]]) 0 []).getLast?.all List.isEmpty ||
    (!f.sched && (decide (1 < passes) || (l.has 5 && passes != 1)))) 0x0006 f.off ++
  (f.st.zip opens).flatMap (fun p =>
    let inside := f.regions.any (fun r => r.2.2.contains p.1.idx) || p.2.any (fun k => srcOf k == 2)
    flag ((isControl 3 p.1.ws || isControl 6 p.1.ws) && (isControl 3 p.1.ws == p.2.isEmpty)) 0x0006 p.1.off ++
    flag (isControl 2 p.1.ws && decide (8 ≤ p.2.length)) 0x0022 p.1.off ++
    flag (inside && ((isMove 2 p.1.ws && scopeOf p.1.ws != 0) || isControl 5 p.1.ws)) 0x0008 p.1.off)

/-- Each reel template of the SCHEDULE section is taken from within two consecutive resume points (R484). -/
def Loading.reelSegments (l : Loading) (f : Flow) : List Finding :=
  if !f.sched then []
  else
    let segOf := fun (a : At) => l.prog.resumes.countP (fun r => decide (r.points.getD (a.stream - 8) 0 ≤ a.idx))
    let takes := l.schedStreams.flatMap (fun st => st.filter (fun a => isControl 1 a.ws))
    (f.st.filter (fun a => isControl 1 a.ws)).flatMap (fun a =>
      flag (takes.any (fun b => field (wordAt b.ws 1) 56 8 == field (wordAt a.ws 1) 56 8 && segOf b != segOf a)) 0x0006 a.off)

/-- The checks of the control structure of every stream. -/
def Loading.controls (l : Loading) : List Finding := l.flows.flatMap (fun f => l.control_ f ++ l.reelSegments f)

/-! ### Views (R326) -/

/-- A view buffer is read only by a LOAD_CM inside a TAKE region of its router's reel. -/
def Loading.views (l : Loading) : List Finding :=
  match l.prog.experts with
  | none => []
  | some x =>
    l.flows.flatMap (fun f => f.st.flatMap (fun a => (inRefs a.ws).flatMap (fun w =>
      match x.views.find? (fun v => v.buffer == (readRef w).buf && w != 0) with
      | none => []
      | some v =>
        let reel := (x.routers[v.router]?).map Router.reel
        flag (!(isMove 1 a.ws && f.regions.any (fun r => some r.2.1 == reel && r.2.2.contains a.idx))) 0x000F a.off)))

/-! ### The bytes of an operand -/

/-- A run put before others, joined to the first where they are adjacent. -/
def consRun (a : Nat × Nat) : List (Nat × Nat) → List (Nat × Nat)
  | [] => [a]
  | b :: rest => if a.1 + a.2 = b.1 then (a.1, a.2 + b.2) :: rest else a :: b :: rest

/-- Adjacent runs joined. -/
def joinRuns (l : List (Nat × Nat)) : List (Nat × Nat) := l.foldr consRun []

/-- The positions of a grid with the given limits on axes 0 to 4, axis 0 fastest. -/
def gridOf (lims : List Nat) : List (List Nat) :=
  (List.range (lims.foldl (· * ·) 1)).map (fun n =>
    (lims.foldl (fun (a : List Nat × Nat) r => (a.1 ++ [a.2 % max 1 r], a.2 / max 1 r)) ([], n)).1)

/-- The logical index that an entry's coordinates move an element to (R219). -/
def Layout.globalIndex (y : Layout) (coords ix : List Nat) : List Nat :=
  (List.range 5).map (fun a => ix.getD a 0 + (if y.coord then coords.getD a 0 else 0))

/-- Whether an element lies within the planned extents of a layout (R219). -/
def Layout.inPlan (y : Layout) (coords ix : List Nat) : Bool :=
  let g := y.globalIndex coords ix
  ((digitsOf y.dims g).zip y.dims).all (fun p => decide (p.1 ≤ p.2.extent.plan)) &&
  (List.range 5).all (fun a => y.dims.any (fun d => d.axis == a) || g.getD a 0 == 0)

/-- The byte ranges, counted in the half, of the elements at logical indices `ixs` moved by an entry's coordinates (R216, R219):
those within the planned extents, in an MX format with the scale bytes of their blocks (R215). -/
def Layout.runs (y : Layout) (f : Fmt) (start : Nat) (coords : List Nat) (ixs : List (List Nat)) : List (Nat × Nat) :=
  let es := (ixs.filter (y.inPlan coords)).map (fun ix =>
    ((digitsOf y.dims (y.globalIndex coords ix)).zip y.dims).foldl (fun (acc : Int) p => acc + (p.1 : Int) * p.2.stride) 0)
  joinRuns (es.map (fun e => ((((start : Int) * 8 + e * f.bits) / 8).toNat, (f.bits + 7) / 8))) ++
    (if f.isMx then joinRuns (((es.map (· / 32)).eraseDups).map (fun b => (start + y.aux + b.toNat, 1))) else [])

/-- The limits that an instruction sets on axes 0 and 1 of an operand (R217, R219): its planned shapes. -/
def planLimits (ws : Words) (w : Nat) : List Nat :=
  match classOf ws with
  | 1 =>
    let m := (readShape (hiOf ws 4)).plan
    let n := (readShape (loOf ws 4)).plan
    let k := (readShape (hiOf ws 5)).plan
    if w = hiOf ws 2 then [k, m] else if w = loOf ws 2 then [n, k] else [n, m]
  | _ => [max (readShape (loOf ws 5)).plan (readRow ws).k, (readShape (hiOf ws 5)).plan]

/-- The elements of a movement that it reads or writes through a reference (R220, R222): the destination's positions up to its
planned length; of a read, and of a write that leaves padding alone, those that lie in both layouts. -/
def Loading.movedIndices (l : Loading) (ws : Words) (coords : List Nat) (w : Nat) : List (List Nat) :=
  match l.bufOf (hiOf ws 2), l.bufOf (loOf ws 2) with
  | some s, some d =>
    let ys := l.layout s
    let yd := l.layout d
    let ixs := (List.range (min yd.planned ((lengthShape ws).plan * 512 / d.format.bits))).map (posIndex yd.dims)
    if l.tiled (readRef (hiOf ws 2)).buf || l.tiled (readRef (loOf ws 2)).buf then ixs
    else if w = loOf ws 2 && decide (opOf ws ≤ 2) then ixs
    else ixs.filter (fun ix => yd.inPlan coords ix && ys.inPlan coords ix)
  | _, _ => []

/-- Logical indices moved along an axis by every base from 0 to the tensor's planned extent (R224). -/
def Layout.spread (y : Layout) (wide : Option Nat) (ixs : List (List Nat)) : List (List Nat) :=
  match wide with
  | none => ixs
  | some a => ixs.flatMap (fun ix => (List.range (y.axisPlan a + 1)).map (fun b =>
      ((List.range 5).map (fun x => ix.getD x 0)).set a (ix.getD a 0 + b)))

/-- The byte ranges within its half that an instruction may touch through a reference, for an entry at some coordinates, with a
per-problem base on axis `wide` where it has one: rows of R125, slots of R102, a movement's elements (R222), the tiles of a packed
tensor, or the elements of a descriptor. -/
def Loading.touched (l : Loading) (ws : Words) (w : Nat) (coords : List Nat) (wide : Option Nat) : List (Nat × Nat) :=
  match l.bufOf w with
  | none => []
  | some u =>
    let y := l.layout u
    let start := 4096 * (readRef w).off
    let f := u.format
    let c := classOf ws
    let elems := fun ixs => y.runs f start coords (y.spread wide ixs)
    if c = 2 && decide ((readSplice ws).op ≤ 3) then
      let n := (readShape (hiOf ws 4)).plan
      let e := (readShape (loOf ws 4)).plan
      let rows := if w = loOf ws 3 then (if (readSplice ws).op = 1 then n else e) else if w = loOf ws 2 then n else e
      if y.coord then
        let cols := if w = hiOf ws 2 then 1 else (readSplice ws).rowBytes * 8 / f.bits
        elems (gridOf [cols, if w = hiOf ws 2 then n else rows])
      else [(start, if w = hiOf ws 2 then 4 * n else (readSplice ws).rowBytes * rows)]
    else if c = 4 && (opOf ws == 6 || opOf ws == 7) then [(start, 4096 * (lengthShape ws).plan)]
    else if l.tiled (readRef w).buf then [(start, l.packedBytes (readRef w).buf u)]
    else if c = 4 then elems (l.movedIndices ws coords w)
    else if c = 2 then elems ((List.range y.planned).map (posIndex y.dims))
    else
      let p := planLimits ws w
      elems (gridOf ((List.range 5).map (fun a => if a < 2 then min (p.getD a 1) (y.axisPlan a) else 1)))

/-- The coordinates of the entries that an instruction runs under, at the planned counts; one place without coordinates
outside a TAKE region (R217, R227). -/
def Loading.entriesOf (l : Loading) (f : Flow) (k : Nat) : List (Option Nat × List Nat) :=
  match (f.templateOf k).bind (fun n => l.img.templates[n]?) with
  | none => [(none, [])]
  | some t => ((t.grid (t.loops.map (fun x => x.count.plan))).zipIdx).map (fun p => (some p.2, t.coords p.1.2 0))

/-- Whether an operand's place depends on a per-problem base, so that its address is known at run time only. -/
def Loading.runTime (l : Loading) (f : Flow) (k : Nat) (u : Buffer) : Bool :=
  (l.layout u).coord && ((f.templateOf k).bind (fun n => l.img.templates[n]?)).any Template.pbaseEn

/-- The axis that an operand's per-problem base moves it along (R227). -/
def Loading.wideAxis (l : Loading) (f : Flow) (k : Nat) (u : Buffer) : Option Nat :=
  if l.runTime f k u then ((f.templateOf k).bind (fun n => l.img.templates[n]?)).map Template.pbaseAxis else none

/-- The bytes that an instruction may touch through a reference over all its entries. -/
def Loading.touchedAll (l : Loading) (f : Flow) (a : At) (w : Nat) : List (Nat × Nat) :=
  match l.bufOf w with
  | none => []
  | some u => if (l.layout u).coord then (l.entriesOf f a.idx).flatMap (fun e => l.touched a.ws w e.2 (l.wideAxis f a.idx u))
      else l.touched a.ws w [] none

/-! ### Read before write (R105, R174, R380) -/

/-- What is left of a range after a list of ranges has been taken from it. -/
def uncovered (r : Nat × Nat) : List (Nat × Nat) → List (Nat × Nat)
  | [] => if r.2 = 0 then [] else [r]
  | c :: cs =>
    if !meets r.1 r.2 c.1 c.2 then uncovered r cs
    else
      uncovered (r.1, c.1 - r.1) cs ++ uncovered (c.1 + c.2, r.1 + r.2 - (c.1 + c.2)) cs

/-- The buffer and the byte range that each descriptor of a COIL reads (`src`) or writes (R384). -/
def Loading.coilRanges (l : Loading) (a : At) (src : Bool) : List (Buffer × Nat × List (Nat × Nat)) :=
  if !isMove 5 a.ws then []
  else
    (l.coilDescs a.ws).filterMap (fun d =>
      let i := field (word64 d 0) (if src then 46 else 32) 14
      (l.buf i).map (fun u => (u, i, [(word64 d (if src then 1 else 2), 64 * field (word64 d 0) 8 24)])))

/-- The write references of an instruction, with the space, the buffer and the byte ranges within its half; those of a COIL's
descriptors too (R385). -/
def Loading.writesOf (l : Loading) (f : Flow) (a : At) : List (Buffer × Nat × List (Nat × Nat)) :=
  l.coilRanges a false ++ (outRefs a.ws).filterMap (fun w =>
    match l.bufOf w with
    | none => none
    | some u => if l.isGrad (readRef w).buf || l.isView (readRef w).buf then none else some (u, (readRef w).buf, l.touchedAll f a w))

/-- The SWAPs of a buffer before an index. -/
def Flow.swaps (f : Flow) (buf k : Nat) : Nat :=
  (f.st.take k).countP (fun a => isControl 5 a.ws && field (wordAt a.ws 1) 24 14 == buf)

/-- Byte ranges of a buffer in its space, those of a two-half buffer in the half that is on a side: the front half after `swaps` SWAPs
is half `swaps` mod 2, the back half the other (R379, R380). -/
def Buffer.onSide (u : Buffer) (side : Nat) (rs : List (Nat × Nat)) : List (Nat × Nat) :=
  rs.map (fun r => (u.base + (if u.halves then side % 2 * (u.size / 2) else 0) + r.1, r.2))

/-- Byte ranges of a buffer in its space: those within a half lie in both halves of a two-half buffer. -/
def Buffer.placed (u : Buffer) (rs : List (Nat × Nat)) : List (Nat × Nat) :=
  rs.flatMap (fun r => (u.base + r.1, r.2) :: (if u.halves then [(u.base + u.size / 2 + r.1, r.2)] else []))

/-- The reads of an instruction whose addresses are known at load: its input references into scratchpad and cluster memory,
but for fixed buffers, the source of a GATHER (its rows are chosen at run time) and per-problem bases. -/
def Loading.readsOf (l : Loading) (f : Flow) (a : At) : List (Buffer × Nat × List (Nat × Nat)) :=
  (l.coilRanges a true).filter (fun x => x.1.space == 1 && !x.1.fixed) ++ (inRefs a.ws).zipIdx.filterMap (fun p =>
    match l.bufOf p.1 with
    | none => none
    | some u =>
      if u.space = 2 || u.fixed || l.runTime f a.idx u || (classOf a.ws == 2 && (readSplice a.ws).op == 1 && p.2 == 1) || isMove 5 a.ws then none
      else some (u, (readRef p.1).buf, l.touchedAll f a p.1))

/-- The bytes that may have been written in a space before instruction `k` of a stream: by earlier instructions of its own stream, and
for cluster memory by any other stream of the same set, of the two-half buffer `halves` only before the SWAP that `k` follows. Each side
of a two-half buffer is a buffer of its own (R380). -/
def Loading.writtenBefore (l : Loading) (fs : List Flow) (f : Flow) (k space : Nat) (halves : Option Nat) : List (Nat × Nat) :=
  let of := fun (g : Flow) (a : At) (x : Buffer × Nat × List (Nat × Nat)) =>
    if x.1.space = space then x.1.onSide (g.swaps x.2.1 a.idx + 1) x.2.2 else []
  let own := (f.st.take k).flatMap (fun a => (l.writesOf f a).flatMap (of f a))
  let others := if space = 0 then []
    else (fs.filter (fun g => g.off != f.off)).flatMap (fun g => g.st.flatMap (fun a =>
      ((l.writesOf g a).filter (fun x => halves != some x.2.1 || decide (g.swaps x.2.1 a.idx < f.swaps x.2.1 k))).flatMap (of g a)))
  own ++ others

/-- The read-before-write check of the data of a stream: a read of a two-half buffer takes its front half (R379). -/
def Loading.dataReads (l : Loading) (fs : List Flow) (f : Flow) : List Finding :=
  f.st.flatMap (fun a => (l.readsOf f a).flatMap (fun x =>
    let w := l.writtenBefore fs f a.idx x.1.space (if x.1.halves then some x.2.1 else none)
    flag ((x.1.onSide (f.swaps x.2.1 a.idx) x.2.2).any (fun r => !(uncovered r w).isEmpty)) 0x0009 a.off))

/-- The statistics rows that an instruction starts, and those that it reads or updates (R153, R174): by set, over its planned range. -/
def statRows (ws : Words) : List (Nat × Nat × Nat) × List (Nat × Nat × Nat) :=
  let w := readRow ws
  let s := readShape (loOf ws 6)
  let r := readShape (hiOf ws 5)
  if classOf ws != 3 || !usesStats w then ([], [])
  else
    let rows := [(w.statSet, s.plan, r.plan)] ++ (if w.func = 7 then [(w.statSet + 1, s.plan, r.plan)] else [])
    if w.func ≤ 7 && w.func != 5 then (if w.starts then (rows, []) else ([], rows)) else ([], rows)

/-- The read-before-write check of the statistics records of a stream (R174). -/
def Loading.statReads (fs : List Flow) (f : Flow) : List Finding :=
  f.st.flatMap (fun a =>
    let before := (f.st.take a.idx) ++ (fs.filter (fun g => g.off != f.off)).flatMap Flow.st
    (statRows a.ws).2.flatMap (fun r =>
      let w := before.flatMap (fun b => (statRows b.ws).1.filterMap (fun x => if x.1 = r.1 then some x.2 else none))
      flag (!(uncovered r.2 w).isEmpty) 0x0009 a.off))

/-! ### Weight-gradient producers (R189, R299) -/

/-- A producer's output for one entry: its instruction, the entry, the tensor and the element ranges. -/
structure GradSite where
  at_ : At
  entry : Nat
  tensor : Nat
  runs : List (Nat × Nat)
  deriving DecidableEq, Repr

/-- The weight-gradient outputs of a set of streams, entry by entry. Byte offset j of a grad_buf is element j (R246). -/
def Loading.gradSites (l : Loading) (fs : List Flow) : List GradSite :=
  fs.flatMap (fun f => (f.st.filter (fun a => isProducer a.ws)).flatMap (fun a =>
    (outRefs a.ws).flatMap (fun w =>
      match indexOf (fun (t : Tensor) => t.mode == 0 && t.gradBuf == (readRef w).buf) l.img.tensors with
      | none => []
      | some t => (l.entriesOf f a.idx).map (fun e =>
          { at_ := a, entry := e.1.getD 0, tensor := t, runs := l.touched a.ws w e.2 ((l.bufOf w).bind (l.wideAxis f a.idx)) }))))

/-- Whether two lists of ranges meet. -/
def runsMeet (a b : List (Nat × Nat)) : Bool := a.any (fun x => b.any (fun y => meets x.1 x.2 y.1 y.2))

/-- An element covered twice (R189): 0x0024 at the later producer. -/
def tiedIn : List GradSite → List Finding
  | [] => []
  | s :: rest => (rest.filter (fun t => t.tensor == s.tensor && runsMeet s.runs t.runs)).map (fun t => (0x0024, t.at_.off)) ++ tiedIn rest

/-- The bucket of a tensor's segment. -/
def Reduce.bucketOf (r : Reduce) (t seg : Nat) : Option Nat :=
  (r.entries.find? (fun e => e.tensor == t && decide (e.firstSeg ≤ seg) && decide (seg < e.firstSeg + e.segCount))).map ReduceEntry.bucket

/-- The buckets that a producer's output reaches. -/
def GradSite.buckets (s : GradSite) (r : Reduce) : List Nat :=
  ((s.runs.flatMap (fun x => (List.range ((x.1 + x.2 - 1) / 4096 + 1 - x.1 / 4096)).map (· + x.1 / 4096))).filterMap (r.bucketOf s.tensor)).eraseDups

/-- The order of two producers (R186): by reel entry, then by instruction. -/
def GradSite.lt (a b : GradSite) : Bool := decide (a.entry < b.entry) || (a.entry == b.entry && decide (a.at_.idx < b.at_.idx))

/-- The last producer of a bucket precedes the first producer of the bucket that takes its staging slot (R299). -/
def Loading.bucketOrder (l : Loading) (ss : List GradSite) : List Finding :=
  match l.prog.reduce with
  | none => []
  | some r =>
    let by_ := ss.map (fun s => (s, s.buckets r))
    flag (by_.any (fun a => by_.any (fun b => a.2.any (fun k => b.2.contains (k + r.stagingCount)) && !a.1.lt b.1))) 0x000B (l.base 0xD)

/-! ### Static write aliasing (R206) -/

/-- A write site: the instruction, the entry, the buffer and the byte ranges it may write in its space. -/
structure WriteSite where
  flow : Flow
  at_ : At
  entry : Option Nat
  buf : Nat
  u : Buffer
  runs : List (Nat × Nat)
  deriving DecidableEq, Repr

/-- The write sites of an instruction: one for each reel entry, or one for all entries of a scratchpad destination, which every
core's tags order (R95). A grad_buf, a view and a fixed buffer are none. A per-problem base takes every value up to the planned extent
(R224). -/
def Loading.sitesOf (l : Loading) (f : Flow) (a : At) : List WriteSite :=
  let coil := (l.coilRanges a false).map (fun x =>
    { flow := f, at_ := a, entry := none, buf := x.2.1, u := x.1, runs := x.1.placed x.2.2 : WriteSite })
  coil ++ (outRefs a.ws).flatMap (fun w =>
    match l.bufOf w with
    | none => []
    | some u =>
      let i := (readRef w).buf
      if l.isGrad i || l.isView i || u.fixed then []
      else if u.space = 0 then [{ flow := f, at_ := a, entry := none, buf := i, u := u, runs := u.placed (l.touchedAll f a w) }]
      else (l.entriesOf f a.idx).map (fun e =>
        { flow := f, at_ := a, entry := e.1, buf := i, u := u, runs := u.placed (l.touched a.ws w e.2 (l.wideAxis f a.idx u)) }))

/-- Whether an instruction is an engine's (R206): MATRIX, SPLICE or ROW. -/
def isEngine (ws : Words) : Bool := decide (1 ≤ classOf ws) && decide (classOf ws ≤ 3)

/-- Whether an instruction of a stream from index `lo` on and before `hi` orders an earlier write: a WAIT on the counter that it
signals, or, where `passEnds`, a PASS_END. -/
def Flow.orders (f : Flow) (passEnds : Bool) (ctr : Option Nat) (lo hi : Nat) : Bool :=
  f.st.any (fun a => decide (lo ≤ a.idx) && decide (a.idx < hi) && ((passEnds && isControl 6 a.ws) || ctr.any (fun c => waitsOn c a.ws)))

/-- PASS_ENDs before an index. -/
def Flow.passes (f : Flow) (k : Nat) : Nat := (f.st.take k).countP (fun a => isControl 6 a.ws)

/-- Whether the region of the TAKE that an instruction runs under holds a WAIT on the counter that the instruction signals, which
orders its entries on a core. -/
def WriteSite.selfOrdered (a : WriteSite) : Bool :=
  a.flow.regions.any (fun r => r.2.2.contains a.at_.idx &&
    a.flow.st.any (fun x => r.2.2.contains x.idx && (signalOf a.at_.ws).any (fun c => waitsOn c x.ws)))

/-- Whether R206 accepts the intersection of two write sites. Between two streams a PASS_END lies between the sites where one stands
before its stream's and the other after it. -/
def WriteSite.accepted (a b : WriteSite) : Bool :=
  let same := a.flow.off == b.flow.off
  (a.u.combine != 0 && b.u.combine != 0) ||
  (same && a.at_.idx == b.at_.idx && (isMove 5 a.at_.ws || a.selfOrdered)) ||
  (same && isEngine a.at_.ws && isEngine b.at_.ws) ||
  (same && a.at_.idx != b.at_.idx && a.flow.orders true (signalOf a.at_.ws) (a.at_.idx + 1) b.at_.idx) ||
  (!same && (b.flow.orders false (signalOf a.at_.ws) 0 b.at_.idx || a.flow.orders false (signalOf b.at_.ws) 0 a.at_.idx ||
    a.flow.passes a.at_.idx != b.flow.passes b.at_.idx)) ||
  (a.buf == b.buf && a.u.halves && a.flow.swaps a.buf a.at_.idx != b.flow.swaps b.buf b.at_.idx)

/-- The pairs of write sites that alias: 0x0040 at the later one. Scratchpads are each core's own, so only sites of one stream
meet there. -/
def aliasIn : List WriteSite → List Finding
  | [] => []
  | a :: rest =>
    (rest.filter (fun b => a.u.space == b.u.space && (a.u.space != 0 || a.flow.off == b.flow.off) && runsMeet a.runs b.runs &&
      !a.accepted b)).map (fun b => (0x0040, b.at_.off)) ++ aliasIn rest

/-- The bytes that each core tile of a MATRIX instruction writes at its planned shapes (R69, R214). -/
def Loading.tileRuns (l : Loading) (ws : Words) (u : Buffer) (coords : List Nat) : List (List (Nat × Nat)) :=
  let m := (readShape (hiOf ws 4)).plan
  let n := (readShape (loOf ws 4)).plan
  (tileOrder false (groupCountOf m l.h.arrays) (ceilDiv n 128)).map (fun t =>
    (l.layout u).runs u.format (4096 * (readRef (hiOf ws 3)).off) coords (rect (colsOf n t.2) (rowsOf (List.range m) l.h.arrays t.1)))

/-- Whether any two of a list of write sets meet. -/
def anyRunsMeet : List (List (Nat × Nat)) → Bool
  | [] => false
  | r :: rs => rs.any (fun q => runsMeet r q) || anyRunsMeet rs

/-- A MATRIX instruction whose core tiles reach one address (R224): a site's own writes are accepted only within one core tile, or in
a combine buffer. -/
def Loading.tileAlias (l : Loading) (f : Flow) (a : At) : List Finding :=
  match l.bufOf (hiOf a.ws 3) with
  | none => []
  | some u =>
    let i := (readRef (hiOf a.ws 3)).buf
    if classOf a.ws != 1 || u.combine != 0 || l.isGrad i || l.tiled i then []
    else flag ((l.entriesOf f a.idx).any (fun e => anyRunsMeet (l.tileRuns a.ws u e.2))) 0x0040 a.off

/-- The checks over a set of streams that run together: the role streams, or those of the SCHEDULE section. -/
def Loading.together (l : Loading) (fs : List Flow) : List Finding :=
  let gs := l.gradSites fs
  fs.flatMap (fun f => l.dataReads fs f ++ Loading.statReads fs f) ++ tiedIn gs ++ l.bucketOrder gs ++
  aliasIn (fs.flatMap (fun f => f.st.flatMap (l.sitesOf f))) ++ fs.flatMap (fun f => f.st.flatMap (l.tileAlias f))

/-- Every check that follows the streams. -/
def Loading.flowChecks (l : Loading) : List Finding :=
  l.controls ++ l.views ++ l.together (l.flows.filter (fun f => !f.sched)) ++ l.together (l.flows.filter Flow.sched)

end Sys2Proof.Machine
end

