-- ==== Sys2Proof/Machine/Load.lean ====
section
/-!
DEFINITION. The loader (R204): the order of its checks, core sets and regions (R209, R210, R268), placement (R104, R208), and
the outcome of a LOAD (R205, R207, R428).
-/
namespace Sys2Proof.Machine

/-! ### The checks in order (R204, R205) -/

/-- The state region of an image (R268): both halves and the FACTORED accumulators, rounded up to 2 MiB. -/
def Loading.stateBytes (l : Loading) : Nat :=
  let perElem := fun (r : Nat) => if r = 2 then 4 else if r = 1 || r = 3 then 2 else 0
  let half := (l.trains.map (fun t => (((l.img.tensors[t]?).map Tensor.count).getD 0) * perElem (l.ruleOf t))).sum
  let facs := l.img.states.filter (fun s => l.ruleOf s.tensor == 4)
  let fac := (facs.map (fun s => 4 * (s.rows + s.cols) + 4)).sum
  let acc := (facs.map (fun s => 72 * (s.rows + s.cols + 1))).sum
  roundUp (2 * (half + fac) + acc) (2 ^ 21)

/-- The checks of the sections' contents. -/
def Loading.contents (l : Loading) : List Finding :=
  let fs := l.flows
  let reelOf := fun (a : At) => (fs.find? (fun f => f.st.contains a)).bind (fun f => f.templateOf a.idx)
  l.layouts ++ l.scales ++ l.buffers ++ l.statSets ++ l.tensors ++ l.groupChecks ++ l.adapters ++ l.reduce ++ l.experts reelOf ++
  l.reels ++ l.masks ++ l.init ++ l.schedule ++ l.roles ++ l.encodings ++ l.boundSlots ++ l.flowChecks ++
  flag (decide (l.env.capacity < l.h.hbmBytes + l.stateBytes)) 0x0023 24

/-- The stage of R14 that a check's status belongs to: MALFORMED, UNSUPPORTED, DENIED, then the aliasing stage. -/
def checkRank (code : Nat) : Nat := if code < 0x20 then 0 else if code < 0x30 then 1 else if code < 0x40 then 2 else 3

/-- The status of a check (R205, R326). -/
def checkStatus (code : Nat) : Nat :=
  if code < 0x20 then stMalformed else if code < 0x30 then stUnsupported else if code < 0x40 then stDenied else stAlias

/-- Whether one finding is reported before another (R204): by status, then by offset, then by code. -/
def Finding.before (a b : Finding) : Bool :=
  decide (checkRank a.1 < checkRank b.1) ||
  (checkRank a.1 == checkRank b.1 && (decide (a.2 < b.2) || (a.2 == b.2 && decide (a.1 ≤ b.1))))

/-- The finding that a load reports. -/
def firstFinding : List Finding → Option Finding
  | [] => none
  | f :: fs =>
    match firstFinding fs with
    | none => some f
    | some g => if Finding.before f g then some f else some g

/-- Whether the section table lies in the image, so that its entries can be read. -/
def Loading.tableRead (l : Loading) : Bool :=
  decide (64 ≤ l.h.sectTable) && l.h.sectTable % 64 == 0 && decide (l.h.sectTable + 32 * l.h.sections ≤ l.im.length)

/-- The findings of an image that needs no translation: every check that can be made, since the one at the lowest offset is reported
(R204). A MALFORMED header has the lowest offsets of all; without a table no section can be found; and the contents of an image of
an unknown major format are not read. -/
def Loading.findings (l : Loading) : List Finding :=
  let hs := l.header
  if hs.any (fun f => f.1 == 1) then hs
  else if !l.tableRead then hs ++ l.table
  else hs ++ l.table ++ l.signature ++ (if l.h.major = 1 || l.h.major = 2 then l.contents else [])

/-- The section that an image offset lies in; 0 for the header and the section table. -/
def Loading.sectionAt (l : Loading) (off : Nat) : Nat :=
  ((l.ss.find? (fun s => decide (s.off ≤ off) && decide (off < s.off + s.len))).map Sect.type).getD 0

/-- Whether no other MATRIX instruction can follow a weight-gradient product on any path of its stream, as T7-compatibility mode defers
these products and releases their slices at the step's end (R263, R264). -/
def Loading.deferredLast (l : Loading) : Bool :=
  (l.roleStreams ++ l.schedStreams).all (fun st =>
    let ws := st.map At.ws
    let opens := loopStacks ws 0 []
    (List.range ws.length).all (fun k => !isWg (ws.getD k []) ||
      (reachFrom ws opens ws.length ws.length (followers ws opens k) []).all (fun n =>
        classOf (ws.getD n []) != 1 || isWg (ws.getD n []))))

/-- The findings of a translation (R263, R264): one that does not defer the weight-gradient products is none, and one whose bytes do
not fit is UNSUPPORTED under 0x0025. -/
def Loading.t7Findings (n : Loading) : List Finding :=
  flag (!n.deferredLast) 0x0025 0 ++ n.findings.map (fun f => if f.1 = 0x000C then (0x0025, 0) else f)

/-- What the checks of an image come to: the finding reported, if any, and the native form that is placed. An image of major 1
is translated first (R182): its own header, table and signature are checked, then the translation. -/
def checkImage (env : LoadEnv) (im : List Byte) : Option Finding × Loading :=
  let l := Loading.of env im
  if l.h.major != 1 then (firstFinding l.findings, l)
  else
    let own := l.header ++ l.table ++ l.signature
    match Config.translateT7 im with
    | none => (firstFinding (own ++ [(0x0025, 0)]), l)
    | some im' =>
      let n := Loading.of { env with given := im'.length, policy := 0, agreed := setBit env.agreed 8 } im'
      (firstFinding (own ++ n.t7Findings), n)

/-! ### Resources (R209, R210, R334) -/

/-- The HBM open to job regions: all but the module's reserved 8 GiB, which the model keeps at the top. -/
def jobHbm : Nat := 1640677507072

/-- The blocks that job contexts hold: a job region with its state region. -/
def Module.blocks (m : Module) : List (Nat × Nat) :=
  (m.jobs.map (fun b => (b.hbmBase, b.image.hbmBytes + b.stateBytes))).filter (fun r => r.2 != 0)

/-- The lowest 2 MiB-aligned offset where a block fits. -/
def Module.fitBlock (m : Module) (n : Nat) : Option Nat :=
  let bs := m.blocks
  let ok := fun a => decide (a + n ≤ jobHbm) && bs.all (fun r => !meets a n r.1 r.2)
  leastBy id ((0 :: bs.map (fun r => roundUp (r.1 + r.2) (2 ^ 21))).filter ok)

/-- The footprint of an image in cluster memory (R210). -/
def Image.footprint (im : Image) : Nat :=
  roundUp ((((im.buffers.drop 1).filter (fun u => u.space == 1)).map (fun u => u.base + u.size)).foldl max 0) (2 ^ 20)

/-- The lowest 1 MiB-aligned offset of a cluster where a footprint fits. -/
def Cluster.fit (k : Cluster) (n : Nat) : Option Nat :=
  let rs := k.ranges.map (fun r => (r.2.1, r.2.2))
  let ok := fun a => decide (a + n ≤ 2 ^ 25) && rs.all (fun r => !meets a n r.1 r.2)
  leastBy id ((0 :: rs.map (fun r => roundUp (r.1 + r.2) (2 ^ 20))).filter ok)

/-- Whether a core can join a job's set (R209): free and unfenced in service, at a position that the role map uses, in a cluster
that can hold the footprint. -/
def Module.eligible (m : Module) (im : Image) (g : Nat) : Bool :=
  let c := m.core g
  c.live && !c.testing && c.fenceReq.isNone && c.job.isNone && im.roleMap.getD (g % 8) 0xFF != 0xFF &&
  ((m.cluster (clusterOf g)).fit im.footprint).isSome

/-- The core set (R209): the named cores, or without a mask the eligible ones in ascending number. -/
def Module.coreSet (m : Module) (im : Image) (mask : Nat) : Option (List Nat) :=
  let named := setBits mask 512
  let gs := if mask = 0 then ((List.range 384).filter (m.eligible im)).take im.coresMax else named
  if (mask != 0 && named.any (fun g => decide (384 ≤ g) || !m.eligible im g)) || decide (gs.length < im.coresMin) ||
    decide (im.coresMax < gs.length) then none
  else some gs

/-- The residency entries that an image reserves (R334). -/
def Program.entries (p : Program) : Nat := (p.experts.map Experts.capacity).getD 0

/-- Whether the module can take a load at all: every stack ready (R373), no stress test running (R488), and residency entries
left (R334). -/
def Module.canLoad (m : Module) (p : Program) : Bool :=
  (m.hbmStacks.all (fun s => s.ready && !s.failed)) && m.stress.state == 0 && decide (m.residency.length + p.entries ≤ 8192)

/-! ### Placement (R104, R208, R210) -/

/-- A core that joins a job: its scratchpad zero-filled unless this context was the last to hold it (R104), its tags EMPTY, its
statistics memory without pages (R174). The zero fill writes the spares of rows in remap too (R110). -/
def Core.join (j : Nat) (c : Core) : Core :=
  let c := c.stop 0
  let fresh := c.lastHolder != some j
  { c with job := some j, mem := { c.mem with
      sp := if fresh then [] else c.mem.sp, poison := if fresh then [] else c.mem.poison, full := [], pages := [],
      pending := if fresh then c.mem.pending.map (fun r => { r with written := List.range 32 }) else c.mem.pending } }

/-- A job's range reserved in a cluster and zero-filled (R210). -/
def Cluster.reserve (k : Cluster) (j base n : Nat) : Cluster :=
  { k with cm := k.cm.clear base n, poison := eraseRange k.poison (base / 32) (n / 32), ranges := k.ranges ++ [(j, base, n)],
           pending := touchRows cmAddr k.pending base n }

/-- The residency entries of a job, all FREE, at the lowest table entries that no job holds. -/
def Module.reserve (m : Module) (j n : Nat) : List (Nat × Residency) :=
  ((((List.range 8192).filter (fun k => !m.residency.any (fun r => r.1 == k))).take n).map (fun k =>
    (k, { expert := 0, job := j, state := 0, pinned := false, poisoned := false, frame := 0, present := 0, lastUse := 0 })))

/-- The FACTORED entries of a fresh job. -/
def Loading.factored (l : Loading) : List Factored :=
  (l.img.states.filter (fun s => l.ruleOf s.tensor == 4)).map (fun s =>
    { tensor := s.tensor, finished := false })

/-- The source and destination buffers of the LOAD_CM descriptors of every coil (R384). -/
def Loading.coilMoves (l : Loading) : List (Nat × Nat) :=
  (((l.prog.streams ++ l.prog.sched).flatMap id).flatMap (fun ws => if isMove 5 ws then l.coilDescs ws else [])).filterMap (fun d =>
    if field (word64 d 0) 60 4 = 1 then some (field (word64 d 0) 46 14, field (word64 d 0) 32 14) else none)

/-- The job's place in the module: its cores, its HBM block and its range in each cluster that holds one of its cores. -/
structure Place where
  cores : List Nat
  base : Nat
  ranges : List (Nat × Nat)
  deriving DecidableEq, Repr

/-- The resources of a load; none where it is denied (R209). -/
def Module.findPlace (m : Module) (l : Loading) (mask : Nat) : Option Place :=
  if !m.canLoad l.prog then none
  else
    match m.coreSet l.img mask, m.fitBlock (l.h.hbmBytes + l.stateBytes) with
    | some gs, some b =>
      let n := l.img.footprint
      some { cores := gs, base := b,
             ranges := if n = 0 then [] else ((gs.map clusterOf).eraseDups).filterMap (fun k => ((m.cluster k).fit n).map (fun o => (k, o))) }
    | _, _ => none

/-- Placement (R208): the region zero-filled, INIT copied, descriptors written, cores and cluster ranges handed over. -/
def Module.place (m : Module) (j seed : Nat) (im : List Byte) (l : Loading) (p : Place) : Module :=
  let n := l.h.hbmBytes + l.stateBytes
  let fp := l.img.footprint
  let hbm := (readInit (l.count 0xF) (l.sec 0xF)).foldl (fun (h : Mem) c => h.write (p.base + c.1) c.2.1) (m.hbm.clear p.base n)
  let m := { m with hbm := hbm, hbmPoison := eraseRange m.hbmPoison (p.base / 32) (n / 32), bursts := rewritten m.bursts p.base n,
                    residency := m.residency ++ m.reserve j l.prog.entries }
  let m := p.ranges.foldl (fun (m : Module) r => m.onCluster r.1 (fun k => k.reserve j r.2 fp)) m
  let m := p.cores.foldl (fun (m : Module) g => m.onCore g (fun c => c.join j)) m
  m.onJob j (fun b => { Job.free with
    pendingSnap := b.pendingSnap,
    state := 2, seed := seed, hbmBase := p.base, stateBytes := l.stateBytes, hash := sha512 im, cores := p.cores, footprint := fp,
    tagLimit := m.odGet (odKey 0x4200 9), cmBases := p.ranges, image := l.img, prog := { l.prog with coils := l.coilMoves }, bounds := l.bounds,
    descs := l.descs.map ScaleDesc.fresh, factored := l.factored,
    slots := List.replicate ((l.prog.adapters.map Adapters.slots).getD 0) { state := 0, set := 0, setSteps := 0, next := 0 },
    t7 := (readHeader im).major == 1 })

/-! ### The outcome -/

/-- What a LOAD's response reports: status, check code, section type, byte offset and image_id. -/
structure LoadResult where
  status : Nat
  check : Nat
  sect : Nat
  off : Nat
  imageId : Nat
  deriving DecidableEq, Repr

/-- A load rejected: counted, with event 0x0350; its context is ENDED with the status and the check code, unless the context
was not the load's own. -/
def Module.rejectLoad (fu : Fuses) (m : Module) (j seed : Nat) (own : Bool) (r : LoadResult) : Module :=
  let m := if own then m.onJob j (fun b => { Job.free with pendingSnap := b.pendingSnap, state := 4, endStatus := r.status, loadCheck := r.check, seed := seed }) else m
  (m.bump (odKey 0x3210 3) 1).event fu 0x0350 [j, r.status, r.check, r.sect, r.off]

/-- What the module lends to the checks of a LOAD. -/
def Module.loadEnv (fu : Fuses) (m : Module) (port policy keys given : Nat) : LoadEnv :=
  { grade := fu.grade, capacity := m.odGet (odKey 0x3210 1), minorMax := m.odGet (odKey 0x3210 6), offered := featuresOffered,
    agreed := (m.port port).agreed, policy := policy,
    keys := ((List.range 8).map (fun k => leBytes 64 (field keys (512 * k) 512))).filter (fun h => h.any (fun b => b != 0)),
    experts := if m.storeReads then (m.store.objs.filter (fun o => o.part == 1)).map (fun o => (o.id, o.len)) else [], given := given }

/-- The checks of an image with the resources that the module has for it (R204, R209): DENIED under 0x0032 where there are none
stands among the findings of stage 1, and stage 2 is reached only when stage 1 is clean. -/
def Module.judge (m : Module) (env : LoadEnv) (im : List Byte) (mask : Nat) : Option Finding × Loading × Option Place :=
  let r := checkImage env im
  match r.1 with
  | some f => if checkRank f.1 < 2 then (some f, r.2, none) else
      let p := m.findPlace r.2 mask
      (firstFinding ([f] ++ flag p.isNone 0x0032 0), r.2, p)
  | none =>
    let p := m.findPlace r.2 mask
    (firstFinding (flag p.isNone 0x0032 0), r.2, p)

/-- The loader run on a whole image in context `j`, which is LOADING. -/
def Module.load (fu : Fuses) (m : Module) (j port seed mask policy keys given : Nat) (im : List Byte) : Module × LoadResult :=
  let v := m.judge (m.loadEnv fu port policy keys given) im mask
  let id := beNat ((sha512 im).take 8)
  match v.1, v.2.2 with
  | none, some p =>
    let m := (m.place j seed im v.2.1 p).bump (odKey 0x3210 2) 1
    let m := if (m.job j).t7 then m.event fu 0x0363 [j, id] else m
    (m, { status := stOk, check := 0, sect := 0, off := 0, imageId := id })
  | some f, _ =>
    let r : LoadResult := { status := checkStatus f.1, check := f.1, sect := v.2.1.sectionAt f.2, off := f.2, imageId := id }
    (m.rejectLoad fu j seed true r, r)
  | none, none => (m, { status := stDenied, check := 0x0032, sect := 0, off := 0, imageId := id })

end Sys2Proof.Machine
end

