-- ==== Sys2Proof/Machine/HostCmd.lean ====
section
/-!
DEFINITION. What a host command does once it starts (R426, R427): loads (R428), binds (R199), steps (R239, R293, R309), the
end and the release of jobs (R208, R344), variant commands (R256), snapshots and restores (R258, R286), pins (R338), job data
(R427) and coil store objects (R399, R400).
-/
namespace Sys2Proof.Machine

/-! ### Commands in a queue -/

/-- Argument word n (R426). -/
def Cmd.w (c : Cmd) (n : Nat) : Nat := c.args.getD (n - 2) 0

/-- Whether an opcode names a job (R426). -/
def namesJob (op : Nat) : Bool :=
  (decide (1 ≤ op) && decide (op ≤ 6)) || (decide (0x10 ≤ op) && decide (op ≤ 0x14)) ||
  (decide (0x18 ≤ op) && decide (op ≤ 0x1B)) || op == 0x20 || op == 0x21

/-- Whether an opcode is a job-state command (R424). -/
def isJobState (op : Nat) : Bool := namesJob op && op != 0x20 && op != 0x21

/-- Whether an opcode carries a data chain (R422). -/
def isChain (op : Nat) : Bool := op == 1 || op == 0x20 || op == 0x28

/-- The data length D that travels with a chained command (R421, R426): for LOAD, the mask block and the image. -/
def Cmd.dataLen (c : Cmd) : Nat :=
  if c.opcode = 1 then c.w 2 + (if bitAt (c.w 4) 0 then 64 else 0)
  else if c.opcode = 0x20 then c.w 3
  else if c.opcode = 0x28 then c.w 4
  else 0

/-- Whether every packet of a command has come. -/
def Cmd.whole (c : Cmd) : Bool := decide (c.dataLen ≤ c.got)

/-- The queue with the command of a tag changed. -/
def Queue.onCmd (t : Queue) (tag : Nat) (f : Cmd → Cmd) : Queue :=
  { t with cmds := t.cmds.map (fun c => if c.tag = tag then f c else c) }

/-- The module with the command of a tag changed. -/
def Module.onCmd (m : Module) (q tag : Nat) (f : Cmd → Cmd) : Module := m.onQueue q (fun t => t.onCmd tag f)

/-- A command that has started and whose end comes later. -/
def Module.started (m : Module) (q : Nat) (c : Cmd) : Module := m.onCmd q c.tag (fun c => { c with state := 1 })

/-! ### Loads (R428, R204) -/

/-- The HBM that images being staged occupy. -/
def Module.stagedBytes (m : Module) : Nat :=
  ((m.host.queues.flatMap (fun t => t.cmds.filter (fun c => c.opcode == 1 && c.state == 1))).map (fun c => c.w 2)).sum

/-- The free HBM outside every job region and the reserved 8 GiB. -/
def Module.freeHbm (m : Module) : Nat := jobHbm - (m.blocks.map Prod.snd).sum - m.stagedBytes

/-- The check of a LOAD's own arguments (R428). -/
def Module.loadArgs (m : Module) (c : Cmd) : Option LoadResult :=
  let bad := fun (st check : Nat) => some { status := st, check := check, sect := 0, off := 0, imageId := 0 }
  if 2 ^ 34 < c.w 2 || c.w 2 % 64 != 0 then bad stUnsupported 0x0022
  else if (m.job c.job).state != 0 || m.freeHbm < c.w 2 then bad stDenied 0x0032
  else none

/-- The final response of a LOAD. -/
def Module.answerLoad (m : Module) (q : Nat) (c : Cmd) (r : LoadResult) : Module :=
  (m.onQueue q (fun t => t.markAnswered c.tag)).pushResp q
    { Resp.plain c.opcode c.tag c.job r.status true with check := r.check, section_ := r.sect, w4 := r.off, w5 := r.imageId }

/-- A LOAD starts: its arguments pass and the context is LOADING, or the load is rejected. -/
def Module.startLoad (fu : Fuses) (m : Module) (q : Nat) (c : Cmd) : Module :=
  match m.loadArgs c with
  | some r => (m.rejectLoad fu c.job (c.w 3) ((m.job c.job).state == 0) r).answerLoad q c r
  | none => (m.onJob c.job (fun b => { Job.free with state := 1, seed := c.w 3, pendingSnap := b.pendingSnap })).started q c

/-- A whole image goes to the loader. -/
def Module.endLoad (fu : Fuses) (m : Module) (q : Nat) (c : Cmd) : Module :=
  let masked := bitAt (c.w 4) 0
  let r := m.load fu c.job (q / 8) (c.w 3) (if masked then leNat (c.data.take 64) else 0) c.policy c.keys (c.w 2)
    (((if masked then c.data.drop 64 else c.data)).take (c.w 2))
  r.1.answerLoad q c r.2

/-- A context whose LOAD ends without its image (R421, R432): ENDED with a status, no resource taken. -/
def Module.dropLoad (m : Module) (j status : Nat) : Module :=
  m.onJob j (fun b => if b.state = 0 || b.state = 1 then { Job.free with state := 4, endStatus := status, seed := b.seed, pendingSnap := b.pendingSnap } else b)

/-! ### Binds, steps and the life of a job -/

/-- Whether a job is LOADED or RUNNING. -/
def Job.live (b : Job) : Bool := b.state == 2 || b.state == 3

/-- Whether an ADDRESS bind leaves what it names inside the job region (R199, R254): the offset, and of the slot that places
the slot row lists all of them. -/
def Job.bindFits (b : Job) (slot v : Nat) : Bool :=
  let lists := match b.prog.adapters with
    | some a => if a.rlSlot = slot then 256 + 4 * a.rlMax * a.slots else 1
    | none => 1
  decide (v + lists ≤ b.image.hbmBytes)

/-- BIND (R199). -/
def Module.bind (m : Module) (q : Nat) (c : Cmd) : Module :=
  let b := m.job c.job
  match b.bounds.find? (fun x => x.slot == c.w 2) with
  | none => m.answer q c (if b.state = 0 then stDenied else stMalformed) 0 0
  | some x =>
    if !b.live || (x.address && !b.bindFits x.slot (c.w 3)) then m.answer q c stDenied 0 0
    else (m.onJob c.job (fun b => { b with
        bounds := b.bounds.map (fun x => if x.slot = c.w 2 then { x with next := c.w 3 } else x) })).answer q c stOk 0 0

/-- Whether a STEP is refused (R426): its job is not LOADED or RUNNING; it is the job of a rope of more than one module that is
not READY; or hash_hold is set at rank 0 (R309). -/
def Module.stepDenied (m : Module) (j : Nat) : Bool :=
  !(m.job j).live || (m.inRope j && m.ropeState != 2) ||
  (m.rank == 0 && m.odGet (odKey 0x7110 6) != 0)

/-- STEP: the step may start at the next STEP_START. -/
def Module.askStep (m : Module) (q : Nat) (c : Cmd) : Module :=
  if m.stepDenied c.job then m.answer q c stDenied (m.job c.job).step 0
  else (m.onRun c.job (fun r => { r with stepAsked := true, stepQ := q })).started q c

/-- END_JOB: the job ends CANCELLED (R208). -/
def Module.endByHost (fu : Fuses) (m : Module) (q : Nat) (c : Cmd) : Module :=
  if !(m.job c.job).live then m.answer q c stDenied 0 0
  else (m.endJob fu c.job stCancelled).answer q c stOk 0 0

/-- RELEASE_JOB: an ENDED context is FREE again (R208). -/
def Module.releaseJob (m : Module) (q : Nat) (c : Cmd) : Module :=
  if (m.job c.job).state != 4 then m.answer q c stDenied 0 0
  else (m.onJob c.job (fun b => { Job.free with pendingSnap := b.pendingSnap })).answer q c stOk 0 0

/-- The instructions in flight on a core that a CANCEL_BATCH ends at once: all but those of routers' reel entries, which end as
stale answers, a view read that is halted, or a movement that waits otherwise, at once (R340, R343, R344). No unit of a movement behind
them moves: it ends as a stale answer too. -/
def Module.cancelCore (fu : Fuses) (j : Nat) (m : Module) (g : Nat) : Module :=
  let c := m.core g
  let gone := fun (i : Inst) => !m.ofRouter i
  let waiting := if c.seq.wait.isSome then (m.instAt g j).toList else []
  let ended := (((c.channels.flatMap (fun ch => ch.map Move.inst)) ++ (c.tiles.filter Tile.last).map Tile.inst ++
    c.gathers.map PendGather.inst).filter gone ++ waiting).eraseDups
  let held := fun (v : Move) => m.stale v.inst && v.wait.isSome
  let m := (ended.foldl (fun (m : Module) i => m.instrDone fu i stCancelled) m)
  let m := ((c.channels.flatMap id).filter held).foldl (fun (m : Module) v => m.dropStale fu v.inst) m
  m.onCore g (fun c => { c with
    channels := c.channels.map (fun ch => (ch.filter (fun v => !gone v.inst && !held v)).map Move.cancelled),
    tiles := c.tiles.filter (fun t => !gone t.inst), gathers := c.gathers.filter (fun p => !gone p.inst),
    seq := { c.seq with wait := none } })

/-- CANCEL_BATCH (R344): the running step attempt is abandoned under a new epoch. In a rope every rank replays it under R312, this one too:
DEDUCED (log entry 27), its step goes on with the raised attempt number and does not end. -/
def Module.cancelBatch (fu : Fuses) (m : Module) (q : Nat) (c : Cmd) : Module :=
  let j := c.job
  let b := m.job j
  if b.state = 2 then m.answer q c stOk b.run.epoch 0
  else if b.state != 3 then m.answer q c stDenied 0 0
  else
    let e := (b.run.epoch + 1) % 65536
    let m := (m.bump (odKey 0x3250 4) 1).event fu 0x0371 [j, b.run.epoch, e]
    let m := m.onRun j (fun r => { r with epoch := e, mustReplay := some stCancelled })
    let m := b.cores.foldl (fun m g => m.cancelCore fu j g) m
    (if m.inRope j then (m.sendAbort 3 stCancelled).restart fu j stCancelled true else m.settleCancel fu j).answer q c stOk e 0

/-! ### Variant commands (R256) -/

/-- A variant command's failure: event 0x0361. -/
def Module.variantFails (fu : Fuses) (m : Module) (q : Nat) (c : Cmd) (slot set status : Nat) : Module :=
  (m.event fu 0x0361 [c.job, c.opcode, slot, set, status]).answer q c status 0 0

/-- A slot of a job changed. -/
def Module.onSlot (m : Module) (j v : Nat) (f : Slot → Slot) : Module :=
  m.onJob j (fun b => { b with slots := modifyAt f b.slots v })

/-- An EMPTY slot. -/
def Slot.empty : Slot := { state := 0, set := 0, setSteps := 0, next := 0 }

/-- The bytes of one slot's weights in every adapter tensor, and of its optimizer state. -/
def Job.setSizes (b : Job) : Nat × Nat :=
  ((b.adapterTensors.map (fun t => 2 * b.regionElems t)).sum, (b.adapterTensors.map b.stateLen).sum)

/-- Whether a stored set fits a job's slots: saved under the same ADAPTERS sites where a job saved it, and of the length of
the weights with or without the state. -/
def Job.setFits (b : Job) (o : Obj) : Bool :=
  let n := b.setSizes
  (o.sites.isEmpty || o.sites == b.sitesHash) && (o.len == n.1 || o.len == n.1 + n.2)

/-- Why a STAGE fails before it reads (R256, in the order of R14). -/
def Module.stageRefused (m : Module) (j v set : Nat) : Nat :=
  let b := m.job j
  let o := if m.storeReads then m.store.find 2 set else none
  if b.state = 0 then stDenied
  else if o.any (fun o => !b.setFits o) then stUnsupported
  else if !b.live || !m.storeReads || decide (b.slots.length ≤ v) || ((b.slots[v]?).map Slot.state).getD 2 = 2 then stDenied
  else if (b.slots.zipIdx).any (fun s => s.2 != v && s.1.state != 0 && s.1.set == set) then stAlias
  else if o.isNone then stBadIndex
  else stOk

/-- The bytes of a stored set that a STAGE reads: its weights, and at rank 0 the optimizer state stored with it. -/
def Module.stageReads (m : Module) (j : Nat) (o : Obj) : Nat :=
  if m.isRank0 j then o.len else (m.job j).setSizes.1

/-- STAGE: a stored set read into a slot. It is one command: a step start that finds it in progress waits the time that STEP_START
carries. -/
def Module.stageSet (fu : Fuses) (m : Module) (q : Nat) (c : Cmd) : Module :=
  let v := c.w 2
  let set := c.w 3
  let st := m.stageRefused c.job v set
  if st != stOk then m.variantFails fu q c v set st
  else
    match m.store.find 2 set with
    | none => m.variantFails fu q c v set stBadIndex
    | some o =>
      let n := m.stageReads c.job o
      if (o.firstPoison 0 n).isSome then
        (m.onSlot c.job v (fun _ => Slot.empty)).variantFails fu q c v set stPoison
      else
        let has := o.len != (m.job c.job).setSizes.1
        let o := { o with hasState := has }
        let m := (m.takeSet c.job v o).onSlot c.job v (fun s => { s with
          state := 1, set := set, setSteps := if has then o.setSteps else 0 })
        ((m.bump (odKey 0x3230 4) n).bump (odKey 0x6020 11) n).answer q c stOk 0 0

/-- The first slot of a mask that is not in a state. -/
def Job.slotNotIn (b : Job) (mask state : Nat) : Option Nat :=
  (setBits mask 64).find? (fun v => ((b.slots[v]?).map Slot.state) != some state)

/-- ACTIVATE and DEACTIVATE: every slot of the mask turns over at the next step start, or none. -/
def Module.turnSlots (fu : Fuses) (m : Module) (q : Nat) (c : Cmd) (state next : Nat) : Module :=
  let b := m.job c.job
  let set := fun (v : Nat) => ((b.slots[v]?).map Slot.set).getD 0
  match b.slotNotIn (c.w 2) state with
  | some v => m.variantFails fu q c v (set v) stDenied
  | none =>
    if !b.live then m.variantFails fu q c 0 0 stDenied
    else ((setBits (c.w 2) 64).foldl (fun (m : Module) v => m.onSlot c.job v (fun s => { s with next := next })) m).answer q c stOk 0 0

/-- SAVE: a slot's committed half written as its set. DESIGN CHOICE (log entry 23): one whose source granules are poisoned, for which R256's
tables give no status, ends POISON with the variant commands' event, and writes nothing. -/
def Module.saveSet (fu : Fuses) (m : Module) (q : Nat) (c : Cmd) : Module :=
  let b := m.job c.job
  let v := c.w 2
  let s := (b.slots[v]?).getD Slot.empty
  if !b.live || s.state = 0 then m.variantFails fu q c v s.set stDenied
  else
    let bs := m.setBytes c.job v
    let st := m.writeRefused 2 s.set bs.length
    if st != stOk then m.variantFails fu q c v s.set st
    else
    let bad := b.adapterTensors.any (fun t => m.regionPoison c.job t v || (m.isRank0 c.job && m.regionStatePoison c.job t v))
    let m := m.hbmReads fu c.job (b.adapterTensors.flatMap (fun t => b.regionRanges t v true (m.isRank0 c.job)))
    if bad then m.variantFails fu q c v s.set stPoison
    else
      let o := { Obj.named 2 s.set with setSteps := s.setSteps, hasState := m.isRank0 c.job, sites := b.sitesHash }
      ((m.putObj fu o bs).bump (odKey 0x3230 5) bs.length).answer q c stOk 0 0

/-- RELEASE_SLOT: a STAGED slot is EMPTY. -/
def Module.freeSlot (fu : Fuses) (m : Module) (q : Nat) (c : Cmd) : Module :=
  let b := m.job c.job
  let s := (b.slots[c.w 2]?).getD Slot.empty
  if !b.live || s.state != 1 then m.variantFails fu q c (c.w 2) s.set stDenied
  else (m.onSlot c.job (c.w 2) (fun _ => Slot.empty)).answer q c stOk 0 0

/-! ### Snapshots, restores, pins -/

/-- SNAPSHOT (R258): at once while the job is LOADED, else at the next step boundary. -/
def Module.snapshot (fu : Fuses) (m : Module) (q : Nat) (c : Cmd) : Module :=
  if badModuleId (c.w 5) then m.snapFailed fu q c stMalformed
  else if (m.job c.job).state = 2 then m.captureSnapshot fu q c
  else if (m.job c.job).state = 3 then m.started q c
  else m.snapFailed fu q c stDenied

/-- Why a RESTORE fails (R286, R400, in the order of R14). -/
def Module.restoreRefused (m : Module) (j : Nat) (o : Option Obj) : Nat :=
  let b := m.job j
  if o.any (fun o => leAt o.bytes 0 8 != b.imageId || snapSeed o.bytes != b.seed) then stUnsupported
  else if b.state != 2 || b.run.stepAsked || !m.isRank0 j || !m.storeReads then stDenied
  else if o.isNone then stBadIndex
  else if o.any (fun o => !o.poison.isEmpty) then stPoison
  else stOk

/-- RESTORE (R286): the snapshot becomes the committed state, and in a rope rank 0 broadcasts it. -/
def Module.restore (fu : Fuses) (m : Module) (q : Nat) (c : Cmd) : Module :=
  let j := c.job
  let o := if m.storeReads then (m.store.kept j).find? (fun o => o.id == moduleId 0 j (c.w 2) && decide (c.w 2 < 2 ^ 32)) else none
  let st := m.restoreRefused j o
  match o with
  | none => m.answer q c st (m.job j).step 0
  | some o =>
    if st != stOk then m.answer q c st (m.job j).step 0
    else
      let m := (((m.restoreFrom j o.bytes).bump (odKey 0x7140 3) 1).bump (odKey 0x6020 11) o.len).odSet (odKey 0x7110 6) 0
      let m := if !m.inRope j then m
        else
          let m := m.onRope (fun r => { r with afterRestore := some (m.job j).step })
          if m.ropeState = 2 || m.ropeState = 3 then (m.setRopeState fu 3).startResync fu else m
      m.answer q c stOk (m.job j).step 0

/-- The experts that a job has pinned or asked to have pinned. -/
def Module.pinnedOf (m : Module) (j : Nat) : List Nat :=
  (((m.entriesOf j).filter (fun r => r.2.state != 0 && r.2.pinned)).map (fun r => r.2.expert) ++
   ((m.job j).fetches.filter (fun f => f.pin && !f.started)).map Fetch.expert).eraseDups

/-- The residency of an expert with its pin set or cleared. -/
def Module.setPin (m : Module) (j e : Nat) (on : Bool) : Module :=
  ({ m with residency := m.residency.map (fun (r : Nat × Residency) =>
      if r.2.job = j && r.2.state != 0 && r.2.expert = e then (r.1, { r.2 with pinned := on }) else r) }).onJob j
    (fun b => { b with fetches := b.fetches.map (fun (f : Fetch) => if f.expert = e then { f with pin := on } else f) })

/-- PIN_EXPERT (R338). -/
def Module.pinExpert (m : Module) (q : Nat) (c : Cmd) : Module :=
  let j := c.job
  let e := c.w 2
  let x := (m.job j).prog.experts
  let ps := m.pinnedOf j
  if !(m.job j).live || (!ps.contains e && decide (((x.map Experts.capacity).getD 0) - 1 < ps.length + 1)) then
    m.answer q c stDenied 0 0
  else if ((x.map Experts.expertCount).getD 0) ≤ e then m.answer q c stBadIndex 0 0
  else if (m.entriesOf j).any (fun r => r.2.state != 0 && r.2.expert == e) then (m.setPin j e true).answer q c stOk 0 0
  else ((m.askFetch j e).setPin j e true).started q c

/-- UNPIN_EXPERT (R338). -/
def Module.unpinExpert (m : Module) (q : Nat) (c : Cmd) : Module :=
  let x := (m.job c.job).prog.experts
  if !(m.job c.job).live then m.answer q c stDenied 0 0
  else if ((x.map Experts.expertCount).getD 0) ≤ c.w 2 then m.answer q c stBadIndex 0 0
  else (m.setPin c.job (c.w 2) false).answer q c stOk 0 0

/-! ### Job data (R427) -/

/-- Why a range of a job region is refused: it lies outside, or in a stack that is not ready (R373), or it is empty. -/
def Module.rangeRefused (m : Module) (j off n : Nat) : Nat :=
  let b := m.job j
  if b.image.hbmBytes < off + n then stDenied
  else if n = 0 then stEmptyOp
  else if (stacksOf (b.hbmBase + off) n).all (fun p => (m.stack p).ready) then stOk
  else stDenied

/-- Whether a command on job data waits for a stopped stack (R367). -/
def Module.dataStopped (m : Module) (c : Cmd) : Bool := (List.range 24).any (fun p => m.dataWaits p c)

/-- The payload bytes of a WRITE_JOB that have come, written to the job region, once none of its stacks is stopped (R367); its end once
all have come, or where a stack is not ready any more (R373). -/
def Module.feedWrite (m : Module) (q : Nat) (c : Cmd) : Module :=
  let at_ := c.got - c.data.length
  let bs := c.data.take (c.dataLen - at_)
  let st := m.rangeRefused c.job (c.w 2) (c.w 3)
  if m.dataStopped c then m
  else if st != stOk then m.answer q c st 0 0
  else
    let m := m.storeAt c.job 0 2 (c.w 2 + at_) bs false
    if c.whole then m.answer q c stOk 0 0 else m.onCmd q c.tag (fun c => { c with data := [] })

/-- READ_JOB: every byte is delivered, and poison is reported. -/
def Module.readJob (fu : Fuses) (m : Module) (q : Nat) (c : Cmd) : Module :=
  let b := m.job c.job
  let st := m.rangeRefused c.job (c.w 2) (c.w 3)
  if b.state = 0 || b.state = 1 then m.answer q c stDenied 0 0
  else if st != stOk then m.answer q c st 0 0
  else
    let a := b.hbmBase + c.w 2
    let bad := m.hbmPoison.filter (fun g => decide (32 * g < a + c.w 3) && decide (a < 32 * g + 32))
    (m.request fu c.job a (c.w 3)).answerData q c (if bad.isEmpty then stOk else stPoison) ((bad.head?.map (fun g => 32 * g - a)).getD 0) bad.length
      (m.bytesAt c.job 0 2 (c.w 2) (c.w 3))

/-! ### Objects of the coil store (R399, R400) -/

/-- Whether W2 names a partition that holds objects. -/
def Cmd.partOk (c : Cmd) : Bool := decide (1 ≤ c.w 2) && decide (c.w 2 ≤ 3)

/-- Why an OBJ_WRITE is refused before its data come. -/
def Module.objWriteRefused (m : Module) (c : Cmd) : Nat :=
  if !c.partOk || (c.w 2 == 3 && badModuleId (c.w 3)) then stMalformed else m.writeRefused (c.w 2) (c.w 3) (c.w 4)

/-- OBJ_WRITE starts: the object has a write in progress. -/
def Module.startObjWrite (m : Module) (q : Nat) (c : Cmd) : Module :=
  let st := m.objWriteRefused c
  if st != stOk then m.answer q c st 0 0
  else (m.onStore (fun s => { s with writing := s.writing ++ [(c.w 2, c.w 3)] })).started q c

/-- An object has no write in progress any more. -/
def Module.closeWrite (m : Module) (c : Cmd) : Module :=
  m.onStore (fun s => { s with writing := s.writing.filter (· != (c.w 2, c.w 3)) })

/-- All data of an OBJ_WRITE have come: its version is recorded. -/
def Module.endObjWrite (fu : Fuses) (m : Module) (q : Nat) (c : Cmd) : Module :=
  let m := m.closeWrite c
  let st := m.objWriteRefused c
  if st != stOk then m.answer q c st 0 0
  else (m.putObj fu (Obj.named (c.w 2) (c.w 3)) (c.data.take (c.w 4))).answer q c stOk 0 0

/-- Why an object cannot be read or described. -/
def Module.objRefused (m : Module) (c : Cmd) : Nat :=
  if !c.partOk then stMalformed
  else if !m.storeReads then stDenied
  else if (m.store.find (c.w 2) (c.w 3)).isNone then stBadIndex
  else stOk

/-- OBJ_READ: the bytes of the range up to the first page with poison, which is reported (R402). -/
def Module.objRead (m : Module) (q : Nat) (c : Cmd) : Module :=
  let st := m.objRefused c
  if st = stMalformed || st = stDenied then m.answer q c st 0 0
  else if c.w 5 = 0 then m.answer q c stEmptyOp 0 0
  else
    match m.store.find (c.w 2) (c.w 3) with
    | none => m.answer q c stBadIndex 0 0
    | some o =>
      if o.len < c.w 4 + c.w 5 then m.answer q c stBadIndex 0 0
      else
        let p := o.firstPoison (c.w 4) (c.w 5)
        let n := o.delivered (c.w 4) (c.w 5)
        (m.bump (odKey 0x6020 11) n).answerData q c (if p.isSome then stPoison else stOk) (p.getD 0) 0 (o.data.read (c.w 4) n)

/-- OBJ_DELETE: the object and its extents are gone (R400, R406). -/
def Module.objDelete (m : Module) (q : Nat) (c : Cmd) : Module :=
  if !c.partOk then m.answer q c stMalformed 0 0
  else if m.coilState != 2 || (c.w 2 == 2 && bitAt (m.odGet (odKey 0x6030 1)) (c.w 3)) ||
      (c.w 2 == 1 && m.expertNamed (c.w 3)) then m.answer q c stDenied 0 0
  else if (m.store.find (c.w 2) (c.w 3)).isNone then m.answer q c stBadIndex 0 0
  else (m.onStore (fun s => { s with objs := s.objs.filter (fun o => !(o.part == c.w 2 && o.id == c.w 3)) })).answer q c stOk 0 0

/-- OBJ_INFO: the hash, the length and the kind. -/
def Module.objInfo (m : Module) (q : Nat) (c : Cmd) : Module :=
  let st := m.objRefused c
  match m.store.find (c.w 2) (c.w 3) with
  | none => m.answer q c st 0 0
  | some o =>
    if st != stOk then m.answer q c st 0 0
    else
      let kind := if o.part = 3 && bitAt o.id 63 then field o.id 60 3 else (Config.objectKind o.part o.id).toNat
      m.answerData q c stOk o.len kind o.sha

/-! ### Starting -/

/-- The data of a started chain command go to their destination, and its end once all have come. -/
def Module.feed (fu : Fuses) (m : Module) (q tag : Nat) : Module :=
  match (m.queue q).cmds.find? (fun c => c.tag == tag) with
  | none => m
  | some c =>
    if c.state != 1 then m
    else if c.opcode = 0x20 then m.feedWrite q c
    else if !c.whole then m
    else if c.opcode = 1 then m.endLoad fu q c
    else if c.opcode = 0x28 then m.endObjWrite fu q c
    else m

/-- Whether every failure of a command raises an event (R256, R258): the variant commands and SNAPSHOT, which turn a FREE context
away themselves, in the order of R14. -/
def tellsFailure (op : Nat) : Bool := (decide (0x10 ≤ op) && decide (op ≤ 0x14)) || op == 0x18

/-- A command starts. -/
def Module.startCmd (fu : Fuses) (m : Module) (q : Nat) (c : Cmd) : Module :=
  if c.opcode != 1 && namesJob c.opcode && !tellsFailure c.opcode && (m.job c.job).state == 0 then m.answer q c stDenied 0 0
  else
    match c.opcode with
    | 0x00 => m.answer q c stOk 0 0
    | 0x01 => (m.startLoad fu q c).feed fu q c.tag
    | 0x02 => m.bind q c
    | 0x03 => m.askStep q c
    | 0x04 => m.endByHost fu q c
    | 0x05 => m.releaseJob q c
    | 0x06 => m.cancelBatch fu q c
    | 0x10 => m.stageSet fu q c
    | 0x11 => m.turnSlots fu q c 1 1
    | 0x12 => m.turnSlots fu q c 2 2
    | 0x13 => m.saveSet fu q c
    | 0x14 => m.freeSlot fu q c
    | 0x18 => m.snapshot fu q c
    | 0x19 => m.restore fu q c
    | 0x1A => m.pinExpert q c
    | 0x1B => m.unpinExpert q c
    | 0x20 =>
      let st := m.rangeRefused c.job (c.w 2) (c.w 3)
      if (m.job c.job).state = 1 then m.answer q c stDenied 0 0
      else if st != stOk then m.answer q c st 0 0
      else (m.started q c).feed fu q c.tag
    | 0x21 => m.readJob fu q c
    | 0x28 => (m.startObjWrite q c).feed fu q c.tag
    | 0x29 => m.objRead q c
    | 0x2A => m.objDelete q c
    | 0x2B => m.objInfo q c
    | _ => m.answer q c stMalformed 0 0

/-- Whether a command taken and not started may start (R423, R424): an order flag waits for every earlier command of its
queue; a command on job data for its stopped stack (R367); a job-state command waits for Capstan, for the load of its context and for every earlier job-state command on it but
STEPs; and a STEP waits for the STEPs before it. -/
def Module.mayStart (m : Module) (q : Nat) (c : Cmd) : Bool :=
  let b := m.job c.job
  let before := (m.host.queues.flatMap Queue.cmds).filter (fun d => decide (d.stamp < c.stamp) && d.state == 0 && d.job == c.job && isJobState d.opcode)
  !m.dataStopped c && (!c.order || (m.queue q).cmds.all (fun d => decide (c.stamp ≤ d.stamp) || d.state == 2)) &&
  (!isJobState c.opcode ||
    (m.mgmt.capstanUp && b.state != 1 && before.all (fun d => d.opcode == 3 && c.opcode != 3) &&
     !(c.opcode == 3 && (b.state == 3 || b.run.stepAsked))))

/-- The earliest command that may start, with its queue. -/
def Module.nextStart (m : Module) : Option (Nat × Cmd) :=
  let ready := (m.host.queues.zipIdx).flatMap (fun t => (t.1.cmds.filter (fun c => c.state == 0 && m.mayStart t.2 c)).map (fun c => (t.2, c)))
  (leastBy id (ready.map (fun p => p.2.stamp))).bind (fun n => ready.find? (fun p => p.2.stamp == n))

/-- Commands start one after the other, in take order, at most `n` of them. -/
def Module.startNext (fu : Fuses) : Nat → Module → Module
  | 0, m => m
  | n + 1, m =>
    match m.nextStart with
    | none => m
    | some p => Module.startNext fu n (m.startCmd fu p.1 p.2)

/-- Every command that may start starts. -/
def Module.settle (fu : Fuses) (m : Module) : Module :=
  Module.startNext fu (m.host.queues.map (fun t => t.cmds.length)).sum m

end Sys2Proof.Machine
end

