-- ==== Sys2Proof/Machine/Host.lean ====
section
/-!
DEFINITION. The host ports: command packets and chains (R421, R422, R452), taking (R423), the queues and their registers (R417
to R419), response rings (R429, R430), the mailbox registers (R441, R442), port events (R415, R416, R432), and the commands
that let waiting host commands go on: STEP_START (R239), CAPSTAN_BACK (R490) and HOLDOVER_EXPIRY (R503).
-/
namespace Sys2Proof

open Sys2Proof.Machine

/-! ### Packets (R421) -/

/-- Word `i` of a packet's header. -/
def Packet.w (p : Packet) (i : Nat) : Nat := word64 p.header i

/-- The opcode. -/
def Packet.opcode (p : Packet) : Nat := field (p.w 0) 56 8

/-- The tag. -/
def Packet.tag (p : Packet) : Nat := field (p.w 0) 45 11

/-- The last bit. -/
def Packet.last (p : Packet) : Bool := bitAt (p.w 0) 44

/-- The crc_en bit. -/
def Packet.crcEn (p : Packet) : Bool := bitAt (p.w 0) 43

/-- The payload length in units. -/
def Packet.len64 (p : Packet) : Nat := field (p.w 0) 33 9

/-- The job field. -/
def Packet.job (p : Packet) : Nat := field (p.w 0) 29 4

/-- The packet's number within its command. -/
def Packet.seq (p : Packet) : Nat := field (p.w 1) 32 32

/-- The widths of the argument words 2 to 7 that R426 names for an opcode. -/
def Machine.argWidths (op : Nat) : List Nat :=
  match op with
  | 0x01 => [64, 64, 1] | 0x02 => [6, 64] | 0x10 => [6, 10] | 0x11 => [64] | 0x12 => [64] | 0x13 => [6] | 0x14 => [6]
  | 0x18 => [3, 64, 1, 64] | 0x19 => [64] | 0x1A => [16] | 0x1B => [16] | 0x20 => [64, 64] | 0x21 => [64, 64]
  | 0x28 => [64, 64, 64] | 0x29 => [64, 64, 64, 64] | 0x2A => [64, 64] | 0x2B => [64, 64] | _ => []

/-- Whether R426 lists an opcode. -/
def Machine.knownOp (op : Nat) : Bool := op == 0 || namesJob op || (decide (0x28 ≤ op) && decide (op ≤ 0x2B))

/-- Whether the words 2 to 7 of a packet hold nothing but `widths` bits each. -/
def Packet.argsIn (p : Packet) (widths : List Nat) : Bool :=
  (List.range 6).all (fun i => decide (p.w (i + 2) < 2 ^ widths.getD i 0))

/-- Whether a packet's CRC is right where it is to be checked. -/
def Packet.crcOk (p : Packet) : Bool :=
  !p.crcEn || crc32c (p.header.take 8 ++ zeros 4 ++ p.header.drop 12 ++ p.payload) == field (p.w 1) 0 32

/-- The checks of R422 that hold for every packet. -/
def Packet.formOk (p : Packet) : Bool :=
  field (p.w 0) 0 25 == 0 && field (p.w 0) 25 4 == 1 && decide (p.len64 ≤ 256) && p.crcOk && !p.poisoned

end Sys2Proof

namespace Sys2Proof.Machine

/-- Whether any queue's commands hold a tag. -/
def Module.tagHeld (m : Module) (tag : Nat) : Bool := m.host.queues.any (fun t => t.cmds.any (fun c => c.tag == tag))

/-- Whether a packet that begins a command passes R422. -/
def Module.beginsWell (m : Module) (q : Nat) (p : Packet) : Bool :=
  p.formOk && knownOp p.opcode && p.argsIn (argWidths p.opcode) && (p.job == 0 || namesJob p.opcode) &&
  (p.len64 == 0 || isChain p.opcode) && p.tag / 128 == q && p.seq == 0 && (p.last || isChain p.opcode) && !m.tagHeld p.tag

/-- The feature bit that an opcode needs (R452). -/
def opFeature (op : Nat) : Option Nat :=
  if 0x10 ≤ op && op ≤ 0x14 then some 16
  else if op = 0x1A || op = 0x1B then some 17
  else if 0x28 ≤ op && op ≤ 0x2B then some 18
  else if op = 0x18 || op = 0x19 then some 19
  else none

/-- Whether the port's agreed features allow a packet (R452). -/
def Module.featured (m : Module) (q : Nat) (p : Packet) : Bool :=
  let a := (m.port (q / 8)).agreed
  (!p.crcEn || bitAt a 2) && (opFeature p.opcode).all (bitAt a)

/-! ### Chains (R421) -/

/-- The units that packet `i` of a command carries. -/
def Cmd.units (c : Cmd) (i : Nat) : Nat :=
  if i + 1 < ceilDiv c.dataLen 16384 then 256 else ceilDiv (c.dataLen - 16384 * i) 64

/-- Whether packet `i` of a command is its last. -/
def Cmd.endsAt (c : Cmd) (i : Nat) : Bool := decide (ceilDiv c.dataLen 16384 ≤ i + 1)

/-- The next packet number of a command. -/
def Cmd.nextSeq (c : Cmd) : Nat := c.got / 16384

/-- The command whose chain is open in a queue. -/
def Queue.chained (t : Queue) : Option Cmd := t.chain.bind (fun tag => t.cmds.find? (fun c => c.tag == tag && c.state != 2))

/-- The open chain of a queue ends as a broken one, or with TIMEOUT. -/
def Module.breakChain (m : Module) (q : Nat) (timeout : Bool) : Module :=
  let c := (m.queue q).chained
  let m := m.onQueue q (fun t => { t with chain := none })
  match c with
  | none => m
  | some c =>
    let st := if timeout then stTimeout else if c.opcode = 0x20 then stCancelled else stMalformed
    let m := if c.opcode = 1 && (c.state == 1 || (m.job c.job).state == 0) then m.dropLoad c.job st
      else if c.opcode = 0x28 && c.state == 1 then m.closeWrite c else m
    m.answer q c st 0 0

/-! ### Taking (R423) -/

/-- The units of a command ring. -/
def ringUnits : Nat := 32704

/-- Whether the port serves its queues. -/
def Module.served (m : Module) (q : Nat) : Bool := (m.port (q / 8)).ready && !m.mgmt.romService

/-- Whether a packet can be taken: it is the next of an ENABLED queue and lies whole between sq_head and sq_tail. -/
def Module.canTake (m : Module) (q : Nat) (p : Packet) : Bool :=
  let t := m.queue q
  m.served q && t.state == 1 && p.header.length == 64 && p.payload.length == 64 * p.len64 &&
  decide (1 + p.len64 ≤ (t.sqTail + ringUnits - t.sqHead) % ringUnits)

/-- A packet leaves its ring. -/
def Module.countTaken (m : Module) (q : Nat) (p : Packet) : Module :=
  ((m.onQueue q (fun t => { t with sqHead := (t.sqHead + 1 + p.len64) % ringUnits })).bump (odKey 0x5100 2) 1).bump
    (odKey 0x5100 7) p.payload.length

/-- A failed packet check: last_error, and packets_malformed where it is one of R422. -/
def Module.packetFails (m : Module) (q st : Nat) : Module :=
  (m.onQueue q (fun t => { t with lastError := st })).bump (odKey 0x5100 3) (if st = stMalformed then 1 else 0)

/-- The command that a packet begins. -/
def Module.cmdOf (m : Module) (p : Packet) (state : Nat) : Cmd :=
  { tag := p.tag, opcode := p.opcode, job := p.job, args := (List.range 6).map (fun i => p.w (i + 2)), order := bitAt (p.w 0) 42,
    state := state, stamp := m.host.stamp, policy := m.odGet (odKey 0xA020 1), keys := m.odGet (odKey 0xA020 2),
    got := p.payload.length, data := p.payload }

/-- A command joins its queue with the next take stamp. -/
def Module.addCmd (m : Module) (q : Nat) (c : Cmd) : Module :=
  let m := m.onQueue q (fun t => { t with cmds := t.cmds ++ [c] })
  { m with host := { m.host with stamp := m.host.stamp + 1 } }

/-- A packet that begins no command completes with a status; it holds its tag where the tag is this queue's and free. -/
def Module.refusePacket (m : Module) (q : Nat) (p : Packet) (st : Nat) : Module :=
  let dup := m.tagHeld p.tag
  let holds := p.tag / 128 == q && !dup
  let m := m.packetFails q st
  let m := if holds then m.addCmd q { m.cmdOf p 2 with data := [] } else m
  m.pushResp q { Resp.plain p.opcode p.tag p.job st holds with dup := dup }

/-- The happenings in the flash array during a command's reads and writes. -/
def Module.flashMeets (fu : Fuses) (m : Module) (c : Cmd) (ups : List FlashUpset) : Module :=
  if c.opcode = 0x28 then m.programs fu ups
  else
    let o := if c.opcode = 0x10 then (2, c.w 3) else if c.opcode = 0x19 then (3, moduleId 0 c.job (c.w 2)) else (c.w 2, c.w 3)
    match m.store.find o.1 o.2 with
    | some x => if m.storeReads then (m.pageReads fu o.1 o.2 ups).dieReads fu x else m
    | none => m

/-- A well-formed packet begins its command: the first packet of a chain breaks it where its length or last is wrong. -/
def Module.beginCommand (fu : Fuses) (m : Module) (q : Nat) (p : Packet) (ups : List FlashUpset) : Module :=
  let c := m.cmdOf p 0
  let chain := isChain c.opcode && !c.endsAt 0
  let m := (m.addCmd q c).onQueue q (fun t => { t with chain := if chain || isChain c.opcode then some c.tag else none })
  if isChain c.opcode && (p.len64 != c.units 0 || p.last != c.endsAt 0) then (m.packetFails q stMalformed).breakChain q false
  else
    let m := m.onQueue q (fun t => { t with chain := if chain then some c.tag else none })
    (m.flashMeets fu c ups).settle fu

/-- A packet with the opcode of its row is taken from queue `q`, unless it belongs to the open chain; it breaks the chain of
another tag. -/
def Module.takeCommand (fu : Fuses) (m : Module) (q : Nat) (p : Packet) (rowOp : Nat → Bool) (ups : List FlashUpset) : Module :=
  let chained := (m.queue q).chained
  if !m.canTake q p || !rowOp p.opcode || chained.any (fun c => c.tag == p.tag) then m
  else
    let m := (m.breakChain q false).countTaken q p
    if !m.beginsWell q p then m.refusePacket q p stMalformed
    else if !m.featured q p then m.refusePacket q p stUnsupported
    else m.beginCommand fu q p ups

/-- The next packet of the open chain: taken, or breaking its chain. -/
def Module.takeChained (fu : Fuses) (m : Module) (q : Nat) (p : Packet) (ups : List FlashUpset) : Module :=
  match (m.queue q).chained with
  | none => m
  | some c =>
    if c.tag != p.tag || !m.canTake q p then m
    else
      let m := m.countTaken q p
      let n := c.nextSeq
      if p.formOk && p.argsIn [] && p.opcode == c.opcode && p.job == c.job && p.seq == n && p.len64 == c.units n &&
          p.last == c.endsAt n && m.featured q p then
        let m := m.onCmd q c.tag (fun c => { c with got := c.got + p.payload.length, data := c.data ++ p.payload })
        let m := if c.endsAt n then m.onQueue q (fun t => { t with chain := none }) else m
        ((m.flashMeets fu c ups).feed fu q c.tag).settle fu
      else ((m.packetFails q stMalformed).breakChain q false).settle fu

/-- The row of an opcode. -/
def takeRow (op q : Nat) (p : Packet) (ups : List FlashUpset) (s : State) : Host.Outcome State Fault Refusal :=
  s.actOn (q < 16) (fun fu m => m.takeCommand fu q p (fun o => o == op) ups)

/-- NOP. A packet of no known opcode is taken under this row too (R422). -/
def execNop (q : Nat) (p : Packet) (s : State) : Host.Outcome State Fault Refusal :=
  s.actOn (q < 16) (fun fu m => m.takeCommand fu q p (fun o => o == 0 || !knownOp o) [])

/-- LOAD. -/
def execLoad (q : Nat) (p : Packet) (s : State) : Host.Outcome State Fault Refusal := takeRow 0x01 q p [] s

/-- BIND. -/
def execBind (q : Nat) (p : Packet) (s : State) : Host.Outcome State Fault Refusal := takeRow 0x02 q p [] s

/-- STEP. -/
def execStep (q : Nat) (p : Packet) (s : State) : Host.Outcome State Fault Refusal := takeRow 0x03 q p [] s

/-- END_JOB. -/
def execEndJob (q : Nat) (p : Packet) (s : State) : Host.Outcome State Fault Refusal := takeRow 0x04 q p [] s

/-- RELEASE_JOB. -/
def execReleaseJob (q : Nat) (p : Packet) (s : State) : Host.Outcome State Fault Refusal := takeRow 0x05 q p [] s

/-- CANCEL_BATCH. -/
def execCancelBatch (q : Nat) (p : Packet) (s : State) : Host.Outcome State Fault Refusal := takeRow 0x06 q p [] s

/-- STAGE. -/
def execStage (q : Nat) (p : Packet) (ups : List FlashUpset) (s : State) : Host.Outcome State Fault Refusal := takeRow 0x10 q p ups s

/-- ACTIVATE. -/
def execActivate (q : Nat) (p : Packet) (s : State) : Host.Outcome State Fault Refusal := takeRow 0x11 q p [] s

/-- DEACTIVATE. -/
def execDeactivate (q : Nat) (p : Packet) (s : State) : Host.Outcome State Fault Refusal := takeRow 0x12 q p [] s

/-- SAVE. -/
def execSave (q : Nat) (p : Packet) (s : State) : Host.Outcome State Fault Refusal := takeRow 0x13 q p [] s

/-- RELEASE_SLOT. -/
def execReleaseSlot (q : Nat) (p : Packet) (s : State) : Host.Outcome State Fault Refusal := takeRow 0x14 q p [] s

/-- SNAPSHOT. -/
def execSnapshot (q : Nat) (p : Packet) (s : State) : Host.Outcome State Fault Refusal := takeRow 0x18 q p [] s

/-- RESTORE. -/
def execRestore (q : Nat) (p : Packet) (ups : List FlashUpset) (s : State) : Host.Outcome State Fault Refusal := takeRow 0x19 q p ups s

/-- PIN_EXPERT. -/
def execPinExpert (q : Nat) (p : Packet) (s : State) : Host.Outcome State Fault Refusal := takeRow 0x1A q p [] s

/-- UNPIN_EXPERT. -/
def execUnpinExpert (q : Nat) (p : Packet) (s : State) : Host.Outcome State Fault Refusal := takeRow 0x1B q p [] s

/-- WRITE_JOB. -/
def execWriteJob (q : Nat) (p : Packet) (s : State) : Host.Outcome State Fault Refusal := takeRow 0x20 q p [] s

/-- READ_JOB. -/
def execReadJob (q : Nat) (p : Packet) (s : State) : Host.Outcome State Fault Refusal := takeRow 0x21 q p [] s

/-- OBJ_WRITE. -/
def execObjWrite (q : Nat) (p : Packet) (ups : List FlashUpset) (s : State) : Host.Outcome State Fault Refusal := takeRow 0x28 q p ups s

/-- OBJ_READ. -/
def execObjRead (q : Nat) (p : Packet) (ups : List FlashUpset) (s : State) : Host.Outcome State Fault Refusal := takeRow 0x29 q p ups s

/-- OBJ_DELETE. -/
def execObjDelete (q : Nat) (p : Packet) (s : State) : Host.Outcome State Fault Refusal := takeRow 0x2A q p [] s

/-- OBJ_INFO. -/
def execObjInfo (q : Nat) (p : Packet) (s : State) : Host.Outcome State Fault Refusal := takeRow 0x2B q p [] s

/-- CHAIN_PACKET. -/
def execChainPacket (q : Nat) (p : Packet) (ups : List FlashUpset) (s : State) : Host.Outcome State Fault Refusal :=
  s.actOn (q < 16) (fun fu m => m.takeChained fu q p ups)

/-- CHAIN_TIMEOUT: the next packet of the open chain has not come within chain_timeout_ms. -/
def execChainTimeout (q : Nat) (s : State) : Host.Outcome State Fault Refusal :=
  s.actOn (q < 16) (fun fu m =>
    match (m.queue q).chained with
    | none => m
    | some c => ((m.breakChain q true).event fu 0x0553 [q / 8, q % 8, c.tag, c.opcode, c.nextSeq]).settle fu)

/-! ### Queues (R417 to R419) -/

/-- A doorbell with a value (R418). -/
def Module.doorbell (fu : Fuses) (m : Module) (q v : Nat) : Module :=
  let t := m.queue q
  if !m.served q || t.state != 1 then m
  else if ringUnits ≤ v || (t.sqHead + ringUnits - 1 - t.sqTail) % ringUnits < (v + ringUnits - t.sqTail) % ringUnits then
    (m.onQueue q (fun t => { t with state := 3, lastError := stMalformed })).event fu 0x0551 [q / 8, q % 8, t.sqHead, t.sqTail, v]
  else m.onQueue q (fun t => { t with sqTail := v })

/-- A register's value after a write of the bytes whose bits are set in a mask (R417). -/
def mergeBytes (old v mask : Nat) : Nat :=
  leNat ((List.range 8).map (fun i => BitVec.ofNat 8 (field (if bitAt mask i then v else old) (8 * i) 8)))

/-- SQ_TAIL: a write of the register's bytes in the mask; bits 63:15 are RSV. -/
def execSqTail (q v mask : Nat) (s : State) : Host.Outcome State Fault Refusal :=
  s.actOn (q < 16) (fun fu m => if mask = 0 then m else m.doorbell fu q (field (mergeBytes (m.queue q).sqTail v mask) 0 15))

/-- sq_enable written 1. -/
def Module.enableQueue (m : Module) (q : Nat) : Module :=
  if !m.served q || (m.queue q).state != 0 then m
  else m.onQueue q (fun t => { t with
    state := 1, enableBit := true, sqTail := 0, sqHead := 0, rrTail := 0, rrPhase := true, irqGap := false, irqHeld := false })

/-- QUEUE_ENABLE. -/
def execQueueEnable (q : Nat) (s : State) : Host.Outcome State Fault Refusal := s.actOn (q < 16) (fun _ m => m.enableQueue q)

/-- Whether a command has been taken and has not started (R425, R432): in a STEP's case, its step. -/
def Module.notStarted (m : Module) (c : Cmd) : Bool := c.state == 0 || (c.opcode == 3 && c.state == 1 && (m.job c.job).state == 2)

/-- The step that a STEP asked for is not asked for any more. -/
def Module.unaskStep (m : Module) (c : Cmd) : Module :=
  if c.opcode = 3 && c.state = 1 && (m.job c.job).state = 2 then m.onRun c.job (fun r => { r with stepAsked := false }) else m

/-- sq_enable written 0. -/
def Module.disableQueue (fu : Fuses) (m : Module) (q : Nat) : Module :=
  let st := (m.queue q).state
  if !m.served q || (st != 1 && st != 3) then m
  else
    let m := (m.onQueue q (fun t => { t with state := 2, enableBit := false })).breakChain q false
    let cs := (m.queue q).cmds.filter m.notStarted
    (cs.foldl (fun (m : Module) c => (m.unaskStep c).answer q c stCancelled 0 0) m).settle fu

/-- QUEUE_DISABLE. -/
def execQueueDisable (q : Nat) (s : State) : Host.Outcome State Fault Refusal := s.actOn (q < 16) (fun fu m => m.disableQueue fu q)

/-- QUEUE_DRAINED: no command is outstanding and no response waits but unsolicited ones, which are dropped (R431). -/
def execQueueDrained (q : Nat) (s : State) : Host.Outcome State Fault Refusal :=
  s.actOn (q < 16) (fun fu m =>
    let t := m.queue q
    if t.state != 2 || !t.cmds.isEmpty || t.resps.any (fun r => !r.unsol) then m
    else
      let n := t.resps.length
      let m := m.onQueue q (fun t => { t with state := 0, chain := none, resps := [], dropped := t.dropped + n })
      if n = 0 then m else (m.bump (odKey 0x5100 5) n).event fu 0x0554 [q / 8, q % 8, t.dropped + n])

/-! ### Response rings (R429, R430) -/

/-- The units of a response packet. -/
def Resp.units (r : Resp) : Nat := 1 + r.payload.length / 64

/-- A response packet as it stands in the ring. -/
def Resp.bytes (r : Resp) (phase : Bool) (sqHead w6 : Nat) : List Byte :=
  let bit := fun (b : Bool) (i : Nat) => if b then 2 ^ i else 0
  let w0 := leBytes 8 (r.opcode * 2 ^ 56 + r.tag * 2 ^ 45 + bit r.last 44 + bit r.dup 43 + bit phase 42 +
    r.payload.length / 64 * 2 ^ 33 + r.job * 2 ^ 29 + bit r.unsol 28 + r.status * 2 ^ 20)
  let rest := leBytes 8 (r.w2 + r.check * 2 ^ 48 + r.section_ * 2 ^ 32) ++ leBytes 8 r.dataOffset ++ leBytes 8 r.w4 ++
    leBytes 8 r.w5 ++ leBytes 8 w6 ++ leBytes 8 0 ++ r.payload
  let crc := crc32c (w0 ++ leBytes 8 (sqHead * 2 ^ 49) ++ rest)
  w0 ++ leBytes 8 (sqHead * 2 ^ 49 + crc) ++ rest

/-- Bytes posted to host memory from a port. -/
def Module.postHost (m : Module) (port a : Nat) (bs : List Byte) : Module :=
  { m with host := { m.host with hostMem := m.host.hostMem.write (port * 2 ^ 64 + a) bs } }

/-- The units of a queue's response ring. -/
def Queue.rrUnits (t : Queue) : Nat := 2 ^ (t.rrSizeLog2 - 6)

/-- The units that the module may write (R430). -/
def Queue.rrFree (t : Queue) : Nat := (t.rrHead % t.rrUnits + t.rrUnits - t.rrTail - 1) % t.rrUnits

/-- The response ring after `n` units are written. -/
def Queue.rrAdvance (t : Queue) (n : Nat) : Queue :=
  if t.rrTail + n < t.rrUnits then { t with rrTail := t.rrTail + n } else { t with rrTail := 0, rrPhase := !t.rrPhase }

/-- The unsolicited packet that fills the ring's end: its payload is unspecified. -/
def padResp (n free : Nat) : Resp :=
  { Resp.plain 0xFF 0 0 0 false with unsol := true, payload := (List.range (64 * (n - 1))).map (Config.freeByte free) }

/-- A packet written at the tail of a ring. -/
def Module.putResp (m : Module) (q : Nat) (r : Resp) : Module :=
  let t := m.queue q
  let w6 := if r.opcode = 0xF0 then t.dropped else r.w6
  (m.postHost (q / 8) (t.rrBase + 64 * t.rrTail) (r.bytes t.rrPhase t.sqHead w6)).onQueue q (fun t => t.rrAdvance r.units)

/-- The interrupt after a write (R430): coalesce_us counts as 0 without feature bit 3 (R452). -/
def Module.ringIrq (m : Module) (q : Nat) : Module :=
  let t := m.queue q
  if t.rrHead % t.rrUnits = t.rrTail then m
  else if t.coalesceUs = 0 || !bitAt (m.port (q / 8)).agreed 3 then m.fire (q / 8) (q % 8)
  else if t.irqGap then m.onQueue q (fun t => { t with irqHeld := true })
  else (m.fire (q / 8) (q % 8)).onQueue q (fun t => { t with irqGap := true, irqHeld := false })

/-- A command leaves its queue: its tag is free (R420). -/
def Queue.freeTag (t : Queue) (tag : Nat) : Queue := { t with cmds := t.cmds.filter (fun c => c.tag != tag) }

/-- The front response of a queue is written where it fits. -/
def Module.writeResp (fu : Fuses) (m : Module) (q : Nat) : Module :=
  let t := m.queue q
  match t.resps with
  | [] => m
  | r :: rest =>
    let room := t.rrUnits - t.rrTail
    let pad := if room < r.units then room else 0
    if t.state = 0 || t.rrFree < pad + r.units then m
    else
      let m := if pad = 0 then m else (m.putResp q (padResp pad m.freeNo)).nextFree
      let m := m.putResp q r
      let m := m.onQueue q (fun t =>
        let t := { t with resps := rest, dropped := if r.opcode = 0xF0 then 0 else t.dropped }
        if r.last && r.holdsTag then t.freeTag r.tag else t)
      (((m.bump (odKey 0x5100 4) 1).bump (odKey 0x5100 8) r.payload.length).ringIrq q).settle fu

/-- RESPONSE_WRITE. -/
def execResponseWrite (q : Nat) (s : State) : Host.Outcome State Fault Refusal := s.actOn (q < 16) (fun fu m => m.writeResp fu q)

/-- INTERRUPT_COALESCE_EXPIRY: coalesce_us have passed since the vector's last interrupt. -/
def execInterruptCoalesceExpiry (q : Nat) (s : State) : Host.Outcome State Fault Refusal :=
  s.actOn (q < 16) (fun _ m =>
    let t := m.queue q
    if !t.irqGap then m
    else if t.irqHeld && t.rrHead % t.rrUnits != t.rrTail then
      (m.fire (q / 8) (q % 8)).onQueue q (fun t => { t with irqHeld := false })
    else m.onQueue q (fun t => { t with irqGap := false, irqHeld := false }))

/-! ### Registers (R417, R441) -/

/-- The bytes of a host write that fall into the 64-bit register at an offset: their value and their mask. -/
def regPart (off : Nat) (bs : List Byte) (reg : Nat) : Nat × Nat :=
  (List.range 8).foldl (fun (acc : Nat × Nat) i =>
    if off ≤ reg + i && reg + i < off + bs.length then
      (acc.1 + (bs.getD (reg + i - off) 0).toNat * 2 ^ (8 * i), setBit acc.2 i)
    else acc) (0, 0)

/-- A write to the register at offset `reg` of the control page of queue `q`. -/
def Module.writeControl (fu : Fuses) (m : Module) (q reg v mask : Nat) : Module :=
  let t := m.queue q
  if mask = 0 then m
  else if reg = 0 then m.doorbell fu q (field (mergeBytes t.sqTail v mask) 0 15)
  else if reg = 0x10 then
    if bitAt (mergeBytes (if t.enableBit then 1 else 0) v mask) 0 then m.enableQueue q else m.disableQueue fu q
  else if reg = 0x20 && t.state = 0 then
    m.onQueue q (fun t => { t with rrBase := mergeBytes t.rrBase v mask / 4096 * 4096 })
  else if reg = 0x28 && t.state = 0 then
    let w := mergeBytes (t.coalesceUs * 256 + t.rrSizeLog2) v mask
    m.onQueue q (fun t => { t with coalesceUs := field w 8 8, rrSizeLog2 := clampNat 16 26 (field w 0 5) })
  else if reg = 0x30 then m.onQueue q (fun t => { t with rrHead := field (mergeBytes t.rrHead v mask) 0 20 })
  else m

/-- A mailbox takes the request that its doorbell announces, or notes an overrun (R442). -/
def Module.ringMailbox (fu : Fuses) (m : Module) (p : Nat) : Module :=
  let b := (m.port p).mailbox
  if b.busy then (m.onMailbox p (fun b => { b with overrun := true })).event fu 0x0103 [p]
  else m.onMailbox p (fun b => { b with busy := true, taken := some (b.request.read 0 16384) })

/-- A write to the register at offset `reg` of a mailbox. A W1C bit clears only where the write carries a 1. -/
def Module.writeMailbox (fu : Fuses) (m : Module) (p reg v mask : Nat) : Module :=
  let b := (m.port p).mailbox
  if mask = 0 then m
  else if reg = 0 then (if bitAt v 0 then m.ringMailbox fu p else m)
  else if reg = 8 then m.onMailbox p (fun b => { b with overrun := b.overrun && !bitAt v 2, respReady := b.respReady && !bitAt v 0 })
  else if reg = 0x10 then
    let h := field (mergeBytes b.ntHead v mask) 0 6
    if h < 56 then m.onMailbox p (fun b => { b with ntHead := h }) else m
  else if reg = 0x18 then m.onMailbox p (fun b => { b with ntOverflow := b.ntOverflow && !bitAt v 63 })
  else if reg = 0x20 then
    let on := bitAt (mergeBytes (if b.ntEnable then 1 else 0) v mask) 0
    m.onMailbox p (fun b => { b with ntEnable := on && (b.ntEnable || bitAt (m.port p).agreed 1) })
  else m

/-- Bytes written into the request buffer; while a request is served they leave undefined contents for the next one (R442). -/
def Module.writeRequest (m : Module) (p off : Nat) (bs : List Byte) : Module :=
  let lo := max off 0x1000
  let hi := min (off + bs.length) 0x5000
  if hi ≤ lo then m
  else
    let n := hi - lo
    let busy := (m.port p).mailbox.busy
    let data := if busy then (List.range n).map (Config.freeByte m.freeNo) else slice bs (lo - off) n
    let m := m.onMailbox p (fun b => { b with request := b.request.write (lo - 0x1000) data })
    if busy then m.nextFree else m

/-- REGISTER_WRITE: a host write of bytes at an offset of BAR0 or BAR2 acts on every register that it covers, in ascending
offset. Before the function is ready, or while the dictionary is unreachable in the mailbox's case, it has no effect. -/
def execRegisterWrite (port bar off : Nat) (bytes : List Byte) (s : State) : Host.Outcome State Fault Refusal :=
  s.actOn (decide (port < 2) && (bar == 0 || bar == 2)) (fun fu m =>
    if !(m.port port).ready then m
    else if bar = 0 then
      let q := 8 * port + off / 0x200000 % 8
      let o := off % 0x200000
      [0, 8, 0x10, 0x18, 0x20, 0x28, 0x30, 0x38].foldl (fun (m : Module) reg =>
        let w := regPart o bytes reg
        m.writeControl fu q reg w.1 w.2) m
    else if !m.mgmt.reachable && !(m.mgmt.romService && port = 0) then m
    else
      let m := m.writeRequest port off bytes
      [8, 0x10, 0x18, 0x20, 0].foldl (fun (m : Module) reg =>
        let w := regPart off bytes reg
        m.writeMailbox fu port reg w.1 w.2) m)

/-- What a read of the 64-bit register at an offset of a queue's control page returns (R10, R11, R417): every RSV bit and every
other register 0. -/
def Queue.register (t : Queue) (reg : Nat) : Nat :=
  if reg = 0 then t.sqTail
  else if reg = 8 then t.sqHead
  else if reg = 0x10 then (if t.enableBit then 1 else 0)
  else if reg = 0x18 then t.lastError * 2 ^ 56 + t.state * 2 ^ 16 + t.cmds.length
  else if reg = 0x20 then t.rrBase
  else if reg = 0x28 then t.coalesceUs * 2 ^ 8 + t.rrSizeLog2
  else if reg = 0x30 then t.rrHead
  else if reg = 0x38 then (if t.rrPhase then 2 ^ 63 else 0) + t.rrTail
  else 0

/-- What a read of the 64-bit register at an offset of a mailbox returns (R10, R441): the WO doorbell and unlisted offsets 0. -/
def Mailbox.register (b : Mailbox) (reg : Nat) : Nat :=
  if reg = 8 then (if b.overrun then 4 else 0) + (if b.busy then 2 else 0) + (if b.respReady then 1 else 0)
  else if reg = 0x10 then b.ntHead
  else if reg = 0x18 then (if b.ntOverflow then 2 ^ 63 else 0) + b.ntTail
  else if reg = 0x20 then (if b.ntEnable then 1 else 0)
  else 0

/-- Byte `i` of a 64-bit register. -/
def regByte (v i : Nat) : Byte := BitVec.ofNat 8 (v / 2 ^ (8 * i))

/-- What a read of a byte of a mailbox returns (R441): its registers, the request, the response or the notify ring. -/
def Mailbox.byte (b : Mailbox) (off : Nat) : Byte :=
  if off < 0x1000 then regByte (b.register (off / 8 * 8)) (off % 8)
  else if off < 0x5000 then b.request.get (off - 0x1000)
  else if off < 0x9000 then b.response.getD (off - 0x5000) 0
  else ((b.ring.lookup ((off - 0x9000) / 512)).getD []).getD ((off - 0x9000) % 512) 0

/-- What a host read of a byte of BAR0 or BAR2 returns (R416, R417, R441). Before the function is ready all reads return zeros, and so
does the mailbox until the dictionary is reachable (R442). A read changes nothing, so no command stands for it. -/
def Module.barByte (m : Module) (port bar off : Nat) : Byte :=
  if !(m.port port).ready then 0
  else if bar = 0 then
    let o := off % 0x200000
    if o < 0x1000 then regByte ((m.queue (8 * port + off / 0x200000 % 8)).register (o / 8 * 8)) (o % 8)
    else Config.ringByte off
  else if !m.mgmt.reachable && !(m.mgmt.romService && port = 0) then 0
  else (m.port port).mailbox.byte off

/-- What a host read of `n` bytes of BAR0 or BAR2 returns. -/
def Module.readBar (m : Module) (port bar off n : Nat) : List Byte := (List.range n).map (fun i => m.barByte port bar (off + i))

/-- DOORBELL_OVERRUN: a doorbell while the mailbox is busy. -/
def execDoorbellOverrun (p : Nat) (s : State) : Host.Outcome State Fault Refusal :=
  s.actOn (p < 2) (fun fu m =>
    if !(m.port p).ready || !m.mgmt.reachable || !(m.port p).mailbox.busy then m else m.ringMailbox fu p)

/-! ### Port events (R415, R416, R432) -/

/-- What a port's reset does to a command of it, and whether the command counts as cancelled. -/
def Module.dropCmd (m : Module) (c : Cmd) : Module × Bool :=
  if c.state = 2 then (m, false)
  else if m.notStarted c then (m.unaskStep c, true)
  else if c.opcode = 1 then (m.dropLoad c.job stCancelled, true)
  else if c.opcode = 0x28 then (m.closeWrite c, true)
  else if c.opcode = 0x18 && bitAt (c.w 4) 0 then ({ m with host := { m.host with orphans := m.host.orphans ++ [c] } }, false)
  else (m, !isJobState c.opcode || c.opcode == 0x18)

/-- The commands taken from queue `q` end or run on without it; the count is of those cancelled. -/
def Module.dropCmds (acc : Module × Nat) (q : Nat) : Module × Nat :=
  let r := ((acc.1.queue q).cmds).foldl (fun (a : Module × Nat) c =>
    let d := a.1.dropCmd c
    (d.1, a.2 + if d.2 then 1 else 0)) acc
  (r.1.onQueue q (fun _ => Queue.reset), r.2)

/-- A port's reset (R432): its queues are DISABLED, its mailbox at its reset values, its path's staged values and its update
session gone. -/
def Module.resetPort (fu : Fuses) (m : Module) (p cause : Nat) : Module :=
  let r := ((List.range 8).map (· + 8 * p)).foldl Module.dropCmds (m, 0)
  let m := r.1.onPort p (fun t => { t with ready := false, agreed := 0, mailbox := Mailbox.reset })
  let m := { m with
    mgmt := { m.mgmt with staged := m.mgmt.staged.filter (fun v => v.path != 8 + p) },
    fw := if m.fw.session = some (8 + p) then { m.fw with session := none } else m.fw }
  ((m.bump (odKey 0x5100 6) 1).event fu 0x0552 [p, cause, r.2]).settle fu

/-- A link that is not up. -/
def Port.down (t : Port) : Port := { t with up := false, gts := 0, width := 0 }

/-- PERST_ASSERT. -/
def execPerstAssert (p : Nat) (s : State) : Host.Outcome State Fault Refusal :=
  if p < 2 then
    s.act (fun fu m =>
      if (m.port p).perst then m
      else
        let m := if m.powered then m.resetPort fu p 0 else m
        m.onPort p (fun t => { t.down with perst := true }))
  else .fault .noSuchUnit

/-- PERST_RELEASE: the link starts to train. -/
def execPerstRelease (p : Nat) (s : State) : Host.Outcome State Fault Refusal :=
  if p < 2 then s.act (fun _ m => m.onPort p (fun t => { t with perst := false })) else .fault .noSuchUnit

/-- FUNCTION_READY: 100 ms after PERST# is deasserted, and the dictionary reachable; in the boot ROM's service only port 0's
mailbox serves (R456). -/
def execFunctionReady (p : Nat) (s : State) : Host.Outcome State Fault Refusal :=
  s.actOn (p < 2) (fun _ m =>
    let t := m.port p
    if t.perst || t.ready || !(m.mgmt.reachable || (m.mgmt.romService && p = 0)) then m
    else
      let m := (List.range 8).foldl (fun (m : Module) i => m.onQueue (8 * p + i) (fun _ => Queue.reset)) m
      m.onPort p (fun t => { t with ready := true, agreed := 0, mailbox := Mailbox.reset }))

/-- LINK_TRAINED, with the port's receiver seeds (R544). -/
def execLinkTrained (p gts width : Nat) (s : State) : Host.Outcome State Fault Refusal :=
  s.actOn (p < 2) (fun fu m =>
    if (m.port p).perst then m
    else
      let m := (m.onPort p (fun t => { t with up := true, gts := gts, width := width })).latchAll (hostCalib p)
      if gts < 64 || width < 16 then m.event fu 0x0550 [p, gts, width] else m)

/-- HOT_RESET. -/
def execHotReset (p : Nat) (s : State) : Host.Outcome State Fault Refusal :=
  s.actOn (p < 2) (fun fu m => if !(m.port p).up then m else (m.resetPort fu p 1).onPort p Port.down)

/-- LINK_DOWN. -/
def execLinkDown (p : Nat) (s : State) : Host.Outcome State Fault Refusal :=
  s.actOn (p < 2) (fun fu m => if !(m.port p).up then m else (m.resetPort fu p 2).onPort p Port.down)

/-- FUNCTION_LEVEL_RESET: the link stays up. -/
def execFunctionLevelReset (p : Nat) (s : State) : Host.Outcome State Fault Refusal :=
  s.actOn (p < 2) (fun fu m => if !(m.port p).up then m else m.resetPort fu p 3)

/-! ### What lets waiting commands go on -/

/-- STEP_START: the step command has arrived, the previous step has committed and the job is LOADED. The
count is of the microseconds that the start waited for a STAGE in progress (R256, R265). -/
def execStepStart (t : Counted) (s : State) : Host.Outcome State Fault Refusal :=
  s.actOn (t.unit < 16) (fun fu m =>
    let j := t.unit
    let m := m.settle fu
    let b := m.job j
    if b.state != 2 || !b.run.stepAsked then m
    else
      let m := (m.countStageWait j t.count).startStep fu j
      if m.inRope j then m.judgeBonds fu else m)

/-- CAPSTAN_BACK: Capstan runs again. Staged values are gone, the mirror is rebuilt, and the held events and event 0x0A06 are
recorded, the last with the snapshot's registers 0 to 20. -/
def execCapstanBack (ms : Nat) (s : State) : Host.Outcome State Fault Refusal :=
  s.actOn true (fun fu m =>
    if m.mgmt.capstanUp || m.mgmt.restartCause = 0 then m
    else
      let cause := m.mgmt.restartCause
      let m := { m with mgmt := { m.mgmt with capstanUp := true, reachable := true, restartCause := 0, staged := [], mirror := m.fenceWord } }
      let regs := match m.log.slots.getD ((m.log.nextSlot + 6) % 7) none with
        | some r => r.regs.take 21
        | none => []
      (((m.releaseHeld fu).event fu 0x0A06 ([cause, ms] ++ regs)).reportSlots fu).settle fu)

/-- The LOADs whose images are arriving end with TIMEOUT, and their chains with them. -/
def Module.breakLoads (m : Module) : Module :=
  (List.range 16).foldl (fun (m : Module) q =>
    if (m.queue q).chained.any (fun c => c.opcode == 1 && c.state == 1) then m.breakChain q true else m) m

/-- HOLDOVER_EXPIRY: the reference is still lost after 10 ms (R503). Every job that is LOADING, LOADED or RUNNING ends with
TIMEOUT, the lit ports are lost, and the blocks outside the management domain return to their defaults. -/
def execHoldoverExpiry (s : State) : Host.Outcome State Fault Refusal :=
  s.actOn true (fun fu m =>
    if m.power.refState != 1 then m
    else
      let js := (List.range 16).filter (fun j => (m.job j).state == 1 || (m.job j).live)
      let n := m.enabledBlocks
      let m := js.foldl (fun (m : Module) j => if (m.job j).state = 1 then m.dropLoad j stTimeout else m.endJob fu j stTimeout)
        m.breakLoads
      let m := (List.range 16).foldl (fun (m : Module) p => m.losePort fu p) m
      let m := m.domainsOff
      ({ m with power := { m.power with refState := 2 } }.event fu 0x0207 [js.length, n]).settle fu)

end Sys2Proof.Machine
end

