-- ==== Sys2Proof/Machine/Views.lean ====
section
/-!
DEFINITION. What the objects of the dictionary read as (R443, R445 and the object table of each chapter): scalars and DOMAINs in
force, the declared ranges of the calibration objects (R543, R544), and the OVERRIDDEN flag (R511).
-/
namespace Sys2Proof.Machine

/-! ### Calibration (R471, R543, R544, R545) -/

/-- The declared minimum and maximum of an object as codes of its type: of a user calibration object [lo − f, hi − f] (R543). -/
def declaredRange (fu : Fuses) (d : ObjDef) (i s : Nat) : Nat × Nat :=
  let w := typeBits d.type
  if d.type = 6 then
    let lo := ofF32 0x3F733333
    let hi := ofF32 0x3F866666
    if i < 0x9800 then (0x3F733333, 0x3F866666)
    else
      let f := ofF32 (calibFactory fu (i - 0x800) s)
      (toF32 (lo.sub f), toF32 (hi.sub f))
  else if 0x9000 ≤ i && i < 0x9800 && s != 0 && i != 0x90FE then
    (unsigned w (calibRange i s).1, unsigned w (calibRange i s).2)
  else if 0x9800 ≤ i && i < 0xA000 && s != 0 then
    let r := calibRange (i - 0x800) s
    let c := calibFactory fu (i - 0x800) s
    let f : Int := if d.type = 5 || d.type = 9 then signed w c else (c : Int)
    (unsigned w (r.1 - f), unsigned w (r.2 - f))
  else (d.lo, d.hi)

/-! ### Scalars in force -/

/-- Rows with a remap in progress (R110, R121). -/
def Module.pendingRows (m : Module) : Nat :=
  (m.cores.map (fun c => c.mem.pending.length)).sum + (m.clusters.map (fun k => k.pending.length)).sum

/-- The firmware version that runs (R458). -/
def Module.fwVersion (m : Module) : Nat := (m.fw.slot m.fw.running).version

/-- The origin word of 32 cores (R453): 1 for a hardware fence. -/
def Module.originWord (m : Module) (i : Nat) : Nat := wordOf (fun g => (m.core g).fenced && (m.core g).origin == 1) (32 * i) 32

/-- The value of a scalar object in force. -/
def Module.odScalar (fu : Fuses) (m : Module) (i s : Nat) : Nat :=
  let key := odKey i s
  if s = 0 then (lastSub i).getD 0
  else if 0x9000 ≤ i && i < 0x9800 && i != 0x90FE then calibFactory fu i s
  else if i = 0x3010 then fu.arrayMap.getD (s - 1) 0
  else if i = 0x3030 && 13 ≤ s then wordOf (fun g => (m.core g).ready) (32 * (s - 13)) 32
  else if i = 0x3100 then field m.mgmt.mirror (32 * (s - 1)) 32
  else if i = 0x3102 then m.originWord (s - 1)
  else
    match i, s with
    | 0x1010, 2 => m.power.node
    | 0x1018, 3 => fu.stepping
    | 0x1018, 5 => fu.grade
    | 0x1018, 6 => fu.pcieVendor
    | 0x1018, 8 => fu.grade
    | 0x1F10, 2 => m.fencedCount
    | 0x3020, 2 => m.dieReady
    | 0x3120, 14 => m.stress.state
    | 0x4010, 2 => m.stackReady
    | 0x4010, 3 => m.stackFailed
    | 0x4200, 10 => m.pendingRows
    | 0x5200, 3 => if m.rank = 0 then 1 else 0
    | 0x6020, 1 => m.store.spare
    | 0x6020, 2 => m.store.spareFraction
    | 0x6020, 3 => m.store.meanWear
    | 0x6020, 4 => m.store.maxPe
    | 0x6020, 5 => m.store.minPe
    | 0x6020, 6 => m.store.bad.length
    | 0x6020, 7 => m.store.factoryBad.length
    | 0xA010, 1 => m.fw.running
    | 0xA010, 3 => m.fwVersion
    | 0xA010, 4 => m.fw.session.getD 0xFF
    | 0xA010, 5 => m.fw.floor
    | 0xA020, 3 => m.fw.keyUsed
    | 0xA020, 4 => 32 - m.fw.floorRows.length
    | 0xA020, 5 => if m.fw.revoked then 1 else 0
    | _, _ => m.odGet key

/-! ### DOMAINs in force -/

/-- A job context (R207). -/
def Job.context (b : Job) : List Byte :=
  leBytes 8 b.word0 ++ leBytes 8 b.seed ++ leBytes 8 (b.step % 2 ^ 32 * 2 ^ 32) ++ leBytes 8 b.hbmBase ++
  leBytes 8 b.image.hbmBytes ++ (if b.hash.isEmpty then zeros 8 else leBytes 8 b.imageId) ++ leBytes 48 (maskOf b.cores) ++ zeros 32

/-- An entry of the residency table (R335). -/
def Residency.bytes (r : Residency) (readers : Nat) : List Byte :=
  leBytes 8 (r.expert * 2 ^ 48 + r.job * 2 ^ 44 + r.state * 2 ^ 42 + (if r.pinned then 2 ^ 41 else 0) +
    (if r.poisoned then 2 ^ 40 else 0) + r.frame % 2 ^ 32) ++
  leBytes 8 r.present ++ leBytes 8 r.lastUse ++ leBytes 8 (readers * 2 ^ 48)

/-- The residency table: an entry that no job holds is FREE. -/
def Module.residencyBytes (m : Module) : List Byte :=
  (List.range 8192).flatMap (fun n => match m.residency.lookup n with
    | some r => r.bytes (m.readersOf r.job r.expert)
    | none => zeros 32)

/-- A slot of the register snapshot area (R494). -/
def RegSlot.bytes (r : RegSlot) : List Byte :=
  let head := leBytes 8 (r.cause * 2 ^ 56 + r.code * 2 ^ 40 + r.cycles * 2 ^ 16 + (if r.reported then 1 else 0)) ++
    leBytes 8 (r.ops * 2 ^ 24)
  let rest := zeros 40 ++ (List.range 64).flatMap (fun i => leBytes 8 (r.regs.getD i 0))
  head ++ leBytes 8 (crc32c (head ++ zeros 8 ++ rest)) ++ rest

/-- The register snapshot area (R494). -/
def Log.area (l : Log) : List Byte :=
  leBytes 8 (0x5247534E * 2 ^ 32 + l.nextSlot) ++ zeros 56 ++
  (List.range 7).flatMap (fun i => match l.slots.getD i none with
    | some r => r.bytes
    | none => zeros 576)

/-- Extents that the records of the LOG partition occupy (R413). -/
def Log.extents (l : Log) : Nat := ceilDiv ((l.part.map LogRec.size).sum) extentBytes

/-- The state of a port's link (R433). -/
def Port.linkWord (t : Port) : Nat :=
  t.width + t.gts * 2 ^ 8 + (if t.up && decide (64 ≤ t.gts) then 2 ^ 16 else 0) + (if t.up then 2 ^ 17 else 0)

/-- The step counts of the kept snapshots of a job context (R288), older first. -/
def Coil.keptSteps (c : Coil) (j : Nat) : List Byte :=
  let ks := (c.kept j).map (fun o => field o.id 0 32)
  leBytes 4 (ks.getD 0 0) ++ leBytes 4 (ks.getD 1 0)

/-- The value of a DOMAIN or STR in force: a stored one is read at its maximum length. -/
def Module.odDomain (fu : Fuses) (m : Module) (i s len : Nat) : List Byte :=
  if i = 0x3200 then (m.job (s - 1)).context
  else if i = 0x3240 then (m.job (s - 1)).slotMap
  else if i = 0x4000 then
    (List.range 1024).flatMap (fun b => leBytes 1 ((m.stack (s - 1)).sparesLeft (b / 32) (b % 32)))
  else
    match i, s with
    | 0x1010, 1 => macBytes fu.mac
    | 0x1018, 4 => fu.serial
    | 0x1020, 3 => leBytes 16 featuresOffered
    | 0x1020, 4 => leBytes 16 (m.port 0).agreed ++ leBytes 16 (m.port 1).agreed
    | 0x2020, 2 => (List.range 48).flatMap (fun d => leBytes 2 (if (m.die d).ready then pointMhz (m.die d).point else 0))
    | 0x2040, 1 => (List.range 52).flatMap (fun d => leBytes 2 (unsigned 16 (m.die d).tj))
    | 0x3270, 1 => m.cores.flatMap (fun c => (List.range 8).flatMap (fun ch => (channelRecord (c.channels.getD ch [])).flatMap (leBytes 8)))
    | 0x4020, 5 => m.hbmStacks.flatMap (fun t => (List.range 32).flatMap (fun c => leBytes 8 (t.marks.get c)))
    | 0x4030, 1 => m.hbmStacks.flatMap (fun t => leBytes 2 (unsigned 16 t.temp))
    | 0x4030, 2 => m.hbmStacks.flatMap (fun t => leBytes 1 t.share)
    | 0x4200, 5 => m.cores.flatMap (fun c => leBytes 4 c.stalls)
    | 0x4200, 8 => (m.cores.zipIdx).flatMap (fun c => (List.range 48).flatMap (fun k =>
        leBytes 1 (16 - min 16 (c.1.mem.sparesUsed.get k + fu.spFusedSpares.get (48 * c.2 + k)))))
    | 0x4210, 5 => m.clusters.flatMap (fun k => leBytes 4 k.stalls)
    | 0x4210, 6 => m.clusters.zipIdx.flatMap (fun k => (List.range 32).flatMap (fun b =>
        leBytes 1 (32 - min 32 (k.1.sparesUsed.get b + fu.cmFusedSpares.get (32 * k.2 + b)))))
    | 0x4220, 1 => m.residencyBytes
    | 0x5100, 1 => leBytes 4 (m.port 0).linkWord ++ leBytes 4 (m.port 1).linkWord
    | 0x5100, 10 => m.host.queues.flatMap (fun t => leBytes 1 t.state)
    | 0x5210, 1 => m.hawsers.flatMap (fun h => leBytes 1 h.state)
    | 0x5230, 1 => m.lasers.flatMap (fun l => leBytes 1 l.state)
    | 0x5230, 2 => m.lasers.flatMap (fun l => leBytes 4 (if !l.powered && l.last == 0 then 0 else l.uw))
    | 0x6010, 4 => leBytes 4 (m.store.used 1) ++ leBytes 4 (m.store.used 2) ++ leBytes 4 (m.store.used 3) ++ leBytes 4 m.log.extents
    | 0x7140, 2 => (List.range 16).flatMap m.store.keptSteps
    | 0x8030, 2 => m.log.area
    | 0xA010, 2 => leBytes 4 (m.fw.slot 0).word ++ leBytes 4 (m.fw.slot 1).word
    | 0xA030, 1 => fu.certChain
    | 0xA040, 2 => m.trust.report
    | _, _ => leBytes len (m.odGet (odKey i s))

/-- The value in force of an object as bytes; a write-only one reads as zero (R443). -/
def Module.odBytes (fu : Fuses) (m : Module) (d : ObjDef) (i s : Nat) : List Byte :=
  let w := typeWidth d.type
  if d.access = 2 then zeros (if w = 0 then d.len else w)
  else if w = 0 then m.odDomain fu i s d.len
  else leBytes w (m.odScalar fu i s)

/-! ### Flags (R445, R511) -/

/-- Whether a die that is ready runs below its request on account of a loop. -/
def Module.anyHeld (m : Module) : Bool := (List.range 48).any m.dieHeld

/-- The OVERRIDDEN flag of an object. -/
def Module.overridden (m : Module) (i s : Nat) : Bool :=
  match i, s with
  | 0x2020, 1 => m.anyHeld || decide (pointOf (m.odGet (odKey 0x2020 1)) < m.power.powerHold)
  | 0x2030, 1 => (m.power.currentHeld && (decide (0 < m.power.powerHold) || m.power.gating)) ||
      (m.dies.take 48).any (fun d => d.ready && decide (m.power.powerHold < d.thermalHold))
  | 0x3120, 14 => m.stress.state != 0 && m.anyHeld
  | 0x5200, 7 => [0, 1, 2].any (fun b => (m.bond b).state == 2 && decide ((m.bondLive b).length < 4))
  | 0x6030, 1 => m.store.pinsOverridden
  | _, _ => false

/-! ### Logline records (R550) -/

/-- The records that can be read: those of the LOG partition while the store serves reads, the pre-mount log, and the ring. -/
def Module.records (m : Module) : List LogRec := (if m.storeReads then m.log.part else []) ++ m.log.premount ++ m.log.ring

/-- Whole records in order, as many as fit. -/
def packRecords : List LogRec → Nat → List Byte
  | [], _ => []
  | r :: rs, room => if r.size ≤ room then r.bytes ++ packRecords rs (room - r.size) else []

/-- The window of a path. -/
def Module.window (m : Module) (path room : Nat) : List Byte :=
  let start := max (m.mgmt.windows.get path) (m.odGet (odKey 0x8020 3))
  packRecords (m.records.filter (fun r => decide (start ≤ r.seq))) room

end Sys2Proof.Machine
end

