-- ==== Sys2Proof/Machine/Mgmt.lean ====
section
/-!
DEFINITION. Management messages (R435 to R445): frames and mailboxes, the header and the checks of R438 to R440 and R445, levels
(R444), version and feature messages (R439, R451, R452), and reading, describing and staging objects (R446, R447).
-/
namespace Sys2Proof.Machine

/-! ### Requests -/

/-- A request as the module takes it: its path (R444), the header's fields (R438), the body as it stands, and the source of a
frame (R436). -/
structure Req where
  path : Nat
  type : Nat
  seq : Nat
  flags : Nat
  len : Nat
  body : List Byte
  mac : Nat
  node : Nat
  deriving DecidableEq, Repr

/-- An answer: status, the clamped and overridden flags, and the body. -/
structure Reply where
  status : Nat
  clamped : Bool
  overridden : Bool
  body : List Byte
  deriving DecidableEq, Repr

/-- An answer without a body. -/
def Reply.plain (status : Nat) : Reply := { status := status, clamped := false, overridden := false, body := [] }

/-- A message read. -/
def readReq (path mac node : Nat) (msg : List Byte) : Req :=
  { path := path, type := leAt msg 4 2, seq := leAt msg 12 4, flags := leAt msg 8 4, len := leAt msg 0 4,
    body := slice msg 16 (leAt msg 0 4), mac := mac, node := node }

/-- The largest body of a path (R440). -/
def pathLimit (path : Nat) : Nat := if path < 8 then 1480 else 16368

/-- What the module makes of a frame (R436): 0 it is for another, 1 it is bad, 2 it is taken. -/
def Module.judgeFrame (fu : Fuses) (m : Module) (bs : List Byte) : Nat :=
  let p := bs.drop 14
  let dst := beNat (bs.take 6)
  if dst != fu.mac && dst != 2 ^ 48 - 1 then 0
  else if beNat (slice bs 12 2) != 0x88B5 || decide (p.length < 46) || decide (1500 < p.length) || leAt p 2 2 != 0 ||
      decide (7 < leAt p 1 1) || decide (p.length < 20 + leAt p 4 4) then 1
  else if leAt p 0 1 != m.power.node && leAt p 0 1 != 0xFF then 0
  else 2

/-- The request that a source holds. -/
def Module.reqOf (fu : Fuses) (m : Module) : MsgFrom → Option Req
  | .mailbox p =>
    let t := m.port p
    if p < 2 && t.ready && t.mailbox.busy then t.mailbox.taken.map (readReq (8 + p) 0 0) else none
  | .frame bs =>
    if m.fieldUp && m.judgeFrame fu bs == 2 then
      some (readReq (leAt bs 15 1) (beNat (slice bs 6 6)) (leAt bs 15 1) (bs.drop 18))
    else none

/-- Whether a request came over the field network. -/
def Req.onField (r : Req) : Bool := decide (r.path < 8)

/-- Management requests are served while the dictionary is reachable; by the boot ROM only on port 0's mailbox (R456). -/
def Module.serves (m : Module) (src : MsgFrom) : Bool := m.mgmt.reachable || (m.mgmt.romService && src == .mailbox 0)

/-- A frame is taken: it is counted, and one with the module's own node ID raises event 0x0102 (R436). -/
def Module.takeFrame (fu : Fuses) (m : Module) (r : Req) : Module :=
  if !r.onField then m
  else
    let m := m.bump (odKey 0x1010 5) 1
    if r.node = m.power.node && r.mac != fu.mac then m.event fu 0x0102 [r.mac] else m

/-- A request that is dropped without an answer. -/
def Module.dropReq (m : Module) (r : Req) : Module :=
  if r.onField then m else m.onMailbox (r.path - 8) (fun b => { b with busy := false, taken := none })

/-- A response leaves on its request's path: into the mailbox with its interrupt (R442), or to the source node, for which it is
kept (R437). -/
def Module.sendReply (fu : Fuses) (m : Module) (r : Req) (msg : List Byte) : Module :=
  if r.onField then
    let m := m.sendFrame fu r.mac r.node msg
    { m with mgmt := { m.mgmt with kept := m.mgmt.kept.filter (fun k => k.node != r.node) ++
      [{ node := r.node, seq := r.seq, type := r.type, resp := msg }] } }
  else
    (m.onMailbox (r.path - 8) (fun b => { b with busy := false, taken := none, respReady := true, response := msg })).fire (r.path - 8) 8

/-- The response kept for a request that its node repeats (R437). -/
def Module.keptFor (m : Module) (r : Req) : Option (List Byte) :=
  if r.onField then
    (m.mgmt.kept.find? (fun k => k.node == r.node && k.seq == r.seq && k.type == r.type)).map Kept.resp
  else none

/-- The level of a path (R444); the boot ROM serves at level 2. -/
def Module.level (m : Module) (path : Nat) : Nat := if m.mgmt.romService then 2 else m.odGet (odKey 0x1410 (path + 1))

/-- What the boot ROM serves (R456, R465): VERSION_QUERY, FW_UPDATE, and reads of OD 0x1018. -/
def Req.romServes (r : Req) : Bool := r.type == 0x0001 || r.type == 0x0030 || (r.type == 0x0010 && leAt r.body 6 2 == 0x1018)

/-- One request served: the command whose row a request belongs to is named by `mine`, its meaning by `f`. -/
def Module.serve (fu : Fuses) (m : Module) (src : MsgFrom) (mine : Req → Bool) (f : Module → Req → Module × Reply) : Module :=
  if !m.serves src then m
  else
    match m.reqOf fu src with
    | none => m
    | some r =>
      if !mine r then m
      else
        let m := m.takeFrame fu r
        if bitAt r.flags 0 then (m.dropReq r).bump (odKey 0x1010 7) (if r.onField then 1 else 0)
        else
          match m.keptFor r with
          | some msg => m.sendFrame fu r.mac r.node msg
          | none =>
            let a := if r.flags != 0 || decide (pathLimit r.path < r.len) then (m, Reply.plain stMalformed)
              else if m.mgmt.romService && !r.romServes then (m, Reply.plain stUnsupported)
              else f m r
            let x := if pathLimit r.path < a.2.body.length then Reply.plain stMalformed else a.2
            a.1.sendReply fu r (message r.type r.seq x.status x.clamped x.overridden true x.body)

/-- The row of a message. -/
def serveRow (src : MsgFrom) (mine : Req → Bool) (f : Fuses → Module → Req → Module × Reply) (s : State) : Host.Outcome State Fault Refusal :=
  s.actOn (match src with | .mailbox p => decide (p < 2) | .frame _ => true) (fun fu m => m.serve fu src mine (f fu))

/-- NOTIFY received: discarded without an answer (R439). -/
def execNotify (src : MsgFrom) (s : State) : Host.Outcome State Fault Refusal :=
  s.actOn (match src with | .mailbox p => decide (p < 2) | .frame _ => true) (fun fu m =>
    if !m.serves src then m
    else
      match m.reqOf fu src with
      | none => m
      | some r =>
        if r.type != 0x0020 then m
        else
          let m := (m.takeFrame fu r).dropReq r
          if bitAt r.flags 0 && r.onField then m.bump (odKey 0x1010 7) 1 else m)

/-- FRAME_BAD: a frame for the module whose EtherType, route word or length is wrong. -/
def execFrameBad (bytes : List Byte) (s : State) : Host.Outcome State Fault Refusal :=
  s.actOn true (fun fu m =>
    if m.mgmt.reachable && m.fieldUp && m.judgeFrame fu bytes == 1 then m.bump (odKey 0x1010 7) 1 else m)

/-! ### Versions and features -/

/-- The message types of R439. -/
def knownTypes : List Nat := [0x0001, 0x0002, 0x0010, 0x0011, 0x0012, 0x0020, 0x0030]

/-- The answer to a VERSION_QUERY: in the boot ROM's service no firmware runs, and the spec gives no version for it. -/
def Module.versionBody (m : Module) : List Byte :=
  (if m.mgmt.romService then leBytes 4 (Config.freeWord m.freeNo).toNat ++ [Config.freeByte m.freeNo 4]
   else leBytes 4 m.fwVersion ++ leBytes 1 m.fw.running) ++ zeros 3 ++ leBytes 16 featuresOffered

/-- VERSION_QUERY. A message of no known type is answered MALFORMED under this row (R439). -/
def execVersionQuery (src : MsgFrom) (s : State) : Host.Outcome State Fault Refusal :=
  serveRow src (fun r => r.type == 0x0001 || !knownTypes.contains r.type) (fun _ m r =>
    if r.type != 0x0001 || !r.body.isEmpty then (m, Reply.plain stMalformed)
    else ((if m.mgmt.romService then m.nextFree else m), { Reply.plain stOk with body := m.versionBody })) s

/-- FEATURE_SET (R452). -/
def execFeatureSet (src : MsgFrom) (s : State) : Host.Outcome State Fault Refusal :=
  serveRow src (fun r => r.type == 0x0002) (fun _ m r =>
    if r.body.length != 16 then (m, Reply.plain stMalformed)
    else
      let w := leNat r.body &&& featuresOffered
      ((if r.onField then m else m.onPort (r.path - 8) (fun t => { t with agreed := w })), { Reply.plain stOk with body := leBytes 16 w })) s

/-! ### Object messages (R439, R445) -/

/-- The descriptor and offset words of an object message, and the value that follows. -/
structure OdReq where
  index : Nat
  sub : Nat
  staged : Bool
  len : Nat
  off : Nat
  data : List Byte
  deriving DecidableEq, Repr

/-- The form of an object message (R439); none where it is MALFORMED. -/
def Req.object (r : Req) : Option OdReq :=
  let d := word64 r.body 0
  let w := word64 r.body 1
  let o : OdReq := { index := field d 48 16, sub := field d 40 8, staged := bitAt d 39, len := field d 0 32, off := field w 32 32,
                     data := r.body.drop 16 }
  let lenOk := if r.type = 0x0012 then r.body.length == 8 else if r.type = 0x0010 then r.body.length == 16
    else r.body.length == 16 + o.len
  if r.body.length != r.len || !lenOk || field d 32 7 != 0 || (o.staged && r.type != 0x0010) || field w 0 32 != 0 then none else some o

/-- Whether the feature that object messages on a mailbox need is agreed (R452); the boot ROM's service has no agreement. -/
def Module.odAllowed (m : Module) (r : Req) : Bool := r.onField || m.mgmt.romService || bitAt (m.port (r.path - 8)).agreed 0

/-- The checks of R445 up to the object's presence. -/
def Module.odFind (m : Module) (r : Req) : Nat × Option (OdReq × ObjDef) :=
  match r.object with
  | none => (stMalformed, none)
  | some o =>
    if !m.odAllowed r then (stUnsupported, none)
    else
      match objDef o.index o.sub with
      | none => (stBadIndex, none)
      | some d => (stOk, some (o, d))

/-- The staged value of a path for an object (R447). -/
def Module.stagedOf (m : Module) (path key : Nat) : Option Staged := m.mgmt.staged.find? (fun v => v.path == path && v.key == key)

/-- The value word of a response (R439). -/
def valueWord (o : OdReq) (d : ObjDef) (len : Nat) : List Byte :=
  leBytes 8 (o.index * 2 ^ 48 + o.sub * 2 ^ 40 + d.type * 2 ^ 36 + d.access * 2 ^ 32 + len)

/-- The bytes that a read answers, or the status of the check that fails. -/
def Module.readValue (fu : Fuses) (m : Module) (path : Nat) (o : OdReq) (d : ObjDef) : Nat × List Byte :=
  let room := pathLimit path - 8
  if o.index = 0x8030 && o.sub = 1 then
    if o.off != 0 then (stMalformed, []) else (stOk, m.window path (min o.len room))
  else
    let whole := match (if o.staged then m.stagedOf path (odKey o.index o.sub) else none) with
      | some v => leBytes (if typeWidth d.type = 0 then d.len else typeWidth d.type) v.value
      | none => m.odBytes fu d o.index o.sub
    if d.type = 8 then
      if whole.length < o.off + o.len then (stBadIndex, []) else (stOk, slice whole o.off o.len)
    else if o.off != 0 then (stMalformed, [])
    else if d.type = 7 then (if d.len < o.len then (stMalformed, []) else (stOk, whole.take o.len))
    else if o.len != typeWidth d.type then (stMalformed, [])
    else (stOk, whole)

/-- OD_READ. -/
def execOdRead (src : MsgFrom) (s : State) : Host.Outcome State Fault Refusal :=
  serveRow src (fun r => r.type == 0x0010) (fun fu m r =>
    match r.object with
    | none => (m, Reply.plain stMalformed)
    | some o =>
      if pathLimit r.path - 8 < o.len && !(o.index == 0x8030 && o.sub == 1) then (m, Reply.plain stMalformed)
      else
        match m.odFind r with
        | (st, none) => (m, Reply.plain st)
        | (_, some (o, d)) =>
          let v := m.readValue fu r.path o d
          let key := odKey o.index o.sub
          let cl := match (if o.staged then m.stagedOf r.path key else none) with
            | some x => x.clamped
            | none => m.mgmt.clamped.contains key
          if v.1 != stOk then (m, Reply.plain v.1)
          else (m, { status := stOk, clamped := cl, overridden := m.overridden o.index o.sub, body := valueWord o d v.2.length ++ v.2 })) s

/-- The default of an object as OD_DESCRIBE gives it: what a CONST object holds; the rank's by MASTER_SEL (R290). -/
def Module.odDefaultOf (fu : Fuses) (m : Module) (d : ObjDef) (i s : Nat) : Nat :=
  if d.access = 4 then m.odScalar fu i s else if i = 0x5200 && s = 1 && m.power.masterSel then 0 else d.dflt

/-- OD_DESCRIBE. -/
def execOdDescribe (src : MsgFrom) (s : State) : Host.Outcome State Fault Refusal :=
  serveRow src (fun r => r.type == 0x0012) (fun fu m r =>
    match m.odFind r with
    | (st, none) => (m, Reply.plain st)
    | (_, some (o, d)) =>
      let w := typeWidth d.type
      if w != 0 && o.len != 0 && o.len != w then (m, Reply.plain stMalformed)
      else
        let g := declaredRange fu d o.index o.sub
        let body := if w = 0 then leBytes 4 d.len
          else leBytes w (m.odDefaultOf fu d o.index o.sub) ++ leBytes w g.1 ++ leBytes w g.2
        (m, { Reply.plain stOk with body := valueWord o d (if w = 0 then 4 else w) ++ body })) s

/-! ### Writing -/

/-- Whether a path's level lets it write an object (R444, R472): `v` is the value where it has the type's width. -/
def Module.mayWrite (m : Module) (path : Nat) (o : OdReq) : Bool :=
  let l := m.level path
  if o.index = 0x1410 then decide (2 ≤ l) || (o.sub == path + 1 && o.data.length == 1 && decide (leNat o.data < l))
  else decide (2 ≤ l) || (l == 1 && !(decide (0x9800 ≤ o.index) && decide (o.index ≤ 0x9FFF)) && odRange o.index != 10)

/-- The value length and offset that a write must have (R445); record_window and attest_nonce have lengths of their own (R550,
R541). -/
def writeForm (o : OdReq) (d : ObjDef) : Nat :=
  if o.index = 0x8030 then (if o.off = 0 && o.len = 8 then stOk else stMalformed)
  else if o.index = 0xA040 then (if o.off = 0 && o.len = 32 then stOk else stMalformed)
  else if d.type = 8 then (if d.len < o.off + o.len then stBadIndex else stOk)
  else if o.off != 0 || o.len != typeWidth d.type then stMalformed
  else if d.type = 6 && ofF32 (leNat o.data) == .nan then stMalformed
  else stOk

/-- Every check of R445 on an OD_WRITE before the rules of the object's chapter. -/
def Module.writeCheck (m : Module) (r : Req) : Nat × Option (OdReq × ObjDef) :=
  match m.odFind r with
  | (st, none) => (st, none)
  | (_, some (o, d)) =>
    if !m.mayWrite r.path o || d.access = 0 || d.access = 4 then (stDenied, none)
    else
      let st := writeForm o d
      if st = stOk then (stOk, some (o, d)) else (st, none)

/-- The next power of two at or above a number. -/
def nextPow2 (v : Nat) : Nat := 2 ^ ceilLog2 v

/-- The value as it is stored (R445): clamped to the declared range; sampling periods to the next power of two (R304, R351); an A
point to the one at or below it (R468); reserved bits left out, and bits that cannot be cleared set (R11, R469, R470). -/
def storedValue (fu : Fuses) (d : ObjDef) (i s v : Nat) : Nat :=
  let g := declaredRange fu d i s
  let w := typeBits d.type
  match i, s with
  | 0x7110, 1 => clampNat 1 4096 (nextPow2 v)
  | 0x3260, 2 => clampNat 1 1024 (nextPow2 v)
  | 0x2020, 1 => pointMhz (pointOf v)
  | 0x3020, 1 => setBit (v % 2 ^ 52) 48
  | 0x4010, 1 => v % 2 ^ 24
  | 0x8010, 3 => setBit (setBit v 0) 8
  | _, _ =>
    if d.type = 8 || d.type = 7 then v
    else if d.type = 6 then
      (if (ofF32 v).lt (ofF32 g.1) then g.1 else if (ofF32 g.2).lt (ofF32 v) then g.2 else v)
    else if d.type = 5 || d.type = 9 || (decide (0x9800 ≤ i) && decide (i < 0xA000) && s != 0 && i != 0x90FE) then
      unsigned w (clampInt (signed w g.1) (signed w g.2) (signed w v))
    else clampNat g.1 g.2 v

/-- A value staged by a path (R446), at most 64 in a range. -/
def Module.stageValue (m : Module) (path key value : Nat) (clamped : Bool) : Option Module :=
  let rest := m.mgmt.staged.filter (fun v => !(v.path == path && v.key == key))
  if 64 ≤ rest.countP (fun v => v.path == path && odRange (v.key / 256) == odRange (key / 256)) then none
  else some { m with mgmt := { m.mgmt with staged := rest ++ [{ path := path, key := key, value := value, clamped := clamped }] } }

/-- The value of an object's bytes with a written piece in it. -/
def pieceInto (old : List Byte) (o : OdReq) : Nat := leNat (old.take o.off ++ o.data ++ old.drop (o.off + o.data.length))

/-- A write of an RWS or RW object. -/
def Module.writeValue (fu : Fuses) (m : Module) (path : Nat) (o : OdReq) (d : ObjDef) : Module × Reply :=
  let key := odKey o.index o.sub
  let v := if d.type = 8 then
      pieceInto (match m.stagedOf path key with
        | some x => leBytes d.len x.value
        | none => m.odBytes fu d o.index o.sub) o
    else leNat o.data
  let x := storedValue fu d o.index o.sub v
  if d.access = 3 then
    match m.stageValue path key x (x != v) with
    | none => (m, Reply.plain stDenied)
    | some m => (m, { Reply.plain stOk with clamped := x != v })
  else
    let cl := m.mgmt.clamped.filter (· != key) ++ (if x = v then [] else [key])
    ((({ m with mgmt := { m.mgmt with clamped := cl } }).odSet key x), { Reply.plain stOk with clamped := x != v })

/-- Which row an OD_WRITE belongs to: 0 the plain one, 1 a commit, 2 a discard, 3 the fence mask, 4 core_reset, 5 record_window,
6 attest_nonce, 7 stress_run, 8 stress_run with 2. -/
def Req.writeRow (r : Req) : Nat :=
  let d := word64 r.body 0
  let i := field d 48 16
  let s := field d 40 8
  let v := leAt r.body 16 1
  if i % 0x1000 = 0x0FE && 1 ≤ i / 0x1000 && i / 0x1000 ≤ 10 && s = 1 then (if v = 2 then 2 else 1)
  else if i = 0x3100 && s != 0 then 3
  else if i = 0x3104 && s != 0 then 4
  else if i = 0x8030 && s = 1 then 5
  else if i = 0xA040 && s = 1 then 6
  else if i = 0x3120 && s = 10 then (if v = 2 then 8 else 7)
  else 0

/-- The row of an OD_WRITE: its checks, then what the object's chapter says of the write. -/
def writeRow (src : MsgFrom) (row : Nat) (f : Fuses → Module → Nat → OdReq → ObjDef → Module × Reply) (s : State) :
    Host.Outcome State Fault Refusal :=
  serveRow src (fun r => r.type == 0x0011 && r.writeRow == row) (fun fu m r =>
    match m.writeCheck r with
    | (st, none) => (m, Reply.plain st)
    | (_, some (o, d)) => f fu m r.path o d) s

/-- OD_WRITE. -/
def execOdWrite (src : MsgFrom) (s : State) : Host.Outcome State Fault Refusal :=
  writeRow src 0 (fun fu m path o d => m.writeValue fu path o d) s

/-- RECORD_WINDOW (R550). -/
def execRecordWindow (src : MsgFrom) (s : State) : Host.Outcome State Fault Refusal :=
  writeRow src 5 (fun _ m path o _ =>
    ({ m with mgmt := { m.mgmt with windows := m.mgmt.windows.set path (leNat o.data) } }, Reply.plain stOk)) s

end Sys2Proof.Machine
end

