-- ==== Sys2Proof/Machine/Commits.lean ====
section
/-!
DEFINITION. Range commits (R446 to R449): the cross-object rules of each range (R290, R398, R469, R487, R514), a pending commit and
its application with the enables it starts (R372, R411, R513, R514, R530), and the writes to the fence objects (R454).
-/
namespace Sys2Proof.Machine

/-! ### Cross-object rules (R448) -/

/-- An object's value as it would stand after a commit. -/
def Module.after (m : Module) (vals : List Staged) (key : Nat) : Nat :=
  match vals.find? (fun v => v.key == key) with
  | some v => v.value
  | none => m.odGet key

/-- Bits that a commit would set, and bits that it would clear. -/
def newBits (old new n : Nat) : List Nat := (setBits new n).filter (fun i => !bitAt old i)

/-- Whether a core is enabled in force. -/
def Module.coreEnabled (m : Module) (g : Nat) : Bool := bitAt (m.odGet (odKey 0x3030 (g / 32 + 1))) (g % 32)

/-- Whether any core of a die is enabled. -/
def Module.dieHasCore (m : Module) (d : Nat) : Bool := (List.range 8).any (fun i => m.coreEnabled (8 * d + i))

/-- Whether a stack is enabled in force. -/
def Module.stackEnabled (m : Module) (p : Nat) : Bool := bitAt (m.odGet (odKey 0x4010 1)) p

/-- Whether any job is LOADED or RUNNING. -/
def Module.anyJob (m : Module) : Bool := m.jobs.any Job.live

/-- Die and core enables (R26, R469, R503, R514), and the acceptance job (R487): the object that breaks a rule. -/
def Module.breaks3 (m : Module) (vals : List Staged) : Option Nat :=
  let k := odKey 0x3020 1
  let old := m.odGet k
  let new := m.after vals k
  let dieBad := (!(newBits old new 52).isEmpty && m.power.refState != 0) ||
    (newBits new old 52).any (fun d => decide (d < 48) && (m.dieHasCore d || m.stackEnabled (d / 2)))
  let coreBad := fun (i : Nat) =>
    let k := odKey 0x3030 (i + 1)
    let old := m.odGet k
    let new := m.after vals k
    (newBits old new 32).any (fun b => !(m.die (dieOf (32 * i + b))).ready || !(m.stack (dieOf (32 * i + b) / 2)).ready) ||
    (newBits new old 32).any (fun b => (m.core (32 * i + b)).job.any (fun j => (m.job j).live))
  let ka := odKey 0x3230 11
  let a := m.after vals ka
  if dieBad then some k
  else
    match (List.range 12).find? coreBad with
    | some i => some (odKey 0x3030 (i + 1))
    | none =>
      if vals.any (fun v => v.key == ka) && a != 0xFF && (decide (16 ≤ a) || (m.job a).prog.refs.isEmpty || m.inRope a) then some ka
      else none

/-- Stack enables (R373, R514). -/
def Module.breaks4 (m : Module) (vals : List Staged) : Option Nat :=
  let k := odKey 0x4010 1
  let old := m.odGet k
  let new := m.after vals k
  let on := (newBits old new 24).any (fun p => !((m.die (2 * p)).enabled && (m.die (2 * p)).ended && (m.die (2 * p + 1)).enabled && (m.die (2 * p + 1)).ended))
  let off := (newBits new old 24).any (fun p => m.anyJob || m.dieHasCore (2 * p) || m.dieHasCore (2 * p + 1))
  if on || off then some k else none

/-- The place in the rope (R290), and the hawser ports (R514, R530): with `wait` an unpowered laser input counts as pending. -/
def Module.breaks5 (m : Module) (vals : List Staged) (wait : Bool) : Option Nat :=
  let rank := m.after vals (odKey 0x5200 1)
  let size := m.after vals (odKey 0x5200 2)
  let k := odKey 0x5220 1
  let lit := newBits (m.odGet k) (m.after vals k) 16
  let input := fun (n : Nat) =>
    let l := m.lasers.getD (n / 8) Laser.none
    (wait && !l.powered) || (l.powered && l.state == 1)
  if (1 < size && size ≤ rank) || (decide (size ≤ 1) && rank != 0 && rank != 0xFFFF) then some (odKey 0x5200 1)
  else if lit.any (fun n => !(m.die (48 + n / 4)).ready || !input n) then some k
  else none

/-- The partition quotas (R398). -/
def Module.breaks6 (m : Module) (vals : List Staged) : Option Nat :=
  let q := fun (p : Nat) => m.after vals (odKey 0x6010 p)
  if 5721840 < q 1 + q 2 + q 3 + 2048 then some (odKey 0x6010 1)
  else ([1, 2, 3].find? (fun p => decide (q p < m.store.used p))).map (fun p => odKey 0x6010 p)

/-- The object that breaks a rule of range `n`, if any does. -/
def Module.breaks (m : Module) (n : Nat) (vals : List Staged) (wait : Bool) : Option Nat :=
  if n = 3 then m.breaks3 vals
  else if n = 4 then m.breaks4 vals
  else if n = 5 then m.breaks5 vals wait
  else if n = 6 then m.breaks6 vals
  else none

/-! ### Commit and discard (R448) -/

/-- OD 0xn0FE:02 commit_state set. -/
def Module.setCommit (m : Module) (n v : Nat) : Module := m.odSet (odKey (0x1000 * n + 0x0FE) 2) v

/-- The staged values of a path in a range. -/
def Module.stagedIn (m : Module) (path n : Nat) : List Staged :=
  m.mgmt.staged.filter (fun v => v.path == path && odRange (v.key / 256) == n)

/-- The staging area of a path in a range emptied. -/
def Module.unstage (m : Module) (path n : Nat) : Module :=
  { m with mgmt := { m.mgmt with staged := m.mgmt.staged.filter (fun v => !(v.path == path && odRange (v.key / 256) == n)) } }

/-- RANGE_COMMIT: 1 makes the writer's staged values a pending commit; values other than 1 and 2 are MALFORMED. -/
def execRangeCommit (src : MsgFrom) (s : State) : Host.Outcome State Fault Refusal :=
  writeRow src 1 (fun _ m path o _ =>
    let n := odRange o.index
    let vals := m.stagedIn path n
    if leNat o.data != 1 then (m, Reply.plain stMalformed)
    else if m.odGet (odKey o.index 2) = 1 then (m, Reply.plain stDenied)
    else if vals.isEmpty then (m, Reply.plain stEmptyOp)
    else if (m.breaks n vals true).isSome then ((m.unstage path n).setCommit n 3, Reply.plain stDenied)
    else
      let m := (m.unstage path n).setCommit n 1
      ({ m with mgmt := { m.mgmt with commits := m.mgmt.commits ++ [{ range := n, path := path, vals := vals }] } }, Reply.plain stOk)) s

/-- RANGE_DISCARD. -/
def execRangeDiscard (src : MsgFrom) (s : State) : Host.Outcome State Fault Refusal :=
  writeRow src 2 (fun _ m path o _ => (m.unstage path (odRange o.index), Reply.plain stOk)) s

/-! ### What a commit starts -/

/-- A hawser port begins to train, or goes dark. -/
def Module.switchPort (fu : Fuses) (m : Module) (n : Nat) (on : Bool) : Module :=
  if on then m.onHawser n (fun _ => { Hawser.reset with state := 1 })
  else (m.losePort fu n).onHawser n (fun _ => Hawser.reset)

/-- A core without its supplies: only what the dictionary counts of it stays (R121). -/
def Core.off (c : Core) : Core :=
  { Core.reset with stalls := c.stalls, clusterStalls := c.clusterStalls, corrected := c.corrected }

/-- A cluster without its supplies. -/
def Cluster.off (k : Cluster) : Cluster := { Cluster.reset with stalls := k.stalls, corrected := k.corrected }

/-- The links of a die to its enabled neighbours train (R515). LINK_RETRAIN_COMPLETE ends a training too, as R25 has it where a direction
trains no lane (DEDUCED, log entry 22: no row of its own reports it). -/
def Module.trainLinks (m : Module) (d : Nat) : Module :=
  ((linksOf d).filter (fun l => (twineLinks[l]?).all (fun x => (m.die x.a).enabled && (m.die x.b).enabled))).foldl
    (fun (m : Module) l => m.onLink l (fun x => { x with retraining := true })) m

/-- A die begins its enable, with the training of its links, or loses its supplies with all its cores and its clusters (R500, R512,
R515). The hawser ports of an edge die go dark with it: the rope level is never active on a disabled die (R26, R500). -/
def Module.switchDie (fu : Fuses) (m : Module) (d : Nat) (on : Bool) : Module :=
  if on then (m.onDie d (fun _ => { Die.reset false with enabled := true })).trainLinks d
  else
    let m := m.onDie d (fun _ => Die.reset false)
    if 48 ≤ d then (List.range 4).foldl (fun (m : Module) i => m.switchPort fu (4 * (d - 48) + i) false) m
    else
      let m := (List.range 8).foldl (fun (m : Module) i => m.onCore (8 * d + i) Core.off) m
      [2 * d, 2 * d + 1].foldl (fun (m : Module) k => m.onCluster k Cluster.off) m

/-- A core begins its enable, or returns to its default; its fence register is the die controller's (R453). The die controller
sets tag-bypass for the length of the self-test (R100). -/
def Module.switchCore (m : Module) (g : Nat) (on : Bool) : Module :=
  if on then m.onCore g (fun c => { c with enabled := true, bypass := true })
  else m.onCore g (fun c => { c.off with fenced := c.fenced, origin := c.origin })

/-- A stack begins its enable, or is powered down with its contents lost (R372, R373). -/
def Module.switchStack (m : Module) (p : Nat) (on : Bool) : Module :=
  if on then m.onStack p (fun t => { t with enabled := true, ready := false, failed := false })
  else (m.zeroStack p).onStack p Stack.off

/-- Every bit of a word that a commit changes is switched, those cleared first. -/
def switchBits (old new n : Nat) (f : Module → Nat → Bool → Module) (m : Module) : Module :=
  (newBits old new n).foldl (fun (m : Module) i => f m i true) ((newBits new old n).foldl (fun (m : Module) i => f m i false) m)

/-- The module takes its new place in the rope (R290, R293): the bonds join again. -/
def Module.reform (fu : Fuses) (m : Module) : Module :=
  let m := m.onRope (fun r => { r with
    bonds := Rope.reset.bonds, inputs := [], sums := [], trailers := [], hashes := [], resyncData := [], replData := [], raised := none,
    deeper := false, wgtHeld := [] })
  if m.ropeSize ≤ 1 || 16 ≤ m.ropeJob then m.setRopeState fu 0
  else [0, 1, 2].foldl (fun (m : Module) b => m.sendJoin b) (m.setRopeState fu 1)

/-- The coil store is asked to mount or unmount (R411). -/
def Module.switchStore (m : Module) (on : Bool) : Module :=
  if on then
    let m := m.onStore (fun c => { c with unmountAsked := false })
    if m.coilState = 0 || m.coilState = 4 then m.odSet (odKey 0x6000 2) 1 else m
  else m.onStore (fun c => { c with unmountAsked := true })

/-- The token buckets under a new depth (R470): a full one stays full, and a deeper one is cut. -/
def cutBuckets (old new : Nat) (spent : NatMap) : NatMap :=
  spent.foldl (fun (t : NatMap) e => t.set e.1 (new - min new (old - e.2))) []

/-- wear_spread_bound comes into force no lower than the target (R413). -/
def Module.liftBound (m : Module) : Module :=
  let t := m.odGet (odKey 0x6020 14)
  let k := odKey 0x6020 15
  if m.odGet k < t then
    { (m.odSet k t) with mgmt := { m.mgmt with clamped := m.mgmt.clamped.filter (· != k) ++ [k] } }
  else m

/-- The values of a commit in force, with the objects that persist written to the format record (R462). -/
def Module.putValues (m : Module) (vals : List Staged) : Module :=
  vals.foldl (fun (m : Module) v =>
    let cl := m.mgmt.clamped.filter (· != v.key) ++ (if v.clamped then [v.key] else [])
    let m := ({ m with mgmt := { m.mgmt with clamped := cl } }).odSet v.key v.value
    if odPersists v.key then m.save v.key else m) m

/-- What a block does at the commit of its range: `o` is the module with the old values in force. -/
def Module.startUnits (fu : Fuses) (o m : Module) (n path : Nat) (vals : List Staged) : Module :=
  let has := fun (key : Nat) => vals.any (fun v => v.key == key)
  match n with
  | 3 =>
    let m := (List.range 12).foldl (fun (m : Module) i =>
      switchBits (o.odGet (odKey 0x3030 (i + 1))) (m.odGet (odKey 0x3030 (i + 1))) 32 (fun m b on => m.switchCore (32 * i + b) on) m) m
    switchBits (o.odGet (odKey 0x3020 1)) (m.odGet (odKey 0x3020 1)) 52 (Module.switchDie fu) m
  | 4 => switchBits (o.odGet (odKey 0x4010 1)) (m.odGet (odKey 0x4010 1)) 24 Module.switchStack m
  | 5 =>
    let m := switchBits (o.odGet (odKey 0x5220 1)) (m.odGet (odKey 0x5220 1)) 16 (Module.switchPort fu) m
    let m := { m with lasers := m.lasers.zipIdx.map (fun (l : Laser × Nat) =>
      if field (m.odGet (odKey 0x5220 1)) (8 * l.2) 8 = 0 then { l.1 with powered := false, dim := false } else l.1) }
    let m := if [1, 2, 4, 5].any (fun s => has (odKey 0x5200 s)) then m.reform fu else m
    if has (odKey 0x5200 7) && (m.job m.ropeJob).state != 3 then m.judgeBonds fu else m
  | 6 =>
    let m := m.liftBound.judgePins fu
    let k := odKey 0x6000 1
    if o.odGet k = m.odGet k then m else m.switchStore (m.odGet k != 0)
  | 8 =>
    { m with log := { m.log with spent := cutBuckets (o.odGet (odKey 0x8010 2)) (m.odGet (odKey 0x8010 2)) m.log.spent } }
  | 9 => m.latchAll inputCalib
  | 10 =>
    let k := odKey 0xA020 2
    if o.odGet k = m.odGet k then m
    else m.event fu 0x0A0A [path, (List.range 8).countP (fun i => field (m.odGet k) (512 * i) 512 != 0)]
  | _ => m

/-! ### Application -/

/-- Whether a commit waits: new places in the rope are applied only while the rope job is LOADED or absent (R290). -/
def Module.commitWaits (m : Module) (c : PendCommit) : Bool :=
  c.range == 5 && (m.job m.ropeJob).state != 0 && (m.job m.ropeJob).state != 2 &&
  c.vals.any (fun v => v.key == odKey 0x5200 1 || v.key == odKey 0x5200 2 || v.key == odKey 0x5200 4 || v.key == odKey 0x5200 5)

/-- The laser inputs that the ports of a commit need, powered for its wait (R530): `uw` is the light at its end. -/
def Module.powerInputs (fu : Fuses) (m : Module) (vals : List Staged) (uw : List Nat) : Module :=
  let new := m.after vals (odKey 0x5220 1)
  [0, 1].foldl (fun (m : Module) i =>
    if field new (8 * i) 8 = 0 || (m.lasers.getD i Laser.none).powered then m
    else
      let m := m.onLaser i (fun l => { l with powered := true, uw := uw.getD i 0, dim := decide (uw.getD i 0 < 19953) })
      if (m.lasers.getD i Laser.none).state = 2 then m.reason fu 4 [i, uw.getD i 0] else m) m

/-- The inputs powered for a commit that failed are unpowered again. -/
def Module.unpowerInputs (o m : Module) : Module :=
  { m with lasers := m.lasers.zipIdx.map (fun (l : Laser × Nat) =>
      if (o.lasers.getD l.2 Laser.none).powered then l.1 else { l.1 with powered := false, dim := false }) }

/-- A pending commit is applied, or fails its second check with event 0x0105. -/
def Module.applyCommit (fu : Fuses) (m : Module) (c : PendCommit) (uw : List Nat) : Module :=
  let o := m
  let m := { m with mgmt := { m.mgmt with commits := m.mgmt.commits.filter (fun x => x.range != c.range) } }
  let m := if c.range = 5 then m.powerInputs fu c.vals uw else m
  match m.breaks c.range c.vals false with
  | some key => ((Module.unpowerInputs o m).setCommit c.range 3).event fu 0x0105 [c.range, c.path, key]
  | none =>
    let m := (m.putValues c.vals).setCommit c.range 2
    let m := m.odSet (odKey (0x1000 * c.range + 0x0FE) 3) ((m.odGet (odKey (0x1000 * c.range + 0x0FE) 3) + 1) % 2 ^ 32)
    Module.startUnits fu o m c.range c.path c.vals

/-- COMMIT_APPLY: the pending commit of a range comes into force once its waits have ended. -/
def execCommitApply (n : Nat) (uw : List Nat) (s : State) : Host.Outcome State Fault Refusal :=
  s.actOn (decide (1 ≤ n) && decide (n ≤ 10)) (fun fu m =>
    match m.mgmt.commits.find? (fun c => c.range == n) with
    | none => m
    | some c => if !m.mgmt.reachable || m.commitWaits c then m else m.applyCommit fu c uw)

/-! ### The fence objects (R454) -/

/-- A fenced core is reset and runs its self-tests, also where core_enable is clear; a core whose die is not ready cannot
run them: it fails at once and stays fenced by hardware. -/
def Module.retest (fu : Fuses) (m : Module) (g : Nat) : Module :=
  if (m.die (dieOf g)).ready then m.onCore g (fun c => { c.stop 0 with testing := true, bypass := true })
  else (m.onCore g (fun c => { c with origin := 1 })).event fu 0x0391 [g, 1]

/-- CORE_FENCE_MASK: management fences, and tests of management-fenced cores; a hardware fence refuses the whole write. -/
def execCoreFenceMask (src : MsgFrom) (s : State) : Host.Outcome State Fault Refusal :=
  writeRow src 3 (fun fu m _ o _ =>
    let base := 32 * (o.sub - 1)
    let old := field m.mgmt.mirror base 32
    let new := leNat o.data
    let clears := (newBits new old 32).map (· + base)
    if clears.any (fun g => (m.core g).origin == 1) then (m, Reply.plain stDenied)
    else
      let m := ((newBits old new 32).map (· + base)).foldl (fun (m : Module) g => m.applyFence fu g false) m
      let m := clears.foldl (fun (m : Module) g => if (m.core g).fenced then m.retest fu g else m) m
      ({ m with mgmt := { m.mgmt with mirror := (List.range 32).foldl (fun w b => putBit w (base + b) (m.core (base + b)).fenced) m.mgmt.mirror } },
       Reply.plain stOk)) s

/-- CORE_RESET: the fenced cores of the written bits are reset and tested. -/
def execCoreReset (src : MsgFrom) (s : State) : Host.Outcome State Fault Refusal :=
  writeRow src 4 (fun fu m _ o _ =>
    let gs := ((setBits (leNat o.data) 32).map (· + 32 * (o.sub - 1))).filter (fun g => (m.core g).fenced)
    (gs.foldl (fun (m : Module) g => m.retest fu g) m, Reply.plain stOk)) s

end Sys2Proof.Machine
end

