-- ==== Sys2Proof/Machine/Firmware.lean ====
section
/-!
DEFINITION. Firmware updates (R457): the sub-operations of FW_UPDATE on the slot that is not running.
-/
namespace Sys2Proof.Machine

/-! ### Bytes written -/

/-- How far the bytes from `lo` are written without a gap: each round extends the reach by the pieces that touch it. -/
def reachOf (ws : List (Nat × Nat)) : Nat → Nat → Nat
  | 0, lo => lo
  | n + 1, lo => reachOf ws n (ws.foldl (fun (r : Nat) w => if w.1 ≤ r then max r (w.1 + w.2) else r) lo)

/-- Whether every byte of [lo, hi) is written. -/
def FwSlot.hasWritten (s : FwSlot) (lo hi : Nat) : Bool := decide (hi ≤ reachOf s.written s.written.length lo)

/-- A piece added to those written; one that continues the latest piece extends it. -/
def addPiece : List (Nat × Nat) → Nat → Nat → List (Nat × Nat)
  | [], off, n => [(off, n)]
  | (a, k) :: rest, off, n => if off = a + k then (a, k + n) :: rest else (off, n) :: (a, k) :: rest

/-- The bytes of a slot that hold the signature block end here (R537). -/
def FwSlot.blockEnd (s : FwSlot) : Nat := s.blockAt + 1088

/-- Whether the header, the image and the signature block have been written whole. -/
def FwSlot.whole (s : FwSlot) : Bool := s.hasWritten 0 (64 + s.imageBytes) && s.hasWritten s.blockAt s.blockEnd

/-! ### The sub-operations -/

/-- The sub-operation of an FW_UPDATE request. -/
def Req.subOp (r : Req) : Nat := leAt r.body 0 1

/-- Whether an FW_UPDATE body has the form of its sub-operation: its length, and zeros in bytes 1 to 7. -/
def Req.fwForm (r : Req) : Bool :=
  r.body.length == r.len && leAt r.body 1 7 == 0 &&
  (if r.subOp = 1 then r.body.length == 72 else if r.subOp = 2 then decide (16 ≤ r.body.length) else r.body.length == 8)

/-- The slot that an update writes. -/
def Firmware.target (f : Firmware) : Nat := 1 - f.running

/-- The module with its firmware changed. -/
def Module.onFw (m : Module) (f : Firmware → Firmware) : Module := { m with fw := f m.fw }

/-- The row of a sub-operation: its form, then the level (R444), then its effect. -/
def fwRow (src : MsgFrom) (mine : Nat → Bool) (f : Fuses → Module → Req → Module × Reply) (s : State) :
    Host.Outcome State Fault Refusal :=
  serveRow src (fun r => r.type == 0x0030 && mine r.subOp) (fun fu m r =>
    if !r.fwForm then (m, Reply.plain stMalformed)
    else if m.level r.path < 2 then (m, Reply.plain stDenied)
    else f fu m r) s

/-- FW_UPDATE_BEGIN: the session opens and the target slot is EMPTY, with the header written. A sub-operation of no known code is
answered MALFORMED under this row. -/
def execFwUpdateBegin (src : MsgFrom) (s : State) : Host.Outcome State Fault Refusal :=
  fwRow src (fun op => op == 1 || op == 0 || decide (5 < op)) (fun _ m r =>
    if r.subOp != 1 then (m, Reply.plain stMalformed)
    else if m.fw.session.isSome then (m, Reply.plain stDenied)
    else if 2 ^ 28 - 64 < leAt r.body 16 8 then (m, Reply.plain stMalformed)
    else
      (m.onFw (fun f => { f.onSlot f.target (fun _ =>
        { state := 0, trials := 0, data := Mem.write [] 0 (r.body.drop 8), written := [(0, 64)], factory := false }) with
        session := some r.path }), Reply.plain stOk)) s

/-- FW_UPDATE_DATA: data at an offset of the target slot, up to the end of its signature block. -/
def execFwUpdateData (src : MsgFrom) (s : State) : Host.Outcome State Fault Refusal :=
  fwRow src (fun op => op == 2) (fun _ m r =>
    let off := leAt r.body 8 8
    let data := r.body.drop 16
    if m.fw.session != some r.path then (m, Reply.plain stDenied)
    else if (m.fw.slot m.fw.target).blockEnd < off + data.length then (m, Reply.plain stMalformed)
    else
      (m.onFw (fun f => f.onSlot f.target (fun t =>
        { t with data := t.data.write off data, written := addPiece t.written off data.length })), Reply.plain stOk)) s

/-- The update failed at END (R457): the slot stays EMPTY, with event 0x0A04. -/
def Module.failEnd (fu : Fuses) (m : Module) (status : Nat) : Module × Reply :=
  (m.event fu 0x0A04 [m.fw.target, status], Reply.plain status)

/-- FW_UPDATE_END: the slot is read back and verified; it becomes VALID, or stays EMPTY with event 0x0A04. The session ends. -/
def execFwUpdateEnd (src : MsgFrom) (ups : List FlashUpset) (s : State) : Host.Outcome State Fault Refusal :=
  fwRow src (fun op => op == 3) (fun fu m r =>
    if m.fw.session != some r.path then (m, Reply.plain stDenied)
    else
      let m := m.onFw (fun f => { f with session := none })
      let i := m.fw.target
      if !(m.fw.slot i).whole then m.failEnd fu stDenied
      else
      let m := m.pageReads fu 5 i ups
      if slotLost ups then m.failEnd fu stPoison
      else if (m.fw.verify fu i true).1 != 0 then m.failEnd fu stDenied
      else
        ((m.onFw (fun f => f.onSlot i (fun t => { t with state := 1 }))).event fu 0x0A03 [i, (m.fw.slot i).version],
         Reply.plain stOk)) s

/-- FW_UPDATE_ACTIVATE: a VALID slot becomes TRIAL with count 0. -/
def execFwUpdateActivate (src : MsgFrom) (s : State) : Host.Outcome State Fault Refusal :=
  fwRow src (fun op => op == 4) (fun _ m _ =>
    if (m.fw.slot m.fw.target).state != 1 then (m, Reply.plain stDenied)
    else (m.onFw (fun f => f.onSlot f.target (fun t => { t with state := 2, trials := 0 })), Reply.plain stOk)) s

/-- FW_UPDATE_ABORT: the session closes. -/
def execFwUpdateAbort (src : MsgFrom) (s : State) : Host.Outcome State Fault Refusal :=
  fwRow src (fun op => op == 5) (fun _ m r =>
    if m.fw.session != some r.path then (m, Reply.plain stDenied)
    else (m.onFw (fun f => { f with session := none }), Reply.plain stOk)) s

/-- FW_SESSION_TIMEOUT: a session without a message for 60 s is aborted. -/
def execFwSessionTimeout (s : State) : Host.Outcome State Fault Refusal :=
  s.actOn true (fun _ m => m.onFw (fun f => { f with session := none }))

end Sys2Proof.Machine
end

