-- ==== Sys2Proof/Machine/Throttle.lean ====
section
/-!
DEFINITION. The temperature of a stack (R366, R367): the bursts that it allows, its stop at 110 °C with what waits for it, and its
resumption.
-/
namespace Sys2Proof.Machine

/-- The bursts that a temperature allows in each 64 M-cycles (R366). -/
def burstShare (t : Int) : Nat :=
  if t < 95 then 64 else if t < 105 then (64 * (115 - t) / 20).toNat else if t < 110 then 32 else 0

/-- The HBM byte ranges that a movement still has to read and write. -/
def Module.moveRanges (m : Module) (v : Move) : List (Nat × Nat) :=
  let i := v.inst
  let at_ := fun (o : Operand) (a n : Nat) => if o.buf.space != 2 then [] else [(m.physAddr o.job o.core 2 a, n)]
  let of_ := fun (src : Option Operand) (dst : Operand) (xs : List MoveItem) =>
    (src.map (fun o => m.sourceRanges o xs)).getD [] ++ xs.flatMap (fun x => at_ dst x.dst x.data.length)
  match v.burst, m.operand i (loOf i.words 2) true 0 with
  | some ws, _ => (ws.drop v.desc).flatMap (fun w => match m.descEnds i w with
      | some e => of_ (some e.1) e.2 (m.descItems i w e.1 e.2).1
      | none => [])
  | none, some dst => of_ (m.operand i (hiOf i.words 2) false 0) dst (((m.movePlan i dst v.len).units.drop v.pos).flatMap MoveUnit.items)
  | none, none => []

/-- Whether byte ranges lie in stack `p`. -/
def inStack (p : Nat) (rs : List (Nat × Nat)) : Bool := rs.any (fun r => (stacksOf r.1 r.2).contains p)

/-- The requests queued at stack `p` as it stops (R375). DESIGN CHOICE (log entry 32): the requests of one operation count once, of a
movement that runs, of a late gather, of a job's tackles, and of a command on job data. -/
def Module.queuedAt (m : Module) (p : Nat) : Nat :=
  (m.cores.map (fun c => c.channels.countP (fun ch => ch.head?.any (fun v => !v.written && inStack p (m.moveRanges v))) +
    c.gathers.countP (fun x => !x.waits && inStack p x.reads))).sum +
  (List.range 16).countP (fun j => m.tackling j p) + (m.host.queues.map (fun t => t.cmds.countP (m.dataWaits p))).sum

/-- The data of commands that waited for a stack are served, and those that may start now start (R367). -/
def Module.resumeData (fu : Fuses) (m : Module) : Module :=
  let tags := (m.host.queues.zipIdx).flatMap (fun t =>
    (t.1.cmds.filter (fun c => c.opcode == 0x20 && c.state == 1)).map (fun c => (t.2, c.tag)))
  (tags.foldl (fun (m : Module) x => m.feed fu x.1 x.2) m).settle fu

/-- STACK_TEMPERATURE_REPORT: every 1 ms (R366, R367). -/
def execStackTemperatureReport (p : Nat) (c : Int) (s : State) : Host.Outcome State Fault Refusal :=
  s.actOn (p < 24) (fun fu m =>
    let t := m.stack p
    if !t.ready then m
    else
      let stop := decide (110 ≤ c) || (t.stopped && decide (100 < c))
      let share := if stop then 0 else burstShare c
      let m := if t.share < 64 then m.bump (odKey 0x4030 3) 1000 else m
      let m := m.onStack p (fun t => { t with
        temp := c, share := share, warm := decide (95 ≤ c), hot := decide (105 ≤ c), stopped := stop })
      let m := if 95 ≤ c && !t.warm then m.event fu 0x0403 [p, unsigned 64 c] else m
      let m := if 105 ≤ c && !t.hot then m.event fu 0x0404 [p, unsigned 64 c] else m
      if stop && !t.stopped then (m.bump (odKey 0x4030 4) 1).event fu 0x0405 [p, unsigned 64 c, m.queuedAt p]
      else if t.stopped && !stop then m.resumeData fu else m)

end Sys2Proof.Machine
end

