-- ==== Sys2Proof/Machine/Trust.lean ====
section
/-!
DEFINITION. Attestation (R540 to R542) and the field stress test (R488).
-/
namespace Sys2Proof.Machine

/-! ### Attestation reports (R541, R542) -/

/-- The values of the user calibration objects of one dictionary row, in ascending index and sub-index. -/
def Module.calibRow (m : Module) : ObjDef → List Byte
  | .row i j s t ty _ _ _ _ _ =>
    (List.range (j + 1 - i)).flatMap (fun a => (List.range (t + 1 - s)).flatMap (fun b =>
      leBytes (typeWidth ty) (NatMap.get m.od (odKey (i + a) (s + b)))))

/-- The values in force of every user calibration object; their default is 0 (R471). -/
def Module.calibBytes (m : Module) : List Byte := dictUserCalib.flatMap m.calibRow

/-- The job contexts that a report lists. -/
def Module.attestJobs (m : Module) : List Nat := (List.range 16).filter (fun j => (m.job j).live)

/-- The entry of a job in a report. -/
def Module.attestJob (m : Module) (j : Nat) : List Byte :=
  let b := m.job j
  leBytes 8 (j * 2 ^ 56 + b.state * 2 ^ 48) ++ leBytes 8 (b.step % 2 ^ 32 * 2 ^ 32) ++ padTo 64 b.hash

/-- A report without its signature (R542). -/
def Module.reportBody (fu : Fuses) (m : Module) (nonce : List Byte) : List Byte :=
  let js := m.attestJobs
  let slot := m.fw.slot m.fw.running
  leBytes 8 (0x41545354 * 2 ^ 32 + 1 * 2 ^ 24 + js.length * 2 ^ 16) ++
  leBytes 8 ((800 + 80 * js.length) * 2 ^ 32 + m.fwVersion) ++
  leBytes 8 (m.odGet (odKey 0x1018 10) % 2 ^ 40 * 2 ^ 24 + m.odGet (odKey 0x1018 9) % 2 ^ 24) ++
  leBytes 8 (m.fw.running * 2 ^ 56 + m.odGet (odKey 0xA020 1) * 2 ^ 48 + fu.grade * 2 ^ 40 + m.fw.keyUsed * 2 ^ 32 +
    m.fw.floor) ++
  zeros 32 ++ nonce ++ padTo 64 fu.bootRomHash ++ slot.hash ++ sha512 m.calibBytes ++ js.flatMap m.attestJob

/-- ATTEST_NONCE: the contents of a report are latched. -/
def execAttestNonce (src : MsgFrom) (s : State) : Host.Outcome State Fault Refusal :=
  writeRow src 6 (fun fu m path o _ =>
    if !m.trust.secOk then (m, Reply.plain stUnsupported)
    else if m.trust.forming.isSome then (m, Reply.plain stDenied)
    else ({ m with trust := { m.trust with forming := some (path, m.reportBody fu o.data) } }, Reply.plain stOk)) s

/-- ATTESTATION_REPORT_DONE: the signed report stands in attest_report, with event 0x0A09. -/
def execAttestationReportDone (s : State) : Host.Outcome State Fault Refusal :=
  s.actOn true (fun fu m =>
    match m.trust.forming with
    | none => m
    | some (path, body) =>
      { m with trust := { m.trust with forming := none, report := body ++ (List.range 512).map (Config.attestSignature body) } }.event
        fu 0x0A09 [path, leAt body 2 1, body.length + 512])

/-! ### The field stress test (R488) -/

/-- The module with its stress test changed. -/
def Module.onStress (m : Module) (f : Stress → Stress) : Module := { m with stress := f m.stress }

/-- The test ends: event 0x0395 gives the runs counted and the cores fenced. -/
def Module.endStress (fu : Fuses) (m : Module) : Module :=
  (m.onStress (fun _ => { state := 0, runs := 0, fencedCores := 0 })).event fu 0x0395 [m.stress.runs, m.stress.fencedCores]

/-- STRESS_RUN_START: 1 starts a test; no other value but 2 acts, nor does 1 while a test runs. -/
def execStressRunStart (src : MsgFrom) (s : State) : Host.Outcome State Fault Refusal :=
  writeRow src 7 (fun _ m _ o _ =>
    if leNat o.data != 1 || m.stress.state != 0 then (m, Reply.plain stOk)
    else if m.jobs.any (fun b => b.state == 1 || b.live) then (m, Reply.plain stDenied)
    else (m.onStress (fun _ => { state := 1, runs := 0, fencedCores := 0 }), Reply.plain stOk)) s

/-- STRESS_RUN_STOP: the test ends with its current run. -/
def execStressRunStop (src : MsgFrom) (s : State) : Host.Outcome State Fault Refusal :=
  writeRow src 8 (fun _ m _ _ _ =>
    (if m.stress.state = 1 then m.onStress (fun t => { t with state := 2 }) else m, Reply.plain stOk)) s

/-- A core that failed a stress run is fenced with origin hardware. -/
def Module.stressFence (fu : Fuses) (m : Module) (f : Nat × Nat) : Module :=
  if !(m.core f.1).live then m
  else
    let m := (m.applyFence fu f.1 true).event fu 0x0394 [f.1, f.2, 1]
    { m.onStress (fun t => { t with fencedCores := t.fencedCores + 1 }) with mgmt := { m.mgmt with mirror := setBit m.mgmt.mirror f.1 } }

/-- STRESS_RUN_END: the run counts unless a loop held a die below 2.1 GHz; cores that failed it are fenced; a test that is
stopping ends. -/
def execStressRunEnd (fails : List (Nat × Nat)) (held : Bool) (s : State) : Host.Outcome State Fault Refusal :=
  s.actOn (fails.all (fun f => decide (f.1 < 384))) (fun fu m =>
    if m.stress.state = 0 then m
    else
      let m := if held || m.anyHeld then m else m.onStress (fun t => { t with runs := t.runs + 1 })
      let m := fails.foldl (fun (m : Module) f => m.stressFence fu f) m
      if m.stress.state = 2 then m.endStress fu else m)

/-- STRESS_TEST_END: the test's duration has passed. -/
def execStressTestEnd (s : State) : Host.Outcome State Fault Refusal :=
  s.actOn true (fun fu m => if m.stress.state = 0 then m else m.endStress fu)

end Sys2Proof.Machine
end

