-- ==== Sys2Proof/Machine/Dispatch.lean ====
section
/-!
DEFINITION. One arm per command: a direct call of its meaning.
-/
namespace Sys2Proof.Machine

/-- The effect of a command on everything but the queue. -/
def exec (i : Instr) (s : State) : Host.Outcome State Fault Refusal :=
  match i with
  | .matrix g ups => Sys2Proof.Machine.execMatrix g ups s
  | .gather g ups => Sys2Proof.Machine.execGather g ups s
  | .scatter g ups => Sys2Proof.Machine.execScatter g ups s
  | .scatterAdd g ups => Sys2Proof.Machine.execScatterAdd g ups s
  | .expand g ups => Sys2Proof.Machine.execExpand g ups s
  | .compress g ups => Sys2Proof.Machine.execCompress g ups s
  | .transpose g ups => Sys2Proof.Machine.execTranspose g ups s
  | .layernormFwd g ups => Sys2Proof.Machine.execLayernormFwd g ups s
  | .rmsnormFwd g ups => Sys2Proof.Machine.execRmsnormFwd g ups s
  | .softmaxFwd g ups => Sys2Proof.Machine.execSoftmaxFwd g ups s
  | .onlineSoftmax g ups => Sys2Proof.Machine.execOnlineSoftmax g ups s
  | .onlineFinal g ups => Sys2Proof.Machine.execOnlineFinal g ups s
  | .topkRoute g ups => Sys2Proof.Machine.execTopkRoute g ups s
  | .xentFwd g ups => Sys2Proof.Machine.execXentFwd g ups s
  | .actFwd g ups => Sys2Proof.Machine.execActFwd g ups s
  | .layernormBwd g ups => Sys2Proof.Machine.execLayernormBwd g ups s
  | .rmsnormBwd g ups => Sys2Proof.Machine.execRmsnormBwd g ups s
  | .softmaxBwd g ups => Sys2Proof.Machine.execSoftmaxBwd g ups s
  | .rowdot g ups => Sys2Proof.Machine.execRowdot g ups s
  | .attnBwdP g ups => Sys2Proof.Machine.execAttnBwdP g ups s
  | .routeBwd g ups => Sys2Proof.Machine.execRouteBwd g ups s
  | .xentBwd g ups => Sys2Proof.Machine.execXentBwd g ups s
  | .actBwd g ups => Sys2Proof.Machine.execActBwd g ups s
  | .gainGrad g ups => Sys2Proof.Machine.execGainGrad g ups s
  | .loadCm g ups => Sys2Proof.Machine.execLoadCm g ups s
  | .fill g ups => Sys2Proof.Machine.execFill g ups s
  | .drain g ups => Sys2Proof.Machine.execDrain g ups s
  | .storeHbm g ups => Sys2Proof.Machine.execStoreHbm g ups s
  | .coil g ups => Sys2Proof.Machine.execCoil g ups s
  | .fillc g ups => Sys2Proof.Machine.execFillc g ups s
  | .copy g ups => Sys2Proof.Machine.execCopy g ups s
  | .controlNop g ups => Sys2Proof.Machine.execControlNop g ups s
  | .take g ups => Sys2Proof.Machine.execTake g ups s
  | .loop g ups => Sys2Proof.Machine.execLoop g ups s
  | .endloop g ups => Sys2Proof.Machine.execEndloop g ups s
  | .wait g ups => Sys2Proof.Machine.execWait g ups s
  | .swap g ups => Sys2Proof.Machine.execSwap g ups s
  | .passEnd g ups => Sys2Proof.Machine.execPassEnd g ups s
  | .stepEnd g ups => Sys2Proof.Machine.execStepEnd g ups s
  | .tileCommit g ups => Sys2Proof.Machine.execTileCommit g ups s
  | .repairUpdate copies => Sys2Proof.Machine.execRepairUpdate copies s
  | .fenceRegisterSet g => Sys2Proof.Machine.execFenceRegisterSet g s
  | .tagWaitEnd g ch cycles ups => Sys2Proof.Machine.execTagWaitEnd g ch cycles ups s
  | .tagWaitLimit g ch => Sys2Proof.Machine.execTagWaitLimit g ch s
  | .shapeWordArrival g cycles ups => Sys2Proof.Machine.execShapeWordArrival g cycles ups s
  | .signal j ctr => Sys2Proof.Machine.execSignal j ctr s
  | .movementComplete g ch => Sys2Proof.Machine.execMovementComplete g ch s
  | .multicastInstance g ch => Sys2Proof.Machine.execMulticastInstance g ch s
  | .swapComplete j buf cluster cycles => Sys2Proof.Machine.execSwapComplete j buf cluster cycles s
  | .passEndBarrier j => Sys2Proof.Machine.execPassEndBarrier j s
  | .statPageFetch g set page cycles ups => Sys2Proof.Machine.execStatPageFetch g set page cycles ups s
  | .statPageSpill g set page ups => Sys2Proof.Machine.execStatPageSpill g set page ups s
  | .stepStart j => Sys2Proof.Machine.execStepStart j s
  | .stepCommit j waitUs => Sys2Proof.Machine.execStepCommit j waitUs s
  | .stateSnapshotComplete j ok => Sys2Proof.Machine.execStateSnapshotComplete j ok s
  | .replayStart j => Sys2Proof.Machine.execReplayStart j s
  | .resumePoint j => Sys2Proof.Machine.execResumePoint j s
  | .replayResume j => Sys2Proof.Machine.execReplayResume j s
  | .weightGradientSlice j poisoned mismatch => Sys2Proof.Machine.execWeightGradientSlice j poisoned mismatch s
  | .dispatchBuild j router => Sys2Proof.Machine.execDispatchBuild j router s
  | .expertFetch j => Sys2Proof.Machine.execExpertFetch j s
  | .expertPagePresent j expert page ups => Sys2Proof.Machine.execExpertPagePresent j expert page ups s
  | .viewResume g ch us => Sys2Proof.Machine.execViewResume g ch us s
  | .bucketApply j bucket mismatch => Sys2Proof.Machine.execBucketApply j bucket mismatch s
  | .factoredFinalisation j tensor => Sys2Proof.Machine.execFactoredFinalisation j tensor s
  | .segmentSum bucket seg => Sys2Proof.Machine.execSegmentSum bucket seg s
  | .sampleComparison bucket seg bad => Sys2Proof.Machine.execSampleComparison bucket seg bad s
  | .idle port frame => Sys2Proof.Machine.execIdle port frame s
  | .join port frame => Sys2Proof.Machine.execJoin port frame s
  | .seg port frame => Sys2Proof.Machine.execSeg port frame s
  | .trail port frame => Sys2Proof.Machine.execTrail port frame s
  | .etab port frame poisoned => Sys2Proof.Machine.execEtab port frame poisoned s
  | .wgt port frame poisoned => Sys2Proof.Machine.execWgt port frame poisoned s
  | .hash port frame => Sys2Proof.Machine.execHash port frame s
  | .abort port frame => Sys2Proof.Machine.execAbort port frame s
  | .snapmark port frame => Sys2Proof.Machine.execSnapmark port frame s
  | .resync port frame poisoned => Sys2Proof.Machine.execResync port frame poisoned s
  | .repl port frame => Sys2Proof.Machine.execRepl port frame s
  | .resyncCommit => Sys2Proof.Machine.execResyncCommit s
  | .frameCrcFailure port => Sys2Proof.Machine.execFrameCrcFailure port s
  | .keepalive port => Sys2Proof.Machine.execKeepalive port s
  | .portLost port => Sys2Proof.Machine.execPortLost port s
  | .flitCrcError link again => Sys2Proof.Machine.execFlitCrcError link again s
  | .linkRetrain link => Sys2Proof.Machine.execLinkRetrain link s
  | .linkRetrainComplete link fwd bwd dead => Sys2Proof.Machine.execLinkRetrainComplete link fwd bwd dead s
  | .rowRepairComplete p pc bank row => Sys2Proof.Machine.execRowRepairComplete p pc bank row s
  | .dramRefresh p pc => Sys2Proof.Machine.execDramRefresh p pc s
  | .patrolScrub p symbols => Sys2Proof.Machine.execPatrolScrub p symbols s
  | .stackTemperatureReport p celsius => Sys2Proof.Machine.execStackTemperatureReport p celsius s
  | .retentionScan corrected retry ups => Sys2Proof.Machine.execRetentionScan corrected retry ups s
  | .staticLevelling => Sys2Proof.Machine.execStaticLevelling s
  | .garbageCollection ups => Sys2Proof.Machine.execGarbageCollection ups s
  | .nandDieFailure die cause => Sys2Proof.Machine.execNandDieFailure die cause s
  | .logCopy bad => Sys2Proof.Machine.execLogCopy bad s
  | .loglineToken code => Sys2Proof.Machine.execLoglineToken code s
  | .fenceMirrorRefresh late => Sys2Proof.Machine.execFenceMirrorRefresh late s
  | .formatRecordUpdate => Sys2Proof.Machine.execFormatRecordUpdate s
  | .nop q p => Sys2Proof.Machine.execNop q p s
  | .load q p => Sys2Proof.Machine.execLoad q p s
  | .bind q p => Sys2Proof.Machine.execBind q p s
  | .step q p => Sys2Proof.Machine.execStep q p s
  | .endJob q p => Sys2Proof.Machine.execEndJob q p s
  | .releaseJob q p => Sys2Proof.Machine.execReleaseJob q p s
  | .cancelBatch q p => Sys2Proof.Machine.execCancelBatch q p s
  | .stage q p ups => Sys2Proof.Machine.execStage q p ups s
  | .activate q p => Sys2Proof.Machine.execActivate q p s
  | .deactivate q p => Sys2Proof.Machine.execDeactivate q p s
  | .save q p => Sys2Proof.Machine.execSave q p s
  | .releaseSlot q p => Sys2Proof.Machine.execReleaseSlot q p s
  | .snapshot q p => Sys2Proof.Machine.execSnapshot q p s
  | .restore q p ups => Sys2Proof.Machine.execRestore q p ups s
  | .pinExpert q p => Sys2Proof.Machine.execPinExpert q p s
  | .unpinExpert q p => Sys2Proof.Machine.execUnpinExpert q p s
  | .writeJob q p => Sys2Proof.Machine.execWriteJob q p s
  | .readJob q p => Sys2Proof.Machine.execReadJob q p s
  | .objWrite q p ups => Sys2Proof.Machine.execObjWrite q p ups s
  | .objRead q p ups => Sys2Proof.Machine.execObjRead q p ups s
  | .objDelete q p => Sys2Proof.Machine.execObjDelete q p s
  | .objInfo q p => Sys2Proof.Machine.execObjInfo q p s
  | .chainPacket q p ups => Sys2Proof.Machine.execChainPacket q p ups s
  | .chainTimeout q => Sys2Proof.Machine.execChainTimeout q s
  | .sqTail q v mask => Sys2Proof.Machine.execSqTail q v mask s
  | .queueEnable q => Sys2Proof.Machine.execQueueEnable q s
  | .queueDisable q => Sys2Proof.Machine.execQueueDisable q s
  | .queueDrained q => Sys2Proof.Machine.execQueueDrained q s
  | .responseWrite q => Sys2Proof.Machine.execResponseWrite q s
  | .interruptCoalesceExpiry q => Sys2Proof.Machine.execInterruptCoalesceExpiry q s
  | .registerWrite port bar offset bytes => Sys2Proof.Machine.execRegisterWrite port bar offset bytes s
  | .perstAssert port => Sys2Proof.Machine.execPerstAssert port s
  | .perstRelease port => Sys2Proof.Machine.execPerstRelease port s
  | .functionReady port => Sys2Proof.Machine.execFunctionReady port s
  | .linkTrained port gts width => Sys2Proof.Machine.execLinkTrained port gts width s
  | .hotReset port => Sys2Proof.Machine.execHotReset port s
  | .linkDown port => Sys2Proof.Machine.execLinkDown port s
  | .functionLevelReset port => Sys2Proof.Machine.execFunctionLevelReset port s
  | .versionQuery src => Sys2Proof.Machine.execVersionQuery src s
  | .featureSet src => Sys2Proof.Machine.execFeatureSet src s
  | .odRead src => Sys2Proof.Machine.execOdRead src s
  | .odWrite src => Sys2Proof.Machine.execOdWrite src s
  | .odDescribe src => Sys2Proof.Machine.execOdDescribe src s
  | .notify src => Sys2Proof.Machine.execNotify src s
  | .frameBad bytes => Sys2Proof.Machine.execFrameBad bytes s
  | .doorbellOverrun port => Sys2Proof.Machine.execDoorbellOverrun port s
  | .fwUpdateBegin src => Sys2Proof.Machine.execFwUpdateBegin src s
  | .fwUpdateData src => Sys2Proof.Machine.execFwUpdateData src s
  | .fwUpdateEnd src readable => Sys2Proof.Machine.execFwUpdateEnd src readable s
  | .fwUpdateActivate src => Sys2Proof.Machine.execFwUpdateActivate src s
  | .fwUpdateAbort src => Sys2Proof.Machine.execFwUpdateAbort src s
  | .fwSessionTimeout => Sys2Proof.Machine.execFwSessionTimeout s
  | .rangeCommit src => Sys2Proof.Machine.execRangeCommit src s
  | .rangeDiscard src => Sys2Proof.Machine.execRangeDiscard src s
  | .commitApply range uw => Sys2Proof.Machine.execCommitApply range uw s
  | .coreFenceMask src => Sys2Proof.Machine.execCoreFenceMask src s
  | .coreReset src => Sys2Proof.Machine.execCoreReset src s
  | .recordWindow src => Sys2Proof.Machine.execRecordWindow src s
  | .attestNonce src => Sys2Proof.Machine.execAttestNonce src s
  | .attestationReportDone => Sys2Proof.Machine.execAttestationReportDone s
  | .stressRunStart src => Sys2Proof.Machine.execStressRunStart src s
  | .stressRunStop src => Sys2Proof.Machine.execStressRunStop src s
  | .stressRunEnd fails held => Sys2Proof.Machine.execStressRunEnd fails held s
  | .stressTestEnd => Sys2Proof.Machine.execStressTestEnd s
  | .dieEnableComplete die stage router => Sys2Proof.Machine.execDieEnableComplete die stage router s
  | .stackEnableComplete p stage pc lanes tackle marks rows => Sys2Proof.Machine.execStackEnableComplete p stage pc lanes tackle marks rows s
  | .coreEnableComplete g fail march => Sys2Proof.Machine.execCoreEnableComplete g fail march s
  | .hawserPortUp port => Sys2Proof.Machine.execHawserPortUp port s
  | .coilMountComplete ok => Sys2Proof.Machine.execCoilMountComplete ok s
  | .coilUnmount => Sys2Proof.Machine.execCoilUnmount s
  | .powerApply mv => Sys2Proof.Machine.execPowerApply mv s
  | .pwrgdAssert masterSel node ref finds => Sys2Proof.Machine.execPwrgdAssert masterSel node ref finds s
  | .dictionaryReachable => Sys2Proof.Machine.execDictionaryReachable s
  | .inputRangeExcursion mv => Sys2Proof.Machine.execInputRangeExcursion mv s
  | .powerLoss => Sys2Proof.Machine.execPowerLoss s
  | .holdupEnd => Sys2Proof.Machine.execHoldupEnd s
  | .mrstNAssert => Sys2Proof.Machine.execMrstNAssert s
  | .mrstGraceEnd finds => Sys2Proof.Machine.execMrstGraceEnd finds s
  | .mrstNRelease finds => Sys2Proof.Machine.execMrstNRelease finds s
  | .thermalTrip die celsius => Sys2Proof.Machine.execThermalTrip die celsius s
  | .referenceLoss ppm => Sys2Proof.Machine.execReferenceLoss ppm s
  | .referenceReturn => Sys2Proof.Machine.execReferenceReturn s
  | .holdoverExpiry => Sys2Proof.Machine.execHoldoverExpiry s
  | .junctionSample die celsius => Sys2Proof.Machine.execJunctionSample die celsius s
  | .fastPowerWindow w a => Sys2Proof.Machine.execFastPowerWindow w a s
  | .powerWindow w a mv => Sys2Proof.Machine.execPowerWindow w a mv s
  | .droop die mv cycles => Sys2Proof.Machine.execDroop die mv cycles s
  | .aPointSwitch die => Sys2Proof.Machine.execAPointSwitch die s
  | .lsFault src => Sys2Proof.Machine.execLsFault src s
  | .lsEol src => Sys2Proof.Machine.execLsEol src s
  | .laserPowerLow src uw => Sys2Proof.Machine.execLaserPowerLow src uw s
  | .beaconLoss => Sys2Proof.Machine.execBeaconLoss s
  | .beaconReturn => Sys2Proof.Machine.execBeaconReturn s
  | .watchdogExpiry => Sys2Proof.Machine.execWatchdogExpiry s
  | .capstanRestart => Sys2Proof.Machine.execCapstanRestart s
  | .capstanBack ms => Sys2Proof.Machine.execCapstanBack ms s
  | .inputRangeReturn mv => Sys2Proof.Machine.execInputRangeReturn mv s
  | .lsPresentNChange src present uw => Sys2Proof.Machine.execLsPresentNChange src present uw s
  | .srcMemGatherCommit g ups => Sys2Proof.Machine.execSrcMemGatherCommit g ups s

end Sys2Proof.Machine
end

