-- ==== Sys2Proof/WellFormed.lean ====
section
/-!
DEFINITION. Well-formedness of a command: every unit its operands name exists (R16 to R18, R92, R207, R353, R417).
-/
namespace Sys2Proof

/-- A packet's header is 64 bytes and its payload whole units (R421). -/
def Packet.wf (p : Packet) : Bool := p.header.length == 64 && p.payload.length % 64 == 0

/-- A message comes from one of the two mailboxes, or from a frame (R444). -/
def MsgFrom.wf : MsgFrom → Bool
  | .mailbox port => port < 2
  | .frame _ => true

/-- Whether every unit the command names exists. -/
def WellFormed : Instr → Bool
  | .matrix g _ | .gather g _ | .scatter g _ | .scatterAdd g _ | .expand g _ | .compress g _ | .transpose g _
  | .layernormFwd g _ | .rmsnormFwd g _ | .softmaxFwd g _ | .onlineSoftmax g _ | .onlineFinal g _ | .topkRoute g _
  | .xentFwd g _ | .actFwd g _ | .layernormBwd g _ | .rmsnormBwd g _ | .softmaxBwd g _ | .rowdot g _
  | .attnBwdP g _ | .routeBwd g _ | .xentBwd g _ | .actBwd g _ | .gainGrad g _ | .loadCm g _ | .fill g _
  | .drain g _ | .storeHbm g _ | .coil g _ | .fillc g _ | .copy g _ | .controlNop g _ | .take g _ | .loop g _
  | .endloop g _ | .wait g _ | .swap g _ | .passEnd g _ | .stepEnd g _ | .tileCommit g _
  | .srcMemGatherCommit g _ => g < 384
  | .repairUpdate copies => copies ≤ 4
  | .fenceRegisterSet g => g < 384
  | .tagWaitEnd g ch _ _ => g < 384 && ch ≤ 8
  | .tagWaitLimit w ch => (w.unit < 384 && ch ≤ 8) || (w.unit < 24 && ch == 9)
  | .shapeWordArrival g _ _ => g < 384
  | .signal j ctr => j < 16 && ctr < 64
  | .movementComplete g ch | .multicastInstance g ch | .viewResume g ch _ => g < 384 && ch < 8
  | .swapComplete j _ cluster _ => j < 16 && cluster ≤ 96
  | .passEndBarrier j | .stepStart j => j.unit < 16
  | .stepCommit j _ | .stateSnapshotComplete j _ | .replayStart j
  | .resumePoint j | .replayResume j | .weightGradientSlice j _ _ | .dispatchBuild j _ | .expertFetch j
  | .expertPagePresent j _ _ _ | .bucketApply j _ _ | .factoredFinalisation j _ => j < 16
  | .statPageFetch g _ _ _ _ => g < 384
  | .statPageSpill g _ _ _ => g.unit < 384
  | .segmentSum _ _ | .sampleComparison _ _ _ | .resyncCommit => true
  | .idle port _ => port.unit < 16
  | .frameCrcFailure f => f.port < 16
  | .join port _ => port.port < 16
  | .seg port _ | .trail port _ | .etab port _ _ | .wgt port _ _ | .hash port _
  | .abort port _ | .snapmark port _ | .resync port _ _ | .repl port _ | .keepalive port
  | .portLost port | .hawserPortUp port => port < 16
  | .flitCrcError link _ | .linkRetrain link | .linkRetrainComplete link _ _ _ => link < 114
  | .rowRepairComplete p pc bank row => p < 24 && pc < 32 && bank < 32 && row < 65536
  | .dramRefresh p pc => p < 24 && pc < 32
  | .patrolScrub p _ | .stackTemperatureReport p _ | .stackEnableComplete p _ _ _ _ _ _ => p < 24
  | .retentionScan _ _ _ | .staticLevelling | .garbageCollection _ | .logCopy _ | .fenceMirrorRefresh _
  | .formatRecordUpdate => true
  | .nandDieFailure die _ => die < 64
  | .loglineToken code => code < 65536
  | .nop q p | .load q p | .bind q p | .step q p | .endJob q p | .releaseJob q p | .cancelBatch q p | .stage q p _
  | .activate q p | .deactivate q p | .save q p | .releaseSlot q p | .snapshot q p | .restore q p _
  | .pinExpert q p | .unpinExpert q p | .writeJob q p | .readJob q p | .objWrite q p _ | .objRead q p _
  | .objDelete q p | .objInfo q p | .chainPacket q p _ => q < 16 && p.wf
  | .chainTimeout q | .queueEnable q | .queueDisable q | .queueDrained q | .responseWrite q
  | .interruptCoalesceExpiry q => q < 16
  | .sqTail q v mask => q < 16 && v < 2 ^ 64 && mask < 256
  | .registerWrite port bar _ _ => port < 2 && (bar == 0 || bar == 2)
  | .perstAssert port | .perstRelease port | .functionReady port | .linkTrained port _ _ | .hotReset port
  | .linkDown port | .functionLevelReset port | .doorbellOverrun port => port < 2
  | .versionQuery src | .featureSet src | .odRead src | .odWrite src | .odDescribe src | .notify src
  | .fwUpdateBegin src | .fwUpdateData src | .fwUpdateEnd src _ | .fwUpdateActivate src | .fwUpdateAbort src
  | .rangeCommit src | .rangeDiscard src | .coreFenceMask src | .coreReset src | .recordWindow src
  | .attestNonce src | .stressRunStart src | .stressRunStop src => src.wf
  | .stressRunEnd fails _ => fails.all (fun f => decide (f.1 < 384))
  | .frameBad _ | .fwSessionTimeout | .attestationReportDone | .stressTestEnd => true
  | .commitApply range _ => 1 ≤ range && range ≤ 10
  | .dieEnableComplete die _ _ | .thermalTrip die _ | .junctionSample die _ => die < 52
  | .droop die _ _ | .aPointSwitch die => die < 48
  | .coreEnableComplete g _ _ => g < 384
  | .coilMountComplete _ | .coilUnmount | .powerApply _ | .pwrgdAssert _ _ _ _ | .dictionaryReachable
  | .inputRangeExcursion _ | .powerLoss | .holdupEnd | .mrstNAssert | .mrstGraceEnd _ | .mrstNRelease _
  | .referenceLoss _ | .referenceReturn | .holdoverExpiry | .fastPowerWindow _ _ | .powerWindow _ _ _
  | .beaconLoss | .beaconReturn | .watchdogExpiry | .capstanRestart | .capstanBack _ | .inputRangeReturn _ => true
  | .lsFault i | .lsEol i | .laserPowerLow i _ | .lsPresentNChange i _ _ => i < 2

end Sys2Proof
end

