-- ==== Sys2Proof/Safety.lean ====
section
/-!
DEFINITION. What counts as a safe step, and the words the statements are made of: what a command comes to, which parts of
the module it leaves as they were, and when a row of the instruction set issues.
-/
namespace Sys2Proof.Machine

/-- A step that neither faults nor refuses. -/
def Completes (s : State) : Prop := ∃ t, step s = .next t

/-- Every waiting command names only units that exist. -/
def QueueWf (s : State) : Prop := ∀ c ∈ s.pending, WellFormed c = true

/-- The command answers a next state with the fuses and the queue as they were, and with a module of which `P` holds. -/
def Goes (s : State) (c : Instr) (P : Module → Prop) : Prop :=
  ∃ t, exec c s = .next t ∧ t.fuse = s.fuse ∧ t.pending = s.pending ∧ P t.m

/-- The parts of the module's state. `hbmPoison` is the poison of HBM with the errors of its stored codewords; `report` is what events and notifications write besides dictionary values and the
Logline recorder: field-network frames sent, events held for Capstan, mailboxes and interrupt counts. -/
inductive Part where
  | power | dies | links | hbmStacks | lasers | od | saved | calib | mgmt | log | report | fw | trust | stress | cores | clusters
  | hbm | hbmPoison | jobs | residency | useStamp | hawsers | rope | store | ports | queues | hostMem | stamp | orphans
  | freeNo
  deriving DecidableEq, Repr

/-- A part is the same in two modules. -/
def Part.same (m n : Module) : Part → Prop
  | .power => n.power = m.power
  | .dies => n.dies = m.dies
  | .links => n.links = m.links
  | .hbmStacks => n.hbmStacks = m.hbmStacks
  | .lasers => n.lasers = m.lasers
  | .od => n.od = m.od
  | .saved => n.saved = m.saved
  | .calib => n.calib = m.calib
  | .mgmt => { n.mgmt with frames := m.mgmt.frames, held := m.mgmt.held, dropEventHeld := m.mgmt.dropEventHeld } = m.mgmt
  | .log => n.log = m.log
  | .report => n.mgmt.frames = m.mgmt.frames ∧ n.mgmt.held = m.mgmt.held ∧ n.mgmt.dropEventHeld = m.mgmt.dropEventHeld ∧
      n.host.ports.map Port.mailbox = m.host.ports.map Port.mailbox ∧ n.host.irqs = m.host.irqs
  | .fw => n.fw = m.fw
  | .trust => n.trust = m.trust
  | .stress => n.stress = m.stress
  | .cores => n.cores = m.cores
  | .clusters => n.clusters = m.clusters
  | .hbm => n.hbm = m.hbm
  | .hbmPoison => n.hbmPoison = m.hbmPoison ∧ n.bursts = m.bursts
  | .jobs => n.jobs = m.jobs
  | .residency => n.residency = m.residency
  | .useStamp => n.useStamp = m.useStamp
  | .hawsers => n.hawsers = m.hawsers
  | .rope => n.rope = m.rope
  | .store => n.store = m.store
  | .ports => n.host.ports.map (fun p => { p with mailbox := Mailbox.reset }) =
      m.host.ports.map (fun p => { p with mailbox := Mailbox.reset })
  | .queues => n.host.queues = m.host.queues
  | .hostMem => n.host.hostMem = m.host.hostMem
  | .stamp => n.host.stamp = m.host.stamp
  | .orphans => n.host.orphans = m.host.orphans
  | .freeNo => n.freeNo = m.freeNo

/-- Every part but the listed ones is as it was. -/
def KeepsBut (ps : List Part) (m n : Module) : Prop := ∀ p, p ∉ ps → p.same m n

/-- What an event may write. -/
def reporting : List Part := [.od, .log, .report]

/-- What reads of HBM may write (R357 to R371): the stacks' corrections, marks and repairs, their counts and reports, and what a
codeword holds that a new mark puts beyond the decoder's reach. -/
def hbmReading : List Part := [.hbmStacks, .hbm, .hbmPoison, .freeNo, .od, .log, .report]

/-- What the end of an instruction with OK may write: its completion record in the response queue and its signal. -/
def ending : List Part := [.od, .log, .report, .queues, .jobs]

/-- What the end of a step without commit may write: with what its instructions and commands leave, what the step boundary
captures and judges (R203, R258, R290). -/
def boundaryParts : List Part := [.cores, .queues, .jobs, .store, .orphans, .rope, .hawsers] ++ hbmReading

/-- Every other core is as it was. -/
def OtherCores (g : Nat) (m n : Module) : Prop := ∀ h, h ≠ g → n.core h = m.core h

/-- The sequencer of the core of instruction `i` at instruction `pc`: TAKE regions that end there are closed, and at a
resume point that a replay has not passed it holds (R233, R484). -/
def seqAt (m : Module) (i : Inst) (pc : Nat) (q : CoreSeq) : CoreSeq :=
  { q with pc := pc, takes := closeTakes pc q.takes,
           wait := ((m.job i.job).resumeAt ((m.job i.job).image.roleMap.getD (i.core % 8) 0xFF) pc).map Wait.resume }

/-- The job contexts after instruction `i` ended OK or EMPTY_OP: where its word 0 asks for a signal, the increment of its
sync counter is on its way (R198). -/
def signalled (m : Module) (i : Inst) : List Job :=
  if bitAt (i.words.getD 0 0) 55 then
    modifyAt (fun b => { b with run := { b.run with signals := b.run.signals ++ [field (i.words.getD 0 0) 49 6] } }) m.jobs i.job
  else m.jobs

/-- Instruction `i` ended OK or EMPTY_OP and its core goes on at instruction `pc`, its sequencer otherwise as `q`; no other
core, no memory and no other part of the module changed but for the completion record, the signal and their reports. -/
def WentOn (m n : Module) (i : Inst) (pc : Nat) (q : CoreSeq) : Prop :=
  n.core i.core = { m.core i.core with seq := seqAt m i pc q } ∧ OtherCores i.core m n ∧ n.jobs = signalled m i ∧
    KeepsBut (.cores :: ending) m n

/-- The core of instruction `i` waits, and nothing else changed. -/
def Holds (m n : Module) (i : Inst) (w : Wait) : Prop :=
  n.core i.core = { m.core i.core with seq := { (m.core i.core).seq with wait := some w } } ∧ OtherCores i.core m n ∧
    KeepsBut [.cores] m n

/-- The slots of core `g` that its movements filled as copies of multicasts that it issued itself (R234). -/
def Core.ownCasts (c : Core) (g : Nat) : List Nat :=
  ((c.channels.flatMap id).filter (fun v => v.cast.any (fun x => x.1 == g))).flatMap (fun v => (v.cast.map Prod.snd).getD [])

/-- Every other job context is as it was. -/
def OtherJobs (j : Nat) (m n : Module) : Prop := ∀ k, k ≠ j → n.job k = m.job k

/-- The command of core `g` finds the instruction `i`, of the kind that the command names, at the core's position and lets
it run: power is good, the core may issue, its happenings do not stop it, its answer is not stale, and with its shape words read
it runs in the module `m`. -/
def Issues (s : State) (g : Nat) (kind : Words → Bool) (ups : List Upset) (i : Inst) (m : Module) : Prop :=
  g < 384 ∧ s.m.powered = true ∧ s.m.canIssue g = true ∧
    (∃ j, (s.m.core g).job = some j ∧ s.m.instAt g j = some i) ∧ kind i.words = true ∧
    ∃ x : Module, s.m.meet s.fuse i ups = (x, true) ∧ x.stale i = false ∧ m = x.readShapes s.fuse i

/-- The instruction's run-time shapes, those of its operands' layouts among them, have arrived and pass their issue checks. -/
def ShapesGood (m : Module) (i : Inst) (ups : List Upset) (ss : List Shape) (refs : List Nat) : Prop :=
  (shapeIsLate ups && hasShapeWord (ss ++ refs.flatMap (m.job i.job).extentsOf)) = false ∧ m.shapesBad i ss refs = none

/-- The turn of the late gather that holds core `g` has come (R186). -/
def Module.lateTurn (m : Module) (g : Nat) : Prop := ∃ p ps, (m.core g).gathers = p :: ps ∧ p.waits = true ∧ m.gatherTurn p.inst = true

/-- Core `g`, held at instruction `i` with no core tile to commit, is let go in module `x`: its happenings leave the module
`m` and do not stop it, and its answer is not stale. -/
def Reissues (fu : Fuses) (x : Module) (g : Nat) (ups : List Upset) (i : Inst) (m : Module) : Prop :=
  let y := x.onSeq g (fun q => { q with wait := none })
  (y.core g).tiles = [] ∧ (∃ j, (y.core g).job = some j ∧ y.instAt g j = some i) ∧ y.meet fu i ups = (m, true) ∧
    m.stale i = false

/-! ### Rows of one shape -/

/-- The rows of the row engine by function code (R153). -/
def rowRows : List (Nat × (Nat → List Upset → Instr)) :=
  [(0x01, .layernormFwd), (0x02, .rmsnormFwd), (0x03, .softmaxFwd), (0x04, .onlineSoftmax), (0x05, .onlineFinal),
   (0x06, .topkRoute), (0x07, .xentFwd), (0x08, .actFwd), (0x11, .layernormBwd), (0x12, .rmsnormBwd), (0x13, .softmaxBwd),
   (0x14, .rowdot), (0x15, .attnBwdP), (0x16, .routeBwd), (0x17, .xentBwd), (0x18, .actBwd), (0x19, .gainGrad)]

/-- The MOVE rows by operation code (R195). -/
def moveRows : List (Nat × (Nat → List Upset → Instr)) :=
  [(1, .loadCm), (2, .fill), (3, .drain), (4, .storeHbm), (5, .coil), (6, .fillc), (7, .copy)]

/-! ### When an engine's instruction commits -/

/-- Nothing keeps the core of instruction `i` from reading its input slots and writing its output slots, nor from writing
operand `o` under its combine mode (R95, R98, R186). -/
def MayWrite (m : Module) (i : Inst) (o : Operand) (fulls empties consumes : List Nat) : Prop :=
  m.tagWait i.core fulls empties consumes = none ∧ (o.buf.combine != 0 && !m.hasTurn i o.ref.buf) = false

/-- The index pass of an instruction over the `n` entries that are read, with extent `e`, resolves every entry, to `rs` (R125 to
R127, R219). -/
def IndexPasses (m : Module) (i : Inst) (ix : Option Operand) (n e : Nat) (rs : List Resolved) : Prop :=
  (ix = none ∧ n = 0 ∧ rs = []) ∨
  ∃ o, ix = some o ∧ m.tagWait i.core (o.byteSlots o.rowBase (4 * n)) [] [] = none ∧
    m.poisonAt i.job i.core o.buf.space (o.addr o.rowBase) (4 * n) = false ∧
    rs = (m.indexVals o n).map (resolveIndex (readSplice i.words).neg e) ∧ rs.all (fun r => r != Resolved.bad) = true

/-- The slots that an index operation consumes: its index and its source, unless their keep bits are set, and `more`. -/
def indexConsumes (i : Inst) (ix : Option Operand) (n : Nat) (src more : List Nat) : List Nat :=
  (if (readSplice i.words).idxKeep then [] else indexSlots ix n) ++ (if (readSplice i.words).srcKeep then [] else src) ++ more

/-- Every row function's inputs are there, its outputs may be written, and nothing it reads is poisoned. -/
def RowGoes (c : RowCtx) : Prop :=
  c.m.tagWait c.i.core ((c.inputs.flatMap inputSlots).eraseDups)
      ((c.m.outSlots c.out0 c.compute.out0 ++ c.m.outSlots c.out1 c.compute.out1).eraseDups)
      (((c.inputs.filter (fun p => p.1.ref.consume)).flatMap inputSlots).eraseDups) = none ∧
    c.statWait = none ∧ (c.out0.all (fun o => o.buf.combine == 0 || c.m.hasTurn c.i o.ref.buf)) = true ∧
    (c.out1.all (fun o => o.buf.combine == 0 || c.m.hasTurn c.i o.ref.buf)) = true ∧
    (c.m.gradWaits c.out0 c.compute.out0 || c.m.gradWaits c.out1 c.compute.out1) = false ∧ c.poisoned = false

/-- XENT_FWD's label pass lets it on: its labels are there, clean and below total_cols (R166). -/
def LabelsGood (c : RowCtx) : Prop :=
  ∀ o, c.in1 = some o → c.m.tagWait c.i.core (o.slots c.rowIx) [] [] = none ∧ c.rowIx.any (c.m.getPoison o) = false ∧
    c.badLabel = none

/-- What a row instruction leaves: its outputs converted and stored, its statistics records, its counts, and its commit. -/
def rowLeaves (fu : Fuses) (c : RowCtx) : Module :=
  (c.compute.counts.foldl (fun (m : Module) k => m.bump (odKey 0x3160 k.1) k.2)
    ((((c.m.rowWrite c.out0 c.compute.out0).rowWrite c.out1 c.compute.out1).bump (odKey 0x3160 3) c.streamed).putStats c.i.job
      c.i.core c.compute.stats)).engineCommit fu
    c.i ((c.inputs.flatMap inputSlots).eraseDups) ((c.m.outSlots c.out0 c.compute.out0 ++ c.m.outSlots c.out1 c.compute.out1).eraseDups)
    (((c.inputs.filter (fun p => p.1.ref.consume)).flatMap inputSlots).eraseDups)

/-- What the commit of a core tile stores (R74, R143, R245, R347, R348): the mask bits of a score instruction, a released
weight-gradient slice, or its output; a sample of an up projection is judged first. -/
def tileWrites (fu : Fuses) (m : Module) (t : Tile) (kind : PairKind) (o : Operand) : Module :=
  let m' := if t.sampled then m.nextFree.checkSample fu t kind o else m.nextFree
  match (m.job t.inst.job).scorer o.ref.buf with
  | some pr => m'.storeMask t pr (scoreBits (ofF32 pr.tau) t.cols
      ((m.nextFree.tileElems t kind).filter (fun e => o.inExtent [e.col, e.row])) o)
  | none => if bitAt (wordAt t.inst.words 5) 16 then m'.releaseSlice o (m.nextFree.tileElems t kind)
      else (m'.writeOut o (m.nextFree.tileElems t kind) (t.rows.headD 0) (m'.endsRows t)).bump (odKey 0x3220 5)
        (m'.mergedElems t kind o)

/-- The bytes that may differ between two modules lie at the addresses `as` of the space of operand `o`, as its core of its
job reaches it; every other byte of scratchpad, cluster memory and HBM reads as before. -/
def OnlyAt (m n : Module) (o : Operand) (as : List Nat) : Prop :=
  (∀ h x, ¬(o.buf.space = 0 ∧ h = o.core ∧ x ∈ as) → (n.core h).mem.sp.get x = (m.core h).mem.sp.get x) ∧
  (∀ k x, ¬(o.buf.space = 1 ∧ k = clusterOf o.core ∧ ∃ a ∈ as, x = (m.job o.job).cmBase k + a) →
    (n.cluster k).cm.get x = (m.cluster k).cm.get x) ∧
  (∀ x, ¬(o.buf.space ≠ 0 ∧ o.buf.space ≠ 1 ∧ ∃ a ∈ as, x = (m.job o.job).hbmBase + a) → n.hbm.get x = m.hbm.get x)

/-- The addresses of the elements of an output with in-extent rows and columns, with those of the scale bytes of the blocks
that hold them in an MX format. -/
def outAddrs (o : Operand) (es : List OutElem) : List Nat :=
  (es.filter (fun e => o.inExtent [e.col, e.row])).flatMap (fun e =>
    o.addrsOf (o.elemOff [e.col, e.row]) ++
    (if o.fmt.isMx then [o.addr (o.scaleOff (32 * (o.elemOff [e.col, e.row] / 32)))] else []))

/-- The addresses of row `r` of an operand with rows of `rb` bytes, granule by granule. -/
def rowAddrs (o : Operand) (rb r : Nat) : List Nat :=
  (List.range (rb / 32)).flatMap (fun q => (List.range 32).map (· + o.addr (o.rowBase + r * rb + 32 * q)))

/-! ### Training -/

/-- The address that a tackle writes the weight of gradient element `g` to: in the work half of its region (R241, R267). -/
def gradAddr (b : Job) (g : Grad) : Nat := b.weightAddr g.t (1 - b.committed g.t (b.regionOf g.t g.e)) g.e

/-- The address that a tackle writes state value `k` of gradient element `g` to: in the work half (R267, R268). -/
def gradStateAddr (b : Job) (g : Grad) (k : Nat) : Nat := b.stateAddr g.t (1 - b.committed g.t (b.regionOf g.t g.e)) g.e k

/-- An address is none of those that a tackle writes of a gradient element: its weight and its state in the work half, and the
accumulators of its row and column under FACTORED. -/
def OffGrad (b : Job) (g : Grad) (a : Nat) : Prop :=
  a ≠ gradAddr b g ∧ a ≠ gradAddr b g + 1 ∧ (∀ k, k < b.stateVals g.t → a ≠ gradStateAddr b g k ∧ a ≠ gradStateAddr b g k + 1) ∧
    ∀ k ∈ (b.facsOf g.t g.e).take 2, ∀ w i, w < 9 → i < 8 → a ≠ b.accAddr g.t k w + i

/-- The weight of a gradient element shares no byte with its state and its accumulators. -/
def GradApart (b : Job) (g : Grad) : Prop :=
  (∀ k, k < b.stateVals g.t → gradStateAddr b g k + 1 < gradAddr b g ∨ gradAddr b g + 1 < gradStateAddr b g k) ∧
    ∀ k ∈ (b.facsOf g.t g.e).take 2, ∀ w, w < 9 → b.accAddr g.t k w + 7 < gradAddr b g ∨ gradAddr b g + 1 < b.accAddr g.t k w

/-- The constants of the group of a gradient element's tensor (R271, R274). -/
def gradConsts (b : Job) (g : Grad) : Option Consts :=
  (b.image.groups[((b.image.tensors[g.t]?).map Tensor.group).getD 0]?).map (fun k => k.consts (b.updateNo g.t g.e))

/-- HBM outside the addresses that tackles write of the gradient elements is as it was. -/
def OnlyGrads (m n : Module) (j : Nat) (gs : List Grad) : Prop :=
  ∀ a, (∀ g ∈ gs, (m.job j).writes g.t g.e = true → OffGrad (m.job j) g a) →
    n.hbm.get a = m.hbm.get a

/-- Every gradient element that its tackle may write, and that carries no value or has a group, is handled (R276, R280). -/
def AllHandled (m n : Module) (j : Nat) (gs : List Grad) : Prop :=
  ∀ g ∈ gs, (m.job j).writes g.t g.e = true → (g.carries = true → (gradConsts (m.job j) g).isSome = true) →
    (n.job j).run.applied.get (appliedKey g.t g.e) = 1

/-- A frame of a type that arrives in order on an up hawser port in the rope's epoch (R296, R297). -/
def Arrives (s : State) (n type : Nat) (bytes : List Byte) (f : Frame) : Prop :=
  n < 16 ∧ s.m.powered = true ∧ (s.m.hawser n).up = true ∧ parseFrame bytes = some f ∧ f.type = type ∧
    f.linkSeq = (s.m.hawser n).rxSeq ∧ f.epoch = s.m.ropeEpoch

/-- A data frame that arrives for the attempt it belongs to (R297). -/
def ArrivesFresh (s : State) (n type : Nat) (bytes : List Byte) (f : Frame) : Prop :=
  Arrives s n type bytes f ∧ (s.m.acceptFrame n f).inRope (s.m.acceptFrame n f).ropeJob = true ∧ (s.m.acceptFrame n f).fresh f = true

/-- The coil store holds the same objects with the same contents, wherever their extents lie. -/
def SameObjects (m n : Module) : Prop :=
  n.store.objs.map (fun o => { o with place := [] }) = m.store.objs.map (fun o => { o with place := [] })

/-! ### Host commands -/

/-- The module once a packet has left its ring (R423): the chain of another tag that it interrupts is broken. -/
def leavesRing (m : Module) (q : Nat) (p : Packet) : Module := (m.breakChain q false).countTaken q p

/-- The packet `p` at the head of queue `q` begins command `c`, which starts at once, in module `x` (R421 to R424, R452): the
packet can be taken and is none of the open chain, it passes the checks, its port agreed its feature, its length and last bit
fit, and `c` is the earliest command that may start. -/
def Begins (s : State) (q : Nat) (p : Packet) (ups : List FlashUpset) (c : Cmd) (x : Module) : Prop :=
  let y := leavesRing s.m q p
  q < 16 ∧ s.m.powered = true ∧ s.m.canTake q p = true ∧ (s.m.queue q).chained.any (fun d => d.tag == p.tag) = false ∧
    y.beginsWell q p = true ∧ y.featured q p = true ∧ c = y.cmdOf p 0 ∧
    (isChain c.opcode = true → p.len64 = c.units 0 ∧ p.last = c.endsAt 0) ∧
    x = ((y.addCmd q c).onQueue q (fun t => { t with
      chain := if isChain c.opcode && !c.endsAt 0 then some c.tag else none })).flashMeets s.fuse c ups ∧
    x.nextStart = some (q, c)

/-- What stands after `y`, in which a command of module `x` has started: the commands that may start now start too. -/
def thenStart (fu : Fuses) (x y : Module) : Module := Module.startNext fu ((x.host.queues.map (fun t => t.cmds.length)).sum - 1) y

/-- A command ends at once: a module of which `P` holds, then its final response with a status and words 4 and 5. -/
def Ends (fu : Fuses) (x : Module) (q : Nat) (c : Cmd) (st w4 w5 : Nat) (P : Module → Prop) (n : Module) : Prop :=
  ∃ z, P z ∧ n = thenStart fu x (z.answer q c st w4 w5)

/-- A command goes on: a module of which `P` holds, with the command started and its end to come. -/
def RunsOn (fu : Fuses) (x : Module) (q : Nat) (c : Cmd) (P : Module → Prop) (n : Module) : Prop :=
  ∃ z, P z ∧ n = thenStart fu x (z.started q c)

/-- The rows of the host commands that name a job, but for LOAD (R426). -/
def jobRows : List (Nat × (Nat → Packet → Instr)) :=
  [(0x02, .bind), (0x03, .step), (0x04, .endJob), (0x05, .releaseJob), (0x06, .cancelBatch), (0x10, fun q p => .stage q p []),
   (0x11, .activate), (0x12, .deactivate), (0x13, .save), (0x14, .releaseSlot), (0x18, .snapshot),
   (0x19, fun q p => .restore q p []), (0x1A, .pinExpert), (0x1B, .unpinExpert), (0x20, .writeJob), (0x21, .readJob)]

/-- The commands of the eight queues of a port, queue by queue. -/
def Module.portCmds (m : Module) (p : Nat) : List Cmd := ((List.range 8).map (· + 8 * p)).flatMap (fun q => (m.queue q).cmds)

/-- Whether a reset of its port cancels a command (R432): one that has not started, a LOAD, a write of an object, a SNAPSHOT to the host,
and a started command that is no job-state command. -/
def Module.cancels (m : Module) (c : Cmd) : Bool :=
  c.state != 2 && (m.notStarted c || c.opcode == 1 || c.opcode == 0x28 ||
    (if c.opcode = 0x18 then !bitAt (c.w 4) 0 else !isJobState c.opcode))

/-! ### Management messages -/

/-- A request `r` that Capstan serves (R436 to R440): it has arrived on its path, is no response and no repetition, has no
other flag and fits its path; `m` is the module once it is taken. -/
def Asks (s : State) (src : MsgFrom) (r : Req) (m : Module) : Prop :=
  src.wf = true ∧ s.m.powered = true ∧ s.m.mgmt.reachable = true ∧ s.m.mgmt.romService = false ∧
    s.m.reqOf s.fuse src = some r ∧ m = s.m.takeFrame s.fuse r ∧ m.keptFor r = none ∧ r.flags = 0 ∧ r.len ≤ pathLimit r.path

/-- What an answered request leaves: a module of which `P` holds, then its response on the request's path with a status, the
clamped and overridden flags and a body. -/
def Replies (fu : Fuses) (r : Req) (status : Nat) (clamped overridden : Bool) (body : List Byte) (P : Module → Prop)
    (n : Module) : Prop :=
  ∃ z, P z ∧ n = z.sendReply fu r (message r.type r.seq status clamped overridden true body)

/-- An OD_WRITE that passes every check of R445 on object `o`, of row `row` of the table. -/
def Writes (m : Module) (r : Req) (row : Nat) (o : OdReq) (d : ObjDef) : Prop :=
  r.type = 0x0011 ∧ r.writeRow = row ∧ m.writeCheck r = (stOk, some (o, d))

/-- An FW_UPDATE of a well-formed sub-operation `op` on a path of level 2 (R444, R457). -/
def Updates (m : Module) (r : Req) (op : Nat) : Prop := r.type = 0x0030 ∧ r.subOp = op ∧ r.fwForm = true ∧ 2 ≤ m.level r.path

end Sys2Proof.Machine
end

