-- ==== Sys2Proof/Certificates/Slice0/Obligations.lean ====
section
/-!
DEFINITION. The statements for the provers. Each names the rules it formalises. A statement about a row of the
instruction set speaks of the instruction at a core's position (`Issues`), of what the command leaves (`Goes`) and of the
parts of the module that stay (`KeepsBut`); those words stand in Safety.lean.
-/

open Sys2Proof Sys2Proof.Machine

/-! ### CONTROL -/

/-- R196, R202: NOP goes on; LOOP opens a loop with its run-time count, and with a count of 0 continues after its ENDLOOP;
ENDLOOP repeats the innermost open loop that it closes while iterations are left, and otherwise leaves it. -/
def Obligations.LoopsRepeatTheirCount : Prop :=
  ∀ (s : State) (g : Nat) (ups : List Upset) (i : Inst) (m : Module),
    (Issues s g (isControl 0) ups i m →
      Goes s (.controlNop g ups) (fun n => WentOn m n i (i.index + 1) (m.core g).seq)) ∧
    (Issues s g (isControl 2) ups i m → ShapesGood m i ups [controlShape i.words] [] →
      Goes s (.loop g ups) (fun n =>
        (m.shapeOf i (controlShape i.words) = 0 → WentOn m n i (m.endloop i i.index + 1) (m.core g).seq) ∧
        (0 < m.shapeOf i (controlShape i.words) →
          WentOn m n i (i.index + 1) { (m.core g).seq with
            loops := { at_ := i.index, left := m.shapeOf i (controlShape i.words) - 1 } :: (m.core g).seq.loops }))) ∧
    (Issues s g (isControl 3) ups i m →
      Goes s (.endloop g ups) (fun n => ∀ (f : LoopFrame) (fs : List LoopFrame),
        (m.core g).seq.loops = f :: fs → m.endloop i f.at_ = i.index →
          (f.left = 0 → WentOn m n i (i.index + 1) { (m.core g).seq with loops := fs }) ∧
          (0 < f.left →
            WentOn m n i (f.at_ + 1) { (m.core g).seq with loops := { f with left := f.left - 1 } :: fs })))

/-- R196, R198, R381: a WAIT whose sync counter has reached its target goes on, and one whose counter has not holds its
core; SWAP and PASS_END hold the core until their barrier, PASS_END with its dirty statistics lines flushed and the fetched
ones forgotten; STEP_END ends the core's work for the step. -/
def Obligations.HoldsAndEndsOfControl : Prop :=
  ∀ (s : State) (g : Nat) (ups : List Upset) (i : Inst) (m : Module),
    (Issues s g (isControl 4) ups i m → ShapesGood m i ups [controlShape i.words] [] →
      Goes s (.wait g ups) (fun n =>
        (m.shapeOf i (controlShape i.words) ≤ (m.job i.job).counter (counterOf i.words) →
          WentOn m n i (i.index + 1) (m.core g).seq) ∧
        ((m.job i.job).counter (counterOf i.words) < m.shapeOf i (controlShape i.words) →
          Holds m n i (.counter (counterOf i.words))))) ∧
    (Issues s g (isControl 5) ups i m → Goes s (.swap g ups) (fun n => Holds m n i (.swap (swapBufOf i.words)))) ∧
    (Issues s g (isControl 6) ups i m → Goes s (.passEnd g ups) (fun n =>
      Holds ((m.onCore g Core.dropFetched).flushStats i.job g) n i .passEnd)) ∧
    (Issues s g (isControl 7) ups i m →
      Goes s (.stepEnd g ups) (fun n =>
        n.core g = { m.core g with seq := { (m.core g).seq with done := true } } ∧ OtherCores g m n ∧
          n.jobs = signalled m i ∧ KeepsBut (.cores :: ending) m n))

/-- R226 to R231: a TAKE whose die reel, or where it is empty and the template overflows the pair die's, still has an entry
takes the lowest one: it leaves that reel, becomes the core's innermost TAKE region with its coordinates, shifted by its
per-problem base where the template has one and its word has arrived, and the program goes on; where both are exhausted the
program continues at the target, out of the loops that do not hold it. -/
def Obligations.TakeGetsTheLowestEntry : Prop :=
  ∀ (s : State) (g : Nat) (ups : List Upset) (i : Inst) (m : Module), Issues s g (isControl 1) ups i m →
    (∀ (e die base : Nat) (t : Template), m.nextEntry g i.job (reelOf i.words) = some (e, die) →
      (m.job i.job).image.templates[reelOf i.words]? = some t →
      let pos := m.entryPos i.job (reelOf i.words) e
      (t.pbaseEn = false ∧ base = 0 ∨ t.pbaseEn = true ∧ shapeIsLate ups = false ∧
        m.shapeWord i.job ((m.job i.job).boundValue t.pbaseSlot + 4 * pos.getD t.pIndex 0) = .val base) →
      Goes s (.take g ups) (fun n =>
        let x : Entry :=
          { at_ := i.index, target := targetOf i.words, tmpl := reelOf i.words, e := e, p := pos.getD t.pIndex 0,
            coords := t.coords pos base, epoch := (m.job i.job).run.epoch }
        WentOn ((((if t.pbaseEn then m.request s.fuse i.job ((m.job i.job).hbmBase +
              ((m.job i.job).boundValue t.pbaseSlot + 4 * pos.getD t.pIndex 0)) 4 else m).takeEntry i.job (reelOf i.words) die e).bump (odKey 0x3220 1) 1).bump
            (odKey 0x3220 2) (if die = dieOf g then 0 else 1)) n i (i.index + 1)
          { (m.core g).seq with takes := x :: (m.core g).seq.takes.filter (fun y => y.at_ ≠ i.index) })) ∧
    (m.nextEntry g i.job (reelOf i.words) = none →
      Goes s (.take g ups) (fun n =>
        WentOn (m.bump (odKey 0x3220 3) 1) n i (targetOf i.words)
          { (m.core g).seq with loops := m.loopsAt i (targetOf i.words) (m.core g).seq.loops })) ∧
    (let held := fun (d : Nat) => (((m.job i.job).run.reels.find? (fun r => r.tmpl == reelOf i.words && r.die == d)).map
        DieReel.left).getD []
     let overflows := ∃ t, (m.job i.job).image.templates[reelOf i.words]? = some t ∧ t.overflow = true
     (∀ d, (held d).Pairwise (· < ·)) →
      (∀ e die, m.nextEntry g i.job (reelOf i.words) = some (e, die) → e ∈ held die ∧ (∀ x ∈ held die, e ≤ x) ∧
        (die = dieOf g ∨ held (dieOf g) = [] ∧ overflows ∧ die = pairDie (dieOf g))) ∧
      (m.nextEntry g i.job (reelOf i.words) = none ↔
        held (dieOf g) = [] ∧ (overflows → held (pairDie (dieOf g)) = [])))

/-! ### MATRIX -/

/-- R68, R73, R74, R96, R140, R194, R214: a MATRIX instruction past its checks, with its operands, a listed operand pair, its input
slots FULL and no invalid nibble in what its first core tile reads, runs its passes through the arrays: each weight tile is loaded
and swapped in, the accumulators hold the rows of its core tiles; it leaves these waiting for their commits, the last one marked, and
consumes the slots it reads last; it writes no memory, and no other core or job changes. With no row in extent it has no core tile, and its program goes on. -/
def Obligations.MatrixLeavesItsCoreTiles : Prop :=
  ∀ (s : State) (g : Nat) (ups : List Upset) (i : Inst) (m : Module) (x : MatOps) (kind : PairKind),
    Issues s g (fun w => classOf w == 1) ups i m → ShapesGood m i ups (matrixShapes i.words) (matrixRefs i.words) →
    0 < m.shapeOf i (readShape (hiOf i.words 4)) → 0 < m.shapeOf i (readShape (loOf i.words 4)) →
    (bitAt (wordAt i.words 7) 63 && decide ((m.job i.job).mbCount ≤ i.problem)) = false →
    m.matOps i = some x → pairKind x.a.fmt x.b.fmt = some kind →
    ∀ sl, sl = m.matSlots i x (tileK x.a.fmt) (m.matShape i x) → m.tagWait g sl.1 [] sl.2 = none →
      let work := m.matWork i ups x kind
      let emptied := fun (c : Core) => if c.bypass then c else
        { c with mem := { c.mem with full := c.mem.full.filter (fun s => !sl.2.contains s) } }
      (∀ w ws, work = w :: ws → w.tile.invalid = none → Goes s (.matrix g ups) (fun n =>
        n.core g = emptied
          { work.foldl Core.runTile ((m.remapReads g sl.1).core g) with
            tiles := work.zipIdx.map (fun t => { t.1.tile with last := t.2 + 1 == work.length }) } ∧
        OtherCores g m n ∧ KeepsBut [.cores, .od] m n)) ∧
      (work = [] → Goes s (.matrix g ups) (fun n =>
        n.core g = emptied { m.core g with seq := seqAt m i (i.index + 1) (m.core g).seq } ∧
        OtherCores g m n ∧ n.jobs = signalled m i ∧ KeepsBut (.cores :: ending) m n))

/-- R69: the row groups of an instruction take every row once: each in-extent row lies in exactly one group, no group holds
another row, and no array takes more than 512 rows of a group. -/
def Obligations.RowGroupsTakeEveryRowOnce : Prop :=
  ∀ (rows : List Nat) (arrays : Nat), 0 < arrays → rows.Nodup →
    (∀ r ∈ rows, ∃ gi, gi < groupCountOf rows.length arrays ∧ r ∈ rowsOf rows arrays gi ∧
      ∀ gj, r ∈ rowsOf rows arrays gj → gj = gi) ∧
    (∀ gi r, r ∈ rowsOf rows arrays gi → r ∈ rows) ∧ rowsPerArray rows.length arrays ≤ 512

/-- R74, R78, R80, R96: a core tile that read no invalid nibble, whose check rows pass, that consumed no poison, whose slots are
EMPTY and whose turn it is, and whose repeated pass agrees where R475 selects it, commits: its output is stored, its slots
become FULL together where the core checks tags, the next core tile is at the front, and the last one lets the program go on. -/
def Obligations.TileCommitStoresAndFills : Prop :=
  ∀ (s : State) (g : Nat) (ups : List Upset) (t0 t : Tile) (r0 rest : List Tile) (m : Module) (a b o : Operand)
    (kind : PairKind),
    g < 384 → s.m.powered = true → s.m.canCommit g = true → (s.m.core g).tiles = t0 :: r0 →
    s.m.meet s.fuse t0.inst ups = (m, true) → (m.core g).tiles = t :: rest → t.inst.core = g → m.stale t.inst = false →
    m.operand t.inst (hiOf t.inst.words 2) false 0 = some a → m.operand t.inst (loOf t.inst.words 2) false 0 = some b →
    m.operand t.inst (hiOf t.inst.words 3) true 0 = some o → kind = (pairKind a.fmt b.fmt).getD .float →
    t.invalid = none → m.failingRow t kind = none → t.poisoned = false → m.tagWait g [] t.slots [] = none →
    (o.buf.combine != 0 && !m.hasTurn t.inst o.ref.buf) = false →
    (m.dupSelected t = true → t.skipped = false → dupDiff ups (m.nextFree.tileCodes t kind o) = none) →
    (bitAt (wordAt t.inst.words 5) 16 && m.nextFree.outWaits o (m.nextFree.tileElems t kind)) = false →
    Goes s (.tileCommit g ups) (fun n =>
      let w := tileWrites s.fuse m t kind o
      n.hbm = w.hbm ∧ n.clusters = w.clusters ∧ (∀ h, (n.core h).mem.sp = (w.core h).mem.sp) ∧
      ((m.core g).bypass = false → ∀ k ∈ t.slots, k ∈ (n.core g).mem.full) ∧ (n.core g).tiles = rest ∧
      (t.last = true → (n.core g).seq.pc = t.inst.index + 1) ∧
      KeepsBut (.cores :: .clusters :: .hbm :: .hbmPoison :: .freeNo :: ending) m n)

/-! ### Stores -/

/-- R106, R186, R222, R223: storing an output through the store path, unpacked, changes bytes at the addresses of its
in-extent elements and of their blocks' scales only; storing rows changes the bytes of those rows only; and every other
byte of the module's scratchpads, cluster memories and HBM reads as before. -/
def Obligations.StoresStayInTheirOutput : Prop :=
  (∀ (m : Module) (o : Operand) (es : List OutElem) (prior : Nat) (final : Bool), o.ref.fid = 0 →
    OnlyAt m (m.writeOut o es prior final) o (outAddrs o es)) ∧
  (∀ (m : Module) (o : Operand) (rb : Nat) (rows : List Row), (∀ r ∈ rows, r.2.length = rb / 32) →
    OnlyAt m (rows.zipIdx.foldl (fun (m : Module) p => m.putRow o rb p.2 p.1) m) o
      ((List.range rows.length).flatMap (rowAddrs o rb)))

/-! ### SPLICE -/

/-- R125 to R131, R202: an index operation whose every entry resolves and whose slots are ready. GATHER delivers for each
position the row that its entry names, or zeros for a null entry, and commits; from outside the scratchpad the rows are on
their way and its program goes on. SCATTER and SCATTER_ADD leave in each destination row what R128 says; a SCATTER_ADD that
reads poison ends POISON, with its index pass counted. -/
def Obligations.IndexOperationsCommit : Prop :=
  ∀ (s : State) (g : Nat) (ups : List Upset) (i : Inst) (m : Module) (rs : List Resolved) (dst : Operand),
    let ix := m.operand i (hiOf i.words 2) false 0
    let src := m.operand i (loOf i.words 2) false 0
    let base := if (readSplice i.words).base then m.operand i (hiOf i.words 3) false 0 else none
    let count := m.shapeOf i (readShape (hiOf i.words 4))
    let n := entriesOf ix count
    let e := m.shapeOf i (readShape (loOf i.words 4))
    let rb := (readSplice i.words).rowBytes
    let vals := (ix.map (fun o => m.indexVals o n)).getD []
    ShapesGood m i ups (spliceShapes i.words) (spliceRefs i.words) → IndexPasses m i ix n e rs →
    m.operand i (loOf i.words 3) true 0 = some dst →
    (∀ so, src = some so → Issues s g (isSplice 1) ups i m → 0 < count →
      let srcSlots := if (readSplice i.words).srcMem then [] else so.rowSlots rb (rs.filterMap Resolved.row?).eraseDups
      m.tagWait g (indexSlots ix n ++ srcSlots) (dst.rowSlots rb (List.range n)) (indexConsumes i ix n srcSlots []) = none →
      (readSplice i.words).srcMem = true ∨ (dst.buf.combine != 0 && !m.hasTurn i dst.ref.buf) = false →
      Goes s (.gather g ups) (fun k =>
        let c := (m.countIndex vals rs).bump (odKey 0x3150 4) (coalesced rs)
        ((readSplice i.words).srcMem = false →
          k = (((m.gatherRows so rb rs).zipIdx).foldl (fun (m : Module) p => m.putRow dst rb p.2 p.1) c).engineCommit s.fuse
            i (indexSlots ix n ++ srcSlots) (dst.rowSlots rb (List.range n)) (indexConsumes i ix n srcSlots [])) ∧
        ((readSplice i.words).srcMem = true →
          (k.core g).gathers.length = (m.core g).gathers.length + 1 ∧ (k.core g).seq.pc = i.index + 1 ∧
            (k.core g).mem.sp = (m.core g).mem.sp ∧
            (∀ h, h ≠ g → k.core h = { m.core h with clusterStalls := (k.core h).clusterStalls }) ∧
            (so.buf.space = 1 → KeepsBut [.cores, .clusters, .od] m k) ∧
            (so.buf.space ≠ 1 → OtherCores g m k ∧ KeepsBut (.cores :: hbmReading) m k)))) ∧
    (∀ (add : Bool), Issues s g (isSplice (if add then 3 else 2)) ups i m → 0 < e →
      let read := if add then (rs.zipIdx).filterMap (fun p => p.1.row?.map (fun _ => p.2)) else windowLast rs
      let srcSlots := (src.map (fun o => o.rowSlots rb read)).getD []
      let baseSlots := (base.map (fun o => o.rowSlots rb (List.range e))).getD []
      let consume := indexConsumes i ix n srcSlots (if base.any (fun o => o.ref.consume) then baseSlots else [])
      MayWrite m i dst (indexSlots ix n ++ srcSlots ++ baseSlots) (dst.rowSlots rb (List.range e)) consume →
      (add = true → (src.all (fun o => read.all (fun j => !(m.rowPoison o rb j).any id)) &&
        base.all (fun o => (List.range e).all (fun r => !(m.rowPoison o rb r).any id))) = true) →
      Goes s (if add then .scatterAdd g ups else .scatter g ups) (fun k =>
        let r := match src with
          | some o => if add then m.scatterAddRows o dst base ((readSplice i.words).valFmt == 5) rb e rs
              else (m.scatterRows o base rb e rs, 0)
          | none => ((List.range e).map (m.baseRow base rb), 0)
        let c := ((m.countIndex vals rs).bump (odKey 0x3150 4) (coalesced rs)).bump (odKey 0x3140 3) r.2
        k = ((r.1.zipIdx).foldl (fun (m : Module) p => m.putRow dst rb p.2 p.1) c).engineCommit s.fuse i
          (indexSlots ix n ++ srcSlots ++ baseSlots) (dst.rowSlots rb (List.range e)) consume)) ∧
    (Issues s g (isSplice 3) ups i m → 0 < e →
      let read := (rs.zipIdx).filterMap (fun p => p.1.row?.map (fun _ => p.2))
      let srcSlots := (src.map (fun o => o.rowSlots rb read)).getD []
      let baseSlots := (base.map (fun o => o.rowSlots rb (List.range e))).getD []
      MayWrite m i dst (indexSlots ix n ++ srcSlots ++ baseSlots) (dst.rowSlots rb (List.range e))
        (indexConsumes i ix n srcSlots (if base.any (fun o => o.ref.consume) then baseSlots else [])) →
      (∃ o, src = some o ∧ ∃ j ∈ read, (m.rowPoison o rb j).any id = true) →
      Goes s (.scatterAdd g ups) (fun k => k = (m.countIndex vals rs).enginePoison s.fuse i))

/-- R131, R186: the rows of a core's oldest gather from outside the scratchpad have arrived and its turn in a combine buffer has
come: they are stored, their slots become FULL where the core checks tags, and the instruction ends OK; a stale answer writes
nothing, and where it was the last of a cancelled attempt that attempt ends (R344). -/
def Obligations.LateGatherCommits : Prop :=
  ∀ (s : State) (g : Nat) (ups : List Upset) (p0 p : PendGather) (r0 rest : List PendGather) (m : Module),
    g < 384 → s.m.powered = true → (s.m.core g).live = true → (s.m.core g).fenceReq = none →
    (s.m.core g).gathers = p0 :: r0 → (p0.waits = true ∨ s.m.stoppedIn p0.reads = none) → s.m.gatherTurn p0.inst = true → s.m.meet s.fuse p0.inst ups = (m, true) →
    (m.core g).gathers = p :: rest →
    (m.stale p.inst = false → ∀ u, m.spliceDst p.inst = some u → Goes s (.srcMemGatherCommit g ups) (fun n =>
      (n.core g).gathers = rest ∧ ((m.core g).bypass = false → ∀ k ∈ p.slots, k ∈ (n.core g).mem.full) ∧
      n.jobs = signalled m p.inst ∧ KeepsBut (.cores :: .clusters :: .hbm :: .hbmPoison :: ending) m n)) ∧
    (m.stale p.inst = true → Goes s (.srcMemGatherCommit g ups) (fun n => ∃ x : Module,
      (x.core g).gathers = rest ∧ x.hbm = m.hbm ∧ (∀ k, (x.core k).mem = (m.core k).mem) ∧ KeepsBut (.cores :: ending) m x ∧
      n = x.settleCancel s.fuse p.inst.job))

/-- R136 to R146, R186, R202: a tile instruction with a tile count, its operands and its slots ready and its turn come. EXPAND,
with no invalid nibble in what it reads, stores every in-extent element of its tiles, zeros for absent blocks; TRANSPOSE stores
element (row, column) of each source tile at (column, row), zeros in the planned padding; COMPRESS, with its source clean and no
group of three or more non-zeros where dropping is a fault, stores the values of the present blocks, or of 2-of-4 groups the two
kept values and their nibble; each then commits. -/
def Obligations.TileInstructionsCommit : Prop :=
  ∀ (s : State) (g : Nat) (ups : List Upset) (i : Inst) (m : Module) (src dst : Operand),
    let t := m.shapeOf i (readShape (hiOf i.words 5))
    let sw := readSplice i.words
    let tr := sw.maskMode == 2
    ShapesGood m i ups (spliceShapes i.words) (spliceRefs i.words) → 0 < t →
    m.operand i (loOf i.words 2) false 0 = some src → m.operand i (loOf i.words 3) true 0 = some dst →
    (Issues s g (isSplice 4) ups i m →
      let p := m.expandPacking src sw (dst.lay.axisPlan (if tr then 0 else 1)) t
      let kt := kTiles dst.fmt (dst.lay.axisPlan 1)
      let places := dst.tilesIn kt t
      let srcSlots := p.tileSlots src (places.map (fun q => if tr then p.tileOf q.2 q.1 else p.tileOf q.1 q.2)).eraseDups
      let dstSlots := dst.slots (places.map (fun q => [q.2, q.1]))
      MayWrite m i dst srcSlots dstSlots (if sw.srcKeep then [] else srcSlots) → m.tilesNibble src dst p tr kt t = none →
      Goes s (.expand g ups) (fun n =>
        n = (m.putPlaces dst (places.map (fun q =>
          let k := if tr then q.2 else q.1
          let c := if tr then q.1 else q.2
          (q, (m.packCode src p k c).getD 0, if p.fmt.isMx && p.present k c then m.opByte src (p.scaleAt k c) else 0,
            m.packPoison src p k c)))).engineCommit s.fuse i srcSlots dstSlots (if sw.srcKeep then [] else srcSlots))) ∧
    (Issues s g (isSplice 6) ups i m →
      let places := ((List.range t).flatMap (tilePlaces (ceilDiv (src.lay.axisPlan 1) 128))).filter
        (fun q => dst.inPlan [q.1, q.2])
      let srcSlots := src.slots (places.map (fun q => [q.2, q.1]))
      let dstSlots := dst.planned.slots (places.map (fun q => [q.1, q.2]))
      let both := fun (q : Nat × Nat) => src.inExtent [q.2, q.1] && dst.inExtent [q.1, q.2]
      MayWrite m i dst srcSlots dstSlots (if sw.srcKeep then [] else srcSlots) →
      Goes s (.transpose g ups) (fun n =>
        n = (m.putPlaces dst (places.map (fun q =>
          ((q.2, q.1), (if both q then m.codeAt src (src.elemOff [q.2, q.1]) else 0), 0,
            both q && m.elemPoison src (src.elemOff [q.2, q.1]))))).engineCommit s.fuse i srcSlots dstSlots (if sw.srcKeep then [] else srcSlots))) ∧
    (Issues s g (isSplice 5) ups i m →
      let p0 := m.packing dst sw.sparse24 (src.lay.axisPlan (if tr then 0 else 1))
      let p := if sw.maskMode = 0 then { p0 with masks := List.replicate t (2 ^ 64 - 1), full := false } else p0
      let idx := fun (q : Nat × Nat) => if tr then [q.1, q.2] else [q.2, q.1]
      let all := (List.range t).flatMap (tilePlaces p.kt)
      let places := all.filter (fun q => p.present q.1 q.2)
      let srcSlots := src.slots (all.map idx)
      MayWrite m i dst srcSlots (p.tileSlots dst (List.range t)) (if sw.srcKeep then [] else srcSlots) →
      all.any (fun q => m.getPoison src (idx q)) = false →
      (sw.sparse24 = true → sw.dropFault = true →
        (groups24 p t).all (fun q => nonZeros (m.groupVals src tr q.2.2.1 q.2.2.2) < 3) = true) →
      let gs := if sw.sparse24 then groups24 p t else []
      Goes s (.compress g ups) (fun n =>
        n = (((if sw.sparse24 then gs.foldl (fun (m : Module) q => m.putGroup src dst p tr q) m
          else places.foldl (fun (m : Module) q =>
            let m1 := m.putPacked dst p 0 q.1 q.2 (if src.inExtent (idx q) then m.codeAt src (src.elemOff (idx q)) else 0) false
            if p.fmt.isMx then
              m1.storeAt dst.job dst.core dst.buf.space (dst.addr (dst.start + p.scaleAt q.1 q.2))
                (leBytes 1 (if src.inExtent (idx q) then leNat (m.bytesAt src.job src.core src.buf.space
                  (src.addr (src.scaleOff (src.elemOff (idx q)))) 1) else 0)) false
            else m1) m).cleanCovered dst.job dst.core dst.buf.space
          (if sw.sparse24 then gs.flatMap (m.groupAddrs src dst p tr) else places.flatMap (fun q => dst.packAddrs p 0 q.1 q.2))
          []).bump (odKey 0x3150 5)
          (gs.map (fun q => nonZeros (m.groupVals src tr q.2.2.1 q.2.2.2) - 2)).sum).engineCommit s.fuse i
          srcSlots (p.tileSlots dst (List.range t)) (if sw.srcKeep then [] else srcSlots)))

/-- R96, R100, R130, R156: the commit of a splice or row instruction: its consumed slots become EMPTY and then its destination
slots FULL, but for a core in tag-bypass, and its program goes on with the next instruction. -/
def Obligations.EngineCommitFillsAndConsumes : Prop :=
  ∀ (fu : Fuses) (m : Module) (i : Inst) (reads full consume : List Nat), i.core < m.cores.length →
    let n := m.engineCommit fu i reads full consume
    ((m.core i.core).bypass = false →
      ∀ k, k ∈ (n.core i.core).mem.full ↔ k ∈ full ∨ (k ∈ (m.core i.core).mem.full ∧ k ∉ consume)) ∧
    ((m.core i.core).bypass = true → (n.core i.core).mem.full = (m.core i.core).mem.full) ∧
    (n.core i.core).seq = seqAt m i (i.index + 1) (m.core i.core).seq ∧
    (n.core i.core).mem.sp = (m.core i.core).mem.sp ∧ OtherCores i.core m n ∧ n.jobs = signalled m i ∧
    KeepsBut (.cores :: ending) m n

/-! ### ROW -/

/-- R152 to R178: each of the seventeen row functions with its inputs FULL and clean, its outputs free, its statistics pages
held and its labels, where it takes them, below total_cols: its outputs are stored, its statistics records written, its
counts advanced, and it commits. -/
def Obligations.RowFunctionsCommit : Prop :=
  ∀ (s : State) (g : Nat) (ups : List Upset) (i : Inst) (m : Module), ∀ r ∈ rowRows,
    Issues s g (isRow r.1) ups i m → ShapesGood m i ups (rowShapes i.words) (rowRefs i.words) →
    (m.rowCtx i).statRow % 8 = 0 → (m.rowCtx i).statBad = none → 0 < (m.rowCtx i).rows → 0 < (m.rowCtx i).cols →
    (r.1 = 0x07 → LabelsGood (m.rowCtx i)) → RowGoes (m.rowCtx i) →
    Goes s (r.2 g ups) (fun n => n = rowLeaves s.fuse (m.rowCtx i))

/-- R201, R202: a row instruction without rows or columns, a MOVE without length, a MATRIX instruction without rows or
columns and a GATHER without positions end EMPTY_OP: nothing is written but the completion record and the signal, and the
program goes on. -/
def Obligations.EmptyOperationsGoOn : Prop :=
  ∀ (s : State) (g : Nat) (ups : List Upset) (i : Inst) (m : Module),
    (∀ r ∈ rowRows, Issues s g (isRow r.1) ups i m → ShapesGood m i ups (rowShapes i.words) (rowRefs i.words) →
      (m.rowCtx i).statRow % 8 = 0 → (m.rowCtx i).statBad = none → (m.rowCtx i).rows = 0 ∨ (m.rowCtx i).cols = 0 →
      Goes s (r.2 g ups) (fun n => WentOn m n i (i.index + 1) (m.core g).seq)) ∧
    (∀ r ∈ moveRows, Issues s g (isMove r.1) ups i m →
      ShapesGood m i ups [lengthShape i.words] [hiOf i.words 2, loOf i.words 2] →
      m.copyAlias i = false → m.shapeOf i (lengthShape i.words) = 0 →
      Goes s (r.2 g ups) (fun n => WentOn m n i (i.index + 1) (m.core g).seq)) ∧
    (Issues s g (fun w => classOf w == 1) ups i m → ShapesGood m i ups (matrixShapes i.words) (matrixRefs i.words) →
      m.shapeOf i (readShape (hiOf i.words 4)) = 0 ∨ m.shapeOf i (readShape (loOf i.words 4)) = 0 →
      Goes s (.matrix g ups) (fun n => WentOn m n i (i.index + 1) (m.core g).seq)) ∧
    (Issues s g (isSplice 1) ups i m → ShapesGood m i ups (spliceShapes i.words) (spliceRefs i.words) →
      m.shapeOf i (readShape (hiOf i.words 4)) = 0 →
      Goes s (.gather g ups) (fun n => WentOn m n i (i.index + 1) (m.core g).seq))

/-! ### MOVE -/

/-- R195, R376, R377: a MOVE with a length, whose channel holds fewer than 16 movements, joins the end of its channel's
queue and its program goes on; behind a movement that has started it moves nothing yet, and a coil has only read its burst. -/
def Obligations.MovesQueueInTheirChannel : Prop :=
  ∀ (s : State) (g : Nat) (ups : List Upset) (i : Inst) (m : Module), ∀ r ∈ moveRows,
    Issues s g (isMove r.1) ups i m → ShapesGood m i ups [lengthShape i.words] [hiOf i.words 2, loOf i.words 2] →
    m.copyAlias i = false → 0 < m.shapeOf i (lengthShape i.words) →
    ((m.core g).channels.getD (channelOf i.words) []).length < 16 →
    Goes s (r.2 g ups) (fun n => n = m.issueMove s.fuse i ∧
      (∀ v vs, (m.core g).channels[channelOf i.words]? = some (v :: vs) → v.started = true → m.viewOf i = none →
        (r.1 = 5 → ∀ o, m.operand i (hiOf i.words 2) false 0 = some o → m.burstBad i o = none) →
        (∃ w : Move, w.inst = i ∧ w.started = false ∧
          (n.core g).channels[channelOf i.words]? = some ((v :: vs) ++ [w])) ∧
        (n.core g).seq = seqAt m i (i.index + 1) (m.core g).seq ∧ (n.core g).mem = (m.core g).mem ∧
        (r.1 ≠ 5 → OtherCores g m n ∧ KeepsBut [.cores, .od] m n) ∧
        (r.1 = 5 → KeepsBut (.cores :: .clusters :: hbmReading) m n)))

/-- R377: the head movement of a channel whose last write has been acknowledged and that met no error ends OK: it leaves
its channel, signals, and the channel's next movement starts. -/
def Obligations.MovementsCompleteInOrder : Prop :=
  ∀ (s : State) (g ch : Nat) (v : Move) (vs : List Move),
    g < 384 → ch < 8 → s.m.powered = true → (s.m.core g).live = true → (s.m.core g).fenceReq = none →
    (s.m.core g).channels[ch]? = some (v :: vs) → v.written = true → v.status = stOk →
    (s.m.job v.inst.job).state = 3 →
    Goes s (.movementComplete g ch) (fun n => ∃ w : Module,
      (w.core g).channels[ch]? = some vs ∧ (w.core g).seq = (s.m.core g).seq ∧ (w.core g).mem = (s.m.core g).mem ∧
      OtherCores g s.m w ∧ w.jobs = signalled s.m v.inst ∧ KeepsBut (.cores :: ending) s.m w ∧
      n = w.startChannel s.fuse g ch)

/-- R232, R234: a multicast FILL that every core of its set has brought to the head of its channel, with every destination slot
EMPTY, forms one instance: the issuer's data stands in the scratchpad of every core of the set, byte for byte where no later
item of the movement lies, every core's movement has been written, the destination slots are FULL where the core checks tags, and
OD 0x3220:04 counts it. -/
def Obligations.MulticastWritesEveryDestination : Prop :=
  ∀ (s : State) (g ch : Nat) (v : Move), g < 384 → ch < 8 → s.m.powered = true → (s.m.core g).head ch = some v →
    v.wait = some .multicast → (s.m.job v.inst.job).state = 3 → (s.m.castSet v.inst).head? = some g →
    (∀ h ∈ s.m.castSet v.inst, ∃ w, (s.m.core h).head ch = some w ∧ w.inst.job = v.inst.job ∧ w.inst.index = v.inst.index ∧
      w.wait = some .multicast) →
    (∀ h ∈ s.m.castSet v.inst, ∃ d, s.m.castDst v.inst h = some d ∧ ∀ k ∈ d.2.slots, k ∉ (s.m.core h).mem.full) →
    Goes s (.multicastInstance g ch) (fun n =>
      (∀ h ∈ s.m.castSet v.inst, ∀ d, s.m.castDst v.inst h = some d →
        (∃ w, (n.core h).head ch = some w ∧ w.wait = none ∧ w.written = true ∧ w.cast = some (g, d.2.slots)) ∧
        ((s.m.core h).bypass = false → ∀ k ∈ d.2.slots, k ∈ (n.core h).mem.full) ∧
        (d.1.buf.space = 0 → d.1.buf.combine ≠ 2 → h < s.m.cores.length → ∀ before x after,
          d.2.units.flatMap MoveUnit.items = before ++ x :: after → x.nib = none →
          (∀ y ∈ after, x.dst + x.data.length ≤ y.dst ∨ y.dst + y.data.length ≤ x.dst) →
          ∀ k, k < x.data.length → (n.core h).mem.sp.get (x.dst + k) = x.data.getD k 0)) ∧
      n.odGet (odKey 0x3220 4) = (s.m.odGet (odKey 0x3220 4) + 1) % 2 ^ 64 ∧
      KeepsBut (.cores :: .clusters :: .jobs :: hbmReading) s.m n)

/-- R98, R171, R173, R186, R200, R339: when what a held core waited for has come (the tag, the shape word, the page of its
statistics memory fetched back, or the oldest page that its instruction does not use spilled), its instruction issues, or its first
core tile or its oldest gather commits, with its happenings first; of the pages that the next row instructions read the lowest in home
address arrives ahead of time; a movement whose tag, turn or page has come goes on from its saved position. -/
def Obligations.HeldInstructionsIssueAgain : Prop :=
  ∀ (s : State) (g : Nat) (ups : List Upset) (i : Inst) (m : Module), g < 384 → s.m.powered = true →
    (s.m.core g).live = true → (s.m.core g).fenceReq = none →
    (∀ cycles w, ¬s.m.lateTurn g → (s.m.core g).seq.wait = some w → w.isTag = true → Reissues s.fuse s.m g ups i m →
      ((m.issueAt s.fuse ups i).core g).seq.wait ≠ some w →
      Goes s (.tagWaitEnd g 8 cycles ups) (fun n => n = (m.issueAt s.fuse ups i).bump (odKey 0x4200 6) cycles)) ∧
    (∀ cycles p ps, (s.m.core g).gathers = p :: ps → s.m.lateTurn g → s.m.meet s.fuse p.inst ups = (m, true) →
      Goes s (.tagWaitEnd g 8 cycles ups) (fun n => n = (m.commitGather s.fuse g).bump (odKey 0x4200 6) cycles)) ∧
    (∀ cycles w t ts, ¬s.m.lateTurn g → (s.m.core g).seq.wait = some w → w.isTag = true → (s.m.core g).tiles = t :: ts →
      (s.m.onSeq g (fun q => { q with wait := none })).meet s.fuse t.inst ups = (m, true) →
      ((m.commitTile s.fuse ups g).core g).seq.wait ≠ some w →
      Goes s (.tagWaitEnd g 8 cycles ups) (fun n => n = (m.commitTile s.fuse ups g).bump (odKey 0x4200 6) cycles)) ∧
    (∀ cycles off, (s.m.core g).seq.wait = some (.shape off) →
      Reissues s.fuse (s.m.bump (odKey 0x3210 4) cycles) g ups i m →
      Goes s (.shapeWordArrival g cycles ups) (fun n => n = m.issueAt s.fuse ups i)) ∧
    (∀ j cycles set page, (s.m.core g).job = some j → (s.m.core g).seq.wait = some (.stat set page) →
      s.m.pageFits j g set page = true → s.m.fetchWaits g set page = true →
      Reissues s.fuse ((s.m.fetchPage s.fuse j g set page).bump (odKey 0x3160 4) cycles) g ups i m →
      Goes s (.statPageFetch g set page cycles ups) (fun n => n = m.issueAt s.fuse ups i)) ∧
    (∀ j cycles set page, (s.m.core g).job = some j →
      (s.m.core g).seq.wait ≠ some (.stat set page) ∨ s.m.fetchWaits g set page = false →
      s.m.pageFits j g set page = true → (s.m.job j).run.active = true → s.m.nextAhead g j = some (set, page) →
      Goes s (.statPageFetch g set page cycles ups) (fun n => n = s.m.fetchPage s.fuse j g set page)) ∧
    (∀ j p cycles, s.m.spillVictim g = some (j, p) → s.m.stoppedIn (s.m.pageHomes j p.set p.page) = none →
      Reissues s.fuse ((s.m.spillPage j g p.set p.page).bump (odKey 0x3160 4) cycles) g ups i m →
      Goes s (.statPageSpill ⟨g, cycles⟩ p.set p.page ups) (fun n => n = m.issueAt s.fuse ups i)) ∧
    (∀ ch v w cycles, ch < 8 → (s.m.core g).head ch = some v → v.wait = some w → w.isTag = true →
      Goes s (.tagWaitEnd g ch cycles ups) (fun n =>
        let x := ups.foldl (fun (m : Module) u => m.meetMemory s.fuse g u) s.m
        let y := if v.op = 5 then x.startCoil s.fuse g ch { v with wait := none } else x.runMove s.fuse g ch { v with wait := none }
        n = if w = .turn ∧ ((y.core g).head ch).bind Move.wait ≠ some .turn then y.bump (odKey 0x4200 6) cycles else y)) ∧
    (∀ ch v e p us, ch < 8 → (s.m.core g).head ch = some v → v.wait = some (.page e p) →
      s.m.pageHere v.inst.job e p = true →
      Goes s (.viewResume g ch us) (fun n => n = (s.m.bump (odKey 0x4220 5) us).runMove s.fuse g ch { v with wait := none }))

/-- R101, R203, R284: a wait that reaches the tag wait limit of its job ends the job with TIMEOUT, whether an engine, a
channel, a late gather, or the tackle of a stopped stack waits; where the job has no limit the wait goes on and nothing changes. -/
def Obligations.TagWaitLimitEndsTheJob : Prop :=
  ∀ (s : State) (g ch j held : Nat), s.m.powered = true → (s.m.job j).state = 3 →
    (∀ i w, g < 384 → (s.m.job j).tagLimit ≠ 0 →
      ((ch = 8 ∧ (s.m.core g).job = some j ∧ (s.m.core g).seq.wait = some w ∧ w ≠ .passEnd ∧ (∀ p, w ≠ .resume p) ∧
          s.m.instAt g j = some i) ∨
        (ch = 8 ∧ (s.m.core g).job.isSome = true ∧ (s.m.core g).seq.wait = none ∧
          ∃ p ps, (s.m.core g).gathers = p :: ps ∧ s.m.gatherWait p = some w ∧ p.inst = i ∧ i.job = j) ∨
        (ch < 8 ∧ ∃ v, (s.m.core g).head ch = some v ∧ v.wait = some w ∧ v.inst = i ∧ i.job = j)) →
      Goes s (.tagWaitLimit ⟨g, held⟩ ch) (fun n => (n.job j).state = 4 ∧ (n.job j).endStatus = stTimeout ∧ (n.job j).cores = [])) ∧
    (ch = 9 → g < 24 → j < 16 → (s.m.stack g).stopped = true → s.m.tackling j g = true → (s.m.job j).tagLimit ≠ 0 →
      Goes s (.tagWaitLimit ⟨g, held⟩ ch) (fun n => (n.job j).state = 4 ∧ (n.job j).endStatus = stTimeout ∧ (n.job j).cores = [])) ∧
    (∀ i w, g < 384 → (s.m.job j).tagLimit = 0 →
      ((ch = 8 ∧ (s.m.core g).job = some j ∧ (s.m.core g).seq.wait = some w ∧ s.m.instAt g j = some i) ∨
        (ch < 8 ∧ ∃ v, (s.m.core g).head ch = some v ∧ v.wait = some w ∧ v.inst = i ∧ i.job = j)) →
      Goes s (.tagWaitLimit ⟨g, held⟩ ch) (fun n => n = s.m))

/-! ### Barriers -/

/-- R198: a signal that becomes visible adds 1 to its sync counter, and no live core whose WAIT that satisfies waits for it
any longer. -/
def Obligations.SignalsAdvanceTheirCounter : Prop :=
  ∀ (s : State) (j ctr : Nat), j < 16 → ctr < 64 → s.m.powered = true → (s.m.job j).state = 3 →
    ctr ∈ (s.m.job j).run.signals → (s.m.job j).run.counters.length = 64 →
    Goes s (.signal j ctr) (fun n =>
      (n.job j).counter ctr = ((s.m.job j).counter ctr + 1) % 2 ^ 32 ∧
      (∀ c, c ≠ ctr → (n.job j).counter c = (s.m.job j).counter c) ∧
      (∀ g ∈ s.m.liveCores j, ∀ i, s.m.instAt g j = some i →
        s.m.shapeOf i (controlShape i.words) ≤ ((s.m.job j).counter ctr + 1) % 2 ^ 32 →
        (n.core g).seq.wait ≠ some (.counter ctr)) ∧
      OtherJobs j s.m n ∧ KeepsBut (.cores :: ending) s.m n)

/-- R172, R196, R381, R484: when every core of its set holds at a SWAP and nothing touches the buffer, its selector flips and
the cores go on; when every live core holds at a PASS_END with every write acknowledged, they go on; when they hold at a
resume point, the point is recorded as passed with the sync counters, and they go on. -/
def Obligations.BarriersReleaseTheirCores : Prop :=
  ∀ (s : State) (j : Nat), j < 16 → s.m.powered = true → (s.m.job j).state = 3 →
    (∀ g ∈ s.m.liveCores j, (s.m.instAt g j).isSome = true) →
    (∀ buf cluster cycles u, cluster ≤ 96 → s.m.swapSet j cluster ≠ [] → (s.m.job j).image.buffers[buf]? = some u →
      ((cluster = 96) ↔ u.space = 2) →
      (∀ g ∈ s.m.swapSet j cluster, (s.m.core g).seq.wait = some (.swap buf) ∧ s.m.busyOn g buf = false) →
      Goes s (.swapComplete j buf cluster cycles) (fun n =>
        (n.job j).run.sels.contains (buf, cluster) = !(s.m.job j).run.sels.contains (buf, cluster) ∧
        (∀ k, k ≠ (buf, cluster) → (n.job j).run.sels.contains k = (s.m.job j).run.sels.contains k) ∧
        (∀ g ∈ s.m.swapSet j cluster, (n.core g).seq.wait ≠ some (.swap buf)) ∧
        KeepsBut (.cores :: ending) s.m n)) ∧
    (s.m.liveCores j ≠ [] → (∀ g ∈ s.m.liveCores j, (s.m.core g).seq.wait = some .passEnd ∧ (s.m.core g).quiet = true) →
      ∀ cycles, Goes s (.passEndBarrier ⟨j, cycles⟩) (fun n =>
        (∀ g ∈ s.m.liveCores j, (n.core g).seq.wait ≠ some .passEnd) ∧ KeepsBut (.cores :: ending) s.m n)) ∧
    (∀ p, s.m.liveCores j ≠ [] → (s.m.job j).run.signals = [] →
      (∀ g ∈ s.m.liveCores j, (s.m.core g).seq.wait = some (.resume p) ∧ (s.m.core g).quiet = true) →
      Goes s (.resumePoint j) (fun n =>
        ((n.job j).run.mark.map ResumeMark.point) = some p ∧
        ((n.job j).run.mark.map ResumeMark.counters) = some (s.m.job j).run.counters ∧
        (∀ g ∈ s.m.liveCores j, (n.core g).seq.wait = none) ∧ KeepsBut [.cores, .jobs] s.m n))

/-! ### The queue, reset and power -/

/-- The model's step (notes/assumptions/1.md): the command at the front of the queue runs on the state with the queue's
rest, and with no command waiting the block idles. -/
def Obligations.StepTakesTheFront : Prop :=
  (∀ (s : State) (c : Instr) (rest : List Instr), s.pending = c :: rest → step s = exec c { s with pending := rest }) ∧
  (∀ s : State, s.pending = [] → step s = .next s)

/-- R23, R85, R105, R207, R321, R417, R439 as the model's reset has them (its choices: notes/assumptions/3.md and 4.md): no
command waits; the job contexts are FREE, the
queues DISABLED, no core is fenced, enabled or ready, no hawser port is up, no frame and no event has been sent; HBM,
scratchpad and cluster memory list nothing and carry no poison; and every dictionary value reads as its default. -/
def Obligations.ResetLeavesEveryUnitAtItsDefault : Prop :=
  State.reset.pending = [] ∧
  (State.reset.m.jobs.length = 16 ∧ ∀ b ∈ State.reset.m.jobs, b.state = 0) ∧
  (State.reset.m.host.queues.length = 16 ∧ ∀ q ∈ State.reset.m.host.queues, q.state = 0) ∧
  (State.reset.m.cores.length = 384 ∧ ∀ c ∈ State.reset.m.cores,
    c.fenced = false ∧ c.enabled = false ∧ c.ready = false ∧ c.mem.sp = [] ∧ c.mem.poison = [] ∧ c.mem.full = []) ∧
  (State.reset.m.clusters.length = 96 ∧ ∀ k ∈ State.reset.m.clusters, k.cm = [] ∧ k.poison = []) ∧
  (State.reset.m.hawsers.length = 16 ∧ ∀ h ∈ State.reset.m.hawsers, h.state = 0) ∧
  State.reset.m.hbm = [] ∧ State.reset.m.hbmPoison = [] ∧ State.reset.m.mgmt.frames = [] ∧
  ∀ k, State.reset.m.odGet k = odDefault k

/-- R16 to R18, R207, R353, R417: a command whose units exist answers a next state, with the fuses and the queue's rest as they
were; only a command that names a unit that does not exist faults, and none is refused. -/
def Obligations.WellFormedCommandsComplete : Prop :=
  ∀ (c : Instr) (s : State),
    (WellFormed c = true → ∃ t, exec c s = .next t ∧ t.fuse = s.fuse ∧ t.pending = s.pending) ∧
    (∀ f, exec c s = .fault f → f = .noSuchUnit ∧ WellFormed c = false) ∧ (∀ r, exec c s ≠ .refused r)

/-- Running the whole queue (the model's, notes/assumptions/1.md): where every waiting command names units that exist, as many steps as commands wait run them
all, first in, first out, to a state with an empty queue and the same fuses, and then the block idles. -/
def Obligations.TheQueueRunsOut : Prop :=
  ∀ s : State, QueueWf s →
    ∃ t, Sys2Proof.core.run s.pending.length s = .next t ∧ t.pending = [] ∧ t.fuse = s.fuse ∧
      (∀ k, Sys2Proof.core.run (s.pending.length + k) s = .next t) ∧
      (∀ c rest, s.pending = c :: rest → ∃ u, exec c { s with pending := rest } = .next u ∧ u.pending = rest ∧
        Sys2Proof.core.run rest.length u = .next t)

/-- Every step keeps the model's queue (notes/assumptions/1.md) one of commands whose units exist, shortens it by its front command, and leaves the fuses. -/
def Obligations.StepsKeepTheQueueWellFormed : Prop :=
  ∀ s t : State, QueueWf s → step s = .next t → QueueWf t ∧ t.pending = s.pending.tail ∧ t.fuse = s.fuse

/-- The model's queue (notes/assumptions/1.md) of the state after reset is one of commands whose units exist. -/
def Obligations.ResetQueueIsWellFormed : Prop := QueueWf State.reset

/-- R20, R515 to R519, R532: a module without power takes only what happens to its supply, its pins and its presence inputs:
every other command leaves the whole state as it is. -/
def Obligations.UnpoweredModulesTakeOnlyPower : Prop :=
  ∀ (c : Instr) (s : State), WellFormed c = true → s.m.powered = false →
    (∀ mv, c ≠ .powerApply mv) → (∀ a b d e, c ≠ .pwrgdAssert a b d e) → c ≠ .dictionaryReachable → c ≠ .powerLoss →
    c ≠ .holdupEnd → c ≠ .mrstNAssert → (∀ f, c ≠ .mrstGraceEnd f) → (∀ f, c ≠ .mrstNRelease f) → (∀ p, c ≠ .perstAssert p) →
    (∀ p, c ≠ .perstRelease p) → (∀ i p u, c ≠ .lsPresentNChange i p u) → exec c s = .next s

/-! ### Data -/

/-- R355: the decomposition of a module HBM address is one to one between the 1.5 TiB of addresses, in granules of 32 bytes,
and the granules of 24 stacks of 32 pseudo-channels of 32 banks of 65,536 rows; and in any 192 KiB from a multiple of
192 KiB each pseudo-channel of each stack holds one run of 256 bytes. The bytes of one stack, as the state region counts them
(R268), are numbered in ascending address. -/
def Obligations.HbmAddressesMapOneToOne : Prop :=
  (∀ a, a < 0x18000000000 → (hbmPlace a).stack < 24 ∧ (hbmPlace a).pc < 32 ∧ (hbmPlace a).bank < 32 ∧
    (hbmPlace a).row < 65536 ∧ (hbmPlace a).granule < 32 ∧ hbmAddr (hbmPlace a) = a / 32 * 32) ∧
  (∀ p : HbmPlace, p.stack < 24 → p.pc < 32 → p.bank < 32 → p.row < 65536 → p.granule < 32 →
    hbmPlace (hbmAddr p) = p ∧ hbmAddr p + 32 ≤ 0x18000000000) ∧
  (∀ w a st pc, st < 24 → pc < 32 → 196608 * w ≤ a → a < 196608 * w + 196608 →
    (((hbmPlace a).stack = st ∧ (hbmPlace a).pc = pc) ↔
      196608 * w + 4096 * (2 * st + pc / 16) + 256 * (pc % 16) ≤ a ∧
        a < 196608 * w + 4096 * (2 * st + pc / 16) + 256 * (pc % 16) + 256)) ∧
  (∀ p n k, p < 24 → n < k → (hbmPlace (stackByte p n)).stack = p ∧ stackBytes p (stackByte p n) = n ∧
    stackByte p n < stackByte p k)

/-- R9, R355, R371: a memory is what it reads: after any run of stores and clears it is in its canonical form, each address
reads as the last operation that covers it says and a range reads as its addresses do, and two memories that read alike
are the same data. -/
def Obligations.MemoriesAreWhatTheyRead : Prop :=
  (∀ (ops : List (Nat × List Byte × Nat)) (mem : Mem), mem.wf = true →
    let run := fun (l : List (Nat × List Byte × Nat)) => l.foldl (fun (x : Mem) o => (x.write o.1 o.2.1).clear (o.1 + o.2.1.length) o.2.2) mem
    (run ops).wf = true ∧
    (∀ x, (∀ o ∈ ops, x < o.1 ∨ o.1 + o.2.1.length + o.2.2 ≤ x) → (run ops).get x = mem.get x) ∧
    (∀ before after o x, ops = before ++ o :: after → (∀ p ∈ after, x < p.1 ∨ p.1 + p.2.1.length + p.2.2 ≤ x) →
      o.1 ≤ x → x < o.1 + o.2.1.length + o.2.2 →
      (run ops).get x = if x < o.1 + o.2.1.length then o.2.1.getD (x - o.1) 0 else 0)) ∧
  (∀ (mem : Mem) (a n : Nat), mem.wf = true → mem.read a n = (List.range n).map (fun i => mem.get (a + i))) ∧
  (∀ x y : Mem, x.wf = true → y.wf = true → (∀ a, x.get a = y.get a) → x = y)

/-- R226: the grid of a template lists every position below the run-time counts once, and no other. -/
def Obligations.GridsListEveryPositionOnce : Prop :=
  ∀ (t : Template) (counts : List Nat), t.l1.Perm [0, 1, 2, 3, 4] → t.l2.Perm [0, 1, 2, 3, 4] →
    (∀ pos : List Nat, pos ∈ (t.grid counts).map Prod.snd ↔ pos.length = 5 ∧ ∀ g, g < 5 → pos.getD g 0 < counts.getD g 0) ∧
    ((t.grid counts).map Prod.snd).Nodup

/-- R139, R228: at a step start block b of a template goes to the reel of the (b mod D)-th die that takes from it: the die reels
together hold every entry once, but for those that would write only weight-gradient tiles with a zero mask, each in ascending
order of its entries. -/
def Obligations.DieReelsDealEveryEntryOnce : Prop :=
  ∀ (m : Module) (j n : Nat) (t : Template), m.reelDies j t ≠ [] →
    let es := t.grid (m.reelCounts j t)
    let dies := m.reelDies j t
    (∀ e b pos, es[e]? = some (b, pos) →
      (m.entryEmpty j n t e pos = false → ∃ r ∈ m.dealReel j n t, e ∈ r.left ∧ r.tmpl = n ∧
        dies[b % dies.length]? = some r.die ∧ ∀ r' ∈ m.dealReel j n t, e ∈ r'.left → r' = r) ∧
      (m.entryEmpty j n t e pos = true → ∀ r ∈ m.dealReel j n t, e ∉ r.left)) ∧
    (∀ r ∈ m.dealReel j n t, r.left.Pairwise (· < ·) ∧ (∀ e ∈ r.left, e < es.length) ∧ r.die ∈ dies) ∧
    dies.Pairwise (· < ·) ∧ (m.dealReel j n t).map DieReel.die = dies

/-- R127: the resolution of index entry i against extent e under FAULT, WRAP and ZERO. -/
def Obligations.IndexEntriesResolve : Prop :=
  ∀ (policy e : Nat) (i : Int), policy < 3 →
    (0 ≤ i → i < e → resolveIndex policy e i = .row i.toNat) ∧ ((e : Int) ≤ i → resolveIndex policy e i = .bad) ∧
    (-(e : Int) ≤ i → i < 0 →
      resolveIndex policy e i = if policy = 0 then .bad else if policy = 1 then .row (i + e).toNat else .null) ∧
    (i < -(e : Int) → resolveIndex policy e i = if policy = 2 then .null else .bad) ∧
    (∀ r, resolveIndex policy e i = .row r → r < e)

/-- R47: a scale descriptor is 128 bytes, and reading them gives the descriptor back with every field at every value that its
bits admit. The step's count of saturations, which the model keeps in two parts, is read back as one, and the non-finite counts of the
step, the model's own, are no fields of it (log entry 28). -/
def Obligations.ScaleDescriptorsReadBack : Prop :=
  ∀ d : ScaleDesc, -128 ≤ d.expCur → d.expCur < 128 → -128 ≤ d.expInit → d.expInit < 128 → -8 ≤ d.margin → d.margin < 8 →
    d.histLenM1 < 64 → d.histHead < 64 → d.histCount < 128 → d.fmt < 16 → d.braidBias < 256 → d.satThreshold < 2 ^ 16 →
    d.stepSaturations + d.tackleSaturations < 2 ^ 32 → d.satTotal < 2 ^ 64 → d.nonfiniteTotal < 2 ^ 64 → d.cleanSteps < 2 ^ 16 →
    (∀ v, d.stepMaxExp = some v → -127 ≤ v ∧ v < 128) → d.hist.length = 64 → (∀ v, some v ∈ d.hist → -127 ≤ v ∧ v < 128) →
    d.bytes.length = 128 ∧
      readDesc d.bytes =
        { d with
          stepSaturations := d.stepSaturations + d.tackleSaturations, tackleSaturations := 0, stepNonfinite := 0,
          tackleNonfinite := 0 }

/-- R294: a hawser frame is 32 bytes of header and its payload, and reading those bytes gives the frame back with every field
at every value that its bits admit. -/
def Obligations.HawserFramesReadBack : Prop :=
  ∀ (f : Frame) (len64 : Nat), f.type < 64 → f.src < 256 → f.attempt < 256 → f.epoch < 2 ^ 32 → f.step < 2 ^ 32 →
    f.bucket < 2 ^ 16 → f.segment < 2 ^ 16 → f.maxExp < 256 → f.code < 256 → f.contrib < 512 → f.linkSeq < 2 ^ 32 →
    f.ackSeq < 2 ^ 32 → len64 < 66 → f.payload.length = 64 * len64 →
    f.bytes.length = 32 + 64 * len64 ∧ parseFrame f.bytes = some f

/-! ### Links, stacks, enables and fences -/

/-- R22, R25: a flit error adds a replay to its link; 16 consecutive failed replays retrain it; the retrain's failed lanes are
counted, and a direction left without a lane leaves the link dead, fences every core of the module, a core under test among them,
and ends every job with FENCED. -/
def Obligations.LinksReplayRetrainAndDie : Prop :=
  ∀ (s : State) (l : Nat), l < 114 → l < s.m.links.length → s.m.powered = true →
    (∀ again, Goes s (.flitCrcError l again) (fun n =>
      n.link l = { s.m.link l with replays := (s.m.link l).replays + 1, failedRun := if again then (s.m.link l).failedRun + 1 else 0 } ∧
      (∀ k, k ≠ l → n.link k = s.m.link k) ∧ KeepsBut [.links] s.m n)) ∧
    (16 ≤ (s.m.link l).failedRun → Goes s (.linkRetrain l) (fun n =>
      n.link l = { s.m.link l with retraining := true, failedRun := 0 } ∧ (∀ k, k ≠ l → n.link k = s.m.link k) ∧
      KeepsBut (.links :: reporting) s.m n)) ∧
    (∀ fwd bwd dead, (s.m.link l).retraining = true → Goes s (.linkRetrainComplete l fwd bwd dead) (fun n =>
      n.link l =
        { s.m.link l with
          retraining := false, lostFwd := (s.m.link l).lostFwd + fwd, lostBwd := (s.m.link l).lostBwd + bwd,
          dead := dead || (s.m.link l).dead } ∧
      (∀ k, k ≠ l → n.link k = s.m.link k) ∧
      (dead = false → KeepsBut (.links :: reporting) s.m n ∧ (fwd + bwd = 0 → KeepsBut [.links] s.m n)) ∧
      (dead = true → (∀ c ∈ n.cores, c.fenced = true ∧ c.origin = 1 ∧ c.testing = false) ∧
        (∀ j, j < 16 → (s.m.job j).state = 2 ∨ (s.m.job j).state = 3 →
          (n.job j).state = 4 ∧ (n.job j).endStatus = stFenced ∧ (n.job j).cores = []))))

/-- R363, R366, R369, R371, R372: a stack whose lane check passes becomes ready, its memory zero and without poison and every
other stack's as it was, and one that fails stays out; a row repair that ends takes its row off the list; a refresh writes
nothing; the scrubber goes on to its next granule and writes no other that has no error; and a temperature report sets the bursts that
the stack may have, stopping it from 110 degrees until 100, when what waited for its data goes on. -/
def Obligations.StacksServeAndRepair : Prop :=
  ∀ (s : State) (p : Nat), p < 24 → p < s.m.hbmStacks.length → s.m.powered = true →
    (∀ stage pc lanes tackle marks rows, (s.m.stack p).enabled = true → (s.m.stack p).ready = false →
      (s.m.stack p).failed = false → Goes s (.stackEnableComplete p stage pc lanes tackle marks rows) (fun n =>
        (stage ≠ 0 → (n.stack p).failed = true ∧ (n.stack p).ready = false ∧
          KeepsBut (.hbmStacks :: reporting) s.m n) ∧
        (stage = 0 → (n.stack p).ready = true ∧ (n.stack p).stopped = false ∧ (n.stack p).share = 64 ∧
          (∀ a, n.hbm.get a = if (hbmPlace a).stack = p then 0 else s.m.hbm.get a) ∧
          (∀ q, q ∈ n.hbmPoison ↔ q ∈ s.m.hbmPoison ∧ (hbmPlace (32 * q)).stack ≠ p) ∧
          KeepsBut (.hbmStacks :: .hbm :: .hbmPoison :: .calib :: reporting) s.m n))) ∧
    (∀ pc bank row reason, pc < 32 → bank < 32 → row < 65536 → reason < 8 →
      (s.m.stack p).repairing.find? (fun r => r / 8 == rowKey pc bank row) = some (8 * rowKey pc bank row + reason) →
      Goes s (.rowRepairComplete p pc bank row) (fun n =>
        (n.stack p).repairing = (s.m.stack p).repairing.filter (fun x => x / 8 != rowKey pc bank row) ∧
        n.odGet (odKey 0x4020 7) = (s.m.odGet (odKey 0x4020 7) + 1) % 2 ^ 64 ∧ KeepsBut hbmReading s.m n)) ∧
    (∀ pc, pc < 32 → (s.m.stack p).ready = true → Goes s (.dramRefresh p pc) (fun n =>
      n.stack p = { s.m.stack p with refreshes := (s.m.stack p).refreshes + 1 } ∧ KeepsBut [.hbmStacks] s.m n)) ∧
    (∀ symbols, (s.m.stack p).ready = true → (s.m.stack p).stopped = false → Goes s (.patrolScrub p symbols) (fun n =>
        (n.stack p).scrubAt = ((s.m.stack p).scrubAt + 1) % 2 ^ 31 ∧
        (∀ a, a / 32 ≠ scrubAddr p (s.m.stack p).scrubAt / 32 → (∀ b ∈ s.m.bursts, b.granule ≠ a / 32) →
          n.hbm.get a = s.m.hbm.get a) ∧
        KeepsBut hbmReading s.m n)) ∧
    (∀ c : Int, (s.m.stack p).ready = true → Goes s (.stackTemperatureReport p c) (fun n => ∃ x : Module,
      (x.stack p).temp = c ∧ ((x.stack p).stopped = true ↔ 110 ≤ c ∨ ((s.m.stack p).stopped = true ∧ 100 < c)) ∧
      ((x.stack p).warm = true ↔ 95 ≤ c) ∧ ((x.stack p).hot = true ↔ 105 ≤ c) ∧
      ((x.stack p).stopped = true → (x.stack p).share = 0) ∧
      ((x.stack p).stopped = false → (c < 95 → (x.stack p).share = 64) ∧
        (95 ≤ c → c < 105 → ((x.stack p).share : Int) = 64 * (115 - c) / 20) ∧ (105 ≤ c → (x.stack p).share = 32)) ∧
      x.odGet (odKey 0x4030 3) =
        (if (s.m.stack p).share < 64 then (s.m.odGet (odKey 0x4030 3) + 1000) % 2 ^ 64 else s.m.odGet (odKey 0x4030 3)) ∧
      KeepsBut (.hbmStacks :: reporting) s.m x ∧
      n = if (s.m.stack p).stopped = true ∧ (x.stack p).stopped = false then x.resumeData s.fuse else x))

/-- R26, R27, R87, R100, R113, R121, R454, R515: a die that passes its enable is ready at 1.05 GHz, an edge die with its lit ports
in training, and one that fails has its eight cores fenced with origin hardware; a failed router fences every core. A core that
passes its enable tests is ready where core_enable enables it, unfenced, checking tags and with its scratchpad empty and under the
flagging threshold in force; one that fails is fenced with origin hardware; the mirror follows. -/
def Obligations.EnablesEndReadyOrFenced : Prop :=
  ∀ (s : State), s.m.powered = true → s.m.cores.length = 384 → s.m.dies.length = 52 →
    (∀ d stage router, d < 52 → (s.m.die d).enabled = true → (s.m.die d).ended = false →
      Goes s (.dieEnableComplete d stage router) (fun n =>
        let st := dieStage s.fuse d stage
        n.die d =
          { s.m.die d with
            ended := true, ready := decide (st = 0), answering := decide (st = 0), failStage := st, routerFailed := router,
            point := 4 } ∧
        (st = 0 → router = false → KeepsBut [.dies, .hawsers, .calib] s.m n ∧ (d < 48 → KeepsBut [.dies, .calib] s.m n) ∧
          ∀ k, k / 4 + 48 = d → k < s.m.hawsers.length → (s.m.hawser k).state = 0 →
            (n.hawser k).state = if bitAt (s.m.odGet (odKey 0x5220 1)) k then 1 else 0) ∧
        (st ≠ 0 → d < 48 → router = false → ∀ i, i < 8 →
          (n.core (8 * d + i)).fenced = true ∧ (n.core (8 * d + i)).origin = 1 ∧ (n.core (8 * d + i)).ready = false) ∧
        (router = true → ∀ c ∈ n.cores, c.fenced = true ∧ c.origin = 1))) ∧
    (∀ g fail march, g < 384 →
      ((s.m.core g).enabled = true ∧ (s.m.core g).ready = false ∧ (s.m.core g).fenced = false) ∨ (s.m.core g).testing = true →
      Goes s (.coreEnableComplete g fail march) (fun n =>
        (s.m.enablePasses fail = true → (n.core g).ready = (s.m.core g).enabled ∧ (n.core g).fenced = false ∧
          (n.core g).bypass = false ∧ (n.core g).mem.threshold = s.m.odGet (odKey 0x4200 7) ∧ (n.core g).mem.sp = [] ∧ (n.core g).mem.full = [] ∧ (n.core g).mem.poison = [] ∧
          (n.core g).weights = { shadow := [], working := [] } ∧ (n.core g).accums = [] ∧ (n.core g).undefNo = s.m.freeNo) ∧
        (s.m.enablePasses fail = false → (n.core g).ready = false ∧ (n.core g).fenced = true ∧ (n.core g).origin = 1) ∧
        bitAt n.mgmt.mirror g = (n.core g).fenced))

/-- R22, R23, R74, R211, R234, R453: a fence register that is set, the oldest report of its cluster first, takes its core out of its
job with nothing in flight; the slots of multicasts that it issued are not FULL, and the data of its other FULL slots, and all of it
where no core tile, gather or own multicast was under way, stands; the job ends with FENCED where its live cores
fall below cores_min or a role that it uses is left without one; and Capstan's mirror follows the registers. -/
def Obligations.FencesTakeTheirCores : Prop :=
  ∀ (s : State), s.m.powered = true →
    (∀ g, g < 384 → s.m.reportFirst g = true → g < s.m.cores.length →
      Goes s (.fenceRegisterSet g) (fun n =>
        (n.core g).fenced = true ∧ (n.core g).origin = 1 ∧ (n.core g).fenceReq = none ∧ (n.core g).job = none ∧
        (∀ ch ∈ (n.core g).channels, ch = []) ∧ (n.core g).tiles = [] ∧ (n.core g).gathers = [] ∧
        (n.core g).mem =
          { (s.m.core g).mem with
            sp := (n.core g).mem.sp, full := (s.m.core g).mem.full.filter (fun k => !((s.m.core g).ownCasts g).contains k) } ∧
        (∀ a, a / 4096 ∉ (s.m.core g).ownCasts g →
          a / 4096 ∈ (s.m.core g).mem.full ∨ ((s.m.core g).tiles = [] ∧ (s.m.core g).gathers = []) →
          (n.core g).mem.sp.get a = (s.m.core g).mem.sp.get a) ∧ n.hbm = s.m.hbm ∧
        (∀ j, (s.m.core g).job = some j → g ∉ (n.job j).cores ∧
          ((s.m.job j).state = 2 ∨ (s.m.job j).state = 3 →
            ((s.m.liveCores j).filter (· ≠ g)).length < (s.m.job j).image.coresMin ∨
              (∃ r ∈ (s.m.job j).image.roleMap, r ≠ 0xFF ∧
                ∀ h ∈ (s.m.liveCores j).filter (· ≠ g), (s.m.job j).image.roleMap.getD (h % 8) 0xFF ≠ r) →
            (n.job j).state = 4 ∧ (n.job j).endStatus = stFenced)))) ∧
    (∀ late, s.m.mgmt.capstanUp = true → Goes s (.fenceMirrorRefresh late) (fun n =>
      n.mgmt.mirror = wordOf (fun g => (s.m.core g).fenced) 0 384 ∧ KeepsBut (.mgmt :: reporting) s.m n))

/-! ### Steps and replays -/

/-- R103, R211, R239, R256, R468: a step that was asked for starts on a LOADED job: the values bound since the last boundary and the
variants take effect, with the wait for a STAGE in progress counted, the first attempt of a new epoch has no counter, no resume
point and no bucket of an earlier one, its reels are dealt, and every live core of the job starts at instruction 0 with every tag
EMPTY and its data as they stood, with nothing in flight; no other job and no other core changes. -/
def Obligations.StepsStartFresh : Prop :=
  ∀ (s : State) (j stageUs : Nat), j < 16 → s.m.powered = true →
    let m := (s.m.settle s.fuse).countStageWait j stageUs
    let y := ((m.beginStep j).hbmReads s.fuse j ((((m.beginStep j).job j).prog.adapters.map ((m.beginStep j).tableRanges j)).getD [])).openStep j
    (m.job j).state = 2 → (m.job j).run.stepAsked = true →
    ((m.beginStep j).job j).prog.adapters.bind ((m.beginStep j).tableBad j) = none →
    Goes s (.stepStart ⟨j, stageUs⟩) (fun n => ∃ x : Module, n = (if x.inRope j then x.judgeBonds s.fuse else x) ∧
      (x.job j).state = 3 ∧ (x.job j).step = (m.job j).step ∧
      (x.job j).bounds = (m.job j).bounds.map (fun v => { v with value := v.next }) ∧
      (x.job j).slots = (m.job j).slots.map Slot.turnOver ∧
      (x.job j).run = { m.firstRun j with reels := y.dealReels j, slices := y.emptySlices j } ∧
      (∀ g ∈ m.liveCores j, x.core g =
        { (m.core g).restartAt [] false with
            seq := { pc := 0, loops := [], takes := [], done := false,
                     wait := ((x.job j).resumeAt ((m.job j).image.roleMap.getD (g % 8) 0xFF) 0).map Wait.resume } }) ∧
      (∀ g, g ∉ m.liveCores j → x.core g = m.core g) ∧ OtherJobs j m x ∧
      KeepsBut ([.cores, .jobs, .dies, .power, .rope] ++ hbmReading) m x)

/-- R103, R310, R311, R342, R481, R482, R485: a failed attempt is replayed on the SCHEDULE streams from instruction 0, under a new
attempt number and a new epoch, with its counters at zero, every core's tags EMPTY, no statistics page, and the contents of its FULL
slots as they stood; a replayed attempt that a fence broke goes on in its epoch at its latest passed resume point, with the counters
and the tags saved there and its statistics pages. The step count stays. -/
def Obligations.FailedAttemptsAreReplayed : Prop :=
  ∀ (s : State) (j st : Nat), j < 16 → s.m.powered = true → (s.m.job j).state = 3 → (s.m.job j).run.mustReplay = some st →
    let r := (s.m.job j).run
    let starts := fun (n : Module) (at_ : Nat → Nat) (full : Nat → List Nat) (pages : Nat → List StatPage) => ∀ g ∈ n.liveCores j,
      (n.core g).seq.pc = at_ ((s.m.job j).image.roleMap.getD (g % 8) 0xFF) ∧ (n.core g).seq.loops = [] ∧
      (n.core g).seq.takes = [] ∧ (n.core g).seq.done = false ∧ (n.core g).tiles = [] ∧ (n.core g).gathers = [] ∧
      (∀ ch ∈ (n.core g).channels, ch = []) ∧ (n.core g).mem.pages = pages g ∧
      (∀ a, a / 4096 ∈ (s.m.core g).mem.full → (n.core g).mem.sp.get a = (s.m.core g).mem.sp.get a) ∧
      (n.core g).mem.full = full g
    (st ≠ stCancelled → r.resumes = false → Goes s (.replayStart j) (fun n =>
      let q := (n.job j).run
      (n.job j).state = 3 ∧ (n.job j).step = (s.m.job j).step ∧ q.attempt = r.attempt + 1 ∧
      q.ropeAttempt = r.ropeAttempt + (if s.m.inRope j && s.m.rank != 0 then 0 else 1) ∧ q.replay = true ∧ q.mustReplay = none ∧
      q.counters = List.replicate 64 0 ∧ q.signals = [] ∧ q.mark = none ∧ q.epoch = (r.epoch + 1) % 65536 ∧
      n.liveCores j = s.m.liveCores j ∧ starts n (fun _ => 0) (fun _ => []) (fun _ => []) ∧ OtherJobs j s.m n ∧
      KeepsBut [.cores, .jobs, .hbm, .hbmPoison, .rope, .hawsers, .queues, .od, .log, .report] s.m n)) ∧
    (r.resumes = true → Goes s (.replayResume j) (fun n =>
      let q := (n.job j).run
      (n.job j).state = 3 ∧ (n.job j).step = (s.m.job j).step ∧ q.attempt = r.attempt ∧ q.mustReplay = none ∧
      q.counters = (r.mark.map ResumeMark.counters).getD (List.replicate 64 0) ∧ q.signals = [] ∧ q.mark = r.mark ∧
      q.epoch = r.epoch ∧ n.liveCores j = s.m.liveCores j ∧
      starts n (fun role => (s.m.job j).resumePoints.getD role 0) (fun g => (r.tags.lookup g).getD [])
        (fun g => (s.m.core g).mem.pages) ∧
      OtherJobs j s.m n ∧ KeepsBut [.cores, .jobs, .queues, .od, .log, .report] s.m n))

/-- R49, R203, R240, R242, R487: where every core is done and quiet, every slice summed, every bucket handled and every
finalisation ended, the step commits: the step count advances, every half bit that the step wrote flips, each descriptor takes
its step's maximum, the set step counts of ACTIVE slots advance, and every core is idle at instruction 0; nothing is written to HBM,
where only a codeword with errors can read otherwise, and no other job changes. An acceptance test that differs commits nothing. -/
def Obligations.StepsCommitAsAWhole : Prop :=
  ∀ (s : State) (j us : Nat), j < 16 → s.m.powered = true → s.m.canCommitStep j = true →
    let b := s.m.job j
    let sound := fun (n : Module) => ∀ a, (∀ x ∈ s.m.bursts, x.granule ≠ a / 32) → n.hbm.get a = s.m.hbm.get a
    (s.m.acceptFails j = none → Goes s (.stepCommit j us) (fun n =>
      (n.job j).state = 2 ∧ (n.job j).step = (b.step + 1) % 2 ^ 32 ∧ (n.job j).halfBits = b.flipHalves ∧
      (n.job j).run = b.run.idle ∧ (s.m.inRope j = true → (n.job j).expTab = b.commitExps) ∧
      (n.job j).slots = b.slots.map (fun v => if v.state = 2 then { v with setSteps := v.setSteps + 1 } else v) ∧
      (∀ (i : Nat) (d : ScaleDesc), b.descs[i]? = some d → d.fmt ≠ 0xB →
        (n.job j).descs[i]? = some (d.commit d.stepMaxExp).1) ∧
      (∀ g ∈ s.m.liveCores j, n.core g = (s.m.core g).stop 0) ∧ sound n ∧ OtherJobs j s.m n ∧
      KeepsBut boundaryParts s.m n)) ∧
    (∀ e, s.m.acceptFails j = some e → Goes s (.stepCommit j us) (fun n =>
      (n.job j).state = 2 ∧ (n.job j).step = b.step ∧ (n.job j).halfBits = b.halfBits ∧ (n.job j).slots = b.slots ∧
      (n.job j).expTab = b.expTab ∧ (n.job j).run = b.run.idle ∧ sound n ∧ OtherJobs j s.m n ∧
      KeepsBut boundaryParts s.m n))

/-- R285, R399, R400: a state snapshot whose write finishes is an object of the SNAPSHOT partition under the name of its job
and step, with the captured bytes and their SHA-512; one whose write fails leaves every object, both earlier snapshots among them, as
it was. Either way its write is no longer in progress. -/
def Obligations.SnapshotsAreKeptOrNot : Prop :=
  ∀ (s : State) (j step : Nat) (bs : List Byte), j < 16 → s.m.powered = true → (s.m.job j).pendingSnap = some (step, bs) →
    let closed := s.m.store.writing.filter (· != (3, moduleId 0 j step))
    ((s.m.closeSnap (moduleId 0 j step)).writeRefused 3 (moduleId 0 j step) bs.length = stOk → Goes s (.stateSnapshotComplete j true) (fun n =>
      n.job j = { s.m.job j with pendingSnap := none } ∧
      (∃ o ∈ n.store.objs, o.part = 3 ∧ o.id = moduleId 0 j step ∧ o.len = bs.length ∧ o.sha = sha512 bs ∧ o.data = Mem.cells 0 bs) ∧
      (∀ o ∈ n.store.objs, o.part ≠ 3 → ∃ p ∈ s.m.store.objs, o = { p with place := o.place }) ∧ n.store.writing = closed ∧
      OtherJobs j s.m n ∧ KeepsBut [.jobs, .store, .od, .log, .report] s.m n)) ∧
    Goes s (.stateSnapshotComplete j false) (fun n =>
      n.job j = { s.m.job j with pendingSnap := none } ∧ n.store = { s.m.store with writing := closed } ∧ OtherJobs j s.m n ∧
      KeepsBut [.jobs, .store, .od, .log, .report] s.m n)

/-! ### Training and the rope -/

/-- R51, R52, R247, R267 to R280, R284: a weight-gradient slice leaves the queue of released slices; in a rope of size 1 its
tackles read and update every element that they may write, in the work half and nowhere else, an element under its group's rule and
with its own random value; in a rope an element joins its bucket. -/
def Obligations.SlicesReachTheirTackles : Prop :=
  ∀ (s : State) (j : Nat) (x : Slice) (rest : List Slice), j < 16 → s.m.powered = true → (s.m.job j).state = 3 →
    (s.m.job j).run.mustReplay = none → (s.m.job j).run.slices = x :: rest →
    let b := s.m.job j
    let gs := b.sliceGrads x
    (s.m.inRope j = false → s.m.tackleWaits j gs = false → s.m.poisonedGrad j gs = none →
      let m := s.m.hbmReads s.fuse j (s.m.gradRanges j gs)
      Goes s (.weightGradientSlice j [] []) (fun n =>
        (n.job j).run.slices = rest ∧ OnlyGrads m n j gs ∧ AllHandled m n j gs ∧ OtherJobs j m n ∧
        (∀ g c, gs = [g] → b.writes g.t g.e = true → g.carries = true → gradConsts b g = some c → GradApart b g →
          let st := m.stateCodes j g.t g.e
          (n.hbm.get (gradAddr b g)).toNat + 256 * (n.hbm.get (gradAddr b g + 1)).toNat =
            (roundWeight (m.rule j g c (fmtBF16.decode (m.weightCode j g.t g.e)) (fmtBF16.decode st.1) (fmtBF16.decode st.2)).w
              (weightRandom b.seed b.step (b.elemAddr g.t g.e))).code % 2 ^ 16) ∧
        KeepsBut [.jobs, .hbm, .hbmPoison, .od, .log, .report] m n)) ∧
    (s.m.inRope j = true → s.m.sliceWaits j x.tensor (x.elems.map Prod.fst) = false →
      ∀ e c p poisoned differ, x.elems = [(e, c)] →
      b.segPlace x.tensor (e / 4096) = some p → b.prog.reduce.isSome = true → p.1 < b.run.buckets.length →
      (b.bucket p.1).state = 0 → (b.bucket p.1).elems.lookup (4096 * p.2 + e % 4096) = none →
      Goes s (.weightGradientSlice j poisoned differ) (fun n =>
        (n.job j).run.slices = rest ∧
        ((n.job j).bucket p.1).elems = (b.bucket p.1).elems ++ [(4096 * p.2 + e % 4096, c)] ∧ OtherJobs j s.m n ∧
        KeepsBut [.jobs, .hbm, .hbmPoison, .od] s.m n))

/-- R277, R280, R303, R306: at rank 0 a bucket whose trailers and comparisons agree is applied once by the tackles, in the work
half and nowhere else, and is then free; a FACTORED tensor whose elements have all been handled gets its new row and column
factors and their mean. -/
def Obligations.BucketsAndFactorsAreApplied : Prop :=
  ∀ (s : State) (j : Nat), j < 16 → s.m.powered = true → (s.m.job j).state = 3 → (s.m.job j).run.mustReplay = none →
    let b := s.m.job j
    (∀ (k : Nat) (t : Trailer) (r : Reduce), s.m.inRope j = true → s.m.rank = 0 → (b.bucket k).state = 3 → s.m.trailer k 2 = some t →
      b.prog.reduce = some r → t.mismatch = false →
      let gs := s.m.bucketGrads k
      s.m.tackleWaits j gs = false → s.m.poisonedGrad j gs = none →
      (∀ g ∈ gs, s.m.poisonAt j 0 2 (r.stagedAt k g) 1 = false) →
      let m := s.m.hbmReads s.fuse j (gs.map (fun g => (b.hbmBase + r.stagedAt k g, 1)) ++ s.m.gradRanges j gs)
      Goes s (.bucketApply j k []) (fun n =>
        ((n.job j).bucket k).state = 4 ∧ OnlyGrads m n j gs ∧ AllHandled m n j gs ∧ OtherJobs j m n ∧
        KeepsBut [.jobs, .hbm, .hbmPoison, .rope, .hawsers, .od, .log, .report] m n)) ∧
    (∀ (t : Nat) (f : Factored) (g : Group) (x : Tensor), b.factoredOf t = some f →
      b.image.tensors[t]? = some x → b.image.groups[x.group]? = some g →
      f.finished = false → b.allApplied t = true → s.m.facWaits j t = false → s.m.finalPoison j t = none →
      let rows := (b.facDims t).1
      let cols := (b.facDims t).2
      let c := g.consts (b.step + 1)
      let fac := fun (k : Nat) => ofF32 (s.m.facCode j t (b.facHalf t) k)
      let rs := (newFactors c rows cols (s.m.acc j t) fac).1
      let cs := (newFactors c cols rows (fun i => s.m.acc j t (rows + i)) (fun i => fac (rows + i))).1
      let y := (s.m.hbmReads s.fuse j (s.m.finalRanges j t)).putFactors j t (rs ++ cs ++ [(factorMean rows rs).1])
      Goes s (.factoredFinalisation j t) (fun n =>
        n.hbm = y.hbm ∧ (n.job j).opt = (y.job j).opt ∧ (n.job j).factoredOf t = some { f with finished := true } ∧
        OtherJobs j s.m n ∧ KeepsBut (.jobs :: hbmReading) s.m n))

/-! ### Experts -/

/-- R327, R329: the dispatch rule. Over an index row whose build ends, an expert's list holds as many pairs as were routed to
it, but no more than cap; every pair placed names its expert; the lists ascend by q; and every routed pair is placed or
dropped. The build ends without lists only where an index is not below span. -/
def Obligations.DispatchFollowsItsRule : Prop :=
  ∀ (span cap : Nat) (vals : List Int),
    (∀ d, dispatchFrom span cap 0 vals { placed := [], routed := [], dropped := 0, firstFull := none } = some d →
      (∀ e, d.count e = min cap (vals.countP (fun v => decide (v = (e : Int))))) ∧
      (∀ x ∈ d.placed, vals[x.2]? = some (x.1 : Int) ∧ x.1 < span) ∧ d.placed.Pairwise (fun x y => x.2 < y.2) ∧
      d.placed.length + d.dropped = vals.countP (fun v => decide (0 ≤ v))) ∧
    (dispatchFrom span cap 0 vals { placed := [], routed := [], dropped := 0, firstFull := none } = none ↔
      ∃ v ∈ vals, (span : Int) ≤ v)

/-- R327, R328, R336, R337, R341: a build whose router has reached its target stores its dispatch area, counts itself once in
this attempt, signals its counter and requests the experts of its lists. A fetch that has not started takes a free run of
frames, after one eviction where there is none; a page that arrives stands in its frame byte for byte, its last page leaving
the expert RESIDENT. -/
def Obligations.ExpertsComeAndGo : Prop :=
  ∀ (s : State) (j : Nat) (x : Experts), j < 16 → s.m.powered = true → (s.m.job j).prog.experts = some x →
    let fetching := fun (f : Fetch) (r : Nat) => ({ expert := f.expert, job := j, state := 1, pinned := f.pin, poisoned := false,
                                                    frame := r, present := 0, lastUse := s.m.readStamp j f.expert } : Residency)
    let started := modifyAt (fun (f : Fetch) => { f with started := true }) (s.m.job j).fetches 0
    (∀ (k : Nat) (r : Router) (t rows : Nat) (idx gate : Operand) (d : Dispatch), x.routers[k]? = some r →
      (s.m.job j).state = 3 → (s.m.job j).run.active = true → (s.m.job j).run.mustReplay = none →
      k ∉ (s.m.job j).run.dispatched → s.m.shape j 0 r.startTarget = .val t → t ≤ (s.m.job j).counter r.startCtr →
      t ≤ r.startTarget.plan → s.m.shape j 0 r.rows = .val rows → rows ≤ r.rows.plan →
      s.m.bufOperand j r.idxBuf = some idx → s.m.bufOperand j r.gateBuf = some gate →
      s.m.stoppedIn (s.m.routerShapes j r ++ s.m.routerRanges idx (r.kM1 + 1) rows ++ s.m.routerRanges gate (r.kM1 + 1) rows ++
        [((s.m.job j).hbmBase + r.dispatchBase, r.areaBytes (gate.fmt.bits / 8))]) = none →
      let y := (((s.m.routerShapes j r).foldl (fun (m : Module) x => m.request s.fuse j x.1 x.2) s.m).routerReads s.fuse idx
        (r.kM1 + 1) rows).routerReads s.fuse gate (r.kM1 + 1) rows
      (∀ q, q < rows * (r.kM1 + 1) → y.getPoison idx (pairIndex (r.kM1 + 1) q) = false ∧
        y.getPoison gate (pairIndex (r.kM1 + 1) q) = false) →
      dispatchFrom r.span r.cap 0 ((List.range (rows * (r.kM1 + 1))).map (fun q =>
        if idx.inExtent (pairIndex (r.kM1 + 1) q) then signed 32 (y.codeAt idx (idx.elemOff (pairIndex (r.kM1 + 1) q))) else -1))
        { placed := [], routed := [], dropped := 0, firstFull := none } = some d →
      Goes s (.dispatchBuild j k) (fun n =>
        n.hbm = (d.area r.span (r.kM1 + 1) r.rows.plan (gate.fmt.bits / 8)
            (fun q => y.codeAt gate (gate.elemOff (pairIndex (r.kM1 + 1) q)))).foldl
          (fun (h : Mem) p => h.write ((s.m.job j).hbmBase + (r.dispatchBase + p.1)) p.2) y.hbm ∧
        (n.job j).run = { (s.m.job j).run with
          dispatched := (s.m.job j).run.dispatched ++ [k], signals := (s.m.job j).run.signals ++ [r.doneCtr],
          overfull := if d.dropped = 0 ∨ k ∈ (s.m.job j).run.overfull then (s.m.job j).run.overfull
            else (s.m.job j).run.overfull ++ [k] } ∧
        (∀ e, e < r.span → 0 < d.count e →
          (s.m.residentOf j (r.expertBase + e)).isSome = true ∨ ∃ f ∈ (n.job j).fetches, f.expert = r.expertBase + e) ∧
        OtherJobs j s.m n ∧ KeepsBut [.hbm, .hbmPoison, .jobs, .od, .log, .report] y n)) ∧
    (∀ (f : Fetch) (fs : List Fetch), (s.m.job j).fetches = f :: fs → f.started = false → s.m.storeReads = true →
      (∀ r e, s.m.freeRun j x = some r →
        leastBy id (((s.m.entriesOf j).filter (fun r => r.2.state == 0)).map Prod.fst) = some e →
        Goes s (.expertFetch j) (fun n =>
          n.residency = s.m.residency.map (fun y => if y.1 = e then (y.1, fetching f r) else y) ∧
          (n.job j).fetches = started ∧ OtherJobs j s.m n ∧ KeepsBut [.residency, .jobs] s.m n)) ∧
      (∀ v, s.m.freeRun j x = none → s.m.victim j = some v →
        let y := (s.m.onEntry v Residency.free).bump (odKey 0x4220 3) 1
        (y.freeRun j x = none → Goes s (.expertFetch j) (fun n => n = y)) ∧
        (∀ r e, y.freeRun j x = some r → leastBy id (((y.entriesOf j).filter (fun r => r.2.state == 0)).map Prod.fst) = some e →
          Goes s (.expertFetch j) (fun n =>
            n.residency = y.residency.map (fun z => if z.1 = e then (z.1, fetching f r) else z) ∧
            (n.job j).fetches = started ∧ OtherJobs j s.m n ∧ KeepsBut [.residency, .jobs, .od] s.m n)))) ∧
    (∀ (expert page e : Nat) (r : Residency) (o : Obj),
      (s.m.entriesOf j).find? (fun r => r.2.state == 1 && r.2.expert == expert) = some (e, r) → s.m.residency.lookup e = some r →
      r.present = 2 ^ page - 1 → page < x.pageCount → s.m.storeReads = true → s.m.store.find 1 x.storeId = some o →
      s.m.stoppedIn [((s.m.job j).hbmBase + x.poolBase + extentBytes * (r.frame + page), extentBytes)] = none →
      Goes s (.expertPagePresent j expert page []) (fun n =>
        let src := extentBytes * (x.pageCount * r.expert + page)
        let dst := (s.m.job j).hbmBase + x.poolBase + extentBytes * (r.frame + page)
        (∀ a, a < extentBytes → n.hbm.get (dst + a) = o.data.get (src + a)) ∧
        (∀ a, a < dst ∨ dst + extentBytes ≤ a → n.hbm.get a = s.m.hbm.get a) ∧
        n.residency.lookup e = some { r with
          present := r.present + 2 ^ page, poisoned := r.poisoned || o.pageBad (x.pageCount * expert + page),
          state := if page + 1 = x.pageCount then 2 else 1 } ∧
        (∀ k, k ≠ e → n.residency.lookup k = s.m.residency.lookup k) ∧ SameObjects s.m n ∧
        (s.m.store.servesFailed = false → n.store = s.m.store) ∧
        KeepsBut [.hbm, .hbmPoison, .residency, .jobs, .queues, .store, .od, .log, .report] s.m n))

/-! ### The rope -/

/-- R57, R280, R301, R302, R304, R320: a segment whose inputs are present is summed once, its inputs used up, and its sum goes
up the tree, or at rank 0 into the bucket and its staging slot; a comparison that ends counts, and a difference raises its
event; a node's trailer carries the mismatch of its own comparisons or of a child; a NONFINITE code at any input is
NONFINITE in the sum; and a rank that holds all resync data commits it, or at rank 0 has sent it, and is READY. -/
def Obligations.SumsGoUpTheTree : Prop :=
  (∀ (ol orr o l r c : Nat), l = 0x80 ∨ r = 0x80 ∨ c = 0x80 → addCodes ol orr o l r c = 0x80) ∧
  (∀ (s : State), s.m.powered = true →
    let m := s.m
    let j := m.ropeJob
    let b := m.job j
    (∀ k sg, m.inRope j = true → b.state = 3 → b.run.mustReplay = none → m.nextBucket = some k → (m.sumsOf k).length = sg →
      m.inputReady k sg 0 = true → m.inputReady k sg 1 = true → Goes s (.segmentSum k sg) (fun n => ∃ x y : Module,
        x.rope = { m.rope with
          inputs := m.rope.inputs.filter (fun y => !(y.step == b.step && y.bucket == k && y.seg == sg)),
          sums := m.rope.sums ++ [{ bucket := k, seg := sg, codes := (m.sumSegment k sg).1, maxExp := (m.sumSegment k sg).2,
                                    sampled := m.sampled k sg, compared := false, bad := false }] } ∧
        KeepsBut [.rope, .jobs] m x ∧
        (m.rank = 0 → y = x.keepSum k sg (m.sumSegment k sg).1) ∧
        (m.rank ≠ 0 → KeepsBut [.hawsers] x y ∧
          y = x.sendBond 0 { m.frameBase 3 with bucket := k, segment := sg, maxExp := byteI8 (m.sumSegment k sg).2,
                                                contrib := contributors m.ropeSize m.rank,
                                                payload := (m.sumSegment k sg).1.flatMap (leBytes 1) }) ∧
        (sg + 1 < m.segCount k → n = y) ∧
        (m.segCount k ≤ sg + 1 → m.rank = 0 → n = (y.onBucket j k (fun v => { v with state := 3 })).tryTrailer s.fuse k) ∧
        (m.segCount k ≤ sg + 1 → m.rank ≠ 0 →
          n = ((y.onBucket j k (fun v => { v with state := 2 })).bump (odKey 0x5210 6) 1).tryTrailer s.fuse k))) ∧
    (∀ k sg bad, (∃ x ∈ m.rope.sums, x.bucket = k ∧ x.seg = sg ∧ x.sampled = true ∧ x.compared = false) →
      Goes s (.sampleComparison k sg bad) (fun n => ∃ x y : Module,
        y.rope = { m.rope with
          sums := m.rope.sums.map (fun y => if y.bucket = k ∧ y.seg = sg then { y with compared := true, bad := bad } else y) } ∧
        y.odGet (odKey 0x7110 2) = (m.odGet (odKey 0x7110 2) + 1) % 2 ^ 64 ∧ KeepsBut [.rope, .od] m y ∧
        (bad = false → x = y) ∧
        (bad = true → x = (y.bump (odKey 0x7110 3) 1).event s.fuse 0x0723 [m.ropeJob, m.rank, k, sg, m.compareDie sg]) ∧
        n = x.tryTrailer s.fuse k ∧
        KeepsBut (.rope :: .hawsers :: [.cores, .od, .log, .report, .queues, .jobs, .clusters, .residency, .orphans]) m n)) ∧
    (m.inRope j = true → m.ropeState = 3 → b.state = 2 →
      (m.rank = 0 → Goes s .resyncCommit (fun n => n.ropeState = 2 ∧ n.rope = { m.rope with afterRestore := none } ∧
        KeepsBut [.rope, .od, .log, .report] m n)) ∧
      (m.rank ≠ 0 → 320 ≤ m.rope.resyncData.length → m.rope.resyncData.length = m.resyncLen j →
        Goes s .resyncCommit (fun n =>
          n.ropeState = 2 ∧ n.rope = { m.rope with resyncData := [] } ∧
          (n.job j).step = leAt m.rope.resyncData (m.rope.resyncData.length - 8) 8 ∧
          (n.job j).halfBits = (b.regionsIn m.rope.resyncData).foldl
            (fun (h : NatMap) r => h.set (halfKey r.1 r.2) (1 - h.get (halfKey r.1 r.2))) b.halfBits ∧
          OtherJobs j m n ∧ KeepsBut [.jobs, .hbm, .hbmPoison, .rope, .od, .log, .report] m n)))) ∧
  (∀ (fu : Fuses) (m : Module) (k : Nat), m.rank ≠ 0 → m.trailer k 2 = none → m.sumsOf k ≠ [] →
    (m.sumsOf k).length = m.segCount k → (∀ x ∈ m.sumsOf k, x.sampled = true → x.compared = true) →
    (∀ i, i < 2 → bondNeeded m.rank m.ropeSize (i + 1) = true → (m.trailer k i).isSome = true) →
    ∃ t : Trailer, (m.tryTrailer fu k).rope.trailers = m.rope.trailers ++ [t] ∧ t.bucket = k ∧ t.input = 2 ∧
      (t.mismatch = true ↔ (∃ x ∈ m.sumsOf k, x.bad = true) ∨
        ∃ i u, i < 2 ∧ bondNeeded m.rank m.ropeSize (i + 1) = true ∧ m.trailer k i = some u ∧ u.mismatch = true))

/-- R296, R297, R300, R302, R306, R308, R311, R312, R313, R317, R318, R319: a frame in order on an up port in the rope's
epoch is acknowledged and has its effect: IDLE reports the FEC corrections since the last one; JOIN passes its bond or fails it; SEG, TRAIL and HASH join what the rank
holds; ETAB sets the next exponents of its bucket, WGT writes its weights in the work half; ABORT restarts the attempt, raises
the number of one to come, ends the job or breaks the rope; SNAPMARK marks the descriptors; RESYNC and REPL data is kept. -/
def Obligations.FramesActInTheirRope : Prop :=
  ∀ (s : State) (n : Nat) (bytes : List Byte) (f : Frame),
    let x := s.m.acceptFrame n f
    let j := x.ropeJob
    let b := bondOf n
    (n < s.m.hawsers.length → (x.hawser n).rxSeq = ((s.m.hawser n).rxSeq + 1) % 2 ^ 32) ∧ KeepsBut [.hawsers, .jobs] s.m x ∧
    (Arrives s n 1 bytes f → ∀ fec, Goes s (.idle ⟨n, fec⟩ bytes) (fun k =>
      k = (s.m.bump (odKey 0x5210 2) fec).acceptFrame n f ∧ KeepsBut [.od] x k ∧
      k.odGet (odKey 0x5210 2) = (s.m.odGet (odKey 0x5210 2) + fec) % 2 ^ 64)) ∧
    (∀ (deeper : Bool) (y : Module), Arrives s n 2 bytes f ∧ y = x ∨
        n < 16 ∧ s.m.powered = true ∧ (s.m.hawser n).up = true ∧ parseFrame bytes = some f ∧ f.type = 2 ∧
          f.linkSeq = (s.m.hawser n).rxSeq ∧ f.epoch ≠ s.m.ropeEpoch ∧ y = x.bump (odKey 0x5210 8) 1 →
      b < x.rope.bonds.length → Goes s (.join ⟨n, deeper⟩ bytes) (fun k =>
      (y.joinBad b f = none → (k.bond b).state = 2 ∧ (k.bond b).partnerStep = leAt f.payload 24 8 ∧
        (y.rope.deeper = true ∨ deeper = true → y.ropeState = 1 → k.ropeState ≠ 2) ∧
        KeepsBut (.rope :: .hawsers :: hbmReading) y k) ∧
      (∀ e, y.joinBad b f = some e → (k.bond b).state = 3 ∧ KeepsBut [.rope, .od, .log, .report] y k))) ∧
    (ArrivesFresh s n 3 bytes f → s.m.segWaits n bytes = true → Goes s (.seg n bytes) (fun k => k = s.m)) ∧
    (ArrivesFresh s n 3 bytes f → b ≠ 0 → s.m.segWaits n bytes = false → Goes s (.seg n bytes) (fun k =>
      k = x.onRope (fun r => { r with inputs := r.inputs ++ [
        { port := n, step := f.step, attempt := f.attempt, bucket := f.bucket, seg := f.segment, input := b - 1,
          codes := f.payload.map BitVec.toNat, maxExp := readI8 f.maxExp, contrib := f.contrib }] }))) ∧
    (ArrivesFresh s n 4 bytes f → b ≠ 0 → Goes s (.trail n bytes) (fun k =>
      k = (x.onRope (fun r => { r with trailers := r.trailers ++ [readTrailer f (b - 1)] })).tryTrailer s.fuse f.bucket)) ∧
    (∀ r, ArrivesFresh s n 5 bytes f → b = 0 → x.current f = true → (x.job j).prog.reduce = some r →
      Goes s (.etab n bytes false) (fun k =>
        (∀ i sg, i < 4096 → ((r.segsOf f.bucket).drop f.segment)[i]? = some sg →
          (∀ i' sg', i < i' → ((r.segsOf f.bucket).drop f.segment)[i']? = some sg' → segKey sg'.1 sg'.2 ≠ segKey sg.1 sg.2) →
          (k.job j).run.nextExp.lookup (segKey sg.1 sg.2) = some (signed 8 (leAt f.payload i 1))) ∧
        OtherJobs j x k ∧ KeepsBut [.jobs, .rope, .hawsers, .od, .log, .report] x k)) ∧
    (∀ t, ArrivesFresh s n 6 bytes f → b = 0 → x.current f = true →
      (x.job j).prog.reduce.bind (fun r => (r.segsOf f.bucket)[f.segment]?) = some t → s.m.wgtWaits n bytes = false →
      (f.bucket, 2 * f.segment + f.code % 2) ∉ x.rope.wgtSeen → Goes s (.wgt n bytes false) (fun k =>
        k.hbm = (x.writeBroadcast t.1 t.2 (f.code % 2) f.payload).hbm ∧
        (∀ a, (∀ i, i < min 2048 ((x.job j).segLen t.1 t.2 - 2048 * (f.code % 2)) →
            (x.job j).writes t.1 (4096 * t.2 + 2048 * (f.code % 2) + i) = true →
            let w := gradAddr (x.job j) { t := t.1, e := 4096 * t.2 + 2048 * (f.code % 2) + i, code := 0, unit := 0 }
            a ≠ w ∧ a ≠ w + 1) → k.hbm.get a = x.hbm.get a) ∧
        OtherJobs j x k ∧ KeepsBut [.jobs, .hbm, .hbmPoison, .rope, .hawsers, .od, .log, .report] x k)) ∧
    (n < 16 → s.m.powered = true → s.m.wgtWaits n bytes = true → ∀ bad, Goes s (.wgt n bytes bad) (fun k => k = s.m.holdWgt bytes)) ∧
    (ArrivesFresh s n 6 bytes f → b = 0 → x.current f = true → (f.bucket, 2 * f.segment + f.code % 2) ∈ x.rope.wgtSeen →
      Goes s (.wgt n bytes false) (fun k => k = s.m.holdWgt bytes ∨ k = x)) ∧
    (Arrives s n 7 bytes f → b ≠ 0 → x.inRope j = true → Goes s (.hash n bytes) (fun k =>
      k = (x.onRope (fun r => { r with hashes := r.hashes ++ [
        { step := f.step, bucket := f.bucket, input := b - 1, crc := leAt f.payload 0 8, lowest := leAt f.payload 8 8 }] })).tryHash
        s.fuse f.step f.bucket)) ∧
    (Arrives s n 8 bytes f → x.inRope j = true → Goes s (.abort n bytes) (fun k =>
      (f.code = stPeerLost ∨ f.code = stPoison → k.ropeState = 4) ∧
      (f.code ≠ stPeerLost → f.code ≠ stPoison → x.current f = true →
        (f.segment = 1 → (k.job j).state = 4 ∧ (k.job j).endStatus = f.code) ∧
        (f.segment ≠ 1 → (k.job j).run.attempt = (x.job j).run.attempt + 1 ∧
          (k.job j).run.ropeAttempt = (x.job j).run.ropeAttempt + 1)) ∧
      (f.code ≠ stPeerLost → f.code ≠ stPoison → x.current f = false → x.fresh f = true → f.segment ≠ 1 →
        k.rope = x.rope.raise_ f ∧ KeepsBut [.rope, .hawsers] x k) ∧
      (f.code ≠ stPeerLost → f.code ≠ stPoison → x.fresh f = false → k = x.bump (odKey 0x5210 8) 1))) ∧
    (Arrives s n 9 bytes f → b = 0 → x.inRope j = true → Goes s (.snapmark n bytes) (fun k =>
      (leAt f.payload 0 8, (x.job j).descs) ∈ k.rope.marks ∧ k.rope.marks.length ≤ 2 ∧ KeepsBut [.rope, .hawsers] x k)) ∧
    (Arrives s n 10 bytes f → b = 0 → x.inRope j = true → (x.job j).state = 2 → Goes s (.resync n bytes false) (fun k =>
      k.rope.resyncData = joinData x.rope.resyncData f ∧ (x.ropeState = 2 → k.ropeState = 3) ∧
      KeepsBut [.rope, .hawsers, .od, .log, .report] x k)) ∧
    (Arrives s n 11 bytes f → b = 0 → x.rank = 1 → x.inRope j = true → Goes s (.repl n bytes) (fun k =>
      ((joinData x.rope.replData f).length ≠ leAt f.payload 16 8 →
        k = x.onRope (fun r => { r with replData := joinData x.rope.replData f })) ∧
      ((joinData x.rope.replData f).length = leAt f.payload 16 8 → k.rope.replData = [] ∧
        (x.writeRefused 3 (moduleId 0 j (leAt f.payload 0 8)) (joinData x.rope.replData f).length = stOk →
          ∃ o ∈ k.store.objs, o.part = 3 ∧ o.id = moduleId 0 j (leAt f.payload 0 8) ∧
            o.data = Mem.cells 0 (joinData x.rope.replData f)) ∧
        KeepsBut [.rope, .store, .od, .log, .report] x k)))

/-- R296, R313, R314, R317, R528: a frame that fails its CRC asks for a replay from the first missing link_seq, and a
replay asked for sends every frame from there on again as it was; a keepalive sends an IDLE; a lit port
that has trained is up and empty; and a port that is lost is down with nothing queued: where it serves no bond, nothing else
changes; a free spare takes its place; and a bond left below its minimum is lost and, on a needed bond, breaks the rope. -/
def Obligations.PortsComeAndGo : Prop :=
  ∀ (s : State) (n : Nat), n < 16 → n < s.m.hawsers.length → s.m.powered = true →
    let m := s.m
    let b := bondOf n
    let serves := bondNeeded m.rank m.ropeSize b && ((m.hawser n).state == 4 || (decide (n % 4 < 3) && n % 4 == b))
    ((m.hawser n).up = true →
      Goes s (.frameCrcFailure ⟨n, none⟩) (fun k =>
        k.hawser n = { m.hawser n with replayAsked := true, requests := (m.hawser n).requests ++ [(m.hawser n).rxSeq] } ∧
        k.odGet (odKey 0x5210 3) = (m.odGet (odKey 0x5210 3) + 1) % 2 ^ 64 ∧ KeepsBut [.hawsers, .od] m k) ∧
      (∀ seq, (m.hawser n).queue = [] → Goes s (.frameCrcFailure ⟨n, some seq⟩) (fun k =>
        let left := (m.hawser n).unacked.filter (fun u => decide (2 ^ 31 ≤ ((seq + 2 ^ 32 - 1) % 2 ^ 32 + 2 ^ 32 - u.1) % 2 ^ 32))
        (k.hawser n).sentFrames = (m.hawser n).sentFrames ++ left.map Prod.snd ∧ (k.hawser n).unacked = left ∧
        k.odGet (odKey 0x5210 3) = (m.odGet (odKey 0x5210 3) + 1) % 2 ^ 64 ∧ KeepsBut [.hawsers, .jobs, .od] m k)) ∧
      ((m.hawser n).queue = [] → Goes s (.keepalive n) (fun k =>
        k.hawser n = (m.hawser n).send (m.frameBase 1) ∧ KeepsBut [.hawsers] m k)) ∧
      Goes s (.portLost n) (fun k =>
        (k.hawser n).state = 3 ∧
        (serves = false → (k.hawser n).queue = [] ∧ (k.hawser n).unacked = [] ∧ KeepsBut [.hawsers, .od] m k) ∧
        (serves = true → (m.hawser n).state ≠ 4 → (m.hawser (bondSpare m.rank b)).state = 2 → bondSpare m.rank b ≠ n →
          bondSpare m.rank b < m.hawsers.length →
          m.minPorts ≤ ((m.onHawser n (fun h => { h with state := 3, unacked := [], queue := [] })).bondLive b).length →
          (k.hawser (bondSpare m.rank b)).state = 4 ∧ (k.hawser n).spareUsed = true ∧
          KeepsBut [.hawsers, .od, .log, .report] m k) ∧
        (serves = true → m.inRope m.ropeJob = true → (m.hawser n).state ≠ 4 →
          ((m.onHawser n (fun h => { h with state := 3, unacked := [], queue := [] })).bondLive b).length < m.minPorts →
          k.ropeState = 4))) ∧
    (m.portLit n = true → (m.hawser n).up = false → Goes s (.hawserPortUp n) (fun k =>
      (k.hawser n).state = 2 ∧ (m.ropeState ≠ 1 ∨ n % 4 = 3 → k.hawser n = { Hawser.reset with state := 2 }) ∧
      (m.ropeState ≠ 1 ∨ n % 4 = 3 → KeepsBut [.hawsers, .calib] m k) ∧
      KeepsBut (.hawsers :: .rope :: .calib :: hbmReading) m k))

/-! ### The coil store -/

/-- R397, R403, R404, R405, R407, R411, R465, R492, R493: the store's own work moves data and changes none: the scan reads its
next page, levelling, collection, rewrites and the relocations after a failed die leave every object with its content, and a
reclaimed superblock holds nothing live. A repair record is kept where two copies take it; a mount ends MOUNTED, READ_ONLY or
FAILED, and an unmount UNMOUNTED; once a minute operating_seconds advances; and the record goes to its partition. -/
def Obligations.TheStoreKeepsItsObjects : Prop :=
  ∀ (s : State), s.m.powered = true →
    let m := s.m
    (m.storeReads = true →
      (∀ corrected, corrected ≤ m.odGet (odKey 0x6020 16) → Goes s (.retentionScan corrected 0 []) (fun n =>
        n.store.scanAt = (if m.store.scanAt + 1 = scanPages then 0 else m.store.scanAt + 1) ∧ n.store.objs = m.store.objs ∧
        KeepsBut [.store] m n)) ∧
      (∀ corrected retry, Goes s (.retentionScan corrected retry []) (fun n =>
        SameObjects m n ∧ KeepsBut (.store :: reporting) m n))) ∧
    (m.coilState = 2 →
      Goes s .staticLevelling (fun n => SameObjects m n ∧ KeepsBut (.store :: reporting) m n) ∧
      (∀ sb, leastBy m.store.live (superblocks.filter (fun s => m.store.openObj != some s && m.store.openRel != some s &&
          decide (0 < m.store.live s) && decide (m.store.live s < m.store.written.get s))) = some sb →
        Goes s (.garbageCollection []) (fun n =>
          SameObjects m n ∧
          (m.store.flaws = [] → n.store.live sb = 0 ∧
            n.odGet (odKey 0x6020 13) = (m.odGet (odKey 0x6020 13) + flashBytes (m.store.live sb)) % 2 ^ 64) ∧
          KeepsBut (.store :: reporting) m n)) ∧
      (∀ die, die < 64 → die ∉ m.store.failedDies → Goes s (.nandDieFailure die 0) (fun n =>
        (n.store.groupLost = false → SameObjects m n) ∧
        n.store.objs.map (fun o => { o with place := [], poison := [] }) = m.store.objs.map (fun o => { o with place := [], poison := [] }) ∧
        n.store.failedDies = m.store.failedDies ++ [die] ∧
        (n.store.groupLost = true → n.coilState = 3) ∧ KeepsBut (.store :: reporting) m n)) ∧
      (m.mgmt.capstanUp = true → Goes s (.logCopy none) (fun n =>
        (m.store.flaws = [] →
          n.log = { m.log with part := fitBytes (2048 * extentBytes) (m.log.part ++ m.log.ring), ring := [] } ∧ n.store = m.store ∧
          KeepsBut [.log, .od, .saved] m n) ∧
        SameObjects m n ∧ KeepsBut (.store :: .saved :: reporting) m n)) ∧
      (m.store.unmountAsked = true → m.store.writing = [] → Goes s .coilUnmount (fun n =>
        n.coilState = 0 ∧ n.store = { m.store with unmountAsked := false, catchUp := false } ∧ KeepsBut [.store, .od, .saved] m n))) ∧
    (m.coilState = 1 →
      Goes s (.coilMountComplete false) (fun n => n.coilState = 4 ∧ KeepsBut reporting m n) ∧
      Goes s (.coilMountComplete true) (fun n =>
        (m.store.failedDies = [] ∨ m.store.groupLost = true ∨ m.store.spare * 200 < dataBlocks →
          n.coilState = (if m.store.groupLost = true ∨ m.store.spare * 200 < dataBlocks then 3 else 2) ∧
          n.store = { m.store with catchUp := true } ∧ (n.coilState = 2 → n.log.premount = [])) ∧
        (n.coilState = 2 ∨ n.coilState = 3) ∧ n.store.catchUp = true ∧ SameObjects m n ∧ KeepsBut (.store :: reporting) m n)) ∧
    (∀ w rest copies, m.store.repairQueue = w :: rest → Goes s (.repairUpdate copies) (fun n =>
      n.store.repairQueue = rest ∧
      n.store.repairRecs = m.store.repairRecs ++ (if 2 ≤ min 4 copies then [w] else []) ∧
      n.store.repairGen = m.store.repairGen + (if copies = 0 then 0 else 1) ∧
      (∀ k, k < 4 → k < m.store.repairCopies.length → n.store.repairCopies[k]? =
        (m.store.repairCopies[k]?).map (fun c => if k < copies then
          c.append { gen := m.store.repairGen + 1, recs := m.store.repairRecs ++ [w] } else c)) ∧
      n.store.objs = m.store.objs ∧
      KeepsBut (.store :: .cores :: .clusters :: reporting) m n)) ∧
    Goes s .formatRecordUpdate (fun n =>
      n.odGet (odKey 0x1018 10) = min (m.odGet (odKey 0x1018 10) + 60) (2 ^ 40 - 1) ∧ n.mgmt.dropEventHeld = false ∧
      KeepsBut [.od, .saved, .report] m n) ∧
    (∀ code, code < 65536 → m.mgmt.capstanUp = true → Goes s (.loglineToken code) (fun n =>
      n.log = { m.log with spent := m.log.spent.set code (m.log.spent.get code - 1) } ∧ KeepsBut [.log] m n))

/-! ### Host commands -/

/-- R199, R204, R208, R344, R421, R426, R428: what the commands of a job's life do. NOP ends at once. A LOAD whose arguments fail
is rejected; one that passes waits for its image, and the whole image places its job or is rejected with its finding. BIND
sets the next value of its slot; STEP asks for a step or is DENIED; END_JOB and RELEASE_JOB end and free the context;
CANCEL_BATCH abandons the attempt under a new epoch; a command that names a FREE context is DENIED. A chain takes its next
packet or breaks, also by its timeout. -/
def Obligations.HostCommandsOnJobs : Prop :=
  (∀ (s : State) (q : Nat) (p : Packet) (c : Cmd) (x : Module), Begins s q p [] c x →
    let j := c.job
    let b := x.job j
    let fu := s.fuse
    (c.opcode = 0 → Goes s (.nop q p) (Ends fu x q c stOk 0 0 (fun z => z = x))) ∧
    (∀ r ∈ jobRows, c.opcode = r.1 → b.state = 0 →
      (tellsFailure r.1 = false → Goes s (r.2 q p) (Ends fu x q c stDenied 0 0 (fun z => z = x))) ∧
      (tellsFailure r.1 = true → (r.1 = 0x18 → badModuleId (c.w 5) = false) →
        Goes s (r.2 q p) (Ends fu x q c stDenied 0 0 (fun z => KeepsBut reporting x z)))) ∧
    (c.opcode = 1 →
      (∀ r, x.loadArgs c = some r → Goes s (.load q p) (fun n => ∃ z, n = thenStart fu x (z.answerLoad q c r) ∧
        (b.state = 0 → j < x.jobs.length →
          z.job j = { Job.free with state := 4, endStatus := r.status, loadCheck := r.check, seed := c.w 3, pendingSnap := b.pendingSnap }) ∧
        (b.state ≠ 0 → z.jobs = x.jobs) ∧ OtherJobs j x z ∧ KeepsBut [.jobs, .od, .log, .report] x z)) ∧
      (x.loadArgs c = none → j < x.jobs.length →
        let im := ((if bitAt (c.w 4) 0 then c.data.drop 64 else c.data)).take (c.w 2)
        let loading : Job := { Job.free with state := 1, seed := c.w 3, pendingSnap := b.pendingSnap }
        let y := (x.onJob j (fun _ => loading)).started q c
        let v := y.judge (y.loadEnv fu (q / 8) c.policy c.keys (c.w 2)) im (if bitAt (c.w 4) 0 then leNat (c.data.take 64) else 0)
        (c.whole = false → Goes s (.load q p) (RunsOn fu x q c (fun z =>
          z.job j = loading ∧ OtherJobs j x z ∧ KeepsBut [.jobs] x z))) ∧
        (c.whole = true → ∀ l pl, v = (none, l, some pl) → Goes s (.load q p) (fun n => ∃ z r,
          n = thenStart fu x (z.answerLoad q c r) ∧ r.status = stOk ∧ (z.job j).state = 2 ∧ (z.job j).seed = c.w 3 ∧
          (z.job j).cores = pl.cores ∧ (z.job j).hbmBase = pl.base ∧ (z.job j).image = l.img ∧ (z.job j).hash = sha512 im ∧
          OtherJobs j x z ∧
          KeepsBut [.cores, .clusters, .hbm, .hbmPoison, .jobs, .residency, .queues, .od, .log, .report] x z)) ∧
        (c.whole = true → ∀ f l pl, v = (some f, l, pl) → Goes s (.load q p) (fun n => ∃ z r,
          n = thenStart fu x (z.answerLoad q c r) ∧ r.status = checkStatus f.1 ∧ r.check = f.1 ∧
          z.job j = { Job.free with state := 4, endStatus := r.status, loadCheck := r.check, seed := c.w 3, pendingSnap := b.pendingSnap } ∧
          OtherJobs j x z ∧ KeepsBut [.jobs, .queues, .od, .log, .report] x z)))) ∧
    (c.opcode = 2 → b.live = true → ∀ bd, b.bounds.find? (fun y => y.slot == c.w 2) = some bd →
      (bd.address = true → b.bindFits bd.slot (c.w 3) = true) → Goes s (.bind q p) (Ends fu x q c stOk 0 0 (fun z =>
        z.job j = { b with bounds := b.bounds.map (fun y => if y.slot = c.w 2 then { y with next := c.w 3 } else y) } ∧
        OtherJobs j x z ∧ KeepsBut [.jobs] x z))) ∧
    (c.opcode = 3 → b.state ≠ 0 →
      (x.stepDenied j = true → Goes s (.step q p) (Ends fu x q c stDenied b.step 0 (fun z => z = x))) ∧
      (x.stepDenied j = false → Goes s (.step q p) (RunsOn fu x q c (fun z =>
        z.job j = { b with run := { b.run with stepAsked := true, stepQ := q } } ∧ OtherJobs j x z ∧ KeepsBut [.jobs] x z)))) ∧
    (c.opcode = 4 → b.live = true → Goes s (.endJob q p) (Ends fu x q c stOk 0 0 (fun z =>
      (z.job j).state = 4 ∧ (z.job j).endStatus = stCancelled ∧ (z.job j).cores = [] ∧ OtherJobs j x z ∧
      KeepsBut [.cores, .od, .log, .report, .queues, .jobs, .clusters, .residency, .orphans] x z))) ∧
    (c.opcode = 5 → b.state = 4 → Goes s (.releaseJob q p) (Ends fu x q c stOk 0 0 (fun z =>
      z.job j = { Job.free with pendingSnap := b.pendingSnap } ∧ OtherJobs j x z ∧ KeepsBut [.jobs] x z))) ∧
    (c.opcode = 6 → b.state = 2 → Goes s (.cancelBatch q p) (Ends fu x q c stOk b.run.epoch 0 (fun z => z = x))) ∧
    (c.opcode = 6 → b.state = 3 → Goes s (.cancelBatch q p) (Ends fu x q c stOk ((b.run.epoch + 1) % 65536) 0 (fun z =>
      (z.job j).step = b.step ∧ (z.job j).halfBits = b.halfBits ∧
      (x.inRope j = false → (z.job j).run.epoch = (b.run.epoch + 1) % 65536 ∧
        ((z.job j).state = 2 ∨ (z.job j).state = 3 ∧ (z.job j).run.mustReplay = some stCancelled) ∧
        z.hawsers = x.hawsers ∧ z.rope = x.rope) ∧
      (x.inRope j = true → (z.job j).state = 3 ∧ (z.job j).run.mustReplay = none ∧
        (z.job j).run.ropeAttempt = b.run.ropeAttempt + 1 ∧ (z.job j).run.attempt = b.run.attempt + 1) ∧
      OtherJobs j x z ∧ KeepsBut boundaryParts x z)))) ∧
  (∀ (s : State) (q : Nat) (ch : Cmd), q < 16 → s.m.powered = true → (s.m.queue q).chained = some ch →
    Goes s (.chainTimeout q) (fun n => ∃ y, y = s.m.breakChain q true ∧ (y.queue q).chain = none ∧
      (∃ (z : Module) (r : Resp), y = z.pushResp q r ∧ r.status = stTimeout ∧ r.tag = ch.tag ∧ r.last = true) ∧
      n = (y.event s.fuse 0x0553 [q / 8, q % 8, ch.tag, ch.opcode, ch.nextSeq]).settle s.fuse) ∧
    (∀ (p : Packet) (ups : List FlashUpset), ch.tag = p.tag → s.m.canTake q p = true →
      let t := s.m.countTaken q p
      let fits := p.formOk && p.argsIn [] && p.opcode == ch.opcode && p.job == ch.job && p.seq == ch.nextSeq &&
        p.len64 == ch.units ch.nextSeq && p.last == ch.endsAt ch.nextSeq && t.featured q p
      (fits = true → Goes s (.chainPacket q p ups) (fun n => ∃ y,
        (y.queue q).cmds = (s.m.queue q).cmds.map (fun c => if c.tag = ch.tag then
          { c with got := c.got + p.payload.length, data := c.data ++ p.payload } else c) ∧
        (y.queue q).chain = (if ch.endsAt ch.nextSeq then none else (s.m.queue q).chain) ∧
        (y.queue q).sqHead = ((s.m.queue q).sqHead + 1 + p.len64) % ringUnits ∧ KeepsBut [.queues, .od] s.m y ∧
        n = ((y.flashMeets s.fuse ch ups).feed s.fuse q ch.tag).settle s.fuse)) ∧
      (fits = false → Goes s (.chainPacket q p ups) (fun n =>
        n = ((t.packetFails q stMalformed).breakChain q false).settle s.fuse))))

/-- R256, R258, R285, R286, R338, R399, R400, R402, R427: what the commands on variants, snapshots, pins, job data and stored
objects do once they start. A STAGE, SAVE, RELEASE_SLOT or turn of slots that fails leaves the slots as they are; one that
passes changes only its slots, its weights or its stored set. A SNAPSHOT in a LOADED job captures at once, in a running one
at the next boundary; RESTORE writes the kept snapshot back. Pins change pins only. Data commands move exactly their bytes. -/
def Obligations.HostCommandsOnStateAndData : Prop :=
  ∀ (s : State) (q : Nat) (p : Packet) (ups : List FlashUpset) (c : Cmd) (x : Module), Begins s q p ups c x →
    let j := c.job
    let b := x.job j
    let fu := s.fuse
    let slot := fun (v : Nat) => (b.slots[v]?).getD Slot.empty
    (c.opcode = 0x10 →
      (x.stageRefused j (c.w 2) (c.w 3) ≠ stOk → Goes s (.stage q p ups)
        (Ends fu x q c (x.stageRefused j (c.w 2) (c.w 3)) 0 0 (fun z => KeepsBut reporting x z))) ∧
      (∀ o, x.stageRefused j (c.w 2) (c.w 3) = stOk → x.store.find 2 (c.w 3) = some o →
        let has := o.len != b.setSizes.1
        ((o.firstPoison 0 (x.stageReads j o)).isSome = true → Goes s (.stage q p ups) (Ends fu x q c stPoison 0 0 (fun z =>
          z.job j = { b with slots := modifyAt (fun _ => Slot.empty) b.slots (c.w 2) } ∧ OtherJobs j x z ∧
          KeepsBut [.jobs, .od, .log, .report] x z))) ∧
        (o.firstPoison 0 (x.stageReads j o) = none → Goes s (.stage q p ups) (Ends fu x q c stOk 0 0 (fun z =>
          z.hbm = (x.takeSet j (c.w 2) { o with hasState := has }).hbm ∧
          (z.job j).slots = modifyAt (fun v => { v with state := 1, set := c.w 3, setSteps := if has then o.setSteps else 0 })
            b.slots (c.w 2) ∧
          z.odGet (odKey 0x3230 4) = (x.odGet (odKey 0x3230 4) + x.stageReads j o) % 2 ^ 64 ∧ OtherJobs j x z ∧ KeepsBut [.jobs, .hbm, .hbmPoison, .od] x z))))) ∧
    (∀ r ∈ [(0x11, 1, 1, Instr.activate q p), (0x12, 2, 2, Instr.deactivate q p)], ups = [] → c.opcode = r.1 →
      (∀ v, b.slotNotIn (c.w 2) r.2.1 = some v →
        Goes s r.2.2.2 (Ends fu x q c stDenied 0 0 (fun z => KeepsBut reporting x z))) ∧
      (b.slotNotIn (c.w 2) r.2.1 = none → b.live = true → Goes s r.2.2.2 (Ends fu x q c stOk 0 0 (fun z =>
        (∀ v, (z.job j).slots[v]? =
          (b.slots[v]?).map (fun y => if v ∈ setBits (c.w 2) 64 then { y with next := r.2.2.1 } else y)) ∧
        OtherJobs j x z ∧ KeepsBut [.jobs] x z)))) ∧
    (ups = [] → c.opcode = 0x13 → b.live = true → (slot (c.w 2)).state ≠ 0 →
      x.writeRefused 2 (slot (c.w 2)).set (x.setBytes j (c.w 2)).length = stOk →
      b.adapterTensors.any (fun t => x.regionPoison j t (c.w 2) || (x.isRank0 j && x.regionStatePoison j t (c.w 2))) = false →
      Goes s (.save q p) (Ends fu x q c stOk 0 0 (fun z =>
        (∃ o ∈ z.store.objs, o.part = 2 ∧ o.id = (slot (c.w 2)).set ∧ o.len = (x.setBytes j (c.w 2)).length ∧
          o.data = Mem.cells 0 (x.setBytes j (c.w 2)) ∧ o.sites = b.sitesHash) ∧
        (∀ o ∈ z.store.objs, o.part ≠ 2 → ∃ k ∈ x.store.objs, o = { k with place := o.place }) ∧
        KeepsBut (.store :: hbmReading) x z))) ∧
    (ups = [] → c.opcode = 0x14 → b.live = true →
      ((slot (c.w 2)).state ≠ 1 → Goes s (.releaseSlot q p) (Ends fu x q c stDenied 0 0 (fun z => KeepsBut reporting x z))) ∧
      ((slot (c.w 2)).state = 1 → Goes s (.releaseSlot q p) (Ends fu x q c stOk 0 0 (fun z =>
        z.job j = { b with slots := modifyAt (fun _ => Slot.empty) b.slots (c.w 2) } ∧ OtherJobs j x z ∧ KeepsBut [.jobs] x z)))) ∧
    (ups = [] → c.opcode = 0x18 → badModuleId (c.w 5) = true →
      Goes s (.snapshot q p) (Ends fu x q c stMalformed 0 0 (fun z => KeepsBut reporting x z))) ∧
    (ups = [] → c.opcode = 0x18 → badModuleId (c.w 5) = false →
      (b.state = 3 → Goes s (.snapshot q p) (RunsOn fu x q c (fun z => z = x))) ∧
      (b.state = 2 → (bitAt (c.w 2) 2 && !x.isRank0 j) = false → (b.scopeParts (c.w 2) (c.w 3)).any (x.partPoison j) = false →
        let bs := x.snapHeader j ++ (b.scopeParts (c.w 2) (c.w 3)).flatMap (x.partContent j)
        let id := if c.w 5 = 0 then moduleId 1 j b.step else c.w 5
        (bitAt (c.w 4) 0 = false → Goes s (.snapshot q p) (fun n => ∃ z, KeepsBut hbmReading x z ∧
          n = thenStart fu x (z.answerData q c stOk b.step bs.length bs))) ∧
        (bitAt (c.w 4) 0 = true → x.writeRefused 3 id bs.length = stOk →
          Goes s (.snapshot q p) (Ends fu x q c stOk b.step bs.length (fun z =>
            (∃ o ∈ z.store.objs, o.part = 3 ∧ o.id = id ∧ o.len = bs.length ∧ o.data = Mem.cells 0 bs) ∧
            (∀ o ∈ z.store.objs, o.part ≠ 3 → ∃ k ∈ x.store.objs, o = { k with place := o.place }) ∧
            KeepsBut (.store :: hbmReading) x z))))) ∧
    (c.opcode = 0x19 → b.state ≠ 0 → ∀ o, o = (if x.storeReads then (x.store.kept j).find? (fun o =>
        o.id == moduleId 0 j (c.w 2) && decide (c.w 2 < 2 ^ 32)) else none) →
      (x.restoreRefused j o ≠ stOk → Goes s (.restore q p ups) (Ends fu x q c (x.restoreRefused j o) b.step 0 (fun z => z = x))) ∧
      (∀ k, o = some k → x.restoreRefused j o = stOk → x.inRope j = false →
        Goes s (.restore q p ups) (Ends fu x q c stOk (leAt k.bytes 8 8) 0 (fun z =>
          z.hbm = (x.restoreFrom j k.bytes).hbm ∧ z.jobs = (x.restoreFrom j k.bytes).jobs ∧ (z.job j).step = leAt k.bytes 8 8 ∧
          z.odGet (odKey 0x7110 6) = 0 ∧ OtherJobs j x z ∧ KeepsBut [.jobs, .hbm, .hbmPoison, .od] x z)))) ∧
    (∀ (e : Experts), ups = [] → b.prog.experts = some e → b.live = true →
      let held := (x.entriesOf j).any (fun r => r.2.state != 0 && r.2.expert == c.w 2)
      let pinned := fun (on : Bool) => x.residency.map (fun (r : Nat × Residency) =>
        if r.2.job = j ∧ r.2.state ≠ 0 ∧ r.2.expert = c.w 2 then (r.1, { r.2 with pinned := on }) else r)
      (c.opcode = 0x1A → c.w 2 ∉ x.pinnedOf j → e.capacity - 1 < (x.pinnedOf j).length + 1 →
        Goes s (.pinExpert q p) (Ends fu x q c stDenied 0 0 (fun z => z = x))) ∧
      (c.opcode = 0x1A → c.w 2 ∈ x.pinnedOf j ∨ (x.pinnedOf j).length + 1 ≤ e.capacity - 1 →
        (e.expertCount ≤ c.w 2 → Goes s (.pinExpert q p) (Ends fu x q c stBadIndex 0 0 (fun z => z = x))) ∧
        (c.w 2 < e.expertCount → held = true → Goes s (.pinExpert q p) (Ends fu x q c stOk 0 0 (fun z =>
          z.residency = pinned true ∧ OtherJobs j x z ∧ KeepsBut [.residency, .jobs] x z))) ∧
        (c.w 2 < e.expertCount → held = false → Goes s (.pinExpert q p) (RunsOn fu x q c (fun z =>
          (∃ f ∈ (z.job j).fetches, f.expert = c.w 2 ∧ f.pin = true) ∧ OtherJobs j x z ∧ KeepsBut [.residency, .jobs] x z)))) ∧
      (c.opcode = 0x1B → e.expertCount ≤ c.w 2 →
        Goes s (.unpinExpert q p) (Ends fu x q c stBadIndex 0 0 (fun z => z = x))) ∧
      (c.opcode = 0x1B → c.w 2 < e.expertCount → Goes s (.unpinExpert q p) (Ends fu x q c stOk 0 0 (fun z =>
        z.residency = pinned false ∧ OtherJobs j x z ∧ KeepsBut [.residency, .jobs] x z)))) ∧
    (ups = [] → c.opcode = 0x20 → b.state ≠ 0 → b.state ≠ 1 →
      (x.rangeRefused j (c.w 2) (c.w 3) ≠ stOk →
        Goes s (.writeJob q p) (Ends fu x q c (x.rangeRefused j (c.w 2) (c.w 3)) 0 0 (fun z => z = x))) ∧
      (x.rangeRefused j (c.w 2) (c.w 3) = stOk → c.whole = true → Goes s (.writeJob q p) (fun n => ∃ z,
        n = thenStart fu x (z.answer q { c with state := 1 } stOk 0 0) ∧
        (∀ a, z.hbm.get a = if b.hbmBase + c.w 2 ≤ a ∧ a < b.hbmBase + c.w 2 + min (c.w 3) c.data.length
          then c.data.getD (a - (b.hbmBase + c.w 2)) 0 else x.hbm.get a) ∧
        KeepsBut [.hbm, .hbmPoison, .queues] x z)) ∧
      (x.rangeRefused j (c.w 2) (c.w 3) = stOk → c.whole = false → Goes s (.writeJob q p) (fun n => ∃ z,
        n = thenStart fu x z ∧
        (∀ a, z.hbm.get a = if b.hbmBase + c.w 2 ≤ a ∧ a < b.hbmBase + c.w 2 + min (c.w 3) c.data.length
          then c.data.getD (a - (b.hbmBase + c.w 2)) 0 else x.hbm.get a) ∧
        KeepsBut [.hbm, .hbmPoison, .queues] x z))) ∧
    (ups = [] → c.opcode = 0x21 → b.state ≠ 0 → b.state ≠ 1 →
      (x.rangeRefused j (c.w 2) (c.w 3) ≠ stOk →
        Goes s (.readJob q p) (Ends fu x q c (x.rangeRefused j (c.w 2) (c.w 3)) 0 0 (fun z => z = x))) ∧
      (x.rangeRefused j (c.w 2) (c.w 3) = stOk → Goes s (.readJob q p) (fun n => ∃ st first count,
        let z := x.request fu j (b.hbmBase + c.w 2) (c.w 3)
        n = thenStart fu x (z.answerData q c st first count (x.hbm.read (b.hbmBase + c.w 2) (c.w 3))) ∧ KeepsBut hbmReading x z ∧
        (st = stPoison ↔ ∃ g ∈ x.hbmPoison, 32 * g < b.hbmBase + c.w 2 + c.w 3 ∧ b.hbmBase + c.w 2 < 32 * g + 32) ∧
        (st = stPoison ∨ st = stOk)))) ∧
    (c.opcode = 0x28 →
      (x.objWriteRefused c ≠ stOk → Goes s (.objWrite q p ups) (Ends fu x q c (x.objWriteRefused c) 0 0 (fun z => z = x))) ∧
      (x.objWriteRefused c = stOk → c.whole = false → Goes s (.objWrite q p ups) (RunsOn fu x q c (fun z =>
        z.store = { x.store with writing := x.store.writing ++ [(c.w 2, c.w 3)] } ∧ KeepsBut [.store] x z))) ∧
      (x.objWriteRefused c = stOk → c.whole = true → Goes s (.objWrite q p ups) (fun n => ∃ z,
        n = thenStart fu x (z.answer q { c with state := 1 } stOk 0 0) ∧
        (∃ o ∈ z.store.objs, o.part = c.w 2 ∧ o.id = c.w 3 ∧ o.len = (c.data.take (c.w 4)).length ∧
          o.sha = sha512 (c.data.take (c.w 4)) ∧ o.data = Mem.cells 0 (c.data.take (c.w 4))) ∧
        (∀ o ∈ z.store.objs, o.part ≠ c.w 2 → ∃ k ∈ x.store.objs, o = { k with place := o.place }) ∧
        KeepsBut [.store, .od, .log, .report, .queues] x z))) ∧
    (c.partOk = true → x.storeReads = true →
      (x.store.find (c.w 2) (c.w 3) = none →
        (c.opcode = 0x29 → 0 < c.w 5 → Goes s (.objRead q p ups) (Ends fu x q c stBadIndex 0 0 (fun z => z = x))) ∧
        (ups = [] → c.opcode = 0x2B → Goes s (.objInfo q p) (Ends fu x q c stBadIndex 0 0 (fun z => z = x)))) ∧
      (∀ o, x.store.find (c.w 2) (c.w 3) = some o →
        (c.opcode = 0x29 → 0 < c.w 5 → c.w 4 + c.w 5 ≤ o.len → Goes s (.objRead q p ups) (fun n => ∃ z st first,
          n = thenStart fu x (z.answerData q c st first 0 (o.data.read (c.w 4) (o.delivered (c.w 4) (c.w 5)))) ∧
          ((o.firstPoison (c.w 4) (c.w 5)) = none → o.delivered (c.w 4) (c.w 5) = c.w 5) ∧
          (st = if (o.firstPoison (c.w 4) (c.w 5)).isSome then stPoison else stOk) ∧ KeepsBut [.od] x z)) ∧
        (ups = [] → c.opcode = 0x2B → Goes s (.objInfo q p) (fun n => ∃ kind,
          n = thenStart fu x (x.answerData q c stOk o.len kind o.sha))))) ∧
    (ups = [] → c.opcode = 0x2A → c.partOk = true → x.coilState = 2 → (x.store.find (c.w 2) (c.w 3)).isSome = true →
      ((c.w 2 = 2 ∧ bitAt (x.odGet (odKey 0x6030 1)) (c.w 3) = true ∨ c.w 2 = 1 ∧ x.expertNamed (c.w 3) = true) →
        Goes s (.objDelete q p) (Ends fu x q c stDenied 0 0 (fun z => z = x))) ∧
      (¬(c.w 2 = 2 ∧ bitAt (x.odGet (odKey 0x6030 1)) (c.w 3) = true ∨ c.w 2 = 1 ∧ x.expertNamed (c.w 3) = true) →
        Goes s (.objDelete q p) (Ends fu x q c stOk 0 0 (fun z =>
          (∀ o, o ∈ z.store.objs ↔ o ∈ x.store.objs ∧ ¬(o.part = c.w 2 ∧ o.id = c.w 3)) ∧ KeepsBut [.store] x z))))

/-! ### Host ports, queues and rings -/

/-- R10, R11, R416, R417, R418, R419, R430, R441, R442: what the queues, the response rings and the mailboxes do. sq_enable starts a DISABLED
queue with its positions at 0 and phase 1; a doorbell inside the free span moves sq_tail, a wrong one puts the queue in ERROR
with MALFORMED; a disabled queue drains, a command not started ending CANCELLED, and a drained one is DISABLED; a response that
fits stands in host memory at rr_tail, and a final one frees its tag; a vector's gap ends by a late interrupt or in silence; a
write of rr_head or of a request acts on its bytes alone; a doorbell of a busy mailbox is an overrun; and a read returns what the
registers and the request hold, 0 from a WO or RSV one and before the function is ready. -/
def Obligations.QueuesAndMailboxesServeTheHost : Prop :=
  ∀ (s : State), s.m.powered = true →
    let m := s.m
    let fu := s.fuse
    (∀ q, q < 16 → q < m.host.queues.length →
      let t := m.queue q
      let others := fun (n : Module) => ∀ k, k ≠ q → n.queue k = m.queue k
      (m.served q = true → t.state = 0 → Goes s (.queueEnable q) (fun n =>
        n.queue q = { t with state := 1, enableBit := true, sqTail := 0, sqHead := 0, rrTail := 0, rrPhase := true,
                             irqGap := false, irqHeld := false } ∧ others n ∧ KeepsBut [.queues] m n)) ∧
      (∀ v mask, mask ≠ 0 → m.served q = true → t.state = 1 →
        let w := field (mergeBytes t.sqTail v mask) 0 15
        let fits := w < ringUnits ∧ (w + ringUnits - t.sqTail) % ringUnits ≤ (t.sqHead + ringUnits - 1 - t.sqTail) % ringUnits
        (fits → Goes s (.sqTail q v mask) (fun n =>
          n.queue q = { t with sqTail := w } ∧ others n ∧ KeepsBut [.queues] m n)) ∧
        (¬fits → Goes s (.sqTail q v mask) (fun n =>
          n.queue q = { t with state := 3, lastError := stMalformed } ∧ others n ∧ KeepsBut (.queues :: reporting) m n))) ∧
      (∀ v mask, t.state ≠ 1 → Goes s (.sqTail q v mask) (fun n => n = m)) ∧
      (m.served q = true → t.state = 1 ∨ t.state = 3 → t.chain = none →
        (t.cmds = [] → Goes s (.queueDisable q) (fun n => ∃ z, n = z.settle fu ∧
          z.queue q = { t with state := 2, enableBit := false } ∧ others z ∧ KeepsBut [.queues] m z)) ∧
        (∀ c, t.cmds = [c] → c.state = 0 → Goes s (.queueDisable q) (fun n => ∃ z r, n = z.settle fu ∧
          (z.queue q).state = 2 ∧ (z.queue q).resps = t.resps ++ [r] ∧ r.status = stCancelled ∧ r.tag = c.tag ∧ r.last = true ∧
          (∀ d ∈ (z.queue q).cmds, d.state = 2) ∧ others z ∧ KeepsBut [.queues] m z))) ∧
      (t.state = 2 → t.cmds = [] → (∀ r ∈ t.resps, r.unsol = true) → Goes s (.queueDrained q) (fun n =>
        n.queue q = { t with state := 0, chain := none, resps := [], dropped := t.dropped + t.resps.length } ∧ others n ∧
        (t.resps = [] → KeepsBut [.queues] m n) ∧ KeepsBut (.queues :: reporting) m n)) ∧
      (∀ r rest, t.resps = r :: rest → t.state ≠ 0 → t.rrTail + r.units ≤ t.rrUnits → r.units ≤ t.rrFree →
        Goes s (.responseWrite q) (fun n => ∃ z, n = z.settle fu ∧ (z.queue q).resps = rest ∧
          z.host.hostMem = m.host.hostMem.write (q / 8 * 2 ^ 64 + (t.rrBase + 64 * t.rrTail))
            (r.bytes t.rrPhase t.sqHead (if r.opcode = 0xF0 then t.dropped else r.w6)) ∧
          (z.queue q).rrTail = (if t.rrTail + r.units < t.rrUnits then t.rrTail + r.units else 0) ∧
          (r.last = true → r.holdsTag = true → ∀ c ∈ (z.queue q).cmds, c.tag ≠ r.tag) ∧ others z ∧
          KeepsBut [.queues, .hostMem, .od, .report] m z)) ∧
      (t.irqGap = true →
        ((t.irqHeld && t.rrHead % t.rrUnits != t.rrTail) = true → Goes s (.interruptCoalesceExpiry q) (fun n =>
          n.host.irqs = m.host.irqs.add (16 * (q / 8) + q % 8) 1 ∧ n.queue q = { t with irqHeld := false } ∧ others n ∧
          KeepsBut [.queues, .report] m n)) ∧
        ((t.irqHeld && t.rrHead % t.rrUnits != t.rrTail) = false → Goes s (.interruptCoalesceExpiry q) (fun n =>
          n.queue q = { t with irqGap := false, irqHeld := false } ∧ others n ∧ KeepsBut [.queues] m n))) ∧
      ((m.port (q / 8)).ready = true →
        (∀ o bs, 0x30 ≤ o → o + bs.length ≤ 0x38 → bs ≠ [] →
          let w := regPart o bs 0x30
          Goes s (.registerWrite (q / 8) 0 (0x200000 * (q % 8) + o) bs) (fun n =>
            n.queue q = { t with rrHead := field (mergeBytes t.rrHead w.1 w.2) 0 20 } ∧ others n ∧ KeepsBut [.queues] m n)) ∧
        (∀ r, r < 0x200 → m.readBar (q / 8) 0 (0x200000 * (q % 8) + 8 * r) 8 = leBytes 8 (t.register (8 * r))) ∧
        (∀ r, 8 ≤ r → t.register (8 * r) = 0))) ∧
    (∀ p bar off n, (m.port p).ready = false → m.readBar p bar off n = zeros n) ∧
    (∀ p, p < 2 → p < m.host.ports.length → (m.port p).ready = true → m.mgmt.reachable = true →
      let b := (m.port p).mailbox
      (m.readBar p 2 0 8 = zeros 8 ∧ (∀ r, 1 ≤ r → r ≤ 4 → m.readBar p 2 (8 * r) 8 = leBytes 8 (b.register (8 * r))) ∧
        (∀ off n, off + n ≤ 0x4000 → m.readBar p 2 (0x1000 + off) n = (List.range n).map (fun i => b.request.get (off + i)))) ∧
      (∀ off bs, off + bs.length ≤ 0x4000 → bs ≠ [] → b.busy = false →
        Goes s (.registerWrite p 2 (0x1000 + off) bs) (fun n =>
          (n.port p).mailbox = { b with request := b.request.write off bs } ∧ KeepsBut [.report] m n)) ∧
      (b.busy = false → Goes s (.registerWrite p 2 0 [1]) (fun n =>
        (n.port p).mailbox = { b with busy := true, taken := some (b.request.read 0 16384) } ∧ KeepsBut [.report] m n)) ∧
      (b.busy = true → Goes s (.doorbellOverrun p) (fun n =>
        (n.port p).mailbox.overrun = true ∧ (n.port p).mailbox.busy = true ∧ (n.port p).mailbox.taken = b.taken ∧
        KeepsBut reporting m n)))

/-- R415, R416, R432: PERST#, the links and a port's resets act on their port alone. A released PERST# lets the link train; a
function is ready once the dictionary is reachable, with its queues DISABLED; and PERST#, a hot reset, a link down and a
Function Level Reset take the function down: its queues and mailbox stand at their reset values, what its path had staged is
gone, and its commands end as R432 says: an image that is loading leaves its context ENDED with CANCELLED, an object write in progress
records no version, a step that has not started is not asked for any more, a started SNAPSHOT into the partition runs on, a running or an
ended job is as it was, and event 0x0552 counts the commands cancelled. Every other port and queue is as it was, and the link stays up
only in the last case. -/
def Obligations.PortResetsKeepToTheirPort : Prop :=
  ∀ (s : State) (p : Nat), p < 2 → s.m.powered = true → s.m.host.ports.length = 2 → s.m.host.queues.length = 16 →
    let m := s.m
    let fu := s.fuse
    let t := m.port p
    let otherPort := fun (n : Module) => n.port (1 - p) = m.port (1 - p)
    let otherQueues := fun (n : Module) => ∀ q, q / 8 ≠ p → n.queue q = m.queue q
    let cs := m.portCmds p
    let gone := fun (cause : Nat) (z : Module) =>
      (∃ y : Module, z = (y.bump (odKey 0x5100 6) 1).event fu 0x0552 [p, cause, cs.countP m.cancels]) ∧
      (∀ c ∈ cs, c.opcode = 1 → c.state = 1 → (m.job c.job).state = 1 → z.job c.job =
        { Job.free with state := 4, endStatus := stCancelled, seed := (m.job c.job).seed, pendingSnap := (m.job c.job).pendingSnap }) ∧
      (∀ j, (m.job j).state = 2 → z.job j = { m.job j with run := { (m.job j).run with
        stepAsked := (m.job j).run.stepAsked && !cs.any (fun c => c.opcode == 3 && c.state == 1 && c.job == j) } }) ∧
      (∀ j, (m.job j).state = 3 ∨ (m.job j).state = 4 → z.job j = m.job j) ∧
      z.store = { m.store with writing := m.store.writing.filter (fun k =>
        !cs.any (fun c => c.opcode == 0x28 && c.state != 0 && c.state != 2 && (c.w 2, c.w 3) == k)) } ∧
      z.host.orphans = m.host.orphans ++ cs.filter (fun c => c.opcode == 0x18 && c.state != 0 && c.state != 2 && bitAt (c.w 4) 0) ∧
      (z.port p).ready = false ∧ (z.port p).agreed = 0 ∧ (z.port p).mailbox = Mailbox.reset ∧ (z.port p).perst = t.perst ∧
      (z.port p).up = t.up ∧ (∀ q, q < 16 → q / 8 = p → z.queue q = Queue.reset) ∧ otherQueues z ∧
      (∀ v ∈ z.mgmt.staged, v.path ≠ 8 + p) ∧ z.fw.session ≠ some (8 + p) ∧ z.cores = m.cores ∧ z.hbm = m.hbm ∧
      (cs = [] → z.jobs = m.jobs ∧ z.store = m.store) ∧
      KeepsBut (.ports :: .queues :: .mgmt :: .fw :: .jobs :: .store :: .orphans :: reporting) m z
    Goes s (.perstRelease p) (fun n => n.port p = { t with perst := false } ∧ otherPort n ∧ KeepsBut [.ports] m n) ∧
    (∀ gts width, t.perst = false → Goes s (.linkTrained p gts width) (fun n =>
      (n.port p).up = true ∧ (n.port p).gts = gts ∧ (n.port p).width = width ∧ (n.port p).ready = t.ready ∧
      n.calib = (m.latchAll (hostCalib p)).calib ∧
      (64 ≤ gts → 16 ≤ width → otherPort n ∧ KeepsBut [.ports, .calib] m n) ∧ KeepsBut (.ports :: .calib :: reporting) m n)) ∧
    (t.perst = false → t.ready = false → m.mgmt.reachable = true ∨ m.mgmt.romService = true ∧ p = 0 → Goes s (.functionReady p) (fun n =>
      n.port p = { t with ready := true, agreed := 0, mailbox := Mailbox.reset } ∧ otherPort n ∧
      (∀ q, q < 16 → q / 8 = p → n.queue q = Queue.reset) ∧ otherQueues n ∧ KeepsBut [.ports, .queues, .report] m n)) ∧
    (t.up = true →
      Goes s (.functionLevelReset p) (fun n => ∃ z, gone 3 z ∧ n = z.settle fu) ∧
      Goes s (.hotReset p) (fun n => ∃ z, gone 1 z ∧ n = (z.settle fu).onPort p Port.down) ∧
      Goes s (.linkDown p) (fun n => ∃ z, gone 2 z ∧ n = (z.settle fu).onPort p Port.down)) ∧
    (t.perst = false → Goes s (.perstAssert p) (fun n => ∃ z, gone 0 z ∧
      n = (z.settle fu).onPort p (fun x => { x.down with perst := true })))

/-! ### Management messages, firmware, attestation and stress -/

/-- R436, R437, R439, R443 to R448, R451, R452, R454, R550: a request that Capstan serves is answered on its path. A
VERSION_QUERY answers the version, the slot and the offered features; FEATURE_SET agrees the offered ones of a port; OD_READ
answers the value in force, or the path's staged one; OD_DESCRIBE type, access, default and range; OD_WRITE stages or stores the
clamped value, or is turned away by the first check that fails; a commit becomes pending, and its application puts its values in
force and starts its units; a discard empties the staging area; the fence objects fence and test cores. A repetition is answered
again without effect; a NOTIFY and a bad frame are only counted. -/
def Obligations.MessagesAreServed : Prop :=
  (∀ (s : State) (src : MsgFrom) (r : Req) (m : Module), Asks s src r m →
    let fu := s.fuse
    (r.type = 0x0001 → r.body = [] → Goes s (.versionQuery src) (Replies fu r stOk false false
      (leBytes 4 m.fwVersion ++ leBytes 1 m.fw.running ++ zeros 3 ++ leBytes 16 featuresOffered) (fun z => z = m))) ∧
    (r.type = 0x0002 → r.body.length = 16 → Goes s (.featureSet src) (Replies fu r stOk false false
      (leBytes 16 (leNat r.body &&& featuresOffered)) (fun z => (r.onField = true → z = m) ∧
        (∀ p, p < m.host.ports.length → r.path = 8 + p → (z.port p).agreed = leNat r.body &&& featuresOffered) ∧
        KeepsBut [.ports] m z))) ∧
    (∀ o d, r.object = some o → m.odAllowed r = true → objDef o.index o.sub = some d →
      let w := typeWidth d.type
      let key := odKey o.index o.sub
      (r.type = 0x0010 → w ≠ 0 → o.off = 0 → o.len = w →
        (o.staged = false → Goes s (.odRead src) (Replies fu r stOk (m.mgmt.clamped.contains key) (m.overridden o.index o.sub)
          (valueWord o d w ++ if d.access = 2 then zeros w else leBytes w (m.odScalar fu o.index o.sub)) (fun z => z = m))) ∧
        (∀ v, o.staged = true → m.stagedOf r.path key = some v → Goes s (.odRead src)
          (Replies fu r stOk v.clamped (m.overridden o.index o.sub) (valueWord o d w ++ leBytes w v.value) (fun z => z = m)))) ∧
      (r.type = 0x0010 → d.type = 8 → o.staged = false → o.index ≠ 0x8030 → o.len ≤ pathLimit r.path - 8 →
        let whole := m.odBytes fu d o.index o.sub
        (o.off + o.len ≤ whole.length → Goes s (.odRead src) (Replies fu r stOk (m.mgmt.clamped.contains key)
          (m.overridden o.index o.sub) (valueWord o d o.len ++ slice whole o.off o.len) (fun z => z = m))) ∧
        (whole.length < o.off + o.len → Goes s (.odRead src) (Replies fu r stBadIndex false false [] (fun z => z = m)))) ∧
      (r.type = 0x0012 →
        (w ≠ 0 → o.len = 0 ∨ o.len = w → Goes s (.odDescribe src) (Replies fu r stOk false false
          (valueWord o d w ++ (leBytes w (m.odDefaultOf fu d o.index o.sub) ++ leBytes w (declaredRange fu d o.index o.sub).1 ++
            leBytes w (declaredRange fu d o.index o.sub).2)) (fun z => z = m))) ∧
        (w = 0 → Goes s (.odDescribe src) (Replies fu r stOk false false (valueWord o d 4 ++ leBytes 4 d.len) (fun z => z = m))))) ∧
    (∀ o, r.object = some o → m.odAllowed r = true → objDef o.index o.sub = none → r.type = 0x0012 →
      Goes s (.odDescribe src) (Replies fu r stBadIndex false false [] (fun z => z = m))) ∧
    (∀ st, r.type = 0x0011 → r.writeRow = 0 → m.writeCheck r = (st, none) →
      Goes s (.odWrite src) (Replies fu r st false false [] (fun z => z = m))) ∧
    (∀ o d, Writes m r 0 o d → d.type ≠ 8 →
      let key := odKey o.index o.sub
      let x := storedValue fu d o.index o.sub (leNat o.data)
      let inRange := (m.mgmt.staged.filter (fun v => !(v.path == r.path && v.key == key))).countP
        (fun v => v.path == r.path && odRange (v.key / 256) == odRange (key / 256))
      (d.access = 3 → inRange < 64 → Goes s (.odWrite src) (Replies fu r stOk (x != leNat o.data) false [] (fun z =>
        (z.stagedOf r.path key).map Staged.value = some x ∧
        (∀ p k, p ≠ r.path ∨ k ≠ key → z.stagedOf p k = m.stagedOf p k) ∧ KeepsBut [.mgmt] m z))) ∧
      (d.access = 3 → 64 ≤ inRange → Goes s (.odWrite src) (Replies fu r stDenied false false [] (fun z => z = m))) ∧
      (d.access ≠ 3 → Goes s (.odWrite src) (Replies fu r stOk (x != leNat o.data) false [] (fun z =>
        z.odGet key = x ∧ (∀ k, k ≠ key → z.odGet k = m.odGet k) ∧ KeepsBut [.od, .mgmt] m z)))) ∧
    (∀ o d, Writes m r 1 o d →
      let n := odRange o.index
      let vals := m.stagedIn r.path n
      let emptied := fun (z : Module) =>
        ∀ v, v ∈ z.mgmt.staged ↔ v ∈ m.mgmt.staged ∧ ¬(v.path = r.path ∧ odRange (v.key / 256) = n)
      (leNat o.data ≠ 1 → Goes s (.rangeCommit src) (Replies fu r stMalformed false false [] (fun z => z = m))) ∧
      (leNat o.data = 1 → m.odGet (odKey o.index 2) = 1 →
        Goes s (.rangeCommit src) (Replies fu r stDenied false false [] (fun z => z = m))) ∧
      (leNat o.data = 1 → m.odGet (odKey o.index 2) ≠ 1 → vals = [] →
        Goes s (.rangeCommit src) (Replies fu r stEmptyOp false false [] (fun z => z = m))) ∧
      (leNat o.data = 1 → m.odGet (odKey o.index 2) ≠ 1 → vals ≠ [] → (m.breaks n vals true).isSome = true →
        Goes s (.rangeCommit src) (Replies fu r stDenied false false [] (fun z =>
          z.odGet (odKey o.index 2) = 3 ∧ emptied z ∧ z.mgmt.commits = m.mgmt.commits ∧ KeepsBut [.od, .mgmt] m z))) ∧
      (leNat o.data = 1 → m.odGet (odKey o.index 2) ≠ 1 → vals ≠ [] → m.breaks n vals true = none →
        Goes s (.rangeCommit src) (Replies fu r stOk false false [] (fun z =>
          z.odGet (odKey o.index 2) = 1 ∧ emptied z ∧
          z.mgmt.commits = m.mgmt.commits ++ [{ range := n, path := r.path, vals := vals }] ∧ KeepsBut [.od, .mgmt] m z)))) ∧
    (∀ o d, Writes m r 2 o d → Goes s (.rangeDiscard src) (Replies fu r stOk false false [] (fun z =>
      (∀ v, v ∈ z.mgmt.staged ↔ v ∈ m.mgmt.staged ∧ ¬(v.path = r.path ∧ odRange (v.key / 256) = odRange o.index)) ∧
      KeepsBut [.mgmt] m z))) ∧
    (∀ o d, Writes m r 3 o d → m.cores.length = 384 →
      let base := 32 * (o.sub - 1)
      let old := field m.mgmt.mirror base 32
      let sets := newBits old (leNat o.data) 32
      let clears := newBits (leNat o.data) old 32
      ((∃ b ∈ clears, (m.core (b + base)).origin = 1) →
        Goes s (.coreFenceMask src) (Replies fu r stDenied false false [] (fun z => z = m))) ∧
      (clears = [] → Goes s (.coreFenceMask src) (Replies fu r stOk false false [] (fun z =>
        (∀ b ∈ sets, (z.core (b + base)).fenced = true ∧ bitAt z.mgmt.mirror (b + base) = true ∧
          ((m.core (b + base)).fenced = false → (z.core (b + base)).origin = 2)) ∧
        z.hbm = m.hbm ∧ ((∀ b ∈ sets, (m.core (b + base)).job = none) → KeepsBut (.cores :: .mgmt :: reporting) m z)))) ∧
      (sets = [] → (∀ b ∈ clears, (m.core (b + base)).origin ≠ 1) →
        Goes s (.coreFenceMask src) (Replies fu r stOk false false [] (fun z =>
          (∀ b ∈ clears, (m.core (b + base)).fenced = true → (m.die (dieOf (b + base))).ready = true →
            z.core (b + base) = { (m.core (b + base)).stop 0 with testing := true, bypass := true }) ∧
          KeepsBut (.cores :: .mgmt :: reporting) m z)))) ∧
    (∀ o d, Writes m r 4 o d → m.cores.length = 384 → Goes s (.coreReset src) (Replies fu r stOk false false [] (fun z =>
      let base := 32 * (o.sub - 1)
      (∀ b ∈ setBits (leNat o.data) 32, (m.core (b + base)).fenced = true → (m.die (dieOf (b + base))).ready = true →
        z.core (b + base) = { (m.core (b + base)).stop 0 with testing := true, bypass := true }) ∧
      (∀ g, (m.core g).fenced = false → z.core g = m.core g) ∧ KeepsBut (.cores :: reporting) m z))) ∧
    (∀ o d, Writes m r 5 o d → Goes s (.recordWindow src) (Replies fu r stOk false false [] (fun z =>
      z.mgmt.windows.get r.path = leNat o.data ∧ (∀ p, p ≠ r.path → z.mgmt.windows.get p = m.mgmt.windows.get p) ∧
      KeepsBut [.mgmt] m z)))) ∧
  (∀ (s : State), s.m.powered = true → s.m.mgmt.reachable = true → s.m.mgmt.romService = false →
    let m := s.m
    let fu := s.fuse
    (∀ src r msg, src.wf = true → m.reqOf fu src = some r → r.type = 0x0011 → r.writeRow = 0 → bitAt r.flags 0 = false →
      (m.takeFrame fu r).keptFor r = some msg →
      Goes s (.odWrite src) (fun n => n = (m.takeFrame fu r).sendFrame fu r.mac r.node msg)) ∧
    (∀ src r, src.wf = true → m.reqOf fu src = some r → r.type = 0x0020 → Goes s (.notify src) (fun n =>
      (r.onField = true → r.node ≠ m.power.node → n.odGet (odKey 0x1010 5) = (m.odGet (odKey 0x1010 5) + 1) % 2 ^ 64) ∧
      (∀ p, p < m.host.ports.length → r.path = 8 + p →
        (n.port p).mailbox = { (m.port p).mailbox with busy := false, taken := none }) ∧
      KeepsBut reporting m n)) ∧
    (∀ bytes, m.fieldUp = true → m.judgeFrame fu bytes = 1 → Goes s (.frameBad bytes) (fun n =>
      n.odGet (odKey 0x1010 7) = (m.odGet (odKey 0x1010 7) + 1) % 2 ^ 64 ∧ KeepsBut [.od] m n)) ∧
    (∀ k uw c, 1 ≤ k → k ≤ 10 → m.mgmt.commits.find? (fun x => x.range == k) = some c → m.commitWaits c = true →
      Goes s (.commitApply k uw) (fun n => n = m)) ∧
    (∀ k uw c, 1 ≤ k → k ≤ 10 → m.mgmt.commits.find? (fun x => x.range == k) = some c → m.commitWaits c = false →
      let taken : Module := { m with mgmt := { m.mgmt with commits := m.mgmt.commits.filter (fun x => x.range != k) } }
      let x := if k = 5 then taken.powerInputs fu c.vals uw else taken
      let state := odKey (0x1000 * k + 0x0FE) 2
      let count := odKey (0x1000 * k + 0x0FE) 3
      (∀ key, x.breaks k c.vals false = some key → Goes s (.commitApply k uw) (fun n =>
        n.odGet state = 3 ∧ (∀ x ∈ n.mgmt.commits, x.range ≠ k) ∧ KeepsBut (.mgmt :: .lasers :: reporting) m n)) ∧
      (x.breaks k c.vals false = none → (c.vals.map Staged.key).Nodup →
        (∀ v ∈ c.vals, v.key ≠ state ∧ v.key ≠ count) → Goes s (.commitApply k uw) (fun n => ∃ y : Module,
          (∀ v ∈ c.vals, y.odGet v.key = v.value ∧ (odPersists v.key = true →
            (NatMap.find? y.saved v.key).getD (odDefault v.key) = v.value)) ∧
          y.odGet state = 2 ∧ y.odGet count = (x.odGet count + 1) % 2 ^ 32 ∧
          (∀ key, key ∉ c.vals.map Staged.key → key ≠ state → key ≠ count → y.odGet key = x.odGet key) ∧
          (∀ d ∈ y.mgmt.commits, d.range ≠ k) ∧ KeepsBut [.od, .saved, .mgmt] x y ∧
          n = Module.startUnits fu m y k c.path c.vals))))

/-- R444, R457, R488, R540 to R542: what firmware updates, attestation and the field stress test do. BEGIN opens the path's
session on the slot that does not run and writes its header; DATA writes its bytes; END makes a whole, verified slot VALID and
closes the session, and leaves the slot as it is where a check fails; ACTIVATE puts a VALID slot on trial; ABORT and 60 silent
seconds close the session; and the running slot is never written. A nonce latches the contents of a report, and its end stands
in attest_report. A stress test starts where no job is, counts its runs, fences the cores that fail, and ends when it is told to. -/
def Obligations.FirmwareTrustAndStressAct : Prop :=
  (∀ (s : State) (src : MsgFrom) (r : Req) (m : Module), Asks s src r m → m.fw.slots.length = 2 → m.fw.running < 2 →
    let fu := s.fuse
    let i := m.fw.target
    let t := m.fw.slot i
    let runs := fun (z : Module) => z.fw.running = m.fw.running ∧ z.fw.slot m.fw.running = m.fw.slot m.fw.running
    (Updates m r 1 → m.fw.session = none → leAt r.body 16 8 ≤ 2 ^ 28 - 64 →
      Goes s (.fwUpdateBegin src) (Replies fu r stOk false false [] (fun z =>
        z.fw.session = some r.path ∧ (z.fw.slot i).state = 0 ∧ (z.fw.slot i).data = Mem.write [] 0 (r.body.drop 8) ∧
        (z.fw.slot i).written = [(0, 64)] ∧ runs z ∧ KeepsBut [.fw] m z))) ∧
    (Updates m r 1 → m.fw.session.isSome = true →
      Goes s (.fwUpdateBegin src) (Replies fu r stDenied false false [] (fun z => z = m))) ∧
    (Updates m r 2 → m.fw.session = some r.path → leAt r.body 8 8 + (r.body.length - 16) ≤ t.blockEnd →
      Goes s (.fwUpdateData src) (Replies fu r stOk false false [] (fun z =>
        z.fw.slot i = { t with data := t.data.write (leAt r.body 8 8) (r.body.drop 16),
                               written := addPiece t.written (leAt r.body 8 8) (r.body.length - 16) } ∧
        z.fw.session = m.fw.session ∧ runs z ∧ KeepsBut [.fw] m z))) ∧
    (Updates m r 3 → m.fw.session = some r.path →
      (t.whole = false → ∀ ups, Goes s (.fwUpdateEnd src ups) (Replies fu r stDenied false false [] (fun z =>
        z.fw = { m.fw with session := none } ∧ KeepsBut (.fw :: reporting) m z))) ∧
      (t.whole = true → ∀ ups,
        let verified := (({ m.fw with session := none } : Firmware).verify fu i true).1
        let kept := fun (z : Module) => (ups = [] → z.store = m.store) ∧ KeepsBut (.fw :: .store :: reporting) m z
        (slotLost ups = false → verified = 0 → Goes s (.fwUpdateEnd src ups) (Replies fu r stOk false false [] (fun z =>
          z.fw.session = none ∧ z.fw.slot i = { t with state := 1 } ∧ runs z ∧ kept z))) ∧
        (slotLost ups = false → verified ≠ 0 → Goes s (.fwUpdateEnd src ups) (Replies fu r stDenied false false [] (fun z =>
          z.fw = { m.fw with session := none } ∧ kept z))) ∧
        (slotLost ups = true → Goes s (.fwUpdateEnd src ups) (Replies fu r stPoison false false [] (fun z =>
          z.fw = { m.fw with session := none } ∧ kept z))))) ∧
    (Updates m r 4 → t.state = 1 → Goes s (.fwUpdateActivate src) (Replies fu r stOk false false [] (fun z =>
      z.fw.slot i = { t with state := 2, trials := 0 } ∧ runs z ∧ KeepsBut [.fw] m z))) ∧
    (Updates m r 4 → t.state ≠ 1 → Goes s (.fwUpdateActivate src) (Replies fu r stDenied false false [] (fun z => z = m))) ∧
    (Updates m r 5 → m.fw.session = some r.path → Goes s (.fwUpdateAbort src) (Replies fu r stOk false false [] (fun z =>
      z.fw = { m.fw with session := none } ∧ KeepsBut [.fw] m z))) ∧
    (m.fw.session ≠ some r.path → ∀ ups, ∀ c ∈ [(2, Instr.fwUpdateData src), (3, Instr.fwUpdateEnd src ups), (5, Instr.fwUpdateAbort src)],
      Updates m r c.1 → Goes s c.2 (Replies fu r stDenied false false [] (fun z => z = m))) ∧
    (∀ o d, Writes m r 6 o d →
      (m.trust.secOk = true → m.trust.forming = none → Goes s (.attestNonce src) (Replies fu r stOk false false [] (fun z =>
        z.trust = { m.trust with forming := some (r.path, m.reportBody fu o.data) } ∧ KeepsBut [.trust] m z))) ∧
      (m.trust.secOk = true → m.trust.forming.isSome = true →
        Goes s (.attestNonce src) (Replies fu r stDenied false false [] (fun z => z = m))) ∧
      (m.trust.secOk = false → Goes s (.attestNonce src) (Replies fu r stUnsupported false false [] (fun z => z = m)))) ∧
    (∀ o d, Writes m r 7 o d → leNat o.data = 1 → m.stress.state = 0 →
      (m.jobs.any (fun b => b.state == 1 || b.live) = false → Goes s (.stressRunStart src) (Replies fu r stOk false false []
        (fun z => z.stress = { state := 1, runs := 0, fencedCores := 0 } ∧ KeepsBut [.stress] m z))) ∧
      (m.jobs.any (fun b => b.state == 1 || b.live) = true →
        Goes s (.stressRunStart src) (Replies fu r stDenied false false [] (fun z => z = m)))) ∧
    (∀ o d, Writes m r 8 o d → m.stress.state = 1 → Goes s (.stressRunStop src) (Replies fu r stOk false false [] (fun z =>
      z.stress = { m.stress with state := 2 } ∧ KeepsBut [.stress] m z)))) ∧
  (∀ (s : State), s.m.powered = true →
    let m := s.m
    Goes s .fwSessionTimeout (fun n => n.fw = { m.fw with session := none } ∧ KeepsBut [.fw] m n) ∧
    (∀ path body, m.trust.forming = some (path, body) → Goes s .attestationReportDone (fun n =>
      n.trust = { m.trust with
        forming := none, report := body ++ (List.range 512).map (Config.attestSignature body) } ∧
      KeepsBut (.trust :: reporting) m n)) ∧
    (∀ held, m.stress.state ≠ 0 →
      (∀ fails, (∀ f ∈ fails, f.1 < 384) → Goes s (.stressRunEnd fails held) (fun n =>
        (∀ f ∈ fails, (m.core f.1).live = true → (n.core f.1).fenced = true ∧ (n.core f.1).origin = 1) ∧
        (m.stress.state = 1 → n.stress.state = 1 ∧
          n.stress.runs = m.stress.runs + (if held || m.anyHeld then 0 else 1)) ∧ n.hbm = m.hbm)) ∧
      Goes s (.stressRunEnd [] held) (fun n =>
        (m.stress.state ≠ 2 → n.stress = { m.stress with runs := m.stress.runs + (if held || m.anyHeld then 0 else 1) } ∧
          KeepsBut [.stress] m n) ∧
        (m.stress.state = 2 → n.stress = { state := 0, runs := 0, fencedCores := 0 } ∧ KeepsBut (.stress :: reporting) m n)) ∧
      Goes s .stressTestEnd (fun n =>
        n.stress = { state := 0, runs := 0, fencedCores := 0 } ∧ KeepsBut (.stress :: reporting) m n)))

/-! ### Power, start, clocks and light -/

/-- R456, R466, R490, R493, R495, R498, R499, R512, R513, R516, R518, R519: the input and the starts. 54 V past 39 V begins the
precharge; PWRGD starts every block at its default, with the straps and the rank that MASTER_SEL asks for; Capstan's start makes
the dictionary reachable and confirms a slot on trial. The fall of PWRGD switches the dies and stacks off, and the end of the
hold-up leaves what flash and fuses hold. MRST_N gives 30 ms of grace, then every block is at its default, and its rise starts
the boot ROM. A junction at 115 degrees turns everything off with a snapshot of cause 4. A watchdog expiry or a mismatch takes
Capstan away with a snapshot, and its return discards staged values and rebuilds the mirror. -/
def Obligations.PowerStartsAndStopsTheModule : Prop :=
  ∀ (s : State),
    let m := s.m
    let fu := s.fuse
    let bare := fun (o : Obj) => { o with place := [], poison := [] }
    let atDefault := fun (slots : List (Nat × List FlashUpset)) (n : Module) =>
      n.cores = Module.reset.cores ∧ n.clusters = Module.reset.clusters ∧ n.hbm = [] ∧ n.hbmPoison = [] ∧ n.bursts = [] ∧
      n.jobs = Module.reset.jobs ∧ n.residency = [] ∧ n.hawsers = Module.reset.hawsers ∧ n.links = Module.reset.links ∧
      n.dies = Module.reset.dies ∧ n.host.queues = Module.reset.host.queues ∧ n.mgmt.staged = [] ∧ n.mgmt.reachable = false ∧
      (slots = [] → n.store.objs = m.store.objs) ∧ n.store.objs.map bare = m.store.objs.map bare ∧ (∀ p ∈ n.host.ports, p.ready = false)
    (∀ mv, m.power.phase = .off → 39000 ≤ mv → Goes s (.powerApply mv) (fun n =>
      n.power = { m.power with phase := .precharge, mv := mv, outOfRange := decide (60000 < mv) || decide (mv < 40000) } ∧
      KeepsBut [.power] m n)) ∧
    (∀ masterSel node ref finds, m.power.phase = .precharge → Goes s (.pwrgdAssert masterSel node ref finds) (fun n =>
      n.powered = true ∧ n.power.masterSel = masterSel ∧ n.power.node = node % 8 ∧ (masterSel = true → n.rank = 0) ∧
      n.odGet (odKey 0x1010 2) = node % 8 ∧ n.fw.bootStage = 1 ∧ n.trust.secOk = finds.secOk ∧ atDefault finds.slots n)) ∧
    (m.powered = true → m.mgmt.reachable = false → m.mgmt.romService = false → m.mgmt.restartCause = 0 →
      Goes s .dictionaryReachable (fun n =>
        n.mgmt.reachable = true ∧ n.mgmt.capstanUp = true ∧ n.mgmt.staged = [] ∧ n.mgmt.held = [] ∧
        (∀ t, m.fw.slots[m.fw.running]? = some t → t.state = 2 → (n.fw.slot m.fw.running).state = 3) ∧
        n.fw.running = m.fw.running ∧ KeepsBut (.mgmt :: .fw :: reporting) m n)) ∧
    (m.power.phase = .on → Goes s .powerLoss (fun n =>
      n.powered = false ∧ n.pwrgd = false ∧ n.power.phase = .holdup ∧ n.cores = m.cores.map (fun _ => Core.reset) ∧
      n.hbm = [] ∧ n.hbmPoison = [] ∧ (∀ d ∈ n.hbmStacks, d.ready = false) ∧ n.log.ring = [] ∧
      n.store = { m.store with writing := [] } ∧ n.fw = m.fw)) ∧
    (m.power.phase = .holdup → Goes s .holdupEnd (fun n =>
      n.power.phase = .off ∧ n.saved = m.saved ∧ n.od = m.saved ∧ n.log.part = m.log.part ∧ atDefault [] n)) ∧
    (m.powered = true → m.power.grace = false → Goes s .mrstNAssert (fun n =>
      n.power = { m.power with mrstPin := true, grace := true } ∧ n.powered = true ∧ n.log.ring = [] ∧
      KeepsBut [.power, .log, .od, .saved] m n)) ∧
    (∀ finds, m.powered = true → m.power.grace = true → Goes s (.mrstGraceEnd finds) (fun n =>
      n.power.phase = .on ∧ n.power.grace = false ∧ n.power.mrst = m.power.mrstPin ∧
      n.odGet (odKey 0x7130 7) = m.odGet (odKey 0x7130 7) ∧ atDefault finds.slots n)) ∧
    (∀ finds, m.power.mrstPin = true →
      (m.power.phase = .on → m.power.mrst = true → Goes s (.mrstNRelease finds) (fun n =>
        n.powered = true ∧ n.power.mrstPin = false ∧ n.fw.bootStage = 1 ∧ atDefault finds.slots n)) ∧
      (m.power.phase = .tripped → Goes s (.mrstNRelease finds) (fun n =>
        n.power = { m.power with mrstPin := false, phase := .precharge, thermtrip := false } ∧ KeepsBut [.power] m n))) ∧
    (∀ d c, d < 52 → m.powered = true → (m.die d).ready = true ∨ (m.die d).enabled = true → 115 ≤ c → Goes s (.thermalTrip d c) (fun n =>
      n.power.phase = .tripped ∧ n.power.thermtrip = true ∧ n.powered = false ∧ n.pwrgd = false ∧
      (m.log.nextSlot < m.log.slots.length →
        ∃ r, n.log.slots[m.log.nextSlot]? = some (some r) ∧ r.cause = 4 ∧ r.code = 0 ∧ r.reported = false) ∧ atDefault [] n)) ∧
    (m.powered = true → m.mgmt.capstanUp = true → ∀ c ∈ [(1, Instr.capstanRestart), (2, Instr.watchdogExpiry)],
      Goes s c.2 (fun n =>
        n.mgmt.capstanUp = false ∧ n.mgmt.reachable = false ∧ n.mgmt.restartCause = c.1 ∧
        (m.log.nextSlot < m.log.slots.length →
          ∃ r, n.log.slots[m.log.nextSlot]? = some (some r) ∧ r.cause = 2 ∧ r.code = 0x0A06) ∧
        KeepsBut [.mgmt, .log, .freeNo] m n)) ∧
    (∀ ms, m.powered = true → m.mgmt.capstanUp = false → m.mgmt.restartCause ≠ 0 → Goes s (.capstanBack ms) (fun n =>
      ∃ z, n = z.settle fu ∧ z.mgmt.capstanUp = true ∧ z.mgmt.reachable = true ∧ z.mgmt.staged = [] ∧ z.mgmt.held = [] ∧
        z.mgmt.restartCause = 0 ∧ z.mgmt.mirror = m.fenceWord ∧ KeepsBut (.mgmt :: reporting) m z))

/-- R466, R499, R503, R504, R505, R507 to R510, R520, R529, R534: what watches the module from outside the commands. An
excursion of the input asserts ALERT_N until it returns; a lost reference is held, and its return changes nothing else; after
10 ms every job ends with TIMEOUT and the dies and stacks are at their defaults. A junction at 100 degrees lowers the thermal
hold of its die, a droop counts unless every core of the die is fenced, an overload takes every die to 1.05 GHz, a window meters the input, and a die switches to the
slowest of its request and holds. A failing laser source loses the ports it feeds; one that is mated is present; an end of life is a reason for replacement;
and a module that hears no beacon sends no frame. -/
def Obligations.LoopsAndSourcesAct : Prop :=
  ∀ (s : State), s.m.powered = true →
    let m := s.m
    (∀ mv, mv < 40000 ∨ 60000 < mv → Goes s (.inputRangeExcursion mv) (fun n =>
      n.power = { m.power with mv := mv, outOfRange := true } ∧ n.alert = true ∧ KeepsBut (.power :: reporting) m n)) ∧
    (∀ mv, 40000 ≤ mv → mv ≤ 60000 → Goes s (.inputRangeReturn mv) (fun n =>
      n.power = { m.power with mv := mv, outOfRange := false } ∧ KeepsBut [.power] m n)) ∧
    (∀ ppm, m.power.refState = 0 → Goes s (.referenceLoss ppm) (fun n =>
      n.power = { m.power with refState := 1 } ∧ n.alert = true ∧ KeepsBut (.power :: reporting) m n)) ∧
    Goes s .referenceReturn (fun n => n.power = { m.power with refState := 0 } ∧ KeepsBut [.power] m n) ∧
    (m.power.refState = 1 → m.jobs.length = 16 → Goes s .holdoverExpiry (fun n => ∃ z : Module, n = z.settle s.fuse ∧
      z.power.refState = 2 ∧ z.cores = m.cores.map (fun _ => Core.reset) ∧ z.hbm = [] ∧
      (∀ j, j < 16 → 1 ≤ (m.job j).state → (m.job j).state ≤ 3 →
        (z.job j).state = 4 ∧ (z.job j).endStatus = stTimeout) ∧
      (∀ j, j < 16 → (m.job j).state = 0 ∨ 4 ≤ (m.job j).state → (z.job j).state = (m.job j).state) ∧
      z.odGet (odKey 0x3020 1) = 2 ^ 48 ∧ z.odGet (odKey 0x4010 1) = 0 ∧ z.odGet (odKey 0x5220 1) = 0)) ∧
    (∀ d, d < 52 → d < m.dies.length → (m.die d).ready = true →
      let x := m.die d
      (∀ c, d < 48 → 95 < c → c < 100 → Goes s (.junctionSample d c) (fun n =>
        n.die d = { x with tj := c, hotSamples := 0, coolSamples := 0 } ∧ KeepsBut [.dies] m n)) ∧
      (∀ c, d < 48 → 100 ≤ c → Goes s (.junctionSample d c) (fun n =>
        (n.die d).tj = c ∧ (n.die d).hotSamples = x.hotSamples + 1 ∧
        (n.die d).thermalHold = x.thermalHold + (if x.hotSamples % 10 = 0 ∧ x.thermalHold < 4 then 1 else 0) ∧
        (x.point = 4 → 103 ≤ c → (n.die d).gating = true) ∧ (∀ e, e ≠ d → n.die e = m.die e) ∧
        KeepsBut (.dies :: reporting) m n)) ∧
      (∀ c, d < 48 → c ≤ 95 → Goes s (.junctionSample d c) (fun n =>
        (n.die d).tj = c ∧ (n.die d).hotSamples = 0 ∧
        (x.coolSamples + 1 < 100 → (n.die d).thermalHold = x.thermalHold ∧ (n.die d).gating = x.gating) ∧
        (100 ≤ x.coolSamples + 1 → (n.die d).gating = false ∧
          (n.die d).thermalHold = if x.gating then x.thermalHold else x.thermalHold - 1) ∧
        (∀ e, e ≠ d → n.die e = m.die e) ∧ KeepsBut (.dies :: reporting) m n)) ∧
      (∀ c, 48 ≤ d → Goes s (.junctionSample d c) (fun n =>
        (n.die d).tj = c ∧ (100 ≤ c → d = 49 ∨ d = 51 → (n.die d).channelHalf = true) ∧
        (c ≤ 95 → (n.die d).channelHalf = false) ∧ KeepsBut (.dies :: reporting) m n)) ∧
      (∀ mv cycles, d < 48 → (∀ i, i < 8 → (m.core (8 * d + i)).fenced = true) → Goes s (.droop d mv cycles) (fun n => n = m)) ∧
      (∀ mv cycles i, d < 48 → i < 8 → (m.core (8 * d + i)).fenced = false → 40 < mv → 16 ≤ cycles → Goes s (.droop d mv cycles) (fun n =>
        ((n.die d).droopStalls = x.droopStalls + 1 ∧ (n.die d).deepestDroop = max x.deepestDroop mv ∨
          (n.die d).droopStalls = 0 ∧ (n.die d).deepestDroop = 0) ∧ (n.die d).point = x.point ∧
        KeepsBut (.dies :: reporting) m n)) ∧
      (d < 48 → Goes s (.aPointSwitch d) (fun n =>
        n.die d = { x with point := max (m.dieRequest d) (max x.thermalHold m.power.powerHold) } ∧
        (∀ e, e ≠ d → n.die e = m.die e) ∧ KeepsBut [.dies] m n))) ∧
    (∀ w a, 27000 < w ∨ 675 < a → m.power.powerHold < 4 → Goes s (.fastPowerWindow w a) (fun n =>
      n.power.powerHold = 4 ∧ n.power.highCount = 0 ∧ n.power.lowCount = 0 ∧ KeepsBut (.power :: reporting) m n)) ∧
    (∀ w a mv, Goes s (.powerWindow w a mv) (fun n =>
      n.odGet (odKey 0x2030 2) = mv ∧ n.odGet (odKey 0x2030 3) = w ∧
      (m.powerLimit < w ∨ 600 < a → m.power.highCount < 9 →
        n.power.highCount = m.power.highCount + 1 ∧ n.power.lowCount = 0 ∧ n.power.powerHold = m.power.powerHold) ∧
      (m.powerLimit < w ∨ 600 < a → 9 ≤ m.power.highCount → n.power.highCount = 0 ∧
        n.power.powerHold = min 4 (m.power.powerHold + 1) ∨ 4 < m.power.powerHold ∨
        m.power.powerHold = 4 ∧ n.power.gating = true) ∧
      (100 * w ≤ 95 * m.powerLimit → 100 * a ≤ 95 * 600 → 99 ≤ m.power.lowCount → n.power.lowCount = 0 ∧ n.power.gating = false ∧
        n.power.powerHold = if m.power.gating then m.power.powerHold else m.power.powerHold - 1) ∧
      KeepsBut (.power :: reporting) m n)) ∧
    (∀ i, i < 2 → i < m.lasers.length → (m.lasers.getD i Laser.none).present = true →
      let l := m.lasers.getD i Laser.none
      let lost := fun (n : Module) => ∀ k, k < 8 → (n.hawser (8 * i + k)).up = false
      Goes s (.lsFault i) (fun n => (n.lasers.getD i Laser.none).faultLow = true ∧
        (l.powered = true → (n.lasers.getD i Laser.none).state = 3 ∧ lost n) ∧ (l.powered = false → KeepsBut [.lasers] m n)) ∧
      Goes s (.lsEol i) (fun n => (n.lasers.getD i Laser.none).eolLow = true ∧
        (l.powered = true → l.faultLow = false → l.dim = false →
          (n.lasers.getD i Laser.none).state = 2 ∧ bitAt (n.odGet (odKey 0x1F10 1)) 4 = true) ∧
        KeepsBut (.lasers :: reporting) m n) ∧
      (∀ uw, l.powered = true → uw < 19953 → Goes s (.laserPowerLow i uw) (fun n =>
        (n.lasers.getD i Laser.none).uw = uw ∧ (n.lasers.getD i Laser.none).state = 3 ∧ lost n)) ∧
      (∀ uw, Goes s (.lsPresentNChange i false uw) (fun n =>
        (n.lasers.getD i Laser.none).present = false ∧ (n.lasers.getD i Laser.none).state = 0 ∧ lost n))) ∧
    (∀ i uw, i < 2 → i < m.lasers.length → (m.lasers.getD i Laser.none).present = false → Goes s (.lsPresentNChange i true uw) (fun n =>
      (n.lasers.getD i Laser.none).present = true ∧ (n.lasers.getD i Laser.none).faultLow = false ∧
      (n.lasers.getD i Laser.none).eolLow = false ∧ (∀ k, k ≠ i → n.lasers[k]? = m.lasers[k]?) ∧ KeepsBut [.lasers] m n)) ∧
    (m.power.node ≠ 0 → Goes s .beaconLoss (fun n => n.mgmt = { m.mgmt with beaconLost := true } ∧ n.fieldUp = false ∧
      KeepsBut [.mgmt] m n)) ∧
    Goes s .beaconReturn (fun n => n.mgmt = { m.mgmt with beaconLost := false } ∧ KeepsBut [.mgmt] m n)

/-! ### The tree and selection -/

/-- R291: in a rope of N modules (its declared size is at most 256, R290) the parent of rank k > 0 is (k − 1) / 2, its children
are 2k + 1 and 2k + 2 where they are below N; c(k) is the number of ranks whose way up leads through k, k among them; the
level offset is ceil(log2 c(k)); and the deepest rank of 256 lies 8 hops below rank 0. -/
def Obligations.TheTreeIsHeapOrdered : Prop :=
  let up := fun (r : Nat) => (r - 1) / 2
  let hops := fun (h r : Nat) => (List.range h).foldl (fun x _ => up x) r
  (∀ size k, 1 ≤ size → size ≤ 256 → k < size →
    (0 < k → bondPartner k 0 = (k - 1) / 2) ∧ (bondNeeded k size 0 = true ↔ 0 < k) ∧
    (bondPartner k 1 = 2 * k + 1 ∧ (bondNeeded k size 1 = true ↔ 2 * k + 1 < size)) ∧
    (bondPartner k 2 = 2 * k + 2 ∧ (bondNeeded k size 2 = true ↔ 2 * k + 2 < size)) ∧
    contributors size k = (List.range size).countP (fun r => (List.range (r + 1)).any (fun h => hops h r == k)) ∧
    2 ^ levelOffset (contributors size k) < 2 * contributors size k ∧
    contributors size k ≤ 2 ^ levelOffset (contributors size k)) ∧
  (∀ r, r < 256 → hops 8 r = 0) ∧ hops 7 255 ≠ 0

/-- R475: core tile number j of an instruction is selected exactly when (e + 13j + t) mod D = 0, with the reel entry number e of
the instantiation, or 0 outside a TAKE region, and the job's committed step count t; j counts the core tiles in the level-3
order; and two tiles with the same e, j, t and D are selected alike, whatever their cores, dies, attempts and modules. -/
def Obligations.SelectionFollowsItsFormula : Prop :=
  (∀ (m : Module) (t : Tile), dupDivisor ((m.job t.inst.job).run.latch.get (odKey 0x3120 6)) ≠ 0 →
    (m.dupSelected t = true ↔
      ((match t.inst.entry with | some x => x.e | none => 0) + 13 * t.number + (m.job t.inst.job).step) %
        dupDivisor ((m.job t.inst.job).run.latch.get (odKey 0x3120 6)) = 0)) ∧
  (∀ (m n : Module) (t u : Tile), u.number = t.number → u.inst.entry.map Entry.e = t.inst.entry.map Entry.e →
    (n.job u.inst.job).step = (m.job t.inst.job).step →
    dupDivisor ((n.job u.inst.job).run.latch.get (odKey 0x3120 6)) = dupDivisor ((m.job t.inst.job).run.latch.get (odKey 0x3120 6)) →
    n.dupSelected u = m.dupSelected t) ∧
  (∀ (m : Module) (i : Inst) (ups : List Upset) (x : MatOps) (kind : PairKind), ∀ w ∈ m.matWork i ups x kind,
    w.tile.inst = i ∧
    ∃ g s, (tileOrder (m.nOuter i) (groupCountOf (x.a.rowsIn (m.shapeOf i (readShape (hiOf i.words 4)))).length
        (m.job i.job).image.arrays) (ceilDiv (m.shapeOf i (readShape (loOf i.words 4))) 128))[w.tile.number]? = some (g, s) ∧
      w.tile.group = g ∧ w.tile.cols = colsOf (m.shapeOf i (readShape (loOf i.words 4))) s ∧
      w.tile.rows = rowsOf (x.a.rowsIn (m.shapeOf i (readShape (hiOf i.words 4)))) (m.job i.job).image.arrays g)
end

