-- ==== Sys2Proof/Laws/Mem.lean ====
section
/-!
SUPPORT. The laws of byte memories and sparse maps: what a read gives after a write, and that every operation keeps the
canonical form.
-/
namespace Sys2Proof.Laws

open Sys2Proof.Machine

/-! ### Byte memories: what a read gives -/

/-- No key of a list is `x`. -/
def NoKey (l : Mem) (x : Nat) : Prop := ∀ c ∈ l, c.1 ≠ x

/-- An address that no cell holds reads as zero. -/
theorem get_noKey (l : Mem) (x : Nat) (h : NoKey l x) : Mem.get l x = 0 := by
  induction l with
  | nil => rfl
  | cons c l ih =>
    have h1 : c.1 ≠ x := h c (by simp)
    simp only [Mem.get, if_neg h1]
    exact ih (fun d hd => h d (by simp [hd]))

/-- A list without the address in front changes nothing. -/
theorem get_append_left (l k : Mem) (x : Nat) (h : NoKey l x) : Mem.get (l ++ k) x = Mem.get k x := by
  induction l with
  | nil => rfl
  | cons c l ih =>
    have h1 : c.1 ≠ x := h c (by simp)
    simp only [List.cons_append, Mem.get, if_neg h1]
    exact ih (fun d hd => h d (by simp [hd]))

/-- A list without the address behind changes nothing. -/
theorem get_append_right (l k : Mem) (x : Nat) (h : NoKey k x) : Mem.get (l ++ k) x = Mem.get l x := by
  induction l with
  | nil => exact get_noKey k x h
  | cons c l ih =>
    simp only [List.cons_append, Mem.get]
    split
    · rfl
    · exact ih

/-- Cells kept by their address. -/
theorem get_filter (l : Mem) (p : Nat → Bool) (x : Nat) :
    Mem.get (l.filter (fun c => p c.1)) x = if p x then Mem.get l x else 0 := by
  induction l with
  | nil => simp [Mem.get]
  | cons c l ih =>
    by_cases hp : p c.1
    · by_cases hc : c.1 = x
      · subst hc; simp [List.filter, hp, Mem.get]
      · simp [List.filter, hp, Mem.get, hc, ih]
    · by_cases hc : c.1 = x
      · subst hc; simpa [List.filter, hp, Mem.get] using ih
      · simp [List.filter, hp, Mem.get, hc, ih]

/-- The addresses of the cells of a byte string. -/
theorem cells_key (bs : List Byte) (a : Nat) : ∀ c ∈ Mem.cells a bs, a ≤ c.1 ∧ c.1 < a + bs.length := by
  induction bs generalizing a with
  | nil => simp [Mem.cells]
  | cons b bs ih =>
    intro c hc
    have tail : ∀ c ∈ Mem.cells (a + 1) bs, a ≤ c.1 ∧ c.1 < a + (b :: bs).length := by
      intro d hd
      have := ih (a + 1) d hd
      simp only [List.length_cons]
      omega
    unfold Mem.cells at hc
    split at hc
    · exact tail c hc
    · rcases List.mem_cons.1 hc with rfl | h
      · simp
      · exact tail c h

/-- A byte of a byte string out of its cells. -/
theorem get_cells (bs : List Byte) (a x : Nat) (h1 : a ≤ x) (h2 : x < a + bs.length) :
    Mem.get (Mem.cells a bs) x = bs.getD (x - a) 0 := by
  induction bs generalizing a with
  | nil => simp at h2; omega
  | cons b bs ih =>
    have hno : x = a → NoKey (Mem.cells (a + 1) bs) x := by
      intro hx c hc
      have := cells_key bs (a + 1) c hc
      omega
    unfold Mem.cells
    by_cases hx : x = a
    · split
      · rename_i hb
        rw [get_noKey _ _ (hno hx)]
        simp [hx, hb]
      · simp [Mem.get, hx]
    · have e : x - a = (x - (a + 1)) + 1 := by omega
      have r := ih (a + 1) (by omega) (by simp at h2; omega)
      split
      · rw [r, e]; simp
      · simp only [Mem.get, if_neg (Ne.symm hx), r, e]; simp

/-- Reading a byte after bytes were stored: the stored byte inside them, what it was elsewhere. -/
theorem get_write (mem : Mem) (a x : Nat) (bs : List Byte) :
    (mem.write a bs).get x = if a ≤ x ∧ x < a + bs.length then bs.getD (x - a) 0 else mem.get x := by
  have lo := get_filter mem (fun k => decide (k < a)) x
  have hi := get_filter mem (fun k => decide (a + bs.length ≤ k)) x
  unfold Mem.write
  by_cases h1 : x < a
  · have n1 : NoKey (mem.filter (fun c => decide (a + bs.length ≤ c.1))) x := by
      intro c hc
      have := (List.mem_filter.1 hc).2
      simp at this; omega
    have n2 : NoKey (Mem.cells a bs) x := by
      intro c hc
      have := cells_key bs a c hc
      omega
    rw [get_append_right _ _ _ n1, get_append_right _ _ _ n2, lo]
    simp [h1]
  · have n0 : NoKey (mem.filter (fun c => decide (c.1 < a))) x := by
      intro c hc
      have := (List.mem_filter.1 hc).2
      simp at this; omega
    rw [List.append_assoc, get_append_left _ _ _ n0]
    by_cases h2 : x < a + bs.length
    · have n1 : NoKey (mem.filter (fun c => decide (a + bs.length ≤ c.1))) x := by
        intro c hc
        have := (List.mem_filter.1 hc).2
        simp at this; omega
      rw [get_append_right _ _ _ n1, get_cells bs a x (by omega) h2]
      simp [Nat.le_of_not_lt h1, h2]
    · have n2 : NoKey (Mem.cells a bs) x := by
        intro c hc
        have := cells_key bs a c hc
        omega
      rw [get_append_left _ _ _ n2, hi]
      have : a + bs.length ≤ x := by omega
      simp [this]

/-- Reading a byte after a range was cleared. -/
theorem get_clear (mem : Mem) (a n x : Nat) :
    (mem.clear a n).get x = if a ≤ x ∧ x < a + n then 0 else mem.get x := by
  have h := get_filter mem (fun k => decide (k < a) || decide (a + n ≤ k)) x
  unfold Mem.clear
  rw [h]
  by_cases hx : a ≤ x ∧ x < a + n
  · have e1 : ¬ x < a := by omega
    have e2 : ¬ a + n ≤ x := by omega
    rw [if_pos hx, if_neg (by simp [e1, hx.2])]
  · have e : x < a ∨ a + n ≤ x := by omega
    simp only [if_neg hx]
    rcases e with e | e <;> simp [e]

/-! ### Byte memories: the canonical form -/

/-- A canonical list begins no lower than its bound. -/
theorem wfFrom_le (l : Mem) (lo : Nat) (h : Mem.wfFrom lo l = true) : ∀ c ∈ l, lo ≤ c.1 := by
  induction l generalizing lo with
  | nil => simp
  | cons d l ih =>
    simp only [Mem.wfFrom, Bool.and_eq_true, decide_eq_true_eq] at h
    intro c hc
    rcases List.mem_cons.1 hc with rfl | hc
    · exact h.1.1
    · have := ih (d.1 + 1) h.2 c hc
      omega

/-- The bound of a canonical list may be any that its cells keep. -/
theorem wfFrom_bound (l : Mem) (lo lo' : Nat) (h : Mem.wfFrom lo l = true) (hb : ∀ c ∈ l, lo' ≤ c.1) :
    Mem.wfFrom lo' l = true := by
  cases l with
  | nil => rfl
  | cons d l =>
    simp only [Mem.wfFrom, Bool.and_eq_true, decide_eq_true_eq] at h ⊢
    exact ⟨⟨hb d (by simp), h.1.2⟩, h.2⟩

/-- Leaving cells out keeps the form. -/
theorem wfFrom_filter (l : Mem) (p : Host.Cell → Bool) (lo : Nat) (h : Mem.wfFrom lo l = true) :
    Mem.wfFrom lo (l.filter p) = true := by
  induction l generalizing lo with
  | nil => rfl
  | cons d l ih =>
    simp only [Mem.wfFrom, Bool.and_eq_true, decide_eq_true_eq] at h
    have r := ih (d.1 + 1) h.2
    by_cases hp : p d
    · simp only [List.filter, hp, Mem.wfFrom, Bool.and_eq_true, decide_eq_true_eq]
      exact ⟨h.1, r⟩
    · simp only [List.filter, hp]
      exact wfFrom_bound _ _ _ r (fun c hc => by have := wfFrom_le _ _ r c hc; omega)

/-- Two canonical lists, the second above the first. -/
theorem wfFrom_append (l k : Mem) (lo mid : Nat) (hl : Mem.wfFrom lo l = true) (hlt : ∀ c ∈ l, c.1 < mid)
    (hk : Mem.wfFrom mid k = true) (hm : lo ≤ mid) : Mem.wfFrom lo (l ++ k) = true := by
  induction l generalizing lo with
  | nil => exact wfFrom_bound _ _ _ hk (fun c hc => by have := wfFrom_le _ _ hk c hc; omega)
  | cons d l ih =>
    simp only [Mem.wfFrom, Bool.and_eq_true, decide_eq_true_eq] at hl
    have hd := hlt d (by simp)
    simp only [List.cons_append, Mem.wfFrom, Bool.and_eq_true, decide_eq_true_eq]
    exact ⟨hl.1, ih (d.1 + 1) hl.2 (fun c hc => hlt c (by simp [hc])) (by omega)⟩

/-- The cells of a byte string are canonical. -/
theorem wfFrom_cells (bs : List Byte) (a : Nat) : Mem.wfFrom a (Mem.cells a bs) = true := by
  induction bs generalizing a with
  | nil => rfl
  | cons b bs ih =>
    unfold Mem.cells
    split
    · exact wfFrom_bound _ _ _ (ih (a + 1)) (fun c hc => by have := cells_key bs (a + 1) c hc; omega)
    · rename_i hb
      simp only [Mem.wfFrom, Bool.and_eq_true, decide_eq_true_eq, bne_iff_ne]
      exact ⟨⟨Nat.le_refl _, hb⟩, ih (a + 1)⟩

/-- A write keeps the canonical form. -/
theorem write_wf (mem : Mem) (a : Nat) (bs : List Byte) (h : mem.wf = true) : (mem.write a bs).wf = true := by
  unfold Mem.wf Mem.write
  rw [List.append_assoc]
  refine wfFrom_append _ _ 0 a (wfFrom_filter _ _ _ h) ?_ ?_ (Nat.zero_le _)
  · intro c hc
    have := (List.mem_filter.1 hc).2
    simpa using this
  · refine wfFrom_append _ _ a (a + bs.length) (wfFrom_cells bs a) (fun c hc => (cells_key bs a c hc).2) ?_ (by omega)
    refine wfFrom_bound _ 0 _ (wfFrom_filter _ _ _ h) (fun c hc => ?_)
    have := (List.mem_filter.1 hc).2
    simpa using this

/-- Clearing a range keeps the canonical form. -/
theorem clear_wf (mem : Mem) (a n : Nat) (h : mem.wf = true) : (mem.clear a n).wf = true := wfFrom_filter _ _ _ h

/-- Single bytes stored one after the other keep the canonical form. -/
theorem writeCells_wf (cs : List Host.Cell) (mem : Mem) (h : mem.wf = true) : (mem.writeCells cs).wf = true := by
  unfold Mem.writeCells
  induction cs generalizing mem with
  | nil => exact h
  | cons c cs ih => exact ih _ (write_wf _ _ _ h)

/-- A little-endian store keeps the canonical form. -/
theorem writeLe_wf (mem : Mem) (a n v : Nat) (h : mem.wf = true) : (mem.writeLe a n v).wf = true := write_wf _ _ _ h

/-- Leaving cells out by any test keeps the canonical form. -/
theorem filter_wf (mem : Mem) (p : Host.Cell → Bool) (h : mem.wf = true) : Mem.wf (mem.filter p) = true :=
  wfFrom_filter _ _ _ h

/-- The memories of the machine at reset have the canonical form. -/
theorem reset_memories_wf :
    State.reset.m.hbm.wf = true ∧ State.reset.m.host.hostMem.wf = true ∧ (∀ g, (State.reset.m.core g).mem.sp.wf = true) ∧
      ∀ k, (State.reset.m.cluster k).cm.wf = true := by
  refine ⟨rfl, rfl, fun g => ?_, fun k => ?_⟩
  · have : State.reset.m.core g = Core.reset := by
      simp only [Module.core, State.reset, Module.reset, List.getD_eq_getElem?_getD, List.getElem?_replicate]
      split <;> rfl
    rw [this]; rfl
  · have : State.reset.m.cluster k = Cluster.reset := by
      simp only [Module.cluster, State.reset, Module.reset, List.getD_eq_getElem?_getD, List.getElem?_replicate]
      split <;> rfl
    rw [this]; rfl

/-! ### Sparse maps -/

/-- The entries of a map kept by their key. -/
theorem find_filter (t : NatMap) (p : Nat → Bool) (k : Nat) :
    NatMap.find? (t.filter (fun c => p c.1)) k = if p k then NatMap.find? t k else none := by
  induction t with
  | nil => simp [NatMap.find?]
  | cons c t ih =>
    by_cases hp : p c.1
    · by_cases hc : c.1 = k
      · subst hc; simp [List.filter, hp, NatMap.find?]
      · simp [List.filter, hp, NatMap.find?, hc, ih]
    · by_cases hc : c.1 = k
      · subst hc; simpa [List.filter, hp, NatMap.find?] using ih
      · simp [List.filter, hp, NatMap.find?, hc, ih]

/-- Two lists of entries one after the other. -/
theorem find_append (s t : NatMap) (k : Nat) :
    NatMap.find? (s ++ t) k = (NatMap.find? s k).or (NatMap.find? t k) := by
  induction s with
  | nil => simp [NatMap.find?]
  | cons c s ih =>
    simp only [List.cons_append, NatMap.find?]
    split
    · rfl
    · exact ih

/-- What a map holds after a key was put at a value whose absence reads as `d`. -/
theorem find_put (d : Nat) (t : NatMap) (k v j : Nat) :
    NatMap.find? (NatMap.put d t k v) j =
      if j = k then (if v = d then none else some v) else NatMap.find? t j := by
  have lo := find_filter t (fun x => decide (x < k)) j
  have hi := find_filter t (fun x => decide (k < x)) j
  unfold NatMap.put
  rw [find_append, find_append, lo, hi]
  by_cases h : j = k
  · subst h
    by_cases hv : v = d <;> simp [hv, NatMap.find?]
  · have hk : ∀ w : NatMap, w = [] ∨ w = [(k, v)] → NatMap.find? w j = none := by
      intro w hw
      rcases hw with rfl | rfl
      · rfl
      · simp [NatMap.find?, Ne.symm h]
    have hm : NatMap.find? (if v = d then [] else [(k, v)]) j = none := hk _ (by split <;> simp)
    rw [hm]
    rcases Nat.lt_or_gt_of_ne h with g | g
    · have g2 : ¬ k < j := by omega
      simp [h, g, g2]
    · have g2 : ¬ j < k := by omega
      simp [h, g, g2]

/-- Reading a key after a key was put at a value whose absence reads as `d`. -/
theorem getD_find_put (d : Nat) (t : NatMap) (k v j : Nat) (e : Nat → Nat) (he : e k = d) :
    (NatMap.find? (NatMap.put d t k v) j).getD (e j) = if j = k then v else (NatMap.find? t j).getD (e j) := by
  rw [find_put]
  by_cases h : j = k
  · subst h
    by_cases hv : v = d <;> simp [hv, he]
  · simp [h]

/-- Reading a key after a key was set. -/
theorem get_set (t : NatMap) (k v j : Nat) : (t.set k v).get j = if j = k then v else t.get j := by
  simpa [NatMap.get, NatMap.set] using getD_find_put 0 t k v j (fun _ => 0) rfl

/-- Reading a key after a number was added to a key. -/
theorem get_add (t : NatMap) (k n j : Nat) : (t.add k n).get j = if j = k then t.get k + n else t.get j := get_set _ _ _ _

/-- A dictionary value after one was set. -/
theorem odGet_odSet (m : Module) (k v j : Nat) : (m.odSet k v).odGet j = if j = k then v else m.odGet j := by
  simpa [Module.odGet, Module.odSet] using getD_find_put (odDefault k) m.od k v j odDefault rfl

/-- A dictionary value after a counter advanced. -/
theorem odGet_bump (m : Module) (k n j : Nat) :
    (m.bump k n).odGet j = if j = k then (m.odGet k + n) % 2 ^ 64 else m.odGet j := odGet_odSet _ _ _ _

/-- The keys of a rising map are no lower than its bound. -/
theorem sortedFrom_le (t : NatMap) (lo : Nat) (h : NatMap.sortedFrom lo t = true) : ∀ c ∈ t, lo ≤ c.1 := by
  induction t generalizing lo with
  | nil => simp
  | cons d t ih =>
    simp only [NatMap.sortedFrom, Bool.and_eq_true, decide_eq_true_eq] at h
    intro c hc
    rcases List.mem_cons.1 hc with rfl | hc
    · exact h.1
    · have := ih (d.1 + 1) h.2 c hc
      omega

/-- The bound of a rising map may be any that its keys keep. -/
theorem sortedFrom_bound (t : NatMap) (lo lo' : Nat) (h : NatMap.sortedFrom lo t = true) (hb : ∀ c ∈ t, lo' ≤ c.1) :
    NatMap.sortedFrom lo' t = true := by
  cases t with
  | nil => rfl
  | cons d t =>
    simp only [NatMap.sortedFrom, Bool.and_eq_true, decide_eq_true_eq] at h ⊢
    exact ⟨hb d (by simp), h.2⟩

/-- Leaving entries out keeps a map rising. -/
theorem sortedFrom_filter (t : NatMap) (p : Nat × Nat → Bool) (lo : Nat) (h : NatMap.sortedFrom lo t = true) :
    NatMap.sortedFrom lo (t.filter p) = true := by
  induction t generalizing lo with
  | nil => rfl
  | cons d t ih =>
    simp only [NatMap.sortedFrom, Bool.and_eq_true, decide_eq_true_eq] at h
    have r := ih (d.1 + 1) h.2
    by_cases hp : p d
    · simp [List.filter, hp, NatMap.sortedFrom, h.1, r]
    · simp only [List.filter, hp]
      exact sortedFrom_bound _ _ _ r (fun c hc => by have := sortedFrom_le _ _ r c hc; omega)

/-- Two rising maps, the second above the first. -/
theorem sortedFrom_append (s t : NatMap) (lo mid : Nat) (hs : NatMap.sortedFrom lo s = true) (hlt : ∀ c ∈ s, c.1 < mid)
    (ht : NatMap.sortedFrom mid t = true) (hm : lo ≤ mid) : NatMap.sortedFrom lo (s ++ t) = true := by
  induction s generalizing lo with
  | nil => exact sortedFrom_bound _ _ _ ht (fun c hc => by have := sortedFrom_le _ _ ht c hc; omega)
  | cons d s ih =>
    simp only [NatMap.sortedFrom, Bool.and_eq_true, decide_eq_true_eq] at hs
    have hd := hlt d (by simp)
    simp only [List.cons_append, NatMap.sortedFrom, Bool.and_eq_true, decide_eq_true_eq]
    exact ⟨hs.1, ih (d.1 + 1) hs.2 (fun c hc => hlt c (by simp [hc])) (by omega)⟩

/-- Putting a key keeps a map rising. -/
theorem put_sorted (d : Nat) (t : NatMap) (k v : Nat) (h : t.sorted = true) : (NatMap.put d t k v).sorted = true := by
  unfold NatMap.sorted NatMap.put
  rw [List.append_assoc]
  refine sortedFrom_append _ _ 0 k (sortedFrom_filter _ _ _ h) ?_ ?_ (Nat.zero_le _)
  · intro c hc
    have := (List.mem_filter.1 hc).2
    simpa using this
  · refine sortedFrom_append _ _ k (k + 1) ?_ ?_ ?_ (by omega)
    · split <;> simp [NatMap.sortedFrom]
    · intro c hc
      split at hc <;> simp at hc
      simp [hc]
    · refine sortedFrom_bound _ 0 _ (sortedFrom_filter _ _ _ h) (fun c hc => ?_)
      have := (List.mem_filter.1 hc).2
      simpa [Nat.succ_le_iff] using this

/-- Setting a dictionary value keeps the map of values rising. -/
theorem odSet_sorted (m : Module) (k v : Nat) (h : m.od.sorted = true) : (m.odSet k v).od.sorted = true :=
  put_sorted _ _ _ _ h

end Sys2Proof.Laws
end

