-- ==== Sys2Proof/Laws/State.lean ====
section
/-!
SUPPORT. Field by field, what each update of one unit leaves as it was: every lemma here is true by rfl. The last section
says what reading a unit gives after an update of one.
-/
namespace Sys2Proof.Laws

open Sys2Proof.Machine

/-! onCore -/

@[simp] theorem onCore_power (m : Module) (g : Nat) (f : Core → Core) : (m.onCore g f).power = m.power := rfl
@[simp] theorem onCore_dies (m : Module) (g : Nat) (f : Core → Core) : (m.onCore g f).dies = m.dies := rfl
@[simp] theorem onCore_links (m : Module) (g : Nat) (f : Core → Core) : (m.onCore g f).links = m.links := rfl
@[simp] theorem onCore_hbmStacks (m : Module) (g : Nat) (f : Core → Core) : (m.onCore g f).hbmStacks = m.hbmStacks := rfl
@[simp] theorem onCore_lasers (m : Module) (g : Nat) (f : Core → Core) : (m.onCore g f).lasers = m.lasers := rfl
@[simp] theorem onCore_od (m : Module) (g : Nat) (f : Core → Core) : (m.onCore g f).od = m.od := rfl
@[simp] theorem onCore_saved (m : Module) (g : Nat) (f : Core → Core) : (m.onCore g f).saved = m.saved := rfl
@[simp] theorem onCore_calib (m : Module) (g : Nat) (f : Core → Core) : (m.onCore g f).calib = m.calib := rfl
@[simp] theorem onCore_mgmt (m : Module) (g : Nat) (f : Core → Core) : (m.onCore g f).mgmt = m.mgmt := rfl
@[simp] theorem onCore_log (m : Module) (g : Nat) (f : Core → Core) : (m.onCore g f).log = m.log := rfl
@[simp] theorem onCore_fw (m : Module) (g : Nat) (f : Core → Core) : (m.onCore g f).fw = m.fw := rfl
@[simp] theorem onCore_trust (m : Module) (g : Nat) (f : Core → Core) : (m.onCore g f).trust = m.trust := rfl
@[simp] theorem onCore_stress (m : Module) (g : Nat) (f : Core → Core) : (m.onCore g f).stress = m.stress := rfl
@[simp] theorem onCore_clusters (m : Module) (g : Nat) (f : Core → Core) : (m.onCore g f).clusters = m.clusters := rfl
@[simp] theorem onCore_hbm (m : Module) (g : Nat) (f : Core → Core) : (m.onCore g f).hbm = m.hbm := rfl
@[simp] theorem onCore_hbmPoison (m : Module) (g : Nat) (f : Core → Core) : (m.onCore g f).hbmPoison = m.hbmPoison := rfl
@[simp] theorem onCore_bursts (m : Module) (g : Nat) (f : Core → Core) : (m.onCore g f).bursts = m.bursts := rfl
@[simp] theorem onCore_jobs (m : Module) (g : Nat) (f : Core → Core) : (m.onCore g f).jobs = m.jobs := rfl
@[simp] theorem onCore_residency (m : Module) (g : Nat) (f : Core → Core) : (m.onCore g f).residency = m.residency := rfl
@[simp] theorem onCore_useStamp (m : Module) (g : Nat) (f : Core → Core) : (m.onCore g f).useStamp = m.useStamp := rfl
@[simp] theorem onCore_hawsers (m : Module) (g : Nat) (f : Core → Core) : (m.onCore g f).hawsers = m.hawsers := rfl
@[simp] theorem onCore_rope (m : Module) (g : Nat) (f : Core → Core) : (m.onCore g f).rope = m.rope := rfl
@[simp] theorem onCore_store (m : Module) (g : Nat) (f : Core → Core) : (m.onCore g f).store = m.store := rfl
@[simp] theorem onCore_host (m : Module) (g : Nat) (f : Core → Core) : (m.onCore g f).host = m.host := rfl
@[simp] theorem onCore_freeNo (m : Module) (g : Nat) (f : Core → Core) : (m.onCore g f).freeNo = m.freeNo := rfl

/-! onCluster -/

@[simp] theorem onCluster_power (m : Module) (k : Nat) (f : Cluster → Cluster) : (m.onCluster k f).power = m.power := rfl
@[simp] theorem onCluster_dies (m : Module) (k : Nat) (f : Cluster → Cluster) : (m.onCluster k f).dies = m.dies := rfl
@[simp] theorem onCluster_links (m : Module) (k : Nat) (f : Cluster → Cluster) : (m.onCluster k f).links = m.links := rfl
@[simp] theorem onCluster_hbmStacks (m : Module) (k : Nat) (f : Cluster → Cluster) : (m.onCluster k f).hbmStacks = m.hbmStacks := rfl
@[simp] theorem onCluster_lasers (m : Module) (k : Nat) (f : Cluster → Cluster) : (m.onCluster k f).lasers = m.lasers := rfl
@[simp] theorem onCluster_od (m : Module) (k : Nat) (f : Cluster → Cluster) : (m.onCluster k f).od = m.od := rfl
@[simp] theorem onCluster_saved (m : Module) (k : Nat) (f : Cluster → Cluster) : (m.onCluster k f).saved = m.saved := rfl
@[simp] theorem onCluster_calib (m : Module) (k : Nat) (f : Cluster → Cluster) : (m.onCluster k f).calib = m.calib := rfl
@[simp] theorem onCluster_mgmt (m : Module) (k : Nat) (f : Cluster → Cluster) : (m.onCluster k f).mgmt = m.mgmt := rfl
@[simp] theorem onCluster_log (m : Module) (k : Nat) (f : Cluster → Cluster) : (m.onCluster k f).log = m.log := rfl
@[simp] theorem onCluster_fw (m : Module) (k : Nat) (f : Cluster → Cluster) : (m.onCluster k f).fw = m.fw := rfl
@[simp] theorem onCluster_trust (m : Module) (k : Nat) (f : Cluster → Cluster) : (m.onCluster k f).trust = m.trust := rfl
@[simp] theorem onCluster_stress (m : Module) (k : Nat) (f : Cluster → Cluster) : (m.onCluster k f).stress = m.stress := rfl
@[simp] theorem onCluster_cores (m : Module) (k : Nat) (f : Cluster → Cluster) : (m.onCluster k f).cores = m.cores := rfl
@[simp] theorem onCluster_hbm (m : Module) (k : Nat) (f : Cluster → Cluster) : (m.onCluster k f).hbm = m.hbm := rfl
@[simp] theorem onCluster_hbmPoison (m : Module) (k : Nat) (f : Cluster → Cluster) : (m.onCluster k f).hbmPoison = m.hbmPoison := rfl
@[simp] theorem onCluster_bursts (m : Module) (k : Nat) (f : Cluster → Cluster) : (m.onCluster k f).bursts = m.bursts := rfl
@[simp] theorem onCluster_jobs (m : Module) (k : Nat) (f : Cluster → Cluster) : (m.onCluster k f).jobs = m.jobs := rfl
@[simp] theorem onCluster_residency (m : Module) (k : Nat) (f : Cluster → Cluster) : (m.onCluster k f).residency = m.residency := rfl
@[simp] theorem onCluster_useStamp (m : Module) (k : Nat) (f : Cluster → Cluster) : (m.onCluster k f).useStamp = m.useStamp := rfl
@[simp] theorem onCluster_hawsers (m : Module) (k : Nat) (f : Cluster → Cluster) : (m.onCluster k f).hawsers = m.hawsers := rfl
@[simp] theorem onCluster_rope (m : Module) (k : Nat) (f : Cluster → Cluster) : (m.onCluster k f).rope = m.rope := rfl
@[simp] theorem onCluster_store (m : Module) (k : Nat) (f : Cluster → Cluster) : (m.onCluster k f).store = m.store := rfl
@[simp] theorem onCluster_host (m : Module) (k : Nat) (f : Cluster → Cluster) : (m.onCluster k f).host = m.host := rfl
@[simp] theorem onCluster_freeNo (m : Module) (k : Nat) (f : Cluster → Cluster) : (m.onCluster k f).freeNo = m.freeNo := rfl

/-! onJob -/

@[simp] theorem onJob_power (m : Module) (j : Nat) (f : Job → Job) : (m.onJob j f).power = m.power := rfl
@[simp] theorem onJob_dies (m : Module) (j : Nat) (f : Job → Job) : (m.onJob j f).dies = m.dies := rfl
@[simp] theorem onJob_links (m : Module) (j : Nat) (f : Job → Job) : (m.onJob j f).links = m.links := rfl
@[simp] theorem onJob_hbmStacks (m : Module) (j : Nat) (f : Job → Job) : (m.onJob j f).hbmStacks = m.hbmStacks := rfl
@[simp] theorem onJob_lasers (m : Module) (j : Nat) (f : Job → Job) : (m.onJob j f).lasers = m.lasers := rfl
@[simp] theorem onJob_od (m : Module) (j : Nat) (f : Job → Job) : (m.onJob j f).od = m.od := rfl
@[simp] theorem onJob_saved (m : Module) (j : Nat) (f : Job → Job) : (m.onJob j f).saved = m.saved := rfl
@[simp] theorem onJob_calib (m : Module) (j : Nat) (f : Job → Job) : (m.onJob j f).calib = m.calib := rfl
@[simp] theorem onJob_mgmt (m : Module) (j : Nat) (f : Job → Job) : (m.onJob j f).mgmt = m.mgmt := rfl
@[simp] theorem onJob_log (m : Module) (j : Nat) (f : Job → Job) : (m.onJob j f).log = m.log := rfl
@[simp] theorem onJob_fw (m : Module) (j : Nat) (f : Job → Job) : (m.onJob j f).fw = m.fw := rfl
@[simp] theorem onJob_trust (m : Module) (j : Nat) (f : Job → Job) : (m.onJob j f).trust = m.trust := rfl
@[simp] theorem onJob_stress (m : Module) (j : Nat) (f : Job → Job) : (m.onJob j f).stress = m.stress := rfl
@[simp] theorem onJob_cores (m : Module) (j : Nat) (f : Job → Job) : (m.onJob j f).cores = m.cores := rfl
@[simp] theorem onJob_clusters (m : Module) (j : Nat) (f : Job → Job) : (m.onJob j f).clusters = m.clusters := rfl
@[simp] theorem onJob_hbm (m : Module) (j : Nat) (f : Job → Job) : (m.onJob j f).hbm = m.hbm := rfl
@[simp] theorem onJob_hbmPoison (m : Module) (j : Nat) (f : Job → Job) : (m.onJob j f).hbmPoison = m.hbmPoison := rfl
@[simp] theorem onJob_bursts (m : Module) (j : Nat) (f : Job → Job) : (m.onJob j f).bursts = m.bursts := rfl
@[simp] theorem onJob_residency (m : Module) (j : Nat) (f : Job → Job) : (m.onJob j f).residency = m.residency := rfl
@[simp] theorem onJob_useStamp (m : Module) (j : Nat) (f : Job → Job) : (m.onJob j f).useStamp = m.useStamp := rfl
@[simp] theorem onJob_hawsers (m : Module) (j : Nat) (f : Job → Job) : (m.onJob j f).hawsers = m.hawsers := rfl
@[simp] theorem onJob_rope (m : Module) (j : Nat) (f : Job → Job) : (m.onJob j f).rope = m.rope := rfl
@[simp] theorem onJob_store (m : Module) (j : Nat) (f : Job → Job) : (m.onJob j f).store = m.store := rfl
@[simp] theorem onJob_host (m : Module) (j : Nat) (f : Job → Job) : (m.onJob j f).host = m.host := rfl
@[simp] theorem onJob_freeNo (m : Module) (j : Nat) (f : Job → Job) : (m.onJob j f).freeNo = m.freeNo := rfl

/-! onRun -/

@[simp] theorem onRun_power (m : Module) (j : Nat) (f : Run → Run) : (m.onRun j f).power = m.power := rfl
@[simp] theorem onRun_dies (m : Module) (j : Nat) (f : Run → Run) : (m.onRun j f).dies = m.dies := rfl
@[simp] theorem onRun_links (m : Module) (j : Nat) (f : Run → Run) : (m.onRun j f).links = m.links := rfl
@[simp] theorem onRun_hbmStacks (m : Module) (j : Nat) (f : Run → Run) : (m.onRun j f).hbmStacks = m.hbmStacks := rfl
@[simp] theorem onRun_lasers (m : Module) (j : Nat) (f : Run → Run) : (m.onRun j f).lasers = m.lasers := rfl
@[simp] theorem onRun_od (m : Module) (j : Nat) (f : Run → Run) : (m.onRun j f).od = m.od := rfl
@[simp] theorem onRun_saved (m : Module) (j : Nat) (f : Run → Run) : (m.onRun j f).saved = m.saved := rfl
@[simp] theorem onRun_calib (m : Module) (j : Nat) (f : Run → Run) : (m.onRun j f).calib = m.calib := rfl
@[simp] theorem onRun_mgmt (m : Module) (j : Nat) (f : Run → Run) : (m.onRun j f).mgmt = m.mgmt := rfl
@[simp] theorem onRun_log (m : Module) (j : Nat) (f : Run → Run) : (m.onRun j f).log = m.log := rfl
@[simp] theorem onRun_fw (m : Module) (j : Nat) (f : Run → Run) : (m.onRun j f).fw = m.fw := rfl
@[simp] theorem onRun_trust (m : Module) (j : Nat) (f : Run → Run) : (m.onRun j f).trust = m.trust := rfl
@[simp] theorem onRun_stress (m : Module) (j : Nat) (f : Run → Run) : (m.onRun j f).stress = m.stress := rfl
@[simp] theorem onRun_cores (m : Module) (j : Nat) (f : Run → Run) : (m.onRun j f).cores = m.cores := rfl
@[simp] theorem onRun_clusters (m : Module) (j : Nat) (f : Run → Run) : (m.onRun j f).clusters = m.clusters := rfl
@[simp] theorem onRun_hbm (m : Module) (j : Nat) (f : Run → Run) : (m.onRun j f).hbm = m.hbm := rfl
@[simp] theorem onRun_hbmPoison (m : Module) (j : Nat) (f : Run → Run) : (m.onRun j f).hbmPoison = m.hbmPoison := rfl
@[simp] theorem onRun_bursts (m : Module) (j : Nat) (f : Run → Run) : (m.onRun j f).bursts = m.bursts := rfl
@[simp] theorem onRun_residency (m : Module) (j : Nat) (f : Run → Run) : (m.onRun j f).residency = m.residency := rfl
@[simp] theorem onRun_useStamp (m : Module) (j : Nat) (f : Run → Run) : (m.onRun j f).useStamp = m.useStamp := rfl
@[simp] theorem onRun_hawsers (m : Module) (j : Nat) (f : Run → Run) : (m.onRun j f).hawsers = m.hawsers := rfl
@[simp] theorem onRun_rope (m : Module) (j : Nat) (f : Run → Run) : (m.onRun j f).rope = m.rope := rfl
@[simp] theorem onRun_store (m : Module) (j : Nat) (f : Run → Run) : (m.onRun j f).store = m.store := rfl
@[simp] theorem onRun_host (m : Module) (j : Nat) (f : Run → Run) : (m.onRun j f).host = m.host := rfl
@[simp] theorem onRun_freeNo (m : Module) (j : Nat) (f : Run → Run) : (m.onRun j f).freeNo = m.freeNo := rfl

/-! onDie -/

@[simp] theorem onDie_power (m : Module) (d : Nat) (f : Die → Die) : (m.onDie d f).power = m.power := rfl
@[simp] theorem onDie_links (m : Module) (d : Nat) (f : Die → Die) : (m.onDie d f).links = m.links := rfl
@[simp] theorem onDie_hbmStacks (m : Module) (d : Nat) (f : Die → Die) : (m.onDie d f).hbmStacks = m.hbmStacks := rfl
@[simp] theorem onDie_lasers (m : Module) (d : Nat) (f : Die → Die) : (m.onDie d f).lasers = m.lasers := rfl
@[simp] theorem onDie_od (m : Module) (d : Nat) (f : Die → Die) : (m.onDie d f).od = m.od := rfl
@[simp] theorem onDie_saved (m : Module) (d : Nat) (f : Die → Die) : (m.onDie d f).saved = m.saved := rfl
@[simp] theorem onDie_calib (m : Module) (d : Nat) (f : Die → Die) : (m.onDie d f).calib = m.calib := rfl
@[simp] theorem onDie_mgmt (m : Module) (d : Nat) (f : Die → Die) : (m.onDie d f).mgmt = m.mgmt := rfl
@[simp] theorem onDie_log (m : Module) (d : Nat) (f : Die → Die) : (m.onDie d f).log = m.log := rfl
@[simp] theorem onDie_fw (m : Module) (d : Nat) (f : Die → Die) : (m.onDie d f).fw = m.fw := rfl
@[simp] theorem onDie_trust (m : Module) (d : Nat) (f : Die → Die) : (m.onDie d f).trust = m.trust := rfl
@[simp] theorem onDie_stress (m : Module) (d : Nat) (f : Die → Die) : (m.onDie d f).stress = m.stress := rfl
@[simp] theorem onDie_cores (m : Module) (d : Nat) (f : Die → Die) : (m.onDie d f).cores = m.cores := rfl
@[simp] theorem onDie_clusters (m : Module) (d : Nat) (f : Die → Die) : (m.onDie d f).clusters = m.clusters := rfl
@[simp] theorem onDie_hbm (m : Module) (d : Nat) (f : Die → Die) : (m.onDie d f).hbm = m.hbm := rfl
@[simp] theorem onDie_hbmPoison (m : Module) (d : Nat) (f : Die → Die) : (m.onDie d f).hbmPoison = m.hbmPoison := rfl
@[simp] theorem onDie_bursts (m : Module) (d : Nat) (f : Die → Die) : (m.onDie d f).bursts = m.bursts := rfl
@[simp] theorem onDie_jobs (m : Module) (d : Nat) (f : Die → Die) : (m.onDie d f).jobs = m.jobs := rfl
@[simp] theorem onDie_residency (m : Module) (d : Nat) (f : Die → Die) : (m.onDie d f).residency = m.residency := rfl
@[simp] theorem onDie_useStamp (m : Module) (d : Nat) (f : Die → Die) : (m.onDie d f).useStamp = m.useStamp := rfl
@[simp] theorem onDie_hawsers (m : Module) (d : Nat) (f : Die → Die) : (m.onDie d f).hawsers = m.hawsers := rfl
@[simp] theorem onDie_rope (m : Module) (d : Nat) (f : Die → Die) : (m.onDie d f).rope = m.rope := rfl
@[simp] theorem onDie_store (m : Module) (d : Nat) (f : Die → Die) : (m.onDie d f).store = m.store := rfl
@[simp] theorem onDie_host (m : Module) (d : Nat) (f : Die → Die) : (m.onDie d f).host = m.host := rfl
@[simp] theorem onDie_freeNo (m : Module) (d : Nat) (f : Die → Die) : (m.onDie d f).freeNo = m.freeNo := rfl

/-! onStack -/

@[simp] theorem onStack_power (m : Module) (p : Nat) (f : Stack → Stack) : (m.onStack p f).power = m.power := rfl
@[simp] theorem onStack_dies (m : Module) (p : Nat) (f : Stack → Stack) : (m.onStack p f).dies = m.dies := rfl
@[simp] theorem onStack_links (m : Module) (p : Nat) (f : Stack → Stack) : (m.onStack p f).links = m.links := rfl
@[simp] theorem onStack_lasers (m : Module) (p : Nat) (f : Stack → Stack) : (m.onStack p f).lasers = m.lasers := rfl
@[simp] theorem onStack_od (m : Module) (p : Nat) (f : Stack → Stack) : (m.onStack p f).od = m.od := rfl
@[simp] theorem onStack_saved (m : Module) (p : Nat) (f : Stack → Stack) : (m.onStack p f).saved = m.saved := rfl
@[simp] theorem onStack_calib (m : Module) (p : Nat) (f : Stack → Stack) : (m.onStack p f).calib = m.calib := rfl
@[simp] theorem onStack_mgmt (m : Module) (p : Nat) (f : Stack → Stack) : (m.onStack p f).mgmt = m.mgmt := rfl
@[simp] theorem onStack_log (m : Module) (p : Nat) (f : Stack → Stack) : (m.onStack p f).log = m.log := rfl
@[simp] theorem onStack_fw (m : Module) (p : Nat) (f : Stack → Stack) : (m.onStack p f).fw = m.fw := rfl
@[simp] theorem onStack_trust (m : Module) (p : Nat) (f : Stack → Stack) : (m.onStack p f).trust = m.trust := rfl
@[simp] theorem onStack_stress (m : Module) (p : Nat) (f : Stack → Stack) : (m.onStack p f).stress = m.stress := rfl
@[simp] theorem onStack_cores (m : Module) (p : Nat) (f : Stack → Stack) : (m.onStack p f).cores = m.cores := rfl
@[simp] theorem onStack_clusters (m : Module) (p : Nat) (f : Stack → Stack) : (m.onStack p f).clusters = m.clusters := rfl
@[simp] theorem onStack_hbm (m : Module) (p : Nat) (f : Stack → Stack) : (m.onStack p f).hbm = m.hbm := rfl
@[simp] theorem onStack_hbmPoison (m : Module) (p : Nat) (f : Stack → Stack) : (m.onStack p f).hbmPoison = m.hbmPoison := rfl
@[simp] theorem onStack_bursts (m : Module) (p : Nat) (f : Stack → Stack) : (m.onStack p f).bursts = m.bursts := rfl
@[simp] theorem onStack_jobs (m : Module) (p : Nat) (f : Stack → Stack) : (m.onStack p f).jobs = m.jobs := rfl
@[simp] theorem onStack_residency (m : Module) (p : Nat) (f : Stack → Stack) : (m.onStack p f).residency = m.residency := rfl
@[simp] theorem onStack_useStamp (m : Module) (p : Nat) (f : Stack → Stack) : (m.onStack p f).useStamp = m.useStamp := rfl
@[simp] theorem onStack_hawsers (m : Module) (p : Nat) (f : Stack → Stack) : (m.onStack p f).hawsers = m.hawsers := rfl
@[simp] theorem onStack_rope (m : Module) (p : Nat) (f : Stack → Stack) : (m.onStack p f).rope = m.rope := rfl
@[simp] theorem onStack_store (m : Module) (p : Nat) (f : Stack → Stack) : (m.onStack p f).store = m.store := rfl
@[simp] theorem onStack_host (m : Module) (p : Nat) (f : Stack → Stack) : (m.onStack p f).host = m.host := rfl
@[simp] theorem onStack_freeNo (m : Module) (p : Nat) (f : Stack → Stack) : (m.onStack p f).freeNo = m.freeNo := rfl

/-! onPort -/

@[simp] theorem onPort_power (m : Module) (p : Nat) (f : Port → Port) : (m.onPort p f).power = m.power := rfl
@[simp] theorem onPort_dies (m : Module) (p : Nat) (f : Port → Port) : (m.onPort p f).dies = m.dies := rfl
@[simp] theorem onPort_links (m : Module) (p : Nat) (f : Port → Port) : (m.onPort p f).links = m.links := rfl
@[simp] theorem onPort_hbmStacks (m : Module) (p : Nat) (f : Port → Port) : (m.onPort p f).hbmStacks = m.hbmStacks := rfl
@[simp] theorem onPort_lasers (m : Module) (p : Nat) (f : Port → Port) : (m.onPort p f).lasers = m.lasers := rfl
@[simp] theorem onPort_od (m : Module) (p : Nat) (f : Port → Port) : (m.onPort p f).od = m.od := rfl
@[simp] theorem onPort_saved (m : Module) (p : Nat) (f : Port → Port) : (m.onPort p f).saved = m.saved := rfl
@[simp] theorem onPort_calib (m : Module) (p : Nat) (f : Port → Port) : (m.onPort p f).calib = m.calib := rfl
@[simp] theorem onPort_mgmt (m : Module) (p : Nat) (f : Port → Port) : (m.onPort p f).mgmt = m.mgmt := rfl
@[simp] theorem onPort_log (m : Module) (p : Nat) (f : Port → Port) : (m.onPort p f).log = m.log := rfl
@[simp] theorem onPort_fw (m : Module) (p : Nat) (f : Port → Port) : (m.onPort p f).fw = m.fw := rfl
@[simp] theorem onPort_trust (m : Module) (p : Nat) (f : Port → Port) : (m.onPort p f).trust = m.trust := rfl
@[simp] theorem onPort_stress (m : Module) (p : Nat) (f : Port → Port) : (m.onPort p f).stress = m.stress := rfl
@[simp] theorem onPort_cores (m : Module) (p : Nat) (f : Port → Port) : (m.onPort p f).cores = m.cores := rfl
@[simp] theorem onPort_clusters (m : Module) (p : Nat) (f : Port → Port) : (m.onPort p f).clusters = m.clusters := rfl
@[simp] theorem onPort_hbm (m : Module) (p : Nat) (f : Port → Port) : (m.onPort p f).hbm = m.hbm := rfl
@[simp] theorem onPort_hbmPoison (m : Module) (p : Nat) (f : Port → Port) : (m.onPort p f).hbmPoison = m.hbmPoison := rfl
@[simp] theorem onPort_bursts (m : Module) (p : Nat) (f : Port → Port) : (m.onPort p f).bursts = m.bursts := rfl
@[simp] theorem onPort_jobs (m : Module) (p : Nat) (f : Port → Port) : (m.onPort p f).jobs = m.jobs := rfl
@[simp] theorem onPort_residency (m : Module) (p : Nat) (f : Port → Port) : (m.onPort p f).residency = m.residency := rfl
@[simp] theorem onPort_useStamp (m : Module) (p : Nat) (f : Port → Port) : (m.onPort p f).useStamp = m.useStamp := rfl
@[simp] theorem onPort_hawsers (m : Module) (p : Nat) (f : Port → Port) : (m.onPort p f).hawsers = m.hawsers := rfl
@[simp] theorem onPort_rope (m : Module) (p : Nat) (f : Port → Port) : (m.onPort p f).rope = m.rope := rfl
@[simp] theorem onPort_store (m : Module) (p : Nat) (f : Port → Port) : (m.onPort p f).store = m.store := rfl
@[simp] theorem onPort_freeNo (m : Module) (p : Nat) (f : Port → Port) : (m.onPort p f).freeNo = m.freeNo := rfl
@[simp] theorem onPort_host_queues (m : Module) (p : Nat) (f : Port → Port) : (m.onPort p f).host.queues = m.host.queues := rfl
@[simp] theorem onPort_host_hostMem (m : Module) (p : Nat) (f : Port → Port) : (m.onPort p f).host.hostMem = m.host.hostMem := rfl
@[simp] theorem onPort_host_irqs (m : Module) (p : Nat) (f : Port → Port) : (m.onPort p f).host.irqs = m.host.irqs := rfl
@[simp] theorem onPort_host_stamp (m : Module) (p : Nat) (f : Port → Port) : (m.onPort p f).host.stamp = m.host.stamp := rfl
@[simp] theorem onPort_host_orphans (m : Module) (p : Nat) (f : Port → Port) : (m.onPort p f).host.orphans = m.host.orphans := rfl

/-! onQueue -/

@[simp] theorem onQueue_power (m : Module) (q : Nat) (f : Queue → Queue) : (m.onQueue q f).power = m.power := rfl
@[simp] theorem onQueue_dies (m : Module) (q : Nat) (f : Queue → Queue) : (m.onQueue q f).dies = m.dies := rfl
@[simp] theorem onQueue_links (m : Module) (q : Nat) (f : Queue → Queue) : (m.onQueue q f).links = m.links := rfl
@[simp] theorem onQueue_hbmStacks (m : Module) (q : Nat) (f : Queue → Queue) : (m.onQueue q f).hbmStacks = m.hbmStacks := rfl
@[simp] theorem onQueue_lasers (m : Module) (q : Nat) (f : Queue → Queue) : (m.onQueue q f).lasers = m.lasers := rfl
@[simp] theorem onQueue_od (m : Module) (q : Nat) (f : Queue → Queue) : (m.onQueue q f).od = m.od := rfl
@[simp] theorem onQueue_saved (m : Module) (q : Nat) (f : Queue → Queue) : (m.onQueue q f).saved = m.saved := rfl
@[simp] theorem onQueue_calib (m : Module) (q : Nat) (f : Queue → Queue) : (m.onQueue q f).calib = m.calib := rfl
@[simp] theorem onQueue_mgmt (m : Module) (q : Nat) (f : Queue → Queue) : (m.onQueue q f).mgmt = m.mgmt := rfl
@[simp] theorem onQueue_log (m : Module) (q : Nat) (f : Queue → Queue) : (m.onQueue q f).log = m.log := rfl
@[simp] theorem onQueue_fw (m : Module) (q : Nat) (f : Queue → Queue) : (m.onQueue q f).fw = m.fw := rfl
@[simp] theorem onQueue_trust (m : Module) (q : Nat) (f : Queue → Queue) : (m.onQueue q f).trust = m.trust := rfl
@[simp] theorem onQueue_stress (m : Module) (q : Nat) (f : Queue → Queue) : (m.onQueue q f).stress = m.stress := rfl
@[simp] theorem onQueue_cores (m : Module) (q : Nat) (f : Queue → Queue) : (m.onQueue q f).cores = m.cores := rfl
@[simp] theorem onQueue_clusters (m : Module) (q : Nat) (f : Queue → Queue) : (m.onQueue q f).clusters = m.clusters := rfl
@[simp] theorem onQueue_hbm (m : Module) (q : Nat) (f : Queue → Queue) : (m.onQueue q f).hbm = m.hbm := rfl
@[simp] theorem onQueue_hbmPoison (m : Module) (q : Nat) (f : Queue → Queue) : (m.onQueue q f).hbmPoison = m.hbmPoison := rfl
@[simp] theorem onQueue_bursts (m : Module) (q : Nat) (f : Queue → Queue) : (m.onQueue q f).bursts = m.bursts := rfl
@[simp] theorem onQueue_jobs (m : Module) (q : Nat) (f : Queue → Queue) : (m.onQueue q f).jobs = m.jobs := rfl
@[simp] theorem onQueue_residency (m : Module) (q : Nat) (f : Queue → Queue) : (m.onQueue q f).residency = m.residency := rfl
@[simp] theorem onQueue_useStamp (m : Module) (q : Nat) (f : Queue → Queue) : (m.onQueue q f).useStamp = m.useStamp := rfl
@[simp] theorem onQueue_hawsers (m : Module) (q : Nat) (f : Queue → Queue) : (m.onQueue q f).hawsers = m.hawsers := rfl
@[simp] theorem onQueue_rope (m : Module) (q : Nat) (f : Queue → Queue) : (m.onQueue q f).rope = m.rope := rfl
@[simp] theorem onQueue_store (m : Module) (q : Nat) (f : Queue → Queue) : (m.onQueue q f).store = m.store := rfl
@[simp] theorem onQueue_freeNo (m : Module) (q : Nat) (f : Queue → Queue) : (m.onQueue q f).freeNo = m.freeNo := rfl
@[simp] theorem onQueue_host_ports (m : Module) (q : Nat) (f : Queue → Queue) : (m.onQueue q f).host.ports = m.host.ports := rfl
@[simp] theorem onQueue_host_hostMem (m : Module) (q : Nat) (f : Queue → Queue) : (m.onQueue q f).host.hostMem = m.host.hostMem := rfl
@[simp] theorem onQueue_host_irqs (m : Module) (q : Nat) (f : Queue → Queue) : (m.onQueue q f).host.irqs = m.host.irqs := rfl
@[simp] theorem onQueue_host_stamp (m : Module) (q : Nat) (f : Queue → Queue) : (m.onQueue q f).host.stamp = m.host.stamp := rfl
@[simp] theorem onQueue_host_orphans (m : Module) (q : Nat) (f : Queue → Queue) : (m.onQueue q f).host.orphans = m.host.orphans := rfl

/-! onMailbox -/

@[simp] theorem onMailbox_power (m : Module) (p : Nat) (f : Mailbox → Mailbox) : (m.onMailbox p f).power = m.power := rfl
@[simp] theorem onMailbox_dies (m : Module) (p : Nat) (f : Mailbox → Mailbox) : (m.onMailbox p f).dies = m.dies := rfl
@[simp] theorem onMailbox_links (m : Module) (p : Nat) (f : Mailbox → Mailbox) : (m.onMailbox p f).links = m.links := rfl
@[simp] theorem onMailbox_hbmStacks (m : Module) (p : Nat) (f : Mailbox → Mailbox) : (m.onMailbox p f).hbmStacks = m.hbmStacks := rfl
@[simp] theorem onMailbox_lasers (m : Module) (p : Nat) (f : Mailbox → Mailbox) : (m.onMailbox p f).lasers = m.lasers := rfl
@[simp] theorem onMailbox_od (m : Module) (p : Nat) (f : Mailbox → Mailbox) : (m.onMailbox p f).od = m.od := rfl
@[simp] theorem onMailbox_saved (m : Module) (p : Nat) (f : Mailbox → Mailbox) : (m.onMailbox p f).saved = m.saved := rfl
@[simp] theorem onMailbox_calib (m : Module) (p : Nat) (f : Mailbox → Mailbox) : (m.onMailbox p f).calib = m.calib := rfl
@[simp] theorem onMailbox_mgmt (m : Module) (p : Nat) (f : Mailbox → Mailbox) : (m.onMailbox p f).mgmt = m.mgmt := rfl
@[simp] theorem onMailbox_log (m : Module) (p : Nat) (f : Mailbox → Mailbox) : (m.onMailbox p f).log = m.log := rfl
@[simp] theorem onMailbox_fw (m : Module) (p : Nat) (f : Mailbox → Mailbox) : (m.onMailbox p f).fw = m.fw := rfl
@[simp] theorem onMailbox_trust (m : Module) (p : Nat) (f : Mailbox → Mailbox) : (m.onMailbox p f).trust = m.trust := rfl
@[simp] theorem onMailbox_stress (m : Module) (p : Nat) (f : Mailbox → Mailbox) : (m.onMailbox p f).stress = m.stress := rfl
@[simp] theorem onMailbox_cores (m : Module) (p : Nat) (f : Mailbox → Mailbox) : (m.onMailbox p f).cores = m.cores := rfl
@[simp] theorem onMailbox_clusters (m : Module) (p : Nat) (f : Mailbox → Mailbox) : (m.onMailbox p f).clusters = m.clusters := rfl
@[simp] theorem onMailbox_hbm (m : Module) (p : Nat) (f : Mailbox → Mailbox) : (m.onMailbox p f).hbm = m.hbm := rfl
@[simp] theorem onMailbox_hbmPoison (m : Module) (p : Nat) (f : Mailbox → Mailbox) : (m.onMailbox p f).hbmPoison = m.hbmPoison := rfl
@[simp] theorem onMailbox_bursts (m : Module) (p : Nat) (f : Mailbox → Mailbox) : (m.onMailbox p f).bursts = m.bursts := rfl
@[simp] theorem onMailbox_jobs (m : Module) (p : Nat) (f : Mailbox → Mailbox) : (m.onMailbox p f).jobs = m.jobs := rfl
@[simp] theorem onMailbox_residency (m : Module) (p : Nat) (f : Mailbox → Mailbox) : (m.onMailbox p f).residency = m.residency := rfl
@[simp] theorem onMailbox_useStamp (m : Module) (p : Nat) (f : Mailbox → Mailbox) : (m.onMailbox p f).useStamp = m.useStamp := rfl
@[simp] theorem onMailbox_hawsers (m : Module) (p : Nat) (f : Mailbox → Mailbox) : (m.onMailbox p f).hawsers = m.hawsers := rfl
@[simp] theorem onMailbox_rope (m : Module) (p : Nat) (f : Mailbox → Mailbox) : (m.onMailbox p f).rope = m.rope := rfl
@[simp] theorem onMailbox_store (m : Module) (p : Nat) (f : Mailbox → Mailbox) : (m.onMailbox p f).store = m.store := rfl
@[simp] theorem onMailbox_freeNo (m : Module) (p : Nat) (f : Mailbox → Mailbox) : (m.onMailbox p f).freeNo = m.freeNo := rfl
@[simp] theorem onMailbox_host_queues (m : Module) (p : Nat) (f : Mailbox → Mailbox) : (m.onMailbox p f).host.queues = m.host.queues := rfl
@[simp] theorem onMailbox_host_hostMem (m : Module) (p : Nat) (f : Mailbox → Mailbox) : (m.onMailbox p f).host.hostMem = m.host.hostMem := rfl
@[simp] theorem onMailbox_host_irqs (m : Module) (p : Nat) (f : Mailbox → Mailbox) : (m.onMailbox p f).host.irqs = m.host.irqs := rfl
@[simp] theorem onMailbox_host_stamp (m : Module) (p : Nat) (f : Mailbox → Mailbox) : (m.onMailbox p f).host.stamp = m.host.stamp := rfl
@[simp] theorem onMailbox_host_orphans (m : Module) (p : Nat) (f : Mailbox → Mailbox) : (m.onMailbox p f).host.orphans = m.host.orphans := rfl

/-! onHawser -/

@[simp] theorem onHawser_power (m : Module) (n : Nat) (f : Hawser → Hawser) : (m.onHawser n f).power = m.power := rfl
@[simp] theorem onHawser_dies (m : Module) (n : Nat) (f : Hawser → Hawser) : (m.onHawser n f).dies = m.dies := rfl
@[simp] theorem onHawser_links (m : Module) (n : Nat) (f : Hawser → Hawser) : (m.onHawser n f).links = m.links := rfl
@[simp] theorem onHawser_hbmStacks (m : Module) (n : Nat) (f : Hawser → Hawser) : (m.onHawser n f).hbmStacks = m.hbmStacks := rfl
@[simp] theorem onHawser_lasers (m : Module) (n : Nat) (f : Hawser → Hawser) : (m.onHawser n f).lasers = m.lasers := rfl
@[simp] theorem onHawser_od (m : Module) (n : Nat) (f : Hawser → Hawser) : (m.onHawser n f).od = m.od := rfl
@[simp] theorem onHawser_saved (m : Module) (n : Nat) (f : Hawser → Hawser) : (m.onHawser n f).saved = m.saved := rfl
@[simp] theorem onHawser_calib (m : Module) (n : Nat) (f : Hawser → Hawser) : (m.onHawser n f).calib = m.calib := rfl
@[simp] theorem onHawser_mgmt (m : Module) (n : Nat) (f : Hawser → Hawser) : (m.onHawser n f).mgmt = m.mgmt := rfl
@[simp] theorem onHawser_log (m : Module) (n : Nat) (f : Hawser → Hawser) : (m.onHawser n f).log = m.log := rfl
@[simp] theorem onHawser_fw (m : Module) (n : Nat) (f : Hawser → Hawser) : (m.onHawser n f).fw = m.fw := rfl
@[simp] theorem onHawser_trust (m : Module) (n : Nat) (f : Hawser → Hawser) : (m.onHawser n f).trust = m.trust := rfl
@[simp] theorem onHawser_stress (m : Module) (n : Nat) (f : Hawser → Hawser) : (m.onHawser n f).stress = m.stress := rfl
@[simp] theorem onHawser_cores (m : Module) (n : Nat) (f : Hawser → Hawser) : (m.onHawser n f).cores = m.cores := rfl
@[simp] theorem onHawser_clusters (m : Module) (n : Nat) (f : Hawser → Hawser) : (m.onHawser n f).clusters = m.clusters := rfl
@[simp] theorem onHawser_hbm (m : Module) (n : Nat) (f : Hawser → Hawser) : (m.onHawser n f).hbm = m.hbm := rfl
@[simp] theorem onHawser_hbmPoison (m : Module) (n : Nat) (f : Hawser → Hawser) : (m.onHawser n f).hbmPoison = m.hbmPoison := rfl
@[simp] theorem onHawser_bursts (m : Module) (n : Nat) (f : Hawser → Hawser) : (m.onHawser n f).bursts = m.bursts := rfl
@[simp] theorem onHawser_jobs (m : Module) (n : Nat) (f : Hawser → Hawser) : (m.onHawser n f).jobs = m.jobs := rfl
@[simp] theorem onHawser_residency (m : Module) (n : Nat) (f : Hawser → Hawser) : (m.onHawser n f).residency = m.residency := rfl
@[simp] theorem onHawser_useStamp (m : Module) (n : Nat) (f : Hawser → Hawser) : (m.onHawser n f).useStamp = m.useStamp := rfl
@[simp] theorem onHawser_rope (m : Module) (n : Nat) (f : Hawser → Hawser) : (m.onHawser n f).rope = m.rope := rfl
@[simp] theorem onHawser_store (m : Module) (n : Nat) (f : Hawser → Hawser) : (m.onHawser n f).store = m.store := rfl
@[simp] theorem onHawser_host (m : Module) (n : Nat) (f : Hawser → Hawser) : (m.onHawser n f).host = m.host := rfl
@[simp] theorem onHawser_freeNo (m : Module) (n : Nat) (f : Hawser → Hawser) : (m.onHawser n f).freeNo = m.freeNo := rfl

/-! nextFree -/

@[simp] theorem nextFree_power (m : Module) : (m.nextFree).power = m.power := rfl
@[simp] theorem nextFree_dies (m : Module) : (m.nextFree).dies = m.dies := rfl
@[simp] theorem nextFree_links (m : Module) : (m.nextFree).links = m.links := rfl
@[simp] theorem nextFree_hbmStacks (m : Module) : (m.nextFree).hbmStacks = m.hbmStacks := rfl
@[simp] theorem nextFree_lasers (m : Module) : (m.nextFree).lasers = m.lasers := rfl
@[simp] theorem nextFree_od (m : Module) : (m.nextFree).od = m.od := rfl
@[simp] theorem nextFree_saved (m : Module) : (m.nextFree).saved = m.saved := rfl
@[simp] theorem nextFree_calib (m : Module) : (m.nextFree).calib = m.calib := rfl
@[simp] theorem nextFree_mgmt (m : Module) : (m.nextFree).mgmt = m.mgmt := rfl
@[simp] theorem nextFree_log (m : Module) : (m.nextFree).log = m.log := rfl
@[simp] theorem nextFree_fw (m : Module) : (m.nextFree).fw = m.fw := rfl
@[simp] theorem nextFree_trust (m : Module) : (m.nextFree).trust = m.trust := rfl
@[simp] theorem nextFree_stress (m : Module) : (m.nextFree).stress = m.stress := rfl
@[simp] theorem nextFree_cores (m : Module) : (m.nextFree).cores = m.cores := rfl
@[simp] theorem nextFree_clusters (m : Module) : (m.nextFree).clusters = m.clusters := rfl
@[simp] theorem nextFree_hbm (m : Module) : (m.nextFree).hbm = m.hbm := rfl
@[simp] theorem nextFree_hbmPoison (m : Module) : (m.nextFree).hbmPoison = m.hbmPoison := rfl
@[simp] theorem nextFree_bursts (m : Module) : (m.nextFree).bursts = m.bursts := rfl
@[simp] theorem nextFree_jobs (m : Module) : (m.nextFree).jobs = m.jobs := rfl
@[simp] theorem nextFree_residency (m : Module) : (m.nextFree).residency = m.residency := rfl
@[simp] theorem nextFree_useStamp (m : Module) : (m.nextFree).useStamp = m.useStamp := rfl
@[simp] theorem nextFree_hawsers (m : Module) : (m.nextFree).hawsers = m.hawsers := rfl
@[simp] theorem nextFree_rope (m : Module) : (m.nextFree).rope = m.rope := rfl
@[simp] theorem nextFree_store (m : Module) : (m.nextFree).store = m.store := rfl
@[simp] theorem nextFree_host (m : Module) : (m.nextFree).host = m.host := rfl

/-! fire -/

@[simp] theorem fire_power (m : Module) (p v : Nat) : (m.fire p v).power = m.power := rfl
@[simp] theorem fire_dies (m : Module) (p v : Nat) : (m.fire p v).dies = m.dies := rfl
@[simp] theorem fire_links (m : Module) (p v : Nat) : (m.fire p v).links = m.links := rfl
@[simp] theorem fire_hbmStacks (m : Module) (p v : Nat) : (m.fire p v).hbmStacks = m.hbmStacks := rfl
@[simp] theorem fire_lasers (m : Module) (p v : Nat) : (m.fire p v).lasers = m.lasers := rfl
@[simp] theorem fire_od (m : Module) (p v : Nat) : (m.fire p v).od = m.od := rfl
@[simp] theorem fire_saved (m : Module) (p v : Nat) : (m.fire p v).saved = m.saved := rfl
@[simp] theorem fire_calib (m : Module) (p v : Nat) : (m.fire p v).calib = m.calib := rfl
@[simp] theorem fire_mgmt (m : Module) (p v : Nat) : (m.fire p v).mgmt = m.mgmt := rfl
@[simp] theorem fire_log (m : Module) (p v : Nat) : (m.fire p v).log = m.log := rfl
@[simp] theorem fire_fw (m : Module) (p v : Nat) : (m.fire p v).fw = m.fw := rfl
@[simp] theorem fire_trust (m : Module) (p v : Nat) : (m.fire p v).trust = m.trust := rfl
@[simp] theorem fire_stress (m : Module) (p v : Nat) : (m.fire p v).stress = m.stress := rfl
@[simp] theorem fire_cores (m : Module) (p v : Nat) : (m.fire p v).cores = m.cores := rfl
@[simp] theorem fire_clusters (m : Module) (p v : Nat) : (m.fire p v).clusters = m.clusters := rfl
@[simp] theorem fire_hbm (m : Module) (p v : Nat) : (m.fire p v).hbm = m.hbm := rfl
@[simp] theorem fire_hbmPoison (m : Module) (p v : Nat) : (m.fire p v).hbmPoison = m.hbmPoison := rfl
@[simp] theorem fire_bursts (m : Module) (p v : Nat) : (m.fire p v).bursts = m.bursts := rfl
@[simp] theorem fire_jobs (m : Module) (p v : Nat) : (m.fire p v).jobs = m.jobs := rfl
@[simp] theorem fire_residency (m : Module) (p v : Nat) : (m.fire p v).residency = m.residency := rfl
@[simp] theorem fire_useStamp (m : Module) (p v : Nat) : (m.fire p v).useStamp = m.useStamp := rfl
@[simp] theorem fire_hawsers (m : Module) (p v : Nat) : (m.fire p v).hawsers = m.hawsers := rfl
@[simp] theorem fire_rope (m : Module) (p v : Nat) : (m.fire p v).rope = m.rope := rfl
@[simp] theorem fire_store (m : Module) (p v : Nat) : (m.fire p v).store = m.store := rfl
@[simp] theorem fire_freeNo (m : Module) (p v : Nat) : (m.fire p v).freeNo = m.freeNo := rfl
@[simp] theorem fire_host_ports (m : Module) (p v : Nat) : (m.fire p v).host.ports = m.host.ports := rfl
@[simp] theorem fire_host_queues (m : Module) (p v : Nat) : (m.fire p v).host.queues = m.host.queues := rfl
@[simp] theorem fire_host_hostMem (m : Module) (p v : Nat) : (m.fire p v).host.hostMem = m.host.hostMem := rfl
@[simp] theorem fire_host_stamp (m : Module) (p v : Nat) : (m.fire p v).host.stamp = m.host.stamp := rfl
@[simp] theorem fire_host_orphans (m : Module) (p v : Nat) : (m.fire p v).host.orphans = m.host.orphans := rfl

/-! odSet -/

@[simp] theorem odSet_power (m : Module) (k v : Nat) : (m.odSet k v).power = m.power := rfl
@[simp] theorem odSet_dies (m : Module) (k v : Nat) : (m.odSet k v).dies = m.dies := rfl
@[simp] theorem odSet_links (m : Module) (k v : Nat) : (m.odSet k v).links = m.links := rfl
@[simp] theorem odSet_hbmStacks (m : Module) (k v : Nat) : (m.odSet k v).hbmStacks = m.hbmStacks := rfl
@[simp] theorem odSet_lasers (m : Module) (k v : Nat) : (m.odSet k v).lasers = m.lasers := rfl
@[simp] theorem odSet_saved (m : Module) (k v : Nat) : (m.odSet k v).saved = m.saved := rfl
@[simp] theorem odSet_calib (m : Module) (k v : Nat) : (m.odSet k v).calib = m.calib := rfl
@[simp] theorem odSet_mgmt (m : Module) (k v : Nat) : (m.odSet k v).mgmt = m.mgmt := rfl
@[simp] theorem odSet_log (m : Module) (k v : Nat) : (m.odSet k v).log = m.log := rfl
@[simp] theorem odSet_fw (m : Module) (k v : Nat) : (m.odSet k v).fw = m.fw := rfl
@[simp] theorem odSet_trust (m : Module) (k v : Nat) : (m.odSet k v).trust = m.trust := rfl
@[simp] theorem odSet_stress (m : Module) (k v : Nat) : (m.odSet k v).stress = m.stress := rfl
@[simp] theorem odSet_cores (m : Module) (k v : Nat) : (m.odSet k v).cores = m.cores := rfl
@[simp] theorem odSet_clusters (m : Module) (k v : Nat) : (m.odSet k v).clusters = m.clusters := rfl
@[simp] theorem odSet_hbm (m : Module) (k v : Nat) : (m.odSet k v).hbm = m.hbm := rfl
@[simp] theorem odSet_hbmPoison (m : Module) (k v : Nat) : (m.odSet k v).hbmPoison = m.hbmPoison := rfl
@[simp] theorem odSet_bursts (m : Module) (k v : Nat) : (m.odSet k v).bursts = m.bursts := rfl
@[simp] theorem odSet_jobs (m : Module) (k v : Nat) : (m.odSet k v).jobs = m.jobs := rfl
@[simp] theorem odSet_residency (m : Module) (k v : Nat) : (m.odSet k v).residency = m.residency := rfl
@[simp] theorem odSet_useStamp (m : Module) (k v : Nat) : (m.odSet k v).useStamp = m.useStamp := rfl
@[simp] theorem odSet_hawsers (m : Module) (k v : Nat) : (m.odSet k v).hawsers = m.hawsers := rfl
@[simp] theorem odSet_rope (m : Module) (k v : Nat) : (m.odSet k v).rope = m.rope := rfl
@[simp] theorem odSet_store (m : Module) (k v : Nat) : (m.odSet k v).store = m.store := rfl
@[simp] theorem odSet_host (m : Module) (k v : Nat) : (m.odSet k v).host = m.host := rfl
@[simp] theorem odSet_freeNo (m : Module) (k v : Nat) : (m.odSet k v).freeNo = m.freeNo := rfl

/-! bump -/

@[simp] theorem bump_power (m : Module) (k n : Nat) : (m.bump k n).power = m.power := rfl
@[simp] theorem bump_dies (m : Module) (k n : Nat) : (m.bump k n).dies = m.dies := rfl
@[simp] theorem bump_links (m : Module) (k n : Nat) : (m.bump k n).links = m.links := rfl
@[simp] theorem bump_hbmStacks (m : Module) (k n : Nat) : (m.bump k n).hbmStacks = m.hbmStacks := rfl
@[simp] theorem bump_lasers (m : Module) (k n : Nat) : (m.bump k n).lasers = m.lasers := rfl
@[simp] theorem bump_saved (m : Module) (k n : Nat) : (m.bump k n).saved = m.saved := rfl
@[simp] theorem bump_calib (m : Module) (k n : Nat) : (m.bump k n).calib = m.calib := rfl
@[simp] theorem bump_mgmt (m : Module) (k n : Nat) : (m.bump k n).mgmt = m.mgmt := rfl
@[simp] theorem bump_log (m : Module) (k n : Nat) : (m.bump k n).log = m.log := rfl
@[simp] theorem bump_fw (m : Module) (k n : Nat) : (m.bump k n).fw = m.fw := rfl
@[simp] theorem bump_trust (m : Module) (k n : Nat) : (m.bump k n).trust = m.trust := rfl
@[simp] theorem bump_stress (m : Module) (k n : Nat) : (m.bump k n).stress = m.stress := rfl
@[simp] theorem bump_cores (m : Module) (k n : Nat) : (m.bump k n).cores = m.cores := rfl
@[simp] theorem bump_clusters (m : Module) (k n : Nat) : (m.bump k n).clusters = m.clusters := rfl
@[simp] theorem bump_hbm (m : Module) (k n : Nat) : (m.bump k n).hbm = m.hbm := rfl
@[simp] theorem bump_hbmPoison (m : Module) (k n : Nat) : (m.bump k n).hbmPoison = m.hbmPoison := rfl
@[simp] theorem bump_bursts (m : Module) (k n : Nat) : (m.bump k n).bursts = m.bursts := rfl
@[simp] theorem bump_jobs (m : Module) (k n : Nat) : (m.bump k n).jobs = m.jobs := rfl
@[simp] theorem bump_residency (m : Module) (k n : Nat) : (m.bump k n).residency = m.residency := rfl
@[simp] theorem bump_useStamp (m : Module) (k n : Nat) : (m.bump k n).useStamp = m.useStamp := rfl
@[simp] theorem bump_hawsers (m : Module) (k n : Nat) : (m.bump k n).hawsers = m.hawsers := rfl
@[simp] theorem bump_rope (m : Module) (k n : Nat) : (m.bump k n).rope = m.rope := rfl
@[simp] theorem bump_store (m : Module) (k n : Nat) : (m.bump k n).store = m.store := rfl
@[simp] theorem bump_host (m : Module) (k n : Nat) : (m.bump k n).host = m.host := rfl
@[simp] theorem bump_freeNo (m : Module) (k n : Nat) : (m.bump k n).freeNo = m.freeNo := rfl

/-! ### Reading a unit -/

/-- Changing an element keeps a list's length. -/
@[simp] theorem modifyAt_length {α : Type} (f : α → α) (l : List α) (i : Nat) : (modifyAt f l i).length = l.length := by
  induction l generalizing i with
  | nil => rfl
  | cons a as ih => cases i with
    | zero => rfl
    | succ i => simp [modifyAt, ih]

/-- The element at a position after element `i` was changed. -/
theorem modifyAt_getElem? {α : Type} (f : α → α) (l : List α) (i j : Nat) :
    (modifyAt f l i)[j]? = if j = i then (l[j]?).map f else l[j]? := by
  induction l generalizing i j with
  | nil => simp [modifyAt]
  | cons a as ih =>
    cases i with
    | zero => cases j <;> simp [modifyAt]
    | succ i => cases j <;> simp [modifyAt, ih]

/-- The same with a default past the end. -/
theorem modifyAt_getD {α : Type} (f : α → α) (l : List α) (i j : Nat) (d : α) :
    (modifyAt f l i).getD j d = if j = i ∧ i < l.length then f (l.getD i d) else l.getD j d := by
  simp only [List.getD_eq_getElem?_getD, modifyAt_getElem?]
  by_cases h : j = i
  · subst h
    by_cases hl : j < l.length
    · simp [hl]
    · simp [hl]
  · simp [h]

/-- A core after a change of a core. -/
theorem core_onCore (m : Module) (g h : Nat) (f : Core → Core) :
    (m.onCore g f).core h = if h = g ∧ g < m.cores.length then f (m.core g) else m.core h := by
  simp only [Module.core, Module.onCore, modifyAt_getD]

/-- The one that was changed. -/
theorem core_onCore_self (m : Module) (g : Nat) (f : Core → Core) (h : g < m.cores.length) : (m.onCore g f).core g = f (m.core g) := by
  simp [core_onCore, h]

/-- The others stay. -/
theorem core_onCore_other (m : Module) (g h : Nat) (f : Core → Core) (hn : h ≠ g) : (m.onCore g f).core h = m.core h := by
  simp [core_onCore, hn]

/-- There are as many of them as before. -/
@[simp] theorem onCore_length (m : Module) (g : Nat) (f : Core → Core) : (m.onCore g f).cores.length = m.cores.length := by
  simp [Module.onCore]

/-- A cluster after a change of a cluster. -/
theorem cluster_onCluster (m : Module) (g h : Nat) (f : Cluster → Cluster) :
    (m.onCluster g f).cluster h = if h = g ∧ g < m.clusters.length then f (m.cluster g) else m.cluster h := by
  simp only [Module.cluster, Module.onCluster, modifyAt_getD]

/-- The one that was changed. -/
theorem cluster_onCluster_self (m : Module) (g : Nat) (f : Cluster → Cluster) (h : g < m.clusters.length) : (m.onCluster g f).cluster g = f (m.cluster g) := by
  simp [cluster_onCluster, h]

/-- The others stay. -/
theorem cluster_onCluster_other (m : Module) (g h : Nat) (f : Cluster → Cluster) (hn : h ≠ g) : (m.onCluster g f).cluster h = m.cluster h := by
  simp [cluster_onCluster, hn]

/-- There are as many of them as before. -/
@[simp] theorem onCluster_length (m : Module) (g : Nat) (f : Cluster → Cluster) : (m.onCluster g f).clusters.length = m.clusters.length := by
  simp [Module.onCluster]

/-- A job after a change of a job. -/
theorem job_onJob (m : Module) (g h : Nat) (f : Job → Job) :
    (m.onJob g f).job h = if h = g ∧ g < m.jobs.length then f (m.job g) else m.job h := by
  simp only [Module.job, Module.onJob, modifyAt_getD]

/-- The one that was changed. -/
theorem job_onJob_self (m : Module) (g : Nat) (f : Job → Job) (h : g < m.jobs.length) : (m.onJob g f).job g = f (m.job g) := by
  simp [job_onJob, h]

/-- The others stay. -/
theorem job_onJob_other (m : Module) (g h : Nat) (f : Job → Job) (hn : h ≠ g) : (m.onJob g f).job h = m.job h := by
  simp [job_onJob, hn]

/-- There are as many of them as before. -/
@[simp] theorem onJob_length (m : Module) (g : Nat) (f : Job → Job) : (m.onJob g f).jobs.length = m.jobs.length := by
  simp [Module.onJob]

/-- A die after a change of a die. -/
theorem die_onDie (m : Module) (g h : Nat) (f : Die → Die) :
    (m.onDie g f).die h = if h = g ∧ g < m.dies.length then f (m.die g) else m.die h := by
  simp only [Module.die, Module.onDie, modifyAt_getD]

/-- The one that was changed. -/
theorem die_onDie_self (m : Module) (g : Nat) (f : Die → Die) (h : g < m.dies.length) : (m.onDie g f).die g = f (m.die g) := by
  simp [die_onDie, h]

/-- The others stay. -/
theorem die_onDie_other (m : Module) (g h : Nat) (f : Die → Die) (hn : h ≠ g) : (m.onDie g f).die h = m.die h := by
  simp [die_onDie, hn]

/-- There are as many of them as before. -/
@[simp] theorem onDie_length (m : Module) (g : Nat) (f : Die → Die) : (m.onDie g f).dies.length = m.dies.length := by
  simp [Module.onDie]

/-- A stack after a change of a stack. -/
theorem stack_onStack (m : Module) (g h : Nat) (f : Stack → Stack) :
    (m.onStack g f).stack h = if h = g ∧ g < m.hbmStacks.length then f (m.stack g) else m.stack h := by
  simp only [Module.stack, Module.onStack, modifyAt_getD]

/-- The one that was changed. -/
theorem stack_onStack_self (m : Module) (g : Nat) (f : Stack → Stack) (h : g < m.hbmStacks.length) : (m.onStack g f).stack g = f (m.stack g) := by
  simp [stack_onStack, h]

/-- The others stay. -/
theorem stack_onStack_other (m : Module) (g h : Nat) (f : Stack → Stack) (hn : h ≠ g) : (m.onStack g f).stack h = m.stack h := by
  simp [stack_onStack, hn]

/-- There are as many of them as before. -/
@[simp] theorem onStack_length (m : Module) (g : Nat) (f : Stack → Stack) : (m.onStack g f).hbmStacks.length = m.hbmStacks.length := by
  simp [Module.onStack]

/-- A hawser after a change of a hawser. -/
theorem hawser_onHawser (m : Module) (g h : Nat) (f : Hawser → Hawser) :
    (m.onHawser g f).hawser h = if h = g ∧ g < m.hawsers.length then f (m.hawser g) else m.hawser h := by
  simp only [Module.hawser, Module.onHawser, modifyAt_getD]

/-- The one that was changed. -/
theorem hawser_onHawser_self (m : Module) (g : Nat) (f : Hawser → Hawser) (h : g < m.hawsers.length) : (m.onHawser g f).hawser g = f (m.hawser g) := by
  simp [hawser_onHawser, h]

/-- The others stay. -/
theorem hawser_onHawser_other (m : Module) (g h : Nat) (f : Hawser → Hawser) (hn : h ≠ g) : (m.onHawser g f).hawser h = m.hawser h := by
  simp [hawser_onHawser, hn]

/-- There are as many of them as before. -/
@[simp] theorem onHawser_length (m : Module) (g : Nat) (f : Hawser → Hawser) : (m.onHawser g f).hawsers.length = m.hawsers.length := by
  simp [Module.onHawser]

/-! A unit read past an update of something else. -/

@[simp] theorem cluster_of_onCore (m : Module) (g : Nat) (f : Core → Core) (h : Nat) : (m.onCore g f).cluster h = m.cluster h := rfl
@[simp] theorem job_of_onCore (m : Module) (g : Nat) (f : Core → Core) (h : Nat) : (m.onCore g f).job h = m.job h := rfl
@[simp] theorem die_of_onCore (m : Module) (g : Nat) (f : Core → Core) (h : Nat) : (m.onCore g f).die h = m.die h := rfl
@[simp] theorem stack_of_onCore (m : Module) (g : Nat) (f : Core → Core) (h : Nat) : (m.onCore g f).stack h = m.stack h := rfl
@[simp] theorem hawser_of_onCore (m : Module) (g : Nat) (f : Core → Core) (h : Nat) : (m.onCore g f).hawser h = m.hawser h := rfl
@[simp] theorem queue_of_onCore (m : Module) (g : Nat) (f : Core → Core) (h : Nat) : (m.onCore g f).queue h = m.queue h := rfl
@[simp] theorem port_of_onCore (m : Module) (g : Nat) (f : Core → Core) (h : Nat) : (m.onCore g f).port h = m.port h := rfl
@[simp] theorem core_of_onCluster (m : Module) (k : Nat) (f : Cluster → Cluster) (h : Nat) : (m.onCluster k f).core h = m.core h := rfl
@[simp] theorem job_of_onCluster (m : Module) (k : Nat) (f : Cluster → Cluster) (h : Nat) : (m.onCluster k f).job h = m.job h := rfl
@[simp] theorem die_of_onCluster (m : Module) (k : Nat) (f : Cluster → Cluster) (h : Nat) : (m.onCluster k f).die h = m.die h := rfl
@[simp] theorem stack_of_onCluster (m : Module) (k : Nat) (f : Cluster → Cluster) (h : Nat) : (m.onCluster k f).stack h = m.stack h := rfl
@[simp] theorem hawser_of_onCluster (m : Module) (k : Nat) (f : Cluster → Cluster) (h : Nat) : (m.onCluster k f).hawser h = m.hawser h := rfl
@[simp] theorem queue_of_onCluster (m : Module) (k : Nat) (f : Cluster → Cluster) (h : Nat) : (m.onCluster k f).queue h = m.queue h := rfl
@[simp] theorem port_of_onCluster (m : Module) (k : Nat) (f : Cluster → Cluster) (h : Nat) : (m.onCluster k f).port h = m.port h := rfl
@[simp] theorem core_of_onJob (m : Module) (j : Nat) (f : Job → Job) (h : Nat) : (m.onJob j f).core h = m.core h := rfl
@[simp] theorem cluster_of_onJob (m : Module) (j : Nat) (f : Job → Job) (h : Nat) : (m.onJob j f).cluster h = m.cluster h := rfl
@[simp] theorem die_of_onJob (m : Module) (j : Nat) (f : Job → Job) (h : Nat) : (m.onJob j f).die h = m.die h := rfl
@[simp] theorem stack_of_onJob (m : Module) (j : Nat) (f : Job → Job) (h : Nat) : (m.onJob j f).stack h = m.stack h := rfl
@[simp] theorem hawser_of_onJob (m : Module) (j : Nat) (f : Job → Job) (h : Nat) : (m.onJob j f).hawser h = m.hawser h := rfl
@[simp] theorem queue_of_onJob (m : Module) (j : Nat) (f : Job → Job) (h : Nat) : (m.onJob j f).queue h = m.queue h := rfl
@[simp] theorem port_of_onJob (m : Module) (j : Nat) (f : Job → Job) (h : Nat) : (m.onJob j f).port h = m.port h := rfl
@[simp] theorem core_of_onRun (m : Module) (j : Nat) (f : Run → Run) (h : Nat) : (m.onRun j f).core h = m.core h := rfl
@[simp] theorem cluster_of_onRun (m : Module) (j : Nat) (f : Run → Run) (h : Nat) : (m.onRun j f).cluster h = m.cluster h := rfl
@[simp] theorem die_of_onRun (m : Module) (j : Nat) (f : Run → Run) (h : Nat) : (m.onRun j f).die h = m.die h := rfl
@[simp] theorem stack_of_onRun (m : Module) (j : Nat) (f : Run → Run) (h : Nat) : (m.onRun j f).stack h = m.stack h := rfl
@[simp] theorem hawser_of_onRun (m : Module) (j : Nat) (f : Run → Run) (h : Nat) : (m.onRun j f).hawser h = m.hawser h := rfl
@[simp] theorem queue_of_onRun (m : Module) (j : Nat) (f : Run → Run) (h : Nat) : (m.onRun j f).queue h = m.queue h := rfl
@[simp] theorem port_of_onRun (m : Module) (j : Nat) (f : Run → Run) (h : Nat) : (m.onRun j f).port h = m.port h := rfl
@[simp] theorem core_of_onDie (m : Module) (d : Nat) (f : Die → Die) (h : Nat) : (m.onDie d f).core h = m.core h := rfl
@[simp] theorem cluster_of_onDie (m : Module) (d : Nat) (f : Die → Die) (h : Nat) : (m.onDie d f).cluster h = m.cluster h := rfl
@[simp] theorem job_of_onDie (m : Module) (d : Nat) (f : Die → Die) (h : Nat) : (m.onDie d f).job h = m.job h := rfl
@[simp] theorem stack_of_onDie (m : Module) (d : Nat) (f : Die → Die) (h : Nat) : (m.onDie d f).stack h = m.stack h := rfl
@[simp] theorem hawser_of_onDie (m : Module) (d : Nat) (f : Die → Die) (h : Nat) : (m.onDie d f).hawser h = m.hawser h := rfl
@[simp] theorem queue_of_onDie (m : Module) (d : Nat) (f : Die → Die) (h : Nat) : (m.onDie d f).queue h = m.queue h := rfl
@[simp] theorem port_of_onDie (m : Module) (d : Nat) (f : Die → Die) (h : Nat) : (m.onDie d f).port h = m.port h := rfl
@[simp] theorem core_of_onStack (m : Module) (p : Nat) (f : Stack → Stack) (h : Nat) : (m.onStack p f).core h = m.core h := rfl
@[simp] theorem cluster_of_onStack (m : Module) (p : Nat) (f : Stack → Stack) (h : Nat) : (m.onStack p f).cluster h = m.cluster h := rfl
@[simp] theorem job_of_onStack (m : Module) (p : Nat) (f : Stack → Stack) (h : Nat) : (m.onStack p f).job h = m.job h := rfl
@[simp] theorem die_of_onStack (m : Module) (p : Nat) (f : Stack → Stack) (h : Nat) : (m.onStack p f).die h = m.die h := rfl
@[simp] theorem hawser_of_onStack (m : Module) (p : Nat) (f : Stack → Stack) (h : Nat) : (m.onStack p f).hawser h = m.hawser h := rfl
@[simp] theorem queue_of_onStack (m : Module) (p : Nat) (f : Stack → Stack) (h : Nat) : (m.onStack p f).queue h = m.queue h := rfl
@[simp] theorem port_of_onStack (m : Module) (p : Nat) (f : Stack → Stack) (h : Nat) : (m.onStack p f).port h = m.port h := rfl
@[simp] theorem core_of_onPort (m : Module) (p : Nat) (f : Port → Port) (h : Nat) : (m.onPort p f).core h = m.core h := rfl
@[simp] theorem cluster_of_onPort (m : Module) (p : Nat) (f : Port → Port) (h : Nat) : (m.onPort p f).cluster h = m.cluster h := rfl
@[simp] theorem job_of_onPort (m : Module) (p : Nat) (f : Port → Port) (h : Nat) : (m.onPort p f).job h = m.job h := rfl
@[simp] theorem die_of_onPort (m : Module) (p : Nat) (f : Port → Port) (h : Nat) : (m.onPort p f).die h = m.die h := rfl
@[simp] theorem stack_of_onPort (m : Module) (p : Nat) (f : Port → Port) (h : Nat) : (m.onPort p f).stack h = m.stack h := rfl
@[simp] theorem hawser_of_onPort (m : Module) (p : Nat) (f : Port → Port) (h : Nat) : (m.onPort p f).hawser h = m.hawser h := rfl
@[simp] theorem queue_of_onPort (m : Module) (p : Nat) (f : Port → Port) (h : Nat) : (m.onPort p f).queue h = m.queue h := rfl
@[simp] theorem core_of_onQueue (m : Module) (q : Nat) (f : Queue → Queue) (h : Nat) : (m.onQueue q f).core h = m.core h := rfl
@[simp] theorem cluster_of_onQueue (m : Module) (q : Nat) (f : Queue → Queue) (h : Nat) : (m.onQueue q f).cluster h = m.cluster h := rfl
@[simp] theorem job_of_onQueue (m : Module) (q : Nat) (f : Queue → Queue) (h : Nat) : (m.onQueue q f).job h = m.job h := rfl
@[simp] theorem die_of_onQueue (m : Module) (q : Nat) (f : Queue → Queue) (h : Nat) : (m.onQueue q f).die h = m.die h := rfl
@[simp] theorem stack_of_onQueue (m : Module) (q : Nat) (f : Queue → Queue) (h : Nat) : (m.onQueue q f).stack h = m.stack h := rfl
@[simp] theorem hawser_of_onQueue (m : Module) (q : Nat) (f : Queue → Queue) (h : Nat) : (m.onQueue q f).hawser h = m.hawser h := rfl
@[simp] theorem port_of_onQueue (m : Module) (q : Nat) (f : Queue → Queue) (h : Nat) : (m.onQueue q f).port h = m.port h := rfl
@[simp] theorem core_of_onMailbox (m : Module) (p : Nat) (f : Mailbox → Mailbox) (h : Nat) : (m.onMailbox p f).core h = m.core h := rfl
@[simp] theorem cluster_of_onMailbox (m : Module) (p : Nat) (f : Mailbox → Mailbox) (h : Nat) : (m.onMailbox p f).cluster h = m.cluster h := rfl
@[simp] theorem job_of_onMailbox (m : Module) (p : Nat) (f : Mailbox → Mailbox) (h : Nat) : (m.onMailbox p f).job h = m.job h := rfl
@[simp] theorem die_of_onMailbox (m : Module) (p : Nat) (f : Mailbox → Mailbox) (h : Nat) : (m.onMailbox p f).die h = m.die h := rfl
@[simp] theorem stack_of_onMailbox (m : Module) (p : Nat) (f : Mailbox → Mailbox) (h : Nat) : (m.onMailbox p f).stack h = m.stack h := rfl
@[simp] theorem hawser_of_onMailbox (m : Module) (p : Nat) (f : Mailbox → Mailbox) (h : Nat) : (m.onMailbox p f).hawser h = m.hawser h := rfl
@[simp] theorem queue_of_onMailbox (m : Module) (p : Nat) (f : Mailbox → Mailbox) (h : Nat) : (m.onMailbox p f).queue h = m.queue h := rfl
@[simp] theorem core_of_onHawser (m : Module) (n : Nat) (f : Hawser → Hawser) (h : Nat) : (m.onHawser n f).core h = m.core h := rfl
@[simp] theorem cluster_of_onHawser (m : Module) (n : Nat) (f : Hawser → Hawser) (h : Nat) : (m.onHawser n f).cluster h = m.cluster h := rfl
@[simp] theorem job_of_onHawser (m : Module) (n : Nat) (f : Hawser → Hawser) (h : Nat) : (m.onHawser n f).job h = m.job h := rfl
@[simp] theorem die_of_onHawser (m : Module) (n : Nat) (f : Hawser → Hawser) (h : Nat) : (m.onHawser n f).die h = m.die h := rfl
@[simp] theorem stack_of_onHawser (m : Module) (n : Nat) (f : Hawser → Hawser) (h : Nat) : (m.onHawser n f).stack h = m.stack h := rfl
@[simp] theorem queue_of_onHawser (m : Module) (n : Nat) (f : Hawser → Hawser) (h : Nat) : (m.onHawser n f).queue h = m.queue h := rfl
@[simp] theorem port_of_onHawser (m : Module) (n : Nat) (f : Hawser → Hawser) (h : Nat) : (m.onHawser n f).port h = m.port h := rfl
@[simp] theorem core_of_nextFree (m : Module) (h : Nat) : (m.nextFree).core h = m.core h := rfl
@[simp] theorem cluster_of_nextFree (m : Module) (h : Nat) : (m.nextFree).cluster h = m.cluster h := rfl
@[simp] theorem job_of_nextFree (m : Module) (h : Nat) : (m.nextFree).job h = m.job h := rfl
@[simp] theorem die_of_nextFree (m : Module) (h : Nat) : (m.nextFree).die h = m.die h := rfl
@[simp] theorem stack_of_nextFree (m : Module) (h : Nat) : (m.nextFree).stack h = m.stack h := rfl
@[simp] theorem hawser_of_nextFree (m : Module) (h : Nat) : (m.nextFree).hawser h = m.hawser h := rfl
@[simp] theorem queue_of_nextFree (m : Module) (h : Nat) : (m.nextFree).queue h = m.queue h := rfl
@[simp] theorem port_of_nextFree (m : Module) (h : Nat) : (m.nextFree).port h = m.port h := rfl
@[simp] theorem core_of_fire (m : Module) (p v : Nat) (h : Nat) : (m.fire p v).core h = m.core h := rfl
@[simp] theorem cluster_of_fire (m : Module) (p v : Nat) (h : Nat) : (m.fire p v).cluster h = m.cluster h := rfl
@[simp] theorem job_of_fire (m : Module) (p v : Nat) (h : Nat) : (m.fire p v).job h = m.job h := rfl
@[simp] theorem die_of_fire (m : Module) (p v : Nat) (h : Nat) : (m.fire p v).die h = m.die h := rfl
@[simp] theorem stack_of_fire (m : Module) (p v : Nat) (h : Nat) : (m.fire p v).stack h = m.stack h := rfl
@[simp] theorem hawser_of_fire (m : Module) (p v : Nat) (h : Nat) : (m.fire p v).hawser h = m.hawser h := rfl
@[simp] theorem queue_of_fire (m : Module) (p v : Nat) (h : Nat) : (m.fire p v).queue h = m.queue h := rfl
@[simp] theorem port_of_fire (m : Module) (p v : Nat) (h : Nat) : (m.fire p v).port h = m.port h := rfl
@[simp] theorem core_of_odSet (m : Module) (k v : Nat) (h : Nat) : (m.odSet k v).core h = m.core h := rfl
@[simp] theorem cluster_of_odSet (m : Module) (k v : Nat) (h : Nat) : (m.odSet k v).cluster h = m.cluster h := rfl
@[simp] theorem job_of_odSet (m : Module) (k v : Nat) (h : Nat) : (m.odSet k v).job h = m.job h := rfl
@[simp] theorem die_of_odSet (m : Module) (k v : Nat) (h : Nat) : (m.odSet k v).die h = m.die h := rfl
@[simp] theorem stack_of_odSet (m : Module) (k v : Nat) (h : Nat) : (m.odSet k v).stack h = m.stack h := rfl
@[simp] theorem hawser_of_odSet (m : Module) (k v : Nat) (h : Nat) : (m.odSet k v).hawser h = m.hawser h := rfl
@[simp] theorem queue_of_odSet (m : Module) (k v : Nat) (h : Nat) : (m.odSet k v).queue h = m.queue h := rfl
@[simp] theorem port_of_odSet (m : Module) (k v : Nat) (h : Nat) : (m.odSet k v).port h = m.port h := rfl
@[simp] theorem core_of_bump (m : Module) (k n : Nat) (h : Nat) : (m.bump k n).core h = m.core h := rfl
@[simp] theorem cluster_of_bump (m : Module) (k n : Nat) (h : Nat) : (m.bump k n).cluster h = m.cluster h := rfl
@[simp] theorem job_of_bump (m : Module) (k n : Nat) (h : Nat) : (m.bump k n).job h = m.job h := rfl
@[simp] theorem die_of_bump (m : Module) (k n : Nat) (h : Nat) : (m.bump k n).die h = m.die h := rfl
@[simp] theorem stack_of_bump (m : Module) (k n : Nat) (h : Nat) : (m.bump k n).stack h = m.stack h := rfl
@[simp] theorem hawser_of_bump (m : Module) (k n : Nat) (h : Nat) : (m.bump k n).hawser h = m.hawser h := rfl
@[simp] theorem queue_of_bump (m : Module) (k n : Nat) (h : Nat) : (m.bump k n).queue h = m.queue h := rfl
@[simp] theorem port_of_bump (m : Module) (k n : Nat) (h : Nat) : (m.bump k n).port h = m.port h := rfl

/-- A queue after a change of a queue. -/
theorem queue_onQueue (m : Module) (q r : Nat) (f : Queue → Queue) :
    (m.onQueue q f).queue r = if r = q ∧ q < m.host.queues.length then f (m.queue q) else m.queue r := by
  simp only [Module.queue, Module.onQueue, modifyAt_getD]

/-- A host port after a change of a port. -/
theorem port_onPort (m : Module) (p r : Nat) (f : Port → Port) :
    (m.onPort p f).port r = if r = p ∧ p < m.host.ports.length then f (m.port p) else m.port r := by
  simp only [Module.port, Module.onPort, modifyAt_getD]

end Sys2Proof.Laws
end

