-- ==== Sys2Proof/Laws/Ops.lean ====
section
/-!
SUPPORT. What the shared operations of Machine/Ops.lean can change. An event, a notification, a Logline record and a
replace reason touch the dictionary values, the management side, the Logline recorder, the mailboxes and the interrupt
counts, and nothing else: `Module.still` forgets those, and each operation leaves the rest.
-/
namespace Sys2Proof.Laws

open Sys2Proof.Machine

/-- The module without what reporting touches. -/
def still (m : Module) : Module :=
  { m with od := [], log := Module.reset.log,
           mgmt := { m.mgmt with frames := [], held := [], dropEventHeld := false },
           host := { m.host with ports := m.host.ports.map (fun p => { p with mailbox := Mailbox.reset }), irqs := [] } }

/-- A change of a mailbox does not show. -/
theorem still_onMailbox (m : Module) (p : Nat) (f : Mailbox → Mailbox) : still (m.onMailbox p f) = still m := by
  have h : ∀ (l : List Port) (i : Nat),
      (modifyAt (fun t : Port => { t with mailbox := f t.mailbox }) l i).map (fun p => { p with mailbox := Mailbox.reset }) =
        l.map (fun p => { p with mailbox := Mailbox.reset }) := by
    intro l
    induction l with
    | nil => intro i; rfl
    | cons a l ih => intro i; cases i with
      | zero => rfl
      | succ i => simp [modifyAt, ih]
  simp [still, Module.onMailbox, Module.onPort, h]

@[simp] theorem still_odSet (m : Module) (k v : Nat) : still (m.odSet k v) = still m := rfl
@[simp] theorem still_bump (m : Module) (k n : Nat) : still (m.bump k n) = still m := rfl
@[simp] theorem still_fire (m : Module) (p v : Nat) : still (m.fire p v) = still m := rfl
@[simp] theorem still_log (m : Module) (l : Log) : still { m with log := l } = still m := rfl

/-- Sending a frame does not show. -/
@[simp] theorem still_sendFrame (fu : Fuses) (m : Module) (d n : Nat) (b : List Byte) : still (m.sendFrame fu d n b) = still m := by
  unfold Module.sendFrame; split <;> rfl

/-- A notification does not show. -/
@[simp] theorem still_notifyPort (m : Module) (p : Nat) (b : List Byte) : still (m.notifyPort p b) = still m := by
  unfold Module.notifyPort
  dsimp only
  split
  · rfl
  · split
    · rw [still_bump, still_onMailbox]
    · rw [still_fire, still_onMailbox]

/-- The NOTIFY of a record does not show. -/
@[simp] theorem still_notifyRec (fu : Fuses) (m : Module) (r : LogRec) : still (m.notifyRec fu r) = still m := by
  unfold Module.notifyRec
  split <;> simp

/-- A record does not show. -/
@[simp] theorem still_putRec (fu : Fuses) (m : Module) (c n : Nat) (b : Bool) (l : List Nat) : still (m.putRec fu c n b l) = still m := by
  simp [Module.putRec]

/-- Nor does one with its count of lost records. -/
@[simp] theorem still_putRecs (fu : Fuses) (m : Module) (c n : Nat) (b : Bool) (l : List Nat) : still (m.putRecs fu c n b l) = still m := by
  unfold Module.putRecs
  split <;> simp

/-- Nor one under the mask and the rate limit. -/
@[simp] theorem still_record (fu : Fuses) (m : Module) (c : Nat) (b : Bool) (l : List Nat) : still (m.record fu c b l) = still m := by
  unfold Module.record
  split
  · rfl
  · split <;> simp

/-- An event does not show. -/
@[simp] theorem still_eventX (fu : Fuses) (m : Module) (b : Bool) (c : Nat) (l : List Nat) : still (m.eventX fu b c l) = still m := by
  unfold Module.eventX
  split
  · split <;> rfl
  · dsimp only
    split
    · rw [still_record]
      exact still_record fu m c b l
    · exact still_record fu m c b l

/-- An event of its own does not show. -/
@[simp] theorem still_event (fu : Fuses) (m : Module) (c : Nat) (l : List Nat) : still (m.event fu c l) = still m :=
  still_eventX fu m false c l

/-- A replace reason does not show. -/
@[simp] theorem still_reason (fu : Fuses) (m : Module) (b : Nat) (l : List Nat) : still (m.reason fu b l) = still m := by
  unfold Module.reason
  dsimp only
  split
  · rfl
  · simp

/-- Nor the cores reason. -/
@[simp] theorem still_checkCores (fu : Fuses) (m : Module) : still (m.checkCores fu) = still m := by
  unfold Module.checkCores
  split <;> simp

/-! ### Field by field -/

@[simp] theorem sendFrame_power (fu : Fuses) (m : Module) (d n : Nat) (b : List Byte) : (m.sendFrame fu d n b).power = m.power := (congrArg Module.power (still_sendFrame fu m d n b) :)
@[simp] theorem sendFrame_dies (fu : Fuses) (m : Module) (d n : Nat) (b : List Byte) : (m.sendFrame fu d n b).dies = m.dies := (congrArg Module.dies (still_sendFrame fu m d n b) :)
@[simp] theorem sendFrame_links (fu : Fuses) (m : Module) (d n : Nat) (b : List Byte) : (m.sendFrame fu d n b).links = m.links := (congrArg Module.links (still_sendFrame fu m d n b) :)
@[simp] theorem sendFrame_hbmStacks (fu : Fuses) (m : Module) (d n : Nat) (b : List Byte) : (m.sendFrame fu d n b).hbmStacks = m.hbmStacks := (congrArg Module.hbmStacks (still_sendFrame fu m d n b) :)
@[simp] theorem sendFrame_lasers (fu : Fuses) (m : Module) (d n : Nat) (b : List Byte) : (m.sendFrame fu d n b).lasers = m.lasers := (congrArg Module.lasers (still_sendFrame fu m d n b) :)
@[simp] theorem sendFrame_saved (fu : Fuses) (m : Module) (d n : Nat) (b : List Byte) : (m.sendFrame fu d n b).saved = m.saved := (congrArg Module.saved (still_sendFrame fu m d n b) :)
@[simp] theorem sendFrame_fw (fu : Fuses) (m : Module) (d n : Nat) (b : List Byte) : (m.sendFrame fu d n b).fw = m.fw := (congrArg Module.fw (still_sendFrame fu m d n b) :)
@[simp] theorem sendFrame_trust (fu : Fuses) (m : Module) (d n : Nat) (b : List Byte) : (m.sendFrame fu d n b).trust = m.trust := (congrArg Module.trust (still_sendFrame fu m d n b) :)
@[simp] theorem sendFrame_stress (fu : Fuses) (m : Module) (d n : Nat) (b : List Byte) : (m.sendFrame fu d n b).stress = m.stress := (congrArg Module.stress (still_sendFrame fu m d n b) :)
@[simp] theorem sendFrame_cores (fu : Fuses) (m : Module) (d n : Nat) (b : List Byte) : (m.sendFrame fu d n b).cores = m.cores := (congrArg Module.cores (still_sendFrame fu m d n b) :)
@[simp] theorem sendFrame_clusters (fu : Fuses) (m : Module) (d n : Nat) (b : List Byte) : (m.sendFrame fu d n b).clusters = m.clusters := (congrArg Module.clusters (still_sendFrame fu m d n b) :)
@[simp] theorem sendFrame_hbm (fu : Fuses) (m : Module) (d n : Nat) (b : List Byte) : (m.sendFrame fu d n b).hbm = m.hbm := (congrArg Module.hbm (still_sendFrame fu m d n b) :)
@[simp] theorem sendFrame_hbmPoison (fu : Fuses) (m : Module) (d n : Nat) (b : List Byte) : (m.sendFrame fu d n b).hbmPoison = m.hbmPoison := (congrArg Module.hbmPoison (still_sendFrame fu m d n b) :)
@[simp] theorem sendFrame_jobs (fu : Fuses) (m : Module) (d n : Nat) (b : List Byte) : (m.sendFrame fu d n b).jobs = m.jobs := (congrArg Module.jobs (still_sendFrame fu m d n b) :)
@[simp] theorem sendFrame_residency (fu : Fuses) (m : Module) (d n : Nat) (b : List Byte) : (m.sendFrame fu d n b).residency = m.residency := (congrArg Module.residency (still_sendFrame fu m d n b) :)
@[simp] theorem sendFrame_useStamp (fu : Fuses) (m : Module) (d n : Nat) (b : List Byte) : (m.sendFrame fu d n b).useStamp = m.useStamp := (congrArg Module.useStamp (still_sendFrame fu m d n b) :)
@[simp] theorem sendFrame_hawsers (fu : Fuses) (m : Module) (d n : Nat) (b : List Byte) : (m.sendFrame fu d n b).hawsers = m.hawsers := (congrArg Module.hawsers (still_sendFrame fu m d n b) :)
@[simp] theorem sendFrame_rope (fu : Fuses) (m : Module) (d n : Nat) (b : List Byte) : (m.sendFrame fu d n b).rope = m.rope := (congrArg Module.rope (still_sendFrame fu m d n b) :)
@[simp] theorem sendFrame_store (fu : Fuses) (m : Module) (d n : Nat) (b : List Byte) : (m.sendFrame fu d n b).store = m.store := (congrArg Module.store (still_sendFrame fu m d n b) :)
@[simp] theorem sendFrame_freeNo (fu : Fuses) (m : Module) (d n : Nat) (b : List Byte) : (m.sendFrame fu d n b).freeNo = m.freeNo := (congrArg Module.freeNo (still_sendFrame fu m d n b) :)
@[simp] theorem sendFrame_host_queues (fu : Fuses) (m : Module) (d n : Nat) (b : List Byte) : (m.sendFrame fu d n b).host.queues = m.host.queues := (congrArg (fun x : Module => x.host.queues) (still_sendFrame fu m d n b) :)
@[simp] theorem sendFrame_host_hostMem (fu : Fuses) (m : Module) (d n : Nat) (b : List Byte) : (m.sendFrame fu d n b).host.hostMem = m.host.hostMem := (congrArg (fun x : Module => x.host.hostMem) (still_sendFrame fu m d n b) :)
@[simp] theorem sendFrame_host_stamp (fu : Fuses) (m : Module) (d n : Nat) (b : List Byte) : (m.sendFrame fu d n b).host.stamp = m.host.stamp := (congrArg (fun x : Module => x.host.stamp) (still_sendFrame fu m d n b) :)
@[simp] theorem sendFrame_host_orphans (fu : Fuses) (m : Module) (d n : Nat) (b : List Byte) : (m.sendFrame fu d n b).host.orphans = m.host.orphans := (congrArg (fun x : Module => x.host.orphans) (still_sendFrame fu m d n b) :)
@[simp] theorem sendFrame_mgmt_reachable (fu : Fuses) (m : Module) (d n : Nat) (b : List Byte) : (m.sendFrame fu d n b).mgmt.reachable = m.mgmt.reachable := (congrArg (fun x : Module => x.mgmt.reachable) (still_sendFrame fu m d n b) :)
@[simp] theorem sendFrame_mgmt_capstanUp (fu : Fuses) (m : Module) (d n : Nat) (b : List Byte) : (m.sendFrame fu d n b).mgmt.capstanUp = m.mgmt.capstanUp := (congrArg (fun x : Module => x.mgmt.capstanUp) (still_sendFrame fu m d n b) :)
@[simp] theorem sendFrame_mgmt_romService (fu : Fuses) (m : Module) (d n : Nat) (b : List Byte) : (m.sendFrame fu d n b).mgmt.romService = m.mgmt.romService := (congrArg (fun x : Module => x.mgmt.romService) (still_sendFrame fu m d n b) :)
@[simp] theorem sendFrame_mgmt_staged (fu : Fuses) (m : Module) (d n : Nat) (b : List Byte) : (m.sendFrame fu d n b).mgmt.staged = m.mgmt.staged := (congrArg (fun x : Module => x.mgmt.staged) (still_sendFrame fu m d n b) :)
@[simp] theorem sendFrame_mgmt_commits (fu : Fuses) (m : Module) (d n : Nat) (b : List Byte) : (m.sendFrame fu d n b).mgmt.commits = m.mgmt.commits := (congrArg (fun x : Module => x.mgmt.commits) (still_sendFrame fu m d n b) :)
@[simp] theorem sendFrame_mgmt_clamped (fu : Fuses) (m : Module) (d n : Nat) (b : List Byte) : (m.sendFrame fu d n b).mgmt.clamped = m.mgmt.clamped := (congrArg (fun x : Module => x.mgmt.clamped) (still_sendFrame fu m d n b) :)
@[simp] theorem sendFrame_mgmt_kept (fu : Fuses) (m : Module) (d n : Nat) (b : List Byte) : (m.sendFrame fu d n b).mgmt.kept = m.mgmt.kept := (congrArg (fun x : Module => x.mgmt.kept) (still_sendFrame fu m d n b) :)
@[simp] theorem sendFrame_mgmt_mirror (fu : Fuses) (m : Module) (d n : Nat) (b : List Byte) : (m.sendFrame fu d n b).mgmt.mirror = m.mgmt.mirror := (congrArg (fun x : Module => x.mgmt.mirror) (still_sendFrame fu m d n b) :)
@[simp] theorem sendFrame_mgmt_windows (fu : Fuses) (m : Module) (d n : Nat) (b : List Byte) : (m.sendFrame fu d n b).mgmt.windows = m.mgmt.windows := (congrArg (fun x : Module => x.mgmt.windows) (still_sendFrame fu m d n b) :)
@[simp] theorem sendFrame_mgmt_beaconLost (fu : Fuses) (m : Module) (d n : Nat) (b : List Byte) : (m.sendFrame fu d n b).mgmt.beaconLost = m.mgmt.beaconLost := (congrArg (fun x : Module => x.mgmt.beaconLost) (still_sendFrame fu m d n b) :)
@[simp] theorem sendFrame_mgmt_restartCause (fu : Fuses) (m : Module) (d n : Nat) (b : List Byte) : (m.sendFrame fu d n b).mgmt.restartCause = m.mgmt.restartCause := (congrArg (fun x : Module => x.mgmt.restartCause) (still_sendFrame fu m d n b) :)
@[simp] theorem core_of_sendFrame (fu : Fuses) (m : Module) (d n : Nat) (b : List Byte) (h : Nat) : (m.sendFrame fu d n b).core h = m.core h := by simp [Module.core]
@[simp] theorem cluster_of_sendFrame (fu : Fuses) (m : Module) (d n : Nat) (b : List Byte) (h : Nat) : (m.sendFrame fu d n b).cluster h = m.cluster h := by simp [Module.cluster]
@[simp] theorem job_of_sendFrame (fu : Fuses) (m : Module) (d n : Nat) (b : List Byte) (h : Nat) : (m.sendFrame fu d n b).job h = m.job h := by simp [Module.job]
@[simp] theorem die_of_sendFrame (fu : Fuses) (m : Module) (d n : Nat) (b : List Byte) (h : Nat) : (m.sendFrame fu d n b).die h = m.die h := by simp [Module.die]
@[simp] theorem stack_of_sendFrame (fu : Fuses) (m : Module) (d n : Nat) (b : List Byte) (h : Nat) : (m.sendFrame fu d n b).stack h = m.stack h := by simp [Module.stack]
@[simp] theorem hawser_of_sendFrame (fu : Fuses) (m : Module) (d n : Nat) (b : List Byte) (h : Nat) : (m.sendFrame fu d n b).hawser h = m.hawser h := by simp [Module.hawser]
@[simp] theorem queue_of_sendFrame (fu : Fuses) (m : Module) (d n : Nat) (b : List Byte) (h : Nat) : (m.sendFrame fu d n b).queue h = m.queue h := by simp [Module.queue]

@[simp] theorem notifyPort_power (m : Module) (p : Nat) (b : List Byte) : (m.notifyPort p b).power = m.power := (congrArg Module.power (still_notifyPort m p b) :)
@[simp] theorem notifyPort_dies (m : Module) (p : Nat) (b : List Byte) : (m.notifyPort p b).dies = m.dies := (congrArg Module.dies (still_notifyPort m p b) :)
@[simp] theorem notifyPort_links (m : Module) (p : Nat) (b : List Byte) : (m.notifyPort p b).links = m.links := (congrArg Module.links (still_notifyPort m p b) :)
@[simp] theorem notifyPort_hbmStacks (m : Module) (p : Nat) (b : List Byte) : (m.notifyPort p b).hbmStacks = m.hbmStacks := (congrArg Module.hbmStacks (still_notifyPort m p b) :)
@[simp] theorem notifyPort_lasers (m : Module) (p : Nat) (b : List Byte) : (m.notifyPort p b).lasers = m.lasers := (congrArg Module.lasers (still_notifyPort m p b) :)
@[simp] theorem notifyPort_saved (m : Module) (p : Nat) (b : List Byte) : (m.notifyPort p b).saved = m.saved := (congrArg Module.saved (still_notifyPort m p b) :)
@[simp] theorem notifyPort_fw (m : Module) (p : Nat) (b : List Byte) : (m.notifyPort p b).fw = m.fw := (congrArg Module.fw (still_notifyPort m p b) :)
@[simp] theorem notifyPort_trust (m : Module) (p : Nat) (b : List Byte) : (m.notifyPort p b).trust = m.trust := (congrArg Module.trust (still_notifyPort m p b) :)
@[simp] theorem notifyPort_stress (m : Module) (p : Nat) (b : List Byte) : (m.notifyPort p b).stress = m.stress := (congrArg Module.stress (still_notifyPort m p b) :)
@[simp] theorem notifyPort_cores (m : Module) (p : Nat) (b : List Byte) : (m.notifyPort p b).cores = m.cores := (congrArg Module.cores (still_notifyPort m p b) :)
@[simp] theorem notifyPort_clusters (m : Module) (p : Nat) (b : List Byte) : (m.notifyPort p b).clusters = m.clusters := (congrArg Module.clusters (still_notifyPort m p b) :)
@[simp] theorem notifyPort_hbm (m : Module) (p : Nat) (b : List Byte) : (m.notifyPort p b).hbm = m.hbm := (congrArg Module.hbm (still_notifyPort m p b) :)
@[simp] theorem notifyPort_hbmPoison (m : Module) (p : Nat) (b : List Byte) : (m.notifyPort p b).hbmPoison = m.hbmPoison := (congrArg Module.hbmPoison (still_notifyPort m p b) :)
@[simp] theorem notifyPort_jobs (m : Module) (p : Nat) (b : List Byte) : (m.notifyPort p b).jobs = m.jobs := (congrArg Module.jobs (still_notifyPort m p b) :)
@[simp] theorem notifyPort_residency (m : Module) (p : Nat) (b : List Byte) : (m.notifyPort p b).residency = m.residency := (congrArg Module.residency (still_notifyPort m p b) :)
@[simp] theorem notifyPort_useStamp (m : Module) (p : Nat) (b : List Byte) : (m.notifyPort p b).useStamp = m.useStamp := (congrArg Module.useStamp (still_notifyPort m p b) :)
@[simp] theorem notifyPort_hawsers (m : Module) (p : Nat) (b : List Byte) : (m.notifyPort p b).hawsers = m.hawsers := (congrArg Module.hawsers (still_notifyPort m p b) :)
@[simp] theorem notifyPort_rope (m : Module) (p : Nat) (b : List Byte) : (m.notifyPort p b).rope = m.rope := (congrArg Module.rope (still_notifyPort m p b) :)
@[simp] theorem notifyPort_store (m : Module) (p : Nat) (b : List Byte) : (m.notifyPort p b).store = m.store := (congrArg Module.store (still_notifyPort m p b) :)
@[simp] theorem notifyPort_freeNo (m : Module) (p : Nat) (b : List Byte) : (m.notifyPort p b).freeNo = m.freeNo := (congrArg Module.freeNo (still_notifyPort m p b) :)
@[simp] theorem notifyPort_host_queues (m : Module) (p : Nat) (b : List Byte) : (m.notifyPort p b).host.queues = m.host.queues := (congrArg (fun x : Module => x.host.queues) (still_notifyPort m p b) :)
@[simp] theorem notifyPort_host_hostMem (m : Module) (p : Nat) (b : List Byte) : (m.notifyPort p b).host.hostMem = m.host.hostMem := (congrArg (fun x : Module => x.host.hostMem) (still_notifyPort m p b) :)
@[simp] theorem notifyPort_host_stamp (m : Module) (p : Nat) (b : List Byte) : (m.notifyPort p b).host.stamp = m.host.stamp := (congrArg (fun x : Module => x.host.stamp) (still_notifyPort m p b) :)
@[simp] theorem notifyPort_host_orphans (m : Module) (p : Nat) (b : List Byte) : (m.notifyPort p b).host.orphans = m.host.orphans := (congrArg (fun x : Module => x.host.orphans) (still_notifyPort m p b) :)
@[simp] theorem notifyPort_mgmt_reachable (m : Module) (p : Nat) (b : List Byte) : (m.notifyPort p b).mgmt.reachable = m.mgmt.reachable := (congrArg (fun x : Module => x.mgmt.reachable) (still_notifyPort m p b) :)
@[simp] theorem notifyPort_mgmt_capstanUp (m : Module) (p : Nat) (b : List Byte) : (m.notifyPort p b).mgmt.capstanUp = m.mgmt.capstanUp := (congrArg (fun x : Module => x.mgmt.capstanUp) (still_notifyPort m p b) :)
@[simp] theorem notifyPort_mgmt_romService (m : Module) (p : Nat) (b : List Byte) : (m.notifyPort p b).mgmt.romService = m.mgmt.romService := (congrArg (fun x : Module => x.mgmt.romService) (still_notifyPort m p b) :)
@[simp] theorem notifyPort_mgmt_staged (m : Module) (p : Nat) (b : List Byte) : (m.notifyPort p b).mgmt.staged = m.mgmt.staged := (congrArg (fun x : Module => x.mgmt.staged) (still_notifyPort m p b) :)
@[simp] theorem notifyPort_mgmt_commits (m : Module) (p : Nat) (b : List Byte) : (m.notifyPort p b).mgmt.commits = m.mgmt.commits := (congrArg (fun x : Module => x.mgmt.commits) (still_notifyPort m p b) :)
@[simp] theorem notifyPort_mgmt_clamped (m : Module) (p : Nat) (b : List Byte) : (m.notifyPort p b).mgmt.clamped = m.mgmt.clamped := (congrArg (fun x : Module => x.mgmt.clamped) (still_notifyPort m p b) :)
@[simp] theorem notifyPort_mgmt_kept (m : Module) (p : Nat) (b : List Byte) : (m.notifyPort p b).mgmt.kept = m.mgmt.kept := (congrArg (fun x : Module => x.mgmt.kept) (still_notifyPort m p b) :)
@[simp] theorem notifyPort_mgmt_mirror (m : Module) (p : Nat) (b : List Byte) : (m.notifyPort p b).mgmt.mirror = m.mgmt.mirror := (congrArg (fun x : Module => x.mgmt.mirror) (still_notifyPort m p b) :)
@[simp] theorem notifyPort_mgmt_windows (m : Module) (p : Nat) (b : List Byte) : (m.notifyPort p b).mgmt.windows = m.mgmt.windows := (congrArg (fun x : Module => x.mgmt.windows) (still_notifyPort m p b) :)
@[simp] theorem notifyPort_mgmt_beaconLost (m : Module) (p : Nat) (b : List Byte) : (m.notifyPort p b).mgmt.beaconLost = m.mgmt.beaconLost := (congrArg (fun x : Module => x.mgmt.beaconLost) (still_notifyPort m p b) :)
@[simp] theorem notifyPort_mgmt_restartCause (m : Module) (p : Nat) (b : List Byte) : (m.notifyPort p b).mgmt.restartCause = m.mgmt.restartCause := (congrArg (fun x : Module => x.mgmt.restartCause) (still_notifyPort m p b) :)
@[simp] theorem core_of_notifyPort (m : Module) (p : Nat) (b : List Byte) (h : Nat) : (m.notifyPort p b).core h = m.core h := by simp [Module.core]
@[simp] theorem cluster_of_notifyPort (m : Module) (p : Nat) (b : List Byte) (h : Nat) : (m.notifyPort p b).cluster h = m.cluster h := by simp [Module.cluster]
@[simp] theorem job_of_notifyPort (m : Module) (p : Nat) (b : List Byte) (h : Nat) : (m.notifyPort p b).job h = m.job h := by simp [Module.job]
@[simp] theorem die_of_notifyPort (m : Module) (p : Nat) (b : List Byte) (h : Nat) : (m.notifyPort p b).die h = m.die h := by simp [Module.die]
@[simp] theorem stack_of_notifyPort (m : Module) (p : Nat) (b : List Byte) (h : Nat) : (m.notifyPort p b).stack h = m.stack h := by simp [Module.stack]
@[simp] theorem hawser_of_notifyPort (m : Module) (p : Nat) (b : List Byte) (h : Nat) : (m.notifyPort p b).hawser h = m.hawser h := by simp [Module.hawser]
@[simp] theorem queue_of_notifyPort (m : Module) (p : Nat) (b : List Byte) (h : Nat) : (m.notifyPort p b).queue h = m.queue h := by simp [Module.queue]

@[simp] theorem notifyRec_power (fu : Fuses) (m : Module) (r : LogRec) : (m.notifyRec fu r).power = m.power := (congrArg Module.power (still_notifyRec fu m r) :)
@[simp] theorem notifyRec_dies (fu : Fuses) (m : Module) (r : LogRec) : (m.notifyRec fu r).dies = m.dies := (congrArg Module.dies (still_notifyRec fu m r) :)
@[simp] theorem notifyRec_links (fu : Fuses) (m : Module) (r : LogRec) : (m.notifyRec fu r).links = m.links := (congrArg Module.links (still_notifyRec fu m r) :)
@[simp] theorem notifyRec_hbmStacks (fu : Fuses) (m : Module) (r : LogRec) : (m.notifyRec fu r).hbmStacks = m.hbmStacks := (congrArg Module.hbmStacks (still_notifyRec fu m r) :)
@[simp] theorem notifyRec_lasers (fu : Fuses) (m : Module) (r : LogRec) : (m.notifyRec fu r).lasers = m.lasers := (congrArg Module.lasers (still_notifyRec fu m r) :)
@[simp] theorem notifyRec_saved (fu : Fuses) (m : Module) (r : LogRec) : (m.notifyRec fu r).saved = m.saved := (congrArg Module.saved (still_notifyRec fu m r) :)
@[simp] theorem notifyRec_fw (fu : Fuses) (m : Module) (r : LogRec) : (m.notifyRec fu r).fw = m.fw := (congrArg Module.fw (still_notifyRec fu m r) :)
@[simp] theorem notifyRec_trust (fu : Fuses) (m : Module) (r : LogRec) : (m.notifyRec fu r).trust = m.trust := (congrArg Module.trust (still_notifyRec fu m r) :)
@[simp] theorem notifyRec_stress (fu : Fuses) (m : Module) (r : LogRec) : (m.notifyRec fu r).stress = m.stress := (congrArg Module.stress (still_notifyRec fu m r) :)
@[simp] theorem notifyRec_cores (fu : Fuses) (m : Module) (r : LogRec) : (m.notifyRec fu r).cores = m.cores := (congrArg Module.cores (still_notifyRec fu m r) :)
@[simp] theorem notifyRec_clusters (fu : Fuses) (m : Module) (r : LogRec) : (m.notifyRec fu r).clusters = m.clusters := (congrArg Module.clusters (still_notifyRec fu m r) :)
@[simp] theorem notifyRec_hbm (fu : Fuses) (m : Module) (r : LogRec) : (m.notifyRec fu r).hbm = m.hbm := (congrArg Module.hbm (still_notifyRec fu m r) :)
@[simp] theorem notifyRec_hbmPoison (fu : Fuses) (m : Module) (r : LogRec) : (m.notifyRec fu r).hbmPoison = m.hbmPoison := (congrArg Module.hbmPoison (still_notifyRec fu m r) :)
@[simp] theorem notifyRec_jobs (fu : Fuses) (m : Module) (r : LogRec) : (m.notifyRec fu r).jobs = m.jobs := (congrArg Module.jobs (still_notifyRec fu m r) :)
@[simp] theorem notifyRec_residency (fu : Fuses) (m : Module) (r : LogRec) : (m.notifyRec fu r).residency = m.residency := (congrArg Module.residency (still_notifyRec fu m r) :)
@[simp] theorem notifyRec_useStamp (fu : Fuses) (m : Module) (r : LogRec) : (m.notifyRec fu r).useStamp = m.useStamp := (congrArg Module.useStamp (still_notifyRec fu m r) :)
@[simp] theorem notifyRec_hawsers (fu : Fuses) (m : Module) (r : LogRec) : (m.notifyRec fu r).hawsers = m.hawsers := (congrArg Module.hawsers (still_notifyRec fu m r) :)
@[simp] theorem notifyRec_rope (fu : Fuses) (m : Module) (r : LogRec) : (m.notifyRec fu r).rope = m.rope := (congrArg Module.rope (still_notifyRec fu m r) :)
@[simp] theorem notifyRec_store (fu : Fuses) (m : Module) (r : LogRec) : (m.notifyRec fu r).store = m.store := (congrArg Module.store (still_notifyRec fu m r) :)
@[simp] theorem notifyRec_freeNo (fu : Fuses) (m : Module) (r : LogRec) : (m.notifyRec fu r).freeNo = m.freeNo := (congrArg Module.freeNo (still_notifyRec fu m r) :)
@[simp] theorem notifyRec_host_queues (fu : Fuses) (m : Module) (r : LogRec) : (m.notifyRec fu r).host.queues = m.host.queues := (congrArg (fun x : Module => x.host.queues) (still_notifyRec fu m r) :)
@[simp] theorem notifyRec_host_hostMem (fu : Fuses) (m : Module) (r : LogRec) : (m.notifyRec fu r).host.hostMem = m.host.hostMem := (congrArg (fun x : Module => x.host.hostMem) (still_notifyRec fu m r) :)
@[simp] theorem notifyRec_host_stamp (fu : Fuses) (m : Module) (r : LogRec) : (m.notifyRec fu r).host.stamp = m.host.stamp := (congrArg (fun x : Module => x.host.stamp) (still_notifyRec fu m r) :)
@[simp] theorem notifyRec_host_orphans (fu : Fuses) (m : Module) (r : LogRec) : (m.notifyRec fu r).host.orphans = m.host.orphans := (congrArg (fun x : Module => x.host.orphans) (still_notifyRec fu m r) :)
@[simp] theorem notifyRec_mgmt_reachable (fu : Fuses) (m : Module) (r : LogRec) : (m.notifyRec fu r).mgmt.reachable = m.mgmt.reachable := (congrArg (fun x : Module => x.mgmt.reachable) (still_notifyRec fu m r) :)
@[simp] theorem notifyRec_mgmt_capstanUp (fu : Fuses) (m : Module) (r : LogRec) : (m.notifyRec fu r).mgmt.capstanUp = m.mgmt.capstanUp := (congrArg (fun x : Module => x.mgmt.capstanUp) (still_notifyRec fu m r) :)
@[simp] theorem notifyRec_mgmt_romService (fu : Fuses) (m : Module) (r : LogRec) : (m.notifyRec fu r).mgmt.romService = m.mgmt.romService := (congrArg (fun x : Module => x.mgmt.romService) (still_notifyRec fu m r) :)
@[simp] theorem notifyRec_mgmt_staged (fu : Fuses) (m : Module) (r : LogRec) : (m.notifyRec fu r).mgmt.staged = m.mgmt.staged := (congrArg (fun x : Module => x.mgmt.staged) (still_notifyRec fu m r) :)
@[simp] theorem notifyRec_mgmt_commits (fu : Fuses) (m : Module) (r : LogRec) : (m.notifyRec fu r).mgmt.commits = m.mgmt.commits := (congrArg (fun x : Module => x.mgmt.commits) (still_notifyRec fu m r) :)
@[simp] theorem notifyRec_mgmt_clamped (fu : Fuses) (m : Module) (r : LogRec) : (m.notifyRec fu r).mgmt.clamped = m.mgmt.clamped := (congrArg (fun x : Module => x.mgmt.clamped) (still_notifyRec fu m r) :)
@[simp] theorem notifyRec_mgmt_kept (fu : Fuses) (m : Module) (r : LogRec) : (m.notifyRec fu r).mgmt.kept = m.mgmt.kept := (congrArg (fun x : Module => x.mgmt.kept) (still_notifyRec fu m r) :)
@[simp] theorem notifyRec_mgmt_mirror (fu : Fuses) (m : Module) (r : LogRec) : (m.notifyRec fu r).mgmt.mirror = m.mgmt.mirror := (congrArg (fun x : Module => x.mgmt.mirror) (still_notifyRec fu m r) :)
@[simp] theorem notifyRec_mgmt_windows (fu : Fuses) (m : Module) (r : LogRec) : (m.notifyRec fu r).mgmt.windows = m.mgmt.windows := (congrArg (fun x : Module => x.mgmt.windows) (still_notifyRec fu m r) :)
@[simp] theorem notifyRec_mgmt_beaconLost (fu : Fuses) (m : Module) (r : LogRec) : (m.notifyRec fu r).mgmt.beaconLost = m.mgmt.beaconLost := (congrArg (fun x : Module => x.mgmt.beaconLost) (still_notifyRec fu m r) :)
@[simp] theorem notifyRec_mgmt_restartCause (fu : Fuses) (m : Module) (r : LogRec) : (m.notifyRec fu r).mgmt.restartCause = m.mgmt.restartCause := (congrArg (fun x : Module => x.mgmt.restartCause) (still_notifyRec fu m r) :)
@[simp] theorem core_of_notifyRec (fu : Fuses) (m : Module) (r : LogRec) (h : Nat) : (m.notifyRec fu r).core h = m.core h := by simp [Module.core]
@[simp] theorem cluster_of_notifyRec (fu : Fuses) (m : Module) (r : LogRec) (h : Nat) : (m.notifyRec fu r).cluster h = m.cluster h := by simp [Module.cluster]
@[simp] theorem job_of_notifyRec (fu : Fuses) (m : Module) (r : LogRec) (h : Nat) : (m.notifyRec fu r).job h = m.job h := by simp [Module.job]
@[simp] theorem die_of_notifyRec (fu : Fuses) (m : Module) (r : LogRec) (h : Nat) : (m.notifyRec fu r).die h = m.die h := by simp [Module.die]
@[simp] theorem stack_of_notifyRec (fu : Fuses) (m : Module) (r : LogRec) (h : Nat) : (m.notifyRec fu r).stack h = m.stack h := by simp [Module.stack]
@[simp] theorem hawser_of_notifyRec (fu : Fuses) (m : Module) (r : LogRec) (h : Nat) : (m.notifyRec fu r).hawser h = m.hawser h := by simp [Module.hawser]
@[simp] theorem queue_of_notifyRec (fu : Fuses) (m : Module) (r : LogRec) (h : Nat) : (m.notifyRec fu r).queue h = m.queue h := by simp [Module.queue]

@[simp] theorem eventX_power (fu : Fuses) (m : Module) (s : Bool) (c : Nat) (l : List Nat) : (m.eventX fu s c l).power = m.power := (congrArg Module.power (still_eventX fu m s c l) :)
@[simp] theorem eventX_dies (fu : Fuses) (m : Module) (s : Bool) (c : Nat) (l : List Nat) : (m.eventX fu s c l).dies = m.dies := (congrArg Module.dies (still_eventX fu m s c l) :)
@[simp] theorem eventX_links (fu : Fuses) (m : Module) (s : Bool) (c : Nat) (l : List Nat) : (m.eventX fu s c l).links = m.links := (congrArg Module.links (still_eventX fu m s c l) :)
@[simp] theorem eventX_hbmStacks (fu : Fuses) (m : Module) (s : Bool) (c : Nat) (l : List Nat) : (m.eventX fu s c l).hbmStacks = m.hbmStacks := (congrArg Module.hbmStacks (still_eventX fu m s c l) :)
@[simp] theorem eventX_lasers (fu : Fuses) (m : Module) (s : Bool) (c : Nat) (l : List Nat) : (m.eventX fu s c l).lasers = m.lasers := (congrArg Module.lasers (still_eventX fu m s c l) :)
@[simp] theorem eventX_saved (fu : Fuses) (m : Module) (s : Bool) (c : Nat) (l : List Nat) : (m.eventX fu s c l).saved = m.saved := (congrArg Module.saved (still_eventX fu m s c l) :)
@[simp] theorem eventX_fw (fu : Fuses) (m : Module) (s : Bool) (c : Nat) (l : List Nat) : (m.eventX fu s c l).fw = m.fw := (congrArg Module.fw (still_eventX fu m s c l) :)
@[simp] theorem eventX_trust (fu : Fuses) (m : Module) (s : Bool) (c : Nat) (l : List Nat) : (m.eventX fu s c l).trust = m.trust := (congrArg Module.trust (still_eventX fu m s c l) :)
@[simp] theorem eventX_stress (fu : Fuses) (m : Module) (s : Bool) (c : Nat) (l : List Nat) : (m.eventX fu s c l).stress = m.stress := (congrArg Module.stress (still_eventX fu m s c l) :)
@[simp] theorem eventX_cores (fu : Fuses) (m : Module) (s : Bool) (c : Nat) (l : List Nat) : (m.eventX fu s c l).cores = m.cores := (congrArg Module.cores (still_eventX fu m s c l) :)
@[simp] theorem eventX_clusters (fu : Fuses) (m : Module) (s : Bool) (c : Nat) (l : List Nat) : (m.eventX fu s c l).clusters = m.clusters := (congrArg Module.clusters (still_eventX fu m s c l) :)
@[simp] theorem eventX_hbm (fu : Fuses) (m : Module) (s : Bool) (c : Nat) (l : List Nat) : (m.eventX fu s c l).hbm = m.hbm := (congrArg Module.hbm (still_eventX fu m s c l) :)
@[simp] theorem eventX_hbmPoison (fu : Fuses) (m : Module) (s : Bool) (c : Nat) (l : List Nat) : (m.eventX fu s c l).hbmPoison = m.hbmPoison := (congrArg Module.hbmPoison (still_eventX fu m s c l) :)
@[simp] theorem eventX_jobs (fu : Fuses) (m : Module) (s : Bool) (c : Nat) (l : List Nat) : (m.eventX fu s c l).jobs = m.jobs := (congrArg Module.jobs (still_eventX fu m s c l) :)
@[simp] theorem eventX_residency (fu : Fuses) (m : Module) (s : Bool) (c : Nat) (l : List Nat) : (m.eventX fu s c l).residency = m.residency := (congrArg Module.residency (still_eventX fu m s c l) :)
@[simp] theorem eventX_useStamp (fu : Fuses) (m : Module) (s : Bool) (c : Nat) (l : List Nat) : (m.eventX fu s c l).useStamp = m.useStamp := (congrArg Module.useStamp (still_eventX fu m s c l) :)
@[simp] theorem eventX_hawsers (fu : Fuses) (m : Module) (s : Bool) (c : Nat) (l : List Nat) : (m.eventX fu s c l).hawsers = m.hawsers := (congrArg Module.hawsers (still_eventX fu m s c l) :)
@[simp] theorem eventX_rope (fu : Fuses) (m : Module) (s : Bool) (c : Nat) (l : List Nat) : (m.eventX fu s c l).rope = m.rope := (congrArg Module.rope (still_eventX fu m s c l) :)
@[simp] theorem eventX_store (fu : Fuses) (m : Module) (s : Bool) (c : Nat) (l : List Nat) : (m.eventX fu s c l).store = m.store := (congrArg Module.store (still_eventX fu m s c l) :)
@[simp] theorem eventX_freeNo (fu : Fuses) (m : Module) (s : Bool) (c : Nat) (l : List Nat) : (m.eventX fu s c l).freeNo = m.freeNo := (congrArg Module.freeNo (still_eventX fu m s c l) :)
@[simp] theorem eventX_host_queues (fu : Fuses) (m : Module) (s : Bool) (c : Nat) (l : List Nat) : (m.eventX fu s c l).host.queues = m.host.queues := (congrArg (fun x : Module => x.host.queues) (still_eventX fu m s c l) :)
@[simp] theorem eventX_host_hostMem (fu : Fuses) (m : Module) (s : Bool) (c : Nat) (l : List Nat) : (m.eventX fu s c l).host.hostMem = m.host.hostMem := (congrArg (fun x : Module => x.host.hostMem) (still_eventX fu m s c l) :)
@[simp] theorem eventX_host_stamp (fu : Fuses) (m : Module) (s : Bool) (c : Nat) (l : List Nat) : (m.eventX fu s c l).host.stamp = m.host.stamp := (congrArg (fun x : Module => x.host.stamp) (still_eventX fu m s c l) :)
@[simp] theorem eventX_host_orphans (fu : Fuses) (m : Module) (s : Bool) (c : Nat) (l : List Nat) : (m.eventX fu s c l).host.orphans = m.host.orphans := (congrArg (fun x : Module => x.host.orphans) (still_eventX fu m s c l) :)
@[simp] theorem eventX_mgmt_reachable (fu : Fuses) (m : Module) (s : Bool) (c : Nat) (l : List Nat) : (m.eventX fu s c l).mgmt.reachable = m.mgmt.reachable := (congrArg (fun x : Module => x.mgmt.reachable) (still_eventX fu m s c l) :)
@[simp] theorem eventX_mgmt_capstanUp (fu : Fuses) (m : Module) (s : Bool) (c : Nat) (l : List Nat) : (m.eventX fu s c l).mgmt.capstanUp = m.mgmt.capstanUp := (congrArg (fun x : Module => x.mgmt.capstanUp) (still_eventX fu m s c l) :)
@[simp] theorem eventX_mgmt_romService (fu : Fuses) (m : Module) (s : Bool) (c : Nat) (l : List Nat) : (m.eventX fu s c l).mgmt.romService = m.mgmt.romService := (congrArg (fun x : Module => x.mgmt.romService) (still_eventX fu m s c l) :)
@[simp] theorem eventX_mgmt_staged (fu : Fuses) (m : Module) (s : Bool) (c : Nat) (l : List Nat) : (m.eventX fu s c l).mgmt.staged = m.mgmt.staged := (congrArg (fun x : Module => x.mgmt.staged) (still_eventX fu m s c l) :)
@[simp] theorem eventX_mgmt_commits (fu : Fuses) (m : Module) (s : Bool) (c : Nat) (l : List Nat) : (m.eventX fu s c l).mgmt.commits = m.mgmt.commits := (congrArg (fun x : Module => x.mgmt.commits) (still_eventX fu m s c l) :)
@[simp] theorem eventX_mgmt_clamped (fu : Fuses) (m : Module) (s : Bool) (c : Nat) (l : List Nat) : (m.eventX fu s c l).mgmt.clamped = m.mgmt.clamped := (congrArg (fun x : Module => x.mgmt.clamped) (still_eventX fu m s c l) :)
@[simp] theorem eventX_mgmt_kept (fu : Fuses) (m : Module) (s : Bool) (c : Nat) (l : List Nat) : (m.eventX fu s c l).mgmt.kept = m.mgmt.kept := (congrArg (fun x : Module => x.mgmt.kept) (still_eventX fu m s c l) :)
@[simp] theorem eventX_mgmt_mirror (fu : Fuses) (m : Module) (s : Bool) (c : Nat) (l : List Nat) : (m.eventX fu s c l).mgmt.mirror = m.mgmt.mirror := (congrArg (fun x : Module => x.mgmt.mirror) (still_eventX fu m s c l) :)
@[simp] theorem eventX_mgmt_windows (fu : Fuses) (m : Module) (s : Bool) (c : Nat) (l : List Nat) : (m.eventX fu s c l).mgmt.windows = m.mgmt.windows := (congrArg (fun x : Module => x.mgmt.windows) (still_eventX fu m s c l) :)
@[simp] theorem eventX_mgmt_beaconLost (fu : Fuses) (m : Module) (s : Bool) (c : Nat) (l : List Nat) : (m.eventX fu s c l).mgmt.beaconLost = m.mgmt.beaconLost := (congrArg (fun x : Module => x.mgmt.beaconLost) (still_eventX fu m s c l) :)
@[simp] theorem eventX_mgmt_restartCause (fu : Fuses) (m : Module) (s : Bool) (c : Nat) (l : List Nat) : (m.eventX fu s c l).mgmt.restartCause = m.mgmt.restartCause := (congrArg (fun x : Module => x.mgmt.restartCause) (still_eventX fu m s c l) :)
@[simp] theorem core_of_eventX (fu : Fuses) (m : Module) (s : Bool) (c : Nat) (l : List Nat) (h : Nat) : (m.eventX fu s c l).core h = m.core h := by simp [Module.core]
@[simp] theorem cluster_of_eventX (fu : Fuses) (m : Module) (s : Bool) (c : Nat) (l : List Nat) (h : Nat) : (m.eventX fu s c l).cluster h = m.cluster h := by simp [Module.cluster]
@[simp] theorem job_of_eventX (fu : Fuses) (m : Module) (s : Bool) (c : Nat) (l : List Nat) (h : Nat) : (m.eventX fu s c l).job h = m.job h := by simp [Module.job]
@[simp] theorem die_of_eventX (fu : Fuses) (m : Module) (s : Bool) (c : Nat) (l : List Nat) (h : Nat) : (m.eventX fu s c l).die h = m.die h := by simp [Module.die]
@[simp] theorem stack_of_eventX (fu : Fuses) (m : Module) (s : Bool) (c : Nat) (l : List Nat) (h : Nat) : (m.eventX fu s c l).stack h = m.stack h := by simp [Module.stack]
@[simp] theorem hawser_of_eventX (fu : Fuses) (m : Module) (s : Bool) (c : Nat) (l : List Nat) (h : Nat) : (m.eventX fu s c l).hawser h = m.hawser h := by simp [Module.hawser]
@[simp] theorem queue_of_eventX (fu : Fuses) (m : Module) (s : Bool) (c : Nat) (l : List Nat) (h : Nat) : (m.eventX fu s c l).queue h = m.queue h := by simp [Module.queue]

@[simp] theorem event_power (fu : Fuses) (m : Module) (c : Nat) (l : List Nat) : (m.event fu c l).power = m.power := (congrArg Module.power (still_event fu m c l) :)
@[simp] theorem event_dies (fu : Fuses) (m : Module) (c : Nat) (l : List Nat) : (m.event fu c l).dies = m.dies := (congrArg Module.dies (still_event fu m c l) :)
@[simp] theorem event_links (fu : Fuses) (m : Module) (c : Nat) (l : List Nat) : (m.event fu c l).links = m.links := (congrArg Module.links (still_event fu m c l) :)
@[simp] theorem event_hbmStacks (fu : Fuses) (m : Module) (c : Nat) (l : List Nat) : (m.event fu c l).hbmStacks = m.hbmStacks := (congrArg Module.hbmStacks (still_event fu m c l) :)
@[simp] theorem event_lasers (fu : Fuses) (m : Module) (c : Nat) (l : List Nat) : (m.event fu c l).lasers = m.lasers := (congrArg Module.lasers (still_event fu m c l) :)
@[simp] theorem event_saved (fu : Fuses) (m : Module) (c : Nat) (l : List Nat) : (m.event fu c l).saved = m.saved := (congrArg Module.saved (still_event fu m c l) :)
@[simp] theorem event_fw (fu : Fuses) (m : Module) (c : Nat) (l : List Nat) : (m.event fu c l).fw = m.fw := (congrArg Module.fw (still_event fu m c l) :)
@[simp] theorem event_trust (fu : Fuses) (m : Module) (c : Nat) (l : List Nat) : (m.event fu c l).trust = m.trust := (congrArg Module.trust (still_event fu m c l) :)
@[simp] theorem event_stress (fu : Fuses) (m : Module) (c : Nat) (l : List Nat) : (m.event fu c l).stress = m.stress := (congrArg Module.stress (still_event fu m c l) :)
@[simp] theorem event_cores (fu : Fuses) (m : Module) (c : Nat) (l : List Nat) : (m.event fu c l).cores = m.cores := (congrArg Module.cores (still_event fu m c l) :)
@[simp] theorem event_clusters (fu : Fuses) (m : Module) (c : Nat) (l : List Nat) : (m.event fu c l).clusters = m.clusters := (congrArg Module.clusters (still_event fu m c l) :)
@[simp] theorem event_hbm (fu : Fuses) (m : Module) (c : Nat) (l : List Nat) : (m.event fu c l).hbm = m.hbm := (congrArg Module.hbm (still_event fu m c l) :)
@[simp] theorem event_hbmPoison (fu : Fuses) (m : Module) (c : Nat) (l : List Nat) : (m.event fu c l).hbmPoison = m.hbmPoison := (congrArg Module.hbmPoison (still_event fu m c l) :)
@[simp] theorem event_jobs (fu : Fuses) (m : Module) (c : Nat) (l : List Nat) : (m.event fu c l).jobs = m.jobs := (congrArg Module.jobs (still_event fu m c l) :)
@[simp] theorem event_residency (fu : Fuses) (m : Module) (c : Nat) (l : List Nat) : (m.event fu c l).residency = m.residency := (congrArg Module.residency (still_event fu m c l) :)
@[simp] theorem event_useStamp (fu : Fuses) (m : Module) (c : Nat) (l : List Nat) : (m.event fu c l).useStamp = m.useStamp := (congrArg Module.useStamp (still_event fu m c l) :)
@[simp] theorem event_hawsers (fu : Fuses) (m : Module) (c : Nat) (l : List Nat) : (m.event fu c l).hawsers = m.hawsers := (congrArg Module.hawsers (still_event fu m c l) :)
@[simp] theorem event_rope (fu : Fuses) (m : Module) (c : Nat) (l : List Nat) : (m.event fu c l).rope = m.rope := (congrArg Module.rope (still_event fu m c l) :)
@[simp] theorem event_store (fu : Fuses) (m : Module) (c : Nat) (l : List Nat) : (m.event fu c l).store = m.store := (congrArg Module.store (still_event fu m c l) :)
@[simp] theorem event_freeNo (fu : Fuses) (m : Module) (c : Nat) (l : List Nat) : (m.event fu c l).freeNo = m.freeNo := (congrArg Module.freeNo (still_event fu m c l) :)
@[simp] theorem event_host_queues (fu : Fuses) (m : Module) (c : Nat) (l : List Nat) : (m.event fu c l).host.queues = m.host.queues := (congrArg (fun x : Module => x.host.queues) (still_event fu m c l) :)
@[simp] theorem event_host_hostMem (fu : Fuses) (m : Module) (c : Nat) (l : List Nat) : (m.event fu c l).host.hostMem = m.host.hostMem := (congrArg (fun x : Module => x.host.hostMem) (still_event fu m c l) :)
@[simp] theorem event_host_stamp (fu : Fuses) (m : Module) (c : Nat) (l : List Nat) : (m.event fu c l).host.stamp = m.host.stamp := (congrArg (fun x : Module => x.host.stamp) (still_event fu m c l) :)
@[simp] theorem event_host_orphans (fu : Fuses) (m : Module) (c : Nat) (l : List Nat) : (m.event fu c l).host.orphans = m.host.orphans := (congrArg (fun x : Module => x.host.orphans) (still_event fu m c l) :)
@[simp] theorem event_mgmt_reachable (fu : Fuses) (m : Module) (c : Nat) (l : List Nat) : (m.event fu c l).mgmt.reachable = m.mgmt.reachable := (congrArg (fun x : Module => x.mgmt.reachable) (still_event fu m c l) :)
@[simp] theorem event_mgmt_capstanUp (fu : Fuses) (m : Module) (c : Nat) (l : List Nat) : (m.event fu c l).mgmt.capstanUp = m.mgmt.capstanUp := (congrArg (fun x : Module => x.mgmt.capstanUp) (still_event fu m c l) :)
@[simp] theorem event_mgmt_romService (fu : Fuses) (m : Module) (c : Nat) (l : List Nat) : (m.event fu c l).mgmt.romService = m.mgmt.romService := (congrArg (fun x : Module => x.mgmt.romService) (still_event fu m c l) :)
@[simp] theorem event_mgmt_staged (fu : Fuses) (m : Module) (c : Nat) (l : List Nat) : (m.event fu c l).mgmt.staged = m.mgmt.staged := (congrArg (fun x : Module => x.mgmt.staged) (still_event fu m c l) :)
@[simp] theorem event_mgmt_commits (fu : Fuses) (m : Module) (c : Nat) (l : List Nat) : (m.event fu c l).mgmt.commits = m.mgmt.commits := (congrArg (fun x : Module => x.mgmt.commits) (still_event fu m c l) :)
@[simp] theorem event_mgmt_clamped (fu : Fuses) (m : Module) (c : Nat) (l : List Nat) : (m.event fu c l).mgmt.clamped = m.mgmt.clamped := (congrArg (fun x : Module => x.mgmt.clamped) (still_event fu m c l) :)
@[simp] theorem event_mgmt_kept (fu : Fuses) (m : Module) (c : Nat) (l : List Nat) : (m.event fu c l).mgmt.kept = m.mgmt.kept := (congrArg (fun x : Module => x.mgmt.kept) (still_event fu m c l) :)
@[simp] theorem event_mgmt_mirror (fu : Fuses) (m : Module) (c : Nat) (l : List Nat) : (m.event fu c l).mgmt.mirror = m.mgmt.mirror := (congrArg (fun x : Module => x.mgmt.mirror) (still_event fu m c l) :)
@[simp] theorem event_mgmt_windows (fu : Fuses) (m : Module) (c : Nat) (l : List Nat) : (m.event fu c l).mgmt.windows = m.mgmt.windows := (congrArg (fun x : Module => x.mgmt.windows) (still_event fu m c l) :)
@[simp] theorem event_mgmt_beaconLost (fu : Fuses) (m : Module) (c : Nat) (l : List Nat) : (m.event fu c l).mgmt.beaconLost = m.mgmt.beaconLost := (congrArg (fun x : Module => x.mgmt.beaconLost) (still_event fu m c l) :)
@[simp] theorem event_mgmt_restartCause (fu : Fuses) (m : Module) (c : Nat) (l : List Nat) : (m.event fu c l).mgmt.restartCause = m.mgmt.restartCause := (congrArg (fun x : Module => x.mgmt.restartCause) (still_event fu m c l) :)
@[simp] theorem core_of_event (fu : Fuses) (m : Module) (c : Nat) (l : List Nat) (h : Nat) : (m.event fu c l).core h = m.core h := by simp [Module.core]
@[simp] theorem cluster_of_event (fu : Fuses) (m : Module) (c : Nat) (l : List Nat) (h : Nat) : (m.event fu c l).cluster h = m.cluster h := by simp [Module.cluster]
@[simp] theorem job_of_event (fu : Fuses) (m : Module) (c : Nat) (l : List Nat) (h : Nat) : (m.event fu c l).job h = m.job h := by simp [Module.job]
@[simp] theorem die_of_event (fu : Fuses) (m : Module) (c : Nat) (l : List Nat) (h : Nat) : (m.event fu c l).die h = m.die h := by simp [Module.die]
@[simp] theorem stack_of_event (fu : Fuses) (m : Module) (c : Nat) (l : List Nat) (h : Nat) : (m.event fu c l).stack h = m.stack h := by simp [Module.stack]
@[simp] theorem hawser_of_event (fu : Fuses) (m : Module) (c : Nat) (l : List Nat) (h : Nat) : (m.event fu c l).hawser h = m.hawser h := by simp [Module.hawser]
@[simp] theorem queue_of_event (fu : Fuses) (m : Module) (c : Nat) (l : List Nat) (h : Nat) : (m.event fu c l).queue h = m.queue h := by simp [Module.queue]

@[simp] theorem reason_power (fu : Fuses) (m : Module) (b : Nat) (l : List Nat) : (m.reason fu b l).power = m.power := (congrArg Module.power (still_reason fu m b l) :)
@[simp] theorem reason_dies (fu : Fuses) (m : Module) (b : Nat) (l : List Nat) : (m.reason fu b l).dies = m.dies := (congrArg Module.dies (still_reason fu m b l) :)
@[simp] theorem reason_links (fu : Fuses) (m : Module) (b : Nat) (l : List Nat) : (m.reason fu b l).links = m.links := (congrArg Module.links (still_reason fu m b l) :)
@[simp] theorem reason_hbmStacks (fu : Fuses) (m : Module) (b : Nat) (l : List Nat) : (m.reason fu b l).hbmStacks = m.hbmStacks := (congrArg Module.hbmStacks (still_reason fu m b l) :)
@[simp] theorem reason_lasers (fu : Fuses) (m : Module) (b : Nat) (l : List Nat) : (m.reason fu b l).lasers = m.lasers := (congrArg Module.lasers (still_reason fu m b l) :)
@[simp] theorem reason_saved (fu : Fuses) (m : Module) (b : Nat) (l : List Nat) : (m.reason fu b l).saved = m.saved := (congrArg Module.saved (still_reason fu m b l) :)
@[simp] theorem reason_fw (fu : Fuses) (m : Module) (b : Nat) (l : List Nat) : (m.reason fu b l).fw = m.fw := (congrArg Module.fw (still_reason fu m b l) :)
@[simp] theorem reason_trust (fu : Fuses) (m : Module) (b : Nat) (l : List Nat) : (m.reason fu b l).trust = m.trust := (congrArg Module.trust (still_reason fu m b l) :)
@[simp] theorem reason_stress (fu : Fuses) (m : Module) (b : Nat) (l : List Nat) : (m.reason fu b l).stress = m.stress := (congrArg Module.stress (still_reason fu m b l) :)
@[simp] theorem reason_cores (fu : Fuses) (m : Module) (b : Nat) (l : List Nat) : (m.reason fu b l).cores = m.cores := (congrArg Module.cores (still_reason fu m b l) :)
@[simp] theorem reason_clusters (fu : Fuses) (m : Module) (b : Nat) (l : List Nat) : (m.reason fu b l).clusters = m.clusters := (congrArg Module.clusters (still_reason fu m b l) :)
@[simp] theorem reason_hbm (fu : Fuses) (m : Module) (b : Nat) (l : List Nat) : (m.reason fu b l).hbm = m.hbm := (congrArg Module.hbm (still_reason fu m b l) :)
@[simp] theorem reason_hbmPoison (fu : Fuses) (m : Module) (b : Nat) (l : List Nat) : (m.reason fu b l).hbmPoison = m.hbmPoison := (congrArg Module.hbmPoison (still_reason fu m b l) :)
@[simp] theorem reason_jobs (fu : Fuses) (m : Module) (b : Nat) (l : List Nat) : (m.reason fu b l).jobs = m.jobs := (congrArg Module.jobs (still_reason fu m b l) :)
@[simp] theorem reason_residency (fu : Fuses) (m : Module) (b : Nat) (l : List Nat) : (m.reason fu b l).residency = m.residency := (congrArg Module.residency (still_reason fu m b l) :)
@[simp] theorem reason_useStamp (fu : Fuses) (m : Module) (b : Nat) (l : List Nat) : (m.reason fu b l).useStamp = m.useStamp := (congrArg Module.useStamp (still_reason fu m b l) :)
@[simp] theorem reason_hawsers (fu : Fuses) (m : Module) (b : Nat) (l : List Nat) : (m.reason fu b l).hawsers = m.hawsers := (congrArg Module.hawsers (still_reason fu m b l) :)
@[simp] theorem reason_rope (fu : Fuses) (m : Module) (b : Nat) (l : List Nat) : (m.reason fu b l).rope = m.rope := (congrArg Module.rope (still_reason fu m b l) :)
@[simp] theorem reason_store (fu : Fuses) (m : Module) (b : Nat) (l : List Nat) : (m.reason fu b l).store = m.store := (congrArg Module.store (still_reason fu m b l) :)
@[simp] theorem reason_freeNo (fu : Fuses) (m : Module) (b : Nat) (l : List Nat) : (m.reason fu b l).freeNo = m.freeNo := (congrArg Module.freeNo (still_reason fu m b l) :)
@[simp] theorem reason_host_queues (fu : Fuses) (m : Module) (b : Nat) (l : List Nat) : (m.reason fu b l).host.queues = m.host.queues := (congrArg (fun x : Module => x.host.queues) (still_reason fu m b l) :)
@[simp] theorem reason_host_hostMem (fu : Fuses) (m : Module) (b : Nat) (l : List Nat) : (m.reason fu b l).host.hostMem = m.host.hostMem := (congrArg (fun x : Module => x.host.hostMem) (still_reason fu m b l) :)
@[simp] theorem reason_host_stamp (fu : Fuses) (m : Module) (b : Nat) (l : List Nat) : (m.reason fu b l).host.stamp = m.host.stamp := (congrArg (fun x : Module => x.host.stamp) (still_reason fu m b l) :)
@[simp] theorem reason_host_orphans (fu : Fuses) (m : Module) (b : Nat) (l : List Nat) : (m.reason fu b l).host.orphans = m.host.orphans := (congrArg (fun x : Module => x.host.orphans) (still_reason fu m b l) :)
@[simp] theorem reason_mgmt_reachable (fu : Fuses) (m : Module) (b : Nat) (l : List Nat) : (m.reason fu b l).mgmt.reachable = m.mgmt.reachable := (congrArg (fun x : Module => x.mgmt.reachable) (still_reason fu m b l) :)
@[simp] theorem reason_mgmt_capstanUp (fu : Fuses) (m : Module) (b : Nat) (l : List Nat) : (m.reason fu b l).mgmt.capstanUp = m.mgmt.capstanUp := (congrArg (fun x : Module => x.mgmt.capstanUp) (still_reason fu m b l) :)
@[simp] theorem reason_mgmt_romService (fu : Fuses) (m : Module) (b : Nat) (l : List Nat) : (m.reason fu b l).mgmt.romService = m.mgmt.romService := (congrArg (fun x : Module => x.mgmt.romService) (still_reason fu m b l) :)
@[simp] theorem reason_mgmt_staged (fu : Fuses) (m : Module) (b : Nat) (l : List Nat) : (m.reason fu b l).mgmt.staged = m.mgmt.staged := (congrArg (fun x : Module => x.mgmt.staged) (still_reason fu m b l) :)
@[simp] theorem reason_mgmt_commits (fu : Fuses) (m : Module) (b : Nat) (l : List Nat) : (m.reason fu b l).mgmt.commits = m.mgmt.commits := (congrArg (fun x : Module => x.mgmt.commits) (still_reason fu m b l) :)
@[simp] theorem reason_mgmt_clamped (fu : Fuses) (m : Module) (b : Nat) (l : List Nat) : (m.reason fu b l).mgmt.clamped = m.mgmt.clamped := (congrArg (fun x : Module => x.mgmt.clamped) (still_reason fu m b l) :)
@[simp] theorem reason_mgmt_kept (fu : Fuses) (m : Module) (b : Nat) (l : List Nat) : (m.reason fu b l).mgmt.kept = m.mgmt.kept := (congrArg (fun x : Module => x.mgmt.kept) (still_reason fu m b l) :)
@[simp] theorem reason_mgmt_mirror (fu : Fuses) (m : Module) (b : Nat) (l : List Nat) : (m.reason fu b l).mgmt.mirror = m.mgmt.mirror := (congrArg (fun x : Module => x.mgmt.mirror) (still_reason fu m b l) :)
@[simp] theorem reason_mgmt_windows (fu : Fuses) (m : Module) (b : Nat) (l : List Nat) : (m.reason fu b l).mgmt.windows = m.mgmt.windows := (congrArg (fun x : Module => x.mgmt.windows) (still_reason fu m b l) :)
@[simp] theorem reason_mgmt_beaconLost (fu : Fuses) (m : Module) (b : Nat) (l : List Nat) : (m.reason fu b l).mgmt.beaconLost = m.mgmt.beaconLost := (congrArg (fun x : Module => x.mgmt.beaconLost) (still_reason fu m b l) :)
@[simp] theorem reason_mgmt_restartCause (fu : Fuses) (m : Module) (b : Nat) (l : List Nat) : (m.reason fu b l).mgmt.restartCause = m.mgmt.restartCause := (congrArg (fun x : Module => x.mgmt.restartCause) (still_reason fu m b l) :)
@[simp] theorem core_of_reason (fu : Fuses) (m : Module) (b : Nat) (l : List Nat) (h : Nat) : (m.reason fu b l).core h = m.core h := by simp [Module.core]
@[simp] theorem cluster_of_reason (fu : Fuses) (m : Module) (b : Nat) (l : List Nat) (h : Nat) : (m.reason fu b l).cluster h = m.cluster h := by simp [Module.cluster]
@[simp] theorem job_of_reason (fu : Fuses) (m : Module) (b : Nat) (l : List Nat) (h : Nat) : (m.reason fu b l).job h = m.job h := by simp [Module.job]
@[simp] theorem die_of_reason (fu : Fuses) (m : Module) (b : Nat) (l : List Nat) (h : Nat) : (m.reason fu b l).die h = m.die h := by simp [Module.die]
@[simp] theorem stack_of_reason (fu : Fuses) (m : Module) (b : Nat) (l : List Nat) (h : Nat) : (m.reason fu b l).stack h = m.stack h := by simp [Module.stack]
@[simp] theorem hawser_of_reason (fu : Fuses) (m : Module) (b : Nat) (l : List Nat) (h : Nat) : (m.reason fu b l).hawser h = m.hawser h := by simp [Module.hawser]
@[simp] theorem queue_of_reason (fu : Fuses) (m : Module) (b : Nat) (l : List Nat) (h : Nat) : (m.reason fu b l).queue h = m.queue h := by simp [Module.queue]

@[simp] theorem checkCores_power (fu : Fuses) (m : Module) : (m.checkCores fu).power = m.power := (congrArg Module.power (still_checkCores fu m) :)
@[simp] theorem checkCores_dies (fu : Fuses) (m : Module) : (m.checkCores fu).dies = m.dies := (congrArg Module.dies (still_checkCores fu m) :)
@[simp] theorem checkCores_links (fu : Fuses) (m : Module) : (m.checkCores fu).links = m.links := (congrArg Module.links (still_checkCores fu m) :)
@[simp] theorem checkCores_hbmStacks (fu : Fuses) (m : Module) : (m.checkCores fu).hbmStacks = m.hbmStacks := (congrArg Module.hbmStacks (still_checkCores fu m) :)
@[simp] theorem checkCores_lasers (fu : Fuses) (m : Module) : (m.checkCores fu).lasers = m.lasers := (congrArg Module.lasers (still_checkCores fu m) :)
@[simp] theorem checkCores_saved (fu : Fuses) (m : Module) : (m.checkCores fu).saved = m.saved := (congrArg Module.saved (still_checkCores fu m) :)
@[simp] theorem checkCores_fw (fu : Fuses) (m : Module) : (m.checkCores fu).fw = m.fw := (congrArg Module.fw (still_checkCores fu m) :)
@[simp] theorem checkCores_trust (fu : Fuses) (m : Module) : (m.checkCores fu).trust = m.trust := (congrArg Module.trust (still_checkCores fu m) :)
@[simp] theorem checkCores_stress (fu : Fuses) (m : Module) : (m.checkCores fu).stress = m.stress := (congrArg Module.stress (still_checkCores fu m) :)
@[simp] theorem checkCores_cores (fu : Fuses) (m : Module) : (m.checkCores fu).cores = m.cores := (congrArg Module.cores (still_checkCores fu m) :)
@[simp] theorem checkCores_clusters (fu : Fuses) (m : Module) : (m.checkCores fu).clusters = m.clusters := (congrArg Module.clusters (still_checkCores fu m) :)
@[simp] theorem checkCores_hbm (fu : Fuses) (m : Module) : (m.checkCores fu).hbm = m.hbm := (congrArg Module.hbm (still_checkCores fu m) :)
@[simp] theorem checkCores_hbmPoison (fu : Fuses) (m : Module) : (m.checkCores fu).hbmPoison = m.hbmPoison := (congrArg Module.hbmPoison (still_checkCores fu m) :)
@[simp] theorem checkCores_jobs (fu : Fuses) (m : Module) : (m.checkCores fu).jobs = m.jobs := (congrArg Module.jobs (still_checkCores fu m) :)
@[simp] theorem checkCores_residency (fu : Fuses) (m : Module) : (m.checkCores fu).residency = m.residency := (congrArg Module.residency (still_checkCores fu m) :)
@[simp] theorem checkCores_useStamp (fu : Fuses) (m : Module) : (m.checkCores fu).useStamp = m.useStamp := (congrArg Module.useStamp (still_checkCores fu m) :)
@[simp] theorem checkCores_hawsers (fu : Fuses) (m : Module) : (m.checkCores fu).hawsers = m.hawsers := (congrArg Module.hawsers (still_checkCores fu m) :)
@[simp] theorem checkCores_rope (fu : Fuses) (m : Module) : (m.checkCores fu).rope = m.rope := (congrArg Module.rope (still_checkCores fu m) :)
@[simp] theorem checkCores_store (fu : Fuses) (m : Module) : (m.checkCores fu).store = m.store := (congrArg Module.store (still_checkCores fu m) :)
@[simp] theorem checkCores_freeNo (fu : Fuses) (m : Module) : (m.checkCores fu).freeNo = m.freeNo := (congrArg Module.freeNo (still_checkCores fu m) :)
@[simp] theorem checkCores_host_queues (fu : Fuses) (m : Module) : (m.checkCores fu).host.queues = m.host.queues := (congrArg (fun x : Module => x.host.queues) (still_checkCores fu m) :)
@[simp] theorem checkCores_host_hostMem (fu : Fuses) (m : Module) : (m.checkCores fu).host.hostMem = m.host.hostMem := (congrArg (fun x : Module => x.host.hostMem) (still_checkCores fu m) :)
@[simp] theorem checkCores_host_stamp (fu : Fuses) (m : Module) : (m.checkCores fu).host.stamp = m.host.stamp := (congrArg (fun x : Module => x.host.stamp) (still_checkCores fu m) :)
@[simp] theorem checkCores_host_orphans (fu : Fuses) (m : Module) : (m.checkCores fu).host.orphans = m.host.orphans := (congrArg (fun x : Module => x.host.orphans) (still_checkCores fu m) :)
@[simp] theorem checkCores_mgmt_reachable (fu : Fuses) (m : Module) : (m.checkCores fu).mgmt.reachable = m.mgmt.reachable := (congrArg (fun x : Module => x.mgmt.reachable) (still_checkCores fu m) :)
@[simp] theorem checkCores_mgmt_capstanUp (fu : Fuses) (m : Module) : (m.checkCores fu).mgmt.capstanUp = m.mgmt.capstanUp := (congrArg (fun x : Module => x.mgmt.capstanUp) (still_checkCores fu m) :)
@[simp] theorem checkCores_mgmt_romService (fu : Fuses) (m : Module) : (m.checkCores fu).mgmt.romService = m.mgmt.romService := (congrArg (fun x : Module => x.mgmt.romService) (still_checkCores fu m) :)
@[simp] theorem checkCores_mgmt_staged (fu : Fuses) (m : Module) : (m.checkCores fu).mgmt.staged = m.mgmt.staged := (congrArg (fun x : Module => x.mgmt.staged) (still_checkCores fu m) :)
@[simp] theorem checkCores_mgmt_commits (fu : Fuses) (m : Module) : (m.checkCores fu).mgmt.commits = m.mgmt.commits := (congrArg (fun x : Module => x.mgmt.commits) (still_checkCores fu m) :)
@[simp] theorem checkCores_mgmt_clamped (fu : Fuses) (m : Module) : (m.checkCores fu).mgmt.clamped = m.mgmt.clamped := (congrArg (fun x : Module => x.mgmt.clamped) (still_checkCores fu m) :)
@[simp] theorem checkCores_mgmt_kept (fu : Fuses) (m : Module) : (m.checkCores fu).mgmt.kept = m.mgmt.kept := (congrArg (fun x : Module => x.mgmt.kept) (still_checkCores fu m) :)
@[simp] theorem checkCores_mgmt_mirror (fu : Fuses) (m : Module) : (m.checkCores fu).mgmt.mirror = m.mgmt.mirror := (congrArg (fun x : Module => x.mgmt.mirror) (still_checkCores fu m) :)
@[simp] theorem checkCores_mgmt_windows (fu : Fuses) (m : Module) : (m.checkCores fu).mgmt.windows = m.mgmt.windows := (congrArg (fun x : Module => x.mgmt.windows) (still_checkCores fu m) :)
@[simp] theorem checkCores_mgmt_beaconLost (fu : Fuses) (m : Module) : (m.checkCores fu).mgmt.beaconLost = m.mgmt.beaconLost := (congrArg (fun x : Module => x.mgmt.beaconLost) (still_checkCores fu m) :)
@[simp] theorem checkCores_mgmt_restartCause (fu : Fuses) (m : Module) : (m.checkCores fu).mgmt.restartCause = m.mgmt.restartCause := (congrArg (fun x : Module => x.mgmt.restartCause) (still_checkCores fu m) :)
@[simp] theorem core_of_checkCores (fu : Fuses) (m : Module) (h : Nat) : (m.checkCores fu).core h = m.core h := by simp [Module.core]
@[simp] theorem cluster_of_checkCores (fu : Fuses) (m : Module) (h : Nat) : (m.checkCores fu).cluster h = m.cluster h := by simp [Module.cluster]
@[simp] theorem job_of_checkCores (fu : Fuses) (m : Module) (h : Nat) : (m.checkCores fu).job h = m.job h := by simp [Module.job]
@[simp] theorem die_of_checkCores (fu : Fuses) (m : Module) (h : Nat) : (m.checkCores fu).die h = m.die h := by simp [Module.die]
@[simp] theorem stack_of_checkCores (fu : Fuses) (m : Module) (h : Nat) : (m.checkCores fu).stack h = m.stack h := by simp [Module.stack]
@[simp] theorem hawser_of_checkCores (fu : Fuses) (m : Module) (h : Nat) : (m.checkCores fu).hawser h = m.hawser h := by simp [Module.hawser]
@[simp] theorem queue_of_checkCores (fu : Fuses) (m : Module) (h : Nat) : (m.checkCores fu).queue h = m.queue h := by simp [Module.queue]

/-! ### Dictionary values -/

/-- The dictionary values that reporting advances: frames sent, notifications, and Logline's counts. -/
def reportKeys : List Nat :=
  [odKey 0x1010 6, odKey 0x1030 2, odKey 0x1030 3, odKey 0x8020 1, odKey 0x8020 2, odKey 0x8020 3, odKey 0x8020 4]

/-- A value that is none of those stays through a frame. -/
theorem odGet_sendFrame (fu : Fuses) (m : Module) (d n : Nat) (b : List Byte) (k : Nat) (h : k ∉ reportKeys) :
    (m.sendFrame fu d n b).odGet k = m.odGet k := by
  simp only [reportKeys, List.mem_cons, not_or] at h
  unfold Module.sendFrame
  split
  · rw [odGet_bump, if_neg h.1]; rfl
  · rfl

/-- Through a notification. -/
theorem odGet_notifyPort (m : Module) (p : Nat) (b : List Byte) (k : Nat) (h : k ∉ reportKeys) :
    (m.notifyPort p b).odGet k = m.odGet k := by
  simp only [reportKeys, List.mem_cons, not_or] at h
  unfold Module.notifyPort
  dsimp only
  split
  · rfl
  · split
    · rw [odGet_bump, if_neg h.2.2.1]; rfl
    · rfl

/-- Through the NOTIFY of a record. -/
theorem odGet_notifyRec (fu : Fuses) (m : Module) (r : LogRec) (k : Nat) (h : k ∉ reportKeys) :
    (m.notifyRec fu r).odGet k = m.odGet k := by
  unfold Module.notifyRec
  split
  · dsimp only
    rw [odGet_notifyPort _ _ _ _ h, odGet_notifyPort _ _ _ _ h, odGet_sendFrame _ _ _ _ _ _ h, odGet_odSet, if_neg]
    simp only [reportKeys, List.mem_cons, not_or] at h
    exact h.2.1
  · rfl

/-- Through a Logline record. -/
theorem odGet_putRec (fu : Fuses) (m : Module) (c n : Nat) (b : Bool) (l : List Nat) (k : Nat) (h : k ∉ reportKeys) :
    (m.putRec fu c n b l).odGet k = m.odGet k := by
  have h' := h
  simp only [reportKeys, List.mem_cons, not_or] at h'
  unfold Module.putRec
  dsimp only
  rw [odGet_notifyRec _ _ _ _ h, odGet_odSet, if_neg h'.2.2.2.2.2.1, odGet_odSet, if_neg h'.2.2.2.2.2.2.1, odGet_bump,
    if_neg h'.2.2.2.1]
  rfl

/-- Through a record with its count of lost records. -/
theorem odGet_putRecs (fu : Fuses) (m : Module) (c n : Nat) (b : Bool) (l : List Nat) (k : Nat) (h : k ∉ reportKeys) :
    (m.putRecs fu c n b l).odGet k = m.odGet k := by
  unfold Module.putRecs
  split
  · exact odGet_putRec _ _ _ _ _ _ _ h
  · rw [odGet_putRec _ _ _ _ _ _ _ h, odGet_putRec _ _ _ _ _ _ _ h]; rfl

/-- Through a record under the mask and the rate limit. -/
theorem odGet_record (fu : Fuses) (m : Module) (c : Nat) (b : Bool) (l : List Nat) (k : Nat) (h : k ∉ reportKeys) :
    (m.record fu c b l).odGet k = m.odGet k := by
  have h' := h
  simp only [reportKeys, List.mem_cons, not_or] at h'
  unfold Module.record
  split
  · rfl
  · split
    · rw [odGet_bump, if_neg h'.2.2.2.2.1]; rfl
    · rw [odGet_putRecs _ _ _ _ _ _ _ h]; rfl

/-- Through an event. -/
theorem odGet_eventX (fu : Fuses) (m : Module) (b : Bool) (c : Nat) (l : List Nat) (k : Nat) (h : k ∉ reportKeys) :
    (m.eventX fu b c l).odGet k = m.odGet k := by
  unfold Module.eventX
  split
  · split <;> rfl
  · dsimp only
    split
    · rw [odGet_record _ _ _ _ _ _ h]
      exact odGet_record fu m c b l k h
    · exact odGet_record fu m c b l k h

/-- Through an event of its own. -/
theorem odGet_event (fu : Fuses) (m : Module) (c : Nat) (l : List Nat) (k : Nat) (h : k ∉ reportKeys) :
    (m.event fu c l).odGet k = m.odGet k := odGet_eventX _ _ _ _ _ _ h

/-! ### What a command answers -/

/-- A command on a unit that the module has answers a next state with the fuses and the queue as they were. -/
theorem actOn_next (s : State) (unit : Bool) (f : Fuses → Module → Module) (h : unit = true) :
    ∃ t, s.actOn unit f = .next t ∧ t.fuse = s.fuse ∧ t.pending = s.pending := by
  unfold State.actOn State.act
  rw [if_pos h]
  split
  · exact ⟨_, rfl, rfl, rfl⟩
  · exact ⟨_, rfl, rfl, rfl⟩

/-- On a module with its input good it runs. -/
theorem actOn_powered (s : State) (unit : Bool) (f : Fuses → Module → Module) (h : unit = true) (hp : s.m.powered = true) :
    s.actOn unit f = .next { s with m := f s.fuse s.m } := by
  simp [State.actOn, State.act, h, hp]

/-- Without the input it has no effect. -/
theorem actOn_unpowered (s : State) (unit : Bool) (f : Fuses → Module → Module) (h : unit = true) (hp : s.m.powered = false) :
    s.actOn unit f = .next s := by
  simp [State.actOn, h, hp]

/-- Without the unit it faults. -/
theorem actOn_absent (s : State) (unit : Bool) (f : Fuses → Module → Module) (h : unit = false) :
    s.actOn unit f = .fault .noSuchUnit := by
  simp [State.actOn, h]


end Sys2Proof.Laws
end

