-- ==== Sys2Proof/Laws/Frame.lean ====
section
/-!
SUPPORT. The parts that shared operations leave as they were, in the words of Safety.lean, and what issuing a row comes to.
-/
namespace Sys2Proof.Laws

open Sys2Proof.Machine

/-! ### Keeping parts -/

/-- Nothing changes nothing. -/
theorem keeps_refl (ps : List Part) (m : Module) : KeepsBut ps m m := by
  intro p _
  cases p <;> simp [Part.same]

/-- One change after another. -/
theorem keeps_trans {ps : List Part} {a b c : Module} (h1 : KeepsBut ps a b) (h2 : KeepsBut ps b c) : KeepsBut ps a c := by
  intro p hp
  have e1 := h1 p hp
  have e2 := h2 p hp
  cases p <;> simp only [Part.same] at e1 e2 ⊢ <;> try (first | rw [e2, e1] | exact e2.trans e1)
  · have e3 := congrArg (fun x : Mgmt => { x with frames := a.mgmt.frames, held := a.mgmt.held, dropEventHeld := a.mgmt.dropEventHeld }) e2
    exact e3.trans e1
  · exact ⟨e2.1.trans e1.1, e2.2.1.trans e1.2.1, e2.2.2.1.trans e1.2.2.1, e2.2.2.2.1.trans e1.2.2.2.1,
      e2.2.2.2.2.trans e1.2.2.2.2⟩
  · exact ⟨e2.1.trans e1.1, e2.2.trans e1.2⟩

/-- A longer list of exceptions asks less. -/
theorem keeps_mono {ps qs : List Part} {a b : Module} (h : KeepsBut ps a b) (hs : ∀ p ∈ ps, p ∈ qs) : KeepsBut qs a b :=
  fun p hp => h p (fun hm => hp (hs p hm))

/-- What reporting leaves. -/
theorem keeps_still {m n : Module} (h : still n = still m) : KeepsBut [.od, .log, .report] m n := by
  intro p hp
  have e := fun {α : Type} (f : Module → α) => congrArg f h
  cases p <;> simp only [List.mem_cons, List.not_mem_nil, or_false, reduceCtorEq, or_true, not_true] at hp <;>
    simp only [Part.same]
  · exact e Module.power
  · exact e Module.dies
  · exact e Module.links
  · exact e Module.hbmStacks
  · exact e Module.lasers
  · exact e Module.saved
  · exact e Module.calib
  · exact congrArg (fun x : Module => { x.mgmt with frames := m.mgmt.frames, held := m.mgmt.held, dropEventHeld := m.mgmt.dropEventHeld }) h
  · exact e Module.fw
  · exact e Module.trust
  · exact e Module.stress
  · exact e Module.cores
  · exact e Module.clusters
  · exact e Module.hbm
  · exact ⟨e Module.hbmPoison, e Module.bursts⟩
  · exact e Module.jobs
  · exact e Module.residency
  · exact e Module.useStamp
  · exact e Module.hawsers
  · exact e Module.rope
  · exact e Module.store
  · exact e (fun x => x.host.ports)
  · exact e (fun x => x.host.queues)
  · exact e (fun x => x.host.hostMem)
  · exact e (fun x => x.host.stamp)
  · exact e (fun x => x.host.orphans)
  · exact e Module.freeNo

/-- A change of listed parts does not show among the others. -/
theorem kb_iff {qs ps : List Part} {m n n' : Module} (h : KeepsBut qs n n') (hs : ∀ p ∈ qs, p ∈ ps) :
    KeepsBut ps m n' ↔ KeepsBut ps m n := by
  have back : KeepsBut qs n' n := by
    intro p hp
    have e := h p hp
    cases p <;> simp only [Part.same] at e ⊢ <;> try exact e.symm
    · have e1 := congrArg Mgmt.reachable e
      have e2 := congrArg Mgmt.capstanUp e
      have e3 := congrArg Mgmt.romService e
      have e4 := congrArg Mgmt.staged e
      have e5 := congrArg Mgmt.commits e
      have e6 := congrArg Mgmt.clamped e
      have e7 := congrArg Mgmt.kept e
      have e8 := congrArg Mgmt.mirror e
      have e9 := congrArg Mgmt.windows e
      have e10 := congrArg Mgmt.beaconLost e
      have e11 := congrArg Mgmt.restartCause e
      cases hn : n'.mgmt
      simp_all
    · exact ⟨e.1.symm, e.2.1.symm, e.2.2.1.symm, e.2.2.2.1.symm, e.2.2.2.2.symm⟩
    · exact ⟨e.1.symm, e.2.symm⟩
  exact ⟨fun k => keeps_trans k (keeps_mono back hs), fun k => keeps_trans k (keeps_mono h hs)⟩

/-! ### Single updates: each shows only in its own part -/

theorem keeps_onCore (n : Module) (g : Nat) (f : Core → Core) : KeepsBut [.cores] n (n.onCore g f) := by
  intro p hp; cases p <;> simp_all [Part.same]
@[simp] theorem kb_onCore {ps : List Part} {m n : Module} (g : Nat) (f : Core → Core) (h : Part.cores ∈ ps) : KeepsBut ps m (n.onCore g f) ↔ KeepsBut ps m n :=
  kb_iff (keeps_onCore n g f) (by simpa using h)
theorem keeps_onCluster (n : Module) (k : Nat) (f : Cluster → Cluster) : KeepsBut [.clusters] n (n.onCluster k f) := by
  intro p hp; cases p <;> simp_all [Part.same]
@[simp] theorem kb_onCluster {ps : List Part} {m n : Module} (k : Nat) (f : Cluster → Cluster) (h : Part.clusters ∈ ps) : KeepsBut ps m (n.onCluster k f) ↔ KeepsBut ps m n :=
  kb_iff (keeps_onCluster n k f) (by simpa using h)
theorem keeps_onJob (n : Module) (j : Nat) (f : Job → Job) : KeepsBut [.jobs] n (n.onJob j f) := by
  intro p hp; cases p <;> simp_all [Part.same]
@[simp] theorem kb_onJob {ps : List Part} {m n : Module} (j : Nat) (f : Job → Job) (h : Part.jobs ∈ ps) : KeepsBut ps m (n.onJob j f) ↔ KeepsBut ps m n :=
  kb_iff (keeps_onJob n j f) (by simpa using h)
theorem keeps_onRun (n : Module) (j : Nat) (f : Run → Run) : KeepsBut [.jobs] n (n.onRun j f) := by
  intro p hp; cases p <;> simp_all [Module.onRun, Part.same]
@[simp] theorem kb_onRun {ps : List Part} {m n : Module} (j : Nat) (f : Run → Run) (h : Part.jobs ∈ ps) : KeepsBut ps m (n.onRun j f) ↔ KeepsBut ps m n :=
  kb_iff (keeps_onRun n j f) (by simpa using h)
theorem keeps_onDie (n : Module) (d : Nat) (f : Die → Die) : KeepsBut [.dies] n (n.onDie d f) := by
  intro p hp; cases p <;> simp_all [Part.same]
@[simp] theorem kb_onDie {ps : List Part} {m n : Module} (d : Nat) (f : Die → Die) (h : Part.dies ∈ ps) : KeepsBut ps m (n.onDie d f) ↔ KeepsBut ps m n :=
  kb_iff (keeps_onDie n d f) (by simpa using h)
theorem keeps_onStack (n : Module) (p : Nat) (f : Stack → Stack) : KeepsBut [.hbmStacks] n (n.onStack p f) := by
  intro p hp; cases p <;> simp_all [Part.same]
@[simp] theorem kb_onStack {ps : List Part} {m n : Module} (p : Nat) (f : Stack → Stack) (h : Part.hbmStacks ∈ ps) : KeepsBut ps m (n.onStack p f) ↔ KeepsBut ps m n :=
  kb_iff (keeps_onStack n p f) (by simpa using h)
theorem keeps_onQueue (n : Module) (q : Nat) (f : Queue → Queue) : KeepsBut [.queues] n (n.onQueue q f) := by
  intro p hp; cases p <;> simp_all [Part.same]
@[simp] theorem kb_onQueue {ps : List Part} {m n : Module} (q : Nat) (f : Queue → Queue) (h : Part.queues ∈ ps) : KeepsBut ps m (n.onQueue q f) ↔ KeepsBut ps m n :=
  kb_iff (keeps_onQueue n q f) (by simpa using h)
theorem keeps_onHawser (n : Module) (w : Nat) (f : Hawser → Hawser) : KeepsBut [.hawsers] n (n.onHawser w f) := by
  intro p hp; cases p <;> simp_all [Part.same]
@[simp] theorem kb_onHawser {ps : List Part} {m n : Module} (w : Nat) (f : Hawser → Hawser) (h : Part.hawsers ∈ ps) : KeepsBut ps m (n.onHawser w f) ↔ KeepsBut ps m n :=
  kb_iff (keeps_onHawser n w f) (by simpa using h)
theorem keeps_nextFree (n : Module) : KeepsBut [.freeNo] n (n.nextFree) := by
  intro p hp; cases p <;> simp_all [Part.same]
@[simp] theorem kb_nextFree {ps : List Part} {m n : Module} (h : Part.freeNo ∈ ps) : KeepsBut ps m (n.nextFree) ↔ KeepsBut ps m n :=
  kb_iff (keeps_nextFree n ) (by simpa using h)
theorem keeps_odSet (n : Module) (k v : Nat) : KeepsBut [.od] n (n.odSet k v) := by
  intro p hp; cases p <;> simp_all [Part.same]
@[simp] theorem kb_odSet {ps : List Part} {m n : Module} (k v : Nat) (h : Part.od ∈ ps) : KeepsBut ps m (n.odSet k v) ↔ KeepsBut ps m n :=
  kb_iff (keeps_odSet n k v ) (by simpa using h)
theorem keeps_bump (n : Module) (k v : Nat) : KeepsBut [.od] n (n.bump k v) := by
  intro p hp; cases p <;> simp_all [Module.bump, Part.same]
@[simp] theorem kb_bump {ps : List Part} {m n : Module} (k v : Nat) (h : Part.od ∈ ps) : KeepsBut ps m (n.bump k v) ↔ KeepsBut ps m n :=
  kb_iff (keeps_bump n k v ) (by simpa using h)
theorem keeps_askFence (n : Module) (g st : Nat) : KeepsBut [.cores] n (n.askFence g st) := by
  intro p hp; cases p <;> simp_all [Module.askFence, Part.same]
@[simp] theorem kb_askFence {ps : List Part} {m n : Module} (g st : Nat) (h : Part.cores ∈ ps) : KeepsBut ps m (n.askFence g st) ↔ KeepsBut ps m n :=
  kb_iff (keeps_askFence n g st ) (by simpa using h)
/-! ### Reporting -/

@[simp] theorem kb_sendFrame {ps : List Part} {m n : Module} (fu : Fuses) (d k : Nat) (b : List Byte) (h1 : Part.od ∈ ps) (h2 : Part.log ∈ ps) (h3 : Part.report ∈ ps) :
    KeepsBut ps m (n.sendFrame fu d k b) ↔ KeepsBut ps m n := kb_iff (keeps_still (still_sendFrame fu n d k b)) (by simp [h1, h2, h3])
@[simp] theorem kb_notifyPort {ps : List Part} {m n : Module} (p : Nat) (b : List Byte) (h1 : Part.od ∈ ps) (h2 : Part.log ∈ ps) (h3 : Part.report ∈ ps) :
    KeepsBut ps m (n.notifyPort p b) ↔ KeepsBut ps m n := kb_iff (keeps_still (still_notifyPort n p b)) (by simp [h1, h2, h3])
@[simp] theorem kb_eventX {ps : List Part} {m n : Module} (fu : Fuses) (s : Bool) (c : Nat) (l : List Nat) (h1 : Part.od ∈ ps) (h2 : Part.log ∈ ps) (h3 : Part.report ∈ ps) :
    KeepsBut ps m (n.eventX fu s c l) ↔ KeepsBut ps m n := kb_iff (keeps_still (still_eventX fu n s c l)) (by simp [h1, h2, h3])
@[simp] theorem kb_event {ps : List Part} {m n : Module} (fu : Fuses) (c : Nat) (l : List Nat) (h1 : Part.od ∈ ps) (h2 : Part.log ∈ ps) (h3 : Part.report ∈ ps) :
    KeepsBut ps m (n.event fu c l) ↔ KeepsBut ps m n := kb_iff (keeps_still (still_event fu n c l)) (by simp [h1, h2, h3])
@[simp] theorem kb_reason {ps : List Part} {m n : Module} (fu : Fuses) (b : Nat) (l : List Nat) (h1 : Part.od ∈ ps) (h2 : Part.log ∈ ps) (h3 : Part.report ∈ ps) :
    KeepsBut ps m (n.reason fu b l) ↔ KeepsBut ps m n := kb_iff (keeps_still (still_reason fu n b l)) (by simp [h1, h2, h3])
@[simp] theorem kb_checkCores {ps : List Part} {m n : Module} (fu : Fuses) (h1 : Part.od ∈ ps) (h2 : Part.log ∈ ps) (h3 : Part.report ∈ ps) :
    KeepsBut ps m (n.checkCores fu) ↔ KeepsBut ps m n := kb_iff (keeps_still (still_checkCores fu n)) (by simp [h1, h2, h3])
@[simp] theorem kb_fire {ps : List Part} {m n : Module} (p v : Nat) (h1 : Part.od ∈ ps) (h2 : Part.log ∈ ps) (h3 : Part.report ∈ ps) :
    KeepsBut ps m (n.fire p v) ↔ KeepsBut ps m n := kb_iff (keeps_still (still_fire n p v)) (by simp [h1, h2, h3])
@[simp] theorem kb_onMailbox {ps : List Part} {m n : Module} (p : Nat) (f : Mailbox → Mailbox) (h1 : Part.od ∈ ps) (h2 : Part.log ∈ ps) (h3 : Part.report ∈ ps) :
    KeepsBut ps m (n.onMailbox p f) ↔ KeepsBut ps m n := kb_iff (keeps_still (still_onMailbox n p f)) (by simp [h1, h2, h3])

end Sys2Proof.Laws
end

