-- ==== Sys2Proof/Laws/Seq.lean ====
section
/-!
SUPPORT. The sequencer's shared operations: what issuing a row comes to, where the program goes, what the end of an
instruction leaves.
-/
namespace Sys2Proof.Laws

open Sys2Proof.Machine

/-! ### Issuing -/

/-- A row that issues runs its body on what its happenings left. -/
theorem issueRow_of {s : State} {g : Nat} {kind : Words → Bool} {ups : List Upset} {i : Inst} {m : Module}
    (h : Issues s g kind ups i m) (body : Module → Inst → Module) :
    s.m.issueRow s.fuse g kind ups body = body m i := by
  obtain ⟨_, _, hc, ⟨j, hj, hi⟩, hk, x, hm, hs, rfl⟩ := h
  simp [Module.issueRow, hc, hj, hi, hk, hm, hs]

/-- What a row comes to, from what its body leaves. -/
theorem goes_row {s : State} {c : Instr} {g : Nat} {kind : Words → Bool} {ups : List Upset} {i : Inst} {m : Module}
    {body : Fuses → Module → Inst → Module} {P : Module → Prop} (h : Issues s g kind ups i m)
    (hc : exec c s = s.actOn (decide (g < 384)) (fun fu m => m.issueRow fu g kind ups (body fu)))
    (hp : P (body s.fuse m i)) : Goes s c P := by
  have h1 := actOn_powered s (decide (g < 384)) (fun fu m => m.issueRow fu g kind ups (body fu)) (by simp [h.1]) h.2.1
  rw [h1, issueRow_of h] at hc
  exact ⟨_, hc, rfl, rfl, hp⟩

/-- What another command comes to. -/
theorem goes_actOn {s : State} {c : Instr} {unit : Bool} {f : Fuses → Module → Module} {P : Module → Prop}
    (hc : exec c s = s.actOn unit f) (hu : unit = true) (hw : s.m.powered = true) (hp : P (f s.fuse s.m)) :
    Goes s c P := by
  rw [actOn_powered s unit f hu hw] at hc
  exact ⟨_, hc, rfl, rfl, hp⟩

/-- The same for one that acts without power. -/
theorem goes_act {s : State} {c : Instr} {f : Fuses → Module → Module} {P : Module → Prop} (hc : exec c s = s.act f)
    (hp : P (f s.fuse s.m)) : Goes s c P := ⟨_, hc, rfl, rfl, hp⟩

/-- An instruction that issues is the one at its core's position. -/
theorem issues_core {s : State} {g : Nat} {kind : Words → Bool} {ups : List Upset} {i : Inst} {m : Module}
    (h : Issues s g kind ups i m) : i.core = g := by
  obtain ⟨_, _, _, ⟨j, _, hi⟩, _, _, _⟩ := h
  simp only [Module.instAt, Option.map_eq_some_iff] at hi
  obtain ⟨w, _, rfl⟩ := hi
  rfl

/-- A core that may issue is one of the module's. -/
theorem canIssue_core {m : Module} {g : Nat} (h : m.canIssue g = true) : g < m.cores.length := by
  apply Classical.byContradiction
  intro hn
  have : m.core g = Core.reset := by
    simp [Module.core, List.getD_eq_getElem?_getD, List.getElem?_eq_none (Nat.le_of_not_lt hn)]
  simp [Module.canIssue, Module.running, this, Core.reset] at h

/-! ### Happenings keep the units -/

section
variable (fu : Fuses) (m : Module)

@[simp] theorem askFence_length (g st : Nat) : (m.askFence g st).cores.length = m.cores.length := by simp [Module.askFence]

@[simp] theorem stallCore_length (g n : Nat) : (m.stallCore g n).cores.length = m.cores.length := by
  unfold Module.stallCore; split <;> simp

/-- Folding what keeps the number of cores keeps it. -/
theorem foldl_length {α : Type} (l : List α) (f : Module → α → Module) (hf : ∀ m a, (f m a).cores.length = m.cores.length) :
    (l.foldl f m).cores.length = m.cores.length := by
  induction l generalizing m with
  | nil => rfl
  | cons a l ih => simp [ih, hf]

@[simp] theorem noSpare_length (k u b r : Nat) : (m.noSpare fu k u b r).cores.length = m.cores.length := by
  unfold Module.noSpare
  dsimp only
  split
  · simp
  · rw [foldl_length _ _ _ (by simp)]; simp

/-- A flag that takes its spare by an operation that keeps the number of cores keeps it. -/
theorem queueRepair_length (k x u b r p : Nat) (take : Module → Module) (ht : (take m).cores.length = m.cores.length) :
    (m.queueRepair fu k x u b r p take).cores.length = m.cores.length := by
  unfold Module.queueRepair
  dsimp only
  split
  · simp
  · exact ht

@[simp] theorem flagSpRow_length (g b r x : Nat) : (m.flagSpRow fu g b r x).cores.length = m.cores.length := by
  unfold Module.flagSpRow
  dsimp only
  split
  · rfl
  · split
    · simp
    · rw [queueRepair_length _ _ _ _ _ _ _ _ _ (by simp)]

@[simp] theorem flagCmRow_length (g b r x : Nat) : (m.flagCmRow fu g b r x).cores.length = m.cores.length := by
  unfold Module.flagCmRow
  dsimp only
  split
  · rfl
  · split
    · simp
    · rw [queueRepair_length _ _ _ _ _ _ _ _ _ (by simp)]

@[simp] theorem flagHbmRow_length (p pc b r x : Nat) : (m.flagHbmRow fu p pc b r x).cores.length = m.cores.length := by
  unfold Module.flagHbmRow
  dsimp only
  repeat' split
  all_goals simp

@[simp] theorem spoilSymbols_length (g : Nat) (l : List Nat) : (m.spoilSymbols g l).cores.length = m.cores.length := rfl

@[simp] theorem storeErrors_length (g : Nat) (l : List Nat) : (m.storeErrors g l).cores.length = m.cores.length := by
  unfold Module.storeErrors
  dsimp only
  repeat' split
  all_goals simp

@[simp] theorem addErrors_length (a : Nat) (l : List Nat) : (m.addErrors a l).cores.length = m.cores.length := by
  unfold Module.addErrors
  dsimp only
  split <;> simp

@[simp] theorem judgeErrors_length (p pc : Nat) : (m.judgeErrors p pc).cores.length = m.cores.length := by
  rw [Module.judgeErrors, foldl_length _ _ _ (by simp)]

@[simp] theorem recordLane_length (p pc b r x : Nat) : (m.recordLane fu p pc b r x).cores.length = m.cores.length := by
  unfold Module.recordLane
  dsimp only
  repeat' split
  all_goals simp

@[simp] theorem readBurst_length (j : Nat) (b : BadBurst) : (m.readBurst fu j b).cores.length = m.cores.length := by
  unfold Module.readBurst
  dsimp only
  repeat' split
  all_goals simp

/-- Reads of HBM keep the number of cores. -/
@[simp] theorem hbmReads_length (j : Nat) (rs : List (Nat × Nat)) : (m.hbmReads fu j rs).cores.length = m.cores.length := by
  unfold Module.hbmReads
  dsimp only
  rw [foldl_length _ _ _ (by simp)]
  split <;> simp

@[simp] theorem wideStall_length (g : Nat) : (m.wideStall g).cores.length = m.cores.length := by simp [Module.wideStall]

@[simp] theorem spRemap_length (g b r : Nat) : (m.spRemap g b r).cores.length = m.cores.length := by
  unfold Module.spRemap; split <;> simp

@[simp] theorem stallCluster_length (k : Nat) : (m.stallCluster k).cores.length = m.cores.length := by
  unfold Module.stallCluster
  dsimp only
  split
  · rfl
  · rw [foldl_length _ _ _ (by simp)]; simp

@[simp] theorem clusterWide_length (k : Nat) : (m.clusterWide k).cores.length = m.cores.length := by simp [Module.clusterWide]

@[simp] theorem cmRemap_length (k b r : Nat) : (m.cmRemap k b r).cores.length = m.cores.length := by
  unfold Module.cmRemap; split <;> simp

@[simp] theorem flagStatRow_length (g b r x : Nat) : (m.flagStatRow fu g b r x).cores.length = m.cores.length := by
  simp [Module.flagStatRow]

/-- Memory errors keep the number of cores. -/
@[simp] theorem meetMemory_length (g : Nat) (u : Upset) : (m.meetMemory fu g u).cores.length = m.cores.length := by
  cases u <;> simp only [Module.meetMemory, Module.spSingle, Module.spWide, Module.spBad, Module.cmSingle, Module.cmWide,
    Module.cmBad, Module.statSingle, Module.statBad] <;> (repeat' split) <;> simp

/-- A completion record touches no core. -/
@[simp] theorem instrDone_cores (i : Inst) (st : Nat) : (m.instrDone fu i st).cores = m.cores := by
  unfold Module.instrDone
  dsimp only
  repeat' split
  all_goals simp [Module.pushResp]

@[simp] theorem holdFence_length (i : Inst) : (m.holdFence i).cores.length = m.cores.length := by simp [Module.holdFence]

@[simp] theorem dropInst_length (i : Inst) : (m.dropInst i).cores.length = m.cores.length := by simp [Module.dropInst]

@[simp] theorem lockstep_length (i : Inst) (f v : Nat) : (m.lockstep fu i f v).cores.length = m.cores.length := by
  simp [Module.lockstep]

@[simp] theorem busRecord_length (i : Inst) (h : Bool) (b a : Nat) : (m.busRecord fu i h b a).cores.length = m.cores.length := by
  unfold Module.busRecord
  dsimp only
  repeat' split
  all_goals simp

/-- What a happening records keeps the number of cores. -/
@[simp] theorem meetStop_length (i : Inst) (h : Bool) (u : Upset) : (m.meetStop fu i h u).cores.length = m.cores.length := by
  cases u <;> simp only [Module.meetStop] <;> (repeat' split) <;> simp

@[simp] theorem narrowReads_length (n : Nat) : (m.narrowReads n).cores.length = m.cores.length := by
  unfold Module.narrowReads; split <;> simp

@[simp] theorem readShapes_length (i : Inst) : (m.readShapes fu i).cores.length = m.cores.length := by simp [Module.readShapes]

@[simp] theorem blame_length (i : Inst) : (m.blame i).cores.length = m.cores.length := by simp [Module.blame]

/-- Happenings keep the number of cores. -/
theorem meet_length (i : Inst) (ups : List Upset) : (m.meet fu i ups).1.cores.length = m.cores.length := by
  unfold Module.meet
  dsimp only
  repeat' split
  all_goals simp [foldl_length]

end

/-- The core of an instruction that issues is one of the module's, after its happenings too. -/
theorem issues_length {s : State} {g : Nat} {kind : Words → Bool} {ups : List Upset} {i : Inst} {m : Module}
    (h : Issues s g kind ups i m) : g < m.cores.length := by
  obtain ⟨_, _, hc, _, _, x, hm, _, rfl⟩ := h
  have h1 := canIssue_core hc
  have h2 := meet_length s.fuse s.m i ups
  rw [hm] at h2
  simpa [h2] using h1

end Sys2Proof.Laws
end

