-- ==== Sys2Proof/Laws/Control.lean ====
section
/-!
SUPPORT. The ends of instructions: what finishing with OK or EMPTY_OP leaves, holding, and going on.
-/
namespace Sys2Proof.Laws

open Sys2Proof.Machine

/-- A completion record shows only in the response queues and in reports. -/
theorem keeps_instrDone (fu : Fuses) (n : Module) (i : Inst) (st : Nat) :
    KeepsBut [.od, .log, .report, .queues] n (n.instrDone fu i st) := by
  unfold Module.instrDone
  dsimp only
  repeat' split
  all_goals simp [Module.pushResp, keeps_refl]

@[simp] theorem kb_instrDone {ps : List Part} {m n : Module} (fu : Fuses) (i : Inst) (st : Nat) (h1 : Part.od ∈ ps)
    (h2 : Part.log ∈ ps) (h3 : Part.report ∈ ps) (h4 : Part.queues ∈ ps) :
    KeepsBut ps m (n.instrDone fu i st) ↔ KeepsBut ps m n :=
  kb_iff (keeps_instrDone fu n i st) (by simp [h1, h2, h3, h4])

/-- It touches no job context. -/
@[simp] theorem instrDone_jobs (fu : Fuses) (m : Module) (i : Inst) (st : Nat) : (m.instrDone fu i st).jobs = m.jobs := by
  unfold Module.instrDone
  dsimp only
  repeat' split
  all_goals simp [Module.pushResp]

/-- The end of an instruction with OK. -/
theorem finish_ok (fu : Fuses) (m : Module) (i : Inst) (v p : Nat) :
    m.finish fu i stOk v p =
      if bitAt (i.words.getD 0 0) 55 then
        (m.instrDone fu i stOk).onRun i.job (fun r => { r with signals := r.signals ++ [field (i.words.getD 0 0) 49 6] })
      else m.instrDone fu i stOk := by
  simp only [Module.finish, Module.fate, stOk, stEmptyOp, stCancelled, stPeerLost]
  simp

/-- The end of an instruction with EMPTY_OP. -/
theorem finish_empty (fu : Fuses) (m : Module) (i : Inst) (v p : Nat) :
    m.finish fu i stEmptyOp v p =
      if bitAt (i.words.getD 0 0) 55 then
        (m.instrDone fu i stEmptyOp).onRun i.job (fun r => { r with signals := r.signals ++ [field (i.words.getD 0 0) 49 6] })
      else m.instrDone fu i stEmptyOp := by
  simp only [Module.finish, Module.fate, stOk, stEmptyOp, stCancelled, stPeerLost]
  simp

@[simp] theorem finishOk_cores (fu : Fuses) (m : Module) (i : Inst) (v p : Nat) : (m.finish fu i stOk v p).cores = m.cores := by
  rw [finish_ok]; split <;> simp
@[simp] theorem finishEmpty_cores (fu : Fuses) (m : Module) (i : Inst) (v p : Nat) :
    (m.finish fu i stEmptyOp v p).cores = m.cores := by
  rw [finish_empty]; split <;> simp
@[simp] theorem core_finishOk (fu : Fuses) (m : Module) (i : Inst) (v p h : Nat) : (m.finish fu i stOk v p).core h = m.core h := by
  simp [Module.core]
@[simp] theorem core_finishEmpty (fu : Fuses) (m : Module) (i : Inst) (v p h : Nat) :
    (m.finish fu i stEmptyOp v p).core h = m.core h := by
  simp [Module.core]
@[simp] theorem finishOk_jobs (fu : Fuses) (m : Module) (i : Inst) (v p : Nat) :
    (m.finish fu i stOk v p).jobs = signalled m i := by
  rw [finish_ok, signalled]; split <;> simp [Module.onRun, Module.onJob]
@[simp] theorem finishEmpty_jobs (fu : Fuses) (m : Module) (i : Inst) (v p : Nat) :
    (m.finish fu i stEmptyOp v p).jobs = signalled m i := by
  rw [finish_empty, signalled]; split <;> simp [Module.onRun, Module.onJob]

@[simp] theorem kb_finishOk {ps : List Part} {m n : Module} (fu : Fuses) (i : Inst) (v p : Nat) (h1 : Part.od ∈ ps)
    (h2 : Part.log ∈ ps) (h3 : Part.report ∈ ps) (h4 : Part.queues ∈ ps) (h5 : Part.jobs ∈ ps) :
    KeepsBut ps m (n.finish fu i stOk v p) ↔ KeepsBut ps m n := by
  rw [finish_ok]; split <;> simp [h1, h2, h3, h4, h5]
@[simp] theorem kb_finishEmpty {ps : List Part} {m n : Module} (fu : Fuses) (i : Inst) (v p : Nat) (h1 : Part.od ∈ ps)
    (h2 : Part.log ∈ ps) (h3 : Part.report ∈ ps) (h4 : Part.queues ∈ ps) (h5 : Part.jobs ∈ ps) :
    KeepsBut ps m (n.finish fu i stEmptyOp v p) ↔ KeepsBut ps m n := by
  rw [finish_empty]; split <;> simp [h1, h2, h3, h4, h5]

/-! ### Updates of one core's sequencer and tags -/

@[simp] theorem kb_onSeq {ps : List Part} {m n : Module} (g : Nat) (f : CoreSeq → CoreSeq) (h : Part.cores ∈ ps) :
    KeepsBut ps m (n.onSeq g f) ↔ KeepsBut ps m n := by simp [Module.onSeq, h]
@[simp] theorem kb_goto {ps : List Part} {m n : Module} (g j pc : Nat) (h : Part.cores ∈ ps) :
    KeepsBut ps m (n.goto g j pc) ↔ KeepsBut ps m n := by simp [Module.goto, h]
@[simp] theorem kb_advance {ps : List Part} {m n : Module} (i : Inst) (h : Part.cores ∈ ps) :
    KeepsBut ps m (n.advance i) ↔ KeepsBut ps m n := by simp [Module.advance, h]
@[simp] theorem kb_hold {ps : List Part} {m n : Module} (g : Nat) (w : Wait) (h : Part.cores ∈ ps) :
    KeepsBut ps m (n.hold g w) ↔ KeepsBut ps m n := by simp [Module.hold, h]
@[simp] theorem kb_setFull {ps : List Part} {m n : Module} (g : Nat) (l : List Nat) (h : Part.cores ∈ ps) :
    KeepsBut ps m (n.setFull g l) ↔ KeepsBut ps m n := by simp [Module.setFull, h]
@[simp] theorem kb_setEmpty {ps : List Part} {m n : Module} (g : Nat) (l : List Nat) (h : Part.cores ∈ ps) :
    KeepsBut ps m (n.setEmpty g l) ↔ KeepsBut ps m n := by simp [Module.setEmpty, h]

@[simp] theorem onSeq_jobs (m : Module) (g : Nat) (f : CoreSeq → CoreSeq) : (m.onSeq g f).jobs = m.jobs := rfl
@[simp] theorem goto_jobs (m : Module) (g j pc : Nat) : (m.goto g j pc).jobs = m.jobs := rfl
@[simp] theorem advance_jobs (m : Module) (i : Inst) : (m.advance i).jobs = m.jobs := rfl
@[simp] theorem hold_jobs (m : Module) (g : Nat) (w : Wait) : (m.hold g w).jobs = m.jobs := rfl
@[simp] theorem setFull_jobs (m : Module) (g : Nat) (l : List Nat) : (m.setFull g l).jobs = m.jobs := rfl
@[simp] theorem setEmpty_jobs (m : Module) (g : Nat) (l : List Nat) : (m.setEmpty g l).jobs = m.jobs := rfl
@[simp] theorem job_onSeq (m : Module) (g : Nat) (f : CoreSeq → CoreSeq) (h : Nat) : (m.onSeq g f).job h = m.job h := rfl
@[simp] theorem onSeq_length (m : Module) (g : Nat) (f : CoreSeq → CoreSeq) : (m.onSeq g f).cores.length = m.cores.length := by
  simp [Module.onSeq]
@[simp] theorem setEmpty_length (m : Module) (g : Nat) (l : List Nat) : (m.setEmpty g l).cores.length = m.cores.length := by
  simp [Module.setEmpty]
@[simp] theorem setFull_length (m : Module) (g : Nat) (l : List Nat) : (m.setFull g l).cores.length = m.cores.length := by
  simp [Module.setFull]

theorem core_onSeq_self (m : Module) (g : Nat) (f : CoreSeq → CoreSeq) (h : g < m.cores.length) :
    (m.onSeq g f).core g = { m.core g with seq := f (m.core g).seq } := core_onCore_self m g _ h
theorem core_onSeq_other (m : Module) (g h : Nat) (f : CoreSeq → CoreSeq) (hn : h ≠ g) :
    (m.onSeq g f).core h = m.core h := core_onCore_other m g h _ hn

/-- The signal of an instruction does not depend on what else changed. -/
theorem signalled_congr {m n : Module} (i : Inst) (h : n.jobs = m.jobs) : signalled n i = signalled m i := by
  simp [signalled, h]

/-- Where a sequencer goes does not depend on what else changed. -/
theorem seqAt_congr {m n : Module} (i : Inst) (pc : Nat) (q : CoreSeq) (h : n.jobs = m.jobs) : seqAt n i pc q = seqAt m i pc q := by
  simp [seqAt, Module.job, h]

/-- The core whose program goes on. -/
theorem core_goto (m : Module) (i : Inst) (pc : Nat) (h : i.core < m.cores.length) :
    (m.goto i.core i.job pc).core i.core = { m.core i.core with seq := seqAt m i pc (m.core i.core).seq } :=
  core_onCore_self m i.core _ h
theorem core_goto_other (m : Module) (g j pc h : Nat) (hn : h ≠ g) : (m.goto g j pc).core h = m.core h :=
  core_onCore_other m g h _ hn

/-- A core that goes on at an instruction after its sequencer was changed. -/
theorem wentOn_jump (fu : Fuses) (m : Module) (i : Inst) (pc : Nat) (f : CoreSeq → CoreSeq) (st : Nat)
    (hs : st = stOk ∨ st = stEmptyOp) (h : i.core < m.cores.length) :
    WentOn m ((m.onSeq i.core f).controlJump fu i pc st) i pc (f (m.core i.core).seq) := by
  have hl : i.core < (m.onSeq i.core f).cores.length := by simpa using h
  unfold Module.controlJump
  rcases hs with rfl | rfl
  all_goals
    refine ⟨?_, ?_, ?_, ?_⟩
    · simp only [core_finishOk, core_finishEmpty]
      rw [core_goto _ _ _ hl, core_onSeq_self _ _ _ h, seqAt_congr i pc _ (onSeq_jobs m i.core f)]
    · intro k hk
      simp only [core_finishOk, core_finishEmpty]
      rw [core_goto_other _ _ _ _ _ hk, core_onSeq_other _ _ _ _ hk]
    · simp only [finishOk_jobs, finishEmpty_jobs]
      exact signalled_congr i (by simp)
    · simp [ending, keeps_refl]

/-- Changing nothing of a sequencer changes nothing. -/
theorem onSeq_id (m : Module) (g : Nat) : m.onSeq g (fun q => q) = m := by
  have h : ∀ (l : List Core) (i : Nat), modifyAt (fun c : Core => { c with seq := c.seq }) l i = l := by
    intro l
    induction l with
    | nil => intro i; rfl
    | cons a l ih => intro i; cases i with
      | zero => rfl
      | succ i => simp [modifyAt, ih]
  simp [Module.onSeq, Module.onCore, h]

/-- The same with the sequencer as it was. -/
theorem wentOn_jump' (fu : Fuses) (m : Module) (i : Inst) (pc st : Nat) (hs : st = stOk ∨ st = stEmptyOp)
    (h : i.core < m.cores.length) : WentOn m (m.controlJump fu i pc st) i pc (m.core i.core).seq := by
  have := wentOn_jump fu m i pc (fun q => q) st hs h
  rwa [onSeq_id] at this

/-- The next instruction. -/
theorem wentOn_done (fu : Fuses) (m : Module) (i : Inst) (f : CoreSeq → CoreSeq) (h : i.core < m.cores.length) :
    WentOn m ((m.onSeq i.core f).controlDone fu i) i (i.index + 1) (f (m.core i.core).seq) :=
  wentOn_jump fu m i (i.index + 1) f stOk (Or.inl rfl) h

/-- The next instruction with the sequencer as it was. -/
theorem wentOn_done' (fu : Fuses) (m : Module) (i : Inst) (h : i.core < m.cores.length) :
    WentOn m (m.controlDone fu i) i (i.index + 1) (m.core i.core).seq :=
  wentOn_jump' fu m i (i.index + 1) stOk (Or.inl rfl) h

/-- A core that waits. -/
theorem holds_hold (m : Module) (i : Inst) (w : Wait) (h : i.core < m.cores.length) : Holds m (m.hold i.core w) i w :=
  ⟨core_onCore_self m i.core _ h, fun k hk => core_onCore_other m i.core k _ hk, by simp [keeps_refl]⟩

/-- An instruction whose shapes are good runs its body. -/
theorem withShapes_of {m : Module} {i : Inst} {ups : List Upset} {ss : List Shape} {refs : List Nat}
    (h : ShapesGood m i ups ss refs) (fu : Fuses) (body : Module → Inst → Module) :
    m.withShapes fu ups ss refs i body = body m i := by
  simp [Module.withShapes, h.1, h.2]

end Sys2Proof.Laws
end

