-- ==== Sys2Proof/Laws/Jobs.lean ====
section
/-!
SUPPORT. Jobs and cores that end: what answering commands, ending instructions in flight and ending a job leave.
-/
namespace Sys2Proof.Laws

open Sys2Proof.Machine

/-- Folding what keeps a reading of the module keeps it. -/
theorem foldl_keep {α β : Type} (r : Module → β) (l : List α) (f : Module → α → Module) (hf : ∀ m a, r (f m a) = r m) (m : Module) :
    r (l.foldl f m) = r m := by
  induction l generalizing m with
  | nil => rfl
  | cons a l ih => rw [List.foldl_cons, ih, hf]

/-- Folding changes of listed parts changes only those. -/
theorem kb_foldl {α : Type} {ps : List Part} (l : List α) (f : Module → α → Module) (hf : ∀ m a, KeepsBut ps m (f m a)) (m : Module) :
    KeepsBut ps m (l.foldl f m) := by
  induction l generalizing m with
  | nil => exact keeps_refl _ _
  | cons a l ih => exact keeps_trans (hf m a) (ih _)

/-- A live core is one of the module's. -/
theorem live_lt {m : Module} {g : Nat} (h : (m.core g).live = true) : g < m.cores.length := by
  apply Classical.byContradiction
  intro hn
  have : m.core g = Core.reset := by
    simp [Module.core, List.getD_eq_getElem?_getD, List.getElem?_eq_none (Nat.le_of_not_lt hn)]
  simp [this, Core.reset, Core.live] at h

/-- A job that is not FREE is one of the module's sixteen. -/
theorem job_lt {m : Module} {j : Nat} (h : (m.job j).state ≠ 0) : j < m.jobs.length := by
  apply Classical.byContradiction
  intro hn
  have : m.job j = Job.free := by
    simp [Module.job, List.getD_eq_getElem?_getD, List.getElem?_eq_none (Nat.le_of_not_lt hn)]
  simp [this, Job.free] at h

/-- Answering commands shows only in the queues. -/
theorem keeps_answer (m : Module) (q : Nat) (c : Cmd) (a b d : Nat) : KeepsBut [.queues] m (m.answer q c a b d) := by
  simp [Module.answer, Module.pushResp, keeps_refl]

theorem keeps_answerAll (m : Module) (p : Cmd → Bool) (a b d : Nat) : KeepsBut [.queues] m (m.answerAll p a b d) := by
  unfold Module.answerAll
  exact kb_foldl _ _ (fun m q => kb_foldl _ _ (fun m c => keeps_answer _ _ _ _ _ _) m) m

theorem keeps_answerSteps (m : Module) (j st : Nat) : KeepsBut [.queues] m (m.answerSteps j st) := by
  unfold Module.answerSteps
  dsimp only
  have h1 : KeepsBut [.queues] m
      (if (m.job j).state = 3 then m.answerAll (fun c => c.opcode == 3 && c.job == j && c.state == 1) st (m.job j).step 0 else m) := by
    split
    · exact keeps_answerAll _ _ _ _ _
    · exact keeps_refl _ _
  by_cases h : st = stOk
  · rw [if_pos h]; exact h1
  · rw [if_neg h]; exact keeps_trans h1 (keeps_answerAll _ _ _ _ _)

@[simp] theorem kb_answerSteps {ps : List Part} {m n : Module} (j st : Nat) (h : Part.queues ∈ ps) :
    KeepsBut ps m (n.answerSteps j st) ↔ KeepsBut ps m n := kb_iff (keeps_answerSteps n j st) (by simpa using h)
@[simp] theorem kb_answerAll {ps : List Part} {m n : Module} (p : Cmd → Bool) (a b d : Nat) (h : Part.queues ∈ ps) :
    KeepsBut ps m (n.answerAll p a b d) ↔ KeepsBut ps m n := kb_iff (keeps_answerAll n p a b d) (by simpa using h)
@[simp] theorem answerSteps_jobs (m : Module) (j st : Nat) : (m.answerSteps j st).jobs = m.jobs := keeps_answerSteps m j st .jobs (by simp)
@[simp] theorem answerAll_jobs (m : Module) (p : Cmd → Bool) (a b d : Nat) : (m.answerAll p a b d).jobs = m.jobs :=
  keeps_answerAll m p a b d .jobs (by simp)
@[simp] theorem answerSteps_cores (m : Module) (j st : Nat) : (m.answerSteps j st).cores = m.cores := keeps_answerSteps m j st .cores (by simp)
@[simp] theorem answerAll_cores (m : Module) (p : Cmd → Bool) (a b d : Nat) : (m.answerAll p a b d).cores = m.cores :=
  keeps_answerAll m p a b d .cores (by simp)

/-- The record of a cancelled instruction is an event. -/
@[simp] theorem still_cancelRecord (fu : Fuses) (m : Module) (i : Inst) (st : Nat) : still (m.cancelRecord fu i st) = still m := by
  unfold Module.cancelRecord
  split
  · split <;> simp
  · rfl

@[simp] theorem cancelRecord_cores (fu : Fuses) (m : Module) (i : Inst) (st : Nat) : (m.cancelRecord fu i st).cores = m.cores :=
  (congrArg Module.cores (still_cancelRecord fu m i st) :)

/-- Spoiled slots change nothing of a core but bytes of its scratchpad and the count of free contents. -/
theorem spoil_eq (c : Core) (ss : List (Nat × Nat)) : ∃ k sp, c.spoil ss = { c with spoils := k, mem := { c.mem with sp := sp } } := by
  unfold Core.spoil
  dsimp only
  split
  · exact ⟨_, _, rfl⟩
  · exact ⟨_, _, rfl⟩

/-- With no slot to spoil a core is as it was. -/
@[simp] theorem spoil_nil (c : Core) : c.spoil [] = c := by simp [Core.spoil]

/-- Bytes written outside an address do not show there. -/
theorem get_spoils (f : Nat × Nat → List Byte) (hf : ∀ s, (f s).length = 4096) (a : Nat) :
    ∀ (ss : List (Nat × Nat)) (sp : Mem), (∀ s ∈ ss, s.2 ≠ a / 4096) →
      (ss.foldl (fun sp s => sp.write (4096 * s.2) (f s)) sp).get a = sp.get a := by
  intro ss
  induction ss with
  | nil => intro sp _; rfl
  | cons s ss ih =>
    intro sp h
    rw [List.foldl_cons, ih _ (fun t ht => h t (by simp [ht])), get_write, if_neg]
    rw [hf]
    have := h s (by simp)
    omega

/-- The bytes of FULL slots are never spoiled (R74). -/
theorem spoil_full (c : Core) (ss : List (Nat × Nat)) (a : Nat) (h : a / 4096 ∈ c.mem.full) :
    (c.spoil ss).mem.sp.get a = c.mem.sp.get a := by
  unfold Core.spoil
  dsimp only
  split
  · rfl
  · refine get_spoils _ (by simp) a _ _ (fun s hs e => ?_)
    simp only [List.mem_eraseDups, List.mem_filter] at hs
    rw [e] at hs
    simp [h] at hs

/-- A core that stops is the core with other scratchpad contents and nothing in flight. -/
theorem stop_eq (c : Core) (n : Nat) : ∃ k sp, c.stop n = { c with
    spoils := k, mem := { c.mem with sp := sp }, channels := List.replicate 8 [], tiles := [], gathers := [],
    fenceReq := c.fenceReq.map (fun r => { r with inst := none }),
    seq := { pc := n, loops := [], takes := [], wait := none, done := false } } := by
  obtain ⟨k, sp, h⟩ := spoil_eq c (c.tiles.flatMap Tile.places ++ c.gathers.flatMap PendGather.places)
  exact ⟨k, sp, by unfold Core.stop; rw [h]⟩

/-- What stops keeps the bytes of its FULL slots. -/
theorem stop_full (c : Core) (n a : Nat) (h : a / 4096 ∈ c.mem.full) : (c.stop n).mem.sp.get a = c.mem.sp.get a :=
  spoil_full c _ a h

/-- Ending what a core has in flight touches its core, response queues and reports. -/
theorem keeps_endFlight (fu : Fuses) (m : Module) (j st g : Nat) :
    KeepsBut [.cores, .od, .log, .report, .queues] m (m.endFlight fu j st g) := by
  unfold Module.endFlight
  rw [kb_onCore _ _ (by simp)]
  exact kb_foldl _ _ (fun m i => keeps_trans (keeps_mono (keeps_instrDone fu m i st) (by simp))
    (keeps_mono (keeps_still (still_cancelRecord fu _ i st)) (by simp))) m

theorem keeps_endFlights (fu : Fuses) (m : Module) (j st : Nat) :
    KeepsBut [.cores, .od, .log, .report, .queues] m (m.endFlights fu j st) := by
  unfold Module.endFlights
  exact kb_foldl _ _ (fun m g => keeps_endFlight fu m j st g) m

@[simp] theorem endFlight_jobs (fu : Fuses) (m : Module) (j st g : Nat) : (m.endFlight fu j st g).jobs = m.jobs :=
  keeps_endFlight fu m j st g .jobs (by simp)
@[simp] theorem endFlights_jobs (fu : Fuses) (m : Module) (j st : Nat) : (m.endFlights fu j st).jobs = m.jobs :=
  keeps_endFlights fu m j st .jobs (by simp)

/-- The parts that the end of a job or of a step changes. -/
def endParts : List Part := [.cores, .od, .log, .report, .queues, .jobs, .clusters, .residency, .orphans]

/-- The end of a job touches no memory, no die, no stack and no port. -/
theorem keeps_endJob (fu : Fuses) (m : Module) (j st : Nat) : KeepsBut endParts m (m.endJob fu j st) := by
  unfold Module.endJob
  dsimp only
  split
  · exact keeps_refl _ _
  · rw [kb_event _ _ _ (by simp [endParts]) (by simp [endParts]) (by simp [endParts]), kb_onJob _ _ (by simp [endParts])]
    have k : ∀ (n : Module) (cl : List Cluster), KeepsBut endParts n { n with clusters := cl } := by
      intro n cl p hp; cases p <;> simp_all [Part.same, endParts]
    have k2 : ∀ (n : Module) (r : List (Nat × Residency)) (o : List Cmd),
        KeepsBut endParts n { n with residency := r, host := { n.host with orphans := o } } := by
      intro n r o p hp; cases p <;> simp_all [Part.same, endParts]
    have h1 : KeepsBut endParts m (m.endFlights fu j stCancelled) := keeps_mono (keeps_endFlights _ _ _ _) (by simp [endParts])
    have h2 : KeepsBut endParts m ((m.endFlights fu j stCancelled).answerSteps j st) := by
      rw [kb_answerSteps _ _ (by simp [endParts])]; exact h1
    have h3 : KeepsBut endParts ((m.endFlights fu j stCancelled).answerSteps j st)
        (if (m.job j).state = 3 then ((m.endFlights fu j stCancelled).answerSteps j st).bump (odKey 0x3210 5) (if st = stPoison || st = stTimeout then 1 else 0)
          else (m.endFlights fu j stCancelled).answerSteps j st) := by
      split
      · rw [kb_bump _ _ (by simp [endParts])]; exact keeps_refl _ _
      · exact keeps_refl _ _
    have h4 : ∀ n : Module, KeepsBut endParts n ((m.job j).cores.foldl (fun m g => m.onCore g Core.leave) n) := fun n =>
      kb_foldl _ _ (fun m g => by rw [kb_onCore _ _ (by simp [endParts])]; exact keeps_refl _ _) n
    refine keeps_trans ?_ (k2 _ _ _)
    rw [kb_answerAll _ _ _ _ (by simp [endParts])]
    exact keeps_trans (keeps_trans (keeps_trans h2 h3) (h4 _)) (k _ _)

/-- A job that ends is ENDED with its status and holds no core. -/
theorem endJob_job (fu : Fuses) (m : Module) (j st : Nat) (h : (m.job j).state = 2 ∨ (m.job j).state = 3) :
    ((m.endJob fu j st).job j).state = 4 ∧ ((m.endJob fu j st).job j).endStatus = st ∧ ((m.endJob fu j st).job j).cores = [] := by
  have hl : j < m.jobs.length := job_lt (by rcases h with h | h <;> simp [h])
  have hb : ((m.job j).state != 2 && (m.job j).state != 3) = false := by rcases h with h | h <;> simp [h]
  unfold Module.endJob
  simp only [hb, Bool.false_eq_true, if_false, job_of_event]
  rw [job_onJob_self]
  · exact ⟨rfl, rfl, rfl⟩
  · dsimp only
    rw [answerAll_jobs]
    dsimp only
    rw [foldl_keep Module.jobs _ (fun m g => m.onCore g Core.leave) (fun m g => rfl)]
    split <;> simpa using hl

/-- A property of a core that stopping it and its leaving a job keep. -/
def CoreInv (P : Core → Prop) : Prop := (∀ c n, P c → P (c.stop n)) ∧ ∀ c, P c → P c.leave

/-- A change of one core that keeps a property of it keeps it for all. -/
theorem forall_onCore {P : Core → Prop} (m : Module) (g : Nat) (f : Core → Core) (hf : ∀ c, P c → P (f c)) (h : ∀ c ∈ m.cores, P c) :
    ∀ c ∈ (m.onCore g f).cores, P c := by
  have : ∀ (l : List Core) (i : Nat), (∀ c ∈ l, P c) → ∀ c ∈ modifyAt f l i, P c := by
    intro l
    induction l with
    | nil => intro i h; simp [modifyAt]
    | cons a l ih =>
      intro i h
      cases i with
      | zero =>
        intro c hc
        simp only [modifyAt, List.mem_cons] at hc
        rcases hc with rfl | hc
        · exact hf _ (h a (by simp))
        · exact h c (by simp [hc])
      | succ i =>
        intro c hc
        simp only [modifyAt, List.mem_cons] at hc
        rcases hc with rfl | hc
        · exact h _ (by simp)
        · exact ih i (fun x hx => h x (by simp [hx])) c hc
  exact this _ _ h

/-- Completion records, and the records of what was cancelled, touch no core. -/
theorem foldInstr_cores (fu : Fuses) (l : List Inst) (st : Nat) (m : Module) :
    (l.foldl (fun (m : Module) i => (m.instrDone fu i st).cancelRecord fu i st) m).cores = m.cores :=
  foldl_keep Module.cores l _ (fun m i => by rw [cancelRecord_cores, instrDone_cores]) m

/-- Ending instructions in flight keeps it. -/
theorem endFlight_inv {P : Core → Prop} (hP : CoreInv P) (fu : Fuses) (m : Module) (j st g : Nat) (h : ∀ c ∈ m.cores, P c) :
    ∀ c ∈ (m.endFlight fu j st g).cores, P c := by
  unfold Module.endFlight
  exact forall_onCore _ g _ (fun c hc => hP.1 c _ hc) (by rw [foldInstr_cores]; exact h)

theorem endFlights_inv {P : Core → Prop} (hP : CoreInv P) (fu : Fuses) (m : Module) (j st : Nat) (h : ∀ c ∈ m.cores, P c) :
    ∀ c ∈ (m.endFlights fu j st).cores, P c := by
  unfold Module.endFlights
  generalize (m.job j).cores = l
  induction l generalizing m with
  | nil => exact h
  | cons a l ih => exact ih _ (endFlight_inv hP fu m j st a h)

theorem foldLeave_inv {P : Core → Prop} (hP : CoreInv P) (l : List Nat) (m : Module) (h : ∀ c ∈ m.cores, P c) :
    ∀ c ∈ (l.foldl (fun m g => m.onCore g Core.leave) m).cores, P c := by
  induction l generalizing m with
  | nil => exact h
  | cons a l ih => exact ih _ (forall_onCore _ _ _ hP.2 h)

theorem endJob_cores (fu : Fuses) (m : Module) (j st : Nat) : (m.endJob fu j st).cores = m.cores ∨
    (m.endJob fu j st).cores = ((m.job j).cores.foldl (fun m g => m.onCore g Core.leave)
      (if (m.job j).state = 3 then ((m.endFlights fu j stCancelled).answerSteps j st).bump (odKey 0x3210 5) (if st = stPoison || st = stTimeout then 1 else 0)
          else (m.endFlights fu j stCancelled).answerSteps j st)).cores := by
  unfold Module.endJob
  dsimp only
  split
  · exact .inl rfl
  · right
    rw [event_cores]
    unfold Module.onJob
    dsimp only
    rw [answerAll_cores]

/-- Ending a job keeps a property that stopping and leaving keep. -/
theorem endJob_inv {P : Core → Prop} (hP : CoreInv P) (fu : Fuses) (m : Module) (j st : Nat) (h : ∀ c ∈ m.cores, P c) :
    ∀ c ∈ (m.endJob fu j st).cores, P c := by
  rcases endJob_cores fu m j st with e | e
  · rw [e]; exact h
  · rw [e]
    apply foldLeave_inv hP
    have : ∀ c ∈ ((m.endFlights fu j stCancelled).answerSteps j st).cores, P c := by
      rw [answerSteps_cores]; exact endFlights_inv hP fu m j _ h
    split <;> simpa using this

theorem endJobs_inv {P : Core → Prop} (hP : CoreInv P) (fu : Fuses) (st : Nat) (l : List Nat) (m : Module) (h : ∀ c ∈ m.cores, P c) :
    ∀ c ∈ (l.foldl (fun (m : Module) j => m.endJob fu j st) m).cores, P c := by
  induction l generalizing m with
  | nil => exact h
  | cons a l ih => exact ih _ (endJob_inv hP fu m a st h)

/-- The end of a job changes its context only. -/
theorem endJob_jobs (fu : Fuses) (m : Module) (j st : Nat) : ∃ f : Job → Job, (m.endJob fu j st).jobs = modifyAt f m.jobs j ∨ (m.endJob fu j st).jobs = m.jobs := by
  unfold Module.endJob
  dsimp only
  split
  · exact ⟨id, .inr rfl⟩
  · refine ⟨fun b => { b with
      state := 4, endStatus := st, cores := [], fetches := [], descs := b.descs.map ScaleDesc.dropStep, run := b.run.idle }, .inl ?_⟩
    rw [event_jobs]
    unfold Module.onJob
    dsimp only
    rw [answerAll_jobs]
    dsimp only
    rw [foldl_keep Module.jobs _ (fun m g => m.onCore g Core.leave) (fun m g => rfl)]
    apply congrArg (fun l => modifyAt _ l j)
    split <;> simp
theorem endJob_other (fu : Fuses) (m : Module) (j st k : Nat) (h : k ≠ j) : (m.endJob fu j st).job k = m.job k := by
  obtain ⟨f, e | e⟩ := endJob_jobs fu m j st
  · simp [Module.job, e, List.getD_eq_getElem?_getD, modifyAt_getElem?, h]
  · simp [Module.job, e]

/-- Ending a list of jobs ends each that runs. -/
theorem endJobs_job (fu : Fuses) (st j : Nat) (l : List Nat) (m : Module) (hnd : l.Nodup) :
    let n := l.foldl (fun (m : Module) j => m.endJob fu j st) m
    (j ∉ l → n.job j = m.job j) ∧
    (j ∈ l → (m.job j).state = 2 ∨ (m.job j).state = 3 → (n.job j).state = 4 ∧ (n.job j).endStatus = st ∧ (n.job j).cores = []) := by
  induction l generalizing m with
  | nil => simp
  | cons a l ih =>
    rw [List.nodup_cons] at hnd
    obtain ⟨i1, i2⟩ := ih (m.endJob fu a st) hnd.2
    simp only [List.foldl_cons]
    refine ⟨fun h => ?_, fun h hs => ?_⟩
    · simp only [List.mem_cons, not_or] at h
      rw [i1 h.2, endJob_other _ _ _ _ _ h.1]
    · by_cases e : j = a
      · subst e
        rw [i1 hnd.1]; exact endJob_job fu m j st hs
      · rw [endJob_other _ _ _ _ _ e] at i2
        exact i2 (by simpa [e] using h) hs

/-- The events of ended movements keep what events keep. -/
theorem movesEnded_keep {β : Type} (r : Module → β) (hr : ∀ fu m c l, r (Module.event fu m c l) = r m) (fu : Fuses) (m : Module) (g st : Nat) :
    r (m.movesEnded fu g st) = r m := by
  have h1 : ∀ m i ch, r (Module.moveEnded fu m i ch st) = r m := by
    intro m i ch
    unfold Module.moveEnded
    split
    · exact hr _ _ _ _
    · rfl
  have h2 : ∀ m : Module, r (((m.core g).channels.zipIdx).foldl (fun (m : Module) p =>
      p.1.foldl (fun (m : Module) v => m.moveEnded fu v.inst p.2 st) m) m) = r m :=
    fun m => foldl_keep r _ _ (fun m p => foldl_keep r _ _ (fun m v => h1 m _ _) m) m
  unfold Module.movesEnded
  dsimp only
  split
  · rw [h1, h2]
  · exact h2 m

/-- An ended movement writes an event at most. -/
theorem keeps_moveEnded (fu : Fuses) (m : Module) (i : Inst) (ch st : Nat) :
    KeepsBut [.od, .log, .report] m (m.moveEnded fu i ch st) := by
  unfold Module.moveEnded
  split
  · simp [keeps_refl]
  · exact keeps_refl _ _

/-- Ended movements write events only. -/
theorem keeps_movesEnded (fu : Fuses) (m : Module) (g st : Nat) : KeepsBut [.od, .log, .report] m (m.movesEnded fu g st) := by
  have h1 := fun (m : Module) (i : Inst) (ch : Nat) => keeps_moveEnded fu m i ch st
  have h2 : ∀ m : Module, KeepsBut [.od, .log, .report] m (((m.core g).channels.zipIdx).foldl (fun (m : Module) p =>
      p.1.foldl (fun (m : Module) v => m.moveEnded fu v.inst p.2 st) m) m) :=
    fun m => kb_foldl _ _ (fun m p => kb_foldl _ _ (fun m v => h1 m _ _) m) m
  unfold Module.movesEnded
  dsimp only
  split
  · exact keeps_trans (h2 m) (h1 _ _ _)
  · exact h2 m

/-- The copies of a multicast that end touch cores and report. -/
theorem keeps_endCopies (fu : Fuses) (g : Nat) (m : Module) (h : Nat) :
    KeepsBut [.od, .log, .report, .queues, .cores] m (m.endCopies fu g h) := by
  unfold Module.endCopies
  dsimp only
  split
  · exact keeps_refl _ _
  · rw [kb_onCore _ _ (by simp)]
    exact kb_foldl _ _ (fun m v => keeps_trans (keeps_mono (keeps_moveEnded fu m _ _ _) (by simp))
      (keeps_mono (keeps_instrDone fu _ _ _) (by simp))) m

theorem fencedP : CoreInv (fun c => c.fenced = true ∧ c.origin = 1) := by
  have h : ∀ (c : Core) n, c.fenced = true ∧ c.origin = 1 → (c.stop n).fenced = true ∧ (c.stop n).origin = 1 := by
    intro c n hc
    obtain ⟨k, sp, e⟩ := stop_eq c n
    rw [e]; exact hc
  exact ⟨h, fun c hc => h c 0 hc⟩

/-- What a dead link comes to (R25). -/
theorem fenceAll_ok (fu : Fuses) (m : Module) :
    (∀ c ∈ (m.fenceAll fu).cores, c.fenced = true ∧ c.origin = 1) ∧ (m.fenceAll fu).dies = m.dies ∧ (m.fenceAll fu).links = m.links ∧
    ∀ j, j < 16 → (m.job j).state = 2 ∨ (m.job j).state = 3 →
      ((m.fenceAll fu).job j).state = 4 ∧ ((m.fenceAll fu).job j).endStatus = stFenced ∧ ((m.fenceAll fu).job j).cores = [] := by
  unfold Module.fenceAll
  dsimp only
  generalize hX : List.foldl _ (List.foldl _ m _) _ = X
  have hk : KeepsBut [.od, .log, .report, .queues, .cores] m X := by
    rw [← hX]
    refine keeps_trans (kb_foldl _ _ (fun m g => kb_foldl _ _ (fun m h => keeps_endCopies fu g m h) m) m)
      (kb_foldl _ _ (fun m g => ?_) _)
    exact keeps_trans (keeps_mono (keeps_movesEnded fu m g stFenced) (by simp))
      (kb_foldl _ _ (fun m i => keeps_mono (keeps_instrDone fu m i stFenced) (by simp)) _)
  have hkE : ∀ (l : List Nat) (n : Module), KeepsBut endParts n (l.foldl (fun (m : Module) j => m.endJob fu j stFenced) n) :=
    fun l n => kb_foldl l _ (fun m j => keeps_endJob fu m j stFenced) n
  refine ⟨?_, ?_, ?_, ?_⟩
  · rw [checkCores_cores]
    apply endJobs_inv fencedP
    intro c hc
    simp only [List.mem_map] at hc
    obtain ⟨a, _, rfl⟩ := hc
    exact ⟨rfl, rfl⟩
  · rw [checkCores_dies]
    refine (hkE _ _ .dies (by simp [endParts])).trans ?_
    exact hk .dies (by simp)
  · rw [checkCores_links]
    refine (hkE _ _ .links (by simp [endParts])).trans ?_
    exact hk .links (by simp)
  · intro j hj hs
    rw [job_of_checkCores]
    refine (endJobs_job fu stFenced j (List.range 16) _ List.nodup_range).2 (by simpa using hj) ?_
    have hjobs : X.jobs = m.jobs := hk .jobs (by simp)
    simpa [Module.job, hjobs] using hs

end Sys2Proof.Laws
end

