-- ==== Sys2Proof/Laws/Store.lean ====
section
/-!
SUPPORT. What the store paths can change: bytes and poison of the three spaces, and nothing of a core but those (`Data`).
-/
namespace Sys2Proof.Laws

open Sys2Proof.Machine

/-- A core without the bytes and the poison of its scratchpad and what its rows under remap hold in their spares. -/
def shell (c : Core) : Core := { c with mem := { c.mem with sp := [], poison := [], pending := [] } }

/-- What a shell shows. -/
theorem shell_channels {c d : Core} (h : shell c = shell d) : c.channels = d.channels :=
  (congrArg Core.channels h : (shell c).channels = (shell d).channels)
theorem shell_full {c d : Core} (h : shell c = shell d) : c.mem.full = d.mem.full :=
  (congrArg (fun c : Core => c.mem.full) h : (shell c).mem.full = (shell d).mem.full)
theorem shell_seq {c d : Core} (h : shell c = shell d) : c.seq = d.seq := (congrArg Core.seq h : (shell c).seq = (shell d).seq)
theorem shell_tiles {c d : Core} (h : shell c = shell d) : c.tiles = d.tiles :=
  (congrArg Core.tiles h : (shell c).tiles = (shell d).tiles)

/-- Only the listed parts changed; of the cores, only scratchpad bytes and poison. -/
structure Data (ps : List Part) (m n : Module) : Prop where
  keeps : KeepsBut ps m n
  len : n.cores.length = m.cores.length
  core : ∀ h, shell (n.core h) = shell (m.core h)

/-- The parts that hold data. -/
def dataParts : List Part := [.cores, .clusters, .hbm, .hbmPoison]

theorem data_refl (ps : List Part) (m : Module) : Data ps m m := ⟨keeps_refl _ _, rfl, fun _ => rfl⟩

theorem data_trans {ps : List Part} {a b c : Module} (h1 : Data ps a b) (h2 : Data ps b c) : Data ps a c :=
  ⟨keeps_trans h1.keeps h2.keeps, h2.len.trans h1.len, fun h => (h2.core h).trans (h1.core h)⟩

theorem data_mono {ps qs : List Part} {a b : Module} (h : Data ps a b) (hs : ∀ p ∈ ps, p ∈ qs) : Data qs a b :=
  ⟨keeps_mono h.keeps hs, h.len, h.core⟩

/-- A fold of such changes. -/
theorem data_foldl {ps : List Part} {α : Type} (l : List α) (f : Module → α → Module) (hf : ∀ m a, Data ps m (f m a))
    (m : Module) : Data ps m (l.foldl f m) := by
  induction l generalizing m with
  | nil => exact data_refl _ _
  | cons a l ih => exact data_trans (hf m a) (ih _)

/-- A fold that carries a count beside the module. -/
theorem data_foldl_pair {ps : List Part} {α : Type} (l : List α) (f : Module × Nat → α → Module × Nat)
    (hf : ∀ p a, Data ps p.1 (f p a).1) (p : Module × Nat) : Data ps p.1 (l.foldl f p).1 := by
  induction l generalizing p with
  | nil => exact data_refl _ _
  | cons a l ih => exact data_trans (hf p a) (ih _)

/-- A change of the data of one core. -/
theorem data_onCore (m : Module) (g : Nat) (f : Core → Core) (hf : ∀ c, shell (f c) = shell c) : Data dataParts m (m.onCore g f) := by
  refine ⟨by simp [dataParts, keeps_refl], by simp, fun h => ?_⟩
  rw [core_onCore]
  split
  · rename_i e; rw [hf, e.1]
  · rfl

/-- A change of a part that is not the cores. -/
theorem data_of {ps : List Part} {m n : Module} (h : KeepsBut ps m n) (hc : n.cores = m.cores) : Data ps m n :=
  ⟨h, by rw [hc], fun g => by simp [Module.core, hc]⟩

theorem data_bump (m : Module) (k n : Nat) : Data [.od] m (m.bump k n) := data_of (by simp [keeps_refl]) rfl

theorem data_onJob (m : Module) (j : Nat) (f : Job → Job) : Data [.jobs] m (m.onJob j f) := data_of (by simp [keeps_refl]) rfl

theorem data_event (fu : Fuses) (m : Module) (c : Nat) (l : List Nat) : Data [.od, .log, .report] m (m.event fu c l) :=
  data_of (by simp [keeps_refl]) (by simp)

/-- Bytes of a space stored. -/
theorem data_storeAt (m : Module) (j g sp a : Nat) (bs : List Byte) (bad : Bool) : Data dataParts m (m.storeAt j g sp a bs bad) := by
  unfold Module.storeAt
  split
  · exact data_onCore m g _ (fun _ => rfl)
  · split
    · exact data_of (by simp [dataParts, keeps_refl]) rfl
    · refine data_of ?_ rfl
      intro p hp
      cases p <;> simp_all [Part.same, dataParts]

/-- Poison cleared from what was written whole. -/
theorem data_cleanCovered (m : Module) (j g sp : Nat) (l k : List Nat) : Data dataParts m (m.cleanCovered j g sp l k) := by
  unfold Module.cleanCovered
  dsimp only
  split
  · exact data_onCore m g _ (fun _ => rfl)
  · split
    · exact data_of (by simp [dataParts, keeps_refl]) rfl
    · refine data_of ?_ rfl
      intro p hp
      cases p <;> simp_all [Part.same, dataParts]

/-- An element's code stored. -/
theorem data_putCode (m : Module) (o : Operand) (e : Int) (c : Nat) (b : Bool) : Data dataParts m (m.putCode o e c b) := by
  unfold Module.putCode
  dsimp only
  split <;> exact data_storeAt ..

theorem data_putScale (m : Module) (o : Operand) (e : Int) (c : Nat) (b : Bool) : Data dataParts m (m.putScale o e c b) :=
  data_storeAt ..

/-- An element written under its buffer's combine mode. -/
theorem data_putElem (m : Module) (o : Operand) (e : Int) (c : Nat) (b : Bool) : Data dataParts m (m.putElem o e c b).1 := by
  unfold Module.putElem
  split
  · split <;> exact data_putCode ..
  · exact data_putCode ..

/-- What an output stored through the store path may change. -/
def outParts : List Part := .od :: .jobs :: dataParts

/-- Data that changes is among what an output changes. -/
theorem data_up {a b : Module} (h : Data dataParts a b) : Data outParts a b := data_mono h (by simp_all [outParts])

/-- A count is among what an output changes. -/
theorem data_count (m : Module) (k n : Nat) : Data outParts m (m.bump k n) := data_mono (data_bump m k n) (by simp [outParts])

/-- A count of what may be nothing. -/
theorem data_countIf (m : Module) (k n : Nat) : Data outParts m (if n = 0 then m else m.bump k n) := by
  split
  · exact data_refl ..
  · exact data_count ..

/-- A granule of a row stored. -/
theorem data_putGranule (m : Module) (o : Operand) (rb r : Nat) (bs : List Byte) (q : Nat) (b : Bool) :
    Data dataParts m (m.putGranule o rb r bs q b) := data_storeAt ..

/-- A row stored. -/
theorem data_putRow (m : Module) (o : Operand) (rb r : Nat) (row : Row) : Data outParts m (m.putRow o rb r row) := by
  unfold Module.putRow
  refine data_trans (data_up (data_foldl _ _ (fun m p => ?_) m)) (data_countIf ..)
  split
  · exact data_putGranule ..
  · exact data_refl ..

/-- Codes stored at places. -/
theorem data_putPlaces (m : Module) (o : Operand) (cs : List ((Nat × Nat) × Nat × Nat × Bool)) :
    Data outParts m (m.putPlaces o cs) := by
  have h := data_foldl_pair (ps := dataParts) cs (fun (acc : Module × Nat) c =>
    let e := o.elemOff [c.1.2, c.1.1]
    let p := acc.1.putElem o e c.2.1 c.2.2.2
    (if o.fmt.isMx then p.1.putScale o e c.2.2.1 c.2.2.2 else p.1, acc.2 + p.2)) (fun p c => by
      dsimp only
      split
      · exact data_trans (data_putElem ..) (data_putScale ..)
      · exact data_putElem ..) (m, 0)
  unfold Module.putPlaces
  dsimp only
  split
  · exact data_trans (data_up h) (data_countIf ..)
  · exact data_trans (data_trans (data_up h) (data_countIf ..)) (data_up (data_cleanCovered ..))

/-- Converted elements stored, with their counts. -/
theorem data_putEncoded (m : Module) (o : Operand) (x : Encoded) (b : Bool) :
    Data (.od :: dataParts) m (m.putEncoded o x b) := by
  have up : ∀ {a b : Module}, Data dataParts a b → Data (.od :: dataParts) a b := fun h => data_mono h (by simp_all)
  have od : ∀ (m : Module) (k n : Nat), Data (.od :: dataParts) m (m.bump k n) := fun m k n => data_mono (data_bump m k n) (by simp)
  unfold Module.putEncoded
  dsimp only
  refine data_trans ?_ (od ..)
  have h1 := data_foldl_pair x.codes
    (fun (acc : Module × Nat) c => ((acc.1.putElem o c.1 c.2 b).1, acc.2 + (acc.1.putElem o c.1 c.2 b).2))
    (fun p c => data_putElem p.1 o c.1 c.2 b) (m, 0)
  have h2 := fun (n : Module) => data_foldl x.scales (fun (m : Module) c => m.putScale o c.1 c.2 b) (fun m c => data_putScale ..) n
  split
  · exact up (data_trans h1 (h2 _))
  · exact up (data_trans (data_trans h1 (h2 _)) (data_cleanCovered ..))

/-- A tensor's scale descriptor folded. -/
theorem data_foldDesc (m : Module) (o : Operand) (mx : Option Int) (a b : Nat) : Data [.jobs] m (m.foldDesc o mx a b) := by
  unfold Module.foldDesc
  split
  · exact data_onJob ..
  · exact data_refl ..

/-- A packed element stored. -/
theorem data_putPacked (m : Module) (o : Operand) (p : Packing) (a b c d : Nat) (e : Bool) :
    Data dataParts m (m.putPacked o p a b c d e) := by
  unfold Module.putPacked
  split
  · exact data_refl ..
  · dsimp only
    split <;> exact data_storeAt ..

theorem data_putFid (m : Module) (o : Operand) (p : Packing) (es : List FidElem) (k : Nat → Nat → Bool) (n : Nat → Nat → Nat) :
    Data dataParts m (m.putFid o p es k n) := by
  unfold Module.putFid
  refine data_trans (data_foldl _ _ (fun m e => ?_) m) (data_cleanCovered ..)
  dsimp only
  split
  · exact data_trans (data_putPacked ..) (data_storeAt ..)
  · exact data_putPacked ..

theorem data_storeDetect (m : Module) (o : Operand) (es : List FidElem) (prior : Nat) (final : Bool) :
    Data outParts m (m.storeDetect o es prior final) := by
  unfold Module.storeDetect
  dsimp only
  exact data_trans (data_up (data_trans (data_trans (data_foldl _ _ (fun m t => data_storeAt ..) m)
    (data_foldl _ _ (fun m t => data_storeAt ..) _)) (data_putFid ..))) (data_count ..)

theorem data_storeApply (m : Module) (o : Operand) (es : List FidElem) : Data outParts m (m.storeApply o es) := by
  unfold Module.storeApply
  split
  · exact data_refl ..
  · exact data_trans (data_up (data_putFid ..)) (data_count ..)

/-- An output converted and stored. -/
theorem data_writeOut (m : Module) (o : Operand) (es : List OutElem) (prior : Nat) (final : Bool) :
    Data outParts m (m.writeOut o es prior final) := by
  have od := data_count
  have fd : ∀ (m : Module) (mx : Option Int) (a b : Nat), Data outParts m (m.foldDesc o mx a b) :=
    fun m mx a b => data_mono (data_foldDesc m o mx a b) (by simp [outParts])
  unfold Module.writeOut
  dsimp only
  split
  · exact data_trans (data_trans (data_trans (data_mono (data_putEncoded ..) (by simp_all [outParts])) (fd ..)) (od ..)) (od ..)
  · split
    · exact data_trans (data_trans (data_trans (data_storeDetect ..) (fd ..)) (od ..)) (od ..)
    · exact data_trans (data_trans (data_trans (data_storeApply ..) (fd ..)) (od ..)) (od ..)

/-- A weight-gradient slice released touches no memory. -/
theorem data_releaseSlice (m : Module) (o : Operand) (es : List OutElem) : Data [.od, .jobs] m (m.releaseSlice o es) := by
  have od : ∀ (m : Module) (k n : Nat), Data [.od, .jobs] m (m.bump k n) := fun m k n => data_mono (data_bump m k n) (by simp)
  unfold Module.releaseSlice
  dsimp only
  split
  · exact data_refl ..
  · exact data_trans (data_trans (data_trans (data_trans (data_trans (data_trans (data_mono (data_onJob ..) (by simp))
      (data_mono (data_foldDesc ..) (by simp))) (od ..)) (od ..)) (od ..)) (od ..)) (od ..)

/-- A movement's item added to the stored bytes. -/
theorem data_sumItem (m : Module) (o : Operand) (x : MoveItem) : Data outParts m (m.sumItem o x) := by
  unfold Module.sumItem
  dsimp only
  split
  · exact data_up (data_storeAt ..)
  · exact data_trans (data_up (data_storeAt ..)) (data_count ..)

/-- A movement's item stored. -/
theorem data_putItem (m : Module) (o : Operand) (x : MoveItem) : Data outParts m (m.putItem o x) := by
  unfold Module.putItem
  split
  · split
    · exact data_sumItem ..
    · exact data_up (data_storeAt ..)
  · exact data_up (data_storeAt ..)

/-! ### Sets of slots -/

theorem mem_insertNat (l : List Nat) (k x : Nat) : x ∈ insertNat l k ↔ x = k ∨ x ∈ l := by
  simp only [insertNat, List.mem_append, List.mem_filter, List.mem_cons, decide_eq_true_eq, List.not_mem_nil, or_false]
  grind

/-- What setting slots FULL comes to. -/
theorem mem_insertAll (ks l : List Nat) (x : Nat) : x ∈ insertAll l ks ↔ x ∈ l ∨ x ∈ ks := by
  unfold insertAll
  induction ks generalizing l with
  | nil => simp
  | cons k ks ih => simp only [List.foldl_cons, ih, mem_insertNat, List.mem_cons]; grind

end Sys2Proof.Laws
end

