-- ==== Sys2Proof/Laws/Rope.lean ====
section
/-!
SUPPORT. The rope and the coil store: what sending frames, the end of a step and writing an object leave as they were.
-/
namespace Sys2Proof.Laws

open Sys2Proof.Machine

/-- What a command comes to, weakened. -/
theorem goes_mono {s : State} {c : Instr} {P Q : Module → Prop} (h : Goes s c P) (hq : ∀ n, P n → Q n) : Goes s c Q := by
  obtain ⟨t, a, b, c, d⟩ := h; exact ⟨t, a, b, c, hq _ d⟩

/-- Either of two ways. -/
theorem keeps_ite {ps : List Part} {m a b : Module} {c : Prop} [Decidable c] (h1 : KeepsBut ps m a) (h2 : KeepsBut ps m b) :
    KeepsBut ps m (if c then a else b) := by
  split <;> assumption

theorem job_onRun_self (m : Module) (j : Nat) (f : Run → Run) (h : j < m.jobs.length) :
    (m.onRun j f).job j = { m.job j with run := f (m.job j).run } := by
  unfold Module.onRun; rw [job_onJob_self _ _ _ h]
theorem job_onRun_other (m : Module) (j k : Nat) (f : Run → Run) (h : k ≠ j) : (m.onRun j f).job k = m.job k := by
  unfold Module.onRun; rw [job_onJob_other _ _ _ _ h]
theorem onJob_len (m : Module) (j : Nat) (f : Job → Job) : (m.onJob j f).jobs.length = m.jobs.length := by simp [Module.onJob]
theorem onRun_len (m : Module) (j : Nat) (f : Run → Run) : (m.onRun j f).jobs.length = m.jobs.length := by
  simp [Module.onRun, Module.onJob]

/-! ### Regions of a job -/

/-- Writing regions changes memory and, of its job, the optimizer state and the factors. -/
def Same (j : Nat) (m n : Module) : Prop :=
  OtherJobs j m n ∧ n.jobs.length = m.jobs.length ∧ KeepsBut [.jobs, .hbm, .hbmPoison] m n ∧
  ∃ o f, n.job j = { m.job j with opt := o, factored := f }
theorem same_refl (j : Nat) (m : Module) : Same j m m := ⟨fun _ _ => rfl, rfl, keeps_refl _ _, _, _, rfl⟩
theorem same_trans {j : Nat} {a b c : Module} (h : Same j a b) (k : Same j b c) : Same j a c := by
  obtain ⟨h1, h2, h3, o, f, h4⟩ := h
  obtain ⟨k1, k2, k3, o', f', k4⟩ := k
  exact ⟨fun i hi => (k1 i hi).trans (h1 i hi), k2.trans h2, keeps_trans h3 k3, o', f', by rw [k4, h4]⟩
theorem same_onJob (m : Module) (j : Nat) (f : Job → Job) (hf : ∀ b, ∃ o x, f b = { b with opt := o, factored := x }) :
    Same j m (m.onJob j f) := by
  refine ⟨fun i hi => by rw [job_onJob_other _ _ _ _ hi], onJob_len _ _ _, keeps_mono (keeps_onJob _ _ _) (by simp), ?_⟩
  by_cases h : j < m.jobs.length
  · rw [job_onJob_self _ _ _ h]; exact hf _
  · refine ⟨(m.job j).opt, (m.job j).factored, ?_⟩
    simp [Module.job, Module.onJob, h]
theorem same_fold {α : Type} (j : Nat) (l : List α) (f : Module → α → Module) (hf : ∀ a x, Same j a (f a x)) (a : Module) :
    Same j a (l.foldl f a) := by
  induction l generalizing a with
  | nil => exact same_refl _ _
  | cons x l ih => exact same_trans (hf a x) (ih _)
theorem same_stateAt (m : Module) (j a n c : Nat) : Same j m (m.putStateAt j a n c) := by
  unfold Module.putStateAt
  split
  · exact ⟨fun _ _ => rfl, rfl, by intro p hp; cases p <;> simp_all [Part.same], _, _, rfl⟩
  · exact same_onJob _ _ _ (fun b => ⟨_, _, rfl⟩)
theorem same_storeAt (m : Module) (j a : Nat) (bs : List Byte) (bad : Bool) : Same j m (m.storeAt j 0 2 a bs bad) := by
  unfold Module.storeAt
  rw [if_neg (by decide), if_neg (by decide)]
  exact ⟨fun _ _ => rfl, rfl, by intro p hp; cases p <;> simp_all [Part.same], _, _, rfl⟩

/-! ### The rope -/

theorem keeps_onRope (m : Module) (f : Rope → Rope) : KeepsBut [.rope] m (m.onRope f) := by
  intro q hq; cases q <;> simp_all [Part.same, Module.onRope]
@[simp] theorem kb_onRope {ps : List Part} {m n : Module} (f : Rope → Rope) (h : Part.rope ∈ ps) :
    KeepsBut ps m (n.onRope f) ↔ KeepsBut ps m n := kb_iff (keeps_onRope n f) (by simpa using h)
theorem keeps_onBond (m : Module) (b : Nat) (f : Bond → Bond) : KeepsBut [.rope] m (m.onBond b f) := keeps_onRope _ _
@[simp] theorem kb_onBond {ps : List Part} {m n : Module} (b : Nat) (f : Bond → Bond) (h : Part.rope ∈ ps) :
    KeepsBut ps m (n.onBond b f) ↔ KeepsBut ps m n := kb_iff (keeps_onBond n b f) (by simpa using h)

theorem keeps_sendBond (m : Module) (b : Nat) (f : Frame) : KeepsBut [.hawsers] m (m.sendBond b f) := by
  unfold Module.sendBond; split
  · exact keeps_refl _ _
  · simp [keeps_refl]
@[simp] theorem kb_sendBond {ps : List Part} {m n : Module} (b : Nat) (f : Frame) (h : Part.hawsers ∈ ps) :
    KeepsBut ps m (n.sendBond b f) ↔ KeepsBut ps m n := kb_iff (keeps_sendBond n b f) (by simpa using h)

theorem keeps_sendOthers (m : Module) (e : Nat) (f : Frame) : KeepsBut [.hawsers] m (m.sendOthers e f) := by
  unfold Module.sendOthers
  exact kb_foldl _ _ (fun m b => keeps_sendBond _ _ _) _
@[simp] theorem kb_sendOthers {ps : List Part} {m n : Module} (e : Nat) (f : Frame) (h : Part.hawsers ∈ ps) :
    KeepsBut ps m (n.sendOthers e f) ↔ KeepsBut ps m n := kb_iff (keeps_sendOthers n e f) (by simpa using h)
@[simp] theorem kb_sendAbort {ps : List Part} {m n : Module} (e c : Nat) (h : Part.hawsers ∈ ps) :
    KeepsBut ps m (n.sendAbort e c) ↔ KeepsBut ps m n := kb_sendOthers _ _ h

theorem keeps_forward (m : Module) (f : Frame) : KeepsBut [.hawsers] m (m.forwardDown f) := by
  unfold Module.forwardDown
  exact kb_foldl _ _ (fun m b => keeps_sendBond _ _ _) _
@[simp] theorem kb_forward {ps : List Part} {m n : Module} (f : Frame) (h : Part.hawsers ∈ ps) :
    KeepsBut ps m (n.forwardDown f) ↔ KeepsBut ps m n := kb_iff (keeps_forward n f) (by simpa using h)

theorem keeps_setRopeState (fu : Fuses) (m : Module) (v : Nat) : KeepsBut [.od, .log, .report] m (m.setRopeState fu v) := by
  unfold Module.setRopeState
  exact keeps_ite (keeps_refl _ _) (by simp [keeps_refl])
@[simp] theorem kb_setRopeState {ps : List Part} {m n : Module} (fu : Fuses) (v : Nat) (h1 : Part.od ∈ ps) (h2 : Part.log ∈ ps)
    (h3 : Part.report ∈ ps) : KeepsBut ps m (n.setRopeState fu v) ↔ KeepsBut ps m n :=
  kb_iff (keeps_setRopeState fu n v) (by simp [h1, h2, h3])

theorem keeps_onBucket (m : Module) (j k : Nat) (f : Bucket → Bucket) : KeepsBut [.jobs] m (m.onBucket j k f) := by
  unfold Module.onBucket; simp [keeps_refl]
@[simp] theorem kb_onBucket {ps : List Part} {m n : Module} (j k : Nat) (f : Bucket → Bucket) (h : Part.jobs ∈ ps) :
    KeepsBut ps m (n.onBucket j k f) ↔ KeepsBut ps m n := kb_iff (keeps_onBucket n j k f) (by simpa using h)

/-- Taking a frame in order touches its port and the buckets that its acknowledgement frees. -/
theorem keeps_accept (m : Module) (n : Nat) (f : Frame) : KeepsBut [.hawsers, .jobs] m (m.acceptFrame n f) := by
  unfold Module.acceptFrame Module.freeSlots
  refine keeps_trans (b := m.onHawser n _) (by simp [keeps_refl]) (kb_foldl _ _ (fun m k => ?_) _)
  exact keeps_ite (by simp [keeps_refl]) (keeps_refl _ _)

theorem keeps_ownHash (m : Module) (k : Nat) : KeepsBut [.rope] m (m.ownHash k) := by
  unfold Module.ownHash
  dsimp only
  split
  · exact keeps_refl _ _
  · exact keeps_onRope _ _

theorem keeps_tryHash (fu : Fuses) (m : Module) (st k : Nat) : KeepsBut [.rope, .hawsers, .od, .log, .report] m (m.tryHash fu st k) := by
  unfold Module.tryHash
  dsimp only
  split
  · exact keeps_refl _ _
  · split
    · exact keeps_refl _ _
    · generalize hX : m.onRope _ = X
      have : KeepsBut [.rope] m X := by rw [← hX]; exact keeps_onRope _ _
      refine keeps_trans (keeps_mono this (by simp)) ?_
      split
      · exact keeps_mono (keeps_sendBond _ _ _) (by simp)
      · split
        · exact keeps_refl _ _
        · simp [keeps_refl]

/-- A bond lost between steps shows in the rope, the ports and the reports. -/
theorem keeps_idleBondLost (fu : Fuses) (m : Module) (b : Nat) :
    KeepsBut [.rope, .hawsers, .od, .log, .report] m (m.idleBondLost fu b) := by
  unfold Module.idleBondLost
  dsimp only
  refine keeps_ite (by simp [keeps_refl]) (keeps_ite (by simp [keeps_refl]) (by simp [keeps_refl]))

/-- So does judging the bonds at a step boundary. -/
theorem keeps_judgeIdle (fu : Fuses) (m : Module) (j : Nat) : KeepsBut [.rope, .hawsers, .od, .log, .report] m (m.judgeIdle fu j) := by
  unfold Module.judgeIdle
  refine keeps_ite (keeps_refl _ _) (kb_foldl _ _ (fun m b => ?_) _)
  exact keeps_ite (keeps_idleBondLost _ _ _) (keeps_refl _ _)

/-! ### The end of a step -/

theorem keeps_failAttempt (fu : Fuses) (m : Module) (j st : Nat) : KeepsBut endParts m (m.failAttempt fu j st) := by
  unfold Module.failAttempt
  dsimp only
  refine keeps_ite (keeps_refl _ _) (keeps_ite ?_ (by simp [endParts, keeps_refl]))
  rw [kb_event _ _ _ (by simp [endParts]) (by simp [endParts]) (by simp [endParts]), kb_bump _ _ (by simp [endParts])]
  exact keeps_endJob _ _ _ _

theorem keeps_tryTrailer (fu : Fuses) (m : Module) (k : Nat) :
    KeepsBut (.rope :: .hawsers :: endParts) m (m.tryTrailer fu k) := by
  unfold Module.tryTrailer
  dsimp only
  refine keeps_ite (keeps_refl _ _) ?_
  generalize hX : m.onRope _ = X
  have hx : KeepsBut [.rope] m X := by rw [← hX]; exact keeps_onRope _ _
  refine keeps_trans (keeps_mono hx (by simp)) (keeps_ite (keeps_ite ?_ (keeps_refl _ _)) (keeps_mono (keeps_sendBond _ _ _) (by simp)))
  unfold Module.sampleFail
  dsimp only
  split
  · exact keeps_refl _ _
  generalize hY : X.onRun _ _ = Y
  have hy : KeepsBut [.jobs] X Y := by rw [← hY]; simp [keeps_refl]
  refine keeps_trans (keeps_mono hy (by simp [endParts])) (keeps_ite ?_ (keeps_mono (keeps_failAttempt _ _ _ _) (by simp [endParts])))
  exact keeps_trans (keeps_mono (keeps_sendOthers _ _ _) (by simp)) (keeps_mono (keeps_endJob _ _ _ _) (by simp [endParts]))

/-! ### The coil store -/

theorem keeps_onStore (m : Module) (f : Coil → Coil) : KeepsBut [.store] m (m.onStore f) := by
  intro q hq; cases q <;> simp_all [Part.same, Module.onStore]
@[simp] theorem kb_onStore {ps : List Part} {m n : Module} (f : Coil → Coil) (h : Part.store ∈ ps) :
    KeepsBut ps m (n.onStore f) ↔ KeepsBut ps m n := kb_iff (keeps_onStore n f) (by simpa using h)

/-- Judging the pins touches their mark and the reports. -/
theorem keeps_judgePins (fu : Fuses) (m : Module) : KeepsBut [.store, .od, .log, .report] m (m.judgePins fu) := by
  unfold Module.judgePins
  dsimp only
  repeat' split
  all_goals simp [keeps_refl]
@[simp] theorem kb_judgePins {ps : List Part} {m n : Module} (fu : Fuses) (h : Part.store ∈ ps) (h1 : Part.od ∈ ps) (h2 : Part.log ∈ ps)
    (h3 : Part.report ∈ ps) : KeepsBut ps m (n.judgePins fu) ↔ KeepsBut ps m n :=
  kb_iff (keeps_judgePins fu n) (by simp [h, h1, h2, h3])

/-- The thresholds touch the reports; then the pins are judged. -/
theorem checkStore_pins (fu : Fuses) (m : Module) (old : Coil) :
    ∃ y, m.checkStore fu old = y.judgePins fu ∧ KeepsBut [.od, .log, .report] m y := by
  unfold Module.checkStore
  dsimp only
  refine ⟨_, rfl, ?_⟩
  generalize hA : (if (decide (m.store.spare < 16937) && decide (16937 ≤ old.spare)) = true then _ else m) = A
  have a : KeepsBut [.od, .log, .report] m A := by rw [← hA]; split <;> simp [keeps_refl]
  generalize hB : (if (decide (9000 < m.store.meanWear) && decide (old.meanWear ≤ 9000)) = true then _ else A) = B
  have b : KeepsBut [.od, .log, .report] A B := by rw [← hB]; split <;> simp [keeps_refl]
  refine keeps_trans a (keeps_trans b ?_)
  split <;> simp [keeps_refl]

theorem keeps_checkStore (fu : Fuses) (m : Module) (old : Coil) : KeepsBut [.store, .od, .log, .report] m (m.checkStore fu old) := by
  obtain ⟨y, e, k⟩ := checkStore_pins fu m old
  rw [e, kb_judgePins _ (by simp) (by simp) (by simp) (by simp)]
  exact keeps_mono k (by simp)
@[simp] theorem kb_checkStore {ps : List Part} {m n : Module} (fu : Fuses) (old : Coil) (h : Part.store ∈ ps) (h1 : Part.od ∈ ps)
    (h2 : Part.log ∈ ps) (h3 : Part.report ∈ ps) : KeepsBut ps m (n.checkStore fu old) ↔ KeepsBut ps m n :=
  kb_iff (keeps_checkStore fu n old) (by simp [h, h1, h2, h3])

theorem keeps_relocate (m : Module) (s : Nat) : KeepsBut [.store, .od] m (m.relocate s) := by
  unfold Module.relocate
  simp [keeps_refl]

theorem keeps_retireBlock (fu : Fuses) (m : Module) (d b c : Nat) : KeepsBut [.store, .od, .log, .report] m (m.retireBlock fu d b c) := by
  unfold Module.retireBlock
  dsimp only
  refine keeps_ite (keeps_refl _ _) ?_
  rw [kb_checkStore _ _ (by simp) (by simp) (by simp) (by simp), kb_event _ _ _ (by simp) (by simp) (by simp)]
  exact keeps_ite (keeps_trans (by simp [keeps_refl]) (keeps_mono (keeps_relocate _ _) (by simp))) (by simp [keeps_refl])

theorem keeps_pageRebuilt (fu : Fuses) (m : Module) (p d b g : Nat) :
    KeepsBut [.store, .od, .log, .report] m (m.pageRebuilt fu p d b g) := by
  unfold Module.pageRebuilt
  exact keeps_trans (by simp [keeps_refl]) (keeps_retireBlock _ _ _ _ _)

/-- Flaws that work meets touch the store and the reports. -/
theorem keeps_meetFlaws (fu : Fuses) (w r : Coil → Nat → Bool) (n : Nat) :
    ∀ m : Module, KeepsBut [.store, .od, .log, .report] m (Module.meetFlaws fu w r n m) := by
  induction n with
  | zero => intro m; exact keeps_refl _ _
  | succ n ih =>
    intro m
    rw [Module.meetFlaws]
    dsimp only
    split
    · exact keeps_refl _ _
    · refine keeps_trans ?_ (ih _)
      split
      · exact keeps_trans (by simp [keeps_refl]) (keeps_retireBlock _ _ _ _ _)
      · exact keeps_trans (by simp [keeps_refl]) (keeps_pageRebuilt _ _ _ _ _ _)

theorem keeps_afterWork (fu : Fuses) (m : Module) (old : Coil) : KeepsBut [.store, .od, .log, .report] m (m.afterWork fu old) :=
  keeps_meetFlaws _ _ _ _ _
@[simp] theorem kb_afterWork {ps : List Part} {m n : Module} (fu : Fuses) (old : Coil) (h : Part.store ∈ ps) (h1 : Part.od ∈ ps)
    (h2 : Part.log ∈ ps) (h3 : Part.report ∈ ps) : KeepsBut ps m (n.afterWork fu old) ↔ KeepsBut ps m n :=
  kb_iff (keeps_afterWork fu n old) (by simp [h, h1, h2, h3])

theorem keeps_putObj (fu : Fuses) (m : Module) (o : Obj) (bs : List Byte) : KeepsBut [.store, .od, .log, .report] m (m.putObj fu o bs) := by
  unfold Module.putObj
  dsimp only
  rw [kb_afterWork _ _ (by simp) (by simp) (by simp) (by simp), kb_checkStore _ _ (by simp) (by simp) (by simp) (by simp),
    kb_bump _ _ (by simp), kb_bump _ _ (by simp), kb_onStore _ (by simp)]
  exact keeps_refl _ _

end Sys2Proof.Laws
end

