-- ==== Sys2Proof/Laws/Attempts.lean ====
section
/-!
SUPPORT. Attempts of a step: what releasing a job's cores and starting a replayed attempt leave.
-/
namespace Sys2Proof.Laws

open Sys2Proof.Machine

/-- The core that a release leaves. -/
def relCore (m : Module) (j : Nat) (resumed : Bool) (at_ : Nat → Nat) (g : Nat) (c : Core) : Core :=
  { c.restartAt (((m.job j).run.tags.lookup g).getD []) resumed with
      seq := { pc := at_ ((m.job j).image.roleMap.getD (g % 8) 0xFF), loops := [], takes := [], done := false,
               wait := ((m.job j).resumeAt ((m.job j).image.roleMap.getD (g % 8) 0xFF) (at_ ((m.job j).image.roleMap.getD (g % 8) 0xFF))).map Wait.resume } }

theorem relCore_idem (m : Module) (j : Nat) (resumed : Bool) (at_ : Nat → Nat) (g : Nat) (c : Core) :
    relCore m j resumed at_ g (relCore m j resumed at_ g c) = relCore m j resumed at_ g c := by
  unfold relCore Core.restartAt Core.stop
  cases List.lookup g (m.job j).run.tags <;> cases c.fenceReq <;> cases resumed <;> simp

theorem release_fold (m0 : Module) (j : Nat) (resumed : Bool) (at_ : Nat → Nat) (l : List Nat) (n : Module) (hj : n.jobs = m0.jobs)
    (hl : ∀ g ∈ l, g < n.cores.length) :
    let x := l.foldl (fun (m : Module) g =>
      let m := m.onCore g (fun c => c.restartAt (((m.job j).run.tags.lookup g).getD []) resumed)
      m.goto g j (at_ ((m.job j).image.roleMap.getD (g % 8) 0xFF))) n
    (∀ h, x.core h = if h ∈ l then relCore m0 j resumed at_ h (n.core h) else n.core h) ∧ x.jobs = n.jobs ∧ KeepsBut [.cores] n x := by
  induction l generalizing n with
  | nil => exact ⟨fun h => by simp, rfl, keeps_refl _ _⟩
  | cons a l ih =>
    simp only [List.foldl_cons]
    generalize hY : Module.goto _ a j _ = Y
    have hYj : Y.jobs = n.jobs := by rw [← hY]; rfl
    have hYl : Y.cores.length = n.cores.length := by rw [← hY]; simp [Module.goto, Module.onCore]
    have hYk : KeepsBut [.cores] n Y := by rw [← hY, kb_goto _ _ _ (by simp), kb_onCore _ _ (by simp)]; exact keeps_refl _ _
    have ha : a < n.cores.length := hl a (by simp)
    have hjj : n.job j = m0.job j := by simp [Module.job, hj]
    have hYc : ∀ h, Y.core h = if h = a then relCore m0 j resumed at_ a (n.core a) else n.core h := by
      intro h
      rw [← hY]
      unfold Module.goto
      by_cases e : h = a
      · subst e
        rw [if_pos rfl, core_onCore_self _ _ _ (by simpa [Module.onCore] using ha), core_onCore_self _ _ _ ha]
        simp only [job_of_onCore, hjj]
        unfold relCore Core.restartAt Core.stop
        simp [closeTakes]
      · rw [if_neg e, core_onCore_other _ _ _ _ e, core_onCore_other _ _ _ _ e]
    obtain ⟨i1, i2, i3⟩ := ih Y (hYj.trans hj) (fun g hg => by rw [hYl]; exact hl g (by simp [hg]))
    refine ⟨fun h => ?_, i2.trans hYj, keeps_trans hYk i3⟩
    rw [i1 h, hYc]
    by_cases e : h = a
    · subst e
      simp only [if_true, List.mem_cons, true_or]
      split
      · exact relCore_idem ..
      · rfl
    · simp only [e, if_false, List.mem_cons, false_or]

/-- What a release leaves. -/
theorem release_ok (m : Module) (j : Nat) (resumed : Bool) (at_ : Nat → Nat) :
    (∀ h, (m.release j resumed at_).core h = if h ∈ m.liveCores j then relCore m j resumed at_ h (m.core h) else m.core h) ∧
    (m.release j resumed at_).jobs = m.jobs ∧ KeepsBut [.cores] m (m.release j resumed at_) :=
  release_fold m j resumed at_ (m.liveCores j) m rfl (fun g hg => live_lt (by
    unfold Module.liveCores at hg; simpa using (List.mem_filter.mp hg).2))

/-- It is live as before, and its memory is as before but for the contents of slots that were EMPTY. -/
def still_core (c d : Core) : Prop :=
  d.live = c.live ∧ d.mem.full = c.mem.full ∧ ∀ a, a / 4096 ∈ c.mem.full → d.mem.sp.get a = c.mem.sp.get a

theorem still_trans {c d e : Core} (h : still_core c d) (k : still_core d e) : still_core c e :=
  ⟨k.1.trans h.1, k.2.1.trans h.2.1, fun a ha => (k.2.2 a (by rw [h.2.1]; exact ha)).trans (h.2.2 a ha)⟩

theorem stop_still (c : Core) (n : Nat) : still_core c (c.stop n) := by
  refine ⟨?_, ?_, fun a ha => stop_full c n a ha⟩ <;>
  · obtain ⟨k, sp, e⟩ := stop_eq c n
    rw [e]
    try rfl

theorem endFlights_still (fu : Fuses) (m : Module) (j st g : Nat) : still_core (m.core g) ((m.endFlights fu j st).core g) := by
  unfold Module.endFlights
  generalize (m.job j).cores = l
  induction l generalizing m with
  | nil => exact ⟨rfl, rfl, fun _ _ => rfl⟩
  | cons a l ih =>
    refine still_trans ?_ (ih (m.endFlight fu j st a))
    unfold Module.endFlight
    rw [core_onCore]
    have e : ∀ k, Module.core (List.foldl (fun (m : Module) i => (m.instrDone fu i st).cancelRecord fu i st) m (m.inFlight a j)) k =
        m.core k := fun k => by
      simp only [Module.core, foldInstr_cores]
    rw [e, e]; split
    · rename_i x; rw [← x.1]; exact stop_still ..
    · exact ⟨rfl, rfl, fun _ _ => rfl⟩

theorem live_filter {m n : Module} {j : Nat} (hc : (n.job j).cores = (m.job j).cores) (h : ∀ g, (n.core g).live = (m.core g).live) :
    n.liveCores j = m.liveCores j := by
  unfold Module.liveCores
  rw [hc]
  exact List.filter_congr (fun g _ => by rw [h g])

/-- What a release of a stopped job's cores leaves. -/
theorem release_starts (m z : Module) (j : Nat) (resumed : Bool) (at_ : Nat → Nat) (tags : List (Nat × List Nat)) (hm : ∀ g, still_core (m.core g) (z.core g))
    (hc : (z.job j).cores = (m.job j).cores) (ht : (z.job j).run.tags = tags) (hi : (z.job j).image = (m.job j).image) :
    let n := z.release j resumed at_
    n.jobs = z.jobs ∧ KeepsBut [.cores] z n ∧ n.liveCores j = m.liveCores j ∧
    ∀ g ∈ n.liveCores j, (n.core g).seq.pc = at_ ((m.job j).image.roleMap.getD (g % 8) 0xFF) ∧ (n.core g).seq.loops = [] ∧
      (n.core g).seq.takes = [] ∧ (n.core g).seq.done = false ∧ (n.core g).tiles = [] ∧ (n.core g).gathers = [] ∧
      (∀ ch ∈ (n.core g).channels, ch = []) ∧ (n.core g).mem.pages = (if resumed then (z.core g).mem.pages else []) ∧
      (∀ a, a / 4096 ∈ (m.core g).mem.full → (n.core g).mem.sp.get a = (m.core g).mem.sp.get a) ∧
      (n.core g).mem.full = (tags.lookup g).getD [] := by
  obtain ⟨c1, c2, c3⟩ := release_ok z j resumed at_
  generalize z.release j resumed at_ = n at *
  have nj : n.job j = z.job j := by simp only [Module.job, c2]
  have live : z.liveCores j = m.liveCores j := live_filter hc (fun g => (hm g).1)
  have nlive : n.liveCores j = m.liveCores j := by
    refine live_filter (by rw [nj, hc]) (fun g => ?_)
    rw [c1 g, ← (hm g).1]; split
    · have := (stop_still (z.core g) 0).1
      simpa [relCore, Core.restartAt, Core.live] using this
    · rfl
  refine ⟨c2, c3, nlive, fun g hg => ?_⟩
  rw [nlive, ← live] at hg
  rw [c1 g, if_pos hg]
  unfold relCore
  rw [ht, hi]
  refine ⟨rfl, rfl, rfl, rfl, rfl, rfl, ?_, rfl, fun a ha => ?_, rfl⟩
  · simp [Core.restartAt, Core.stop]
  · refine (stop_full (z.core g) 0 a ?_).trans ((hm g).2.2 a ha)
    rw [(hm g).2.1]; exact ha

/-- What is zeroed at the start of an attempt lies in the job's regions. -/
theorem same_zeroWords (m : Module) (j : Nat) : Same j m ((m.clearReplayWords j).zeroAccs j) := by
  unfold Module.zeroAccs Module.clearReplayWords
  refine same_trans (same_fold _ _ _ (fun m p => ?_) m) (same_fold _ _ _ (fun m f => same_fold _ _ _ (fun m k => ?_) _) _)
  · split
    · exact same_storeAt ..
    · exact same_refl _ _
  · unfold Module.putAcc
    exact same_fold _ _ _ (fun m w => same_stateAt ..) _

/-- No tag stands where every list of tags is empty. -/
theorem lookup_empty (l : List (Nat × List Nat)) (g : Nat) : ((l.map (fun t => (t.1, ([] : List Nat)))).lookup g).getD [] = [] := by
  induction l with
  | nil => rfl
  | cons a l ih =>
    simp only [List.map_cons, List.lookup_cons]
    split
    · rfl
    · exact ih

/-- What a replayed attempt starts with (R310, R482). -/
theorem restart_ok (fu : Fuses) (m : Module) (j cause : Nat) (wide : Bool) (hj : j < m.jobs.length) :
    let n := m.restart fu j cause wide
    let r := (m.job j).run
    let q := (n.job j).run
    (n.job j).state = (m.job j).state ∧ (n.job j).step = (m.job j).step ∧ q.attempt = r.attempt + 1 ∧
      q.ropeAttempt = r.ropeAttempt + (if wide then 1 else 0) ∧ q.replay = true ∧ q.mustReplay = none ∧
      q.counters = List.replicate 64 0 ∧ q.signals = [] ∧ q.mark = none ∧ q.epoch = (r.epoch + 1) % 65536 ∧
      q.tags = r.tags.map (fun t => (t.1, [])) ∧
      n.liveCores j = m.liveCores j ∧
      (∀ g ∈ n.liveCores j, (n.core g).seq.pc = 0 ∧ (n.core g).seq.loops = [] ∧
      (n.core g).seq.takes = [] ∧ (n.core g).seq.done = false ∧ (n.core g).tiles = [] ∧ (n.core g).gathers = [] ∧
      (∀ ch ∈ (n.core g).channels, ch = []) ∧ (n.core g).mem.pages = [] ∧
      (∀ a, a / 4096 ∈ (m.core g).mem.full → (n.core g).mem.sp.get a = (m.core g).mem.sp.get a) ∧
      (n.core g).mem.full = []) ∧ OtherJobs j m n ∧
      KeepsBut [.cores, .jobs, .hbm, .hbmPoison, .rope, .queues, .od, .log, .report] m n := by
  unfold Module.restart
  dsimp only
  generalize hA : m.endFlights fu j stCancelled = A
  have Aj : A.jobs = m.jobs := by rw [← hA]; simp
  have Ak : KeepsBut [.cores, .od, .log, .report, .queues] m A := by rw [← hA]; exact keeps_endFlights _ _ _ _
  have As : ∀ g, still_core (m.core g) (A.core g) := fun g => by rw [← hA]; exact endFlights_still ..
  generalize hB : A.onJob j _ = B
  have Bc : B.cores = A.cores := by rw [← hB]; rfl
  have Bl : B.jobs.length = m.jobs.length := by rw [← hB, ← Aj]; simp [Module.onJob]
  have Bo : ∀ k, k ≠ j → B.job k = m.job k := fun k hk => by rw [← hB, job_onJob_other _ _ _ _ hk]; simp only [Module.job, Aj]
  have Bj : (B.job j).run = (m.job j).run ∧ (B.job j).state = (m.job j).state ∧ (B.job j).step = (m.job j).step ∧
      (B.job j).cores = (m.job j).cores ∧ (B.job j).image = (m.job j).image := by
    rw [← hB, job_onJob_self _ _ _ (by rw [Aj]; exact hj)]
    rw [show A.job j = m.job j by simp only [Module.job, Aj]]
    exact ⟨rfl, rfl, rfl, rfl, rfl⟩
  have Bk : KeepsBut [.jobs] A B := by rw [← hB, kb_onJob _ _ (by simp)]; exact keeps_refl _ _
  generalize hZ : (B.clearReplayWords j).zeroAccs j = Z
  obtain ⟨Zo, Zs, Zk, zo, zf, Zj⟩ : Same j B Z := by rw [← hZ]; exact same_zeroWords B j
  have Zc : Z.cores = B.cores := Zk .cores (by simp)
  generalize hC : Z.onRun j _ = C
  have Cc : C.cores = A.cores := by rw [← hC, ← Bc, ← Zc]; rfl
  have Cl : C.jobs.length = m.jobs.length := by rw [← hC, onRun_len, Zs, Bl]
  have Co : ∀ k, k ≠ j → C.job k = m.job k := fun k hk => by rw [← hC, job_onRun_other _ _ _ _ hk, Zo k hk, Bo k hk]
  have Cj := congrArg (fun x : Module => x.job j) hC
  rw [job_onRun_self _ _ _ (by rw [Zs, Bl]; exact hj)] at Cj
  rw [Zj] at Cj
  have Ck : KeepsBut [.jobs] Z C := by rw [← hC, kb_onRun _ _ (by simp)]; exact keeps_refl _ _
  generalize hD : (if (wide && C.inRope j) = true then _ else C) = D
  have Dj : D.jobs = C.jobs ∧ D.cores = C.cores ∧ KeepsBut [.rope] C D := by
    rw [← hD]; split
    · refine ⟨rfl, rfl, ?_⟩
      intro q hq; cases q <;> simp_all [Part.same]
    · exact ⟨rfl, rfl, keeps_refl _ _⟩
  generalize hE : D.onRun j _ = E
  have Ec : E.cores = A.cores := by rw [← hE, ← Cc, ← Dj.2.1]; rfl
  have DJ : ∀ k, D.job k = C.job k := fun k => by simp only [Module.job, Dj.1]
  have El : E.jobs.length = m.jobs.length := by rw [← hE, onRun_len, Dj.1, Cl]
  have Eo : ∀ k, k ≠ j → E.job k = m.job k := fun k hk => by rw [← hE, job_onRun_other _ _ _ _ hk, DJ, Co k hk]
  have Ej := congrArg (fun x : Module => x.job j) hE
  rw [job_onRun_self _ _ _ (by rw [Dj.1, Cl]; exact hj), DJ, ← Cj] at Ej
  have Ek : KeepsBut [.jobs] D E := by rw [← hE, kb_onRun _ _ (by simp)]; exact keeps_refl _ _
  have starts := release_starts m E j false (fun _ => 0) ((m.job j).run.tags.map (fun t => (t.1, [])))
    (fun g => by
      have : E.core g = A.core g := by simp only [Module.core, Ec]
      rw [this]; exact As g)
    (by rw [← Ej]; exact Bj.2.2.2.1) (by rw [← Ej]; dsimp only; rw [Bj.1]) (by rw [← Ej]; exact Bj.2.2.2.2)
  dsimp only at starts
  simp only [lookup_empty, Bool.false_eq_true, if_false] at starts
  generalize E.release j false (fun _ => 0) = F at starts
  obtain ⟨Fj, Fk, Fl, Fs⟩ := starts
  have FJ : ∀ k, F.job k = E.job k := fun k => by simp only [Module.job, Fj]
  have evc : ∀ l, ((F.bump (odKey 0x3230 9) 1).event fu 0x0392 l).liveCores j = F.liveCores j := fun l => by
    unfold Module.liveCores; simp
  have run : (F.job j).run = (E.job j).run := by rw [FJ]
  simp only [job_of_event, job_of_bump, core_of_event, core_of_bump, evc]
  refine ⟨?_, ?_, ?_, ?_, ?_, ?_, ?_, ?_, ?_, ?_, ?_, Fl, Fs, ?_, ?_⟩
  · rw [FJ, ← Ej]; exact Bj.2.1
  · rw [FJ, ← Ej]; exact Bj.2.2.1
  · rw [run, ← Ej]; dsimp only; rw [Bj.1]
  · rw [run, ← Ej]; dsimp only; rw [Bj.1]
  · rw [run, ← Ej]
  · rw [run, ← Ej]
  · rw [run, ← Ej]
  · rw [run, ← Ej]
  · rw [run, ← Ej]
  · rw [run, ← Ej]; dsimp only; rw [Bj.1]
  · rw [run, ← Ej]; dsimp only; rw [Bj.1]
  · intro k hk
    rw [job_of_event, job_of_bump, FJ, Eo k hk]
  · rw [kb_event _ _ _ (by simp) (by simp) (by simp), kb_bump _ _ (by simp)]
    refine keeps_trans (keeps_mono Ak (by simp)) (keeps_trans (keeps_mono Bk (by simp)) (keeps_trans (keeps_mono Zk (by simp)) (keeps_trans (keeps_mono Ck (by simp)) (keeps_trans (keeps_mono Dj.2.2 (by simp)) (keeps_trans (keeps_mono Ek (by simp)) (keeps_mono Fk (by simp)))))))

end Sys2Proof.Laws
end

