-- ==== Sys2Proof/Laws/Bytes.lean ====
section
/-!
SUPPORT. Which bytes the stores change (`OnlyAt`): every store through an operand stays at the addresses that the operand
gives, in its own space.
-/
namespace Sys2Proof.Laws

open Sys2Proof.Machine

/-- `n` little-endian bytes. -/
@[simp] theorem leBytes_length (n w : Nat) : (leBytes n w).length = n := by
  induction n generalizing w with
  | zero => rfl
  | succ n ih => simp [leBytes, ih]

/-- Every job's regions lie where they lay. -/
def SameBases (m n : Module) : Prop := ∀ j, (n.job j).cmBases = (m.job j).cmBases ∧ (n.job j).hbmBase = (m.job j).hbmBase

theorem bases_of_jobs {m n : Module} (h : n.jobs = m.jobs) : SameBases m n := fun j => by simp [Module.job, h]

/-- Bytes changed at the addresses `as` only, and the jobs' regions stayed. -/
def Touch (m n : Module) (o : Operand) (as : List Nat) : Prop := OnlyAt m n o as ∧ SameBases m n

theorem touch_refl (m : Module) (o : Operand) (as : List Nat) : Touch m m o as :=
  ⟨⟨fun _ _ _ => rfl, fun _ _ _ => rfl, fun _ _ => rfl⟩, fun _ => ⟨rfl, rfl⟩⟩

theorem touch_mono {m n : Module} {o : Operand} {as bs : List Nat} (h : Touch m n o as) (hs : ∀ a ∈ as, a ∈ bs) : Touch m n o bs := by
  obtain ⟨⟨h1, h2, h3⟩, h4⟩ := h
  refine ⟨⟨fun k x hx => h1 k x (fun c => hx ⟨c.1, c.2.1, hs _ c.2.2⟩), fun k x hx => h2 k x (fun c => hx ?_),
    fun x hx => h3 x (fun c => hx ?_)⟩, h4⟩
  · obtain ⟨c1, c2, a, ha, e⟩ := c
    exact ⟨c1, c2, a, hs a ha, e⟩
  · obtain ⟨c1, c2, a, ha, e⟩ := c
    exact ⟨c1, c2, a, hs a ha, e⟩

theorem touch_trans {m n k : Module} {o : Operand} {as : List Nat} (h1 : Touch m n o as) (h2 : Touch n k o as) : Touch m k o as := by
  obtain ⟨⟨a1, a2, a3⟩, a4⟩ := h1
  obtain ⟨⟨b1, b2, b3⟩, b4⟩ := h2
  refine ⟨⟨fun h x hx => (b1 h x hx).trans (a1 h x hx), fun h x hx => (b2 h x ?_).trans (a2 h x hx),
    fun x hx => (b3 x ?_).trans (a3 x hx)⟩, fun j => ⟨(b4 j).1.trans (a4 j).1, (b4 j).2.trans (a4 j).2⟩⟩
  · simpa only [Job.cmBase, (a4 o.job).1] using hx
  · simpa only [(a4 o.job).2] using hx

/-- Nothing of the memories and the jobs' regions changed. -/
theorem touch_of {m n : Module} (o : Operand) (as : List Nat) (hb : SameBases m n) (h1 : n.cores = m.cores)
    (h2 : n.clusters = m.clusters) (h3 : n.hbm = m.hbm) : Touch m n o as :=
  ⟨⟨fun g x _ => by simp [Module.core, h1], fun k x _ => by simp [Module.cluster, h2], fun x _ => by rw [h3]⟩, hb⟩

theorem touch_bump (m : Module) (o : Operand) (as : List Nat) (k n : Nat) : Touch m (m.bump k n) o as :=
  touch_of o as (bases_of_jobs rfl) rfl rfl rfl

/-- A fold of stores. -/
theorem touch_foldl {α : Type} (o : Operand) (as : List Nat) (l : List α) (f : Module → α → Module)
    (hf : ∀ m, ∀ a ∈ l, Touch m (f m a) o as) (m : Module) : Touch m (l.foldl f m) o as := by
  induction l generalizing m with
  | nil => exact touch_refl ..
  | cons a l ih => exact touch_trans (hf m a (by simp)) (ih (fun m b hb => hf m b (by simp [hb])) _)

/-- A fold of stores that carries a count. -/
theorem touch_foldl_pair {α : Type} (o : Operand) (as : List Nat) (l : List α) (f : Module × Nat → α → Module × Nat)
    (hf : ∀ p, ∀ a ∈ l, Touch p.1 (f p a).1 o as) (p : Module × Nat) : Touch p.1 (l.foldl f p).1 o as := by
  induction l generalizing p with
  | nil => exact touch_refl ..
  | cons a l ih => exact touch_trans (hf p a (by simp)) (ih (fun m b hb => hf m b (by simp [hb])) _)

/-- Bytes stored into an operand's space from an address. -/
theorem touch_storeAt (m : Module) (o : Operand) (a : Nat) (bs : List Byte) (bad : Bool) (as : List Nat)
    (h : ∀ k, k < bs.length → a + k ∈ as) : Touch m (m.storeAt o.job o.core o.buf.space a bs bad) o as := by
  unfold Module.storeAt
  split
  · rename_i h0
    refine ⟨⟨fun g x hx => ?_, fun _ _ _ => rfl, fun _ _ => rfl⟩, bases_of_jobs rfl⟩
    rw [core_onCore]
    split
    · rename_i e
      obtain ⟨rfl, _⟩ := e
      dsimp only
      rw [get_write, if_neg]
      rintro ⟨c1, c2⟩
      exact hx ⟨h0, rfl, by have := h (x - a) (by omega); rwa [Nat.add_sub_cancel' c1] at this⟩
    · rfl
  · split
    · rename_i h0 h1
      refine ⟨⟨fun _ _ _ => rfl, fun g x hx => ?_, fun _ _ => rfl⟩, bases_of_jobs rfl⟩
      rw [cluster_onCluster]
      split
      · rename_i e
        obtain ⟨rfl, _⟩ := e
        dsimp only
        rw [get_write, if_neg]
        rintro ⟨c1, c2⟩
        refine hx ⟨h1, rfl, x - (m.job o.job).cmBase (clusterOf o.core), ?_, by omega⟩
        have := h (x - ((m.job o.job).cmBase (clusterOf o.core) + a)) (by omega)
        rwa [show a + (x - ((m.job o.job).cmBase (clusterOf o.core) + a)) = x - (m.job o.job).cmBase (clusterOf o.core) by omega] at this
      · rfl
    · rename_i h0 h1
      refine ⟨⟨fun _ _ _ => rfl, fun _ _ _ => rfl, fun x hx => ?_⟩, bases_of_jobs rfl⟩
      dsimp only
      rw [get_write, if_neg]
      rintro ⟨c1, c2⟩
      refine hx ⟨h0, h1, x - (m.job o.job).hbmBase, ?_, by omega⟩
      have := h (x - ((m.job o.job).hbmBase + a)) (by omega)
      rwa [show a + (x - ((m.job o.job).hbmBase + a)) = x - (m.job o.job).hbmBase by omega] at this

/-- Clearing poison changes no byte. -/
theorem touch_cleanCovered (m : Module) (o : Operand) (j g sp : Nat) (l k as : List Nat) : Touch m (m.cleanCovered j g sp l k) o as := by
  unfold Module.cleanCovered
  dsimp only
  split
  · refine ⟨⟨fun h x _ => ?_, fun _ _ _ => rfl, fun _ _ => rfl⟩, bases_of_jobs rfl⟩
    rw [core_onCore]; split
    · rename_i e; rw [e.1]
    · rfl
  · split
    · refine ⟨⟨fun _ _ _ => rfl, fun h x _ => ?_, fun _ _ => rfl⟩, bases_of_jobs rfl⟩
      rw [cluster_onCluster]; split
      · rename_i e; rw [e.1]
      · rfl
    · exact touch_of o as (bases_of_jobs rfl) rfl rfl rfl

/-- The bytes of a code. -/
theorem bits_bytes (f : Fmt) (h : f.is4bit = false) : f.bits / 8 = (f.bits + 7) / 8 := by
  cases f <;> first | rfl | (revert h; decide)

/-- An element's code stays at the element's addresses. -/
theorem touch_putCode (m : Module) (o : Operand) (e : Int) (c : Nat) (b : Bool) (as : List Nat) (h : ∀ a ∈ o.addrsOf e, a ∈ as) :
    Touch m (m.putCode o e c b) o as := by
  unfold Module.putCode
  dsimp only
  split
  · refine touch_storeAt _ _ _ _ _ _ (fun k hk => h _ ?_)
    rename_i h4
    simp only [leBytes_length] at hk
    have : 0 < (o.fmt.bits + 7) / 8 := by revert h4; cases o.fmt <;> simp [Fmt.is4bit, Fmt.bits]
    simp only [Operand.addrsOf, List.mem_map, List.mem_range]
    exact ⟨k, by omega, by omega⟩
  · rename_i h4
    refine touch_storeAt _ _ _ _ _ _ (fun k hk => h _ ?_)
    simp only [leBytes_length] at hk
    simp only [Operand.addrsOf, List.mem_map, List.mem_range]
    exact ⟨k, by rw [← bits_bytes _ (by simpa using h4)]; exact hk, by omega⟩

/-- A scale byte stays at its address. -/
theorem touch_putScale (m : Module) (o : Operand) (e : Int) (c : Nat) (b : Bool) (as : List Nat) (h : o.addr (o.scaleOff e) ∈ as) :
    Touch m (m.putScale o e c b) o as := by
  refine touch_storeAt _ _ _ _ _ _ (fun k hk => ?_)
  simp only [leBytes_length] at hk
  obtain rfl : k = 0 := by omega
  exact h

/-- An element written under its buffer's combine mode stays at its addresses. -/
theorem touch_putElem (m : Module) (o : Operand) (e : Int) (c : Nat) (b : Bool) (as : List Nat) (h : ∀ a ∈ o.addrsOf e, a ∈ as) :
    Touch m (m.putElem o e c b).1 o as := by
  unfold Module.putElem
  split
  · split <;> exact touch_putCode _ _ _ _ _ _ h
  · exact touch_putCode _ _ _ _ _ _ h

/-- Converted elements stay at their addresses. -/
theorem touch_putEncoded (m : Module) (o : Operand) (x : Encoded) (b : Bool) (as : List Nat)
    (h1 : ∀ c ∈ x.codes, ∀ a ∈ o.addrsOf c.1, a ∈ as) (h2 : ∀ c ∈ x.scales, o.addr (o.scaleOff c.1) ∈ as) :
    Touch m (m.putEncoded o x b) o as := by
  unfold Module.putEncoded
  dsimp only
  have t1 := touch_foldl_pair o as x.codes
    (fun (acc : Module × Nat) c => ((acc.1.putElem o c.1 c.2 b).1, acc.2 + (acc.1.putElem o c.1 c.2 b).2))
    (fun p c hc => touch_putElem p.1 o c.1 c.2 b as (h1 c hc)) (m, 0)
  have t2 := fun (n : Module) => touch_foldl o as x.scales (fun (m : Module) c => m.putScale o c.1 c.2 b)
    (fun m c hc => touch_putScale m o c.1 c.2 b as (h2 c hc)) n
  refine touch_trans ?_ (touch_bump ..)
  split
  · exact touch_trans t1 (t2 _)
  · exact touch_trans (touch_trans t1 (t2 _)) (touch_cleanCovered ..)

/-- Folding a scale descriptor changes no byte. -/
theorem touch_foldDesc (m : Module) (o p : Operand) (mx : Option Int) (a b : Nat) (as : List Nat) : Touch m (m.foldDesc o mx a b) p as := by
  unfold Module.foldDesc
  split
  · refine touch_of p as (fun j => ?_) rfl rfl rfl
    rw [job_onJob]; split
    · rename_i e; rw [e.1]; exact ⟨rfl, rfl⟩
    · exact ⟨rfl, rfl⟩
  · exact touch_refl ..

/-- The offsets of converted elements. -/
theorem encodeElems_offsets (f : Fmt) (es : List (Int × FVal)) :
    (∀ c ∈ (encodeElems f es).codes, ∃ e ∈ es, c.1 = e.1) ∧
      ∀ c ∈ (encodeElems f es).scales, f.isMx = true ∧ ∃ e ∈ es, c.1 = 32 * (e.1 / 32) := by
  unfold encodeElems
  split
  · rename_i hmx
    have gen : ∀ (bs : List Int) (acc : Encoded), (∀ b ∈ bs, ∃ e ∈ es, b = e.1 / 32) →
        (∀ c ∈ acc.codes, ∃ e ∈ es, c.1 = e.1) → (∀ c ∈ acc.scales, ∃ e ∈ es, c.1 = 32 * (e.1 / 32)) →
        (∀ c ∈ ((bs.map (fun b => encodeBlock f b (es.filter (fun e => e.1 / 32 == b)))).foldl Encoded.append acc).codes,
          ∃ e ∈ es, c.1 = e.1) ∧
        ∀ c ∈ ((bs.map (fun b => encodeBlock f b (es.filter (fun e => e.1 / 32 == b)))).foldl Encoded.append acc).scales,
          ∃ e ∈ es, c.1 = 32 * (e.1 / 32) := by
      intro bs
      induction bs with
      | nil => intro acc _ h1 h2; exact ⟨h1, h2⟩
      | cons b bs ih =>
        intro acc hb h1 h2
        refine ih _ (fun x hx => hb x (by simp [hx])) (fun c hc => ?_) (fun c hc => ?_)
        · simp only [Encoded.append, List.mem_append] at hc
          rcases hc with hc | hc
          · exact h1 c hc
          · simp only [encodeBlock] at hc
            have := (List.of_mem_zip (a := c.1) (b := c.2) hc).1
            simp only [List.mem_map, List.mem_filter] at this
            obtain ⟨e, ⟨he, _⟩, h⟩ := this
            exact ⟨e, he, h.symm⟩
        · simp only [Encoded.append, List.mem_append] at hc
          rcases hc with hc | hc
          · exact h2 c hc
          · simp only [encodeBlock, List.mem_singleton] at hc
            obtain ⟨e, he, h⟩ := hb b (by simp)
            exact ⟨e, he, by rw [hc, h]⟩
    have r := gen ((es.map (fun e => e.1 / 32)).eraseDups) Encoded.empty (fun b hb => by
      have := List.mem_eraseDups.1 hb
      simp only [List.mem_map] at this
      obtain ⟨e, he, h⟩ := this
      exact ⟨e, he, h.symm⟩) (by simp [Encoded.empty]) (by simp [Encoded.empty])
    exact ⟨r.1, fun c hc => ⟨hmx, r.2 c hc⟩⟩
  · refine ⟨fun c hc => ?_, by simp⟩
    simp only [List.map_map, List.mem_map, Function.comp] at hc
    obtain ⟨e, he, rfl⟩ := hc
    exact ⟨e, he, rfl⟩

/-- The elements that stand are among those given. -/
theorem mem_keepLast (es : List (Int × FVal)) (x : Int × FVal) (h : x ∈ keepLast es) : x ∈ es := by
  induction es with
  | nil => exact h
  | cons e es ih =>
    rw [keepLast] at h
    split at h
    · exact List.mem_cons_of_mem _ (ih h)
    · rcases List.mem_cons.1 h with rfl | h
      · simp
      · exact List.mem_cons_of_mem _ (ih h)

theorem mem_standing (o : Operand) (es : List (Int × FVal)) (x : Int × FVal) (h : x ∈ o.standing es) : x ∈ es := by
  unfold Operand.standing at h
  split at h
  · exact h
  · exact mem_keepLast es x h

/-- An unpacked output stays at its elements' addresses. -/
theorem touch_writeOut (m : Module) (o : Operand) (es : List OutElem) (prior : Nat) (final : Bool) (h : o.ref.fid = 0) :
    Touch m (m.writeOut o es prior final) o (outAddrs o es) := by
  unfold Module.writeOut
  dsimp only
  rw [if_pos h]
  refine touch_trans (touch_trans (touch_trans ?_ (touch_foldDesc ..)) (touch_bump ..)) (touch_bump ..)
  have off := encodeElems_offsets o.fmt
    (o.standing ((es.filter (fun e => o.inExtent [e.col, e.row])).map (fun e => (o.elemOff [e.col, e.row], o.unscale e.val))))
  refine touch_putEncoded _ _ _ _ _ (fun c hc a ha => ?_) (fun c hc => ?_)
  · obtain ⟨x, hx, e⟩ := off.1 c hc
    have hx := mem_standing o _ x hx
    simp only [List.mem_map] at hx
    obtain ⟨y, hy, rfl⟩ := hx
    simp only [outAddrs, List.mem_flatMap]
    exact ⟨y, hy, List.mem_append_left _ (by rwa [e] at ha)⟩
  · obtain ⟨hmx, x, hx, e⟩ := off.2 c hc
    have hx := mem_standing o _ x hx
    simp only [List.mem_map] at hx
    obtain ⟨y, hy, rfl⟩ := hx
    simp only [outAddrs, List.mem_flatMap]
    exact ⟨y, hy, List.mem_append_right _ (by simp [hmx, e])⟩

theorem walk_length (n : Nat) : ∀ (a : Nat) (mem : Mem), (Mem.walk n a mem).length = n := by
  induction n with
  | zero => intro a mem; rfl
  | succ n ih =>
    intro a mem
    cases mem with
    | nil => simp [Mem.walk, ih]
    | cons c rest =>
      simp only [Mem.walk]
      split <;> simp [ih]

/-- As many bytes are read as asked for. -/
@[simp] theorem bytesAt_length (m : Module) (j g sp a n : Nat) : (m.bytesAt j g sp a n).length = n := by
  unfold Module.bytesAt
  split
  · exact walk_length ..
  · split <;> exact walk_length ..

/-- A granule of a row stays at its addresses. -/
theorem touch_putGranule (m : Module) (o : Operand) (rb r : Nat) (bs : List Byte) (q : Nat) (b : Bool) (hq : q < rb / 32) :
    Touch m (m.putGranule o rb r bs q b) o (rowAddrs o rb r) := by
  unfold Module.putGranule
  refine touch_storeAt _ _ _ _ _ _ (fun k hk => ?_)
  have h32 : k < 32 := by simpa [bytesAt_length] using hk
  simp only [rowAddrs, List.mem_flatMap, List.mem_range, List.mem_map]
  exact ⟨q, hq, k, h32, by omega⟩

/-- A row stays at its addresses. -/
theorem touch_putRow (m : Module) (o : Operand) (rb r : Nat) (row : Row) (h : row.2.length = rb / 32) :
    Touch m (m.putRow o rb r row) o (rowAddrs o rb r) := by
  have count : ∀ (x : Module) (n : Nat), Touch x (if n = 0 then x else x.bump (odKey 0x3140 3) n) o (rowAddrs o rb r) := by
    intro x n
    split
    · exact touch_refl ..
    · exact touch_bump ..
  unfold Module.putRow
  refine touch_trans (touch_foldl o _ _ _ (fun m p hp => ?_) m) (count _ _)
  have hlt : p.2 < rb / 32 := by
    rw [← h]
    have := List.snd_lt_add_of_mem_zipIdx hp
    simpa using this
  split
  · exact touch_putGranule _ _ _ _ _ _ _ hlt
  · exact touch_refl ..

end Sys2Proof.Laws
end

