-- ==== Sys2Proof/Laws/Reads.lean ====
section
/-!
SUPPORT. The reads of HBM: what decoding codewords with errors may write.
-/
namespace Sys2Proof.Laws

open Sys2Proof.Machine

/-- A flagged row shows in its stack and the reports. -/
theorem keeps_flagHbmRow (fu : Fuses) (m : Module) (p pc b r x : Nat) : KeepsBut hbmReading m (m.flagHbmRow fu p pc b r x) := by
  unfold Module.flagHbmRow
  dsimp only
  repeat' split
  all_goals simp [keeps_refl, hbmReading]

/-- Errors stored in a codeword show in HBM. -/
theorem keeps_storeErrors (m : Module) (g : Nat) (l : List Nat) : KeepsBut hbmReading m (m.storeErrors g l) := by
  unfold Module.storeErrors Module.spoilSymbols
  dsimp only
  repeat' split
  all_goals intro p hp; cases p <;> simp_all [Part.same, hbmReading]

theorem keeps_judgeErrors (m : Module) (p pc : Nat) : KeepsBut hbmReading m (m.judgeErrors p pc) := by
  unfold Module.judgeErrors
  exact kb_foldl _ _ (fun m b => keeps_storeErrors _ _ _) m

/-- A recorded correction may mark its lane. -/
theorem keeps_recordLane (fu : Fuses) (m : Module) (p pc b r x : Nat) : KeepsBut hbmReading m (m.recordLane fu p pc b r x) := by
  unfold Module.recordLane
  dsimp only
  repeat' split
  · simp [keeps_refl, hbmReading]
  · rw [kb_event _ _ _ (by simp [hbmReading]) (by simp [hbmReading]) (by simp [hbmReading])]
    exact keeps_trans (by simp [keeps_refl, hbmReading]) (keeps_judgeErrors _ _ _)
  all_goals simp [keeps_refl, hbmReading]

/-- A read of a codeword with errors. -/
theorem keeps_readBurst (fu : Fuses) (m : Module) (j : Nat) (b : BadBurst) : KeepsBut hbmReading m (m.readBurst fu j b) := by
  unfold Module.readBurst
  dsimp only
  split
  · exact keeps_trans (by simp [keeps_refl, hbmReading]) (keeps_flagHbmRow _ _ _ _ _ _ _)
  · split
    · simp [keeps_refl, hbmReading]
    · split
      · simp [keeps_refl, hbmReading]
      · have h := fun (x : Module) => keeps_recordLane fu x
        split
        · refine keeps_trans ?_ (keeps_flagHbmRow _ _ _ _ _ _ _)
          rw [kb_onStack _ _ (by simp [hbmReading])]
          exact keeps_trans (by simp [keeps_refl, hbmReading]) (h _ _ _ _ _ _)
        · rw [kb_onStack _ _ (by simp [hbmReading])]
          exact keeps_trans (by simp [keeps_refl, hbmReading]) (h _ _ _ _ _ _)
      · exact keeps_trans (by simp [keeps_refl, hbmReading]) (keeps_flagHbmRow _ _ _ _ _ _ _)

/-- The reads of byte ranges of HBM. -/
theorem keeps_hbmReads (fu : Fuses) (m : Module) (j : Nat) (rs : List (Nat × Nat)) : KeepsBut hbmReading m (m.hbmReads fu j rs) := by
  unfold Module.hbmReads
  dsimp only
  refine keeps_trans ?_ (kb_foldl _ _ (fun m b => keeps_readBurst _ _ _ _) _)
  split <;> simp [keeps_refl, hbmReading]

end Sys2Proof.Laws
end

