-- ==== Sys2Proof/Laws/Coil.lean ====
section
/-!
SUPPORT. The coil store: what writing an object leaves in it.
-/
namespace Sys2Proof.Laws

open Sys2Proof.Machine

/-- Placing extents moves no object. -/
theorem alloc_objs (fuel : Nat) : ∀ (n : Nat) (c : Coil), (Coil.alloc false fuel c n).1.objs = c.objs := by
  have op : ∀ (c : Coil) t, (c.openAt false t).objs = c.objs := by
    intro c t; unfold Coil.openAt; dsimp only; split <;> rfl
  induction fuel with
  | zero => intro n c; simp [Coil.alloc]
  | succ k ih =>
    intro n c
    rw [Coil.alloc]
    dsimp only
    split
    · rfl
    · split
      · split
        · split
          · rfl
          · rw [ih, op]
        · rw [ih]
      · split
        · rfl
        · rw [ih, op]

/-- The objects after one is written. -/
theorem putBytes_objs (c : Coil) (o : Obj) (bs : List Byte) : ∃ pl, (c.putBytes o bs).objs =
    c.objs.filter (fun x => !(x.part == o.part && x.id == o.id)) ++ [{ o with len := bs.length, sha := sha512 bs, data := Mem.cells 0 bs, place := pl }] := by
  have h := alloc_objs (2 * extentsFor bs.length + 2) (extentsFor bs.length) { c with objs := c.objs.filter (fun x => !(x.part == o.part && x.id == o.id)) }
  unfold Coil.putBytes Coil.place
  generalize Coil.alloc false _ _ _ = X at h ⊢
  exact ⟨X.2, congrArg (· ++ [({ o with len := bs.length, sha := sha512 bs, data := Mem.cells 0 bs, place := X.2 } : Obj)]) h⟩

/-! ### Extents move and objects stay -/

/-- An object without its place. -/
def bareObj (o : Obj) : Obj := { o with place := [] }

theorem same_objs {m n : Module} (h : n.store.objs = m.store.objs) : SameObjects m n := by rw [SameObjects, h]

theorem sameObjects_trans {a b c : Module} (h : SameObjects a b) (k : SameObjects b c) : SameObjects a c := k.trans h

/-- Each object of the one stands in the other, wherever its extents lie. -/
theorem sameObjects_mem {m n : Module} (h : SameObjects m n) {o : Obj} (ho : o ∈ n.store.objs) :
    ∃ p ∈ m.store.objs, o = { p with place := o.place } := by
  have h1 : bareObj o ∈ m.store.objs.map bareObj := h ▸ List.mem_map_of_mem ho
  obtain ⟨p, hp, e⟩ := List.mem_map.1 h1
  refine ⟨p, hp, ?_⟩
  cases o; cases p
  simp only [bareObj, Obj.mk.injEq] at e ⊢
  obtain ⟨e1, e2, e3, e4, e5, e6, e7, e8, e9, _⟩ := e
  exact ⟨e1.symm, e2.symm, e3.symm, e4.symm, e5.symm, e6.symm, e7.symm, e8.symm, e9.symm, trivial⟩

theorem sameObjects_mem' {m n : Module} (h : SameObjects m n) {p : Obj} (hp : p ∈ m.store.objs) :
    ∃ o ∈ n.store.objs, o = { p with place := o.place } := by
  obtain ⟨o, ho, e⟩ := sameObjects_mem (m := n) (n := m) h.symm hp
  refine ⟨o, ho, ?_⟩
  rw [e]

theorem objs_judgePins (fu : Fuses) (m : Module) : (m.judgePins fu).store.objs = m.store.objs := by
  unfold Module.judgePins
  dsimp only
  generalize m.odGet (odKey 0x6020 14) = x
  generalize m.odGet (odKey 0x6020 15) = y
  generalize Option.getD _ 0 = z
  repeat' split
  all_goals simp [Module.onStore]

/-- Judging the thresholds and the pins moves no object. -/
theorem objs_checkStore (fu : Fuses) (m : Module) (old : Coil) : (m.checkStore fu old).store.objs = m.store.objs := by
  obtain ⟨y, e, k⟩ := checkStore_pins fu m old
  rw [e, objs_judgePins, show y.store = m.store from k .store (by simp)]

/-- Relocating moves extents only. -/
theorem sameObjects_relocate (m : Module) (s : Nat) : SameObjects m (m.relocate s) := by
  have key : ∀ (l : List Obj) (acc : Coil × List Obj),
      ((l.foldl (fun (acc : Coil × List Obj) o =>
        let k := ((o.place.filter (fun p => p.1 == s)).map Prod.snd).sum
        if k = 0 then (acc.1, acc.2 ++ [o])
        else
          let a := acc.1.place true k
          (a.1, acc.2 ++ [{ o with place := o.place.filter (fun p => p.1 != s) ++ a.2 }])) acc).2).map bareObj =
      acc.2.map bareObj ++ l.map bareObj := by
    intro l
    induction l with
    | nil => intro acc; simp
    | cons o l ih =>
      intro acc
      simp only [List.foldl_cons, List.map_cons]
      rw [ih]
      split <;> simp [bareObj]
  have h := key m.store.objs (m.store, [])
  simp only [List.map_nil, List.nil_append] at h
  unfold SameObjects Module.relocate
  simp only [bump_store, Module.onStore]
  exact h

theorem sameObjects_retire (fu : Fuses) (m : Module) (d b c : Nat) : SameObjects m (m.retireBlock fu d b c) := by
  unfold Module.retireBlock
  dsimp only
  split
  · exact same_objs rfl
  · generalize m.store = old
    generalize hX : m.onStore _ = X
    have hx : SameObjects m X := same_objs (by rw [← hX]; rfl)
    have ck : ∀ (y : Module) l old, SameObjects y ((y.event fu 0x0601 l).checkStore fu old) := fun y l old =>
      same_objs (by rw [objs_checkStore]; simp)
    refine sameObjects_trans hx (sameObjects_trans (b := if 16 ≤ b then X.relocate b else X) ?_ (ck _ _ _))
    split
    · exact sameObjects_relocate _ _
    · exact same_objs rfl

theorem sameObjects_rebuilt (fu : Fuses) (m : Module) (p d b g : Nat) : SameObjects m (m.pageRebuilt fu p d b g) := by
  unfold Module.pageRebuilt
  generalize hX : Module.event fu _ _ _ = X
  have hx : SameObjects m X := same_objs (by rw [← hX]; simp)
  exact sameObjects_trans hx (sameObjects_retire _ _ _ _ _)

/-- The flaws that work meets move extents only. -/
theorem sameObjects_afterWork (fu : Fuses) (m : Module) (old : Coil) : SameObjects m (m.afterWork fu old) := by
  have key : ∀ (w r : Coil → Nat → Bool) (n : Nat) (m : Module), SameObjects m (Module.meetFlaws fu w r n m) := by
    intro w r n
    induction n with
    | zero => intro m; exact same_objs rfl
    | succ n ih =>
      intro m
      rw [Module.meetFlaws]
      dsimp only
      split
      · exact same_objs rfl
      · refine sameObjects_trans ?_ (ih _)
        generalize hX : m.onStore _ = X
        have hx : SameObjects m X := same_objs (by rw [← hX]; rfl)
        refine sameObjects_trans hx ?_
        split
        · exact sameObjects_retire _ _ _ _ _
        · exact sameObjects_rebuilt _ _ _ _ _ _
  exact key _ _ _ _

/-! ### Writing an object -/

/-- The objects of the store after an object is written, but for where their extents lie. -/
theorem putObj_store (fu : Fuses) (m : Module) (o : Obj) (bs : List Byte) :
    ∃ (c : Coil) (pl : List (Nat × Nat)), c.objs = m.store.objs.filter (fun x => !(x.part == o.part && x.id == o.id)) ++ [{ o with len := bs.length, sha := sha512 bs, data := Mem.cells 0 bs, place := pl }] ∧
      SameObjects { m with store := if o.isSnapOf (field o.id 56 4) then c.trimKept (field o.id 56 4) else c } (m.putObj fu o bs) := by
  obtain ⟨pl, h⟩ := putBytes_objs m.store o bs
  refine ⟨m.store.putBytes o bs, pl, h, ?_⟩
  unfold Module.putObj
  exact sameObjects_trans (same_objs (by rw [objs_checkStore]; rfl)) (sameObjects_afterWork _ _ _)

/-- Trimming kept snapshots keeps the newest. -/
theorem trimKept_has (c : Coil) (k : Nat) (L : List Obj) (new : Obj) (hc : c.objs = L ++ [new]) (hn : new ∉ L) : new ∈ (c.trimKept k).objs := by
  unfold Coil.trimKept
  split
  · rw [hc]; simp
  · rename_i ho
    show new ∈ List.filter _ c.objs
    rw [List.mem_filter]
    refine ⟨by rw [hc]; simp, ?_⟩
    simp only [Bool.not_eq_true', List.contains_eq_mem, decide_eq_false_iff_not]
    intro hmem
    have hmem := hmem
    unfold Coil.kept at hmem
    rw [hc, List.filter_append] at hmem
    by_cases hk : Obj.isSnapOf k new = true
    · rw [List.filter_cons, if_pos hk, List.filter_nil, List.reverse_append] at hmem
      change new ∈ List.drop 1 (List.reverse _) at hmem
      exact hn (List.mem_filter.mp (List.mem_reverse.mp (List.mem_of_mem_drop hmem))).1
    · rw [List.filter_cons, if_neg hk, List.filter_nil, List.append_nil] at hmem
      exact hn (List.mem_filter.mp (List.mem_reverse.mp (List.mem_of_mem_drop hmem))).1

/-- Trimming kept snapshots adds none. -/
theorem trimKept_sub (c : Coil) (k : Nat) (o : Obj) (h : o ∈ (c.trimKept k).objs) : o ∈ c.objs := by
  revert h
  unfold Coil.trimKept
  split
  · exact fun h => h
  · intro h; exact (List.mem_filter.mp h).1

/-- An object that is written is in the store with its bytes and hash; objects of other partitions stay. -/
theorem putObj_has (fu : Fuses) (m : Module) (part id : Nat) (bs : List Byte) :
    (∃ o ∈ (m.putObj fu (Obj.named part id) bs).store.objs, o.part = part ∧ o.id = id ∧ o.len = bs.length ∧ o.sha = sha512 bs ∧ o.data = Mem.cells 0 bs) ∧
    (∀ o ∈ (m.putObj fu (Obj.named part id) bs).store.objs, o.part ≠ part → ∃ p ∈ m.store.objs, o = { p with place := o.place }) := by
  obtain ⟨c, pl, hc, hst⟩ := putObj_store fu m (Obj.named part id) bs
  generalize hnew : ({ Obj.named part id with len := bs.length, sha := sha512 bs, data := Mem.cells 0 bs, place := pl } : Obj) = new at hc
  have hn : new.part = part ∧ new.id = id ∧ new.len = bs.length ∧ new.sha = sha512 bs ∧ new.data = Mem.cells 0 bs := by
    rw [← hnew]; exact ⟨rfl, rfl, rfl, rfl, rfl⟩
  have hnot : new ∉ m.store.objs.filter (fun x => !(x.part == (Obj.named part id).part && x.id == (Obj.named part id).id)) := by
    rw [List.mem_filter]
    intro h
    have e1 : (Obj.named part id).part = part := rfl
    have e2 : (Obj.named part id).id = id := rfl
    rw [e1, e2, hn.1, hn.2.1] at h
    simp at h
  refine ⟨?_, ?_⟩
  · obtain ⟨o, ho, e⟩ := sameObjects_mem' (p := new) hst (by
      dsimp only
      split
      · exact trimKept_has _ _ _ _ hc hnot
      · rw [hc]; simp)
    refine ⟨o, ho, ?_⟩
    rw [e]; exact hn
  · intro o ho h3
    obtain ⟨p, hp, e⟩ := sameObjects_mem hst ho
    refine ⟨p, ?_, e⟩
    have h3 : p.part ≠ part := by rw [e] at h3; exact h3
    have : p ∈ c.objs := by
      revert hp
      dsimp only
      split
      · exact trimKept_sub _ _ _
      · exact fun h => h
    rw [hc] at this
    simp only [List.mem_append, List.mem_filter, List.mem_singleton] at this
    rcases this with h | h
    · exact h.1
    · exact absurd (by rw [h]; exact hn.1) h3

/-- An answer that carries data shows only in the queues. -/
theorem keeps_answerData (m : Module) (q : Nat) (c : Cmd) (a b d : Nat) (bs : List Byte) : KeepsBut [.queues] m (m.answerData q c a b d bs) := by
  unfold Module.answerData
  refine keeps_trans ?_ (kb_foldl _ _ (fun m r => by simp [Module.pushResp, keeps_refl]) _)
  simp [keeps_refl]

/-- Capturing a snapshot touches the store and the queues, and reads HBM. -/
theorem keeps_capture (fu : Fuses) (m : Module) (q : Nat) (c : Cmd) :
    KeepsBut (.queues :: .store :: hbmReading) m (m.captureSnapshot fu q c) := by
  have f : ∀ (x : Module) st, KeepsBut (.queues :: .store :: hbmReading) x (x.snapFailed fu q c st) := by
    intro x st
    unfold Module.snapFailed
    refine keeps_trans ?_ (keeps_mono (keeps_answer _ _ _ _ _ _) (by simp [hbmReading]))
    simp [keeps_refl, hbmReading]
  unfold Module.captureSnapshot
  dsimp only
  refine keeps_ite (f _ _) (keeps_ite (f _ _) ?_)
  generalize hX : m.hbmReads fu c.job _ = X
  have hx : KeepsBut (.queues :: .store :: hbmReading) m X := by
    rw [← hX]; exact keeps_mono (keeps_hbmReads _ _ _ _) (by simp [hbmReading])
  refine keeps_trans hx ?_
  refine keeps_ite (f _ _) (keeps_ite ?_ ?_)
  · refine keeps_trans ?_ (keeps_mono (keeps_answerData _ _ _ _ _ _ _) (by simp))
    simp [keeps_refl, hbmReading]
  · refine keeps_trans ?_ (keeps_mono (keeps_answer _ _ _ _ _ _) (by simp [hbmReading]))
    rw [kb_bump _ _ (by simp [hbmReading])]
    exact keeps_mono (keeps_putObj _ _ _ _) (by simp [hbmReading])

/-- So does capturing all that wait. -/
theorem keeps_captureAll (fu : Fuses) (m : Module) (j : Nat) :
    KeepsBut (.queues :: .store :: .orphans :: hbmReading) m (m.captureAll fu j) := by
  unfold Module.captureAll
  dsimp only
  have k : ∀ (n : Module) (o : List Cmd), KeepsBut (.queues :: .store :: .orphans :: hbmReading) n { n with host := { n.host with orphans := o } } := by
    intro n o q hq; cases q <;> simp_all [Part.same]
  have k1 := k m (m.host.orphans.filter (fun c => c.job != j))
  generalize ({ m with host := { m.host with orphans := m.host.orphans.filter (fun c => c.job != j) } } : Module) = X at k1 ⊢
  have k2 : KeepsBut (.queues :: .store :: .orphans :: hbmReading) X ((m.host.orphans.filter (fun c => c.job == j)).foldl (fun (m : Module) c => m.captureSnapshot fu 16 c) X) :=
    kb_foldl _ _ (fun m c => keeps_mono (keeps_capture fu m 16 c) (by simp [hbmReading])) X
  refine keeps_trans k1 (keeps_trans k2 ?_)
  exact kb_foldl _ _ (fun m q => kb_foldl _ (fun (m : Module) c => m.captureSnapshot fu q c) (fun m c => keeps_mono (keeps_capture fu m q c) (by simp [hbmReading])) _) _

/-- The end of a step without commit. -/
theorem keeps_abandon (fu : Fuses) (m : Module) (j st : Nat) : KeepsBut boundaryParts m (m.abandonStep fu j st) := by
  unfold Module.abandonStep
  dsimp only
  refine keeps_ite (keeps_refl _ _) ?_
  refine keeps_trans (keeps_trans ?_ (keeps_mono (keeps_captureAll _ _ _) (by simp [boundaryParts, hbmReading])))
    (keeps_mono (keeps_judgeIdle _ _ _) (by simp [boundaryParts, hbmReading]))
  rw [kb_bump _ _ (by simp [boundaryParts, hbmReading]), kb_onJob _ _ (by simp [boundaryParts, hbmReading]), kb_answerSteps _ _ (by simp [boundaryParts, hbmReading])]
  exact keeps_trans (keeps_mono (keeps_endFlights _ _ _ _) (by simp [boundaryParts, hbmReading]))
    (kb_foldl _ _ (fun m g => by simp [keeps_refl, boundaryParts, hbmReading]) _)

end Sys2Proof.Laws
end

