-- ==== Sys2Proof/Laws/Hosts.lean ====
section
/-!
SUPPORT. What a host command that begins comes to: its own effect, and then the commands that may start after it.
-/
namespace Sys2Proof.Laws

open Sys2Proof Sys2Proof.Machine

/-- One change of a queue after another. -/
theorem onQueue_onQueue (m : Module) (q : Nat) (f g : Queue → Queue) :
    (m.onQueue q f).onQueue q g = m.onQueue q (fun t => g (f t)) := by
  have h : ∀ (l : List Queue) (i : Nat), modifyAt g (modifyAt f l i) i = modifyAt (fun t => g (f t)) l i := by
    intro l
    induction l with
    | nil => intro i; rfl
    | cons a l ih =>
      intro i
      cases i with
      | zero => rfl
      | succ i => simp [modifyAt, ih]
  simp only [Module.onQueue, h]

theorem le_sum_of_mem {a : Nat} {l : List Nat} (h : a ∈ l) : a ≤ l.sum := by
  induction l with
  | nil => cases h
  | cons b l ih =>
    rcases List.mem_cons.1 h with rfl | h
    · simp
    · have := ih h; simp; omega

/-- A module with a command that may start has a command. -/
theorem next_count {x : Module} {q : Nat} {c : Cmd} (h : x.nextStart = some (q, c)) :
    c ∈ (x.queue q).cmds ∧ c.state = 0 ∧ 0 < (x.host.queues.map (fun t => t.cmds.length)).sum := by
  unfold Module.nextStart at h
  dsimp only at h
  rw [Option.bind_eq_some_iff] at h
  obtain ⟨n, _, h⟩ := h
  have hm := List.mem_of_find?_eq_some h
  rw [List.mem_flatMap] at hm
  obtain ⟨t, ht, hm⟩ := hm
  rw [List.mem_map] at hm
  obtain ⟨d, hd, e⟩ := hm
  obtain ⟨rfl, rfl⟩ := Prod.mk.injEq .. ▸ e
  rw [List.mem_filter] at hd
  have hz := List.mem_zipIdx ht
  have hq : x.queue t.2 = t.1 := by
    have := hz.2.2
    simp only [Nat.sub_zero] at this
    rw [Module.queue, List.getD_eq_getElem?_getD, List.getElem?_eq_getElem (by have := hz.2.1; omega)]
    exact this.symm
  refine ⟨by rw [hq]; exact hd.1, by simpa using (by simpa using hd.2 : d.state = 0 ∧ _).1, ?_⟩
  have hmem : t.1.cmds.length ∈ x.host.queues.map (fun t => t.cmds.length) := by
    refine List.mem_map.2 ⟨t.1, ?_, rfl⟩
    have := List.mem_zipIdx' ht
    rw [this.2]; exact List.getElem_mem _
  have hpos : 0 < t.1.cmds.length := List.length_pos_of_mem hd.1
  exact Nat.lt_of_lt_of_le hpos (le_sum_of_mem hmem)

/-- The earliest command starts, and then those that may. -/
theorem settle_next (fu : Fuses) {x : Module} {q : Nat} {c : Cmd} (h : x.nextStart = some (q, c)) :
    x.settle fu = thenStart fu x (x.startCmd fu q c) := by
  unfold Module.settle thenStart
  obtain ⟨k, hk⟩ := Nat.exists_eq_succ_of_ne_zero (Nat.pos_iff_ne_zero.1 (next_count h).2.2)
  rw [hk, Module.startNext, h]
  rfl

/-- A packet that begins a command has it joined and started. -/
theorem begins_take {s : State} {q : Nat} {p : Packet} {ups : List FlashUpset} {c : Cmd} {x : Module} (h : Begins s q p ups c x)
    (rowOp : Nat → Bool) (ho : rowOp c.opcode = true) :
    s.m.takeCommand s.fuse q p rowOp ups = thenStart s.fuse x (x.startCmd s.fuse q c) := by
  obtain ⟨_, _, ht, hch, hb, hf, hc, hok, hx, hn⟩ := h
  unfold leavesRing at hb hf hc hx
  have hop : c.opcode = p.opcode := by rw [hc]; rfl
  unfold Module.takeCommand
  dsimp only
  rw [ht, ← hop, ho, hch]
  simp only [Bool.not_true, Bool.or_self, Bool.false_eq_true, if_false, hb, hf]
  unfold Module.beginCommand
  dsimp only
  rw [← hc, if_neg, onQueue_onQueue, ← settle_next _ hn, hx]
  · cases hi : isChain c.opcode
    · simp
    · have := hok hi
      simp [this.1, this.2]

/-- A row of the host takes the packet that begins its command. -/
theorem goes_take {s : State} {q : Nat} {p : Packet} {ups : List FlashUpset} {c : Cmd} {x : Module} (h : Begins s q p ups c x)
    {i : Instr} {rowOp : Nat → Bool} {P : Module → Prop}
    (hi : exec i s = s.actOn (q < 16) (fun fu m => m.takeCommand fu q p rowOp ups)) (ho : rowOp c.opcode = true)
    (hp : P (thenStart s.fuse x (x.startCmd s.fuse q c))) : Goes s i P := by
  refine goes_actOn hi (by simp [h.1]) h.2.1 ?_
  rw [begins_take h rowOp ho]
  exact hp

/-- A command that ends at once. -/
theorem goes_ends {s : State} {q : Nat} {p : Packet} {ups : List FlashUpset} {c : Cmd} {x : Module} (h : Begins s q p ups c x)
    {i : Instr} {rowOp : Nat → Bool} {P : Module → Prop} {st w4 w5 : Nat} {z : Module}
    (hi : exec i s = s.actOn (q < 16) (fun fu m => m.takeCommand fu q p rowOp ups)) (ho : rowOp c.opcode = true)
    (hs : x.startCmd s.fuse q c = z.answer q c st w4 w5) (hp : P z) : Goes s i (Ends s.fuse x q c st w4 w5 P) :=
  goes_take h hi ho ⟨z, hp, by rw [hs]⟩

/-- A command that goes on. -/
theorem goes_runs {s : State} {q : Nat} {p : Packet} {ups : List FlashUpset} {c : Cmd} {x : Module} (h : Begins s q p ups c x)
    {i : Instr} {rowOp : Nat → Bool} {P : Module → Prop} {z : Module}
    (hi : exec i s = s.actOn (q < 16) (fun fu m => m.takeCommand fu q p rowOp ups)) (ho : rowOp c.opcode = true)
    (hs : x.startCmd s.fuse q c = z.started q c) (hp : P z) : Goes s i (RunsOn s.fuse x q c P) :=
  goes_take h hi ho ⟨z, hp, by rw [hs]⟩

/-! ### The queue of a command that begins -/

theorem keeps_pageLost (fu : Fuses) (m : Module) (p i g k d : Nat) :
    KeepsBut [.store, .od, .log, .report] m (m.pageLost fu p i g k d) := by
  unfold Module.pageLost
  simp [keeps_refl]

theorem keeps_ownUpset (fu : Fuses) (m : Module) (u : FlashUpset) : KeepsBut [.store, .od, .log, .report] m (m.ownUpset fu u) := by
  cases u
  · exact keeps_retireBlock _ _ _ _ _
  · exact keeps_retireBlock _ _ _ _ _
  · exact keeps_pageRebuilt _ _ _ _ _ _
  · exact keeps_pageLost _ _ _ _ _ _ _
  · exact keeps_mono (keeps_onStore m _) (by simp)
  · exact keeps_refl _ _
  · exact keeps_refl _ _

/-- Happenings in the flash array touch the store and the reports. -/
theorem keeps_flash (fu : Fuses) (m : Module) (c : Cmd) (ups : List FlashUpset) :
    KeepsBut [.store, .od, .log, .report] m (m.flashMeets fu c ups) := by
  have reads : ∀ (m : Module) a b, KeepsBut [.store, .od, .log, .report] m (m.pageReads fu a b ups) := by
    intro m a b
    unfold Module.pageReads
    refine kb_foldl _ _ (fun m u => ?_) m
    split
    · exact keeps_pageRebuilt _ _ _ _ _ _
    · exact keeps_pageLost _ _ _ _ _ _ _
    · exact keeps_refl _ _
    · exact keeps_refl _ _
    · exact keeps_ownUpset _ _ _
  have die : ∀ (m : Module) o, KeepsBut [.store, .od, .log, .report] m (m.dieReads fu o) := by
    intro m o
    unfold Module.dieReads
    exact keeps_ite (keeps_refl _ _) (kb_foldl _ _ (fun m p => keeps_pageRebuilt _ _ _ _ _ _) m)
  unfold Module.flashMeets
  dsimp only
  refine keeps_ite (kb_foldl _ _ (fun m u => keeps_ownUpset _ _ _) m) ?_
  generalize (if c.opcode = 0x10 then (2, c.w 3) else if c.opcode = 0x19 then (3, moduleId 0 c.job (c.w 2)) else (c.w 2, c.w 3)) = o
  split
  · exact keeps_ite (keeps_trans (reads _ _ _) (die _ _)) (keeps_refl _ _)
  · exact keeps_refl _ _

theorem queues_flash (fu : Fuses) (m : Module) (c : Cmd) (ups : List FlashUpset) : (m.flashMeets fu c ups).host.queues = m.host.queues :=
  keeps_flash fu m c ups .queues (by simp)

/-- A command that begins stands last in its queue, and no other has its tag. -/
theorem begins_cmds {s : State} {q : Nat} {p : Packet} {ups : List FlashUpset} {c : Cmd} {x : Module} (h : Begins s q p ups c x) :
    ∃ old, (x.queue q).cmds = old ++ [c] ∧ (∀ d ∈ old, d.tag ≠ c.tag) ∧ q < x.host.queues.length := by
  obtain ⟨_, _, ht, hch, hb, hf, hc, hok, hx, hn⟩ := h
  have hq : q < x.host.queues.length := by
    apply Classical.byContradiction
    intro hq
    have := (next_count hn).1
    simp [Module.queue, List.getD_eq_getElem?_getD, List.getElem?_eq_none (Nat.le_of_not_lt hq), Queue.reset] at this
  generalize hy : leavesRing s.m q p = y at *
  have hqs : x.host.queues = modifyAt (fun t => { ({ t with cmds := t.cmds ++ [c] } : Queue) with
      chain := if isChain c.opcode && !c.endsAt 0 then some c.tag else none }) y.host.queues q := by
    rw [hx, queues_flash]
    have := onQueue_onQueue y q (fun t => { t with cmds := t.cmds ++ [c] }) (fun t => { t with
      chain := if isChain c.opcode && !c.endsAt 0 then some c.tag else none })
    exact congrArg (fun m : Module => m.host.queues) this
  have hl : q < y.host.queues.length := by rw [hqs] at hq; simpa using hq
  refine ⟨(y.queue q).cmds, ?_, ?_, hq⟩
  · have : x.queue q = { ({ y.queue q with cmds := (y.queue q).cmds ++ [c] } : Queue) with
        chain := if isChain c.opcode && !c.endsAt 0 then some c.tag else none } := by
      rw [Module.queue, hqs, modifyAt_getD]
      simp [hl, Module.queue]
    rw [this]
  · intro d hd e
    have hh : y.tagHeld p.tag = false := by
      have := hb
      unfold Module.beginsWell at this
      simp only [Bool.and_eq_true, Bool.not_eq_true'] at this
      exact this.2
    have e' : d.tag = p.tag := by rw [e, hc]; rfl
    have : y.tagHeld p.tag = true := by
      unfold Module.tagHeld
      rw [List.any_eq_true]
      refine ⟨y.queue q, ?_, ?_⟩
      · rw [Module.queue, List.getD_eq_getElem?_getD, List.getElem?_eq_getElem hl]; exact List.getElem_mem _
      · rw [List.any_eq_true]; exact ⟨d, hd, by simp [e']⟩
    rw [hh] at this; cases this

/-- The data of a chain command that has just started are those of its first packet. -/
theorem feed_started {s : State} {q : Nat} {p : Packet} {ups : List FlashUpset} {c : Cmd} {x : Module} (h : Begins s q p ups c x)
    {z : Module} (hz : z.host.queues = x.host.queues) :
    ((z.started q c).queue q).cmds.find? (fun d => d.tag == c.tag) = some { c with state := 1 } := by
  obtain ⟨old, e, ho, hl⟩ := begins_cmds h
  have : ((z.started q c).queue q).cmds = old.map (fun d => if d.tag = c.tag then { d with state := 1 } else d) ++ [{ c with state := 1 }] := by
    unfold Module.started Module.onCmd
    rw [queue_onQueue, if_pos ⟨rfl, by rw [hz]; exact hl⟩]
    have : (z.queue q).cmds = old ++ [c] := by rw [← e]; simp only [Module.queue, hz]
    simp [Queue.onCmd, this]
  rw [this, List.find?_append]
  have : (old.map (fun d => if d.tag = c.tag then { d with state := 1 } else d)).find? (fun d => d.tag == c.tag) = none := by
    rw [List.find?_eq_none]
    intro d hd
    obtain ⟨d', hd', rfl⟩ := List.mem_map.1 hd
    rw [if_neg (ho d' hd')]
    simpa using ho d' hd'
  rw [this]
  simp

/-! ### Starting -/

/-- A command that names a FREE context, and whose own failure raises no event. -/
theorem start_denied (fu : Fuses) (x : Module) (q : Nat) (c : Cmd) (h1 : c.opcode ≠ 1) (h2 : namesJob c.opcode = true)
    (ht : tellsFailure c.opcode = false) (h3 : (x.job c.job).state = 0) : x.startCmd fu q c = x.answer q c stDenied 0 0 := by
  unfold Module.startCmd
  rw [if_pos]; simp [h1, h2, ht, h3]

/-- A command that names no FREE context. -/
theorem start_live (x : Module) (c : Cmd)
    (h : c.opcode = 1 ∨ namesJob c.opcode = false ∨ tellsFailure c.opcode = true ∨ (x.job c.job).state ≠ 0) :
    (c.opcode != 1 && namesJob c.opcode && !tellsFailure c.opcode && (x.job c.job).state == 0) = false := by
  rcases h with h | h | h | h <;> simp [h]

/-- A live context is not FREE. -/
theorem live_ne {b : Job} (h : b.live = true) : b.state ≠ 0 := by
  intro e; simp [Job.live, e] at h

/-! ### What the commands leave -/

/-- Placing a job leaves its context LOADED with the resources taken. -/
theorem place_ok (m : Module) (j seed : Nat) (im : List Byte) (l : Loading) (p : Place) (hj : j < m.jobs.length) :
    ((m.place j seed im l p).job j).state = 2 ∧ ((m.place j seed im l p).job j).seed = seed ∧ ((m.place j seed im l p).job j).cores = p.cores ∧
    ((m.place j seed im l p).job j).hbmBase = p.base ∧ ((m.place j seed im l p).job j).image = l.img ∧
    ((m.place j seed im l p).job j).hash = sha512 im ∧ OtherJobs j m (m.place j seed im l p) ∧
    KeepsBut [.cores, .clusters, .hbm, .hbmPoison, .jobs, .residency] m (m.place j seed im l p) := by
  unfold Module.place
  dsimp only
  generalize hA : ({ m with hbm := _, hbmPoison := _, bursts := _, residency := _ } : Module) = A
  have kA : KeepsBut [.hbm, .hbmPoison, .residency] m A := by rw [← hA]; intro p hp; cases p <;> simp_all [Part.same]
  generalize hB : List.foldl _ A p.ranges = B
  have kB : KeepsBut [.clusters] A B := by
    rw [← hB]; exact kb_foldl _ _ (fun m r => by simp [keeps_refl]) _
  generalize hC : List.foldl _ B p.cores = C
  have kC : KeepsBut [.cores] B C := by
    rw [← hC]; exact kb_foldl _ _ (fun m r => by simp [keeps_refl]) _
  have k : KeepsBut [.cores, .clusters, .hbm, .hbmPoison, .residency] m C :=
    keeps_trans (keeps_trans (keeps_mono kA (by simp)) (keeps_mono kB (by simp))) (keeps_mono kC (by simp))
  have jobs : C.jobs = m.jobs := k .jobs (by simp)
  rw [job_onJob_self _ _ _ (by rw [jobs]; exact hj)]
  refine ⟨rfl, rfl, rfl, rfl, rfl, rfl, fun i hi => ?_, ?_⟩
  · rw [job_onJob_other _ _ _ _ hi]; simp only [Module.job, jobs]
  · rw [kb_onJob _ _ (by simp)]; exact keeps_mono k (by simp)

/-- A started command changes its queue. -/
theorem started_keeps (m : Module) (q : Nat) (c : Cmd) : KeepsBut [.queues] m (m.started q c) := by
  unfold Module.started Module.onCmd; exact keeps_onQueue _ _ _
theorem started_jobs (m : Module) (q : Nat) (c : Cmd) : (m.started q c).jobs = m.jobs := rfl

/-- A rejected load ends its context, where that is its own. -/
theorem reject_ok (fu : Fuses) (m : Module) (j seed : Nat) (own : Bool) (r : LoadResult) :
    let z := m.rejectLoad fu j seed own r
    (own = true → j < m.jobs.length → z.job j = { Job.free with pendingSnap := (m.job j).pendingSnap, state := 4, endStatus := r.status, loadCheck := r.check, seed := seed }) ∧
    (own = false → z.jobs = m.jobs) ∧ OtherJobs j m z ∧ KeepsBut [.jobs, .od, .log, .report] m z := by
  dsimp only
  unfold Module.rejectLoad
  cases own
  · refine ⟨by simp, fun _ => by simp, fun i hi => by simp, by simp [keeps_refl]⟩
  · simp only [if_true, job_of_event, job_of_bump]
    refine ⟨fun _ hj => by rw [job_onJob_self _ _ _ hj], by simp, fun i hi => by
      simp only [job_of_event, job_of_bump]
      rw [job_onJob_other _ _ _ _ hi], by simp [keeps_refl]⟩

/-- Ending a core's instructions early touches cores, queues and reports. -/
theorem cancelCore_keeps (fu : Fuses) (j : Nat) (m : Module) (g : Nat) :
    KeepsBut [.cores, .od, .log, .report, .queues] m (m.cancelCore fu j g) := by
  unfold Module.cancelCore Module.dropStale
  dsimp only
  rw [kb_onCore _ _ (by simp)]
  exact keeps_trans (kb_foldl _ _ (fun m i => keeps_mono (keeps_instrDone fu m i _) (by simp)) m)
    (kb_foldl _ _ (fun m v => keeps_trans (by simp [keeps_refl]) (keeps_mono (keeps_instrDone fu _ _ _) (by simp))) _)

/-- An abandoned step leaves its job LOADED and commits nothing. -/
theorem abandon_job (fu : Fuses) (m : Module) (j st : Nat) (h3 : (m.job j).state = 3) :
    ((m.abandonStep fu j st).job j).state = 2 ∧ ((m.abandonStep fu j st).job j).step = (m.job j).step ∧
    ((m.abandonStep fu j st).job j).halfBits = (m.job j).halfBits ∧ ((m.abandonStep fu j st).job j).run.epoch = (m.job j).run.epoch ∧
    OtherJobs j m (m.abandonStep fu j st) := by
  have hl : j < m.jobs.length := job_lt (by simp [h3])
  unfold Module.abandonStep
  dsimp only
  rw [if_neg (by simp [h3])]
  have same : ∀ (y : Module) i, ((y.captureAll fu j).judgeIdle fu j).job i = y.job i := fun y i => by
    have a : (y.captureAll fu j).jobs = y.jobs := keeps_captureAll fu y j .jobs (by simp [hbmReading])
    have b : ((y.captureAll fu j).judgeIdle fu j).jobs = (y.captureAll fu j).jobs := keeps_judgeIdle fu _ j .jobs (by simp)
    simp only [Module.job, b, a]
  simp only [same, job_of_bump]
  generalize hX : Module.answerSteps _ j st = X
  have xj : X.jobs = m.jobs := by
    rw [← hX, answerSteps_jobs]
    refine (foldl_keep (fun y : Module => y.jobs) _ _ (fun (y : Module) (g : Nat) => ?_) _).trans (endFlights_jobs fu m j stCancelled)
    rfl
  have e : ∀ i, X.job i = m.job i := fun i => by simp only [Module.job, xj]
  rw [job_onJob_self _ _ _ (by rw [xj]; exact hl), e]
  refine ⟨rfl, rfl, rfl, rfl, fun i hi => ?_⟩
  rw [same]
  simp only [job_of_bump]
  rw [job_onJob_other _ _ _ _ hi, e]

/-- The job after a change of a slot. -/
theorem slotJob (x : Module) (j v : Nat) (f : Slot → Slot) (h : j < x.jobs.length) :
    (x.onSlot j v f).job j = { x.job j with slots := modifyAt f (x.job j).slots v } := by
  unfold Module.onSlot; rw [job_onJob_self _ _ _ h]
theorem slotOther (x : Module) (j v : Nat) (f : Slot → Slot) : OtherJobs j x (x.onSlot j v f) := fun i hi => by
  unfold Module.onSlot; rw [job_onJob_other _ _ _ _ hi]
theorem keeps_onSlot (x : Module) (j v : Nat) (f : Slot → Slot) : KeepsBut [.jobs] x (x.onSlot j v f) := keeps_onJob _ _ _

theorem same_weights (m : Module) (j t v half : Nat) (bs : List Byte) : Same j m (m.putWeights j t v half bs) :=
  ⟨fun _ _ => rfl, rfl, by intro p hp; cases p <;> simp_all [Module.putWeights, Part.same], _, _, rfl⟩
theorem same_code (m : Module) (j t half e k c : Nat) : Same j m (m.putStateCode j t half e k c) := same_stateAt ..
theorem same_state (m : Module) (j t v half : Nat) (bs : List Byte) : Same j m (m.putState j t v half bs) := by
  unfold Module.putState
  dsimp only
  split
  · exact same_fold _ _ _ (fun a k => same_stateAt ..) _
  · exact same_fold _ _ _ (fun a k => same_fold _ _ _ (fun a e => same_code ..) a) m
theorem same_foldl {α : Type} (j : Nat) (l : List α) (f : Module × Nat → α → Module × Nat) (hf : ∀ a x, Same j a.1 (f a x).1)
    (a : Module × Nat) : Same j a.1 (l.foldl f a).1 := by
  induction l generalizing a with
  | nil => exact same_refl _ _
  | cons x l ih => exact same_trans (hf a x) (ih _)
/-- Taking a stored set. -/
theorem same_take (m : Module) (j v : Nat) (o : Obj) : Same j m (m.takeSet j v o) := by
  unfold Module.takeSet
  dsimp only
  have h := same_foldl j (m.job j).adapterTensors (fun (acc : Module × Nat) t =>
    (acc.1.putWeights j t v ((m.job j).committed t v) (padTo (2 * (m.job j).regionElems t) (slice o.bytes acc.2 (2 * (m.job j).regionElems t))), acc.2 + 2 * (m.job j).regionElems t))
    (fun a t => same_weights _ _ _ _ _ _) (m, 0)
  split
  · exact h
  · exact same_trans h (same_foldl j _ _ (fun a t => same_state _ _ _ _ _ _) _)
/-- Writing regions back. -/
theorem same_regions (m : Module) (j : Nat) (st : Bool) (half : Nat → Nat → Nat) (rs : List (Nat × Nat)) (bs : List Byte) (off : Nat) :
    Same j m (m.putRegions j st half rs bs off).1 := by
  unfold Module.putRegions
  refine same_foldl j rs _ (fun a r => ?_) (m, off)
  dsimp only
  split
  · exact same_trans (same_weights _ _ _ _ _ _) (same_state _ _ _ _ _ _)
  · exact same_weights _ _ _ _ _ _

/-- Turning a list of slots over. -/
theorem turn_fold (j next : Nat) (l : List Nat) : ∀ (m : Module), j < m.jobs.length →
    let z := l.foldl (fun (m : Module) v => m.onSlot j v (fun s => { s with next := next })) m
    (∀ v, (z.job j).slots[v]? = ((m.job j).slots[v]?).map (fun y => if v ∈ l then { y with next := next } else y)) ∧
    OtherJobs j m z ∧ KeepsBut [.jobs] m z := by
  induction l with
  | nil => intro m _; exact ⟨fun v => by simp, fun _ _ => rfl, keeps_refl _ _⟩
  | cons a l ih =>
    intro m hm
    have h1 : j < (m.onSlot j a (fun s => { s with next := next })).jobs.length := by unfold Module.onSlot; rw [onJob_len]; exact hm
    obtain ⟨b1, b2, b3⟩ := ih _ h1
    refine ⟨fun v => ?_, fun i hi => ?_, ?_⟩
    · simp only [List.foldl_cons]
      rw [b1, slotJob _ _ _ _ hm]
      simp only [modifyAt_getElem?]
      by_cases e : v = a
      · subst e; simp only [if_true, List.mem_cons, true_or, Option.map_map]
        cases (m.job j).slots[v]? <;> simp
      · simp [e]
    · simp only [List.foldl_cons]; rw [b2 i hi, slotOther _ _ _ _ i hi]
    · exact keeps_trans (keeps_onSlot _ _ _ _) b3

/-- A written object stands in the store; other partitions are as they were. -/
theorem put_has (fu : Fuses) (m : Module) (ob : Obj) (bs : List Byte) :
    (∃ o ∈ (m.putObj fu ob bs).store.objs, o.part = ob.part ∧ o.id = ob.id ∧ o.len = bs.length ∧ o.data = Mem.cells 0 bs ∧ o.sites = ob.sites) ∧
    (∀ o ∈ (m.putObj fu ob bs).store.objs, o.part ≠ ob.part → ∃ p ∈ m.store.objs, o = { p with place := o.place }) := by
  obtain ⟨cc, pl, hc, hst⟩ := putObj_store fu m ob bs
  generalize hnew : ({ ob with len := bs.length, sha := sha512 bs, data := Mem.cells 0 bs, place := pl } : Obj) = new at hc
  have hmem : new ∉ m.store.objs.filter (fun x => !(x.part == ob.part && x.id == ob.id)) := by
    intro hm
    have := (List.mem_filter.1 hm).2
    rw [← hnew] at this
    simp at this
  refine ⟨?_, fun o ho hpp => ?_⟩
  · obtain ⟨o, ho, e⟩ := sameObjects_mem' (p := new) hst (by
      dsimp only
      split
      · exact trimKept_has _ _ _ _ hc hmem
      · rw [hc]; simp)
    refine ⟨o, ho, ?_⟩
    rw [e, ← hnew]; exact ⟨rfl, rfl, rfl, rfl, rfl⟩
  · obtain ⟨p, hp, e⟩ := sameObjects_mem hst ho
    refine ⟨p, ?_, e⟩
    have hpp : p.part ≠ ob.part := by rw [e] at hpp; exact hpp
    have hp : p ∈ cc.objs := by
      revert hp
      dsimp only
      split
      · exact trimKept_sub _ _ _
      · exact fun h => h
    rw [hc] at hp
    rcases List.mem_append.1 hp with h | h
    · exact (List.mem_filter.1 h).1
    · rw [List.mem_singleton] at h; rw [h, ← hnew] at hpp; exact absurd rfl hpp

/-- A restored job. -/
theorem restore_facts (m : Module) (j : Nat) (bs : List Byte) (hl : j < m.jobs.length) :
    ((m.restoreFrom j bs).job j).step = leAt bs 8 8 ∧ OtherJobs j m (m.restoreFrom j bs) ∧
    KeepsBut [.jobs, .hbm, .hbmPoison] m (m.restoreFrom j bs) := by
  unfold Module.restoreFrom
  dsimp only
  generalize hr : m.putRegions j true _ _ bs snapHeaderLen = r
  have hs : Same j m r.1 := by rw [← hr]; exact same_regions _ _ _ _ _ _ _
  obtain ⟨a1, a2, a3, _⟩ := hs
  rw [job_onJob_self _ _ _ (by rw [a2]; exact hl)]
  refine ⟨rfl, fun i hi => by rw [job_onJob_other _ _ _ _ hi, a1 i hi], ?_⟩
  rw [kb_onJob _ _ (by simp)]; exact a3

/-- Setting pins. -/
theorem pin_ok (m : Module) (j e : Nat) (on : Bool) :
    (m.setPin j e on).residency = m.residency.map (fun (r : Nat × Residency) =>
        if r.2.job = j ∧ r.2.state ≠ 0 ∧ r.2.expert = e then (r.1, { r.2 with pinned := on }) else r) ∧
    OtherJobs j m (m.setPin j e on) ∧ KeepsBut [.residency, .jobs] m (m.setPin j e on) ∧
    (j < m.jobs.length → ((m.setPin j e on).job j).fetches = (m.job j).fetches.map (fun (f : Fetch) => if f.expert = e then { f with pin := on } else f)) := by
  unfold Module.setPin
  refine ⟨?_, fun i hi => ?_, ?_, fun hl => ?_⟩
  · simp only [onJob_residency]
    refine List.map_congr_left (fun r _ => ?_)
    by_cases h1 : r.2.job = j <;> by_cases h2 : r.2.state = 0 <;> by_cases h3 : r.2.expert = e <;> simp [h1, h2, h3]
  · rw [job_onJob_other _ _ _ _ hi]; rfl
  · rw [kb_onJob _ _ (by simp)]
    intro p hp; cases p <;> simp_all [Part.same]
  · have key : ∀ (y : Module) (f : Job → Job), y.jobs = m.jobs → (y.onJob j f).job j = f (m.job j) := by
      intro y f hy
      rw [job_onJob_self _ _ _ (by rw [hy]; exact hl)]; simp only [Module.job, hy]
    exact (congrArg Job.fetches (key _ _ rfl) :)

/-- An expert that no entry holds is not resident. -/
theorem resident_none {x : Module} {j e : Nat} (h : (x.entriesOf j).any (fun r => r.2.state != 0 && r.2.expert == e) = false) :
    x.residentOf j e = none := by
  unfold Module.residentOf
  rw [Option.map_eq_none_iff, List.find?_eq_none]
  intro r hr hh
  rw [List.any_eq_false] at h
  simp only [Bool.and_eq_true, beq_iff_eq, bne_iff_ne] at hh
  refine h r (List.mem_filter.2 ⟨hr, by simpa using hh.1.1⟩) ?_
  simp [hh.1.2, hh.2]

/-- A byte of the job region after a store. -/
theorem wr_get (x : Module) (j a0 : Nat) (bs : List Byte) (a : Nat) :
    (x.storeAt j 0 2 a0 bs false).hbm.get a = if (x.job j).hbmBase + a0 ≤ a ∧ a < (x.job j).hbmBase + a0 + bs.length
      then bs.getD (a - ((x.job j).hbmBase + a0)) 0 else x.hbm.get a := by
  unfold Module.storeAt
  rw [if_neg (by decide), if_neg (by decide)]
  dsimp only
  rw [get_write]
theorem wr_keeps (x : Module) (j a0 : Nat) (bs : List Byte) : KeepsBut [.hbm, .hbmPoison] x (x.storeAt j 0 2 a0 bs false) := by
  unfold Module.storeAt
  rw [if_neg (by decide), if_neg (by decide)]
  intro p hp; cases p <;> simp_all [Part.same]

end Sys2Proof.Laws
end

