-- ==== Sys2Proof/Tests/Slice0.lean ====
section
/-!
SUPPORT. Tests: a witness for the hypotheses of every statement (a concrete state and operands that meet them together), terms that
well-formedness refuses, one for each of its checks, and the front of the queue.
-/
namespace Sys2Proof.Tests
open Sys2Proof Sys2Proof.Machine

/- The theorems are checked one after another: each needs the memory of a whole module. -/
set_option Elab.async false

/-! ### Helpers -/

/-- A core that holds job 0 with nothing in flight. -/
def core0 : Core := { Core.reset with enabled := true, ready := true, job := some 0 }

/-- A buffer of 4 KiB in a space, with layout 0. -/
def bufIn (space base fmt : Nat) : Buffer :=
  { space := space, consumer := 0, combine := 0, fmt := fmt, halves := false, fixed := false, base := base, size := 4096,
    layout := 0, scale := 0, scaled := false }

/-- A running job of core 0 with one stream; buffers 1, 2 and 3 lie in HBM, 4 and 5 in the scratchpad; layout 0 has the
extents 1 and 1. -/
def job0 (ws : List Words) : Job :=
  { Job.free with
    state := 3, cores := [0], tagLimit := 1,
    image := { Image.empty with
      arrays := 1, coresMin := 1, hbmBytes := 65536, roleMap := List.replicate 8 0,
      buffers := [bufIn 2 0 0, bufIn 2 4096 0, bufIn 2 8192 0, bufIn 2 12288 0, bufIn 0 0 0, bufIn 0 4096 0],
      layouts := [{ dims := [{ axis := 0, extent := { src := 0, slot := 0, plan := 0 }, stride := 1 },
                             { axis := 1, extent := { src := 0, slot := 0, plan := 0 }, stride := 1 }],
                    sparse := false, coord := false, aux := 0 }] },
    prog := { Program.empty with streams := [ws], sched := [ws] }, run := { Run.empty with active := true } }

/-- The module with core 0 and job 0 as given. -/
def bench (c : Core) (b : Job) : State :=
  { State.reset with m := { Module.reset with
    cores := c :: List.replicate 383 Core.reset, jobs := b :: List.replicate 15 Job.free } }

/-- The instruction of words `ws` at core 0's position 0. -/
def inst0 (ws : Words) : Inst := { job := 0, core := 0, index := 0, words := ws, entry := none }

/-- Without happenings and without a fence to take, a command goes on. -/
theorem meet_nil (fu : Fuses) (m : Module) (i : Inst) (h : (m.core i.core).fenceReq.isSome = false) :
    m.meet fu i [] = (m, true) := by
  simp [Module.meet, h]

/-- An instruction without shape words reads none. -/
theorem readShapes_none (fu : Fuses) (m : Module) (i : Inst) (h : m.shapeWords i = []) : m.readShapes fu i = m := by
  have e : inRanges [] = fun _ => false := rfl
  have n : ∀ l : List BadBurst, l.filter (fun _ => false) = [] := fun l => List.filter_eq_nil_iff.2 (by simp)
  simp [Module.readShapes, Module.hbmReads, Module.narrowReads, h, e, n]

/-- What `Issues` asks, as one check, where no happening is met and no shape word is read. -/
theorem issues_of (s : State) (g j : Nat) (kind : Words → Bool) (i : Inst)
    (h : (decide (g < 384) && s.m.powered && s.m.canIssue g && ((s.m.core g).job == some j) && (s.m.instAt g j == some i) &&
      kind i.words && !s.m.stale i && !(s.m.core i.core).fenceReq.isSome && (s.m.shapeWords i == [])) = true) :
    Issues s g kind [] i s.m := by
  simp only [Bool.and_eq_true, decide_eq_true_eq, beq_iff_eq, Bool.not_eq_true'] at h
  obtain ⟨⟨⟨⟨⟨⟨⟨⟨h1, h2⟩, h3⟩, h4⟩, h5⟩, h6⟩, h7⟩, h8⟩, h9⟩ := h
  exact ⟨h1, h2, h3, ⟨j, h4, h5⟩, h6, s.m, meet_nil _ _ _ h8, h7, (readShapes_none _ _ _ h9).symm⟩

/-- What `ShapesGood` asks, as one check. -/
theorem shapes_of (m : Module) (i : Inst) (ss : List Shape) (refs : List Nat)
    (h : (m.shapesBad i ss refs == none) = true) : ShapesGood m i [] ss refs := by
  refine ⟨?_, by simpa using h⟩
  simp [shapeIsLate]

/-- Core 0 of job 0 at the instruction `ws`. -/
def at0 (ws : Words) : State := bench core0 (job0 [ws])

/-! ### Witnesses: CONTROL -/

/-- Words of a CONTROL instruction with an immediate shape. -/
def ctlWords (op n : Nat) : Words := [5 * 2 ^ 60 + op * 2 ^ 56, 0, n * 2 ^ 32]

theorem test_witness_loopsRepeatTheirCount :
    (∀ op ∈ [0, 2, 3], Issues (at0 (ctlWords op 1)) 0 (isControl op) [] (inst0 (ctlWords op 1)) (at0 (ctlWords op 1)).m) ∧
    (∀ n ∈ [0, 1], ShapesGood (at0 (ctlWords 2 n)).m (inst0 (ctlWords 2 n)) [] [controlShape (ctlWords 2 n)] []) := by
  refine ⟨fun op h => issues_of _ 0 0 _ _ ?_, fun n h => shapes_of _ _ _ _ ?_⟩
  · revert op; decide +kernel
  · revert n; decide +kernel

/-- The closing loop of an ENDLOOP, with and without an iteration left. -/
theorem test_witness_loopsRepeatTheirCount_endloop :
    ∀ left ∈ [0, 1], ((bench { core0 with seq := { core0.seq with pc := 1, loops := [{ at_ := 0, left := left }] } }
      (job0 [ctlWords 2 1, ctlWords 3 0])).m.endloop { inst0 (ctlWords 3 0) with index := 1 } 0) = 1 := by decide +kernel

theorem test_witness_holdsAndEndsOfControl :
    ∀ op ∈ [4, 5, 6, 7], Issues (at0 (ctlWords op 1)) 0 (isControl op) [] (inst0 (ctlWords op 1)) (at0 (ctlWords op 1)).m ∧
      ShapesGood (at0 (ctlWords op 1)).m (inst0 (ctlWords op 1)) [] [controlShape (ctlWords op 1)] [] := by
  intro op h
  refine ⟨issues_of _ 0 0 _ _ ?_, shapes_of _ _ _ _ ?_⟩
  all_goals (revert op; decide +kernel)

/-- A template of one loop over one position, taken from by every role. -/
def tmpl0 : Template :=
  { roles := 1, overflow := false, nOuter := false, l2 := [0, 1, 2, 3, 4], l1 := [0, 1, 2, 3, 4], pIndex := 0, pbaseEn := false,
    pbaseSlot := 0, pbaseAxis := 0,
    loops := List.replicate 5 { count := { src := 0, slot := 0, plan := 1 }, block := 1, step := 1 } }

/-- Core 0 at a TAKE of template 0, with the given entries left in its die's reel. -/
def atTake (left : List Nat) : State :=
  bench core0 { job0 [ctlWords 1 0] with
    image := { (job0 []).image with templates := [tmpl0] },
    run := { Run.empty with active := true, reels := [{ tmpl := 0, die := 0, left := left }] } }

theorem test_witness_takeGetsTheLowestEntry :
    (∀ left ∈ [[0], []], Issues (atTake left) 0 (isControl 1) [] (inst0 (ctlWords 1 0)) (atTake left).m) ∧
    (atTake [0]).m.nextEntry 0 0 0 = some (0, 0) ∧ (atTake []).m.nextEntry 0 0 0 = none ∧
    ((atTake [0]).m.job 0).image.templates[0]? = some tmpl0 ∧ tmpl0.pbaseEn = false := by
  refine ⟨fun left h => issues_of _ 0 0 _ _ ?_, by decide +kernel, by decide +kernel, by decide +kernel, rfl⟩
  revert left; decide +kernel

/-- Core 0 at a TAKE of a template that overflows and has a per-problem base, its own reel empty and the pair die's held. -/
def atTakeFar : State :=
  bench core0 { job0 [ctlWords 1 0] with
    image := { (job0 []).image with templates := [{ tmpl0 with overflow := true, pbaseEn := true }] },
    run := { Run.empty with active := true, reels := [{ tmpl := 0, die := 0, left := [] }, { tmpl := 0, die := 1, left := [0, 2] }] } }

theorem test_witness_takeGetsTheLowestEntry_pair :
    Issues atTakeFar 0 (isControl 1) [] (inst0 (ctlWords 1 0)) atTakeFar.m ∧ shapeIsLate [] = false ∧
    atTakeFar.m.nextEntry 0 0 0 = some (0, 1) ∧ pairDie (dieOf 0) = 1 ∧ [0, 2].Pairwise (· < ·) ∧
    (match atTakeFar.m.shapeWord 0 0 with | .val b => b == 0 | _ => false) = true :=
  ⟨issues_of _ 0 0 _ _ (by decide +kernel), by decide +kernel, by decide +kernel, by decide +kernel, by decide +kernel,
    by decide +kernel⟩

/-! ### Witnesses: MATRIX, SPLICE, ROW and MOVE -/

/-- The reference to a buffer with offset 0. -/
def refTo (buf : Nat) : Nat := buf * 2 ^ 18

/-- Two halves as one word. -/
def halves (hi lo : Nat) : Nat := hi * 2 ^ 32 + lo

/-- The buffers 1 to 3 of job 0 as BF16, statistics sets 0 and 1 with one row. -/
def jobBf (ws : List Words) : Job :=
  { job0 ws with image := { (job0 ws).image with
    buffers := [bufIn 2 0 1, bufIn 2 4096 1, bufIn 2 8192 1, bufIn 2 12288 1, bufIn 0 0 1, bufIn 0 4096 1],
    statSets := [{ set := 0, rows := 1, home := 32768 }, { set := 1, rows := 1, home := 32800 }] } }

/-- An operand of core 0's instruction, or a plain one of buffer 1. -/
def opd (s : State) (ws : Words) (w : Nat) (write : Bool) : Operand :=
  (s.m.operand (inst0 ws) w write 0).getD
    { job := 0, core := 0, ref := readRef (refTo 1), buf := bufIn 2 0 1, lay := { dims := [], sparse := false, coord := false, aux := 0 },
      ext := [], start := 0, half := 0, regions := [], regionBytes := 0, coords := [], exp := 0 }

/-- A MATRIX instruction: A, B and the output in buffers 1 to 3, with M rows. -/
def matWords (m : Nat) : Words := [2 ^ 60, 0, halves (refTo 1) (refTo 2), halves (refTo 3) 0, halves m 1, halves 1 0]

/-- Core 0 at that MATRIX instruction. -/
def atMat (m : Nat) : State := bench core0 (jobBf [matWords m])

theorem test_witness_matrixLeavesItsCoreTiles :
    Issues (atMat 1) 0 (fun w => classOf w == 1) [] (inst0 (matWords 1)) (atMat 1).m ∧
    ShapesGood (atMat 1).m (inst0 (matWords 1)) [] (matrixShapes (matWords 1)) (matrixRefs (matWords 1)) ∧
    0 < (atMat 1).m.shapeOf (inst0 (matWords 1)) (readShape (hiOf (matWords 1) 4)) ∧
    0 < (atMat 1).m.shapeOf (inst0 (matWords 1)) (readShape (loOf (matWords 1) 4)) ∧
    bitAt (wordAt (matWords 1) 7) 63 = false ∧
    ∃ x, (atMat 1).m.matOps (inst0 (matWords 1)) = some x ∧ pairKind x.a.fmt x.b.fmt = some .float ∧ x.pack = none ∧
      (let sl := (atMat 1).m.matSlots (inst0 (matWords 1)) x (tileK x.a.fmt) ((atMat 1).m.matShape (inst0 (matWords 1)) x)
       (atMat 1).m.tagWait 0 sl.1 [] sl.2 = none) ∧
      ((atMat 1).m.matWork (inst0 (matWords 1)) [] x .float).head?.map (fun w => w.tile.invalid) = some none := by
  refine ⟨issues_of _ 0 0 _ _ (by decide +kernel), shapes_of _ _ _ _ (by decide +kernel), by decide +kernel, by decide +kernel,
    by decide +kernel, _, rfl, by decide +kernel, by decide +kernel, by decide +kernel, by decide +kernel⟩

/-- Core 0 at that MATRIX instruction where layout 0 has run-time extents of 0. -/
def atMatNone : State :=
  bench core0 (let b := jobBf [matWords 1]
    { b with image := { b.image with layouts := [{ dims := [0, 1].map (fun a =>
      { axis := a, extent := { src := 1, slot := 0, plan := 0 }, stride := 1 }), sparse := false, coord := false, aux := 0 }] } })

/-- With no row in extent there is no core tile. -/
theorem test_witness_matrixLeavesItsCoreTiles_empty :
    Issues atMatNone 0 (fun w => classOf w == 1) [] (inst0 (matWords 1)) atMatNone.m ∧
    ShapesGood atMatNone.m (inst0 (matWords 1)) [] (matrixShapes (matWords 1)) (matrixRefs (matWords 1)) ∧
    ∃ x, atMatNone.m.matOps (inst0 (matWords 1)) = some x ∧ atMatNone.m.matWork (inst0 (matWords 1)) [] x .float = [] :=
  ⟨issues_of _ 0 0 _ _ (by decide +kernel), shapes_of _ _ _ _ (by decide +kernel), _, rfl, by decide +kernel⟩

/-- 513 rows on one array: two groups of 257 and 256 rows. -/
theorem test_witness_rowGroupsTakeEveryRowOnce :
    (List.range 513).Nodup ∧ 512 ∈ rowsOf (List.range 513) 1 1 ∧ (rowsOf (List.range 513) 1 0).length = 257 ∧
    512 ∉ rowsOf (List.range 513) 1 0 := by
  decide +kernel

/-- A core tile of one row and one column. -/
def tile0 (ws : Words) : Tile :=
  { inst := inst0 ws, number := 0, group := 0, perArray := 1, rows := [0], cols := [0], acc := [0], checks := [], k := 1,
    poisoned := false, skipped := false, sampled := false, passes := 1, last := true, m := 1, n := 1, slots := [], invalid := none }

/-- Core 0 with that core tile to commit. -/
def atTile : State := bench { core0 with tiles := [tile0 (matWords 1)] } (jobBf [matWords 1])

theorem test_witness_tileCommitStoresAndFills :
    atTile.m.powered = true ∧ atTile.m.canCommit 0 = true ∧ (atTile.m.core 0).tiles = [tile0 (matWords 1)] ∧
    atTile.m.meet atTile.fuse (inst0 (matWords 1)) [] = (atTile.m, true) ∧ atTile.m.stale (inst0 (matWords 1)) = false ∧
    atTile.m.failingRow (tile0 (matWords 1)) .float = none ∧ atTile.m.dupSelected (tile0 (matWords 1)) = false ∧
    bitAt (wordAt (matWords 1) 5) 16 = false ∧
    ∃ a b o, atTile.m.operand (inst0 (matWords 1)) (hiOf (matWords 1) 2) false 0 = some a ∧
      atTile.m.operand (inst0 (matWords 1)) (loOf (matWords 1) 2) false 0 = some b ∧
      atTile.m.operand (inst0 (matWords 1)) (hiOf (matWords 1) 3) true 0 = some o ∧ (pairKind a.fmt b.fmt).getD .float = .float ∧
      atTile.m.tagWait 0 [] (tile0 (matWords 1)).slots [] = none ∧
      (o.buf.combine != 0 && !atTile.m.hasTurn (inst0 (matWords 1)) o.ref.buf) = false := by
  refine ⟨by decide +kernel, by decide +kernel, rfl, meet_nil _ _ _ (by decide +kernel), by decide +kernel, by decide +kernel, by decide +kernel,
    by decide +kernel, _, _, _, rfl, rfl, rfl, by decide +kernel, by decide +kernel, by decide +kernel⟩

theorem test_witness_storesStayInTheirOutput :
    (opd (atMat 1) (matWords 1) (refTo 3) true).ref.fid = 0 ∧
    ∀ r ∈ [((zeros 32, [false]) : Row)], r.2.length = 32 / 32 := by decide +kernel

/-- A SPLICE instruction: operation, index and source in buffers 1 and 2, destination in buffer 3; n = e = t = 1. -/
def splWords (op : Nat) : Words :=
  [2 * 2 ^ 60, op * 2 ^ 60, halves (refTo 1) (refTo 2), halves 0 (refTo 3), halves 1 1, halves 1 0]

/-- Core 0 at that SPLICE instruction. -/
def atSpl (op : Nat) : State := bench core0 (jobBf [splWords op])

theorem test_witness_indexOperationsCommit :
    (∀ op ∈ [1, 2, 3], Issues (atSpl op) 0 (isSplice op) [] (inst0 (splWords op)) (atSpl op).m ∧
      ShapesGood (atSpl op).m (inst0 (splWords op)) [] (spliceShapes (splWords op)) (spliceRefs (splWords op)) ∧
      IndexPasses (atSpl op).m (inst0 (splWords op)) ((atSpl op).m.operand (inst0 (splWords op)) (hiOf (splWords op) 2) false 0) 1 1
        [.row 0]) ∧
    (∀ op ∈ [1, 2, 3], (atSpl op).m.operand (inst0 (splWords op)) (loOf (splWords op) 3) true 0 =
        some (opd (atSpl op) (splWords op) (refTo 3) true) ∧
      (atSpl op).m.operand (inst0 (splWords op)) (loOf (splWords op) 2) false 0 =
        some (opd (atSpl op) (splWords op) (refTo 2) false) ∧
      ((atSpl op).m.tagWait 0 [] ((opd (atSpl op) (splWords op) (refTo 3) true).rowSlots 32 (List.range 1)) [] = none) ∧
      (opd (atSpl op) (splWords op) (refTo 3) true).buf.combine = 0) := by
  refine ⟨fun op h => ⟨issues_of _ 0 0 _ _ ?_, shapes_of _ _ _ _ ?_, Or.inr ⟨opd (atSpl op) (splWords op) (refTo 1) false, ?_⟩⟩, ?_⟩
  · revert op; decide +kernel
  · revert op; decide +kernel
  · revert op; decide +kernel
  · decide +kernel

/-- A gather whose rows are on their way. -/
def gather0 : PendGather := { inst := inst0 (splWords 1), reads := [], writes := [⟨0, 1⟩], poison := [], slots := [0], waits := false }

/-- Core 0 with that gather. -/
def atGather : State := bench { core0 with gathers := [gather0] } (jobBf [splWords 1])

theorem test_witness_lateGatherCommits :
    atGather.m.powered = true ∧ (atGather.m.core 0).live = true ∧ (atGather.m.core 0).fenceReq = none ∧
    (atGather.m.core 0).gathers = [gather0] ∧ atGather.m.meet atGather.fuse gather0.inst [] = (atGather.m, true) ∧
    atGather.m.stale gather0.inst = false := by
  refine ⟨by decide +kernel, by decide +kernel, rfl, rfl, meet_nil _ _ _ (by decide +kernel), by decide +kernel⟩

theorem test_witness_tileInstructionsCommit :
    (∀ op ∈ [4, 5, 6], Issues (atSpl op) 0 (isSplice op) [] (inst0 (splWords op)) (atSpl op).m ∧
      ShapesGood (atSpl op).m (inst0 (splWords op)) [] (spliceShapes (splWords op)) (spliceRefs (splWords op))) ∧
    (∀ op ∈ [4, 5, 6], 0 < (atSpl op).m.shapeOf (inst0 (splWords op)) (readShape (hiOf (splWords op) 5)) ∧
      (atSpl op).m.operand (inst0 (splWords op)) (loOf (splWords op) 2) false 0 =
        some (opd (atSpl op) (splWords op) (refTo 2) false) ∧
      (atSpl op).m.operand (inst0 (splWords op)) (loOf (splWords op) 3) true 0 =
        some (opd (atSpl op) (splWords op) (refTo 3) true) ∧
      (atSpl op).m.hbmPoison = [] ∧ (opd (atSpl op) (splWords op) (refTo 2) false).buf.space = 2 ∧
      (opd (atSpl op) (splWords op) (refTo 3) true).buf.space = 2) := by
  refine ⟨fun op h => ⟨issues_of _ 0 0 _ _ ?_, shapes_of _ _ _ _ ?_⟩, by decide +kernel⟩
  all_goals (revert op; decide +kernel)

theorem test_witness_engineCommitFillsAndConsumes : (inst0 (splWords 1)).core < (atSpl 1).m.cores.length := by decide +kernel

/-- A ROW instruction of function `f`: input 0 in buffer 1, output 0 in buffer 3; rows and columns as given. -/
def rowWords (f rows : Nat) : Words :=
  [3 * 2 ^ 60, f * 2 ^ 58, halves (refTo 1) 0, halves 0 (refTo 3), 0, halves rows 1, halves 1 0]

/-- Core 0, holding the pages of sets 0 and 1, at that ROW instruction. -/
def atRow (f rows : Nat) : State :=
  bench { core0 with mem := { core0.mem with pages := [0, 1].map (fun s =>
    { set := s, page := 0, recs := [], valid := 2 ^ 64 - 1, dirty := 0, poison := [] }) } } (jobBf [rowWords f rows])

theorem test_witness_rowFunctionsCommit :
    ∀ r ∈ rowRows, Issues (atRow r.1 1) 0 (isRow r.1) [] (inst0 (rowWords r.1 1)) (atRow r.1 1).m ∧
      ShapesGood (atRow r.1 1).m (inst0 (rowWords r.1 1)) [] (rowShapes (rowWords r.1 1)) (rowRefs (rowWords r.1 1)) := by
  have k : ∀ f ∈ rowRows.map Prod.fst,
      ((decide (0 < 384) && (atRow f 1).m.powered && (atRow f 1).m.canIssue 0 && (((atRow f 1).m.core 0).job == some 0) &&
        ((atRow f 1).m.instAt 0 0 == some (inst0 (rowWords f 1))) && isRow f (inst0 (rowWords f 1)).words &&
        !(atRow f 1).m.stale (inst0 (rowWords f 1)) && !((atRow f 1).m.core (inst0 (rowWords f 1)).core).fenceReq.isSome &&
        ((atRow f 1).m.shapeWords (inst0 (rowWords f 1)) == [])) = true) ∧
      ((atRow f 1).m.shapesBad (inst0 (rowWords f 1)) (rowShapes (rowWords f 1)) (rowRefs (rowWords f 1)) == none) = true := by
    decide +kernel
  intro r h
  have := k r.1 (List.mem_map_of_mem h)
  exact ⟨issues_of _ 0 0 _ _ this.1, shapes_of _ _ _ _ this.2⟩

theorem test_witness_rowFunctionsCommit_context :
    ∀ f ∈ rowRows.map Prod.fst, let c := (atRow f 1).m.rowCtx (inst0 (rowWords f 1))
      c.statRow % 8 = 0 ∧ c.statBad = none ∧ 0 < c.rows ∧ 0 < c.cols ∧ c.in1 = none ∧ c.statWait = none ∧ c.poisoned = false ∧
      c.m.tagWait 0 ((c.inputs.flatMap inputSlots).eraseDups) [] [] = none := by decide +kernel

theorem test_witness_emptyOperationsGoOn :
    Issues (atRow 1 0) 0 (isRow 1) [] (inst0 (rowWords 1 0)) (atRow 1 0).m ∧
    ShapesGood (atRow 1 0).m (inst0 (rowWords 1 0)) [] (rowShapes (rowWords 1 0)) (rowRefs (rowWords 1 0)) ∧
    ((atRow 1 0).m.rowCtx (inst0 (rowWords 1 0))).rows = 0 ∧
    Issues (atMat 0) 0 (fun w => classOf w == 1) [] (inst0 (matWords 0)) (atMat 0).m ∧
    (atMat 0).m.shapeOf (inst0 (matWords 0)) (readShape (hiOf (matWords 0) 4)) = 0 :=
  ⟨issues_of _ 0 0 _ _ (by decide +kernel), shapes_of _ _ _ _ (by decide +kernel), by decide +kernel,
    issues_of _ 0 0 _ _ (by decide +kernel), by decide +kernel⟩

/-- A MOVE from buffer 1 to buffer 2 in channel 0; a FILL's scope is its own cluster. -/
def movWords (op n : Nat) : Words :=
  [4 * 2 ^ 60 + op * 2 ^ 56, 2 ^ 61 + 2 ^ 57, halves (refTo 1) (refTo 2), halves n 0]

/-- A movement of that MOVE, as its channel holds it. -/
def move0 (op : Nat) (w : Option Wait) (written : Bool) : Move :=
  { inst := inst0 (movWords op 1), op := op, len := 1, burst := none, desc := 0, pos := 0, started := true, written := written,
    status := 0, wait := w, reader := none, cast := none }

/-- Core 0 with that movement at the head of channel 0, at the same MOVE. -/
def atMove (op n : Nat) (vs : List Move) : State :=
  bench { core0 with channels := vs :: List.replicate 7 [] } (jobBf [movWords op n])

theorem test_witness_movesQueueInTheirChannel :
    ∀ n ∈ [0, 1], ∀ r ∈ moveRows, Issues (atMove r.1 n []) 0 (isMove r.1) [] (inst0 (movWords r.1 n)) (atMove r.1 n []).m ∧
      ShapesGood (atMove r.1 n []).m (inst0 (movWords r.1 n)) [] [lengthShape (movWords r.1 n)]
        [hiOf (movWords r.1 n) 2, loOf (movWords r.1 n) 2] ∧
      (atMove r.1 n []).m.copyAlias (inst0 (movWords r.1 n)) = false ∧
      (atMove r.1 n []).m.shapeOf (inst0 (movWords r.1 n)) (lengthShape (movWords r.1 n)) = n := by
  have k : ∀ n ∈ [0, 1], ∀ op ∈ moveRows.map Prod.fst,
      ((decide (0 < 384) && (atMove op n []).m.powered && (atMove op n []).m.canIssue 0 &&
        (((atMove op n []).m.core 0).job == some 0) && ((atMove op n []).m.instAt 0 0 == some (inst0 (movWords op n))) &&
        isMove op (inst0 (movWords op n)).words && !(atMove op n []).m.stale (inst0 (movWords op n)) &&
        !((atMove op n []).m.core (inst0 (movWords op n)).core).fenceReq.isSome &&
        ((atMove op n []).m.shapeWords (inst0 (movWords op n)) == [])) = true) ∧
      ((atMove op n []).m.shapesBad (inst0 (movWords op n)) [lengthShape (movWords op n)]
        [hiOf (movWords op n) 2, loOf (movWords op n) 2] == none) = true ∧
      (atMove op n []).m.copyAlias (inst0 (movWords op n)) = false ∧
      (atMove op n []).m.shapeOf (inst0 (movWords op n)) (lengthShape (movWords op n)) = n := by decide +kernel
  intro n hn r h
  have := k n hn r.1 (List.mem_map_of_mem h)
  exact ⟨issues_of _ 0 0 _ _ this.1, shapes_of _ _ _ _ this.2.1, this.2.2⟩

theorem test_witness_movementsCompleteInOrder :
    let s := atMove 2 1 [move0 2 none true]
    s.m.powered = true ∧ (s.m.core 0).live = true ∧ (s.m.core 0).fenceReq = none ∧
    (s.m.core 0).channels[0]? = some [move0 2 none true] ∧ (s.m.job 0).state = 3 := by decide +kernel

theorem test_witness_multicastWritesEveryDestination :
    let s := atMove 2 1 [move0 2 (some .multicast) false]
    s.m.powered = true ∧ (s.m.core 0).head 0 = some (move0 2 (some .multicast) false) ∧ (s.m.job 0).state = 3 ∧
    s.m.castSet (inst0 (movWords 2 1)) = [0] ∧
    (s.m.core 0).mem.full = [] ∧
    ∀ h ∈ s.m.castSet (inst0 (movWords 2 1)), h = 0 ∧ (s.m.castDst (inst0 (movWords 2 1)) h).isSome = true := by decide +kernel

/-- The multicast to the scratchpad: its destination is buffer 4. -/
theorem test_witness_multicastWritesEveryDestination_scratchpad :
    let ws : Words := [4 * 2 ^ 60 + 2 * 2 ^ 56, 2 ^ 61 + 2 ^ 57, halves (refTo 1) (refTo 4), halves 1 0]
    let s := bench { core0 with channels := [{ move0 2 (some .multicast) false with inst := inst0 ws }] :: List.replicate 7 [] }
      (jobBf [ws])
    ((s.m.castDst (inst0 ws) 0).map (fun d => (d.1.buf.space, d.1.buf.combine, d.2.slots))) = some (0, 0, [0]) ∧
    (s.m.core 0).bypass = false ∧ s.m.castSet (inst0 ws) = [0] := by decide +kernel

/-! ### Witnesses: waits and barriers -/

/-- A released slice of one element of tensor 0. -/
def slice0 : Slice := { tensor := 0, elems := [(0, 1)], maxExp := [], sats := [], core := 0 }

/-- A MOMENTUM tensor of one element in buffer 1, with its group. -/
def train0 (b : Job) : Job :=
  { b with image := { b.image with
    tensors := [{ elemBase := 0, mode := 0, group := 0, count := 1, rank := 0, weightBuf := 1, gradBuf := 2 }],
    groups := [{ rule := 1, biasCorr := false, eta := 0x3F800000, lambda := 0, beta1 := 0, beta2 := 0, eps := 0, gscale := 0x3F800000,
                 eps1 := 0, curve := [] }] } }

/-- Core 0 waiting for `w` at the instruction `ws`. -/
def waiting (w : Wait) (ws : Words) : State := bench { core0 with seq := { core0.seq with wait := some w } } (jobBf [ws])

theorem test_witness_heldInstructionsIssueAgain :
    let s := waiting (.tag 0 true) (rowWords 1 0)
    s.m.powered = true ∧ (s.m.core 0).live = true ∧ (s.m.core 0).fenceReq = none ∧
    Reissues s.fuse s.m 0 [] (inst0 (rowWords 1 0)) (s.m.onSeq 0 (fun q => { q with wait := none })) ∧
    (((s.m.onSeq 0 (fun q => { q with wait := none })).issueAt s.fuse [] (inst0 (rowWords 1 0))).core 0).seq.wait ≠
      some (Wait.tag 0 true) :=
  ⟨by decide +kernel, by decide +kernel, rfl, ⟨rfl, ⟨0, rfl, by decide +kernel⟩, rfl, by decide +kernel⟩, by decide +kernel⟩

theorem test_witness_heldInstructionsIssueAgain_movement :
    let s := atMove 2 1 [move0 2 (some (.tag 0 true)) false]
    (s.m.core 0).head 0 = some (move0 2 (some (.tag 0 true)) false) ∧ (s.m.core 0).live = true ∧ (s.m.core 0).fenceReq = none := by
  decide +kernel

/-- A statistics page that fits, one that the next row instructions read, and the page that gives way to another. -/
theorem test_witness_heldInstructionsIssueAgain_pages :
    (let s := waiting (.stat 0 0) (rowWords 2 1)
     (s.m.core 0).seq.wait = some (.stat 0 0) ∧ s.m.pageFits 0 0 0 0 = true) ∧
    (let c : Core := { core0 with seq := { core0.seq with wait := some (.stat 1 0) }, mem := { core0.mem with
       pages := (List.range 512).map (fun p => { set := 5, page := p, recs := [], valid := 0, dirty := 0, poison := [] }) } }
     (((bench c (jobBf [rowWords 2 1])).m.spillVictim 0).map (fun v => (v.1, v.2.set, v.2.page))) = some (0, 5, 0)) := by
  decide +kernel

/-- A channel at the limit, the tackle of a stopped stack, and a job without a limit. -/
theorem test_witness_tagWaitLimitEndsTheJob_others :
    (let s := atMove 2 1 [move0 2 (some (.tag 0 true)) false]
     s.m.powered = true ∧ (s.m.job 0).state = 3 ∧ (s.m.job 0).tagLimit ≠ 0 ∧
     (s.m.core 0).head 0 = some (move0 2 (some (.tag 0 true)) false)) ∧
    (let b := train0 (jobBf [])
     let s := bench core0 { b with run := { b.run with slices := [slice0] } }
     let m : Module := { s.m with hbmStacks := s.m.hbmStacks.map (fun (t : Stack) => { t with stopped := true }) }
     (m.stack 0).stopped = true ∧ m.tackling 0 0 = true ∧ (m.job 0).tagLimit ≠ 0) ∧
    (let s := bench { core0 with seq := { core0.seq with wait := some (.tag 0 true) } } { jobBf [rowWords 1 0] with tagLimit := 0 }
     (s.m.job 0).tagLimit = 0 ∧ (s.m.core 0).seq.wait = some (.tag 0 true) ∧ (s.m.instAt 0 0).isSome = true) := by decide +kernel

theorem test_witness_tagWaitLimitEndsTheJob :
    let s := waiting (.tag 0 true) (rowWords 1 0)
    s.m.powered = true ∧ (s.m.job 0).state = 3 ∧ (s.m.job 0).tagLimit ≠ 0 ∧ (s.m.core 0).job = some 0 ∧
    (s.m.core 0).seq.wait = some (.tag 0 true) ∧ s.m.instAt 0 0 = some (inst0 (rowWords 1 0)) := by decide +kernel

theorem test_witness_signalsAdvanceTheirCounter :
    let s := bench core0 { job0 [ctlWords 4 1] with run := { Run.empty with active := true, signals := [63] } }
    s.m.powered = true ∧ (s.m.job 0).state = 3 ∧ 63 ∈ (s.m.job 0).run.signals ∧ (s.m.job 0).run.counters.length = 64 := by
  decide +kernel

theorem test_witness_barriersReleaseTheirCores :
    (let s := waiting (.swap 1) (ctlWords 5 0)
     (∀ g ∈ s.m.liveCores 0, (s.m.instAt g 0).isSome = true) ∧ s.m.swapSet 0 96 = [0] ∧
     ((s.m.job 0).image.buffers[1]?.map Buffer.space) = some 2 ∧ (s.m.core 0).seq.wait = some (.swap 1) ∧ s.m.busyOn 0 1 = false) ∧
    (let s := waiting .passEnd (ctlWords 6 0)
     s.m.liveCores 0 = [0] ∧ (s.m.core 0).seq.wait = some .passEnd ∧ (s.m.core 0).quiet = true) ∧
    (let s := waiting (.resume 0) (ctlWords 0 0)
     s.m.liveCores 0 = [0] ∧ (s.m.job 0).run.signals = [] ∧ (s.m.core 0).seq.wait = some (.resume 0) ∧
       (s.m.core 0).quiet = true) := by decide +kernel

/-! ### Witnesses: the queue, data, links, stacks, enables and fences -/

/-- A state with two commands waiting. -/
def queued : State := { State.reset with pending := [.referenceReturn, .dramRefresh 23 31] }

theorem test_witness_theQueue :
    QueueWf queued ∧ queued.pending = .referenceReturn :: [.dramRefresh 23 31] ∧ State.reset.pending = [] ∧
    step queued = .next { queued with pending := [.dramRefresh 23 31] } :=
  ⟨by unfold QueueWf queued; decide +kernel, rfl, rfl, rfl⟩

theorem test_witness_wellFormedCommandsComplete : WellFormed (.controlNop 383 []) = true ∧ WellFormed (.controlNop 384 []) = false := by
  decide +kernel

theorem test_witness_unpoweredModulesTakeOnlyPower :
    (Module.powered { Module.reset with power := { Module.reset.power with phase := .off } }) = false ∧
    WellFormed (.nop 15 { header := zeros 64, payload := [], poisoned := false }) = true := by decide +kernel

theorem test_witness_memoriesAreWhatTheyRead : Mem.wf [⟨0, 1⟩, ⟨5, 2⟩] = true ∧ Mem.wf [⟨5, 2⟩, ⟨0, 1⟩] = false ∧ Mem.wf [⟨0, 0⟩] = false := by
  decide +kernel

theorem test_witness_gridsListEveryPositionOnce : tmpl0.l1.Perm [0, 1, 2, 3, 4] ∧ tmpl0.l2.Perm [0, 1, 2, 3, 4] := by decide +kernel

theorem test_witness_dieReelsDealEveryEntryOnce :
    (atTake [0]).m.reelDies 0 tmpl0 = [0] ∧ (tmpl0.grid ((atTake [0]).m.reelCounts 0 tmpl0)).length = 1 := by decide +kernel

theorem test_witness_indexEntriesResolve :
    resolveIndex 1 4 (-4) = .row 0 ∧ resolveIndex 1 4 (-5) = .bad ∧ resolveIndex 2 4 (-5) = .null ∧ resolveIndex 0 4 4 = .bad ∧
    resolveIndex 0 4 3 = .row 3 := by decide +kernel

/-- A descriptor with its fields at the ends of their ranges. -/
def desc0 : ScaleDesc :=
  { expCur := -128, expInit := 127, margin := -8, histLenM1 := 63, histHead := 63, histCount := 127, frozen := true, fmt := 15,
    stepMaxExp := some (-127), braidBias := 255, satThreshold := 2 ^ 16 - 1, stepSaturations := 2 ^ 32 - 1, satTotal := 2 ^ 64 - 1,
    nonfiniteTotal := 2 ^ 64 - 1, cleanSteps := 2 ^ 16 - 1, hist := List.replicate 64 (some 127), stepNonfinite := 0, tackleNonfinite := 0,
    tackleSaturations := 0 }

theorem test_witness_scaleDescriptorsReadBack :
    desc0.hist.length = 64 ∧ (∀ v ∈ desc0.hist, v = none ∨ v = some 127) ∧ desc0.bytes.length = 128 ∧ readDesc desc0.bytes = desc0 := by
  decide +kernel

theorem test_witness_linksReplayRetrainAndDie :
    (113 < Module.reset.links.length) ∧ Module.reset.powered = true ∧
    (Module.link { Module.reset with links := { Link.reset with failedRun := 16 } :: List.replicate 113 Link.reset } 0).failedRun = 16 := by
  decide +kernel

/-- Stack 0 in a condition. -/
def withStack (t : Stack) : Module := { Module.reset with hbmStacks := t :: List.replicate 23 Stack.reset }

theorem test_witness_stacksServeAndRepair :
    (let t := (withStack { Stack.reset with enabled := true }).stack 0; t.enabled = true ∧ t.ready = false ∧ t.failed = false) ∧
    (let t := (withStack { Stack.reset with enabled := true, ready := true }).stack 0
     t.ready = true ∧ t.stopped = false ∧ (hbmPlace (scrubAddr 0 t.scrubAt)).stack = 0) ∧
    (let t := (withStack { Stack.reset with repairing := [8 * rowKey 31 31 65535 + 7] }).stack 0
     t.repairing.find? (fun r => r / 8 == rowKey 31 31 65535) = some (8 * rowKey 31 31 65535 + 7)) := by decide +kernel

theorem test_witness_enablesEndReadyOrFenced :
    Module.reset.cores.length = 384 ∧ Module.reset.dies.length = 52 ∧
    (let m : Module := { Module.reset with dies := { Die.reset false with enabled := true } :: Module.reset.dies.tail }
     (m.die 0).enabled = true ∧ (m.die 0).ended = false) ∧
    (let m : Module := { Module.reset with cores := { Core.reset with enabled := true } :: Module.reset.cores.tail }
     (m.core 0).enabled = true ∧ (m.core 0).ready = false ∧ (m.core 0).fenced = false) := by decide +kernel

theorem test_witness_fencesTakeTheirCores :
    let s := bench { core0 with fenceReq := some { status := 0, inst := none, age := 0 } } (job0 [])
    s.m.powered = true ∧ (s.m.core 0).fenceReq.isSome = true ∧ 0 < s.m.cores.length ∧ (s.m.core 0).job = some 0 ∧
    ((s.m.liveCores 0).filter (· ≠ 0)).length < (s.m.job 0).image.coresMin ∧
    (Module.powered { s.m with mgmt := { s.m.mgmt with capstanUp := true } }) = true := by decide +kernel

/-! ### Witnesses: steps, training, experts and the rope -/

/-- Job 0 with a change, on a live core. -/
def withJob (f : Job → Job) : State := bench core0 (f (jobBf [ctlWords 0 0]))

theorem test_witness_stepsStartFresh :
    let s := withJob (fun b => { b with state := 2, run := { Run.empty with stepAsked := true } })
    let m := s.m.settle s.fuse
    s.m.powered = true ∧ (m.job 0).state = 2 ∧ (m.job 0).run.stepAsked = true ∧ ((m.beginStep 0).job 0).prog.adapters = none := by
  decide +kernel

theorem test_witness_failedAttemptsAreReplayed :
    let s := withJob (fun b => { b with run := { b.run with mustReplay := some stCheck } })
    let t := withJob (fun b => { b with run := { b.run with mustReplay := some stFenced, attempt := 1 } })
    s.m.powered = true ∧ (s.m.job 0).state = 3 ∧ (s.m.job 0).run.mustReplay = some stCheck ∧ stCheck ≠ stCancelled ∧
    (s.m.job 0).run.resumes = false ∧ (t.m.job 0).run.resumes = true := by decide +kernel

theorem test_witness_stepsCommitAsAWhole :
    let s := bench { core0 with seq := { core0.seq with done := true } } (jobBf [ctlWords 7 0])
    s.m.powered = true ∧ s.m.canCommitStep 0 = true ∧ s.m.acceptFails 0 = none := by decide +kernel

/-- The coil store MOUNTED. -/
def mounted (s : State) : State := { s with m := s.m.odSet (odKey 0x6000 2) 2 }

theorem test_witness_snapshotsAreKeptOrNot :
    let s := mounted (withJob (fun b => { b with pendingSnap := some (1, zeros 8) }))
    s.m.powered = true ∧ (s.m.job 0).pendingSnap = some (1, zeros 8) ∧ s.m.writeRefused 3 (moduleId 0 0 1) 8 = stOk := by decide +kernel

theorem test_witness_slicesReachTheirTackles :
    let s := withJob (fun b => train0 { b with run := { b.run with slices := [slice0] } })
    s.m.powered = true ∧ (s.m.job 0).state = 3 ∧ (s.m.job 0).run.mustReplay = none ∧ (s.m.job 0).run.slices = [slice0] ∧
    s.m.inRope 0 = false ∧ s.m.tackleWaits 0 ((s.m.job 0).sliceGrads slice0) = false ∧
    s.m.poisonedGrad 0 ((s.m.job 0).sliceGrads slice0) = none := by decide +kernel

/-- A REDUCE section of one bucket with one segment of tensor 0. -/
def reduce0 : Reduce :=
  { bucketLog2 := 12, bucketCount := 1, stagingCount := 1, stagingBase := 16384,
    entries := [{ bucket := 0, tensor := 0, firstSeg := 0, segCount := 1 }] }

/-- A module at a rank of a rope of size 2 whose rope job is job 0. -/
def roped (rank state : Nat) (s : State) : State :=
  { s with m := (((s.m.odSet (odKey 0x5200 1) rank).odSet (odKey 0x5200 2) 2).odSet (odKey 0x5200 5) 0).odSet (odKey 0x5200 6) state }

/-- Rank 0 with bucket 0 in a state and its own trailer. -/
def atBucket (state : Nat) : State :=
  let s := roped 0 2 (withJob (fun b => train0 { b with
    prog := { b.prog with reduce := some reduce0 },
    run := { b.run with buckets := [{ state := state, elems := [(0, 1)], maxExp := [], sats := [], nonfins := [] }] } }))
  { s with m := s.m.onRope (fun r => { r with
    trailers := [{ step := 0, attempt := 0, bucket := 0, input := 2, counts := [], mismatch := false, lowest := 0 }],
    inputs := [{ port := 1, step := 0, attempt := 0, bucket := 0, seg := 0, input := 0, codes := [], maxExp := none, contrib := 1 }],
    sums := [{ bucket := 0, seg := 7, codes := [], maxExp := none, sampled := true, compared := false, bad := false }] }) }

theorem test_witness_bucketsAndFactorsAreApplied :
    let s := atBucket 3
    s.m.powered = true ∧ (s.m.job 0).state = 3 ∧ s.m.inRope 0 = true ∧ s.m.rank = 0 ∧ ((s.m.job 0).bucket 0).state = 3 ∧
    (s.m.trailer 0 2).map Trailer.mismatch = some false ∧ (s.m.job 0).prog.reduce = some reduce0 ∧
    s.m.tackleWaits 0 (s.m.bucketGrads 0) = false ∧ s.m.poisonedGrad 0 (s.m.bucketGrads 0) = none ∧ s.m.hbmPoison = [] := by
  decide +kernel

theorem test_witness_bucketsAndFactorsAreApplied_factored :
    let f : Factored := { tensor := 0, finished := false }
    let s := withJob (fun b => let c := train0 { b with factored := [f], run := { b.run with applied := [(appliedKey 0 0, 1)] } }
      { c with image := { c.image with states := [{ tensor := 0, rows := 1, cols := 1 }] } })
    (s.m.job 0).factoredOf 0 = some f ∧ ((s.m.job 0).image.states.find? (fun x => x.tensor == 0)).isSome = true ∧
    (s.m.job 0).allApplied 0 = true := by decide +kernel

theorem test_witness_dispatchFollowsItsRule :
    dispatchFrom 2 1 0 [0, 0, -1, 1] { placed := [], routed := [], dropped := 0, firstFull := none } ≠ none ∧
    dispatchFrom 2 1 0 [0, 2] { placed := [], routed := [], dropped := 0, firstFull := none } = none := by decide +kernel

/-- An EXPERTS section of two experts of one page, with one router over no tokens. -/
def experts0 : Experts :=
  { expertCount := 2, pageCount := 1, poolBase := 32768, frameCount := 2, storeId := 5,
    routers := [{ idxBuf := 1, gateBuf := 2, expertBase := 0, span := 2, kM1 := 0, dispatchBase := 16384,
                  rows := { src := 0, slot := 0, plan := 0 }, cap := 1, reel := 0, startTarget := { src := 0, slot := 0, plan := 0 },
                  startCtr := 0, doneCtr := 1 }],
    views := [], preds := [] }

/-- Job 0 with experts, a fetch requested and one residency entry in a state. -/
def atExperts (state : Nat) : State :=
  let s := mounted (withJob (fun b => { b with
    prog := { b.prog with experts := some experts0 }, fetches := [{ expert := 1, started := false, pin := false }] }))
  { s with m := { s.m with residency := [(0, { expert := 1, job := 0, state := state, pinned := false, poisoned := false, frame := 0,
                                               present := 0, lastUse := 0 })] } }

theorem test_witness_expertsComeAndGo :
    (let s := atExperts 0
     s.m.powered = true ∧ (s.m.job 0).prog.experts = some experts0 ∧ s.m.storeReads = true ∧ s.m.freeRun 0 experts0 = some 0 ∧
     leastBy id (((s.m.entriesOf 0).filter (fun r => r.2.state == 0)).map Prod.fst) = some 0 ∧
     (s.m.bufOperand 0 1).isSome = true ∧ (s.m.bufOperand 0 2).isSome = true ∧ (s.m.job 0).run.active = true) ∧
    (let s := atExperts 1
     (s.m.entriesOf 0).find? (fun r => r.2.state == 1 && r.2.expert == 1) = s.m.residency.head? ∧
     (s.m.residency.lookup 0).map Residency.present = some (2 ^ 0 - 1)) := by decide +kernel

theorem test_witness_sumsGoUpTheTree :
    let s := atBucket 1
    let t := withJob (fun b => { b with state := 2 })
    s.m.powered = true ∧ s.m.inRope s.m.ropeJob = true ∧ s.m.nextBucket = some 0 ∧ s.m.inputReady 0 0 0 = true ∧
    s.m.inputReady 0 0 1 = true ∧ (∃ x ∈ s.m.rope.sums, x.bucket = 0 ∧ x.seg = 7 ∧ x.sampled = true ∧ x.compared = false) ∧
    (roped 0 3 t).m.ropeState = 3 ∧ ((roped 0 3 t).m.job 0).state = 2 := by decide +kernel

/-- Rank 1 that holds all resync data, and one whose last segment's trailer can go up. -/
theorem test_witness_sumsGoUpTheTree_rank1 :
    (let s := roped 1 3 (withJob (fun b => { b with state := 2 }))
     let m := s.m.onRope (fun r => { r with resyncData := zeros (s.m.resyncLen 0) })
     m.inRope m.ropeJob = true ∧ m.ropeState = 3 ∧ (m.job 0).state = 2 ∧ m.rank = 1 ∧ 320 ≤ m.rope.resyncData.length ∧
     m.rope.resyncData.length = m.resyncLen 0) ∧
    (let s := roped 1 2 (withJob (fun b => { b with prog := { b.prog with reduce := some reduce0 } }))
     let m := s.m.onRope (fun r => { r with
       sums := [{ bucket := 0, seg := 0, codes := [], maxExp := none, sampled := true, compared := true, bad := true }] })
     m.rank ≠ 0 ∧ m.trailer 0 2 = none ∧ (m.sumsOf 0).length = m.segCount 0 ∧ bondNeeded m.rank m.ropeSize 1 = false ∧
     bondNeeded m.rank m.ropeSize 2 = false) := by decide +kernel

/-- A frame of a type, of step 0 and attempt 0, first on its link. -/
def frame0 (type : Nat) : Frame :=
  { type := type, src := 0, attempt := 0, epoch := 0, step := 0, bucket := 0, segment := 0, maxExp := 0x80, code := 0, contrib := 1,
    linkSeq := 0, ackSeq := 0, payload := [] }

/-- Rank 1 of a rope of size 2 with its hawser ports up and job 0 between steps. -/
def atRope : State :=
  let s := roped 1 2 (withJob (fun b => { b with state := 2 }))
  { s with m := { s.m with hawsers := List.replicate 16 { Hawser.reset with state := 2 } } }

theorem test_witness_framesActInTheirRope :
    (∀ type ∈ [1, 2, 7, 8, 9, 10, 11], Arrives atRope 0 type (frame0 type).bytes (frame0 type)) ∧
    (∀ type ∈ [3, 4, 5, 6], ArrivesFresh atRope 0 type (frame0 type).bytes (frame0 type)) := by
  refine ⟨fun t h => ?_, fun t h => ?_⟩
  · unfold Arrives; revert t; decide +kernel
  · unfold ArrivesFresh Arrives; revert t; decide +kernel

/-- The clauses of frames from a child, and of one that finds the receive interface of its port full. -/
theorem test_witness_framesActInTheirRope_children :
    bondOf 1 ≠ 0 ∧ (∀ type ∈ [3, 4], ArrivesFresh atRope 1 type (frame0 type).bytes (frame0 type)) ∧
    Arrives atRope 1 7 (frame0 7).bytes (frame0 7) ∧ atRope.m.segWaits 1 (frame0 3).bytes = false ∧
    (let x : SegInput := { port := 1, step := 0, attempt := 0, bucket := 1, seg := 0, input := 0, codes := [], maxExp := none, contrib := 1 }
     let s := { atRope with m := atRope.m.onRope (fun r => { r with inputs := List.replicate 512 x }) }
     ArrivesFresh s 1 3 (frame0 3).bytes (frame0 3) ∧ s.m.segWaits 1 (frame0 3).bytes = true) := by
  unfold ArrivesFresh Arrives; decide +kernel

theorem test_witness_portsComeAndGo :
    (atRope.m.hawser 0).up = true ∧ (atRope.m.hawser 0).replayAsked = false ∧ (atRope.m.hawser 0).queue = [] ∧
    (let m := { Module.reset.odSet (odKey 0x5220 1) 1 with lasers := [{ Laser.none with present := true, powered := true }, Laser.none] }
     Module.portLit m 0 = true ∧ (m.hawser 0).up = false) := by decide +kernel

/-! ### Witnesses: the store, host commands and ports -/

theorem test_witness_theStoreKeepsItsObjects :
    (mounted State.reset).m.powered = true ∧ (mounted State.reset).m.coilState = 2 ∧ (mounted State.reset).m.storeReads = true ∧
    0 ≤ (mounted State.reset).m.odGet (odKey 0x6020 16) ∧ 63 ∉ (mounted State.reset).m.store.failedDies ∧
    ({ State.reset with m := State.reset.m.odSet (odKey 0x6000 2) 1 }).m.coilState = 1 := by decide +kernel

/-- A packet of 64 bytes with an opcode, tag 0, the last bit, a job and a word 2. -/
def pkt (op job w2 w3 : Nat) : Packet :=
  { header := leBytes 8 (op * 2 ^ 56 + 2 ^ 44 + job * 2 ^ 29 + 2 ^ 25) ++ zeros 8 ++ leBytes 8 w2 ++ leBytes 8 w3 ++ zeros 32,
    payload := [], poisoned := false }

/-- Capstan runs, port 0 is ready with every feature agreed, queue 0 ENABLED with one unit between sq_head and sq_tail. -/
def hosted (s : State) : State :=
  let m := s.m.onPort 0 (fun t => { t with ready := true, up := true, perst := false, agreed := featuresOffered })
  let m := m.onQueue 0 (fun t => { t with state := 1, enableBit := true, sqTail := 1 })
  { s with m := { m with mgmt := { m.mgmt with reachable := true, capstanUp := true } } }

/-- What `Begins` asks of a packet without payload, as one check. -/
theorem begins_of (s : State) (p : Packet)
    (h : let y := leavesRing s.m 0 p
      let c := y.cmdOf p 0
      let x := ((y.addCmd 0 c).onQueue 0 (fun t => { t with chain := none })).flashMeets s.fuse c []
      (s.m.powered && s.m.canTake 0 p && !(s.m.queue 0).chained.any (fun d => d.tag == p.tag) && y.beginsWell 0 p && y.featured 0 p &&
        !isChain c.opcode && x.nextStart == some (0, c)) = true) :
    let y := leavesRing s.m 0 p
    let c := y.cmdOf p 0
    Begins s 0 p [] c (((y.addCmd 0 c).onQueue 0 (fun t => { t with chain := none })).flashMeets s.fuse c []) := by
  simp only [Bool.and_eq_true, beq_iff_eq, Bool.not_eq_true'] at h
  obtain ⟨⟨⟨⟨⟨⟨h1, h2⟩, h3⟩, h4⟩, h5⟩, h6⟩, h7⟩ := h
  exact ⟨by decide, h1, h2, h3, h4, h5, rfl, fun k => by simp [h6] at k, by simp [h6], h7⟩

theorem test_witness_hostCommandsOnJobs :
    ∀ p ∈ [pkt 0 0 0 0, pkt 4 0 0 0, pkt 6 0 0 0],
      let y := leavesRing (hosted (withJob id)).m 0 p
      let c := y.cmdOf p 0
      Begins (hosted (withJob id)) 0 p [] c
        (((y.addCmd 0 c).onQueue 0 (fun t => { t with chain := none })).flashMeets (hosted (withJob id)).fuse c []) := by
  intro p h
  refine begins_of _ _ ?_
  revert p; decide +kernel

theorem test_witness_hostCommandsOnStateAndData :
    ∀ p ∈ [pkt 0x10 0 0 1, pkt 0x14 0 0 0, pkt 0x18 0 0 0, pkt 0x21 0 0 8, pkt 0x2B 0 1 1],
      let s := hosted (mounted (withJob id))
      let y := leavesRing s.m 0 p
      let c := y.cmdOf p 0
      Begins s 0 p [] c (((y.addCmd 0 c).onQueue 0 (fun t => { t with chain := none })).flashMeets s.fuse c []) ∧
        (y.job 0).state ≠ 0 := by
  intro p h
  refine ⟨begins_of _ _ ?_, ?_⟩
  all_goals (revert p; decide +kernel)

theorem test_witness_queuesAndMailboxesServeTheHost :
    let m := (hosted State.reset).m
    m.powered = true ∧ 15 < m.host.queues.length ∧ m.served 0 = true ∧ m.served 1 = true ∧ (m.queue 1).state = 0 ∧ (m.queue 0).state = 1 ∧
    (m.queue 0).chain = none ∧ (m.queue 0).cmds = [] ∧ (m.port 0).ready = true ∧ (m.port 0).mailbox.busy = false ∧
    (field (mergeBytes (m.queue 0).sqTail 32703 255) 0 15 = 32703) := by decide +kernel

/-- A doorbell past the free span, a queue to drain, a response that fits, a vector's gap and a busy mailbox. -/
theorem test_witness_queuesAndMailboxesServeTheHost_clauses :
    let m := (hosted State.reset).m
    let q := fun (f : Queue → Queue) => (m.onQueue 0 f).queue 0
    ¬(field (mergeBytes (q id).sqTail 32704 255) 0 15 < ringUnits) ∧
    ((q (fun t => { t with state := 2 })).state = 2 ∧ (q (fun t => { t with state := 2 })).resps = []) ∧
    (let r := Resp.plain 0 0 0 0 true
     let t := q (fun t => { t with resps := [r], rrHead := 0, rrTail := 0 })
     t.resps = [r] ∧ t.state ≠ 0 ∧ t.rrTail + r.units ≤ t.rrUnits ∧ r.units ≤ t.rrFree ∧ r.last = true ∧ r.holdsTag = true) ∧
    (q (fun t => { t with irqGap := true })).irqGap = true ∧
    ((m.onMailbox 0 (fun b => { b with busy := true })).port 0).mailbox.busy = true ∧
    (m.port 1).ready = false ∧ m.mgmt.reachable = true := by decide +kernel

/-- What a host reads: the size of a response ring at reset, the WO doorbell, and the mailbox's status. -/
theorem test_reads_of_registers :
    let m := (hosted State.reset).m
    m.readBar 0 0 0x28 8 = leBytes 8 16 ∧ m.readBar 0 2 0 8 = zeros 8 ∧ m.readBar 1 0 0x28 8 = zeros 8 ∧
    (m.onMailbox 0 (fun b => { b with busy := true })).readBar 0 2 8 8 = leBytes 8 2 := by decide +kernel

theorem test_witness_portResetsKeepToTheirPort :
    let m := (hosted State.reset).m
    m.powered = true ∧ m.host.ports.length = 2 ∧ m.host.queues.length = 16 ∧ (m.port 0).up = true ∧ (m.port 0).perst = false ∧
    (m.port 1).ready = false := by decide +kernel

/-! ### Witnesses: management, power and loops -/

/-- Port 0's mailbox holds a request. -/
def asking (msg : List Byte) : State :=
  let s := hosted State.reset
  { s with m := s.m.onMailbox 0 (fun b => { b with busy := true, taken := some msg }) }

/-- A request of a type and body. -/
def ask (type : Nat) (body : List Byte) : List Byte := message type 1 0 false false false body

/-- What `Asks` asks of port 0's mailbox, as one check. -/
theorem asks_of (s : State) (r : Req)
    (h : (s.m.powered && s.m.mgmt.reachable && !s.m.mgmt.romService && (s.m.reqOf s.fuse (.mailbox 0) == some r) && !r.onField &&
      r.flags == 0 && decide (r.len ≤ pathLimit r.path)) = true) : Asks s (.mailbox 0) r s.m := by
  simp only [Bool.and_eq_true, beq_iff_eq, Bool.not_eq_true', decide_eq_true_eq] at h
  obtain ⟨⟨⟨⟨⟨⟨h1, h2⟩, h3⟩, h4⟩, h5⟩, h6⟩, h7⟩ := h
  exact ⟨rfl, h1, h2, h3, h4, by simp [Module.takeFrame, h5], by simp [Module.keptFor, h5], h6, h7⟩

/-- The bodies of an OD_READ and an OD_WRITE of OD 0x2020:01, of a commit of range 2, and of a firmware update's BEGIN. -/
def reqs : List (Nat × List Byte) :=
  [(0x0001, []), (0x0002, zeros 16), (0x0010, leBytes 8 (0x2020 * 2 ^ 48 + 2 ^ 40 + 2) ++ zeros 8),
   (0x0011, leBytes 8 (0x2020 * 2 ^ 48 + 2 ^ 40 + 2) ++ zeros 8 ++ leBytes 2 2100),
   (0x0011, leBytes 8 (0x20FE * 2 ^ 48 + 2 ^ 40 + 1) ++ zeros 8 ++ leBytes 1 1),
   (0x0030, leBytes 8 1 ++ zeros 64)]

/-- The request that those bytes are. -/
def reqFrom (p : Nat × List Byte) : Req := readReq 8 0 0 (ask p.1 p.2)

theorem test_witness_messagesAreServed :
    ∀ p ∈ reqs, Asks (asking (ask p.1 p.2)) (.mailbox 0) (reqFrom p) (asking (ask p.1 p.2)).m := by
  intro p h
  refine asks_of _ _ ?_
  revert p; decide +kernel

theorem test_witness_messagesAreServed_writes :
    let w := reqFrom (reqs.getD 3 (0, []))
    let c := reqFrom (reqs.getD 4 (0, []))
    let m := (asking []).m
    w.type = 0x0011 ∧ w.writeRow = 0 ∧ (m.writeCheck w).1 = stOk ∧ (m.writeCheck w).2.isSome = true ∧
    c.writeRow = 1 ∧ (m.writeCheck c).1 = stOk ∧ (m.writeCheck c).2.isSome = true := by decide +kernel

theorem test_witness_firmwareTrustAndStressAct :
    let r := reqFrom (reqs.getD 5 (0, []))
    let m := (asking []).m
    m.fw.slots.length = 2 ∧ m.fw.running < 2 ∧ Updates m r 1 ∧ m.fw.session = none ∧ leAt r.body 16 8 ≤ 2 ^ 28 - 64 ∧
    m.trust.secOk = true ∧ m.trust.forming = none ∧ m.stress.state = 0 := by
  unfold Updates; decide +kernel

theorem test_witness_powerStartsAndStopsTheModule :
    (∀ ph ∈ [Phase.off, .precharge, .on, .holdup, .tripped],
      ({ Module.reset with power := { Module.reset.power with phase := ph } } : Module).power.phase = ph) ∧
    Module.reset.powered = true ∧ Module.reset.mgmt.reachable = false ∧ Module.reset.mgmt.restartCause = 0 ∧
    (Module.reset.die 48).ready = true ∧ Module.reset.log.nextSlot < Module.reset.log.slots.length ∧
    (asking []).m.mgmt.capstanUp = true := by decide +kernel

theorem test_witness_loopsAndSourcesAct :
    Module.reset.powered = true ∧ Module.reset.power.refState = 0 ∧ Module.reset.jobs.length = 16 ∧
    51 < Module.reset.dies.length ∧ (Module.reset.die 48).ready = true ∧ Module.reset.power.powerHold < 4 ∧
    (let m : Module := { Module.reset with lasers := [{ Laser.none with present := true, powered := true }, Laser.none] }
     (m.lasers.getD 0 Laser.none).present = true ∧ (m.lasers.getD 0 Laser.none).powered = true) := by decide +kernel

/-- Ranks 0 and 255 of ropes of 1 and 256, and the end of a way up. -/
theorem test_witness_theTreeIsHeapOrdered :
    contributors 1 0 = 1 ∧ contributors 256 0 = 256 ∧ contributors 256 255 = 1 ∧ bondPartner 255 0 = 127 ∧
    bondNeeded 127 256 1 = true ∧ bondNeeded 127 256 2 = false := by decide +kernel

theorem test_witness_selectionFollowsItsFormula :
    let s := withJob (fun b => { b with run := { b.run with latch := [(odKey 0x3120 6, 4)] } })
    dupDivisor ((s.m.job 0).run.latch.get (odKey 0x3120 6)) ≠ 0 ∧ s.m.dupSelected (tile0 []) = true ∧
    s.m.dupSelected { tile0 [] with number := 1 } = false := by decide +kernel

/-! ### Witnesses: further clauses -/

/-- A gather whose rows have arrived and whose turn is awaited, one whose turn has come, and the instruction's destination. -/
theorem test_witness_lateGatherCommits_turn :
    let s := bench { core0 with gathers := [{ gather0 with waits := true }] } (jobBf [splWords 1])
    atGather.m.stoppedIn gather0.reads = none ∧ atGather.m.gatherTurn gather0.inst = true ∧
    (atGather.m.spliceDst gather0.inst).isSome = true ∧
    (withJob (fun b => { b with prog := { b.prog with experts := some experts0 } })).m.stale
      { inst0 (splWords 1) with
        entry := some { at_ := 0, target := 0, tmpl := 0, e := 0, p := 0, coords := [], epoch := 1 } } = true ∧
    ((s.m.core 0).gathers.head?.map PendGather.waits) = some true ∧ s.m.gatherTurn gather0.inst = true := by decide +kernel

/-- Core 0, whose oldest gather waits for its combine turn, which has come (`Module.lateTurn`). -/
theorem test_witness_heldInstructionsIssueAgain_gather :
    let p := { gather0 with waits := true }
    let s := bench { core0 with gathers := [p] } (jobBf [splWords 1])
    s.m.lateTurn 0 ∧ s.m.meet s.fuse p.inst [] = (s.m, true) :=
  ⟨⟨_, _, rfl, rfl, by decide +kernel⟩, meet_nil _ _ _ (by decide +kernel)⟩

/-- A core without a late gather that waits for a tag at its first core tile, and one that waits for a shape word. -/
theorem test_witness_heldInstructionsIssueAgain_tile :
    let s := bench { core0 with seq := { core0.seq with wait := some (.tag 0 true) }, tiles := [tile0 (matWords 1)] } (jobBf [matWords 1])
    let m := s.m.onSeq 0 (fun q => { q with wait := none })
    let t := waiting (.shape 0) (ctlWords 4 1)
    ¬s.m.lateTurn 0 ∧ m.meet s.fuse (tile0 (matWords 1)).inst [] = (m, true) ∧
    ((m.commitTile s.fuse [] 0).core 0).seq.wait ≠ some (Wait.tag 0 true) ∧
    (t.m.core 0).seq.wait = some (.shape 0) ∧
    Reissues t.fuse (t.m.bump (odKey 0x3210 4) 3) 0 [] (inst0 (ctlWords 4 1))
      ((t.m.bump (odKey 0x3210 4) 3).onSeq 0 (fun q => { q with wait := none })) := by
  refine ⟨?_, meet_nil _ _ _ (by decide +kernel), by decide +kernel, rfl, rfl,
    ⟨0, rfl, by decide +kernel⟩, meet_nil _ _ _ (by decide +kernel), by decide +kernel⟩
  rintro ⟨p, ps, h, -⟩
  cases (show ([] : List PendGather) = p :: ps from h)

/-- The page that a row instruction reads is fetched, the lowest page of the next ones ahead of time, and the home of a page that is
spilled lies in no stopped stack. -/
theorem test_witness_heldInstructionsIssueAgain_homes :
    let s := waiting (.stat 0 0) (rowWords 0x11 1)
    let t := bench core0 (jobBf [rowWords 0x11 1])
    s.m.fetchWaits 0 0 0 = true ∧ s.m.pageFits 0 0 0 0 = true ∧
    t.m.nextAhead 0 0 = some (0, 0) ∧ t.m.pageFits 0 0 0 0 = true ∧ (t.m.core 0).seq.wait ≠ some (.stat 0 0) ∧
    s.m.stoppedIn (s.m.pageHomes 0 1 0) = none := by decide +kernel

/-- A movement at the head of its channel that waits for its turn, and one for an expert's page that is present. -/
theorem test_witness_heldInstructionsIssueAgain_movements :
    let s := atMove 2 1 [move0 2 (some .turn) false]
    let b := atExperts 2
    let t : State := { b with m := { b.m with residency := b.m.residency.map (fun (r : Nat × Residency) => (r.1, { r.2 with present := 1 })) } }
    (s.m.core 0).head 0 = some (move0 2 (some .turn) false) ∧ Wait.turn.isTag = true ∧ t.m.pageHere 0 1 0 = true := by decide +kernel

/-- A late gather that waits for its turn, and one whose rows come from a stopped stack. -/
theorem test_witness_tagWaitLimitEndsTheJob_gathers :
    let p := { gather0 with waits := true }
    let s := bench { core0 with gathers := [p] } (jobBf [splWords 1])
    let m : Module := { s.m with hbmStacks := s.m.hbmStacks.map (fun (t : Stack) => { t with stopped := true }) }
    (s.m.core 0).seq.wait = none ∧ (s.m.core 0).job.isSome = true ∧ (s.m.core 0).gathers = [p] ∧ s.m.gatherWait p = some .turn ∧
    m.gatherWait { gather0 with reads := [(0, 32)] } = some (.stack 0) ∧ (s.m.job 0).tagLimit ≠ 0 := by decide +kernel

/-- Two reports of one cluster: the older one is first. -/
theorem test_witness_fencesTakeTheirCores_order :
    let r := fun (n : Nat) => ({ core0 with fenceReq := some { status := 0, inst := none, age := n } } : Core)
    let s : State := { State.reset with m := { Module.reset with cores := r 1 :: r 0 :: List.replicate 382 Core.reset } }
    s.m.reportFirst 0 = false ∧ s.m.reportFirst 1 = true ∧ 1 < s.m.cores.length := by decide +kernel

/-- A coil behind a movement that has started, its burst without poison. -/
theorem test_witness_movesQueueInTheirChannel_coil :
    let s := atMove 5 1 [move0 2 none false]
    s.m.viewOf (inst0 (movWords 5 1)) = none ∧ ((s.m.core 0).channels[0]?).map List.length = some 1 ∧
    ((s.m.operand (inst0 (movWords 5 1)) (hiOf (movWords 5 1) 2) false 0).map (s.m.burstBad (inst0 (movWords 5 1)))) = some none := by
  decide +kernel

/-- The FACTORED tensor of a running job whose elements have all been handled: no factor waits for a stack and none is poisoned. -/
theorem test_witness_bucketsAndFactorsAreApplied_homes :
    let f : Factored := { tensor := 0, finished := false }
    let s := withJob (fun b => let c := train0 { b with factored := [f], run := { b.run with applied := [(appliedKey 0 0, 1)] } }
      { c with image := { c.image with states := [{ tensor := 0, rows := 1, cols := 1 }] } })
    let b := s.m.job 0
    b.state = 3 ∧ b.run.mustReplay = none ∧ b.factoredOf 0 = some f ∧ b.allApplied 0 = true ∧ s.m.facWaits 0 0 = false ∧
    s.m.finalPoison 0 0 = none ∧ ((b.image.tensors[0]?).bind (fun x => b.image.groups[x.group]?)).isSome = true ∧
    (let a := atBucket 3
     ∀ g ∈ a.m.bucketGrads 0, a.m.poisonAt 0 0 2 (reduce0.stagedAt 0 g) 1 = false) := by decide +kernel

/-- A slice of one element in a rope, whose bucket is open and does not hold the element yet. -/
theorem test_witness_slicesReachTheirTackles_rope :
    let s := roped 1 2 (withJob (fun b => train0 { b with
      prog := { b.prog with reduce := some reduce0 },
      run := { b.run with slices := [slice0], buckets := [Bucket.fresh] } }))
    let b := s.m.job 0
    s.m.inRope 0 = true ∧ b.state = 3 ∧ b.run.mustReplay = none ∧ b.run.slices = [slice0] ∧ s.m.sliceWaits 0 0 [0] = false ∧
    b.segPlace 0 0 = some (0, 0) ∧ (b.bucket 0).state = 0 ∧ (b.bucket 0).elems.lookup 0 = none ∧ 0 < b.run.buckets.length := by
  decide +kernel

/-- The element of that slice alone at its tackle in a rope of size 1: it is written, carries its value and has its group. -/
theorem test_witness_slicesReachTheirTackles_element :
    let s := withJob (fun b => train0 { b with run := { b.run with slices := [slice0] } })
    let b := s.m.job 0
    b.sliceGrads slice0 = [{ t := 0, e := 0, code := 1, unit := 0 }] ∧ b.writes 0 0 = true ∧
    ({ t := 0, e := 0, code := 1, unit := 0 } : Grad).carries = true ∧ (gradConsts b { t := 0, e := 0, code := 1, unit := 0 }).isSome = true ∧
    (gradAddr b { t := 0, e := 0, code := 1, unit := 0 } = 4096 + b.hbmBase) := by decide +kernel

/-- A step whose acceptance test differs: its reference names the CRC of other bytes. -/
theorem test_witness_stepsCommitAsAWhole_accept :
    let s := bench { core0 with seq := { core0.seq with done := true } } (let b := jobBf [ctlWords 7 0]
      { b with prog := { b.prog with refs := [{ offset := 0, length := 8, crc := 1 }] }, run := { b.run with accept := true } })
    s.m.canCommitStep 0 = true ∧ s.m.acceptFails 0 = some 0 := by decide +kernel

/-- A state snapshot that is being written, and its name once its write has ended. -/
theorem test_witness_snapshotsAreKeptOrNot_writing :
    let t := mounted (withJob (fun b => { b with pendingSnap := some (1, zeros 8) }))
    let s := { t with m := t.m.onStore (fun c => { c with writing := [(3, moduleId 0 0 1)] }) }
    s.m.powered = true ∧ (s.m.job 0).pendingSnap = some (1, zeros 8) ∧ s.m.writeRefused 3 (moduleId 0 0 1) 8 = stDenied ∧
    (s.m.closeSnap (moduleId 0 0 1)).writeRefused 3 (moduleId 0 0 1) 8 = stOk := by decide +kernel

/-! #### Frames -/

/-- Rank 1 in the middle of a step, with a REDUCE section. -/
def atStep : State :=
  let s := roped 1 2 (withJob (fun b => train0 { b with prog := { b.prog with reduce := some reduce0 } }))
  { s with m := { s.m with hawsers := List.replicate 16 { Hawser.reset with state := 2 } } }

/-- A JOIN whose payload agrees with the rank, one of another header epoch, and a bond that a deeper rank reports. -/
theorem test_witness_framesActInTheirRope_join :
    let s := { atRope with m := atRope.m.odSet (odKey 0x5200 6) 1 }
    let b := s.m.job s.m.ropeJob
    let p := leBytes 2 0 ++ leBytes 2 2 ++ leBytes 4 s.m.ropeEpoch ++ leBytes 8 b.imageId ++ leBytes 8 (seedHash b.seed) ++ zeros 40
    let f := { frame0 2 with payload := p }
    let x := s.m.acceptFrame 0 f
    Arrives s 0 2 f.bytes f ∧ x.joinBad 0 f = none ∧ bondOf 0 < x.rope.bonds.length ∧ x.ropeState = 1 ∧
    (x.joinBad 0 (frame0 2)).isSome = true ∧
    (let g := { f with epoch := 5 }
     parseFrame g.bytes = some g ∧ g.type = 2 ∧ g.linkSeq = (s.m.hawser 0).rxSeq ∧ g.epoch ≠ s.m.ropeEpoch ∧ (s.m.hawser 0).up = true) := by
  unfold Arrives; decide +kernel

/-- ETAB and WGT of the current attempt: the frame's half is new, one already seen, and one whose tackles wait for their stack. -/
theorem test_witness_framesActInTheirRope_current :
    let s := atStep
    let x := fun (t : Nat) => s.m.acceptFrame 0 (frame0 t)
    (∀ t ∈ [5, 6, 8], ArrivesFresh s 0 t (frame0 t).bytes (frame0 t) ∧ (x t).current (frame0 t) = true) ∧
    ((x 5).job 0).prog.reduce = some reduce0 ∧ bondOf 0 = 0 ∧
    ((x 6).job 0).prog.reduce.bind (fun r => (r.segsOf 0)[0]?) = some (0, 0) ∧ s.m.wgtWaits 0 (frame0 6).bytes = false ∧
    (0, 0) ∉ (x 6).rope.wgtSeen ∧
    (let y := s.m.onRope (fun r => { r with wgtSeen := [(0, 0)] })
     (0, 0) ∈ (y.acceptFrame 0 (frame0 6)).rope.wgtSeen) ∧
    (let y : Module := { s.m with hbmStacks := s.m.hbmStacks.map (fun (t : Stack) => { t with stopped := true }) }
     y.wgtWaits 0 (frame0 6).bytes = true) := by
  unfold ArrivesFresh Arrives; decide +kernel

/-- An ABORT of the current attempt that ends the job, one of the attempt to come, and one that belongs to neither. -/
theorem test_witness_framesActInTheirRope_abort :
    let x := fun (s : State) (f : Frame) => s.m.acceptFrame 0 f
    let f := { frame0 8 with code := stCheck, segment := 1 }
    let g := { frame0 8 with code := stCheck }
    let h := { frame0 8 with code := stCheck, step := 7 }
    (Arrives atStep 0 8 f.bytes f ∧ (x atStep f).current f = true ∧ (x atStep f).inRope 0 = true) ∧
    (Arrives atRope 0 8 g.bytes g ∧ (x atRope g).current g = false ∧ (x atRope g).fresh g = true ∧ g.segment ≠ 1) ∧
    (Arrives atRope 0 8 h.bytes h ∧ (x atRope h).fresh h = false) ∧ stCheck ≠ stPeerLost ∧ stCheck ≠ stPoison := by
  unfold Arrives; decide +kernel

/-- A port that serves its bond with a free spare and enough live ports, one that leaves its bond short, and one that serves none. -/
theorem test_witness_portsComeAndGo_bonds :
    let m := atRope.m
    let down := m.onHawser 0 (fun h => { h with state := 3, unacked := [], queue := [] })
    bondNeeded m.rank m.ropeSize (bondOf 0) = true ∧ (m.hawser 0).state = 2 ∧ (m.hawser (bondSpare m.rank 0)).state = 2 ∧
    bondSpare m.rank 0 ≠ 0 ∧ bondSpare m.rank 0 < m.hawsers.length ∧ m.minPorts ≤ (down.bondLive 0).length ∧
    m.inRope m.ropeJob = true ∧ bondNeeded m.rank m.ropeSize (bondOf 1) = false ∧
    (let n : Module := { m with hawsers := { Hawser.reset with state := 2 } :: List.replicate 15 Hawser.reset }
     ((n.onHawser 0 (fun h => { h with state := 3, unacked := [], queue := [] })).bondLive 0).length < n.minPorts) := by decide +kernel

/-- What the clauses on commands of one packet ask: BIND of a slot, STEP asked for and denied, RELEASE_JOB of an ENDED context, a
command that names a FREE one, and CANCEL_BATCH in a rope. -/
theorem test_witness_hostCommandsOnJobs_clauses :
    let bound : Bound := { slot := 1, address := false, value := 0, next := 0 }
    let on := fun (f : Job → Job) => hosted (withJob f)
    let rope := fun (f : Job → Job) => hosted (roped 0 2 (withJob f))
    let x := fun (s : State) (p : Packet) =>
      (((leavesRing s.m 0 p).addCmd 0 ((leavesRing s.m 0 p).cmdOf p 0)).onQueue 0 (fun t => { t with chain := none })).flashMeets s.fuse
        ((leavesRing s.m 0 p).cmdOf p 0) []
    let begins := fun (s : State) (p : Packet) =>
      s.m.canTake 0 p && (leavesRing s.m 0 p).beginsWell 0 p && (leavesRing s.m 0 p).featured 0 p &&
        (x s p).nextStart == some (0, (leavesRing s.m 0 p).cmdOf p 0)
    begins (on (fun b => { b with bounds := [bound] })) (pkt 2 0 1 7) = true ∧
    ((on (fun b => { b with bounds := [bound] })).m.job 0).live = true ∧
    begins (on (fun b => { b with state := 2 })) (pkt 3 0 0 0) = true ∧
    (x (on (fun b => { b with state := 2 })) (pkt 3 0 0 0)).stepDenied 0 = false ∧
    (x (on (fun b => { b with state := 4 })) (pkt 3 0 0 0)).stepDenied 0 = true ∧
    begins (on (fun b => { b with state := 4 })) (pkt 5 0 0 0) = true ∧
    (∀ op ∈ [3, 0x14], begins (on (fun _ => Job.free)) (pkt op 0 0 0) = true) ∧
    tellsFailure 3 = false ∧ tellsFailure 0x14 = true ∧
    begins (rope id) (pkt 6 0 0 0) = true ∧ (x (rope id) (pkt 6 0 0 0)).inRope 0 = true := by decide +kernel

/-- The first packet of a chain: an opcode, a job, the words 2 to 4, one unit of payload. -/
def pktData (op job w2 w3 w4 : Nat) : Packet :=
  { header := leBytes 8 (op * 2 ^ 56 + 2 ^ 44 + 2 ^ 33 + job * 2 ^ 29 + 2 ^ 25) ++ zeros 8 ++ leBytes 8 w2 ++ leBytes 8 w3 ++
      leBytes 8 w4 ++ zeros 24,
    payload := zeros 64, poisoned := false }

/-- A module whose queue 0 holds the two units of such a packet. -/
def hosted2 (s : State) : State := { hosted s with m := (hosted s).m.onQueue 0 (fun t => { t with sqTail := 2 }) }

/-- What `Begins` asks of a command whose one packet holds all its payload, as one check. -/
theorem begins_data (s : State) (p : Packet)
    (h : let y := leavesRing s.m 0 p
      let c := y.cmdOf p 0
      let x := ((y.addCmd 0 c).onQueue 0 (fun t => { t with chain := none })).flashMeets s.fuse c []
      (s.m.powered && s.m.canTake 0 p && !(s.m.queue 0).chained.any (fun d => d.tag == p.tag) && y.beginsWell 0 p && y.featured 0 p &&
        (p.len64 == c.units 0) && (p.last == c.endsAt 0) && c.endsAt 0 && x.nextStart == some (0, c)) = true) :
    let y := leavesRing s.m 0 p
    let c := y.cmdOf p 0
    Begins s 0 p [] c (((y.addCmd 0 c).onQueue 0 (fun t => { t with chain := none })).flashMeets s.fuse c []) := by
  simp only [Bool.and_eq_true, beq_iff_eq, Bool.not_eq_true'] at h
  obtain ⟨⟨⟨⟨⟨⟨⟨⟨h1, h2⟩, h3⟩, h4⟩, h5⟩, h6⟩, h7⟩, h8⟩, h9⟩ := h
  exact ⟨by decide, h1, h2, h3, h4, h5, rfl, fun _ => ⟨h6, h7⟩, by simp [h8], h9⟩

/-- A LOAD into a FREE context whose one unit is its whole image, a WRITE_JOB and an OBJ_WRITE. -/
theorem test_witness_hostCommands_data :
    ∀ r ∈ [((fun _ => Job.free : Job → Job), pktData 1 0 64 0 0), (id, pktData 0x20 0 0 64 0), (id, pktData 0x28 0 3 7 64)],
      let s := hosted2 (mounted (withJob r.1))
      let y := leavesRing s.m 0 r.2
      let c := y.cmdOf r.2 0
      Begins s 0 r.2 [] c (((y.addCmd 0 c).onQueue 0 (fun t => { t with chain := none })).flashMeets s.fuse c []) := by
  intro r h
  refine begins_data _ _ ?_
  simp only [List.mem_cons, List.not_mem_nil, or_false] at h
  obtain rfl | rfl | rfl := h <;> decide +kernel

/-- What a LOAD's clauses ask: arguments that fail, and arguments that pass with the image whole and rejected. -/
theorem test_witness_hostCommandsOnJobs_load :
    let c := fun (w2 : Nat) (s : State) => (leavesRing s.m 0 (pktData 1 0 w2 0 0)).cmdOf (pktData 1 0 w2 0 0) 0
    let s := hosted2 (mounted (withJob (fun _ => Job.free)))
    let t := hosted2 (mounted (withJob id))
    (s.m.loadArgs (c 64 s)) = none ∧ (c 64 s).whole = true ∧ (c 128 s).whole = false ∧ (t.m.loadArgs (c 64 t)).isSome = true ∧
    0 < s.m.jobs.length ∧
    ((s.m.judge (s.m.loadEnv s.fuse 0 0 0 64) (zeros 64) 0).1).isSome = true := by decide +kernel

/-- An open chain, its next packet, and one that breaks it. -/
theorem test_witness_hostCommandsOnJobs_chain :
    let ch : Cmd := { tag := 0, opcode := 0x20, job := 0, args := [0, 16448, 0, 0, 0, 0], order := false, state := 1, stamp := 0, policy := 0,
                      keys := 0, got := 16384, data := [] }
    let p : Packet := { header := leBytes 8 (0x20 * 2 ^ 56 + 2 ^ 44 + 2 ^ 33 + 2 ^ 25) ++ leBytes 8 (2 ^ 32) ++ zeros 48, payload := zeros 64,
                        poisoned := false }
    let s := hosted2 (withJob id)
    let m := s.m.onQueue 0 (fun t => { t with cmds := [ch], chain := some 0 })
    let fits := fun (p : Packet) => p.formOk && p.argsIn [] && p.opcode == ch.opcode && p.job == ch.job && p.seq == ch.nextSeq &&
      p.len64 == ch.units ch.nextSeq && p.last == ch.endsAt ch.nextSeq && (m.countTaken 0 p).featured 0 p
    (m.queue 0).chained = some ch ∧ m.canTake 0 p = true ∧ ch.tag = p.tag ∧ fits p = true ∧ fits { p with poisoned := true } = false ∧
    m.canTake 0 { p with poisoned := true } = true := by decide +kernel

/-- Commands on variants, pins and objects that start: ACTIVATE, SAVE, RESTORE, PIN_EXPERT, UNPIN_EXPERT, OBJ_READ and OBJ_DELETE. -/
theorem test_witness_hostCommandsOnStateAndData_more :
    ∀ p ∈ [pkt 0x11 0 0 0, pkt 0x12 0 0 0, pkt 0x13 0 0 0, pkt 0x19 0 0 0, pkt 0x1A 0 1 0, pkt 0x1B 0 1 0, pkt 0x29 0 3 1, pkt 0x2A 0 3 1],
      let s := hosted (mounted (withJob id))
      let y := leavesRing s.m 0 p
      let c := y.cmdOf p 0
      Begins s 0 p [] c (((y.addCmd 0 c).onQueue 0 (fun t => { t with chain := none })).flashMeets s.fuse c []) := by
  intro p h
  refine begins_of _ _ ?_
  revert p; decide +kernel

/-- A SNAPSHOT whose identifier is refused, and one that is not. -/
theorem test_witness_hostCommandsOnStateAndData_names :
    badModuleId (2 ^ 63 + 2 ^ 40) = true ∧ badModuleId 0 = false ∧ badModuleId 5 = false := by decide +kernel

/-- Commands that a reset of their port ends: a LOAD with its image, a STEP that has not started, an object write and a SNAPSHOT. -/
theorem test_witness_portResetsKeepToTheirPort_commands :
    let c := fun (t op w4 : Nat) =>
      ({ tag := t, opcode := op, job := 0, args := [3, 7, w4, 0, 0, 0], order := false, state := 1, stamp := 0, policy := 0, keys := 0, got := 0,
         data := [] } : Cmd)
    let s := hosted (mounted (withJob (fun _ => { Job.free with state := 1 })))
    let m := s.m.onQueue 0 (fun t => { t with cmds := [c 0 1 0, c 1 3 0, c 2 0x28 64, c 3 0x18 1] })
    (m.portCmds 0).map Cmd.opcode = [1, 3, 0x28, 0x18] ∧ (m.job 0).state = 1 ∧ (m.portCmds 0).map m.cancels = [true, false, true, false] ∧
    (m.portCmds 1) = [] ∧
    (let t := hosted (withJob (fun b => { b with state := 2, run := { b.run with stepAsked := true } }))
     (t.m.onQueue 0 (fun t => { t with cmds := [c 1 3 0] })).cancels (c 1 3 0) = true) := by decide +kernel

/-- A commit that is to be applied, one that waits for the rope job's boundary, and one whose values break its range's rules. -/
theorem test_witness_messagesAreServed_commits :
    let m := (asking []).m
    let k : PendCommit := { range := 2, path := 8, vals := [{ path := 8, key := odKey 0x2020 1, value := 2100, clamped := false }] }
    let w : PendCommit := { range := 5, path := 8, vals := [{ path := 8, key := odKey 0x5200 1, value := 1, clamped := false }] }
    let n : Module := { m with mgmt := { m.mgmt with commits := [k, w] } }
    let r := ((roped 0 2 (withJob id)).m).odSet (odKey 0x5200 2) 2
    n.mgmt.commits.find? (fun x => x.range == 2) = some k ∧ n.commitWaits k = false ∧ n.breaks 2 k.vals false = none ∧
    r.commitWaits w = true ∧ (k.vals.map Staged.key).Nodup ∧ odKey 0x2020 1 ≠ odKey 0x20FE 2 ∧ odKey 0x2020 1 ≠ odKey 0x20FE 3 := by
  decide +kernel

/-- A slot that is whole, one that is not, and what its pages meet at END. -/
theorem test_witness_firmwareTrustAndStressAct_end :
    let t : FwSlot := FwSlot.empty
    t.whole = false ∧ slotLost [] = false ∧ slotLost [.unreadable 0 0 0] = true := by decide +kernel

/-- An empty laser slot, and a die with every core fenced. -/
theorem test_witness_loopsAndSourcesAct_more :
    (Module.reset.lasers.getD 0 Laser.none).present = false ∧ 0 < Module.reset.lasers.length ∧
    (let m : Module := { Module.reset with cores := List.replicate 384 { Core.reset with fenced := true },
                                           dies := Module.reset.dies.map (fun (d : Die) => { d with ready := true }) }
     (m.die 0).ready = true ∧ ∀ i, i < 8 → (m.core (8 * 0 + i)).fenced = true) ∧
    (Module.reset.core 0).fenced = false := by decide +kernel

/-- The store's clauses: an unmount asked for, a mount under way, a record to keep, a superblock to reclaim, and no flaw to meet. -/
theorem test_witness_theStoreKeepsItsObjects_more :
    let m := (mounted State.reset).m
    let n := m.onStore (fun c => { c with unmountAsked := true, repairQueue := [0] })
    m.store.flaws = [] ∧ n.store.unmountAsked = true ∧ n.store.writing = [] ∧ n.store.repairQueue.length = 1 ∧
    m.store.repairCopies.length = 4 := by decide +kernel

/-! ### The burst code (R356, R360) -/

/-- 32 bytes to encode. -/
def burstData : List Nat := (List.range 32).map (fun i => (37 * i + 11) % 256)

/-- The generator as Reed and Solomon codes of four check symbols over this field have it. -/
theorem test_burst_generator : burstGenerator = [1, 15, 54, 120, 64] := by decide +kernel

theorem test_burst_syndromes :
    burstSyndrome (burstWord burstData false) = [0, 0, 0, 0] ∧ burstSyndrome (burstWord burstData true) = poisonSyndrome ∧
    poisonSyndrome ≠ [0, 0, 0, 0] := by decide +kernel

/-- A job's range is refused while a stack that it lies in is not ready, and served once it is (R373). -/
theorem test_ranges :
    let m := (withJob id).m
    m.rangeRefused 0 0 8 = stDenied ∧ (m.onStack 0 (fun t => { t with ready := true })).rangeRefused 0 0 8 = stOk ∧
    m.rangeRefused 0 65536 1 = stDenied ∧ m.rangeRefused 0 0 0 = stEmptyOp := by decide +kernel

/-! ### Well-formedness refuses an ill-formed term for each of its checks -/

/-- A packet whose header is short, and one whose payload is no whole number of units. -/
def badPackets : List Packet := [{ pkt 0 0 0 0 with header := [] }, { pkt 0 0 0 0 with payload := zeros 63 }]

theorem test_wf_packets :
    badPackets.all (fun p => !WellFormed (.load 0 p)) = true ∧ WellFormed (.load 16 (pkt 1 0 0 0)) = false ∧
    WellFormed (.load 15 (pkt 1 0 0 0)) = true := by decide +kernel

/-- A term for each check on cores, channels, jobs, counters and clusters, one past the last number. -/
def badUnits : List Instr :=
  [.matrix 384 [], .controlNop 384 [], .tileCommit 384 [], .fenceRegisterSet 384, .tagWaitEnd 384 0 0 [], .tagWaitEnd 0 9 0 [],
   .tagWaitLimit ⟨0, 0⟩ 10, .tagWaitLimit ⟨384, 0⟩ 0, .tagWaitLimit ⟨24, 0⟩ 9, .shapeWordArrival 384 0 [], .signal 16 0, .signal 0 64,
   .movementComplete 384 0, .movementComplete 0 8, .viewResume 0 8 0, .swapComplete 16 0 0 0, .swapComplete 0 0 97 0, .stepStart ⟨16, 0⟩,
   .bucketApply 16 0 [], .expertPagePresent 16 0 0 [], .statPageFetch 384 0 0 0 [], .statPageSpill ⟨384, 0⟩ 0 0 [],
   .coreEnableComplete 384 .pass [], .repairUpdate 5, .stressRunEnd [(384, 0)] false]

theorem test_wf_units : badUnits.all (fun i => !WellFormed i) = true := by decide +kernel

/-- A term for each check on ports, links, stacks, dies, ranges, queues, codes and sources, one past the last number. -/
def badPlaces : List Instr :=
  [.idle ⟨16, 0⟩ [], .wgt 16 [] false, .hawserPortUp 16, .flitCrcError 114 false, .linkRetrain 114, .rowRepairComplete 24 0 0 0,
   .rowRepairComplete 0 32 0 0, .rowRepairComplete 0 0 32 0, .rowRepairComplete 0 0 0 65536, .dramRefresh 24 0, .dramRefresh 0 32,
   .patrolScrub 24 [], .stackTemperatureReport 24 0, .stackEnableComplete 24 0 0 0 none [] [], .nandDieFailure 64 0,
   .loglineToken 65536, .chainTimeout 16, .sqTail 16 0 255, .sqTail 0 (2 ^ 64) 255, .sqTail 0 0 256, .registerWrite 2 0 0 [],
   .registerWrite 0 1 0 [], .perstAssert 2, .odRead (.mailbox 2), .commitApply 0 [], .commitApply 11 [],
   .dieEnableComplete 52 0 false, .junctionSample 52 0, .droop 48 0 0, .aPointSwitch 48, .lsFault 2, .laserPowerLow 2 0]

theorem test_wf_places : badPlaces.all (fun i => !WellFormed i) = true := by decide +kernel

theorem test_wf_edges :
    [Instr.matrix 383 [], .tagWaitEnd 383 8 0 [], .tagWaitLimit ⟨23, 0⟩ 9, .signal 15 63, .swapComplete 15 0 96 0, .flitCrcError 113 true,
     .rowRepairComplete 23 31 31 65535, .commitApply 10 [], .junctionSample 51 (-1), .droop 47 0 0, .lsEol 1, .repairUpdate 4,
     .odRead (.frame []), .registerWrite 1 2 0 []].all WellFormed = true := by decide +kernel

/-! ### The step -/

/-- Of two commands that wait, the first acts and the second stays. -/
theorem test_step_front :
    ({ State.reset with pending := [.keepalive 0, .beaconLoss] } |> step) =
      exec (.keepalive 0) { State.reset with pending := [.beaconLoss] } ∧ step State.reset = .next State.reset := ⟨rfl, rfl⟩

end Sys2Proof.Tests
end

section
/-!
PROOFS. Byte memories (R9, R355, R371): runs of stores and clears, ranges read as their addresses, and the canonical form
as the only one that reads as it does.
-/
namespace Sys2Proof.Proofs

open Sys2Proof.Machine Sys2Proof.Laws

/-! ### Canonical memories and their reads -/

/-- Below its bound a canonical memory reads as zero. -/
theorem get_below_wfFrom {l : Mem} {lo x : Nat} (h : Mem.wfFrom lo l = true) (hx : x < lo) : l.get x = 0 :=
  get_noKey l x (fun c hc => by have := wfFrom_le l lo h c hc; omega)

/-- A canonical memory with a cell in front: its parts. -/
theorem wfFrom_cons (b : Nat) (v : Byte) (l : Mem) (lo : Nat) :
    Mem.wfFrom lo ((b, v) :: l) = true ↔ lo ≤ b ∧ v ≠ 0 ∧ Mem.wfFrom (b + 1) l = true := by
  simp only [Mem.wfFrom, Bool.and_eq_true, decide_eq_true_eq, bne_iff_ne, and_assoc]

/-- The front cell's address reads as its byte. -/
theorem get_cons_self (b : Nat) (v : Byte) (l : Mem) : Mem.get ((b, v) :: l) b = v := by
  simp [Mem.get]

/-- Another address reads as the cells behind it do. -/
theorem get_cons_ne {b x : Nat} (v : Byte) (l : Mem) (h : b ≠ x) : Mem.get ((b, v) :: l) x = l.get x := by
  simp [Mem.get, h]

/-- The walk over cells from `a` on gives the bytes that their addresses read as. -/
theorem walk_eq_map_get (n a : Nat) (l : Mem) (h : Mem.wfFrom a l = true) :
    Mem.walk n a l = (List.range n).map (fun i => l.get (a + i)) := by
  induction n generalizing a l with
  | zero => cases l <;> rfl
  | succ n ih =>
    have next : ∀ k : Mem, Mem.wfFrom (a + 1) k = true → (∀ x, a < x → k.get x = l.get x) →
        l.get a :: Mem.walk n (a + 1) k = (List.range (n + 1)).map (fun i => l.get (a + i)) := by
      intro k hk hget
      rw [ih (a + 1) k hk, List.range_succ_eq_map, List.map_cons, List.map_map, Nat.add_zero]
      congr 1
      refine List.map_congr_left (fun i _ => ?_)
      rw [hget _ (by omega), Function.comp_apply, Nat.succ_eq_add_one, Nat.add_assoc, Nat.add_comm 1]
    cases l with
    | nil => exact next [] rfl (fun _ _ => rfl)
    | cons c rest =>
      obtain ⟨b, v⟩ := c
      obtain ⟨hb, hv, hrest⟩ := (wfFrom_cons b v rest a).1 h
      by_cases hba : b = a
      · subst hba
        have step := next rest hrest (fun x hx => (get_cons_ne v rest (by omega)).symm)
        rw [get_cons_self] at step
        rw [Mem.walk, if_pos rfl, step]
      · have above : Mem.wfFrom (a + 1) ((b, v) :: rest) = true :=
          (wfFrom_cons b v rest (a + 1)).2 ⟨by omega, hv, hrest⟩
        have step := next _ above (fun _ _ => rfl)
        rw [get_below_wfFrom above (Nat.lt_succ_self a)] at step
        rw [Mem.walk, if_neg hba, step]

/-- The cells from `a` on keep the canonical form and read as the whole memory does from there. -/
theorem dropWhile_below (l : Mem) (lo a : Nat) (h : Mem.wfFrom lo l = true) :
    Mem.wfFrom a (l.dropWhile (fun c => c.1 < a)) = true ∧
      ∀ x, a ≤ x → Mem.get (l.dropWhile (fun c => c.1 < a)) x = l.get x := by
  induction l generalizing lo with
  | nil => exact ⟨rfl, fun _ _ => rfl⟩
  | cons c l ih =>
    obtain ⟨b, v⟩ := c
    obtain ⟨_, hv, hl⟩ := (wfFrom_cons b v l lo).1 h
    by_cases hb : b < a
    · obtain ⟨wf, get⟩ := ih (b + 1) hl
      rw [List.dropWhile_cons_of_pos (by simpa using hb)]
      exact ⟨wf, fun x hx => by rw [get x hx, get_cons_ne v l (by omega)]⟩
    · rw [List.dropWhile_cons_of_neg (by simpa using hb)]
      exact ⟨(wfFrom_cons b v l a).2 ⟨by omega, hv, hl⟩, fun _ _ => rfl⟩

/-- A range of a canonical memory reads as its addresses do. -/
theorem read_eq_map_get (mem : Mem) (a n : Nat) (h : mem.wf = true) :
    mem.read a n = (List.range n).map (fun i => mem.get (a + i)) := by
  obtain ⟨wf, get⟩ := dropWhile_below mem 0 a h
  rw [Mem.read, walk_eq_map_get n a _ wf]
  exact List.map_congr_left (fun i _ => get _ (Nat.le_add_right a i))

/-- Two memories in canonical form that read alike are the same cells. -/
theorem eq_of_get_eq (x y : Mem) (lo lo' : Nat) (hx : Mem.wfFrom lo x = true) (hy : Mem.wfFrom lo' y = true)
    (h : ∀ a, x.get a = y.get a) : x = y := by
  induction x generalizing y lo lo' with
  | nil =>
    cases y with
    | nil => rfl
    | cons d y =>
      obtain ⟨b, v⟩ := d
      have := h b
      rw [get_cons_self] at this
      exact absurd this.symm ((wfFrom_cons b v y lo').1 hy).2.1
  | cons c x ih =>
    obtain ⟨b, v⟩ := c
    obtain ⟨_, hv, hx'⟩ := (wfFrom_cons b v x lo).1 hx
    cases y with
    | nil =>
      have := h b
      rw [get_cons_self] at this
      exact absurd this hv
    | cons d y =>
      obtain ⟨b', v'⟩ := d
      obtain ⟨_, hv', hy'⟩ := (wfFrom_cons b' v' y lo').1 hy
      have hb : b = b' := by
        rcases Nat.lt_trichotomy b b' with hlt | heq | hgt
        · have := h b
          rw [get_cons_self, get_cons_ne v' y (by omega), get_below_wfFrom hy' (by omega)] at this
          exact absurd this hv
        · exact heq
        · have := h b'
          rw [get_cons_self, get_cons_ne v x (by omega), get_below_wfFrom hx' (by omega)] at this
          exact absurd this.symm hv'
      subst hb
      have hvv : v = v' := by simpa only [get_cons_self] using h b
      have tails : ∀ a, Mem.get x a = Mem.get y a := by
        intro a
        by_cases ha : b = a
        · subst ha
          rw [get_below_wfFrom hx' (Nat.lt_succ_self b), get_below_wfFrom hy' (Nat.lt_succ_self b)]
        · simpa only [get_cons_ne _ _ ha] using h a
      rw [hvv, ih y (b + 1) (b + 1) hx' hy' tails]

/-! ### Runs of stores and clears -/

/-- One operation of a run: bytes stored from an address, and a range behind them cleared. -/
def storeClear (x : Mem) (o : Nat × List Byte × Nat) : Mem := (x.write o.1 o.2.1).clear (o.1 + o.2.1.length) o.2.2

/-- Whether an operation leaves an address alone. -/
def Misses (o : Nat × List Byte × Nat) (x : Nat) : Prop := x < o.1 ∨ o.1 + o.2.1.length + o.2.2 ≤ x

theorem storeClear_wf (mem : Mem) (o : Nat × List Byte × Nat) (h : mem.wf = true) : (storeClear mem o).wf = true :=
  clear_wf _ _ _ (write_wf _ _ _ h)

/-- An address that the operation leaves alone reads as before. -/
theorem get_storeClear_of_misses (mem : Mem) {o : Nat × List Byte × Nat} {x : Nat} (h : Misses o x) :
    (storeClear mem o).get x = mem.get x := by
  unfold Misses at h
  rw [storeClear, get_clear, get_write, if_neg (by omega), if_neg (by omega)]

/-- An address that it covers reads as its stored byte, or as zero in the cleared range. -/
theorem get_storeClear_covered (mem : Mem) (o : Nat × List Byte × Nat) (x : Nat) (h1 : o.1 ≤ x)
    (h2 : x < o.1 + o.2.1.length + o.2.2) :
    (storeClear mem o).get x = if x < o.1 + o.2.1.length then o.2.1.getD (x - o.1) 0 else 0 := by
  rw [storeClear, get_clear, get_write]
  by_cases h : x < o.1 + o.2.1.length
  · rw [if_neg (by omega), if_pos ⟨h1, h⟩, if_pos h]
  · rw [if_pos ⟨by omega, h2⟩, if_neg h]

/-- A run keeps the canonical form. -/
theorem foldl_storeClear_wf (ops : List (Nat × List Byte × Nat)) (mem : Mem) (h : mem.wf = true) :
    Mem.wf (ops.foldl storeClear mem) = true := by
  induction ops generalizing mem with
  | nil => exact h
  | cons o ops ih => exact ih _ (storeClear_wf mem o h)

/-- An address that every operation of a run leaves alone reads as before it. -/
theorem get_foldl_storeClear_of_misses (ops : List (Nat × List Byte × Nat)) (mem : Mem) (x : Nat)
    (h : ∀ o ∈ ops, Misses o x) : Mem.get (ops.foldl storeClear mem) x = mem.get x := by
  induction ops generalizing mem with
  | nil => rfl
  | cons o ops ih =>
    rw [List.foldl_cons, ih _ (fun p hp => h p (List.mem_cons_of_mem o hp)),
      get_storeClear_of_misses mem (h o List.mem_cons_self)]

/-- Settles O29: runs by induction over their operations, ranges by the walk over the cells, and equality of canonical
memories that read alike cell by cell. -/
theorem memoriesAreWhatTheyRead : Obligations.MemoriesAreWhatTheyRead := by
  unfold Obligations.MemoriesAreWhatTheyRead
  refine ⟨fun ops mem hwf => ⟨foldl_storeClear_wf ops mem hwf, fun x hx => get_foldl_storeClear_of_misses ops mem x hx, ?_⟩,
    read_eq_map_get, fun x y hx hy h => eq_of_get_eq x y 0 0 hx hy h⟩
  intro before after o x hops hafter h1 h2
  subst hops
  have split : (before ++ o :: after).foldl storeClear mem =
      after.foldl storeClear (storeClear (before.foldl storeClear mem) o) := by
    rw [List.foldl_append, List.foldl_cons]
  have covered := get_storeClear_covered (before.foldl storeClear mem) o x h1 h2
  rw [← get_foldl_storeClear_of_misses after _ x hafter, ← split] at covered
  exact covered

end Sys2Proof.Proofs
end

section
/-!
PROOFS. Queues, response rings and mailboxes (R10, R11, R416 to R419, R430, R441, R442).
-/
namespace Sys2Proof.Proofs

open Sys2Proof Sys2Proof.Machine Sys2Proof.Laws

/-! ### Queues after an update -/

/-- The queue that was changed. -/
theorem queue_onQueue_self {m : Module} {q : Nat} (hl : q < m.host.queues.length) (f : Queue → Queue) :
    (m.onQueue q f).queue q = f (m.queue q) := by
  simp [queue_onQueue, hl]

/-- The others stay. -/
theorem queue_onQueue_other {m : Module} {q k : Nat} (hk : k ≠ q) (f : Queue → Queue) :
    (m.onQueue q f).queue k = m.queue k := by
  simp [queue_onQueue, hk]

/-- There are as many of them as before. -/
@[simp] theorem onQueue_length (m : Module) (q : Nat) (f : Queue → Queue) :
    (m.onQueue q f).host.queues.length = m.host.queues.length := by
  simp [Module.onQueue]

/-- A change of a queue: the queue, the others and the rest of the module. -/
theorem onQueue_effect {m : Module} {q : Nat} (hl : q < m.host.queues.length) (f : Queue → Queue) :
    (m.onQueue q f).queue q = f (m.queue q) ∧ (∀ k, k ≠ q → (m.onQueue q f).queue k = m.queue k) ∧
      KeepsBut [.queues] m (m.onQueue q f) :=
  ⟨queue_onQueue_self hl f, fun _ hk => queue_onQueue_other hk f, keeps_onQueue m q f⟩

/-! ### Parts that answers, interrupts and mailboxes change -/

/-- An interrupt shows in the interrupt counts alone. -/
theorem keeps_fire (m : Module) (p v : Nat) : KeepsBut [.report] m (m.fire p v) := by
  intro part hp
  cases part <;> simp_all [Part.same]

/-- A change of a mailbox shows in the mailboxes alone. -/
theorem keeps_onMailbox (m : Module) (p : Nat) (f : Mailbox → Mailbox) : KeepsBut [.report] m (m.onMailbox p f) := by
  intro part hp
  by_cases hports : part = .ports
  · rw [hports]
    exact keeps_still (still_onMailbox m p f) .ports (by simp)
  · cases part <;> simp_all [Part.same, Module.onMailbox, Module.onPort]

/-- Bytes posted to host memory show there alone. -/
theorem keeps_postHost (m : Module) (port a : Nat) (bs : List Byte) : KeepsBut [.hostMem] m (m.postHost port a bs) := by
  intro part hp
  cases part <;> simp_all [Part.same, Module.postHost]

/-- A mailbox that was changed. -/
theorem mailbox_onMailbox_self {m : Module} {p : Nat} (hp : p < m.host.ports.length) (f : Mailbox → Mailbox) :
    ((m.onMailbox p f).port p).mailbox = f (m.port p).mailbox := by
  simp [Module.onMailbox, port_onPort, hp]

/-! ### Enabling, doorbells, disabling and draining (R417 to R419) -/

theorem enableQueue_of_disabled {m : Module} {q : Nat} (hs : m.served q = true) (h0 : (m.queue q).state = 0) :
    m.enableQueue q = m.onQueue q (fun t => { t with
      state := 1, enableBit := true, sqTail := 0, sqHead := 0, rrTail := 0, rrPhase := true, irqGap := false, irqHeld := false }) := by
  simp [Module.enableQueue, hs, h0]

/-- Whether a new sq_tail lies in the free span of its ring. -/
def TailFits (t : Queue) (w : Nat) : Prop :=
  w < ringUnits ∧ (w + ringUnits - t.sqTail) % ringUnits ≤ (t.sqHead + ringUnits - 1 - t.sqTail) % ringUnits

theorem doorbell_of_fits (fu : Fuses) {m : Module} {q w : Nat} (hs : m.served q = true) (h1 : (m.queue q).state = 1)
    (hf : TailFits (m.queue q) w) : m.doorbell fu q w = m.onQueue q (fun t => { t with sqTail := w }) := by
  obtain ⟨hw, hspan⟩ := hf
  simp [Module.doorbell, hs, h1, Nat.not_le.2 hw, Nat.not_lt.2 hspan]

theorem doorbell_of_not_fits (fu : Fuses) {m : Module} {q w : Nat} (hs : m.served q = true) (h1 : (m.queue q).state = 1)
    (hf : ¬TailFits (m.queue q) w) :
    m.doorbell fu q w = (m.onQueue q (fun t => { t with state := 3, lastError := stMalformed })).event fu 0x0551
      [q / 8, q % 8, (m.queue q).sqHead, (m.queue q).sqTail, w] := by
  have wrong : ringUnits ≤ w ∨ ((m.queue q).sqHead + ringUnits - 1 - (m.queue q).sqTail) % ringUnits <
      (w + ringUnits - (m.queue q).sqTail) % ringUnits := by
    unfold TailFits at hf
    omega
  simp [Module.doorbell, hs, h1, wrong]

/-- A doorbell of a queue that is not ENABLED does nothing. -/
theorem doorbell_of_not_enabled (fu : Fuses) {m : Module} {q : Nat} (w : Nat) (h1 : (m.queue q).state ≠ 1) :
    m.doorbell fu q w = m := by
  simp [Module.doorbell, h1]

/-- Where no chain is open none breaks. -/
theorem breakChain_of_none {m : Module} {q : Nat} (h : (m.queue q).chain = none) (timeout : Bool) :
    m.breakChain q timeout = m.onQueue q (fun t => { t with chain := none }) := by
  simp [Module.breakChain, Queue.chained, h]

/-- A queue that drains, its open chain gone. -/
def drainingQueue (t : Queue) : Queue := { t with state := 2, enableBit := false, chain := none }

/-- Disabling a queue without an open chain: it drains, and its commands not started are answered CANCELLED. -/
theorem disableQueue_eq (fu : Fuses) {m : Module} {q : Nat} (hl : q < m.host.queues.length) (hs : m.served q = true)
    (hst : (m.queue q).state = 1 ∨ (m.queue q).state = 3) (hc : (m.queue q).chain = none) :
    m.disableQueue fu q =
      (((m.queue q).cmds.filter (m.onQueue q drainingQueue).notStarted).foldl
        (fun (x : Module) c => (x.unaskStep c).answer q c stCancelled 0 0) (m.onQueue q drainingQueue)).settle fu := by
  have state : ((m.queue q).state != 1 && (m.queue q).state != 3) = false := by
    rcases hst with h | h <;> simp [h]
  have drained : (m.onQueue q (fun t => { t with state := 2, enableBit := false })).breakChain q false =
      m.onQueue q drainingQueue := by
    rw [breakChain_of_none (by rw [queue_onQueue_self hl]; exact hc), onQueue_onQueue]
    rfl
  have cmds : ((m.onQueue q drainingQueue).queue q).cmds = (m.queue q).cmds := by rw [queue_onQueue_self hl]; rfl
  simp only [Module.disableQueue, hs, state, Bool.not_true, Bool.or_self, Bool.false_eq_true, if_false, drained, cmds]

/-- A command that has not begun asks for no step. -/
theorem unaskStep_of_waiting (m : Module) {c : Cmd} (h : c.state = 0) : m.unaskStep c = m := by
  simp [Module.unaskStep, h]

/-- The final response of a command, and the command marked as answered. -/
theorem answer_eq (m : Module) (q : Nat) (c : Cmd) (st w4 w5 : Nat) :
    m.answer q c st w4 w5 = m.onQueue q (fun t => { t.markAnswered c.tag with
      resps := t.resps ++ [{ Resp.plain c.opcode c.tag c.job st true with w4 := w4, w5 := w5 }] }) := by
  rw [Module.answer, Module.pushResp, onQueue_onQueue]
  rfl

/-- The queue after it has drained: DISABLED, the responses that nobody waits for dropped. -/
def drainedQueue (t : Queue) : Queue := { t with state := 0, chain := none, resps := [], dropped := t.dropped + t.resps.length }

/-! ### Response rings (R429, R430) -/

/-- A packet put into a ring: its bytes stand in host memory at the tail, and the tail moves on. -/
theorem putResp_effect {m : Module} {q : Nat} (hl : q < m.host.queues.length) (r : Resp) :
    (m.putResp q r).queue q = (m.queue q).rrAdvance r.units ∧ (∀ k, k ≠ q → (m.putResp q r).queue k = m.queue k) ∧
      (m.putResp q r).host.hostMem = m.host.hostMem.write (q / 8 * 2 ^ 64 + ((m.queue q).rrBase + 64 * (m.queue q).rrTail))
        (r.bytes (m.queue q).rrPhase (m.queue q).sqHead (if r.opcode = 0xF0 then (m.queue q).dropped else r.w6)) ∧
      KeepsBut [.queues, .hostMem] m (m.putResp q r) :=
  ⟨queue_onQueue_self (m := m.postHost _ _ _) hl _, fun _ hk => queue_onQueue_other (m := m.postHost _ _ _) hk _, rfl,
    (kb_onQueue q _ (by simp)).2 (keeps_mono (keeps_postHost m _ _ _) (by simp))⟩

/-- The interrupt after a write moves only the coalescing state of its queue. -/
theorem ringIrq_effect {m : Module} {q : Nat} (hl : q < m.host.queues.length) :
    (∃ gap held, (m.ringIrq q).queue q = { m.queue q with irqGap := gap, irqHeld := held }) ∧
      (∀ k, k ≠ q → (m.ringIrq q).queue k = m.queue k) ∧ KeepsBut [.queues, .report] m (m.ringIrq q) := by
  have fired := keeps_fire m (q / 8) (q % 8)
  unfold Module.ringIrq
  dsimp only
  split
  · exact ⟨⟨_, _, rfl⟩, fun _ _ => rfl, keeps_refl _ _⟩
  · split
    · exact ⟨⟨_, _, rfl⟩, fun _ _ => rfl, keeps_mono fired (by simp)⟩
    · split
      · obtain ⟨self, others, keeps⟩ := onQueue_effect hl (fun t => { t with irqHeld := true })
        exact ⟨⟨_, _, self⟩, others, keeps_mono keeps (by simp)⟩
      · obtain ⟨self, others, _⟩ := onQueue_effect (m := m.fire (q / 8) (q % 8)) hl
          (fun t => { t with irqGap := true, irqHeld := false })
        exact ⟨⟨_, _, self⟩, others, (kb_onQueue q _ (by simp)).2 (keeps_mono fired (by simp))⟩

/-- The queue whose front response has been written: it leaves, and a final one frees its tag. -/
def respondedQueue (t : Queue) (r : Resp) (rest : List Resp) : Queue :=
  let t := { t with resps := rest, dropped := if r.opcode = 0xF0 then 0 else t.dropped }
  if r.last && r.holdsTag then t.freeTag r.tag else t

@[simp] theorem respondedQueue_resps (t : Queue) (r : Resp) (rest : List Resp) : (respondedQueue t r rest).resps = rest := by
  unfold respondedQueue; dsimp only; split <;> rfl

@[simp] theorem respondedQueue_rrTail (t : Queue) (r : Resp) (rest : List Resp) : (respondedQueue t r rest).rrTail = t.rrTail := by
  unfold respondedQueue; dsimp only; split <;> rfl

/-- No command holds the tag of a final response. -/
theorem respondedQueue_frees {r : Resp} (t : Queue) (rest : List Resp) (hl : r.last = true) (hh : r.holdsTag = true) :
    ∀ c ∈ (respondedQueue t r rest).cmds, c.tag ≠ r.tag := by
  simp [respondedQueue, hl, hh, Queue.freeTag]

@[simp] theorem rrAdvance_rrTail (t : Queue) (n : Nat) :
    (t.rrAdvance n).rrTail = if t.rrTail + n < t.rrUnits then t.rrTail + n else 0 := by
  unfold Queue.rrAdvance; split <;> rfl

/-- The module after a response that fits has been written, before the commands that may start then. -/
def afterResponse (m : Module) (q : Nat) (r : Resp) (rest : List Resp) : Module :=
  ((((m.putResp q r).onQueue q (fun t => respondedQueue t r rest)).bump (odKey 0x5100 4) 1).bump (odKey 0x5100 8)
    r.payload.length).ringIrq q

/-- A front response that fits before the ring's end and in its free units is written without padding. -/
theorem writeResp_of_fits (fu : Fuses) {m : Module} {q : Nat} {r : Resp} {rest : List Resp}
    (hr : (m.queue q).resps = r :: rest) (h0 : (m.queue q).state ≠ 0)
    (hend : (m.queue q).rrTail + r.units ≤ (m.queue q).rrUnits) (hfree : r.units ≤ (m.queue q).rrFree) :
    m.writeResp fu q = (afterResponse m q r rest).settle fu := by
  have room : ¬ (m.queue q).rrUnits - (m.queue q).rrTail < r.units := by omega
  have fits : ¬ (m.queue q).rrFree < 0 + r.units := by omega
  simp only [Module.writeResp, hr, room, if_false, h0, fits, decide_false, Bool.or_self, Bool.false_eq_true, if_true]
  rfl

theorem afterResponse_effect {m : Module} {q : Nat} (hl : q < m.host.queues.length) (r : Resp) (rest : List Resp) :
    (∃ gap held, (afterResponse m q r rest).queue q =
        { respondedQueue ((m.queue q).rrAdvance r.units) r rest with irqGap := gap, irqHeld := held }) ∧
      (∀ k, k ≠ q → (afterResponse m q r rest).queue k = m.queue k) ∧
      (afterResponse m q r rest).host.hostMem =
        m.host.hostMem.write (q / 8 * 2 ^ 64 + ((m.queue q).rrBase + 64 * (m.queue q).rrTail))
          (r.bytes (m.queue q).rrPhase (m.queue q).sqHead (if r.opcode = 0xF0 then (m.queue q).dropped else r.w6)) ∧
      KeepsBut [.queues, .hostMem, .od, .report] m (afterResponse m q r rest) := by
  obtain ⟨putSelf, putOthers, putMem, putKeeps⟩ := putResp_effect hl r
  have hput : q < (m.putResp q r).host.queues.length := by simpa [Module.putResp, Module.postHost] using hl
  obtain ⟨self, others, keeps⟩ := onQueue_effect hput (fun t => respondedQueue t r rest)
  obtain ⟨⟨gap, held, irqSelf⟩, irqOthers, irqKeeps⟩ := ringIrq_effect
    (m := (((m.putResp q r).onQueue q (fun t => respondedQueue t r rest)).bump (odKey 0x5100 4) 1).bump
      (odKey 0x5100 8) r.payload.length) (q := q) (by simpa using hput)
  refine ⟨⟨gap, held, ?_⟩, fun k hk => ?_, ?_, ?_⟩
  · rw [afterResponse, irqSelf, queue_of_bump, queue_of_bump, self, putSelf]
  · rw [afterResponse, irqOthers k hk, queue_of_bump, queue_of_bump, others k hk, putOthers k hk]
  · exact (irqKeeps .hostMem (by simp)).trans ((keeps .hostMem (by simp)).trans putMem)
  · refine keeps_trans ?_ (keeps_mono irqKeeps (by simp))
    rw [kb_bump _ _ (by simp), kb_bump _ _ (by simp), kb_onQueue _ _ (by simp)]
    exact keeps_mono putKeeps (by simp)

/-! ### Register writes (R417, R441) -/

/-- Byte `i` of the register at `reg`, taken from a write of `bytes` at `off` into a value and its mask, where the write covers it. -/
def coverByte (off : Nat) (bytes : List Byte) (reg : Nat) (acc : Nat × Nat) (i : Nat) : Nat × Nat :=
  if off ≤ reg + i && reg + i < off + bytes.length then
    (acc.1 + (bytes.getD (reg + i - off) 0).toNat * 2 ^ (8 * i), setBit acc.2 i)
  else acc

theorem regPart_eq_foldl (off : Nat) (bytes : List Byte) (reg : Nat) :
    regPart off bytes reg = (List.range 8).foldl (coverByte off bytes reg) (0, 0) := rfl

/-- A byte outside the write adds nothing. -/
theorem coverByte_outside {off reg i : Nat} {bytes : List Byte} (h : reg + i < off ∨ off + bytes.length ≤ reg + i)
    (acc : Nat × Nat) : coverByte off bytes reg acc i = acc := by
  unfold coverByte
  rw [if_neg]
  simp only [Bool.and_eq_true, decide_eq_true_eq]
  omega

theorem setBit_pos (w i : Nat) : 0 < setBit w i :=
  Nat.lt_of_lt_of_le (by simp [Nat.shiftLeft_eq] : 0 < 1 <<< i) Nat.right_le_or

/-- A mask keeps the bits that it has. -/
theorem coverByte_mask_pos {off reg i : Nat} {bytes : List Byte} {acc : Nat × Nat}
    (h : 0 < acc.2 ∨ off ≤ reg + i ∧ reg + i < off + bytes.length) : 0 < (coverByte off bytes reg acc i).2 := by
  unfold coverByte
  split
  · exact setBit_pos _ _
  next hout =>
    simp only [Bool.and_eq_true, decide_eq_true_eq] at hout
    exact h.resolve_right hout

/-- A write beside a register has no byte of it. -/
theorem regPart_apart {off reg : Nat} {bytes : List Byte} (h : reg + 8 ≤ off ∨ off + bytes.length ≤ reg) :
    regPart off bytes reg = (0, 0) := by
  rw [regPart_eq_foldl]
  refine List.foldlRecOn (motive := fun acc => acc = (0, 0)) _ _ rfl (fun acc hacc i hi => ?_)
  have := List.mem_range.1 hi
  rw [coverByte_outside (by omega), hacc]

/-- A write of a byte of a register has a mask. -/
theorem regPart_mask_ne_zero {off reg i : Nat} {bytes : List Byte} (hi : i < 8) (h1 : off ≤ reg + i)
    (h2 : reg + i < off + bytes.length) : (regPart off bytes reg).2 ≠ 0 := by
  obtain ⟨before, after, hsplit⟩ := List.append_of_mem (List.mem_range.2 hi)
  rw [regPart_eq_foldl, hsplit, List.foldl_append, List.foldl_cons]
  exact Nat.pos_iff_ne_zero.1 (List.foldlRecOn (motive := fun acc : Nat × Nat => 0 < acc.2) _ _ (coverByte_mask_pos (.inr ⟨h1, h2⟩))
    (fun acc hacc j _ => coverByte_mask_pos (.inl hacc)))

/-- A write of no byte of a register leaves it. -/
@[simp] theorem writeControl_zero (fu : Fuses) (m : Module) (q reg v : Nat) : m.writeControl fu q reg v 0 = m := by
  simp [Module.writeControl]

@[simp] theorem writeMailbox_zero (fu : Fuses) (m : Module) (p reg v : Nat) : m.writeMailbox fu p reg v 0 = m := by
  simp [Module.writeMailbox]

/-- A write inside rr_head writes rr_head alone. -/
theorem writeControls_rrHead (fu : Fuses) (m : Module) (q : Nat) {o : Nat} {bytes : List Byte} (h1 : 0x30 ≤ o)
    (h2 : o + bytes.length ≤ 0x38) (hne : bytes ≠ []) :
    [0, 8, 0x10, 0x18, 0x20, 0x28, 0x30, 0x38].foldl (fun (m : Module) reg =>
        m.writeControl fu q reg (regPart o bytes reg).1 (regPart o bytes reg).2) m =
      m.onQueue q (fun t => { t with
        rrHead := field (mergeBytes t.rrHead (regPart o bytes 0x30).1 (regPart o bytes 0x30).2) 0 20 }) := by
  have low : ∀ reg, reg ≤ 0x28 → regPart o bytes reg = (0, 0) := fun reg hreg => regPart_apart (by omega)
  have high : regPart o bytes 0x38 = (0, 0) := regPart_apart (by omega)
  have len := List.length_pos_iff.2 hne
  have mask : (regPart o bytes 0x30).2 ≠ 0 := regPart_mask_ne_zero (i := o - 0x30) (by omega) (by omega) (by omega)
  simp only [List.foldl_cons, List.foldl_nil, low 0 (by omega), low 8 (by omega), low 0x10 (by omega), low 0x18 (by omega),
    low 0x20 (by omega), low 0x28 (by omega), high, writeControl_zero]
  simp [Module.writeControl, mask]

/-- A write into the request buffer of a mailbox that serves no request stores its bytes there. -/
theorem writeRequest_inside {m : Module} {p off : Nat} {bytes : List Byte} (h : off + bytes.length ≤ 0x4000) (hne : bytes ≠ [])
    (hb : (m.port p).mailbox.busy = false) :
    m.writeRequest p (0x1000 + off) bytes = m.onMailbox p (fun b => { b with request := b.request.write off bytes }) := by
  have len := List.length_pos_iff.2 hne
  have lo : max (0x1000 + off) 0x1000 = 0x1000 + off := by omega
  have hi : min (0x1000 + off + bytes.length) 0x5000 = 0x1000 + off + bytes.length := by omega
  have nonempty : ¬ 0x1000 + off + bytes.length ≤ 0x1000 + off := by omega
  simp only [Module.writeRequest, lo, hi, nonempty, if_false, hb, Bool.false_eq_true, Nat.add_sub_cancel_left, Nat.sub_self, slice,
    List.drop_zero, List.take_length]

/-- A write before the request buffer stores nothing in it. -/
theorem writeRequest_before (m : Module) (p : Nat) {off : Nat} {bytes : List Byte} (h : off + bytes.length ≤ 0x1000) :
    m.writeRequest p off bytes = m := by
  have empty : min (off + bytes.length) 0x5000 ≤ max off 0x1000 := by omega
  simp only [Module.writeRequest, empty, if_true]

/-- A write behind a mailbox's registers writes none of them. -/
theorem writeMailboxes_behind (fu : Fuses) (m : Module) (p : Nat) {off : Nat} (bytes : List Byte) (h : 0x28 ≤ off) :
    [8, 0x10, 0x18, 0x20, 0].foldl (fun (m : Module) reg =>
        m.writeMailbox fu p reg (regPart off bytes reg).1 (regPart off bytes reg).2) m = m := by
  refine List.foldlRecOn (motive := fun x => x = m) _ _ rfl (fun x hx reg hreg => ?_)
  have : reg ≤ 0x20 := by
    simp only [List.mem_cons, List.not_mem_nil, or_false] at hreg
    omega
  rw [regPart_apart (by omega), writeMailbox_zero, hx]

/-- A 1 written to the doorbell rings the mailbox. -/
theorem writeMailboxes_doorbell (fu : Fuses) (m : Module) (p : Nat) :
    [8, 0x10, 0x18, 0x20, 0].foldl (fun (m : Module) reg =>
        m.writeMailbox fu p reg (regPart 0 [1] reg).1 (regPart 0 [1] reg).2) m = m.ringMailbox fu p := by
  have others : ∀ reg, 8 ≤ reg → regPart 0 [1] reg = (0, 0) := fun reg hreg => regPart_apart (.inr (by simp; omega))
  have doorbell : regPart 0 [1] 0 = (1, 1) := by decide
  simp only [List.foldl_cons, List.foldl_nil, others 8 (by omega), others 0x10 (by omega), others 0x18 (by omega),
    others 0x20 (by omega), doorbell, writeMailbox_zero]
  rfl

/-! ### Register reads (R10, R11, R416, R441) -/

/-- Little-endian bytes are the bytes of the register in order. -/
theorem leBytes_eq_map_regByte (n v : Nat) : leBytes n v = (List.range n).map (regByte v) := by
  induction n generalizing v with
  | zero => rfl
  | succ n ih =>
    rw [leBytes, ih, List.range_succ_eq_map, List.map_cons, List.map_map]
    congr 1
    · simp [regByte, ← BitVec.toNat_inj]
    · refine List.map_congr_left (fun i _ => ?_)
      rw [Function.comp_apply, regByte, regByte, Nat.div_div_eq_div_mul, Nat.succ_eq_add_one, Nat.mul_add, Nat.pow_add,
        Nat.mul_comm (2 ^ (8 * i))]

/-- Before the function is ready every read returns zeros. -/
theorem readBar_of_not_ready {m : Module} {p : Nat} (h : (m.port p).ready = false) (bar off n : Nat) :
    m.readBar p bar off n = zeros n := by
  simp [Module.readBar, Module.barByte, h, zeros, List.map_const']

/-- A read of a register of a queue's control page. -/
theorem readBar_control {m : Module} {q r : Nat} (h : (m.port (q / 8)).ready = true) (hr : r < 0x200) :
    m.readBar (q / 8) 0 (0x200000 * (q % 8) + 8 * r) 8 = leBytes 8 ((m.queue q).register (8 * r)) := by
  rw [leBytes_eq_map_regByte, Module.readBar]
  refine List.map_congr_left (fun i hi => ?_)
  have hi := List.mem_range.1 hi
  have page : (0x200000 * (q % 8) + 8 * r + i) % 0x200000 = 8 * r + i := by omega
  have queue : 8 * (q / 8) + (0x200000 * (q % 8) + 8 * r + i) / 0x200000 % 8 = q := by omega
  have reg : (8 * r + i) / 8 * 8 = 8 * r := by omega
  have byte : (8 * r + i) % 8 = i := by omega
  have control : 8 * r + i < 0x1000 := by omega
  simp only [Module.barByte, h, Bool.not_true, Bool.false_eq_true, if_false, if_true, page, queue, reg, byte, control]

/-- Behind the listed registers a control page reads as 0. -/
theorem register_unlisted (t : Queue) {r : Nat} (h : 8 ≤ r) : t.register (8 * r) = 0 := by
  unfold Queue.register
  repeat rw [if_neg (by omega)]

/-- A byte of the mailbox of a ready function on a reachable dictionary. -/
theorem barByte_mailbox {m : Module} {p : Nat} (h : (m.port p).ready = true) (hm : m.mgmt.reachable = true) (off : Nat) :
    m.barByte p 2 off = (m.port p).mailbox.byte off := by
  simp [Module.barByte, h, hm]

/-- A read of a register of a mailbox. -/
theorem readBar_mailbox {m : Module} {p r : Nat} (h : (m.port p).ready = true) (hm : m.mgmt.reachable = true) (hr : r < 0x200) :
    m.readBar p 2 (8 * r) 8 = leBytes 8 ((m.port p).mailbox.register (8 * r)) := by
  rw [leBytes_eq_map_regByte, Module.readBar]
  refine List.map_congr_left (fun i hi => ?_)
  have hi := List.mem_range.1 hi
  have reg : (8 * r + i) / 8 * 8 = 8 * r := by omega
  have byte : (8 * r + i) % 8 = i := by omega
  rw [barByte_mailbox h hm, Mailbox.byte, if_pos (by omega), reg, byte]

/-- The write-only doorbell reads as zeros. -/
theorem readBar_mailbox_doorbell {m : Module} {p : Nat} (h : (m.port p).ready = true) (hm : m.mgmt.reachable = true) :
    m.readBar p 2 0 8 = zeros 8 := by
  rw [← Nat.mul_zero 8, readBar_mailbox h hm (by omega)]
  simp [Mailbox.register, leBytes, zeros, List.replicate]

/-- A read of the request buffer. -/
theorem readBar_request {m : Module} {p off n : Nat} (h : (m.port p).ready = true) (hm : m.mgmt.reachable = true)
    (hn : off + n ≤ 0x4000) :
    m.readBar p 2 (0x1000 + off) n = (List.range n).map (fun i => (m.port p).mailbox.request.get (off + i)) := by
  refine List.map_congr_left (fun i hi => ?_)
  have hi := List.mem_range.1 hi
  rw [barByte_mailbox h hm, Mailbox.byte, if_neg (by omega), if_pos (by omega), Nat.add_assoc, Nat.add_sub_cancel_left]

/-! ### Requests and events -/

/-- What a mailbox holds of its request: whether one is served, whether one was overrun, and its bytes. -/
def requestLine (m : Module) (p : Nat) : Bool × Bool × Option (List Byte) :=
  ((m.port p).mailbox.busy, (m.port p).mailbox.overrun, (m.port p).mailbox.taken)

/-- A change of a mailbox that leaves its request leaves the requests of all. -/
theorem requestLine_onMailbox (m : Module) (p r : Nat) (f : Mailbox → Mailbox)
    (hf : ∀ b, ((f b).busy, (f b).overrun, (f b).taken) = (b.busy, b.overrun, b.taken)) :
    requestLine (m.onMailbox r f) p = requestLine m p := by
  unfold requestLine
  rw [Module.onMailbox, port_onPort]
  split
  · rename_i h
    rw [h.1]
    exact hf _
  · rfl

@[simp] theorem requestLine_bump (m : Module) (k n p : Nat) : requestLine (m.bump k n) p = requestLine m p := rfl
@[simp] theorem requestLine_odSet (m : Module) (k v p : Nat) : requestLine (m.odSet k v) p = requestLine m p := rfl
@[simp] theorem requestLine_fire (m : Module) (r v p : Nat) : requestLine (m.fire r v) p = requestLine m p := rfl
@[simp] theorem requestLine_log (m : Module) (l : Log) (p : Nat) : requestLine { m with log := l } p = requestLine m p := rfl

@[simp] theorem requestLine_sendFrame (fu : Fuses) (m : Module) (d n : Nat) (b : List Byte) (p : Nat) :
    requestLine (m.sendFrame fu d n b) p = requestLine m p := by
  unfold Module.sendFrame; split <;> rfl

/-- A notification writes the ring of notifications and leaves the request. -/
@[simp] theorem requestLine_notifyPort (m : Module) (r : Nat) (b : List Byte) (p : Nat) :
    requestLine (m.notifyPort r b) p = requestLine m p := by
  unfold Module.notifyPort
  dsimp only
  split
  · rfl
  · split
    · rw [requestLine_bump, requestLine_onMailbox]
      exact fun _ => rfl
    · rw [requestLine_fire, requestLine_onMailbox]
      exact fun _ => rfl

@[simp] theorem requestLine_notifyRec (fu : Fuses) (m : Module) (r : LogRec) (p : Nat) :
    requestLine (m.notifyRec fu r) p = requestLine m p := by
  unfold Module.notifyRec
  split <;> simp

@[simp] theorem requestLine_putRec (fu : Fuses) (m : Module) (c n : Nat) (b : Bool) (l : List Nat) (p : Nat) :
    requestLine (m.putRec fu c n b l) p = requestLine m p := by
  simp [Module.putRec]

@[simp] theorem requestLine_putRecs (fu : Fuses) (m : Module) (c n : Nat) (b : Bool) (l : List Nat) (p : Nat) :
    requestLine (m.putRecs fu c n b l) p = requestLine m p := by
  unfold Module.putRecs
  split <;> simp

@[simp] theorem requestLine_record (fu : Fuses) (m : Module) (c : Nat) (b : Bool) (l : List Nat) (p : Nat) :
    requestLine (m.record fu c b l) p = requestLine m p := by
  unfold Module.record
  split
  · rfl
  · split <;> simp

/-- An event leaves the requests of the mailboxes. -/
@[simp] theorem requestLine_event (fu : Fuses) (m : Module) (c : Nat) (l : List Nat) (p : Nat) :
    requestLine (m.event fu c l) p = requestLine m p := by
  unfold Module.event Module.eventX
  split
  · split <;> rfl
  · dsimp only
    split
    · rw [requestLine_record]
      exact requestLine_record fu m c false l p
    · exact requestLine_record fu m c false l p

/-! ### What the commands of a queue come to -/

section
variable {s : State} {q : Nat} (hw : s.m.powered = true) (hq : q < 16) (hl : q < s.m.host.queues.length)
include hw hq hl

theorem goes_queueEnable (hs : s.m.served q = true) (h0 : (s.m.queue q).state = 0) :
    Goes s (.queueEnable q) (fun n =>
      n.queue q = { s.m.queue q with state := 1, enableBit := true, sqTail := 0, sqHead := 0, rrTail := 0, rrPhase := true,
                                     irqGap := false, irqHeld := false } ∧
        (∀ k, k ≠ q → n.queue k = s.m.queue k) ∧ KeepsBut [.queues] s.m n) := by
  refine goes_actOn rfl (decide_eq_true hq) hw ?_
  rw [enableQueue_of_disabled hs h0]
  exact onQueue_effect hl _

/-- A doorbell write inside the free span moves sq_tail (R418). -/
theorem goes_sqTail_fits {v mask : Nat} (hm : mask ≠ 0) (hs : s.m.served q = true) (h1 : (s.m.queue q).state = 1)
    (hf : TailFits (s.m.queue q) (field (mergeBytes (s.m.queue q).sqTail v mask) 0 15)) :
    Goes s (.sqTail q v mask) (fun n =>
      n.queue q = { s.m.queue q with sqTail := field (mergeBytes (s.m.queue q).sqTail v mask) 0 15 } ∧
        (∀ k, k ≠ q → n.queue k = s.m.queue k) ∧ KeepsBut [.queues] s.m n) := by
  refine goes_actOn rfl (decide_eq_true hq) hw ?_
  rw [if_neg hm, doorbell_of_fits _ hs h1 hf]
  exact onQueue_effect hl _

/-- Another one puts the queue in ERROR with MALFORMED (R418). -/
theorem goes_sqTail_wrong {v mask : Nat} (hm : mask ≠ 0) (hs : s.m.served q = true) (h1 : (s.m.queue q).state = 1)
    (hf : ¬TailFits (s.m.queue q) (field (mergeBytes (s.m.queue q).sqTail v mask) 0 15)) :
    Goes s (.sqTail q v mask) (fun n =>
      n.queue q = { s.m.queue q with state := 3, lastError := stMalformed } ∧
        (∀ k, k ≠ q → n.queue k = s.m.queue k) ∧ KeepsBut (.queues :: reporting) s.m n) := by
  refine goes_actOn rfl (decide_eq_true hq) hw ?_
  obtain ⟨self, others, keeps⟩ := onQueue_effect hl (fun t => { t with state := 3, lastError := stMalformed })
  rw [if_neg hm, doorbell_of_not_fits _ hs h1 hf]
  refine ⟨by rw [queue_of_event, self], fun k hk => by rw [queue_of_event, others k hk], ?_⟩
  rw [kb_event _ _ _ (by simp [reporting]) (by simp [reporting]) (by simp [reporting])]
  exact keeps_mono keeps (by simp)

omit hl in
theorem goes_sqTail_not_enabled (v mask : Nat) (h1 : (s.m.queue q).state ≠ 1) :
    Goes s (.sqTail q v mask) (fun n => n = s.m) := by
  refine goes_actOn rfl (decide_eq_true hq) hw ?_
  rw [doorbell_of_not_enabled _ _ h1, ite_self]

/-- An idle queue that is disabled drains (R419). -/
theorem goes_queueDisable_idle (hs : s.m.served q = true) (hst : (s.m.queue q).state = 1 ∨ (s.m.queue q).state = 3)
    (hc : (s.m.queue q).chain = none) (hn : (s.m.queue q).cmds = []) :
    Goes s (.queueDisable q) (fun n => ∃ z, n = z.settle s.fuse ∧
      z.queue q = { s.m.queue q with state := 2, enableBit := false } ∧ (∀ k, k ≠ q → z.queue k = s.m.queue k) ∧
        KeepsBut [.queues] s.m z) := by
  refine goes_actOn rfl (decide_eq_true hq) hw ⟨s.m.onQueue q drainingQueue, ?_, ?_, (onQueue_effect hl _).2⟩
  · rw [disableQueue_eq _ hl hs hst hc, hn]
    rfl
  · rw [queue_onQueue_self hl, drainingQueue, hc.symm]

/-- A command not started that waits in a queue when it is disabled ends CANCELLED (R419). -/
theorem goes_queueDisable_waiting (hs : s.m.served q = true) (hst : (s.m.queue q).state = 1 ∨ (s.m.queue q).state = 3)
    (hc : (s.m.queue q).chain = none) {c : Cmd} (hn : (s.m.queue q).cmds = [c]) (h0 : c.state = 0) :
    Goes s (.queueDisable q) (fun n => ∃ z r, n = z.settle s.fuse ∧ (z.queue q).state = 2 ∧
      (z.queue q).resps = (s.m.queue q).resps ++ [r] ∧ r.status = stCancelled ∧ r.tag = c.tag ∧ r.last = true ∧
        (∀ d ∈ (z.queue q).cmds, d.state = 2) ∧ (∀ k, k ≠ q → z.queue k = s.m.queue k) ∧ KeepsBut [.queues] s.m z) := by
  have waiting : (s.m.onQueue q drainingQueue).notStarted c = true := by simp [Module.notStarted, h0]
  refine goes_actOn rfl (decide_eq_true hq) hw
    ⟨(s.m.onQueue q drainingQueue).answer q c stCancelled 0 0, Resp.plain c.opcode c.tag c.job stCancelled true, ?_⟩
  have eq : s.m.disableQueue s.fuse q = ((s.m.onQueue q drainingQueue).answer q c stCancelled 0 0).settle s.fuse := by
    rw [disableQueue_eq _ hl hs hst hc, hn, List.filter_cons_of_pos waiting, List.filter_nil, List.foldl_cons,
      List.foldl_nil, unaskStep_of_waiting _ h0]
  refine ⟨eq, ?_⟩
  rw [answer_eq, onQueue_onQueue]
  obtain ⟨self, others, keeps⟩ := onQueue_effect hl (fun t => { (drainingQueue t).markAnswered c.tag with
    resps := (drainingQueue t).resps ++ [{ Resp.plain c.opcode c.tag c.job stCancelled true with w4 := 0, w5 := 0 }] })
  rw [self]
  refine ⟨rfl, rfl, rfl, rfl, rfl, ?_, others, keeps⟩
  simp [Queue.markAnswered, drainingQueue, hn]

/-- A drained queue is DISABLED (R419, R431). -/
theorem goes_queueDrained (h2 : (s.m.queue q).state = 2) (hn : (s.m.queue q).cmds = [])
    (hu : ∀ r ∈ (s.m.queue q).resps, r.unsol = true) :
    Goes s (.queueDrained q) (fun n =>
      n.queue q = drainedQueue (s.m.queue q) ∧ (∀ k, k ≠ q → n.queue k = s.m.queue k) ∧
        ((s.m.queue q).resps = [] → KeepsBut [.queues] s.m n) ∧ KeepsBut (.queues :: reporting) s.m n) := by
  have unsol : (s.m.queue q).resps.any (fun r => !r.unsol) = false := by simpa using hu
  refine goes_actOn rfl (decide_eq_true hq) hw ?_
  obtain ⟨self, others, keeps⟩ := onQueue_effect hl (fun t => { t with
    state := 0, chain := none, resps := [], dropped := t.dropped + (s.m.queue q).resps.length })
  simp only [h2, hn, unsol, bne_self_eq_false, List.isEmpty_nil, Bool.not_true, Bool.or_self, Bool.false_eq_true, if_false]
  split
  · exact ⟨self, others, fun _ => keeps, keeps_mono keeps (by simp)⟩
  next hsome =>
    refine ⟨by rw [queue_of_event, queue_of_bump, self]; rfl, fun k hk => by rw [queue_of_event, queue_of_bump, others k hk],
      fun h0 => absurd (congrArg List.length h0) hsome, ?_⟩
    rw [kb_event _ _ _ (by simp [reporting]) (by simp [reporting]) (by simp [reporting]), kb_bump _ _ (by simp [reporting])]
    exact keeps_mono keeps (by simp)

/-- A response that fits stands in host memory at rr_tail, and a final one frees its tag (R420, R430). -/
theorem goes_responseWrite {r : Resp} {rest : List Resp} (hr : (s.m.queue q).resps = r :: rest) (h0 : (s.m.queue q).state ≠ 0)
    (hend : (s.m.queue q).rrTail + r.units ≤ (s.m.queue q).rrUnits) (hfree : r.units ≤ (s.m.queue q).rrFree) :
    Goes s (.responseWrite q) (fun n => ∃ z, n = z.settle s.fuse ∧ (z.queue q).resps = rest ∧
      z.host.hostMem = s.m.host.hostMem.write (q / 8 * 2 ^ 64 + ((s.m.queue q).rrBase + 64 * (s.m.queue q).rrTail))
        (r.bytes (s.m.queue q).rrPhase (s.m.queue q).sqHead (if r.opcode = 0xF0 then (s.m.queue q).dropped else r.w6)) ∧
      (z.queue q).rrTail =
        (if (s.m.queue q).rrTail + r.units < (s.m.queue q).rrUnits then (s.m.queue q).rrTail + r.units else 0) ∧
      (r.last = true → r.holdsTag = true → ∀ c ∈ (z.queue q).cmds, c.tag ≠ r.tag) ∧
      (∀ k, k ≠ q → z.queue k = s.m.queue k) ∧ KeepsBut [.queues, .hostMem, .od, .report] s.m z) := by
  obtain ⟨⟨gap, held, self⟩, others, mem, keeps⟩ := afterResponse_effect hl r rest
  refine goes_actOn rfl (decide_eq_true hq) hw
    ⟨afterResponse s.m q r rest, writeResp_of_fits _ hr h0 hend hfree, ?_, mem, ?_, ?_, others, keeps⟩
  · rw [self, respondedQueue_resps]
  · rw [self]
    simp only [respondedQueue_rrTail, rrAdvance_rrTail]
  · intro hlast hholds
    rw [self]
    exact respondedQueue_frees _ rest hlast hholds

/-- A vector's gap ends with the interrupt that it held back (R430). -/
theorem goes_coalesceExpiry_late (hg : (s.m.queue q).irqGap = true)
    (hh : ((s.m.queue q).irqHeld && (s.m.queue q).rrHead % (s.m.queue q).rrUnits != (s.m.queue q).rrTail) = true) :
    Goes s (.interruptCoalesceExpiry q) (fun n =>
      n.host.irqs = s.m.host.irqs.add (16 * (q / 8) + q % 8) 1 ∧ n.queue q = { s.m.queue q with irqHeld := false } ∧
        (∀ k, k ≠ q → n.queue k = s.m.queue k) ∧ KeepsBut [.queues, .report] s.m n) := by
  refine goes_actOn rfl (decide_eq_true hq) hw ?_
  dsimp only
  rw [if_neg (by simp [hg]), if_pos hh]
  obtain ⟨self, others, _⟩ := onQueue_effect (m := s.m.fire (q / 8) (q % 8)) hl (fun t => { t with irqHeld := false })
  exact ⟨rfl, self, others, (kb_onQueue q _ (by simp)).2 (keeps_mono (keeps_fire _ _ _) (by simp))⟩

/-- Or in silence (R430). -/
theorem goes_coalesceExpiry_silent (hg : (s.m.queue q).irqGap = true)
    (hh : ((s.m.queue q).irqHeld && (s.m.queue q).rrHead % (s.m.queue q).rrUnits != (s.m.queue q).rrTail) = false) :
    Goes s (.interruptCoalesceExpiry q) (fun n =>
      n.queue q = { s.m.queue q with irqGap := false, irqHeld := false } ∧
        (∀ k, k ≠ q → n.queue k = s.m.queue k) ∧ KeepsBut [.queues] s.m n) := by
  refine goes_actOn rfl (decide_eq_true hq) hw ?_
  dsimp only
  rw [if_neg (by simp [hg]), if_neg (by simp [hh])]
  exact onQueue_effect hl _

/-- A write inside rr_head acts on its bytes alone (R417). -/
theorem goes_registerWrite_rrHead (hready : (s.m.port (q / 8)).ready = true) {o : Nat} {bytes : List Byte} (h1 : 0x30 ≤ o)
    (h2 : o + bytes.length ≤ 0x38) (hne : bytes ≠ []) :
    Goes s (.registerWrite (q / 8) 0 (0x200000 * (q % 8) + o) bytes) (fun n =>
      n.queue q = { s.m.queue q with
        rrHead := field (mergeBytes (s.m.queue q).rrHead (regPart o bytes 0x30).1 (regPart o bytes 0x30).2) 0 20 } ∧
        (∀ k, k ≠ q → n.queue k = s.m.queue k) ∧ KeepsBut [.queues] s.m n) := by
  have port : q / 8 < 2 := by omega
  have len := List.length_pos_iff.2 hne
  have queue : 8 * (q / 8) + (0x200000 * (q % 8) + o) / 0x200000 % 8 = q := by omega
  have page : (0x200000 * (q % 8) + o) % 0x200000 = o := by omega
  refine goes_actOn rfl (by simp [port]) hw ?_
  simp only [hready, queue, page, Bool.not_true, Bool.false_eq_true, if_false, if_true, writeControls_rrHead _ _ _ h1 h2 hne]
  exact onQueue_effect hl _

end

/-! ### What the commands of a mailbox come to -/

section
variable {s : State} {p : Nat} (hw : s.m.powered = true) (hp : p < 2) (hl : p < s.m.host.ports.length)
  (hready : (s.m.port p).ready = true) (hmgmt : s.m.mgmt.reachable = true)
include hw hp hl hready hmgmt

/-- A write inside the request buffer acts on its bytes alone (R441, R442). -/
theorem goes_registerWrite_request {off : Nat} {bytes : List Byte} (h : off + bytes.length ≤ 0x4000) (hne : bytes ≠ [])
    (hb : (s.m.port p).mailbox.busy = false) :
    Goes s (.registerWrite p 2 (0x1000 + off) bytes) (fun n =>
      (n.port p).mailbox = { (s.m.port p).mailbox with request := (s.m.port p).mailbox.request.write off bytes } ∧
        KeepsBut [.report] s.m n) := by
  refine goes_actOn rfl (by simp [hp]) hw ?_
  simp only [hready, hmgmt, Bool.not_true, Bool.false_and, Bool.false_eq_true, if_false, OfNat.ofNat_ne_zero,
    writeRequest_inside h hne hb, writeMailboxes_behind _ _ _ bytes (Nat.le_trans (by decide : 0x28 ≤ 0x1000) (Nat.le_add_right _ off))]
  exact ⟨mailbox_onMailbox_self hl _, keeps_onMailbox _ _ _⟩

/-- A doorbell of an idle mailbox takes the request (R442). -/
theorem goes_registerWrite_doorbell (hb : (s.m.port p).mailbox.busy = false) :
    Goes s (.registerWrite p 2 0 [1]) (fun n =>
      (n.port p).mailbox = { (s.m.port p).mailbox with
        busy := true, taken := some ((s.m.port p).mailbox.request.read 0 16384) } ∧ KeepsBut [.report] s.m n) := by
  refine goes_actOn rfl (by simp [hp]) hw ?_
  simp only [hready, hmgmt, Bool.not_true, Bool.false_and, Bool.false_eq_true, if_false, OfNat.ofNat_ne_zero,
    writeRequest_before s.m p (show 0 + [(1 : Byte)].length ≤ 0x1000 by decide), writeMailboxes_doorbell, Module.ringMailbox, hb]
  exact ⟨mailbox_onMailbox_self hl _, keeps_onMailbox _ _ _⟩

/-- A doorbell of a busy mailbox is an overrun, and its request goes on (R442). -/
theorem goes_doorbellOverrun (hb : (s.m.port p).mailbox.busy = true) :
    Goes s (.doorbellOverrun p) (fun n =>
      (n.port p).mailbox.overrun = true ∧ (n.port p).mailbox.busy = true ∧
        (n.port p).mailbox.taken = (s.m.port p).mailbox.taken ∧ KeepsBut reporting s.m n) := by
  refine goes_actOn rfl (decide_eq_true hp) hw ?_
  simp only [hready, hmgmt, hb, Bool.not_true, Bool.or_self, Bool.false_eq_true, if_false, Module.ringMailbox, if_true]
  have line := requestLine_event s.fuse (s.m.onMailbox p (fun b => { b with overrun := true })) 0x0103 [p] p
  unfold requestLine at line
  rw [mailbox_onMailbox_self hl] at line
  simp only [Prod.mk.injEq, hb] at line
  obtain ⟨busy, overrun, taken⟩ := line
  exact ⟨overrun, busy, taken, (kb_event _ _ _ (by simp [reporting]) (by simp [reporting]) (by simp [reporting])).2
    (keeps_mono (keeps_onMailbox _ _ _) (by simp [reporting]))⟩

end

/-- Settles O53: clause by clause, for a queue what enabling, the doorbell, disabling, draining, a written response, the end of a
vector's gap and a write of rr_head come to, and for a mailbox what requests, doorbells and reads do. -/
theorem queuesAndMailboxesServeTheHost : Obligations.QueuesAndMailboxesServeTheHost := by
  unfold Obligations.QueuesAndMailboxesServeTheHost
  intro s hw m fu
  refine ⟨fun q hq hl => ⟨?_, ?_, ?_, ?_, ?_, ?_, ?_, ?_⟩, fun p bar off n h => readBar_of_not_ready h bar off n,
    fun p hp hl hready hmgmt => ⟨⟨?_, ?_, ?_⟩, ?_, ?_, ?_⟩⟩
  · exact goes_queueEnable hw hq hl
  · exact fun v mask hm hs h1 => ⟨goes_sqTail_fits hw hq hl hm hs h1, goes_sqTail_wrong hw hq hl hm hs h1⟩
  · exact fun v mask h1 => goes_sqTail_not_enabled hw hq v mask h1
  · exact fun hs hst hc => ⟨goes_queueDisable_idle hw hq hl hs hst hc,
      fun c hn h0 => goes_queueDisable_waiting hw hq hl hs hst hc hn h0⟩
  · exact goes_queueDrained hw hq hl
  · exact fun r rest hr h0 hend hfree => goes_responseWrite hw hq hl hr h0 hend hfree
  · exact fun hg => ⟨goes_coalesceExpiry_late hw hq hl hg, goes_coalesceExpiry_silent hw hq hl hg⟩
  · exact fun hready => ⟨fun o bs h1 h2 hne => goes_registerWrite_rrHead hw hq hl hready h1 h2 hne,
      fun r hr => readBar_control hready hr, fun r hr => register_unlisted _ hr⟩
  · exact readBar_mailbox_doorbell hready hmgmt
  · exact fun r _ hr => readBar_mailbox hready hmgmt (by omega)
  · exact fun off n hn => readBar_request hready hmgmt hn
  · exact fun off bs h hne hb => goes_registerWrite_request hw hp hl hready hmgmt h hne hb
  · exact goes_registerWrite_doorbell hw hp hl hready hmgmt
  · exact goes_doorbellOverrun hw hp hl hready hmgmt

end Sys2Proof.Proofs
end

section
/-!
PROOFS. What a command of the block can answer (R16 to R18, R207, R353, R417), and what one can do without power (R515 to R519).
Each command either is one of the few that act without power, or acts on a powered module through `State.actOn`; both proofs
rest on that one case split.
-/
namespace Sys2Proof.Proofs

open Sys2Proof Sys2Proof.Machine Sys2Proof.Laws

/-! ### The two kinds of command -/

/-- The command is one of those that need power: it acts through `State.actOn`, on a unit that exists where the command is
well-formed. -/
def NeedsPower (c : Instr) (s : State) : Prop :=
  ∃ unit f, exec c s = s.actOn unit f ∧ (WellFormed c = true → unit = true)

/-- What a command can answer: a next state with another module, or the fault of an absent unit. -/
def Answers (c : Instr) (s : State) : Prop :=
  (∃ m, exec c s = .next { s with m := m }) ∨ (exec c s = .fault .noSuchUnit ∧ WellFormed c = false)

/-- The commands on the supply, the pins and the presence inputs (R515 to R519, R532). -/
inductive OnSupply : Instr → Prop where
  | powerApply (mv : Nat) : OnSupply (.powerApply mv)
  | pwrgdAssert (masterSel : Bool) (node : Nat) (ref : Option Int) (finds : BootFinds) :
      OnSupply (.pwrgdAssert masterSel node ref finds)
  | dictionaryReachable : OnSupply .dictionaryReachable
  | powerLoss : OnSupply .powerLoss
  | holdupEnd : OnSupply .holdupEnd
  | mrstNAssert : OnSupply .mrstNAssert
  | mrstGraceEnd (finds : BootFinds) : OnSupply (.mrstGraceEnd finds)
  | mrstNRelease (finds : BootFinds) : OnSupply (.mrstNRelease finds)
  | perstAssert (p : Nat) : OnSupply (.perstAssert p)
  | perstRelease (p : Nat) : OnSupply (.perstRelease p)
  | lsPresentNChange (i : Nat) (present : Bool) (uw : Nat) : OnSupply (.lsPresentNChange i present uw)

/-- The commands of the rope's adders, which name no unit and look at the power themselves (R300, R304, R314). -/
inductive OnRope : Instr → Prop where
  | segmentSum (bucket seg : Nat) : OnRope (.segmentSum bucket seg)
  | sampleComparison (bucket seg : Nat) (bad : Bool) : OnRope (.sampleComparison bucket seg bad)
  | resyncCommit : OnRope .resyncCommit

/-- A row of a message tests the mailbox that its source names. -/
theorem needsPower_of_message {c : Instr} {s : State} {src : MsgFrom} {mine : Req → Bool}
    {f : Fuses → Module → Req → Module × Reply} (h : exec c s = serveRow src mine f s)
    (hw : WellFormed c = true → src.wf = true) : NeedsPower c s := by
  cases src <;> exact ⟨_, _, h, hw⟩

/-- So does a notification. -/
theorem needsPower_notify (src : MsgFrom) (s : State) : NeedsPower (.notify src) s := by
  cases src <;> exact ⟨_, _, rfl, id⟩

/-- The units that the limit of a wait tests are those that exist. -/
theorem tagWaitLimit_unit {w : Counted} {ch : Nat} (h : WellFormed (.tagWaitLimit w ch) = true) :
    (decide (ch ≤ 9) && if ch = 9 then decide (w.unit < 24) else decide (w.unit < 384)) = true := by
  simp only [WellFormed, Bool.or_eq_true, Bool.and_eq_true, decide_eq_true_eq, beq_iff_eq] at h ⊢
  refine ⟨by omega, ?_⟩
  split <;> simp only [decide_eq_true_eq] <;> omega

/-- Every command is of one kind: the commands that act without power stand in the two lists, and each other one goes through
`State.actOn`, whose unit is the one that its operands name. -/
theorem needsPower_or_listed (c : Instr) (s : State) : NeedsPower c s ∨ OnSupply c ∨ OnRope c := by
  cases c with
  -- the unit tested is the whole of the command's well-formedness
  | matrix | gather | scatter | scatterAdd | expand | compress | transpose | layernormFwd | rmsnormFwd | softmaxFwd
  | onlineSoftmax | onlineFinal | topkRoute | xentFwd | actFwd | layernormBwd | rmsnormBwd | softmaxBwd | rowdot | attnBwdP
  | routeBwd | xentBwd | actBwd | gainGrad | loadCm | fill | drain | storeHbm | coil | fillc | copy | controlNop | take | loop
  | endloop | wait | swap | passEnd | stepEnd | tileCommit | srcMemGatherCommit | fenceRegisterSet | tagWaitEnd
  | shapeWordArrival | signal | movementComplete | multicastInstance | viewResume | swapComplete | passEndBarrier | stepStart
  | stepCommit | stateSnapshotComplete | replayStart | resumePoint | replayResume | weightGradientSlice | dispatchBuild
  | expertFetch | expertPagePresent | bucketApply | factoredFinalisation | statPageFetch | statPageSpill | idle
  | frameCrcFailure | join | seg | trail | etab | wgt | hash | abort | snapmark | resync | repl | keepalive | portLost
  | hawserPortUp | flitCrcError | linkRetrain | linkRetrainComplete | rowRepairComplete | dramRefresh | patrolScrub
  | stackTemperatureReport | stackEnableComplete | nandDieFailure | loglineToken | chainTimeout | queueEnable | queueDisable
  | queueDrained | responseWrite | interruptCoalesceExpiry | registerWrite | functionReady | linkTrained | hotReset | linkDown
  | functionLevelReset | doorbellOverrun | stressRunEnd | commitApply | dieEnableComplete | thermalTrip | junctionSample
  | droop | aPointSwitch | coreEnableComplete | lsFault | lsEol | laserPowerLow =>
    exact .inl ⟨_, _, rfl, id⟩
  | tagWaitLimit w ch => exact .inl ⟨_, _, rfl, tagWaitLimit_unit⟩
  -- no unit is tested
  | repairUpdate | retentionScan | staticLevelling | garbageCollection | logCopy | fenceMirrorRefresh | formatRecordUpdate
  | frameBad | fwSessionTimeout | attestationReportDone | stressTestEnd | coilMountComplete | coilUnmount
  | inputRangeExcursion | inputRangeReturn | referenceLoss | referenceReturn | holdoverExpiry | fastPowerWindow | powerWindow
  | beaconLoss | beaconReturn | watchdogExpiry | capstanRestart | capstanBack =>
    exact .inl ⟨_, _, rfl, fun _ => rfl⟩
  -- a queue, with a condition on the packet or on the value written beside it
  | nop | load | bind | step | endJob | releaseJob | cancelBatch | stage | activate | deactivate | save | releaseSlot
  | snapshot | restore | pinExpert | unpinExpert | writeJob | readJob | objWrite | objRead | objDelete | objInfo
  | chainPacket => exact .inl ⟨_, _, rfl, fun h => (Bool.and_eq_true_iff.1 h).1⟩
  | sqTail => exact .inl ⟨_, _, rfl, fun h => (Bool.and_eq_true_iff.1 (Bool.and_eq_true_iff.1 h).1).1⟩
  -- the source of a message
  | versionQuery | featureSet | odRead | odWrite | odDescribe | fwUpdateBegin | fwUpdateData | fwUpdateEnd
  | fwUpdateActivate | fwUpdateAbort | rangeCommit | rangeDiscard | coreFenceMask | coreReset | recordWindow | attestNonce
  | stressRunStart | stressRunStop => exact .inl (needsPower_of_message rfl id)
  | notify src => exact .inl (needsPower_notify src s)
  -- the lists
  | powerApply mv => exact .inr (.inl (.powerApply mv))
  | pwrgdAssert a b d e => exact .inr (.inl (.pwrgdAssert a b d e))
  | dictionaryReachable => exact .inr (.inl .dictionaryReachable)
  | powerLoss => exact .inr (.inl .powerLoss)
  | holdupEnd => exact .inr (.inl .holdupEnd)
  | mrstNAssert => exact .inr (.inl .mrstNAssert)
  | mrstGraceEnd f => exact .inr (.inl (.mrstGraceEnd f))
  | mrstNRelease f => exact .inr (.inl (.mrstNRelease f))
  | perstAssert p => exact .inr (.inl (.perstAssert p))
  | perstRelease p => exact .inr (.inl (.perstRelease p))
  | lsPresentNChange i p u => exact .inr (.inl (.lsPresentNChange i p u))
  | segmentSum k sg => exact .inr (.inr (.segmentSum k sg))
  | sampleComparison k sg b => exact .inr (.inr (.sampleComparison k sg b))
  | resyncCommit => exact .inr (.inr .resyncCommit)

/-- A command on a unit of a bounded number answers. -/
theorem answers_of_unit {c : Instr} {s : State} {n k : Nat} {f : Fuses → Module → Module}
    (h : exec c s = if n < k then s.act f else .fault .noSuchUnit) (hw : WellFormed c = decide (n < k)) : Answers c s := by
  by_cases hn : n < k
  · rw [if_pos hn] at h
    exact .inl ⟨_, h⟩
  · rw [if_neg hn] at h
    exact .inr ⟨h, by rw [hw, decide_eq_false hn]⟩

/-- The commands on the supply answer. -/
theorem answers_of_onSupply {c : Instr} (h : OnSupply c) (s : State) : Answers c s := by
  cases h with
  | powerApply | pwrgdAssert | dictionaryReachable | powerLoss | holdupEnd | mrstNAssert | mrstGraceEnd | mrstNRelease =>
    exact .inl ⟨_, rfl⟩
  | perstAssert | perstRelease | lsPresentNChange => exact answers_of_unit rfl rfl

/-- So do those of the rope. -/
theorem answers_of_onRope {c : Instr} (h : OnRope c) (s : State) : Answers c s := by
  cases h with
  | segmentSum | sampleComparison | resyncCommit => exact .inl ⟨_, rfl⟩

/-- A command that needs power answers: without power with the state as it was. -/
theorem answers_of_needsPower {c : Instr} {s : State} (h : NeedsPower c s) : Answers c s := by
  obtain ⟨unit, f, hc, hu⟩ := h
  cases hunit : unit with
  | false => exact .inr ⟨hc.trans (actOn_absent s unit f hunit), Bool.eq_false_iff.2 (fun hw => by simp [hu hw] at hunit)⟩
  | true =>
    cases hp : s.m.powered with
    | false => exact .inl ⟨s.m, hc.trans (actOn_unpowered s unit f hunit hp)⟩
    | true => exact .inl ⟨_, hc.trans (actOn_powered s unit f hunit hp)⟩

/-- Every command answers a next state or the fault of an absent unit. -/
theorem exec_answers (c : Instr) (s : State) : Answers c s := by
  rcases needsPower_or_listed c s with h | h | h
  · exact answers_of_needsPower h
  · exact answers_of_onSupply h s
  · exact answers_of_onRope h s

/-- Settles O23: what a command can answer (`exec_answers`) is a next state with the fuses and the queue as they were, or the one
fault, for a unit that does not exist. -/
theorem wellFormedCommandsComplete : Obligations.WellFormedCommandsComplete := by
  unfold Obligations.WellFormedCommandsComplete
  intro c s
  rcases exec_answers c s with ⟨m, hc⟩ | ⟨hc, hw⟩ <;> rw [hc]
  · exact ⟨fun _ => ⟨_, rfl, rfl, rfl⟩, nofun, nofun⟩
  · exact ⟨fun h => by simp [hw] at h, fun _ h => by cases h; exact ⟨rfl, hw⟩, nofun⟩

/-! ### Without power -/

/-- The rope's adders stand still in a module without power. -/
theorem exec_onRope_unpowered {c : Instr} (h : OnRope c) {s : State} (hp : s.m.powered = false) : exec c s = .next s := by
  cases h with
  | segmentSum k sg => simp [exec, execSegmentSum, State.act, hp]
  | sampleComparison k sg b => simp [exec, execSampleComparison, State.act, hp]
  | resyncCommit => simp [exec, execResyncCommit, State.act, hp]

/-- A well-formed command that needs power leaves a module without it as it is. -/
theorem exec_needsPower_unpowered {c : Instr} {s : State} (h : NeedsPower c s) (hw : WellFormed c = true)
    (hp : s.m.powered = false) : exec c s = .next s := by
  obtain ⟨unit, f, hc, hu⟩ := h
  rw [hc, actOn_unpowered s unit f (hu hw) hp]

/-- Settles O27: a command that is none of those on the supply needs power or is one of the rope's. -/
theorem unpoweredModulesTakeOnlyPower : Obligations.UnpoweredModulesTakeOnlyPower := by
  unfold Obligations.UnpoweredModulesTakeOnlyPower
  intro c s hw hp h1 h2 h3 h4 h5 h6 h7 h8 h9 h10 h11
  rcases needsPower_or_listed c s with h | h | h
  · exact exec_needsPower_unpowered h hw hp
  · cases h with
    | powerApply mv => exact absurd rfl (h1 mv)
    | pwrgdAssert a b d e => exact absurd rfl (h2 a b d e)
    | dictionaryReachable => exact absurd rfl h3
    | powerLoss => exact absurd rfl h4
    | holdupEnd => exact absurd rfl h5
    | mrstNAssert => exact absurd rfl h6
    | mrstGraceEnd f => exact absurd rfl (h7 f)
    | mrstNRelease f => exact absurd rfl (h8 f)
    | perstAssert p => exact absurd rfl (h9 p)
    | perstRelease p => exact absurd rfl (h10 p)
    | lsPresentNChange i p u => exact absurd rfl (h11 i p u)
  · exact exec_onRope_unpowered h hp

end Sys2Proof.Proofs
end

section
/-!
PROOFS. The state after reset (R23, R85, R105, R207, R321, R417, R439).
-/
namespace Sys2Proof.Proofs

open Sys2Proof Sys2Proof.Machine Sys2Proof.Laws

/-- A list of equal units has their number, and what holds of one holds of all. -/
theorem forall_mem_replicate {α : Type} {P : α → Prop} {n : Nat} {a : α} (h : P a) :
    (List.replicate n a).length = n ∧ ∀ x ∈ List.replicate n a, P x :=
  ⟨List.length_replicate, fun _ hx => List.eq_of_mem_replicate hx ▸ h⟩

/-- Without a value put in its place a dictionary value is its default. -/
theorem odGet_of_empty {m : Module} (h : m.od = []) (k : Nat) : m.odGet k = odDefault k := by
  rw [Module.odGet, h]
  rfl

/-- Settles O22: the units of each kind are copies of one at its reset value. -/
theorem resetLeavesEveryUnitAtItsDefault : Obligations.ResetLeavesEveryUnitAtItsDefault := by
  unfold Obligations.ResetLeavesEveryUnitAtItsDefault
  exact ⟨rfl, forall_mem_replicate rfl, forall_mem_replicate rfl, forall_mem_replicate ⟨rfl, rfl, rfl, rfl, rfl, rfl⟩,
    forall_mem_replicate ⟨rfl, rfl⟩, forall_mem_replicate rfl, rfl, rfl, rfl, odGet_of_empty rfl⟩

end Sys2Proof.Proofs
end

section
/-!
PROOFS. Twine links (R22, R25): replays, retrains, and the death of a link, which fences every core.
-/
namespace Sys2Proof.Proofs

open Sys2Proof Sys2Proof.Machine Sys2Proof.Laws

/-! ### Links after an update -/

/-- A link after a change of a link. -/
theorem link_onLink (m : Module) (l k : Nat) (f : Link → Link) :
    (m.onLink l f).link k = if k = l ∧ l < m.links.length then f (m.link l) else m.link k := by
  simp only [Module.link, Module.onLink, modifyAt_getD]

/-- The link that was changed. -/
theorem link_onLink_self {m : Module} {l : Nat} (hl : l < m.links.length) (f : Link → Link) :
    (m.onLink l f).link l = f (m.link l) := by
  simp [link_onLink, hl]

/-- The others stay. -/
theorem link_onLink_other {m : Module} {l k : Nat} (hk : k ≠ l) (f : Link → Link) : (m.onLink l f).link k = m.link k := by
  simp [link_onLink, hk]

/-- There are as many of them as before. -/
theorem onLink_length (m : Module) (l : Nat) (f : Link → Link) : (m.onLink l f).links.length = m.links.length := by
  simp [Module.onLink]

/-- A change of a link shows in the links alone. -/
theorem keeps_onLink (m : Module) (l : Nat) (f : Link → Link) : KeepsBut [.links] m (m.onLink l f) := by
  intro part hp
  cases part <;> simp_all [Part.same, Module.onLink]

/-- A change of a link: the link, the others and the rest of the module. -/
theorem onLink_effect {m : Module} {l : Nat} (hl : l < m.links.length) (f : Link → Link) :
    (m.onLink l f).link l = f (m.link l) ∧ (∀ k, k ≠ l → (m.onLink l f).link k = m.link k) ∧
      KeepsBut [.links] m (m.onLink l f) :=
  ⟨link_onLink_self hl f, fun _ hk => link_onLink_other hk f, keeps_onLink m l f⟩

/-- What keeps the links keeps each. -/
theorem link_congr {m n : Module} (h : n.links = m.links) (k : Nat) : n.link k = m.link k := by
  rw [Module.link, h, Module.link]

/-! ### A dead link -/

/-- What every core fenced by a dead link has, and keeps through the end of its job, every core of the module has. -/
theorem fenceAll_cores {P : Core → Prop} (hP : CoreInv P) (fu : Fuses) (m : Module)
    (h : ∀ c : Core, P { c.stop 0 with fenced := true, origin := 1, testing := false, bypass := false, fenceReq := none }) :
    ∀ c ∈ (m.fenceAll fu).cores, P c := by
  unfold Module.fenceAll
  rw [checkCores_cores]
  refine endJobs_inv hP fu stFenced _ _ (fun c hc => ?_)
  obtain ⟨a, -, rfl⟩ := List.mem_map.1 hc
  exact h a

/-- A fenced core out of test stays one while it stops and leaves its job. -/
theorem fencedUntested_inv : CoreInv (fun c => c.fenced = true ∧ c.origin = 1 ∧ c.testing = false) := by
  have stop : ∀ (c : Core) n, c.fenced = true ∧ c.origin = 1 ∧ c.testing = false →
      (c.stop n).fenced = true ∧ (c.stop n).origin = 1 ∧ (c.stop n).testing = false := by
    intro c n hc
    obtain ⟨k, sp, e⟩ := stop_eq c n
    rw [e]
    exact hc
  exact ⟨stop, fun c hc => stop c 0 hc⟩

section
variable {s : State} {l : Nat} (hl : l < 114) (hlen : l < s.m.links.length) (hw : s.m.powered = true)
include hl hlen hw

/-- A flit error adds a replay to its link (R22). -/
theorem goes_flitCrcError (again : Bool) :
    Goes s (.flitCrcError l again) (fun n =>
      n.link l = { s.m.link l with
        replays := (s.m.link l).replays + 1, failedRun := if again then (s.m.link l).failedRun + 1 else 0 } ∧
      (∀ k, k ≠ l → n.link k = s.m.link k) ∧ KeepsBut [.links] s.m n) :=
  goes_actOn rfl (decide_eq_true hl) hw (onLink_effect hlen _)

/-- 16 failed replays retrain it, with an event (R22). -/
theorem goes_linkRetrain (h16 : 16 ≤ (s.m.link l).failedRun) :
    Goes s (.linkRetrain l) (fun n =>
      n.link l = { s.m.link l with retraining := true, failedRun := 0 } ∧ (∀ k, k ≠ l → n.link k = s.m.link k) ∧
        KeepsBut (.links :: reporting) s.m n) := by
  refine goes_actOn rfl (decide_eq_true hl) hw ?_
  obtain ⟨self, others, keeps⟩ := onLink_effect hlen (fun x => { x with retraining := true, failedRun := 0 })
  dsimp only
  rw [if_neg (Nat.not_lt.2 h16)]
  refine ⟨?_, fun k hk => ?_, ?_⟩
  · rw [link_congr (event_links _ _ _ _), self]
  · rw [link_congr (event_links _ _ _ _), others k hk]
  · rw [kb_event _ _ _ (by simp [reporting]) (by simp [reporting]) (by simp [reporting])]
    exact keeps_mono keeps (by simp)

/-- The end of a retrain: its lost lanes are counted, and a dead link fences every core and ends every job (R22, R25). -/
theorem goes_linkRetrainComplete (fwd bwd : Nat) (dead : Bool) (hr : (s.m.link l).retraining = true) :
    Goes s (.linkRetrainComplete l fwd bwd dead) (fun n =>
      n.link l =
        { s.m.link l with
          retraining := false, lostFwd := (s.m.link l).lostFwd + fwd, lostBwd := (s.m.link l).lostBwd + bwd,
          dead := dead || (s.m.link l).dead } ∧
      (∀ k, k ≠ l → n.link k = s.m.link k) ∧
      (dead = false → KeepsBut (.links :: reporting) s.m n ∧ (fwd + bwd = 0 → KeepsBut [.links] s.m n)) ∧
      (dead = true → (∀ c ∈ n.cores, c.fenced = true ∧ c.origin = 1 ∧ c.testing = false) ∧
        (∀ j, j < 16 → (s.m.job j).state = 2 ∨ (s.m.job j).state = 3 →
          (n.job j).state = 4 ∧ (n.job j).endStatus = stFenced ∧ (n.job j).cores = []))) := by
  refine goes_actOn rfl (decide_eq_true hl) hw ?_
  obtain ⟨self, others, keeps⟩ := onLink_effect hlen
    (fun x => { x with retraining := false, lostFwd := x.lostFwd + fwd, lostBwd := x.lostBwd + bwd })
  simp only [hr, Bool.not_true, Bool.false_eq_true, if_false]
  generalize hcounted : s.m.onLink l
    (fun x => { x with retraining := false, lostFwd := x.lostFwd + fwd, lostBwd := x.lostBwd + bwd }) = counted at *
  generalize htold : (if fwd + bwd = 0 then counted else counted.event _ _ _) = told
  have still_told : fwd + bwd = 0 → told = counted := fun h => by rw [← htold, if_pos h]
  have keeps_told : KeepsBut reporting counted told := by
    rw [← htold]
    split
    · exact keeps_refl _ _
    · exact keeps_still (still_event _ _ _ _)
  have links_told : told.links = counted.links := keeps_told .links (by simp [reporting])
  have self_told : told.link l = counted.link l := link_congr links_told l
  have hlen_told : l < told.links.length := by
    rw [links_told, ← hcounted, onLink_length]
    exact hlen
  cases dead with
  | false =>
    simp only [Bool.false_eq_true, if_false, Bool.false_or, false_implies, and_true]
    refine ⟨self_told.trans self, fun k hk => (link_congr links_told k).trans (others k hk), fun _ => ⟨?_, fun h => ?_⟩⟩
    · exact keeps_trans (keeps_mono keeps (by simp)) (keeps_mono keeps_told (fun p hp => List.mem_cons_of_mem _ hp))
    · rw [still_told h]
      exact keeps
  | true =>
    obtain ⟨-, -, links_fenced, ended⟩ := fenceAll_ok s.fuse (told.onLink l (fun x => { x with dead := true }))
    have jobs : (told.onLink l (fun x => { x with dead := true })).jobs = s.m.jobs :=
      (keeps_told .jobs (by simp [reporting])).trans (keeps .jobs (by simp))
    simp only [if_true, Bool.true_or, Bool.true_eq_false, false_implies, true_and, true_implies]
    refine ⟨?_, fun k hk => ?_, ?_, fun j hj hs => ended j hj ?_⟩
    · rw [link_congr links_fenced, link_onLink_self hlen_told, self_told, self]
    · rw [link_congr links_fenced, link_onLink_other hk, link_congr links_told, others k hk]
    · exact fenceAll_cores fencedUntested_inv _ _ (fun _ => ⟨rfl, rfl, rfl⟩)
    · rw [Module.job, jobs]
      exact hs

end

/-- Settles O35: replay, retrain and the retrain's end, each a change of the one link. -/
theorem linksReplayRetrainAndDie : Obligations.LinksReplayRetrainAndDie := by
  unfold Obligations.LinksReplayRetrainAndDie
  exact fun s l hl hlen hw => ⟨goes_flitCrcError hl hlen hw, goes_linkRetrain hl hlen hw, goes_linkRetrainComplete hl hlen hw⟩

end Sys2Proof.Proofs
end

section
/-!
PROOFS. Fences (R22, R23, R74, R211, R234, R453): what a fence register that is set takes from its core and its job, and
Capstan's mirror of the registers.
-/
namespace Sys2Proof.Proofs

open Sys2Proof Sys2Proof.Machine Sys2Proof.Laws

/-! ### The copies of a core's multicasts that end (R234) -/

/-- Numbering the channels does not change what their chosen movements carry. -/
theorem flatMap_zipIdx_filter {α β : Type} (chosen : α → Bool) (f : α → List β) (l : List (List α)) (n : Nat) :
    ((l.zipIdx n).flatMap (fun p => (p.1.filter chosen).map (fun v => (v, p.2)))).flatMap (fun v => f v.1) =
      ((l.flatMap id).filter chosen).flatMap f := by
  induction l generalizing n with
  | nil => rfl
  | cons a l ih =>
    simp only [List.zipIdx_cons, List.flatMap_cons, List.flatMap_append, List.filter_append, id, ih, List.flatMap_map]

/-- A slot that is not among the spoiled ones keeps its bytes. -/
theorem get_spoil_of_notMem (c : Core) (ss : List (Nat × Nat)) (a : Nat) (h : ∀ s ∈ ss, s.2 ≠ a / 4096) :
    (c.spoil ss).mem.sp.get a = c.mem.sp.get a := by
  unfold Core.spoil
  dsimp only
  split
  · rfl
  · refine get_spoils _ (by simp) a _ _ (fun s hs => h s ?_)
    simp only [List.mem_eraseDups, List.mem_filter] at hs
    exact hs.1

/-- Core `d` is core `c` without the copies of the multicasts that core `g` issued: their slots are not FULL, and every other slot
holds its data. -/
def LostCopies (g : Nat) (c d : Core) : Prop :=
  (∃ chs k sp, d = { c with
    channels := chs, spoils := k,
    mem := { c.mem with sp := sp, full := c.mem.full.filter (fun x => !(c.ownCasts g).contains x) } }) ∧
  ∀ a, a / 4096 ∉ c.ownCasts g → d.mem.sp.get a = c.mem.sp.get a

/-- A core without such a copy loses none. -/
theorem lostCopies_refl {g : Nat} {c : Core} (h : c.ownCasts g = []) : LostCopies g c c := by
  refine ⟨⟨c.channels, c.spoils, c.mem.sp, ?_⟩, fun _ _ => rfl⟩
  have keep : c.mem.full.filter (fun x => !(c.ownCasts g).contains x) = c.mem.full := by simp [h]
  rw [keep]

/-- Past the module's cores a core reads as one at reset. -/
theorem core_of_absent {m : Module} {h : Nat} (hh : m.cores.length ≤ h) : m.core h = Core.reset := by
  simp [Module.core, List.getD_eq_getElem?_getD, List.getElem?_eq_none hh]

/-- The records of copies that end touch no core. -/
theorem copiesEnded_cores (fu : Fuses) (vs : List (Move × Nat)) (m : Module) :
    (vs.foldl (fun (m : Module) v =>
      (m.moveEnded fu v.1.inst v.2 stFenced).instrDone fu v.1.inst stFenced) m).cores = m.cores :=
  foldl_keep Module.cores vs _ (fun m v => by
    rw [instrDone_cores, keeps_moveEnded fu m v.1.inst v.2 stFenced .cores (by simp)]) m

/-- What keeps the cores keeps each. -/
theorem core_congr {m n : Module} (h : n.cores = m.cores) (k : Nat) : n.core k = m.core k := by
  rw [Module.core, h, Module.core]

/-- What ends the copies on core `h` changes no other core. -/
theorem endCopies_other (fu : Fuses) (g : Nat) (m : Module) {h k : Nat} (hk : k ≠ h) :
    (m.endCopies fu g h).core k = m.core k := by
  unfold Module.endCopies
  dsimp only
  split
  · rfl
  · rw [core_onCore_other _ _ _ _ hk, core_congr (copiesEnded_cores fu _ m)]

/-- There are as many cores as before. -/
theorem endCopies_length (fu : Fuses) (g : Nat) (m : Module) (h : Nat) :
    (m.endCopies fu g h).cores.length = m.cores.length := by
  unfold Module.endCopies
  dsimp only
  split
  · rfl
  · rw [onCore_length, copiesEnded_cores]

/-- On core `h` it takes the copies. -/
theorem endCopies_self (fu : Fuses) (g : Nat) (m : Module) (h : Nat) :
    LostCopies g (m.core h) ((m.endCopies fu g h).core h) := by
  by_cases hh : h < m.cores.length
  · have slots : _ = (m.core h).ownCasts g := flatMap_zipIdx_filter (fun v : Move => v.cast.any (fun c => c.1 == g))
      (fun v => (v.cast.map Prod.snd).getD []) (m.core h).channels 0
    unfold Module.endCopies
    dsimp only
    rw [slots]
    split
    next empty =>
      rw [List.isEmpty_iff.1 empty] at slots
      exact lostCopies_refl slots.symm
    · rw [core_onCore_self _ _ _ (by rw [copiesEnded_cores]; exact hh), core_congr (copiesEnded_cores fu _ m)]
      refine ⟨?_, fun a ha => get_spoil_of_notMem _ _ a (fun s hs e => ?_)⟩
      · obtain ⟨k, sp, e⟩ := spoil_eq _ _
        exact ⟨_, k, sp, e⟩
      · obtain ⟨x, hx, rfl⟩ := List.mem_map.1 hs
        exact ha (e ▸ hx)
  · have hh := Nat.not_lt.1 hh
    rw [core_of_absent hh, core_of_absent (by rw [endCopies_length]; exact hh)]
    exact lostCopies_refl rfl

/-- One core after another, each once. -/
theorem endAllCopies_core (fu : Fuses) (g k : Nat) (l : List Nat) (hl : l.Nodup) (m : Module) :
    (k ∉ l → Module.core (l.foldl (fun m h => Module.endCopies fu g m h) m) k = m.core k) ∧
    (k ∈ l → LostCopies g (m.core k) (Module.core (l.foldl (fun m h => Module.endCopies fu g m h) m) k)) := by
  induction l generalizing m with
  | nil => simp
  | cons h l ih =>
    obtain ⟨hnot, hl⟩ := List.nodup_cons.1 hl
    obtain ⟨out, inside⟩ := ih hl (m.endCopies fu g h)
    rw [List.foldl_cons]
    refine ⟨fun hk => ?_, fun hk => ?_⟩
    · rw [out (List.not_mem_of_not_mem_cons hk), endCopies_other fu g m (List.ne_of_not_mem_cons hk)]
    · by_cases e : k = h
      · subst e
        rw [out hnot]
        exact endCopies_self fu g m k
      · have others := inside ((List.mem_cons.1 hk).resolve_left e)
        rwa [endCopies_other fu g m e] at others

/-! ### What a core had in flight when its register is set -/

/-- The instruction to blame for a fence changes the run of a job at most. -/
theorem blameFence_cases (m : Module) (c : Core) : m.blameFence c = m ∨ ∃ j f, m.blameFence c = m.onRun j f := by
  unfold Module.blameFence
  split
  · split
    · exact .inl rfl
    · exact .inr ⟨_, _, rfl⟩
  · exact .inl rfl

/-- A job after a change of a run: itself but for its run. -/
theorem job_onRun (m : Module) (j k : Nat) (f : Run → Run) : ∃ r, (m.onRun j f).job k = { m.job k with run := r } := by
  rw [Module.onRun, job_onJob]
  split
  next h => exact ⟨_, by rw [h.1]⟩
  · exact ⟨_, rfl⟩

/-- The module in which what core `g` had in flight has ended FENCED: the copies of its multicasts, its movements and its other
instructions (R203, R234). -/
def fenceEnds (fu : Fuses) (m : Module) (g : Nat) : Module :=
  let x := (List.range 384).foldl (fun m h => Module.endCopies fu g m h) (m.blameFence (m.core g))
  match (m.core g).job with
  | some j => (x.inFlight g j).foldl (fun (m : Module) i => m.instrDone fu i stFenced) (x.movesEnded fu g stFenced)
  | none => x

/-- The parts that the ends of what a core had in flight change. -/
def flightParts : List Part := [.cores, .jobs, .queues, .od, .log, .report]

/-- The ends of a core's movements and instructions change the response queues and reports. -/
theorem keeps_flightEnds (fu : Fuses) (m : Module) (g : Nat) (is : List Inst) :
    KeepsBut [.queues, .od, .log, .report] m
      (is.foldl (fun (m : Module) i => m.instrDone fu i stFenced) (m.movesEnded fu g stFenced)) :=
  keeps_trans (keeps_mono (keeps_movesEnded fu m g stFenced) (by simp))
    (kb_foldl _ _ (fun m i => keeps_mono (keeps_instrDone fu m i stFenced) (by simp)) _)

section
variable (fu : Fuses) (m : Module) (g : Nat)

/-- After the copies have ended, the ends of the rest change the response queues and reports. -/
theorem fenceEnds_after_copies : KeepsBut [.queues, .od, .log, .report]
    ((List.range 384).foldl (fun m h => Module.endCopies fu g m h) (m.blameFence (m.core g))) (fenceEnds fu m g) := by
  unfold fenceEnds
  dsimp only
  split
  · exact keeps_flightEnds fu _ g _
  · exact keeps_refl _ _

/-- The memories and the rest of the module stay. -/
theorem keeps_fenceEnds : KeepsBut flightParts m (fenceEnds fu m g) := by
  have blamed : KeepsBut flightParts m (m.blameFence (m.core g)) := by
    rcases blameFence_cases m (m.core g) with e | ⟨j, f, e⟩ <;> rw [e]
    · exact keeps_refl _ _
    · exact keeps_mono (keeps_onRun m j f) (by simp [flightParts])
  refine keeps_trans (keeps_trans blamed ?_) (keeps_mono (fenceEnds_after_copies fu m g) (by simp [flightParts]))
  exact kb_foldl _ _ (fun m h => keeps_mono (keeps_endCopies fu g m h) (by simp [flightParts])) _

/-- The job contexts are those that the blame left. -/
theorem fenceEnds_jobs : (fenceEnds fu m g).jobs = (m.blameFence (m.core g)).jobs := by
  have copies : KeepsBut [.od, .log, .report, .queues, .cores] (m.blameFence (m.core g))
      ((List.range 384).foldl (fun m h => Module.endCopies fu g m h) (m.blameFence (m.core g))) :=
    kb_foldl _ _ (fun m h => keeps_endCopies fu g m h) _
  exact (fenceEnds_after_copies fu m g .jobs (by simp)).trans (copies .jobs (by simp))

/-- A job stays but for its run. -/
theorem fenceEnds_job (k : Nat) : ∃ r, (fenceEnds fu m g).job k = { m.job k with run := r } := by
  rw [Module.job, fenceEnds_jobs, ← Module.job]
  rcases blameFence_cases m (m.core g) with e | ⟨j, f, e⟩ <;> rw [e]
  · exact ⟨_, rfl⟩
  · exact job_onRun m j k f

/-- There are as many job contexts as before. -/
theorem fenceEnds_jobs_length : (fenceEnds fu m g).jobs.length = m.jobs.length := by
  rw [fenceEnds_jobs]
  rcases blameFence_cases m (m.core g) with e | ⟨j, f, e⟩ <;> rw [e]
  exact onJob_length m j _

/-- The cores before any copy ended are those of the module. -/
theorem blameFence_cores : (m.blameFence (m.core g)).cores = m.cores := by
  rcases blameFence_cases m (m.core g) with e | ⟨j, f, e⟩ <;> rw [e]
  rfl

/-- There are as many cores as before. -/
theorem fenceEnds_length : (fenceEnds fu m g).cores.length = m.cores.length := by
  rw [fenceEnds_after_copies fu m g .cores (by simp), foldl_length _ _ _ (endCopies_length fu g), blameFence_cores]

/-- Each core loses the copies of the multicasts of core `g`. -/
theorem fenceEnds_core {k : Nat} (hk : k < 384) : LostCopies g (m.core k) ((fenceEnds fu m g).core k) := by
  have lost := (endAllCopies_core fu g k (List.range 384) List.nodup_range (m.blameFence (m.core g))).2 (List.mem_range.2 hk)
  rwa [core_congr (blameFence_cores m g), ← core_congr (fenceEnds_after_copies fu m g .cores (by simp))] at lost

/-- A core is live as before. -/
theorem fenceEnds_live (k : Nat) : ((fenceEnds fu m g).core k).live = (m.core k).live := by
  by_cases hk : k < 384
  · obtain ⟨⟨chs, n, sp, e⟩, -⟩ := fenceEnds_core fu m g hk
    rw [e]
    rfl
  · have others := (endAllCopies_core fu g k (List.range 384) List.nodup_range (m.blameFence (m.core g))).1
      (fun h => hk (List.mem_range.1 h))
    rw [core_congr (fenceEnds_after_copies fu m g .cores (by simp)), others, core_congr (blameFence_cores m g)]

end

/-! ### The core behind a register that is set (R23, R74) -/

/-- The core behind a register that hardware sets: it stops, with nothing in flight. -/
def fenceCore (c : Core) : Core := { c.stop 0 with fenced := true, origin := 1, fenceReq := none }

/-- Core `e` is core `c` fenced by hardware with nothing in flight: the slots of the multicasts that it issued are not FULL, and the
data of its other FULL slots, and all of it where no core tile and no gather was under way, stands. -/
def FencedOff (g : Nat) (c e : Core) : Prop :=
  (e.fenced = true ∧ e.origin = 1 ∧ e.fenceReq = none) ∧
  ((∀ ch ∈ e.channels, ch = []) ∧ e.tiles = [] ∧ e.gathers = []) ∧
  e.mem = { c.mem with sp := e.mem.sp, full := c.mem.full.filter (fun k => !(c.ownCasts g).contains k) } ∧
  ∀ a, a / 4096 ∉ c.ownCasts g → a / 4096 ∈ c.mem.full ∨ (c.tiles = [] ∧ c.gathers = []) → e.mem.sp.get a = c.mem.sp.get a

/-- A core with no core tile and no gather under way stops with its data as it was. -/
theorem stop_of_no_places {c : Core} (ht : c.tiles = []) (hg : c.gathers = []) (n : Nat) : (c.stop n).mem = c.mem := by
  simp [Core.stop, ht, hg]

theorem fenceCore_off {g : Nat} {c d : Core} (h : LostCopies g c d) : FencedOff g c (fenceCore d) := by
  obtain ⟨⟨chs, k, sp, hd⟩, kept⟩ := h
  obtain ⟨k', sp', hstop⟩ := stop_eq d 0
  have data : ∀ a, (fenceCore d).mem.sp.get a = (d.stop 0).mem.sp.get a := fun _ => rfl
  refine ⟨⟨rfl, rfl, rfl⟩, ⟨fun ch hch => List.eq_of_mem_replicate hch, rfl, rfl⟩, ?_, fun a ha hfull => ?_⟩
  · rw [fenceCore, hstop, hd]
  · rw [data, ← kept a ha]
    rcases hfull with hfull | ⟨ht, hg⟩
    · exact stop_full d 0 a (by rw [hd]; simpa [hfull] using ha)
    · rw [stop_of_no_places (by rw [hd]; exact ht) (by rw [hd]; exact hg)]

/-- It stays so when it leaves its job. -/
theorem fencedOff_leaves {g j : Nat} {c e : Core} (h : FencedOff g c e) :
    FencedOff g c { e with job := none, lastHolder := some j } := h

/-- The module in which the register of core `g` is set and its job has not been told. -/
def fenceStands (fu : Fuses) (m : Module) (g : Nat) : Module := ((fenceEnds fu m g).onCore g fenceCore).checkCores fu

/-- The module in which core `g` has left its job `j` (R211). -/
def leavesJob (m : Module) (g j : Nat) : Module :=
  (m.onJob j (fun b => { b with cores := b.cores.filter (· ≠ g) })).onCore g (fun c => { c with job := none, lastHolder := some j })

/-- What becomes of a job that lost a core: it ends where it cannot go on, and a running attempt fails or resumes (R203, R211). -/
def judgeJob (fu : Fuses) (m : Module) (j status : Nat) : Module :=
  if !m.jobViable j then m.endJob fu j stFenced
  else if (m.job j).state = 3 then m.fenceAttempt fu j status
  else m

/-- A register set on a core without a job. -/
theorem applyFence_free (fu : Fuses) {m : Module} {g : Nat} (h : (m.core g).job = none) :
    m.applyFence fu g true = fenceStands fu m g := by
  unfold Module.applyFence fenceStands fenceEnds
  simp only [h]
  rfl

/-- A register set on a core of job `j`. -/
theorem applyFence_held (fu : Fuses) {m : Module} {g j : Nat} (h : (m.core g).job = some j) :
    ∃ status, m.applyFence fu g true = judgeJob fu (leavesJob (fenceStands fu m g) g j) j status := by
  unfold Module.applyFence fenceStands fenceEnds
  simp only [h]
  exact ⟨_, rfl⟩

section
variable (fu : Fuses) (m : Module) {g : Nat} (hg : g < 384) (hl : g < m.cores.length)

/-- There are as many cores as before. -/
theorem fenceStands_length : (fenceStands fu m g).cores.length = m.cores.length := by
  rw [fenceStands, checkCores_cores, onCore_length, fenceEnds_length]

/-- Every other core is live as before. -/
theorem fenceStands_live {k : Nat} (hk : k ≠ g) : ((fenceStands fu m g).core k).live = (m.core k).live := by
  rw [fenceStands, core_of_checkCores, core_onCore_other _ _ _ _ hk, fenceEnds_live]

/-- A job stays but for its run. -/
theorem fenceStands_job (k : Nat) : ∃ r, (fenceStands fu m g).job k = { m.job k with run := r } := by
  rw [fenceStands, job_of_checkCores, job_of_onCore]
  exact fenceEnds_job fu m g k

/-- The memory of the stacks stays. -/
theorem fenceStands_hbm : (fenceStands fu m g).hbm = m.hbm := by
  rw [fenceStands, checkCores_hbm, onCore_hbm]
  exact keeps_fenceEnds fu m g .hbm (by simp [flightParts])

include hg hl

/-- The core is fenced off; its job is still the one it had. -/
theorem fenceStands_core :
    FencedOff g (m.core g) ((fenceStands fu m g).core g) ∧ ((fenceStands fu m g).core g).job = (m.core g).job := by
  have lost := fenceEnds_core fu m g hg
  rw [fenceStands, core_of_checkCores, core_onCore_self _ _ _ (by rw [fenceEnds_length]; exact hl)]
  refine ⟨fenceCore_off lost, ?_⟩
  obtain ⟨⟨chs, k, sp, hd⟩, -⟩ := lost
  obtain ⟨k', sp', hstop⟩ := stop_eq ((fenceEnds fu m g).core g) 0
  rw [fenceCore, hstop, hd]

end

/-! ### The job that lost a core (R203, R211) -/

/-- Changing the cores of a list leaves a core outside it. -/
theorem foldl_core_of_notMem {g : Nat} (l : List Nat) (f : Module → Nat → Module)
    (hf : ∀ m a, a ≠ g → (f m a).core g = m.core g) (hg : g ∉ l) (m : Module) : (l.foldl f m).core g = m.core g :=
  List.foldlRecOn (motive := fun x : Module => x.core g = m.core g) l f rfl
    (fun x hx a ha => (hf x a (ne_of_mem_of_not_mem ha hg)).trans hx)

/-- The end of what is in flight on another core leaves a core. -/
theorem endFlight_core_other (fu : Fuses) (m : Module) (j st : Nat) {a g : Nat} (h : a ≠ g) :
    (m.endFlight fu j st a).core g = m.core g := by
  rw [Module.endFlight, core_onCore_other _ _ _ _ h.symm, core_congr (foldInstr_cores fu _ st m)]

/-- The end of a job leaves a core that it does not hold. -/
theorem endJob_core_of_notMem (fu : Fuses) (m : Module) (j st : Nat) {g : Nat} (h : g ∉ (m.job j).cores) :
    (m.endJob fu j st).core g = m.core g := by
  rcases endJob_cores fu m j st with e | e
  · exact core_congr e g
  · rw [core_congr e, foldl_core_of_notMem _ _ (fun x a ha => core_onCore_other x a g _ ha.symm) h]
    have flights : ((m.endFlights fu j stCancelled).answerSteps j st).core g = m.core g := by
      rw [core_congr (answerSteps_cores _ j st), Module.endFlights]
      exact foldl_core_of_notMem _ _ (fun x a ha => endFlight_core_other fu x j stCancelled ha) h m
    split
    · rw [core_of_bump, flights]
    · exact flights

/-- A job that ended holds no core, and one that was not running holds those it had. -/
theorem endJob_notMem (fu : Fuses) (m : Module) (j st : Nat) {g : Nat} (h : g ∉ (m.job j).cores) :
    g ∉ ((m.endJob fu j st).job j).cores := by
  by_cases hs : (m.job j).state = 2 ∨ (m.job j).state = 3
  · simp [(endJob_job fu m j st hs).2.2]
  · have still : m.endJob fu j st = m := by
      unfold Module.endJob
      rw [if_pos (by simpa using not_or.1 hs)]
    rwa [still]

/-- A fence on an attempt changes the run of a job, or ends the job, counts it and reports it. -/
theorem fenceAttempt_cases (fu : Fuses) (m : Module) (j st : Nat) :
    m.fenceAttempt fu j st = m ∨ (∃ f, m.fenceAttempt fu j st = m.onRun j f) ∨
      ∃ k v c l, m.fenceAttempt fu j st = ((m.endJob fu j st).bump k v).event fu c l := by
  unfold Module.fenceAttempt Module.failAttempt
  dsimp only
  split <;> split
  · exact .inr (.inl ⟨_, rfl⟩)
  · exact .inl rfl
  · exact .inl rfl
  · split
    · exact .inr (.inr ⟨_, _, _, _, rfl⟩)
    · exact .inr (.inl ⟨_, rfl⟩)

/-- Module `n` has core `g`, which is none of job `j`, and the memory of the stacks as module `x` has them. -/
def LeavesCore (g j : Nat) (x n : Module) : Prop := n.core g = x.core g ∧ n.hbm = x.hbm ∧ g ∉ (n.job j).cores

theorem leavesCore_endJob (fu : Fuses) {x : Module} (j st : Nat) {g : Nat} (h : g ∉ (x.job j).cores) :
    LeavesCore g j x (x.endJob fu j st) :=
  ⟨endJob_core_of_notMem fu x j st h, keeps_endJob fu x j st .hbm (by simp [endParts]), endJob_notMem fu x j st h⟩

theorem leavesCore_fenceAttempt (fu : Fuses) {x : Module} (j st : Nat) {g : Nat} (h : g ∉ (x.job j).cores) :
    LeavesCore g j x (x.fenceAttempt fu j st) := by
  rcases fenceAttempt_cases fu x j st with e | ⟨f, e⟩ | ⟨k, v, c, l, e⟩ <;> rw [e]
  · exact ⟨rfl, rfl, h⟩
  · obtain ⟨r, hr⟩ := job_onRun x j j f
    exact ⟨rfl, rfl, by rwa [hr]⟩
  · obtain ⟨core, hbm, job⟩ := leavesCore_endJob fu j st h
    exact ⟨by rw [core_of_event, core_of_bump, core], by rw [event_hbm, bump_hbm, hbm], by rwa [job_of_event, job_of_bump]⟩

/-- What becomes of a job leaves a core that it does not hold. -/
theorem leavesCore_judgeJob (fu : Fuses) {x : Module} (j status : Nat) {g : Nat} (h : g ∉ (x.job j).cores) :
    LeavesCore g j x (judgeJob fu x j status) := by
  unfold judgeJob
  split
  · exact leavesCore_endJob fu j stFenced h
  · split
    · exact leavesCore_fenceAttempt fu j status h
    · exact ⟨rfl, rfl, h⟩

/-- A job that cannot go on ends FENCED. -/
theorem judgeJob_of_not_viable (fu : Fuses) {x : Module} {j : Nat} (status : Nat) (hv : x.jobViable j = false)
    (hs : (x.job j).state = 2 ∨ (x.job j).state = 3) :
    ((judgeJob fu x j status).job j).state = 4 ∧ ((judgeJob fu x j status).job j).endStatus = stFenced := by
  obtain ⟨state, ended, -⟩ := endJob_job fu x j stFenced hs
  rw [judgeJob, hv, Bool.not_false, if_pos rfl]
  exact ⟨state, ended⟩

section
variable (m : Module) (g j : Nat)

/-- The core that leaves is none of its job any more. -/
theorem notMem_leavesJob : g ∉ ((leavesJob m g j).job j).cores := by
  rw [leavesJob, job_of_onCore, job_onJob]
  split
  · simp
  next h =>
    have absent : m.job j = Job.free := by
      simp [Module.job, List.getD_eq_getElem?_getD, List.getElem?_eq_none (Nat.not_lt.1 (fun hj => h ⟨rfl, hj⟩))]
    simp [absent, Job.free]

/-- The core is out of the job and otherwise as it was. -/
theorem leavesJob_core (h : g < m.cores.length) :
    (leavesJob m g j).core g = { m.core g with job := none, lastHolder := some j } := by
  rw [leavesJob, core_onCore_self _ _ _ (by rw [onJob_cores]; exact h), core_of_onJob]

/-- The memory of the stacks stays. -/
theorem leavesJob_hbm : (leavesJob m g j).hbm = m.hbm := rfl

/-- The job's other live cores stay. -/
theorem leavesJob_liveCores (h : j < m.jobs.length) :
    (leavesJob m g j).liveCores j = (m.liveCores j).filter (· ≠ g) := by
  have cores : ((leavesJob m g j).job j).cores = (m.job j).cores.filter (· ≠ g) := by
    rw [leavesJob, job_of_onCore, job_onJob_self _ _ _ h]
  rw [Module.liveCores, Module.liveCores, cores, List.filter_filter, List.filter_filter]
  refine List.filter_congr (fun k _ => ?_)
  by_cases hk : k = g
  · simp [hk]
  · rw [leavesJob, core_onCore_other _ _ _ _ hk, core_of_onJob, Bool.and_comm]

/-- The job is otherwise as it was. -/
theorem leavesJob_job (h : j < m.jobs.length) :
    ((leavesJob m g j).job j).state = (m.job j).state ∧ ((leavesJob m g j).job j).image = (m.job j).image := by
  rw [leavesJob, job_of_onCore, job_onJob_self _ _ _ h]
  exact ⟨rfl, rfl⟩

end

/-- A job whose live cores fall below cores_min, or that uses a role without one, cannot go on (R211). -/
theorem not_viable_of {x : Module} {j : Nat} {image : Image} {live : List Nat} (hi : (x.job j).image = image) (hl : x.liveCores j = live)
    (h : live.length < image.coresMin ∨
      ∃ r ∈ image.roleMap, r ≠ 0xFF ∧ ∀ k ∈ live, image.roleMap.getD (k % 8) 0xFF ≠ r) : x.jobViable j = false := by
  unfold Module.jobViable
  dsimp only
  rw [hi, hl, Bool.and_eq_false_iff]
  rcases h with h | ⟨r, hr, h255, hlack⟩
  · exact .inl (decide_eq_false (Nat.not_le.2 h))
  · refine .inr (List.all_eq_false.2 ⟨r, List.mem_filter.2 ⟨hr, decide_eq_true h255⟩, ?_⟩)
    simpa using hlack

/-- Once the register of core `g` is set and the core has left, the other live cores of its job are those it had, and its state and
image are as before. -/
theorem fencedJob (fu : Fuses) (m : Module) (g : Nat) {j : Nat} (h : j < m.jobs.length) :
    let x := leavesJob (fenceStands fu m g) g j
    x.liveCores j = (m.liveCores j).filter (· ≠ g) ∧ (x.job j).state = (m.job j).state ∧ (x.job j).image = (m.job j).image := by
  dsimp only
  obtain ⟨r, hr⟩ := fenceStands_job fu m (g := g) j
  have hlen : j < (fenceStands fu m g).jobs.length := by
    rw [fenceStands, checkCores_jobs, onCore_jobs, fenceEnds_jobs_length]
    exact h
  obtain ⟨state, image⟩ := leavesJob_job (fenceStands fu m g) g j hlen
  rw [leavesJob_liveCores _ g j hlen, state, image, hr]
  refine ⟨?_, rfl, rfl⟩
  rw [Module.liveCores, Module.liveCores, hr, List.filter_filter, List.filter_filter]
  refine List.filter_congr (fun k _ => ?_)
  by_cases hk : k = g
  · simp [hk]
  · rw [fenceStands_live fu m hk]

/-- A fence register that is set (R22, R23, R211). -/
theorem goes_fenceRegisterSet {s : State} {g : Nat} (hw : s.m.powered = true) (hg : g < 384) (hr : s.m.reportFirst g = true)
    (hl : g < s.m.cores.length) :
    Goes s (.fenceRegisterSet g) (fun n => FencedOff g (s.m.core g) (n.core g) ∧ (n.core g).job = none ∧ n.hbm = s.m.hbm ∧
      ∀ j, (s.m.core g).job = some j → g ∉ (n.job j).cores ∧
        ((s.m.job j).state = 2 ∨ (s.m.job j).state = 3 →
          ((s.m.liveCores j).filter (· ≠ g)).length < (s.m.job j).image.coresMin ∨
            (∃ r ∈ (s.m.job j).image.roleMap, r ≠ 0xFF ∧
              ∀ h ∈ (s.m.liveCores j).filter (· ≠ g), (s.m.job j).image.roleMap.getD (h % 8) 0xFF ≠ r) →
          (n.job j).state = 4 ∧ (n.job j).endStatus = stFenced)) := by
  refine goes_actOn rfl (decide_eq_true hg) hw ?_
  rw [if_pos hr]
  obtain ⟨off, job⟩ := fenceStands_core s.fuse s.m hg hl
  have hbm := fenceStands_hbm s.fuse s.m (g := g)
  cases hjob : (s.m.core g).job with
  | none =>
    rw [applyFence_free s.fuse hjob]
    exact ⟨off, job.trans hjob, hbm, nofun⟩
  | some j =>
    obtain ⟨status, e⟩ := applyFence_held s.fuse hjob
    rw [e]
    obtain ⟨core, hbm', notMem⟩ := leavesCore_judgeJob s.fuse j status (notMem_leavesJob (fenceStands s.fuse s.m g) g j)
    rw [leavesJob_core _ g j (by rw [fenceStands_length]; exact hl)] at core
    rw [core]
    refine ⟨fencedOff_leaves off, rfl, hbm'.trans ((leavesJob_hbm _ g j).trans hbm), fun k hk => ?_⟩
    cases hk
    refine ⟨notMem, fun hs hlack => ?_⟩
    obtain ⟨live, state, image⟩ := fencedJob s.fuse s.m g (j := j) (job_lt (by rcases hs with h | h <;> simp [h]))
    exact judgeJob_of_not_viable s.fuse status (not_viable_of image live hlack) (by rwa [state])

/-! ### Capstan's mirror (R453) -/

/-- The mirror is a part of management. -/
theorem keeps_mirror (m : Module) (w : Nat) : KeepsBut [.mgmt] m { m with mgmt := { m.mgmt with mirror := w } } := by
  intro part hp
  cases part <;> simp_all [Part.same]

/-- Capstan reads every register, and reports those that have differed for too long. -/
theorem goes_fenceMirrorRefresh {s : State} (hw : s.m.powered = true) (hc : s.m.mgmt.capstanUp = true) (late : List Nat) :
    Goes s (.fenceMirrorRefresh late) (fun n =>
      n.mgmt.mirror = wordOf (fun g => (s.m.core g).fenced) 0 384 ∧ KeepsBut (.mgmt :: reporting) s.m n) := by
  refine goes_actOn rfl rfl hw ?_
  simp only [hc, Bool.not_true, Bool.false_eq_true, if_false]
  generalize htold : List.foldl _ s.m _ = told
  have keeps : KeepsBut reporting s.m told := by
    rw [← htold]
    exact kb_foldl _ _ (fun m g => keeps_still (still_event _ _ _ _)) _
  refine ⟨?_, ?_⟩
  · rw [Module.fenceWord]
    simp only [core_congr (keeps .cores (by simp [reporting]))]
  · exact keeps_trans (keeps_mono keeps (fun p hp => List.mem_cons_of_mem _ hp)) (keeps_mono (keeps_mirror told _) (by simp))

/-- Settles O38: the register, its core and its job in turn (`goes_fenceRegisterSet`), then the mirror. -/
theorem fencesTakeTheirCores : Obligations.FencesTakeTheirCores := by
  unfold Obligations.FencesTakeTheirCores
  refine fun s hw => ⟨fun g hg hr hl => ?_, fun late hc => goes_fenceMirrorRefresh hw hc late⟩
  obtain ⟨t, hexec, hfuse, hpending, ⟨⟨fenced, origin, req⟩, ⟨channels, tiles, gathers⟩, mem, data⟩, job, hbm, ended⟩ :=
    goes_fenceRegisterSet hw hg hr hl
  exact ⟨t, hexec, hfuse, hpending, fenced, origin, req, job, channels, tiles, gathers, mem, data, hbm, ended⟩

end Sys2Proof.Proofs
end

section
/-!
PROOFS. The ends of enables (R26, R27, R87, R100, R113, R121, R454, R515): a die is ready or its cores are fenced, and a core is
ready or fenced.
-/
namespace Sys2Proof.Proofs

open Sys2Proof Sys2Proof.Machine Sys2Proof.Laws

/-! ### Dies: calibration, fenced cores and lit ports -/

/-- Calibration that is taken up shows in the calibration alone. -/
theorem keeps_latchAll (m : Module) (is : List Nat) : KeepsBut [.calib] m (m.latchAll is) := by
  unfold Module.latchAll
  refine kb_foldl _ _ (fun m i part hp => ?_) m
  cases part <;> simp_all [Part.same, Module.latchCalib]

/-- A core after an idle core is fenced. -/
theorem core_fenceIdle (fu : Fuses) (m : Module) (g k : Nat) :
    (m.fenceIdle fu g).core k = (m.onCore g (fun c => { c.stop 0 with
      fenced := true, origin := 1, ready := false, testing := false, bypass := false, fenceReq := none })).core k := by
  rw [Module.fenceIdle, core_of_checkCores]

/-- There are as many cores as before. -/
theorem fenceIdle_length (fu : Fuses) (m : Module) (g : Nat) : (m.fenceIdle fu g).cores.length = m.cores.length := by
  rw [Module.fenceIdle, checkCores_cores, onCore_length]

/-- The fence of an idle core shows in the cores and in reports. -/
theorem keeps_fenceIdle (fu : Fuses) (m : Module) (g : Nat) : KeepsBut (.cores :: reporting) m (m.fenceIdle fu g) := by
  rw [Module.fenceIdle, kb_checkCores _ (by simp [reporting]) (by simp [reporting]) (by simp [reporting]),
    kb_onCore _ _ (by simp)]
  exact keeps_refl _ _

/-- The fence of the cores of a list fences each. -/
theorem fenceIdles_core (fu : Fuses) (l : List Nat) (m : Module) {k : Nat} (hk : k < m.cores.length)
    (h : k ∈ l ∨ ((m.core k).fenced = true ∧ (m.core k).origin = 1 ∧ (m.core k).ready = false)) :
    let x : Module := l.foldl (fun m g => Module.fenceIdle fu m g) m
    (x.core k).fenced = true ∧ (x.core k).origin = 1 ∧ (x.core k).ready = false := by
  induction l generalizing m with
  | nil => exact h.resolve_left List.not_mem_nil
  | cons g l ih =>
    refine ih (m.fenceIdle fu g) (by rwa [fenceIdle_length]) ?_
    rw [core_fenceIdle, core_onCore]
    split
    · exact .inr ⟨rfl, rfl, rfl⟩
    next other =>
      refine h.imp_left (fun hmem => (List.mem_cons.1 hmem).resolve_left (fun e => other ⟨e, ?_⟩))
      rwa [← e]

/-- The fence of the cores of a list shows in the cores and in reports. -/
theorem keeps_fenceIdles (fu : Fuses) (l : List Nat) (m : Module) :
    KeepsBut (.cores :: reporting) m (l.foldl (fun m g => Module.fenceIdle fu m g) m) :=
  kb_foldl l _ (fun m g => keeps_fenceIdle fu m g) m

/-- Port `n` begins to train where 0x5220:01 lights it and it is down (R26, R317). -/
def lightPort (m : Module) (n : Nat) : Module :=
  if bitAt (m.odGet (odKey 0x5220 1)) n && (m.hawser n).state == 0 then m.onHawser n (fun _ => { Hawser.reset with state := 1 }) else m

/-- The ports of an edge die in turn. -/
theorem lightPorts_eq (m : Module) (d : Nat) :
    m.lightPorts d = ((List.range 4).map (4 * (d - 48) + ·)).foldl lightPort m := by
  rw [List.foldl_map]
  rfl

/-- A lit port shows in the hawsers alone. -/
theorem keeps_lightPort (m : Module) (n : Nat) : KeepsBut [.hawsers] m (lightPort m n) := by
  unfold lightPort
  split
  · exact keeps_onHawser m n _
  · exact keeps_refl _ _

/-- There are as many ports as before. -/
theorem lightPort_length (m : Module) (n : Nat) : (lightPort m n).hawsers.length = m.hawsers.length := by
  unfold lightPort
  split
  · rw [onHawser_length]
  · rfl

/-- Another port stays. -/
theorem lightPort_other (m : Module) {n k : Nat} (h : k ≠ n) : (lightPort m n).hawser k = m.hawser k := by
  unfold lightPort
  split
  · rw [hawser_onHawser_other _ _ _ _ h]
  · rfl

/-- A port that is down trains where it is lit. -/
theorem lightPort_self (m : Module) {n : Nat} (hn : n < m.hawsers.length) (h0 : (m.hawser n).state = 0) :
    ((lightPort m n).hawser n).state = if bitAt (m.odGet (odKey 0x5220 1)) n then 1 else 0 := by
  unfold lightPort
  by_cases hb : bitAt (m.odGet (odKey 0x5220 1)) n = true
  · simp [hb, h0, hawser_onHawser_self _ _ _ hn]
  · simp [hb, h0]

/-- A dictionary value where the dictionary is as it was. -/
theorem odGet_congr {m n : Module} (h : n.od = m.od) (k : Nat) : n.odGet k = m.odGet k := by
  rw [Module.odGet, h, Module.odGet]

/-- The ports of a list light each by itself. -/
theorem lightPorts_hawser (k : Nat) (l : List Nat) (hl : l.Nodup) (m : Module) (hk : k < m.hawsers.length) :
    (k ∉ l → Module.hawser (l.foldl lightPort m) k = m.hawser k) ∧
    (k ∈ l → (m.hawser k).state = 0 →
      (Module.hawser (l.foldl lightPort m) k).state = if bitAt (m.odGet (odKey 0x5220 1)) k then 1 else 0) := by
  induction l generalizing m with
  | nil => simp
  | cons n l ih =>
    obtain ⟨hnot, hl⟩ := List.nodup_cons.1 hl
    obtain ⟨out, inside⟩ := ih hl (lightPort m n) (by rwa [lightPort_length])
    rw [List.foldl_cons]
    refine ⟨fun h => ?_, fun h h0 => ?_⟩
    · rw [out (List.not_mem_of_not_mem_cons h), lightPort_other m (List.ne_of_not_mem_cons h)]
    · by_cases e : k = n
      · subst e
        rw [out hnot]
        exact lightPort_self m hk h0
      · have lit := inside ((List.mem_cons.1 h).resolve_left e)
        rw [lightPort_other m e, odGet_congr (keeps_lightPort m n .od (by simp))] at lit
        exact lit h0

/-! ### The end of a die's enable (R27, R515) -/

/-- The module in which the enable of die `d` has ended, at stage `st` (0 where it passed). -/
def dieEnded (m : Module) (d st : Nat) (router : Bool) : Module :=
  (m.latchAll (dieCalib d)).onDie d (fun x => { x with
    ended := true, ready := decide (st = 0), answering := decide (st = 0), failStage := st, routerFailed := router, point := 4 })

/-- The eight cores of a compute die. -/
def coresOf (d : Nat) : List Nat := (List.range 8).map (8 * d + ·)

/-- The failure of an enable fences the cores of a compute die, and is reported. -/
def dieFails (fu : Fuses) (m : Module) (d st : Nat) : Module :=
  if st = 0 then m
  else (if d < 48 then (coresOf d).foldl (fun m g => Module.fenceIdle fu m g) m else m).event fu 0x0209 [d, st]

/-- The links of a die whose router failed are dead. -/
def linksDie (m : Module) (d : Nat) : Module :=
  (linksOf d).foldl (fun (m : Module) l => m.onLink l (fun x => { x with dead := true })) m

/-- What a die's enable ends in, by its router and its stage. -/
def dieServes (fu : Fuses) (m : Module) (d st : Nat) (router : Bool) : Module :=
  if router then (linksDie m d).fenceAll fu
  else if st = 0 && decide (48 ≤ d) then m.lightPorts d
  else m

/-- The die's enable ends once. -/
theorem exec_dieEnableComplete {s : State} {d : Nat} (stage : Nat) (router : Bool) (hw : s.m.powered = true) (hd : d < 52)
    (he : (s.m.die d).enabled = true) (hn : (s.m.die d).ended = false) :
    exec (.dieEnableComplete d stage router) s = .next { s with
      m := dieServes s.fuse (dieFails s.fuse (dieEnded s.m d (dieStage s.fuse d stage) router) d (dieStage s.fuse d stage)) d
        (dieStage s.fuse d stage) router } := by
  rw [exec, execDieEnableComplete, actOn_powered _ _ _ (decide_eq_true hd) hw]
  simp only [he, hn, Bool.not_true, Bool.or_self, Bool.false_eq_true, if_false, dieServes, linksDie, dieFails, coresOf,
    List.foldl_map, dieEnded]

section
variable (fu : Fuses) (m : Module) (d st : Nat) (router : Bool)

theorem keeps_dieEnded : KeepsBut [.dies, .calib] m (dieEnded m d st router) :=
  keeps_trans (keeps_mono (keeps_latchAll m _) (by simp)) (keeps_mono (keeps_onDie _ d _) (by simp))

/-- The die at the end of its enable. -/
theorem dieEnded_die (h : d < m.dies.length) :
    (dieEnded m d st router).die d = { m.die d with
      ended := true, ready := decide (st = 0), answering := decide (st = 0), failStage := st, routerFailed := router,
      point := 4 } := by
  have dies : (m.latchAll (dieCalib d)).dies = m.dies := keeps_latchAll m _ .dies (by simp)
  rw [dieEnded, die_onDie_self _ _ _ (by rwa [dies]), Module.die, dies, Module.die]

theorem keeps_dieFails : KeepsBut (.cores :: reporting) m (dieFails fu m d st) := by
  unfold dieFails
  split
  · exact keeps_refl _ _
  · rw [kb_event _ _ _ (by simp [reporting]) (by simp [reporting]) (by simp [reporting])]
    split
    · exact keeps_fenceIdles fu _ m
    · exact keeps_refl _ _

/-- A failed enable of a compute die fences its cores. -/
theorem dieFails_core {i : Nat} (hst : st ≠ 0) (hd : d < 48) (hi : i < 8) (hl : 8 * d + i < m.cores.length) :
    ((dieFails fu m d st).core (8 * d + i)).fenced = true ∧ ((dieFails fu m d st).core (8 * d + i)).origin = 1 ∧
      ((dieFails fu m d st).core (8 * d + i)).ready = false := by
  rw [dieFails, if_neg hst, if_pos hd, core_of_event]
  exact fenceIdles_core fu (coresOf d) m hl (.inl (List.mem_map.2 ⟨i, List.mem_range.2 hi, rfl⟩))

theorem keeps_linksDie : KeepsBut [.links] m (linksDie m d) := by
  refine kb_foldl _ _ (fun m l part hp => ?_) m
  cases part <;> simp_all [Part.same, Module.onLink]

theorem keeps_lightPorts : KeepsBut [.hawsers] m (m.lightPorts d) := by
  rw [lightPorts_eq]
  exact kb_foldl _ _ keeps_lightPort m

/-- Every die is as it was before it serves. -/
theorem dieServes_dies : (dieServes fu m d st router).dies = m.dies := by
  unfold dieServes
  split
  · exact (fenceAll_ok fu (linksDie m d)).2.1.trans (keeps_linksDie m d .dies (by simp))
  · split
    · exact keeps_lightPorts m d .dies (by simp)
    · rfl

/-- Without a failed router a die that passed lights the ports of an edge die alone. -/
theorem keeps_dieServes : KeepsBut [.hawsers] m (dieServes fu m d 0 false) ∧
    (d < 48 → dieServes fu m d 0 false = m) := by
  unfold dieServes
  by_cases hd : 48 ≤ d
  · simpa [hd, Nat.not_lt.2 hd] using keeps_lightPorts m d
  · simpa [hd] using keeps_refl _ _

/-- The lit ports of an edge die train. -/
theorem dieServes_hawser {k : Nat} (hk : k / 4 + 48 = d) (hl : k < m.hawsers.length) (h0 : (m.hawser k).state = 0) :
    ((dieServes fu m d 0 false).hawser k).state = if bitAt (m.odGet (odKey 0x5220 1)) k then 1 else 0 := by
  have edge : 48 ≤ d := by omega
  have mine : k ∈ (List.range 4).map (4 * (d - 48) + ·) :=
    List.mem_map.2 ⟨k % 4, List.mem_range.2 (by omega), by omega⟩
  have distinct : ((List.range 4).map (4 * (d - 48) + ·)).Nodup := List.nodup_range.map (fun a b h => by simpa using h)
  simp only [dieServes, Bool.false_eq_true, if_false, decide_true, edge, Bool.and_self, if_true, lightPorts_eq]
  exact (lightPorts_hawser k _ distinct m hl).2 mine h0

end

/-- The end of a die's enable (R26, R27, R515). -/
theorem goes_dieEnableComplete {s : State} (hw : s.m.powered = true) (hc : s.m.cores.length = 384) (hdies : s.m.dies.length = 52)
    {d : Nat} (stage : Nat) (router : Bool) (hd : d < 52) (he : (s.m.die d).enabled = true) (hn : (s.m.die d).ended = false) :
    Goes s (.dieEnableComplete d stage router) (fun n =>
      let st := dieStage s.fuse d stage
      n.die d =
        { s.m.die d with
          ended := true, ready := decide (st = 0), answering := decide (st = 0), failStage := st, routerFailed := router,
          point := 4 } ∧
      (st = 0 → router = false → KeepsBut [.dies, .hawsers, .calib] s.m n ∧ (d < 48 → KeepsBut [.dies, .calib] s.m n) ∧
        ∀ k, k / 4 + 48 = d → k < s.m.hawsers.length → (s.m.hawser k).state = 0 →
          (n.hawser k).state = if bitAt (s.m.odGet (odKey 0x5220 1)) k then 1 else 0) ∧
      (st ≠ 0 → d < 48 → router = false → ∀ i, i < 8 →
        (n.core (8 * d + i)).fenced = true ∧ (n.core (8 * d + i)).origin = 1 ∧ (n.core (8 * d + i)).ready = false) ∧
      (router = true → ∀ c ∈ n.cores, c.fenced = true ∧ c.origin = 1)) := by
  refine ⟨_, exec_dieEnableComplete stage router hw hd he hn, rfl, rfl, ?_⟩
  dsimp only
  generalize dieStage s.fuse d stage = st
  have ended := keeps_dieEnded s.m d st router
  refine ⟨?_, fun h0 hr => ?_, fun hst hd48 hr i hi => ?_, fun hr => ?_⟩
  · rw [Module.die, dieServes_dies, keeps_dieFails s.fuse _ d st .dies (by simp [reporting]), ← Module.die,
      dieEnded_die s.m d st router (by omega)]
  · subst h0 hr
    obtain ⟨keeps, compute⟩ := keeps_dieServes s.fuse (dieEnded s.m d 0 false) d
    rw [dieFails, if_pos rfl]
    refine ⟨keeps_trans (keeps_mono ended (by simp)) (keeps_mono keeps (by simp)), fun hd48 => ?_, fun k hk hl hs => ?_⟩
    · rw [compute hd48]
      exact ended
    · have hawsers : (dieEnded s.m d 0 false).hawsers = s.m.hawsers := ended .hawsers (by simp)
      rw [dieServes_hawser s.fuse _ d hk (by rwa [hawsers]) (by rwa [Module.hawser, hawsers]),
        odGet_congr (ended .od (by simp))]
  · subst hr
    have stays : dieServes s.fuse (dieFails s.fuse (dieEnded s.m d st false) d st) d st false =
        dieFails s.fuse (dieEnded s.m d st false) d st := by
      simp [dieServes, hst]
    rw [stays]
    exact dieFails_core s.fuse _ d st hst hd48 hi (by rw [ended .cores (by simp)]; omega)
  · subst hr
    rw [dieServes, if_pos rfl]
    exact (fenceAll_ok s.fuse _).1

/-! ### Flags of a march test (R110 to R113) -/

/-- A core without what a flagged row changes: the request for its fence and its spares. -/
def unflagged (c : Core) : Core := { c with fenceReq := none, mem := { c.mem with sparesUsed := [] } }

/-- A change of a core that does not show without its flags. -/
theorem unflagged_onCore {f : Core → Core} (hf : ∀ c, unflagged (f c) = unflagged c) (m : Module) (g k : Nat) :
    unflagged ((m.onCore g f).core k) = unflagged (m.core k) := by
  rw [core_onCore]
  split
  next h => rw [hf, h.1]
  · rfl

@[simp] theorem unflagged_askFence (m : Module) (g st k : Nat) :
    unflagged ((m.askFence g st).core k) = unflagged (m.core k) := by
  refine unflagged_onCore (fun c => ?_) m g k
  unfold Core.askFence
  split <;> rfl

section
variable (fu : Fuses) (m : Module)

@[simp] theorem unflagged_noSpare (kind unit bank row k : Nat) :
    unflagged ((m.noSpare fu kind unit bank row).core k) = unflagged (m.core k) := by
  unfold Module.noSpare
  dsimp only
  split
  · rw [unflagged_askFence, core_of_event]
  · rw [foldl_keep (fun m => unflagged (m.core k)) _ _ (fun m i => unflagged_askFence m _ _ k), core_of_event]

/-- A flag that takes its spare without showing on a core does not show on it. -/
theorem unflagged_queueRepair (kind reason unit bank row fused k : Nat) (take : Module → Module)
    (ht : unflagged ((take m).core k) = unflagged (m.core k)) :
    unflagged ((m.queueRepair fu kind reason unit bank row fused take).core k) = unflagged (m.core k) := by
  unfold Module.queueRepair
  dsimp only
  split
  · rw [unflagged_noSpare, core_of_event]
  · exact ht

@[simp] theorem unflagged_flagSpRow (g bank row reason k : Nat) :
    unflagged ((m.flagSpRow fu g bank row reason).core k) = unflagged (m.core k) := by
  unfold Module.flagSpRow
  dsimp only
  split
  · rfl
  · split
    · exact unflagged_noSpare fu m _ _ _ _ k
    · exact unflagged_queueRepair fu m _ _ _ _ _ _ k _ (unflagged_onCore (by intro c; rfl) m g k)

@[simp] theorem unflagged_flagCmRow (c bank row reason k : Nat) :
    unflagged ((m.flagCmRow fu c bank row reason).core k) = unflagged (m.core k) := by
  unfold Module.flagCmRow
  dsimp only
  split
  · rfl
  · split
    · exact unflagged_noSpare fu m _ _ _ _ k
    · exact unflagged_queueRepair fu m _ _ _ _ _ _ k _ (by rw [core_of_onCluster])

end

/-- The rows that a march test finds are flagged (R113). -/
def marchFlags (fu : Fuses) (m : Module) (g : Nat) (march : List MarchRow) : Module :=
  march.foldl (fun (m : Module) r =>
    if r.cluster then m.flagCmRow fu (clusterOf g) r.bank r.row 4 else m.flagSpRow fu g r.bank r.row 4) m

theorem unflagged_marchFlags (fu : Fuses) (m : Module) (g k : Nat) (march : List MarchRow) :
    unflagged ((marchFlags fu m g march).core k) = unflagged (m.core k) :=
  foldl_keep (fun m => unflagged (m.core k)) _ _ (fun m r => by split <;> simp) m

/-! ### Bits of the mirror -/

/-- A bit of a word. -/
theorem bitAt_eq_testBit (w i : Nat) : bitAt w i = w.testBit i := by
  rw [bitAt, Nat.testBit_eq_decide_div_mod_eq, Nat.shiftRight_eq_div_pow]
  rfl

theorem bitAt_setBit (w i : Nat) : bitAt (setBit w i) i = true := by
  simp [bitAt_eq_testBit, setBit, Nat.testBit_shiftLeft]

theorem bitAt_clearBit (w i : Nat) : bitAt (clearBit w i) i = false := by
  unfold clearBit
  split
  next h =>
    have odd : w / 2 ^ i % 2 = 1 := by simpa [bitAt, Nat.shiftRight_eq_div_pow] using h
    have less : (w - 2 ^ i) / 2 ^ i = w / 2 ^ i - 1 := by simpa using Nat.sub_mul_div w (2 ^ i) 1
    rw [bitAt, Nat.shiftRight_eq_div_pow, less, beq_eq_false_iff_ne]
    omega
  next h => exact Bool.eq_false_iff.2 h

/-- A bit that is put reads back. -/
theorem bitAt_putBit (w i : Nat) (b : Bool) : bitAt (putBit w i b) i = b := by
  cases b
  · exact bitAt_clearBit w i
  · exact bitAt_setBit w i

/-! ### The end of a core's enable (R87, R100, R113, R121, R454) -/

/-- The core that a passed test leaves (R113, R454): in service where core_enable has it. -/
def passCore (c : Core) : Core :=
  { c with ready := c.enabled, fenced := false, origin := 0, testing := false, bypass := false, fenceReq := none }

/-- What the tests of core `g` leave: the core in service with its failing rows flagged, or fenced. -/
def coreTested (fu : Fuses) (m : Module) (g : Nat) (fail : EnableFail) (march : List MarchRow) : Module :=
  if m.enablePasses fail then marchFlags fu ((m.applyRepair g).onCore g passCore) g march
  else ((m.applyRepair g).fenceIdle fu g).enableFailed fu g fail

/-- The module with the bit of core `g` in the mirror as its register is. -/
def mirrorsCore (m : Module) (g : Nat) : Module :=
  { m with mgmt := { m.mgmt with mirror := putBit m.mgmt.mirror g (m.core g).fenced } }

theorem enablePasses_applyRepair (m : Module) (g : Nat) (fail : EnableFail) :
    (m.applyRepair g).enablePasses fail = m.enablePasses fail := by
  cases fail <;> rfl

/-- The tests of a core end in what they leave, perhaps with the report of a core tested again, and the mirror follows. -/
theorem exec_coreEnableComplete {s : State} {g : Nat} (fail : EnableFail) (march : List MarchRow) (hw : s.m.powered = true)
    (hg : g < 384)
    (he : ((s.m.core g).enabled = true ∧ (s.m.core g).ready = false ∧ (s.m.core g).fenced = false) ∨ (s.m.core g).testing = true) :
    ∃ x, x.core g = (coreTested s.fuse s.m g fail march).core g ∧
      exec (.coreEnableComplete g fail march) s = .next { s with m := mirrorsCore x g } := by
  have begun : (((s.m.core g).enabled && !(s.m.core g).ready && !(s.m.core g).fenced) || (s.m.core g).testing) = true := by
    rcases he with ⟨h1, h2, h3⟩ | h
    · simp [h1, h2, h3]
    · simp [h]
  rw [exec, execCoreEnableComplete, actOn_powered _ _ _ (decide_eq_true hg) hw]
  simp only [begun, Bool.not_true, Bool.false_eq_true, if_false, enablePasses_applyRepair]
  refine ⟨_, ?_, rfl⟩
  have outcome : ∀ x y : Module, (x.core g = y.core g) → ∀ (again : Bool) (l : List Nat),
      Module.core (if again then x.event s.fuse 0x0391 l else x) g = y.core g := by
    intro x y h again l
    split
    · rw [core_of_event, h]
    · exact h
  refine outcome _ _ ?_ _ _
  unfold coreTested
  split <;> rfl

/-- There are as many cores as before. -/
theorem applyRepair_length (m : Module) (g : Nat) : (m.applyRepair g).cores.length = m.cores.length := by
  rw [Module.applyRepair, onCluster_cores, onCore_length, nextFree_cores]

/-- The report of a failed enable touches no core. -/
theorem enableFailed_core (fu : Fuses) (m : Module) (g k : Nat) (fail : EnableFail) :
    (m.enableFailed fu g fail).core k = m.core k := by
  cases fail with
  | pass => rfl
  | array | splice | row | reference => exact core_of_event _ _ _ _ _

section
variable {m : Module} {g : Nat} (hg : g < m.cores.length)
include hg

/-- A core whose repair map is applied: its memory is empty, its registers are undefined under a fresh number, and its
fence and its enable are as they were (R87, R88, R113). -/
theorem applyRepair_core :
    ∃ spares, (m.applyRepair g).core g = { m.core g with
      weights := { shadow := [], working := [] }, accums := [], undefNo := m.freeNo,
      mem := { sp := [], poison := [], full := [], rowErrors := [], statErrors := [], sparesUsed := spares, pending := [],
               threshold := m.odGet (odKey 0x4200 7), pages := [] } } := by
  refine ⟨m.store.sparesOf 1 g, ?_⟩
  rw [Module.applyRepair, core_of_onCluster, core_onCore_self _ _ _ (by simpa using hg), core_of_nextFree]

/-- A core that passes its tests (R100, R113, R121). -/
theorem coreTested_passes (fu : Fuses) {fail : EnableFail} (march : List MarchRow) (hp : m.enablePasses fail = true) :
    ∃ spares, unflagged ((coreTested fu m g fail march).core g) = unflagged { passCore (m.core g) with
      weights := { shadow := [], working := [] }, accums := [], undefNo := m.freeNo,
      mem := { sp := [], poison := [], full := [], rowErrors := [], statErrors := [], sparesUsed := spares, pending := [],
               threshold := m.odGet (odKey 0x4200 7), pages := [] } } := by
  obtain ⟨spares, repaired⟩ := applyRepair_core hg
  refine ⟨spares, ?_⟩
  rw [coreTested, if_pos hp, unflagged_marchFlags, core_onCore_self _ _ _ (by rwa [applyRepair_length]), repaired]
  rfl

/-- A core that fails its tests is fenced by hardware. -/
theorem coreTested_fails (fu : Fuses) {fail : EnableFail} (march : List MarchRow) (hp : m.enablePasses fail = false) :
    ((coreTested fu m g fail march).core g).ready = false ∧ ((coreTested fu m g fail march).core g).fenced = true ∧
      ((coreTested fu m g fail march).core g).origin = 1 := by
  rw [coreTested, hp, if_neg Bool.false_ne_true, enableFailed_core, core_fenceIdle,
    core_onCore_self _ _ _ (by rwa [applyRepair_length])]
  exact ⟨rfl, rfl, rfl⟩

end

/-- The end of a core's enable, or of its test after a fence (R87, R100, R113, R121, R454). -/
theorem goes_coreEnableComplete {s : State} (hw : s.m.powered = true) (hc : s.m.cores.length = 384) {g : Nat} (fail : EnableFail)
    (march : List MarchRow) (hg : g < 384)
    (he : ((s.m.core g).enabled = true ∧ (s.m.core g).ready = false ∧ (s.m.core g).fenced = false) ∨ (s.m.core g).testing = true) :
    Goes s (.coreEnableComplete g fail march) (fun n =>
      (s.m.enablePasses fail = true → (n.core g).ready = (s.m.core g).enabled ∧ (n.core g).fenced = false ∧
        (n.core g).bypass = false ∧ (n.core g).mem.threshold = s.m.odGet (odKey 0x4200 7) ∧ (n.core g).mem.sp = [] ∧
        (n.core g).mem.full = [] ∧ (n.core g).mem.poison = [] ∧
        (n.core g).weights = { shadow := [], working := [] } ∧ (n.core g).accums = [] ∧ (n.core g).undefNo = s.m.freeNo) ∧
      (s.m.enablePasses fail = false → (n.core g).ready = false ∧ (n.core g).fenced = true ∧ (n.core g).origin = 1) ∧
      bitAt n.mgmt.mirror g = (n.core g).fenced) := by
  obtain ⟨x, core, hexec⟩ := exec_coreEnableComplete fail march hw hg he
  refine ⟨_, hexec, rfl, rfl, fun hp => ?_, fun hp => ?_, bitAt_putBit _ g _⟩
  · obtain ⟨spares, h⟩ := coreTested_passes (by rwa [hc]) s.fuse march hp
    rw [← core] at h
    exact ⟨congrArg Core.ready h, congrArg Core.fenced h, congrArg Core.bypass h, congrArg (fun c => c.mem.threshold) h,
      congrArg (fun c => c.mem.sp) h, congrArg (fun c => c.mem.full) h, congrArg (fun c => c.mem.poison) h,
      congrArg Core.weights h, congrArg Core.accums h, congrArg Core.undefNo h⟩
  · have h := coreTested_fails (by rwa [hc]) s.fuse march hp
    rwa [← core] at h

/-- Settles O37: the end of a die's enable, then that of a core's. -/
theorem enablesEndReadyOrFenced : Obligations.EnablesEndReadyOrFenced := by
  unfold Obligations.EnablesEndReadyOrFenced
  exact fun s hw hc hd => ⟨fun d stage router h52 he hn => goes_dieEnableComplete hw hc hd stage router h52 he hn,
    fun g fail march hg he => goes_coreEnableComplete hw hc fail march hg he⟩

end Sys2Proof.Proofs
end

section
/-!
PROOFS. Scale descriptors (R9, R47): little-endian words, packed fields and two's complement codes read back.
-/
namespace Sys2Proof.Proofs

open Sys2Proof.Machine Sys2Proof.Laws

/-! ### Words and codes read back -/

/-- The value of `n` little-endian bytes (R9). -/
theorem leNat_leBytes (n w : Nat) : leNat (leBytes n w) = w % 256 ^ n := by
  induction n generalizing w with
  | zero => simp [leBytes, leNat, Nat.mod_one]
  | succ n ih =>
    rw [leBytes, leNat, ih, BitVec.toNat_ofNat, Nat.mod_eq_of_lt (Nat.mod_lt w (by decide)), pow_succ', Nat.mod_mul]

/-- The first word of a byte string that starts with one. -/
theorem word64_leBytes_append (w : Nat) (l : List Byte) : word64 (leBytes 8 w ++ l) 0 = w % 2 ^ 64 := by
  rw [word64, leAt, slice, Nat.mul_zero, List.drop_zero, List.take_left' (leBytes_length 8 w), leNat_leBytes]
  rfl

/-- A later word of a byte string that starts with one. -/
theorem word64_succ_leBytes_append (w i : Nat) (l : List Byte) : word64 (leBytes 8 w ++ l) (i + 1) = word64 l i := by
  rw [word64, leAt, slice, Nat.mul_succ, Nat.add_comm, ← List.drop_drop, List.drop_left' (leBytes_length 8 w)]
  rfl

/-- The value behind `k` bytes is at its offset in what follows them. -/
theorem leAt_append_right {k : Nat} {front : List Byte} (h : front.length = k) (l : List Byte) (i n : Nat) :
    leAt (front ++ l) (k + i) n = leAt l i n := by
  rw [leAt, slice, ← List.drop_drop, List.drop_left' h]
  rfl

theorem unsigned_lt (n : Nat) (i : Int) : unsigned n i < 2 ^ n := by
  have := Nat.two_pow_pos n
  rw [unsigned]
  omega

/-- An integer of `k + 1` bits is its two's complement code read back. -/
theorem signed_unsigned (k : Nat) {i : Int} (h1 : -2 ^ k ≤ i) (h2 : i < 2 ^ k) : signed (k + 1) (unsigned (k + 1) i) = i := by
  have hp : ((2 ^ (k + 1) : Nat) : Int) = 2 * 2 ^ k := by push_cast; ring
  have hq : ((2 ^ k : Nat) : Int) = 2 ^ k := by push_cast; rfl
  have hv : (unsigned (k + 1) i : Int) = if i < 0 then i + 2 * 2 ^ k else i := by
    rw [unsigned, Int.toNat_of_nonneg (Int.emod_nonneg _ (by omega)), hp]
    split
    · rw [Int.emod_eq_add_self_emod, Int.emod_eq_of_lt (by omega) (by omega)]
    · exact Int.emod_eq_of_lt (by omega) (by omega)
  rw [signed, Nat.mod_eq_of_lt (unsigned_lt (k + 1) i), Nat.add_sub_cancel]
  split at hv <;> split <;> omega

theorem byteI8_lt (v : Option Int) : byteI8 v < 256 := by
  cases v with
  | none => decide
  | some i => exact unsigned_lt 8 i

/-- A byte of history reads back the value or the mark that it was made of (R47). -/
theorem readI8_byteI8 {v : Option Int} (h : ∀ i, v = some i → -127 ≤ i ∧ i < 128) : readI8 (byteI8 v) = v := by
  cases v with
  | none => rfl
  | some i =>
    obtain ⟨h1, h2⟩ := h i rfl
    have hne : unsigned 8 i % 256 ≠ 0x80 := by simp only [unsigned]; omega
    rw [byteI8, readI8, if_neg hne, signed_unsigned 7 (by omega) (by omega)]

/-- Byte `i` of the histories' bytes. -/
theorem leAt_hist {l : List (Option Int)} {i : Nat} (h : i < l.length) :
    leAt (l.flatMap (fun v => leBytes 1 (byteI8 v))) i 1 = byteI8 l[i] := by
  induction l generalizing i with
  | nil => simp at h
  | cons v l ih =>
    cases i with
    | zero => simp [leAt, slice, leBytes, leNat, Nat.mod_eq_of_lt (byteI8_lt v)]
    | succ i =>
      simpa [Nat.add_comm] using (leAt_append_right (leBytes_length 1 _) _ i 1).trans (ih (by simpa using h))

/-! ### The descriptor -/

/-- The first word of a scale descriptor. -/
def descWord0 (d : ScaleDesc) : Nat :=
  unsigned 8 d.expCur * 2 ^ 56 + unsigned 8 d.expInit * 2 ^ 48 + unsigned 4 d.margin * 2 ^ 44 +
    d.histLenM1 % 64 * 2 ^ 38 + d.histHead % 64 * 2 ^ 32 + d.histCount % 128 * 2 ^ 25 +
    (if d.frozen then 2 ^ 24 else 0) + d.fmt % 16 * 2 ^ 20

/-- The second word of a scale descriptor. -/
def descWord1 (d : ScaleDesc) : Nat :=
  byteI8 d.stepMaxExp * 2 ^ 56 + d.braidBias % 256 * 2 ^ 48 + d.satThreshold % 2 ^ 16 * 2 ^ 32 +
    (d.stepSaturations + d.tackleSaturations) % 2 ^ 32

/-- The bytes behind the five words of a scale descriptor. -/
def descTail (d : ScaleDesc) : List Byte := zeros 24 ++ d.hist.flatMap (fun h => leBytes 1 (byteI8 h))

theorem desc_bytes_eq (d : ScaleDesc) :
    d.bytes = leBytes 8 (descWord0 d) ++ (leBytes 8 (descWord1 d) ++ (leBytes 8 d.satTotal ++ (leBytes 8 d.nonfiniteTotal ++
      (leBytes 8 d.cleanSteps ++ descTail d)))) := by
  simp only [ScaleDesc.bytes, descWord0, descWord1, descTail, List.append_assoc]

theorem desc_bytes_length {d : ScaleDesc} (h : d.hist.length = 64) : d.bytes.length = 128 := by
  simp [desc_bytes_eq, descTail, zeros, h]

theorem leAt_desc_hist {d : ScaleDesc} {i : Nat} (h : i < d.hist.length) : leAt d.bytes (64 + i) 1 = byteI8 d.hist[i] := by
  rw [← leAt_hist h]
  exact leAt_append_right (front := leBytes 8 (descWord0 d) ++ leBytes 8 (descWord1 d) ++ leBytes 8 d.satTotal ++
    leBytes 8 d.nonfiniteTotal ++ leBytes 8 d.cleanSteps ++ zeros 24) (by simp [zeros]) _ i 1

theorem desc_hist_reads_back {d : ScaleDesc} (hl : d.hist.length = 64) (hv : ∀ v, some v ∈ d.hist → -127 ≤ v ∧ v < 128) :
    (List.range 64).map (fun i => readI8 (leAt d.bytes (64 + i) 1)) = d.hist := by
  refine List.ext_getElem (by simp [hl]) (fun i _ h => ?_)
  rw [List.getElem_map, List.getElem_range, leAt_desc_hist h]
  exact readI8_byteI8 (fun v e => hv v (e ▸ List.getElem_mem h))

theorem descWord0_lt (d : ScaleDesc) : descWord0 d < 2 ^ 64 := by
  have h1 := unsigned_lt 8 d.expCur
  have h2 := unsigned_lt 8 d.expInit
  have h3 := unsigned_lt 4 d.margin
  unfold descWord0
  split <;> omega

theorem descWord1_lt (d : ScaleDesc) : descWord1 d < 2 ^ 64 := by
  have h1 := byteI8_lt d.stepMaxExp
  unfold descWord1
  omega

/-- The fields of the first word. -/
theorem descWord0_fields (d : ScaleDesc) :
    field (descWord0 d) 56 8 = unsigned 8 d.expCur ∧ field (descWord0 d) 48 8 = unsigned 8 d.expInit ∧
      field (descWord0 d) 44 4 = unsigned 4 d.margin ∧ field (descWord0 d) 38 6 = d.histLenM1 % 64 ∧
      field (descWord0 d) 32 6 = d.histHead % 64 ∧ field (descWord0 d) 25 7 = d.histCount % 128 ∧
      bitAt (descWord0 d) 24 = d.frozen ∧ field (descWord0 d) 20 4 = d.fmt % 16 := by
  have h1 := unsigned_lt 8 d.expCur
  have h2 := unsigned_lt 8 d.expInit
  have h3 := unsigned_lt 4 d.margin
  simp only [field, bitAt, descWord0, Nat.shiftRight_eq_div_pow]
  cases d.frozen
  · refine ⟨?_, ?_, ?_, ?_, ?_, ?_, by rw [beq_eq_false_iff_ne]; simp; omega, ?_⟩ <;> simp <;> omega
  · refine ⟨?_, ?_, ?_, ?_, ?_, ?_, by rw [beq_iff_eq]; simp; omega, ?_⟩ <;> simp <;> omega

/-- The fields of the second word. -/
theorem descWord1_fields (d : ScaleDesc) :
    field (descWord1 d) 56 8 = byteI8 d.stepMaxExp ∧ field (descWord1 d) 48 8 = d.braidBias % 256 ∧
      field (descWord1 d) 32 16 = d.satThreshold % 2 ^ 16 ∧
      field (descWord1 d) 0 32 = (d.stepSaturations + d.tackleSaturations) % 2 ^ 32 := by
  have h1 := byteI8_lt d.stepMaxExp
  simp only [field, descWord1, Nat.shiftRight_eq_div_pow]
  refine ⟨?_, ?_, ?_, ?_⟩ <;> omega

/-- Settles O33: the five words and the history read back, and within them every field. -/
theorem scaleDescriptorsReadBack : Obligations.ScaleDescriptorsReadBack := by
  unfold Obligations.ScaleDescriptorsReadBack
  intro d hcur hcur' hinit hinit' hmargin hmargin' hlen hhead hcount hfmt hbias hthr hsat htotal hnonfin hclean hmax hl hhist
  have w0 : word64 d.bytes 0 = descWord0 d := by
    rw [desc_bytes_eq, word64_leBytes_append, Nat.mod_eq_of_lt (descWord0_lt d)]
  have w1 : word64 d.bytes 1 = descWord1 d := by
    rw [desc_bytes_eq, word64_succ_leBytes_append, word64_leBytes_append, Nat.mod_eq_of_lt (descWord1_lt d)]
  have w2 : word64 d.bytes 2 = d.satTotal := by
    rw [desc_bytes_eq, word64_succ_leBytes_append, word64_succ_leBytes_append, word64_leBytes_append, Nat.mod_eq_of_lt htotal]
  have w3 : word64 d.bytes 3 = d.nonfiniteTotal := by
    rw [desc_bytes_eq, word64_succ_leBytes_append, word64_succ_leBytes_append, word64_succ_leBytes_append, word64_leBytes_append,
      Nat.mod_eq_of_lt hnonfin]
  have w4 : field (word64 d.bytes 4) 0 16 = d.cleanSteps := by
    rw [desc_bytes_eq, word64_succ_leBytes_append, word64_succ_leBytes_append, word64_succ_leBytes_append, word64_succ_leBytes_append,
      word64_leBytes_append, field]
    omega
  obtain ⟨f1, f2, f3, f4, f5, f6, f7, f8⟩ := descWord0_fields d
  obtain ⟨g1, g2, g3, g4⟩ := descWord1_fields d
  refine ⟨desc_bytes_length hl, ?_⟩
  simp only [readDesc, w0, w1, w2, w3, w4, desc_hist_reads_back hl hhist, f1, f2, f3, f4, f5, f6, f7, f8, g1, g2, g3, g4,
    signed_unsigned 7 hcur hcur', signed_unsigned 7 hinit hinit',
    signed_unsigned 3 hmargin hmargin', readI8_byteI8 hmax, Nat.mod_eq_of_lt hlen, Nat.mod_eq_of_lt hhead,
    Nat.mod_eq_of_lt hcount, Nat.mod_eq_of_lt hfmt, Nat.mod_eq_of_lt hbias, Nat.mod_eq_of_lt hthr, Nat.mod_eq_of_lt hsat]

end Sys2Proof.Proofs
end

section
/-!
PROOFS. Reads of HBM (R357, R361): outside the codewords with errors they change no byte, and of the dictionary they change
only the counts of reads, the reports' own values and the replace reasons.
-/
namespace Sys2Proof.Proofs

open Sys2Proof.Machine Sys2Proof.Laws

/-! ### Bytes outside the codewords with errors -/

/-- Every byte of HBM outside the codewords with errors reads as before, and no other codeword got errors. -/
def SoundHbm (m n : Module) : Prop :=
  (∀ x ∈ n.bursts, ∃ y ∈ m.bursts, y.granule = x.granule) ∧
    ∀ a, (∀ x ∈ m.bursts, x.granule ≠ a / 32) → n.hbm.get a = m.hbm.get a

theorem soundHbm_refl (m : Module) : SoundHbm m m := ⟨fun x hx => ⟨x, hx, rfl⟩, fun _ _ => rfl⟩

theorem soundHbm_trans {a b c : Module} (h : SoundHbm a b) (k : SoundHbm b c) : SoundHbm a c := by
  obtain ⟨hb, hg⟩ := h
  obtain ⟨kb, kg⟩ := k
  refine ⟨fun x hx => ?_, fun i hi => (kg i fun x hx => ?_).trans (hg i hi)⟩
  · obtain ⟨y, hy, ey⟩ := kb x hx
    obtain ⟨z, hz, ez⟩ := hb y hy
    exact ⟨z, hz, ez.trans ey⟩
  · obtain ⟨y, hy, ey⟩ := hb x hx
    exact ey ▸ hi y hy

/-- A change that shows neither in HBM nor in its codewords' errors. -/
theorem soundHbm_of_keeps {ps : List Part} {m n : Module} (h : KeepsBut ps m n) (hh : Part.hbm ∉ ps) (hp : Part.hbmPoison ∉ ps) :
    SoundHbm m n := by
  have eh : n.hbm = m.hbm := h .hbm hh
  have eb : n.bursts = m.bursts := (h .hbmPoison hp).2
  exact ⟨fun x hx => ⟨x, eb ▸ hx, rfl⟩, fun a _ => by rw [eh]⟩

theorem soundHbm_foldl {α : Type} (l : List α) (f : Module → α → Module) (hf : ∀ m, ∀ a ∈ l, SoundHbm m (f m a)) (m : Module) :
    SoundHbm m (l.foldl f m) := by
  induction l generalizing m with
  | nil => exact soundHbm_refl m
  | cons a l ih =>
    exact soundHbm_trans (hf m a List.mem_cons_self) (ih (fun m b hb => hf m b (List.mem_cons_of_mem a hb)) _)

/-- A run of writes to the bytes of one granule leaves the others. -/
theorem get_granule_writes (g a : Nat) (f : Nat → Byte) (l : List Nat) (hl : ∀ i ∈ l, i < 32) (h : g ≠ a / 32) (mem : Mem) :
    (l.foldl (fun (m : Mem) i => m.write (32 * g + i) [f i]) mem).get a = mem.get a := by
  induction l generalizing mem with
  | nil => rfl
  | cons i l ih =>
    have hi := hl i List.mem_cons_self
    rw [List.foldl_cons, ih (fun j hj => hl j (List.mem_cons_of_mem i hj)), get_write, if_neg]
    simp only [List.length_singleton]
    omega

/-- Errors stored again in a codeword that had some. -/
theorem soundHbm_storeErrors {m n : Module} (h : SoundHbm m n) {y : BadBurst} (hy : y ∈ m.bursts) (l : List Nat) :
    SoundHbm m (n.storeErrors y.granule l) := by
  obtain ⟨hb, hg⟩ := h
  have bursts : ∀ kind, ∀ x ∈ n.bursts.filter (fun b => b.granule != y.granule) ++ [⟨y.granule, l, kind⟩],
      ∃ z ∈ m.bursts, z.granule = x.granule := by
    intro kind x hx
    rcases List.mem_append.mp hx with hx | hx
    · exact hb x (List.mem_filter.mp hx).1
    · exact ⟨y, hy, by rw [List.mem_singleton.mp hx]⟩
  unfold Module.storeErrors
  dsimp only
  split
  · exact ⟨bursts 0, hg⟩
  split
  · refine ⟨bursts 1, fun a ha => (?_ : _ = n.hbm.get a).trans (hg a ha)⟩
    have := ha y hy
    dsimp only
    rw [get_write, if_neg]
    simp only [List.length_map, List.length_range]
    omega
  · exact ⟨bursts 2, fun a ha => (get_granule_writes y.granule a _ _
      (fun i hi => by simpa using (List.mem_filter.mp hi).2) (ha y hy) _).trans (hg a ha)⟩

/-- The codewords that a new mark puts beyond the decoder's reach had errors before. -/
theorem soundHbm_judgeErrors (m : Module) (p pc : Nat) : SoundHbm m (m.judgeErrors p pc) := by
  unfold Module.judgeErrors
  generalize hL : m.bursts.filter _ = L
  have hsub : ∀ b ∈ L, b ∈ m.bursts := fun b hb => by rw [← hL] at hb; exact (List.mem_filter.mp hb).1
  clear hL
  suffices ∀ n, SoundHbm m n → SoundHbm m (L.foldl (fun (m : Module) b => m.storeErrors b.granule b.symbols) n) from
    this m (soundHbm_refl m)
  induction L with
  | nil => exact fun n hn => hn
  | cons b L ih =>
    exact fun n hn => ih (fun c hc => hsub c (List.mem_cons_of_mem b hc)) _ (soundHbm_storeErrors hn (hsub b List.mem_cons_self) _)

/-- A flagged row changes no byte. -/
theorem soundHbm_flagHbmRow (fu : Fuses) (m : Module) (p pc b r x : Nat) : SoundHbm m (m.flagHbmRow fu p pc b r x) := by
  refine soundHbm_of_keeps (ps := [.hbmStacks, .od, .log, .report]) ?_ (by decide) (by decide)
  unfold Module.flagHbmRow
  dsimp only
  repeat' split
  all_goals simp [keeps_refl]

theorem soundHbm_recordLane (fu : Fuses) (m : Module) (p pc b r x : Nat) : SoundHbm m (m.recordLane fu p pc b r x) := by
  have onStack : ∀ (n : Module) (f : Stack → Stack), SoundHbm n (n.onStack p f) := fun n f =>
    soundHbm_of_keeps (keeps_onStack n p f) (by decide) (by decide)
  have event : ∀ (n : Module) c l, SoundHbm n (n.event fu c l) := fun n c l =>
    soundHbm_of_keeps (keeps_still (still_event fu n c l)) (by decide) (by decide)
  unfold Module.recordLane
  dsimp only
  split
  · exact onStack _ _
  split
  · exact soundHbm_trans (soundHbm_trans (soundHbm_trans (onStack _ _) (onStack _ _)) (soundHbm_judgeErrors _ _ _)) (event _ _ _)
  split
  · exact soundHbm_trans (onStack _ _) (event _ _ _)
  · exact onStack _ _

theorem soundHbm_readBurst (fu : Fuses) (m : Module) (j : Nat) (b : BadBurst) : SoundHbm m (m.readBurst fu j b) := by
  have bump : ∀ (n : Module) k v, SoundHbm n (n.bump k v) := fun n k v =>
    soundHbm_of_keeps (keeps_bump n k v) (by decide) (by decide)
  have onStack : ∀ (n : Module) p f, SoundHbm n (n.onStack p f) := fun n p f =>
    soundHbm_of_keeps (keeps_onStack n p f) (by decide) (by decide)
  have corrected : ∀ p f, SoundHbm m ((m.bump (odKey 0x4020 1) 1).onStack p f) := fun p f =>
    soundHbm_trans (bump _ _ _) (onStack _ _ _)
  unfold Module.readBurst
  dsimp only
  split
  · exact soundHbm_trans (soundHbm_trans (bump _ _ _)
      (soundHbm_of_keeps (keeps_still (still_event fu _ _ _)) (by decide) (by decide))) (soundHbm_flagHbmRow fu _ _ _ _ _ _)
  split
  · exact corrected _ _
  split
  · exact corrected _ _
  · split
    · exact soundHbm_trans (soundHbm_trans (soundHbm_trans (corrected _ _) (soundHbm_recordLane fu _ _ _ _ _ _)) (onStack _ _ _))
        (soundHbm_flagHbmRow fu _ _ _ _ _ _)
    · exact soundHbm_trans (soundHbm_trans (corrected _ _) (soundHbm_recordLane fu _ _ _ _ _ _)) (onStack _ _ _)
  · exact soundHbm_trans (soundHbm_trans (corrected _ _) (bump _ _ _)) (soundHbm_flagHbmRow fu _ _ _ _ _ _)

/-- Reads of HBM change no byte outside the codewords with errors. -/
theorem soundHbm_hbmReads (fu : Fuses) (m : Module) (j : Nat) (rs : List (Nat × Nat)) : SoundHbm m (m.hbmReads fu j rs) := by
  unfold Module.hbmReads
  dsimp only
  refine soundHbm_trans (soundHbm_of_keeps (ps := [.od]) ?_ (by decide) (by decide))
    (soundHbm_foldl _ _ (fun m b _ => soundHbm_readBurst fu m j b) _)
  split <;> simp [keeps_refl]

/-! ### Dictionary values -/

/-- The dictionary values that reads of HBM advance: their counts, the reports' values and the replace reasons. -/
def readKeys : List Nat :=
  [odKey 0x4020 1, odKey 0x4020 2, odKey 0x4020 3, odKey 0x4020 4, odKey 0x1F10 1, odKey 0x1F10 4] ++ reportKeys

section
variable (fu : Fuses) (m : Module) {k : Nat} (hk : k ∉ readKeys)
include hk

theorem odGet_event_readKeys (c : Nat) (l : List Nat) : (m.event fu c l).odGet k = m.odGet k :=
  odGet_event fu m c l k (fun h => hk (List.mem_append_right _ h))

theorem odGet_bump_readKeys (i n : Nat) (hi : i ∈ readKeys) : (m.bump i n).odGet k = m.odGet k := by
  rw [odGet_bump, if_neg (by rintro rfl; exact hk hi)]

theorem odGet_flagHbmRow (p pc b r x : Nat) : (m.flagHbmRow fu p pc b r x).odGet k = m.odGet k := by
  have reason : ∀ (n : Module) l, (n.reason fu 1 l).odGet k = n.odGet k := by
    intro n l
    unfold Module.reason
    dsimp only
    split
    · rfl
    · rw [odGet_event_readKeys fu _ hk, odGet_odSet,
        if_neg (by rintro rfl; exact hk (by decide)), odGet_odSet, if_neg (by rintro rfl; exact hk (by decide))]
  unfold Module.flagHbmRow
  dsimp only
  split
  · rfl
  split
  · rfl
  split
  · rw [reason, odGet_event_readKeys fu _ hk]
  · rw [odGet_event_readKeys fu _ hk]

omit hk in
theorem storeErrors_od (g : Nat) (l : List Nat) : (m.storeErrors g l).od = m.od := by
  unfold Module.storeErrors
  dsimp only
  split
  · rfl
  split <;> rfl

omit hk in
theorem judgeErrors_od (p pc : Nat) : (m.judgeErrors p pc).od = m.od :=
  foldl_keep Module.od _ (fun (m : Module) (b : BadBurst) => m.storeErrors b.granule b.symbols) (fun m _ => storeErrors_od m _ _) m

theorem odGet_recordLane (p pc b r x : Nat) : (m.recordLane fu p pc b r x).odGet k = m.odGet k := by
  unfold Module.recordLane
  dsimp only
  split
  · rfl
  split
  · rw [odGet_event_readKeys fu _ hk, odGet_congr (judgeErrors_od _ _ _)]
    rfl
  split
  · rw [odGet_event_readKeys fu _ hk]
    rfl
  · rfl

theorem odGet_readBurst (j : Nat) (b : BadBurst) : (m.readBurst fu j b).odGet k = m.odGet k := by
  have corrected : ∀ (p : Nat) (f : Stack → Stack), ((m.bump (odKey 0x4020 1) 1).onStack p f).odGet k = m.odGet k := fun p f =>
    odGet_bump_readKeys m hk (odKey 0x4020 1) 1 (by decide)
  unfold Module.readBurst
  dsimp only
  split
  · rw [odGet_flagHbmRow fu _ hk, odGet_event_readKeys fu _ hk, odGet_bump_readKeys _ hk _ _ (by decide)]
  split
  · exact corrected _ _
  split
  · exact corrected _ _
  · split
    · rw [odGet_flagHbmRow fu _ hk]
      exact (odGet_recordLane fu _ hk _ _ _ _ _).trans (corrected _ _)
    · exact (odGet_recordLane fu _ hk _ _ _ _ _).trans (corrected _ _)
  · rw [odGet_flagHbmRow fu _ hk, odGet_bump_readKeys _ hk _ _ (by decide)]
    exact corrected _ _

theorem odGet_hbmReads (j : Nat) (rs : List (Nat × Nat)) : (m.hbmReads fu j rs).odGet k = m.odGet k := by
  unfold Module.hbmReads
  dsimp only
  refine (foldl_keep (fun n : Module => n.odGet k) _ (fun (m : Module) b => m.readBurst fu j b)
    (fun m b => odGet_readBurst fu m hk j b) _).trans ?_
  split
  · rfl
  · exact odGet_bump_readKeys m hk _ _ (by decide)

end

/-- Reads of HBM leave the module's place in its rope. -/
theorem inRope_hbmReads (fu : Fuses) (m : Module) (i j : Nat) (rs : List (Nat × Nat)) :
    (m.hbmReads fu i rs).inRope j = m.inRope j := by
  rw [Module.inRope, Module.inRope, Module.ropeSize, Module.ropeSize, Module.ropeJob, Module.ropeJob,
    odGet_hbmReads fu m (k := odKey 0x5200 2) (by decide),
    odGet_hbmReads fu m (k := odKey 0x5200 5) (by decide)]

end Sys2Proof.Proofs
end

section
/-!
PROOFS. Steps that commit or are abandoned (R49, R203, R240, R242, R487): what the commit makes of the job and of its cores, and
that HBM is only read.
-/
namespace Sys2Proof.Proofs

open Sys2Proof.Machine Sys2Proof.Laws

/-! ### Cores that stop -/

/-- A stopped core has nothing left to stop. -/
theorem stop_stop (c : Core) (n : Nat) : (c.stop n).stop n = c.stop n := by
  unfold Core.stop
  cases c.fenceReq <;> simp

/-- Stopping a list of cores, at whatever places each stands in it. -/
theorem core_foldl_stop (l : List Nat) (m : Module) {g : Nat} (hg : g < m.cores.length) :
    (l.foldl (fun (m : Module) g => m.onCore g (fun c => c.stop 0)) m).core g = if g ∈ l then (m.core g).stop 0 else m.core g := by
  induction l generalizing m with
  | nil => rfl
  | cons a l ih =>
    rw [List.foldl_cons, ih _ (by simpa using hg), core_onCore]
    by_cases e : g = a
    · subst e
      simp [hg, stop_stop]
    · simp [e]

/-! ### What a step boundary captures -/

/-- Either of two ways. -/
theorem soundHbm_ite {m a b : Module} {c : Prop} [Decidable c] (h1 : SoundHbm m a) (h2 : SoundHbm m b) :
    SoundHbm m (if c then a else b) := by
  split <;> assumption

theorem soundHbm_captureSnapshot (fu : Fuses) (m : Module) (q : Nat) (c : Cmd) : SoundHbm m (m.captureSnapshot fu q c) := by
  have answer : ∀ (n : Module) a b d, SoundHbm n (n.answer q c a b d) := fun n a b d =>
    soundHbm_of_keeps (keeps_answer n q c a b d) (by decide) (by decide)
  have failed : ∀ (n : Module) st, SoundHbm n (n.snapFailed fu q c st) := fun n st =>
    soundHbm_trans (soundHbm_of_keeps (keeps_still (still_event fu n _ _)) (by decide) (by decide)) (answer _ _ _ _)
  have bump : ∀ (n : Module) k v, SoundHbm n (n.bump k v) := fun n k v =>
    soundHbm_of_keeps (keeps_bump n k v) (by decide) (by decide)
  unfold Module.captureSnapshot
  dsimp only
  refine soundHbm_ite (failed _ _) (soundHbm_ite (failed _ _) ?_)
  refine soundHbm_trans (soundHbm_hbmReads fu m c.job _) (soundHbm_ite (failed _ _) (soundHbm_ite ?_ ?_))
  · exact soundHbm_trans (bump _ _ _) (soundHbm_of_keeps (keeps_answerData _ _ _ _ _ _ _) (by decide) (by decide))
  · exact soundHbm_trans (soundHbm_trans (soundHbm_of_keeps (keeps_putObj fu _ _ _) (by decide) (by decide)) (bump _ _ _))
      (answer _ _ _ _)

/-- Capturing the snapshots that wait only reads HBM. -/
theorem soundHbm_captureAll (fu : Fuses) (m : Module) (j : Nat) : SoundHbm m (m.captureAll fu j) := by
  have orphans : ∀ (n : Module) o, SoundHbm n { n with host := { n.host with orphans := o } } := fun n o =>
    ⟨fun x hx => ⟨x, hx, rfl⟩, fun _ _ => rfl⟩
  unfold Module.captureAll
  dsimp only
  exact soundHbm_trans (soundHbm_trans (orphans m _) (soundHbm_foldl _ _ (fun m c _ => soundHbm_captureSnapshot fu m 16 c) _))
    (soundHbm_foldl _ _ (fun m q _ => soundHbm_foldl _ _ (fun m c _ => soundHbm_captureSnapshot fu m q c) m) _)

/-- What the start of a state snapshot may write. -/
def snapParts : List Part := [.jobs, .store, .rope, .hawsers] ++ hbmReading

/-- A state snapshot may have started: of the jobs, at most its write in progress shows; HBM is only read. -/
structure SnapStarts (j : Nat) (m n : Module) : Prop where
  keeps : KeepsBut snapParts m n
  sound : SoundHbm m n
  others : OtherJobs j m n
  own : ∃ p, n.job j = { m.job j with pendingSnap := p }

theorem snapStarts_trans {j : Nat} {a b c : Module} (h : SnapStarts j a b) (k : SnapStarts j b c) : SnapStarts j a c := by
  obtain ⟨p, hp⟩ := h.own
  obtain ⟨q, hq⟩ := k.own
  exact ⟨keeps_trans h.keeps k.keeps, soundHbm_trans h.sound k.sound, fun i hi => (k.others i hi).trans (h.others i hi),
    q, by rw [hq, hp]⟩

theorem snapStarts_ite {j : Nat} {m a b : Module} {c : Prop} [Decidable c] (h1 : SnapStarts j m a) (h2 : SnapStarts j m b) :
    SnapStarts j m (if c then a else b) := by
  split <;> assumption

/-- The jobs stay, and HBM is only read. -/
theorem snapStarts_of_jobs {ps : List Part} {m n : Module} (j : Nat) (h : KeepsBut ps m n) (hs : ∀ p ∈ ps, p ∈ snapParts)
    (hj : Part.jobs ∉ ps) (hn : SoundHbm m n) : SnapStarts j m n := by
  have e : ∀ i, n.job i = m.job i := fun i => congrArg (fun l => l.getD i Job.free) (h .jobs hj)
  exact ⟨keeps_mono h hs, hn, fun i _ => e i, (m.job j).pendingSnap, e j⟩

/-- The jobs stay, and what changes is none of HBM. -/
theorem snapStarts_of_keeps {ps : List Part} {m n : Module} (j : Nat) (h : KeepsBut ps m n) (hs : ∀ p ∈ ps, p ∈ snapParts)
    (hj : Part.jobs ∉ ps) (hh : Part.hbm ∉ ps) (hp : Part.hbmPoison ∉ ps) : SnapStarts j m n :=
  snapStarts_of_jobs j h hs hj (soundHbm_of_keeps h hh hp)

theorem snapStarts_pending (m : Module) (j : Nat) (x : Job → Option (Nat × List Byte)) :
    SnapStarts j m (m.onJob j (fun b => { b with pendingSnap := x b })) := by
  refine ⟨keeps_mono (keeps_onJob m j _) (by decide), soundHbm_of_keeps (keeps_onJob m j _) (by decide) (by decide),
    fun i hi => job_onJob_other m j i _ hi, ?_⟩
  rw [job_onJob]
  split
  · exact ⟨_, rfl⟩
  · exact ⟨(m.job j).pendingSnap, rfl⟩

theorem snapStarts_startSnapshot (fu : Fuses) (m : Module) (j interval : Nat) : SnapStarts j m (m.startSnapshot fu j interval) := by
  have refl : ∀ n : Module, SnapStarts j n n := fun n =>
    snapStarts_of_keeps (ps := []) j (keeps_refl [] n) (by decide) (by decide) (by decide) (by decide)
  have event : ∀ (n : Module) c l, SnapStarts j n (n.event fu c l) := fun n c l =>
    snapStarts_of_keeps j (keeps_still (still_event fu n c l)) (by decide) (by decide) (by decide) (by decide)
  unfold Module.startSnapshot
  dsimp only
  refine snapStarts_ite (refl m) ?_
  generalize hR : m.hbmReads fu j _ = R
  have read : SnapStarts j m R := hR ▸
    snapStarts_of_jobs j (keeps_hbmReads fu m j _) (by decide) (by decide) (soundHbm_hbmReads fu m j _)
  refine snapStarts_trans read (snapStarts_ite (event _ _ _) (snapStarts_ite (event _ _ _) ?_))
  generalize hP : (R.onJob j _).onStore _ = P
  have kept : SnapStarts j R P := by
    rw [← hP]
    exact snapStarts_trans (snapStarts_pending R j _)
      (snapStarts_of_keeps j (keeps_onStore _ _) (by decide) (by decide) (by decide) (by decide))
  refine snapStarts_trans kept (snapStarts_ite (refl P) ?_)
  generalize hS : (P.onRope _).sendOthers 3 _ = S
  have sent : SnapStarts j P S := by
    rw [← hS]
    exact snapStarts_trans (snapStarts_of_keeps j (keeps_onRope P _) (by decide) (by decide) (by decide) (by decide))
      (snapStarts_of_keeps j (keeps_sendOthers _ 3 _) (by decide) (by decide) (by decide) (by decide))
  refine snapStarts_trans sent (snapStarts_ite (refl S) ?_)
  exact snapStarts_of_keeps j (kb_foldl _ _ (fun m f => keeps_sendBond m 1 f) S) (by decide) (by decide) (by decide) (by decide)

/-! ### The commit -/

/-- What follows the commit or the abandonment of a step: the captures and the judging of the bonds leave the jobs and the
cores, and only read HBM. -/
theorem boundary_keeps (fu : Fuses) (m : Module) (j : Nat) : KeepsBut boundaryParts m ((m.captureAll fu j).judgeIdle fu j) :=
  keeps_trans (keeps_mono (keeps_captureAll fu m j) (by decide)) (keeps_mono (keeps_judgeIdle fu _ j) (by decide))

theorem soundHbm_judgeIdle (fu : Fuses) (m : Module) (j : Nat) : SoundHbm m (m.judgeIdle fu j) :=
  soundHbm_of_keeps (keeps_judgeIdle fu m j) (by decide) (by decide)

/-- Biases and next exponents have been decided for job `j`, and events raised; nothing else changed. -/
structure Decides (j : Nat) (m n : Module) : Prop where
  keeps : KeepsBut [.jobs, .od, .log, .report] m n
  others : OtherJobs j m n
  own : ∃ bias next, n.job j = { m.job j with run := { (m.job j).run with bias := bias, nextExp := next } }

theorem decides_refl (j : Nat) (m : Module) : Decides j m m := ⟨keeps_refl _ m, fun _ _ => rfl, (m.job j).run.bias, (m.job j).run.nextExp, rfl⟩

theorem decides_trans {j : Nat} {a b c : Module} (h : Decides j a b) (k : Decides j b c) : Decides j a c := by
  obtain ⟨x, y, hb⟩ := h.own
  obtain ⟨x', y', hc⟩ := k.own
  exact ⟨keeps_trans h.keeps k.keeps, fun i hi => (k.others i hi).trans (h.others i hi), x', y', by rw [hc, hb]⟩

theorem decides_foldl {α : Type} (j : Nat) (l : List α) (f : Module → α → Module) (hf : ∀ m a, Decides j m (f m a)) (m : Module) :
    Decides j m (l.foldl f m) := by
  induction l generalizing m with
  | nil => exact decides_refl j m
  | cons a l ih => exact decides_trans (hf m a) (ih _)

theorem decides_onRun (m : Module) (j : Nat) (x : Run → List (Nat × Nat × Nat)) (y : Run → List (Nat × Int)) :
    Decides j m (m.onRun j (fun r => { r with bias := x r, nextExp := y r })) := by
  refine ⟨keeps_mono (keeps_onRun m j _) (by decide), fun i hi => job_onRun_other m j i _ hi, ?_⟩
  rw [Module.onRun, job_onJob]
  split
  · exact ⟨_, _, rfl⟩
  · exact ⟨(m.job j).run.bias, (m.job j).run.nextExp, rfl⟩

theorem decides_event (fu : Fuses) (m : Module) (j c : Nat) (l : List Nat) : Decides j m (m.event fu c l) :=
  ⟨keeps_mono (keeps_still (still_event fu m c l)) (by decide), fun i _ => job_of_event fu m c l i, (m.job j).run.bias,
    (m.job j).run.nextExp, job_of_event fu m c l j⟩

theorem decides_setBias (fu : Fuses) (m : Module) (j t n : Nat) : Decides j m (m.setBias fu j t n) := by
  unfold Module.setBias
  dsimp only
  split
  · exact decides_refl j m
  · generalize hR : m.onRun j _ = R
    have set : Decides j m R := by rw [← hR]; exact decides_onRun m j _ Run.nextExp
    split
    · exact decides_trans set (decides_event fu R j _ _)
    · exact set

theorem decides_setNextExp (fu : Fuses) (m : Module) (j t sg : Nat) : Decides j m (m.setNextExp fu j t sg) := by
  unfold Module.setNextExp
  dsimp only
  generalize hR : m.onRun j _ = R
  have set : Decides j m R := by rw [← hR]; exact decides_onRun m j Run.bias _
  split
  · exact decides_trans set (decides_event fu R j _ _)
  · exact set

theorem decides_ownExponents (fu : Fuses) (m : Module) (j : Nat) : Decides j m (m.ownExponents fu j) :=
  decides_foldl j _ _ (fun m t => decides_trans (decides_setBias fu m j t 1)
    (decides_foldl j _ _ (fun m sg => decides_setNextExp fu m j t sg) _)) m

/-- The descriptors after a commit (R49, R63). -/
def committedDescs (b : Job) : List ScaleDesc :=
  (b.descs.zipIdx).map (fun d => ((b.withBias d.2 d.1).commit (b.histEntry d.2 d.1)).1)

theorem commitDescs_jobs (fu : Fuses) (m : Module) (j : Nat) :
    (m.commitDescs fu j).jobs = (m.onJob j (fun b => { b with descs := committedDescs (m.job j) })).jobs := by
  unfold Module.commitDescs
  dsimp only
  rw [foldl_keep Module.jobs _ _ (fun m x => event_jobs fu m _ _), List.map_map]
  rfl

theorem keeps_commitDescs (fu : Fuses) (m : Module) (j : Nat) : KeepsBut [.jobs, .od, .log, .report] m (m.commitDescs fu j) :=
  keeps_trans (keeps_mono (keeps_onJob m j _) (by decide))
    (kb_foldl _ _ (fun m _ => keeps_mono (keeps_still (still_event fu m _ _)) (by decide)) _)

/-- A descriptor that is not of a braid-8 tensor takes its step's maximum (R49). -/
theorem committedDescs_getElem? (b : Job) {i : Nat} {d : ScaleDesc} (h : b.descs[i]? = some d) (hf : d.fmt ≠ 0xB) :
    (committedDescs b)[i]? = some (d.commit d.stepMaxExp).1 := by
  have bias : b.withBias i d = d := by
    unfold Job.withBias
    split
    · rfl
    · rw [if_neg hf]
  have entry : b.histEntry i d = d.stepMaxExp := by
    rw [Job.histEntry, if_pos (by simpa using hf)]
  rw [committedDescs, List.getElem?_map, List.getElem?_zipIdx, h]
  simp [bias, entry]

/-- What the commit makes of a job before its run ends (R49, R240, R242, R307). -/
def committed (b : Job) : Job :=
  { b with descs := committedDescs b, step := (b.step + 1) % 2 ^ 32, halfBits := b.flipHalves, expTab := b.commitExps,
           factored := b.factored.map Factored.restart,
           slots := b.slots.map (fun s => if s.state = 2 then { s with setSteps := s.setSteps + 1 } else s) }

/-- The module when the step of job `j` has committed and nothing is captured yet. -/
structure Commits (j : Nat) (m n : Module) : Prop where
  keeps : KeepsBut boundaryParts m n
  sound : SoundHbm m n
  others : OtherJobs j m n
  own : ∃ bias next, n.job j =
    { committed { m.job j with run := { (m.job j).run with bias := bias, nextExp := next } } with state := 2, run := (m.job j).run.idle } ∧
    (m.inRope j = true → next = (m.job j).run.nextExp)
  cores : ∀ g ∈ m.liveCores j, n.core g = (m.core g).stop 0

/-- The commit without its captures, its state snapshot and the judging of the bonds. -/
def commitsAlone (fu : Fuses) (m : Module) (j waitUs : Nat) : Module :=
  let m := if m.inRope j then m else m.ownExponents fu j
  let m := m.commitDescs fu j
  let m := m.onJob j (fun b => { b with
    step := (b.step + 1) % 2 ^ 32, halfBits := b.flipHalves, expTab := b.commitExps,
    factored := b.factored.map Factored.restart,
    slots := b.slots.map (fun s => if s.state = 2 then { s with setSteps := s.setSteps + 1 } else s) })
  let m := (m.bump (odKey 0x3230 1) 1).bump (odKey 0x3230 3) waitUs
  let m := if (m.job j).run.accept then m.odSet (odKey 0x3230 11) 0xFF else m
  let m := m.answerSteps j stOk
  let m := (m.job j).cores.foldl (fun (m : Module) g => m.onCore g (fun c => c.stop 0)) m
  m.onJob j (fun b => { b with state := 2, run := b.run.idle })

theorem commitStep_eq (fu : Fuses) (m : Module) (j waitUs : Nat) :
    m.commitStep fu j waitUs = (((commitsAlone fu m j waitUs).captureAll fu j).startSnapshot fu j
      ((m.job j).run.latched (odKey 0x7140 1))).judgeIdle fu j := rfl

theorem commits_commitsAlone (fu : Fuses) (m : Module) (j waitUs : Nat) (h3 : (m.job j).state = 3) :
    Commits j m (commitsAlone fu m j waitUs) := by
  unfold commitsAlone
  dsimp only
  generalize hE : (if m.inRope j = true then m else m.ownExponents fu j) = E
  have decided : Decides j m E ∧ (m.inRope j = true → E = m) := by
    rw [← hE]
    split
    · exact ⟨decides_refl j m, fun _ => rfl⟩
    · exact ⟨decides_ownExponents fu m j, fun h => absurd h ‹_›⟩
  obtain ⟨⟨Ekeeps, Eothers, bias, next, Eown⟩, Erope⟩ := decided
  have El : j < E.jobs.length := job_lt (by rw [Eown]; simp [h3])
  generalize hD : (E.commitDescs fu j).onJob j _ = D
  have Dkeeps : KeepsBut [.jobs, .od, .log, .report] E D := by
    rw [← hD]
    exact keeps_trans (keeps_commitDescs fu E j) (keeps_mono (keeps_onJob _ j _) (by decide))
  have Djob : ∀ i, D.job i = if i = j then committed (E.job j) else E.job i := by
    have Cjobs := commitDescs_jobs fu E j
    have Cjob : ∀ i, (E.commitDescs fu j).job i = if i = j then { E.job j with descs := committedDescs (E.job j) } else E.job i := by
      intro i
      rw [Module.job, Cjobs]
      exact (job_onJob E j i _).trans (by simp [El])
    intro i
    rw [← hD, job_onJob, Cjobs, onJob_len]
    by_cases e : i = j
    · subst e
      rw [if_pos ⟨rfl, El⟩, if_pos rfl, Cjob, if_pos rfl]
      rfl
    · rw [if_neg (fun h => e h.1), if_neg e, Cjob, if_neg e]
  generalize hG : (D.bump _ 1).bump _ waitUs = G
  generalize hF : (if (G.job j).run.accept = true then _ else G) = F
  have Fkeeps : KeepsBut [.od] D F := by
    rw [← hF, ← hG]
    exact keeps_ite (by simp [keeps_refl]) (by simp [keeps_refl])
  generalize hK : (((F.answerSteps j stOk).job j).cores.foldl _ (F.answerSteps j stOk)) = K
  have Kkeeps : KeepsBut [.cores, .queues] F K := by
    rw [← hK]
    exact keeps_trans (keeps_mono (keeps_answerSteps F j stOk) (by decide))
      (kb_foldl _ _ (fun m g => keeps_mono (keeps_onCore m g _) (by decide)) _)
  have all : KeepsBut [.cores, .jobs, .queues, .od, .log, .report] m (K.onJob j (fun b => { b with state := 2, run := b.run.idle })) :=
    keeps_trans (keeps_mono Ekeeps (by decide)) (keeps_trans (keeps_mono Dkeeps (by decide))
      (keeps_trans (keeps_mono Fkeeps (by decide)) (keeps_trans (keeps_mono Kkeeps (by decide)) (keeps_mono (keeps_onJob K j _) (by decide)))))
  have Kjob : ∀ i, K.job i = D.job i := fun i =>
    congrArg (fun l => l.getD i Job.free) ((Kkeeps .jobs (by decide)).trans (Fkeeps .jobs (by decide)))
  have Dj : D.job j = committed (E.job j) := (Djob j).trans (if_pos rfl)
  have Kl : j < K.jobs.length := job_lt (by rw [Kjob, Dj, Eown]; simp [committed, h3])
  refine ⟨keeps_mono all (by decide), soundHbm_of_keeps all (by decide) (by decide), fun i hi => ?_, ⟨bias, next, ?_, ?_⟩, fun g hg => ?_⟩
  · rw [job_onJob_other _ _ _ _ hi, Kjob, Djob, if_neg hi, Eothers i hi]
  · rw [job_onJob_self _ _ _ Kl, Kjob, Dj, Eown]
    rfl
  · intro h
    rw [Erope h] at Eown
    exact congrArg (fun b => b.run.nextExp) Eown.symm
  · obtain ⟨hmem, hlive⟩ := List.mem_filter.mp hg
    have Hcores : (F.answerSteps j stOk).cores = m.cores :=
      (answerSteps_cores F j stOk).trans ((Fkeeps .cores (by decide)).trans ((Dkeeps .cores (by decide)).trans (Ekeeps .cores (by decide))))
    have Hcores' : ((F.answerSteps j stOk).job j).cores = (m.job j).cores := by
      rw [Module.job, answerSteps_jobs, Fkeeps .jobs (by decide)]
      exact (congrArg Job.cores Dj).trans (by rw [Eown]; rfl)
    rw [core_of_onJob, ← hK, core_foldl_stop _ _ (by rw [Hcores]; exact live_lt hlive), Hcores', if_pos hmem, core_congr Hcores]

/-- The job that has committed, with its state snapshot begun where one is due. -/
theorem commitStep_ok (fu : Fuses) (m : Module) (j waitUs : Nat) (h3 : (m.job j).state = 3) :
    let n := m.commitStep fu j waitUs
    let b := m.job j
    (n.job j).state = 2 ∧ (n.job j).step = (b.step + 1) % 2 ^ 32 ∧ (n.job j).halfBits = b.flipHalves ∧
      (n.job j).run = b.run.idle ∧ (m.inRope j = true → (n.job j).expTab = b.commitExps) ∧
      (n.job j).slots = b.slots.map (fun v => if v.state = 2 then { v with setSteps := v.setSteps + 1 } else v) ∧
      (∀ (i : Nat) (d : ScaleDesc), b.descs[i]? = some d → d.fmt ≠ 0xB → (n.job j).descs[i]? = some (d.commit d.stepMaxExp).1) ∧
      (∀ g ∈ m.liveCores j, n.core g = (m.core g).stop 0) ∧ SoundHbm m n ∧ OtherJobs j m n ∧ KeepsBut boundaryParts m n := by
  intro n b
  obtain ⟨keeps, sound, others, ⟨bias, next, own, rope⟩, cores⟩ := commits_commitsAlone fu m j waitUs h3
  have hn : n = _ := commitStep_eq fu m j waitUs
  generalize commitsAlone fu m j waitUs = X at *
  have Akeeps := keeps_captureAll fu X j
  have Asound := soundHbm_captureAll fu X j
  generalize X.captureAll fu j = A at *
  obtain ⟨Bkeeps, Bsound, Bothers, p, Bown⟩ := snapStarts_startSnapshot fu A j (b.run.latched (odKey 0x7140 1))
  generalize A.startSnapshot fu j _ = B at *
  have Nkeeps := keeps_judgeIdle fu B j
  have Nsound := soundHbm_judgeIdle fu B j
  rw [← hn] at Nkeeps Nsound
  have Ajob : ∀ i, A.job i = X.job i := fun i => congrArg (fun l => l.getD i Job.free) (Akeeps .jobs (by decide))
  have Njob : ∀ i, n.job i = B.job i := fun i => congrArg (fun l => l.getD i Job.free) (Nkeeps .jobs (by decide))
  have Ncores : n.cores = X.cores := (Nkeeps .cores (by decide)).trans ((Bkeeps .cores (by decide)).trans (Akeeps .cores (by decide)))
  have job : n.job j = { X.job j with pendingSnap := p } := by rw [Njob, Bown, Ajob]
  rw [job, own]
  refine ⟨rfl, rfl, rfl, rfl, fun h => by rw [rope h]; rfl, rfl, fun i d hd hf => ?_, fun g hg => ?_, ?_, fun i hi => ?_, ?_⟩
  · exact committedDescs_getElem? _ hd hf
  · rw [core_congr Ncores, cores g hg]
  · exact soundHbm_trans sound (soundHbm_trans Asound (soundHbm_trans Bsound Nsound))
  · rw [Njob, Bothers i hi, Ajob, others i hi]
  · exact keeps_trans keeps (keeps_trans (keeps_mono Akeeps (by decide)) (keeps_trans (keeps_mono Bkeeps (by decide))
      (keeps_mono Nkeeps (by decide))))

/-! ### The abandonment -/

/-- A step that does not commit: its job is LOADED with nothing of the step, and HBM is only read (R50, R203). -/
theorem abandonStep_ok (fu : Fuses) (m : Module) (j st : Nat) (h3 : (m.job j).state = 3) :
    let n := m.abandonStep fu j st
    let b := m.job j
    n.job j = { b with state := 2, descs := b.descs.map ScaleDesc.dropStep, run := b.run.idle } ∧ SoundHbm m n ∧
      OtherJobs j m n ∧ KeepsBut boundaryParts m n := by
  intro n b
  obtain ⟨-, -, -, -, others⟩ := abandon_job fu m j st h3
  have keeps := keeps_abandon fu m j st
  have hn : n = m.abandonStep fu j st := rfl
  unfold Module.abandonStep at hn
  dsimp only at hn
  rw [if_neg (by simp [h3])] at hn
  generalize hK : (((m.endFlights fu j stCancelled).job j).cores.foldl _ _ : Module).answerSteps j st = K at hn
  have Kkeeps : KeepsBut [.cores, .queues, .od, .log, .report] m K := by
    rw [← hK, kb_answerSteps _ _ (by decide)]
    exact keeps_trans (keeps_mono (keeps_endFlights fu m j _) (by decide))
      (kb_foldl _ _ (fun m g => keeps_mono (keeps_onCore m g _) (by decide)) _)
  generalize hL : (K.onJob j _).bump _ _ = L at hn
  have Lkeeps : KeepsBut [.jobs, .od] K L := by rw [← hL]; simp [keeps_refl]
  have Ljob : L.job j = { b with state := 2, descs := b.descs.map ScaleDesc.dropStep, run := b.run.idle } := by
    have Kjobs : K.jobs = m.jobs := Kkeeps .jobs (by decide)
    have Kjob : K.job j = b := congrArg (fun l => l.getD j Job.free) Kjobs
    rw [← hL, job_of_bump, job_onJob_self _ _ _ (by rw [Kjobs]; exact job_lt (by simp [h3])), Kjob]
  refine ⟨?_, ?_, others, keeps⟩
  · have jobs : n.jobs = L.jobs := by
      rw [hn]
      exact (keeps_judgeIdle fu _ j .jobs (by decide)).trans (keeps_captureAll fu L j .jobs (by decide))
    rw [← Ljob]
    exact congrArg (fun l => l.getD j Job.free) jobs
  · rw [hn]
    exact soundHbm_trans (soundHbm_trans (soundHbm_of_keeps Kkeeps (by decide) (by decide)) (soundHbm_of_keeps Lkeeps (by decide) (by decide)))
      (soundHbm_trans (soundHbm_captureAll fu L j) (soundHbm_judgeIdle fu _ j))

/-! ### The statement -/

/-- An acceptance test reads its references first (R487). -/
def acceptReads (fu : Fuses) (m : Module) (j : Nat) : Module :=
  if (m.job j).run.accept then m.hbmReads fu j ((m.job j).prog.refs.map (m.job j).refRange) else m

theorem acceptReads_keeps (fu : Fuses) (m : Module) (j : Nat) : KeepsBut hbmReading m (acceptReads fu m j) :=
  keeps_ite (keeps_hbmReads fu m j _) (keeps_refl _ m)

theorem soundHbm_acceptReads (fu : Fuses) (m : Module) (j : Nat) : SoundHbm m (acceptReads fu m j) :=
  soundHbm_ite (soundHbm_hbmReads fu m j _) (soundHbm_refl m)

theorem inRope_acceptReads (fu : Fuses) (m : Module) (j : Nat) : (acceptReads fu m j).inRope j = m.inRope j := by
  unfold acceptReads
  split
  · exact inRope_hbmReads fu m j j _
  · rfl

/-- The module that an acceptance test which differs leaves before the step is abandoned (R487). -/
def acceptFailed (fu : Fuses) (m : Module) (j e : Nat) : Module :=
  ((acceptReads fu m j).event fu 0x0396 [j, ((acceptReads fu m j).job j).step, e]).odSet (odKey 0x3230 11) 0xFF

theorem acceptFailed_keeps (fu : Fuses) (m : Module) (j e : Nat) : KeepsBut hbmReading m (acceptFailed fu m j e) := by
  unfold acceptFailed
  rw [kb_odSet _ _ (by decide), kb_event _ _ _ (by decide) (by decide) (by decide)]
  exact acceptReads_keeps fu m j

theorem soundHbm_acceptFailed (fu : Fuses) (m : Module) (j e : Nat) : SoundHbm m (acceptFailed fu m j e) :=
  soundHbm_trans (soundHbm_acceptReads fu m j) (soundHbm_of_keeps (ps := [.od, .log, .report])
    (by unfold acceptFailed; simp [keeps_refl]) (by decide) (by decide))

theorem exec_stepCommit {s : State} {j : Nat} (us : Nat) (hj : j < 16) (hw : s.m.powered = true)
    (hc : s.m.canCommitStep j = true) :
    exec (.stepCommit j us) s = .next { s with m := match s.m.acceptFails j with
      | some e => (acceptFailed s.fuse s.m j e).abandonStep s.fuse j stCheck
      | none => (acceptReads s.fuse s.m j).commitStep s.fuse j us } := by
  refine (actOn_powered s _ _ (decide_eq_true hj) hw).trans ?_
  dsimp only
  rw [hc]
  rfl

theorem canCommitStep_state {m : Module} {j : Nat} (hc : m.canCommitStep j = true) : (m.job j).state = 3 := by
  simp only [Module.canCommitStep, Bool.and_eq_true, beq_iff_eq] at hc
  obtain ⟨⟨⟨⟨⟨⟨⟨⟨h, -⟩, -⟩, -⟩, -⟩, -⟩, -⟩, -⟩, -⟩ := hc
  exact h

/-- Settles O41: the step commits as a whole, or its acceptance test differs and it is abandoned. -/
theorem stepsCommitAsAWhole : Obligations.StepsCommitAsAWhole := by
  unfold Obligations.StepsCommitAsAWhole
  intro s j us hj hw hc b sound
  have h3 := canCommitStep_state hc
  have run := exec_stepCommit us hj hw hc
  refine ⟨fun hn => ?_, fun e he => ?_⟩
  · rw [hn] at run
    dsimp only at run
    have rkeeps := acceptReads_keeps s.fuse s.m j
    have rsound := soundHbm_acceptReads s.fuse s.m j
    have rrope := inRope_acceptReads s.fuse s.m j
    generalize acceptReads s.fuse s.m j = R at *
    have Rjob : ∀ i, R.job i = s.m.job i := fun i => congrArg (fun l => l.getD i Job.free) (rkeeps .jobs (by decide))
    have Rcore : ∀ g, R.core g = s.m.core g := core_congr (rkeeps .cores (by decide))
    have Rlive : R.liveCores j = s.m.liveCores j := live_filter (by rw [Rjob]) (fun g => by rw [Rcore])
    obtain ⟨state, step, half, idle, exps, slots, descs, cores, hbm, others, keeps⟩ :=
      commitStep_ok s.fuse R j us (by rw [Rjob, h3])
    rw [Rjob] at step half idle exps slots descs
    rw [rrope] at exps
    rw [Rlive] at cores
    refine ⟨_, run, rfl, rfl, ?_⟩
    dsimp only
    exact ⟨state, step, half, idle, exps, slots, descs, fun g hg => (cores g hg).trans (by rw [Rcore]),
      (soundHbm_trans rsound hbm).2, fun i hi => (others i hi).trans (Rjob i), keeps_trans (keeps_mono rkeeps (by decide)) keeps⟩
  · rw [he] at run
    dsimp only at run
    have ekeeps := acceptFailed_keeps s.fuse s.m j e
    have esound := soundHbm_acceptFailed s.fuse s.m j e
    generalize acceptFailed s.fuse s.m j e = E at *
    have Ejob : ∀ i, E.job i = s.m.job i := fun i => congrArg (fun l => l.getD i Job.free) (ekeeps .jobs (by decide))
    obtain ⟨own, hbm, others, keeps⟩ := abandonStep_ok s.fuse E j stCheck (by rw [Ejob, h3])
    rw [Ejob] at own
    refine ⟨_, run, rfl, rfl, ?_⟩
    dsimp only
    rw [own]
    exact ⟨rfl, rfl, rfl, rfl, rfl, rfl, (soundHbm_trans esound hbm).2, fun i hi => (others i hi).trans (Ejob i),
      keeps_trans (keeps_mono ekeeps (by decide)) keeps⟩

end Sys2Proof.Proofs
end

section
/-!
PROOFS. Sums of a rope (R57, R280, R301, R302, R304, R320): a segment summed and passed on, comparisons that end, a node's trailer
and the commit of resync data.
-/
namespace Sys2Proof.Proofs

open Sys2Proof.Machine Sys2Proof.Laws

/-! ### A job but for its run -/

/-- Every job is as it was but for its run. -/
def RunsOnly (m n : Module) : Prop := ∀ i, ∃ r, n.job i = { m.job i with run := r }

theorem runsOnly_of_jobs {m n : Module} (h : n.jobs = m.jobs) : RunsOnly m n := fun i =>
  ⟨(m.job i).run, congrArg (fun l => l.getD i Job.free) h⟩

theorem runsOnly_trans {a b c : Module} (h : RunsOnly a b) (k : RunsOnly b c) : RunsOnly a c := fun i => by
  obtain ⟨r, hr⟩ := h i
  obtain ⟨q, hq⟩ := k i
  exact ⟨q, by rw [hq, hr]⟩

theorem runsOnly_foldl {α : Type} (l : List α) (f : Module → α → Module) (hf : ∀ m a, RunsOnly m (f m a)) (m : Module) :
    RunsOnly m (l.foldl f m) := by
  induction l generalizing m with
  | nil => exact runsOnly_of_jobs rfl
  | cons a l ih => exact runsOnly_trans (hf m a) (ih _)

theorem runsOnly_onBucket (m : Module) (j k : Nat) (f : Bucket → Bucket) : RunsOnly m (m.onBucket j k f) :=
  fun i => job_onRun m j i _

/-! ### A segment's sum -/

/-- The places of its sums and of its rope are functions of the dictionary. -/
theorem rank_of_od {m n : Module} (h : n.od = m.od) : n.rank = m.rank := odGet_congr h _
theorem ropeSize_of_od {m n : Module} (h : n.od = m.od) : n.ropeSize = m.ropeSize := odGet_congr h _
theorem ropeJob_of_od {m n : Module} (h : n.od = m.od) : n.ropeJob = m.ropeJob := odGet_congr h _
theorem ropeEpoch_of_od {m n : Module} (h : n.od = m.od) : n.ropeEpoch = m.ropeEpoch := odGet_congr h _

/-- A segment's maximum is noted in the rope job's run alone, where no frame reads it. -/
theorem noteSegMax_jobs (m : Module) (k sg : Nat) (mx : Option Int) :
    ∃ f : Run → Run, (∀ r, ∃ x, f r = { r with segMax := x }) ∧ m.noteSegMax k sg mx = m.onRun m.ropeJob f ∨
      m.noteSegMax k sg mx = m := by
  unfold Module.noteSegMax
  split
  · exact ⟨_, .inl ⟨fun r => ⟨_, rfl⟩, rfl⟩⟩
  · exact ⟨id, .inr rfl⟩

theorem keeps_noteSegMax (m : Module) (k sg : Nat) (mx : Option Int) : KeepsBut [.jobs] m (m.noteSegMax k sg mx) := by
  obtain ⟨f, ⟨-, e⟩ | e⟩ := noteSegMax_jobs m k sg mx <;> rw [e]
  · exact keeps_onRun m _ f
  · exact keeps_refl _ m

theorem job_noteSegMax (m : Module) (k sg : Nat) (mx : Option Int) (i : Nat) :
    ∃ x, (m.noteSegMax k sg mx).job i = { m.job i with run := { (m.job i).run with segMax := x } } := by
  obtain ⟨f, ⟨hf, e⟩ | e⟩ := noteSegMax_jobs m k sg mx <;> rw [e]
  · obtain ⟨x, hx⟩ := hf (m.job m.ropeJob).run
    rw [Module.onRun, job_onJob]
    split
    · rename_i h
      exact ⟨x, by rw [h.1, hx]⟩
    · exact ⟨(m.job i).run.segMax, rfl⟩
  · exact ⟨(m.job i).run.segMax, rfl⟩

/-- A frame carries of the module what its dictionary, its job's attempt and step give. -/
theorem frameBase_congr {m n : Module} (t : Nat) (ho : n.od = m.od)
    (hr : (n.job m.ropeJob).run.ropeAttempt = (m.job m.ropeJob).run.ropeAttempt) (hs : (n.job m.ropeJob).step = (m.job m.ropeJob).step) :
    n.frameBase t = m.frameBase t := by
  simp only [Module.frameBase, rank_of_od ho, ropeJob_of_od ho, ropeEpoch_of_od ho, hr, hs]

theorem keeps_keepSum (m : Module) (k sg : Nat) (codes : List Nat) : KeepsBut [.jobs, .hbm, .hbmPoison] m (m.keepSum k sg codes) := by
  unfold Module.keepSum
  refine kb_foldl _ _ (fun n c => ?_) m
  dsimp only
  split
  · exact keeps_refl _ n
  refine keeps_ite (keeps_refl _ n) ?_
  split
  · exact keeps_mono (keeps_onBucket n _ k _) (by decide)
  · obtain ⟨-, -, stored, -⟩ := same_storeAt (n.onBucket m.ropeJob k _) m.ropeJob _ _ _
    exact keeps_trans (keeps_mono (keeps_onBucket n _ k _) (by decide)) stored

theorem runsOnly_keepSum (m : Module) (k sg : Nat) (codes : List Nat) : RunsOnly m (m.keepSum k sg codes) := by
  have store : ∀ (n : Module) j a bs bad, RunsOnly n (n.storeAt j 0 2 a bs bad) := fun n j a bs bad => runsOnly_of_jobs rfl
  unfold Module.keepSum
  refine runsOnly_foldl _ _ (fun n c => ?_) m
  dsimp only
  split
  · exact runsOnly_of_jobs rfl
  split
  · exact runsOnly_of_jobs rfl
  split
  · exact runsOnly_onBucket n _ k _
  · exact runsOnly_trans (runsOnly_onBucket n _ k _) (store _ _ _ _ _)

/-- The module whose adder has taken the inputs of a segment and holds its sum. -/
def summed (m : Module) (k sg : Nat) : Module :=
  (m.onRope (fun r => { r with
    inputs := r.inputs.filter (fun y => !(y.step == (m.job m.ropeJob).step && y.bucket == k && y.seg == sg)),
    sums := r.sums ++ [{ bucket := k, seg := sg, codes := (m.sumSegment k sg).1, maxExp := (m.sumSegment k sg).2,
                         sampled := m.sampled k sg, compared := false, bad := false }] })).noteSegMax k sg (m.sumSegment k sg).2

/-- The sum of a segment kept at rank 0, or sent to the parent. -/
def passesSum (m x : Module) (k sg : Nat) : Module :=
  if m.rank = 0 then x.keepSum k sg (m.sumSegment k sg).1
  else x.sendBond 0 { m.frameBase 3 with bucket := k, segment := sg, maxExp := byteI8 (m.sumSegment k sg).2,
                                         contrib := contributors m.ropeSize m.rank,
                                         payload := (m.sumSegment k sg).1.flatMap (leBytes 1) }

section
variable (m : Module) (k sg : Nat)

theorem keeps_summed : KeepsBut [.rope, .jobs] m (summed m k sg) :=
  keeps_trans (keeps_mono (keeps_onRope m _) (by decide)) (keeps_mono (keeps_noteSegMax _ k sg _) (by decide))

theorem summed_rope : (summed m k sg).rope = { m.rope with
    inputs := m.rope.inputs.filter (fun y => !(y.step == (m.job m.ropeJob).step && y.bucket == k && y.seg == sg)),
    sums := m.rope.sums ++ [{ bucket := k, seg := sg, codes := (m.sumSegment k sg).1, maxExp := (m.sumSegment k sg).2,
                              sampled := m.sampled k sg, compared := false, bad := false }] } :=
  keeps_noteSegMax _ k sg _ .rope (by decide)

theorem summed_od : (summed m k sg).od = m.od := keeps_summed m k sg .od (by decide)

theorem summed_frameBase (t : Nat) : (summed m k sg).frameBase t = m.frameBase t := by
  obtain ⟨x, hx⟩ := job_noteSegMax (m.onRope _) k sg (m.sumSegment k sg).2 m.ropeJob
  exact frameBase_congr t (summed_od m k sg) (by rw [summed, hx]; rfl) (by rw [summed, hx]; rfl)

theorem passesSum_od : (passesSum m (summed m k sg) k sg).od = m.od := by
  rw [← summed_od m k sg, passesSum]
  split
  · exact keeps_keepSum _ k sg _ .od (by decide)
  · exact keeps_sendBond _ 0 _ .od (by decide)

theorem passesSum_segCount : (passesSum m (summed m k sg) k sg).segCount k = m.segCount k := by
  have runs : RunsOnly m (passesSum m (summed m k sg) k sg) := by
    have first : RunsOnly m (summed m k sg) := fun i => by
      obtain ⟨x, hx⟩ := job_noteSegMax (m.onRope _) k sg (m.sumSegment k sg).2 i
      exact ⟨_, hx⟩
    refine runsOnly_trans first ?_
    rw [passesSum]
    split
    · exact runsOnly_keepSum _ k sg _
    · exact runsOnly_of_jobs (keeps_sendBond _ 0 _ .jobs (by decide))
  obtain ⟨r, hr⟩ := runs m.ropeJob
  simp only [Module.segCount, ropeJob_of_od (passesSum_od m k sg), hr]

end

/-- The last segment of a bucket has been passed on (R301, R302): at rank 0 the bucket is summed, elsewhere sent. -/
def bucketSummed (fu : Fuses) (y : Module) (j k : Nat) : Module :=
  let z := y.onBucket j k (fun v => { v with state := if y.rank = 0 then 3 else 2 })
  (if z.rank = 0 then z else z.bump (odKey 0x5210 6) 1).tryTrailer fu k

theorem bucketSummed_root (fu : Fuses) {y : Module} (j k : Nat) (h : y.rank = 0) :
    bucketSummed fu y j k = (y.onBucket j k (fun v => { v with state := 3 })).tryTrailer fu k := by
  have hz : ∀ f, (y.onBucket j k f).rank = 0 := fun f => h
  simp only [bucketSummed, if_pos h, hz]
  rfl

theorem bucketSummed_node (fu : Fuses) {y : Module} (j k : Nat) (h : y.rank ≠ 0) :
    bucketSummed fu y j k = ((y.onBucket j k (fun v => { v with state := 2 })).bump (odKey 0x5210 6) 1).tryTrailer fu k := by
  have hz : ∀ f, (y.onBucket j k f).rank ≠ 0 := fun f => h
  simp only [bucketSummed, if_neg h, if_neg (hz _)]

/-- The sum of a segment kept or passed on by a module as its own rank and size have it. -/
theorem passesSum_own (m : Module) (k sg : Nat) : passesSum m (summed m k sg) k sg =
    if (summed m k sg).rank = 0 then (summed m k sg).keepSum k sg (m.sumSegment k sg).1
    else (summed m k sg).sendBond 0 { (summed m k sg).frameBase 3 with
      bucket := k, segment := sg, maxExp := byteI8 (m.sumSegment k sg).2,
      contrib := contributors (summed m k sg).ropeSize (summed m k sg).rank, payload := (m.sumSegment k sg).1.flatMap (leBytes 1) } := by
  rw [rank_of_od (summed_od m k sg), ropeSize_of_od (summed_od m k sg), summed_frameBase, passesSum]

theorem exec_segmentSum {s : State} {k sg : Nat} (hw : s.m.powered = true) (hr : s.m.inRope s.m.ropeJob = true)
    (h3 : (s.m.job s.m.ropeJob).state = 3) (hm : (s.m.job s.m.ropeJob).run.mustReplay = none) (hk : s.m.nextBucket = some k)
    (hs : (s.m.sumsOf k).length = sg) (h0 : s.m.inputReady k sg 0 = true) (h1 : s.m.inputReady k sg 1 = true) :
    exec (.segmentSum k sg) s = .next { s with
      m := (if sg + 1 < s.m.segCount k then passesSum s.m (summed s.m k sg) k sg
            else bucketSummed s.fuse (passesSum s.m (summed s.m k sg) k sg) s.m.ropeJob k) } := by
  rw [← passesSum_segCount, passesSum_own]
  refine congrArg (fun m => Host.Outcome.next { s with m := m }) (if_neg ?_)
  simp [hw, hr, h3, hm, hk, hs, h0, h1]

theorem goes_segmentSum {s : State} {k sg : Nat} (hw : s.m.powered = true) (hr : s.m.inRope s.m.ropeJob = true)
    (h3 : (s.m.job s.m.ropeJob).state = 3) (hm : (s.m.job s.m.ropeJob).run.mustReplay = none) (hk : s.m.nextBucket = some k)
    (hs : (s.m.sumsOf k).length = sg) (h0 : s.m.inputReady k sg 0 = true) (h1 : s.m.inputReady k sg 1 = true) :
    let m := s.m
    Goes s (.segmentSum k sg) (fun n => ∃ x y : Module,
      x.rope = { m.rope with
        inputs := m.rope.inputs.filter (fun y => !(y.step == (m.job m.ropeJob).step && y.bucket == k && y.seg == sg)),
        sums := m.rope.sums ++ [{ bucket := k, seg := sg, codes := (m.sumSegment k sg).1, maxExp := (m.sumSegment k sg).2,
                                  sampled := m.sampled k sg, compared := false, bad := false }] } ∧
      KeepsBut [.rope, .jobs] m x ∧
      (m.rank = 0 → y = x.keepSum k sg (m.sumSegment k sg).1) ∧
      (m.rank ≠ 0 → KeepsBut [.hawsers] x y ∧
        y = x.sendBond 0 { m.frameBase 3 with bucket := k, segment := sg, maxExp := byteI8 (m.sumSegment k sg).2,
                                              contrib := contributors m.ropeSize m.rank,
                                              payload := (m.sumSegment k sg).1.flatMap (leBytes 1) }) ∧
      (sg + 1 < m.segCount k → n = y) ∧
      (m.segCount k ≤ sg + 1 → m.rank = 0 → n = (y.onBucket m.ropeJob k (fun v => { v with state := 3 })).tryTrailer s.fuse k) ∧
      (m.segCount k ≤ sg + 1 → m.rank ≠ 0 →
        n = ((y.onBucket m.ropeJob k (fun v => { v with state := 2 })).bump (odKey 0x5210 6) 1).tryTrailer s.fuse k)) := by
  intro m
  have yrank : (passesSum m (summed m k sg) k sg).rank = m.rank := rank_of_od (passesSum_od m k sg)
  refine ⟨_, exec_segmentSum hw hr h3 hm hk hs h0 h1, rfl, rfl, summed m k sg, passesSum m (summed m k sg) k sg, summed_rope m k sg,
    keeps_summed m k sg, fun h => if_pos h, fun h => ?_, fun h => if_pos h, fun h h0 => ?_, fun h h0 => ?_⟩
  · rw [passesSum, if_neg h]
    exact ⟨keeps_sendBond _ _ _, rfl⟩
  · exact (if_neg (Nat.not_lt.mpr h)).trans (bucketSummed_root s.fuse _ k (yrank.trans h0))
  · exact (if_neg (Nat.not_lt.mpr h)).trans (bucketSummed_node s.fuse _ k (yrank.trans_ne h0))

/-! ### Comparisons and trailers -/

/-- A comparison that ends: its sum is compared, and it counts (R304). -/
def comparedSum (m : Module) (k sg : Nat) (bad : Bool) : Module :=
  (m.onRope (fun r => { r with sums := r.sums.map (fun x =>
    if x.bucket = k && x.seg = sg then { x with compared := true, bad := bad } else x) })).bump (odKey 0x7110 2) 1

theorem comparedSum_rope (m : Module) (k sg : Nat) (bad : Bool) : (comparedSum m k sg bad).rope = { m.rope with
    sums := m.rope.sums.map (fun y => if y.bucket = k ∧ y.seg = sg then { y with compared := true, bad := bad } else y) } := by
  have e : (fun y : SegSum => if (decide (y.bucket = k) && decide (y.seg = sg)) = true then { y with compared := true, bad := bad } else y) =
      fun y => if y.bucket = k ∧ y.seg = sg then { y with compared := true, bad := bad } else y := by
    funext y
    simp only [Bool.and_eq_true, decide_eq_true_eq]
  rw [← e]
  rfl

/-- A difference counts and raises its event (R304). -/
def differs (fu : Fuses) (y : Module) (k sg : Nat) (bad : Bool) : Module :=
  if bad then (y.bump (odKey 0x7110 3) 1).event fu 0x0723 [y.ropeJob, y.rank, k, sg, y.compareDie sg] else y

/-- The count of comparisons leaves the module's place in its rope, and the die that compared. -/
theorem comparedSum_place (m : Module) (k sg : Nat) (bad : Bool) :
    (comparedSum m k sg bad).ropeJob = m.ropeJob ∧ (comparedSum m k sg bad).rank = m.rank ∧
      (comparedSum m k sg bad).compareDie sg = m.compareDie sg := by
  have job : (comparedSum m k sg bad).ropeJob = m.ropeJob := (odGet_bump _ _ _ _).trans (if_neg (by decide))
  refine ⟨job, (odGet_bump _ _ _ _).trans (if_neg (by decide)), ?_⟩
  simp only [Module.compareDie, job]
  rfl

theorem exec_sampleComparison {s : State} {k sg : Nat} (bad : Bool) (hw : s.m.powered = true)
    (h : ∃ x ∈ s.m.rope.sums, x.bucket = k ∧ x.seg = sg ∧ x.sampled = true ∧ x.compared = false) :
    exec (.sampleComparison k sg bad) s =
      .next { s with m := (differs s.fuse (comparedSum s.m k sg bad) k sg bad).tryTrailer s.fuse k } := by
  have waits : s.m.rope.sums.any (fun x => x.bucket == k && x.seg == sg && x.sampled && !x.compared) = true := by
    obtain ⟨x, hx, h1, h2, h3, h4⟩ := h
    exact List.any_eq_true.mpr ⟨x, hx, by simp [h1, h2, h3, h4]⟩
  refine congrArg (fun m => Host.Outcome.next { s with m := m }) (if_neg ?_)
  simp [hw, waits]

theorem goes_sampleComparison {s : State} {k sg : Nat} (bad : Bool) (hw : s.m.powered = true)
    (h : ∃ x ∈ s.m.rope.sums, x.bucket = k ∧ x.seg = sg ∧ x.sampled = true ∧ x.compared = false) :
    let m := s.m
    Goes s (.sampleComparison k sg bad) (fun n => ∃ x y : Module,
      y.rope = { m.rope with
        sums := m.rope.sums.map (fun y => if y.bucket = k ∧ y.seg = sg then { y with compared := true, bad := bad } else y) } ∧
      y.odGet (odKey 0x7110 2) = (m.odGet (odKey 0x7110 2) + 1) % 2 ^ 64 ∧ KeepsBut [.rope, .od] m y ∧
      (bad = false → x = y) ∧
      (bad = true → x = (y.bump (odKey 0x7110 3) 1).event s.fuse 0x0723 [m.ropeJob, m.rank, k, sg, m.compareDie sg]) ∧
      n = x.tryTrailer s.fuse k ∧
      KeepsBut (.rope :: .hawsers :: [.cores, .od, .log, .report, .queues, .jobs, .clusters, .residency, .orphans]) m n) := by
  intro m
  have ykeeps : KeepsBut [.rope, .od] m (comparedSum m k sg bad) :=
    keeps_trans (keeps_mono (keeps_onRope m _) (by decide)) (keeps_mono (keeps_bump _ _ _) (by decide))
  have xkeeps : KeepsBut [.od, .log, .report] (comparedSum m k sg bad) (differs s.fuse (comparedSum m k sg bad) k sg bad) :=
    keeps_ite (by simp [keeps_refl]) (keeps_refl _ _)
  refine ⟨_, exec_sampleComparison bad hw h, rfl, rfl, differs s.fuse (comparedSum m k sg bad) k sg bad, comparedSum m k sg bad,
    comparedSum_rope m k sg bad, ?_, ykeeps, fun hb => ?_, fun hb => ?_, rfl, ?_⟩
  · rw [comparedSum, odGet_bump, if_pos rfl]
    rfl
  · rw [differs, if_neg (by simp [hb])]
  · obtain ⟨job, rank, die⟩ := comparedSum_place m k sg bad
    rw [differs, if_pos hb, job, rank, die]
  · exact keeps_trans (keeps_mono ykeeps (by decide)) (keeps_trans (keeps_mono xkeeps (by decide)) (keeps_tryTrailer s.fuse _ k))

/-- The bonds to the children that the rank needs. -/
def childInputs (m : Module) : List Nat := [0, 1].filter (fun i => bondNeeded m.rank m.ropeSize (i + 1))

/-- The trailer that a node makes of a bucket (R302, R304). -/
def ownTrailer (m : Module) (k : Nat) : Trailer :=
  let b := m.job m.ropeJob
  let kids := (childInputs m).filterMap (m.trailer k)
  let bk := b.bucket k
  let n := ((b.prog.reduce.map (fun r => (r.entries.filter (fun e => e.bucket == k)).length)).getD 0)
  let bad := (m.sumsOf k).any SegSum.bad
  { step := b.step, attempt := b.run.ropeAttempt % 256, bucket := k, input := 2,
    counts := kids.foldl (fun c x => addCounts c x.counts) ((List.range n).map (fun i => (bk.sats.get i, bk.nonfins.get i))),
    mismatch := bad || kids.any Trailer.mismatch, lowest := kids.foldl (fun l x => min l x.lowest) (if bad then m.rank else 0xFFFF) }

/-- A node whose sums are complete, whose comparisons have ended and whose children's trailers are there sends its own up. -/
theorem tryTrailer_node (fu : Fuses) {m : Module} {k : Nat} (hr : m.rank ≠ 0) (ht : m.trailer k 2 = none) (hs : m.sumsOf k ≠ [])
    (hl : (m.sumsOf k).length = m.segCount k) (hc : ∀ x ∈ m.sumsOf k, x.sampled = true → x.compared = true)
    (hkids : ∀ i, i < 2 → bondNeeded m.rank m.ropeSize (i + 1) = true → (m.trailer k i).isSome = true) :
    ∃ f, m.tryTrailer fu k = (m.onRope (fun r => { r with
      trailers := r.trailers ++ [ownTrailer m k], sums := r.sums.filter (fun x => x.bucket != k) })).sendBond 0 f := by
  have all : (m.sumsOf k).all (fun x => !x.sampled || x.compared) = true := by
    refine List.all_eq_true.mpr (fun x hx => ?_)
    have := hc x hx
    revert this
    cases x.sampled <;> simp
  have need : ([0, 1].filter (fun i => bondNeeded m.rank m.ropeSize (i + 1))).all (fun i => (m.trailer k i).isSome) = true := by
    refine List.all_eq_true.mpr (fun i hi => ?_)
    obtain ⟨hi, hb⟩ := List.mem_filter.mp hi
    exact hkids i (by simp only [List.mem_cons, List.not_mem_nil, or_false] at hi; omega) hb
  refine ⟨_, Eq.trans (if_neg ?_) (if_neg hr)⟩
  simp [ht, hs, hl, all, need]

theorem mem_childInputs (m : Module) (i : Nat) : i ∈ childInputs m ↔ i < 2 ∧ bondNeeded m.rank m.ropeSize (i + 1) = true := by
  simp only [childInputs, List.mem_filter, List.mem_cons, List.not_mem_nil, or_false]
  exact and_congr_left (fun _ => by omega)

/-- The trailer carries a mismatch of the node's own comparisons or of a child. -/
theorem ownTrailer_mismatch (m : Module) (k : Nat) : (ownTrailer m k).mismatch = true ↔ (∃ x ∈ m.sumsOf k, x.bad = true) ∨
    ∃ i u, i < 2 ∧ bondNeeded m.rank m.ropeSize (i + 1) = true ∧ m.trailer k i = some u ∧ u.mismatch = true := by
  simp only [ownTrailer, Bool.or_eq_true, List.any_eq_true, List.mem_filterMap, mem_childInputs]
  refine or_congr Iff.rfl ⟨?_, ?_⟩
  · rintro ⟨u, ⟨i, ⟨hi, hb⟩, hu⟩, hm⟩
    exact ⟨i, u, hi, hb, hu, hm⟩
  · rintro ⟨i, u, hi, hb, hu, hm⟩
    exact ⟨u, ⟨i, ⟨hi, hb⟩, hu⟩, hm⟩

theorem tryTrailer_trailers (fu : Fuses) {m : Module} {k : Nat} (hr : m.rank ≠ 0) (ht : m.trailer k 2 = none) (hs : m.sumsOf k ≠ [])
    (hl : (m.sumsOf k).length = m.segCount k) (hc : ∀ x ∈ m.sumsOf k, x.sampled = true → x.compared = true)
    (hkids : ∀ i, i < 2 → bondNeeded m.rank m.ropeSize (i + 1) = true → (m.trailer k i).isSome = true) :
    (m.tryTrailer fu k).rope.trailers = m.rope.trailers ++ [ownTrailer m k] := by
  obtain ⟨f, hf⟩ := tryTrailer_node fu hr ht hs hl hc hkids
  rw [hf]
  exact congrArg Rope.trailers (keeps_sendBond _ 0 f .rope (by decide))

/-! ### Resync data -/

theorem ropeState_setRopeState (fu : Fuses) (m : Module) (v : Nat) : (m.setRopeState fu v).ropeState = v := by
  unfold Module.setRopeState
  split
  · assumption
  · rw [Module.ropeState, odGet_event _ _ _ _ _ (by decide), odGet_odSet, if_pos rfl]

/-- Resync data committed: the job's step count, half bits and tables are those of the data, its weights are in the work halves. -/
theorem takeResync_ok (fu : Fuses) (m : Module) {j : Nat} (hl : j < m.jobs.length) :
    let n := m.takeResync fu j
    let bs := m.rope.resyncData
    (n.job j).step = leAt bs (bs.length - 8) 8 ∧
      (n.job j).halfBits = ((m.job j).regionsIn bs).foldl
        (fun (h : NatMap) r => h.set (halfKey r.1 r.2) (1 - h.get (halfKey r.1 r.2))) (m.job j).halfBits ∧
      OtherJobs j m n ∧ KeepsBut [.jobs, .hbm, .hbmPoison, .od, .log, .report] m n := by
  intro n bs
  have hn : n = m.takeResync fu j := rfl
  unfold Module.takeResync at hn
  dsimp only at hn
  generalize hw : m.putRegions j false _ _ _ 320 = w at hn
  obtain ⟨wothers, wlen, wkeeps, o, f, wown⟩ : Same j m w.1 := hw ▸ same_regions m j false _ _ _ 320
  generalize hz : w.1.onJob j _ = z at hn
  have zown : (z.job j).step = leAt bs (bs.length - 8) 8 ∧ (z.job j).halfBits = ((m.job j).regionsIn bs).foldl
      (fun (h : NatMap) r => h.set (halfKey r.1 r.2) (1 - h.get (halfKey r.1 r.2))) (m.job j).halfBits := by
    rw [← hz, job_onJob_self _ _ _ (by rw [wlen]; exact hl), wown]
    exact ⟨rfl, rfl⟩
  have zothers : OtherJobs j m z := fun i hi => by rw [← hz, job_onJob_other _ _ _ _ hi, wothers i hi]
  have zkeeps : KeepsBut [.jobs, .hbm, .hbmPoison] m z := by
    rw [← hz]
    exact keeps_trans wkeeps (keeps_mono (keeps_onJob _ j _) (by decide))
  have zlen : j < z.jobs.length := by rw [← hz, onJob_len, wlen]; exact hl
  split at hn
  · exact hn ▸ ⟨zown.1, zown.2, zothers, keeps_mono zkeeps (by decide)⟩
  split at hn
  · rw [hn]
    refine ⟨?_, ?_, fun i hi => (job_onJob_other _ _ _ _ hi).trans (zothers i hi), keeps_trans (keeps_mono zkeeps (by decide))
      (keeps_mono (keeps_onJob _ j _) (by decide))⟩
    · rw [job_onJob_self _ _ _ zlen]
      exact zown.1
    · rw [job_onJob_self _ _ _ zlen]
      exact zown.2
  · rw [hn, job_of_event]
    exact ⟨zown.1, zown.2, fun i hi => (job_of_event _ _ _ _ i).trans (zothers i hi), keeps_trans (keeps_mono zkeeps (by decide))
      (keeps_mono (keeps_still (still_event fu z _ _)) (by decide))⟩

theorem exec_resyncCommit_root {s : State} (hw : s.m.powered = true) (hr : s.m.inRope s.m.ropeJob = true) (h3 : s.m.ropeState = 3)
    (h2 : (s.m.job s.m.ropeJob).state = 2) (h0 : s.m.rank = 0) : exec .resyncCommit s =
      .next { s with m := (s.m.onRope (fun r => { r with afterRestore := none })).setRopeState s.fuse 2 } := by
  refine congrArg (fun m => Host.Outcome.next { s with m := m }) ((if_neg ?_).trans (if_pos h0))
  simp [hw, hr, h3, h2]

theorem exec_resyncCommit_node {s : State} (hw : s.m.powered = true) (hr : s.m.inRope s.m.ropeJob = true) (h3 : s.m.ropeState = 3)
    (h2 : (s.m.job s.m.ropeJob).state = 2) (h0 : s.m.rank ≠ 0) (hl : 320 ≤ s.m.rope.resyncData.length)
    (he : s.m.rope.resyncData.length = s.m.resyncLen s.m.ropeJob) : exec .resyncCommit s =
      .next { s with m :=
        ((s.m.takeResync s.fuse s.m.ropeJob).onRope (fun r => { r with resyncData := [] })).setRopeState s.fuse 2 } := by
  refine congrArg (fun m => Host.Outcome.next { s with m := m }) ((if_neg ?_).trans ((if_neg h0).trans (if_neg ?_)))
  · simp [hw, hr, h3, h2]
  · simpa [he] using he ▸ hl

theorem goes_resyncCommit_root {s : State} (hw : s.m.powered = true) (hr : s.m.inRope s.m.ropeJob = true) (h3 : s.m.ropeState = 3)
    (h2 : (s.m.job s.m.ropeJob).state = 2) (h0 : s.m.rank = 0) : Goes s .resyncCommit (fun n =>
      n.ropeState = 2 ∧ n.rope = { s.m.rope with afterRestore := none } ∧ KeepsBut [.rope, .od, .log, .report] s.m n) := by
  have set := keeps_setRopeState s.fuse (s.m.onRope (fun r => { r with afterRestore := none })) 2
  exact ⟨_, exec_resyncCommit_root hw hr h3 h2 h0, rfl, rfl, ropeState_setRopeState _ _ _, set .rope (by decide),
    keeps_trans (keeps_mono (keeps_onRope s.m _) (by decide)) (keeps_mono set (by decide))⟩

theorem goes_resyncCommit_node {s : State} (hw : s.m.powered = true) (hr : s.m.inRope s.m.ropeJob = true) (h3 : s.m.ropeState = 3)
    (h2 : (s.m.job s.m.ropeJob).state = 2) (h0 : s.m.rank ≠ 0) (hl : 320 ≤ s.m.rope.resyncData.length)
    (he : s.m.rope.resyncData.length = s.m.resyncLen s.m.ropeJob) :
    let m := s.m
    let j := m.ropeJob
    Goes s .resyncCommit (fun n => n.ropeState = 2 ∧ n.rope = { m.rope with resyncData := [] } ∧
      (n.job j).step = leAt m.rope.resyncData (m.rope.resyncData.length - 8) 8 ∧
      (n.job j).halfBits = ((m.job j).regionsIn m.rope.resyncData).foldl
        (fun (h : NatMap) r => h.set (halfKey r.1 r.2) (1 - h.get (halfKey r.1 r.2))) (m.job j).halfBits ∧
      OtherJobs j m n ∧ KeepsBut [.jobs, .hbm, .hbmPoison, .rope, .od, .log, .report] m n) := by
  intro m j
  obtain ⟨step, half, others, keeps⟩ := takeResync_ok s.fuse m (j := j) (job_lt (by rw [h2]; decide))
  have run := exec_resyncCommit_node hw hr h3 h2 h0 hl he
  generalize m.takeResync s.fuse j = T at *
  have set := keeps_setRopeState s.fuse (T.onRope (fun r => { r with resyncData := [] })) 2
  have job : ∀ i, ((T.onRope (fun r => { r with resyncData := [] })).setRopeState s.fuse 2).job i = T.job i := fun i =>
    congrArg (fun l => l.getD i Job.free) (set .jobs (by decide))
  have rope : T.rope = m.rope := keeps .rope (by decide)
  refine ⟨_, run, rfl, rfl, ropeState_setRopeState _ _ _, (set .rope (by decide)).trans ?_, ?_, ?_, fun i hi => ?_, ?_⟩
  · rw [← rope]
    rfl
  · exact (congrArg Job.step (job j)).trans step
  · exact (congrArg Job.halfBits (job j)).trans half
  · exact (job i).trans (others i hi)
  · exact keeps_trans (keeps_mono keeps (by decide)) (keeps_trans (keeps_mono (keeps_onRope T _) (by decide)) (keeps_mono set (by decide)))

/-- Settles O47: NONFINITE codes, sums, comparisons, resync data and trailers. -/
theorem sumsGoUpTheTree : Obligations.SumsGoUpTheTree := by
  unfold Obligations.SumsGoUpTheTree
  refine ⟨fun ol orr o l r c h => ?_, fun s hw => ⟨fun k sg hr h3 hm hk hs h0 h1 => ?_, fun k sg bad h => ?_, fun hr h3 h2 => ⟨fun h0 => ?_,
    fun h0 hl he => ?_⟩⟩, fun fu m k hr ht hs hl hc hkids => ?_⟩
  · rw [addCodes, if_pos (by simpa [or_assoc] using h)]
  · exact goes_segmentSum hw hr h3 hm hk hs h0 h1
  · exact goes_sampleComparison bad hw h
  · exact goes_resyncCommit_root hw hr h3 h2 h0
  · exact goes_resyncCommit_node hw hr h3 h2 h0 hl he
  · exact ⟨ownTrailer m k, tryTrailer_trailers fu hr ht hs hl hc hkids, rfl, rfl, ownTrailer_mismatch m k⟩

end Sys2Proof.Proofs
end

section
/-!
PROOFS. Reads of HBM look at no job (R357, R361): with other job contexts they are the same reads.
-/
namespace Sys2Proof.Proofs

open Sys2Proof.Machine Sys2Proof.Laws

/-- The module with other job contexts. -/
def withJobs (js : List Job) (m : Module) : Module := { m with jobs := js }

section
variable (js : List Job)

/-- A choice that looks at no job. -/
theorem ite_withJobs {c : Prop} [Decidable c] {a b a' b' : Module} (ha : a' = withJobs js a) (hb : b' = withJobs js b) :
    (if c then a' else b') = withJobs js (if c then a else b) := by
  split <;> assumption

theorem foldl_withJobs {α : Type} (f : Module → α → Module) (hf : ∀ m x, f (withJobs js m) x = withJobs js (f m x)) (l : List α) (m : Module) :
    l.foldl f (withJobs js m) = withJobs js (l.foldl f m) := by
  induction l generalizing m with
  | nil => rfl
  | cons x l ih => rw [List.foldl_cons, List.foldl_cons, hf, ih]

variable (fu : Fuses) (m : Module)

theorem sendFrame_withJobs (dst node : Nat) (msg : List Byte) :
    (withJobs js m).sendFrame fu dst node msg = withJobs js (m.sendFrame fu dst node msg) := by
  unfold Module.sendFrame
  exact ite_withJobs js rfl rfl

theorem notifyPort_withJobs (p : Nat) (msg : List Byte) : (withJobs js m).notifyPort p msg = withJobs js (m.notifyPort p msg) := by
  unfold Module.notifyPort
  exact ite_withJobs js rfl (ite_withJobs js rfl rfl)

theorem notifyRec_withJobs (r : LogRec) : (withJobs js m).notifyRec fu r = withJobs js (m.notifyRec fu r) := by
  unfold Module.notifyRec
  refine ite_withJobs js ?_ rfl
  dsimp only
  rw [← notifyPort_withJobs, ← notifyPort_withJobs, ← sendFrame_withJobs]
  rfl

theorem putRec_withJobs (code held : Nat) (secondary : Bool) (l : List Nat) :
    (withJobs js m).putRec fu code held secondary l = withJobs js (m.putRec fu code held secondary l) := by
  unfold Module.putRec
  dsimp only
  rw [← notifyRec_withJobs]
  rfl

theorem putRecs_withJobs (code held : Nat) (secondary : Bool) (l : List Nat) :
    (withJobs js m).putRecs fu code held secondary l = withJobs js (m.putRecs fu code held secondary l) := by
  unfold Module.putRecs
  refine ite_withJobs js (putRec_withJobs js fu m _ _ _ _) ?_
  rw [← putRec_withJobs, ← putRec_withJobs]
  rfl

theorem record_withJobs (code : Nat) (secondary : Bool) (l : List Nat) :
    (withJobs js m).record fu code secondary l = withJobs js (m.record fu code secondary l) := by
  unfold Module.record
  refine ite_withJobs js rfl (ite_withJobs js rfl ?_)
  rw [← putRecs_withJobs]
  rfl

theorem eventX_withJobs (secondary : Bool) (code : Nat) (l : List Nat) :
    (withJobs js m).eventX fu secondary code l = withJobs js (m.eventX fu secondary code l) := by
  unfold Module.eventX
  refine ite_withJobs js (ite_withJobs js rfl rfl) ?_
  dsimp only
  rw [record_withJobs]
  generalize m.record fu code secondary l = n
  refine ite_withJobs js ?_ rfl
  rw [← record_withJobs]
  rfl

theorem event_withJobs (code : Nat) (l : List Nat) : (withJobs js m).event fu code l = withJobs js (m.event fu code l) :=
  eventX_withJobs js fu m false code l

theorem reason_withJobs (bit : Nat) (l : List Nat) : (withJobs js m).reason fu bit l = withJobs js (m.reason fu bit l) := by
  unfold Module.reason
  refine ite_withJobs js rfl ?_
  dsimp only
  rw [← event_withJobs]
  rfl

theorem flagHbmRow_withJobs (p pc b r x : Nat) :
    (withJobs js m).flagHbmRow fu p pc b r x = withJobs js (m.flagHbmRow fu p pc b r x) := by
  unfold Module.flagHbmRow
  refine ite_withJobs js rfl (ite_withJobs js rfl ?_)
  dsimp only
  rw [event_withJobs]
  exact ite_withJobs js (reason_withJobs js fu _ _ _) rfl

theorem storeErrors_withJobs (g : Nat) (l : List Nat) : (withJobs js m).storeErrors g l = withJobs js (m.storeErrors g l) := by
  unfold Module.storeErrors
  exact ite_withJobs js rfl (ite_withJobs js rfl rfl)

theorem judgeErrors_withJobs (p pc : Nat) : (withJobs js m).judgeErrors p pc = withJobs js (m.judgeErrors p pc) := by
  unfold Module.judgeErrors
  exact foldl_withJobs js _ (fun m b => storeErrors_withJobs js m _ _) _ m

theorem onStack_withJobs (p : Nat) (f : Stack → Stack) : (withJobs js m).onStack p f = withJobs js (m.onStack p f) := rfl

theorem bump_withJobs (k n : Nat) : (withJobs js m).bump k n = withJobs js (m.bump k n) := rfl

theorem recordLane_withJobs (p pc b r x : Nat) : (withJobs js m).recordLane fu p pc b r x = withJobs js (m.recordLane fu p pc b r x) := by
  unfold Module.recordLane
  dsimp only
  simp only [onStack_withJobs]
  refine ite_withJobs js rfl (ite_withJobs js ?_ (ite_withJobs js ?_ rfl))
  · rw [judgeErrors_withJobs, event_withJobs]
  · rw [event_withJobs]

theorem readBurst_withJobs (j : Nat) (b : BadBurst) : (withJobs js m).readBurst fu j b = withJobs js (m.readBurst fu j b) := by
  unfold Module.readBurst
  dsimp only
  simp only [onStack_withJobs, bump_withJobs]
  refine ite_withJobs js ?_ (ite_withJobs js rfl ?_)
  · rw [event_withJobs, flagHbmRow_withJobs]
  · rw [show (withJobs js m).stack = m.stack from rfl]
    split
    · rfl
    · simp only [recordLane_withJobs, onStack_withJobs]
      exact ite_withJobs js (flagHbmRow_withJobs js fu _ _ _ _ _ _) rfl
    · rw [flagHbmRow_withJobs]

/-- Reads of HBM are the same with other job contexts. -/
theorem hbmReads_withJobs (j : Nat) (rs : List (Nat × Nat)) : (withJobs js m).hbmReads fu j rs = withJobs js (m.hbmReads fu j rs) := by
  unfold Module.hbmReads
  dsimp only
  refine Eq.trans ?_ (foldl_withJobs js (fun (m : Module) b => m.readBurst fu j b) (fun m b => readBurst_withJobs js fu m j b) _ _)
  refine congrArg (fun n => List.foldl (fun (m : Module) b => m.readBurst fu j b) n _) ?_
  exact ite_withJobs js rfl rfl

end

end Sys2Proof.Proofs
end

section
/-!
PROOFS. The tackles (R241, R267 to R280): where they write HBM, what they leave of their job, and the weight that they write.
-/
namespace Sys2Proof.Proofs

open Sys2Proof.Machine Sys2Proof.Laws

/-! ### What tackles may write -/

/-- A job as tackles leave it: of it they change its descriptors, its optimizer state outside HBM and the marks of handled
elements. -/
def Tackled (b c : Job) : Prop := ∃ ds o ap, c = { b with descs := ds, opt := o, run := { b.run with applied := ap } }

theorem tackled_refl (b : Job) : Tackled b b := ⟨_, _, _, rfl⟩

theorem tackled_trans {a b c : Job} (h : Tackled a b) (k : Tackled b c) : Tackled a c := by
  obtain ⟨_, _, _, rfl⟩ := h
  obtain ⟨ds, o, ap, rfl⟩ := k
  exact ⟨ds, o, ap, rfl⟩

/-- From `m` to `n` tackles of job `j` wrote HBM at addresses of `W` alone, and no element's mark was taken back. -/
structure Tackles (j : Nat) (W : Nat → Prop) (m n : Module) : Prop where
  keeps : KeepsBut [.jobs, .hbm, .hbmPoison] m n
  others : OtherJobs j m n
  own : Tackled (m.job j) (n.job j)
  marks : ∀ k, (m.job j).run.applied.get k = 1 → (n.job j).run.applied.get k = 1
  bytes : ∀ a, ¬ W a → n.hbm.get a = m.hbm.get a

/-- The bytes of `n` from an address. -/
def span (a n x : Nat) : Prop := a ≤ x ∧ x < a + n

variable {j : Nat}

theorem tackles_refl (W : Nat → Prop) (m : Module) : Tackles j W m m :=
  ⟨keeps_refl _ m, fun _ _ => rfl, tackled_refl _, fun _ h => h, fun _ _ => rfl⟩

theorem tackles_trans {W : Nat → Prop} {a b c : Module} (h : Tackles j W a b) (k : Tackles j W b c) : Tackles j W a c :=
  ⟨keeps_trans h.keeps k.keeps, fun i hi => (k.others i hi).trans (h.others i hi), tackled_trans h.own k.own,
    fun i hi => k.marks i (h.marks i hi), fun x hx => (k.bytes x hx).trans (h.bytes x hx)⟩

theorem tackles_mono {W V : Nat → Prop} {m n : Module} (h : Tackles j W m n) (hw : ∀ a, W a → V a) : Tackles j V m n :=
  { h with bytes := fun a ha => h.bytes a (fun w => ha (hw a w)) }

/-- A run of writes, each of which finds the job as tackles leave it. -/
theorem tackles_foldl {α : Type} {W : Nat → Prop} (m : Module) (l : List α) (f : Module → α → Module)
    (hf : ∀ n, Tackled (m.job j) (n.job j) → ∀ a ∈ l, Tackles j W n (f n a)) : Tackles j W m (l.foldl f m) := by
  suffices ∀ n, Tackles j W m n → Tackles j W m (l.foldl f n) from this m (tackles_refl W m)
  induction l with
  | nil => exact fun n hn => hn
  | cons a l ih =>
    exact fun n hn => ih (fun n hn a ha => hf n hn a (List.mem_cons_of_mem _ ha)) _
      (tackles_trans hn (hf n hn.own a List.mem_cons_self))

/-- A change of the job that tackles may make, and that keeps the marks. -/
theorem tackles_onJob (W : Nat → Prop) (m : Module) (f : Job → Job) (ht : ∀ b, Tackled b (f b))
    (hm : ∀ b k, b.run.applied.get k = 1 → (f b).run.applied.get k = 1) : Tackles j W m (m.onJob j f) := by
  refine ⟨keeps_mono (keeps_onJob m j f) (by decide), fun i hi => job_onJob_other m j i f hi, ?_, fun k hk => ?_, fun _ _ => rfl⟩ <;>
    rw [job_onJob] <;> split
  · exact ht _
  · exact tackled_refl _
  · exact hm _ k hk
  · exact hk

/-- A tackle's write of HBM, which leaves its granule clean. -/
theorem tackles_write (m : Module) (a n c : Nat) : Tackles j (span a n) m
    { m with hbm := m.hbm.write a (leBytes n c), hbmPoison := granuleClean m.hbmPoison a, bursts := rewritten m.bursts a n } := by
  refine ⟨fun p hp => ?_, fun _ _ => rfl, tackled_refl _, fun _ h => h, fun x hx => ?_⟩
  · cases p <;> simp_all [Part.same]
  · rw [get_write, leBytes_length]
    exact if_neg hx

/-! ### One element's writes -/

theorem tackles_putStateAt (m : Module) (a n c : Nat) : Tackles j (span a n) m (m.putStateAt j a n c) := by
  unfold Module.putStateAt
  split
  · exact tackles_write m a n c
  · exact tackles_onJob _ m _ (fun b => ⟨_, _, _, rfl⟩) (fun _ _ h => h)

theorem tackles_putWeight (m : Module) (t e code : Nat) (sat : Bool) :
    Tackles j (span ((m.job j).weightAddr t (1 - (m.job j).committed t ((m.job j).regionOf t e)) e) 2) m (m.putWeight j t e code sat) := by
  have write := tackles_write (j := j) m ((m.job j).weightAddr t (1 - (m.job j).committed t ((m.job j).regionOf t e)) e) 2 code
  unfold Module.putWeight
  dsimp only
  split
  · exact write
  · exact tackles_trans write (tackles_onJob _ _ _ (fun b => ⟨_, _, _, rfl⟩) (fun _ _ h => h))

/-- The bytes of an element's state in the work half. -/
def stateBytesOf (b : Job) (t e x : Nat) : Prop :=
  ∃ k < b.stateVals t, span (b.stateAddr t (1 - b.committed t (b.regionOf t e)) e k) 2 x

theorem tackles_putElemState (m : Module) (t e mc vc : Nat) :
    Tackles j (stateBytesOf (m.job j) t e) m (m.putElemState j t e mc vc) := by
  unfold Module.putElemState
  refine tackles_foldl m _ _ (fun n hn c hc => ?_)
  obtain ⟨ds, o, ap, hb⟩ := hn
  refine tackles_mono (tackles_putStateAt n _ 2 c.1) (fun x hx => ⟨c.2, of_decide_eq_true (List.mem_filter.mp hc).2, ?_⟩)
  rw [hb] at hx
  exact hx

/-- The bytes of an accumulator. -/
def accBytes (b : Job) (t k x : Nat) : Prop := ∃ w < 9, span (b.accAddr t k w) 8 x

theorem tackles_putAcc (m : Module) (t k v : Nat) : Tackles j (accBytes (m.job j) t k) m (m.putAcc j t k v) := by
  unfold Module.putAcc
  refine tackles_foldl m _ _ (fun n hn w hw => ?_)
  obtain ⟨ds, o, ap, hb⟩ := hn
  refine tackles_mono (tackles_putStateAt n _ 8 _) (fun x hx => ⟨w, List.mem_range.mp hw, ?_⟩)
  rw [hb] at hx
  exact hx

/-- The bytes of the accumulators of a gradient element's row and column. -/
def squareBytes (b : Job) (g : Grad) (x : Nat) : Prop := ∃ k ∈ (b.facsOf g.t g.e).take 2, accBytes b g.t k x

theorem tackles_foldSquare (m : Module) (g : Grad) : Tackles j (squareBytes (m.job j) g) m (m.foldSquare j g) := by
  unfold Module.foldSquare
  refine tackles_foldl m _ _ (fun n hn k hk => ?_)
  obtain ⟨ds, o, ap, hb⟩ := hn
  refine tackles_mono (tackles_putAcc n g.t k _) (fun x hx => ⟨k, hk, ?_⟩)
  rw [hb] at hx
  exact hx

/-! ### One element -/

/-- An element marked as handled. -/
def handled (j : Nat) (g : Grad) (m : Module) : Module :=
  m.onRun j (fun r => { r with applied := r.applied.set (appliedKey g.t g.e) 1 })

theorem tackles_handled (W : Nat → Prop) (m : Module) (g : Grad) : Tackles j W m (handled j g m) := by
  refine tackles_onJob W m _ (fun b => ⟨_, _, _, rfl⟩) (fun b k hk => ?_)
  dsimp only
  rw [get_set]
  split
  · rfl
  · exact hk

theorem handled_mark (m : Module) (g : Grad) (hl : j < m.jobs.length) :
    ((handled j g m).job j).run.applied.get (appliedKey g.t g.e) = 1 := by
  rw [handled, job_onRun_self m j _ hl]
  simp [get_set]

/-- The weight and the state of an element written into the work half. -/
def putElem (m : Module) (j : Nat) (g : Grad) (w : Nat) (sat : Bool) (mc vc : Nat) : Module :=
  (m.putWeight j g.t g.e w sat).putElemState j g.t g.e mc vc

/-- The bytes that a tackle writes of a gradient element. -/
def gradBytes (b : Job) (g : Grad) (x : Nat) : Prop := ¬ OffGrad b g x

theorem gradBytes_weight {b : Job} {g : Grad} {x : Nat} (h : span (gradAddr b g) 2 x) : gradBytes b g x := by
  rintro ⟨h0, h1, -, -⟩
  unfold span at h
  omega

theorem gradBytes_state {b : Job} {g : Grad} {x : Nat} (h : stateBytesOf b g.t g.e x) : gradBytes b g x := by
  rintro ⟨-, -, hs, -⟩
  obtain ⟨k, hk, hx⟩ := h
  obtain ⟨h0, h1⟩ := hs k hk
  unfold span at hx
  unfold gradStateAddr at h0 h1
  omega

theorem gradBytes_square {b : Job} {g : Grad} {x : Nat} (h : squareBytes b g x) : gradBytes b g x := by
  rintro ⟨-, -, -, ha⟩
  obtain ⟨k, hk, w, hw, h0, h1⟩ := h
  exact ha k hk w (x - b.accAddr g.t k w) hw (by omega) (by omega)

theorem tackles_putElem (m : Module) (g : Grad) (w : Nat) (sat : Bool) (mc vc : Nat) :
    Tackles j (gradBytes (m.job j) g) m (putElem m j g w sat mc vc) := by
  have weight := tackles_putWeight (j := j) m g.t g.e w sat
  refine tackles_trans (tackles_mono weight (fun x hx => gradBytes_weight hx))
    (tackles_mono (tackles_putElemState _ g.t g.e mc vc) (fun x hx => gradBytes_state ?_))
  obtain ⟨ds, o, ap, hb⟩ := weight.own
  rw [hb] at hx
  exact hx

/-- The result of an element's rule on its committed weight and state. -/
def result (m : Module) (j : Nat) (g : Grad) (c : Consts) : Applied :=
  m.rule j g c (fmtBF16.decode (m.weightCode j g.t g.e)) (fmtBF16.decode (m.stateCodes j g.t g.e).1)
    (fmtBF16.decode (m.stateCodes j g.t g.e).2)

/-- The weight that an element gets, rounded with its own random value. -/
def newWeight (m : Module) (j : Nat) (g : Grad) (c : Consts) : Written :=
  roundWeight (result m j g c).w (weightRandom (m.job j).seed (m.job j).step ((m.job j).elemAddr g.t g.e))

/-- The update of an element by its rule's result. -/
def updated (m : Module) (j : Nat) (g : Grad) (c : Consts) : Module :=
  let a := result m j g c
  let w := newWeight m j g c
  let n := putElem m j g w.code w.sat (fmtBF16.encode a.m).code (fmtBF16.encode a.v).code
  if (c.rule = 4 && (m.job j).run.applied.get (appliedKey g.t g.e) == 0) = true then n.foldSquare j g else n

theorem tackles_updated (m : Module) (g : Grad) (c : Consts) : Tackles j (gradBytes (m.job j) g) m (updated m j g c) := by
  unfold updated
  dsimp only
  generalize newWeight m j g c = w
  generalize (fmtBF16.encode _).code = mc
  generalize (fmtBF16.encode _).code = vc
  have elem := tackles_putElem (j := j) m g w.code w.sat mc vc
  split
  · refine tackles_trans elem (tackles_mono (tackles_foldSquare _ g) (fun x hx => gradBytes_square ?_))
    obtain ⟨ds, o, ap, hb⟩ := elem.own
    rw [hb] at hx
    exact hx
  · exact elem

section
variable (m : Module) (g : Grad) (tl : Tally)

theorem applyElem_unwritten (skip : Bool) (hw : (m.job j).writes g.t g.e = false) : (m.applyElem j g tl skip).1 = handled j g m := by
  unfold Module.applyElem
  dsimp only
  rw [if_pos (by rw [hw]; rfl)]
  rfl

theorem applyElem_skipped (skip : Bool) (hw : (m.job j).writes g.t g.e = true) (hc : g.carries = false) :
    (m.applyElem j g tl skip).1 = handled j g (putElem m j g (m.weightCode j g.t g.e) false
      (m.stateCodes j g.t g.e).1 (m.stateCodes j g.t g.e).2) := by
  unfold Module.applyElem
  dsimp only
  rw [if_neg (by rw [hw]; decide), if_pos (by rw [hc]; rfl)]
  rfl

theorem applyElem_ungrouped (skip : Bool) (hw : (m.job j).writes g.t g.e = true) (hc : g.carries = true)
    (hk : gradConsts (m.job j) g = none) : (m.applyElem j g tl skip).1 = m := by
  unfold gradConsts at hk
  unfold Module.applyElem
  dsimp only
  rw [if_neg (by rw [hw]; decide), if_neg (by rw [hc]; decide), hk]

theorem applyElem_updated {c : Consts} (hw : (m.job j).writes g.t g.e = true) (hc : g.carries = true)
    (hk : gradConsts (m.job j) g = some c) : (m.applyElem j g tl false).1 = handled j g (updated m j g c) := by
  unfold gradConsts at hk
  unfold Module.applyElem
  dsimp only
  rw [if_neg (by rw [hw]; decide), if_neg (by rw [hc]; decide), hk]
  rfl

/-- One element writes at most its own bytes, and none where its tackle may not write it. -/
theorem tackles_applyElem : Tackles j (fun a => (m.job j).writes g.t g.e = true ∧ gradBytes (m.job j) g a) m (m.applyElem j g tl false).1 := by
  by_cases hw : (m.job j).writes g.t g.e = true
  · by_cases hc : g.carries = true
    · cases hk : gradConsts (m.job j) g with
      | none => rw [applyElem_ungrouped m g tl false hw hc hk]; exact tackles_refl _ m
      | some c =>
        rw [applyElem_updated m g tl hw hc hk]
        exact tackles_trans (tackles_mono (tackles_updated m g c) (fun a h => ⟨hw, h⟩)) (tackles_handled _ _ g)
    · rw [applyElem_skipped m g tl false hw (Bool.eq_false_iff.mpr hc)]
      exact tackles_trans (tackles_mono (tackles_putElem m g _ _ _ _) (fun a h => ⟨hw, h⟩)) (tackles_handled _ _ g)
  · rw [applyElem_unwritten m g tl false (Bool.eq_false_iff.mpr hw)]
    exact tackles_handled _ m g

theorem jobs_lt_of_tackles {W : Nat → Prop} {m n : Module} (h : Tackles j W m n) (hs : (m.job j).state ≠ 0) : j < n.jobs.length := by
  obtain ⟨ds, o, ap, hb⟩ := h.own
  exact job_lt (by rw [hb]; exact hs)

/-- An element that its tackle may write is handled, unless it carries a value and has no group. -/
theorem applyElem_handles (hs : (m.job j).state ≠ 0) (hw : (m.job j).writes g.t g.e = true)
    (hk : g.carries = true → (gradConsts (m.job j) g).isSome = true) :
    ((m.applyElem j g tl false).1.job j).run.applied.get (appliedKey g.t g.e) = 1 := by
  by_cases hc : g.carries = true
  · obtain ⟨c, hk⟩ := Option.isSome_iff_exists.mp (hk hc)
    rw [applyElem_updated m g tl hw hc hk]
    exact handled_mark _ g (jobs_lt_of_tackles (tackles_updated m g c) hs)
  · rw [applyElem_skipped m g tl false hw (Bool.eq_false_iff.mpr hc)]
    exact handled_mark _ g (jobs_lt_of_tackles (tackles_putElem m g _ _ _ _) hs)

end

/-! ### A run of elements -/

/-- The bytes that tackles write of gradient elements. -/
def gradsBytes (b : Job) (gs : List Grad) (a : Nat) : Prop := ∃ g ∈ gs, b.writes g.t g.e = true ∧ gradBytes b g a

/-- A run of elements with agreeing datapaths. -/
def applyAll (j : Nat) (gs : List Grad) (x : Module × Tally) : Module × Tally :=
  gs.foldl (fun (acc : Module × Tally) g => acc.1.applyElem j g acc.2 false) x

theorem applyGrads_nil (m : Module) (gs : List Grad) : m.applyGrads j gs [] = applyAll j gs (m, Tally.zero) := rfl

theorem tackles_applyAll (gs : List Grad) (x : Module × Tally) :
    Tackles j (gradsBytes (x.1.job j) gs) x.1 (applyAll j gs x).1 := by
  induction gs generalizing x with
  | nil => exact tackles_refl _ x.1
  | cons g gs ih =>
    have one := tackles_applyElem (j := j) x.1 g x.2
    refine tackles_trans (tackles_mono one (fun a h => ⟨g, List.mem_cons_self, h⟩))
      (tackles_mono (ih (x.1.applyElem j g x.2 false)) ?_)
    rintro a ⟨g', hg, hw⟩
    obtain ⟨ds, o, ap, hb⟩ := one.own
    rw [hb] at hw
    exact ⟨g', List.mem_cons_of_mem g hg, hw⟩

theorem applyAll_handles (gs : List Grad) (x : Module × Tally) (hs : (x.1.job j).state ≠ 0) : AllHandled x.1 (applyAll j gs x).1 j gs := by
  induction gs generalizing x with
  | nil => exact fun g hg => absurd hg List.not_mem_nil
  | cons g gs ih =>
    intro g' hg hw hk
    rcases List.mem_cons.mp hg with rfl | hg
    · exact (tackles_applyAll gs _).marks _ (applyElem_handles x.1 g' x.2 hs hw hk)
    · obtain ⟨ds, o, ap, hb⟩ := (tackles_applyElem (j := j) x.1 g x.2).own
      refine ih (x.1.applyElem j g x.2 false) (by rw [hb]; exact hs) g' hg ?_ ?_
      · rw [hb]; exact hw
      · rw [hb]; exact hk

/-! ### The weight written -/

/-- Two bytes read back after they were written. -/
theorem two_bytes_write (mem : Mem) (a c : Nat) :
    ((mem.write a (leBytes 2 c)).get a).toNat + 256 * ((mem.write a (leBytes 2 c)).get (a + 1)).toNat = c % 2 ^ 16 := by
  rw [get_write, get_write, if_pos (by rw [leBytes_length]; omega), if_pos (by rw [leBytes_length]; omega)]
  simp [leBytes]
  omega

/-- The bytes of the weight of a gradient element that shares none with its state and its accumulators. -/
theorem weight_putWeight (m : Module) (g : Grad) (c : Nat) (sat : Bool) :
    ((m.putWeight j g.t g.e c sat).hbm.get (gradAddr (m.job j) g)).toNat +
      256 * ((m.putWeight j g.t g.e c sat).hbm.get (gradAddr (m.job j) g + 1)).toNat = c % 2 ^ 16 := by
  refine Eq.trans ?_ (two_bytes_write m.hbm (gradAddr (m.job j) g) c)
  unfold Module.putWeight
  dsimp only
  split <;> rfl

theorem weight_not_state {b : Job} {g : Grad} (ha : GradApart b g) {x : Nat} (hx : span (gradAddr b g) 2 x) : ¬ stateBytesOf b g.t g.e x := by
  rintro ⟨k, hk, h⟩
  have := ha.1 k hk
  unfold gradStateAddr at this
  unfold span at hx h
  omega

theorem weight_not_square {b : Job} {g : Grad} (ha : GradApart b g) {x : Nat} (hx : span (gradAddr b g) 2 x) : ¬ squareBytes b g x := by
  rintro ⟨k, hk, w, hw, h⟩
  have := ha.2 k hk w hw
  unfold span at hx h
  omega

/-- After the state too, the weight's bytes are those that were written. -/
theorem get_putElem (m : Module) (g : Grad) (ha : GradApart (m.job j) g) (w : Nat) (sat : Bool) (mc vc : Nat) {x : Nat}
    (hx : span (gradAddr (m.job j) g) 2 x) :
    (putElem m j g w sat mc vc).hbm.get x = (m.putWeight j g.t g.e w sat).hbm.get x := by
  refine (tackles_putElemState (j := j) (m.putWeight j g.t g.e w sat) g.t g.e mc vc).bytes x ?_
  obtain ⟨ds, o, ap, hb⟩ := (tackles_putWeight (j := j) m g.t g.e w sat).own
  rw [hb]
  exact weight_not_state ha hx

theorem get_updated (m : Module) (g : Grad) (c : Consts) (ha : GradApart (m.job j) g) {x : Nat} (hx : span (gradAddr (m.job j) g) 2 x) :
    (updated m j g c).hbm.get x = (m.putWeight j g.t g.e (newWeight m j g c).code (newWeight m j g c).sat).hbm.get x := by
  unfold updated
  dsimp only
  generalize newWeight m j g c = w
  generalize (fmtBF16.encode _).code = mc
  generalize (fmtBF16.encode _).code = vc
  refine Eq.trans ?_ (get_putElem m g ha w.code w.sat mc vc hx)
  split
  · refine (tackles_foldSquare _ g).bytes x ?_
    obtain ⟨ds, o, ap, hb⟩ := (tackles_putElem (j := j) m g w.code w.sat mc vc).own
    rw [hb]
    exact weight_not_square ha hx
  · rfl

/-- The weight that stands in the work half after a run of one element that carries a value. -/
theorem applyAll_weight (m : Module) (g : Grad) (tl : Tally) {c : Consts} (hw : (m.job j).writes g.t g.e = true) (hc : g.carries = true)
    (hk : gradConsts (m.job j) g = some c) (ha : GradApart (m.job j) g) :
    ((applyAll j [g] (m, tl)).1.hbm.get (gradAddr (m.job j) g)).toNat +
      256 * ((applyAll j [g] (m, tl)).1.hbm.get (gradAddr (m.job j) g + 1)).toNat = (newWeight m j g c).code % 2 ^ 16 := by
  rw [show (applyAll j [g] (m, tl)).1 = (m.applyElem j g tl false).1 from rfl, applyElem_updated m g tl hw hc hk,
    show (handled j g (updated m j g c)).hbm = (updated m j g c).hbm from rfl,
    get_updated m g c ha ⟨le_rfl, by omega⟩, get_updated m g c ha ⟨by omega, by omega⟩, weight_putWeight]

end Sys2Proof.Proofs
end

section
/-!
PROOFS. Slices that arrive (R51, R52, R247, R267 to R280, R284): at the tackles in a rope of size 1, and at the buckets of a rope.
-/
namespace Sys2Proof.Proofs

open Sys2Proof.Machine Sys2Proof.Laws

/-! ### A slice at the tackles -/

theorem jobs_hbmReads (fu : Fuses) (m : Module) (i : Nat) (rs : List (Nat × Nat)) : (m.hbmReads fu i rs).jobs = m.jobs :=
  keeps_hbmReads fu m i rs .jobs (by decide)

theorem job_hbmReads (fu : Fuses) (m : Module) (i : Nat) (rs : List (Nat × Nat)) (j : Nat) : (m.hbmReads fu i rs).job j = m.job j :=
  congrArg (fun l => l.getD j Job.free) (jobs_hbmReads fu m i rs)

/-- A change of a run before reads of HBM or after them. -/
theorem hbmReads_onRun (fu : Fuses) (m : Module) (i j : Nat) (f : Run → Run) (rs : List (Nat × Nat)) :
    (m.onRun j f).hbmReads fu i rs = (m.hbmReads fu i rs).onRun j f := by
  rw [show m.onRun j f = withJobs (modifyAt (fun b => { b with run := f b.run }) m.jobs j) m from rfl, hbmReads_withJobs,
    Module.onRun, Module.onJob, jobs_hbmReads]
  rfl

/-- The oldest released slice taken off its queue. -/
def tookSlice (m : Module) (j : Nat) (rest : List Slice) : Module := m.onRun j (fun r => { r with slices := rest })

/-- The maxima and the saturations of a slice noted in its job. -/
def notedSlice (m : Module) (j : Nat) (x : Slice) (gs : List Grad) : Module :=
  m.onRun j (fun r => { r with
    segMax := x.maxExp.foldl (fun l y => putMax l (segKey x.tensor y.1) y.2) r.segMax,
    satCount := if (gs.any (fun g => r.applied.get (appliedKey g.t g.e) == 0)) then r.satCount.add x.tensor x.satTotal else r.satCount })

/-- From `R` to `B` job `j` alone changed, and only in its run: the queue of its slices is `rest`. -/
structure Begun (j : Nat) (rest : List Slice) (R B : Module) : Prop where
  keeps : KeepsBut [.jobs] R B
  others : OtherJobs j R B
  own : ∃ r, B.job j = { R.job j with run := r } ∧ r.slices = rest

/-- The tackles begin on a slice. -/
theorem begun_slice {R : Module} {j : Nat} (hl : j < R.jobs.length) (x : Slice) (rest : List Slice) (gs : List Grad) :
    Begun j rest R ((notedSlice (tookSlice R j rest) j x gs).countSkips j gs) := by
  refine ⟨keeps_trans (keeps_trans (keeps_onRun R j _) (keeps_onRun _ j _)) (keeps_onRun _ j _), fun i hi =>
    ((job_onRun_other _ j i _ hi).trans (job_onRun_other _ j i _ hi)).trans (job_onRun_other _ j i _ hi), ?_⟩
  unfold Module.countSkips
  rw [job_onRun_self _ j _ (by simpa [notedSlice, tookSlice, onRun_len] using hl), notedSlice,
    job_onRun_self _ j _ (by simpa [tookSlice, onRun_len] using hl), tookSlice, job_onRun_self _ j _ hl]
  exact ⟨_, rfl, rfl⟩

/-- The reports of skipped elements show in the dictionary, in the reports and in the job's count of them. -/
structure Reported (j : Nat) (m n : Module) : Prop where
  keeps : KeepsBut [.jobs, .od, .log, .report] m n
  others : OtherJobs j m n
  own : ∃ sk, n.job j = { m.job j with run := { (m.job j).run with skips := sk } }

theorem keeps_skippedEvent (fu : Fuses) (m : Module) (j t n : Nat) : KeepsBut [.od, .log, .report] m (m.skippedEvent fu j t n) :=
  keeps_ite (keeps_refl _ m) (keeps_still (still_event fu m _ _))

theorem reported_reportSkips (fu : Fuses) (m : Module) {j : Nat} (hl : j < m.jobs.length) : Reported j m (m.reportSkips fu j) := by
  unfold Module.reportSkips
  dsimp only
  generalize hn : m.onRun j _ = n
  have events : ∀ (l : List (Nat × Nat × Nat)) (n : Module),
      KeepsBut [.od, .log, .report] n (l.foldl (fun (m : Module) x => m.skippedEvent fu j x.2.1 x.2.2) n) := fun l =>
    kb_foldl l _ (fun m x => keeps_skippedEvent fu m j _ _)
  have jobs : ∀ (l : List (Nat × Nat × Nat)) (i : Nat),
      (l.foldl (fun (m : Module) x => m.skippedEvent fu j x.2.1 x.2.2) n).job i = n.job i := fun l i =>
    congrArg (fun l => l.getD i Job.free) (events l n .jobs (by decide))
  refine ⟨keeps_trans (hn ▸ keeps_mono (keeps_onRun m j _) (by decide)) (keeps_mono (events _ n) (by decide)), fun i hi => ?_, ?_⟩
  · rw [jobs, ← hn, job_onRun_other _ _ _ _ hi]
  · rw [jobs, ← hn, job_onRun_self _ _ _ hl]
    exact ⟨_, rfl⟩

/-- What a run of elements counted, and its skipped elements. -/
theorem reported_count (fu : Fuses) (m : Module) (tl : Tally) {j : Nat} (hl : j < m.jobs.length) :
    Reported j m ((m.count tl).reportSkips fu j) := by
  have counted : KeepsBut [.od] m (m.count tl) := by simp [Module.count, keeps_refl]
  generalize m.count tl = n at counted ⊢
  have job : ∀ i, n.job i = m.job i := fun i => congrArg (fun l => l.getD i Job.free) (counted .jobs (by decide))
  obtain ⟨keeps, others, sk, own⟩ := reported_reportSkips fu n (j := j) (by rw [counted .jobs (by decide)]; exact hl)
  exact ⟨keeps_trans (keeps_mono counted (by decide)) keeps, fun i hi => (others i hi).trans (job i), sk, by rw [own, job]⟩

/-- A slice at its tackles, after the committed bytes were read. -/
def slicedTackles (fu : Fuses) (R : Module) (j : Nat) (x : Slice) (rest : List Slice) (gs : List Grad) : Module :=
  let y := applyAll j gs ((notedSlice (tookSlice R j rest) j x gs).countSkips j gs, Tally.zero)
  (y.1.count y.2).reportSkips fu j

theorem poisonedGrad_tookSlice (m : Module) {j : Nat} (hl : j < m.jobs.length) (rest : List Slice) (gs : List Grad) :
    (tookSlice m j rest).poisonedGrad j gs = m.poisonedGrad j gs := by
  unfold Module.poisonedGrad Module.statePoison Module.facPoison Module.statePoisonAt
  rw [tookSlice, job_onRun_self m j _ hl]
  rfl

theorem gradRanges_tookSlice (m : Module) {j : Nat} (hl : j < m.jobs.length) (rest : List Slice) (gs : List Grad) :
    (tookSlice m j rest).gradRanges j gs = m.gradRanges j gs := by
  unfold Module.gradRanges
  rw [tookSlice, job_onRun_self m j _ hl]
  rfl

theorem mismatches_nil (b : Job) (gs : List Grad) : b.mismatches gs [] = [] := by
  simp [Job.mismatches]

theorem sliceToTackles_took (fu : Fuses) (m : Module) {j : Nat} (hl : j < m.jobs.length) (x : Slice) (rest : List Slice)
    (hp : m.poisonedGrad j ((m.job j).sliceGrads x) = none) :
    (tookSlice m j rest).sliceToTackles fu j x [] =
      slicedTackles fu (m.hbmReads fu j (m.gradRanges j ((m.job j).sliceGrads x))) j x rest ((m.job j).sliceGrads x) := by
  have hg : ((tookSlice m j rest).job j).sliceGrads x = (m.job j).sliceGrads x := by
    rw [tookSlice, job_onRun_self m j _ hl]
    rfl
  unfold Module.sliceToTackles
  dsimp only
  rw [hg, poisonedGrad_tookSlice m hl, hp, gradRanges_tookSlice m hl, mismatches_nil]
  dsimp only
  rw [if_pos (show ([] : List Grad).isEmpty = true from rfl), tookSlice, hbmReads_onRun, applyGrads_nil]
  rfl

theorem exec_weightGradientSlice_tackles {s : State} {j : Nat} {x : Slice} {rest : List Slice} (hj : j < 16) (hw : s.m.powered = true)
    (h3 : (s.m.job j).state = 3) (hr : (s.m.job j).run.mustReplay = none) (hq : (s.m.job j).run.slices = x :: rest)
    (hi : s.m.inRope j = false) (ht : s.m.tackleWaits j ((s.m.job j).sliceGrads x) = false)
    (hp : s.m.poisonedGrad j ((s.m.job j).sliceGrads x) = none) :
    exec (.weightGradientSlice j [] []) s = .next { s with
      m := slicedTackles s.fuse (s.m.hbmReads s.fuse j (s.m.gradRanges j ((s.m.job j).sliceGrads x))) j x rest
        ((s.m.job j).sliceGrads x) } := by
  refine (actOn_powered s _ _ (decide_eq_true hj) hw).trans (congrArg (fun m => Host.Outcome.next { s with m := m }) ?_)
  have none : (x.elems.zipIdx).find? (fun e => ([] : List Nat).contains e.2) = none := by simp
  dsimp only
  rw [hq]
  dsimp only
  rw [if_neg (by rw [h3, hr]; decide), if_neg (by rw [hi]; decide), if_neg (by rw [ht]; decide), none]
  exact sliceToTackles_took s.fuse s.m (job_lt (by rw [h3]; decide)) x rest hp

/-! ### What the tackles make of the job and of HBM -/

/-- The result of a rule looks at HBM and at the job, but not at the job's run. -/
theorem newWeight_congr {m n : Module} {j : Nat} {r : Run} (hh : n.hbm = m.hbm) (hj : n.job j = { m.job j with run := r })
    (g : Grad) (c : Consts) : newWeight n j g c = newWeight m j g c := by
  unfold newWeight result Module.rule Module.weightCode Module.stateCodes Module.stateCode Module.facCode Module.stateAt
  rw [hh, hj]
  rfl

/-- The weight of a slice of one element, from a module whose HBM is that of `R` and whose job is but for its run. -/
theorem applyAll_newWeight {R B : Module} {j : Nat} {r : Run} (hbm : B.hbm = R.hbm) (hb : B.job j = { R.job j with run := r })
    {gs : List Grad} {g : Grad} {c : Consts} (hg : gs = [g]) (hw : (R.job j).writes g.t g.e = true) (hc : g.carries = true)
    (hk : gradConsts (R.job j) g = some c) (ha : GradApart (R.job j) g) :
    ((applyAll j gs (B, Tally.zero)).1.hbm.get (gradAddr (R.job j) g)).toNat +
      256 * ((applyAll j gs (B, Tally.zero)).1.hbm.get (gradAddr (R.job j) g + 1)).toNat = (newWeight R j g c).code % 2 ^ 16 := by
  have written := applyAll_weight B g Tally.zero (j := j) (c := c) (by rw [hb]; exact hw) hc (by rw [hb]; exact hk) (by rw [hb]; exact ha)
  rw [newWeight_congr hbm hb, hb] at written
  exact hg ▸ written

section
variable {R B Y n : Module} {j : Nat} {rest : List Slice} {gs : List Grad}

/-- The tackles and the reports take no slice off the queue. -/
theorem slices_reported {W : Nat → Prop} (begun : Begun j rest R B) (tackles : Tackles j W B Y) (reported : Reported j Y n) :
    (n.job j).run.slices = rest := by
  obtain ⟨r, hB, hr⟩ := begun.own
  obtain ⟨ds, o, ap, hY⟩ := tackles.own
  obtain ⟨sk, hn⟩ := reported.own
  rw [hn, hY, hB]
  exact hr

theorem onlyGrads_reported (begun : Begun j rest R B) (tackles : Tackles j (gradsBytes (B.job j) gs) B Y) (reported : Reported j Y n) :
    OnlyGrads R n j gs := by
  intro a ha
  obtain ⟨r, hB, -⟩ := begun.own
  have hn : n.hbm = Y.hbm := reported.keeps .hbm (by decide)
  have hbm : B.hbm = R.hbm := begun.keeps .hbm (by decide)
  rw [hn, tackles.bytes a, hbm]
  rintro ⟨g, hg, hw, hx⟩
  rw [hB] at hw hx
  exact hx (ha g hg hw)

theorem allHandled_reported (begun : Begun j rest R B) (handles : AllHandled B Y j gs) (reported : Reported j Y n) :
    AllHandled R n j gs := by
  intro g hg hw hk
  obtain ⟨r, hB, -⟩ := begun.own
  obtain ⟨sk, hn⟩ := reported.own
  rw [hn]
  refine handles g hg ?_ (fun hc => ?_)
  · rw [hB]; exact hw
  · rw [hB]; exact hk hc

end

/-- What a slice at its tackles comes to. -/
theorem slicedTackles_spec (fu : Fuses) (R : Module) {j : Nat} (hs : (R.job j).state ≠ 0) (x : Slice) (rest : List Slice) (gs : List Grad) :
    let n := slicedTackles fu R j x rest gs
    (n.job j).run.slices = rest ∧ OnlyGrads R n j gs ∧ AllHandled R n j gs ∧ OtherJobs j R n ∧
      (∀ g c, gs = [g] → (R.job j).writes g.t g.e = true → g.carries = true → gradConsts (R.job j) g = some c → GradApart (R.job j) g →
        (n.hbm.get (gradAddr (R.job j) g)).toNat + 256 * (n.hbm.get (gradAddr (R.job j) g + 1)).toNat =
          (newWeight R j g c).code % 2 ^ 16) ∧
      KeepsBut [.jobs, .hbm, .hbmPoison, .od, .log, .report] R n := by
  have begun := begun_slice (job_lt hs) x rest gs
  unfold slicedTackles
  generalize (notedSlice (tookSlice R j rest) j x gs).countSkips j gs = B at begun ⊢
  obtain ⟨r, hb, -⟩ := begun.own
  have hB : (B.job j).state ≠ 0 := by rw [hb]; exact hs
  have tackles := tackles_applyAll (j := j) gs (B, Tally.zero)
  have handles := applyAll_handles gs (B, Tally.zero) hB
  have weight := fun g c (hg : gs = [g]) => applyAll_newWeight (g := g) (c := c) (begun.keeps .hbm (by decide)) hb hg
  have hY : j < (applyAll j gs (B, Tally.zero)).1.jobs.length := jobs_lt_of_tackles tackles hB
  generalize applyAll j gs (B, Tally.zero) = Y at tackles handles weight hY ⊢
  obtain ⟨Y, tl⟩ := Y
  have reported := reported_count fu Y tl hY
  dsimp only at tackles handles weight ⊢
  generalize (Y.count tl).reportSkips fu j = n at reported ⊢
  have hn : n.hbm = Y.hbm := reported.keeps .hbm (by decide)
  refine ⟨slices_reported begun tackles reported, onlyGrads_reported begun tackles reported, allHandled_reported begun handles reported,
    fun i hi => ((reported.others i hi).trans (tackles.others i hi)).trans (begun.others i hi), ?_, ?_⟩
  · rw [hn]
    exact weight
  · exact keeps_trans (keeps_mono begun.keeps (by decide)) 
      (keeps_trans (keeps_mono tackles.keeps (by decide)) (keeps_mono reported.keeps (by decide)))

/-! ### A slice at the buckets -/

/-- Buckets of job `j` changed, none of them in its `π`. -/
structure OnBuckets {β : Type} (π : Bucket → β) (j : Nat) (m n : Module) : Prop where
  keeps : KeepsBut [.jobs] m n
  others : OtherJobs j m n
  own : ∃ bk, n.job j = { m.job j with run := { (m.job j).run with buckets := bk } } ∧ bk.length = (m.job j).run.buckets.length
  same : ∀ k, π ((n.job j).bucket k) = π ((m.job j).bucket k)

section
variable {β : Type} {π : Bucket → β} {j : Nat}

theorem onBuckets_refl (m : Module) : OnBuckets π j m m :=
  ⟨keeps_refl _ m, fun _ _ => rfl, ⟨_, rfl, rfl⟩, fun _ => rfl⟩

theorem onBuckets_trans {a b c : Module} (h : OnBuckets π j a b) (k : OnBuckets π j b c) : OnBuckets π j a c := by
  obtain ⟨x, hb, hx⟩ := h.own
  obtain ⟨y, hc, hy⟩ := k.own
  refine ⟨keeps_trans h.keeps k.keeps, fun i hi => (k.others i hi).trans (h.others i hi), ⟨y, ?_, ?_⟩, fun i => (k.same i).trans (h.same i)⟩
  · rw [hc, hb]
  · rw [hy, hb]
    exact hx

theorem onBuckets_foldl {α : Type} (l : List α) (f : Module → α → Module) (hf : ∀ m a, OnBuckets π j m (f m a)) (m : Module) :
    OnBuckets π j m (l.foldl f m) := by
  induction l generalizing m with
  | nil => exact onBuckets_refl m
  | cons a l ih => exact onBuckets_trans (hf m a) (ih _)

/-- The buckets after one of them changed. -/
theorem bucket_onBucket (m : Module) (k i : Nat) (f : Bucket → Bucket) (hl : j < m.jobs.length) :
    ((m.onBucket j k f).job j).bucket i =
      if i = k ∧ k < (m.job j).run.buckets.length then f ((m.job j).bucket k) else (m.job j).bucket i := by
  rw [Module.onBucket, job_onRun_self m j _ hl]
  exact modifyAt_getD ..

theorem job_onBucket (m : Module) (k : Nat) (f : Bucket → Bucket) : ∃ bk,
    (m.onBucket j k f).job j = { m.job j with run := { (m.job j).run with buckets := bk } } ∧ bk.length = (m.job j).run.buckets.length := by
  rw [Module.onBucket, Module.onRun, job_onJob]
  split
  · exact ⟨_, rfl, by simp⟩
  · exact ⟨_, rfl, rfl⟩

theorem onBuckets_onBucket (m : Module) (k : Nat) (f : Bucket → Bucket) (hf : ∀ b, π (f b) = π b) :
    OnBuckets π j m (m.onBucket j k f) := by
  refine ⟨keeps_onRun m j _, fun i hi => job_onRun_other m j i _ hi, job_onBucket m k f, fun i => ?_⟩
  by_cases hl : j < m.jobs.length
  · rw [bucket_onBucket m k i f hl]
    split
    next h => rw [hf, h.1]
    · rfl
  · rw [Module.onBucket, Module.onRun, job_onJob, if_neg (fun h => hl h.2)]

/-- Buckets that become FULL keep their elements. -/
theorem onBuckets_fillBuckets (m : Module) : OnBuckets Bucket.elems j m (m.fillBuckets j) := by
  refine onBuckets_foldl _ _ (fun m k => ?_) m
  dsimp only
  split
  · exact onBuckets_onBucket m k _ (fun _ => rfl)
  · exact onBuckets_refl m

end

/-- The state and the elements of a bucket. -/
def held (b : Bucket) : Nat × List (Nat × Nat) := (b.state, b.elems)

/-- A slice of one element at its bucket, after its segments' saturations and maxima. -/
theorem sliceToBuckets_single (fu : Fuses) (m : Module) (j : Nat) {x : Slice} {e c : Nat} (poisoned : List Nat) (he : x.elems = [(e, c)]) :
    ∃ A ps bs, OnBuckets held j m A ∧ ∀ n, A.placeElem fu j x.core x.tensor (e, c) (poisoned.contains 0) = (n, false) →
      m.sliceToBuckets fu j x poisoned = (n.cleanCovered j 0 2 ps bs).fillBuckets j := by
  unfold Module.sliceToBuckets
  dsimp only
  generalize hS : List.foldl _ m (List.filter _ x.sats) = S
  have sats : OnBuckets held j m S := by
    rw [← hS]
    refine onBuckets_foldl _ _ (fun n y => ?_) m
    split
    · exact onBuckets_onBucket n _ _ (fun _ => rfl)
    · exact onBuckets_refl n
  generalize hA : List.foldl _ S x.maxExp = A
  have maxes : OnBuckets held j S A := by
    rw [← hA]
    refine onBuckets_foldl _ _ (fun n y => ?_) S
    split
    · split
      · exact onBuckets_onBucket n _ _ (fun _ => rfl)
      · exact onBuckets_refl n
    · exact onBuckets_refl n
  refine ⟨A, ((m.job j).slicePlaces x poisoned).map Prod.fst, (((m.job j).slicePlaces x poisoned).filter Prod.snd).map Prod.fst,
    onBuckets_trans sats maxes, fun n hn => ?_⟩
  rw [he]
  simp only [List.zipIdx_cons, List.zipIdx_nil, List.foldl_cons, List.foldl_nil, Bool.false_eq_true, if_false, hn]

/-- An element that its bucket does not hold yet joins it. -/
theorem placeElem_joins (fu : Fuses) {m : Module} {j core t e c : Nat} {p : Nat × Nat} {r : Reduce} (bad : Bool)
    (hp : (m.job j).segPlace t (e / 4096) = some p) (hr : (m.job j).prog.reduce = some r) (h0 : ((m.job j).bucket p.1).state = 0)
    (hn : ((m.job j).bucket p.1).elems.lookup (4096 * p.2 + e % 4096) = none) :
    m.placeElem fu j core t (e, c) bad =
      ((m.storeAt j 0 2 (r.slotAddr p.1 (4096 * p.2 + e % 4096)) (leBytes 1 (if c = noCode then 0 else c)) bad).onBucket j p.1 (fun k =>
        { k with elems := k.elems ++ [(4096 * p.2 + e % 4096, c)],
                 nonfins := if c = 0x80 then k.nonfins.add (r.entryNo p.1 t (e / 4096)) 1 else k.nonfins }), false) := by
  unfold Module.placeElem Module.stage
  dsimp only
  rw [hp, hr]
  dsimp only
  rw [if_neg (by rw [h0]; decide), hn]

/-- An element in the bucket that it joined. -/
structure Joins (j k : Nat) (y : Nat × Nat) (m n : Module) : Prop where
  keeps : KeepsBut [.jobs, .hbm, .hbmPoison] m n
  others : OtherJobs j m n
  slices : (n.job j).run.slices = (m.job j).run.slices
  elems : ((n.job j).bucket k).elems = ((m.job j).bucket k).elems ++ [y]

/-- An element stored in its staging slot and put into its bucket. -/
theorem joins_onBucket {m T : Module} {j k : Nat} {y : Nat × Nat} (f : Bucket → Bucket) (hT : KeepsBut [.hbm, .hbmPoison] m T)
    (hl : j < m.jobs.length) (hk : k < (m.job j).run.buckets.length) (hf : ∀ b, (f b).elems = b.elems ++ [y]) :
    Joins j k y m (T.onBucket j k f) := by
  have jobs : T.jobs = m.jobs := hT .jobs (by decide)
  have job : ∀ i, T.job i = m.job i := fun i => congrArg (fun l => l.getD i Job.free) jobs
  refine ⟨keeps_trans (keeps_mono hT (by decide)) (keeps_mono (keeps_onRun T j _) (by decide)),
    fun i hi => (job_onRun_other T j i _ hi).trans (job i), ?_, ?_⟩
  · obtain ⟨bk, hb, -⟩ := job_onBucket (j := j) T k f
    rw [hb, job]
  · rw [bucket_onBucket T k k f (jobs ▸ hl), job, if_pos ⟨rfl, hk⟩, hf]

theorem joins_trans_left {j k : Nat} {y : Nat × Nat} {m A n : Module} (h : OnBuckets held j m A) (hn : Joins j k y A n) :
    Joins j k y m n := by
  obtain ⟨bk, hb, -⟩ := h.own
  refine ⟨keeps_trans (keeps_mono h.keeps (by decide)) hn.keeps, fun i hi => (hn.others i hi).trans (h.others i hi), ?_, ?_⟩
  · rw [hn.slices, hb]
  · exact hn.elems.trans (congrArg (· ++ [y]) (congrArg Prod.snd (h.same k)))

theorem joins_trans_right {j k : Nat} {y : Nat × Nat} {m n N : Module} (h : Joins j k y m n) (hN : OnBuckets Bucket.elems j n N) :
    Joins j k y m N := by
  obtain ⟨bk, hb, -⟩ := hN.own
  refine ⟨keeps_trans h.keeps (keeps_mono hN.keeps (by decide)), fun i hi => (hN.others i hi).trans (h.others i hi), ?_, ?_⟩
  · rw [hb]
    exact h.slices
  · rw [hN.same k, h.elems]

theorem keeps_cleanCovered (m : Module) (j : Nat) (ps bs : List Nat) : KeepsBut [.hbmPoison] m (m.cleanCovered j 0 2 ps bs) := by
  intro p hp
  cases p <;> simp_all [Part.same, Module.cleanCovered]

theorem joins_cleanCovered {j k : Nat} {y : Nat × Nat} {m n : Module} (h : Joins j k y m n) (ps bs : List Nat) :
    Joins j k y m (n.cleanCovered j 0 2 ps bs) := by
  have job : ∀ i, (n.cleanCovered j 0 2 ps bs).job i = n.job i := fun i => rfl
  exact ⟨keeps_trans h.keeps (keeps_mono (keeps_cleanCovered n j ps bs) (by decide)), fun i hi => (job i).trans (h.others i hi),
    by rw [job, h.slices], by rw [job, h.elems]⟩

/-- A released element in a rope (R300). -/
theorem joins_sliceToBuckets (fu : Fuses) {m : Module} {j : Nat} {x : Slice} {e c : Nat} {p : Nat × Nat}
    (poisoned : List Nat) (hs : (m.job j).state ≠ 0) (he : x.elems = [(e, c)])
    (hp : (m.job j).segPlace x.tensor (e / 4096) = some p) (hr : (m.job j).prog.reduce.isSome = true)
    (hk : p.1 < (m.job j).run.buckets.length) (h0 : ((m.job j).bucket p.1).state = 0)
    (hn : ((m.job j).bucket p.1).elems.lookup (4096 * p.2 + e % 4096) = none) :
    Joins j p.1 (4096 * p.2 + e % 4096, c) m (m.sliceToBuckets fu j x poisoned) := by
  obtain ⟨r, hr⟩ := Option.isSome_iff_exists.mp hr
  obtain ⟨A, ps, bs, noted, placed⟩ := sliceToBuckets_single fu m j poisoned he
  obtain ⟨bk, hA, hlen⟩ := noted.own
  have heldA := noted.same p.1
  have elems : ((A.job j).bucket p.1).elems = ((m.job j).bucket p.1).elems := congrArg Prod.snd heldA
  rw [placed _ (placeElem_joins fu (poisoned.contains 0) (by rw [hA]; exact hp) (by rw [hA]; exact hr)
    ((congrArg Prod.fst heldA).trans h0) (by rw [elems]; exact hn))]
  refine joins_trans_right (joins_cleanCovered (joins_trans_left noted
    (joins_onBucket _ ?_ ?_ ?_ (fun _ => rfl))) ps bs) (onBuckets_fillBuckets _)
  · obtain ⟨-, -, keeps, -⟩ := same_storeAt A j (r.slotAddr p.1 (4096 * p.2 + e % 4096)) (leBytes 1 (if c = noCode then 0 else c))
      (poisoned.contains 0)
    intro q hq
    by_cases hj : q = .jobs
    · subst hj; rfl
    · exact keeps q (by simp_all)
  · exact job_lt (by rw [hA]; exact hs)
  · rw [hA]
    exact hlen ▸ hk

theorem exec_weightGradientSlice_buckets {s : State} {j : Nat} {x : Slice} {rest : List Slice} (poisoned differ : List Nat) (hj : j < 16)
    (hw : s.m.powered = true) (h3 : (s.m.job j).state = 3) (hr : (s.m.job j).run.mustReplay = none)
    (hq : (s.m.job j).run.slices = x :: rest) (hi : s.m.inRope j = true)
    (ht : s.m.sliceWaits j x.tensor (x.elems.map Prod.fst) = false) :
    exec (.weightGradientSlice j poisoned differ) s =
      .next { s with m := (tookSlice s.m j rest).sliceToBuckets s.fuse j x poisoned } := by
  refine (actOn_powered s _ _ (decide_eq_true hj) hw).trans (congrArg (fun m => Host.Outcome.next { s with m := m }) ?_)
  dsimp only
  rw [hq]
  dsimp only
  rw [if_neg (by rw [h3, hr]; decide), if_pos hi, if_neg (by rw [ht]; decide)]
  rfl

/-! ### Slices -/

/-- Settles O43: the elements at the tackles one after the other, each of which writes its own bytes alone, and the element at its
bucket. -/
theorem slicesReachTheirTackles : Obligations.SlicesReachTheirTackles := by
  intro s j x rest hj hw h3 hr hq b gs
  have hs : (s.m.job j).state ≠ 0 := by rw [h3]; decide
  refine ⟨fun hi ht hp => ?_, fun hi ht e c p poisoned differ he hp hred hk h0 hn => ?_⟩
  · intro m
    have own : m.job j = b := job_hbmReads s.fuse s.m j _ j
    obtain ⟨slices, only, all, others, weight, keeps⟩ := slicedTackles_spec s.fuse m (j := j) (by rw [own]; exact hs) x rest gs
    rw [own] at weight
    refine ⟨_, exec_weightGradientSlice_tackles hj hw h3 hr hq hi ht hp, rfl, rfl, slices, only, all, others, ?_, keeps⟩
    intro g c hg hwr hc hk ha st
    refine (weight g c hg hwr hc hk ha).trans ?_
    unfold newWeight result
    rw [own]
  · have took : (tookSlice s.m j rest).job j = { b with run := { b.run with slices := rest } } := job_onRun_self s.m j _ (job_lt hs)
    have joins := joins_sliceToBuckets s.fuse (m := tookSlice s.m j rest) (j := j) (x := x) (p := p) poisoned
      (by rw [took]; exact hs) he (by rw [took]; exact hp) (by rw [took]; exact hred) (by rw [took]; exact hk)
      (by rw [took]; exact h0) (by rw [took]; exact hn)
    refine ⟨_, exec_weightGradientSlice_buckets poisoned differ hj hw h3 hr hq hi ht, rfl, rfl, ?_, ?_, fun i hi => ?_, ?_⟩
    · exact joins.slices.trans (by rw [took])
    · exact joins.elems.trans (by rw [took]; rfl)
    · exact (joins.others i hi).trans (job_onRun_other s.m j i _ hi)
    · exact keeps_trans (keeps_mono (keeps_onRun s.m j _) (by decide)) (keeps_mono joins.keeps (by decide))

end Sys2Proof.Proofs
end

section
/-!
PROOFS. The row groups of a MATRIX instruction (R69).
-/
namespace Sys2Proof.Proofs

open Sys2Proof.Machine Sys2Proof.Laws

/-- The model's rounded-up quotient is the library's. -/
theorem ceilDiv_eq (n d : Nat) : Machine.ceilDiv n d = n ⌈/⌉ d := by
  unfold Machine.ceilDiv
  split
  · subst_vars; simp
  · rfl

/-- There are groups enough for 512 rows of each on every array. -/
theorem length_le_groupCount (m : Nat) {a : Nat} (ha : 0 < a) : m ≤ 512 * a * groupCountOf m a := by
  rw [groupCountOf, ceilDiv_eq, ← ceilDiv_le_iff_le_mul (by omega)]

/-- The groups together have room for every row (R69). -/
theorem length_le_groups (m : Nat) {a : Nat} (ha : 0 < a) : m ≤ groupCountOf m a * (a * rowsPerArray m a) := by
  obtain rfl | hm := Nat.eq_zero_or_pos m
  · exact Nat.zero_le _
  have room := length_le_groupCount m ha
  have some_group : 0 < groupCountOf m a := Nat.pos_of_ne_zero (fun h => by rw [h] at room; omega)
  have dealt : m ≤ a * groupCountOf m a * rowsPerArray m a := by
    rw [rowsPerArray, ceilDiv_eq, ← ceilDiv_le_iff_le_mul (Nat.mul_pos ha some_group)]
  calc m ≤ a * groupCountOf m a * rowsPerArray m a := dealt
    _ = groupCountOf m a * (a * rowsPerArray m a) := by ring

/-- An array takes at most 512 rows of a group (R69). -/
theorem rowsPerArray_le (m : Nat) {a : Nat} (ha : 0 < a) : rowsPerArray m a ≤ 512 := by
  rw [rowsPerArray, ceilDiv_eq]
  obtain h | h := Nat.eq_zero_or_pos (a * groupCountOf m a)
  · rw [h, ceilDiv_zero]; exact Nat.zero_le _
  · rw [ceilDiv_le_iff_le_mul h]
    exact (length_le_groupCount m ha).trans_eq (by ring)

/-- The members of a slice by their positions. -/
theorem mem_slice {α : Type} (l : List α) (o n : Nat) (x : α) :
    x ∈ slice l o n ↔ ∃ k, o ≤ k ∧ k < o + n ∧ l[k]? = some x := by
  simp only [slice, List.mem_iff_getElem?, List.getElem?_take, List.getElem?_drop]
  constructor
  · rintro ⟨k, hk⟩
    split at hk
    · exact ⟨o + k, by omega, by omega, hk⟩
    · cases hk
  · rintro ⟨k, h1, h2, hk⟩
    refine ⟨k - o, ?_⟩
    rw [if_pos (by omega), Nat.add_sub_cancel' h1, hk]

/-- A row group holds the rows whose position, counted in groups, is its number. -/
theorem mem_rowsOf {rows : List Nat} {a k r : Nat} (nodup : rows.Nodup) (hk : rows[k]? = some r)
    (wide : 0 < a * rowsPerArray rows.length a) (gi : Nat) :
    r ∈ rowsOf rows a gi ↔ gi = k / (a * rowsPerArray rows.length a) := by
  have lt : k < rows.length := (List.getElem?_eq_some_iff.mp hk).1
  rw [rowsOf, mem_slice, eq_comm, Nat.div_eq_iff wide]
  constructor
  · rintro ⟨l, h1, h2, hl⟩
    obtain rfl : k = l := (List.getElem?_inj lt nodup).mp (hk.trans hl.symm)
    exact ⟨h1, by omega⟩
  · rintro ⟨h1, h2⟩
    exact ⟨k, h1, by omega, hk⟩

/-- Settles O5: a row's group is its position divided by the rows of a group. -/
theorem rowGroupsTakeEveryRowOnce : Obligations.RowGroupsTakeEveryRowOnce := by
  intro rows a ha nodup
  refine ⟨fun r hr => ?_, fun gi r hr => List.mem_of_mem_drop (List.mem_of_mem_take hr), rowsPerArray_le _ ha⟩
  obtain ⟨k, hk⟩ := List.mem_iff_getElem?.mp hr
  have lt : k < rows.length := (List.getElem?_eq_some_iff.mp hk).1
  have room := length_le_groups rows.length ha
  have wide : 0 < a * rowsPerArray rows.length a := Nat.pos_of_ne_zero (fun h => by rw [h] at room; omega)
  have group := mem_rowsOf nodup hk wide
  exact ⟨k / (a * rowsPerArray rows.length a), Nat.div_lt_of_lt_mul (by rw [Nat.mul_comm]; omega), (group _).mpr rfl,
    fun gj hj => (group gj).mp hj⟩

end Sys2Proof.Proofs
end

section
/-!
PROOFS. A MATRIX instruction at its issue (R68, R73, R74, R96, R140, R214).
-/
namespace Sys2Proof.Proofs

open Sys2Proof Sys2Proof.Machine Sys2Proof.Laws

/-! ### Reads that stall, slots that are consumed -/

/-- A core-wide stall shows in its core and the counts only. -/
theorem keeps_stallCore (m : Module) (g n : Nat) : KeepsBut [.cores, .od] m (m.stallCore g n) := by
  unfold Module.stallCore
  split <;> simp [keeps_refl]

theorem core_stallCore_other (m : Module) (g n : Nat) {h : Nat} (hn : h ≠ g) : (m.stallCore g n).core h = m.core h := by
  unfold Module.stallCore
  split
  · rfl
  · rw [core_of_bump, core_onCore_other _ _ _ _ hn]

theorem core_wideStall_other (m : Module) (g : Nat) {h : Nat} (hn : h ≠ g) : (m.wideStall g).core h = m.core h :=
  core_stallCore_other _ g 3 hn

/-- So do the stalls that reads of remapped rows pay. -/
theorem keeps_remapReads (m : Module) (g : Nat) (slots : List Nat) : KeepsBut [.cores, .od] m (m.remapReads g slots) :=
  kb_foldl _ _ (fun m _ => keeps_trans (keeps_mono (keeps_bump m _ _) (by simp)) (keeps_stallCore _ g 3)) m

@[simp] theorem remapReads_length (m : Module) (g : Nat) (slots : List Nat) :
    (m.remapReads g slots).cores.length = m.cores.length :=
  foldl_length m _ _ (fun m _ => wideStall_length m g)

theorem core_remapReads_other (m : Module) (g : Nat) (slots : List Nat) {h : Nat} (hn : h ≠ g) :
    (m.remapReads g slots).core h = m.core h :=
  foldl_keep (fun m => m.core h) _ _ (fun m _ => core_wideStall_other m g hn) m

/-- A core with slots set EMPTY: in tag-bypass mode it changes no tag (R96, R100). -/
def emptied (ss : List Nat) (c : Core) : Core :=
  if c.bypass then c else { c with mem := { c.mem with full := c.mem.full.filter (fun s => !ss.contains s) } }

theorem core_setEmpty_self (m : Module) {g : Nat} (ss : List Nat) (h : g < m.cores.length) :
    (m.setEmpty g ss).core g = emptied ss (m.core g) := core_onCore_self m g _ h
theorem core_setEmpty_other (m : Module) (g : Nat) (ss : List Nat) {h : Nat} (hn : h ≠ g) :
    (m.setEmpty g ss).core h = m.core h := core_onCore_other m g h _ hn

/-- Tags and sequencer are apart. -/
theorem emptied_seq (ss : List Nat) (c : Core) (q : CoreSeq) : { emptied ss c with seq := q } = emptied ss { c with seq := q } := by
  unfold emptied
  split <;> rfl

/-- The sequencer stays when slots are set EMPTY. -/
theorem seq_emptied (ss : List Nat) (c : Core) : (emptied ss c).seq = c.seq := by
  unfold emptied
  split <;> rfl

/-! ### Core tiles on the arrays -/

/-- A core after core tiles ran through its arrays: they wait for their commits, the last one marked (R68, R73, R74). -/
def ranTiles (work : List TileWork) (c : Core) : Core :=
  { work.foldl Core.runTile c with tiles := work.zipIdx.map (fun t => { t.1.tile with last := t.2 + 1 == work.length }) }

/-- The core whose tiles start. -/
theorem core_startTiles (m : Module) (i : Inst) (work : List TileWork) (rowCycles : Nat) (reads consume : List Nat)
    (h : i.core < m.cores.length) :
    (m.startTiles i work rowCycles reads consume).core i.core =
      emptied consume (ranTiles work ((m.remapReads i.core reads).core i.core)) := by
  have hr : i.core < (m.remapReads i.core reads).cores.length := by rwa [remapReads_length]
  simp only [Module.startTiles, core_of_bump]
  rw [core_setEmpty_self _ _ (by rwa [onCore_length]), core_onCore_self _ _ _ hr]
  rfl

theorem core_startTiles_other (m : Module) (i : Inst) (work : List TileWork) (rowCycles : Nat) (reads consume : List Nat) {h : Nat}
    (hn : h ≠ i.core) : (m.startTiles i work rowCycles reads consume).core h = m.core h := by
  simp only [Module.startTiles, core_of_bump]
  rw [core_setEmpty_other _ _ _ hn, core_onCore_other _ _ _ _ hn, core_remapReads_other _ _ _ hn]

theorem keeps_startTiles (m : Module) (i : Inst) (work : List TileWork) (rowCycles : Nat) (reads consume : List Nat) :
    KeepsBut [.cores, .od] m (m.startTiles i work rowCycles reads consume) := by
  simpa [Module.startTiles] using keeps_remapReads m i.core reads

/-! ### The instruction past its checks -/

section
variable {m : Module} {i : Inst} {x : MatOps} {kind : PairKind} (fu : Fuses) (ups : List Upset)
  (rows : 0 < m.shapeOf i (readShape (hiOf i.words 4))) (columns : 0 < m.shapeOf i (readShape (loOf i.words 4)))
  (index : (bitAt (wordAt i.words 7) 63 && decide ((m.job i.job).mbCount ≤ i.problem)) = false)
  (ops : m.matOps i = some x) (pair : pairKind x.a.fmt x.b.fmt = some kind)
  (ready : m.tagWait i.core (m.matSlots i x (tileK x.a.fmt) (m.matShape i x)).1 []
    (m.matSlots i x (tileK x.a.fmt) (m.matShape i x)).2 = none)
include rows columns index ops pair ready

/-- With core tiles, of which the first reads no invalid nibble, it starts them (R74, R140). -/
theorem runMatrix_tiles {w : TileWork} {ws : List TileWork} (work : m.matWork i ups x kind = w :: ws) (valid : w.tile.invalid = none) :
    m.runMatrix fu ups i = m.startTiles i (m.matWork i ups x kind) (if x.a.fmt = .bf16 then 4 else 1)
      (m.matSlots i x (tileK x.a.fmt) (m.matShape i x)).1 (m.matSlots i x (tileK x.a.fmt) (m.matShape i x)).2 := by
  simp [Module.runMatrix, rows.ne', columns.ne', index, ops, pair, ready, work, valid]

/-- With no row in extent it has no core tile and goes on (R96, R227). -/
theorem runMatrix_none (work : m.matWork i ups x kind = []) :
    m.runMatrix fu ups i =
      ((m.setEmpty i.core (m.matSlots i x (tileK x.a.fmt) (m.matShape i x)).2).advance i).finish fu i stOk 0 0 := by
  simp [Module.runMatrix, rows.ne', columns.ne', index, ops, pair, ready, work]

end

/-- The core that goes on with its input slots consumed. -/
theorem core_setEmpty_advance (m : Module) (i : Inst) (ss : List Nat) (h : i.core < m.cores.length) :
    ((m.setEmpty i.core ss).advance i).core i.core =
      emptied ss { m.core i.core with seq := seqAt m i (i.index + 1) (m.core i.core).seq } := by
  rw [Module.advance, core_goto _ _ _ (by rwa [setEmpty_length]), core_setEmpty_self _ _ h, seq_emptied,
    seqAt_congr i _ _ (setEmpty_jobs m i.core ss), emptied_seq]

/-- What the row MATRIX comes to, from what its instruction leaves past its shape checks. -/
theorem goes_matrix {s : State} {g : Nat} {ups : List Upset} {i : Inst} {m : Module} {P : Module → Prop}
    (issues : Issues s g (fun w => classOf w == 1) ups i m)
    (shapes : ShapesGood m i ups (matrixShapes i.words) (matrixRefs i.words)) (hp : P (m.runMatrix s.fuse ups i)) :
    Goes s (.matrix g ups) P :=
  goes_row (body := fun fu m i => m.matrixAt fu ups i) issues rfl (by rwa [Module.matrixAt, withShapes_of shapes])

/-- Settles O4: past its checks a MATRIX starts its core tiles, or without any goes on. -/
theorem matrixLeavesItsCoreTiles : Obligations.MatrixLeavesItsCoreTiles := by
  intro s g ups i m x kind issues shapes rows columns index ops pair sl hsl ready work _
  have length := issues_length issues
  obtain rfl := issues_core issues
  subst hsl
  refine ⟨fun w ws hw valid => goes_matrix issues shapes ?_, fun hw => goes_matrix issues shapes ?_⟩
  · rw [runMatrix_tiles s.fuse ups rows columns index ops pair ready hw valid]
    exact ⟨core_startTiles m i _ _ _ _ length, fun h hn => core_startTiles_other m i _ _ _ _ hn, keeps_startTiles m i _ _ _ _⟩
  · rw [runMatrix_none s.fuse ups rows columns index ops pair ready hw]
    refine ⟨?_, fun h hn => ?_, ?_, ?_⟩
    · rw [core_finishOk]
      exact core_setEmpty_advance m i _ length
    · rw [core_finishOk, Module.advance, core_goto_other _ _ _ _ _ hn, core_setEmpty_other _ _ _ hn]
    · rw [finishOk_jobs]
      exact signalled_congr i rfl
    · simp [ending, keeps_refl]

end Sys2Proof.Proofs
end

section
/-!
PROOFS. The commit of a core tile (R74, R78, R80, R96, R475).
-/
namespace Sys2Proof.Proofs

open Sys2Proof Sys2Proof.Machine Sys2Proof.Laws

/-! ### What a commit stores -/

/-- The parts that the stores of a commit change. -/
def tileParts : List Part := .cores :: .clusters :: .hbm :: .hbmPoison :: .freeNo :: ending

/-- The judgement of a sample writes its replay word, counts and reports (R348, R349). -/
theorem data_checkSample (fu : Fuses) (m : Module) (t : Tile) (kind : PairKind) (o : Operand) :
    Data tileParts m (m.checkSample fu t kind o) := by
  have count : ∀ (m : Module) k n, Data tileParts m (m.bump k n) := fun m k n => data_mono (data_bump m k n) (by decide)
  have store : ∀ (m : Module) a bs, Data tileParts m (m.storeAt t.inst.job t.inst.core 2 a bs false) :=
    fun m a bs => data_mono (data_storeAt ..) (by decide)
  unfold Module.checkSample
  dsimp only
  split
  · exact data_refl ..
  · split
    · exact count ..
    · split
      · exact data_trans (count ..) (count ..)
      · split
        · exact data_trans (data_trans (data_trans (data_trans (count ..) (count ..)) (store ..)) (count ..))
            (data_mono (data_event ..) (by decide))
        · exact data_trans (data_trans (count ..) (count ..)) (store ..)

/-- The stores of a commit change data, the job's descriptors and slices, and reports. -/
theorem data_tileWrites (fu : Fuses) (m : Module) (t : Tile) (kind : PairKind) (o : Operand) :
    Data tileParts m (tileWrites fu m t kind o) := by
  have fresh : Data tileParts m m.nextFree := data_of (by simp [tileParts, keeps_refl]) rfl
  have judged : Data tileParts m (if t.sampled then m.nextFree.checkSample fu t kind o else m.nextFree) := by
    split
    · exact data_trans fresh (data_checkSample ..)
    · exact fresh
  unfold tileWrites
  dsimp only
  refine data_trans judged ?_
  generalize (if t.sampled then m.nextFree.checkSample fu t kind o else m.nextFree) = x
  split
  · exact data_mono (data_storeAt ..) (by decide)
  · split
    · exact data_mono (data_releaseSlice ..) (by decide)
    · exact data_trans (data_mono (data_writeOut ..) (by decide)) (data_mono (data_bump ..) (by decide))

/-! ### The commit -/

/-- A core with slots set FULL: in tag-bypass mode it changes no tag (R96, R100). -/
def filled (ss : List Nat) (c : Core) : Core :=
  if c.bypass then c else { c with mem := { c.mem with full := insertAll c.mem.full ss } }

theorem sp_filled (ss : List Nat) (c : Core) : (filled ss c).mem.sp = c.mem.sp := by
  unfold filled
  split <;> rfl

/-- A core that checks tags holds the slots FULL. -/
theorem mem_full_filled {ss : List Nat} {c : Core} (tags : c.bypass = false) {k : Nat} (hk : k ∈ ss) : k ∈ (filled ss c).mem.full := by
  rw [filled, if_neg (by simp [tags])]
  exact (mem_insertAll _ _ _).mpr (.inr hk)

/-- What stands after the stores `w` of a core tile's commit: its counts, its slots FULL, and the next core tile at the front. -/
def tileStored (w : Module) (t : Tile) (rest : List Tile) (kind : PairKind) (dup : Bool) : Module :=
  ((w.countTile t kind dup).setFull t.inst.core t.slots).onCore t.inst.core (fun c => { c with tiles := rest })

/-- The same with its instruction ended by the last core tile. -/
def tileEnded (fu : Fuses) (w : Module) (t : Tile) (rest : List Tile) (kind : PairKind) (dup : Bool) : Module :=
  if t.last then ((tileStored w t rest kind dup).advance t.inst).finish fu t.inst stOk 0 0 else tileStored w t rest kind dup

section
variable {w : Module} {t : Tile} (fu : Fuses) (rest : List Tile) (kind : PairKind) (dup : Bool)

theorem keeps_tileEnded : KeepsBut (.cores :: ending) w (tileEnded fu w t rest kind dup) := by
  unfold tileEnded tileStored Module.countTile
  split <;> simp [ending, keeps_refl]

theorem core_tileStored_other {h : Nat} (hn : h ≠ t.inst.core) : (tileStored w t rest kind dup).core h = w.core h := by
  rw [tileStored, core_onCore_other _ _ _ _ hn]
  exact core_onCore_other _ _ _ _ hn

theorem core_tileEnded_other {h : Nat} (hn : h ≠ t.inst.core) : (tileEnded fu w t rest kind dup).core h = w.core h := by
  unfold tileEnded
  split
  · rw [core_finishOk, Module.advance, core_goto_other _ _ _ _ _ hn, core_tileStored_other rest kind dup hn]
  · exact core_tileStored_other rest kind dup hn

variable (core : t.inst.core < w.cores.length)
include core

theorem core_tileStored : (tileStored w t rest kind dup).core t.inst.core = { filled t.slots (w.core t.inst.core) with tiles := rest } := by
  rw [tileStored, core_onCore_self _ _ _ (by simpa [Module.countTile] using core)]
  exact congrArg (fun c => { c with tiles := rest }) (core_onCore_self (w.countTile t kind dup) _ _ core)

/-- The committing core: of it the sequencer alone depends on whether the core tile was the last. -/
theorem core_tileEnded : ∃ q : CoreSeq, (t.last = true → q.pc = t.inst.index + 1) ∧
    (tileEnded fu w t rest kind dup).core t.inst.core = { filled t.slots (w.core t.inst.core) with tiles := rest, seq := q } := by
  have stored := core_tileStored rest kind dup core
  unfold tileEnded
  split
  · refine ⟨seqAt (tileStored w t rest kind dup) t.inst (t.inst.index + 1) ((tileStored w t rest kind dup).core t.inst.core).seq,
      fun _ => rfl, ?_⟩
    rw [core_finishOk, Module.advance, core_goto _ _ _ (by simpa [tileStored, Module.countTile] using core), stored]
  · exact ⟨_, fun h => absurd h ‹_›, stored⟩

end

/-- A core tile whose slots are EMPTY, whose turn it is and whose repeated pass agrees is stored and ends (R74, R475). -/
theorem writeTile_ends (fu : Fuses) {ups : List Upset} {m : Module} {t : Tile} (rest : List Tile) {kind : PairKind} {o : Operand}
    (empty : m.tagWait t.inst.core [] t.slots [] = none) (turn : (o.buf.combine != 0 && !m.hasTurn t.inst o.ref.buf) = false)
    (agrees : m.dupSelected t = true → t.skipped = false → dupDiff ups (m.nextFree.tileCodes t kind o) = none)
    (released : (bitAt (wordAt t.inst.words 5) 16 && m.nextFree.outWaits o (m.nextFree.tileElems t kind)) = false) :
    m.nextFree.writeTile fu ups t rest kind o =
      tileEnded fu (tileWrites fu m t kind o) t rest kind (m.dupSelected t && !t.skipped) := by
  have same : m.nextFree.dupMismatch ups t kind o = none := by
    rw [Module.dupMismatch]
    split
    · next selected =>
      simp only [Bool.and_eq_true, Bool.not_eq_true'] at selected
      exact agrees selected.1 selected.2
    · rfl
  have empty' : m.nextFree.tagWait t.inst.core [] t.slots [] = none := empty
  have turn' : (o.buf.combine != 0 && !m.nextFree.hasTurn t.inst o.ref.buf) = false := turn
  simp only [Module.writeTile, empty', turn', same, released, Bool.false_eq_true, if_false]
  rfl

/-- A core's first core tile that is not stale and passes its checks writes (R74 to R78). -/
theorem commitTile_writes (fu : Fuses) (ups : List Upset) {m : Module} {g : Nat} {t : Tile} {rest : List Tile} {a b o : Operand}
    (tiles : (m.core g).tiles = t :: rest) (fresh : m.stale t.inst = false)
    (ha : m.operand t.inst (hiOf t.inst.words 2) false 0 = some a) (hb : m.operand t.inst (loOf t.inst.words 2) false 0 = some b)
    (ho : m.operand t.inst (hiOf t.inst.words 3) true 0 = some o) (valid : t.invalid = none)
    (passes : m.failingRow t ((pairKind a.fmt b.fmt).getD .float) = none) (clean : t.poisoned = false) :
    m.commitTile fu ups g = m.nextFree.writeTile fu ups t rest ((pairKind a.fmt b.fmt).getD .float) o := by
  simp [Module.commitTile, tiles, fresh, valid, ha, hb, ho, passes, clean]

/-- The row TILE_COMMIT of a core that can commit runs the commit of its first core tile on what the commit tail's happenings
left. -/
theorem goes_tileCommit {s : State} {g : Nat} {ups : List Upset} {t : Tile} {rest : List Tile} {m : Module} {P : Module → Prop}
    (unit : g < 384) (powered : s.m.powered = true) (can : s.m.canCommit g = true) (tiles : (s.m.core g).tiles = t :: rest)
    (meets : s.m.meet s.fuse t.inst ups = (m, true)) (hp : P (m.commitTile s.fuse ups g)) : Goes s (.tileCommit g ups) P :=
  goes_actOn rfl (decide_eq_true unit) powered (by simpa [can, tiles, meets] using hp)

/-- A core that can commit is one of the module's, after its happenings too. -/
theorem canCommit_length {fu : Fuses} {x m : Module} {g : Nat} {i : Inst} {ups : List Upset} (can : x.canCommit g = true)
    (meets : x.meet fu i ups = (m, true)) : g < m.cores.length := by
  have live : (x.core g).live = true := by
    simp only [Module.canCommit, Bool.and_eq_true] at can
    exact can.1.1.1.1
  have length := meet_length fu x i ups
  rw [meets] at length
  exact length ▸ live_lt live

/-- Settles O6: past its checks a core tile commits, and its stores leave of a core all but scratchpad data. -/
theorem tileCommitStoresAndFills : Obligations.TileCommitStoresAndFills := by
  intro s g ups t0 t r0 rest m a b o kind unit powered can tiles0 meets tiles own fresh ha hb ho hk valid passes clean empty turn
    agrees released
  refine goes_tileCommit unit powered can tiles0 meets ?_
  rw [commitTile_writes s.fuse ups tiles fresh ha hb ho valid (hk ▸ passes) clean, ← hk,
    writeTile_ends s.fuse rest (own ▸ empty) turn agrees released]
  intro w
  have stores : Data tileParts m w := data_tileWrites s.fuse m t kind o
  generalize (m.dupSelected t && !t.skipped) = dup
  have keeps := keeps_tileEnded (w := w) (t := t) s.fuse rest kind dup
  have core : t.inst.core < w.cores.length := by
    rw [stores.len, own]
    exact canCommit_length can meets
  obtain ⟨q, pc, ended⟩ := core_tileEnded s.fuse rest kind dup core
  rw [own] at ended
  refine ⟨keeps .hbm (by decide), keeps .clusters (by decide), fun h => ?_, fun tags k hk => ?_, ?_, fun last => ?_,
    keeps_trans stores.keeps (keeps_mono keeps (by decide))⟩
  · by_cases hg : h = g
    · rw [hg, ended]
      exact sp_filled ..
    · rw [core_tileEnded_other _ _ _ _ (own ▸ hg)]
  · have tags' : (w.core g).bypass = false := (congrArg Core.bypass (stores.core g)).trans tags
    rw [ended]
    exact mem_full_filled tags' hk
  · rw [ended]
  · rw [ended]
    exact pc last

end Sys2Proof.Proofs
end

section
/-!
PROOFS. Stores through an operand (R106, R186, R222, R223): an unpacked output and a run of rows stay at their own addresses.
-/
namespace Sys2Proof.Proofs

open Sys2Proof.Machine Sys2Proof.Laws

/-- Rows stored one after the other stay at the addresses of the rows. -/
theorem touch_putRows (m : Module) (o : Operand) (rb : Nat) (rows : List Row) (granules : ∀ r ∈ rows, r.2.length = rb / 32) :
    Touch m (rows.zipIdx.foldl (fun (m : Module) p => m.putRow o rb p.2 p.1) m) o
      ((List.range rows.length).flatMap (rowAddrs o rb)) := by
  refine touch_foldl o _ _ _ (fun x p hp => ?_) m
  have row := touch_putRow x o rb p.2 p.1 (granules p.1 (List.fst_mem_of_mem_zipIdx hp))
  have number : p.2 < rows.length := List.snd_lt_of_mem_zipIdx hp
  exact touch_mono row (fun a ha => List.mem_flatMap.2 ⟨p.2, List.mem_range.2 number, ha⟩)

/-- Settles O7: what an output and what rows touch (`touch_writeOut`, `touch_putRows`). -/
theorem storesStayInTheirOutput : Obligations.StoresStayInTheirOutput :=
  ⟨fun m o es prior final unpacked => (touch_writeOut m o es prior final unpacked).1,
    fun m o rb rows granules => (touch_putRows m o rb rows granules).1⟩

end Sys2Proof.Proofs
end

section
/-!
PROOFS. The commit of an instruction of the splice or row engine (R96, R100, R130, R156).
-/
namespace Sys2Proof.Proofs

open Sys2Proof.Machine Sys2Proof.Laws

/-- A core-wide stall shows in its core as stalled cycles alone. -/
theorem core_wideStall_self (m : Module) (g : Nat) : ∃ k, (m.wideStall g).core g = { m.core g with stalls := k } := by
  unfold Module.wideStall Module.stallCore
  split
  · exact ⟨_, rfl⟩
  · rw [core_of_bump, core_onCore]
    split
    · exact ⟨_, rfl⟩
    · exact ⟨_, rfl⟩

/-- So do the stalls that reads of remapped rows pay (R110). -/
theorem core_remapReads_self (m : Module) (g : Nat) (slots : List Nat) :
    ∃ k, (m.remapReads g slots).core g = { m.core g with stalls := k } := by
  refine List.foldlRecOn (motive := fun x : Module => ∃ k, x.core g = { m.core g with stalls := k }) _ _ ⟨_, rfl⟩
    (fun x ⟨k, hx⟩ _ _ => ?_)
  obtain ⟨k', h⟩ := core_wideStall_self x g
  exact ⟨k', by rw [h, hx]⟩

/-- The tags of a core that checks them, after slots were consumed and then others filled (R96). -/
theorem mem_filled_emptied {c : Core} (tags : c.bypass = false) (full consume : List Nat) (k : Nat) :
    k ∈ (filled full (emptied consume c)).mem.full ↔ k ∈ full ∨ (k ∈ c.mem.full ∧ k ∉ consume) := by
  simp [filled, emptied, tags, mem_insertAll, or_comm]

/-- A core in tag-bypass mode keeps its tags (R100). -/
theorem full_filled_emptied_bypass {c : Core} (bypass : c.bypass = true) (full consume : List Nat) :
    (filled full (emptied consume c)).mem.full = c.mem.full := by
  simp [filled, emptied, bypass]

/-- The sequencer stays when slots are set FULL, and the scratchpad when they are set EMPTY. -/
theorem seq_filled (ss : List Nat) (c : Core) : (filled ss c).seq = c.seq := by
  unfold filled
  split <;> rfl
theorem sp_emptied (ss : List Nat) (c : Core) : (emptied ss c).mem.sp = c.mem.sp := by
  unfold emptied
  split <;> rfl

section
variable (fu : Fuses) (m : Module) (i : Inst) (reads full consume : List Nat)

/-- The core that commits: its stalls, its tags and its sequencer alone have changed. -/
theorem core_engineCommit (h : i.core < m.cores.length) : ∃ k, (m.engineCommit fu i reads full consume).core i.core =
    { filled full (emptied consume { m.core i.core with stalls := k }) with
        seq := seqAt m i (i.index + 1) (m.core i.core).seq } := by
  obtain ⟨k, stalled⟩ := core_remapReads_self m i.core reads
  refine ⟨k, ?_⟩
  have consumed : ((m.remapReads i.core reads).setEmpty i.core consume).core i.core =
      emptied consume { m.core i.core with stalls := k } := by
    rw [core_setEmpty_self _ _ (by rwa [remapReads_length]), stalled]
  have set : (((m.remapReads i.core reads).setEmpty i.core consume).setFull i.core full).core i.core =
      filled full (emptied consume { m.core i.core with stalls := k }) := by
    rw [← consumed]
    exact core_onCore_self _ i.core _ (by rwa [setEmpty_length, remapReads_length])
  have jobs : (((m.remapReads i.core reads).setEmpty i.core consume).setFull i.core full).jobs = m.jobs :=
    keeps_remapReads m i.core reads .jobs (by decide)
  rw [Module.engineCommit, core_finishOk, Module.advance,
    core_goto _ _ _ (by rwa [setFull_length, setEmpty_length, remapReads_length]), set, seq_filled, seq_emptied,
    seqAt_congr i _ _ jobs]

theorem core_engineCommit_other {h : Nat} (hn : h ≠ i.core) : (m.engineCommit fu i reads full consume).core h = m.core h := by
  rw [Module.engineCommit, core_finishOk, Module.advance, core_goto_other _ _ _ _ _ hn, Module.setFull,
    core_onCore_other _ _ _ _ hn, core_setEmpty_other _ _ _ hn, core_remapReads_other _ _ _ hn]

theorem jobs_engineCommit : (m.engineCommit fu i reads full consume).jobs = signalled m i := by
  rw [Module.engineCommit, finishOk_jobs]
  exact signalled_congr i (keeps_remapReads m i.core reads .jobs (by decide))

theorem keeps_engineCommit : KeepsBut (.cores :: ending) m (m.engineCommit fu i reads full consume) := by
  have stalls : KeepsBut (.cores :: ending) m (m.remapReads i.core reads) := keeps_mono (keeps_remapReads m i.core reads) (by decide)
  simpa [Module.engineCommit, ending] using stalls

end

/-- Settles O11: the committing core (`core_engineCommit`) checks its tags or bypasses them, and the rest is as it was. -/
theorem engineCommitFillsAndConsumes : Obligations.EngineCommitFillsAndConsumes := by
  intro fu m i reads full consume h n
  obtain ⟨k, core⟩ := core_engineCommit fu m i reads full consume h
  refine ⟨fun tags x => ?_, fun bypass => ?_, ?_, ?_, fun x hx => core_engineCommit_other fu m i reads full consume hx,
    jobs_engineCommit fu m i reads full consume, keeps_engineCommit fu m i reads full consume⟩
  · rw [core]
    exact mem_filled_emptied (c := { m.core i.core with stalls := k }) tags full consume x
  · rw [core]
    exact full_filled_emptied_bypass (c := { m.core i.core with stalls := k }) bypass full consume
  · rw [core]
  · rw [core]
    exact (sp_filled full _).trans (sp_emptied consume _)

end Sys2Proof.Proofs
end

section
/-!
PROOFS. The ends of waits (R98, R171, R173, R186, R200, R339): what a held core or a held movement does when its wait is over.
-/
namespace Sys2Proof.Proofs

open Sys2Proof Sys2Proof.Machine Sys2Proof.Laws

/-! ### A held core tries again -/

/-- A core that is let go at its instruction issues it. -/
theorem retry_issues {fu : Fuses} {x m : Module} {g : Nat} {ups : List Upset} {i : Inst} (h : Reissues fu x g ups i m) :
    x.retry fu ups g = m.issueAt fu ups i := by
  obtain ⟨tiles, ⟨j, hj, hi⟩, meets, fresh⟩ := h
  simp [Module.retry, tiles, hj, hi, meets, fresh]

/-- A core that is let go with core tiles commits the first. -/
theorem retry_commits {fu : Fuses} {x m : Module} {g : Nat} {ups : List Upset} {t : Tile} {ts : List Tile}
    (live : (x.core g).live = true) (tiles : (x.core g).tiles = t :: ts)
    (meets : (x.onSeq g (fun q => { q with wait := none })).meet fu t.inst ups = (m, true)) :
    x.retry fu ups g = m.commitTile fu ups g := by
  have still : ((x.onSeq g (fun q => { q with wait := none })).core g).tiles = t :: ts := by
    rw [core_onSeq_self _ _ _ (live_lt live), tiles]
  simp [Module.retry, still, meets]

/-- Whether the turn of the late gather at the head has come. -/
theorem lateTurn_iff (m : Module) (g : Nat) :
    m.lateTurn g ↔ (m.core g).gathers.head?.any (fun p => p.waits && m.gatherTurn p.inst) = true := by
  unfold Module.lateTurn
  cases (m.core g).gathers with
  | nil => simp
  | cons p ps => simp

/-! ### What the commands come to -/

section
variable {s : State} {g : Nat} (hg : g < 384) (powered : s.m.powered = true) (live : (s.m.core g).live = true)
  (unfenced : (s.m.core g).fenceReq = none)
include hg powered live unfenced

/-- The end of a core's tag wait: it tries again, and the time counts where its wait is over. -/
theorem goes_tagWaitEnd_core {w : Wait} {x : Module} (cycles : Nat) (ups : List Upset) (early : ¬ s.m.lateTurn g)
    (waits : (s.m.core g).seq.wait = some w) (tag : w.isTag = true) (tries : s.m.retry s.fuse ups g = x)
    (ends : (x.core g).seq.wait ≠ some w) :
    Goes s (.tagWaitEnd g 8 cycles ups) (fun n => n = x.bump (odKey 0x4200 6) cycles) := by
  rw [lateTurn_iff, Bool.not_eq_true] at early
  exact goes_actOn rfl (by simp [hg]) powered (by simp [live, unfenced, early, waits, tag, tries, ends])

/-- The turn of a late gather: it commits, and the wait counts. -/
theorem goes_tagWaitEnd_gather {p : PendGather} {ps : List PendGather} {m : Module} (cycles : Nat) (ups : List Upset)
    (gathers : (s.m.core g).gathers = p :: ps) (late : s.m.lateTurn g) (meets : s.m.meet s.fuse p.inst ups = (m, true)) :
    Goes s (.tagWaitEnd g 8 cycles ups) (fun n => n = (m.commitGather s.fuse g).bump (odKey 0x4200 6) cycles) := by
  simp only [lateTurn_iff, gathers, List.head?_cons, Option.any_some, Bool.and_eq_true] at late
  exact goes_actOn rfl (by simp [hg]) powered (by simp [live, unfenced, gathers, late, meets])

theorem goes_shapeWordArrival {off cycles : Nat} {ups : List Upset} {i : Inst} {m : Module}
    (waits : (s.m.core g).seq.wait = some (.shape off)) (again : Reissues s.fuse (s.m.bump (odKey 0x3210 4) cycles) g ups i m) :
    Goes s (.shapeWordArrival g cycles ups) (fun n => n = m.issueAt s.fuse ups i) :=
  goes_actOn rfl (decide_eq_true hg) powered (by simp [waits, live, unfenced, retry_issues again])

omit live in
/-- The page that the core waits for arrives. -/
theorem goes_statPageFetch_waited {j set page cycles : Nat} {ups : List Upset} {i : Inst} {m : Module}
    (job : (s.m.core g).job = some j) (waits : (s.m.core g).seq.wait = some (.stat set page))
    (fits : s.m.pageFits j g set page = true) (fetch : s.m.fetchWaits g set page = true)
    (again : Reissues s.fuse ((s.m.fetchPage s.fuse j g set page).bump (odKey 0x3160 4) cycles) g ups i m) :
    Goes s (.statPageFetch g set page cycles ups) (fun n => n = m.issueAt s.fuse ups i) :=
  goes_actOn rfl (decide_eq_true hg) powered (by simp [job, unfenced, fits, waits, fetch, retry_issues again])

/-- A page that the next row instructions read arrives ahead of time. -/
theorem goes_statPageFetch_ahead {j set page : Nat} (cycles : Nat) (ups : List Upset) (job : (s.m.core g).job = some j)
    (other : (s.m.core g).seq.wait ≠ some (.stat set page) ∨ s.m.fetchWaits g set page = false)
    (fits : s.m.pageFits j g set page = true) (active : (s.m.job j).run.active = true)
    (next : s.m.nextAhead g j = some (set, page)) :
    Goes s (.statPageFetch g set page cycles ups) (fun n => n = s.m.fetchPage s.fuse j g set page) := by
  have unwaited : ((s.m.core g).seq.wait == some (.stat set page) && s.m.fetchWaits g set page) = false := by
    rcases other with h | h
    · simp [h]
    · simp [h]
  exact goes_actOn rfl (decide_eq_true hg) powered (by simp [job, unfenced, fits, unwaited, live, active, next])

omit live in
/-- The oldest page that the instruction does not use is spilled. -/
theorem goes_statPageSpill {j cycles : Nat} {p : StatPage} {ups : List Upset} {i : Inst} {m : Module}
    (victim : s.m.spillVictim g = some (j, p)) (home : s.m.stoppedIn (s.m.pageHomes j p.set p.page) = none)
    (again : Reissues s.fuse ((s.m.spillPage j g p.set p.page).bump (odKey 0x3160 4) cycles) g ups i m) :
    Goes s (.statPageSpill ⟨g, cycles⟩ p.set p.page ups) (fun n => n = m.issueAt s.fuse ups i) :=
  goes_actOn rfl (decide_eq_true hg) powered (by simp [victim, unfenced, home, retry_issues again])

/-- The end of a movement's tag wait: it goes on, and the time of a turn counts where its turn has come. -/
theorem goes_tagWaitEnd_move {ch : Nat} {v : Move} {w : Wait} (cycles : Nat) (ups : List Upset) (hch : ch < 8)
    (head : (s.m.core g).head ch = some v) (waits : v.wait = some w) (tag : w.isTag = true) :
    Goes s (.tagWaitEnd g ch cycles ups) (fun n =>
      let x := ups.foldl (fun (m : Module) u => m.meetMemory s.fuse g u) s.m
      let y := if v.op = 5 then x.startCoil s.fuse g ch { v with wait := none } else x.runMove s.fuse g ch { v with wait := none }
      n = if w = .turn ∧ ((y.core g).head ch).bind Move.wait ≠ some .turn then y.bump (odKey 0x4200 6) cycles else y) :=
  goes_actOn rfl (by simp [hg, Nat.le_of_lt hch]) powered (by simp [live, unfenced, hch, head, waits, tag])

omit live unfenced in
/-- The page of a movement's view is present: the movement goes on, and the wait counts. -/
theorem goes_viewResume {ch e p : Nat} {v : Move} (us : Nat) (hch : ch < 8) (head : (s.m.core g).head ch = some v)
    (waits : v.wait = some (.page e p)) (here : s.m.pageHere v.inst.job e p = true) :
    Goes s (.viewResume g ch us) (fun n => n = (s.m.bump (odKey 0x4220 5) us).runMove s.fuse g ch { v with wait := none }) :=
  goes_actOn rfl (by simp [hg, hch]) powered (by simp [head, waits, here])

end

/-- Settles O17: what each end of a wait comes to, the core by `retry_issues` and `retry_commits`. -/
theorem heldInstructionsIssueAgain : Obligations.HeldInstructionsIssueAgain := by
  intro s g ups i m hg powered live unfenced
  refine ⟨?_, ?_, ?_, ?_, ?_, ?_, ?_, ?_, ?_⟩
  · exact fun cycles w early waits tag again ends =>
      goes_tagWaitEnd_core hg powered live unfenced cycles ups early waits tag (retry_issues again) ends
  · exact fun cycles p ps gathers late meets => goes_tagWaitEnd_gather hg powered live unfenced cycles ups gathers late meets
  · exact fun cycles w t ts early waits tag tiles meets ends =>
      goes_tagWaitEnd_core hg powered live unfenced cycles ups early waits tag (retry_commits live tiles meets) ends
  · exact fun cycles off waits again => goes_shapeWordArrival hg powered live unfenced waits again
  · exact fun j cycles set page job waits fits fetch again =>
      goes_statPageFetch_waited hg powered unfenced job waits fits fetch again
  · exact fun j cycles set page job other fits active next =>
      goes_statPageFetch_ahead hg powered live unfenced cycles ups job other fits active next
  · exact fun j p cycles victim home again => goes_statPageSpill hg powered unfenced victim home again
  · exact fun ch v w cycles hch head waits tag => goes_tagWaitEnd_move hg powered live unfenced cycles ups hch head waits tag
  · exact fun ch v e p us hch head waits here => goes_viewResume hg powered us hch head waits here

end Sys2Proof.Proofs
end

section
/-!
PROOFS. Waits that reach the tag wait limit (R101, R203, R284): the job ends TIMEOUT, and without a limit nothing changes.
-/
namespace Sys2Proof.Proofs

open Sys2Proof Sys2Proof.Machine Sys2Proof.Laws

/-! ### The limit of a core's wait -/

/-- A job context is read from the list of contexts. -/
theorem job_congr {m n : Module} (h : n.jobs = m.jobs) (k : Nat) : n.job k = m.job k := by
  rw [Module.job, h, Module.job]

/-- What a wait at its limit records is one event. -/
theorem limitEvent_eq_event (fu : Fuses) (m : Module) (g : Nat) (i : Inst) (pos : Nat) (w : Wait) :
    ∃ c l, m.limitEvent fu g i pos w = m.event fu c l := by
  cases w <;> exact ⟨_, _, rfl⟩

/-- At its limit a wait ends a RUNNING job with TIMEOUT. -/
theorem waitLimit_ends (fu : Fuses) {m : Module} (g held : Nat) {i : Inst} (pos : Nat) (w : Wait)
    (limited : (m.job i.job).tagLimit ≠ 0) (runs : (m.job i.job).state = 3) :
    ((m.waitLimit fu g held i pos w).job i.job).state = 4 ∧ ((m.waitLimit fu g held i pos w).job i.job).endStatus = stTimeout ∧
      ((m.waitLimit fu g held i pos w).job i.job).cores = [] := by
  have checks : ((m.job i.job).tagLimit = 0 || (m.job i.job).state != 3) = false := by simp [limited, runs]
  rw [Module.waitLimit, if_neg (by simp [checks])]
  dsimp only
  generalize hx : (w.timed.map (fun k => m.bump k held)).getD m = x
  have counted : x.jobs = m.jobs := by
    rw [← hx]
    cases w.timed <;> rfl
  obtain ⟨c, l, recorded⟩ := limitEvent_eq_event fu x g i pos w
  have ended : ((x.limitEvent fu g i pos w).movesEnded fu g stTimeout).jobs = m.jobs := by
    rw [keeps_movesEnded fu _ g stTimeout .jobs (by decide), recorded, event_jobs, counted]
  refine endJob_job fu _ i.job stTimeout (.inr ?_)
  obtain ⟨r, blamed⟩ := job_onRun ((x.limitEvent fu g i pos w).movesEnded fu g stTimeout) i.job i.job
    (fun r => { r with cause := some i })
  rw [job_congr (endFlight_jobs fu _ i.job stTimeout g), Module.blame, blamed, job_congr ended]
  exact runs

/-- Without a limit a wait goes on. -/
theorem waitLimit_unlimited (fu : Fuses) {m : Module} (g held : Nat) {i : Inst} (pos : Nat) (w : Wait)
    (unlimited : (m.job i.job).tagLimit = 0) : m.waitLimit fu g held i pos w = m := by
  simp [Module.waitLimit, unlimited]

/-! ### The limit of what waits for a stopped stack -/

/-- Answering commands bears on no tackle. -/
theorem tackling_answerAll (m : Module) (f : Cmd → Bool) (st w4 w5 j p : Nat) :
    (m.answerAll f st w4 w5).tackling j p = m.tackling j p :=
  foldl_keep (fun x => x.tackling j p) _ _
    (fun x q => foldl_keep (fun x => x.tackling j p) _ _ (fun x c => by rw [answer_eq]; rfl) x) m

/-- A job whose tackle waits for a stack is RUNNING. -/
theorem tackling_state {m : Module} {j p : Nat} (h : m.tackling j p = true) : (m.job j).state = 3 := by
  unfold Module.tackling at h
  dsimp only at h
  rw [Bool.and_eq_true, beq_iff_eq] at h
  exact h.1

/-- The jobs of a list whose tackles wait for stack `p` end with TIMEOUT, one after the other. -/
def endTackles (fu : Fuses) (p : Nat) (js : List Nat) (m : Module) : Module :=
  js.foldl (fun (m : Module) j => (m.event fu 0x0735 [j, p]).endJob fu j stTimeout) m

/-- Each job of the list that runs ends; the others are as they were. -/
theorem job_endTackles (fu : Fuses) (p j : Nat) (js : List Nat) (distinct : js.Nodup) (m : Module) :
    (j ∉ js → (endTackles fu p js m).job j = m.job j) ∧
      (j ∈ js → (m.job j).state = 3 → ((endTackles fu p js m).job j).state = 4 ∧
        ((endTackles fu p js m).job j).endStatus = stTimeout ∧ ((endTackles fu p js m).job j).cores = []) := by
  induction js generalizing m with
  | nil => exact ⟨fun _ => rfl, fun h => absurd h List.not_mem_nil⟩
  | cons k js ih =>
    obtain ⟨fresh, distinct⟩ := List.nodup_cons.1 distinct
    obtain ⟨outside, inside⟩ := ih distinct ((m.event fu 0x0735 [k, p]).endJob fu k stTimeout)
    have apart : j ≠ k → ((m.event fu 0x0735 [k, p]).endJob fu k stTimeout).job j = m.job j := fun hk => by
      rw [endJob_other _ _ _ _ _ hk, job_of_event]
    refine ⟨fun h => ?_, fun h runs => ?_⟩
    · obtain ⟨hk, hjs⟩ := not_or.1 (mt List.mem_cons.2 h)
      exact (outside hjs).trans (apart hk)
    · by_cases hk : j = k
      · subst hk
        have ended := endJob_job fu (m.event fu 0x0735 [j, p]) j stTimeout (.inr (by rw [job_of_event, runs]))
        rw [← outside fresh] at ended
        exact ended
      · exact inside ((List.mem_cons.1 h).resolve_left hk) (by rw [apart hk, runs])

/-- A job with a limit whose tackle waits for stopped stack `p` ends with TIMEOUT. -/
theorem stackLimit_ends (fu : Fuses) {m : Module} {p j : Nat} (hj : j < 16) (limited : (m.job j).tagLimit ≠ 0)
    (tackles : m.tackling j p = true) :
    ((m.stackLimit fu p).job j).state = 4 ∧ ((m.stackLimit fu p).job j).endStatus = stTimeout ∧
      ((m.stackLimit fu p).job j).cores = [] := by
  unfold Module.stackLimit
  dsimp only
  generalize hx : List.foldl _ m ((List.range 16).filter (fun j => (m.job j).tagLimit != 0)) = x
  have same : x.jobs = m.jobs ∧ x.tackling j p = m.tackling j p := by
    rw [← hx]
    exact ⟨foldl_keep Module.jobs _ _ (fun y k => answerAll_jobs y _ _ _ _) m,
      foldl_keep (fun y => y.tackling j p) _ _ (fun y k => tackling_answerAll y _ _ _ _ j p) m⟩
  have listed : j ∈ ((List.range 16).filter (fun j => (m.job j).tagLimit != 0)).filter (fun j => x.tackling j p) := by
    simp [hj, limited, same.2, tackles]
  exact (job_endTackles fu p j _ ((List.nodup_range.filter _).filter _) x).2 listed
    (by rw [job_congr same.1, tackling_state tackles])

/-! ### What the command comes to -/

section
variable {s : State} {g ch held : Nat} {P : Module → Prop} (powered : s.m.powered = true)
include powered

/-- An engine's wait at the limit. -/
theorem goes_tagWaitLimit_engine {j : Nat} {i : Inst} {w : Wait} (hg : g < 384) (job : (s.m.core g).job = some j)
    (waits : (s.m.core g).seq.wait = some w) (pass : w ≠ .passEnd) (resume : ∀ p, w ≠ .resume p) (inst : s.m.instAt g j = some i)
    (hp : P (s.m.waitLimit s.fuse g held i 0 w)) : Goes s (.tagWaitLimit ⟨g, held⟩ 8) P := by
  refine goes_actOn rfl (by simp [hg]) powered ?_
  cases w with
  | passEnd => exact absurd rfl pass
  | resume p => exact absurd rfl (resume p)
  | _ => simpa [job, waits, inst] using hp

/-- A late gather's wait at the limit. -/
theorem goes_tagWaitLimit_gather {p : PendGather} {ps : List PendGather} {w : Wait} (hg : g < 384)
    (job : (s.m.core g).job.isSome = true) (free : (s.m.core g).seq.wait = none) (gathers : (s.m.core g).gathers = p :: ps)
    (waits : s.m.gatherWait p = some w) (hp : P (s.m.waitLimit s.fuse g held p.inst 0 w)) :
    Goes s (.tagWaitLimit ⟨g, held⟩ 8) P := by
  obtain ⟨j, hj⟩ := Option.isSome_iff_exists.1 job
  exact goes_actOn rfl (by simp [hg]) powered (by simpa [hj, free, gathers, waits] using hp)

/-- A channel's wait at the limit. -/
theorem goes_tagWaitLimit_channel {v : Move} {w : Wait} (hg : g < 384) (hch : ch < 8) (head : (s.m.core g).head ch = some v)
    (waits : v.wait = some w) (hp : P (s.m.waitLimit s.fuse g held v.inst v.pos w)) :
    Goes s (.tagWaitLimit ⟨g, held⟩ ch) P := by
  have channel : ch ≠ 9 ∧ ch ≤ 9 := by omega
  exact goes_actOn rfl (by simp [channel, hg]) powered (by simpa [channel, hch, head, waits] using hp)

/-- The wait for a stopped stack at the limit. -/
theorem goes_tagWaitLimit_stack (hg : g < 24) (stopped : (s.m.stack g).stopped = true) (hp : P (s.m.stackLimit s.fuse g)) :
    Goes s (.tagWaitLimit ⟨g, held⟩ 9) P :=
  goes_actOn rfl (by simp [hg]) powered (by simpa [stopped] using hp)

end

/-- The instruction at a core's position is one of the job that it was looked up for. -/
theorem instAt_job {m : Module} {g j : Nat} {i : Inst} (h : m.instAt g j = some i) : i.job = j := by
  simp only [Module.instAt, Option.map_eq_some_iff] at h
  obtain ⟨w, _, rfl⟩ := h
  rfl

/-- Settles O18: the job of a wait at its limit ends (`waitLimit_ends`, `stackLimit_ends`), or it has none. -/
theorem tagWaitLimitEndsTheJob : Obligations.TagWaitLimitEndsTheJob := by
  intro s g ch j held powered runs
  refine ⟨fun i w hg limited waits => ?_, fun hch hg hj stopped tackles limited => ?_, fun i w hg unlimited waits => ?_⟩
  · rcases waits with ⟨rfl, job, wait, pass, resume, inst⟩ | ⟨rfl, job, free, p, ps, gathers, wait, rfl, rfl⟩ |
      ⟨hch, v, head, wait, rfl, rfl⟩
    · obtain rfl := instAt_job inst
      exact goes_tagWaitLimit_engine powered hg job wait pass resume inst (waitLimit_ends _ g held 0 w limited runs)
    · exact goes_tagWaitLimit_gather powered hg job free gathers wait (waitLimit_ends _ g held 0 w limited runs)
    · exact goes_tagWaitLimit_channel powered hg hch head wait (waitLimit_ends _ g held v.pos w limited runs)
  · subst hch
    exact goes_tagWaitLimit_stack powered hg stopped (stackLimit_ends _ hj limited tackles)
  · rcases waits with ⟨rfl, job, wait, inst⟩ | ⟨hch, v, head, wait, rfl, rfl⟩
    · obtain rfl := instAt_job inst
      by_cases barrier : w = .passEnd ∨ ∃ p, w = .resume p
      · refine goes_actOn rfl (by simp [hg]) powered ?_
        rcases barrier with rfl | ⟨p, rfl⟩
        · simp [job, wait]
        · simp [job, wait]
      · obtain ⟨pass, resume⟩ := not_or.1 barrier
        exact goes_tagWaitLimit_engine powered hg job wait pass (not_exists.1 resume) inst
          (waitLimit_unlimited _ g held 0 w unlimited)
    · exact goes_tagWaitLimit_channel powered hg hch head wait (waitLimit_unlimited _ g held v.pos w unlimited)

end Sys2Proof.Proofs
end

section
/-!
PROOFS. Replays of a failed attempt (R103, R310, R311, R342, R481, R482, R485): from instruction 0 under a new attempt and a new
epoch, or at the latest passed resume point.
-/
namespace Sys2Proof.Proofs

open Sys2Proof Sys2Proof.Machine Sys2Proof.Laws

/-- In module `n` every live core of job `j` of `m` starts at its role's instruction, with nothing in flight, the given tags and
statistics pages, and the data of its slots that were FULL. -/
def CoresStart (m n : Module) (j : Nat) (at_ : Nat → Nat) (full : Nat → List Nat) (pages : Nat → List StatPage) : Prop :=
  ∀ g ∈ n.liveCores j,
    (n.core g).seq.pc = at_ ((m.job j).image.roleMap.getD (g % 8) 0xFF) ∧ (n.core g).seq.loops = [] ∧
    (n.core g).seq.takes = [] ∧ (n.core g).seq.done = false ∧ (n.core g).tiles = [] ∧ (n.core g).gathers = [] ∧
    (∀ ch ∈ (n.core g).channels, ch = []) ∧ (n.core g).mem.pages = pages g ∧
    (∀ a, a / 4096 ∈ (m.core g).mem.full → (n.core g).mem.sp.get a = (m.core g).mem.sp.get a) ∧
    (n.core g).mem.full = full g

/-! ### From the start -/

/-- In module `n` the attempt of job `j` that failed in `m` runs again from its start; `wide` tells that the whole rope replays. -/
def Replays (m n : Module) (j : Nat) (wide : Bool) : Prop :=
  let r := (m.job j).run
  let q := (n.job j).run
  (n.job j).state = 3 ∧ (n.job j).step = (m.job j).step ∧ q.attempt = r.attempt + 1 ∧
    q.ropeAttempt = r.ropeAttempt + (if wide then 1 else 0) ∧ q.replay = true ∧ q.mustReplay = none ∧
    q.counters = List.replicate 64 0 ∧ q.signals = [] ∧ q.mark = none ∧ q.epoch = (r.epoch + 1) % 65536 ∧
    n.liveCores j = m.liveCores j ∧ CoresStart m n j (fun _ => 0) (fun _ => []) (fun _ => []) ∧ OtherJobs j m n ∧
    KeepsBut [.cores, .jobs, .hbm, .hbmPoison, .rope, .hawsers, .queues, .od, .log, .report] m n

/-- A restart after frames were sent replays the attempt. -/
theorem replays_restart (fu : Fuses) {m x : Module} {j : Nat} (cause : Nat) (wide : Bool) (sent : KeepsBut [.hawsers] m x)
    (runs : (m.job j).state = 3) : Replays m (x.restart fu j cause wide) j wide := by
  have jobs : x.jobs = m.jobs := sent .jobs (by decide)
  have cores : x.cores = m.cores := sent .cores (by decide)
  have live : x.liveCores j = m.liveCores j := live_filter (by rw [job_congr jobs]) (fun g => by rw [core_congr cores])
  obtain ⟨state, step, attempt, rope, replay, must, counters, signals, mark, epoch, _, cores', starts, others, keeps⟩ :=
    restart_ok fu x j cause wide (by rw [jobs]; exact job_lt (by simp [runs]))
  rw [job_congr jobs] at state step attempt rope epoch
  refine ⟨state.trans runs, step, attempt, rope, replay, must, counters, signals, mark, epoch, cores'.trans live, ?_,
    fun k hk => (others k hk).trans (job_congr jobs k), keeps_trans (keeps_mono sent (by decide)) (keeps_mono keeps (by decide))⟩
  intro g hg
  have start := starts g hg
  rwa [core_congr cores] at start

/-- At rank 0 of a rope every rank replays, elsewhere in it this rank alone (R311). -/
theorem goes_replayStart {s : State} {j st : Nat} (hj : j < 16) (powered : s.m.powered = true) (runs : (s.m.job j).state = 3)
    (must : (s.m.job j).run.mustReplay = some st) (kept : st ≠ stCancelled) (start : (s.m.job j).run.resumes = false) :
    Goes s (.replayStart j) (fun n => Replays s.m n j (!(s.m.inRope j && s.m.rank != 0))) := by
  refine goes_actOn rfl (decide_eq_true hj) powered ?_
  have checks : ((s.m.job j).state != 3 || decide (st = stCancelled) || (s.m.job j).run.resumes) = false := by
    simp [runs, kept, start]
  simp only [must, checks, Bool.false_eq_true, if_false]
  cases here : s.m.inRope j && s.m.rank != 0 with
  | true =>
    rw [if_pos rfl, Bool.not_true]
    exact replays_restart s.fuse st false (keeps_refl _ _) runs
  | false =>
    rw [if_neg Bool.false_ne_true, Bool.not_false]
    refine replays_restart s.fuse st true ?_ runs
    split
    · exact (kb_sendAbort 3 st (by decide)).2 (keeps_refl _ _)
    · exact keeps_refl _ _

/-! ### At a resume point -/

/-- Ending what is in flight keeps the statistics pages. -/
theorem pages_endFlights (fu : Fuses) (m : Module) (j st g : Nat) :
    ((m.endFlights fu j st).core g).mem.pages = (m.core g).mem.pages := by
  refine foldl_keep (fun x => (x.core g).mem.pages) _ _ (fun x k => ?_) m
  by_cases hk : k = g
  · subst hk
    rw [Module.endFlight, core_onCore, core_congr (foldInstr_cores fu _ st x)]
    split
    · obtain ⟨n, sp, e⟩ := stop_eq (x.core k) (x.core k).seq.pc
      rw [e]
    · rfl
  · rw [endFlight_core_other fu x j st hk]

/-- In module `n` the attempt of job `j` that a fence broke in `m` goes on at its latest passed resume point. -/
def Resumes (m n : Module) (j : Nat) : Prop :=
  let r := (m.job j).run
  let q := (n.job j).run
  (n.job j).state = 3 ∧ (n.job j).step = (m.job j).step ∧ q.attempt = r.attempt ∧ q.mustReplay = none ∧
    q.counters = (r.mark.map ResumeMark.counters).getD (List.replicate 64 0) ∧ q.signals = [] ∧ q.mark = r.mark ∧
    q.epoch = r.epoch ∧ n.liveCores j = m.liveCores j ∧
    CoresStart m n j (fun role => (m.job j).resumePoints.getD role 0) (fun g => (r.tags.lookup g).getD [])
      (fun g => (m.core g).mem.pages) ∧
    OtherJobs j m n ∧ KeepsBut [.cores, .jobs, .queues, .od, .log, .report] m n

/-- The run part of an attempt that resumes: its saved counters, and of its reels those of `deal` for the templates `ts` that it
takes from again. -/
def resumedRun (deal : List DieReel) (ts : List Nat) (r : Run) : Run :=
  { r with
    mustReplay := none, cause := none, signals := [], counters := (r.mark.map ResumeMark.counters).getD (List.replicate 64 0),
    sels := (r.mark.map ResumeMark.sels).getD [], dispatched := (r.mark.map ResumeMark.dispatched).getD [],
    reels := r.reels.filter (fun x => !ts.contains x.tmpl) ++ deal.filter (fun x => ts.contains x.tmpl) }

/-- The job whose flights have ended and whose cores are released at its resume point resumes. -/
theorem resumes_release (fu : Fuses) {m : Module} {j : Nat} (deal : List DieReel) (ts : List Nat) (runs : (m.job j).state = 3) :
    Resumes m (((m.endFlights fu j stCancelled).onRun j (resumedRun deal ts)).release j true
      (fun role => (m.job j).resumePoints.getD role 0)) j := by
  have flights : (m.endFlights fu j stCancelled).jobs = m.jobs := endFlights_jobs fu m j stCancelled
  have length : j < (m.endFlights fu j stCancelled).jobs.length := by
    rw [flights]
    exact job_lt (by simp [runs])
  have job : ((m.endFlights fu j stCancelled).onRun j (resumedRun deal ts)).job j =
      { m.job j with run := resumedRun deal ts (m.job j).run } := by
    rw [job_onRun_self _ _ _ length, job_congr flights]
  have parts : KeepsBut [.cores, .jobs, .queues, .od, .log, .report] m
      ((m.endFlights fu j stCancelled).onRun j (resumedRun deal ts)) :=
    (kb_onRun _ _ (by decide)).2 (keeps_mono (keeps_endFlights fu m j stCancelled) (by decide))
  obtain ⟨jobs, cores, live, starts⟩ := release_starts m ((m.endFlights fu j stCancelled).onRun j (resumedRun deal ts)) j true
    (fun role => (m.job j).resumePoints.getD role 0) (m.job j).run.tags (fun g => endFlights_still fu m j stCancelled g)
    (by rw [job]) (by rw [job]; rfl) (by rw [job])
  have released := (job_congr jobs j).trans job
  unfold Resumes
  rw [released]
  refine ⟨runs, rfl, rfl, rfl, rfl, rfl, rfl, rfl, live, fun g hg => ?_, fun k hk => ?_,
    keeps_trans parts (keeps_mono cores (by decide))⟩
  · have start := starts g hg
    have pages : (((m.endFlights fu j stCancelled).onRun j (resumedRun deal ts)).core g).mem.pages = (m.core g).mem.pages :=
      pages_endFlights fu m j stCancelled g
    rwa [if_pos rfl, pages] at start
  · rw [job_congr jobs, job_onRun_other _ _ _ _ hk, job_congr flights]

theorem goes_replayResume {s : State} {j : Nat} (hj : j < 16) (powered : s.m.powered = true) (runs : (s.m.job j).state = 3)
    (resumes : (s.m.job j).run.resumes = true) : Goes s (.replayResume j) (fun n => Resumes s.m n j) := by
  refine goes_actOn rfl (decide_eq_true hj) powered ?_
  have checks : ((s.m.job j).state != 3 || !(s.m.job j).run.resumes) = false := by simp [runs, resumes]
  simp only [checks, Bool.false_eq_true, if_false]
  exact resumes_release s.fuse _ _ runs

/-- Settles O40: the replay from the start, then the resumption. -/
theorem failedAttemptsAreReplayed : Obligations.FailedAttemptsAreReplayed := by
  intro s j st hj powered runs must
  refine ⟨fun kept start => goes_mono (goes_replayStart hj powered runs must kept start) (fun n replays => ?_),
    goes_replayResume hj powered runs⟩
  obtain ⟨state, step, attempt, rope, rest⟩ := replays
  refine ⟨state, step, attempt, rope.trans ?_, rest⟩
  cases s.m.inRope j && s.m.rank != 0 <;> rfl

end Sys2Proof.Proofs
end

section
/-!
PROOFS. The start of a step (R103, R211, R239, R253, R254, R256, R468): what takes effect at it, and where its cores stand.
-/
namespace Sys2Proof.Proofs

open Sys2Proof Sys2Proof.Machine Sys2Proof.Laws

/-! ### What takes effect -/

/-- The A point and the power limit show in the dies and the power (R468). -/
theorem keeps_takePower (m : Module) (j : Nat) : KeepsBut [.dies, .power] m (m.takePower j) := by
  have limit : KeepsBut [.dies, .power] m { m with power := { m.power with limit := m.odGet (odKey 0x2030 1) } } := by
    intro part hp
    cases part <;> simp_all [Part.same]
  exact keeps_trans limit (kb_foldl _ _ (fun x d => (kb_onDie d _ (by decide)).2 (keeps_refl _ _)) _)

/-- The job context of a step that begins: the values bound and the variants in force, and the run of a first attempt. -/
def begunJob (m : Module) (j : Nat) (b : Job) : Job :=
  { b with
    state := 3, bounds := b.bounds.map (fun x => { x with value := x.next }), slots := b.slots.map Slot.turnOver,
    descs := b.descs.map ScaleDesc.dropStep, factored := b.factored.map Factored.restart, run := m.firstRun j }

/-- A step begins with the power taken, its job begun, and what the receive interfaces forget. -/
theorem beginStep_eq (m : Module) (j : Nat) :
    ∃ r, m.beginStep j = ((m.takePower j).onJob j (begunJob m j)).onRope (fun _ => r) := by
  unfold Module.beginStep
  dsimp only
  split
  · exact ⟨_, rfl⟩
  · exact ⟨((m.takePower j).onJob j (begunJob m j)).rope, rfl⟩

/-- Of the job contexts the start of a step changes its own. -/
theorem beginStep_jobs (m : Module) (j : Nat) : (m.beginStep j).jobs = (m.onJob j (begunJob m j)).jobs := by
  obtain ⟨r, begun⟩ := beginStep_eq m j
  have power : (m.takePower j).jobs = m.jobs := keeps_takePower m j .jobs (by decide)
  rw [begun]
  exact congrArg (fun l => modifyAt (begunJob m j) l j) power

theorem keeps_beginStep (m : Module) (j : Nat) : KeepsBut [.jobs, .dies, .power, .rope] m (m.beginStep j) := by
  obtain ⟨r, begun⟩ := beginStep_eq m j
  rw [begun, kb_onRope _ (by decide), kb_onJob _ _ (by decide)]
  exact keeps_mono (keeps_takePower m j) (by decide)

/-! ### What is written before the cores run -/

/-- The slot row lists lie in the job's region (R254). -/
theorem same_writeRowLists (m : Module) (j : Nat) (a : Adapters) : Same j m (m.writeRowLists j a) :=
  same_trans (same_storeAt ..) (same_fold _ _ _ (fun _ _ => same_storeAt ..) _)

theorem same_openStep (m : Module) (j : Nat) : Same j m (m.openStep j) := by
  unfold Module.openStep
  split
  · exact same_trans (same_writeRowLists ..) (same_zeroWords ..)
  · exact same_zeroWords ..

/-- The module in which a step has begun and its micro-batch table is read (R253). -/
def tableRead (fu : Fuses) (m : Module) (j : Nat) : Module :=
  (m.beginStep j).hbmReads fu j ((((m.beginStep j).job j).prog.adapters.map ((m.beginStep j).tableRanges j)).getD [])

/-- The same with the job's regions written. -/
def opened (fu : Fuses) (m : Module) (j : Nat) : Module := (tableRead fu m j).openStep j

/-- The parts that the start of a step changes before its cores run. -/
def openParts : List Part := [.jobs, .dies, .power, .rope] ++ hbmReading

section
variable (fu : Fuses) (m : Module) (j : Nat)

/-- Of the job contexts the table's reads change none. -/
theorem tableRead_jobs : (tableRead fu m j).jobs = (m.onJob j (begunJob m j)).jobs :=
  (jobs_hbmReads fu _ j _).trans (beginStep_jobs m j)

theorem keeps_tableRead : KeepsBut openParts m (tableRead fu m j) :=
  keeps_trans (keeps_mono (keeps_beginStep m j) (by decide)) (keeps_mono (keeps_hbmReads fu _ j _) (by decide))

theorem keeps_opened : KeepsBut openParts m (opened fu m j) := by
  obtain ⟨_, _, written, _⟩ := same_openStep (tableRead fu m j) j
  exact keeps_trans (keeps_tableRead fu m j) (keeps_mono written (by decide))

theorem opened_jobs_length : (opened fu m j).jobs.length = m.jobs.length := by
  obtain ⟨_, length, _, _⟩ := same_openStep (tableRead fu m j) j
  rw [opened, length, tableRead_jobs, onJob_len]

theorem opened_otherJobs : OtherJobs j m (opened fu m j) := by
  obtain ⟨others, _, _, _⟩ := same_openStep (tableRead fu m j) j
  intro k hk
  rw [opened, others k hk, job_congr (tableRead_jobs fu m j), job_onJob_other _ _ _ _ hk]

/-- The job whose step is opened has begun; of it the written regions change the optimiser state and the factors alone. -/
theorem opened_job (hj : j < m.jobs.length) :
    ∃ o f, (opened fu m j).job j = { begunJob m j (m.job j) with opt := o, factored := f } := by
  obtain ⟨_, _, _, o, f, job⟩ := same_openStep (tableRead fu m j) j
  refine ⟨o, f, ?_⟩
  rw [opened, job, job_congr (tableRead_jobs fu m j), job_onJob_self _ _ _ hj]

end

/-! ### The step starts -/

/-- A run with the reels and the empty slices that module `y` deals. -/
def dealt (y : Module) (j : Nat) (r : Run) : Run := { r with reels := y.dealReels j, slices := y.emptySlices j }

/-- Where the micro-batch table passes its check, the step is opened, its reels are dealt and its cores are released. -/
theorem startStep_of_tableGood (fu : Fuses) {m : Module} {j : Nat}
    (table : ((m.beginStep j).job j).prog.adapters.bind ((m.beginStep j).tableBad j) = none) :
    m.startStep fu j = ((opened fu m j).onRun j (dealt (opened fu m j) j)).release j false (fun _ => 0) := by
  simp only [Module.startStep, table]
  rfl

/-- A first attempt has every tag EMPTY (R103). -/
theorem firstRun_tags (m : Module) (j g : Nat) : ((m.firstRun j).tags.lookup g).getD [] = [] := by
  have empty := lookup_empty ((m.job j).cores.map (fun g => (g, []))) g
  rwa [List.map_map] at empty

/-- Job `j` of module `m` started its step in `x`, with the reels and slices that `y` deals. -/
def StepStarted (m x y : Module) (j : Nat) : Prop :=
  (x.job j).state = 3 ∧ (x.job j).step = (m.job j).step ∧
    (x.job j).bounds = (m.job j).bounds.map (fun v => { v with value := v.next }) ∧
    (x.job j).slots = (m.job j).slots.map Slot.turnOver ∧
    (x.job j).run = { m.firstRun j with reels := y.dealReels j, slices := y.emptySlices j } ∧
    (∀ g ∈ m.liveCores j, x.core g =
      { (m.core g).restartAt [] false with
          seq := { pc := 0, loops := [], takes := [], done := false,
                   wait := ((x.job j).resumeAt ((m.job j).image.roleMap.getD (g % 8) 0xFF) 0).map Wait.resume } }) ∧
    (∀ g, g ∉ m.liveCores j → x.core g = m.core g) ∧ OtherJobs j m x ∧
    KeepsBut ([.cores, .jobs, .dies, .power, .rope] ++ hbmReading) m x

theorem startStep_starts (fu : Fuses) {m : Module} {j : Nat} (hj : j < m.jobs.length)
    (table : ((m.beginStep j).job j).prog.adapters.bind ((m.beginStep j).tableBad j) = none) :
    StepStarted m (m.startStep fu j) (opened fu m j) j := by
  rw [startStep_of_tableGood fu table]
  obtain ⟨o, f, begun⟩ := opened_job fu m j hj
  have parts := keeps_opened fu m j
  have others := opened_otherJobs fu m j
  have length := opened_jobs_length fu m j
  generalize opened fu m j = y at begun parts others length ⊢
  have run := job_onRun_self y j (dealt y j) (by rwa [length])
  rw [begun] at run
  have cores : (y.onRun j (dealt y j)).cores = m.cores := parts .cores (by decide)
  obtain ⟨core, jobs, released⟩ := release_ok (y.onRun j (dealt y j)) j false (fun _ => 0)
  have live : (y.onRun j (dealt y j)).liveCores j = m.liveCores j :=
    live_filter (by rw [run]; rfl) (fun g => by rw [core_congr cores])
  rw [live] at core
  generalize (y.onRun j (dealt y j)).release j false (fun _ => 0) = x at core jobs released ⊢
  have job := (job_congr jobs j).trans run
  refine ⟨by rw [job]; rfl, by rw [job]; rfl, by rw [job]; rfl, by rw [job]; rfl, by rw [job]; rfl, fun g hg => ?_,
    fun g hg => ?_, fun k hk => ?_, ?_⟩
  · have tags : ((((y.onRun j (dealt y j)).job j).run.tags).lookup g).getD [] = [] := by
      rw [run]
      exact firstRun_tags m j g
    have image : ((y.onRun j (dealt y j)).job j).image = (m.job j).image := by
      rw [run]
      rfl
    rw [core g, if_pos hg, core_congr cores, relCore, tags, image, job_congr jobs]
  · rw [core g, if_neg hg, core_congr cores]
  · rw [job_congr jobs, job_onRun_other _ _ _ _ hk, others k hk]
  · exact keeps_trans ((kb_onRun j _ (by decide)).2 (keeps_mono parts (by decide))) (keeps_mono released (by decide))

/-- Settles O39: the step's start after the commands that may start and the wait for a STAGE (`startStep_starts`). -/
theorem stepsStartFresh : Obligations.StepsStartFresh := by
  intro s j stageUs hj powered m y loaded asked table
  have counted : m.jobs = (s.m.settle s.fuse).jobs := by
    change ((s.m.settle s.fuse).countStageWait j stageUs).jobs = _
    unfold Module.countStageWait
    split <;> rfl
  have checks : (((s.m.settle s.fuse).job j).state != 2 || !((s.m.settle s.fuse).job j).run.stepAsked) = false := by
    rw [← job_congr counted]
    simp [loaded, asked]
  refine goes_actOn rfl (decide_eq_true hj) powered
    ⟨m.startStep s.fuse j, ?_, startStep_starts s.fuse (job_lt (by simp [loaded])) table⟩
  simp only [checks, Bool.false_eq_true, if_false]
  rfl

end Sys2Proof.Proofs
end

section
/-!
PROOFS. The resolution of index entries (R127).
-/
namespace Sys2Proof.Proofs

open Sys2Proof Sys2Proof.Machine

/-- An index that is not negative names its row, or is above the extent, under every policy (R127). -/
theorem resolveIndex_nonneg (policy e : Nat) {i : Int} (h : 0 ≤ i) :
    resolveIndex policy e i = if i < e then .row i.toNat else .bad := by
  simp [resolveIndex, h]

/-- A negative index is what its policy makes of it (R127). -/
theorem resolveIndex_neg (policy e : Nat) {i : Int} (h : i < 0) :
    resolveIndex policy e i =
      if policy = 1 then (if -(e : Int) ≤ i then .row (i + e).toNat else .bad) else if policy = 2 then .null else .bad := by
  simp [resolveIndex, Int.not_le.mpr h]

/-- A row that an entry names lies in the extent. -/
theorem row_lt_of_resolveIndex {policy e : Nat} {i : Int} {r : Nat} (h : resolveIndex policy e i = .row r) : r < e := by
  rcases Int.lt_or_le i 0 with neg | pos
  · rw [resolveIndex_neg policy e neg] at h
    split_ifs at h
    cases h
    omega
  · rw [resolveIndex_nonneg policy e pos] at h
    split_ifs at h
    cases h
    omega

/-- Settles O32: by the sign of the index (`resolveIndex_nonneg`, `resolveIndex_neg`). -/
theorem indexEntriesResolve : Obligations.IndexEntriesResolve := by
  intro policy e i bound
  have policies : policy = 0 ∨ policy = 1 ∨ policy = 2 := by omega
  refine ⟨fun pos below => ?_, fun above => ?_, fun reach neg => ?_, fun beyond => ?_, fun r => row_lt_of_resolveIndex⟩
  · rw [resolveIndex_nonneg policy e pos, if_pos below]
  · rw [resolveIndex_nonneg policy e (by omega), if_neg (by omega)]
  · rw [resolveIndex_neg policy e neg, if_pos reach]
    rcases policies with rfl | rfl | rfl <;> rfl
  · rw [resolveIndex_neg policy e (by omega), if_neg (Int.not_le.mpr beyond)]
    rcases policies with rfl | rfl | rfl <;> rfl

end Sys2Proof.Proofs
end

section
/-!
PROOFS. The dealing of a template's entries to the die reels (R139, R228).
-/
namespace Sys2Proof.Proofs

open Sys2Proof Sys2Proof.Machine

section
variable (m : Module) (j n : Nat) (t : Template)

/-- The reel of die `d`, at position `k` of the dies that take from a template: the entries of the blocks that are `k` modulo the
number of those dies. -/
def reelAt (d k : Nat) : DieReel :=
  { tmpl := n, die := d,
    left := ((((t.grid (m.reelCounts j t)).zipIdx).filter (fun e => !m.entryEmpty j n t e.2 e.1.2)).filter
      (fun e => e.1.1 % max 1 (m.reelDies j t).length == k)).map Prod.snd }

variable {m j n t}

/-- A dealt reel is that of a die at its position. -/
theorem mem_dealReel {r : DieReel} :
    r ∈ m.dealReel j n t ↔ ∃ d k, (m.reelDies j t)[k]? = some d ∧ reelAt m j n t d k = r := by
  change r ∈ ((m.reelDies j t).zipIdx).map (fun p => reelAt m j n t p.1 p.2) ↔ _
  simp [List.mem_zipIdx_iff_getElem?]

/-- What the reel at position `k` holds: the entries that write something, of its blocks. -/
theorem mem_reelAt_left {d k e : Nat} :
    e ∈ (reelAt m j n t d k).left ↔ ∃ b pos, (t.grid (m.reelCounts j t))[e]? = some (b, pos) ∧
      m.entryEmpty j n t e pos = false ∧ b % max 1 (m.reelDies j t).length = k := by
  simp [reelAt, List.mem_zipIdx_iff_getElem?, and_assoc, and_comm]

/-- A reel holds its entries in ascending order. -/
theorem reelAt_ascending (d k : Nat) : (reelAt m j n t d k).left.Pairwise (· < ·) := by
  have numbers : (((t.grid (m.reelCounts j t)).zipIdx).map Prod.snd).Pairwise (· < ·) := by
    rw [List.zipIdx_map_snd]
    exact List.pairwise_lt_range'
  exact List.pairwise_map.mpr (((List.pairwise_map.mp numbers).filter _).filter _)

variable (m j n t)

/-- The dies that take from a template ascend. -/
theorem reelDies_ascending : (m.reelDies j t).Pairwise (· < ·) := List.pairwise_lt_range.filter _

/-- There is one reel for each of them, in their order. -/
theorem dealReel_dies : (m.dealReel j n t).map DieReel.die = m.reelDies j t := by
  simp only [Module.dealReel, List.map_map]
  exact List.zipIdx_map_fst 0 _

end

/-- Settles O31: an entry that writes something lies in the reel at its block's remainder alone (`mem_reelAt_left`). -/
theorem dieReelsDealEveryEntryOnce : Obligations.DieReelsDealEveryEntryOnce := by
  intro m j n t some_die es dies
  have count : max 1 dies.length = dies.length := Nat.max_eq_right (List.length_pos_iff.mpr some_die)
  refine ⟨fun e b pos entry => ⟨fun writes => ?_, fun empty r hr held => ?_⟩, fun r hr => ?_, reelDies_ascending m j t,
    dealReel_dies m j n t⟩
  · have position : b % dies.length < dies.length := Nat.mod_lt _ (List.length_pos_iff.mpr some_die)
    have die : dies[b % dies.length]? = some dies[b % dies.length] := List.getElem?_eq_getElem position
    refine ⟨reelAt m j n t dies[b % dies.length] (b % dies.length), mem_dealReel.mpr ⟨_, _, die, rfl⟩,
      mem_reelAt_left.mpr ⟨b, pos, entry, writes, congrArg (b % ·) count⟩, rfl, die, fun r hr held => ?_⟩
    obtain ⟨d, k, hd, rfl⟩ := mem_dealReel.mp hr
    obtain ⟨b', pos', entry', _, hk⟩ := mem_reelAt_left.mp held
    cases entry.symm.trans entry'
    obtain rfl : b % dies.length = k := (congrArg (b % ·) count).symm.trans hk
    cases die.symm.trans hd
    rfl
  · obtain ⟨d, k, _, rfl⟩ := mem_dealReel.mp hr
    obtain ⟨b', pos', entry', writes, _⟩ := mem_reelAt_left.mp held
    cases entry.symm.trans entry'
    exact absurd (empty.symm.trans writes) (by decide)
  · obtain ⟨d, k, hd, rfl⟩ := mem_dealReel.mp hr
    refine ⟨reelAt_ascending d k, fun e he => ?_, List.mem_of_getElem? hd⟩
    obtain ⟨b, pos, entry, _⟩ := mem_reelAt_left.mp he
    exact (List.getElem?_eq_some_iff.mp entry).1

end Sys2Proof.Proofs
end

section
/-!
PROOFS. The tile instructions EXPAND, COMPRESS and TRANSPOSE (R136 to R146, R186, R202).
-/
namespace Sys2Proof.Proofs

open Sys2Proof Sys2Proof.Machine Sys2Proof.Laws

/-- An instruction whose turn in its combine buffer has come goes on (R186). -/
theorem withTurn_of {m : Module} {i : Inst} {o : Operand} (turn : (o.buf.combine != 0 && !m.hasTurn i o.ref.buf) = false)
    (body : Module → Module) : m.withTurn i o body = body m := by
  simp only [Module.withTurn, turn, Bool.false_eq_true, if_false]

section
variable {m : Module} {i : Inst} {ups : List Upset} {src dst : Operand}
  (shapes : ShapesGood m i ups (spliceShapes i.words) (spliceRefs i.words))
  (tiles : 0 < m.shapeOf i (readShape (hiOf i.words 5)))
  (source : m.operand i (loOf i.words 2) false 0 = some src) (destination : m.operand i (loOf i.words 3) true 0 = some dst)
include shapes tiles source destination

/-- An instruction over tiles with a tile count and its operands runs its body (R126, R136). -/
theorem tileOp_runs (fu : Fuses) (body : Module → Operand → Operand → Nat → Module) :
    m.tileOp fu ups i body = body m src dst (m.shapeOf i (readShape (hiOf i.words 5))) := by
  rw [Module.tileOp, withShapes_of shapes]
  simp only [tiles.ne', if_false, source, destination]

/-- What the row of a tile instruction comes to, from what its body leaves. -/
theorem goes_tileOp {s : State} {c : Instr} {g : Nat} {kind : Words → Bool} {P : Module → Prop}
    {body : Fuses → Inst → Module → Operand → Operand → Nat → Module} (issues : Issues s g kind ups i m)
    (row : exec c s = s.actOn (decide (g < 384)) (fun fu m => m.issueRow fu g kind ups (fun m i => m.tileOp fu ups i (body fu i))))
    (left : P (body s.fuse i m src dst (m.shapeOf i (readShape (hiOf i.words 5))))) : Goes s c P :=
  goes_row (body := fun fu m i => m.tileOp fu ups i (body fu i)) issues row
    (by rwa [tileOp_runs shapes tiles source destination])

end

/-- No group that COMPRESS looks at for a drop fault has three non-zeros (R142). -/
theorem find_dropped_none {α : Type} {gs : List α} {count : α → Nat} (sparse fault : Bool)
    (kept : sparse = true → fault = true → gs.all (fun q => decide (count q < 3)) = true) :
    (if fault then (if sparse then gs else []).find? (fun q => decide (3 ≤ count q)) else none) = none := by
  cases fault with
  | false => rfl
  | true =>
    cases sparse with
    | false => rfl
    | true => simpa using kept rfl rfl

/-- Settles O10: past its tags and its turn each tile instruction stores its elements and commits (`tileOp_runs`). -/
theorem tileInstructionsCommit : Obligations.TileInstructionsCommit := by
  intro s g ups i m src dst t sw tr shapes tiles source destination
  refine ⟨?_, ?_, ?_⟩
  · rintro issues p kt places srcSlots dstSlots ⟨ready, turn⟩ valid
    refine goes_tileOp shapes tiles source destination (body := fun fu i m => m.expandTiles fu i) issues rfl ?_
    rw [Module.expandTiles]
    dsimp only
    rw [ready, valid]
    exact withTurn_of turn _
  · rintro issues places srcSlots dstSlots both ⟨ready, turn⟩
    refine goes_tileOp shapes tiles source destination (body := fun fu i m => m.transposeTiles fu i) issues rfl ?_
    rw [Module.transposeTiles]
    dsimp only
    rw [ready]
    exact withTurn_of turn _
  · rintro issues p0 p idx all places srcSlots ⟨ready, turn⟩ clean kept gs
    refine goes_tileOp shapes tiles source destination (body := fun fu i m => m.compressTiles fu i) issues rfl ?_
    rw [Module.compressTiles]
    dsimp only
    rw [ready]
    dsimp only
    rw [if_neg (ne_true_of_eq_false clean), withTurn_of turn, find_dropped_none _ _ kept]

end Sys2Proof.Proofs
end

section
/-!
PROOFS. The index operations GATHER, SCATTER and SCATTER_ADD (R125 to R132, R202).
-/
namespace Sys2Proof.Proofs

open Sys2Proof Sys2Proof.Machine Sys2Proof.Laws

/-! ### Past the index pass -/

/-- A test that no element meets finds none. -/
theorem findFrom_eq_none {α : Type} {p : α → Bool} {l : List α} (none_meets : ∀ a ∈ l, p a = false) (k : Nat) :
    findFrom p l k = none := by
  induction l generalizing k with
  | nil => rfl
  | cons a l ih =>
    rw [findFrom, if_neg (by simp [none_meets a List.mem_cons_self])]
    exact ih (fun b hb => none_meets b (List.mem_cons_of_mem a hb)) (k + 1)

/-- An index pass that resolves every entry goes on with the resolved entries (R125 to R127). -/
theorem indexPass_of {m : Module} {i : Inst} {ix : Option Operand} {n e : Nat} {rs : List Resolved}
    (passes : IndexPasses m i ix n e rs) (fu : Fuses) (body : Module → List Resolved → Module) :
    m.indexPass fu i ix n e body = body m rs := by
  rcases passes with ⟨rfl, rfl, rfl⟩ | ⟨o, rfl, ready, clean, rfl, good⟩
  · rfl
  · have resolved : findFrom (fun r => r == Resolved.bad) ((m.indexVals o n).map (resolveIndex (readSplice i.words).neg e)) 0 = none :=
      findFrom_eq_none (fun r hr => by simpa using List.all_eq_true.mp good r hr) 0
    simp only [Module.indexPass, ready, clean, resolved, Bool.false_eq_true, if_false]

section
variable {m : Module} {i : Inst} {ups : List Upset} {rs : List Resolved} {dst : Operand}
  (shapes : ShapesGood m i ups (spliceShapes i.words) (spliceRefs i.words))
  (passes : IndexPasses m i (m.operand i (hiOf i.words 2) false 0)
    (entriesOf (m.operand i (hiOf i.words 2) false 0) (m.shapeOf i (readShape (hiOf i.words 4))))
    (m.shapeOf i (readShape (loOf i.words 4))) rs)
  (destination : m.operand i (loOf i.words 3) true 0 = some dst)
include shapes passes destination

/-- A GATHER with positions, whose entries resolve, delivers its rows (R126, R127). -/
theorem gatherAt_runs {src : Operand} (fu : Fuses) (positions : 0 < m.shapeOf i (readShape (hiOf i.words 4)))
    (source : m.operand i (loOf i.words 2) false 0 = some src) :
    m.gatherAt fu ups i = m.gatherData fu i (m.operand i (hiOf i.words 2) false 0) src dst
      (entriesOf (m.operand i (hiOf i.words 2) false 0) (m.shapeOf i (readShape (hiOf i.words 4)))) rs := by
  rw [Module.gatherAt, withShapes_of shapes]
  simp only [positions.ne', if_false, indexPass_of passes, source, destination]

/-- A SCATTER or SCATTER_ADD with an extent, whose entries resolve, leaves its rows (R126, R127). -/
theorem scatterAt_runs (fu : Fuses) (add : Bool) (extent : 0 < m.shapeOf i (readShape (loOf i.words 4))) :
    m.scatterAt fu ups add i = m.scatterData fu add i (m.operand i (hiOf i.words 2) false 0) (m.operand i (loOf i.words 2) false 0) dst
      (if (readSplice i.words).base then m.operand i (hiOf i.words 3) false 0 else none)
      (entriesOf (m.operand i (hiOf i.words 2) false 0) (m.shapeOf i (readShape (hiOf i.words 4))))
      (m.shapeOf i (readShape (loOf i.words 4))) rs := by
  rw [Module.scatterAt, withShapes_of shapes]
  simp only [extent.ne', if_false, indexPass_of passes, destination]

end

/-! ### The reads of a gather from outside the scratchpad (R109, R131, R361) -/

/-- A stall of a cluster shows in its cores as stalled cycles of their cluster alone (R109). -/
theorem core_stallCluster (m : Module) (k h : Nat) : ∃ c, (m.stallCluster k).core h = { m.core h with clusterStalls := c } := by
  unfold Module.stallCluster
  dsimp only
  split
  · exact ⟨_, rfl⟩
  · refine List.foldlRecOn (motive := fun x : Module => ∃ c, x.core h = { m.core h with clusterStalls := c }) _ _ ⟨_, rfl⟩
      (fun x ⟨c, hx⟩ g _ => ?_)
    rw [core_onCore]
    split
    · next same => exact ⟨_, by rw [← same.1, hx]⟩
    · exact ⟨c, hx⟩

theorem keeps_stallCluster (m : Module) (k : Nat) : KeepsBut [.cores, .clusters, .od] m (m.stallCluster k) := by
  unfold Module.stallCluster
  dsimp only
  split
  · exact keeps_refl _ m
  · refine keeps_trans ?_ (kb_foldl _ _ (fun m g => keeps_mono (keeps_onCore m g _) (by decide)) _)
    simp [keeps_refl]

/-- So do the reads of rows of cluster memory whose remap is in progress (R110). -/
theorem core_clusterReads (m : Module) (j g h : Nat) (rs : List (Nat × Nat)) :
    ∃ c, (m.clusterReads j g rs).core h = { m.core h with clusterStalls := c } := by
  refine List.foldlRecOn (motive := fun x : Module => ∃ c, x.core h = { m.core h with clusterStalls := c }) _ _ ⟨_, rfl⟩
    (fun x ⟨c, hx⟩ _ _ => ?_)
  obtain ⟨c', stalled⟩ := core_stallCluster (x.bump (odKey 0x4210 2) 1) (clusterOf g) h
  exact ⟨c', by rw [Module.clusterWide, stalled, core_of_bump, hx]⟩

theorem keeps_clusterReads (m : Module) (j g : Nat) (rs : List (Nat × Nat)) :
    KeepsBut [.cores, .clusters, .od] m (m.clusterReads j g rs) :=
  kb_foldl _ _ (fun m _ => keeps_trans (keeps_mono (keeps_bump m _ _) (by decide)) (keeps_stallCluster _ _)) m

/-- A request to the stacks may write what reads of HBM may. -/
theorem keeps_narrowReads (m : Module) (n : Nat) : KeepsBut hbmReading m (m.narrowReads n) := by
  unfold Module.narrowReads
  split
  · exact keeps_refl _ m
  · exact keeps_mono (keeps_bump m _ n) (by decide)

theorem keeps_request (fu : Fuses) (m : Module) (j a n : Nat) : KeepsBut hbmReading m (m.request fu j a n) :=
  keeps_trans (keeps_hbmReads fu m j [(a, n)]) (keeps_narrowReads _ _)

section
variable (fu : Fuses) (m : Module) {src : Operand} (rb : Nat) (rs : List Resolved)

/-- From cluster memory a gather's reads stall clusters. -/
theorem gatherReads_cluster (cluster : src.buf.space = 1) : m.gatherReads fu src rb rs =
    m.clusterReads src.job src.core ((windowReads rs).map (fun k => (src.addr (src.rowBase + k * rb), rb))) := by
  rw [Module.gatherReads, if_pos cluster]

/-- From elsewhere they are reads of HBM, or none. -/
theorem keeps_gatherReads (other : src.buf.space ≠ 1) : KeepsBut hbmReading m (m.gatherReads fu src rb rs) := by
  rw [Module.gatherReads, if_neg other]
  split
  · exact keeps_refl _ m
  · exact kb_foldl _ _ (fun m (r : Nat × Nat) => keeps_request fu m src.job r.1 r.2) m

/-- In the cores they show as stalled cycles of a cluster alone. -/
theorem core_gatherReads (h : Nat) : ∃ c, (m.gatherReads fu src rb rs).core h = { m.core h with clusterStalls := c } := by
  by_cases cluster : src.buf.space = 1
  · rw [gatherReads_cluster fu m rb rs cluster]
    exact core_clusterReads m _ _ h _
  · exact ⟨_, core_congr (keeps_gatherReads fu m rb rs cluster .cores (by decide)) h⟩

@[simp] theorem gatherReads_length : (m.gatherReads fu src rb rs).cores.length = m.cores.length := by
  by_cases cluster : src.buf.space = 1
  · rw [gatherReads_cluster fu m rb rs cluster]
    exact foldl_length m _ _ (fun m _ => clusterWide_length m _)
  · exact congrArg List.length (keeps_gatherReads fu m rb rs cluster .cores (by decide))

end

/-- What an index operation without a base consumes: its index and its source, unless kept. -/
theorem indexConsumes_nil (i : Inst) (ix : Option Operand) (n : Nat) (src : List Nat) : indexConsumes i ix n src [] =
    (if (readSplice i.words).idxKeep then [] else indexSlots ix n) ++ (if (readSplice i.words).srcKeep then [] else src) :=
  List.append_nil _

/-! ### A gather on its way (R131) -/

/-- What a gather on its way leaves of the module `x` after its reads: its index read and consumed, it waits with its core's others,
and its program goes on. -/
def gatherSent (x : Module) (i : Inst) (p : PendGather) (index consume : List Nat) : Module :=
  (((x.remapReads i.core index).setEmpty i.core consume).onCore i.core (fun c => { c with gathers := c.gathers ++ [p] })).advance i

section
variable (x : Module) (i : Inst) (p : PendGather) (index consume : List Nat)

theorem keeps_gatherSent : KeepsBut [.cores, .od] x (gatherSent x i p index consume) := by
  simpa [gatherSent] using keeps_remapReads x i.core index

theorem core_gatherSent_other {h : Nat} (hn : h ≠ i.core) : (gatherSent x i p index consume).core h = x.core h := by
  rw [gatherSent, Module.advance, core_goto_other _ _ _ _ _ hn, core_onCore_other _ _ _ _ hn, core_setEmpty_other _ _ _ hn,
    core_remapReads_other _ _ _ hn]

/-- The core whose gather is on its way: its stalls, tags, gathers and sequencer alone have changed. -/
theorem core_gatherSent (core : i.core < x.cores.length) : ∃ k q, q.pc = i.index + 1 ∧ (gatherSent x i p index consume).core i.core =
    { emptied consume { x.core i.core with stalls := k } with gathers := (x.core i.core).gathers ++ [p], seq := q } := by
  obtain ⟨k, stalled⟩ := core_remapReads_self x i.core index
  have consumed : ((x.remapReads i.core index).setEmpty i.core consume).core i.core =
      emptied consume { x.core i.core with stalls := k } := by
    rw [core_setEmpty_self _ _ (by rwa [remapReads_length]), stalled]
  have gathers : (emptied consume { x.core i.core with stalls := k }).gathers = (x.core i.core).gathers := by
    unfold emptied
    split <;> rfl
  refine ⟨k, seqAt (((x.remapReads i.core index).setEmpty i.core consume).onCore i.core (fun c => { c with gathers := c.gathers ++ [p] })) i
    (i.index + 1) (emptied consume { x.core i.core with stalls := k }).seq, rfl, ?_⟩
  rw [gatherSent, Module.advance, core_goto _ _ _ (by simpa using core), core_onCore_self _ _ _ (by simpa using core), consumed,
    gathers]

end

/-- A gather on its way from a module `c` that differs from `m` in counts alone: its core holds one gather more and has written
nothing, and besides only what its reads may write has changed. -/
theorem gatherSent_leaves {m c : Module} (counted : KeepsBut [.od] m c) (fu : Fuses) (src : Operand) (rb : Nat) (rs : List Resolved)
    {i : Inst} (p : PendGather) (index consume : List Nat) (length : i.core < m.cores.length) :
    let k := gatherSent (c.gatherReads fu src rb rs) i p index consume
    (k.core i.core).gathers.length = (m.core i.core).gathers.length + 1 ∧ (k.core i.core).seq.pc = i.index + 1 ∧
      (k.core i.core).mem.sp = (m.core i.core).mem.sp ∧
      (∀ h, h ≠ i.core → k.core h = { m.core h with clusterStalls := (k.core h).clusterStalls }) ∧
      (src.buf.space = 1 → KeepsBut [.cores, .clusters, .od] m k) ∧
      (src.buf.space ≠ 1 → OtherCores i.core m k ∧ KeepsBut (.cores :: hbmReading) m k) := by
  have cores : c.cores = m.cores := counted .cores (by decide)
  have keeps := keeps_gatherSent (c.gatherReads fu src rb rs) i p index consume
  have others := fun h (hn : h ≠ i.core) => core_gatherSent_other (c.gatherReads fu src rb rs) i p index consume hn
  obtain ⟨k, q, pc, core⟩ := core_gatherSent (c.gatherReads fu src rb rs) i p index consume (by simpa [cores] using length)
  obtain ⟨_, stalled⟩ := core_gatherReads fu c (src := src) rb rs i.core
  rw [core_congr cores] at stalled
  rw [stalled] at core
  refine ⟨?_, ?_, ?_, fun h hn => ?_, fun cluster => ?_, fun other => ?_⟩
  · rw [core]
    simp
  · rw [core]
    exact pc
  · rw [core]
    exact sp_emptied _ _
  · obtain ⟨_, waited⟩ := core_gatherReads fu c (src := src) rb rs h
    rw [others h hn, waited, core_congr cores]
  · have reads : KeepsBut [.cores, .clusters, .od] c (c.gatherReads fu src rb rs) := by
      rw [gatherReads_cluster fu c rb rs cluster]
      exact keeps_clusterReads c _ _ _
    exact keeps_trans (keeps_mono counted (by decide)) (keeps_trans reads (keeps_mono keeps (by decide)))
  · have reads := keeps_gatherReads fu c rb rs other
    exact ⟨fun h hn => by rw [others h hn, core_congr (reads .cores (by decide)), core_congr cores],
      keeps_trans (keeps_mono counted (by decide)) (keeps_trans (keeps_mono reads (by decide)) (keeps_mono keeps (by decide)))⟩

section
variable {fu : Fuses} {m : Module} {i : Inst} {ix : Option Operand} {src dst : Operand} {n : Nat} {rs : List Resolved}

/-- A gather past its index pass whose source lies outside the scratchpad: counted and read, it is on its way (R127, R129, R131). -/
theorem gatherData_far (far : (readSplice i.words).srcMem = true)
    (ready : m.tagWait i.core (indexSlots ix n ++ []) (dst.rowSlots (readSplice i.words).rowBytes (List.range n))
      (indexConsumes i ix n [] []) = none) :
    ∃ (c : Module) (p : PendGather), KeepsBut [.od] m c ∧ m.gatherData fu i ix src dst n rs =
      gatherSent (c.gatherReads fu src (readSplice i.words).rowBytes rs) i p (indexSlots ix n) (indexConsumes i ix n [] []) := by
  rw [indexConsumes_nil] at ready ⊢
  refine ⟨(m.countIndex ((ix.map (fun o => m.indexVals o n)).getD []) rs).bump (odKey 0x3150 4) (coalesced rs), ?p, ?counted, ?sent⟩
  case sent =>
    rw [Module.gatherData]
    simp only [far, if_true, ready]
    rfl
  case counted => simp [Module.countIndex, keeps_refl]

/-- One from the scratchpad stores its rows and commits (R129, R130). -/
theorem gatherData_near (near : (readSplice i.words).srcMem = false) {srcSlots dstSlots : List Nat}
    (reads : srcSlots = src.rowSlots (readSplice i.words).rowBytes (rs.filterMap Resolved.row?).eraseDups)
    (writes : dstSlots = dst.rowSlots (readSplice i.words).rowBytes (List.range n))
    (ready : m.tagWait i.core (indexSlots ix n ++ srcSlots) dstSlots (indexConsumes i ix n srcSlots []) = none)
    (turn : (dst.buf.combine != 0 && !m.hasTurn i dst.ref.buf) = false) :
    m.gatherData fu i ix src dst n rs =
      (((m.gatherRows src (readSplice i.words).rowBytes rs).zipIdx).foldl
        (fun (m : Module) p => m.putRow dst (readSplice i.words).rowBytes p.2 p.1)
        ((m.countIndex ((ix.map (fun o => m.indexVals o n)).getD []) rs).bump (odKey 0x3150 4) (coalesced rs))).engineCommit fu i
        (indexSlots ix n ++ srcSlots) dstSlots (indexConsumes i ix n srcSlots []) := by
  subst reads writes
  rw [indexConsumes_nil] at ready ⊢
  rw [Module.gatherData]
  simp only [near, Bool.false_eq_true, if_false, ready]
  exact withTurn_of turn _

end

/-! ### The rows of a scatter (R126, R128, R129, R132) -/

/-- The positions whose value rows a scatter reads: SCATTER_ADD every one that names a row, SCATTER the last in each window (R129). -/
def scatterRead (add : Bool) (rs : List Resolved) : List Nat :=
  if add then (rs.zipIdx).filterMap (fun p => p.1.row?.map (fun _ => p.2)) else windowLast rs

section
variable (i : Inst) (ix src base : Option Operand)

/-- The slots of those rows. -/
def scatterSrcSlots (add : Bool) (rs : List Resolved) : List Nat :=
  (src.map (fun o => o.rowSlots (readSplice i.words).rowBytes (scatterRead add rs))).getD []

/-- The slots of the base rows. -/
def scatterBaseSlots (e : Nat) : List Nat := (base.map (fun o => o.rowSlots (readSplice i.words).rowBytes (List.range e))).getD []

/-- The slots that a scatter consumes. -/
def scatterConsumes (add : Bool) (n e : Nat) (rs : List Resolved) : List Nat :=
  indexConsumes i ix n (scatterSrcSlots i src add rs) (if base.any (fun o => o.ref.consume) then scatterBaseSlots i base e else [])

/-- Whether the value rows or the base rows that a scatter reads carry poison (R132). -/
def scatterPoison (m : Module) (rb e : Nat) (read : List Nat) : Bool :=
  src.any (fun o => read.any (fun j => (m.rowPoison o rb j).any id)) ||
    base.any (fun o => (List.range e).any (fun r => (m.rowPoison o rb r).any id))

/-- The destination rows that a scatter leaves, with its clamped sums (R128). -/
def scatterLeft (m : Module) (add : Bool) (dst : Operand) (e : Nat) (rs : List Resolved) : List Row × Nat :=
  match src with
  | some o => if add then m.scatterAddRows o dst base ((readSplice i.words).valFmt == 5) (readSplice i.words).rowBytes e rs
      else (m.scatterRows o base (readSplice i.words).rowBytes e rs, 0)
  | none => ((List.range e).map (m.baseRow base (readSplice i.words).rowBytes), 0)

/-- A scatter past its index pass that may write: a SCATTER_ADD that reads poison ends POISON, and otherwise its rows are stored and
it commits. The counts of the index pass show in no row. -/
theorem scatterData_of (fu : Fuses) {m : Module} {add : Bool} {dst : Operand} {n e : Nat} {rs : List Resolved}
    (may : MayWrite m i dst (indexSlots ix n ++ scatterSrcSlots i src add rs ++ scatterBaseSlots i base e)
      (dst.rowSlots (readSplice i.words).rowBytes (List.range e)) (scatterConsumes i ix src base add n e rs)) :
    m.scatterData fu add i ix src dst base n e rs =
      if add && scatterPoison src base m (readSplice i.words).rowBytes e (scatterRead add rs) then
        (m.countIndex ((ix.map (fun o => m.indexVals o n)).getD []) rs).enginePoison fu i
      else
        (((scatterLeft i src base m add dst e rs).1.zipIdx).foldl
          (fun (m : Module) p => m.putRow dst (readSplice i.words).rowBytes p.2 p.1)
          (((m.countIndex ((ix.map (fun o => m.indexVals o n)).getD []) rs).bump (odKey 0x3150 4) (coalesced rs)).bump (odKey 0x3140 3)
            (scatterLeft i src base m add dst e rs).2)).engineCommit fu i
          (indexSlots ix n ++ scatterSrcSlots i src add rs ++ scatterBaseSlots i base e)
          (dst.rowSlots (readSplice i.words).rowBytes (List.range e)) (scatterConsumes i ix src base add n e rs) := by
  obtain ⟨ready, turn⟩ := may
  unfold scatterConsumes scatterSrcSlots scatterBaseSlots indexConsumes scatterRead at ready ⊢
  rw [Module.scatterData]
  dsimp only
  rw [ready]
  dsimp only
  rw [withTurn_of turn]
  cases src <;> cases base <;> rfl

end

/-- Settles O8: what a gather past its index pass does near and far (`gatherData_near`, `gatherData_far`), and a scatter
(`scatterData_of`). -/
theorem indexOperationsCommit : Obligations.IndexOperationsCommit := by
  intro s g ups i m rs dst ix src base count n e rb vals shapes passes destination
  refine ⟨?_, ?_, ?_⟩
  · intro so source issues positions srcSlots ready turn
    have length := issues_length issues
    obtain rfl := issues_core issues
    refine goes_row (body := fun fu m i => m.gatherAt fu ups i) issues rfl ?_
    rw [gatherAt_runs shapes passes destination s.fuse positions source]
    refine ⟨fun near => ?_, fun far => ?_⟩
    · have reads : srcSlots = so.rowSlots rb (rs.filterMap Resolved.row?).eraseDups := if_neg (ne_true_of_eq_false near)
      exact gatherData_near near reads rfl ready (turn.resolve_left (ne_true_of_eq_false near))
    · have reads : srcSlots = [] := if_pos far
      rw [reads] at ready
      obtain ⟨c, p, counted, sent⟩ := gatherData_far (fu := s.fuse) (src := so) (rs := rs) far ready
      rw [sent]
      exact gatherSent_leaves counted s.fuse so rb rs p (indexSlots ix n) (indexConsumes i ix n [] []) length
  · rintro add issues extent read srcSlots baseSlots consume may clean
    have clear : (add && scatterPoison src base m rb e read) = false := by
      cases add with
      | false => rfl
      | true => simpa [scatterPoison, Option.any_eq_false, Option.all_eq_true] using clean rfl
    have left := (scatterAt_runs shapes passes destination s.fuse add extent).trans
      ((scatterData_of i ix src base s.fuse may).trans (if_neg (ne_true_of_eq_false clear)))
    cases add with
    | false => exact goes_row (body := fun fu m i => m.scatterAt fu ups false i) issues rfl left
    | true => exact goes_row (body := fun fu m i => m.scatterAt fu ups true i) issues rfl left
  · rintro issues extent read srcSlots baseSlots may ⟨o, source, j, hj, bad⟩
    have poison : (true && scatterPoison src base m rb e (scatterRead true rs)) = true := by
      have found : (scatterRead true rs).any (fun j => (m.rowPoison o rb j).any id) = true := List.any_eq_true.mpr ⟨j, hj, bad⟩
      simp only [scatterPoison, source, Option.any_some, found, Bool.true_or, Bool.true_and]
    have left := (scatterAt_runs shapes passes destination s.fuse true extent).trans
      ((scatterData_of (add := true) i ix src base s.fuse may).trans (if_pos poison))
    exact goes_row (body := fun fu m i => m.scatterAt fu ups true i) issues rfl left

end Sys2Proof.Proofs
end

section
/-!
PROOFS. The seventeen row functions at their issue (R152 to R178, R186, R202): past its checks and its label pass each stores its
outputs and commits.
-/
namespace Sys2Proof.Proofs

open Sys2Proof Sys2Proof.Machine Sys2Proof.Laws

/-- Each command of the row engine is that of its function code (R153). -/
theorem exec_rowRows {r : Nat × (Nat → List Upset → Instr)} (row : r ∈ rowRows) (g : Nat) (ups : List Upset) (s : State) :
    exec (r.2 g ups) s = rowCommand r.1 g ups s := by
  simp only [rowRows, List.mem_cons, List.not_mem_nil, or_false] at row
  rcases row with rfl | rfl | rfl | rfl | rfl | rfl | rfl | rfl | rfl | rfl | rfl | rfl | rfl | rfl | rfl | rfl | rfl <;> rfl

/-- An output whose turn has come, or that has no combine buffer, lets its instruction go on (R186). -/
theorem turnOf_of {m : Module} {i : Inst} {o : Option Operand}
    (turn : o.all (fun o => o.buf.combine == 0 || m.hasTurn i o.ref.buf) = true) (body : Module → Module) :
    m.turnOf i o body = body m := by
  cases o with
  | none => rfl
  | some o =>
    refine withTurn_of ?_ body
    rcases (Bool.or_eq_true _ _).mp turn with unordered | has
    · simp only [bne, unordered, Bool.not_true, Bool.false_and]
    · simp only [has, Bool.not_true, Bool.and_false]

section
variable (fu : Fuses) {c : RowCtx}

/-- A row function that nothing holds stores its outputs and its records, and commits (R154, R156). -/
theorem run_of_rowGoes (goes : RowGoes c) : c.run fu = rowLeaves fu c := by
  obtain ⟨ready, pages, turn0, turn1, slices, clean⟩ := goes
  rw [RowCtx.run]
  dsimp only
  rw [ready]
  dsimp only
  rw [pages]
  dsimp only
  rw [turnOf_of turn0, turnOf_of turn1, if_neg (ne_true_of_eq_false slices), if_neg (ne_true_of_eq_false clean)]
  rfl

/-- A label pass that meets only good labels goes on (R166). -/
theorem labelPass_of_labelsGood (labels : LabelsGood c) : c.labelPass fu = c.run fu := by
  unfold RowCtx.labelPass
  cases label : c.in1 with
  | none => rfl
  | some o =>
    obtain ⟨ready, clean, below⟩ := labels o label
    simp only [ready, clean, below, Bool.false_eq_true, if_false]

end

/-- A row instruction with rows and columns, whose row range its statistics sets hold and whose labels are good where it takes them,
runs its function (R152, R170, R202). -/
theorem rowCmdAt_runs (fu : Fuses) {m : Module} {i : Inst} {ups : List Upset}
    (shapes : ShapesGood m i ups (rowShapes i.words) (rowRefs i.words))
    (group : (m.rowCtx i).statRow % 8 = 0) (sets : (m.rowCtx i).statBad = none) (rows : 0 < (m.rowCtx i).rows)
    (cols : 0 < (m.rowCtx i).cols) (labels : (m.rowCtx i).w.func = 0x07 → LabelsGood (m.rowCtx i)) :
    m.rowCmdAt fu ups i = (m.rowCtx i).run fu := by
  have aligned : m.shapeOf i (readShape (loOf i.words 6)) % 8 = 0 := group
  have some_elements : ¬(((m.rowCtx i).rows = 0 || (m.rowCtx i).cols = 0) = true) := by simp [rows.ne', cols.ne']
  simp only [Module.rowCmdAt, aligned, bne_self_eq_false, Bool.and_false, Bool.false_eq_true, if_false]
  rw [withShapes_of shapes]
  simp only [sets]
  rw [if_neg some_elements]
  split
  · next xent => exact labelPass_of_labelsGood fu (labels xent)
  · rfl

/-- Settles O12: past its checks (`rowCmdAt_runs`) each row function stores its outputs and commits (`run_of_rowGoes`). -/
theorem rowFunctionsCommit : Obligations.RowFunctionsCommit := by
  intro s g ups i m r row issues shapes group sets rows cols labels goes
  have func : (m.rowCtx i).w.func = r.1 := by
    obtain ⟨_, _, _, _, kind, _⟩ := issues
    simp only [isRow, Bool.and_eq_true, beq_iff_eq] at kind
    exact kind.2
  refine goes_row (body := fun fu m i => m.rowCmdAt fu ups i) issues (exec_rowRows row g ups s) ?_
  rw [rowCmdAt_runs s.fuse shapes group sets rows cols (fun xent => labels (func.symm.trans xent)), run_of_rowGoes s.fuse goes]

end Sys2Proof.Proofs
end

section
/-!
PROOFS. The barriers SWAP, PASS_END and the resume points (R172, R196, R381, R484): the cores that hold at one are let go together.
-/
namespace Sys2Proof.Proofs

open Sys2Proof Sys2Proof.Machine Sys2Proof.Laws

/-! ### Held cores go on -/

/-- A signal on its way shows in its job as one more signal alone (R198). -/
theorem job_signalled {m n : Module} {i : Inst} (h : n.jobs = signalled m i) (j : Nat) :
    ∃ l, n.job j = { m.job j with run := { (m.job j).run with signals := l } } := by
  unfold signalled at h
  split at h
  · have sent : n.job j = (m.onRun i.job (fun r => { r with signals := r.signals ++ [field (i.words.getD 0 0) 49 6] })).job j :=
      job_congr h j
    rw [Module.onRun, job_onJob] at sent
    split at sent
    · next same => exact ⟨_, by rw [sent, same.1]⟩
    · exact ⟨_, sent⟩
  · exact ⟨_, job_congr h j⟩

/-- The instruction at a core's position is one of that core. -/
theorem instAt_core {m : Module} {g j : Nat} {i : Inst} (h : m.instAt g j = some i) : i.core = g := by
  simp only [Module.instAt, Option.map_eq_some_iff] at h
  obtain ⟨_, _, rfl⟩ := h
  rfl

/-- The instruction at a core's position depends on the core and on the stream of its role. -/
theorem instAt_congr {m n : Module} {g j : Nat} (core : n.core g = m.core g) (stream : (n.job j).stream g = (m.job j).stream g) :
    n.instAt g j = m.instAt g j := by
  rw [Module.instAt, core, stream, Module.instAt]

/-- Module `n` is module `m` with some cores of job `j` let go: a core is as it was or does not wait for `w` any longer, and of the
job only signals on their way are new. -/
structure LetsGo (j : Nat) (w : Wait) (m n : Module) : Prop where
  live : ∀ g, (n.core g).live = (m.core g).live
  core : ∀ g, n.core g = m.core g ∨ (n.core g).seq.wait ≠ some w
  job : ∃ l, n.job j = { m.job j with run := { (m.job j).run with signals := l } }
  keeps : KeepsBut (.cores :: ending) m n

section
variable {j : Nat} {w : Wait} {m n x : Module}

theorem letsGo_refl (j : Nat) (w : Wait) (m : Module) : LetsGo j w m m :=
  ⟨fun _ => rfl, fun _ => .inl rfl, ⟨_, rfl⟩, keeps_refl _ m⟩

/-- A core that does not wait for `w` does not come to wait for it. -/
theorem LetsGo.free (go : LetsGo j w m n) {g : Nat} (free : (m.core g).seq.wait ≠ some w) : (n.core g).seq.wait ≠ some w := by
  rcases go.core g with same | free'
  · rwa [same]
  · exact free'

theorem LetsGo.trans (first : LetsGo j w m x) (next : LetsGo j w x n) : LetsGo j w m n := by
  refine ⟨fun g => (next.live g).trans (first.live g), fun g => ?_, ?_, keeps_trans first.keeps next.keeps⟩
  · rcases first.core g with same | free
    · rw [← same]
      exact next.core g
    · exact .inr (next.free free)
  · obtain ⟨_, first⟩ := first.job
    obtain ⟨l, next⟩ := next.job
    exact ⟨l, by rw [next, first]⟩

/-- A core that is as it was stands at the same instruction. -/
theorem LetsGo.instAt (go : LetsGo j w m n) {g : Nat} (same : n.core g = m.core g) : n.instAt g j = m.instAt g j := by
  obtain ⟨l, job⟩ := go.job
  exact instAt_congr same (by rw [job]; rfl)

end

section
variable (fu : Fuses) {j g : Nat} {w : Wait} {m : Module} (barrier : ∀ p, w ≠ .resume p)
include barrier

/-- A live core that is let go at its CONTROL instruction goes on behind it: it may come to a resume point, but to no other wait. -/
theorem releaseHold_goes (live : (m.core g).live = true) : LetsGo j w m (m.releaseHold fu j g) ∧
    ((m.instAt g j).isSome = true → ((m.releaseHold fu j g).core g).seq.wait ≠ some w) := by
  unfold Module.releaseHold
  cases h : m.instAt g j with
  | none => exact ⟨letsGo_refl j w m, fun inst => absurd inst (by decide)⟩
  | some i =>
    obtain rfl := instAt_core h
    obtain ⟨self, others, jobs, keeps⟩ := wentOn_done fu m i (fun q => { q with wait := none }) (live_lt live)
    have free : (((m.onSeq i.core (fun q => { q with wait := none })).controlDone fu i).core i.core).seq.wait ≠ some w := by
      rw [self]
      intro waits
      obtain ⟨p, _, resume⟩ := Option.map_eq_some_iff.mp waits
      exact barrier p resume.symm
    refine ⟨⟨fun g => ?_, fun g => ?_, job_signalled jobs j, keeps⟩, fun _ => free⟩
    · by_cases same : g = i.core
      · rw [same, self]
        rfl
      · rw [others g same]
    · by_cases same : g = i.core
      · exact .inr (by rwa [same])
      · exact .inl (others g same)

/-- So do any number of live cores, one after the other. -/
theorem releaseHolds_go (l : List Nat) (m : Module) (live : ∀ g ∈ l, (m.core g).live = true)
    (held : ∀ g ∈ l, (m.instAt g j).isSome = true ∨ (m.core g).seq.wait ≠ some w) :
    LetsGo j w m (l.foldl (fun m g => m.releaseHold fu j g) m) ∧
      ∀ g ∈ l, ((l.foldl (fun m g => m.releaseHold fu j g) m).core g).seq.wait ≠ some w := by
  induction l generalizing m with
  | nil => exact ⟨letsGo_refl j w m, fun g hg => absurd hg List.not_mem_nil⟩
  | cons a l ih =>
    obtain ⟨first, released⟩ := releaseHold_goes fu barrier (j := j) (live a List.mem_cons_self)
    have free : ((m.releaseHold fu j a).core a).seq.wait ≠ some w := by
      rcases held a List.mem_cons_self with inst | free
      · exact released inst
      · exact first.free free
    obtain ⟨next, frees⟩ := ih (m.releaseHold fu j a)
      (fun g hg => (first.live g).trans (live g (List.mem_cons_of_mem a hg))) (fun g hg => by
        rcases first.core g with same | free
        · rw [first.instAt same, same]
          exact held g (List.mem_cons_of_mem a hg)
        · exact .inr free)
    refine ⟨first.trans next, fun g hg => ?_⟩
    rcases List.mem_cons.mp hg with rfl | hg
    · exact next.free free
    · exact frees g hg

end

/-- Once the cores of a list are let go at their resume point, each of them waits for nothing any longer,
as does a core that waited for nothing. -/
theorem wait_freed (l : List Nat) (m : Module) (live : ∀ g ∈ l, (m.core g).live = true) (g : Nat)
    (held : g ∈ l ∨ (m.core g).seq.wait = none) :
    ((l.foldl (fun (m : Module) g => m.onSeq g (fun q => { q with wait := none })) m).core g).seq.wait = none := by
  induction l generalizing m with
  | nil => exact held.resolve_left List.not_mem_nil
  | cons a l ih =>
    have first := core_onSeq_self m a (fun q => { q with wait := none }) (live_lt (live a List.mem_cons_self))
    have others := fun h => core_onSeq_other m a h (fun q => { q with wait := none })
    refine ih _ (fun h hh => ?_) ?_
    · by_cases same : h = a
      · rw [same, first]
        exact live a List.mem_cons_self
      · rw [others h same]
        exact live h (List.mem_cons_of_mem a hh)
    · by_cases same : g = a
      · exact .inr (by rw [same, first])
      · rw [others g same]
        exact held.imp_left (fun hg => (List.mem_cons.mp hg).resolve_left same)

/-- The live cores of a job are live. -/
theorem live_of_mem_liveCores {m : Module} {j g : Nat} (h : g ∈ m.liveCores j) : (m.core g).live = true :=
  (List.mem_filter.mp h).2

/-- The set of a SWAP is one of live cores. -/
theorem mem_liveCores_of_mem_swapSet {m : Module} {j cluster g : Nat} (h : g ∈ m.swapSet j cluster) : g ∈ m.liveCores j :=
  (List.mem_filter.mp h).1

/-- Every core of a set holds at a barrier, with nothing that keeps it from going on. -/
theorem all_hold {l : List Nat} {m : Module} {w : Wait} {ready : Nat → Bool}
    (holds : ∀ g ∈ l, (m.core g).seq.wait = some w ∧ ready g = true) :
    l.all (fun g => (m.core g).seq.wait == some w && ready g) = true := by
  refine List.all_eq_true.mpr (fun g hg => ?_)
  obtain ⟨waits, free⟩ := holds g hg
  rw [waits, free, beq_self_eq_true, Bool.and_true]

/-! ### Half selectors (R380, R381) -/

/-- The half selectors with that of one buffer in one cluster flipped. -/
def flipSel (k : Nat × Nat) (sels : List (Nat × Nat)) : List (Nat × Nat) :=
  if sels.contains k then sels.filter (fun x => x ≠ k) else sels ++ [k]

theorem contains_flipSel_self (k : Nat × Nat) (sels : List (Nat × Nat)) : (flipSel k sels).contains k = !sels.contains k := by
  unfold flipSel
  cases h : sels.contains k <;> simp

theorem contains_flipSel_other {k x : Nat × Nat} (sels : List (Nat × Nat)) (hn : x ≠ k) :
    (flipSel k sels).contains x = sels.contains x := by
  unfold flipSel
  split <;> simp [hn]

/-! ### What the barriers come to -/

section
variable {s : State} {j : Nat} (hj : j < 16) (powered : s.m.powered = true) (runs : (s.m.job j).state = 3)
include hj powered runs

/-- A SWAP whose cores have all reached it flips its half selector, and they go on (R381). -/
theorem goes_swapComplete (atInstr : ∀ g ∈ s.m.liveCores j, (s.m.instAt g j).isSome = true) {buf cluster : Nat}
    (cycles : Nat) {u : Buffer} (hc : cluster ≤ 96) (cores : s.m.swapSet j cluster ≠ []) (buffer : (s.m.job j).image.buffers[buf]? = some u)
    (reach : cluster = 96 ↔ u.space = 2)
    (holds : ∀ g ∈ s.m.swapSet j cluster, (s.m.core g).seq.wait = some (.swap buf) ∧ s.m.busyOn g buf = false) :
    Goes s (.swapComplete j buf cluster cycles) (fun n =>
      (n.job j).run.sels = flipSel (buf, cluster) (s.m.job j).run.sels ∧
      (∀ g ∈ s.m.swapSet j cluster, (n.core g).seq.wait ≠ some (.swap buf)) ∧ KeepsBut (.cores :: ending) s.m n) := by
  have all := all_hold (ready := fun g => !s.m.busyOn g buf) (fun g hg => (holds g hg).imp_right (congrArg (!·)))
  have side : (cluster == 96) = (u.space == 2) := Bool.eq_iff_iff.mpr (by simpa using reach)
  refine goes_actOn rfl (by simp [hj, hc]) powered ?_
  simp only [runs, List.isEmpty_eq_false_iff.mpr cores, buffer, Option.map_some, Option.getD_some, side, all, bne_self_eq_false,
    Bool.or_self, Bool.not_true, Bool.false_eq_true, if_false]
  generalize hx : ((s.m.onRun j _).bump (odKey 0x3270 7) 1).bump (odKey 0x3270 8) cycles = x
  have job : x.job j = { s.m.job j with run := { (s.m.job j).run with sels := flipSel (buf, cluster) (s.m.job j).run.sels } } := by
    rw [← hx, job_of_bump, job_of_bump, job_onRun_self _ _ _ (job_lt (by simp [runs])), flipSel]
  have core : ∀ g, x.core g = s.m.core g := fun g => by rw [← hx]; rfl
  have keeps : KeepsBut (.cores :: ending) s.m x := by
    rw [← hx]
    simp [ending, keeps_refl]
  obtain ⟨goes, free⟩ := releaseHolds_go s.fuse (j := j) (w := .swap buf) (by simp) (s.m.swapSet j cluster) x
    (fun g hg => (core g).symm ▸ live_of_mem_liveCores (mem_liveCores_of_mem_swapSet hg))
    (fun g hg => .inl (by
      rw [instAt_congr (core g) (by rw [job]; rfl)]
      exact atInstr g (mem_liveCores_of_mem_swapSet hg)))
  obtain ⟨l, released⟩ := goes.job
  exact ⟨by rw [released, job], free, keeps_trans keeps goes.keeps⟩

/-- At a PASS_END that every live core has reached they go on (R172, R196). -/
theorem goes_passEndBarrier (atInstr : ∀ g ∈ s.m.liveCores j, (s.m.instAt g j).isSome = true) (cores : s.m.liveCores j ≠ [])
    (holds : ∀ g ∈ s.m.liveCores j, (s.m.core g).seq.wait = some .passEnd ∧ (s.m.core g).quiet = true) (cycles : Nat) :
    Goes s (.passEndBarrier ⟨j, cycles⟩) (fun n =>
      (∀ g ∈ s.m.liveCores j, (n.core g).seq.wait ≠ some .passEnd) ∧ KeepsBut (.cores :: ending) s.m n) := by
  have all := all_hold (ready := fun g => (s.m.core g).quiet) holds
  refine goes_actOn rfl (decide_eq_true hj) powered ?_
  simp only [runs, List.isEmpty_eq_false_iff.mpr cores, all, bne_self_eq_false, Bool.or_self, Bool.not_true, Bool.false_eq_true,
    if_false]
  obtain ⟨goes, free⟩ := releaseHolds_go s.fuse (j := j) (w := .passEnd) (by simp) (s.m.liveCores j) (s.m.bump (odKey 0x3160 4) cycles)
    (fun g hg => live_of_mem_liveCores hg) (fun g hg => .inl (atInstr g hg))
  exact ⟨free, keeps_trans (keeps_mono (keeps_bump _ _ _) (by decide)) goes.keeps⟩

/-- A resume point that every live core has reached is recorded with the sync counters, and they go on (R484). -/
theorem goes_resumePoint {p : Nat} (cores : s.m.liveCores j ≠ []) (signals : (s.m.job j).run.signals = [])
    (holds : ∀ g ∈ s.m.liveCores j, (s.m.core g).seq.wait = some (.resume p) ∧ (s.m.core g).quiet = true) :
    Goes s (.resumePoint j) (fun n =>
      (∃ k, (n.job j).run.mark = some k ∧ k.point = p ∧ k.counters = (s.m.job j).run.counters) ∧
      (∀ g ∈ s.m.liveCores j, (n.core g).seq.wait = none) ∧ KeepsBut [.cores, .jobs] s.m n) := by
  have all := all_hold (ready := fun g => (s.m.core g).quiet) holds
  have first : (s.m.liveCores j).head?.bind (fun g => (s.m.core g).seq.wait) = some (.resume p) := by
    rw [List.head?_eq_some_head cores]
    exact (holds _ (List.head_mem cores)).1
  refine goes_actOn rfl (decide_eq_true hj) powered ?_
  simp only [first, runs, signals, List.isEmpty_nil, all, bne_self_eq_false, Bool.or_self, Bool.not_true, Bool.false_eq_true, if_false]
  have keeps := fun (m : Module) => kb_foldl (ps := [.cores, .jobs]) (s.m.liveCores j)
    (fun (m : Module) g => m.onSeq g (fun q => { q with wait := none })) (fun m g => (kb_onSeq g _ (by decide)).mpr (keeps_refl _ m)) m
  refine ⟨?_, fun g hg => ?_, keeps_trans ((kb_onRun _ _ (by decide)).mpr (keeps_refl _ _)) (keeps _)⟩
  · rw [job_congr (foldl_keep Module.jobs _ _ (fun m g => onSeq_jobs m g _) _), job_onRun_self _ _ _ (job_lt (by simp [runs]))]
    exact ⟨_, rfl, rfl, rfl⟩
  · refine wait_freed _ _ (fun h hh => ?_) g (.inl hg)
    exact live_of_mem_liveCores (m := s.m) hh

end

/-- Settles O20: the cores that hold at a SWAP, at a PASS_END and at a resume point. -/
theorem barriersReleaseTheirCores : Obligations.BarriersReleaseTheirCores := by
  intro s j hj powered runs atInstr
  refine ⟨fun buf cluster cycles u hc cores buffer reach holds => ?_,
    fun cores holds => goes_passEndBarrier hj powered runs atInstr cores holds, fun p cores signals holds => ?_⟩
  · refine goes_mono (goes_swapComplete hj powered runs atInstr cycles hc cores buffer reach holds) (fun n ⟨sels, free, keeps⟩ => ?_)
    rw [sels]
    exact ⟨contains_flipSel_self _ _, fun k hn => contains_flipSel_other _ hn, free, keeps⟩
  · refine goes_mono (goes_resumePoint hj powered runs cores signals holds) (fun n ⟨⟨k, mark, point, counters⟩, free, keeps⟩ => ?_)
    rw [mark]
    exact ⟨congrArg some point, congrArg some counters, free, keeps⟩

end Sys2Proof.Proofs
end

section
/-!
PROOFS. CONTROL (R196, R198, R202, R381): loops, holds and the ends of the cores' work.
-/
namespace Sys2Proof.Proofs

open Sys2Proof Sys2Proof.Machine Sys2Proof.Laws

/-! ### Loops (R196, R202) -/

section
variable (fu : Fuses) {m : Module} {i : Inst} (core : i.core < m.cores.length)
include core

/-- A LOOP with a count of 0 continues after its ENDLOOP, and any other opens its loop. -/
theorem loopAt_wentOn {ups : List Upset} (shapes : ShapesGood m i ups [controlShape i.words] []) :
    (m.shapeOf i (controlShape i.words) = 0 →
      WentOn m (m.loopAt fu ups i) i (m.endloop i i.index + 1) (m.core i.core).seq) ∧
    (0 < m.shapeOf i (controlShape i.words) →
      WentOn m (m.loopAt fu ups i) i (i.index + 1) { (m.core i.core).seq with
        loops := { at_ := i.index, left := m.shapeOf i (controlShape i.words) - 1 } :: (m.core i.core).seq.loops }) := by
  unfold Module.loopAt
  dsimp only
  rw [withShapes_of shapes]
  refine ⟨fun none => ?_, fun some => ?_⟩
  · rw [if_pos none]
    exact wentOn_jump' fu m i _ stEmptyOp (.inr rfl) core
  · rw [if_neg some.ne']
    exact wentOn_done fu m i _ core

/-- An ENDLOOP of the innermost open loop repeats it while iterations are left, and otherwise leaves it. -/
theorem endloopAt_wentOn {f : LoopFrame} {fs : List LoopFrame} (loops : (m.core i.core).seq.loops = f :: fs)
    (closes : m.endloop i f.at_ = i.index) :
    (f.left = 0 → WentOn m (m.endloopAt fu i) i (i.index + 1) { (m.core i.core).seq with loops := fs }) ∧
    (0 < f.left → WentOn m (m.endloopAt fu i) i (f.at_ + 1)
      { (m.core i.core).seq with loops := { f with left := f.left - 1 } :: fs }) := by
  simp only [Module.endloopAt, loops, closes, bne_self_eq_false, Bool.false_eq_true, if_false]
  refine ⟨fun last => ?_, fun more => ?_⟩
  · rw [if_pos last]
    exact wentOn_done fu m i _ core
  · rw [if_neg more.ne']
    exact wentOn_jump fu m i _ _ stOk (.inl rfl) core

end

/-- Settles O1: NOP, LOOP by its count (`loopAt_wentOn`), and ENDLOOP by the iterations left (`endloopAt_wentOn`). -/
theorem loopsRepeatTheirCount : Obligations.LoopsRepeatTheirCount := by
  intro s g ups i m
  refine ⟨fun issues => ?_, fun issues shapes => ?_, fun issues => ?_⟩
  all_goals
    have core := issues_length issues
    obtain rfl := issues_core issues
  · exact goes_row issues rfl (wentOn_done' s.fuse m i core)
  · exact goes_row (body := fun fu m i => m.loopAt fu ups i) issues rfl (loopAt_wentOn s.fuse core shapes)
  · exact goes_row (body := fun fu m i => m.endloopAt fu i) issues rfl
      (fun f fs loops closes => endloopAt_wentOn s.fuse core loops closes)

/-! ### Holds and ends (R196, R198, R381) -/

/-- A WAIT whose counter has reached its target goes on, and any other holds its core. -/
theorem waitAt_goes (fu : Fuses) {m : Module} {i : Inst} (core : i.core < m.cores.length) {ups : List Upset}
    (shapes : ShapesGood m i ups [controlShape i.words] []) :
    (m.shapeOf i (controlShape i.words) ≤ (m.job i.job).counter (counterOf i.words) →
      WentOn m (m.waitAt fu ups i) i (i.index + 1) (m.core i.core).seq) ∧
    ((m.job i.job).counter (counterOf i.words) < m.shapeOf i (controlShape i.words) →
      Holds m (m.waitAt fu ups i) i (.counter (counterOf i.words))) := by
  unfold Module.waitAt
  dsimp only
  rw [withShapes_of shapes]
  refine ⟨fun reached => ?_, fun early => ?_⟩
  · rw [if_pos reached]
    exact wentOn_done' fu m i core
  · rw [if_neg (Nat.not_le.mpr early)]
    exact holds_hold m i _ core

/-- Writing a statistics page home keeps the number of cores. -/
theorem writeBack_length (m : Module) (j g set page : Nat) : (m.writeBack j g set page).cores.length = m.cores.length := by
  unfold Module.writeBack
  split
  · rw [bump_cores, Module.onPage, onCore_length]
    exact foldl_length _ _ _ (fun m l => foldl_length m _ _ (fun m h => rfl))
  · rfl

/-- So does the flush of a core's dirty statistics lines. -/
theorem flushStats_length (m : Module) (j g : Nat) : (m.flushStats j g).cores.length = m.cores.length :=
  foldl_length m _ _ (fun m p => writeBack_length m j g p.set p.page)

/-- A core whose work for the step ends keeps all but that it is done. -/
theorem stepEnd_done (fu : Fuses) {m : Module} {i : Inst} (core : i.core < m.cores.length) :
    let n := (m.onSeq i.core (fun q => { q with done := true })).finish fu i stOk 0 0
    n.core i.core = { m.core i.core with seq := { (m.core i.core).seq with done := true } } ∧ OtherCores i.core m n ∧
      n.jobs = signalled m i ∧ KeepsBut (.cores :: ending) m n := by
  refine ⟨?_, fun h other => ?_, ?_, ?_⟩
  · rw [core_finishOk, core_onSeq_self m i.core _ core]
  · rw [core_finishOk, core_onSeq_other m i.core h _ other]
  · rw [finishOk_jobs, signalled_congr i (onSeq_jobs m i.core _)]
  · simp [ending, keeps_refl]

/-- Settles O2: WAIT by its counter (`waitAt_goes`), the holds of SWAP and PASS_END (`holds_hold`), and the end of STEP_END
(`stepEnd_done`). -/
theorem holdsAndEndsOfControl : Obligations.HoldsAndEndsOfControl := by
  intro s g ups i m
  refine ⟨fun issues shapes => ?_, fun issues => ?_, fun issues => ?_, fun issues => ?_⟩
  all_goals
    have core := issues_length issues
    obtain rfl := issues_core issues
  · exact goes_row (body := fun fu m i => m.waitAt fu ups i) issues rfl (waitAt_goes s.fuse core shapes)
  · exact goes_row issues rfl (holds_hold m i _ core)
  · refine goes_row issues rfl (holds_hold _ i .passEnd ?_)
    rwa [flushStats_length, onCore_length]
  · exact goes_row issues rfl (stepEnd_done s.fuse core)

end Sys2Proof.Proofs
end

section
/-!
PROOFS. EMPTY_OP (R201, R202): row instructions, movements, MATRIX instructions and gathers that have nothing to do go on.
-/
namespace Sys2Proof.Proofs

open Sys2Proof Sys2Proof.Machine Sys2Proof.Laws

/-- Each command of the movement engine is that of its operation code (R195). -/
theorem exec_moveRows {r : Nat × (Nat → List Upset → Instr)} (row : r ∈ moveRows) (g : Nat) (ups : List Upset) (s : State) :
    exec (r.2 g ups) s = moveCommand r.1 g ups s := by
  simp only [moveRows, List.mem_cons, List.not_mem_nil, or_false] at row
  rcases row with rfl | rfl | rfl | rfl | rfl | rfl | rfl <;> rfl

section
variable (fu : Fuses) {m : Module} {i : Inst} {ups : List Upset}

/-- An instruction that ends EMPTY_OP goes on. -/
theorem emptyOp_wentOn (core : i.core < m.cores.length) :
    WentOn m (m.emptyOp fu i) i (i.index + 1) (m.core i.core).seq :=
  wentOn_jump' fu m i (i.index + 1) stEmptyOp (.inr rfl) core

/-- A row instruction without rows or columns, past its checks (R170). -/
theorem rowCmdAt_empty (shapes : ShapesGood m i ups (rowShapes i.words) (rowRefs i.words))
    (group : (m.rowCtx i).statRow % 8 = 0) (sets : (m.rowCtx i).statBad = none)
    (empty : (m.rowCtx i).rows = 0 ∨ (m.rowCtx i).cols = 0) : m.rowCmdAt fu ups i = m.emptyOp fu i := by
  have aligned : m.shapeOf i (readShape (loOf i.words 6)) % 8 = 0 := group
  have no_elements : ((m.rowCtx i).rows = 0 || (m.rowCtx i).cols = 0) = true := by simpa using empty
  simp only [Module.rowCmdAt, aligned, bne_self_eq_false, Bool.and_false, Bool.false_eq_true, if_false]
  rw [withShapes_of shapes]
  simp only [sets]
  rw [if_pos no_elements]

/-- A MOVE past its checks, whose ranges share no slot where it is a COPY, joins its channel or has no length (R102, R202). -/
theorem moveAt_of (shapes : ShapesGood m i ups [lengthShape i.words] [hiOf i.words 2, loOf i.words 2])
    (apart : m.copyAlias i = false) :
    m.moveAt fu ups i = if m.shapeOf i (lengthShape i.words) = 0 then m.emptyOp fu i else m.issueMove fu i := by
  simp only [Module.moveAt, apart, Bool.and_false, Bool.false_eq_true, if_false]
  rw [withShapes_of shapes]

/-- A MATRIX instruction without rows or columns. -/
theorem runMatrix_empty
    (empty : m.shapeOf i (readShape (hiOf i.words 4)) = 0 ∨ m.shapeOf i (readShape (loOf i.words 4)) = 0) :
    m.runMatrix fu ups i = m.emptyOp fu i := by
  have none : (m.shapeOf i (readShape (hiOf i.words 4)) = 0 || m.shapeOf i (readShape (loOf i.words 4)) = 0) = true := by
    simpa using empty
  rw [Module.runMatrix]
  exact if_pos none

/-- A GATHER without positions. -/
theorem gatherAt_empty (shapes : ShapesGood m i ups (spliceShapes i.words) (spliceRefs i.words))
    (empty : m.shapeOf i (readShape (hiOf i.words 4)) = 0) : m.gatherAt fu ups i = m.emptyOp fu i := by
  rw [Module.gatherAt, withShapes_of shapes]
  exact if_pos empty

end

/-- Settles O13: past its checks each of the four comes to an EMPTY_OP, and that goes on (`emptyOp_wentOn`). -/
theorem emptyOperationsGoOn : Obligations.EmptyOperationsGoOn := by
  intro s g ups i m
  refine ⟨fun r row issues shapes group sets empty => ?_, fun r row issues shapes apart empty => ?_,
    fun issues shapes empty => ?_, fun issues shapes empty => ?_⟩
  all_goals
    obtain rfl := issues_core issues
    have wentOn := emptyOp_wentOn s.fuse (issues_length issues)
  · refine goes_row (body := fun fu m i => m.rowCmdAt fu ups i) issues (exec_rowRows row _ ups s) ?_
    rwa [rowCmdAt_empty s.fuse shapes group sets empty]
  · refine goes_row (body := fun fu m i => m.moveAt fu ups i) issues (exec_moveRows row _ ups s) ?_
    rwa [moveAt_of s.fuse shapes apart, if_pos empty]
  · exact goes_matrix issues shapes (by rwa [runMatrix_empty s.fuse empty])
  · refine goes_row (body := fun fu m i => m.gatherAt fu ups i) issues rfl ?_
    rwa [gatherAt_empty s.fuse shapes empty]

end Sys2Proof.Proofs
end

section
/-!
PROOFS. Signals that become visible (R198): their counter advances, and the cores whose WAIT that satisfies go on.
-/
namespace Sys2Proof.Proofs

open Sys2Proof Sys2Proof.Machine Sys2Proof.Laws

/-- The run-time value of a shape field depends on HBM with its poison, and on its job but for its run (R193, R200). -/
theorem shape_congr {m n : Module} {j : Nat} {r : Run} (job : n.job j = { m.job j with run := r }) (hbm : n.hbm = m.hbm)
    (poison : n.hbmPoison = m.hbmPoison) (p : Nat) (sh : Shape) : n.shape j p sh = m.shape j p sh := by
  simp only [Module.shape, Module.shapeWord, Module.poisonAt, Module.bytesAt, job, hbm, poison]
  rfl

/-- A signal on its way shows in its own job alone. -/
theorem job_signalled_other {m n : Module} {i : Inst} (h : n.jobs = signalled m i) {k : Nat} (other : k ≠ i.job) :
    n.job k = m.job k := by
  unfold signalled at h
  split at h
  · rw [Module.job, h, modifyAt_getD, if_neg (fun same => other same.1), Module.job]
  · exact job_congr h k

/-- The instruction at the position of core `g` waits for a value that counter `ctr` has reached, if it is a WAIT for that counter. -/
def WaitMet (m : Module) (j ctr g : Nat) : Prop :=
  ∃ i, m.instAt g j = some i ∧ m.shapeOf i (controlShape i.words) ≤ (m.job j).counter ctr

section
variable {j ctr : Nat} {m n : Module}

/-- While other cores are let go, a core that is as it was still waits for a value that is reached. -/
theorem LetsGo.waitMet {w : Wait} (go : LetsGo j w m n) {g : Nat} (same : n.core g = m.core g) (met : WaitMet m j ctr g) :
    WaitMet n j ctr g := by
  obtain ⟨i, at_, reached⟩ := met
  obtain ⟨l, job⟩ := go.job
  have hbm : n.hbm = m.hbm := go.keeps .hbm (by simp [ending])
  have poison : n.hbmPoison = m.hbmPoison := (go.keeps .hbmPoison (by simp [ending])).1
  refine ⟨i, (go.instAt same).trans at_, ?_⟩
  obtain rfl := instAt_job at_
  rw [Module.shapeOf, shape_congr job hbm poison, job]
  exact reached

variable (fu : Fuses)

/-- A core whose WAIT on a counter is met is let go, and any other stays as it is. -/
theorem wakeWait_cases (m : Module) (j ctr g : Nat) :
    m.wakeWait fu j ctr g = m.releaseHold fu j g ∨
      m.wakeWait fu j ctr g = m ∧ ((m.core g).seq.wait ≠ some (.counter ctr) ∨ ¬ WaitMet m j ctr g) := by
  unfold Module.wakeWait
  split
  · next free => exact .inr ⟨rfl, .inl (by simpa using free)⟩
  · cases at_ : m.instAt g j with
    | none => exact .inr ⟨rfl, .inr (fun ⟨i, some_, _⟩ => by simp [at_] at some_)⟩
    | some i =>
      dsimp only
      split
      · exact .inl (by rw [Module.releaseHold, at_])
      · next early =>
        refine .inr ⟨rfl, .inr (fun ⟨k, at_k, reached⟩ => early ?_)⟩
        obtain rfl := Option.some.inj (at_.symm.trans at_k)
        exact reached

/-- A live core goes on if its WAIT on the counter is met. -/
theorem wakeWait_goes {g : Nat} (live : (m.core g).live = true) : LetsGo j (.counter ctr) m (m.wakeWait fu j ctr g) ∧
    (WaitMet m j ctr g → ((m.wakeWait fu j ctr g).core g).seq.wait ≠ some (.counter ctr)) := by
  obtain ⟨goes, free⟩ := releaseHold_goes fu (j := j) (w := .counter ctr) (by simp) live
  rcases wakeWait_cases fu m j ctr g with released | ⟨same, why⟩
  · rw [released]
    exact ⟨goes, fun ⟨i, at_, _⟩ => free (by rw [at_]; rfl)⟩
  · rw [same]
    exact ⟨letsGo_refl j _ m, fun met => why.resolve_right (not_not_intro met)⟩

/-- So do any number of live cores, one after the other. -/
theorem wakeWaits_go (l : List Nat) (m : Module) (live : ∀ g ∈ l, (m.core g).live = true) :
    LetsGo j (.counter ctr) m (l.foldl (fun m g => m.wakeWait fu j ctr g) m) ∧
      ∀ g ∈ l, WaitMet m j ctr g → ((l.foldl (fun m g => m.wakeWait fu j ctr g) m).core g).seq.wait ≠ some (.counter ctr) := by
  induction l generalizing m with
  | nil => exact ⟨letsGo_refl j _ m, fun g hg => absurd hg List.not_mem_nil⟩
  | cons a l ih =>
    obtain ⟨first, woken⟩ := wakeWait_goes fu (j := j) (ctr := ctr) (live a List.mem_cons_self)
    obtain ⟨next, free⟩ := ih (m.wakeWait fu j ctr a)
      (fun g hg => (first.live g).trans (live g (List.mem_cons_of_mem a hg)))
    refine ⟨first.trans next, fun g hg met => ?_⟩
    rcases List.mem_cons.mp hg with rfl | hg
    · exact next.free (woken met)
    · rcases first.core g with same | released
      · exact free g hg (first.waitMet same met)
      · exact next.free released

/-- Cores that go on leave every other job as it was. -/
theorem otherJobs_wakeWait (m : Module) (j ctr g : Nat) : OtherJobs j m (m.wakeWait fu j ctr g) := by
  intro k other
  rcases wakeWait_cases fu m j ctr g with released | ⟨same, _⟩
  · rw [released, Module.releaseHold]
    cases at_ : m.instAt g j with
    | none => rfl
    | some i =>
      obtain rfl := instAt_job at_
      exact job_signalled_other (finishOk_jobs fu _ i 0 0) other
  · rw [same]

end

/-- The counters of a job with counter `ctr` one higher (R198). -/
def advanced (ctr : Nat) (cs : List Nat) : List Nat := modifyAt (fun c => (c + 1) % 2 ^ 32) cs ctr

theorem getD_advanced (ctr c : Nat) (cs : List Nat) :
    (advanced ctr cs).getD c 0 = if c = ctr ∧ ctr < cs.length then (cs.getD ctr 0 + 1) % 2 ^ 32 else cs.getD c 0 :=
  modifyAt_getD _ cs ctr c 0

/-- Settles O19: the counter advances in its job alone, and the live cores are woken one after the other (`wakeWaits_go`). -/
theorem signalsAdvanceTheirCounter : Obligations.SignalsAdvanceTheirCounter := by
  intro s j ctr hj hctr powered runs signal counters
  refine goes_actOn rfl (by simp [hj, hctr]) powered ?_
  have visible : (s.m.job j).run.signals.contains ctr = true := by simpa using signal
  simp only [runs, visible, bne_self_eq_false, Bool.not_true, Bool.or_self, Bool.false_eq_true, if_false]
  generalize hx : s.m.onRun j _ = x
  have inside : j < s.m.jobs.length := job_lt (by simp [runs])
  have job : x.job j = { s.m.job j with run := { (s.m.job j).run with
      signals := (s.m.job j).run.signals.erase ctr, counters := advanced ctr (s.m.job j).run.counters } } := by
    rw [← hx, job_onRun_self _ _ _ inside, advanced]
  have core : ∀ g, x.core g = s.m.core g := fun g => by rw [← hx]; rfl
  have others : OtherJobs j s.m x := fun k other => by rw [← hx, job_onRun_other _ _ _ _ other]
  have keeps : KeepsBut (.cores :: ending) s.m x := by
    rw [← hx]
    simp [ending, keeps_refl]
  have cores : x.liveCores j = s.m.liveCores j := by simp only [Module.liveCores, core, job]
  have value : (x.job j).counter ctr = ((s.m.job j).counter ctr + 1) % 2 ^ 32 := by
    rw [job, Job.counter, getD_advanced, if_pos ⟨rfl, counters ▸ hctr⟩, Job.counter]
  have apart : ∀ c, c ≠ ctr → (x.job j).counter c = (s.m.job j).counter c := fun c other => by
    rw [job, Job.counter, getD_advanced, if_neg (fun same => other same.1), Job.counter]
  obtain ⟨goes, free⟩ := wakeWaits_go s.fuse (j := j) (ctr := ctr) (x.liveCores j) x (fun g hg => live_of_mem_liveCores hg)
  obtain ⟨l, woken⟩ := goes.job
  have counter : ∀ c, (((x.liveCores j).foldl (fun m g => m.wakeWait s.fuse j ctr g) x).job j).counter c = (x.job j).counter c :=
    fun c => by rw [woken]; rfl
  refine ⟨(counter ctr).trans value, fun c other => (counter c).trans (apart c other), fun g hg i at_ reached => ?_,
    fun k other => ?_, keeps_trans keeps goes.keeps⟩
  · refine free g (cores ▸ hg) ⟨i, (instAt_congr (core g) (by rw [job]; rfl)).trans at_, ?_⟩
    obtain rfl := instAt_job at_
    rw [value, Module.shapeOf, shape_congr job (by rw [← hx]; rfl) (by rw [← hx]; rfl)]
    exact reached
  · exact (foldl_keep (fun m => m.job k) _ _ (fun m g => otherJobs_wakeWait s.fuse m j ctr g k other) x).trans (others k other)

end Sys2Proof.Proofs
end

section
/-!
PROOFS. Movements that join their channel (R195, R376, R377, R386).
-/
namespace Sys2Proof.Proofs

open Sys2Proof Sys2Proof.Machine Sys2Proof.Laws

/-- The module with movement `w` of instruction `i` at the end of its channel, a coil counted, and the program one further. -/
def joined (m : Module) (i : Inst) (w : Move) : Module :=
  let x := m.onCore i.core (fun c => { c with channels := modifyAt (fun l => l ++ [w]) c.channels (channelOf i.words) })
  (if opOf i.words = 5 then x.bump (odKey 0x3270 4) 1 else x).advance i

section
variable {m : Module} {i : Inst} (w : Move)

theorem core_advance {n : Module} (core : i.core < n.cores.length) (jobs : n.jobs = m.jobs) : (n.advance i).core i.core =
    { n.core i.core with seq := seqAt m i (i.index + 1) (n.core i.core).seq } := by
  rw [Module.advance, core_goto _ _ _ core, seqAt_congr i _ _ jobs]

theorem core_joined_self (core : i.core < m.cores.length) : (joined m i w).core i.core =
    { m.core i.core with
        channels := modifyAt (fun l => l ++ [w]) (m.core i.core).channels (channelOf i.words)
        seq := seqAt m i (i.index + 1) (m.core i.core).seq } := by
  have self := core_onCore_self m i.core (fun c => { c with
    channels := modifyAt (fun l => l ++ [w]) c.channels (channelOf i.words) }) core
  unfold joined
  dsimp only
  generalize hx : m.onCore i.core _ = x at self ⊢
  have length : i.core < x.cores.length := by rwa [← hx, onCore_length]
  have jobs : x.jobs = m.jobs := by rw [← hx]; rfl
  split
  · rw [core_advance (m := m) (n := x.bump _ _) length jobs, core_of_bump, self]
  · rw [core_advance length jobs, self]

theorem channel_joined (core : i.core < m.cores.length) {vs : List Move}
    (channel : (m.core i.core).channels[channelOf i.words]? = some vs) :
    ((joined m i w).core i.core).channels[channelOf i.words]? = some (vs ++ [w]) := by
  simp [core_joined_self w core, modifyAt_getElem?, channel]

theorem core_joined_other (m : Module) (i : Inst) : OtherCores i.core m (joined m i w) := by
  intro h other
  unfold joined
  split
  · rw [Module.advance, core_goto_other _ _ _ _ _ other, core_of_bump, core_onCore_other _ _ _ _ other]
  · rw [Module.advance, core_goto_other _ _ _ _ _ other, core_onCore_other _ _ _ _ other]

theorem keeps_joined (m : Module) (i : Inst) : KeepsBut [.cores, .od] m (joined m i w) := by
  unfold joined
  split <;> simp [keeps_refl]

/-- What the descriptors of a coil's burst carry does not depend on the channels (R386). -/
theorem burstBad_joined (core : i.core < m.cores.length) (o : Operand) : (joined m i w).burstBad i o = m.burstBad i o := by
  have keeps := keeps_joined w m i
  have job : (joined m i w).job i.job = m.job i.job := job_congr (keeps .jobs (by decide)) i.job
  have hbm : (joined m i w).hbm = m.hbm := keeps .hbm (by decide)
  have poison : (joined m i w).hbmPoison = m.hbmPoison := (keeps .hbmPoison (by decide)).1
  have clusters : (joined m i w).clusters = m.clusters := keeps .clusters (by decide)
  have mem : ((joined m i w).core i.core).mem = (m.core i.core).mem := by rw [core_joined_self w core]
  simp only [Module.burstBad, Module.coilCount, Module.shapeOf, shape_congr (r := (m.job i.job).run) job hbm poison, Module.poisonAt,
    mem, Module.cluster, clusters, job, poison]

end

/-! ### The read of a coil's burst (R109, R361, R386) -/

theorem core_burstReads (fu : Fuses) (m : Module) (i : Inst) (o : Operand) (h : Nat) :
    ∃ c, (m.burstReads fu i o).core h = { m.core h with clusterStalls := c } := by
  unfold Module.burstReads
  dsimp only
  split
  · exact ⟨_, congrArg (fun l : List Core => l.getD h Core.reset) (keeps_request fu m _ _ _ .cores (by decide))⟩
  · exact core_clusterReads m _ _ h _

theorem keeps_burstReads (fu : Fuses) (m : Module) (i : Inst) (o : Operand) :
    KeepsBut (.cores :: .clusters :: hbmReading) m (m.burstReads fu i o) :=
  keeps_ite (keeps_mono (keeps_request fu m _ _ _) (by decide)) (keeps_mono (keeps_clusterReads m _ _ _) (by decide))

/-- Behind a movement that has started nothing starts (R377). -/
theorem startChannel_behind (fu : Fuses) {m : Module} {g ch : Nat} {v : Move} {vs : List Move}
    (head : (m.core g).channels[ch]? = some (v :: vs)) (started : v.started = true) : m.startChannel fu g ch = m := by
  have first : (m.core g).head ch = some v := by simp [Core.head, List.getD_eq_getElem?_getD, head]
  rw [Module.startChannel, first]
  exact if_pos started

/-- A MOVE whose channel has room behind a movement that has started joins it; a coil whose burst carries no poison reads it. -/
theorem issueMove_behind (fu : Fuses) {m : Module} {i : Inst} {v : Move} {vs : List Move} (core : i.core < m.cores.length)
    (room : ((m.core i.core).channels.getD (channelOf i.words) []).length < 16)
    (head : (m.core i.core).channels[channelOf i.words]? = some (v :: vs)) (started : v.started = true)
    (view : m.viewOf i = none)
    (clean : opOf i.words = 5 → ∀ o, m.operand i (hiOf i.words 2) false 0 = some o → m.burstBad i o = none) :
    ∃ w : Move, w.inst = i ∧ w.started = false ∧ (m.issueMove fu i = joined m i w ∨
      opOf i.words = 5 ∧ ∃ o, m.issueMove fu i = (joined m i w).burstReads fu i o) := by
  unfold Module.issueMove
  dsimp only
  rw [if_neg (Nat.not_le.mpr room), view]
  dsimp only [Option.map_none]
  generalize hready : (Option.bind _ _ : Option Operand) = ready
  generalize hw : Move.mk .. = w
  refine ⟨w, by rw [← hw], by rw [← hw], ?_⟩
  cases ready with
  | none => exact .inl (startChannel_behind fu (channel_joined w core head) started)
  | some o =>
    obtain ⟨p, coil, same⟩ := Option.bind_eq_some_iff.mp hready
    have op : opOf i.words = 5 := by
      by_contra other
      simp [other] at coil
    have source : m.operand i (hiOf i.words 2) false 0 = some o := by
      rw [if_pos op] at coil
      split at same
      · cases same
      · exact coil.trans same
    have good : (joined m i w).burstBad i o = none := (burstBad_joined w core o).trans (clean op o source)
    refine .inr ⟨op, o, ?_⟩
    generalize hy : Module.advance _ i = y
    obtain rfl : joined m i w = y := hy
    simp only [Option.bind_some, good, Option.map_none, Option.elim_some]
    obtain ⟨c, read⟩ := core_burstReads fu (joined m i w) i o i.core
    exact startChannel_behind fu (by rw [read]; exact channel_joined w core head) started

/-- Settles O14: past its checks a MOVE is `issueMove`, which behind a movement that has started only joins the channel, with the read
of a coil's burst (`issueMove_behind`). -/
theorem movesQueueInTheirChannel : Obligations.MovesQueueInTheirChannel := by
  intro s g ups i m r row issues shapes apart some_length room
  have op : opOf i.words = r.1 := by
    obtain ⟨_, _, _, _, kind, _⟩ := issues
    simp only [isMove, Bool.and_eq_true, beq_iff_eq] at kind
    exact kind.2
  have core := issues_length issues
  obtain rfl := issues_core issues
  refine goes_row (body := fun fu m i => m.moveAt fu ups i) issues (exec_moveRows row _ ups s) ?_
  rw [moveAt_of s.fuse shapes apart, if_neg some_length.ne']
  refine ⟨rfl, fun v vs head started view clean => ?_⟩
  obtain ⟨w, inst, waits, left⟩ := issueMove_behind s.fuse core room head started view (fun coil => clean (op.symm.trans coil))
  have joins := channel_joined w core head
  have self := core_joined_self w core
  rcases left with joined_only | ⟨coil, o, read⟩
  · rw [joined_only]
    exact ⟨⟨w, inst, waits, joins⟩, by rw [self], by rw [self],
      fun _ => ⟨core_joined_other w m i, keeps_joined w m i⟩, fun _ => keeps_mono (keeps_joined w m i) (by decide)⟩
  · obtain ⟨c, stalled⟩ := core_burstReads s.fuse (joined m i w) i o i.core
    rw [read, stalled]
    exact ⟨⟨w, inst, waits, joins⟩, by rw [self], by rw [self], fun other => absurd (op.symm.trans coil) other,
      fun _ => keeps_trans (keeps_mono (keeps_joined w m i) (by decide)) (keeps_burstReads s.fuse _ i o)⟩

end Sys2Proof.Proofs
end

section
/-!
PROOFS. CANCEL_BATCH (R208, R344): the attempt that it abandons, and the module's place in its rope, which the end of a step leaves.
-/
namespace Sys2Proof.Proofs

open Sys2Proof Sys2Proof.Machine Sys2Proof.Laws

/-! ### The place in the rope (R290) -/

/-- The dictionary values that place the module in a rope: its size and its job. -/
def ropeKeys : List Nat := [odKey 0x5200 2, odKey 0x5200 5]

/-- The module's place in its rope is as it was. -/
def SamePlace (m n : Module) : Prop := ∀ k ∈ ropeKeys, n.odGet k = m.odGet k

theorem SamePlace.inRope {m n : Module} (same : SamePlace m n) (j : Nat) : n.inRope j = m.inRope j := by
  rw [Module.inRope, Module.ropeSize, Module.ropeJob, same _ (by decide), same _ (by decide), Module.inRope, Module.ropeSize,
    Module.ropeJob]

theorem samePlace_refl (m : Module) : SamePlace m m := fun _ _ => rfl

theorem samePlace_ite {m a b : Module} {p : Prop} [Decidable p] (yes : SamePlace m a) (no : SamePlace m b) :
    SamePlace m (if p then a else b) := by
  split <;> assumption

section
variable {m n : Module} (same : SamePlace m n)
include same

theorem SamePlace.keeps {ps : List Part} {x : Module} (keeps : KeepsBut ps n x) (od : Part.od ∉ ps) : SamePlace m x :=
  fun k hk => (odGet_congr (keeps .od od) k).trans (same k hk)

theorem SamePlace.foldl {α : Type} {f : Module → α → Module} (step : ∀ x a, SamePlace m x → SamePlace m (f x a)) (l : List α) :
    SamePlace m (l.foldl f n) :=
  List.foldlRecOn (motive := SamePlace m) l f same (fun x h a _ => step x a h)

theorem SamePlace.bump {k : Nat} (v : Nat) (other : k ∉ ropeKeys) : SamePlace m (n.bump k v) := by
  intro i hi
  rw [odGet_bump, if_neg (by rintro rfl; exact other hi), same i hi]

theorem SamePlace.odSet {k : Nat} (v : Nat) (other : k ∉ ropeKeys) : SamePlace m (n.odSet k v) := by
  intro i hi
  rw [odGet_odSet, if_neg (by rintro rfl; exact other hi), same i hi]

theorem SamePlace.onCore (g : Nat) (f : Core → Core) : SamePlace m (n.onCore g f) := same
theorem SamePlace.onJob (j : Nat) (f : Job → Job) : SamePlace m (n.onJob j f) := same
theorem SamePlace.onQueue (q : Nat) (f : Queue → Queue) : SamePlace m (n.onQueue q f) := same
theorem SamePlace.onStore (f : Coil → Coil) : SamePlace m (n.onStore f) := same

variable (fu : Fuses)

theorem SamePlace.event (c : Nat) (l : List Nat) : SamePlace m (n.event fu c l) := by
  have apart : ∀ k ∈ ropeKeys, k ∉ reportKeys := by decide
  exact fun k hk => (odGet_event fu n c l k (apart k hk)).trans (same k hk)

theorem SamePlace.hbmReads (j : Nat) (rs : List (Nat × Nat)) : SamePlace m (n.hbmReads fu j rs) := by
  have apart : ∀ k ∈ ropeKeys, k ∉ readKeys := by decide
  exact fun k hk => (odGet_hbmReads fu n (apart k hk) j rs).trans (same k hk)

theorem SamePlace.reason (b : Nat) (l : List Nat) : SamePlace m (n.reason fu b l) :=
  samePlace_ite same (((same.odSet _ (by decide)).odSet _ (by decide)).event fu _ _)

/-! #### Instructions that end -/

theorem SamePlace.instrDone (i : Inst) (st : Nat) : SamePlace m (n.instrDone fu i st) :=
  samePlace_ite same (samePlace_ite (((same.onQueue _ _).bump 1 (by decide)).event fu _ _) (same.onQueue _ _))

theorem SamePlace.cancelRecord (i : Inst) (st : Nat) : SamePlace m (n.cancelRecord fu i st) := by
  unfold Module.cancelRecord
  split
  · exact samePlace_ite (same.event fu _ _) same
  · exact same

theorem SamePlace.endFlights (j st : Nat) : SamePlace m (n.endFlights fu j st) :=
  same.foldl (fun _ g h => (h.foldl (fun _ i h => (h.instrDone fu i st).cancelRecord fu i st) _).onCore g _) _

theorem SamePlace.cancelCore (j g : Nat) : SamePlace m (n.cancelCore fu j g) :=
  ((same.foldl (fun _ i h => h.instrDone fu i stCancelled) _).foldl
    (fun _ v h => (h.bump 1 (by decide)).instrDone fu v.inst stCancelled) _).onCore g _

/-! #### Snapshots that a step boundary captures -/

theorem SamePlace.judgePins : SamePlace m (n.judgePins fu) := by
  unfold Module.judgePins
  exact samePlace_ite (samePlace_ite (same.onStore _) same)
    (samePlace_ite (((same.onStore _).event fu _ _).reason fu _ _) same)

theorem SamePlace.checkStore (old : Coil) : SamePlace m (n.checkStore fu old) := by
  unfold Module.checkStore
  dsimp only
  refine SamePlace.judgePins ?_ fu
  generalize hA : (if (decide (n.store.spare < 16937) && decide (16937 ≤ old.spare)) = true then _ else n) = A
  have spare : SamePlace m A := hA ▸ samePlace_ite ((same.event fu _ _).reason fu _ _) same
  generalize hB : (if (decide (9000 < n.store.meanWear) && decide (old.meanWear ≤ 9000)) = true then _ else A) = B
  have wear : SamePlace m B := hB ▸ samePlace_ite ((spare.event fu _ _).reason fu _ _) spare
  exact samePlace_ite ((wear.odSet _ (by decide)).event fu _ _) wear

theorem SamePlace.retireBlock (d b c : Nat) : SamePlace m (n.retireBlock fu d b c) := by
  unfold Module.retireBlock
  exact samePlace_ite same (SamePlace.checkStore (SamePlace.event
    (samePlace_ite (((same.onStore _).onStore _).bump _ (by decide)) (same.onStore _)) fu _ _) fu _)

omit same in
theorem samePlace_meetFlaws (w r : Coil → Nat → Bool) (k : Nat) {n : Module} (same : SamePlace m n) :
    SamePlace m (Module.meetFlaws fu w r k n) := by
  induction k generalizing n with
  | zero => exact same
  | succ k ih =>
    rw [Module.meetFlaws]
    dsimp only
    split
    · exact same
    · apply ih
      split
      · exact (same.onStore _).retireBlock fu _ _ _
      · exact (((same.onStore _).bump 1 (by decide)).event fu _ _).retireBlock fu _ _ _

theorem SamePlace.putObj (o : Obj) (bs : List Byte) : SamePlace m (n.putObj fu o bs) :=
  samePlace_meetFlaws fu _ _ _ ((((same.onStore _).bump _ (by decide)).bump _ (by decide)).checkStore fu _)

theorem SamePlace.captureSnapshot (q : Nat) (c : Cmd) : SamePlace m (n.captureSnapshot fu q c) := by
  have failed : ∀ {x : Module} (st : Nat), SamePlace m x → SamePlace m (x.snapFailed fu q c st) := fun st h =>
    (h.event fu _ _).keeps (keeps_answer _ q c st 0 0) (by decide)
  have read := fun rs => same.hbmReads fu c.job rs
  unfold Module.captureSnapshot
  dsimp only
  refine samePlace_ite (failed _ same) (samePlace_ite (failed _ same) (samePlace_ite (failed _ (read _)) (samePlace_ite ?_ ?_)))
  · exact ((read _).bump _ (by decide)).keeps (keeps_answerData _ _ _ _ _ _ _) (by decide)
  · exact (((read _).putObj fu _ _).bump _ (by decide)).keeps (keeps_answer _ _ _ _ _ _) (by decide)

theorem SamePlace.captureAll (j : Nat) : SamePlace m (n.captureAll fu j) := by
  have orphans : ∀ o, SamePlace m { n with host := { n.host with orphans := o } } := fun _ => same
  unfold Module.captureAll
  exact ((orphans _).foldl (fun _ c h => h.captureSnapshot fu 16 c) _).foldl
    (fun _ q h => h.foldl (fun _ c h => h.captureSnapshot fu q c) _) _

end

/-- What the end of a step without commit may write where no rope reduces its job. -/
def boundaryPartsAlone : List Part := [.cores, .queues, .jobs, .store, .orphans] ++ hbmReading

/-- The step of a job that is in no rope is abandoned without a sign of it on the rope or the ports (R290). -/
theorem keeps_abandonStep_alone (fu : Fuses) (m : Module) (j st : Nat) (alone : m.inRope j = false) :
    KeepsBut boundaryPartsAlone m (m.abandonStep fu j st) := by
  unfold Module.abandonStep
  refine keeps_ite (keeps_refl _ m) ?_
  dsimp only
  generalize hF : m.endFlights fu j stCancelled = F
  have Fplace : SamePlace m F := hF ▸ (samePlace_refl m).endFlights fu j stCancelled
  have Fkeeps : KeepsBut [.cores, .od, .log, .report, .queues] m F := hF ▸ keeps_endFlights fu m j stCancelled
  generalize hK : Module.answerSteps _ j st = K
  have Kkeeps : KeepsBut [.cores, .queues] F K := by
    rw [← hK, kb_answerSteps _ _ (by decide)]
    exact kb_foldl _ _ (fun m g => keeps_mono (keeps_onCore m g _) (by decide)) _
  generalize hL : (K.onJob j _).bump _ _ = L
  have Lplace : SamePlace m L := hL ▸ ((Fplace.keeps Kkeeps (by decide)).onJob j _).bump _ (by decide)
  have Lkeeps : KeepsBut [.jobs, .od] K L := by rw [← hL]; simp [keeps_refl]
  have unjudged : (L.captureAll fu j).judgeIdle fu j = L.captureAll fu j := by
    simp [Module.judgeIdle, (Lplace.captureAll fu j).inRope, alone]
  rw [unjudged]
  exact keeps_trans (keeps_mono Fkeeps (by decide)) (keeps_trans (keeps_mono Kkeeps (by decide)) (keeps_trans
    (keeps_mono Lkeeps (by decide)) (keeps_mono (keeps_captureAll fu L j) (by decide))))


/-! ### The attempt that is abandoned -/

/-- The halves of a job stay where its context only changes otherwise. -/
theorem halfBits_onJob (m : Module) (j k : Nat) (f : Job → Job) (keeps : ∀ b, (f b).halfBits = b.halfBits) :
    ((m.onJob k f).job j).halfBits = (m.job j).halfBits := by
  rw [job_onJob]
  split
  · next same => rw [keeps, same.1]
  · rfl

theorem halfBits_onRun (m : Module) (j k : Nat) (f : Run → Run) : ((m.onRun k f).job j).halfBits = (m.job j).halfBits :=
  halfBits_onJob m j k _ (fun _ => rfl)

/-- A replayed attempt starts with the halves as they were (R482). -/
theorem halfBits_restart (fu : Fuses) (m : Module) (j cause : Nat) (wide : Bool) :
    ((m.restart fu j cause wide).job j).halfBits = (m.job j).halfBits := by
  have zeroed : ∀ x : Module, ((((x.clearReplayWords j).zeroAccs j)).job j).halfBits = (x.job j).halfBits := fun x => by
    obtain ⟨_, _, _, _, _, job⟩ := same_zeroWords x j
    rw [job]
  unfold Module.restart
  dsimp only
  rw [job_of_event, job_of_bump, job_congr (release_ok _ j false (fun _ => 0)).2.1, halfBits_onRun]
  generalize hC : Module.onRun _ j _ = C
  generalize hD : (if (wide && C.inRope j) = true then _ else C) = D
  have roped : D.jobs = C.jobs := by
    rw [← hD]
    split <;> rfl
  calc (D.job j).halfBits = (C.job j).halfBits := congrArg Job.halfBits (job_congr roped j)
    _ = ((m.endFlights fu j stCancelled).job j).halfBits := by
      rw [← hC, halfBits_onRun, zeroed]
      exact halfBits_onJob _ j j _ (fun _ => rfl)
    _ = (m.job j).halfBits := congrArg Job.halfBits (job_congr (endFlights_jobs fu m j stCancelled) j)

/-- The module when job `j`'s attempt is cancelled under a new epoch, and what its cores had in flight has ended but for stale answers
(R340, R343, R344). -/
def attemptCancelled (fu : Fuses) (m : Module) (j : Nat) : Module :=
  (m.job j).cores.foldl (fun m g => m.cancelCore fu j g)
    (((m.bump (odKey 0x3250 4) 1).event fu 0x0371 [j, (m.job j).run.epoch, ((m.job j).run.epoch + 1) % 65536]).onRun j (fun r =>
      { r with epoch := ((m.job j).run.epoch + 1) % 65536, mustReplay := some stCancelled }))

section
variable (fu : Fuses) (m : Module) (j : Nat)

theorem samePlace_attemptCancelled : SamePlace m (attemptCancelled fu m j) :=
  ((((samePlace_refl m).bump 1 (by decide)).event fu _ _).onJob j _).foldl (fun _ g h => h.cancelCore fu j g) _

theorem keeps_attemptCancelled : KeepsBut [.cores, .queues, .jobs, .od, .log, .report] m (attemptCancelled fu m j) := by
  refine keeps_trans ?_ (kb_foldl _ _ (fun m g => keeps_mono (cancelCore_keeps fu j m g) (by decide)) _)
  simp [keeps_refl]

theorem jobs_attemptCancelled : (attemptCancelled fu m j).jobs = (m.onRun j (fun r =>
    { r with epoch := ((m.job j).run.epoch + 1) % 65536, mustReplay := some stCancelled })).jobs :=
  (foldl_keep Module.jobs _ _ (fun m g => cancelCore_keeps fu j m g .jobs (by decide)) _).trans
    (congrArg (fun l => modifyAt _ l j) (event_jobs fu _ _ _))

/-- CANCEL_BATCH of a running job: in a rope the attempt is replayed at every rank, and otherwise it ends once nothing is in flight. -/
theorem cancelBatch_of_running (q : Nat) (c : Cmd) (runs : (m.job c.job).state = 3) :
    m.cancelBatch fu q c =
      (if (attemptCancelled fu m c.job).inRope c.job then
        ((attemptCancelled fu m c.job).sendAbort 3 stCancelled).restart fu c.job stCancelled true
      else (attemptCancelled fu m c.job).settleCancel fu c.job).answer q c stOk (((m.job c.job).run.epoch + 1) % 65536) 0 := by
  simp only [Module.cancelBatch, runs]
  rfl

variable {j}

theorem job_attemptCancelled (inside : j < m.jobs.length) : (attemptCancelled fu m j).job j =
    { m.job j with run := { (m.job j).run with epoch := ((m.job j).run.epoch + 1) % 65536, mustReplay := some stCancelled } } := by
  rw [job_congr (jobs_attemptCancelled fu m j), job_onRun_self m j _ inside]

theorem otherJobs_attemptCancelled : OtherJobs j m (attemptCancelled fu m j) := fun k other => by
  rw [job_congr (jobs_attemptCancelled fu m j), job_onRun_other m j k _ other]

end

/-- What a cancelled attempt of job `j` leaves in module `z` (R344): in a rope it is replayed, and otherwise the job is LOADED, or is once
nothing of it is in flight any more. -/
def Cancelled (x z : Module) (j : Nat) : Prop :=
  (z.job j).step = (x.job j).step ∧ (z.job j).halfBits = (x.job j).halfBits ∧
  (x.inRope j = false → (z.job j).run.epoch = ((x.job j).run.epoch + 1) % 65536 ∧
    ((z.job j).state = 2 ∨ (z.job j).state = 3 ∧ (z.job j).run.mustReplay = some stCancelled) ∧
    z.hawsers = x.hawsers ∧ z.rope = x.rope) ∧
  (x.inRope j = true → (z.job j).state = 3 ∧ (z.job j).run.mustReplay = none ∧
    (z.job j).run.ropeAttempt = (x.job j).run.ropeAttempt + 1 ∧ (z.job j).run.attempt = (x.job j).run.attempt + 1) ∧
  OtherJobs j x z ∧ KeepsBut boundaryParts x z

section
variable (fu : Fuses) {x : Module} {j : Nat} (runs : (x.job j).state = 3)
include runs

/-- In a rope every rank replays the cancelled attempt (R312). -/
theorem cancelled_restart (rope : x.inRope j = true) :
    Cancelled x (((attemptCancelled fu x j).sendAbort 3 stCancelled).restart fu j stCancelled true) j := by
  have own := job_attemptCancelled fu x (j := j) (job_lt (by simp [runs]))
  have others := otherJobs_attemptCancelled fu x (j := j)
  have keeps := keeps_attemptCancelled fu x j
  generalize attemptCancelled fu x j = y at *
  have sent : KeepsBut [.hawsers] y (y.sendAbort 3 stCancelled) := (kb_sendAbort 3 stCancelled (by decide)).2 (keeps_refl _ _)
  have half := halfBits_restart fu (y.sendAbort 3 stCancelled) j stCancelled true
  rw [job_congr (sent .jobs (by decide))] at half
  obtain ⟨state, step, attempt, ropeAttempt, _, must, _, _, _, _, _, _, others', keeps'⟩ :=
    replays_restart fu stCancelled true sent (show (y.job j).state = 3 by rw [own]; exact runs)
  rw [own] at half step attempt ropeAttempt
  exact ⟨step, half, fun alone => absurd (rope.symm.trans alone) (by decide), fun _ => ⟨state, must, ropeAttempt, attempt⟩,
    fun k hk => (others' k hk).trans (others k hk), keeps_trans (keeps_mono keeps (by decide)) (keeps_mono keeps' (by decide))⟩

/-- Outside a rope it ends, or waits for its stale answers (R343, R344). -/
theorem cancelled_settle (alone : x.inRope j = false) : Cancelled x ((attemptCancelled fu x j).settleCancel fu j) j := by
  have own := job_attemptCancelled fu x (j := j) (job_lt (by simp [runs]))
  have others := otherJobs_attemptCancelled fu x (j := j)
  have keeps := keeps_attemptCancelled fu x j
  have rope := (samePlace_attemptCancelled fu x j).inRope j
  generalize attemptCancelled fu x j = y at *
  have inRope : ∀ {p : Prop}, x.inRope j = true → p := fun rope => absurd (alone.symm.trans rope) (by decide)
  unfold Module.settleCancel
  dsimp only
  split
  · obtain ⟨job, _, others', keeps'⟩ := abandonStep_ok fu y j stCancelled (by rw [own]; exact runs)
    have bonds := keeps_abandonStep_alone fu y j stCancelled (rope.trans alone)
    rw [own] at job
    refine ⟨by rw [job], by rw [job], fun _ => ⟨by rw [job]; rfl, .inl (by rw [job]), ?_, ?_⟩, inRope,
      fun k hk => (others' k hk).trans (others k hk), keeps_trans (keeps_mono keeps (by decide)) keeps'⟩
    · exact (bonds .hawsers (by decide)).trans (keeps .hawsers (by decide))
    · exact (bonds .rope (by decide)).trans (keeps .rope (by decide))
  · exact ⟨by rw [own], by rw [own], fun _ => ⟨by rw [own], .inr ⟨by rw [own]; exact runs, by rw [own]⟩, keeps .hawsers (by decide),
      keeps .rope (by decide)⟩, inRope, others, keeps_mono keeps (by decide)⟩

end

/-- CANCEL_BATCH of a running job is answered OK with its new epoch. -/
theorem cancelBatch_cancels (fu : Fuses) (x : Module) (q : Nat) (c : Cmd) (runs : (x.job c.job).state = 3) :
    ∃ z, Cancelled x z c.job ∧ x.cancelBatch fu q c = z.answer q c stOk (((x.job c.job).run.epoch + 1) % 65536) 0 := by
  refine ⟨_, ?_, cancelBatch_of_running fu x q c runs⟩
  rw [(samePlace_attemptCancelled fu x c.job).inRope]
  split
  · next rope => exact cancelled_restart fu runs rope
  · next alone => exact cancelled_settle fu runs (eq_false_of_ne_true alone)

end Sys2Proof.Proofs
end

section
/-!
PROOFS. The commands of a job's life (R199, R204, R208, R344, R421, R426, R428): which function each starts, what that function leaves,
and a chain that goes on or breaks.
-/
namespace Sys2Proof.Proofs

open Sys2Proof Sys2Proof.Machine Sys2Proof.Laws

/-! ### The function that a command starts -/

/-- Each command on a job is taken from its queue under its own opcode (R426). -/
theorem exec_jobRows {r : Nat × (Nat → Packet → Instr)} (row : r ∈ jobRows) (q : Nat) (p : Packet) (s : State) :
    exec (r.2 q p) s = takeRow r.1 q p [] s := by
  simp only [jobRows, List.mem_cons, List.not_mem_nil, or_false] at row
  rcases row with rfl | rfl | rfl | rfl | rfl | rfl | rfl | rfl | rfl | rfl | rfl | rfl | rfl | rfl | rfl | rfl <;> rfl

/-- Every one of them names a job, and none is LOAD. -/
theorem names_jobRows {r : Nat × (Nat → Packet → Instr)} (row : r ∈ jobRows) : r.1 ≠ 1 ∧ namesJob r.1 = true :=
  (by decide : ∀ op ∈ jobRows.map Prod.fst, op ≠ 1 ∧ namesJob op = true) r.1 (List.mem_map_of_mem row)

section
variable (fu : Fuses) (x : Module) (q : Nat) (c : Cmd)

theorem startCmd_nop (op : c.opcode = 0) : x.startCmd fu q c = x.answer q c stOk 0 0 := by
  rw [Module.startCmd, start_live x c (.inr (.inl (by rw [op]; rfl))), op]
  rfl

theorem startCmd_load (op : c.opcode = 1) : x.startCmd fu q c = (x.startLoad fu q c).feed fu q c.tag := by
  rw [Module.startCmd, start_live x c (.inl op), op]
  rfl

variable {fu x q c}

theorem startCmd_bind (op : c.opcode = 2) (held : (x.job c.job).state ≠ 0) : x.startCmd fu q c = x.bind q c := by
  rw [Module.startCmd, start_live x c (.inr (.inr (.inr held))), op]
  rfl

theorem startCmd_step (op : c.opcode = 3) (held : (x.job c.job).state ≠ 0) : x.startCmd fu q c = x.askStep q c := by
  rw [Module.startCmd, start_live x c (.inr (.inr (.inr held))), op]
  rfl

theorem startCmd_endJob (op : c.opcode = 4) (held : (x.job c.job).state ≠ 0) : x.startCmd fu q c = x.endByHost fu q c := by
  rw [Module.startCmd, start_live x c (.inr (.inr (.inr held))), op]
  rfl

theorem startCmd_releaseJob (op : c.opcode = 5) (held : (x.job c.job).state ≠ 0) : x.startCmd fu q c = x.releaseJob q c := by
  rw [Module.startCmd, start_live x c (.inr (.inr (.inr held))), op]
  rfl

theorem startCmd_cancelBatch (op : c.opcode = 6) (held : (x.job c.job).state ≠ 0) : x.startCmd fu q c = x.cancelBatch fu q c := by
  rw [Module.startCmd, start_live x c (.inr (.inr (.inr held))), op]
  rfl

end

/-! ### A FREE context (R426) -/

/-- A reported refusal: DENIED after an event. -/
def ReportsDenied (x : Module) (q : Nat) (c : Cmd) (n : Module) : Prop :=
  ∃ z, KeepsBut reporting x z ∧ n = z.answer q c stDenied 0 0

theorem reportsDenied_event (fu : Fuses) (x : Module) (q : Nat) (c : Cmd) (code : Nat) (l : List Nat) :
    ReportsDenied x q c ((x.event fu code l).answer q c stDenied 0 0) :=
  ⟨_, keeps_still (still_event fu x code l), rfl⟩

section
variable {fu : Fuses} {x : Module} {q : Nat} {c : Cmd} (free : (x.job c.job).state = 0)
include free

theorem stageSet_of_free : ReportsDenied x q c (x.stageSet fu q c) := by
  have refused : x.stageRefused c.job (c.w 2) (c.w 3) = stDenied := by simp [Module.stageRefused, free]
  simp only [Module.stageSet, refused]
  exact reportsDenied_event ..

theorem turnSlots_of_free (state next : Nat) : ReportsDenied x q c (x.turnSlots fu q c state next) := by
  unfold Module.turnSlots
  dsimp only
  split
  · exact reportsDenied_event ..
  · rw [if_pos (by simp [Job.live, free])]
    exact reportsDenied_event ..

theorem saveSet_of_free : ReportsDenied x q c (x.saveSet fu q c) := by
  unfold Module.saveSet
  rw [if_pos (by simp [Job.live, free])]
  exact reportsDenied_event ..

theorem freeSlot_of_free : ReportsDenied x q c (x.freeSlot fu q c) := by
  unfold Module.freeSlot
  rw [if_pos (by simp [Job.live, free])]
  exact reportsDenied_event ..

theorem snapshot_of_free (good : badModuleId (c.w 5) = false) : ReportsDenied x q c (x.snapshot fu q c) := by
  simp only [Module.snapshot, good, free]
  exact reportsDenied_event ..

/-- A variant command or a SNAPSHOT turns a FREE context away itself, with its event (R256, R258). -/
theorem startCmd_reports (row : c.opcode ∈ jobRows.map Prod.fst) (tells : tellsFailure c.opcode = true)
    (good : c.opcode = 0x18 → badModuleId (c.w 5) = false) : ReportsDenied x q c (x.startCmd fu q c) := by
  have cases := (by decide : ∀ op ∈ jobRows.map Prod.fst, tellsFailure op = true → op ∈ [0x10, 0x11, 0x12, 0x13, 0x14, 0x18]) _ row tells
  rw [Module.startCmd, start_live x c (.inr (.inr (.inl tells)))]
  simp only [List.mem_cons, List.not_mem_nil, or_false] at cases
  rcases cases with op | op | op | op | op | op <;> rw [op]
  · exact stageSet_of_free free
  · exact turnSlots_of_free free 1 1
  · exact turnSlots_of_free free 2 2
  · exact saveSet_of_free free
  · exact freeSlot_of_free free
  · exact snapshot_of_free free (good op)

end

/-! ### LOAD (R204, R428) -/

/-- A change of an element depends on the change of what stands there alone. -/
theorem modifyAt_congr {α : Type} {f g : α → α} {l : List α} {i : Nat} (same : ∀ a, l[i]? = some a → f a = g a) :
    modifyAt f l i = modifyAt g l i := by
  refine List.ext_getElem? fun k => ?_
  rw [modifyAt_getElem?, modifyAt_getElem?]
  split
  · next here =>
    subst here
    cases found : l[k]? with
    | none => rfl
    | some a => exact congrArg some (same a found)
  · rfl

theorem onJob_congr {m : Module} {j : Nat} {f g : Job → Job} (same : f (m.job j) = g (m.job j)) : m.onJob j f = m.onJob j g := by
  unfold Module.onJob
  rw [modifyAt_congr]
  intro a found
  have here : m.job j = a := by simp [Module.job, List.getD_eq_getElem?_getD, found]
  rw [← here, same]

/-- The context of a load that has begun. -/
def loadingJob (x : Module) (c : Cmd) : Job :=
  { Job.free with state := 1, seed := c.w 3, pendingSnap := (x.job c.job).pendingSnap }

/-- The module in which a load has begun. -/
def loadBegun (x : Module) (q : Nat) (c : Cmd) : Module := (x.onJob c.job (fun _ => loadingJob x c)).started q c

section
variable {fu : Fuses} {x : Module} {q : Nat} {c : Cmd}

/-- Every command of the tag that is answered stands answered in its queue. -/
theorem answered_of_mem {tag : Nat} {r : Resp} {d : Cmd} (own : d.tag = tag)
    (mem : d ∈ (((x.onQueue q (fun t => t.markAnswered tag)).pushResp q r).queue q).cmds) : d.state = 2 := by
  rw [Module.pushResp, onQueue_onQueue, queue_onQueue] at mem
  split at mem
  · obtain ⟨e, _, rfl⟩ := List.mem_map.1 mem
    split at own
    · next same => rw [if_pos same]
    · next other => exact absurd own other
  · next outside =>
    have none : x.queue q = Queue.reset := List.getD_eq_default _ _ (Nat.le_of_not_lt fun lt => outside ⟨rfl, lt⟩)
    rw [none] at mem
    exact absurd mem List.not_mem_nil

/-- A command that has its final response takes no more data. -/
theorem feed_answerLoad (r : LoadResult) : (x.answerLoad q c r).feed fu q c.tag = x.answerLoad q c r := by
  unfold Module.feed
  split
  · rfl
  · next d found =>
    have own : d.tag = c.tag := by simpa using List.find?_some found
    have answered : d.state = 2 := answered_of_mem own (List.mem_of_find?_eq_some found)
    rw [if_pos (by rw [answered]; rfl)]

theorem startLoad_of_bad {r : LoadResult} (bad : x.loadArgs c = some r) :
    x.startLoad fu q c = (x.rejectLoad fu c.job (c.w 3) ((x.job c.job).state == 0) r).answerLoad q c r := by
  rw [Module.startLoad, bad]

theorem startLoad_of_passed (passed : x.loadArgs c = none) : x.startLoad fu q c = loadBegun x q c := by
  rw [Module.startLoad, passed]
  exact congrArg (fun m : Module => m.started q c) (onJob_congr rfl)

theorem job_loadBegun (inside : c.job < x.jobs.length) : (loadBegun x q c).job c.job = loadingJob x c :=
  job_onJob_self x c.job _ inside

theorem otherJobs_loadBegun : OtherJobs c.job x (loadBegun x q c) := fun k other => job_onJob_other x c.job k _ other

theorem keeps_loadBegun : KeepsBut [.jobs, .queues] x (loadBegun x q c) :=
  keeps_trans (keeps_mono (keeps_onJob x c.job _) (by simp)) (keeps_mono (started_keeps _ q c) (by simp))

/-- The data of a LOAD that has begun are those of its first packet: the loader takes them if they are all of its image (R421). -/
theorem feed_loadBegun {s : State} {p : Packet} {ups : List FlashUpset} (h : Begins s q p ups c x) (op : c.opcode = 1) :
    (loadBegun x q c).feed fu q c.tag =
      if c.whole then (loadBegun x q c).endLoad fu q c else loadBegun x q c := by
  have found := feed_started h (z := x.onJob c.job (fun _ => loadingJob x c)) rfl
  unfold Module.feed loadBegun
  rw [found]
  dsimp only
  rw [if_neg (by decide), if_neg (by rw [op]; decide), if_pos op]
  show (if !c.whole then _ else _) = _
  cases c.whole <;> rfl

end

section
variable {fu : Fuses} {m : Module} {j port seed mask policy keys given : Nat} {im : List Byte} {l : Loading}

/-- An image that passes and finds its place leaves its job LOADED there (R204). -/
theorem load_of_place {pl : Place} (inside : j < m.jobs.length)
    (passes : m.judge (m.loadEnv fu port policy keys given) im mask = (none, l, some pl)) :
    ∃ z r, m.load fu j port seed mask policy keys given im = (z, r) ∧ r.status = stOk ∧ (z.job j).state = 2 ∧ (z.job j).seed = seed ∧
      (z.job j).cores = pl.cores ∧ (z.job j).hbmBase = pl.base ∧ (z.job j).image = l.img ∧ (z.job j).hash = sha512 im ∧
      OtherJobs j m z ∧ KeepsBut ([.cores, .clusters, .hbm, .hbmPoison, .jobs, .residency] ++ reporting) m z := by
  obtain ⟨state, seeded, cores, base, image, hash, others, keeps⟩ := place_ok m j seed im l pl inside
  unfold Module.load
  simp only [passes]
  generalize m.place j seed im l pl = y at *
  generalize hz : (if ((y.bump (odKey 0x3210 2) 1).job j).t7 = true then _ else _) = z
  have jobs : z.jobs = y.jobs := by
    rw [← hz]
    split <;> simp
  have told : KeepsBut reporting y z := by
    rw [← hz]
    split <;> simp [reporting, keeps_refl]
  refine ⟨z, _, rfl, rfl, ?_⟩
  rw [job_congr jobs]
  exact ⟨state, seeded, cores, base, image, hash, fun k hk => (job_congr jobs k).trans (others k hk),
    keeps_trans (keeps_mono keeps (by simp)) (keeps_mono told fun _ => List.mem_append_right _)⟩

/-- An image with a finding is rejected with it (R204). -/
theorem load_of_finding {f : Finding} {pl : Option Place}
    (found : m.judge (m.loadEnv fu port policy keys given) im mask = (some f, l, pl)) :
    ∃ r : LoadResult, m.load fu j port seed mask policy keys given im = (m.rejectLoad fu j seed true r, r) ∧
      r.status = checkStatus f.1 ∧ r.check = f.1 := by
  unfold Module.load
  simp only [found]
  exact ⟨_, rfl, rfl, rfl⟩

end

/-- The image that travels with a LOAD (R421). -/
def imageOf (c : Cmd) : List Byte := (if bitAt (c.w 4) 0 then c.data.drop 64 else c.data).take (c.w 2)

/-- The core mask that travels with a LOAD. -/
def maskOf (c : Cmd) : Nat := if bitAt (c.w 4) 0 then leNat (c.data.take 64) else 0

/-- What the checks say of the whole image of a LOAD that has begun. -/
def verdictOf (fu : Fuses) (x : Module) (q : Nat) (c : Cmd) : Option Finding × Loading × Option Place :=
  (loadBegun x q c).judge ((loadBegun x q c).loadEnv fu (q / 8) c.policy c.keys (c.w 2)) (imageOf c) (maskOf c)

section
variable {s : State} {q : Nat} {p : Packet} {c : Cmd} {x : Module} (h : Begins s q p [] c x) (op : c.opcode = 1)
include h op

/-- A LOAD whose arguments fail is rejected (R428). -/
theorem goes_load_of_bad {r : LoadResult} (bad : x.loadArgs c = some r) :
    Goes s (.load q p) (fun n => ∃ z, n = thenStart s.fuse x (z.answerLoad q c r) ∧
      ((x.job c.job).state = 0 → c.job < x.jobs.length → z.job c.job = { Job.free with
        state := 4, endStatus := r.status, loadCheck := r.check, seed := c.w 3, pendingSnap := (x.job c.job).pendingSnap }) ∧
      ((x.job c.job).state ≠ 0 → z.jobs = x.jobs) ∧ OtherJobs c.job x z ∧ KeepsBut [.jobs, .od, .log, .report] x z) := by
  obtain ⟨own, foreign, others, keeps⟩ := reject_ok s.fuse x c.job (c.w 3) ((x.job c.job).state == 0) r
  refine goes_take h (i := .load q p) (rowOp := fun o => o == 1) rfl (by simp [op])
    ⟨_, ?_, fun free => own (by simp [free]), fun held => foreign (by simp [held]), others, keeps⟩
  rw [startCmd_load _ _ _ _ op, startLoad_of_bad bad, feed_answerLoad]

variable (passed : x.loadArgs c = none)
include passed

/-- One that passes goes to the loader with its whole image, and waits for the rest of it otherwise (R421). -/
theorem startCmd_of_passed : x.startCmd s.fuse q c =
    if c.whole then (loadBegun x q c).endLoad s.fuse q c else loadBegun x q c := by
  rw [startCmd_load _ _ _ _ op, startLoad_of_passed passed, feed_loadBegun h op]

variable (inside : c.job < x.jobs.length)
include inside

theorem goes_load_of_part (part : c.whole = false) :
    Goes s (.load q p) (RunsOn s.fuse x q c (fun z =>
      z.job c.job = loadingJob x c ∧ OtherJobs c.job x z ∧ KeepsBut [.jobs] x z)) := by
  refine goes_runs h (i := .load q p) (rowOp := fun o => o == 1) (z := x.onJob c.job (fun _ => loadingJob x c)) rfl (by simp [op]) ?_
    ⟨job_onJob_self x c.job _ inside, fun k other => job_onJob_other x c.job k _ other, keeps_onJob x c.job _⟩
  rw [startCmd_of_passed h op passed, part]
  rfl

variable (whole : c.whole = true)
include whole

/-- A whole image that passes its checks places its job (R204). -/
theorem goes_load_of_place {l : Loading} {pl : Place} (passes : verdictOf s.fuse x q c = (none, l, some pl)) :
    Goes s (.load q p) (fun n => ∃ z r, n = thenStart s.fuse x (z.answerLoad q c r) ∧ r.status = stOk ∧ (z.job c.job).state = 2 ∧
      (z.job c.job).seed = c.w 3 ∧ (z.job c.job).cores = pl.cores ∧ (z.job c.job).hbmBase = pl.base ∧ (z.job c.job).image = l.img ∧
      (z.job c.job).hash = sha512 (imageOf c) ∧ OtherJobs c.job x z ∧
      KeepsBut [.cores, .clusters, .hbm, .hbmPoison, .jobs, .residency, .queues, .od, .log, .report] x z) := by
  have held : c.job < (loadBegun x q c).jobs.length := (onJob_len x c.job _).symm ▸ inside
  obtain ⟨z, r, loads, ok, state, seed, cores, base, image, hash, others, keeps⟩ := load_of_place (seed := c.w 3) held passes
  refine goes_take h (i := .load q p) (rowOp := fun o => o == 1) rfl (by simp [op])
    ⟨z, r, ?_, ok, state, seed, cores, base, image, hash, fun k hk => (others k hk).trans (otherJobs_loadBegun k hk),
      keeps_trans (keeps_mono keeps_loadBegun (by simp)) (keeps_mono keeps (by decide))⟩
  rw [startCmd_of_passed h op passed, if_pos whole]
  exact congrArg (fun v : Module × LoadResult => thenStart s.fuse x (v.1.answerLoad q c v.2)) loads

/-- A whole image with a finding is rejected with it (R204). -/
theorem goes_load_of_finding {f : Finding} {l : Loading} {pl : Option Place} (found : verdictOf s.fuse x q c = (some f, l, pl)) :
    Goes s (.load q p) (fun n => ∃ z r, n = thenStart s.fuse x (z.answerLoad q c r) ∧ r.status = checkStatus f.1 ∧ r.check = f.1 ∧
      z.job c.job = { Job.free with
        state := 4, endStatus := r.status, loadCheck := r.check, seed := c.w 3, pendingSnap := (x.job c.job).pendingSnap } ∧
      OtherJobs c.job x z ∧ KeepsBut [.jobs, .queues, .od, .log, .report] x z) := by
  have held : c.job < (loadBegun x q c).jobs.length := (onJob_len x c.job _).symm ▸ inside
  obtain ⟨r, loads, status, check⟩ := load_of_finding (j := c.job) (seed := c.w 3) found
  obtain ⟨own, _, others, keeps⟩ := reject_ok s.fuse (loadBegun x q c) c.job (c.w 3) true r
  refine goes_take h (i := .load q p) (rowOp := fun o => o == 1) rfl (by simp [op])
    ⟨_, r, ?_, status, check, ?_, fun k hk => (others k hk).trans (otherJobs_loadBegun k hk),
      keeps_trans (keeps_mono keeps_loadBegun (by simp)) (keeps_mono keeps (by decide))⟩
  · rw [startCmd_of_passed h op passed, if_pos whole]
    exact congrArg (fun v : Module × LoadResult => thenStart s.fuse x (v.1.answerLoad q c v.2)) loads
  · rw [own rfl held, job_loadBegun inside]
    rfl

end

/-! ### Binds, steps and the life of a job -/

section
variable {fu : Fuses} {x : Module} {q : Nat} {c : Cmd}

/-- BIND sets the next value of the slot it names (R199). -/
theorem bind_of_fits {bd : Bound} (live : (x.job c.job).live = true)
    (found : (x.job c.job).bounds.find? (fun y => y.slot == c.w 2) = some bd)
    (fits : bd.address = true → (x.job c.job).bindFits bd.slot (c.w 3) = true) :
    x.bind q c = (x.onJob c.job (fun b => { b with
      bounds := b.bounds.map (fun y => if y.slot = c.w 2 then { y with next := c.w 3 } else y) })).answer q c stOk 0 0 := by
  unfold Module.bind
  dsimp only
  rw [found]
  refine if_neg ?_
  cases address : bd.address
  · simp [live]
  · simp [live, fits address]

theorem askStep_of_denied (denied : x.stepDenied c.job = true) : x.askStep q c = x.answer q c stDenied (x.job c.job).step 0 :=
  if_pos denied

theorem askStep_of_granted (granted : x.stepDenied c.job = false) :
    x.askStep q c = (x.onRun c.job (fun r => { r with stepAsked := true, stepQ := q })).started q c :=
  if_neg (by rw [granted]; decide)

theorem endByHost_of_live (live : (x.job c.job).live = true) :
    x.endByHost fu q c = (x.endJob fu c.job stCancelled).answer q c stOk 0 0 :=
  if_neg (by rw [live]; decide)

theorem releaseJob_of_ended (ended : (x.job c.job).state = 4) :
    x.releaseJob q c = (x.onJob c.job (fun b => { Job.free with pendingSnap := b.pendingSnap })).answer q c stOk 0 0 :=
  if_neg (by rw [ended]; decide)

theorem cancelBatch_of_loaded (loaded : (x.job c.job).state = 2) :
    x.cancelBatch fu q c = x.answer q c stOk (x.job c.job).run.epoch 0 :=
  if_pos loaded

theorem live_iff {b : Job} : b.live = true ↔ b.state = 2 ∨ b.state = 3 := by
  simp [Job.live]

end

section
variable {s : State} {q : Nat} {p : Packet} {c : Cmd} {x : Module} (h : Begins s q p [] c x)
include h

/-- A command on a job that changes its own context alone and ends at once. -/
theorem goes_ends_onJob {i : Instr} {n : Nat} (row : exec i s = takeRow n q p [] s) (op : c.opcode = n) (held : (x.job c.job).state ≠ 0)
    {f : Job → Job} {st w4 w5 : Nat} (starts : x.startCmd s.fuse q c = (x.onJob c.job f).answer q c st w4 w5) :
    Goes s i (Ends s.fuse x q c st w4 w5 (fun z => z.job c.job = f (x.job c.job) ∧ OtherJobs c.job x z ∧ KeepsBut [.jobs] x z)) :=
  goes_ends h row (by simp [op]) starts
    ⟨job_onJob_self x c.job f (job_lt held), fun k other => job_onJob_other x c.job k f other, keeps_onJob x c.job f⟩

/-- A command that names a FREE context is DENIED, with an event where all its failures have one (R426). -/
theorem goes_of_free {r : Nat × (Nat → Packet → Instr)} (row : r ∈ jobRows) (op : c.opcode = r.1) (free : (x.job c.job).state = 0) :
    (tellsFailure r.1 = false → Goes s (r.2 q p) (Ends s.fuse x q c stDenied 0 0 (fun z => z = x))) ∧
    (tellsFailure r.1 = true → (r.1 = 0x18 → badModuleId (c.w 5) = false) →
      Goes s (r.2 q p) (Ends s.fuse x q c stDenied 0 0 (fun z => KeepsBut reporting x z))) := by
  have own : (fun o => o == r.1) c.opcode = true := by simp [op]
  refine ⟨fun silent => ?_, fun tells good => ?_⟩
  · obtain ⟨noLoad, names⟩ := names_jobRows row
    rw [← op] at noLoad names silent
    exact goes_ends h (exec_jobRows row q p s) own (start_denied s.fuse x q c noLoad names silent free) rfl
  · have reports := startCmd_reports (fu := s.fuse) (q := q) free (op ▸ List.mem_map_of_mem row) (op ▸ tells) (op ▸ good)
    exact goes_take h (exec_jobRows row q p s) own (reports.imp fun z ⟨keeps, ends⟩ => ⟨keeps, congrArg _ ends⟩)

end

/-! ### Chains (R421) -/

section
variable {m : Module} {q : Nat} {ch : Cmd} (chains : (m.queue q).chained = some ch)
include chains

/-- A queue with an open chain is one of the module's. -/
theorem queue_lt_of_chained : q < m.host.queues.length := by
  refine Nat.lt_of_not_le fun outside => ?_
  have none : m.queue q = Queue.reset := List.getD_eq_default _ _ outside
  rw [none] at chains
  cases chains

/-- A chain whose next packet does not come closes, and its command has TIMEOUT as its last response. -/
theorem breakChain_of_timeout : ((m.breakChain q true).queue q).chain = none ∧
    ∃ (z : Module) (r : Resp), m.breakChain q true = z.pushResp q r ∧ r.status = stTimeout ∧ r.tag = ch.tag ∧ r.last = true := by
  have inside := queue_lt_of_chained chains
  unfold Module.breakChain
  rw [chains]
  dsimp only
  generalize hz : (if (decide (ch.opcode = 1) && _) = true then _ else _ : Module) = z
  have queues : z.host.queues = (m.onQueue q (fun t => { t with chain := none })).host.queues := by
    rw [← hz]
    split
    · rfl
    · split <;> rfl
  have held : q < z.host.queues.length := by
    rw [queues, onQueue_length]
    exact inside
  refine ⟨?_, _, _, rfl, rfl, rfl, rfl⟩
  rw [Module.answer, Module.pushResp, onQueue_onQueue, queue_onQueue_self held]
  show (z.queue q).chain = none
  rw [show z.queue q = (m.onQueue q (fun t => { t with chain := none })).queue q from congrArg (fun l => List.getD l q Queue.reset) queues,
    queue_onQueue_self inside]

end

/-- Whether the packet `p`, taken in module `t`, is the next one of the chain of command `ch` (R421, R422). -/
def fitsChain (t : Module) (q : Nat) (p : Packet) (ch : Cmd) : Bool :=
  p.formOk && p.argsIn [] && p.opcode == ch.opcode && p.job == ch.job && p.seq == ch.nextSeq &&
    p.len64 == ch.units ch.nextSeq && p.last == ch.endsAt ch.nextSeq && t.featured q p

/-- The module once the next packet of the chain of command `ch` has been taken with its data. -/
def chainTaken (m : Module) (q : Nat) (p : Packet) (ch : Cmd) : Module :=
  let y := (m.countTaken q p).onCmd q ch.tag (fun c => { c with got := c.got + p.payload.length, data := c.data ++ p.payload })
  if ch.endsAt ch.nextSeq then y.onQueue q (fun t => { t with chain := none }) else y

section
variable {fu : Fuses} {m : Module} {q : Nat} {p : Packet} {ch : Cmd} {ups : List FlashUpset} (chains : (m.queue q).chained = some ch)
include chains

/-- A packet of the open chain's tag goes on with its chain or breaks it. -/
theorem takeChained_of (own : ch.tag = p.tag) (takes : m.canTake q p = true) :
    m.takeChained fu q p ups =
      if fitsChain (m.countTaken q p) q p ch then (((chainTaken m q p ch).flashMeets fu ch ups).feed fu q ch.tag).settle fu
      else (((m.countTaken q p).packetFails q stMalformed).breakChain q false).settle fu := by
  unfold Module.takeChained
  rw [chains]
  dsimp only
  rw [if_neg (by simp [own, takes])]
  rfl

/-- The queue once the packet has been taken. -/
theorem queue_chainTaken : (chainTaken m q p ch).queue q = { m.queue q with
    cmds := (m.queue q).cmds.map (fun c => if c.tag = ch.tag then
      { c with got := c.got + p.payload.length, data := c.data ++ p.payload } else c),
    chain := if ch.endsAt ch.nextSeq then none else (m.queue q).chain,
    sqHead := ((m.queue q).sqHead + 1 + p.len64) % ringUnits } := by
  have inside := queue_lt_of_chained chains
  have taken : (m.countTaken q p).queue q = _ := queue_onQueue_self inside _
  have held : q < (m.countTaken q p).host.queues.length := (onQueue_length m q _).symm ▸ inside
  unfold chainTaken
  dsimp only
  split
  · rw [Module.onCmd, onQueue_onQueue, queue_onQueue_self held, taken]
    rfl
  · rw [Module.onCmd, queue_onQueue_self held, taken]
    rfl

end

theorem keeps_chainTaken (m : Module) (q : Nat) (p : Packet) (ch : Cmd) : KeepsBut [.queues, .od] m (chainTaken m q p ch) := by
  unfold chainTaken Module.onCmd Module.countTaken
  split <;> simp [keeps_refl]

/-! ### The obligation -/

/-- Settles O51: each command starts the one function whose lemma above says what it leaves, and a chain is `takeChained_of`'s. -/
theorem hostCommandsOnJobs : Obligations.HostCommandsOnJobs := by
  unfold Obligations.HostCommandsOnJobs
  refine ⟨fun s q p c x h => ?_, fun s q ch inside power chains => ⟨?_, fun p ups own takes => ?_⟩⟩
  · refine ⟨fun op => ?nop, fun r row op free => goes_of_free h row op free, fun op => ⟨fun r bad => goes_load_of_bad h op bad,
      fun passed inside => ⟨goes_load_of_part h op passed inside, fun whole l pl => goes_load_of_place h op passed inside whole,
        fun whole f l pl => goes_load_of_finding h op passed inside whole⟩⟩, fun op live bd found fits => ?bind,
      fun op held => ⟨fun denied => ?denied, fun granted => ?granted⟩, fun op live => ?ends, fun op ended => ?release,
      fun op loaded => ?idle, fun op runs => ?cancel⟩
    case nop =>
      exact goes_ends h (i := .nop q p) (rowOp := fun o => o == 0 || !knownOp o) rfl (by simp [op]) (startCmd_nop _ _ _ _ op) rfl
    case bind =>
      exact goes_ends_onJob h (i := .bind q p) rfl op (live_ne live)
        ((startCmd_bind op (live_ne live)).trans (bind_of_fits live found fits))
    case denied =>
      exact goes_ends h (i := .step q p) (rowOp := fun o => o == 3) rfl (by simp [op])
        ((startCmd_step op held).trans (askStep_of_denied denied)) rfl
    case granted =>
      exact goes_runs h (i := .step q p) (rowOp := fun o => o == 3) rfl (by simp [op])
        ((startCmd_step op held).trans (askStep_of_granted granted))
        ⟨job_onRun_self x c.job _ (job_lt held), fun k other => job_onRun_other x c.job k _ other, keeps_onJob x c.job _⟩
    case ends =>
      obtain ⟨state, status, cores⟩ := endJob_job s.fuse x c.job stCancelled (live_iff.1 live)
      exact goes_ends h (i := .endJob q p) (rowOp := fun o => o == 4) rfl (by simp [op])
        ((startCmd_endJob op (live_ne live)).trans (endByHost_of_live live))
        ⟨state, status, cores, fun k other => endJob_other s.fuse x c.job stCancelled k other, keeps_endJob s.fuse x c.job stCancelled⟩
    case release =>
      have held : (x.job c.job).state ≠ 0 := by rw [ended]; decide
      exact goes_ends_onJob h (i := .releaseJob q p) rfl op held ((startCmd_releaseJob op held).trans (releaseJob_of_ended ended))
    case idle =>
      have held : (x.job c.job).state ≠ 0 := by rw [loaded]; decide
      exact goes_ends h (i := .cancelBatch q p) (rowOp := fun o => o == 6) rfl (by simp [op])
        ((startCmd_cancelBatch op held).trans (cancelBatch_of_loaded loaded)) rfl
    case cancel =>
      have held : (x.job c.job).state ≠ 0 := by rw [runs]; decide
      obtain ⟨z, cancelled, ends⟩ := cancelBatch_cancels s.fuse x q c runs
      exact goes_ends h (i := .cancelBatch q p) (rowOp := fun o => o == 6) rfl (by simp [op])
        ((startCmd_cancelBatch op held).trans ends) cancelled
  · obtain ⟨closed, timedOut⟩ := breakChain_of_timeout chains
    refine goes_actOn (c := .chainTimeout q) rfl (by simp [inside]) power ⟨_, rfl, closed, timedOut, ?_⟩
    rw [chains]
  · refine ⟨fun fits => ?_, fun fits => ?_⟩
    · refine goes_actOn (c := .chainPacket q p ups) rfl (by simp [inside]) power
        ⟨chainTaken s.m q p ch, ?_, ?_, ?_, keeps_chainTaken s.m q p ch, ?_⟩
      · rw [queue_chainTaken chains]
      · rw [queue_chainTaken chains]
      · rw [queue_chainTaken chains]
      · exact (takeChained_of chains own takes).trans (if_pos fits)
    · refine goes_actOn (c := .chainPacket q p ups) rfl (by simp [inside]) power ?_
      exact (takeChained_of chains own takes).trans (if_neg (ne_true_of_eq_false fits))

end Sys2Proof.Proofs
end

section
/-!
PROOFS. Overflow between the reels of a pair (R229 to R231): a die that holds no core of a role that takes from a template is
not among the D dies, and takes no overflow of it.
-/
namespace Sys2Proof.Proofs

open Sys2Proof Sys2Proof.Machine Sys2Proof.Laws

/-- A die that no block of a template is dealt to gets nothing from its pair die either (R231). -/
theorem nextEntry_of_not_dealt {m : Module} {g j n : Nat} {t : Template} (template : (m.job j).image.templates[n]? = some t)
    (apart : dieOf g ∉ m.reelDies j t)
    (empty : ∀ r ∈ (m.job j).run.reels, r.tmpl = n → r.die = dieOf g → r.left = []) : m.nextEntry g j n = none := by
  have own : ((m.job j).run.reels.find? (fun r => r.tmpl == n && r.die == dieOf g)).bind (fun r => r.left.head?) = none := by
    rw [Option.bind_eq_none_iff]
    intro r found
    obtain ⟨tmpl, die⟩ := by simpa using List.find?_some found
    rw [empty r (List.mem_of_find?_eq_some found) tmpl die, List.head?_nil]
  simp [Module.nextEntry, own, template, apart]

/-- With no happening and no fence request an instruction meets nothing. -/
theorem meet_none (fu : Fuses) {m : Module} {i : Inst} (free : (m.core i.core).fenceReq = none) : m.meet fu i [] = (m, true) := by
  simp [Module.meet, free]

/-- An instruction without shape words reads none. -/
theorem readShapes_of_none (fu : Fuses) {m : Module} {i : Inst} (none : m.shapeWords i = []) : m.readShapes fu i = m := by
  have reads : inRanges [] = fun _ => false := rfl
  simp [Module.readShapes, Module.hbmReads, Module.narrowReads, none, reads]

namespace PairReel

/-- A TAKE of template 0. -/
def takeWords : Words := [5 * 2 ^ 60 + 2 ^ 56, 0, 0]

/-- A template that overflows and that cores of role 1 alone take from. -/
def template : Template :=
  { roles := 2, overflow := true, nOuter := false, l2 := [0, 1, 2, 3, 4], l1 := [0, 1, 2, 3, 4], pIndex := 0, pbaseEn := false,
    pbaseSlot := 0, pbaseAxis := 0,
    loops := List.replicate 5 { count := { src := 0, slot := 0, plan := 1 }, block := 1, step := 1 } }

/-- A running job of core 0, which has role 0 and stands at the TAKE; die 1 still holds entry 0. -/
def job : Job :=
  { Job.free with
    state := 3, cores := [0],
    image := { Image.empty with roleMap := List.replicate 8 0, templates := [template] },
    prog := { Program.empty with streams := [[takeWords]] },
    run := { Run.empty with active := true, reels := [{ tmpl := 0, die := 0, left := [] }, { tmpl := 0, die := 1, left := [0] }] } }

/-- The module after reset with that job, and core 0 in it. -/
def bench : Module :=
  { Module.reset with
    cores := [{ Core.reset with enabled := true, ready := true, job := some 0 }], jobs := [job] }

/-- Core 0 at the TAKE. -/
def state : State := { State.reset with m := bench }

/-- The TAKE. -/
def inst : Inst := { job := 0, core := 0, index := 0, words := takeWords, entry := none }

theorem take_issues : Issues state 0 (isControl 1) [] inst bench := by
  refine ⟨by decide, by decide, by decide, ⟨0, by decide, by decide⟩, by decide, bench, meet_none _ (by decide), by decide, ?_⟩
  exact (readShapes_of_none _ (by decide)).symm

/-- Core 0 gets no entry, though its own reel is empty, the template overflows and the pair die's reel holds one. -/
theorem nextEntry_none : bench.nextEntry 0 0 0 = none :=
  nextEntry_of_not_dealt (t := template) rfl (by decide) (by decide)

end PairReel

/-- Refutes O3: its last clause says that an empty reel of a template that overflows is served from the pair die's, whichever die asks.
In `PairReel.state` core 0 asks, whose die takes no entry of the template: it is none of the D dies and takes no overflow (R231). -/
theorem not_takeGetsTheLowestEntry : ¬ Obligations.TakeGetsTheLowestEntry := by
  intro holds
  obtain ⟨_, _, reels⟩ := holds PairReel.state 0 [] PairReel.inst PairReel.bench PairReel.take_issues
  have ascending : ∀ d, ((((PairReel.bench.job 0).run.reels.find? (fun r => r.tmpl == 0 && r.die == d)).map
      DieReel.left).getD []).Pairwise (· < ·) := by
    intro d
    cases found : (PairReel.bench.job 0).run.reels.find? (fun r => r.tmpl == 0 && r.die == d) with
    | none => exact .nil
    | some r =>
      have each : ∀ r ∈ (PairReel.bench.job 0).run.reels, r.left.Pairwise (· < ·) := by decide
      exact each r (List.mem_of_find?_eq_some found)
  obtain ⟨_, exhausted⟩ := (reels ascending).2.mp PairReel.nextEntry_none
  exact absurd (exhausted ⟨PairReel.template, rfl, rfl⟩) (by decide)

end Sys2Proof.Proofs
end

section
/-!
PROOFS. The grid of a template (R226): every position below the run-time counts lies in one block of it, and is listed there once.
-/
namespace Sys2Proof.Proofs

open Sys2Proof Sys2Proof.Machine

/-! ### Tuples of ranges -/

section
variable {lo hi : Nat → Nat} {gs : List Nat} {pos p : List Nat}

/-- Two positions of one length that agree at each index are the same. -/
theorem eq_of_getD_eq (length : p.length = pos.length) (agree : ∀ g, g < pos.length → p.getD g 0 = pos.getD g 0) : p = pos :=
  List.ext_getElem length fun g hp hpos => by
    simpa [List.getD_eq_getElem?_getD, hp, hpos] using agree g hpos

theorem getD_set {g h x : Nat} (inside : g < pos.length) : (pos.set g x).getD h 0 = if h = g then x else pos.getD h 0 := by
  simp only [List.getD_eq_getElem?_getD, List.getElem?_set, inside, if_true]
  by_cases same : h = g
  · simp [same]
  · simp [same, Ne.symm same]

/-- The tuples of distinct indices hold every value of their ranges, and elsewhere what was there. -/
theorem mem_tuplesIn (distinct : gs.Nodup) (inside : ∀ g ∈ gs, g < pos.length) :
    p ∈ tuplesIn lo hi gs pos ↔ p.length = pos.length ∧ (∀ g ∈ gs, lo g ≤ p.getD g 0 ∧ p.getD g 0 < hi g) ∧
      ∀ g, g ∉ gs → p.getD g 0 = pos.getD g 0 := by
  induction gs generalizing pos with
  | nil =>
    simp only [tuplesIn, List.mem_singleton, List.not_mem_nil, false_imp_iff, implies_true, true_and, not_false_eq_true, true_imp_iff]
    exact ⟨by rintro rfl; exact ⟨rfl, fun _ => rfl⟩, fun ⟨length, agree⟩ => eq_of_getD_eq length fun g _ => agree g⟩
  | cons g gs ih =>
    obtain ⟨fresh, distinct⟩ := List.nodup_cons.mp distinct
    have here : g < pos.length := inside g (by simp)
    have later : ∀ k, p ∈ tuplesIn lo hi gs (pos.set g (lo g + k)) ↔ p.length = pos.length ∧
        (∀ h ∈ gs, lo h ≤ p.getD h 0 ∧ p.getD h 0 < hi h) ∧
        ∀ h, h ∉ gs → p.getD h 0 = if h = g then lo g + k else pos.getD h 0 := by
      intro k
      rw [ih distinct (by simpa using fun h hh => inside h (by simp [hh])), List.length_set]
      simp only [getD_set here]
    simp only [tuplesIn, List.mem_flatMap, List.mem_range, later, List.forall_mem_cons]
    simp only [List.mem_cons, not_or]
    constructor
    · rintro ⟨k, small, length, ranges, rest⟩
      have at_g : p.getD g 0 = lo g + k := by simpa using rest g fresh
      exact ⟨length, ⟨⟨by omega, by omega⟩, ranges⟩, fun h ⟨other, out⟩ => by simpa [other] using rest h out⟩
    · rintro ⟨length, ⟨⟨least, most⟩, ranges⟩, rest⟩
      refine ⟨p.getD g 0 - lo g, by omega, length, ranges, fun h out => ?_⟩
      split
      · next same => rw [same]; omega
      · next other => exact rest h ⟨other, out⟩

/-- No tuple is listed twice. -/
theorem nodup_tuplesIn (distinct : gs.Nodup) (inside : ∀ g ∈ gs, g < pos.length) : (tuplesIn lo hi gs pos).Nodup := by
  induction gs generalizing pos with
  | nil => exact List.nodup_singleton pos
  | cons g gs ih =>
    obtain ⟨fresh, distinct⟩ := List.nodup_cons.mp distinct
    have here : g < pos.length := inside g (by simp)
    have inside' : ∀ k, ∀ h ∈ gs, h < (pos.set g (lo g + k)).length := by simpa using fun h hh => inside h (by simp [hh])
    refine List.nodup_flatMap.mpr ⟨fun k _ => ih distinct (inside' k), List.nodup_range.imp fun {k l} other p hk hl => other ?_⟩
    have at_g : ∀ k, p ∈ tuplesIn lo hi gs (pos.set g (lo g + k)) → p.getD g 0 = lo g + k := fun k hp => by
      rw [((mem_tuplesIn distinct (inside' k)).mp hp).2.2 g fresh, getD_set here, if_pos rfl]
    exact Nat.add_left_cancel ((at_g k hk).symm.trans (at_g l hl))

end

/-! ### The five loop indices -/

section
variable {lo hi : Nat → Nat} {order : List Nat} (five : order.Perm [0, 1, 2, 3, 4])
include five

theorem mem_order_reverse (g : Nat) : g ∈ order.reverse ↔ g < 5 := by
  rw [List.mem_reverse, five.mem_iff]
  simp
  omega

theorem nodup_order_reverse : order.reverse.Nodup := List.nodup_reverse.mpr (five.nodup_iff.mpr (by decide))

/-- The tuples over the five loop indices, in any order of theirs, are the positions in the ranges. -/
theorem mem_tuplesIn_five {p : List Nat} : p ∈ tuplesIn lo hi order.reverse [0, 0, 0, 0, 0] ↔
    p.length = 5 ∧ ∀ g, g < 5 → lo g ≤ p.getD g 0 ∧ p.getD g 0 < hi g := by
  rw [mem_tuplesIn (pos := [0, 0, 0, 0, 0]) (nodup_order_reverse five) (fun g => (mem_order_reverse five g).mp)]
  simp only [mem_order_reverse five]
  refine and_congr_right fun length => and_iff_left fun g outside => ?_
  have past : 5 ≤ g := Nat.not_lt.mp outside
  rw [List.getD_eq_default _ _ (by rw [length]; exact past), List.getD_eq_default _ _ past]

theorem nodup_tuplesIn_five : (tuplesIn lo hi order.reverse [0, 0, 0, 0, 0]).Nodup :=
  nodup_tuplesIn (nodup_order_reverse five) (fun g => (mem_order_reverse five g).mp)

end

/-! ### Blocks -/

/-- The positions along a loop index in one block of a template; 0 stands for 1. -/
def blockSize (t : Template) (g : Nat) : Nat := max 1 ((t.loops[g]?.map ReelLoop.block).getD 1)

theorem blockSize_pos (t : Template) (g : Nat) : 0 < blockSize t g := Nat.lt_of_lt_of_le Nat.one_pos (Nat.le_max_left 1 _)

/-- The blocks of a grid, in the order of their numbers. -/
def blocksOfGrid (t : Template) (counts : List Nat) : List (List Nat) :=
  tuplesIn (fun _ => 0) (fun g => ceilDiv (counts.getD g 0) (blockSize t g)) t.l1.reverse [0, 0, 0, 0, 0]

/-- The positions of a block, in the order of their entries. -/
def positionsIn (t : Template) (counts : List Nat) (b : List Nat) : List (List Nat) :=
  tuplesIn (fun g => b.getD g 0 * blockSize t g) (fun g => min (counts.getD g 0) ((b.getD g 0 + 1) * blockSize t g)) t.l2.reverse
    [0, 0, 0, 0, 0]

/-- Without a count of 0, the positions of a grid are those of its blocks, block by block. -/
theorem grid_positions {t : Template} {counts : List Nat} (some_all : ∀ g, g < 5 → counts.getD g 0 ≠ 0) :
    (t.grid counts).map Prod.snd = (blocksOfGrid t counts).flatMap (positionsIn t counts) := by
  have run : ((List.range 5).any fun g => counts.getD g 0 == 0) = false := by simpa [List.any_eq_false] using some_all
  have entries : t.grid counts =
      (blocksOfGrid t counts).zipIdx.flatMap (fun b => (positionsIn t counts b.1).map (fun pos => (b.2, pos))) := by
    unfold Template.grid
    exact if_neg (by rw [run]; decide)
  rw [entries, List.map_flatMap]
  simp only [List.map_map, Function.comp_def, List.map_id']
  conv_rhs => rw [← List.zipIdx_map_fst 0 (blocksOfGrid t counts), List.flatMap_map]

/-- A count of 0 leaves no entries. -/
theorem grid_empty {t : Template} {counts : List Nat} {g : Nat} (index : g < 5) (none : counts.getD g 0 = 0) : t.grid counts = [] := by
  have stop : ((List.range 5).any fun g => counts.getD g 0 == 0) = true :=
    List.any_eq_true.mpr ⟨g, List.mem_range.mpr index, beq_iff_eq.mpr none⟩
  unfold Template.grid
  exact if_pos stop

/-- A position below its count lies in the one block that dividing by the block size gives. -/
theorem in_block_iff {x n b size : Nat} (some_size : 0 < size) :
    b * size ≤ x ∧ x < min n ((b + 1) * size) ↔ x < n ∧ x / size = b := by
  rw [Nat.lt_min, Nat.div_eq_iff some_size]
  constructor
  · rintro ⟨least, below, most⟩
    exact ⟨below, least, by rw [Nat.add_mul] at most; omega⟩
  · rintro ⟨below, least, most⟩
    exact ⟨least, below, by rw [Nat.add_mul]; omega⟩

/-- The block of a position below the count is one of the blocks. -/
theorem div_lt_ceilDiv {x n size : Nat} (some_size : 0 < size) (below : x < n) : x / size < ceilDiv n size := by
  rw [ceilDiv, if_neg some_size.ne', ← Nat.add_one_le_iff, ← Nat.add_div_right x some_size]
  exact Nat.div_le_div_right (by omega)

section
variable {t : Template} {counts : List Nat}

theorem mem_positionsIn (l2 : t.l2.Perm [0, 1, 2, 3, 4]) {b p : List Nat} : p ∈ positionsIn t counts b ↔
    p.length = 5 ∧ ∀ g, g < 5 → p.getD g 0 < counts.getD g 0 ∧ p.getD g 0 / blockSize t g = b.getD g 0 := by
  simp only [positionsIn, mem_tuplesIn_five l2, in_block_iff (blockSize_pos t _)]

theorem length_of_mem_blocks (l1 : t.l1.Perm [0, 1, 2, 3, 4]) {b : List Nat} (block : b ∈ blocksOfGrid t counts) : b.length = 5 :=
  ((mem_tuplesIn_five l1).mp block).1

/-- The blocks together hold the positions below the counts. -/
theorem mem_blocks_positions (l1 : t.l1.Perm [0, 1, 2, 3, 4]) (l2 : t.l2.Perm [0, 1, 2, 3, 4]) {p : List Nat} :
    p ∈ (blocksOfGrid t counts).flatMap (positionsIn t counts) ↔ p.length = 5 ∧ ∀ g, g < 5 → p.getD g 0 < counts.getD g 0 := by
  simp only [List.mem_flatMap, mem_positionsIn l2]
  constructor
  · rintro ⟨b, -, length, positions⟩
    exact ⟨length, fun g index => (positions g index).1⟩
  · rintro ⟨length, below⟩
    have quotient : ∀ g, g < 5 → ((List.range 5).map (fun g => p.getD g 0 / blockSize t g)).getD g 0 = p.getD g 0 / blockSize t g :=
      fun g index => by simp [List.getD_eq_getElem?_getD, index]
    refine ⟨(List.range 5).map (fun g => p.getD g 0 / blockSize t g), ?_, length, fun g index => ⟨below g index, (quotient g index).symm⟩⟩
    refine (mem_tuplesIn_five l1).mpr ⟨by simp, fun g index => ⟨Nat.zero_le _, ?_⟩⟩
    rw [quotient g index]
    exact div_lt_ceilDiv (blockSize_pos t g) (below g index)

/-- No position lies in two blocks, and none is listed twice in one. -/
theorem nodup_blocks_positions (l1 : t.l1.Perm [0, 1, 2, 3, 4]) (l2 : t.l2.Perm [0, 1, 2, 3, 4]) :
    ((blocksOfGrid t counts).flatMap (positionsIn t counts)).Nodup := by
  refine List.nodup_flatMap.mpr ⟨fun b _ => nodup_tuplesIn_five l2, (nodup_tuplesIn_five l1).imp_of_mem ?_⟩
  intro b c hb hc other p inb inc
  obtain ⟨-, ofb⟩ := (mem_positionsIn l2).mp inb
  obtain ⟨-, ofc⟩ := (mem_positionsIn l2).mp inc
  have lengths : b.length = c.length := (length_of_mem_blocks l1 hb).trans (length_of_mem_blocks l1 hc).symm
  refine other (eq_of_getD_eq lengths fun g inside => ?_)
  have index : g < 5 := by rwa [length_of_mem_blocks l1 hc] at inside
  exact (ofb g index).2.symm.trans (ofc g index).2

end

/-- Settles O30: without a count of 0 the grid is the positions of its blocks (`grid_positions`), each position in the block that
division gives; with one there is no position. -/
theorem gridsListEveryPositionOnce : Obligations.GridsListEveryPositionOnce := by
  intro t counts l1 l2
  by_cases some_all : ∀ g, g < 5 → counts.getD g 0 ≠ 0
  · rw [grid_positions some_all]
    exact ⟨fun pos => mem_blocks_positions l1 l2, nodup_blocks_positions l1 l2⟩
  · push Not at some_all
    obtain ⟨g, index, none⟩ := some_all
    rw [grid_empty index none]
    refine ⟨fun pos => ⟨fun listed => absurd listed List.not_mem_nil, fun ⟨_, below⟩ => ?_⟩, List.nodup_nil⟩
    exact absurd (below g index) (by omega)

end Sys2Proof.Proofs
end

section
/-!
PROOFS. What a movement lays out and stores (R36, R102, R222, R377): its nibbles are one byte each, its items are stored at their own
addresses of their operand's core, and no other core changes.
-/
namespace Sys2Proof.Proofs

open Sys2Proof Sys2Proof.Machine Sys2Proof.Laws

/-! ### Nibbles (R36) -/

/-- An item that is a nibble names one byte. -/
def NibbleInByte (x : MoveItem) : Prop := x.nib.isSome = true → x.data.length = 1

theorem nibbleInByte_of_bytes {x : MoveItem} (bytes : x.nib = none) : NibbleInByte x := by simp [NibbleInByte, bytes]

theorem nibbleInByte_codeItem (dst : Operand) (per sb : Nat) (x : MoveElem) (code : Nat) : NibbleInByte (codeItem dst per sb x code) := by
  by_cases nibble : dst.fmt.is4bit = true <;> simp [NibbleInByte, codeItem, nibble]

/-- The codes of a movement, followed by scale bytes. -/
theorem nibbleInByte_codes_scales {β : Type} {dst : Operand} {per sb : Nat} {es : List MoveElem} {code : MoveElem → Nat} {bs : List β}
    {scale : β → MoveItem} (bytes : ∀ b, (scale b).nib = none) {x : MoveItem}
    (hx : x ∈ es.map (fun z => codeItem dst per sb z (code z)) ++ bs.map scale) : NibbleInByte x := by
  obtain hx | hx := List.mem_append.mp hx
  · obtain ⟨z, -, rfl⟩ := List.mem_map.mp hx
    exact nibbleInByte_codeItem _ _ _ _ _
  · obtain ⟨b, -, rfl⟩ := List.mem_map.mp hx
    exact nibbleInByte_of_bytes (bytes b)

theorem nibbleInByte_dmaItems {m : Module} {i : Inst} {src dst : Operand} {len : Nat} {x : MoveItem}
    (hx : x ∈ (m.dmaItems i src dst len).1) : NibbleInByte x := by
  unfold Module.dmaItems at hx
  dsimp only at hx
  split at hx
  · exact nibbleInByte_codes_scales (fun b => rfl) hx
  · refine nibbleInByte_codes_scales (fun b => ?_) hx
    split <;> rfl

theorem bytes_copyItems {m : Module} {src dst : Operand} {a b p n : Nat} {x : MoveItem} (hx : x ∈ m.copyItems src dst a b p n) :
    x.nib = none := by
  obtain ⟨k, -, rfl⟩ := List.mem_map.mp hx
  rfl

/-- Units hold the items that they are made of. -/
theorem mem_unitsFrom {src dst : Operand} {n : Nat} {items : List MoveItem} {x : MoveItem}
    (hx : x ∈ (unitsFrom src dst n items).flatMap MoveUnit.items) : x ∈ items := by
  obtain ⟨u, hu, hx⟩ := List.mem_flatMap.mp hx
  obtain ⟨k, -, rfl⟩ := List.mem_map.mp hu
  exact (List.mem_filter.mp hx).1

theorem bytes_slotPlan {m : Module} {i : Inst} {src : Option Operand} {dst : Operand} {n : Nat} {x : MoveItem}
    (hx : x ∈ (m.slotPlan i src dst n).units.flatMap MoveUnit.items) : x.nib = none := by
  have item := mem_unitsFrom hx
  cases src with
  | some s => exact bytes_copyItems item
  | none =>
    obtain ⟨k, -, rfl⟩ := List.mem_map.mp item
    rfl

theorem bytes_detectedPlan {m : Module} {src dst : Operand} {so to_ len : Nat} {x : MoveItem}
    (hx : x ∈ (m.detectedPlan src dst so to_ len).units.flatMap MoveUnit.items) : x.nib = none := by
  obtain ⟨u, hu, hx⟩ := List.mem_flatMap.mp hx
  obtain ⟨v, hv, rfl⟩ := List.mem_map.mp hu
  have item := mem_unitsFrom (List.mem_flatMap.mpr ⟨v.1, List.fst_mem_of_mem_zipIdx hv, hx⟩)
  obtain ⟨t, -, piece⟩ := List.mem_flatMap.mp item
  obtain piece | piece := List.mem_append.mp piece
  · obtain ⟨y, hy, rfl⟩ := List.mem_map.mp piece
    exact (bytes_copyItems hy : y.nib = none)
  · exact bytes_copyItems piece

/-- Every nibble that a movement writes is one byte. -/
theorem nibbleInByte_movePlan {m : Module} {i : Inst} {dst : Operand} {len : Nat} {x : MoveItem}
    (hx : x ∈ (m.movePlan i dst len).units.flatMap MoveUnit.items) : NibbleInByte x := by
  unfold Module.movePlan at hx
  dsimp only at hx
  split at hx
  · exact nibbleInByte_of_bytes (bytes_slotPlan hx)
  split at hx
  · exact absurd hx List.not_mem_nil
  split at hx
  · exact nibbleInByte_of_bytes (bytes_detectedPlan hx)
  split at hx
  · exact nibbleInByte_of_bytes (bytes_slotPlan hx)
  · exact nibbleInByte_dmaItems (mem_unitsFrom hx)

/-! ### Items stored -/

section
variable (m : Module) {h : Nat}

/-- Bytes stored into a space as core `g` sees it change no other core. -/
theorem core_storeAt_other (j sp a : Nat) (bs : List Byte) (bad : Bool) {g : Nat} (other : h ≠ g) :
    (m.storeAt j g sp a bs bad).core h = m.core h := by
  unfold Module.storeAt
  split
  · exact core_onCore_other _ _ _ _ other
  · split <;> rfl

theorem core_cleanCovered_other (j sp : Nat) (as bs : List Nat) {g : Nat} (other : h ≠ g) :
    (m.cleanCovered j g sp as bs).core h = m.core h := by
  unfold Module.cleanCovered
  dsimp only
  split
  · exact core_onCore_other _ _ _ _ other
  · split <;> rfl

variable {o : Operand} (other : h ≠ o.core)
include other

theorem core_putItem_other (x : MoveItem) : (m.putItem o x).core h = m.core h := by
  unfold Module.putItem Module.sumItem
  dsimp only
  repeat' split
  all_goals simp only [core_of_bump, core_storeAt_other _ _ _ _ _ _ other]

theorem core_cleanItems_other (xs : List MoveItem) : (m.cleanItems o xs).core h = m.core h := by
  unfold Module.cleanItems
  split
  · rfl
  · exact core_cleanCovered_other _ _ _ _ _ other

end

theorem data_cleanItems (m : Module) (o : Operand) (xs : List MoveItem) : Data dataParts m (m.cleanItems o xs) := by
  unfold Module.cleanItems
  split
  · exact data_refl ..
  · exact data_cleanCovered ..

/-- Items stored under their buffer's combine mode, and the poison of what they wrote whole cleared. -/
def itemsStored (m : Module) (o : Operand) (xs : List MoveItem) : Module := (xs.foldl (fun m x => m.putItem o x) m).cleanItems o xs

theorem data_itemsStored (m : Module) (o : Operand) (xs : List MoveItem) : Data outParts m (itemsStored m o xs) :=
  data_trans (data_foldl xs _ (fun m x => data_putItem m o x) m) (data_up (data_cleanItems ..))

theorem core_itemsStored_other (m : Module) {o : Operand} (xs : List MoveItem) {h : Nat} (other : h ≠ o.core) :
    (itemsStored m o xs).core h = m.core h := by
  rw [itemsStored, core_cleanItems_other _ other]
  exact foldl_keep (fun m => m.core h) _ _ (fun m x => core_putItem_other m other x) m

section
variable {o : Operand} (stores : o.buf.combine ≠ 2)
include stores

/-- An item of a buffer that does not sum touches its own addresses. -/
theorem touch_putItem (m : Module) {x : MoveItem} (nibble : NibbleInByte x) {as : List Nat} (addrs : ∀ a ∈ itemAddrs [x], a ∈ as) :
    Touch m (m.putItem o x) o as := by
  have own : ∀ k, k < x.data.length → x.dst + k ∈ as := fun k hk => addrs _ (by simp [itemAddrs, hk, Nat.add_comm])
  unfold Module.putItem
  split
  · rw [if_neg stores]
    exact touch_storeAt m o _ _ _ as own
  · next k nib =>
    refine touch_storeAt m o _ _ _ as (fun k hk => own k ?_)
    rwa [nibble (by simp [nib]), ← leBytes_length 1]

theorem touch_cleanItems (m : Module) (xs : List MoveItem) (as : List Nat) : Touch m (m.cleanItems o xs) o as := by
  rw [Module.cleanItems, if_neg stores]
  exact touch_cleanCovered ..

/-- An item of bytes stands in the scratchpad where no later item lies. -/
theorem sp_itemsStored {m : Module} (inside : o.core < m.cores.length) (scratchpad : o.buf.space = 0) {before after : List MoveItem}
    {x : MoveItem} (bytes : x.nib = none) (nibbles : ∀ y ∈ after, NibbleInByte y)
    (apart : ∀ y ∈ after, x.dst + x.data.length ≤ y.dst ∨ y.dst + y.data.length ≤ x.dst) {k : Nat} (hk : k < x.data.length) :
    ((itemsStored m o (before ++ x :: after)).core o.core).mem.sp.get (x.dst + k) = x.data.getD k 0 := by
  rw [itemsStored, List.foldl_append, List.foldl_cons]
  generalize stood : before.foldl _ m = m1
  have inside1 : o.core < m1.cores.length := by
    rw [← stood, (data_foldl before _ (fun m x => data_putItem m o x) m).len]
    exact inside
  have here : ((m1.putItem o x).core o.core).mem.sp.get (x.dst + k) = x.data.getD k 0 := by
    rw [Module.putItem, bytes]
    dsimp only
    rw [if_neg stores, Module.storeAt, if_pos scratchpad, core_onCore_self _ _ _ inside1, get_write,
      if_pos ⟨Nat.le_add_right _ _, Nat.add_lt_add_left hk _⟩, Nat.add_sub_cancel_left]
  have later := touch_foldl o (itemAddrs after) after (fun m y => m.putItem o y)
    (fun m y hy => touch_putItem stores m (nibbles y hy) fun a ha => by
      simp only [itemAddrs, List.flatMap_singleton] at ha ⊢
      exact List.mem_flatMap.mpr ⟨y, hy, ha⟩) (m1.putItem o x)
  have missed : x.dst + k ∉ itemAddrs after := by
    simp only [itemAddrs, List.mem_flatMap, List.mem_map, List.mem_range, not_exists, not_and]
    intro y hy l hl
    have := apart y hy
    omega
  obtain ⟨⟨sp, -, -⟩, -⟩ := touch_trans later (touch_cleanItems stores _ (before ++ x :: after) _)
  rw [← here]
  exact sp o.core _ fun ⟨_, _, listed⟩ => missed listed

end

end Sys2Proof.Proofs
end

section
/-!
PROOFS. Multicast fills that form (R232, R234): the issuer's one read, then the copies, each of which changes of the cores its own
alone.
-/
namespace Sys2Proof.Proofs

open Sys2Proof Sys2Proof.Machine Sys2Proof.Laws

/-- What a multicast that forms may write. -/
def castParts : List Part := .cores :: .clusters :: .jobs :: hbmReading

/-- OD 0x3220:04, the multicasts completed. -/
def castKey : Nat := odKey 0x3220 4

theorem odGet_bump_other (m : Module) {k j : Nat} (n : Nat) (other : j ≠ k) : (m.bump k n).odGet j = m.odGet j := by
  rw [odGet_bump, if_neg other]

/-! ### The issuer's read -/

section
variable (fu : Fuses) (m : Module)

theorem keeps_sourceReads (src : Option Operand) (xs : List MoveItem) : KeepsBut hbmReading m (m.sourceReads fu src xs) :=
  keeps_trans (keeps_hbmReads fu m _ _) (keeps_narrowReads _ _)

theorem odGet_sourceReads (src : Option Operand) (xs : List MoveItem) : (m.sourceReads fu src xs).odGet castKey = m.odGet castKey := by
  have narrow : ∀ (m : Module) n, (m.narrowReads n).odGet castKey = m.odGet castKey := fun m n => by
    unfold Module.narrowReads
    split
    · rfl
    · exact odGet_bump_other m n (by decide)
  rw [Module.sourceReads, narrow, odGet_hbmReads fu m (by decide)]

theorem odGet_wideStall (g : Nat) : (m.wideStall g).odGet castKey = m.odGet castKey := by
  unfold Module.wideStall Module.stallCore
  split
  · exact odGet_bump_other m 1 (by decide)
  · rw [odGet_bump_other _ _ (by decide)]
    exact odGet_bump_other m 1 (by decide)

theorem odGet_clusterWide (k : Nat) : (m.clusterWide k).odGet castKey = m.odGet castKey := by
  unfold Module.clusterWide Module.stallCluster
  dsimp only
  split
  · exact odGet_bump_other m 1 (by decide)
  · have cores : ∀ (l : List Nat) (f : Core → Core) (n : Module),
        (l.foldl (fun (m : Module) g => m.onCore g f) n).odGet castKey = n.odGet castKey :=
      fun l f n => foldl_keep (fun n : Module => n.odGet castKey) l (fun (m : Module) g => m.onCore g f) (fun _ _ => rfl) n
    rw [cores, odGet_bump_other _ _ (by decide)]
    exact odGet_bump_other m 1 (by decide)

variable (i : Inst) (src : Option Operand) (us : List MoveUnit)

theorem odGet_remapMoved : (m.remapMoved i src us).odGet castKey = m.odGet castKey := by
  unfold Module.remapMoved
  split
  · rfl
  split
  · exact foldl_keep (fun n : Module => n.odGet castKey) _ _ (fun m _ => odGet_clusterWide m _) m
  · exact foldl_keep (fun n : Module => n.odGet castKey) _ _ (fun m _ => odGet_wideStall m _) m

theorem keeps_remapMoved : KeepsBut [.cores, .clusters, .od] m (m.remapMoved i src us) := by
  unfold Module.remapMoved
  split
  · exact keeps_refl _ m
  · exact keeps_ite (keeps_clusterReads m _ _ _) (keeps_mono (keeps_remapReads m _ _) (by decide))

/-- The rows in remap that a movement reads show in a core as stalled cycles alone. -/
theorem core_remapMoved (h : Nat) :
    ∃ a b, (m.remapMoved i src us).core h = { m.core h with stalls := a, clusterStalls := b } := by
  unfold Module.remapMoved
  split
  · exact ⟨_, _, rfl⟩
  split
  · obtain ⟨c, stalled⟩ := core_clusterReads m i.job i.core h _
    exact ⟨_, c, stalled⟩
  · by_cases own : h = i.core
    · obtain ⟨c, stalled⟩ := core_remapReads_self m i.core ((us.flatMap MoveUnit.reads).eraseDups)
      exact ⟨c, _, by rw [own]; exact stalled⟩
    · exact ⟨_, _, core_remapReads_other m i.core _ own⟩

/-- The issuer's read leaves of the cores all but stalled cycles. -/
theorem core_castReads (h : Nat) : ∃ a b, (m.castReads fu i).core h = { m.core h with stalls := a, clusterStalls := b } := by
  unfold Module.castReads
  split
  · exact ⟨_, _, rfl⟩
  · next d _ =>
    have cores := keeps_sourceReads fu m (m.operand i (hiOf i.words 2) false 0) (d.2.units.flatMap MoveUnit.items) .cores (by decide)
    obtain ⟨a, b, stalled⟩ := core_remapMoved (m.sourceReads fu (m.operand i (hiOf i.words 2) false 0)
      (d.2.units.flatMap MoveUnit.items)) i (m.operand i (hiOf i.words 2) false 0) d.2.units h
    exact ⟨a, b, by rw [stalled, core_congr cores]⟩

theorem odGet_castReads : (m.castReads fu i).odGet castKey = m.odGet castKey := by
  unfold Module.castReads
  split
  · rfl
  · exact (odGet_remapMoved _ _ _ _).trans (odGet_sourceReads fu m _ _)

theorem keeps_castReads : KeepsBut castParts m (m.castReads fu i) := by
  unfold Module.castReads
  split
  · exact keeps_refl _ m
  · exact keeps_trans (keeps_mono (keeps_sourceReads fu m _ _) (by decide)) (keeps_mono (keeps_remapMoved _ _ _ _) (by decide))

end

/-! ### One copy -/

/-- A core's movement at the head of channel `ch`, written as a copy of a multicast that core `g` issued. -/
def headWritten (g ch pos : Nat) (slots : List Nat) (c : Core) : Core :=
  { c with channels := modifyAt (fun l => modifyAt (fun w => { w with
      wait := none, written := true, pos := pos, cast := some (g, slots) }) l 0) c.channels ch }

/-- A core whose channel has a movement is one of the module's. -/
theorem lt_of_head {m : Module} {h ch : Nat} {w : Move} (head : (m.core h).head ch = some w) : h < m.cores.length := by
  by_contra absent
  rw [core_of_absent (Nat.not_lt.mp absent), Core.head, Core.reset, List.getD_eq_getElem?_getD, List.getElem?_replicate] at head
  split at head <;> exact absurd head (by simp)

/-- The movement is at the head still. -/
theorem head_headWritten {c : Core} {ch : Nat} {w : Move} (head : c.head ch = some w) (g pos : Nat) (slots : List Nat) :
    (headWritten g ch pos slots c).head ch =
      some { w with wait := none, written := true, pos := pos, cast := some (g, slots) } := by
  have inside : ch < c.channels.length := by
    by_contra absent
    rw [Core.head, List.getD_eq_default _ _ (Nat.not_lt.mp absent)] at head
    exact absurd head (by simp)
  obtain ⟨vs, channel⟩ := List.head?_eq_some_iff.mp head
  rw [Core.head, headWritten, modifyAt_getD, if_pos ⟨rfl, inside⟩, channel]
  rfl

theorem filled_channels (ss : List Nat) (c : Core) : (filled ss c).channels = c.channels := by
  unfold filled
  split <;> rfl

/-- The destination operand of a copy is reached by its core. -/
theorem core_castDst {m : Module} {i : Inst} {h : Nat} {d : Operand × MovePlan} (dst : m.castDst i h = some d) : d.1.core = h := by
  obtain ⟨o, operand, rfl⟩ := Option.map_eq_some_iff.mp dst
  simp only [Module.operand] at operand
  split at operand
  · cases operand
  · split at operand
    · cases operand
    · cases operand
      rfl

theorem nibbleInByte_castDst {m : Module} {i : Inst} {h : Nat} {d : Operand × MovePlan} (dst : m.castDst i h = some d) :
    ∀ x ∈ d.2.units.flatMap MoveUnit.items, NibbleInByte x := by
  obtain ⟨o, -, rfl⟩ := Option.map_eq_some_iff.mp dst
  exact fun x hx => nibbleInByte_movePlan hx

section
variable (m : Module) (dst : Operand) (p : MovePlan)

theorem countMove_cores : (m.countMove dst p).cores = m.cores := by
  unfold Module.countMove Module.foldDesc
  split <;> rfl

theorem keeps_countMove : KeepsBut castParts m (m.countMove dst p) := by
  unfold Module.countMove Module.foldDesc
  split <;> simp [castParts, hbmReading, keeps_refl]

theorem odGet_countMove : (m.countMove dst p).odGet castKey = m.odGet castKey := by
  rw [Module.countMove, odGet_bump_other _ _ (by decide), odGet_bump_other _ _ (by decide), odGet_bump_other _ _ (by decide)]
  unfold Module.foldDesc
  split <;> rfl

end

theorem odGet_putItem (m : Module) (o : Operand) (x : MoveItem) : (m.putItem o x).odGet castKey = m.odGet castKey := by
  have store : ∀ (m : Module) (j g sp a : Nat) bs bad, (m.storeAt j g sp a bs bad).odGet castKey = m.odGet castKey :=
    fun m j g sp a bs bad => odGet_congr ((data_storeAt m j g sp a bs bad).keeps .od (by decide)) castKey
  unfold Module.putItem Module.sumItem
  dsimp only
  repeat' split
  all_goals try rw [odGet_bump_other _ _ (by decide)]
  all_goals exact store ..

theorem odGet_itemsStored (m : Module) (o : Operand) (xs : List MoveItem) : (itemsStored m o xs).odGet castKey = m.odGet castKey :=
  (odGet_congr ((data_cleanItems _ o xs).keeps .od (by decide)) castKey).trans
    (foldl_keep (fun n : Module => n.odGet castKey) _ _ (fun m x => odGet_putItem m o x) m)

section
variable {i : Inst} {g ch : Nat} {m0 : Module} (m : Module)

/-- A copy in its parts: its items stored, its slots FULL, its movement written, and its counts. -/
theorem castCopy_of {h : Nat} {d : Operand × MovePlan} (dst : m0.castDst i h = some d) :
    Module.castCopy i g ch m0 m h =
      (((((itemsStored m d.1 (d.2.units.flatMap MoveUnit.items)).setFull h d.2.slots).onCore h
        (headWritten g ch d.2.units.length d.2.slots)).countBytes d.2.units).countMove d.1 d.2) := by
  rw [Module.castCopy, dst]
  rfl

/-- The core of a copy: its data, its slots and its movement's head alone have changed. -/
theorem core_castCopy_self {h : Nat} {d : Operand × MovePlan} (dst : m0.castDst i h = some d) (inside : h < m.cores.length) :
    (Module.castCopy i g ch m0 m h).core h = headWritten g ch d.2.units.length d.2.slots
      (filled d.2.slots ((itemsStored m d.1 (d.2.units.flatMap MoveUnit.items)).core h)) := by
  have stored := (data_itemsStored m d.1 (d.2.units.flatMap MoveUnit.items)).len
  rw [castCopy_of m dst, core_congr (countMove_cores _ _ _), Module.countBytes, core_of_bump,
    core_onCore_self _ _ _ (by rwa [setFull_length, stored])]
  exact congrArg _ (core_onCore_self _ h _ (by rwa [stored]))

theorem core_castCopy_other {h k : Nat} (other : k ≠ h) : (Module.castCopy i g ch m0 m h).core k = m.core k := by
  cases dst : m0.castDst i h with
  | none => rw [Module.castCopy, dst]
  | some d =>
    rw [castCopy_of m dst, core_congr (countMove_cores _ _ _), Module.countBytes, core_of_bump, core_onCore_other _ _ _ _ other,
      Module.setFull, core_onCore_other _ _ _ _ other, core_itemsStored_other m _ (by rwa [core_castDst dst])]

theorem odGet_castCopy (h : Nat) : (Module.castCopy i g ch m0 m h).odGet castKey = m.odGet castKey := by
  cases dst : m0.castDst i h with
  | none => rw [Module.castCopy, dst]
  | some d =>
    rw [castCopy_of m dst, odGet_countMove, Module.countBytes, odGet_bump_other _ _ (by decide)]
    exact odGet_itemsStored m _ _

theorem keeps_castCopy (h : Nat) : KeepsBut castParts m (Module.castCopy i g ch m0 m h) := by
  cases dst : m0.castDst i h with
  | none => rw [Module.castCopy, dst]; exact keeps_refl _ m
  | some d =>
    rw [castCopy_of m dst]
    refine keeps_trans ?_ (keeps_countMove _ _ _)
    have stored : KeepsBut castParts m (itemsStored m d.1 (d.2.units.flatMap MoveUnit.items)) :=
      keeps_mono (data_itemsStored ..).keeps (by decide)
    simpa [Module.countBytes, castParts, hbmReading] using stored

section
variable {m} {h : Nat} {d : Operand × MovePlan} (dst : m0.castDst i h = some d) {w : Move} (first : (m.core h).head ch = some w)
include dst first

/-- The copy's movement has been written, as a copy that core `g` issued. -/
theorem head_castCopy : ∃ w, ((Module.castCopy i g ch m0 m h).core h).head ch = some w ∧ w.wait = none ∧ w.written = true ∧
    w.cast = some (g, d.2.slots) := by
  have shells := (data_itemsStored m d.1 (d.2.units.flatMap MoveUnit.items)).core h
  rw [core_castCopy_self m dst (lt_of_head first)]
  refine ⟨_, head_headWritten (w := w) ?_ .., rfl, rfl, rfl⟩
  rw [Core.head, filled_channels, shell_channels shells]
  exact first

/-- Its destination slots are FULL where the core checks tags. -/
theorem full_castCopy (tags : (m.core h).bypass = false) {k : Nat} (slot : k ∈ d.2.slots) :
    k ∈ ((Module.castCopy i g ch m0 m h).core h).mem.full := by
  have shells := (data_itemsStored m d.1 (d.2.units.flatMap MoveUnit.items)).core h
  have checks : ((itemsStored m d.1 (d.2.units.flatMap MoveUnit.items)).core h).bypass = false := (congrArg Core.bypass shells).trans tags
  rw [core_castCopy_self m dst (lt_of_head first)]
  exact mem_full_filled checks slot

/-- Its data stand in the scratchpad where no later item lies. -/
theorem sp_castCopy (scratchpad : d.1.buf.space = 0) (stores : d.1.buf.combine ≠ 2) {before after : List MoveItem} {x : MoveItem}
    (items : d.2.units.flatMap MoveUnit.items = before ++ x :: after) (bytes : x.nib = none)
    (apart : ∀ y ∈ after, x.dst + x.data.length ≤ y.dst ∨ y.dst + y.data.length ≤ x.dst) {k : Nat} (hk : k < x.data.length) :
    ((Module.castCopy i g ch m0 m h).core h).mem.sp.get (x.dst + k) = x.data.getD k 0 := by
  have nibbles : ∀ y ∈ after, NibbleInByte y := fun y later => nibbleInByte_castDst dst y (by rw [items]; simp [later])
  have tagged : ((Module.castCopy i g ch m0 m h).core h).mem.sp = ((itemsStored m d.1 (before ++ x :: after)).core h).mem.sp := by
    rw [core_castCopy_self m dst (lt_of_head first), items]
    exact sp_filled d.2.slots _
  obtain rfl := core_castDst dst
  rw [tagged]
  exact sp_itemsStored stores (lt_of_head first) scratchpad bytes nibbles apart hk

end

variable (set : List Nat)

/-- A core of the set is changed by its own copy alone, and is until then as the issuer's read left it. -/
theorem core_castCopies {h : Nat} (once : set.Nodup) (mem : h ∈ set) : ∃ x : Module, x.core h = m.core h ∧
    (set.foldl (Module.castCopy i g ch m0) m).core h = (Module.castCopy i g ch m0 x h).core h := by
  obtain ⟨before, after, rfl⟩ := List.append_of_mem mem
  obtain ⟨-, notAfter, notBefore⟩ := List.nodup_append.mp once
  have others : ∀ (m : Module) (a : Nat), a ≠ h → (Module.castCopy i g ch m0 m a).core h = m.core h :=
    fun m a ne => core_castCopy_other m ne.symm
  refine ⟨before.foldl (Module.castCopy i g ch m0) m, ?_, ?_⟩
  · exact foldl_core_of_notMem before _ others (fun inBefore => notBefore h inBefore h (by simp) rfl) m
  · rw [List.foldl_append, List.foldl_cons]
    exact foldl_core_of_notMem after _ others (List.nodup_cons.mp notAfter).1 _

end

/-! ### The multicast as a whole -/

section
variable {m : Module} {g ch : Nat} {v : Move}

theorem castSet_nodup (m : Module) (i : Inst) : (m.castSet i).Nodup := List.nodup_range.filter _

/-- No destination slot is FULL where every core's are EMPTY. -/
theorem castFull_of_empty {i : Inst} (empty : ∀ h ∈ m.castSet i, ∃ d, m.castDst i h = some d ∧ ∀ k ∈ d.2.slots, k ∉ (m.core h).mem.full) :
    m.castFull i = none := by
  refine List.findSome?_eq_none_iff.mpr fun h mem => ?_
  obtain ⟨d, dst, slots⟩ := empty h mem
  rw [dst, Option.bind_some, List.find?_eq_none]
  simpa using slots

/-- A multicast that every core has reached and whose destination slots are EMPTY forms (R232). -/
theorem castInstance_of (fu : Fuses) (issuer : (m.castSet v.inst).head? = some g)
    (reached : ∀ h ∈ m.castSet v.inst, ∃ w, (m.core h).head ch = some w ∧ w.inst.job = v.inst.job ∧ w.inst.index = v.inst.index ∧
      w.wait = some .multicast)
    (empty : ∀ h ∈ m.castSet v.inst, ∃ d, m.castDst v.inst h = some d ∧ ∀ k ∈ d.2.slots, k ∉ (m.core h).mem.full) :
    m.castInstance fu g ch v =
      ((m.castSet v.inst).foldl (Module.castCopy v.inst g ch m) (m.castReads fu v.inst)).bump castKey 1 := by
  have heads : ((m.castSet v.inst).all fun h => ((m.core h).head ch).any fun w =>
      w.inst.job == v.inst.job && w.inst.index == v.inst.index && w.wait == some .multicast) = true := by
    refine List.all_eq_true.mpr fun h mem => ?_
    obtain ⟨w, head, job, index, wait⟩ := reached h mem
    simp [head, job, index, wait]
  have dsts : ((m.castSet v.inst).all fun h => (m.castDst v.inst h).isSome) = true := by
    refine List.all_eq_true.mpr fun h mem => ?_
    obtain ⟨d, dst, -⟩ := empty h mem
    rw [dst, Option.isSome_some]
  unfold Module.castInstance
  dsimp only
  rw [if_pos]
  · rfl
  · rw [issuer, heads, dsts, castFull_of_empty empty]
    simp

/-- The command at the head of a channel that waits for its multicast to form. -/
theorem goes_multicastInstance {s : State} {P : Module → Prop} (core : g < 384) (channel : ch < 8) (power : s.m.powered = true)
    (head : (s.m.core g).head ch = some v) (waits : v.wait = some .multicast) (runs : (s.m.job v.inst.job).state = 3)
    (forms : P (s.m.castInstance s.fuse g ch v)) : Goes s (.multicastInstance g ch) P := by
  refine goes_actOn rfl (by simp [core, channel]) power ?_
  rw [head]
  dsimp only
  rwa [if_pos (by simp [waits, runs])]

end

/-- Settles O16: the multicast forms (`castInstance_of`), and each core of the set is changed by its own copy alone (`core_castCopies`),
which writes its movement (`head_castCopy`), fills its slots (`full_castCopy`) and stores its items (`sp_castCopy`). -/
theorem multicastWritesEveryDestination : Obligations.MulticastWritesEveryDestination := by
  intro s g ch v core channel power head waits runs issuer reached empty
  refine goes_multicastInstance core channel power head waits runs ?_
  rw [castInstance_of s.fuse issuer reached empty]
  refine ⟨fun h mem d dst => ?_, ?_, ?_⟩
  · obtain ⟨x, same, copied⟩ := core_castCopies (i := v.inst) (g := g) (ch := ch) (m0 := s.m) (s.m.castReads s.fuse v.inst) _
      (castSet_nodup s.m v.inst) mem
    obtain ⟨a, b, stalled⟩ := core_castReads s.fuse s.m v.inst h
    obtain ⟨w, first, -⟩ := reached h mem
    have first : (x.core h).head ch = some w := by rw [same, stalled]; exact first
    rw [core_of_bump, copied]
    refine ⟨head_castCopy dst first, fun tags k slot => full_castCopy dst first ?_ slot,
      fun scratchpad stores _ before y after items bytes apart k hk => sp_castCopy dst first scratchpad stores items bytes apart hk⟩
    rw [same, stalled]
    exact tags
  · have copies := foldl_keep (fun n : Module => n.odGet castKey) (s.m.castSet v.inst) _
      (fun m h => odGet_castCopy (i := v.inst) (g := g) (ch := ch) (m0 := s.m) m h) (s.m.castReads s.fuse v.inst)
    rw [show odKey 0x3220 4 = castKey from rfl, odGet_bump, if_pos rfl, copies, odGet_castReads]
  · rw [kb_bump _ _ (by decide)]
    exact keeps_trans (keeps_castReads s.fuse s.m v.inst) (kb_foldl _ _ (fun m h => keeps_castCopy m h) _)

end Sys2Proof.Proofs
end

section
/-!
PROOFS. What a host command comes to once its row has taken it, and the commands on stored sets (R256): STAGE, ACTIVATE, DEACTIVATE, SAVE
and RELEASE_SLOT.
-/
namespace Sys2Proof.Proofs

open Sys2Proof Sys2Proof.Machine Sys2Proof.Laws

/-! ### What a command comes to -/

section
variable {s : State} {q : Nat} {p : Packet} {ups : List FlashUpset} {c : Cmd} {x y : Module}

/-- A command that begins is started by the row of its opcode, and what that leaves is what the row leaves (R421 to R424). -/
theorem goes_command (h : Begins s q p ups c x) {i : Instr} {n : Nat} {P : Module → Prop} (row : exec i s = takeRow n q p ups s)
    (op : c.opcode = n) (starts : x.startCmd s.fuse q c = y) (leaves : P (thenStart s.fuse x y)) : Goes s i P :=
  goes_take h (rowOp := fun o => o == n) row (by simp [op]) (starts ▸ leaves)

variable {fu : Fuses}

theorem ends_answer {st w4 w5 : Nat} {P : Module → Prop} {z : Module} (holds : P z) :
    Ends fu x q c st w4 w5 P (thenStart fu x (z.answer q c st w4 w5)) := ⟨z, holds, rfl⟩

theorem runsOn_started {P : Module → Prop} {z : Module} (holds : P z) : RunsOn fu x q c P (thenStart fu x (z.started q c)) :=
  ⟨z, holds, rfl⟩

/-- A variant command that fails leaves its event and its status alone (R256). -/
theorem ends_variantFails (slot set st : Nat) :
    Ends fu x q c st 0 0 (KeepsBut reporting x) (thenStart fu x (x.variantFails fu q c slot set st)) :=
  ends_answer (keeps_still (still_event fu x _ _))

/-- So does a SNAPSHOT that fails (R258). -/
theorem ends_snapFailed (st : Nat) : Ends fu x q c st 0 0 (KeepsBut reporting x) (thenStart fu x (x.snapFailed fu q c st)) :=
  ends_answer (keeps_still (still_event fu x _ _))

end

/-! ### The function that a variant command starts -/

section
variable {fu : Fuses} {x : Module} {q : Nat} {c : Cmd}

theorem startCmd_stage (op : c.opcode = 0x10) : x.startCmd fu q c = x.stageSet fu q c := by
  rw [Module.startCmd, start_live x c (.inr (.inr (.inl (by rw [op]; rfl)))), op]
  rfl

theorem startCmd_activate (op : c.opcode = 0x11) : x.startCmd fu q c = x.turnSlots fu q c 1 1 := by
  rw [Module.startCmd, start_live x c (.inr (.inr (.inl (by rw [op]; rfl)))), op]
  rfl

theorem startCmd_deactivate (op : c.opcode = 0x12) : x.startCmd fu q c = x.turnSlots fu q c 2 2 := by
  rw [Module.startCmd, start_live x c (.inr (.inr (.inl (by rw [op]; rfl)))), op]
  rfl

theorem startCmd_save (op : c.opcode = 0x13) : x.startCmd fu q c = x.saveSet fu q c := by
  rw [Module.startCmd, start_live x c (.inr (.inr (.inl (by rw [op]; rfl)))), op]
  rfl

theorem startCmd_releaseSlot (op : c.opcode = 0x14) : x.startCmd fu q c = x.freeSlot fu q c := by
  rw [Module.startCmd, start_live x c (.inr (.inr (.inl (by rw [op]; rfl)))), op]
  rfl

end

/-! ### STAGE -/

/-- The stored set `o` with the optimizer state that its length says it holds, in a slot of job `j`. -/
def withOwnState (x : Module) (j : Nat) (o : Obj) : Obj := { o with hasState := o.len != (x.job j).setSizes.1 }

/-- The module with the stored set `o` taken into the slot that a STAGE names, and the slot STAGED. -/
def stagedIn (x : Module) (c : Cmd) (o : Obj) : Module :=
  (x.takeSet c.job (c.w 2) (withOwnState x c.job o)).onSlot c.job (c.w 2) (fun v => { v with
    state := 1, set := c.w 3, setSteps := if o.len != (x.job c.job).setSizes.1 then o.setSteps else 0 })

section
variable {fu : Fuses} {x : Module} {q : Nat} {c : Cmd} {o : Obj}

theorem stageSet_of_refused (refused : x.stageRefused c.job (c.w 2) (c.w 3) ≠ stOk) :
    x.stageSet fu q c = x.variantFails fu q c (c.w 2) (c.w 3) (x.stageRefused c.job (c.w 2) (c.w 3)) :=
  if_pos (bne_iff_ne.2 refused)

/-- A job that may stage is no FREE context. -/
theorem job_lt_of_stages (passes : x.stageRefused c.job (c.w 2) (c.w 3) = stOk) : c.job < x.jobs.length := by
  refine job_lt fun free => ?_
  have denied : x.stageRefused c.job (c.w 2) (c.w 3) = stDenied := if_pos free
  exact absurd (denied.symm.trans passes) (by decide)

variable (passes : x.stageRefused c.job (c.w 2) (c.w 3) = stOk) (found : x.store.find 2 (c.w 3) = some o)
include passes found

theorem stageSet_of_poison (poisoned : (o.firstPoison 0 (x.stageReads c.job o)).isSome = true) :
    x.stageSet fu q c = (x.onSlot c.job (c.w 2) (fun _ => Slot.empty)).variantFails fu q c (c.w 2) (c.w 3) stPoison := by
  unfold Module.stageSet
  simp only [passes, found, poisoned]
  rfl

theorem stageSet_of_clean (clean : o.firstPoison 0 (x.stageReads c.job o) = none) :
    x.stageSet fu q c = (((stagedIn x c o).bump (odKey 0x3230 4) (x.stageReads c.job o)).bump (odKey 0x6020 11)
      (x.stageReads c.job o)).answer q c stOk 0 0 := by
  unfold Module.stageSet
  simp only [passes, found, clean]
  rfl

end

section
variable {x : Module} {c : Cmd} (o : Obj)

theorem keeps_stagedIn : KeepsBut [.jobs, .hbm, .hbmPoison] x (stagedIn x c o) :=
  keeps_trans (same_take x c.job (c.w 2) _).2.2.1 (keeps_mono (keeps_onSlot _ _ _ _) (by decide))

theorem otherJobs_stagedIn : OtherJobs c.job x (stagedIn x c o) := fun k other =>
  (slotOther _ _ _ _ k other).trans ((same_take x c.job (c.w 2) _).1 k other)

theorem slots_stagedIn (inside : c.job < x.jobs.length) : ((stagedIn x c o).job c.job).slots =
    modifyAt (fun v => { v with state := 1, set := c.w 3, setSteps := if o.len != (x.job c.job).setSizes.1 then o.setSteps else 0 })
      (x.job c.job).slots (c.w 2) := by
  obtain ⟨_, len, _, _, _, own⟩ := same_take x c.job (c.w 2) (withOwnState x c.job o)
  rw [stagedIn, slotJob _ _ _ _ (len ▸ inside), own]

end

/-- The slot that `c` names. -/
def slotOf (x : Module) (c : Cmd) : Slot := ((x.job c.job).slots[c.w 2]?).getD Slot.empty

/-! ### Slots that turn over or are released -/

section
variable {fu : Fuses} {x : Module} {q : Nat} {c : Cmd}

theorem turnSlots_of_wrong {state v : Nat} (next : Nat) (wrong : (x.job c.job).slotNotIn (c.w 2) state = some v) :
    ∃ set, x.turnSlots fu q c state next = x.variantFails fu q c v set stDenied := by
  unfold Module.turnSlots
  simp only [wrong]
  exact ⟨_, rfl⟩

theorem turnSlots_of_right {state : Nat} (next : Nat) (right : (x.job c.job).slotNotIn (c.w 2) state = none)
    (live : (x.job c.job).live = true) :
    x.turnSlots fu q c state next = ((setBits (c.w 2) 64).foldl (fun (m : Module) v =>
      m.onSlot c.job v (fun s => { s with next := next })) x).answer q c stOk 0 0 := by
  unfold Module.turnSlots
  simp only [right, live]
  rfl

theorem freeSlot_of_other (other : (slotOf x c).state ≠ 1) :
    x.freeSlot fu q c = x.variantFails fu q c (c.w 2) (slotOf x c).set stDenied :=
  if_pos (Bool.or_eq_true_iff.2 (.inr (bne_iff_ne.2 other)))

theorem freeSlot_of_staged (live : (x.job c.job).live = true) (staged : (slotOf x c).state = 1) :
    x.freeSlot fu q c = (x.onSlot c.job (c.w 2) (fun _ => Slot.empty)).answer q c stOk 0 0 := by
  rw [slotOf] at staged
  exact if_neg (by simp [live, staged])

end

/-! ### SAVE -/

/-- An object that is written after its source was read stands in the store with its bytes; the other partitions are as they were. -/
theorem putObj_after_reads (fu : Fuses) {x y : Module} (reads : KeepsBut hbmReading x y) (ob : Obj) (bs : List Byte) (k n : Nat) :
    (∃ o ∈ ((y.putObj fu ob bs).bump k n).store.objs,
      o.part = ob.part ∧ o.id = ob.id ∧ o.len = bs.length ∧ o.data = Mem.cells 0 bs ∧ o.sites = ob.sites) ∧
    (∀ o ∈ ((y.putObj fu ob bs).bump k n).store.objs, o.part ≠ ob.part → ∃ k ∈ x.store.objs, o = { k with place := o.place }) ∧
    KeepsBut (.store :: hbmReading) x ((y.putObj fu ob bs).bump k n) := by
  obtain ⟨stands, others⟩ := put_has fu y ob bs
  have store : y.store = x.store := reads .store (by decide)
  rw [store] at others
  rw [bump_store]
  refine ⟨stands, others, ?_⟩
  rw [kb_bump _ _ (by decide)]
  exact keeps_trans (keeps_mono reads (by decide)) (keeps_mono (keeps_putObj fu y ob bs) (by decide))

/-- SAVE of a slot whose set fits and whose source is clean reads the source and writes the set. -/
theorem saveSet_of_clean {fu : Fuses} {x : Module} {q : Nat} {c : Cmd} (live : (x.job c.job).live = true)
    (full : (slotOf x c).state ≠ 0)
    (room : x.writeRefused 2 (slotOf x c).set (x.setBytes c.job (c.w 2)).length = stOk)
    (clean : (x.job c.job).adapterTensors.any (fun t =>
      x.regionPoison c.job t (c.w 2) || (x.isRank0 c.job && x.regionStatePoison c.job t (c.w 2))) = false) :
    ∃ (y : Module) (ob : Obj), KeepsBut hbmReading x y ∧ ob.part = 2 ∧ ob.id = (slotOf x c).set ∧
      ob.sites = (x.job c.job).sitesHash ∧
      x.saveSet fu q c = ((y.putObj fu ob (x.setBytes c.job (c.w 2))).bump (odKey 0x3230 5)
        (x.setBytes c.job (c.w 2)).length).answer q c stOk 0 0 := by
  unfold Module.saveSet
  dsimp only
  rw [slotOf] at full room ⊢
  rw [if_neg (by simp [live, full]), room, if_neg (by decide), clean, if_neg (by decide)]
  refine ⟨_, _, keeps_hbmReads fu x _ _, ?_, ?_, ?_, rfl⟩
  · rfl
  · rfl
  · rfl

/-! ### The variant commands -/

section
variable {s : State} {q : Nat} {p : Packet} {ups : List FlashUpset} {c : Cmd} {x : Module} (h : Begins s q p ups c x)
include h

/-- A STAGE that is refused leaves every slot (R256). -/
theorem goes_stage_of_refused (op : c.opcode = 0x10) (refused : x.stageRefused c.job (c.w 2) (c.w 3) ≠ stOk) :
    Goes s (.stage q p ups)
      (Ends s.fuse x q c (x.stageRefused c.job (c.w 2) (c.w 3)) 0 0 (fun z => KeepsBut reporting x z)) :=
  goes_command h rfl op ((startCmd_stage op).trans (stageSet_of_refused refused)) (ends_variantFails ..)

/-- One that meets poison leaves its slot EMPTY (R256, R402). -/
theorem goes_stage_of_poison (op : c.opcode = 0x10) (passes : x.stageRefused c.job (c.w 2) (c.w 3) = stOk) {o : Obj}
    (found : x.store.find 2 (c.w 3) = some o) (poisoned : (o.firstPoison 0 (x.stageReads c.job o)).isSome = true) :
    Goes s (.stage q p ups) (Ends s.fuse x q c stPoison 0 0 (fun z =>
      z.job c.job = { x.job c.job with slots := modifyAt (fun _ => Slot.empty) (x.job c.job).slots (c.w 2) } ∧
      OtherJobs c.job x z ∧ KeepsBut [.jobs, .od, .log, .report] x z)) := by
  refine goes_command h rfl op ((startCmd_stage op).trans (stageSet_of_poison passes found poisoned))
    (ends_answer ⟨?_, fun k other => ?_, ?_⟩)
  · rw [job_of_event, slotJob x _ _ _ (job_lt_of_stages passes)]
  · rw [job_of_event, slotOther x _ _ _ k other]
  · rw [kb_event _ _ _ (by decide) (by decide) (by decide)]
    exact keeps_mono (keeps_onSlot x _ _ _) (by decide)

/-- One that reads its set has it in its slot, which is STAGED (R256). -/
theorem goes_stage_of_clean (op : c.opcode = 0x10) (passes : x.stageRefused c.job (c.w 2) (c.w 3) = stOk) {o : Obj}
    (found : x.store.find 2 (c.w 3) = some o) (clean : o.firstPoison 0 (x.stageReads c.job o) = none) :
    Goes s (.stage q p ups) (Ends s.fuse x q c stOk 0 0 (fun z =>
      z.hbm = (x.takeSet c.job (c.w 2) (withOwnState x c.job o)).hbm ∧
      (z.job c.job).slots = modifyAt (fun v =>
        { v with state := 1, set := c.w 3, setSteps := if o.len != (x.job c.job).setSizes.1 then o.setSteps else 0 })
        (x.job c.job).slots (c.w 2) ∧
      z.odGet (odKey 0x3230 4) = (x.odGet (odKey 0x3230 4) + x.stageReads c.job o) % 2 ^ 64 ∧ OtherJobs c.job x z ∧
      KeepsBut [.jobs, .hbm, .hbmPoison, .od] x z)) := by
  have keeps := keeps_stagedIn (x := x) (c := c) o
  refine goes_command h rfl op ((startCmd_stage op).trans (stageSet_of_clean passes found clean))
    (ends_answer ⟨rfl, slots_stagedIn o (job_lt_of_stages passes), ?_, otherJobs_stagedIn o, ?_⟩)
  · rw [odGet_bump_other _ _ (by decide), odGet_bump, if_pos rfl, odGet_congr (keeps .od (by decide))]
  · rw [kb_bump _ _ (by decide), kb_bump _ _ (by decide)]
    exact keeps_mono keeps (by decide)

end

section
variable {s : State} {q : Nat} {p : Packet} {c : Cmd} {x : Module} (h : Begins s q p [] c x)
include h

/-- A turn of slots turns all of its mask over, or none (R256). -/
theorem goes_turnSlots {i : Instr} {n state next : Nat} (row : exec i s = takeRow n q p [] s) (op : c.opcode = n)
    (starts : x.startCmd s.fuse q c = x.turnSlots s.fuse q c state next) :
    (∀ v, (x.job c.job).slotNotIn (c.w 2) state = some v →
      Goes s i (Ends s.fuse x q c stDenied 0 0 (fun z => KeepsBut reporting x z))) ∧
    ((x.job c.job).slotNotIn (c.w 2) state = none → (x.job c.job).live = true → Goes s i (Ends s.fuse x q c stOk 0 0 (fun z =>
      (∀ v, (z.job c.job).slots[v]? =
        ((x.job c.job).slots[v]?).map (fun y => if v ∈ setBits (c.w 2) 64 then { y with next := next } else y)) ∧
      OtherJobs c.job x z ∧ KeepsBut [.jobs] x z))) := by
  refine ⟨fun v wrong => ?_, fun right live => ?_⟩
  · obtain ⟨set, fails⟩ := turnSlots_of_wrong (fu := s.fuse) (q := q) next wrong
    exact goes_command h row op (starts.trans fails) (ends_variantFails ..)
  · exact goes_command h row op (starts.trans (turnSlots_of_right next right live))
      (ends_answer (turn_fold c.job next _ x (job_lt (live_ne live))))

/-- A slot that SAVE writes stands in the store as its set (R256). -/
theorem goes_save (op : c.opcode = 0x13) (live : (x.job c.job).live = true)
    (full : (slotOf x c).state ≠ 0)
    (room : x.writeRefused 2 (slotOf x c).set (x.setBytes c.job (c.w 2)).length = stOk)
    (clean : (x.job c.job).adapterTensors.any (fun t =>
      x.regionPoison c.job t (c.w 2) || (x.isRank0 c.job && x.regionStatePoison c.job t (c.w 2))) = false) :
    Goes s (.save q p) (Ends s.fuse x q c stOk 0 0 (fun z =>
      (∃ o ∈ z.store.objs, o.part = 2 ∧ o.id = (slotOf x c).set ∧
        o.len = (x.setBytes c.job (c.w 2)).length ∧ o.data = Mem.cells 0 (x.setBytes c.job (c.w 2)) ∧
        o.sites = (x.job c.job).sitesHash) ∧
      (∀ o ∈ z.store.objs, o.part ≠ 2 → ∃ k ∈ x.store.objs, o = { k with place := o.place }) ∧
      KeepsBut (.store :: hbmReading) x z)) := by
  obtain ⟨y, ob, reads, part, id, sites, saves⟩ := saveSet_of_clean (fu := s.fuse) (q := q) live full room clean
  refine goes_command h rfl op ((startCmd_save op).trans saves) (ends_answer ?_)
  rw [← id, ← sites, ← part]
  exact putObj_after_reads s.fuse reads ob _ _ _

/-- RELEASE_SLOT empties a STAGED slot alone (R256). -/
theorem goes_releaseSlot (op : c.opcode = 0x14) (live : (x.job c.job).live = true) :
    ((slotOf x c).state ≠ 1 →
      Goes s (.releaseSlot q p) (Ends s.fuse x q c stDenied 0 0 (fun z => KeepsBut reporting x z))) ∧
    ((slotOf x c).state = 1 → Goes s (.releaseSlot q p) (Ends s.fuse x q c stOk 0 0 (fun z =>
      z.job c.job = { x.job c.job with slots := modifyAt (fun _ => Slot.empty) (x.job c.job).slots (c.w 2) } ∧ OtherJobs c.job x z ∧
      KeepsBut [.jobs] x z))) := by
  refine ⟨fun other => ?_, fun staged => ?_⟩
  · exact goes_command h rfl op ((startCmd_releaseSlot op).trans (freeSlot_of_other other)) (ends_variantFails ..)
  · exact goes_ends_onJob h rfl op (live_ne live) ((startCmd_releaseSlot op).trans (freeSlot_of_staged live staged))

end

end Sys2Proof.Proofs
end

section
/-!
PROOFS. The host commands SNAPSHOT and RESTORE (R258, R286), and the pins of experts (R338).
-/
namespace Sys2Proof.Proofs

open Sys2Proof Sys2Proof.Machine Sys2Proof.Laws

/-! ### The function that each starts -/

section
variable {fu : Fuses} {x : Module} {q : Nat} {c : Cmd}

theorem startCmd_snapshot (op : c.opcode = 0x18) : x.startCmd fu q c = x.snapshot fu q c := by
  rw [Module.startCmd, start_live x c (.inr (.inr (.inl (by rw [op]; rfl)))), op]
  rfl

theorem startCmd_restore (op : c.opcode = 0x19) (held : (x.job c.job).state ≠ 0) : x.startCmd fu q c = x.restore fu q c := by
  rw [Module.startCmd, start_live x c (.inr (.inr (.inr held))), op]
  rfl

theorem startCmd_pinExpert (op : c.opcode = 0x1A) (held : (x.job c.job).state ≠ 0) : x.startCmd fu q c = x.pinExpert q c := by
  rw [Module.startCmd, start_live x c (.inr (.inr (.inr held))), op]
  rfl

theorem startCmd_unpinExpert (op : c.opcode = 0x1B) (held : (x.job c.job).state ≠ 0) : x.startCmd fu q c = x.unpinExpert q c := by
  rw [Module.startCmd, start_live x c (.inr (.inr (.inr held))), op]
  rfl

end

/-! ### SNAPSHOT (R258) -/

/-- What the SNAPSHOT `c` ships of its job. -/
def shippedParts (x : Module) (c : Cmd) : List (Nat × Nat × Bool × Bool) := (x.job c.job).scopeParts (c.w 2) (c.w 3)

/-- The content of the SNAPSHOT `c`. -/
def snapBytes (x : Module) (c : Cmd) : List Byte := x.snapHeader c.job ++ (shippedParts x c).flatMap (x.partContent c.job)

/-- The identifier under which the SNAPSHOT `c` is kept. -/
def snapId (x : Module) (c : Cmd) : Nat := if c.w 5 = 0 then moduleId 1 c.job (x.job c.job).step else c.w 5

/-- The module once the source of the SNAPSHOT `c` has been read. -/
def snapRead (fu : Fuses) (x : Module) (c : Cmd) : Module :=
  x.hbmReads fu c.job ((shippedParts x c).flatMap (fun r => (x.job c.job).regionRanges r.1 r.2.1 r.2.2.1 r.2.2.2))

section
variable {fu : Fuses} {x : Module} {q : Nat} {c : Cmd}

theorem snapshot_of_malformed (bad : badModuleId (c.w 5) = true) : x.snapshot fu q c = x.snapFailed fu q c stMalformed := if_pos bad

/-- A running job's SNAPSHOT waits for the next step boundary. -/
theorem snapshot_of_running (good : badModuleId (c.w 5) = false) (runs : (x.job c.job).state = 3) :
    x.snapshot fu q c = x.started q c := by
  unfold Module.snapshot
  rw [if_neg (ne_true_of_eq_false good), if_neg (by rw [runs]; decide), if_pos runs]

theorem snapshot_of_loaded (good : badModuleId (c.w 5) = false) (loaded : (x.job c.job).state = 2) :
    x.snapshot fu q c = x.captureSnapshot fu q c := by
  unfold Module.snapshot
  rw [if_neg (ne_true_of_eq_false good), if_pos loaded]

variable (ranked : (bitAt (c.w 2) 2 && !x.isRank0 c.job) = false) (clean : (shippedParts x c).any (x.partPoison c.job) = false)
include ranked clean

/-- A captured snapshot goes to the host. -/
theorem captureSnapshot_to_host (toHost : bitAt (c.w 4) 0 = false) : x.captureSnapshot fu q c =
    ((snapRead fu x c).bump (odKey 0x3230 6) (snapBytes x c).length).answerData q c stOk (x.job c.job).step (snapBytes x c).length
      (snapBytes x c) := by
  simp only [snapBytes, snapRead, shippedParts, Cmd.w, Nat.reduceSub] at ranked clean toHost ⊢
  unfold Module.captureSnapshot
  dsimp only
  rw [if_neg (ne_true_of_eq_false ranked), if_neg (ne_true_of_eq_false toHost), if_neg (by decide), if_neg (ne_true_of_eq_false clean),
    if_pos (by rw [toHost]; rfl)]

/-- A captured snapshot goes to its partition. -/
theorem captureSnapshot_to_store (kept : bitAt (c.w 4) 0 = true)
    (room : x.writeRefused 3 (snapId x c) (snapBytes x c).length = stOk) : x.captureSnapshot fu q c =
    (((snapRead fu x c).putObj fu (Obj.named 3 (snapId x c)) (snapBytes x c)).bump (odKey 0x3230 6)
      (snapBytes x c).length).answer q c stOk (x.job c.job).step (snapBytes x c).length := by
  have named : (if c.args.getD 3 0 = 0 then moduleId 1 c.job (x.job c.job).step else c.args.getD 3 0) = snapId x c := rfl
  simp only [snapBytes, snapRead, shippedParts, Cmd.w, Nat.reduceSub] at ranked clean kept room ⊢
  unfold Module.captureSnapshot
  dsimp only
  rw [named, if_neg (ne_true_of_eq_false ranked), if_pos kept, room, if_neg (by decide), if_neg (ne_true_of_eq_false clean),
    if_neg (by rw [kept]; decide)]

end

section
variable {s : State} {q : Nat} {p : Packet} {c : Cmd} {x : Module} (h : Begins s q p [] c x) (op : c.opcode = 0x18)
include h op

theorem goes_snapshot_of_malformed (bad : badModuleId (c.w 5) = true) :
    Goes s (.snapshot q p) (Ends s.fuse x q c stMalformed 0 0 (fun z => KeepsBut reporting x z)) :=
  goes_command h rfl op ((startCmd_snapshot op).trans (snapshot_of_malformed bad)) (ends_snapFailed ..)

variable (good : badModuleId (c.w 5) = false)
include good

theorem goes_snapshot_of_running (runs : (x.job c.job).state = 3) : Goes s (.snapshot q p) (RunsOn s.fuse x q c (fun z => z = x)) :=
  goes_command h rfl op ((startCmd_snapshot op).trans (snapshot_of_running good runs)) (runsOn_started rfl)

variable (loaded : (x.job c.job).state = 2) (ranked : (bitAt (c.w 2) 2 && !x.isRank0 c.job) = false)
  (clean : (shippedParts x c).any (x.partPoison c.job) = false)
include loaded ranked clean

theorem goes_snapshot_to_host (toHost : bitAt (c.w 4) 0 = false) : Goes s (.snapshot q p) (fun n => ∃ z, KeepsBut hbmReading x z ∧
    n = thenStart s.fuse x (z.answerData q c stOk (x.job c.job).step (snapBytes x c).length (snapBytes x c))) := by
  refine goes_command h rfl op ((startCmd_snapshot op).trans ((snapshot_of_loaded good loaded).trans
    (captureSnapshot_to_host ranked clean toHost))) ⟨_, ?_, rfl⟩
  rw [kb_bump _ _ (by decide)]
  exact keeps_hbmReads s.fuse x _ _

theorem goes_snapshot_to_store (kept : bitAt (c.w 4) 0 = true)
    (room : x.writeRefused 3 (snapId x c) (snapBytes x c).length = stOk) : Goes s (.snapshot q p)
    (Ends s.fuse x q c stOk (x.job c.job).step (snapBytes x c).length (fun z =>
      (∃ o ∈ z.store.objs, o.part = 3 ∧ o.id = snapId x c ∧ o.len = (snapBytes x c).length ∧ o.data = Mem.cells 0 (snapBytes x c)) ∧
      (∀ o ∈ z.store.objs, o.part ≠ 3 → ∃ k ∈ x.store.objs, o = { k with place := o.place }) ∧
      KeepsBut (.store :: hbmReading) x z)) := by
  obtain ⟨⟨o, mem, part, id, len, data, _⟩, others, keeps⟩ := putObj_after_reads s.fuse
    (show KeepsBut hbmReading x (snapRead s.fuse x c) from keeps_hbmReads s.fuse x _ _) (Obj.named 3 (snapId x c)) (snapBytes x c)
    (odKey 0x3230 6) (snapBytes x c).length
  exact goes_command h rfl op ((startCmd_snapshot op).trans ((snapshot_of_loaded good loaded).trans
    (captureSnapshot_to_store ranked clean kept room))) (ends_answer ⟨⟨o, mem, part, id, len, data⟩, others, keeps⟩)

end

/-! ### RESTORE (R286) -/

/-- The kept snapshot that the RESTORE `c` names. -/
def restoreSource (x : Module) (c : Cmd) : Option Obj :=
  if x.storeReads then (x.store.kept c.job).find? (fun o => o.id == moduleId 0 c.job (c.w 2) && decide (c.w 2 < 2 ^ 32)) else none

/-- The module with the kept snapshot `k` written back. -/
def restoredFrom (x : Module) (c : Cmd) (k : Obj) : Module :=
  (((x.restoreFrom c.job k.bytes).bump (odKey 0x7140 3) 1).bump (odKey 0x6020 11) k.len).odSet (odKey 0x7110 6) 0

section
variable {fu : Fuses} {x : Module} {q : Nat} {c : Cmd}

theorem restore_of_refused (refused : x.restoreRefused c.job (restoreSource x c) ≠ stOk) :
    x.restore fu q c = x.answer q c (x.restoreRefused c.job (restoreSource x c)) (x.job c.job).step 0 := by
  unfold Module.restore
  dsimp only
  rw [← restoreSource]
  generalize restoreSource x c = o at refused ⊢
  cases o with
  | none => rfl
  | some k => exact if_pos (bne_iff_ne.2 refused)

theorem job_restoredFrom (k : Obj) (j : Nat) : (restoredFrom x c k).job j = (x.restoreFrom c.job k.bytes).job j := by
  rw [restoredFrom, job_of_odSet, job_of_bump, job_of_bump]

theorem keeps_restoredFrom (k : Obj) : KeepsBut [.od] (x.restoreFrom c.job k.bytes) (restoredFrom x c k) := by
  simp [restoredFrom, keeps_refl]

/-- What a snapshot that is written back leaves. -/
theorem restoredFrom_ok (k : Obj) (inside : c.job < x.jobs.length) :
    ((restoredFrom x c k).job c.job).step = leAt k.bytes 8 8 ∧ OtherJobs c.job x (restoredFrom x c k) ∧
      KeepsBut [.jobs, .hbm, .hbmPoison, .od] x (restoredFrom x c k) := by
  obtain ⟨step, others, keeps⟩ := restore_facts x c.job k.bytes inside
  refine ⟨?_, fun i other => ?_, keeps_trans (keeps_mono keeps (by decide)) (keeps_mono (keeps_restoredFrom k) (by decide))⟩
  · rw [job_restoredFrom, step]
  · rw [job_restoredFrom, others i other]

/-- Writing a snapshot back leaves the module's place in its rope. -/
theorem inRope_restoredFrom (k : Obj) (inside : c.job < x.jobs.length) : (restoredFrom x c k).inRope c.job = x.inRope c.job := by
  obtain ⟨_, _, keeps⟩ := restore_facts x c.job k.bytes inside
  have written : SamePlace x (x.restoreFrom c.job k.bytes) := (samePlace_refl x).keeps keeps (by decide)
  exact (((written.bump _ (by decide)).bump _ (by decide)).odSet _ (by decide)).inRope c.job

/-- A snapshot of a job in no rope is written back and is not broadcast. -/
theorem restore_of_alone {k : Obj} (source : restoreSource x c = some k) (inside : c.job < x.jobs.length)
    (passes : x.restoreRefused c.job (restoreSource x c) = stOk) (alone : x.inRope c.job = false) :
    x.restore fu q c = (restoredFrom x c k).answer q c stOk (leAt k.bytes 8 8) 0 := by
  obtain ⟨step, _, _⟩ := restoredFrom_ok (x := x) (c := c) k inside
  have alone' : (!(restoredFrom x c k).inRope c.job) = true := by rw [inRope_restoredFrom k inside, alone]; rfl
  rw [source] at passes
  unfold Module.restore
  dsimp only
  rw [← restoreSource, source]
  dsimp only
  rw [passes, if_neg (by decide)]
  rw [restoredFrom] at step alone' ⊢
  rw [if_pos alone', step]

end

section
variable {s : State} {q : Nat} {p : Packet} {ups : List FlashUpset} {c : Cmd} {x : Module} (h : Begins s q p ups c x)
  (op : c.opcode = 0x19) (held : (x.job c.job).state ≠ 0)
include h op held

theorem goes_restore_of_refused (refused : x.restoreRefused c.job (restoreSource x c) ≠ stOk) : Goes s (.restore q p ups)
    (Ends s.fuse x q c (x.restoreRefused c.job (restoreSource x c)) (x.job c.job).step 0 (fun z => z = x)) :=
  goes_command h rfl op ((startCmd_restore op held).trans (restore_of_refused refused)) (ends_answer rfl)

theorem goes_restore_of_alone {k : Obj} (source : restoreSource x c = some k)
    (passes : x.restoreRefused c.job (restoreSource x c) = stOk) (alone : x.inRope c.job = false) :
    Goes s (.restore q p ups) (Ends s.fuse x q c stOk (leAt k.bytes 8 8) 0 (fun z =>
      z.hbm = (x.restoreFrom c.job k.bytes).hbm ∧ z.jobs = (x.restoreFrom c.job k.bytes).jobs ∧
      (z.job c.job).step = leAt k.bytes 8 8 ∧ z.odGet (odKey 0x7110 6) = 0 ∧ OtherJobs c.job x z ∧
      KeepsBut [.jobs, .hbm, .hbmPoison, .od] x z)) := by
  obtain ⟨step, others, keeps⟩ := restoredFrom_ok (x := x) (c := c) k (job_lt held)
  refine goes_command h rfl op ((startCmd_restore op held).trans (restore_of_alone source (job_lt held) passes alone))
    (ends_answer ⟨?_, ?_, step, ?_, others, keeps⟩)
  · rw [restoredFrom, odSet_hbm, bump_hbm, bump_hbm]
  · rw [restoredFrom, odSet_jobs, bump_jobs, bump_jobs]
  · rw [restoredFrom, odGet_odSet, if_pos rfl]

end

/-! ### Pins (R338) -/

/-- Whether an entry of the residency table holds the expert that a command on a pin names. -/
def holdsExpert (x : Module) (c : Cmd) : Bool := (x.entriesOf c.job).any (fun r => r.2.state != 0 && r.2.expert == c.w 2)

/-- The residency table with the pins of the expert that `c` names set or cleared. -/
def pinsSet (x : Module) (c : Cmd) (on : Bool) : List (Nat × Residency) :=
  x.residency.map (fun (r : Nat × Residency) =>
    if r.2.job = c.job ∧ r.2.state ≠ 0 ∧ r.2.expert = c.w 2 then (r.1, { r.2 with pinned := on }) else r)

section
variable {x : Module} {q : Nat} {c : Cmd} {e : Experts} (program : (x.job c.job).prog.experts = some e) (live : (x.job c.job).live = true)
include program

theorem pinExpert_of_full (unpinned : c.w 2 ∉ x.pinnedOf c.job) (full : e.capacity - 1 < (x.pinnedOf c.job).length + 1) :
    x.pinExpert q c = x.answer q c stDenied 0 0 := by
  unfold Module.pinExpert
  dsimp only
  rw [program]
  have full' : e.capacity ≤ (x.pinnedOf c.job).length + 1 := by omega
  exact if_pos (by simp [unpinned, full'])

include live

theorem unpinExpert_of_outside (outside : e.expertCount ≤ c.w 2) : x.unpinExpert q c = x.answer q c stBadIndex 0 0 := by
  unfold Module.unpinExpert
  dsimp only
  rw [program, if_neg (by simp [live])]
  exact if_pos outside

theorem unpinExpert_of_inside (inside : c.w 2 < e.expertCount) :
    x.unpinExpert q c = (x.setPin c.job (c.w 2) false).answer q c stOk 0 0 := by
  unfold Module.unpinExpert
  dsimp only
  rw [program, if_neg (by simp [live])]
  exact if_neg (Nat.not_le_of_lt inside)

variable (room : c.w 2 ∈ x.pinnedOf c.job ∨ (x.pinnedOf c.job).length + 1 ≤ e.capacity - 1)
include room

/-- A PIN_EXPERT that may pin one more expert, or pins one again. -/
theorem pinExpert_of_room : x.pinExpert q c =
    if e.expertCount ≤ c.w 2 then x.answer q c stBadIndex 0 0
    else if holdsExpert x c then (x.setPin c.job (c.w 2) true).answer q c stOk 0 0
    else ((x.askFetch c.job (c.w 2)).setPin c.job (c.w 2) true).started q c := by
  unfold Module.pinExpert
  dsimp only
  rw [program, if_neg]
  · rfl
  · have granted : c.w 2 ∉ x.pinnedOf c.job → (x.pinnedOf c.job).length + 1 < e.capacity := fun unpinned => by
      have := room.resolve_left unpinned
      omega
    simpa [live] using granted

end

section
variable {x : Module} {j e : Nat}

theorem askFetch_keeps : KeepsBut [.jobs] x (x.askFetch j e) := keeps_ite (keeps_refl _ x) (keeps_onJob x j _)

theorem askFetch_otherJobs : OtherJobs j x (x.askFetch j e) := fun k other => by
  unfold Module.askFetch
  split
  · rfl
  · exact job_onJob_other x j k _ other

theorem askFetch_jobs_length : (x.askFetch j e).jobs.length = x.jobs.length := by
  unfold Module.askFetch
  split
  · rfl
  · exact onJob_len x j _

/-- An expert that is not resident is among the fetches once it has been asked for. -/
theorem askFetch_asks (inside : j < x.jobs.length) (absent : x.residentOf j e = none) :
    ∃ f ∈ ((x.askFetch j e).job j).fetches, f.expert = e := by
  unfold Module.askFetch
  rw [absent]
  split
  · next asked => simpa using asked
  · rw [job_onJob_self x j _ inside]
    exact ⟨_, List.mem_append_right _ (List.mem_singleton_self _), rfl⟩

end

section
variable {s : State} {q : Nat} {p : Packet} {c : Cmd} {x : Module} (h : Begins s q p [] c x) {e : Experts}
  (program : (x.job c.job).prog.experts = some e) (live : (x.job c.job).live = true)
include h program live

theorem goes_pinExpert_of_full (op : c.opcode = 0x1A) (unpinned : c.w 2 ∉ x.pinnedOf c.job)
    (full : e.capacity - 1 < (x.pinnedOf c.job).length + 1) :
    Goes s (.pinExpert q p) (Ends s.fuse x q c stDenied 0 0 (fun z => z = x)) :=
  goes_command h rfl op ((startCmd_pinExpert op (live_ne live)).trans (pinExpert_of_full program unpinned full))
    (ends_answer rfl)

/-- PIN_EXPERT within the room for pins (R338). -/
theorem goes_pinExpert_of_room (op : c.opcode = 0x1A)
    (room : c.w 2 ∈ x.pinnedOf c.job ∨ (x.pinnedOf c.job).length + 1 ≤ e.capacity - 1) :
    (e.expertCount ≤ c.w 2 → Goes s (.pinExpert q p) (Ends s.fuse x q c stBadIndex 0 0 (fun z => z = x))) ∧
    (c.w 2 < e.expertCount → holdsExpert x c = true → Goes s (.pinExpert q p) (Ends s.fuse x q c stOk 0 0 (fun z =>
      z.residency = pinsSet x c true ∧ OtherJobs c.job x z ∧ KeepsBut [.residency, .jobs] x z))) ∧
    (c.w 2 < e.expertCount → holdsExpert x c = false → Goes s (.pinExpert q p) (RunsOn s.fuse x q c (fun z =>
      (∃ f ∈ (z.job c.job).fetches, f.expert = c.w 2 ∧ f.pin = true) ∧ OtherJobs c.job x z ∧
      KeepsBut [.residency, .jobs] x z))) := by
  have starts := (startCmd_pinExpert (fu := s.fuse) (q := q) op (live_ne live)).trans (pinExpert_of_room program live room)
  refine ⟨fun outside => ?_, fun inside held => ?_, fun inside absent => ?_⟩
  · exact goes_command h rfl op (starts.trans (if_pos outside)) (ends_answer rfl)
  · obtain ⟨residency, others, keeps, _⟩ := pin_ok x c.job (c.w 2) true
    exact goes_command h rfl op (starts.trans ((if_neg (Nat.not_le_of_lt inside)).trans (if_pos held)))
      (ends_answer ⟨residency, others, keeps⟩)
  · have context := job_lt (live_ne live)
    obtain ⟨f, asked, own⟩ := askFetch_asks context (resident_none absent)
    obtain ⟨_, others, keeps, fetches⟩ := pin_ok (x.askFetch c.job (c.w 2)) c.job (c.w 2) true
    refine goes_command h rfl op (starts.trans ((if_neg (Nat.not_le_of_lt inside)).trans (if_neg (ne_true_of_eq_false absent))))
      (runsOn_started ⟨⟨{ f with pin := true }, ?_, own, rfl⟩,
        fun k other => (others k other).trans (askFetch_otherJobs k other),
        keeps_trans (keeps_mono askFetch_keeps (by decide)) keeps⟩)
    rw [fetches (by rw [askFetch_jobs_length]; exact context)]
    exact List.mem_map.2 ⟨f, asked, if_pos own⟩

/-- UNPIN_EXPERT (R338). -/
theorem goes_unpinExpert (op : c.opcode = 0x1B) :
    (e.expertCount ≤ c.w 2 → Goes s (.unpinExpert q p) (Ends s.fuse x q c stBadIndex 0 0 (fun z => z = x))) ∧
    (c.w 2 < e.expertCount → Goes s (.unpinExpert q p) (Ends s.fuse x q c stOk 0 0 (fun z =>
      z.residency = pinsSet x c false ∧ OtherJobs c.job x z ∧ KeepsBut [.residency, .jobs] x z))) := by
  have starts := startCmd_unpinExpert (fu := s.fuse) (q := q) op (live_ne live)
  obtain ⟨residency, others, keeps, _⟩ := pin_ok x c.job (c.w 2) false
  exact ⟨fun outside => goes_command h rfl op (starts.trans (unpinExpert_of_outside program live outside)) (ends_answer rfl),
    fun inside => goes_command h rfl op (starts.trans (unpinExpert_of_inside program live inside))
      (ends_answer ⟨residency, others, keeps⟩)⟩

end

end Sys2Proof.Proofs
end

section
/-!
PROOFS. The host commands on job data (R367, R427) and on the objects of the coil store (R399, R400, R402).
-/
namespace Sys2Proof.Proofs

open Sys2Proof Sys2Proof.Machine Sys2Proof.Laws

/-! ### The command that begins -/

/-- The command that starts next may start. -/
theorem mayStart_of_next {x : Module} {q : Nat} {c : Cmd} (next : x.nextStart = some (q, c)) : x.mayStart q c = true := by
  unfold Module.nextStart at next
  obtain ⟨n, _, first⟩ := Option.bind_eq_some_iff.1 next
  obtain ⟨t, _, ready⟩ := List.mem_flatMap.1 (List.mem_of_find?_eq_some first)
  obtain ⟨d, mem, same⟩ := List.mem_map.1 ready
  obtain ⟨rfl, rfl⟩ := Prod.mk.inj same
  exact (Bool.and_eq_true_iff.1 (List.mem_filter.1 mem).2).2

/-- A command that has started waits for the same stopped stacks as before (R367). -/
theorem dataStopped_started (x : Module) (q : Nat) {c : Cmd} (waits : c.state = 0) :
    (x.started q c).dataStopped { c with state := 1 } = x.dataStopped c := by
  unfold Module.dataStopped Module.dataWaits
  rw [waits]
  rfl

section
variable {s : State} {q : Nat} {p : Packet} {ups : List FlashUpset} {c : Cmd} {x : Module} (h : Begins s q p ups c x)
include h

/-- A command that begins waits for no stopped stack (R367). -/
theorem dataStopped_of_begins : x.dataStopped c = false := by
  obtain ⟨_, _, _, _, _, _, _, _, _, next⟩ := h
  have may := mayStart_of_next next
  unfold Module.mayStart at may
  simp only [Bool.and_eq_true, Bool.not_eq_true'] at may
  exact may.1.1

/-- The data of a command that begins are those of its first packet. -/
theorem got_of_begins : c.got = c.data.length := by
  obtain ⟨_, _, _, _, _, _, cmd, _, _, _⟩ := h
  rw [cmd]
  rfl

end

/-- A command that has its final response takes no more data. -/
theorem feed_answer (fu : Fuses) (x : Module) (q : Nat) (c : Cmd) (st w4 w5 : Nat) :
    (x.answer q c st w4 w5).feed fu q c.tag = x.answer q c st w4 w5 := by
  unfold Module.feed
  split
  · rfl
  · next d found =>
    have own : d.tag = c.tag := by simpa using List.find?_some found
    have answered : d.state = 2 := answered_of_mem own (List.mem_of_find?_eq_some found)
    rw [if_pos (by rw [answered]; rfl)]

/-! ### The function that each starts -/

section
variable {fu : Fuses} {x : Module} {q : Nat} {c : Cmd}

theorem startCmd_readJob (op : c.opcode = 0x21) (held : (x.job c.job).state ≠ 0) : x.startCmd fu q c = x.readJob fu q c := by
  rw [Module.startCmd, start_live x c (.inr (.inr (.inr held))), op]
  rfl

theorem startCmd_objWrite (op : c.opcode = 0x28) : x.startCmd fu q c = (x.startObjWrite q c).feed fu q c.tag := by
  rw [Module.startCmd, start_live x c (.inr (.inl (by rw [op]; rfl))), op]
  rfl

theorem startCmd_objRead (op : c.opcode = 0x29) : x.startCmd fu q c = x.objRead q c := by
  rw [Module.startCmd, start_live x c (.inr (.inl (by rw [op]; rfl))), op]
  rfl

theorem startCmd_objDelete (op : c.opcode = 0x2A) : x.startCmd fu q c = x.objDelete q c := by
  rw [Module.startCmd, start_live x c (.inr (.inl (by rw [op]; rfl))), op]
  rfl

theorem startCmd_objInfo (op : c.opcode = 0x2B) : x.startCmd fu q c = x.objInfo q c := by
  rw [Module.startCmd, start_live x c (.inr (.inl (by rw [op]; rfl))), op]
  rfl

variable (op : c.opcode = 0x20) (held : (x.job c.job).state ≠ 0) (placed : (x.job c.job).state ≠ 1)
include op held placed

/-- WRITE_JOB starts where its range is not refused (R427). -/
theorem startCmd_writeJob : x.startCmd fu q c =
    if x.rangeRefused c.job (c.w 2) (c.w 3) ≠ stOk then x.answer q c (x.rangeRefused c.job (c.w 2) (c.w 3)) 0 0
    else (x.started q c).feed fu q c.tag := by
  rw [Module.startCmd, start_live x c (.inr (.inr (.inr held))), op]
  dsimp only
  rw [if_neg (by decide), if_neg placed]
  simp only [bne_iff_ne]

end

/-! ### WRITE_JOB (R427) -/

/-- The data of the WRITE_JOB `c` that have come stand at its range in module `z`, and the rest of HBM is as it was in `x`. -/
def TakesJobData (x : Module) (c : Cmd) (z : Module) : Prop :=
  ∀ a, z.hbm.get a = if (x.job c.job).hbmBase + c.w 2 ≤ a ∧ a < (x.job c.job).hbmBase + c.w 2 + min (c.w 3) c.data.length
    then c.data.getD (a - ((x.job c.job).hbmBase + c.w 2)) 0 else x.hbm.get a

/-- The module with the data of a WRITE_JOB's first packet in the job's region. -/
def jobWritten (x : Module) (q : Nat) (c : Cmd) : Module :=
  (x.started q c).storeAt c.job 0 2 (c.w 2) (c.data.take (c.w 3)) false

section
variable {x : Module} {q : Nat} {c : Cmd}

theorem takesJobData_jobWritten : TakesJobData x c (jobWritten x q c) := by
  intro a
  rw [jobWritten, wr_get, List.length_take]
  refine ite_congr rfl (fun inside => ?_) (fun _ => rfl)
  have below := inside.2
  show (c.data.take (c.w 3)).getD (a - ((x.job c.job).hbmBase + c.w 2)) 0 = _
  rw [List.getD_eq_getElem?_getD, List.getElem?_take_of_lt (by omega), ← List.getD_eq_getElem?_getD]

theorem keeps_jobWritten : KeepsBut [.hbm, .hbmPoison, .queues] x (jobWritten x q c) :=
  keeps_trans (keeps_mono (started_keeps x q c) (by decide)) (keeps_mono (wr_keeps _ _ _ _) (by decide))

end

/-- The data of a WRITE_JOB's first packet go to the start of its range (R427). -/
theorem feedWrite_of_first (m : Module) (q : Nat) {d : Cmd} (runs : m.dataStopped d = false)
    (passes : m.rangeRefused d.job (d.w 2) (d.w 3) = stOk) (got : d.got = d.data.length) (len : d.dataLen = d.w 3) :
    m.feedWrite q d = if d.whole then (m.storeAt d.job 0 2 (d.w 2) (d.data.take (d.w 3)) false).answer q d stOk 0 0
      else (m.storeAt d.job 0 2 (d.w 2) (d.data.take (d.w 3)) false).onCmd q d.tag (fun c => { c with data := [] }) := by
  unfold Module.feedWrite
  dsimp only
  rw [runs, passes, if_neg (by decide), if_neg (by decide), got, len, Nat.sub_self, Nat.sub_zero, Nat.add_zero]

section
variable {s : State} {q : Nat} {p : Packet} {ups : List FlashUpset} {c : Cmd} {x : Module} (h : Begins s q p ups c x)
include h

/-- A WRITE_JOB that starts takes its first packet, and ends with it if that holds all of its data (R427). -/
theorem feed_writeJob (op : c.opcode = 0x20) (passes : x.rangeRefused c.job (c.w 2) (c.w 3) = stOk) :
    (x.started q c).feed s.fuse q c.tag =
      if c.whole then (jobWritten x q c).answer q { c with state := 1 } stOk 0 0
      else (jobWritten x q c).onCmd q c.tag (fun c => { c with data := [] }) := by
  have waits : c.state = 0 := by
    obtain ⟨_, _, _, _, _, _, _, _, _, next⟩ := h
    exact (next_count next).2.1
  have runs : (x.started q c).dataStopped { c with state := 1 } = false :=
    (dataStopped_started x q waits).trans (dataStopped_of_begins h)
  have got : c.got = c.data.length := got_of_begins h
  have len : c.dataLen = c.w 3 := by simp [Cmd.dataLen, op]
  unfold Module.feed
  rw [feed_started h rfl]
  dsimp only
  rw [if_neg (by decide), if_pos op]
  exact feedWrite_of_first (x.started q c) q (d := { c with state := 1 }) runs passes got len

end

/-- WRITE_JOB writes the bytes of its range that have come, and ends once all have (R427). -/
theorem goes_writeJob {s : State} {q : Nat} {p : Packet} {c : Cmd} {x : Module} (h : Begins s q p [] c x) (op : c.opcode = 0x20)
    (held : (x.job c.job).state ≠ 0) (placed : (x.job c.job).state ≠ 1) :
    (x.rangeRefused c.job (c.w 2) (c.w 3) ≠ stOk →
      Goes s (.writeJob q p) (Ends s.fuse x q c (x.rangeRefused c.job (c.w 2) (c.w 3)) 0 0 (fun z => z = x))) ∧
    (x.rangeRefused c.job (c.w 2) (c.w 3) = stOk → c.whole = true → Goes s (.writeJob q p) (fun n => ∃ z,
      n = thenStart s.fuse x (z.answer q { c with state := 1 } stOk 0 0) ∧
      TakesJobData x c z ∧ KeepsBut [.hbm, .hbmPoison, .queues] x z)) ∧
    (x.rangeRefused c.job (c.w 2) (c.w 3) = stOk → c.whole = false → Goes s (.writeJob q p) (fun n => ∃ z,
      n = thenStart s.fuse x z ∧
      TakesJobData x c z ∧ KeepsBut [.hbm, .hbmPoison, .queues] x z)) := by
  have starts := startCmd_writeJob (fu := s.fuse) (q := q) op held placed
  refine ⟨fun refused => ?_, fun passes whole => ?_, fun passes part => ?_⟩
  · exact goes_command h rfl op (starts.trans (if_pos refused)) (ends_answer rfl)
  · refine goes_command h rfl op (starts.trans ((if_neg (not_not_intro passes)).trans ((feed_writeJob h op passes).trans
      (if_pos whole)))) ⟨_, rfl, takesJobData_jobWritten, keeps_jobWritten⟩
  · refine goes_command h rfl op (starts.trans ((if_neg (not_not_intro passes)).trans ((feed_writeJob h op passes).trans
      (if_neg (ne_true_of_eq_false part))))) ⟨_, rfl, takesJobData_jobWritten, ?_⟩
    exact keeps_trans keeps_jobWritten (keeps_mono (keeps_onQueue _ _ _) (by decide))

/-! ### READ_JOB (R427) -/

/-- The poisoned granules that a READ_JOB meets. -/
def readPoison (x : Module) (c : Cmd) : List Nat :=
  x.hbmPoison.filter (fun g => decide (32 * g < (x.job c.job).hbmBase + c.w 2 + c.w 3) &&
    decide ((x.job c.job).hbmBase + c.w 2 < 32 * g + 32))

section
variable {fu : Fuses} {x : Module} {q : Nat} {c : Cmd} (held : (x.job c.job).state ≠ 0) (placed : (x.job c.job).state ≠ 1)
include held placed

theorem readJob_of_refused (refused : x.rangeRefused c.job (c.w 2) (c.w 3) ≠ stOk) :
    x.readJob fu q c = x.answer q c (x.rangeRefused c.job (c.w 2) (c.w 3)) 0 0 :=
  (if_neg (by simp [held, placed])).trans (if_pos (bne_iff_ne.2 refused))

theorem readJob_of_passed (passes : x.rangeRefused c.job (c.w 2) (c.w 3) = stOk) : ∃ first count,
    x.readJob fu q c = (x.request fu c.job ((x.job c.job).hbmBase + c.w 2) (c.w 3)).answerData q c
      (if (readPoison x c).isEmpty then stOk else stPoison) first count (x.hbm.read ((x.job c.job).hbmBase + c.w 2) (c.w 3)) :=
  ⟨_, _, (if_neg (by simp [held, placed])).trans (if_neg fun refused => bne_iff_ne.1 refused passes)⟩

end

section
variable {x : Module} {c : Cmd}

/-- A READ_JOB meets poison where a poisoned granule shares a byte with its range. -/
theorem readPoison_isEmpty : (readPoison x c).isEmpty = false ↔
    ∃ g ∈ x.hbmPoison, 32 * g < (x.job c.job).hbmBase + c.w 2 + c.w 3 ∧ (x.job c.job).hbmBase + c.w 2 < 32 * g + 32 := by
  rw [List.isEmpty_eq_false_iff_exists_mem]
  simp [readPoison]

variable {s : State} {q : Nat} {p : Packet} (h : Begins s q p [] c x) (op : c.opcode = 0x21) (held : (x.job c.job).state ≠ 0)
  (placed : (x.job c.job).state ≠ 1)
include h op held placed

/-- READ_JOB delivers its range and tells of its poison (R427). -/
theorem goes_readJob :
    (x.rangeRefused c.job (c.w 2) (c.w 3) ≠ stOk →
      Goes s (.readJob q p) (Ends s.fuse x q c (x.rangeRefused c.job (c.w 2) (c.w 3)) 0 0 (fun z => z = x))) ∧
    (x.rangeRefused c.job (c.w 2) (c.w 3) = stOk → Goes s (.readJob q p) (fun n => ∃ st first count,
      n = thenStart s.fuse x ((x.request s.fuse c.job ((x.job c.job).hbmBase + c.w 2) (c.w 3)).answerData q c st first count
        (x.hbm.read ((x.job c.job).hbmBase + c.w 2) (c.w 3))) ∧
      KeepsBut hbmReading x (x.request s.fuse c.job ((x.job c.job).hbmBase + c.w 2) (c.w 3)) ∧
      (st = stPoison ↔ ∃ g ∈ x.hbmPoison, 32 * g < (x.job c.job).hbmBase + c.w 2 + c.w 3 ∧
        (x.job c.job).hbmBase + c.w 2 < 32 * g + 32) ∧
      (st = stPoison ∨ st = stOk))) := by
  have starts := startCmd_readJob (fu := s.fuse) (q := q) op held
  refine ⟨fun refused => ?_, fun passes => ?_⟩
  · exact goes_command h rfl op (starts.trans (readJob_of_refused held placed refused)) (ends_answer rfl)
  · obtain ⟨first, count, reads⟩ := readJob_of_passed (fu := s.fuse) (q := q) held placed passes
    refine goes_command h rfl op (starts.trans reads) ⟨_, first, count, rfl, keeps_request s.fuse x _ _ _, ?_⟩
    rw [← readPoison_isEmpty]
    cases (readPoison x c).isEmpty <;> decide

end

/-! ### OBJ_WRITE (R400) -/

/-- Whether an object may be written is a matter of the store, the dictionary and the jobs (R400). -/
theorem objWriteRefused_congr {m n : Module} (store : n.store = m.store) (od : n.od = m.od) (jobs : n.jobs = m.jobs) (c : Cmd) :
    n.objWriteRefused c = m.objWriteRefused c := by
  unfold Module.objWriteRefused Module.writeRefused Module.coilState Module.quota Module.expertNamed Module.odGet
  rw [store, od, jobs]

/-- The module in which the OBJ_WRITE `c` has a write in progress. -/
def writeOpened (x : Module) (c : Cmd) : Module := x.onStore (fun t => { t with writing := t.writing ++ [(c.w 2, c.w 3)] })

section
variable {fu : Fuses} {x : Module} {q : Nat} {c : Cmd}

theorem startObjWrite_of_refused (refused : x.objWriteRefused c ≠ stOk) :
    x.startObjWrite q c = x.answer q c (x.objWriteRefused c) 0 0 := if_pos (bne_iff_ne.2 refused)

variable (passes : x.objWriteRefused c = stOk)
include passes

theorem startObjWrite_of_passed : x.startObjWrite q c = (writeOpened x c).started q c :=
  if_neg fun refused => bne_iff_ne.1 refused passes

/-- An object that may be written has no write in progress (R400). -/
theorem not_writing_of_passed : (c.w 2, c.w 3) ∉ x.store.writing := by
  intro writing
  have contains : x.store.writing.contains (c.w 2, c.w 3) = true := by simpa using writing
  have denied : x.writeRefused (c.w 2) (c.w 3) (c.w 4) = stDenied := if_pos (by rw [contains]; simp)
  unfold Module.objWriteRefused at passes
  rw [denied] at passes
  revert passes
  split <;> decide

/-- The write in progress, once closed, leaves the store as it was. -/
theorem closeWrite_writeOpened : (((writeOpened x c).started q c).closeWrite { c with state := 1 }).store = x.store := by
  have others : x.store.writing.filter (· != (c.w 2, c.w 3)) = x.store.writing :=
    List.filter_eq_self.2 fun k mem => bne_iff_ne.2 fun same => not_writing_of_passed passes (same ▸ mem)
  have closed : (x.store.writing ++ [(c.w 2, c.w 3)]).filter (· != (c.w 2, c.w 3)) = x.store.writing := by
    rw [List.filter_append, others]
    simp
  exact congrArg (fun l => { x.store with writing := l }) closed

/-- An OBJ_WRITE's own write in progress is no reason to refuse it at its end. -/
theorem objWriteRefused_closed : (((writeOpened x c).started q c).closeWrite { c with state := 1 }).objWriteRefused c = stOk := by
  have store := closeWrite_writeOpened (q := q) passes
  have od : (((writeOpened x c).started q c).closeWrite { c with state := 1 }).od = x.od := rfl
  have jobs : (((writeOpened x c).started q c).closeWrite { c with state := 1 }).jobs = x.jobs := rfl
  exact (objWriteRefused_congr store od jobs c).trans passes

/-- All data of an OBJ_WRITE record its version (R400). -/
theorem endObjWrite_of_passed : ((writeOpened x c).started q c).endObjWrite fu q { c with state := 1 } =
    ((((writeOpened x c).started q c).closeWrite { c with state := 1 }).putObj fu (Obj.named (c.w 2) (c.w 3))
      (c.data.take (c.w 4))).answer q { c with state := 1 } stOk 0 0 :=
  if_neg fun refused => bne_iff_ne.1 refused (objWriteRefused_closed passes)

end

theorem keeps_closeWrite {x : Module} {q : Nat} {c : Cmd} :
    KeepsBut [.store, .queues] x (((writeOpened x c).started q c).closeWrite { c with state := 1 }) :=
  keeps_trans (keeps_mono (keeps_onStore x _) (by decide)) (keeps_trans (keeps_mono (started_keeps _ q c) (by decide))
    (keeps_mono (keeps_onStore _ _) (by decide)))

section
variable {s : State} {q : Nat} {p : Packet} {ups : List FlashUpset} {c : Cmd} {x : Module} (h : Begins s q p ups c x)
  (op : c.opcode = 0x28)
include h op

/-- An OBJ_WRITE ends with its first packet if that holds all of its data (R421). -/
theorem feed_writeOpened : ((writeOpened x c).started q c).feed s.fuse q c.tag =
    if c.whole then ((writeOpened x c).started q c).endObjWrite s.fuse q { c with state := 1 }
    else (writeOpened x c).started q c := by
  unfold Module.feed
  rw [feed_started h (z := writeOpened x c) rfl]
  dsimp only
  rw [if_neg (by decide), if_neg (by rw [op]; decide)]
  rw [show ({ c with state := 1 } : Cmd).whole = c.whole from rfl]
  cases c.whole
  · rw [if_pos (by decide), if_neg (by decide)]
  · rw [if_neg (by decide), if_neg (by rw [op]; decide), if_pos op, if_pos rfl]

theorem goes_objWrite_of_refused (refused : x.objWriteRefused c ≠ stOk) :
    Goes s (.objWrite q p ups) (Ends s.fuse x q c (x.objWriteRefused c) 0 0 (fun z => z = x)) := by
  refine goes_command h rfl op ((startCmd_objWrite op).trans ?_) (ends_answer rfl)
  rw [startObjWrite_of_refused refused, feed_answer]

variable (passes : x.objWriteRefused c = stOk)
include passes

theorem startCmd_objWrite_of_passed : x.startCmd s.fuse q c =
    if c.whole then ((writeOpened x c).started q c).endObjWrite s.fuse q { c with state := 1 }
    else (writeOpened x c).started q c := by
  rw [startCmd_objWrite op, startObjWrite_of_passed passes, feed_writeOpened h op]

theorem goes_objWrite_of_part (part : c.whole = false) : Goes s (.objWrite q p ups) (RunsOn s.fuse x q c (fun z =>
    z.store = { x.store with writing := x.store.writing ++ [(c.w 2, c.w 3)] } ∧ KeepsBut [.store] x z)) :=
  goes_command h rfl op ((startCmd_objWrite_of_passed h op passes).trans (if_neg (ne_true_of_eq_false part)))
    (runsOn_started ⟨rfl, keeps_onStore x _⟩)

theorem goes_objWrite_of_whole (whole : c.whole = true) : Goes s (.objWrite q p ups) (fun n => ∃ z,
    n = thenStart s.fuse x (z.answer q { c with state := 1 } stOk 0 0) ∧
    (∃ o ∈ z.store.objs, o.part = c.w 2 ∧ o.id = c.w 3 ∧ o.len = (c.data.take (c.w 4)).length ∧
      o.sha = sha512 (c.data.take (c.w 4)) ∧ o.data = Mem.cells 0 (c.data.take (c.w 4))) ∧
    (∀ o ∈ z.store.objs, o.part ≠ c.w 2 → ∃ k ∈ x.store.objs, o = { k with place := o.place }) ∧
    KeepsBut [.store, .od, .log, .report, .queues] x z) := by
  obtain ⟨stands, others⟩ := putObj_has s.fuse (((writeOpened x c).started q c).closeWrite { c with state := 1 }) (c.w 2) (c.w 3)
    (c.data.take (c.w 4))
  rw [closeWrite_writeOpened passes] at others
  exact goes_command h rfl op ((startCmd_objWrite_of_passed h op passes).trans ((if_pos whole).trans (endObjWrite_of_passed passes)))
    ⟨_, rfl, stands, others, keeps_trans (keeps_mono keeps_closeWrite (by decide)) (keeps_mono (keeps_putObj _ _ _ _) (by decide))⟩

end

/-! ### OBJ_READ and OBJ_INFO (R400, R402) -/

section
variable {x : Module} {q : Nat} {c : Cmd} (part : c.partOk = true) (reads : x.storeReads = true)
include part reads

theorem objRefused_of_absent (absent : x.store.find (c.w 2) (c.w 3) = none) : x.objRefused c = stBadIndex := by
  simp [Module.objRefused, part, reads, absent]

theorem objRefused_of_stored {o : Obj} (stored : x.store.find (c.w 2) (c.w 3) = some o) : x.objRefused c = stOk := by
  simp [Module.objRefused, part, reads, stored]

theorem objRead_of_absent (absent : x.store.find (c.w 2) (c.w 3) = none) (some_length : 0 < c.w 5) :
    x.objRead q c = x.answer q c stBadIndex 0 0 := by
  unfold Module.objRead
  dsimp only
  rw [objRefused_of_absent part reads absent, if_neg (by decide), if_neg some_length.ne', absent]

theorem objRead_of_stored {o : Obj} (stored : x.store.find (c.w 2) (c.w 3) = some o) (some_length : 0 < c.w 5)
    (inside : c.w 4 + c.w 5 ≤ o.len) : ∃ first, x.objRead q c =
      (x.bump (odKey 0x6020 11) (o.delivered (c.w 4) (c.w 5))).answerData q c
        (if (o.firstPoison (c.w 4) (c.w 5)).isSome then stPoison else stOk) first 0
        (o.data.read (c.w 4) (o.delivered (c.w 4) (c.w 5))) := by
  unfold Module.objRead
  dsimp only
  rw [objRefused_of_stored part reads stored, if_neg (by decide), if_neg some_length.ne', stored]
  exact ⟨_, if_neg (Nat.not_lt_of_le inside)⟩

theorem objInfo_of_absent (absent : x.store.find (c.w 2) (c.w 3) = none) : x.objInfo q c = x.answer q c stBadIndex 0 0 := by
  unfold Module.objInfo
  dsimp only
  rw [absent, objRefused_of_absent part reads absent]

theorem objInfo_of_stored {o : Obj} (stored : x.store.find (c.w 2) (c.w 3) = some o) :
    ∃ kind, x.objInfo q c = x.answerData q c stOk o.len kind o.sha := by
  unfold Module.objInfo
  dsimp only
  rw [stored, objRefused_of_stored part reads stored]
  exact ⟨_, if_neg (by decide)⟩

end

/-- A range without poison is delivered whole (R402). -/
theorem delivered_of_clean {o : Obj} {off n : Nat} (clean : o.firstPoison off n = none) : o.delivered off n = n := by
  have none := Option.map_eq_none_iff.1 clean
  unfold Obj.delivered
  rw [none]

section
variable {s : State} {q : Nat} {p : Packet} {ups : List FlashUpset} {c : Cmd} {x : Module} (part : c.partOk = true)
  (reads : x.storeReads = true)
include part reads

theorem goes_objRead_of_absent (h : Begins s q p ups c x) (absent : x.store.find (c.w 2) (c.w 3) = none) (op : c.opcode = 0x29)
    (some_length : 0 < c.w 5) : Goes s (.objRead q p ups) (Ends s.fuse x q c stBadIndex 0 0 (fun z => z = x)) :=
  goes_command h rfl op ((startCmd_objRead op).trans (objRead_of_absent part reads absent some_length)) (ends_answer rfl)

theorem goes_objInfo_of_absent (h : Begins s q p [] c x) (absent : x.store.find (c.w 2) (c.w 3) = none) (op : c.opcode = 0x2B) :
    Goes s (.objInfo q p) (Ends s.fuse x q c stBadIndex 0 0 (fun z => z = x)) :=
  goes_command h rfl op ((startCmd_objInfo op).trans (objInfo_of_absent part reads absent)) (ends_answer rfl)

variable {o : Obj} (stored : x.store.find (c.w 2) (c.w 3) = some o)
include stored

/-- OBJ_READ delivers the bytes of its range before the first page with poison (R402). -/
theorem goes_objRead_of_stored (h : Begins s q p ups c x) (op : c.opcode = 0x29) (some_length : 0 < c.w 5)
    (inside : c.w 4 + c.w 5 ≤ o.len) : Goes s (.objRead q p ups) (fun n => ∃ z st first,
      n = thenStart s.fuse x (z.answerData q c st first 0 (o.data.read (c.w 4) (o.delivered (c.w 4) (c.w 5)))) ∧
      (o.firstPoison (c.w 4) (c.w 5) = none → o.delivered (c.w 4) (c.w 5) = c.w 5) ∧
      (st = if (o.firstPoison (c.w 4) (c.w 5)).isSome then stPoison else stOk) ∧ KeepsBut [.od] x z) := by
  obtain ⟨first, delivers⟩ := objRead_of_stored (q := q) part reads stored some_length inside
  exact goes_command h rfl op ((startCmd_objRead op).trans delivers)
    ⟨_, _, first, rfl, delivered_of_clean, rfl, keeps_bump x _ _⟩

theorem goes_objInfo_of_stored (h : Begins s q p [] c x) (op : c.opcode = 0x2B) :
    Goes s (.objInfo q p) (fun n => ∃ kind, n = thenStart s.fuse x (x.answerData q c stOk o.len kind o.sha)) := by
  obtain ⟨kind, tells⟩ := objInfo_of_stored (q := q) part reads stored
  exact goes_command h rfl op ((startCmd_objInfo op).trans tells) ⟨kind, rfl⟩

end

/-! ### OBJ_DELETE (R400, R406) -/

/-- Whether the object that an OBJ_DELETE names is in use: a pinned set, or an EXPERT object that a loaded image names. -/
def InUse (x : Module) (c : Cmd) : Prop :=
  c.w 2 = 2 ∧ bitAt (x.odGet (odKey 0x6030 1)) (c.w 3) = true ∨ c.w 2 = 1 ∧ x.expertNamed (c.w 3) = true

section
variable {x : Module} {q : Nat} {c : Cmd} (part : c.partOk = true)
include part

theorem objDelete_of_inUse (used : InUse x c) : x.objDelete q c = x.answer q c stDenied 0 0 := by
  unfold Module.objDelete
  rw [if_neg (by simp [part]), if_pos]
  rcases used with ⟨set, pinned⟩ | ⟨expert, named⟩
  · simp [set, pinned]
  · simp [expert, named]

theorem objDelete_of_stored (mounted : x.coilState = 2) (unused : ¬InUse x c) (stored : (x.store.find (c.w 2) (c.w 3)).isSome = true) :
    x.objDelete q c = (x.onStore (fun t => { t with
      objs := t.objs.filter (fun o => !(o.part == c.w 2 && o.id == c.w 3)) })).answer q c stOk 0 0 := by
  unfold Module.objDelete
  rw [if_neg (by simp [part]), if_neg, if_neg (by simpa using Option.isSome_iff_ne_none.1 stored)]
  simpa [mounted, InUse] using unused

end

/-- OBJ_DELETE takes its object alone from the store (R400). -/
theorem goes_objDelete {s : State} {q : Nat} {p : Packet} {c : Cmd} {x : Module} (h : Begins s q p [] c x) (op : c.opcode = 0x2A)
    (part : c.partOk = true) (mounted : x.coilState = 2) (stored : (x.store.find (c.w 2) (c.w 3)).isSome = true) :
    (InUse x c → Goes s (.objDelete q p) (Ends s.fuse x q c stDenied 0 0 (fun z => z = x))) ∧
    (¬InUse x c → Goes s (.objDelete q p) (Ends s.fuse x q c stOk 0 0 (fun z =>
      (∀ o, o ∈ z.store.objs ↔ o ∈ x.store.objs ∧ ¬(o.part = c.w 2 ∧ o.id = c.w 3)) ∧ KeepsBut [.store] x z))) := by
  refine ⟨fun used => ?_, fun unused => ?_⟩
  · exact goes_command h rfl op ((startCmd_objDelete op).trans (objDelete_of_inUse part used)) (ends_answer rfl)
  · refine goes_command h rfl op ((startCmd_objDelete op).trans (objDelete_of_stored part mounted unused stored))
      (ends_answer ⟨fun o => ?_, keeps_onStore x _⟩)
    simp [Module.onStore, List.mem_filter, imp_iff_not_or]

/-! ### The obligation -/

/-- Settles O52: each command starts the one function whose lemmas above say, case by case, what it leaves. -/
theorem hostCommandsOnStateAndData : Obligations.HostCommandsOnStateAndData := by
  intro s q p ups c x h j b fu slot
  refine ⟨fun op => ⟨goes_stage_of_refused h op, fun o passes found => ⟨goes_stage_of_poison h op passes found,
      goes_stage_of_clean h op passes found⟩⟩, ?turns, ?save, ?release, ?malformed, ?snapshot,
    fun op held o source => ?restore, fun e none program live => ?pins, ?write, ?read,
    fun op => ⟨goes_objWrite_of_refused h op, goes_objWrite_of_part h op, goes_objWrite_of_whole h op⟩,
    fun part reads => ⟨fun absent => ⟨goes_objRead_of_absent part reads h absent, ?infoAbsent⟩,
      fun o stored => ⟨goes_objRead_of_stored part reads stored h, ?infoStored⟩⟩, ?delete⟩
  case turns =>
    rintro r row rfl op
    simp only [List.mem_cons, List.not_mem_nil, or_false] at row
    rcases row with rfl | rfl
    · exact goes_turnSlots h rfl op (startCmd_activate op)
    · exact goes_turnSlots h rfl op (startCmd_deactivate op)
  case save =>
    rintro rfl op live full room clean
    exact goes_save h op live full room clean
  case release =>
    rintro rfl op live
    exact goes_releaseSlot h op live
  case malformed =>
    rintro rfl op bad
    exact goes_snapshot_of_malformed h op bad
  case snapshot =>
    rintro rfl op good
    exact ⟨goes_snapshot_of_running h op good, fun loaded ranked clean =>
      ⟨goes_snapshot_to_host h op good loaded ranked clean, goes_snapshot_to_store h op good loaded ranked clean⟩⟩
  case restore =>
    obtain rfl : o = restoreSource x c := source
    exact ⟨goes_restore_of_refused h op held, fun k => goes_restore_of_alone h op held⟩
  case pins =>
    subst none
    exact ⟨fun op => goes_pinExpert_of_full h program live op, fun op room => goes_pinExpert_of_room h program live op room,
      fun op => (goes_unpinExpert h program live op).1, fun op => (goes_unpinExpert h program live op).2⟩
  case write =>
    rintro rfl op held placed
    exact goes_writeJob h op held placed
  case read =>
    rintro rfl op held placed
    obtain ⟨refused, passed⟩ := goes_readJob h op held placed
    exact ⟨refused, passed⟩
  case infoAbsent =>
    rintro rfl op
    exact goes_objInfo_of_absent part reads h absent op
  case infoStored =>
    rintro rfl op
    exact goes_objInfo_of_stored part reads stored h op
  case delete =>
    rintro rfl op part mounted stored
    exact goes_objDelete h op part mounted stored

end Sys2Proof.Proofs
end

section
/-!
PROOFS. State snapshots whose write ends (R285, R399, R400), and the writes in progress, which the store's own work leaves.
-/
namespace Sys2Proof.Proofs

open Sys2Proof Sys2Proof.Machine Sys2Proof.Laws

/-! ### Writes in progress (R400) -/

theorem openAt_writing (c : Coil) (rel : Bool) (s : Nat) : (c.openAt rel s).writing = c.writing := by
  cases rel <;> rfl

/-- Placing extents, one superblock after another, ends no write and begins none. -/
theorem alloc_writing (rel : Bool) (fuel : Nat) (c : Coil) (n : Nat) : (Coil.alloc rel fuel c n).1.writing = c.writing := by
  induction fuel generalizing c n with
  | zero => rfl
  | succ fuel ih =>
    rw [Coil.alloc]
    dsimp only
    split
    · rfl
    split
    · split
      · split
        · rfl
        · rw [ih, openAt_writing]
      · exact ih _ _
    · split
      · rfl
      · rw [ih, openAt_writing]

theorem place_writing (c : Coil) (rel : Bool) (n : Nat) : (c.place rel n).1.writing = c.writing := alloc_writing rel _ c n

theorem withObjs_writing (c : Coil) (os : List Obj) : ({ c with objs := os } : Coil).writing = c.writing := rfl

theorem putBytes_writing (c : Coil) (o : Obj) (bs : List Byte) : (c.putBytes o bs).writing = c.writing :=
  (withObjs_writing _ _).trans ((place_writing _ false _).trans (withObjs_writing c _))

theorem trimKept_writing (c : Coil) (j : Nat) : (c.trimKept j).writing = c.writing := by
  unfold Coil.trimKept
  split
  · rfl
  · exact withObjs_writing c _

section
variable (fu : Fuses) (m : Module)

theorem store_onStore (f : Coil → Coil) : (m.onStore f).store = f m.store := rfl

theorem writing_judgePins : (m.judgePins fu).store.writing = m.store.writing := by
  have overridden : ∀ v, (m.onStore (fun c => { c with pinsOverridden := v })).store.writing = m.store.writing := fun _ => rfl
  unfold Module.judgePins
  dsimp only
  split
  · split
    · exact overridden false
    · rfl
  split
  · rw [reason_store, event_store]
    exact overridden true
  · rfl

theorem writing_checkStore (old : Coil) : (m.checkStore fu old).store.writing = m.store.writing := by
  obtain ⟨y, judged, keeps⟩ := checkStore_pins fu m old
  rw [judged, writing_judgePins, keeps .store (by decide)]

theorem writing_relocate (s : Nat) : (m.relocate s).store.writing = m.store.writing := by
  unfold Module.relocate
  dsimp only
  rw [bump_store]
  refine List.foldlRecOn (motive := fun acc : Coil × List Obj => acc.1.writing = m.store.writing) m.store.objs _ rfl
    (fun acc same o _ => ?_)
  split
  · exact same
  · exact (place_writing acc.1 true _).trans same

theorem writing_retireBlock (die block cause : Nat) : (m.retireBlock fu die block cause).store.writing = m.store.writing := by
  unfold Module.retireBlock
  dsimp only
  split
  · rfl
  rw [writing_checkStore, event_store]
  split
  · exact writing_relocate _ block
  · rfl

theorem writing_pageRebuilt (part die block page : Nat) : (m.pageRebuilt fu part die block page).store.writing = m.store.writing := by
  rw [Module.pageRebuilt, writing_retireBlock, event_store, bump_store]

theorem writing_meetFlaws (wrote read : Coil → Nat → Bool) (n : Nat) (m : Module) :
    (Module.meetFlaws fu wrote read n m).store.writing = m.store.writing := by
  induction n generalizing m with
  | zero => rfl
  | succ n ih =>
    rw [Module.meetFlaws]
    dsimp only
    split
    · rfl
    · rw [ih]
      split
      · exact writing_retireBlock fu _ _ _ _
      · exact writing_pageRebuilt fu _ _ _ _ _

/-- The store with an object recorded, before the thresholds are judged. -/
def recorded (o : Obj) (bs : List Byte) (c : Coil) : Coil :=
  if o.isSnapOf (field o.id 56 4) then (c.putBytes o bs).trimKept (field o.id 56 4) else c.putBytes o bs

theorem recorded_writing (o : Obj) (bs : List Byte) (c : Coil) : (recorded o bs c).writing = c.writing := by
  unfold recorded
  split
  · rw [trimKept_writing, putBytes_writing]
  · exact putBytes_writing c o bs

theorem putObj_eq (o : Obj) (bs : List Byte) : m.putObj fu o bs =
    ((((m.onStore (recorded o bs)).bump (odKey 0x6020 12) bs.length).bump (odKey 0x6020 13)
      (flashBytes (extentsFor bs.length))).checkStore fu m.store).afterWork fu m.store := rfl

/-- An object that is recorded leaves the writes in progress. -/
theorem writing_putObj (o : Obj) (bs : List Byte) : (m.putObj fu o bs).store.writing = m.store.writing := by
  rw [putObj_eq, Module.afterWork, writing_meetFlaws, writing_checkStore, bump_store, bump_store, store_onStore, recorded_writing]

end

/-! ### The write of a snapshot ends -/

/-- The write of a job's snapshot of a step is in progress no more. -/
def snapClosed (m : Module) (j step : Nat) : Module := (m.onJob j (fun b => { b with pendingSnap := none })).closeSnap (moduleId 0 j step)

/-- What is left of the jobs and of the other parts once a snapshot's write has ended. -/
structure SnapEnded (j : Nat) (m n : Module) : Prop where
  own : n.job j = { m.job j with pendingSnap := none }
  others : OtherJobs j m n
  keeps : KeepsBut [.jobs, .store, .od, .log, .report] m n

theorem snapEnded_snapClosed {m : Module} {j : Nat} (hl : j < m.jobs.length) (step : Nat) : SnapEnded j m (snapClosed m j step) :=
  ⟨job_onJob_self m j _ hl, fun i hi => job_onJob_other m j i _ hi,
    keeps_trans (keeps_mono (keeps_onJob m j _) (by decide)) (keeps_mono (keeps_onStore _ _) (by decide))⟩

/-- What the store and the reports do afterwards leaves the jobs so. -/
theorem SnapEnded.trans {j : Nat} {a b c : Module} (h : SnapEnded j a b) (k : KeepsBut [.store, .od, .log, .report] b c) :
    SnapEnded j a c := by
  have job : ∀ i, c.job i = b.job i := fun i => congrArg (fun l => l.getD i Job.free) (k .jobs (by decide))
  exact ⟨(job j).trans h.own, fun i hi => (job i).trans (h.others i hi), keeps_trans h.keeps (keeps_mono k (by decide))⟩

theorem job_of_length_le {m : Module} {j : Nat} (h : m.jobs.length ≤ j) : m.job j = Job.free := by
  simp [Module.job, List.getD_eq_getElem?_getD, List.getElem?_eq_none h]

/-- A context whose snapshot is being written is one of the module's. -/
theorem job_lt_of_pendingSnap {m : Module} {j : Nat} {x : Nat × List Byte} (h : (m.job j).pendingSnap = some x) : j < m.jobs.length := by
  refine Nat.lt_of_not_le (fun hn => ?_)
  simp [job_of_length_le hn, Job.free] at h

/-- The module once a snapshot's write has finished. -/
def snapKept (fu : Fuses) (m : Module) (j step : Nat) (bs : List Byte) : Module :=
  ((snapClosed m j step).putObj fu (Obj.named 3 (moduleId 0 j step)) bs).bump (odKey 0x7140 4) 1

theorem snapKept_store (fu : Fuses) (m : Module) (j step : Nat) (bs : List Byte) : (snapKept fu m j step bs).store =
    ((snapClosed m j step).putObj fu (Obj.named 3 (moduleId 0 j step)) bs).store := bump_store _ _ _

/-- Whether a snapshot may be written does not look at the jobs (R398, R400). -/
theorem writeRefused_snapClosed (m : Module) (j step len : Nat) :
    (snapClosed m j step).writeRefused 3 (moduleId 0 j step) len =
      (m.closeSnap (moduleId 0 j step)).writeRefused 3 (moduleId 0 j step) len := by
  have other : ((3 : Nat) == 1) = false := by decide
  simp only [Module.writeRefused, other, Bool.false_and]
  rfl

section
variable {s : State} {j step : Nat} {bs : List Byte} (hj : j < 16) (hw : s.m.powered = true)
  (pending : (s.m.job j).pendingSnap = some (step, bs))
include hj hw pending

theorem exec_stateSnapshotComplete_kept (room : (s.m.closeSnap (moduleId 0 j step)).writeRefused 3 (moduleId 0 j step) bs.length = stOk) :
    exec (.stateSnapshotComplete j true) s = .next { s with m := snapKept s.fuse s.m j step bs } := by
  refine (actOn_powered s _ _ (decide_eq_true hj) hw).trans (congrArg (fun m => Host.Outcome.next { s with m := m }) ?_)
  rw [← writeRefused_snapClosed, snapClosed] at room
  dsimp only
  rw [pending]
  dsimp only
  rw [room]
  rfl

theorem exec_stateSnapshotComplete_failed : ∃ l, exec (.stateSnapshotComplete j false) s =
    .next { s with m := (snapClosed s.m j step).event s.fuse 0x0733 l } := by
  have run : exec (.stateSnapshotComplete j false) s = _ := actOn_powered s _ _ (decide_eq_true hj) hw
  rw [pending] at run
  exact ⟨_, run⟩

end

/-- Settles O42: a snapshot that was written is put into the store as any object is; of one that was not, an event tells. -/
theorem snapshotsAreKeptOrNot : Obligations.SnapshotsAreKeptOrNot := by
  intro s j step bs hj hw pending closed
  have ended := snapEnded_snapClosed (job_lt_of_pendingSnap pending) step
  refine ⟨fun room => ?_, ?_⟩
  · obtain ⟨has, others⟩ := putObj_has s.fuse (snapClosed s.m j step) 3 (moduleId 0 j step) bs
    have kept : SnapEnded j s.m (snapKept s.fuse s.m j step bs) :=
      ended.trans (keeps_trans (keeps_putObj s.fuse _ _ bs) (keeps_mono (keeps_bump _ _ _) (by decide)))
    have writing := writing_putObj s.fuse (snapClosed s.m j step) (Obj.named 3 (moduleId 0 j step)) bs
    rw [← snapKept_store] at has others writing
    exact ⟨_, exec_stateSnapshotComplete_kept hj hw pending room, rfl, rfl, kept.own, has, others, writing, kept.others, kept.keeps⟩
  · obtain ⟨l, run⟩ := exec_stateSnapshotComplete_failed hj hw pending
    have told : SnapEnded j s.m ((snapClosed s.m j step).event s.fuse 0x0733 l) :=
      ended.trans (keeps_mono (keeps_still (still_event s.fuse _ _ l)) (by decide))
    exact ⟨_, run, rfl, rfl, told.own, event_store s.fuse _ _ l, told.others, told.keeps⟩

end Sys2Proof.Proofs
end

section
/-!
PROOFS. Buckets applied at rank 0 (R276, R303, R306): the tackles, and the rope's work that follows them.
-/
namespace Sys2Proof.Proofs

open Sys2Proof Sys2Proof.Machine Sys2Proof.Laws

/-! ### What the rope's work leaves -/

/-- From `m` to `n` the rope job's counts, biases and next exponents, its rope, its ports and the reports changed, and nothing else. -/
structure RopeWork (m n : Module) : Prop where
  keeps : KeepsBut [.jobs, .rope, .hawsers, .od, .log, .report] m n
  place : SamePlace m n
  others : OtherJobs m.ropeJob m n
  own : ∃ sats bias next, n.job m.ropeJob =
    { m.job m.ropeJob with run := { (m.job m.ropeJob).run with satCount := sats, bias := bias, nextExp := next } }

theorem SamePlace.ropeJob {m n : Module} (same : SamePlace m n) : n.ropeJob = m.ropeJob := same _ (by decide)

theorem samePlace_trans {a b c : Module} (h : SamePlace a b) (k : SamePlace b c) : SamePlace a c := fun i hi => (k i hi).trans (h i hi)

/-- What keeps the jobs is such work, where it keeps the place in the rope. -/
theorem ropeWork_of_keeps {ps : List Part} {m n : Module} (keeps : KeepsBut ps m n)
    (listed : ∀ p ∈ ps, p ∈ [Part.rope, .hawsers, .od, .log, .report]) (place : SamePlace m n) : RopeWork m n := by
  have job : ∀ i, n.job i = m.job i := fun i =>
    congrArg (fun l => l.getD i Job.free) (keeps .jobs (fun h => absurd (listed _ h) (by decide)))
  exact ⟨keeps_mono keeps (fun p hp => List.mem_cons_of_mem _ (listed p hp)), place, fun i _ => job i, _, _, _, job _⟩

theorem ropeWork_refl (m : Module) : RopeWork m m := ropeWork_of_keeps (keeps_refl [] m) (by decide) (samePlace_refl m)

theorem RopeWork.trans {a b c : Module} (h : RopeWork a b) (k : RopeWork b c) : RopeWork a c := by
  obtain ⟨s, x, y, hb⟩ := h.own
  obtain ⟨s', x', y', hc⟩ := k.own
  have others := k.others
  rw [h.place.ropeJob] at hc others
  exact ⟨keeps_trans h.keeps k.keeps, samePlace_trans h.place k.place, fun i hi => (others i hi).trans (h.others i hi),
    s', x', y', by rw [hc, hb]⟩

theorem ropeWork_foldl {α : Type} (l : List α) (f : Module → α → Module) (hf : ∀ m a, RopeWork m (f m a)) (m : Module) :
    RopeWork m (l.foldl f m) :=
  List.foldlRecOn (motive := RopeWork m) l f (ropeWork_refl m) (fun _ h a _ => h.trans (hf _ a))

theorem ropeWork_ite {m a b : Module} {p : Prop} [Decidable p] (yes : RopeWork m a) (no : RopeWork m b) :
    RopeWork m (if p then a else b) := by
  split <;> assumption

/-- Biases and next exponents decided for the rope job. -/
theorem ropeWork_of_decides {m n : Module} (h : Decides m.ropeJob m n) (place : SamePlace m n) : RopeWork m n := by
  obtain ⟨bias, next, own⟩ := h.own
  exact ⟨keeps_mono h.keeps (by decide), place, h.others, _, bias, next, own⟩

section
variable (fu : Fuses) (m : Module)

theorem ropeWork_bump {k : Nat} (n : Nat) (other : k ∉ ropeKeys) : RopeWork m (m.bump k n) :=
  ropeWork_of_keeps (keeps_bump m k n) (by decide) ((samePlace_refl m).bump n other)

theorem ropeWork_onRope (f : Rope → Rope) : RopeWork m (m.onRope f) :=
  ropeWork_of_keeps (keeps_onRope m f) (by decide) ((samePlace_refl m).keeps (keeps_onRope m f) (by decide))

theorem ropeWork_forwardDown (f : Frame) : RopeWork m (m.forwardDown f) :=
  ropeWork_of_keeps (keeps_forward m f) (by decide) ((samePlace_refl m).keeps (keeps_forward m f) (by decide))

theorem ropeWork_setBias (t n : Nat) : RopeWork m (m.setBias fu m.ropeJob t n) := by
  refine ropeWork_of_decides (decides_setBias fu m _ t n) ?_
  unfold Module.setBias
  dsimp only
  split
  · exact samePlace_refl m
  · exact samePlace_ite (((samePlace_refl m).onJob _ _).event fu _ _) ((samePlace_refl m).onJob _ _)

theorem ropeWork_setNextExp (t sg : Nat) : RopeWork m (m.setNextExp fu m.ropeJob t sg) := by
  refine ropeWork_of_decides (decides_setNextExp fu m _ t sg) ?_
  unfold Module.setNextExp
  exact samePlace_ite (((samePlace_refl m).onJob _ _).event fu _ _) ((samePlace_refl m).onJob _ _)

/-- Saturation counts added to the rope job's run. -/
theorem ropeWork_addSats {j : Nat} (hj : m.ropeJob = j) (t n : Nat) : RopeWork m (m.onRun j (fun q => q.addSats t n)) := by
  subst hj
  refine ⟨keeps_mono (keeps_onRun m _ _) (by decide), (samePlace_refl m).onJob _ _, fun i hi => job_onRun_other m _ i _ hi, ?_⟩
  rw [Module.onRun, job_onJob]
  split
  · exact ⟨_, _, _, rfl⟩
  · exact ⟨_, _, _, rfl⟩

end

/-! ### The bucket's counts, weights, tables and hash -/

section
variable (fu : Fuses) (m : Module)

theorem ropeWork_takeCounts (k : Nat) (t : Trailer) : RopeWork m (m.takeCounts k t) := by
  unfold Module.takeCounts
  dsimp only
  split
  · exact ropeWork_refl m
  · exact List.foldlRecOn (motive := RopeWork m) _ _ (ropeWork_refl m)
      (fun n h x _ => h.trans (ropeWork_addSats n h.place.ropeJob _ _))

theorem ropeWork_count (tl : Tally) : RopeWork m (m.count tl) :=
  (((((ropeWork_bump m _ (by decide)).trans (ropeWork_bump _ _ (by decide))).trans (ropeWork_bump _ _ (by decide))).trans
    (ropeWork_bump _ _ (by decide))).trans (ropeWork_bump _ _ (by decide))).trans (ropeWork_bump _ _ (by decide))

theorem ropeWork_skippedEvent (j t n : Nat) : RopeWork m (m.skippedEvent fu j t n) :=
  ropeWork_of_keeps (keeps_skippedEvent fu m j t n) (by decide)
    (samePlace_ite (samePlace_refl m) ((samePlace_refl m).event fu _ _))

theorem ropeWork_broadcast (k : Nat) : RopeWork m (m.broadcast k) := by
  unfold Module.broadcast
  dsimp only
  split
  · exact ropeWork_refl m
  · exact ropeWork_foldl _ _ (fun m s => ropeWork_foldl _ _ (fun m h => ropeWork_ite (ropeWork_refl m) (ropeWork_forwardDown m _)) m) m

theorem ropeWork_sendTable (k : Nat) : RopeWork m (m.sendTable k) := by
  unfold Module.sendTable
  dsimp only
  split
  · exact ropeWork_refl m
  · exact ropeWork_foldl _ _ (fun m i => ropeWork_forwardDown m _) m

theorem ropeWork_bucketBiases (r : Reduce) (k : Nat) : RopeWork m (m.bucketBiases fu r k) :=
  ropeWork_foldl _ _ (fun m t => ropeWork_ite (ropeWork_setBias fu m t _) (ropeWork_refl m)) m

theorem ropeWork_setNextExps (segs : List (Nat × Nat)) :
    RopeWork m (segs.foldl (fun (m : Module) s => m.setNextExp fu m.ropeJob s.1 s.2) m) :=
  ropeWork_foldl segs _ (fun m s => ropeWork_setNextExp fu m s.1 s.2) m

theorem ropeWork_sendTables (r : Reduce) : RopeWork m (m.sendTables fu r) :=
  ropeWork_foldl _ _ (fun m k => ropeWork_ite (ropeWork_refl m)
    (((ropeWork_setNextExps fu m (r.segsOf k)).trans (ropeWork_sendTable _ k)).trans (ropeWork_onRope _ _))) m

theorem ropeWork_ownHash (k : Nat) : RopeWork m (m.ownHash k) := ropeWork_ite (ropeWork_refl m) (ropeWork_onRope m _)

theorem samePlace_tryHash (st k : Nat) : SamePlace m (m.tryHash fu st k) := by
  have cleared : ∀ f, SamePlace m (m.onRope f) := fun f => (samePlace_refl m).keeps (keeps_onRope m f) (by decide)
  unfold Module.tryHash
  dsimp only
  split
  · exact samePlace_refl m
  refine samePlace_ite (samePlace_refl m) (samePlace_ite ?_ (samePlace_ite (cleared _) ?_))
  · exact (cleared _).keeps (keeps_sendBond _ _ _) (by decide)
  · exact (((cleared _).odSet 1 (by decide)).bump 1 (by decide)).event fu _ _

theorem ropeWork_tryHash (st k : Nat) : RopeWork m (m.tryHash fu st k) :=
  ropeWork_of_keeps (keeps_tryHash fu m st k) (by decide) (samePlace_tryHash fu m st k)

end

/-! ### A bucket is applied -/

/-- From `m` to `n` bucket `k` of the rope job became free, and of the job's other state at most its run changed, not its marks of
handled elements. -/
structure BucketFreed (k : Nat) (m n : Module) : Prop where
  keeps : KeepsBut [.jobs, .rope, .hawsers, .od, .log, .report] m n
  others : OtherJobs m.ropeJob m n
  applied : (n.job m.ropeJob).run.applied = (m.job m.ropeJob).run.applied
  freed : ((n.job m.ropeJob).bucket k).state = 4

theorem RopeWork.applied {m n : Module} (h : RopeWork m n) : (n.job m.ropeJob).run.applied = (m.job m.ropeJob).run.applied := by
  obtain ⟨_, _, _, own⟩ := h.own
  rw [own]

theorem RopeWork.bucket {m n : Module} (h : RopeWork m n) (k : Nat) : (n.job m.ropeJob).bucket k = (m.job m.ropeJob).bucket k := by
  obtain ⟨_, _, _, own⟩ := h.own
  rw [own]
  rfl

theorem BucketFreed.of_work {k : Nat} {a b c : Module} (h : RopeWork a b) (f : BucketFreed k b c) : BucketFreed k a c := by
  obtain ⟨keeps, others, applied, freed⟩ := f
  rw [h.place.ropeJob] at others applied freed
  exact ⟨keeps_trans h.keeps keeps, fun i hi => (others i hi).trans (h.others i hi), applied.trans h.applied, freed⟩

theorem BucketFreed.then_work {k : Nat} {a b c : Module} (f : BucketFreed k a b) (place : b.ropeJob = a.ropeJob) (h : RopeWork b c) :
    BucketFreed k a c := by
  have others := h.others
  have applied := h.applied
  have bucket := h.bucket k
  rw [place] at others applied bucket
  exact ⟨keeps_trans f.keeps h.keeps, fun i hi => (others i hi).trans (f.others i hi), applied.trans f.applied,
    (congrArg Bucket.state bucket).trans f.freed⟩

/-- A bucket that is not empty is one of a job's buckets. -/
theorem bucket_lt {m : Module} {j k : Nat} (h : ((m.job j).bucket k).state ≠ 0) :
    j < m.jobs.length ∧ k < (m.job j).run.buckets.length := by
  have bucket : k < (m.job j).run.buckets.length := by
    refine Nat.lt_of_not_le (fun hn => h ?_)
    simp [Job.bucket, List.getD_eq_getElem?_getD, List.getElem?_eq_none hn, Bucket.fresh]
  refine ⟨Nat.lt_of_not_le (fun hn => ?_), bucket⟩
  simp [job_of_length_le hn, Job.free, Run.empty] at bucket

theorem bucketFreed_onBucket {m : Module} {k : Nat} (held : ((m.job m.ropeJob).bucket k).state ≠ 0) :
    BucketFreed k m (m.onBucket m.ropeJob k (fun z => { z with state := 4 })) := by
  obtain ⟨hl, hk⟩ := bucket_lt held
  obtain ⟨bk, own, -⟩ := job_onBucket (j := m.ropeJob) m k (fun z => { z with state := 4 })
  refine ⟨keeps_mono (keeps_onBucket m _ k _) (by decide), fun i hi => job_onRun_other m _ i _ hi, by rw [own], ?_⟩
  rw [bucket_onBucket m k k _ hl, if_pos ⟨rfl, hk⟩]

/-- The bucket's weights go down the tree, then it is free, then come the biases, the tables and the hash (R303, R306, R308). -/
theorem bucketFreed_bucketDone (fu : Fuses) {m : Module} (r : Reduce) {k : Nat} (held : ((m.job m.ropeJob).bucket k).state ≠ 0) :
    BucketFreed k m (m.bucketDone fu r k) := by
  have sent := ropeWork_broadcast m k
  have freed : BucketFreed k (m.broadcast k) ((m.broadcast k).onBucket m.ropeJob k (fun z => { z with state := 4 })) := by
    rw [← sent.place.ropeJob]
    exact bucketFreed_onBucket (by rw [sent.place.ropeJob, sent.bucket k]; exact held)
  exact (freed.then_work rfl (((((ropeWork_bucketBiases fu _ r k).trans (ropeWork_sendTables fu _ r)).trans
    (ropeWork_bump _ 1 (by decide))).trans (ropeWork_ownHash _ k)).trans (ropeWork_tryHash fu _ _ k))).of_work sent

/-- Where the datapaths agree, a bucket's counts are taken, its elements go through the tackles, and it is done with. -/
theorem applyBucket_agreeing (fu : Fuses) (m : Module) (r : Reduce) (k : Nat) (t : Trailer) (gs : List Grad) :
    ∃ u, m.applyBucket fu r k t gs [] =
      let x := applyAll m.ropeJob gs (m.takeCounts k t, Tally.zero)
      ((x.1.count x.2).skippedEvent fu m.ropeJob u x.2.skipped).bucketDone fu r k := by
  unfold Module.applyBucket
  dsimp only
  rw [mismatches_nil, applyGrads_nil]
  exact ⟨_, if_pos rfl⟩

/-- What the tackles make of a bucket of gradient elements `gs`. -/
theorem applyBucket_spec (fu : Fuses) {R : Module} {j : Nat} (hj : R.ropeJob = j) (r : Reduce) {k : Nat} (t : Trailer) (gs : List Grad)
    (hs : (R.job j).state ≠ 0) (held : ((R.job j).bucket k).state ≠ 0) :
    let n := R.applyBucket fu r k t gs []
    ((n.job j).bucket k).state = 4 ∧ OnlyGrads R n j gs ∧ AllHandled R n j gs ∧ OtherJobs j R n ∧
      KeepsBut [.jobs, .hbm, .hbmPoison, .rope, .hawsers, .od, .log, .report] R n := by
  subst hj
  obtain ⟨u, applies⟩ := applyBucket_agreeing fu R r k t gs
  dsimp only at applies ⊢
  rw [applies]
  have counted := ropeWork_takeCounts R k t
  generalize R.takeCounts k t = B at *
  obtain ⟨_, _, _, own⟩ := counted.own
  have tackles := tackles_applyAll (j := R.ropeJob) gs (B, Tally.zero)
  have handles := applyAll_handles (j := R.ropeJob) gs (B, Tally.zero) (by rw [own]; exact hs)
  generalize applyAll R.ropeJob gs (B, Tally.zero) = Y at *
  obtain ⟨Y, tl⟩ := Y
  dsimp only at tackles handles ⊢
  have place : Y.ropeJob = R.ropeJob := (counted.place.keeps tackles.keeps (by decide)).ropeJob
  have bucket : (Y.job R.ropeJob).bucket k = (R.job R.ropeJob).bucket k := by
    obtain ⟨_, _, _, hY⟩ := tackles.own
    rw [hY, own]
    rfl
  have reported := (ropeWork_count Y tl).trans (ropeWork_skippedEvent fu _ R.ropeJob u tl.skipped)
  obtain ⟨keeps, others, applied, freed⟩ := (bucketFreed_bucketDone fu r (k := k)
    (by rw [reported.place.ropeJob, reported.bucket k, place, bucket]; exact held)).of_work reported
  rw [place] at others applied freed
  have hbm : B.hbm = R.hbm := counted.keeps .hbm (by decide)
  refine ⟨freed, fun a ha => ?_, fun g hg hw hk => ?_,
    fun i hi => ((others i hi).trans (tackles.others i hi)).trans (counted.others i hi),
    keeps_trans (keeps_mono counted.keeps (by decide))
      (keeps_trans (keeps_mono tackles.keeps (by decide)) (keeps_mono keeps (by decide)))⟩
  · rw [keeps .hbm (by decide), tackles.bytes a, hbm]
    rintro ⟨g, hg, hw, hx⟩
    rw [own] at hw hx
    exact hx (ha g hg hw)
  · rw [applied]
    exact handles g hg (by rw [own]; exact hw) (fun hc => by rw [own]; exact hk hc)

theorem ropeJob_of_inRope {m : Module} {j : Nat} (h : m.inRope j = true) : m.ropeJob = j := by
  simp only [Module.inRope, Bool.and_eq_true, beq_iff_eq] at h
  exact h.2

/-- The bytes that the tackles read of a bucket: its staging slot, and what they read of its elements. -/
def bucketRanges (m : Module) (j k : Nat) (r : Reduce) : List (Nat × Nat) :=
  (m.bucketGrads k).map (fun g => ((m.job j).hbmBase + r.stagedAt k g, 1)) ++ m.gradRanges j (m.bucketGrads k)

theorem exec_bucketApply {s : State} {j k : Nat} {t : Trailer} {r : Reduce} (hj : j < 16) (hw : s.m.powered = true)
    (h3 : (s.m.job j).state = 3) (hr : (s.m.job j).run.mustReplay = none) (hi : s.m.inRope j = true) (h0 : s.m.rank = 0)
    (hb : ((s.m.job j).bucket k).state = 3) (ht : s.m.trailer k 2 = some t) (hred : (s.m.job j).prog.reduce = some r)
    (agree : t.mismatch = false) (go : s.m.tackleWaits j (s.m.bucketGrads k) = false)
    (clean : s.m.poisonedGrad j (s.m.bucketGrads k) = none)
    (staged : ∀ g ∈ s.m.bucketGrads k, s.m.poisonAt j 0 2 (r.stagedAt k g) 1 = false) :
    exec (.bucketApply j k []) s = .next { s with
      m := (s.m.hbmReads s.fuse j (bucketRanges s.m j k r)).applyBucket s.fuse r k t (s.m.bucketGrads k) [] } := by
  refine (actOn_powered s _ _ (decide_eq_true hj) hw).trans (congrArg (fun m => Host.Outcome.next { s with m := m }) ?_)
  have unpoisoned : (s.m.bucketGrads k).find? (fun g => s.m.poisonAt j 0 2 (r.stagedAt k g) 1) = none :=
    List.find?_eq_none.mpr (fun g hg => by rw [staged g hg]; decide)
  dsimp only
  rw [if_neg (by rw [hi, h0, h3, hr, hb]; decide), ht, hred]
  dsimp only
  rw [if_neg (by rw [agree, go]; decide), unpoisoned, clean]
  rfl

end Sys2Proof.Proofs
end

section
/-!
PROOFS. FACTORED tensors finalised (R277), and both ways in which an update ends: buckets and factors.
-/
namespace Sys2Proof.Proofs

open Sys2Proof Sys2Proof.Machine Sys2Proof.Laws

/-! ### Factors are finalised (R277) -/

/-- A FACTORED tensor of a job marked as finalised. -/
def finishFactored (t : Nat) (b : Job) : Job :=
  { b with factored := b.factored.map (fun f => if f.tensor = t then { f with finished := true } else f) }

theorem factoredOf_finishFactored {b : Job} {t : Nat} {f : Factored} (h : b.factoredOf t = some f) :
    (finishFactored t b).factoredOf t = some { f with finished := true } := by
  have tensor : f.tensor = t := by simpa using List.find?_some h
  have same : (fun f : Factored => f.tensor == t) ∘ (fun f => if f.tensor = t then { f with finished := true } else f) =
      fun f => f.tensor == t := by
    funext f
    dsimp only [Function.comp]
    split <;> rfl
  unfold Job.factoredOf at h ⊢
  rw [finishFactored, List.find?_map, same, h, Option.map_some, if_pos tensor]

theorem tackles_putFactors (m : Module) (j t : Nat) (fs : List FVal) : Tackles j (fun _ => True) m (m.putFactors j t fs) :=
  tackles_foldl m _ _ (fun n _ _ _ => tackles_mono (tackles_putStateAt n _ 4 _) (fun _ _ => trivial))

/-- The factors of a tensor written into the work half, and the tensor finalised. -/
def finalised (fu : Fuses) (m : Module) (j t : Nat) (x : List FVal × Nat) : Module :=
  ((((m.hbmReads fu j (m.finalRanges j t)).putFactors j t x.1).onJob j (finishFactored t)).bump (odKey 0x7130 4) x.2).bump
    (odKey 0x3140 4) (x.1.countP (fun v => v == .nan))

theorem exec_factoredFinalisation {s : State} {j t : Nat} {f : Factored} {g : Group} {x : Tensor} (hj : j < 16) (hw : s.m.powered = true)
    (h3 : (s.m.job j).state = 3) (hr : (s.m.job j).run.mustReplay = none) (hf : (s.m.job j).factoredOf t = some f)
    (hx : (s.m.job j).image.tensors[t]? = some x) (hg : (s.m.job j).image.groups[x.group]? = some g) (fresh : f.finished = false)
    (all : (s.m.job j).allApplied t = true) (go : s.m.facWaits j t = false) (clean : s.m.finalPoison j t = none) :
    exec (.factoredFinalisation j t) s =
      .next { s with m := finalised s.fuse s.m j t (s.m.finalFactors j t (g.consts ((s.m.job j).step + 1))) } := by
  refine (actOn_powered s _ _ (decide_eq_true hj) hw).trans (congrArg (fun m => Host.Outcome.next { s with m := m }) ?_)
  dsimp only
  rw [hf, hx, Option.bind_some, hg]
  dsimp only
  rw [if_neg (by rw [h3, hr, fresh, all, go]; decide), clean]
  rfl

/-- What finalising leaves: HBM and the job's state outside it as the factors' writes leave them, and the tensor's mark. -/
theorem finalised_spec (fu : Fuses) (m : Module) {j t : Nat} {f : Factored} (x : List FVal × Nat) (hs : (m.job j).state ≠ 0)
    (hf : (m.job j).factoredOf t = some f) :
    let y := (m.hbmReads fu j (m.finalRanges j t)).putFactors j t x.1
    let n := finalised fu m j t x
    n.hbm = y.hbm ∧ (n.job j).opt = (y.job j).opt ∧ (n.job j).factoredOf t = some { f with finished := true } ∧ OtherJobs j m n ∧
      KeepsBut (.jobs :: hbmReading) m n := by
  intro y n
  have read := keeps_hbmReads fu m j (m.finalRanges j t)
  have job := job_hbmReads fu m j (m.finalRanges j t)
  have tackles : Tackles j (fun _ => True) _ y := tackles_putFactors _ j t x.1
  have own : n.job j = finishFactored t (y.job j) := job_onJob_self y j _ (jobs_lt_of_tackles tackles (by rw [job]; exact hs))
  have held : (y.job j).factoredOf t = some f := by
    obtain ⟨_, _, _, hy⟩ := tackles.own
    rw [hy, job]
    exact hf
  refine ⟨rfl, own ▸ rfl, ?_, fun i hi => ?_, ?_⟩
  · rw [own]
    exact factoredOf_finishFactored held
  · exact ((job_onJob_other y j i _ hi).trans (tackles.others i hi)).trans (job i)
  · have marked : KeepsBut [.jobs, .od] y n := by
      simp only [n, finalised]
      rw [kb_bump _ _ (by decide), kb_bump _ _ (by decide)]
      exact keeps_mono (keeps_onJob y j _) (by decide)
    exact keeps_trans (keeps_mono read (by decide)) (keeps_trans (keeps_mono tackles.keeps (by decide)) (keeps_mono marked (by decide)))

/-! ### The obligation -/

/-- Settles O44: a bucket's elements at the tackles one after the other and then the rope's work, which leaves HBM and the marks of
handled elements; and a tensor's factors written and its mark set. -/
theorem bucketsAndFactorsAreApplied : Obligations.BucketsAndFactorsAreApplied := by
  intro s j hj hw h3 hr b
  have hs : (s.m.job j).state ≠ 0 := by rw [h3]; decide
  refine ⟨fun k t r hi h0 hb ht hred agree go clean staged => ?_, fun t f g x hf hx hg fresh all go clean => ?_⟩
  · intro m
    have own : m.job j = s.m.job j := job_hbmReads s.fuse s.m j _ j
    have rope : m.ropeJob = j := ((samePlace_refl s.m).hbmReads s.fuse j _).ropeJob.trans (ropeJob_of_inRope hi)
    exact ⟨_, exec_bucketApply hj hw h3 hr hi h0 hb ht hred agree go clean staged, rfl, rfl,
      applyBucket_spec s.fuse rope r t (s.m.bucketGrads k) (by rw [own]; exact hs) (by rw [own, hb]; decide)⟩
  · exact ⟨_, exec_factoredFinalisation hj hw h3 hr hf hx hg fresh all go clean, rfl, rfl,
      finalised_spec s.fuse s.m _ hs hf⟩

end Sys2Proof.Proofs
end

section
/-!
PROOFS. The queue of commands (00_scope; the model's, notes/assumptions/1.md): one step takes its front, keeps it well-formed, and
a well-formed queue runs out.
-/
namespace Sys2Proof.Proofs

open Sys2Proof Sys2Proof.Machine Sys2Proof.Laws

/-! ### One step -/

/-- Settles O21: the two branches of `step`. -/
theorem stepTakesTheFront : Obligations.StepTakesTheFront :=
  ⟨fun s c rest h => by rw [step, h], fun s h => by rw [step, h]⟩

/-- A step on a queue whose front command is well-formed answers a next state, with the queue's rest and the fuses as they were. -/
theorem step_next_of_front {s : State} {c : Instr} {rest : List Instr} (front : s.pending = c :: rest)
    (wf : WellFormed c = true) : ∃ u, step s = .next u ∧ u.pending = rest ∧ u.fuse = s.fuse := by
  obtain ⟨u, answers, fuse, pending⟩ := (wellFormedCommandsComplete c { s with pending := rest }).1 wf
  exact ⟨u, (stepTakesTheFront.1 s c rest front).trans answers, pending, fuse⟩

/-- Settles O25: an empty queue idles, and of another the front command leaves the rest, whose commands were in the queue. -/
theorem stepsKeepTheQueueWellFormed : Obligations.StepsKeepTheQueueWellFormed := by
  intro s t wf goes
  cases pending : s.pending with
  | nil =>
    obtain rfl : s = t := Host.Outcome.next.inj ((stepTakesTheFront.2 s pending).symm.trans goes)
    exact ⟨wf, pending, rfl⟩
  | cons c rest =>
    have members : ∀ d ∈ c :: rest, WellFormed d = true := by rw [← pending]; exact wf
    obtain ⟨u, answers, left, fuse⟩ := step_next_of_front pending (members c (List.mem_cons_self ..))
    obtain rfl : u = t := Host.Outcome.next.inj (answers.symm.trans goes)
    exact ⟨fun d hd => members d (List.mem_cons_of_mem c (left ▸ hd)), left, fuse⟩

/-- Settles O26: no command waits after reset. -/
theorem resetQueueIsWellFormed : Obligations.ResetQueueIsWellFormed :=
  fun _ hc => absurd hc List.not_mem_nil

/-! ### The whole queue -/

/-- The first step of a run of any machine. -/
theorem run_succ_of_next (M : Host.Core) {s u : M.State} (goes : M.step s = .next u) (k : Nat) :
    M.run (k + 1) s = M.run k u := by
  rw [Host.Core.run, goes]

/-- A run that ends in a state has taken its first step. -/
theorem next_of_run_succ (M : Host.Core) {s t : M.State} {k : Nat} (runs : M.run (k + 1) s = .next t) :
    ∃ u, M.step s = .next u ∧ M.run k u = .next t := by
  rw [Host.Core.run] at runs
  cases goes : M.step s with
  | next u => exact ⟨u, rfl, by rwa [goes] at runs⟩
  | fault f => rw [goes] at runs; cases runs
  | refused r => rw [goes] at runs; cases runs

/-- On an empty queue the block idles, however long it runs. -/
theorem run_of_empty {t : State} (empty : t.pending = []) : ∀ k, core.run k t = .next t
  | 0 => rfl
  | k + 1 => (run_succ_of_next core (stepTakesTheFront.2 t empty) k).trans (run_of_empty empty k)

/-- A queue of `n` well-formed commands is empty after `n` steps, the fuses as they were. -/
theorem run_empties (n : Nat) : ∀ s : State, QueueWf s → s.pending.length = n →
    ∃ t, core.run n s = .next t ∧ t.pending = [] ∧ t.fuse = s.fuse := by
  induction n with
  | zero => exact fun s _ len => ⟨s, rfl, List.length_eq_zero_iff.1 len, rfl⟩
  | succ n ih =>
    intro s wf len
    obtain ⟨c, rest, front⟩ := List.exists_cons_of_length_eq_add_one len
    obtain ⟨u, goes, left, fuse⟩ := step_next_of_front front (wf c (front ▸ List.mem_cons_self ..))
    obtain ⟨t, runs, empty, same⟩ := ih u (stepsKeepTheQueueWellFormed s u wf goes).1 (by
      rw [left]
      simpa [front] using len)
    exact ⟨t, (run_succ_of_next core goes n).trans runs, empty, same.trans fuse⟩

/-- More steps than commands wait change nothing more. -/
theorem run_beyond {n : Nat} : ∀ {s t : State}, core.run n s = .next t → t.pending = [] → ∀ k, core.run (n + k) s = .next t := by
  induction n with
  | zero =>
    intro s t runs empty k
    obtain rfl : s = t := Host.Outcome.next.inj runs
    rw [Nat.zero_add]
    exact run_of_empty empty k
  | succ n ih =>
    intro s t runs empty k
    obtain ⟨u, goes, rest⟩ := next_of_run_succ core runs
    rw [Nat.add_right_comm]
    exact (run_succ_of_next core goes _).trans (ih rest empty k)

/-- Settles O24: the front command answers (`step_next_of_front`), its rest is well-formed again, and so on to the end. -/
theorem theQueueRunsOut : Obligations.TheQueueRunsOut := by
  intro s wf
  obtain ⟨t, runs, empty, fuse⟩ := run_empties _ s wf rfl
  refine ⟨t, runs, empty, fuse, run_beyond runs empty, fun c rest front => ?_⟩
  obtain ⟨u, goes, left, -⟩ := step_next_of_front front (wf c (front ▸ List.mem_cons_self ..))
  refine ⟨u, (stepTakesTheFront.1 s c rest front).symm.trans goes, left, ?_⟩
  rw [front, List.length_cons] at runs
  exact (run_succ_of_next core goes _).symm.trans runs

end Sys2Proof.Proofs
end

section
/-!
PROOFS. Hawser frames (R294): the four words of the header read back, and with them the frame.
-/
namespace Sys2Proof.Proofs

open Sys2Proof.Machine Sys2Proof.Laws

/-! ### The CRC is a word of 32 bits -/

/-- A step of a reflected CRC register keeps it within the bits of its polynomial. -/
theorem crcReflected_lt {p w : Nat} (poly : p < 2 ^ w) (n : Nat) : ∀ {c : Nat}, c < 2 ^ w → crcReflected p n c < 2 ^ w := by
  induction n with
  | zero => exact fun hc => hc
  | succ n ih =>
    intro c hc
    have half : c >>> 1 < 2 ^ w := Nat.lt_of_le_of_lt (Nat.shiftRight_le c 1) hc
    rw [crcReflected]
    split
    · exact ih (Nat.xor_lt_two_pow half poly)
    · exact ih half

theorem crc32c_lt (bs : List Byte) : crc32c bs < 2 ^ 32 := by
  have register : ∀ c, c < 2 ^ 32 → bs.foldl (fun c b => crcReflected 0x82F63B78 8 (c ^^^ b.toNat)) c < 2 ^ 32 := by
    induction bs with
    | nil => exact fun c hc => hc
    | cons b bs ih =>
      have byte : b.toNat < 2 ^ 32 := Nat.lt_trans b.isLt (by decide)
      exact fun c hc => ih _ (crcReflected_lt (by decide) 8 (Nat.xor_lt_two_pow hc byte))
  exact Nat.xor_lt_two_pow (register _ (by decide)) (by decide)

/-! ### The header -/

/-- The first word of a header: type, source, attempt, length and epoch. -/
def headWord0 (f : Frame) : Nat :=
  f.type % 64 * 2 ^ 58 + f.src % 256 * 2 ^ 50 + f.attempt % 256 * 2 ^ 42 + f.payload.length / 64 % 1024 * 2 ^ 32 + f.epoch % 2 ^ 32

/-- The second: step, bucket and segment. -/
def headWord1 (f : Frame) : Nat := f.step % 2 ^ 32 * 2 ^ 32 + f.bucket % 2 ^ 16 * 2 ^ 16 + f.segment % 2 ^ 16

/-- The third: maximum exponent, code, contributors and link_seq. -/
def headWord2 (f : Frame) : Nat := f.maxExp % 256 * 2 ^ 56 + f.code % 256 * 2 ^ 48 + f.contrib % 512 * 2 ^ 39 + f.linkSeq % 2 ^ 32

/-- The fourth without the CRC: ack_seq. -/
def headWord3 (f : Frame) : Nat := f.ackSeq % 2 ^ 32 * 2 ^ 32

/-- The first three words. -/
def headBytes (f : Frame) : List Byte := leBytes 8 (headWord0 f) ++ leBytes 8 (headWord1 f) ++ leBytes 8 (headWord2 f)

/-- The CRC of a frame. -/
def frameCrc (f : Frame) : Nat := crc32c (headBytes f ++ leBytes 8 (headWord3 f) ++ f.payload)

theorem frame_bytes_eq (f : Frame) : f.bytes = headBytes f ++ leBytes 8 (headWord3 f + frameCrc f) ++ f.payload := rfl

theorem headBytes_length (f : Frame) : (headBytes f).length = 24 := by
  simp only [headBytes, List.length_append, leBytes_length]

theorem frame_bytes_length (f : Frame) : f.bytes.length = 32 + f.payload.length := by
  simp only [frame_bytes_eq, List.length_append, headBytes_length, leBytes_length]

theorem frame_bytes_words (f : Frame) :
    word64 f.bytes 0 = headWord0 f ∧ word64 f.bytes 1 = headWord1 f ∧ word64 f.bytes 2 = headWord2 f ∧
      word64 f.bytes 3 = headWord3 f + frameCrc f := by
  have crc : frameCrc f < 2 ^ 32 := crc32c_lt _
  have fit0 : headWord0 f < 2 ^ 64 := by unfold headWord0; omega
  have fit1 : headWord1 f < 2 ^ 64 := by unfold headWord1; omega
  have fit2 : headWord2 f < 2 ^ 64 := by unfold headWord2; omega
  have fit3 : headWord3 f + frameCrc f < 2 ^ 64 := by unfold headWord3; omega
  simp only [frame_bytes_eq, headBytes, List.append_assoc, word64_leBytes_append, word64_succ_leBytes_append,
    Nat.mod_eq_of_lt fit0, Nat.mod_eq_of_lt fit1, Nat.mod_eq_of_lt fit2, Nat.mod_eq_of_lt fit3, and_self]

/-- The bytes that the CRC covers, with its own field 0. -/
theorem frame_bytes_parts (f : Frame) : f.bytes.take 24 = headBytes f ∧ f.bytes.drop 32 = f.payload := by
  rw [frame_bytes_eq]
  refine ⟨?_, List.drop_left' (by simp only [List.length_append, headBytes_length, leBytes_length])⟩
  rw [List.append_assoc]
  exact List.take_left' (headBytes_length f)

/-- The fields of the first word. -/
theorem headWord0_fields (f : Frame) :
    field (headWord0 f) 58 6 = f.type % 64 ∧ field (headWord0 f) 50 8 = f.src % 256 ∧ field (headWord0 f) 42 8 = f.attempt % 256 ∧
      field (headWord0 f) 32 10 = f.payload.length / 64 % 1024 ∧ field (headWord0 f) 0 32 = f.epoch % 2 ^ 32 := by
  simp only [field, headWord0, Nat.shiftRight_eq_div_pow]
  refine ⟨?_, ?_, ?_, ?_, ?_⟩ <;> omega

/-- Of the second. -/
theorem headWord1_fields (f : Frame) :
    field (headWord1 f) 32 32 = f.step % 2 ^ 32 ∧ field (headWord1 f) 16 16 = f.bucket % 2 ^ 16 ∧
      field (headWord1 f) 0 16 = f.segment % 2 ^ 16 := by
  simp only [field, headWord1, Nat.shiftRight_eq_div_pow]
  refine ⟨?_, ?_, ?_⟩ <;> omega

/-- Of the third. -/
theorem headWord2_fields (f : Frame) :
    field (headWord2 f) 56 8 = f.maxExp % 256 ∧ field (headWord2 f) 48 8 = f.code % 256 ∧
      field (headWord2 f) 39 9 = f.contrib % 512 ∧ field (headWord2 f) 0 32 = f.linkSeq % 2 ^ 32 := by
  simp only [field, headWord2, Nat.shiftRight_eq_div_pow]
  refine ⟨?_, ?_, ?_, ?_⟩ <;> omega

/-- Of the fourth. -/
theorem headWord3_field (f : Frame) : field (headWord3 f + frameCrc f) 32 32 = f.ackSeq % 2 ^ 32 := by
  have crc : frameCrc f < 2 ^ 32 := crc32c_lt _
  simp only [field, headWord3, Nat.shiftRight_eq_div_pow]
  omega

/-- The CRC stands in the fourth word, and is that of the bytes with its field 0. -/
theorem frameCrc_checks (f : Frame) :
    let w := headWord3 f + frameCrc f
    crc32c (headBytes f ++ leBytes 8 (w - w % 2 ^ 32) ++ f.payload) = w % 2 ^ 32 := by
  have crc : frameCrc f < 2 ^ 32 := crc32c_lt _
  have low : (headWord3 f + frameCrc f) % 2 ^ 32 = frameCrc f := by unfold headWord3; omega
  simp only [low, Nat.add_sub_cancel]
  rfl

/-- Settles O34: the four words and the payload read back, and within the words every field; the CRC is that of the same bytes. -/
theorem hawserFramesReadBack : Obligations.HawserFramesReadBack := by
  intro f len64 htype hsrc hattempt hepoch hstep hbucket hsegment hmax hcode hcontrib hlink hack hlen hpay
  have len : f.payload.length / 64 % 1024 = len64 := by omega
  obtain ⟨w0, w1, w2, w3⟩ := frame_bytes_words f
  obtain ⟨head, pay⟩ := frame_bytes_parts f
  obtain ⟨type, src, attempt, length, epoch⟩ := headWord0_fields f
  obtain ⟨step, bucket, segment⟩ := headWord1_fields f
  obtain ⟨maxExp, code, contrib, linkSeq⟩ := headWord2_fields f
  refine ⟨by rw [frame_bytes_length, hpay], ?_⟩
  have whole : (decide (f.bytes.length < 32) || f.payload.length != 64 * (f.payload.length / 64 % 1024)) = false := by
    rw [len, hpay, frame_bytes_length, bne_self_eq_false, Bool.or_false, decide_eq_false (by omega)]
  simp only [parseFrame, w0, w1, w2, w3, head, pay, length, whole, frameCrc_checks f,
    bne_self_eq_false, Bool.false_eq_true, if_false, type, src, attempt, epoch, step, bucket,
    segment, maxExp, code, contrib, linkSeq, headWord3_field f, Nat.mod_eq_of_lt htype, Nat.mod_eq_of_lt hsrc, Nat.mod_eq_of_lt hattempt,
    Nat.mod_eq_of_lt hepoch, Nat.mod_eq_of_lt hstep, Nat.mod_eq_of_lt hbucket, Nat.mod_eq_of_lt hsegment, Nat.mod_eq_of_lt hmax,
    Nat.mod_eq_of_lt hcode, Nat.mod_eq_of_lt hcontrib, Nat.mod_eq_of_lt hlink, Nat.mod_eq_of_lt hack]

end Sys2Proof.Proofs
end

section
/-!
PROOFS. The address map of the HBM (R268, R355).
-/
namespace Sys2Proof.Proofs

open Sys2Proof.Machine Sys2Proof.Laws

/-- The place of an address with its fields as quotients and remainders. -/
theorem hbmPlace_eq (a : Nat) :
    hbmPlace a = { stack := a / 4096 % 48 / 2, pc := 16 * (a / 4096 % 48 % 2) + a / 256 % 16, bank := a / 4096 / 48 / 4 % 32,
                   row := a / 4096 / 48 / 128, granule := 8 * (a / 4096 / 48 % 4) + a / 32 % 8 } := by
  simp [hbmPlace, field, Nat.shiftRight_eq_div_pow]

/-- The units of 4,096 bytes of a place's address: its interleave of 48 units, and its unit within it. -/
theorem hbmAddr_units (p : HbmPlace) (hstack : p.stack < 24) (hpc : p.pc < 32) :
    hbmAddr p / 4096 / 48 = 128 * p.row + 4 * p.bank + p.granule / 8 ∧ hbmAddr p / 4096 % 48 = 2 * p.stack + p.pc / 16 ∧
      hbmAddr p % 4096 = p.pc % 16 * 256 + p.granule % 8 * 32 := by
  simp only [hbmAddr]
  refine ⟨?_, ?_, ?_⟩ <;> omega

/-- The address of a place is that of its granule. -/
theorem hbmAddr_hbmPlace (a : Nat) : hbmAddr (hbmPlace a) = a / 32 * 32 := by
  simp only [hbmPlace_eq, hbmAddr]
  omega

/-- Each granule's address decomposes into its place. -/
theorem hbmPlace_hbmAddr (p : HbmPlace) (hstack : p.stack < 24) (hpc : p.pc < 32) (hbank : p.bank < 32)
    (hgranule : p.granule < 32) : hbmPlace (hbmAddr p) = p := by
  obtain ⟨interleave, unit, byte⟩ := hbmAddr_units p hstack hpc
  have run : hbmAddr p / 256 % 16 = p.pc % 16 := by omega
  have granule : hbmAddr p / 32 % 8 = p.granule % 8 := by omega
  have bank : (128 * p.row + 4 * p.bank + p.granule / 8) / 4 = 32 * p.row + p.bank := by omega
  have row : (128 * p.row + 4 * p.bank + p.granule / 8) / 128 = p.row := by omega
  rw [hbmPlace_eq, interleave, unit, run, granule, bank, row]
  cases p
  simp only [HbmPlace.mk.injEq, true_and] at *
  refine ⟨?_, ?_, ?_, ?_⟩ <;> omega

/-- An address within an interleave of 192 KiB lies in a pseudo-channel of a stack exactly in that one's run of 256 bytes. -/
theorem hbmPlace_run {w a st pc : Nat} (hpc : pc < 32) (low : 196608 * w ≤ a) (high : a < 196608 * w + 196608) :
    ((hbmPlace a).stack = st ∧ (hbmPlace a).pc = pc) ↔
      196608 * w + 4096 * (2 * st + pc / 16) + 256 * (pc % 16) ≤ a ∧
        a < 196608 * w + 4096 * (2 * st + pc / 16) + 256 * (pc % 16) + 256 := by
  obtain ⟨b, rfl⟩ := Nat.exists_eq_add_of_le low
  have unit : (196608 * w + b) / 4096 % 48 = b / 4096 := by omega
  have run : (196608 * w + b) / 256 % 16 = b / 256 % 16 := by omega
  simp only [hbmPlace_eq, unit, run]
  omega

/-- Byte `n` of a stack lies in that stack, and `n` of its bytes lie below it. -/
theorem stackByte_place {p : Nat} (hp : p < 24) (n : Nat) :
    (hbmPlace (stackByte p n)).stack = p ∧ stackBytes p (stackByte p n) = n := by
  have interleave : stackByte p n / 4096 / 48 = n / 8192 := by unfold stackByte; omega
  have unit : stackByte p n / 4096 % 48 = 2 * p + n / 4096 % 2 := by unfold stackByte; omega
  have byte : stackByte p n % 4096 = n % 4096 := by unfold stackByte; omega
  have stack : (2 * p + n / 4096 % 2) / 2 = p := by omega
  rw [hbmPlace_eq]
  refine ⟨by rw [unit]; exact stack, ?_⟩
  simp only [stackBytes, interleave, unit, byte, stack, if_true]
  omega

/-- The bytes of a stack ascend. -/
theorem stackByte_lt (p : Nat) {n k : Nat} (h : n < k) : stackByte p n < stackByte p k := by
  unfold stackByte
  omega

/-- Settles O28: the place of an address and the address of a place undo each other, run by run and stack by stack. -/
theorem hbmAddressesMapOneToOne : Obligations.HbmAddressesMapOneToOne := by
  refine ⟨fun a ha => ?_, fun p hstack hpc hbank hrow hgranule => ?_, fun w a st pc _ hpc => hbmPlace_run hpc,
    fun p n k hp hn => ⟨(stackByte_place hp n).1, (stackByte_place hp n).2, stackByte_lt p hn⟩⟩
  · have place := hbmPlace_eq a
    refine ⟨?_, ?_, ?_, ?_, ?_, hbmAddr_hbmPlace a⟩ <;> rw [place] <;> simp only [] <;> omega
  · refine ⟨hbmPlace_hbmAddr p hstack hpc hbank hgranule, ?_⟩
    simp only [hbmAddr]
    omega

end Sys2Proof.Proofs
end

section
/-!
PROOFS. The tree of a rope (R56, R290, R291): ranks one higher are the numbers of a binary heap, so that `h` hops up from rank
`r` lead to the rank below (r + 1) / 2^h, and the ranks of a subtree are runs, one a level.
-/
namespace Sys2Proof.Proofs

open Sys2Proof.Machine Sys2Proof.Laws

/-- `h` hops up the tree from rank `r`, parent by parent. -/
def hopsUp (h r : Nat) : Nat := (List.range h).foldl (fun x _ => (x - 1) / 2) r

theorem hopsUp_eq (h r : Nat) : hopsUp h r = (r + 1) / 2 ^ h - 1 := by
  induction h with
  | zero => simp [hopsUp]
  | succ h ih =>
    have hop : hopsUp (h + 1) r = (hopsUp h r - 1) / 2 := by simp [hopsUp, List.range_succ]
    rw [hop, ih, pow_succ, ← Nat.div_div_eq_div_mul]
    omega

/-- Rank `r` lies in the subtree of rank `k`, `h` levels below it. -/
def isBelow (k h r : Nat) : Bool := (r + 1) / 2 ^ h == k + 1

/-- The ranks of a level of a subtree are a run. -/
theorem isBelow_iff (k h r : Nat) : isBelow k h r = true ↔ 2 ^ h * (k + 1) - 1 ≤ r ∧ r < 2 ^ h * (k + 1) - 1 + 2 ^ h := by
  have width : 0 < 2 ^ h := Nat.two_pow_pos h
  have first : 0 < 2 ^ h * (k + 1) := Nat.mul_pos width (Nat.succ_pos k)
  rw [isBelow, beq_iff_eq, Nat.div_eq_iff width, Nat.mul_comm (k + 1)]
  omega

/-- A deeper level's run begins behind. -/
theorem levels_ascend (k : Nat) {h i : Nat} (deeper : h < i) : 2 ^ h * (k + 1) - 1 + 2 ^ h ≤ 2 ^ i * (k + 1) - 1 := by
  have twice : 2 * 2 ^ h ≤ 2 ^ i := by
    rw [← pow_succ']
    exact Nat.pow_le_pow_right (by decide) deeper
  have further := Nat.mul_le_mul_right (k + 1) twice
  have run : 2 ^ h ≤ 2 ^ h * (k + 1) := Nat.le_mul_of_pos_right _ (Nat.succ_pos k)
  have width := Nat.two_pow_pos h
  rw [Nat.mul_assoc] at further
  omega

/-- The ranks of a run below a bound. -/
theorem countP_run (lo w n : Nat) : (List.range n).countP (fun r => decide (lo ≤ r ∧ r < lo + w)) = min w (n - lo) := by
  induction n with
  | zero => simp
  | succ n ih =>
    rw [List.range_succ, List.countP_append, ih, List.countP_cons, List.countP_nil]
    by_cases h : lo ≤ n ∧ n < lo + w
    · simp only [h, and_self, decide_true, if_true]
      omega
    · simp only [h, decide_false, Bool.false_eq_true, if_false]
      omega

/-- What either of two tests counts, where no element meets both. -/
theorem countP_or {α : Type} (p q : α → Bool) (l : List α) (apart : ∀ a ∈ l, p a = true → q a = false) :
    l.countP (fun a => p a || q a) = l.countP p + l.countP q := by
  induction l with
  | nil => rfl
  | cons a l ih =>
    have tail := ih (fun b hb => apart b (List.mem_cons_of_mem a hb))
    have head := apart a (List.mem_cons_self ..)
    simp only [List.countP_cons, tail]
    cases hp : p a
    · simp only [Bool.false_or, Bool.false_eq_true, if_false]
      omega
    · simp only [head hp, Bool.true_or, if_true, Bool.false_eq_true, if_false]
      omega

/-- The ranks of level `h` of a subtree. -/
theorem countP_level (n k h : Nat) :
    (List.range n).countP (isBelow k h) = min (2 ^ h) (n - (2 ^ h * (k + 1) - 1)) := by
  rw [← countP_run]
  exact List.countP_congr (fun r _ => by rw [isBelow_iff, decide_eq_true_eq])

/-- The model's sum over the levels of a subtree, from level `h` on, counts its ranks on those levels. -/
theorem contributorsFrom_eq (n k : Nat) : ∀ fuel h : Nat,
    contributorsFrom n fuel (2 ^ h * (k + 1) - 1) (2 ^ h) =
      (List.range n).countP (fun r => (List.range' h fuel).any (fun i => isBelow k i r)) := by
  intro fuel
  induction fuel with
  | zero => exact fun h => by simp [contributorsFrom]
  | succ fuel ih =>
    intro h
    have next : 2 * (2 ^ h * (k + 1) - 1) + 1 = 2 ^ (h + 1) * (k + 1) - 1 := by
      have first : 0 < 2 ^ h * (k + 1) := Nat.mul_pos (Nat.two_pow_pos h) (Nat.succ_pos k)
      rw [pow_succ', Nat.mul_assoc]
      omega
    have outside : ∀ r, r ∈ List.range n → isBelow k h r = true →
        (List.range' (h + 1) fuel).any (fun i => isBelow k i r) = false := by
      intro r _ hr
      rw [List.any_eq_false]
      intro i hi
      have deeper : h < i := (List.mem_range'_1.1 hi).1
      have behind := levels_ascend k deeper
      rw [isBelow_iff] at hr ⊢
      omega
    have split : (List.range n).countP (fun r => (List.range' h (fuel + 1)).any (fun i => isBelow k i r)) =
        (List.range n).countP (isBelow k h) +
          (List.range n).countP (fun r => (List.range' (h + 1) fuel).any (fun i => isBelow k i r)) := by
      rw [← countP_or _ _ _ outside]
      rfl
    rw [split, countP_level, contributorsFrom]
    split
    · next none =>
      rw [Nat.sub_eq_zero_of_le none, Nat.min_zero, Nat.zero_add, eq_comm, List.countP_eq_zero]
      intro r hr
      rw [List.mem_range] at hr
      rw [List.any_eq_true]
      rintro ⟨i, hi, below⟩
      have deeper : h < i := (List.mem_range'_1.1 hi).1
      have behind := levels_ascend k deeper
      have width := Nat.two_pow_pos h
      rw [isBelow_iff] at below
      omega
    · rw [next, ← pow_succ', ih (h + 1)]

/-- A way up of nine levels is as long as any of 256 ranks. -/
theorem levels_of_rank {k r : Nat} (hr : r < 256) :
    (List.range' 0 9).any (fun i => isBelow k i r) = (List.range (r + 1)).any (fun h => hopsUp h r == k) := by
  rw [Bool.eq_iff_iff, List.any_eq_true, List.any_eq_true]
  constructor
  · rintro ⟨h, -, below⟩
    rw [isBelow, beq_iff_eq] at below
    have reached : 2 ^ h ≤ r + 1 := by
      by_contra far
      rw [Nat.div_eq_of_lt (Nat.lt_of_not_le far)] at below
      exact absurd below (Nat.succ_ne_zero k).symm
    have short : h < 2 ^ h := Nat.lt_two_pow_self
    exact ⟨h, List.mem_range.2 (by omega), by rw [hopsUp_eq, below]; simp⟩
  · rintro ⟨h, -, up⟩
    rw [hopsUp_eq, beq_iff_eq] at up
    have short : ∀ i, 2 ^ i ≤ r + 1 → i ∈ List.range' 0 9 := by
      intro i hi
      have bound : 2 ^ i < 2 ^ 9 := by omega
      have levels := (Nat.pow_lt_pow_iff_right (by decide)).1 bound
      rw [List.mem_range'_1]
      omega
    by_cases reached : 2 ^ h ≤ r + 1
    · have some := Nat.div_pos reached (Nat.two_pow_pos h)
      exact ⟨h, short h reached, by rw [isBelow, beq_iff_eq]; omega⟩
    · have top : k = 0 := by
        rw [Nat.div_eq_of_lt (Nat.lt_of_not_le reached)] at up
        omega
      have low := Nat.log2_self_le (n := r + 1) (Nat.succ_ne_zero r)
      have high := Nat.lt_log2_self (n := r + 1)
      refine ⟨(r + 1).log2, short _ low, ?_⟩
      rw [isBelow, beq_iff_eq, Nat.div_eq_iff (Nat.two_pow_pos _), top]
      rw [pow_succ'] at high
      omega

/-- c(k) counts the ranks whose way up leads through rank `k` (R291). -/
theorem contributors_eq {size : Nat} (limit : size ≤ 256) (k : Nat) :
    contributors size k = (List.range size).countP (fun r => (List.range (r + 1)).any (fun h => hopsUp h r == k)) := by
  have levels := contributorsFrom_eq size k 9 0
  rw [pow_zero, Nat.one_mul, Nat.add_sub_cancel] at levels
  rw [contributors, levels]
  refine List.countP_congr (fun r hr => ?_)
  rw [levels_of_rank (Nat.lt_of_lt_of_le (List.mem_range.1 hr) limit)]

/-- A rank is a contributor of its own subtree. -/
theorem contributors_pos {size k : Nat} (limit : size ≤ 256) (inside : k < size) : 0 < contributors size k := by
  rw [contributors_eq limit, List.countP_pos_iff]
  exact ⟨k, List.mem_range.2 inside, List.any_eq_true.2 ⟨0, List.mem_range.2 (Nat.succ_pos k), by simp [hopsUp]⟩⟩

/-- The level offset is the logarithm rounded up (R56). -/
theorem levelOffset_bounds {c : Nat} (some : 0 < c) : 2 ^ levelOffset c < 2 * c ∧ c ≤ 2 ^ levelOffset c := by
  rw [levelOffset, Machine.ceilLog2]
  split
  · rw [pow_zero]
    omega
  · have low := Nat.log2_self_le (n := c - 1) (by omega)
    have high := Nat.lt_log2_self (n := c - 1)
    rw [pow_succ'] at high ⊢
    omega

/-- Settles O59: the partners of a rank's bonds by the heap's numbers, its contributors level by level, and eight hops from the
deepest of 256 ranks. -/
theorem theTreeIsHeapOrdered : Obligations.TheTreeIsHeapOrdered := by
  refine ⟨fun size k some limit inside => ?_, fun r hr => ?_, ?_⟩
  · have offset := levelOffset_bounds (contributors_pos limit inside)
    refine ⟨fun _ => rfl, ?_, ⟨rfl, ?_⟩, ⟨rfl, ?_⟩, contributors_eq limit k, offset.1, offset.2⟩ <;>
      simp [bondNeeded, bondPartner] <;> omega
  · have up : hopsUp 8 r = 0 := by rw [hopsUp_eq]; omega
    exact up
  · have up : hopsUp 7 255 = 1 := hopsUp_eq 7 255
    exact fun zero => absurd (up.symm.trans zero) (by decide)

end Sys2Proof.Proofs
end

section
/-!
PROOFS. The dispatch rule (R327, R329): what the lists hold after each entry of the index row.
-/
namespace Sys2Proof.Proofs

open Sys2Proof.Machine Sys2Proof.Laws

/-- The pairs of an index row that name expert `e`. -/
def routedTo (e : Nat) (vals : List Int) : Nat := vals.countP (fun v => decide (v = (e : Int)))

/-- What the lists hold once the entries `done` are dispatched. -/
structure Dispatched (span cap : Nat) (done : List Int) (d : Dispatch) : Prop where
  routed : ∀ e, d.routed.get e = routedTo e done
  held : ∀ e, d.count e = min cap (routedTo e done)
  named : ∀ x ∈ d.placed, done[x.2]? = some (x.1 : Int) ∧ x.1 < span
  ascend : d.placed.Pairwise (fun x y => x.2 < y.2)
  all : d.placed.length + d.dropped = done.countP (fun v => decide (0 ≤ v))

/-- Before the first entry. -/
theorem dispatched_nil (span cap : Nat) : Dispatched span cap [] { placed := [], routed := [], dropped := 0, firstFull := none } where
  routed := fun _ => rfl
  held := fun _ => (Nat.min_zero cap).symm
  named := fun _ h => absurd h List.not_mem_nil
  ascend := .nil
  all := rfl

/-- What naming an expert once more adds. -/
theorem routedTo_append (e : Nat) (done : List Int) (v : Int) :
    routedTo e (done ++ [v]) = routedTo e done + if v = (e : Int) then 1 else 0 := by
  simp [routedTo, List.countP_append, List.countP_cons]

/-- A pair placed stays named by its entry. -/
theorem Dispatched.named_append {span cap : Nat} {done : List Int} {d : Dispatch} (h : Dispatched span cap done d) (v : Int) :
    ∀ x ∈ d.placed, (done ++ [v])[x.2]? = some (x.1 : Int) ∧ x.1 < span := by
  intro x hx
  obtain ⟨entry, expert⟩ := h.named x hx
  exact ⟨by rw [List.getElem?_append_left (List.getElem?_eq_some_iff.1 entry).1]; exact entry, expert⟩

/-- An entry that routes nothing changes nothing. -/
theorem Dispatched.skip {span cap : Nat} {done : List Int} {d : Dispatch} (h : Dispatched span cap done d) {v : Int} (neg : v < 0) :
    Dispatched span cap (done ++ [v]) d where
  routed := fun e => by rw [h.routed, routedTo_append, if_neg (by omega), Nat.add_zero]
  held := fun e => by rw [h.held, routedTo_append, if_neg (by omega), Nat.add_zero]
  named := h.named_append v
  ascend := h.ascend
  all := by simp [h.all, List.countP_append, not_le_of_gt neg]

/-- An entry whose expert has room is placed behind the others. -/
theorem Dispatched.place {span cap i : Nat} {done : List Int} {d : Dispatch} (h : Dispatched span cap done d) (expert : i < span)
    (room : routedTo i done < cap) (first : Option Nat) :
    Dispatched span cap (done ++ [(i : Int)])
      { placed := d.placed ++ [(i, done.length)], routed := d.routed.add i 1, dropped := d.dropped, firstFull := first } where
  routed := fun e => by
    rw [get_add, routedTo_append, h.routed, h.routed]
    by_cases he : e = i
    · subst he; simp
    · rw [if_neg he, if_neg (by omega), Nat.add_zero]
  held := fun e => by
    have own := h.held e
    simp only [Dispatch.count] at own ⊢
    rw [List.countP_append, own, routedTo_append, List.countP_cons, List.countP_nil]
    by_cases he : i = e
    · subst he; simp; omega
    · simp [he]
  named := fun x hx => by
    rcases List.mem_append.1 hx with old | new
    · exact h.named_append _ x old
    · obtain rfl := List.mem_singleton.1 new
      exact ⟨by simp, expert⟩
  ascend := by
    rw [List.pairwise_append]
    refine ⟨h.ascend, List.pairwise_singleton _ _, fun x hx y hy => ?_⟩
    obtain rfl := List.mem_singleton.1 hy
    exact (List.getElem?_eq_some_iff.1 (h.named x hx).1).1
  all := by
    have old := h.all
    simp [List.countP_append]
    omega

/-- One whose expert's list is full is dropped. -/
theorem Dispatched.drop {span cap i : Nat} {done : List Int} {d : Dispatch} (h : Dispatched span cap done d)
    (full : cap ≤ routedTo i done) (first : Option Nat) :
    Dispatched span cap (done ++ [(i : Int)])
      { placed := d.placed, routed := d.routed.add i 1, dropped := d.dropped + 1, firstFull := first } where
  routed := fun e => by
    rw [get_add, routedTo_append, h.routed, h.routed]
    by_cases he : e = i
    · subst he; simp
    · rw [if_neg he, if_neg (by omega), Nat.add_zero]
  held := fun e => by
    have own := h.held e
    simp only [Dispatch.count] at own ⊢
    rw [own, routedTo_append]
    by_cases he : i = e
    · subst he; simp; omega
    · simp [he]
  named := h.named_append _
  ascend := h.ascend
  all := by
    have old := h.all
    simp [List.countP_append]
    omega

/-- The rule over the rest of a row, from what its entries so far left. -/
theorem dispatchFrom_dispatched {span cap : Nat} (vals : List Int) : ∀ {done : List Int} {d e : Dispatch},
    Dispatched span cap done d → dispatchFrom span cap done.length vals d = some e → Dispatched span cap (done ++ vals) e := by
  induction vals with
  | nil =>
    intro done d e h ends
    obtain rfl := Option.some.inj ends
    rwa [List.append_nil]
  | cons v vals ih =>
    intro done d e h ends
    have place : done.length + 1 = (done ++ [v]).length := by simp
    rw [List.append_cons]
    rw [dispatchFrom] at ends
    split at ends
    · next neg =>
      rw [place] at ends
      exact ih (h.skip neg) ends
    · next routes =>
      have index : ((v.toNat : Nat) : Int) = v := by omega
      dsimp only at ends
      split at ends
      · exact absurd ends (by simp)
      · next expert =>
        rw [place] at ends
        refine ih ?_ ends
        rw [h.routed, ← index, Int.toNat_natCast]
        by_cases full : cap ≤ routedTo v.toNat done
        · simpa [full] using h.drop full _
        · simpa [full] using h.place (Nat.lt_of_not_le expert) (Nat.lt_of_not_le full) _

/-- The rule ends without lists exactly at an index that names no expert. -/
theorem dispatchFrom_eq_none (span cap : Nat) (vals : List Int) : ∀ (q : Nat) (d : Dispatch),
    dispatchFrom span cap q vals d = none ↔ ∃ v ∈ vals, (span : Int) ≤ v := by
  induction vals with
  | nil => exact fun q d => by simp [dispatchFrom]
  | cons v vals ih =>
    intro q d
    rw [dispatchFrom, List.exists_mem_cons_iff]
    split
    · next neg => rw [ih, or_iff_right (by omega)]
    · dsimp only
      split
      · exact iff_of_true rfl (.inl (by omega))
      · rw [ih, or_iff_right (by omega)]

/-- Settles O45: what each entry adds to the lists, from the empty ones on. -/
theorem dispatchFollowsItsRule : Obligations.DispatchFollowsItsRule := by
  intro span cap vals
  refine ⟨fun d ends => ?_, dispatchFrom_eq_none span cap vals 0 _⟩
  have h := dispatchFrom_dispatched vals (dispatched_nil span cap) ends
  exact ⟨h.held, h.named, h.ascend, h.all⟩

end Sys2Proof.Proofs
end

section
/-!
PROOFS. The selection of core tiles that are computed twice (R214, R475).
-/
namespace Sys2Proof.Proofs

open Sys2Proof.Machine Sys2Proof.Laws

/-- The selection by its formula, with the divisor of the step's share. -/
theorem dupSelected_iff (m : Module) (t : Tile) :
    m.dupSelected t = true ↔
      dupDivisor ((m.job t.inst.job).run.latch.get (odKey 0x3120 6)) ≠ 0 ∧
        ((t.inst.entry.map Entry.e).getD 0 + 13 * t.number + (m.job t.inst.job).step) %
          dupDivisor ((m.job t.inst.job).run.latch.get (odKey 0x3120 6)) = 0 := by
  simp only [Module.dupSelected, Bool.and_eq_true, bne_iff_ne, beq_iff_eq]

/-- The tiles up to an invalid one are among them all. -/
theorem mem_of_mem_uptoInvalid {w : TileWork} {ts : List TileWork} (h : w ∈ uptoInvalid ts) : w ∈ ts := by
  induction ts with
  | nil => exact h
  | cons t ts ih =>
    rw [uptoInvalid] at h
    split at h
    · exact List.mem_cons.2 (.inl (List.mem_singleton.1 h))
    · exact (List.mem_cons.1 h).elim (fun e => List.mem_cons.2 (.inl e)) (fun k => List.mem_cons_of_mem t (ih k))

/-- Whatever a core tile computes, it keeps its instruction, its number and its place. -/
theorem coreTile_place (m : Module) (i : Inst) (x : MatOps) (kind : PairKind) (tk : Nat) (s : MatShape) (ups : List Upset)
    (place : Nat × Nat × Nat) :
    let t := (m.coreTile i x kind tk s ups place).tile
    t.inst = i ∧ t.number = place.1 ∧ t.group = place.2.1 ∧ t.cols = colsOf s.n place.2.2 ∧
      t.rows = rowsOf s.rows s.arrays place.2.1 := by
  simp only [Module.coreTile]
  split
  · exact ⟨rfl, rfl, rfl, rfl, rfl⟩
  · split <;> exact ⟨rfl, rfl, rfl, rfl, rfl⟩

/-- Settles O60: the formula, what it depends on, and the place of each core tile in the level-3 order. -/
theorem selectionFollowsItsFormula : Obligations.SelectionFollowsItsFormula := by
  refine ⟨fun m t some => ?_, fun m n t u number entry step divisor => ?_, fun m i ups x kind w hw => ?_⟩
  · rw [dupSelected_iff, and_iff_right some]
    cases t.inst.entry <;> rfl
  · rw [Bool.eq_iff_iff, dupSelected_iff, dupSelected_iff, number, entry, step, divisor]
  · obtain ⟨⟨gs, number⟩, place, rfl⟩ := List.mem_map.1 (mem_of_mem_uptoInvalid hw)
    obtain ⟨inst, num, group, cols, rows⟩ := coreTile_place m i x kind (tileK x.a.fmt) (m.matShape i x) ups (number, gs.1, gs.2)
    have ordered : (m.matOrder i x)[number]? = some gs := by
      simpa using List.mem_zipIdx_iff_getElem?.1 place
    exact ⟨inst, gs.1, gs.2, num ▸ ordered, group, cols, rows⟩

end Sys2Proof.Proofs
end

section
/-!
PROOFS. Movements that complete (R377).
-/
namespace Sys2Proof.Proofs

open Sys2Proof.Machine Sys2Proof.Laws

section
variable {s : State} {g ch : Nat} {v : Move} {vs : List Move} (channel : (s.m.core g).channels[ch]? = some (v :: vs))
include channel

theorem head_of_channel : (s.m.core g).head ch = some v := by
  simp [Core.head, List.getD_eq_getElem?_getD, channel]

/-- The head movement leaves its channel, and nothing else of its core changes. -/
theorem channel_dropped (inside : g < s.m.cores.length) :
    let c := (s.m.onCore g (fun c => { c with channels := modifyAt (fun l => l.drop 1) c.channels ch })).core g
    c.channels[ch]? = some vs ∧ c.seq = (s.m.core g).seq ∧ c.mem = (s.m.core g).mem := by
  simp only [core_onCore_self _ _ _ inside, modifyAt_getElem?, channel]
  simp

end

/-- Settles O15: the head leaves its channel and ends OK, whose record and signal show in their own parts. -/
theorem movementsCompleteInOrder : Obligations.MovementsCompleteInOrder := by
  intro s g ch v vs hg hch powered live unfenced channel written ok running
  have head := head_of_channel channel
  obtain ⟨left, seq, mem⟩ := channel_dropped channel (live_lt live)
  let dropped := s.m.onCore g (fun c => { c with channels := modifyAt (fun l => l.drop 1) c.channels ch })
  let ended := (dropped.bump (odKey 0x3270 2) v.completes).finish s.fuse v.inst stOk 0 0
  refine goes_actOn rfl (by simp [hg, hch]) powered ⟨ended, ?_, ?_, ?_, ?_, ?_, ?_, ?_⟩
  · exact (congrArg (fun c : Core => c.channels[ch]?) (core_finishOk ..)).trans left
  · exact (congrArg Core.seq (core_finishOk ..)).trans seq
  · exact (congrArg Core.mem (core_finishOk ..)).trans mem
  · exact fun h other => (core_finishOk ..).trans (core_onCore_other _ _ _ _ other)
  · exact (finishOk_jobs ..).trans (signalled_congr v.inst rfl)
  · rw [kb_finishOk _ _ _ _ (by decide) (by decide) (by decide) (by decide) (by decide), kb_bump _ _ (by decide),
      kb_onCore _ _ (by decide)]
    exact keeps_refl _ _
  · have distinct : stOk ≠ stCancelled := by decide
    simp [head, live, unfenced, written, running, Module.completeMove, ok, distinct, ended, dropped]

end Sys2Proof.Proofs
end

section
/-!
PROOFS. The memory stacks (R357 to R373): what reads leave of a stack's own state, enables, repairs, refreshes, the scrubber and
temperature reports.
-/
namespace Sys2Proof.Proofs

open Sys2Proof.Machine Sys2Proof.Laws

/-! ### What reads of HBM leave of the stacks -/

/-- A stack without what a correction writes: its count, the marks and the records of lanes and rows. -/
def uncorrected (t : Stack) : Stack := { t with corrected := 0, marks := [], laneRows := [], rowErrors := [] }

/-- A stack without what a read may write: a flagged row's repair may start. -/
def unread (t : Stack) : Stack := { uncorrected t with repairing := [] }

/-- A change of one unit that a view does not show shows in no unit's view. -/
theorem map_modifyAt {α β : Type} {view : α → β} {f : α → α} (hidden : ∀ a, view (f a) = view a) (l : List α) (i : Nat) :
    (modifyAt f l i).map view = l.map view := by
  induction l generalizing i with
  | nil => rfl
  | cons a l ih =>
    cases i with
    | zero => simp [modifyAt, hidden]
    | succ i => simp [modifyAt, ih]

theorem stacks_onStack {β : Type} {view : Stack → β} {f : Stack → Stack} (hidden : ∀ t, view (f t) = view t) (m : Module) (p : Nat) :
    (m.onStack p f).hbmStacks.map view = m.hbmStacks.map view := map_modifyAt hidden _ _

/-- A stack's view, from the views of them all. -/
theorem view_stack {β : Type} {view : Stack → β} {m n : Module} (same : n.hbmStacks.map view = m.hbmStacks.map view) (p : Nat) :
    view (n.stack p) = view (m.stack p) := by
  simp only [Module.stack, List.getD_eq_getElem?_getD]
  have at_ : (n.hbmStacks[p]?).map view = (m.hbmStacks[p]?).map view := by
    rw [← List.getElem?_map, ← List.getElem?_map, same]
  cases hn : n.hbmStacks[p]? <;> cases hm : m.hbmStacks[p]? <;> simp_all

theorem stacks_length {β : Type} {view : Stack → β} {m n : Module} (same : n.hbmStacks.map view = m.hbmStacks.map view) :
    n.hbmStacks.length = m.hbmStacks.length := by
  simpa using congrArg List.length same

/-- What shows no read shows no correction. -/
theorem unread_of_uncorrected {m n : Module} (same : n.hbmStacks.map uncorrected = m.hbmStacks.map uncorrected) :
    n.hbmStacks.map unread = m.hbmStacks.map unread := by
  have through : ∀ l : List Stack, l.map unread = (l.map uncorrected).map (fun t => { t with repairing := [] }) := fun l => by
    rw [List.map_map]
    rfl
  rw [through, same, ← through]

theorem repairing_of_uncorrected {m n : Module} (same : n.hbmStacks.map uncorrected = m.hbmStacks.map uncorrected) (p : Nat) :
    (n.stack p).repairing = (m.stack p).repairing := by
  have viewed := congrArg Stack.repairing (view_stack same p)
  exact viewed

theorem storeErrors_stacks (m : Module) (g : Nat) (l : List Nat) : (m.storeErrors g l).hbmStacks = m.hbmStacks := by
  unfold Module.storeErrors
  dsimp only
  split
  · rfl
  split <;> rfl

theorem judgeErrors_stacks (m : Module) (p pc : Nat) : (m.judgeErrors p pc).hbmStacks = m.hbmStacks :=
  foldl_keep Module.hbmStacks _ (fun (m : Module) (b : BadBurst) => m.storeErrors b.granule b.symbols)
    (fun m _ => storeErrors_stacks m _ _) m

/-- A flagged row shows only in the repairs under way. -/
theorem unread_flagHbmRow (fu : Fuses) (m : Module) (p pc b r x : Nat) :
    (m.flagHbmRow fu p pc b r x).hbmStacks.map unread = m.hbmStacks.map unread := by
  unfold Module.flagHbmRow
  dsimp only
  split
  · rfl
  split
  · exact stacks_onStack (by exact fun _ => rfl) _ _
  split <;> simp

/-- A row under repair is not flagged again (R369). -/
theorem flagHbmRow_of_repairing (fu : Fuses) {m : Module} {p pc b r : Nat} (x : Nat)
    (under : (m.stack p).repairing.any (fun y => y / 8 == rowKey pc b r) = true) : m.flagHbmRow fu p pc b r x = m := by
  simp only [Module.flagHbmRow, under, if_true]

theorem uncorrected_recordLane (fu : Fuses) (m : Module) (p pc b r x : Nat) :
    (m.recordLane fu p pc b r x).hbmStacks.map uncorrected = m.hbmStacks.map uncorrected := by
  have recorded : ∀ (n : Module) (l : List (Nat × Nat × Nat)),
      (n.onStack p (fun t => { t with laneRows := if t.laneRows.contains (pc, x, 65536 * b + r) then t.laneRows else
        t.laneRows ++ l })).hbmStacks.map uncorrected = n.hbmStacks.map uncorrected := fun n l => stacks_onStack (by exact fun _ => rfl) n p
  unfold Module.recordLane
  dsimp only
  split
  · exact recorded m _
  split
  · rw [event_hbmStacks, judgeErrors_stacks]
    exact (stacks_onStack (by exact fun _ => rfl) _ p).trans (recorded m _)
  split
  · rw [event_hbmStacks]
    exact recorded m _
  · exact recorded m _

/-- What a read of a codeword with errors comes to: a correction, or one after which its row is flagged. -/
theorem readBurst_cases (fu : Fuses) (m : Module) (j : Nat) (b : BadBurst) :
    let w := hbmPlace (32 * b.granule)
    ∃ y : Module, y.hbmStacks.map uncorrected = m.hbmStacks.map uncorrected ∧
      (m.readBurst fu j b = y ∨ ∃ x, m.readBurst fu j b = y.flagHbmRow fu w.stack w.pc w.bank w.row x) := by
  intro w
  have corrected : ((m.bump (odKey 0x4020 1) 1).onStack w.stack (fun t => { t with corrected := t.corrected + 1 })).hbmStacks.map
      uncorrected = m.hbmStacks.map uncorrected := stacks_onStack (by exact fun _ => rfl) _ _
  unfold Module.readBurst
  dsimp only
  split
  · exact ⟨(m.bump (odKey 0x4020 4) 1).event fu 0x0400 [w.stack, w.pc, w.bank, w.row, w.granule, j],
      by rw [event_hbmStacks, bump_hbmStacks], .inr ⟨3, rfl⟩⟩
  split
  · exact ⟨_, corrected, .inl rfl⟩
  split
  · exact ⟨_, corrected, .inl rfl⟩
  · next sym _ =>
    have recorded := (stacks_onStack (f := fun t => { t with rowErrors := t.rowErrors.add (64 * rowKey w.pc w.bank w.row + sym) 1 })
      (view := uncorrected) (fun _ => rfl) _ w.stack).trans ((uncorrected_recordLane fu _ w.stack w.pc w.bank w.row sym).trans corrected)
    split
    · exact ⟨_, recorded, .inr ⟨1, rfl⟩⟩
    · exact ⟨_, recorded, .inl rfl⟩
  · exact ⟨(Module.onStack _ _ _).bump (odKey 0x4020 2) 1, by rw [bump_hbmStacks]; exact corrected, .inr ⟨2, rfl⟩⟩

theorem unread_readBurst (fu : Fuses) (m : Module) (j : Nat) (b : BadBurst) :
    (m.readBurst fu j b).hbmStacks.map unread = m.hbmStacks.map unread := by
  obtain ⟨y, same, rfl' | ⟨x, flags⟩⟩ := readBurst_cases fu m j b
  · rw [rfl']
    exact unread_of_uncorrected same
  · rw [flags, unread_flagHbmRow]
    exact unread_of_uncorrected same

/-- Reads of HBM leave of each stack what a read may not write. -/
theorem unread_hbmReads (fu : Fuses) (m : Module) (j : Nat) (rs : List (Nat × Nat)) :
    (m.hbmReads fu j rs).hbmStacks.map unread = m.hbmStacks.map unread := by
  unfold Module.hbmReads
  dsimp only
  refine (foldl_keep (fun n : Module => n.hbmStacks.map unread) _ (fun (m : Module) b => m.readBurst fu j b)
    (fun m b => unread_readBurst fu m j b) _).trans ?_
  split <;> rfl

/-- Reads of codewords that all lie in a row under repair leave the repairs under way. -/
theorem uncorrected_readBursts (fu : Fuses) (j p pc bank row : Nat) (bs : List BadBurst)
    (within : ∀ b ∈ bs, ∃ k, hbmPlace (32 * b.granule) = { stack := p, pc := pc, bank := bank, row := row, granule := k })
    (m : Module) (under : (m.stack p).repairing.any (fun y => y / 8 == rowKey pc bank row) = true) :
    (bs.foldl (fun (m : Module) b => m.readBurst fu j b) m).hbmStacks.map uncorrected = m.hbmStacks.map uncorrected := by
  induction bs generalizing m with
  | nil => rfl
  | cons b bs ih =>
    obtain ⟨k, place⟩ := within b List.mem_cons_self
    obtain ⟨y, same, reads⟩ := readBurst_cases fu m j b
    have still := repairing_of_uncorrected same p
    have stays : (y.stack p).repairing.any (fun y => y / 8 == rowKey pc bank row) = true := by rw [still]; exact under
    have read : m.readBurst fu j b = y := by
      rcases reads with read | ⟨x, flags⟩
      · exact read
      · rw [flags, place]
        exact flagHbmRow_of_repairing fu x stays
    rw [List.foldl_cons, read, ih (fun b hb => within b (List.mem_cons_of_mem _ hb)) y stays, same]

/-! ### Enables (R372) -/

/-- No codeword of stack `p` has errors. -/
def NoErrors (p : Nat) (m : Module) : Prop := ∀ b ∈ m.bursts, (hbmPlace (32 * b.granule)).stack ≠ p

/-- A stack that is clean gets its marks and flags: nothing of HBM changes, nor what a read may not write. -/
structure Marked (p : Nat) (m n : Module) : Prop where
  views : n.hbmStacks.map unread = m.hbmStacks.map unread
  clean : NoErrors p n
  keeps : KeepsBut (.hbmStacks :: reporting) m n

theorem Marked.trans {p : Nat} {a b c : Module} (first : Marked p a b) (next : Marked p b c) : Marked p a c :=
  ⟨next.views.trans first.views, next.clean, keeps_trans first.keeps next.keeps⟩

theorem marked_foldl {α : Type} {p : Nat} (f : Module → α → Module) (each : ∀ m a, NoErrors p m → Marked p m (f m a)) (l : List α) :
    ∀ {m : Module}, NoErrors p m → Marked p m (l.foldl f m) := by
  induction l with
  | nil => exact fun clean => ⟨rfl, clean, keeps_refl _ _⟩
  | cons a l ih => exact fun clean => (each _ a clean).trans (ih (each _ a clean).clean)

theorem noErrors_of_keeps {p : Nat} {m n : Module} (clean : NoErrors p m) (keeps : KeepsBut (.hbmStacks :: reporting) m n) :
    NoErrors p n := by
  have bursts : n.bursts = m.bursts := (keeps .hbmPoison (by decide)).2
  intro b hb
  exact clean b (bursts ▸ hb)

/-- In a stack without errors a mark puts none beyond the decoder's reach. -/
theorem judgeErrors_clean {p : Nat} {m : Module} (clean : NoErrors p m) (pc : Nat) : m.judgeErrors p pc = m := by
  unfold Module.judgeErrors
  rw [List.filter_eq_nil_iff.2]
  · rfl
  · intro b hb
    simp [clean b hb]

theorem marked_markLane (fu : Fuses) {p : Nat} {m : Module} (pc sym : Nat) (clean : NoErrors p m) :
    Marked p m (m.markLane fu p pc sym) := by
  have keeps : KeepsBut (.hbmStacks :: reporting) m (m.markLane fu p pc sym) ∧
      (m.markLane fu p pc sym).hbmStacks.map unread = m.hbmStacks.map unread := by
    unfold Module.markLane
    dsimp only
    split
    · exact ⟨keeps_refl _ _, rfl⟩
    split
    · rw [judgeErrors_clean (m := m.onStack p _) clean pc, kb_event _ _ _ (by decide) (by decide) (by decide),
        kb_onStack _ _ (by decide), event_hbmStacks]
      exact ⟨keeps_refl _ _, stacks_onStack (by exact fun _ => rfl) _ _⟩
    · rw [kb_event _ _ _ (by decide) (by decide) (by decide), event_hbmStacks]
      exact ⟨keeps_refl _ _, rfl⟩
  exact ⟨keeps.2, noErrors_of_keeps clean keeps.1, keeps.1⟩

theorem keeps_flagHbmRow_stacks (fu : Fuses) (m : Module) (p pc b r x : Nat) :
    KeepsBut (.hbmStacks :: reporting) m (m.flagHbmRow fu p pc b r x) := by
  unfold Module.flagHbmRow
  dsimp only
  repeat' split
  all_goals simp [keeps_refl, reporting]

theorem marked_flagHbmRow (fu : Fuses) {p : Nat} {m : Module} (pc b r x : Nat) (clean : NoErrors p m) :
    Marked p m (m.flagHbmRow fu p pc b r x) :=
  
  have keeps := keeps_flagHbmRow_stacks fu m p pc b r x
  ⟨unread_flagHbmRow fu m p pc b r x, noErrors_of_keeps clean keeps, keeps⟩

/-- The memory of the zeroed stack reads zero, without poison and without errors; every other stack's as before. -/
theorem zeroStack_reads (m : Module) (p : Nat) :
    (∀ a, (m.zeroStack p).hbm.get a = if (hbmPlace a).stack = p then 0 else m.hbm.get a) ∧
      (∀ q, q ∈ (m.zeroStack p).hbmPoison ↔ q ∈ m.hbmPoison ∧ (hbmPlace (32 * q)).stack ≠ p) ∧ NoErrors p (m.zeroStack p) := by
  refine ⟨fun a => ?_, fun q => ?_, fun b hb => ?_⟩
  · have kept := get_filter m.hbm (fun k => (hbmPlace k).stack != p) a
    simp only [Module.zeroStack, kept, bne_iff_ne, ne_eq, ite_not]
  · simp [Module.zeroStack, List.mem_filter]
  · simpa using (List.mem_filter.1 hb).2

theorem keeps_zeroStack (m : Module) (p : Nat) : KeepsBut [.hbm, .hbmPoison] m (m.zeroStack p) := by
  intro part hp
  cases part <;> simp_all [Part.same, Module.zeroStack]

/-- A stack at the end of an enable that its lane check passed. -/
def enabledStack (t : Stack) : Stack :=
  { t with ready := true, marks := [], laneRows := [], rowErrors := [], share := 64, warm := false, hot := false, stopped := false }

/-- The module with stack `p` zeroed and ready. -/
def stackReady (m : Module) (p : Nat) : Module := ((m.zeroStack p).latchAll (stackCalib p)).onStack p enabledStack

/-- Its marks and its flagged rows. -/
def stackMarked (fu : Fuses) (m : Module) (p : Nat) (marks : List (Nat × Nat)) (rows : List (Nat × Nat × Nat)) : Module :=
  rows.foldl (fun (m : Module) x => m.flagHbmRow fu p x.1 x.2.1 x.2.2 4)
    (marks.foldl (fun (m : Module) x => m.markLane fu p x.1 x.2) m)

/-- A tackle that its own test fails (R459). -/
def tackleTested (fu : Fuses) (m : Module) (p : Nat) : Option Nat → Module
  | none => m
  | some n => (m.odSet (odKey 0x7130 7) (setBit (m.odGet (odKey 0x7130 7)) p)).event fu 0x0734 [p, n]

theorem keeps_tackleTested (fu : Fuses) (m : Module) (p : Nat) (tackle : Option Nat) :
    KeepsBut reporting m (tackleTested fu m p tackle) ∧ (tackleTested fu m p tackle).hbmStacks = m.hbmStacks := by
  cases tackle with
  | none => exact ⟨keeps_refl _ _, rfl⟩
  | some n =>
    simp only [tackleTested, kb_event _ _ _ (show Part.od ∈ reporting by decide) (by decide) (by decide), event_hbmStacks]
    exact ⟨keeps_mono (keeps_odSet m _ _) (by decide), rfl⟩

section
variable {s : State} {p : Nat} (hp : p < 24) (inside : p < s.m.hbmStacks.length) (powered : s.m.powered = true)
include hp inside powered

theorem goes_stackEnable_failed {stage pc lanes : Nat} {tackle : Option Nat} {marks : List (Nat × Nat)}
    {rows : List (Nat × Nat × Nat)} (enabled : (s.m.stack p).enabled = true) (unready : (s.m.stack p).ready = false)
    (unfailed : (s.m.stack p).failed = false) (fails : stage ≠ 0) :
    Goes s (.stackEnableComplete p stage pc lanes tackle marks rows) (fun n =>
      (n.stack p).failed = true ∧ (n.stack p).ready = false ∧ KeepsBut (.hbmStacks :: reporting) s.m n) := by
  refine goes_actOn rfl (decide_eq_true hp) powered ?_
  simp [enabled, unready, unfailed, fails, stack_onStack_self _ _ _ inside, keeps_refl, reporting]

theorem goes_stackEnable_passed {pc lanes : Nat} {tackle : Option Nat} {marks : List (Nat × Nat)}
    {rows : List (Nat × Nat × Nat)} (enabled : (s.m.stack p).enabled = true) (unready : (s.m.stack p).ready = false)
    (unfailed : (s.m.stack p).failed = false) :
    Goes s (.stackEnableComplete p 0 pc lanes tackle marks rows) (fun n =>
      (n.stack p).ready = true ∧ (n.stack p).stopped = false ∧ (n.stack p).share = 64 ∧
        (∀ a, n.hbm.get a = if (hbmPlace a).stack = p then 0 else s.m.hbm.get a) ∧
        (∀ q, q ∈ n.hbmPoison ↔ q ∈ s.m.hbmPoison ∧ (hbmPlace (32 * q)).stack ≠ p) ∧
        KeepsBut (.hbmStacks :: .hbm :: .hbmPoison :: .calib :: reporting) s.m n) := by
  obtain ⟨zero, poison, clean⟩ := zeroStack_reads s.m p
  have latched := keeps_latchAll (s.m.zeroStack p) (stackCalib p)
  have readies : KeepsBut [.hbmStacks, .calib] (s.m.zeroStack p) (stackReady s.m p) :=
    (kb_onStack _ _ (by decide)).2 (keeps_mono latched (by decide))
  have readyClean : NoErrors p (stackReady s.m p) := fun b hb => clean b ((readies .hbmPoison (by decide)).2 ▸ hb)
  have marked : Marked p (stackReady s.m p) (stackMarked s.fuse (stackReady s.m p) p marks rows) :=
    have lanes := marked_foldl (fun (m : Module) (x : Nat × Nat) => m.markLane s.fuse p x.1 x.2)
      (fun m x => marked_markLane s.fuse x.1 x.2) marks readyClean
    lanes.trans (marked_foldl (fun (m : Module) (x : Nat × Nat × Nat) => m.flagHbmRow s.fuse p x.1 x.2.1 x.2.2 4)
      (fun m x => marked_flagHbmRow s.fuse x.1 x.2.1 x.2.2 4) rows lanes.clean)
  obtain ⟨tested, standing⟩ := keeps_tackleTested s.fuse (stackMarked s.fuse (stackReady s.m p) p marks rows) p tackle
  have kept := keeps_trans marked.keeps (keeps_mono tested (by decide))
  have own : unread ((tackleTested s.fuse (stackMarked s.fuse (stackReady s.m p) p marks rows) p tackle).stack p) =
      unread (enabledStack (s.m.stack p)) := by
    rw [view_stack (view := unread) (m := stackReady s.m p) (by rw [standing]; exact marked.views)]
    have before : ((s.m.zeroStack p).latchAll (stackCalib p)).hbmStacks = s.m.hbmStacks := latched .hbmStacks (by decide)
    rw [stackReady, stack_onStack_self _ _ _ (by rw [before]; exact inside), Module.stack, before]
    rfl
  refine goes_actOn (f := fun fu m => ite (!(m.stack p).enabled || (m.stack p).ready || (m.stack p).failed) m
    (tackleTested fu (stackMarked fu (stackReady m p) p marks rows) p tackle)) ?_ (decide_eq_true hp) powered ?_
  · cases tackle <;> rfl
  · simp only [enabled, unready, unfailed, Bool.not_true, Bool.or_self, Bool.false_eq_true, if_false]
    have hbm : (tackleTested s.fuse (stackMarked s.fuse (stackReady s.m p) p marks rows) p tackle).hbm = (s.m.zeroStack p).hbm :=
      (kept .hbm (by decide)).trans (readies .hbm (by decide))
    have spoiled := (kept .hbmPoison (by decide)).1.trans (readies .hbmPoison (by decide)).1
    refine ⟨congrArg Stack.ready own, congrArg Stack.stopped own, congrArg Stack.share own, fun a => ?_, fun q => ?_,
      keeps_trans (keeps_mono (keeps_zeroStack s.m p) (by decide)) (keeps_trans (keeps_mono readies (by decide))
        (keeps_mono kept (by decide)))⟩
    · rw [hbm]
      exact zero a
    · rw [spoiled]
      exact poison q

end

/-! ### Repairs (R369) -/

/-- The granules that the read of a row meets lie in that row. -/
theorem hbmPlace_rowGranules {p pc bank row g : Nat} (hp : p < 24) (hpc : pc < 32) (hbank : bank < 32)
    (hit : inRanges ((rowGranules p pc bank row).map (fun a => (a, 32))) g = true) :
    ∃ k, hbmPlace (32 * g) = { stack := p, pc := pc, bank := bank, row := row, granule := k } := by
  simp only [inRanges, rowGranules, List.map_map, List.any_map, List.any_eq_true, List.mem_range, Function.comp,
    Bool.and_eq_true, decide_eq_true_eq] at hit
  obtain ⟨k, hk, low, high⟩ := hit
  have aligned : hbmAddr { stack := p, pc := pc, bank := bank, row := row, granule := k } % 32 = 0 := by
    simp only [hbmAddr]
    omega
  refine ⟨k, ?_⟩
  rw [show 32 * g = hbmAddr { stack := p, pc := pc, bank := bank, row := row, granule := k } by omega]
  exact hbmPlace_hbmAddr _ hp hpc hbank hk

theorem repairing_copyRow (fu : Fuses) {m : Module} {p pc bank row : Nat} (hp : p < 24) (hpc : pc < 32) (hbank : bank < 32)
    (under : (m.stack p).repairing.any (fun y => y / 8 == rowKey pc bank row) = true) :
    ((m.copyRow fu p pc bank row).stack p).repairing = (m.stack p).repairing := by
  have counted : ∀ n, (if n = 0 then m else m.bump (odKey 0x4020 3) n).hbmStacks = m.hbmStacks := fun n => by split <;> rfl
  refine repairing_of_uncorrected (n := m.copyRow fu p pc bank row) ?_ p
  simp only [Module.copyRow, Module.hbmReads]
  rw [uncorrected_readBursts fu 0xFF p pc bank row, counted]
  · intro b hb
    exact hbmPlace_rowGranules hp hpc hbank (List.mem_filter.1 hb).2
  · simp only [Module.stack, counted]
    exact under

theorem keeps_copyRow (fu : Fuses) (m : Module) (p pc bank row : Nat) : KeepsBut hbmReading m (m.copyRow fu p pc bank row) := by
  refine keeps_trans (keeps_hbmReads fu m 0xFF ((rowGranules p pc bank row).map (fun a => (a, 32)))) ?_
  intro part hpart
  cases part <;> simp_all [Part.same, Module.copyRow, hbmReading]

/-- The dictionary values that no replace reason writes. -/
theorem odGet_reason (fu : Fuses) (m : Module) {k : Nat} (hk : k ∉ readKeys) (bit : Nat) (figures : List Nat) :
    (m.reason fu bit figures).odGet k = m.odGet k := by
  unfold Module.reason
  dsimp only
  split
  · rfl
  · rw [odGet_event_readKeys fu _ hk, odGet_odSet, if_neg (by rintro rfl; exact hk (by decide)), odGet_odSet,
      if_neg (by rintro rfl; exact hk (by decide))]

/-! ### Errors at further symbols, and the scrubber's reads (R371) -/

/-- Errors stored in a codeword change no other granule and give no other codeword errors. -/
theorem storeErrors_elsewhere (m : Module) (g : Nat) (l : List Nat) :
    (∀ b ∈ (m.storeErrors g l).bursts, b ∈ m.bursts ∨ b.granule = g) ∧ ∀ a, g ≠ a / 32 → (m.storeErrors g l).hbm.get a = m.hbm.get a := by
  have stored : ∀ kind, ∀ b ∈ m.bursts.filter (fun b => b.granule != g) ++ [⟨g, l, kind⟩], b ∈ m.bursts ∨ b.granule = g := by
    intro kind b hb
    rcases List.mem_append.1 hb with old | new
    · exact .inl (List.mem_filter.1 old).1
    · exact .inr (by rw [List.mem_singleton.1 new])
  unfold Module.storeErrors
  dsimp only
  split
  · exact ⟨stored 0, fun _ _ => rfl⟩
  split
  · refine ⟨stored 1, fun a other => ?_⟩
    dsimp only
    rw [get_write, if_neg]
    simp only [List.length_map, List.length_range]
    omega
  · exact ⟨stored 2, fun a other => get_granule_writes g a _ _ (fun i hi => by simpa using (List.mem_filter.1 hi).2) other _⟩

theorem addErrors_elsewhere (m : Module) (at_ : Nat) (symbols : List Nat) :
    (∀ b ∈ (m.addErrors at_ symbols).bursts, b ∈ m.bursts ∨ b.granule = at_ / 32) ∧
      ∀ a, at_ / 32 ≠ a / 32 → (m.addErrors at_ symbols).hbm.get a = m.hbm.get a := by
  unfold Module.addErrors
  dsimp only
  split
  · exact ⟨fun _ hb => .inl hb, fun _ _ => rfl⟩
  · exact storeErrors_elsewhere m _ _

theorem addErrors_stacks (m : Module) (at_ : Nat) (symbols : List Nat) : (m.addErrors at_ symbols).hbmStacks = m.hbmStacks := by
  unfold Module.addErrors
  dsimp only
  split
  · rfl
  · exact storeErrors_stacks m _ _

theorem keeps_addErrors (m : Module) (at_ : Nat) (symbols : List Nat) : KeepsBut hbmReading m (m.addErrors at_ symbols) := by
  unfold Module.addErrors
  dsimp only
  split
  · exact keeps_refl _ _
  · exact keeps_storeErrors m _ _

theorem scrub_stacks (fu : Fuses) (m : Module) (a : Nat) : (m.scrub fu a).hbmStacks = (m.hbmReads fu 0xFF [(a, 32)]).hbmStacks := by
  unfold Module.scrub
  dsimp only
  split <;> rfl

theorem scrub_hbm (fu : Fuses) (m : Module) (a : Nat) : (m.scrub fu a).hbm = (m.hbmReads fu 0xFF [(a, 32)]).hbm := by
  unfold Module.scrub
  dsimp only
  split <;> rfl

theorem keeps_scrub (fu : Fuses) (m : Module) (a : Nat) : KeepsBut hbmReading m (m.scrub fu a) := by
  refine keeps_trans (keeps_hbmReads fu m 0xFF [(a, 32)]) ?_
  unfold Module.scrub
  dsimp only
  split
  · intro part hpart
    cases part <;> simp_all [Part.same, hbmReading]
  · exact keeps_refl _ _

/-- The scrubber's visit of a granule, in whose codeword errors stand by then. -/
def scrubbed (fu : Fuses) (m : Module) (a : Nat) (symbols : List Nat) : Module := (m.addErrors a symbols).scrub fu a

theorem unread_scrubbed (fu : Fuses) (m : Module) (a : Nat) (symbols : List Nat) :
    (scrubbed fu m a symbols).hbmStacks.map unread = m.hbmStacks.map unread := by
  rw [scrubbed, scrub_stacks, unread_hbmReads, addErrors_stacks]

theorem scrubbed_elsewhere (fu : Fuses) (m : Module) {at_ : Nat} (symbols : List Nat) {a : Nat} (other : a / 32 ≠ at_ / 32)
    (sound : ∀ b ∈ m.bursts, b.granule ≠ a / 32) : (scrubbed fu m at_ symbols).hbm.get a = m.hbm.get a := by
  obtain ⟨codewords, bytes⟩ := addErrors_elsewhere m at_ symbols
  rw [scrubbed, scrub_hbm, (soundHbm_hbmReads fu (m.addErrors at_ symbols) 0xFF [(at_, 32)]).2 a]
  · exact bytes a other.symm
  · intro b hb
    rcases codewords b hb with old | new
    · exact sound b old
    · exact new ▸ other.symm

/-! ### Temperature reports (R366) -/

/-- A stack after a temperature report. -/
def reportedStack (t : Stack) (c : Int) : Stack :=
  let stop := decide (110 ≤ c) || (t.stopped && decide (100 < c))
  { t with temp := c, share := if stop then 0 else burstShare c, warm := decide (95 ≤ c), hot := decide (105 ≤ c), stopped := stop }

/-- The module with the report's values. -/
def reportedTemp (m : Module) (p : Nat) (c : Int) : Module :=
  (if (m.stack p).share < 64 then m.bump (odKey 0x4030 3) 1000 else m).onStack p (fun t => { t with
    temp := c, share := (reportedStack (m.stack p) c).share, warm := decide (95 ≤ c), hot := decide (105 ≤ c),
    stopped := (reportedStack (m.stack p) c).stopped })

/-- The events of its crossings of 95 and 105 degrees. -/
def crossed (fu : Fuses) (m : Module) (p : Nat) (c : Int) (t : Stack) : Module :=
  let m := if 95 ≤ c && !t.warm then m.event fu 0x0403 [p, unsigned 64 c] else m
  if 105 ≤ c && !t.hot then m.event fu 0x0404 [p, unsigned 64 c] else m

/-- The count and the event of its stop. -/
def stopCounted (fu : Fuses) (m : Module) (p : Nat) (c : Int) (t : Stack) : Module :=
  if (reportedStack t c).stopped && !t.stopped then (m.bump (odKey 0x4030 4) 1).event fu 0x0405 [p, unsigned 64 c, m.queuedAt p] else m

/-- A stop is counted, a resumption sends what waited on. -/
theorem stopCounted_branches (fu : Fuses) (m : Module) (p : Nat) (c : Int) (t : Stack) :
    (if (reportedStack t c).stopped && !t.stopped then
        (m.bump (odKey 0x4030 4) 1).event fu 0x0405 [p, unsigned 64 c, m.queuedAt p]
      else if t.stopped && !(reportedStack t c).stopped then m.resumeData fu else m) =
    if t.stopped = true ∧ (reportedStack t c).stopped = false then (stopCounted fu m p c t).resumeData fu
    else stopCounted fu m p c t := by
  unfold stopCounted
  cases (reportedStack t c).stopped <;> cases t.stopped <;> simp

theorem keeps_stopCounted (fu : Fuses) (m : Module) (p : Nat) (c : Int) (t : Stack) :
    KeepsBut reporting m (stopCounted fu (crossed fu m p c t) p c t) := by
  unfold stopCounted crossed
  dsimp only
  repeat' split
  all_goals simp [keeps_refl, reporting]

theorem odGet_stopCounted (fu : Fuses) (m : Module) (p : Nat) (c : Int) (t : Stack) :
    (stopCounted fu (crossed fu m p c t) p c t).odGet (odKey 0x4030 3) = m.odGet (odKey 0x4030 3) := by
  have event := fun (n : Module) c l => odGet_event fu n c l (odKey 0x4030 3) (by decide)
  have other : odKey 0x4030 3 ≠ odKey 0x4030 4 := by decide
  unfold stopCounted crossed
  dsimp only
  repeat' split
  all_goals simp [event, odGet_bump, other]

theorem keeps_reportedTemp (m : Module) (p : Nat) (c : Int) : KeepsBut (.hbmStacks :: reporting) m (reportedTemp m p c) := by
  unfold reportedTemp
  split <;> simp [keeps_refl, reporting]

theorem odGet_reportedTemp (m : Module) (p : Nat) (c : Int) : (reportedTemp m p c).odGet (odKey 0x4030 3) =
    if (m.stack p).share < 64 then (m.odGet (odKey 0x4030 3) + 1000) % 2 ^ 64 else m.odGet (odKey 0x4030 3) := by
  unfold reportedTemp
  split
  · exact odGet_bump m _ _ _
  · rfl

theorem reportedTemp_stack {m : Module} {p : Nat} (inside : p < m.hbmStacks.length) (c : Int) :
    (reportedTemp m p c).stack p = reportedStack (m.stack p) c := by
  unfold reportedTemp
  split <;> exact stack_onStack_self _ _ _ inside

/-- The bursts that a stack may have after a report: none while it is stopped, else by the temperature. -/
theorem reportedStack_share (t : Stack) (c : Int) :
    ((reportedStack t c).stopped = true → (reportedStack t c).share = 0) ∧
      ((reportedStack t c).stopped = false → (c < 95 → (reportedStack t c).share = 64) ∧
        (95 ≤ c → c < 105 → ((reportedStack t c).share : Int) = 64 * (115 - c) / 20) ∧ (105 ≤ c → (reportedStack t c).share = 32)) := by
  simp only [reportedStack]
  refine ⟨fun stopped => by simp [stopped], fun runs => ?_⟩
  have below : c < 110 := by
    simp only [Bool.or_eq_false_iff, decide_eq_false_iff_not] at runs
    omega
  simp only [runs, burstShare]
  refine ⟨fun cool => by simp [cool], fun warm mild => ?_, fun hot => ?_⟩
  · simp only [Bool.false_eq_true, if_false, if_neg (show ¬ c < 95 by omega), if_pos mild]
    omega
  · simp [show ¬ c < 95 by omega, show ¬ c < 105 by omega, below]

section
variable {s : State} {p : Nat} (hp : p < 24) (inside : p < s.m.hbmStacks.length) (powered : s.m.powered = true)
include hp inside powered

theorem goes_rowRepair {pc bank row reason : Nat} (hpc : pc < 32) (hbank : bank < 32) (hrow : row < 65536)
    (under : (s.m.stack p).repairing.find? (fun r => r / 8 == rowKey pc bank row) = some (8 * rowKey pc bank row + reason)) :
    Goes s (.rowRepairComplete p pc bank row) (fun n =>
      (n.stack p).repairing = (s.m.stack p).repairing.filter (fun x => x / 8 != rowKey pc bank row) ∧
      n.odGet (odKey 0x4020 7) = (s.m.odGet (odKey 0x4020 7) + 1) % 2 ^ 64 ∧ KeepsBut hbmReading s.m n) := by
  have flagged : (s.m.stack p).repairing.any (fun y => y / 8 == rowKey pc bank row) = true :=
    List.any_eq_true.2 ⟨_, List.mem_of_find?_eq_some under, List.find?_some (p := fun r => r / 8 == rowKey pc bank row) under⟩
  have repairing := repairing_copyRow s.fuse hp hpc hbank flagged
  have there : p < (s.m.copyRow s.fuse p pc bank row).hbmStacks.length := by
    rw [show (s.m.copyRow s.fuse p pc bank row).hbmStacks.length = s.m.hbmStacks.length from
      stacks_length (m := s.m) (unread_hbmReads s.fuse s.m 0xFF _)]
    exact inside
  have count : (s.m.copyRow s.fuse p pc bank row).odGet (odKey 0x4020 7) = s.m.odGet (odKey 0x4020 7) :=
    odGet_hbmReads s.fuse s.m (by decide) 0xFF _
  have counted : ∀ (f : Stack → Stack) (l : List Nat),
      ((((s.m.copyRow s.fuse p pc bank row).onStack p f).bump (odKey 0x4020 7) 1).event s.fuse 0x0406 l).odGet (odKey 0x4020 7) =
        (s.m.odGet (odKey 0x4020 7) + 1) % 2 ^ 64 := fun f l => by
    rw [odGet_event_readKeys s.fuse _ (by decide), odGet_bump, if_pos rfl, ← count]
    rfl
  have keeps := keeps_copyRow s.fuse s.m p pc bank row
  refine goes_actOn rfl (by simp [hp, hpc, hbank, hrow]) powered ?_
  simp only [under]
  split
  · refine ⟨?_, (odGet_reason s.fuse _ (by decide) 1 _).trans (counted _ _), ?_⟩
    · simp [stack_onStack_self _ _ _ there, repairing]
    · simpa [hbmReading] using keeps
  · refine ⟨?_, counted _ _, ?_⟩
    · simp [stack_onStack_self _ _ _ there, repairing]
    · simpa [hbmReading] using keeps

/-! ### Refreshes (R363) and the scrubber (R371) -/

theorem goes_dramRefresh {pc : Nat} (hpc : pc < 32) (ready : (s.m.stack p).ready = true) :
    Goes s (.dramRefresh p pc) (fun n =>
      n.stack p = { s.m.stack p with refreshes := (s.m.stack p).refreshes + 1 } ∧ KeepsBut [.hbmStacks] s.m n) := by
  refine goes_actOn rfl (by simp [hp, hpc]) powered ?_
  rw [if_pos ready]
  exact ⟨stack_onStack_self s.m p (fun t => { t with refreshes := t.refreshes + 1 }) inside, keeps_onStack _ _ _⟩

theorem goes_patrolScrub (symbols : List Nat) (ready : (s.m.stack p).ready = true) (runs : (s.m.stack p).stopped = false) :
    Goes s (.patrolScrub p symbols) (fun n =>
      (n.stack p).scrubAt = ((s.m.stack p).scrubAt + 1) % 2 ^ 31 ∧
      (∀ a, a / 32 ≠ scrubAddr p (s.m.stack p).scrubAt / 32 → (∀ b ∈ s.m.bursts, b.granule ≠ a / 32) →
        n.hbm.get a = s.m.hbm.get a) ∧
      KeepsBut hbmReading s.m n) := by
  have visited := unread_scrubbed s.fuse s.m (scrubAddr p (s.m.stack p).scrubAt) symbols
  have next := congrArg Stack.scrubAt (view_stack visited p)
  refine goes_actOn rfl (decide_eq_true hp) powered ?_
  simp only [ready, runs, Bool.not_true, Bool.or_self, Bool.false_eq_true, if_false]
  refine ⟨?_, fun a other sound => scrubbed_elsewhere s.fuse s.m symbols other sound, ?_⟩
  · rw [stack_onStack_self _ _ _ ((stacks_length visited).symm ▸ inside)]
    exact congrArg (fun k => (k + 1) % 2 ^ 31) next
  · rw [kb_onStack _ _ (by decide)]
    exact keeps_trans (keeps_addErrors _ _ _) (keeps_scrub _ _ _)

theorem goes_stackTemperatureReport (c : Int) (ready : (s.m.stack p).ready = true) :
    Goes s (.stackTemperatureReport p c) (fun n => ∃ x : Module, x.stack p = reportedStack (s.m.stack p) c ∧
      x.odGet (odKey 0x4030 3) =
        (if (s.m.stack p).share < 64 then (s.m.odGet (odKey 0x4030 3) + 1000) % 2 ^ 64 else s.m.odGet (odKey 0x4030 3)) ∧
      KeepsBut (.hbmStacks :: reporting) s.m x ∧
      n = if (s.m.stack p).stopped = true ∧ (x.stack p).stopped = false then x.resumeData s.fuse else x) := by
  have counts := keeps_stopCounted s.fuse (reportedTemp s.m p c) p c (s.m.stack p)
  have reported : (stopCounted s.fuse (crossed s.fuse (reportedTemp s.m p c) p c (s.m.stack p)) p c (s.m.stack p)).stack p =
      reportedStack (s.m.stack p) c := by
    rw [Module.stack, counts .hbmStacks (by decide)]
    exact reportedTemp_stack inside c
  refine goes_actOn rfl (decide_eq_true hp) powered ⟨_, reported, (odGet_stopCounted ..).trans (odGet_reportedTemp ..),
    keeps_trans (keeps_reportedTemp s.m p c) (keeps_mono counts (by decide)), ?_⟩
  rw [reported]
  simp only [ready, Bool.not_true, Bool.false_eq_true, if_false]
  exact stopCounted_branches ..

end

/-- Settles O36: reads leave a stack's own state, an enabled stack is clean before its marks are set, a row under repair is not flagged
again, and a report's events write none of the values it sets. -/
theorem stacksServeAndRepair : Obligations.StacksServeAndRepair := by
  intro s p hp inside powered
  refine ⟨fun stage pc lanes tackle marks rows enabled unready unfailed => ?_,
    fun pc bank row reason hpc hbank hrow _ under => goes_rowRepair hp inside powered hpc hbank hrow under,
    fun pc hpc ready => goes_dramRefresh hp inside powered hpc ready,
    fun symbols ready runs => goes_patrolScrub hp inside powered symbols ready runs, fun c ready => ?_⟩
  · by_cases passes : stage = 0
    · subst passes
      obtain ⟨t, run, fuses, queue, leaves⟩ := goes_stackEnable_passed hp inside powered (pc := pc) (lanes := lanes) (tackle := tackle)
        (marks := marks) (rows := rows) enabled unready unfailed
      exact ⟨t, run, fuses, queue, fun fails => absurd rfl fails, fun _ => leaves⟩
    · obtain ⟨t, run, fuses, queue, leaves⟩ := goes_stackEnable_failed hp inside powered (pc := pc) (lanes := lanes) (tackle := tackle)
        (marks := marks) (rows := rows) enabled unready unfailed passes
      exact ⟨t, run, fuses, queue, fun _ => leaves, fun zero => absurd zero passes⟩
  · obtain ⟨t, run, fuses, queue, x, reported, limited, keeps, resumes⟩ := goes_stackTemperatureReport hp inside powered c ready
    obtain ⟨none, some⟩ := reportedStack_share (s.m.stack p) c
    refine ⟨t, run, fuses, queue, x, ?_, ?_, ?_, ?_, ?_, ?_, limited, keeps, resumes⟩ <;> rw [reported]
    · rfl
    · simp [reportedStack]
    · simp [reportedStack]
    · simp [reportedStack]
    · exact none
    · exact some

end Sys2Proof.Proofs
end

section
/-!
PROOFS. Experts: the dispatch build, fetches and the pages they bring in (R327, R328, R336, R337, R341).
-/
namespace Sys2Proof.Proofs

open Sys2Proof.Machine Sys2Proof.Laws

/-- A job context whose program has experts is one of the module's. -/
theorem inside_of_experts {m : Module} {j : Nat} {x : Experts} (program : (m.job j).prog.experts = some x) : j < m.jobs.length := by
  by_contra outside
  rw [Module.job, List.getD_eq_default _ _ (Nat.le_of_not_lt outside)] at program
  exact Option.some_ne_none x program.symm

/-! ### The reads of a build -/

theorem keeps_routerReads (fu : Fuses) (m : Module) (o : Operand) (k rows : Nat) : KeepsBut hbmReading m (m.routerReads fu o k rows) := by
  unfold Module.routerReads
  dsimp only
  split
  · exact keeps_refl _ _
  · exact keeps_trans (keeps_hbmReads fu m o.job _) (keeps_narrowReads _ _)

/-- The module once a build has read its target, its rows, its index and its gates. -/
def buildRead (fu : Fuses) (m : Module) (j rows : Nat) (r : Router) (idx gate : Operand) : Module :=
  (((m.routerShapes j r).foldl (fun (m : Module) x => m.request fu j x.1 x.2) m).routerReads fu idx (r.kM1 + 1) rows).routerReads fu
    gate (r.kM1 + 1) rows

theorem keeps_buildRead (fu : Fuses) (m : Module) (j rows : Nat) (r : Router) (idx gate : Operand) :
    KeepsBut hbmReading m (buildRead fu m j rows r idx gate) :=
  
  keeps_trans (keeps_trans (kb_foldl _ _ (fun m (x : Nat × Nat) => keeps_request fu m j x.1 x.2) m)
    (keeps_routerReads fu _ idx (r.kM1 + 1) rows)) (keeps_routerReads fu _ gate (r.kM1 + 1) rows)

/-! ### The dispatch area (R328) -/

/-- Pieces stored in a job's region. -/
def storeParts (m : Module) (j base : Nat) (parts : List (Nat × List Byte)) : Module :=
  parts.foldl (fun (m : Module) p => m.storeAt j 0 2 (base + p.1) p.2 false) m

theorem storeParts_keeps (j base : Nat) (parts : List (Nat × List Byte)) (m : Module) :
    KeepsBut [.hbm, .hbmPoison] m (storeParts m j base parts) :=
  kb_foldl _ _ (fun m _ => wr_keeps m j _ _) m

theorem storeParts_hbm (j base : Nat) (parts : List (Nat × List Byte)) (m : Module) : (storeParts m j base parts).hbm =
    parts.foldl (fun (h : Mem) p => h.write ((m.job j).hbmBase + (base + p.1)) p.2) m.hbm := by
  induction parts generalizing m with
  | nil => rfl
  | cons p parts ih =>
    have jobs : (m.storeAt j 0 2 (base + p.1) p.2 false).jobs = m.jobs := wr_keeps m j _ _ .jobs (by decide)
    simp only [storeParts, List.foldl_cons]
    refine (ih _).trans ?_
    rw [Module.job, jobs]
    rfl

/-! ### Dropped pairs (R329) -/

/-- The routers that told of dropped pairs, once router `k` dropped `n` of them. -/
def overfullAfter (told : List Nat) (k n : Nat) : List Nat := if n = 0 ∨ k ∈ told then told else told ++ [k]

/-- From `m` to `n` job `j` alone changed, only in its run, which is `r` now, with what reports write. -/
structure RunIs (j : Nat) (r : Run) (m n : Module) : Prop where
  own : n.job j = { m.job j with run := r }
  others : OtherJobs j m n
  keeps : KeepsBut [.jobs, .od, .log, .report] m n

theorem dropped_told (fu : Fuses) {m : Module} {j : Nat} (inside : j < m.jobs.length) (k : Nat) (d : Dispatch) :
    RunIs j { (m.job j).run with overfull := overfullAfter (m.job j).run.overfull k d.dropped } m
      (if d.dropped = 0 then m else m.tellDropped fu j k d) := by
  unfold Module.tellDropped overfullAfter
  by_cases none : d.dropped = 0
  · simp only [none, if_true, true_or]
    exact ⟨rfl, fun _ _ => rfl, keeps_refl _ _⟩
  by_cases told : k ∈ (m.job j).run.overfull
  · simp only [none, told, if_false, or_true, if_true, List.contains_eq_mem, decide_true]
    exact ⟨rfl, fun _ _ => rfl, keeps_refl _ _⟩
  · simp only [none, told, if_false, or_self, List.contains_eq_mem, decide_false, Bool.false_eq_true]
    refine ⟨?_, fun i other => ?_, by simp [keeps_refl]⟩
    · rw [job_of_event, job_onRun_self m j _ inside]
    · rw [job_of_event, job_onRun_other m j i _ other]

/-! ### The experts that a build asks for (R336) -/

/-- From `m` to `n` the experts `es` of job `j` have been asked for. -/
structure AskedFor (j : Nat) (es : List Nat) (m n : Module) : Prop where
  run : (n.job j).run = (m.job j).run
  others : OtherJobs j m n
  keeps : KeepsBut [.jobs] m n
  still : ∀ f ∈ (m.job j).fetches, f ∈ (n.job j).fetches
  asked : ∀ e ∈ es, (m.residentOf j e).isSome = true ∨ ∃ f ∈ (n.job j).fetches, f.expert = e

theorem askFetch_askedFor {m : Module} {j : Nat} (inside : j < m.jobs.length) (e : Nat) : AskedFor j [e] m (m.askFetch j e) := by
  have grown : (m.askFetch j e).job j = m.job j ∨ ∃ f : Fetch, (m.askFetch j e).job j = { m.job j with fetches := (m.job j).fetches ++ [f] } := by
    unfold Module.askFetch
    split
    · exact .inl rfl
    · exact .inr ⟨_, job_onJob_self m j _ inside⟩
  refine ⟨?_, askFetch_otherJobs, askFetch_keeps, fun f hf => ?_, fun e' he => ?_⟩
  · rcases grown with same | ⟨f, more⟩
    · rw [same]
    · rw [more]
  · rcases grown with same | ⟨f, more⟩
    · rwa [same]
    · rw [more]
      exact List.mem_append_left _ hf
  · rw [List.mem_singleton.1 he]
    cases absent : m.residentOf j e with
    | some r => exact .inl rfl
    | none => exact .inr (askFetch_asks inside absent)

theorem residentOf_congr {m n : Module} (same : n.residency = m.residency) (j e : Nat) : n.residentOf j e = m.residentOf j e := by
  rw [Module.residentOf, same, Module.residentOf]

theorem AskedFor.cons {j e : Nat} {es : List Nat} {a b c : Module} (first : AskedFor j [e] a b) (rest : AskedFor j es b c) :
    AskedFor j (e :: es) a c := by
  have resident := residentOf_congr (first.keeps .residency (by decide)) j
  refine ⟨rest.run.trans first.run, fun i other => (rest.others i other).trans (first.others i other), keeps_trans first.keeps rest.keeps,
    fun f hf => rest.still f (first.still f hf), fun e' he => ?_⟩
  rcases List.mem_cons.1 he with rfl | later
  · exact (first.asked e' (List.mem_singleton_self _)).imp_right fun ⟨f, hf, names⟩ => ⟨f, rest.still f hf, names⟩
  · rw [← resident]
    exact rest.asked e' later

theorem askedFor_all {j : Nat} (base : Nat) (es : List Nat) {m : Module} (inside : j < m.jobs.length) :
    AskedFor j (es.map (base + ·)) m (es.foldl (fun (m : Module) e => m.askFetch j (base + e)) m) := by
  induction es generalizing m with
  | nil => exact ⟨rfl, fun _ _ => rfl, keeps_refl _ _, fun _ hf => hf, fun _ he => absurd he List.not_mem_nil⟩
  | cons e es ih => exact (askFetch_askedFor inside (base + e)).cons (ih (askFetch_jobs_length.symm ▸ inside))

/-! ### The build -/

/-- The run of a job once the build of router `k` has ended with the lists `d`. -/
def builtRun (a : Run) (k : Nat) (r : Router) (d : Dispatch) : Run :=
  { a with dispatched := a.dispatched ++ [k], signals := a.signals ++ [r.doneCtr], overfull := overfullAfter a.overfull k d.dropped }

/-- The module in which a build has stored its area and counted itself. -/
def builtCounted (y : Module) (j k : Nat) (r : Router) (d : Dispatch) (parts : List (Nat × List Byte)) : Module :=
  (((storeParts y j r.dispatchBase parts).bump (odKey 0x3250 2) 1).bump (odKey 0x3250 1) d.dropped).onRun j (fun x =>
    { x with dispatched := x.dispatched ++ [k], signals := x.signals ++ [r.doneCtr] })

/-- The end of a build whose lists are `d`. -/
def built (fu : Fuses) (y : Module) (j k : Nat) (r : Router) (d : Dispatch) (parts : List (Nat × List Byte)) : Module :=
  (if d.dropped = 0 then builtCounted y j k r d parts else (builtCounted y j k r d parts).tellDropped fu j k d).askCounted j r d

theorem builtCounted_runIs {y : Module} {j : Nat} (inside : j < y.jobs.length) (k : Nat) (r : Router) (d : Dispatch)
    (parts : List (Nat × List Byte)) :
    RunIs j { (y.job j).run with dispatched := (y.job j).run.dispatched ++ [k], signals := (y.job j).run.signals ++ [r.doneCtr] }
      (storeParts y j r.dispatchBase parts) (builtCounted y j k r d parts) := by
  have jobs : (storeParts y j r.dispatchBase parts).jobs = y.jobs := storeParts_keeps j _ parts y .jobs (by decide)
  have own : (storeParts y j r.dispatchBase parts).job j = y.job j := by rw [Module.job, jobs, Module.job]
  refine ⟨?_, fun i other => job_onRun_other _ j i _ other, by simp [builtCounted, keeps_refl]⟩
  rw [builtCounted, job_onRun_self _ j _ (by rw [bump_jobs, bump_jobs, jobs]; exact inside), job_of_bump, job_of_bump, own]

/-- What a build leaves: its area, its count, its signal and its requests. -/
theorem built_leaves (fu : Fuses) {y : Module} {j : Nat} (inside : j < y.jobs.length) (k : Nat) (r : Router) (d : Dispatch)
    (parts : List (Nat × List Byte)) :
    let n := built fu y j k r d parts
    n.hbm = parts.foldl (fun (h : Mem) p => h.write ((y.job j).hbmBase + (r.dispatchBase + p.1)) p.2) y.hbm ∧
      (n.job j).run = builtRun (y.job j).run k r d ∧
      (∀ e, e < r.span → 0 < d.count e →
        (y.residentOf j (r.expertBase + e)).isSome = true ∨ ∃ f ∈ (n.job j).fetches, f.expert = r.expertBase + e) ∧
      OtherJobs j y n ∧ KeepsBut [.hbm, .hbmPoison, .jobs, .od, .log, .report] y n := by
  intro n
  have stored := storeParts_keeps j r.dispatchBase parts y
  have counted := builtCounted_runIs inside k r d parts
  have countedIn : j < (builtCounted y j k r d parts).jobs.length := by
    rw [builtCounted, onRun_len, bump_jobs, bump_jobs, stored .jobs (by decide)]
    exact inside
  have told := dropped_told fu countedIn k d
  have toldIn : j < (if d.dropped = 0 then builtCounted y j k r d parts else (builtCounted y j k r d parts).tellDropped fu j k d).jobs.length := by
    unfold Module.tellDropped
    repeat' split
    all_goals simpa [onRun_len] using countedIn
  have asked := askedFor_all r.expertBase ((List.range r.span).filter (fun e => decide (0 < d.count e))) toldIn
  have later : KeepsBut [.jobs, .od, .log, .report] (storeParts y j r.dispatchBase parts) n :=
    keeps_trans counted.keeps (keeps_trans told.keeps (keeps_mono asked.keeps (by decide)))
  refine ⟨?_, ?_, fun e below routed => ?_, fun i other => ?_, keeps_trans (keeps_mono stored (by decide)) (keeps_mono later (by decide))⟩
  · exact (later .hbm (by decide)).trans (storeParts_hbm j r.dispatchBase parts y)
  · refine asked.run.trans ?_
    rw [told.own, counted.own]
    rfl
  · have residency := (told.keeps .residency (by decide)).trans ((counted.keeps .residency (by decide)).trans (stored .residency (by decide)))
    rw [← residentOf_congr residency]
    exact asked.asked _ (List.mem_map_of_mem (List.mem_filter.2 ⟨List.mem_range.2 below, decide_eq_true routed⟩))
  · have jobs : (storeParts y j r.dispatchBase parts).job i = y.job i := by
      rw [Module.job, stored .jobs (by decide), Module.job]
    exact (asked.others i other).trans ((told.others i other).trans ((counted.others i other).trans jobs))

/-! ### Fetches (R336, R337) -/

/-- The entry of a fetch that begins in frame run `r`. -/
def fetching (m : Module) (j : Nat) (f : Fetch) (r : Nat) : Residency :=
  { expert := f.expert, job := j, state := 1, pinned := f.pin, poisoned := false, frame := r, present := 0,
    lastUse := m.readStamp j f.expert }

theorem beginFetch_leaves {m : Module} {j e : Nat} (inside : j < m.jobs.length) (f : Fetch) (r : Nat)
    (entry : leastBy id (((m.entriesOf j).filter (fun r => r.2.state == 0)).map Prod.fst) = some e) :
    (m.beginFetch j f r).residency = m.residency.map (fun y => if y.1 = e then (y.1, fetching m j f r) else y) ∧
      ((m.beginFetch j f r).job j).fetches = modifyAt (fun (f : Fetch) => { f with started := true }) (m.job j).fetches 0 ∧
      OtherJobs j m (m.beginFetch j f r) ∧ KeepsBut [.residency, .jobs] m (m.beginFetch j f r) := by
  have entered : ∀ g : Residency → Residency, KeepsBut [.residency] m (m.onEntry e g) := fun g part hpart => by
    cases part <;> simp_all [Part.same, Module.onEntry]
  unfold Module.beginFetch
  rw [entry]
  refine ⟨rfl, ?_, fun i other => job_onJob_other _ j i _ other, ?_⟩
  · exact congrArg Job.fetches (job_onJob_self (m.onEntry e fun _ => fetching m j f r) j
      (fun b => { b with fetches := modifyAt (fun (f : Fetch) => { f with started := true }) b.fetches 0 }) inside)
  · exact (kb_onJob _ _ (by decide)).2 (keeps_mono (entered _) (by decide))

/-! ### A page of an expert (R341) -/

theorem keeps_dieReads (fu : Fuses) (m : Module) (o : Obj) : KeepsBut [.store, .od, .log, .report] m (m.dieReads fu o) := by
  unfold Module.dieReads
  dsimp only
  split
  · exact keeps_refl _ _
  · exact kb_foldl _ _ (fun m p => keeps_pageRebuilt fu m _ _ _ _) m

theorem sameObjects_foldl {α : Type} (f : Module → α → Module) (each : ∀ m a, SameObjects m (f m a)) (l : List α) (m : Module) :
    SameObjects m (l.foldl f m) :=
  List.foldlRecOn (motive := SameObjects m) l f (same_objs rfl) (fun _ same a _ => sameObjects_trans same (each _ a))

/-- A read of an object's pages on a failed die moves extents only. -/
theorem sameObjects_dieReads (fu : Fuses) (m : Module) (o : Obj) : SameObjects m (m.dieReads fu o) := by
  unfold Module.dieReads
  dsimp only
  split
  · exact same_objs rfl
  · exact sameObjects_foldl _ (fun m p => sameObjects_rebuilt fu m _ _ _ _) _ m

theorem dieReads_of_no_failure (fu : Fuses) {m : Module} (o : Obj) (sound : m.store.servesFailed = false) : m.dieReads fu o = m := by
  simp [Module.dieReads, sound]

/-- The object of an identifier, wherever its extents lie. -/
theorem find_sameObjects {m n : Module} (same : SameObjects m n) {part id : Nat} {o : Obj} (found : m.store.find part id = some o) :
    ∃ place, n.store.find part id = some { o with place := place } := by
  have bare : ∀ c : Coil, (c.find part id).map bareObj = (c.objs.map bareObj).find? (fun o => o.part == part && o.id == id) := fun c => by
    rw [List.find?_map]
    rfl
  have there : (n.store.find part id).map bareObj = some (bareObj o) := by
    rw [bare, show n.store.objs.map bareObj = m.store.objs.map bareObj from same, ← bare, found]
    rfl
  obtain ⟨p, stands, alike⟩ := Option.map_eq_some_iff.1 there
  refine ⟨p.place, stands.trans (congrArg some ?_)⟩
  have placed := congrArg (fun x : Obj => { x with place := p.place }) alike
  exact placed

/-- Bytes copied from one memory to another stand there, and the rest stays. -/
theorem get_copyFrom (mem src : Mem) (a b n x : Nat) :
    (mem.copyFrom a src b n).get x = if a ≤ x ∧ x < a + n then src.get (b + (x - a)) else mem.get x := by
  have low := get_filter mem (fun k => decide (k < a)) x
  have high := get_filter mem (fun k => decide (a + n ≤ k)) x
  have shifted : ∀ l : Mem, (∀ c ∈ l, b ≤ c.1) → a ≤ x → Mem.get (l.map (fun c => (c.1 - b + a, c.2))) x = Mem.get l (b + (x - a)) := by
    intro l from_ above
    induction l with
    | nil => rfl
    | cons c l ih =>
      have key : (c.1 - b + a = x) = (c.1 = b + (x - a)) := by
        have := from_ c List.mem_cons_self
        rw [eq_iff_iff]
        omega
      simp only [List.map_cons, Mem.get, key, ih (fun d hd => from_ d (List.mem_cons_of_mem _ hd))]
  have copied := get_filter src (fun k => decide (b ≤ k) && decide (k < b + n))
  have inner : ∀ c ∈ (src.filter (fun c => decide (b ≤ c.1) && decide (c.1 < b + n))).map (fun c => (c.1 - b + a, c.2)),
      a ≤ c.1 ∧ c.1 < a + n := by
    intro c hc
    obtain ⟨d, hd, rfl⟩ := List.mem_map.1 hc
    have := (List.mem_filter.1 hd).2
    simp only [Bool.and_eq_true, decide_eq_true_eq] at this
    dsimp only
    omega
  have noHigh : x < a + n → NoKey (mem.filter (fun c => decide (a + n ≤ c.1))) x := fun below c hc => by
    have := of_decide_eq_true (List.mem_filter.1 hc).2
    omega
  have noLow : a ≤ x → NoKey (mem.filter (fun c => decide (c.1 < a))) x := fun above c hc => by
    have := of_decide_eq_true (List.mem_filter.1 hc).2
    omega
  have noInner : ¬(a ≤ x ∧ x < a + n) → NoKey _ x := fun outside c hc => by
    have := inner c hc
    omega
  unfold Mem.copyFrom
  by_cases within : a ≤ x ∧ x < a + n
  · rw [if_pos within, List.append_assoc, get_append_left _ _ _ (noLow within.1), get_append_right _ _ _ (noHigh within.2),
      shifted _ (fun c hc => by have := (List.mem_filter.1 hc).2; simp only [Bool.and_eq_true, decide_eq_true_eq] at this; exact this.1)
        within.1, copied, if_pos]
    simp only [Bool.and_eq_true, decide_eq_true_eq]
    omega
  · rw [if_neg within]
    by_cases below : x < a
    · rw [get_append_right _ _ _ (noHigh (by omega)), get_append_right _ _ _ (noInner within), low, if_pos (decide_eq_true below)]
    · rw [List.append_assoc, get_append_left _ _ _ (noLow (by omega)), get_append_left _ _ _ (noInner within), high,
        if_pos (decide_eq_true (by omega))]

/-- An entry that is set reads back, and no other changes. -/
theorem lookup_onEntry {α : Type} (l : List (Nat × α)) (e k : Nat) (f : α → α) :
    (l.map (fun r => if r.1 = e then (r.1, f r.2) else r)).lookup k = (l.lookup k).map (fun r => if k = e then f r else r) := by
  induction l with
  | nil => rfl
  | cons r l ih =>
    obtain ⟨i, r⟩ := r
    by_cases here : k = i
    · subst here
      by_cases entry : k = e <;> simp [List.lookup, entry]
    · have away : (k == i) = false := beq_false_of_ne here
      have entry : ∀ v : α, (if i = e then (i, f v) else (i, v)) = (i, if i = e then f v else v) := fun v => by split <;> rfl
      simp only [List.map_cons, entry, List.lookup, away]
      exact ih

/-- A page of an expert written into its frame. -/
theorem keeps_pageIn (m : Module) (j : Nat) (x : Experts) (o : Obj) (r : Residency) (q : Nat) :
    KeepsBut [.hbm, .hbmPoison] m (m.pageIn j x o r q) := by
  intro part hpart
  cases part <;> simp_all [Part.same, Module.pageIn]

/-- The frame's bytes are the page's, and every other byte is as it was. -/
theorem pageIn_reads (m : Module) (j : Nat) (x : Experts) (o : Obj) (r : Residency) (q : Nat) :
    let dst := (m.job j).hbmBase + x.poolBase + extentBytes * (r.frame + q)
    (∀ a, a < extentBytes → (m.pageIn j x o r q).hbm.get (dst + a) = o.data.get (extentBytes * (x.pageCount * r.expert + q) + a)) ∧
      (∀ a, a < dst ∨ dst + extentBytes ≤ a → (m.pageIn j x o r q).hbm.get a = m.hbm.get a) := by
  intro dst
  have copied := get_copyFrom m.hbm o.data dst (extentBytes * (x.pageCount * r.expert + q)) extentBytes
  refine ⟨fun a below => (copied (dst + a)).trans ?_, fun a outside => (copied a).trans (if_neg (by omega))⟩
  rw [if_pos (by omega), Nat.add_sub_cancel_left]

/-- The entry of an expert after its next page: the module with the entry, the counts and the report. -/
def pageEntered (fu : Fuses) (m : Module) (j n expert page : Nat) (r : Residency) (bad : Bool) : Module :=
  let m := ((m.onEntry n (fun _ => r)).bump (odKey 0x4220 2) 1).bump (odKey 0x6020 11) extentBytes
  if bad then (m.bump (odKey 0x4220 6) 1).event fu 0x0420 [j, expert, page] else m

theorem pageEntered_leaves (fu : Fuses) (m : Module) (j n expert page : Nat) (r : Residency) (bad : Bool) :
    (pageEntered fu m j n expert page r bad).residency = m.residency.map (fun y => if y.1 = n then (y.1, r) else y) ∧
      KeepsBut [.residency, .od, .log, .report] m (pageEntered fu m j n expert page r bad) := by
  have entered : KeepsBut [.residency] m (m.onEntry n (fun _ => r)) := fun part hpart => by
    cases part <;> simp_all [Part.same, Module.onEntry]
  have kept := keeps_mono (qs := [.residency, .od, .log, .report]) entered (by decide)
  unfold pageEntered
  cases bad
  · exact ⟨rfl, by simpa using kept⟩
  · exact ⟨by simp [Module.onEntry], by simpa using kept⟩

/-- The last page leaves the expert resident and its commands answered. -/
theorem resident_leaves (m : Module) (j n : Nat) (r : Residency) :
    (m.resident j n r).residency = m.residency.map (fun y => if y.1 = n then (y.1, { y.2 with state := 2 }) else y) ∧
      KeepsBut [.residency, .jobs, .queues] m (m.resident j n r) := by
  have entered : KeepsBut [.residency] m (m.onEntry n (fun r => { r with state := 2 })) := fun part hpart => by
    cases part <;> simp_all [Part.same, Module.onEntry]
  unfold Module.resident
  refine ⟨(keeps_answerAll _ _ _ _ _ .residency (by decide)).trans rfl, ?_⟩
  rw [kb_answerAll _ _ _ _ (by decide), kb_onJob _ _ (by decide)]
  exact keeps_mono entered (by decide)

/-- After a page the entry is `r`, RESIDENT where the page was the last. -/
theorem pageDone_leaves (fu : Fuses) (m : Module) (j n expert page pages : Nat) (r : Residency) (bad : Bool) :
    let y := pageEntered fu m j n expert page r bad
    let z := if page + 1 = pages then y.resident j n r else y
    z.residency = m.residency.map (fun y => if y.1 = n then (y.1, { r with state := if page + 1 = pages then 2 else r.state }) else y) ∧
      KeepsBut [.residency, .jobs, .queues, .od, .log, .report] m z := by
  intro y z
  obtain ⟨entries, entered⟩ := pageEntered_leaves fu m j n expert page r bad
  by_cases last : page + 1 = pages
  · obtain ⟨ready, answered⟩ := resident_leaves y j n r
    simp only [z, if_pos last]
    refine ⟨ready.trans ?_, keeps_trans (keeps_mono entered (by decide)) (keeps_mono answered (by decide))⟩
    rw [entries, List.map_map]
    refine List.map_congr_left fun e _ => ?_
    by_cases here : e.1 = n <;> simp [here]
  · simp only [z, if_neg last]
    exact ⟨entries, keeps_mono entered (by decide)⟩

/-! ### The commands -/

section
variable {s : State} {j : Nat} (hj : j < 16) (powered : s.m.powered = true) {x : Experts} (program : (s.m.job j).prog.experts = some x)
include hj powered program

theorem goes_dispatchBuild {k t rows : Nat} {r : Router} {idx gate : Operand} {d : Dispatch} (router : x.routers[k]? = some r)
    (live : (s.m.job j).state = 3) (active : (s.m.job j).run.active = true) (nothing : (s.m.job j).run.mustReplay = none)
    (first : k ∉ (s.m.job j).run.dispatched) (target : s.m.shape j 0 r.startTarget = .val t)
    (due : t ≤ (s.m.job j).counter r.startCtr) (planned : t ≤ r.startTarget.plan) (shaped : s.m.shape j 0 r.rows = .val rows)
    (fits : rows ≤ r.rows.plan) (index : s.m.bufOperand j r.idxBuf = some idx) (gates : s.m.bufOperand j r.gateBuf = some gate)
    (serves : s.m.stoppedIn (s.m.routerShapes j r ++ s.m.routerRanges idx (r.kM1 + 1) rows ++ s.m.routerRanges gate (r.kM1 + 1) rows ++
      [((s.m.job j).hbmBase + r.dispatchBase, r.areaBytes (gate.fmt.bits / 8))]) = none)
    (clean : ∀ q, q < rows * (r.kM1 + 1) →
      (buildRead s.fuse s.m j rows r idx gate).getPoison idx (pairIndex (r.kM1 + 1) q) = false ∧
        (buildRead s.fuse s.m j rows r idx gate).getPoison gate (pairIndex (r.kM1 + 1) q) = false)
    (lists : dispatchFrom r.span r.cap 0 ((List.range (rows * (r.kM1 + 1))).map (fun q =>
      if idx.inExtent (pairIndex (r.kM1 + 1) q) then
        signed 32 ((buildRead s.fuse s.m j rows r idx gate).codeAt idx (idx.elemOff (pairIndex (r.kM1 + 1) q))) else -1))
      { placed := [], routed := [], dropped := 0, firstFull := none } = some d) :
    Goes s (.dispatchBuild j k) (fun n => n = built s.fuse (buildRead s.fuse s.m j rows r idx gate) j k r d
      (d.area r.span (r.kM1 + 1) r.rows.plan (gate.fmt.bits / 8)
        (fun q => (buildRead s.fuse s.m j rows r idx gate).codeAt gate (gate.elemOff (pairIndex (r.kM1 + 1) q))))) := by
  refine goes_actOn rfl (decide_eq_true hj) powered ?_
  have sound : (List.range (rows * (r.kM1 + 1))).any (fun q =>
      (buildRead s.fuse s.m j rows r idx gate).getPoison idx (pairIndex (r.kM1 + 1) q) ||
        (buildRead s.fuse s.m j rows r idx gate).getPoison gate (pairIndex (r.kM1 + 1) q)) = false := by
    rw [List.any_eq_false]
    intro q hq
    obtain ⟨index, gate⟩ := clean q (List.mem_range.1 hq)
    simp [index, gate]
  simp only [program, Option.bind_some, router, live, active, nothing, first, target, shaped, index, gates, serves, decide_eq_true due,
    bne_self_eq_false, Bool.not_true, Option.isSome_none, List.contains_eq_mem, decide_false, Bool.or_self, Bool.false_eq_true, if_false,
    Nat.not_lt.2 planned, Nat.not_lt.2 fits]
  have whole : (((s.m.routerShapes j r).foldl (fun (m : Module) x => m.request s.fuse j x.1 x.2) s.m).routerReads s.fuse idx (r.kM1 + 1)
      rows).routerReads s.fuse gate (r.kM1 + 1) rows = buildRead s.fuse s.m j rows r idx gate := rfl
  simp only [Module.build, whole, sound, Bool.false_eq_true, if_false, lists]
  rfl

theorem goes_expertFetch_free {f : Fetch} {fs : List Fetch} {r e : Nat} (head : (s.m.job j).fetches = f :: fs)
    (unstarted : f.started = false) (serves : s.m.storeReads = true) (run : s.m.freeRun j x = some r)
    (entry : leastBy id (((s.m.entriesOf j).filter (fun r => r.2.state == 0)).map Prod.fst) = some e) :
    Goes s (.expertFetch j) (fun n =>
      n.residency = s.m.residency.map (fun y => if y.1 = e then (y.1, fetching s.m j f r) else y) ∧
      (n.job j).fetches = modifyAt (fun (f : Fetch) => { f with started := true }) (s.m.job j).fetches 0 ∧ OtherJobs j s.m n ∧
      KeepsBut [.residency, .jobs] s.m n) := by
  refine goes_actOn rfl (decide_eq_true hj) powered ?_
  have first : (s.m.job j).fetches.head? = some f := by rw [head]; rfl
  simp only [program, first, unstarted, serves, Bool.not_true, Bool.or_self, Bool.false_eq_true, if_false, run]
  exact beginFetch_leaves (inside_of_experts program) f r entry

theorem goes_expertFetch_evicts {f : Fetch} {fs : List Fetch} {v : Nat} (head : (s.m.job j).fetches = f :: fs)
    (unstarted : f.started = false) (serves : s.m.storeReads = true) (full : s.m.freeRun j x = none) (victim : s.m.victim j = some v) :
    let y := (s.m.onEntry v Residency.free).bump (odKey 0x4220 3) 1
    (y.freeRun j x = none → Goes s (.expertFetch j) (fun n => n = y)) ∧
      (∀ r e, y.freeRun j x = some r → leastBy id (((y.entriesOf j).filter (fun r => r.2.state == 0)).map Prod.fst) = some e →
        Goes s (.expertFetch j) (fun n =>
          n.residency = y.residency.map (fun z => if z.1 = e then (z.1, fetching s.m j f r) else z) ∧
          (n.job j).fetches = modifyAt (fun (f : Fetch) => { f with started := true }) (s.m.job j).fetches 0 ∧ OtherJobs j s.m n ∧
          KeepsBut [.residency, .jobs, .od] s.m n)) := by
  intro y
  have first : (s.m.job j).fetches.head? = some f := by rw [head]; rfl
  have evicted : KeepsBut [.residency, .od] s.m y := (kb_bump _ _ (by decide)).2 (fun part hpart => by
    cases part <;> simp_all [Part.same, Module.onEntry])
  refine ⟨fun still => goes_actOn rfl (decide_eq_true hj) powered ?_, fun r e run entry => goes_actOn rfl (decide_eq_true hj) powered ?_⟩
  · simp only [program, first, unstarted, serves, Bool.not_true, Bool.or_self, Bool.false_eq_true, if_false, full, victim]
    rw [show ((s.m.onEntry v Residency.free).bump (odKey 0x4220 3) 1).freeRun j x = none from still]
  · simp only [program, first, unstarted, serves, Bool.not_true, Bool.or_self, Bool.false_eq_true, if_false, full, victim]
    rw [show ((s.m.onEntry v Residency.free).bump (odKey 0x4220 3) 1).freeRun j x = some r from run]
    obtain ⟨entries, fetches, others, keeps⟩ := beginFetch_leaves (m := y) (inside_of_experts (m := y) program) f r entry
    exact ⟨entries, fetches, others, keeps_trans (keeps_mono evicted (by decide)) (keeps_mono keeps (by decide))⟩

theorem goes_expertPagePresent {expert page e : Nat} {r : Residency} {o : Obj}
    (fetched : (s.m.entriesOf j).find? (fun r => r.2.state == 1 && r.2.expert == expert) = some (e, r))
    (entry : s.m.residency.lookup e = some r) (next : r.present = 2 ^ page - 1) (more : page < x.pageCount)
    (serves : s.m.storeReads = true) (object : s.m.store.find 1 x.storeId = some o)
    (runs : s.m.stoppedIn [((s.m.job j).hbmBase + x.poolBase + extentBytes * (r.frame + page), extentBytes)] = none) :
    Goes s (.expertPagePresent j expert page []) (fun n =>
      let src := extentBytes * (x.pageCount * r.expert + page)
      let dst := (s.m.job j).hbmBase + x.poolBase + extentBytes * (r.frame + page)
      (∀ a, a < extentBytes → n.hbm.get (dst + a) = o.data.get (src + a)) ∧
      (∀ a, a < dst ∨ dst + extentBytes ≤ a → n.hbm.get a = s.m.hbm.get a) ∧
      n.residency.lookup e = some { r with
        present := r.present + 2 ^ page, poisoned := r.poisoned || o.pageBad (x.pageCount * expert + page),
        state := if page + 1 = x.pageCount then 2 else 1 } ∧
      (∀ k, k ≠ e → n.residency.lookup k = s.m.residency.lookup k) ∧ SameObjects s.m n ∧
      (s.m.store.servesFailed = false → n.store = s.m.store) ∧
      KeepsBut [.hbm, .hbmPoison, .residency, .jobs, .queues, .store, .od, .log, .report] s.m n) := by
  have fetches : r.state = 1 := by
    have := List.find?_some fetched
    simp only [Bool.and_eq_true, beq_iff_eq] at this
    exact this.1
  have read := keeps_dieReads s.fuse s.m o
  have same := sameObjects_dieReads s.fuse s.m o
  obtain ⟨place, found⟩ := find_sameObjects same object
  have base : ((s.m.dieReads s.fuse o).job j).hbmBase = (s.m.job j).hbmBase := by
    rw [Module.job, read .jobs (by decide), Module.job]
  obtain ⟨bytes, others⟩ := pageIn_reads (s.m.dieReads s.fuse o) j x { o with place := place } r page
  rw [base] at bytes others
  have paged := keeps_pageIn (s.m.dieReads s.fuse o) j x { o with place := place } r page
  refine goes_actOn rfl (decide_eq_true hj) powered ?_
  have goes : (r.present != 2 ^ page - 1 || decide (x.pageCount ≤ page) || !s.m.storeReads || (s.m.stoppedIn
      [((s.m.job j).hbmBase + x.poolBase + extentBytes * (r.frame + page), extentBytes)]).isSome) = false := by
    simp [next, more, serves, runs]
  simp only [program, fetched, goes, Bool.false_eq_true, if_false, Module.pageReads, List.foldl_nil, object, Option.map_some,
    Option.getD_some, found]
  obtain ⟨entries, done⟩ := pageDone_leaves s.fuse ((s.m.dieReads s.fuse o).pageIn j x { o with place := place } r page) j e expert page
    x.pageCount { r with present := r.present + 2 ^ page, poisoned := r.poisoned || o.pageBad (x.pageCount * expert + page) }
    (o.pageBad (x.pageCount * expert + page))
  have hbm := done .hbm (by decide)
  have store := (done .store (by decide)).trans (paged .store (by decide))
  have residency := (paged .residency (by decide)).trans (read .residency (by decide))
  rw [residency] at entries
  refine ⟨fun a below => ?_, fun a outside => ?_, ?_, fun k other => ?_, sameObjects_trans same (same_objs (congrArg Coil.objs store)),
    fun sound => ?_, keeps_trans (keeps_mono read (by decide)) (keeps_trans (keeps_mono paged (by decide)) (keeps_mono done (by decide)))⟩
  · exact (congrArg (fun h : Mem => h.get _) hbm).trans (bytes a below)
  · exact (congrArg (fun h : Mem => h.get a) hbm).trans ((others a outside).trans (by rw [read .hbm (by decide)]))
  · refine (congrArg (List.lookup e) entries).trans ?_
    rw [lookup_onEntry s.m.residency e e (fun _ => _), entry]
    simp [fetches]
  · refine (congrArg (List.lookup k) entries).trans ?_
    rw [lookup_onEntry s.m.residency e k (fun _ => _)]
    simp [other]
  · exact store.trans (by rw [dieReads_of_no_failure s.fuse o sound])

end

/-- Settles O46: a build reads, then stores its pieces, tells of dropped pairs and asks expert by expert; a fetch sets its entry; a page
is copied from the object, which reads of the store move only. -/
theorem expertsComeAndGo : Obligations.ExpertsComeAndGo := by
  intro s j x hj powered program fetchingIn started
  refine ⟨fun k r t rows idx gate d router live active nothing first target due planned shaped fits index gates serves clean lists => ?_,
    fun f fs head unstarted serves => ⟨fun r e run entry => goes_expertFetch_free hj powered program head unstarted serves run entry,
      fun v full victim => goes_expertFetch_evicts hj powered program head unstarted serves full victim⟩,
    fun expert page e r o fetched entry next more serves object runs =>
      goes_expertPagePresent hj powered program fetched entry next more serves object runs⟩
  have read := keeps_buildRead s.fuse s.m j rows r idx gate
  have jobs : (buildRead s.fuse s.m j rows r idx gate).jobs = s.m.jobs := read .jobs (by decide)
  have same : ∀ i, (buildRead s.fuse s.m j rows r idx gate).job i = s.m.job i := fun i => by rw [Module.job, jobs, Module.job]
  obtain ⟨u, runs, fuses, queue, leaves⟩ := goes_dispatchBuild hj powered program router live active nothing first target due planned
    shaped fits index gates serves clean lists
  obtain ⟨area, run, asked, others, keeps⟩ := built_leaves s.fuse (y := buildRead s.fuse s.m j rows r idx gate) (j := j)
    (by rw [jobs]; exact inside_of_experts program) k r d (d.area r.span (r.kM1 + 1) r.rows.plan (gate.fmt.bits / 8)
      (fun q => (buildRead s.fuse s.m j rows r idx gate).codeAt gate (gate.elemOff (pairIndex (r.kM1 + 1) q))))
  rw [same] at area run
  rw [← leaves] at area run asked others keeps
  refine ⟨u, runs, fuses, queue, area, run, fun e below routed => ?_, fun i other => (others i other).trans (same i), keeps⟩
  rw [← residentOf_congr (read .residency (by decide))]
  exact asked e below routed

end Sys2Proof.Proofs
end

section
/-!
PROOFS. The hawser ports (R296, R313, R314, R317, R528): replays, keepalives, lost ports and ports that come up.
-/
namespace Sys2Proof.Proofs

open Sys2Proof.Machine Sys2Proof.Laws

/-! ### The states of the ports -/

/-- The states of the ports, which no frame that is sent changes. -/
def portStates (m : Module) : List Nat := m.hawsers.map Hawser.state

/-- A port's view, from the views of them all. -/
theorem view_hawser {β : Type} {view : Hawser → β} {m n : Module} (same : n.hawsers.map view = m.hawsers.map view) (i : Nat) :
    view (n.hawser i) = view (m.hawser i) := by
  have read : ∀ l : List Hawser, view (l.getD i Hawser.reset) = (l.map view).getD i (view Hawser.reset) := fun l =>
    (List.getD_map l Hawser.reset view).symm
  rw [Module.hawser, Module.hawser, read, read, same]

theorem hawser_state {m n : Module} (same : portStates n = portStates m) (i : Nat) : (n.hawser i).state = (m.hawser i).state :=
  view_hawser (view := Hawser.state) same i

theorem portStates_of_keeps {ps : List Part} {m n : Module} (keeps : KeepsBut ps m n) (still : Part.hawsers ∉ ps) :
    portStates n = portStates m := congrArg (List.map Hawser.state) (keeps .hawsers still)

theorem portStates_onHawser {f : Hawser → Hawser} (hidden : ∀ h, (f h).state = h.state) (m : Module) (n : Nat) :
    portStates (m.onHawser n f) = portStates m := map_modifyAt hidden _ _

theorem portStates_foldl {α : Type} (f : Module → α → Module) (each : ∀ m a, portStates (f m a) = portStates m) (l : List α)
    (m : Module) : portStates (l.foldl f m) = portStates m := foldl_keep portStates l f each m

theorem drain_state (n : Nat) (h : Hawser) : (Hawser.drain n h).state = h.state := by
  induction n generalizing h with
  | zero => rfl
  | succ n ih =>
    rw [Hawser.drain]
    split
    · rfl
    split
    · rfl
    · exact ih _

theorem send_state (h : Hawser) (f : Frame) : (h.send f).state = h.state := drain_state _ _

theorem portStates_sendBond (m : Module) (b : Nat) (f : Frame) : portStates (m.sendBond b f) = portStates m := by
  unfold Module.sendBond
  split
  · rfl
  · exact portStates_onHawser (fun h => send_state h f) m _

theorem portStates_sendOthers (m : Module) (b : Nat) (f : Frame) : portStates (m.sendOthers b f) = portStates m :=
  portStates_foldl _ (fun m b => portStates_sendBond m b f) _ m

theorem portStates_forwardDown (m : Module) (f : Frame) : portStates (m.forwardDown f) = portStates m :=
  portStates_foldl _ (fun m b => portStates_sendBond m b f) _ m

theorem portStates_setRopeState (fu : Fuses) (m : Module) (v : Nat) : portStates (m.setRopeState fu v) = portStates m :=
  portStates_of_keeps (keeps_setRopeState fu m v) (by decide)

theorem portStates_event (fu : Fuses) (m : Module) (c : Nat) (l : List Nat) : portStates (m.event fu c l) = portStates m :=
  portStates_of_keeps (keeps_still (still_event fu m c l)) (by decide)

theorem portStates_idleBondLost (fu : Fuses) (m : Module) (b : Nat) : portStates (m.idleBondLost fu b) = portStates m := by
  unfold Module.idleBondLost
  dsimp only
  split
  · rfl
  split
  · exact portStates_event fu _ _ _
  · rw [portStates_setRopeState]
    exact (portStates_sendOthers _ b _).trans (portStates_event fu (m.onBond b fun x => { x with state := 4 }) _ _)

theorem portStates_judgeIdle (fu : Fuses) (m : Module) (j : Nat) : portStates (m.judgeIdle fu j) = portStates m := by
  unfold Module.judgeIdle
  split
  · rfl
  · refine portStates_foldl _ (fun m b => ?_) _ m
    split
    · exact portStates_idleBondLost fu m b
    · rfl

theorem portStates_startSnapshot (fu : Fuses) (m : Module) (j interval : Nat) :
    portStates (m.startSnapshot fu j interval) = portStates m := by
  unfold Module.startSnapshot
  dsimp only
  split
  · rfl
  generalize hR : m.hbmReads fu j _ = R
  have read : portStates R = portStates m := hR ▸ portStates_of_keeps (keeps_hbmReads fu m j _) (by decide)
  rw [← read]
  split
  · exact portStates_event fu R _ _
  split
  · exact portStates_event fu R _ _
  split
  · rfl
  split
  · exact portStates_sendOthers _ 3 _
  · exact (portStates_foldl _ (fun m f => portStates_sendBond m 1 f) _ _).trans (portStates_sendOthers _ 3 _)

/-- A commit without its captures, its snapshot and the judging of the bonds touches no port. -/
theorem keeps_commitsAlone (fu : Fuses) (m : Module) (j us : Nat) :
    KeepsBut [.cores, .jobs, .queues, .od, .log, .report] m (commitsAlone fu m j us) := by
  unfold commitsAlone
  dsimp only
  generalize hE : (if m.inRope j = true then m else m.ownExponents fu j) = E
  have decided : KeepsBut [.jobs, .od, .log, .report] m E :=
    hE ▸ keeps_ite (keeps_refl _ m) (decides_ownExponents fu m j).keeps
  generalize hG : Module.bump _ (odKey 0x3230 3) us = G
  have stepped : KeepsBut [.jobs, .od, .log, .report] E G := by
    rw [← hG, kb_bump _ _ (by decide), kb_bump _ _ (by decide), kb_onJob _ _ (by decide)]
    exact keeps_commitDescs fu E j
  generalize hF : (if (G.job j).run.accept = true then _ else G) = F
  have accepted : KeepsBut [.od] G F := hF ▸ keeps_ite (keeps_odSet G _ _) (keeps_refl _ G)
  rw [kb_onJob _ _ (by decide)]
  refine keeps_trans (keeps_mono decided (by decide)) (keeps_trans (keeps_mono stepped (by decide))
    (keeps_trans (keeps_mono accepted (by decide)) (keeps_trans (keeps_mono (keeps_answerSteps F j stOk) (by decide)) ?_)))
  exact kb_foldl _ _ (fun m g => keeps_mono (keeps_onCore m g _) (by decide)) _

theorem portStates_commitStep (fu : Fuses) (m : Module) (j us : Nat) : portStates (m.commitStep fu j us) = portStates m := by
  rw [commitStep_eq, portStates_judgeIdle, portStates_startSnapshot, portStates_of_keeps (keeps_captureAll fu _ j) (by decide)]
  exact portStates_of_keeps (keeps_commitsAlone fu m j us) (by decide)

theorem portStates_abandonStep (fu : Fuses) (m : Module) (j st : Nat) : portStates (m.abandonStep fu j st) = portStates m := by
  unfold Module.abandonStep
  dsimp only
  split
  · rfl
  rw [portStates_judgeIdle, portStates_of_keeps (keeps_captureAll fu _ j) (by decide)]
  refine portStates_of_keeps (ps := [.cores, .od, .log, .report, .queues, .jobs]) ?_ (by decide)
  rw [kb_bump _ _ (by decide), kb_onJob _ _ (by decide), kb_answerSteps _ _ (by decide)]
  exact keeps_trans (keeps_mono (keeps_endFlights fu m j stCancelled) (by decide))
    (kb_foldl _ _ (fun m g => keeps_mono (keeps_onCore m g _) (by decide)) _)

theorem portStates_breakRope (fu : Fuses) (m : Module) (b code : Nat) : portStates (m.breakRope fu b code) = portStates m := by
  unfold Module.breakRope
  dsimp only
  generalize hC : (if (m.canCommitStep m.ropeJob && (m.acceptFails m.ropeJob).isNone) = true then _ else m) = C
  have commits : portStates C = portStates m := by
    rw [← hC]
    split
    · exact portStates_commitStep fu m _ 0
    · rfl
  rw [portStates_setRopeState, portStates_abandonStep, ← commits]
  exact portStates_sendOthers _ b _

theorem portStates_bondLost (fu : Fuses) (m : Module) (b : Nat) : portStates (m.bondLost fu b) = portStates m := by
  unfold Module.bondLost
  dsimp only
  split
  · rfl
  split
  · exact portStates_event fu _ _ _
  · rw [portStates_breakRope]
    exact portStates_event fu (m.onBond b fun x => { x with state := 4 }) _ _

/-- A needed bond that is lost leaves the rope BROKEN (R315). -/
theorem ropeState_bondLost (fu : Fuses) {m : Module} {b : Nat} (rope : m.inRope m.ropeJob = true)
    (needed : bondNeeded m.rank m.ropeSize b = true) : (m.bondLost fu b).ropeState = 4 := by
  have inside : (!(m.onBond b (fun x => { x with state := 4 })).inRope (m.onBond b (fun x => { x with state := 4 })).ropeJob ||
      !bondNeeded (m.onBond b (fun x => { x with state := 4 })).rank (m.onBond b (fun x => { x with state := 4 })).ropeSize b) = false := by
    have same : (m.onBond b (fun x => { x with state := 4 })).inRope (m.onBond b (fun x => { x with state := 4 })).ropeJob = true := rope
    have still : bondNeeded (m.onBond b (fun x => { x with state := 4 })).rank (m.onBond b (fun x => { x with state := 4 })).ropeSize b = true :=
      needed
    rw [same, still]
    rfl
  unfold Module.bondLost
  simp only [inside, Bool.false_eq_true, if_false]
  split
  · assumption
  · exact ropeState_setRopeState fu _ 4

/-! ### Replays and keepalives (R296) -/

theorem hawsers_freeSlots (m : Module) (j : Nat) : KeepsBut [.jobs] m (m.freeSlots j) := by
  unfold Module.freeSlots
  exact kb_foldl _ _ (fun n k => keeps_ite (keeps_onBucket n j k _) (keeps_refl _ n)) m

theorem resend_idle {h : Hawser} (empty : h.queue = []) (q : Nat) :
    let left := h.unacked.filter (fun u => decide (2 ^ 31 ≤ ((q + 2 ^ 32 - 1) % 2 ^ 32 + 2 ^ 32 - u.1) % 2 ^ 32))
    h.resend q = { h with unacked := left, sentFrames := h.sentFrames ++ left.map Prod.snd } := by
  simp only [Hawser.resend, Hawser.acked, empty, List.length_nil, Hawser.drain]

section
variable {s : State} {n : Nat} (hn : n < 16) (inside : n < s.m.hawsers.length) (powered : s.m.powered = true)
include hn inside powered

theorem goes_frameCrcFailure (up : (s.m.hawser n).up = true) : Goes s (.frameCrcFailure ⟨n, none⟩) (fun k =>
    k.hawser n = { s.m.hawser n with replayAsked := true, requests := (s.m.hawser n).requests ++ [(s.m.hawser n).rxSeq] } ∧
    k.odGet (odKey 0x5210 3) = (s.m.odGet (odKey 0x5210 3) + 1) % 2 ^ 64 ∧ KeepsBut [.hawsers, .od] s.m k) := by
  refine goes_actOn rfl (decide_eq_true hn) powered ?_
  simp only [Module.askReplay, up, Bool.not_true, Bool.false_eq_true, if_false]
  refine ⟨?_, (odGet_bump _ _ _ _).trans (if_pos rfl), by simp [keeps_refl]⟩
  exact hawser_onHawser_self s.m n (fun h => { h with replayAsked := true, requests := h.requests ++ [h.rxSeq] }) inside

theorem goes_replayAsked (up : (s.m.hawser n).up = true) (seq : Nat) (empty : (s.m.hawser n).queue = []) :
    Goes s (.frameCrcFailure ⟨n, some seq⟩) (fun k =>
      let left := (s.m.hawser n).unacked.filter (fun u => decide (2 ^ 31 ≤ ((seq + 2 ^ 32 - 1) % 2 ^ 32 + 2 ^ 32 - u.1) % 2 ^ 32))
      (k.hawser n).sentFrames = (s.m.hawser n).sentFrames ++ left.map Prod.snd ∧ (k.hawser n).unacked = left ∧
      k.odGet (odKey 0x5210 3) = (s.m.odGet (odKey 0x5210 3) + 1) % 2 ^ 64 ∧ KeepsBut [.hawsers, .jobs, .od] s.m k) := by
  have freed := hawsers_freeSlots ((s.m.onHawser n (fun h => h.resend seq)).bump (odKey 0x5210 3) 1)
    s.m.ropeJob
  have resent := hawser_onHawser_self s.m n (fun h => h.resend seq) inside
  rw [resend_idle empty] at resent
  refine goes_actOn rfl (decide_eq_true hn) powered ?_
  simp only [Module.answerReplay, up, Bool.not_true, Bool.false_eq_true, if_false]
  rw [Module.hawser, freed .hawsers (by decide), bump_hawsers, ← Module.hawser, resent]
  refine ⟨rfl, rfl, ?_, keeps_trans ?_ (keeps_mono freed (by decide))⟩
  · rw [odGet_congr (freed .od (by decide)), odGet_bump, if_pos rfl]
    rfl
  · simp [keeps_refl]

theorem goes_keepalive (up : (s.m.hawser n).up = true) (empty : (s.m.hawser n).queue = []) :
    Goes s (.keepalive n) (fun k => k.hawser n = (s.m.hawser n).send (s.m.frameBase 1) ∧ KeepsBut [.hawsers] s.m k) := by
  refine goes_actOn rfl (decide_eq_true hn) powered ?_
  simp only [up, empty, List.isEmpty_nil, Bool.and_self, if_true]
  exact ⟨hawser_onHawser_self s.m n (fun h => h.send (s.m.frameBase 1)) inside, keeps_onHawser _ _ _⟩

end

/-! ### Lost ports (R313, R314) -/

/-- The module in which a port is down with nothing queued, and counted. -/
def portDown (m : Module) (n : Nat) : Module :=
  (m.onHawser n (fun h => { h with state := 3, unacked := [], queue := [], replayAsked := false })).bump (odKey 0x5210 4) 1

/-- The module in which, if a spare was lost, no port has it any more. -/
def spareFreed (m : Module) (b : Nat) (spare : Bool) : Module :=
  if spare then { m with hawsers := m.hawsers.zipIdx.map (fun h => if h.2 % 4 = b then { h.1 with spareUsed := false } else h.1) } else m

theorem keeps_spareFreed (m : Module) (b : Nat) (spare : Bool) : KeepsBut [.hawsers] m (spareFreed m b spare) := by
  unfold spareFreed
  intro part hpart
  split <;> cases part <;> simp_all [Part.same]

theorem spareFreed_view {β : Type} {view : Hawser → β} (hidden : ∀ h v, view { h with spareUsed := v } = view h) (m : Module) (b : Nat)
    (spare : Bool) : (spareFreed m b spare).hawsers.map view = m.hawsers.map view := by
  unfold spareFreed
  split
  · have each : ∀ h : Hawser × Nat, view (if h.2 % 4 = b then { h.1 with spareUsed := false } else h.1) = view h.1 := fun h => by
      split
      · exact hidden _ _
      · rfl
    dsimp only
    rw [List.map_map]
    refine (List.map_congr_left fun h _ => each h).trans ?_
    exact (List.map_map (g := view) (f := Prod.fst) (l := m.hawsers.zipIdx)).symm.trans
      (congrArg (List.map view) (List.zipIdx_map_fst 0 m.hawsers))
  · rfl

/-- The module once port `n` is down. -/
def portGone (m : Module) (n : Nat) : Module := spareFreed (portDown m n) (bondOf n) ((m.hawser n).state == 4)

theorem keeps_portGone (m : Module) (n : Nat) : KeepsBut [.hawsers, .od] m (portGone m n) :=
  keeps_trans (b := portDown m n) (by simp [portDown, keeps_refl]) (keeps_mono (keeps_spareFreed _ _ _) (by decide))

/-- The port is down with nothing queued. -/
theorem portGone_hawser {m : Module} {n : Nat} (inside : n < m.hawsers.length) :
    ((portGone m n).hawser n).state = 3 ∧ ((portGone m n).hawser n).queue = [] ∧ ((portGone m n).hawser n).unacked = [] := by
  have viewed := spareFreed_view (view := fun h => (h.state, h.queue, h.unacked)) (fun _ _ => rfl) (portDown m n) (bondOf n)
    ((m.hawser n).state == 4)
  have down := hawser_onHawser_self m n (fun h => { h with state := 3, unacked := [], queue := [], replayAsked := false }) inside
  have same : (fun h : Hawser => (h.state, h.queue, h.unacked)) ((portGone m n).hawser n) = (3, [], []) := by
    refine (view_hawser viewed n).trans ?_
    exact congrArg (fun h : Hawser => (h.state, h.queue, h.unacked)) down
  simp only [Prod.mk.injEq] at same
  exact same

theorem portGone_odGet (m : Module) (n : Nat) {k : Nat} (other : k ≠ odKey 0x5210 4) : (portGone m n).odGet k = m.odGet k := by
  refine (odGet_congr (keeps_spareFreed (portDown m n) (bondOf n) ((m.hawser n).state == 4) .od (by decide)) k).trans ?_
  exact (odGet_bump _ _ _ _).trans (if_neg other)

theorem portGone_place (m : Module) (n : Nat) : (portGone m n).rank = m.rank ∧ (portGone m n).ropeSize = m.ropeSize ∧
    (portGone m n).ropeJob = m.ropeJob ∧ (portGone m n).ropeState = m.ropeState :=
  ⟨portGone_odGet m n (by decide), portGone_odGet m n (by decide), portGone_odGet m n (by decide), portGone_odGet m n (by decide)⟩

theorem portGone_minPorts (m : Module) (n : Nat) : (portGone m n).minPorts = m.minPorts := by
  obtain ⟨-, size, job, -⟩ := portGone_place m n
  have jobs : (portGone m n).jobs = m.jobs := keeps_portGone m n .jobs (by decide)
  have least : (portGone m n).odGet (odKey 0x5200 7) = m.odGet (odKey 0x5200 7) := portGone_odGet m n (by decide)
  rw [Module.minPorts, Module.inRope, Module.job, size, job, jobs, least]
  rfl

/-- The live ports of a bond are those of the ports' states and the rank. -/
theorem bondLive_congr {m n : Module} (states : portStates n = portStates m) (rank : n.rank = m.rank) (b : Nat) :
    n.bondLive b = m.bondLive b := by
  simp only [Module.bondLive, hawser_state states, rank]

theorem portGone_states (m : Module) (n : Nat) :
    portStates (portGone m n) = portStates (m.onHawser n (fun h => { h with state := 3, unacked := [], queue := [] })) := by
  have alike : ∀ (l : List Hawser) (i : Nat),
      (modifyAt (fun h : Hawser => { h with state := 3, unacked := [], queue := [], replayAsked := false }) l i).map Hawser.state =
        (modifyAt (fun h : Hawser => { h with state := 3, unacked := [], queue := [] }) l i).map Hawser.state := by
    intro l
    induction l with
    | nil => exact fun _ => rfl
    | cons h l ih =>
      rintro (_ | i)
      · rfl
      · exact congrArg (h.state :: ·) (ih i)
  exact (spareFreed_view (view := Hawser.state) (fun _ _ => rfl) _ _ _).trans (alike _ _)

theorem portGone_live (m : Module) (n b : Nat) :
    (portGone m n).bondLive b = (m.onHawser n (fun h => { h with state := 3, unacked := [], queue := [] })).bondLive b :=
  bondLive_congr (portGone_states m n) (portGone_place m n).1 b

/-- Whether a port serves a bond that its rank's place needs. -/
def servesBond (m : Module) (n : Nat) : Bool :=
  bondNeeded m.rank m.ropeSize (bondOf n) && ((m.hawser n).state == 4 || (decide (n % 4 < 3) && n % 4 == bondOf n))

/-- The event and the reason of a bond that has lost a port. -/
def bondAlert (fu : Fuses) (m : Module) (n : Nat) : Module :=
  (m.event fu 0x0540 [n, bondOf n, (m.bondLive (bondOf n)).length]).reason fu 3 [bondOf n, (m.bondLive (bondOf n)).length]

/-- The spare in the place of port `n`. -/
def spareIn (fu : Fuses) (m : Module) (n sp : Nat) : Module :=
  (((m.onHawser sp (fun h => { h with state := 4 })).onHawser n (fun h => { h with spareUsed := true })).bump (odKey 0x5210 5) 1).event fu
    0x0541 [n, sp]

theorem hawsers_spareIn (fu : Fuses) (m : Module) (n sp : Nat) : (spareIn fu m n sp).hawsers =
    ((m.onHawser sp (fun h => { h with state := 4 })).onHawser n (fun h => { h with spareUsed := true })).hawsers := by
  rw [spareIn, event_hawsers, bump_hawsers]

/-- The spare that is taken changes the state of no other port. -/
theorem spareIn_own (fu : Fuses) {m : Module} {n sp : Nat} (away : n ≠ sp) :
    ((spareIn fu m n sp).hawser n).state = (m.hawser n).state := by
  have flagged := portStates_onHawser (f := fun h => { h with spareUsed := true }) (fun _ => rfl)
    (m.onHawser sp (fun h => { h with state := 4 })) n
  rw [← hawser_onHawser_other m sp n (fun h => { h with state := 4 }) away, ← hawser_state flagged n, Module.hawser, hawsers_spareIn]
  rfl

/-- What the loss of an up port comes to. -/
theorem losePort_eq (fu : Fuses) {m : Module} {n : Nat} (up : (m.hawser n).up = true) : m.losePort fu n =
    if servesBond m n = false then portGone m n
    else if ((portGone m n).bondLive (bondOf n)).length < (portGone m n).minPorts then (bondAlert fu (portGone m n) n).bondLost fu (bondOf n)
    else if (m.hawser n).state ≠ 4 ∧ ((portGone m n).hawser (bondSpare m.rank (bondOf n))).state = 2 then
      (m.hawser n).leftOver.foldl (fun (m' : Module) f => m'.onHawser (bondSpare m.rank (bondOf n)) (fun h => h.send f))
        (spareIn fu (portGone m n) n (bondSpare m.rank (bondOf n)))
    else (m.hawser n).leftOver.foldl (fun (m : Module) f => m.sendBond (bondOf n) f) (bondAlert fu (portGone m n) n) := by
  have spares : ∀ a b : Nat, (!(a == 4) && b == 2) = true ↔ a ≠ 4 ∧ b = 2 := fun a b => by simp
  unfold Module.losePort
  simp only [up, Bool.not_true, Bool.false_eq_true, if_false, servesBond, Bool.not_eq_true']
  exact if_congr Iff.rfl rfl (if_congr Iff.rfl rfl (if_congr (spares _ _) rfl rfl))

theorem portStates_bondAlert (fu : Fuses) (m : Module) (n : Nat) : portStates (bondAlert fu m n) = portStates m :=
  portStates_of_keeps (ps := [.od, .log, .report]) (by simp [bondAlert, keeps_refl]) (by decide)

theorem bondAlert_odGet (fu : Fuses) (m : Module) (n : Nat) {k : Nat} (hk : k ∉ readKeys) : (bondAlert fu m n).odGet k = m.odGet k :=
  (odGet_reason fu _ hk 3 _).trans (odGet_event_readKeys fu m hk _ _)

/-- A port that was up and is lost is down. -/
theorem losePort_state (fu : Fuses) {m : Module} {n : Nat} (inside : n < m.hawsers.length) (up : (m.hawser n).up = true) :
    ((m.losePort fu n).hawser n).state = 3 := by
  have gone := (portGone_hawser inside).1
  have down : ∀ {x : Module}, portStates x = portStates (portGone m n) → (x.hawser n).state = 3 := fun same =>
    (hawser_state same n).trans gone
  rw [losePort_eq fu up]
  split
  · exact gone
  split
  · exact down ((portStates_bondLost fu _ _).trans (portStates_bondAlert fu _ n))
  split
  · next free =>
    have away : n ≠ bondSpare m.rank (bondOf n) := fun same => by
      have two := free.2
      rw [← same, gone] at two
      omega
    have sent := portStates_foldl (fun (m' : Module) f => m'.onHawser (bondSpare m.rank (bondOf n)) (fun h => h.send f))
      (fun m' f => portStates_onHawser (fun h => send_state h f) m' _) (m.hawser n).leftOver
      (spareIn fu (portGone m n) n (bondSpare m.rank (bondOf n)))
    rw [hawser_state sent, spareIn_own fu away]
    exact gone
  · exact down ((portStates_foldl _ (fun m f => portStates_sendBond m _ f) _ _).trans (portStates_bondAlert fu _ n))

theorem portGone_length (m : Module) (n : Nat) : (portGone m n).hawsers.length = m.hawsers.length := by
  have length := congrArg List.length (portGone_states m n)
  simpa [portStates] using length

theorem portGone_inRope (m : Module) (n : Nat) : (portGone m n).inRope (portGone m n).ropeJob = m.inRope m.ropeJob := by
  obtain ⟨-, size, job, -⟩ := portGone_place m n
  rw [Module.inRope, Module.inRope, size, job]

/-- A port that serves no bond. -/
theorem losePort_unserving (fu : Fuses) {m : Module} {n : Nat} (up : (m.hawser n).up = true) (unserving : servesBond m n = false) :
    m.losePort fu n = portGone m n := (losePort_eq fu up).trans (if_pos unserving)

/-- A free spare takes the place of a port. -/
theorem losePort_spare (fu : Fuses) {m : Module} {n : Nat} (inside : n < m.hawsers.length) (up : (m.hawser n).up = true)
    (serving : servesBond m n = true) (own : (m.hawser n).state ≠ 4) (free : (m.hawser (bondSpare m.rank (bondOf n))).state = 2)
    (other : bondSpare m.rank (bondOf n) ≠ n) (there : bondSpare m.rank (bondOf n) < m.hawsers.length)
    (enough : m.minPorts ≤ ((m.onHawser n (fun h => { h with state := 3, unacked := [], queue := [] })).bondLive (bondOf n)).length) :
    ((m.losePort fu n).hawser (bondSpare m.rank (bondOf n))).state = 4 ∧ ((m.losePort fu n).hawser n).spareUsed = true ∧
      KeepsBut [.hawsers, .od, .log, .report] m (m.losePort fu n) := by
  have goneInside : n < (portGone m n).hawsers.length := by rw [portGone_length]; exact inside
  have goneThere : bondSpare m.rank (bondOf n) < (portGone m n).hawsers.length := by rw [portGone_length]; exact there
  have waiting : ((portGone m n).hawser (bondSpare m.rank (bondOf n))).state = 2 := by
    rw [hawser_state (portGone_states m n), hawser_onHawser_other _ _ _ _ other]
    exact free
  have lives : ¬((portGone m n).bondLive (bondOf n)).length < (portGone m n).minPorts := by
    rw [portGone_live, portGone_minPorts]
    omega
  rw [losePort_eq fu up, if_neg (by rw [serving]; decide), if_neg lives, if_pos ⟨own, waiting⟩]
  generalize bondSpare m.rank (bondOf n) = sp at *
  have keeps : KeepsBut [.hawsers, .od, .log, .report] (portGone m n) (spareIn fu (portGone m n) n sp) := by simp [spareIn, keeps_refl]
  refine ⟨?_, ?_, keeps_trans (keeps_mono (keeps_portGone m n) (by decide)) (keeps_trans keeps
    (kb_foldl _ _ (fun x f => keeps_mono (keeps_onHawser x sp _) (by decide)) _))⟩
  · rw [hawser_state (portStates_foldl _ (fun x f => portStates_onHawser (fun h => send_state h f) x sp) _ _), Module.hawser,
      hawsers_spareIn, ← Module.hawser, hawser_onHawser_other _ _ _ _ other,
      hawser_onHawser_self _ sp (fun h => { h with state := 4 }) goneThere]
  · refine List.foldlRecOn (motive := fun x : Module => (x.hawser n).spareUsed = true) _ _ ?_ (fun x used f _ => ?_)
    · rw [Module.hawser, hawsers_spareIn, ← Module.hawser,
        hawser_onHawser_self _ n (fun h => { h with spareUsed := true }) (by rw [onHawser_length]; exact goneInside)]
    · rw [hawser_onHawser_other _ _ _ _ other.symm]
      exact used

/-- A needed bond left below its minimum breaks the rope. -/
theorem losePort_breaks (fu : Fuses) {m : Module} {n : Nat} (up : (m.hawser n).up = true) (serving : servesBond m n = true)
    (rope : m.inRope m.ropeJob = true)
    (few : ((m.onHawser n (fun h => { h with state := 3, unacked := [], queue := [] })).bondLive (bondOf n)).length < m.minPorts) :
    (m.losePort fu n).ropeState = 4 := by
  rw [losePort_eq fu up, if_neg (by rw [serving]; decide), if_pos (by rw [portGone_live, portGone_minPorts]; exact few)]
  obtain ⟨rank, size, -, -⟩ := portGone_place m n
  have alert := fun {k : Nat} (hk : k ∉ readKeys) => bondAlert_odGet fu (portGone m n) n hk
  refine ropeState_bondLost fu ?_ ?_
  · rw [← portGone_inRope m n] at rope
    rw [Module.inRope, Module.ropeSize, Module.ropeJob, alert (by decide), alert (by decide)]
    exact rope
  · simp only [servesBond, Bool.and_eq_true] at serving
    have rankAfter : (bondAlert fu (portGone m n) n).rank = m.rank := (alert (by decide)).trans rank
    have sizeAfter : (bondAlert fu (portGone m n) n).ropeSize = m.ropeSize := (alert (by decide)).trans size
    rw [rankAfter, sizeAfter]
    exact serving.1

/-! ### Ports that come up (R317) -/

theorem keeps_putJoin (m : Module) (b : Nat) : KeepsBut [.rope, .hawsers] m (m.putJoin b) := by
  unfold Module.putJoin
  exact keeps_ite (keeps_refl _ _) (by simp [keeps_refl])

theorem portStates_putJoin (m : Module) (b : Nat) : portStates (m.putJoin b) = portStates m := by
  unfold Module.putJoin
  split
  · rfl
  · exact portStates_sendBond _ b _

theorem keeps_sendJoin (m : Module) (b : Nat) : KeepsBut [.rope, .hawsers] m (m.sendJoin b) := by
  unfold Module.sendJoin
  exact keeps_ite (keeps_refl _ _) (keeps_putJoin m b)

theorem portStates_sendJoin (m : Module) (b : Nat) : portStates (m.sendJoin b) = portStates m := by
  unfold Module.sendJoin
  split
  · rfl
  · exact portStates_putJoin m b

/-- What settling a rope may write. -/
def settling : List Part := .rope :: .hawsers :: hbmReading

theorem keeps_startResync (fu : Fuses) (m : Module) : KeepsBut settling m (m.startResync fu) :=
  keeps_trans (keeps_mono (keeps_hbmReads fu m _ _) (by decide))
    (kb_foldl _ _ (fun m f => keeps_mono (keeps_forward m f) (by decide)) _)

theorem portStates_startResync (fu : Fuses) (m : Module) : portStates (m.startResync fu) = portStates m :=
  (portStates_foldl _ (fun m f => portStates_forwardDown m f) _ _).trans (portStates_of_keeps (keeps_hbmReads fu m _ _) (by decide))

/-- A rope that does not leave JOINING, becomes READY, or starts a resync. -/
theorem settleRope_cases (fu : Fuses) (m : Module) : m.settleRope fu = m ∨ m.settleRope fu = m.setRopeState fu 2 ∨
    m.settleRope fu = (m.onRope (fun r => { r with deeper := false })).setRopeState fu 3 ∨
    m.settleRope fu = ((m.onRope (fun r => { r with deeper := false })).setRopeState fu 3).startResync fu := by
  unfold Module.settleRope
  dsimp only
  split
  · exact .inl rfl
  split
  · exact .inr (.inl rfl)
  split
  · exact .inr (.inr (.inr rfl))
  · exact .inr (.inr (.inl rfl))

theorem keeps_settleRope (fu : Fuses) (m : Module) : KeepsBut settling m (m.settleRope fu) := by
  have begun : KeepsBut settling m ((m.onRope (fun r => { r with deeper := false })).setRopeState fu 3) := by simp [settling, hbmReading, keeps_refl]
  rcases settleRope_cases fu m with same | ready | resync | sends
  · rw [same]; exact keeps_refl _ _
  · rw [ready]; exact keeps_mono (keeps_setRopeState fu m 2) (by decide)
  · rw [resync]; exact begun
  · rw [sends]; exact keeps_trans begun (keeps_startResync fu _)

theorem portStates_settleRope (fu : Fuses) (m : Module) : portStates (m.settleRope fu) = portStates m := by
  have begun : portStates ((m.onRope (fun r => { r with deeper := false })).setRopeState fu 3) = portStates m := portStates_setRopeState fu _ 3
  rcases settleRope_cases fu m with same | ready | resync | sends
  · rw [same]
  · rw [ready, portStates_setRopeState]
  · rw [resync, begun]
  · rw [sends, portStates_startResync, begun]

/-- The module in which a lit port has trained. -/
def trained (m : Module) (n : Nat) : Module := (m.onHawser n (fun _ => { Hawser.reset with state := 2 })).latchAll (portCalib n)

theorem keeps_trained (m : Module) (n : Nat) : KeepsBut [.hawsers, .calib] m (trained m n) :=
  keeps_trans (keeps_mono (keeps_onHawser m n _) (by decide)) (keeps_mono (keeps_latchAll _ _) (by decide))

section
variable {s : State} {n : Nat} (hn : n < 16) (inside : n < s.m.hawsers.length) (powered : s.m.powered = true)
include hn inside powered

omit hn powered in
theorem trained_hawser : (trained s.m n).hawser n = { Hawser.reset with state := 2 } := by
  rw [trained, Module.hawser, keeps_latchAll _ (portCalib n) .hawsers (by decide), ← Module.hawser]
  exact hawser_onHawser_self s.m n _ inside

theorem goes_hawserPortUp (lit : s.m.portLit n = true) (down : (s.m.hawser n).up = false) : Goes s (.hawserPortUp n) (fun k =>
    (k.hawser n).state = 2 ∧ (s.m.ropeState ≠ 1 ∨ n % 4 = 3 → k.hawser n = { Hawser.reset with state := 2 }) ∧
    (s.m.ropeState ≠ 1 ∨ n % 4 = 3 → KeepsBut [.hawsers, .calib] s.m k) ∧
    KeepsBut (.hawsers :: .rope :: .calib :: hbmReading) s.m k) := by
  have own := trained_hawser inside
  have keeps := keeps_trained s.m n
  have rope : (trained s.m n).ropeState = s.m.ropeState := odGet_congr (keeps .od (by decide)) _
  refine goes_actOn rfl (decide_eq_true hn) powered ?_
  simp only [lit, down, Bool.not_true, Bool.or_self, Bool.false_eq_true, if_false]
  rw [show (s.m.onHawser n (fun _ => { Hawser.reset with state := 2 })).latchAll (portCalib n) = trained s.m n from rfl, rope]
  split
  · next joins =>
    simp only [Bool.and_eq_true, decide_eq_true_eq] at joins
    have apart : ¬(s.m.ropeState ≠ 1 ∨ n % 4 = 3) := by omega
    refine ⟨?_, fun h => absurd h apart, fun h => absurd h apart, ?_⟩
    · rw [hawser_state ((portStates_settleRope _ _).trans (portStates_sendJoin _ _)), own]
    · exact keeps_trans (keeps_mono keeps (by decide)) (keeps_trans (keeps_mono (keeps_sendJoin _ _) (by decide))
        (keeps_mono (keeps_settleRope _ _) (by decide)))
  · exact ⟨by rw [own], fun _ => own, fun _ => keeps, keeps_mono keeps (by decide)⟩

end

/-- Settles O49: no sending changes the state of a port, so a lost port stays down whatever its loss sets going. -/
theorem portsComeAndGo : Obligations.PortsComeAndGo := by
  intro s n hn inside powered m b serves
  refine ⟨fun up => ⟨goes_frameCrcFailure hn inside powered up, fun seq empty => goes_replayAsked hn inside powered up seq empty,
    fun empty => goes_keepalive hn inside powered up empty, ?_⟩, fun lit down => goes_hawserPortUp hn inside powered lit down⟩
  refine goes_actOn (f := fun fu m => m.losePort fu n) rfl (decide_eq_true hn) powered
    ⟨losePort_state _ inside up, fun unserving => ?_, fun serving own free other there enough =>
      losePort_spare s.fuse inside up serving own free other there enough,
      fun serving rope _ few => losePort_breaks s.fuse up serving rope few⟩
  obtain ⟨-, queue, unacked⟩ := portGone_hawser inside
  rw [losePort_unserving s.fuse up unserving]
  exact ⟨queue, unacked, keeps_portGone m n⟩

end Sys2Proof.Proofs
end

section
/-!
PROOFS. Frames that arrive in order on a port of the rope (R296 to R320): what each type does.
-/
namespace Sys2Proof.Proofs

open Sys2Proof.Machine Sys2Proof.Laws

/-! ### Taking a frame (R296, R297) -/

theorem drain_rxSeq (n : Nat) (h : Hawser) : (Hawser.drain n h).rxSeq = h.rxSeq := by
  induction n generalizing h with
  | zero => rfl
  | succ n ih =>
    rw [Hawser.drain]
    split
    · rfl
    split
    · rfl
    · exact ih _

theorem acceptFrame_rxSeq {m : Module} {n : Nat} (inside : n < m.hawsers.length) (f : Frame) :
    ((m.acceptFrame n f).hawser n).rxSeq = ((m.hawser n).rxSeq + 1) % 2 ^ 32 := by
  rw [Module.acceptFrame, Module.hawser, hawsers_freeSlots _ _ .hawsers (by decide), ← Module.hawser,
    hawser_onHawser_self m n (fun h => ({ h with rxSeq := (h.rxSeq + 1) % 2 ^ 32, replayAsked := false } : Hawser).acked f.ackSeq) inside]
  exact drain_rxSeq _ _

section
variable {m : Module} {n type : Nat} {bytes : List Byte} {f : Frame} (up : (m.hawser n).up = true) (parsed : parseFrame bytes = some f)
  (typed : f.type = type) (ordered : f.linkSeq = (m.hawser n).rxSeq)
include up parsed typed ordered

/-- A frame in order reaches the body of its type where it is of the rope's epoch, and a JOIN does in any. -/
theorem receive_ordered (body : Module → Nat → Frame → Module) : m.receive n type bytes body =
    if f.epoch = m.ropeEpoch then body (m.acceptFrame n f) (bondOf n) f
    else if type = 2 then body ((m.acceptFrame n f).bump (odKey 0x5210 8) 1) (bondOf n) f
    else (m.acceptFrame n f).bump (odKey 0x5210 8) 1 := by
  have epoch : (m.acceptFrame n f).ropeEpoch = m.ropeEpoch := ropeEpoch_of_od (keeps_accept m n f .od (by decide))
  unfold Module.receive
  simp [up, parsed, typed, ordered, epoch]

theorem receive_arrived (epoch : f.epoch = m.ropeEpoch) (body : Module → Nat → Frame → Module) :
    m.receive n type bytes body = body (m.acceptFrame n f) (bondOf n) f :=
  (receive_ordered up parsed typed ordered body).trans (if_pos epoch)

end

/-- What a frame of a type that arrives in order comes to. -/
theorem goes_frame {s : State} {n type : Nat} {bytes : List Byte} {f : Frame} {c : Instr}
    {body : Fuses → Module → Nat → Frame → Module} {P : Module → Prop} (arrives : Arrives s n type bytes f)
    (meaning : exec c s = s.actOn (decide (n < 16)) (fun fu m => m.receive n type bytes (body fu)))
    (leaves : P (body s.fuse (s.m.acceptFrame n f) (bondOf n) f)) : Goes s c P := by
  obtain ⟨hn, powered, up, parsed, typed, ordered, epoch⟩ := arrives
  refine goes_actOn meaning (decide_eq_true hn) powered ?_
  rw [receive_arrived up parsed typed ordered epoch]
  exact leaves

/-- What a data frame of the attempt that it belongs to comes to. -/
theorem goes_dataFrame {s : State} {n type : Nat} {bytes : List Byte} {f : Frame} {c : Instr}
    {body : Fuses → Nat → Frame → Module → Module} {P : Module → Prop} (arrives : ArrivesFresh s n type bytes f)
    (meaning : exec c s = s.actOn (decide (n < 16)) (fun fu m => m.receive n type bytes (fun m b f => m.ifFresh f (body fu b f))))
    (leaves : P (body s.fuse (bondOf n) f (s.m.acceptFrame n f))) : Goes s c P := by
  obtain ⟨arrives, rope, fresh⟩ := arrives
  refine goes_frame arrives meaning ?_
  simp only [Module.ifFresh, rope, fresh, Bool.and_self, if_true]
  exact leaves

/-! ### Counting past the link layer -/

/-- The slot of a SENT bucket whose last frame the parent has acknowledged is free (R300). -/
def freeSlot (m : Module) (j a : Nat) : Module :=
  if ((m.job j).bucket a).state = 2 && m.rope.trailers.any (fun t => t.bucket == a && t.input == 2) && !m.bucketInFlight a then
    m.onBucket j a (fun b => { b with state := 4 })
  else m

theorem freeSlots_eq (m : Module) (j : Nat) :
    m.freeSlots j = (List.range (m.job j).run.buckets.length).foldl (fun (m : Module) a => freeSlot m j a) m := rfl

theorem freeSlot_bump (m : Module) (j a k v : Nat) (other : odKey 0x5200 1 ≠ k) : freeSlot (m.bump k v) j a = (freeSlot m j a).bump k v := by
  have rank : (m.bump k v).rank = m.rank := (odGet_bump _ _ _ _).trans (if_neg other)
  have flight : (m.bump k v).bucketInFlight a = m.bucketInFlight a := by
    have live : (m.bump k v).bondLive 0 = m.bondLive 0 := bondLive_congr (m := m) (n := m.bump k v) rfl rank 0
    rw [Module.bucketInFlight, live, Module.bucketInFlight]
    rfl
  refine Eq.trans ?_ (apply_ite (fun m : Module => m.bump k v) _ _ _).symm
  exact if_congr (by rw [flight]; rfl) rfl rfl

theorem freeSlots_bump (m : Module) (j k v : Nat) (other : odKey 0x5200 1 ≠ k) :
    (m.bump k v).freeSlots j = (m.freeSlots j).bump k v :=
  (freeSlots_eq (m.bump k v) j).trans (List.foldl_hom (fun m : Module => m.bump k v) (g₁ := fun m a => freeSlot m j a)
    (g₂ := fun m a => freeSlot m j a) (fun m a => freeSlot_bump m j a k v other))

/-- A count that places no module in its rope is taken before a frame or after it. -/
theorem acceptFrame_bump (m : Module) (n : Nat) (f : Frame) {k : Nat} (v : Nat) (rank : odKey 0x5200 1 ≠ k) (job : odKey 0x5200 5 ≠ k) :
    (m.bump k v).acceptFrame n f = (m.acceptFrame n f).bump k v := by
  have same : (m.bump k v).ropeJob = m.ropeJob := (odGet_bump _ _ _ _).trans (if_neg job)
  unfold Module.acceptFrame
  rw [same]
  exact freeSlots_bump (m.onHawser n _) m.ropeJob k v rank

/-! ### IDLE (R296) -/

theorem goes_idle {s : State} {n : Nat} {bytes : List Byte} {f : Frame} (arrives : Arrives s n 1 bytes f) (fec : Nat) :
    Goes s (.idle ⟨n, fec⟩ bytes) (fun k => k = (s.m.bump (odKey 0x5210 2) fec).acceptFrame n f) := by
  obtain ⟨hn, powered, up, parsed, typed, ordered, epoch⟩ := arrives
  refine goes_actOn rfl (decide_eq_true hn) powered ?_
  rw [if_pos up]
  exact receive_arrived (m := s.m.bump (odKey 0x5210 2) fec) up parsed typed ordered
    (epoch.trans ((odGet_bump _ _ _ _).trans (if_neg (by decide))).symm) _

/-! ### JOIN (R293, R297, R317) -/

theorem keeps_answerJoin (m : Module) (b : Nat) : KeepsBut [.rope, .hawsers] m (m.answerJoin b) := by
  unfold Module.answerJoin
  exact keeps_ite (keeps_sendJoin m b) (keeps_trans (keeps_mono (keeps_onBond m b _) (by decide)) (keeps_putJoin _ b))

theorem bonds_sendBond (m : Module) (b : Nat) (f : Frame) : (m.sendBond b f).rope = m.rope := keeps_sendBond m b f .rope (by decide)

theorem bonds_onBond (m : Module) (b : Nat) (f : Bond → Bond) : (m.onBond b f).rope.bonds = modifyAt f m.rope.bonds b := rfl

theorem bonds_putJoin_length (m : Module) (b : Nat) : (m.putJoin b).rope.bonds.length = m.rope.bonds.length := by
  unfold Module.putJoin
  split
  · rfl
  · rw [bonds_sendBond, bonds_onBond, modifyAt_length]

theorem bonds_answerJoin_length (m : Module) (b : Nat) : (m.answerJoin b).rope.bonds.length = m.rope.bonds.length := by
  unfold Module.answerJoin Module.sendJoin
  split
  · split
    · rfl
    · exact bonds_putJoin_length m b
  · rw [bonds_putJoin_length, bonds_onBond, modifyAt_length]

theorem bond_onBond_self {m : Module} {b : Nat} (inside : b < m.rope.bonds.length) (f : Bond → Bond) :
    (m.onBond b f).bond b = f (m.bond b) := by
  rw [Module.bond, bonds_onBond, modifyAt_getD]
  simp [inside, Module.bond]

/-- Settling the rope leaves its bonds. -/
theorem bonds_settleRope (fu : Fuses) (m : Module) : (m.settleRope fu).rope.bonds = m.rope.bonds := by
  have set : ∀ (x : Module) v, (x.setRopeState fu v).rope.bonds = x.rope.bonds := fun x v => by
    rw [keeps_setRopeState fu x v .rope (by decide)]
  have begun : ((m.onRope (fun r => { r with deeper := false })).setRopeState fu 3).rope.bonds = m.rope.bonds := set _ 3
  rcases settleRope_cases fu m with same | ready | resync | sends
  · rw [same]
  · rw [ready, keeps_setRopeState fu m 2 .rope (by decide)]
  · rw [resync, begun]
  · have sent : ∀ x : Module, (x.startResync fu).rope = x.rope := fun x =>
      (kb_foldl _ _ (fun m f => keeps_forward m f) _ : KeepsBut [.hawsers] _ (x.startResync fu)) .rope (by decide) |>.trans
        (keeps_hbmReads fu x _ _ .rope (by decide))
    rw [sends, sent, begun]

theorem ropeState_startResync (fu : Fuses) (m : Module) : (m.startResync fu).ropeState = m.ropeState := by
  have sent : KeepsBut [.hawsers] (m.hbmReads fu m.ropeJob ((m.job m.ropeJob).snapRegions.flatMap fun r =>
      (m.job m.ropeJob).regionRanges r.1 r.2 true false)) (m.startResync fu) := kb_foldl _ _ (fun m f => keeps_forward m f) _
  rw [Module.ropeState, odGet_congr (sent .od (by decide)), odGet_hbmReads fu m (by decide), Module.ropeState]

/-- A rope with a deeper request open does not become READY. -/
theorem ropeState_settleRope_deeper (fu : Fuses) {m : Module} (deeper : m.rope.deeper = true) (joining : m.ropeState = 1) :
    (m.settleRope fu).ropeState ≠ 2 := by
  unfold Module.settleRope
  simp only [deeper, Bool.not_true, Bool.false_and, Bool.false_eq_true, if_false]
  split
  · omega
  split
  · rw [ropeState_startResync, ropeState_setRopeState]
    decide
  · rw [ropeState_setRopeState]
    decide

/-- A JOIN that agrees: it is answered and its bond has passed. -/
def joinPassed (fu : Fuses) (m : Module) (b : Nat) (deeper : Bool) (f : Frame) : Module :=
  (((m.answerJoin b).onRope (fun r => { r with deeper := r.deeper || deeper })).onBond b
    (fun k => { k with state := 2, partnerStep := leAt f.payload 24 8 })).settleRope fu

/-- The bond of a JOIN that disagrees is out of service. -/
def joinFailed (fu : Fuses) (m : Module) (b : Nat) (e : Nat × Nat) : Module :=
  (m.onBond b (fun k => { k with state := 3 })).event fu 0x0543 [b, e.1, e.2]

theorem joinPassed_bond (fu : Fuses) {m : Module} {b : Nat} (inside : b < m.rope.bonds.length) (deeper : Bool) (f : Frame) :
    ((joinPassed fu m b deeper f).bond b).state = 2 ∧ ((joinPassed fu m b deeper f).bond b).partnerStep = leAt f.payload 24 8 := by
  have passed := bond_onBond_self (m := (m.answerJoin b).onRope (fun r => { r with deeper := r.deeper || deeper })) (b := b)
    (by rw [← bonds_answerJoin_length m b] at inside; exact inside) (fun k => { k with state := 2, partnerStep := leAt f.payload 24 8 })
  rw [joinPassed, Module.bond, bonds_settleRope, ← Module.bond, passed]
  exact ⟨rfl, rfl⟩

theorem joinPassed_keeps (fu : Fuses) (m : Module) (b : Nat) (deeper : Bool) (f : Frame) : KeepsBut settling m (joinPassed fu m b deeper f) := by
  refine keeps_trans ?_ (keeps_settleRope fu _)
  rw [kb_onBond _ _ (by decide), kb_onRope _ (by decide)]
  exact keeps_mono (keeps_answerJoin m b) (by decide)

theorem answerJoin_deeper (m : Module) (b : Nat) : (m.answerJoin b).rope.deeper = m.rope.deeper := by
  have put : ∀ x : Module, (x.putJoin b).rope.deeper = x.rope.deeper := fun x => by
    unfold Module.putJoin
    split
    · rfl
    · rw [bonds_sendBond]
      rfl
  unfold Module.answerJoin Module.sendJoin
  split
  · split
    · rfl
    · exact put m
  · exact put _

theorem joinPassed_deeper (fu : Fuses) {m : Module} (b : Nat) {deeper : Bool} (f : Frame) (asks : m.rope.deeper = true ∨ deeper = true)
    (joining : m.ropeState = 1) : (joinPassed fu m b deeper f).ropeState ≠ 2 := by
  refine ropeState_settleRope_deeper fu ?_ ((odGet_congr (keeps_answerJoin m b .od (by decide)) _).trans joining)
  show ((m.answerJoin b).rope.deeper || deeper) = true
  rw [answerJoin_deeper]
  simpa using asks

theorem goes_join {s : State} {n : Nat} {bytes : List Byte} {f : Frame} {deeper : Bool} {y : Module}
    (arrives : Arrives s n 2 bytes f ∧ y = s.m.acceptFrame n f ∨ n < 16 ∧ s.m.powered = true ∧ (s.m.hawser n).up = true ∧
      parseFrame bytes = some f ∧ f.type = 2 ∧ f.linkSeq = (s.m.hawser n).rxSeq ∧ f.epoch ≠ s.m.ropeEpoch ∧
      y = (s.m.acceptFrame n f).bump (odKey 0x5210 8) 1) :
    Goes s (.join ⟨n, deeper⟩ bytes) (fun k => k = match y.joinBad (bondOf n) f with
      | some e => joinFailed s.fuse y (bondOf n) e
      | none => joinPassed s.fuse y (bondOf n) deeper f) := by
  rcases arrives with ⟨arrives, rfl⟩ | ⟨hn, powered, up, parsed, typed, ordered, epoch, rfl⟩
  · exact goes_frame (body := fun fu m b f => match m.joinBad b f with
      | some e => joinFailed fu m b e
      | none => joinPassed fu m b deeper f) arrives rfl rfl
  · refine goes_actOn rfl (decide_eq_true hn) powered ?_
    exact (receive_ordered up parsed typed ordered _).trans ((if_neg epoch).trans (if_pos rfl))

end Sys2Proof.Proofs
end

section
/-!
PROOFS. Data of the rope: exponent tables and weights of a broadcast, aborts, marks, resync data and replicas (R295 to R320).
-/
namespace Sys2Proof.Proofs

open Sys2Proof.Machine Sys2Proof.Laws

/-! ### Frames of the running attempt (R297) -/

theorem current_state {m : Module} {f : Frame} (current : m.current f = true) : (m.job m.ropeJob).state = 3 := by
  simp only [Module.current, Bool.and_eq_true, beq_iff_eq] at current
  exact current.1.1.1

theorem fresh_of_current {m : Module} {f : Frame} (current : m.current f = true) : m.fresh f = true := by
  have runs := current_state current
  simp only [Module.current, Bool.and_eq_true] at current
  obtain ⟨⟨-, step⟩, attempt⟩ := current
  simp [Module.fresh, runs, step, attempt]

/-! ### Exponent tables (R306) -/

/-- The next exponents with one that replaces an earlier one of its segment. -/
def putNext (l : List (Nat × Int)) (k : Nat) (v : Int) : List (Nat × Int) := l.filter (fun p => p.1 != k) ++ [(k, v)]

theorem lookup_putNext_self (l : List (Nat × Int)) (k : Nat) (v : Int) : (putNext l k v).lookup k = some v := by
  have gone : (l.filter (fun p => p.1 != k)).lookup k = none := by
    rw [List.lookup_eq_none_iff]
    intro p hp
    have := (List.mem_filter.1 hp).2
    rw [bne_iff_ne] at this
    simpa using Ne.symm this
  rw [putNext, List.lookup_append, gone]
  simp

theorem lookup_putNext_other (l : List (Nat × Int)) {k i : Nat} (other : k ≠ i) {v : Int} (w : Int) (held : l.lookup i = some v) :
    (putNext l k w).lookup i = some v := by
  have kept : (l.filter (fun p => p.1 != k)).lookup i = l.lookup i := by
    clear held
    induction l with
    | nil => rfl
    | cons p l ih =>
      obtain ⟨a, b⟩ := p
      by_cases here : a = k
      · subst here
        simp [List.lookup, beq_false_of_ne (Ne.symm other), ih]
      · rw [List.filter_cons_of_pos (by simpa using here)]
        simp only [List.lookup, ih]
  rw [putNext, List.lookup_append, kept, held]
  rfl

/-- Of a run of exponents the last of a segment stands. -/
theorem lookup_putNext_last {α : Type} (key : α → Nat) (val : α → Int) (xs : List α) (l : List (Nat × Int)) {i : Nat} {x : α}
    (at_ : xs[i]? = some x) (last : ∀ i' y, i < i' → xs[i']? = some y → key y ≠ key x) :
    (xs.foldl (fun l y => putNext l (key y) (val y)) l).lookup (key x) = some (val x) := by
  have stays : ∀ (ys : List α) (l : List (Nat × Int)), l.lookup (key x) = some (val x) → (∀ y ∈ ys, key y ≠ key x) →
      (ys.foldl (fun l y => putNext l (key y) (val y)) l).lookup (key x) = some (val x) := by
    intro ys l held others
    refine List.foldlRecOn (motive := fun l : List (Nat × Int) => l.lookup (key x) = some (val x)) ys _ held (fun l held y hy => ?_)
    exact lookup_putNext_other l (others y hy) (val y) held
  induction xs generalizing l i with
  | nil => simp at at_
  | cons y ys ih =>
    rw [List.foldl_cons]
    cases i with
    | zero =>
      obtain rfl : y = x := by simpa using at_
      refine stays ys _ (lookup_putNext_self l (key y) (val y)) fun z hz => ?_
      obtain ⟨k, at_k⟩ := List.getElem?_of_mem hz
      exact last (k + 1) z (by omega) (by simpa using at_k)
    | succ i =>
      exact ih _ (by simpa using at_) fun i' z after there => last (i' + 1) z (by omega) (by simpa using there)

/-- The module with the exponents of an ETAB stored. -/
def putTable (m : Module) (j : Nat) (segs : List ((Nat × Nat) × Nat)) (payload : List Byte) : Module :=
  segs.foldl (fun (m : Module) s => m.onRun j (fun q => { q with
    nextExp := putNext q.nextExp (segKey s.1.1 s.1.2) (signed 8 (leAt payload s.2 1)) })) m

theorem putTable_keeps (m : Module) (j : Nat) (segs : List ((Nat × Nat) × Nat)) (payload : List Byte) :
    KeepsBut [.jobs] m (putTable m j segs payload) ∧ OtherJobs j m (putTable m j segs payload) := by
  refine ⟨kb_foldl _ _ (fun m s => keeps_onRun m j _) m, ?_⟩
  refine List.foldlRecOn (motive := OtherJobs j m) segs _ (fun _ _ => rfl) (fun x others s _ i other => ?_)
  exact (job_onRun_other x j i _ other).trans (others i other)

theorem putTable_next {m : Module} {j : Nat} (inside : j < m.jobs.length) (segs : List ((Nat × Nat) × Nat)) (payload : List Byte) :
    ((putTable m j segs payload).job j).run.nextExp =
      segs.foldl (fun l s => putNext l (segKey s.1.1 s.1.2) (signed 8 (leAt payload s.2 1))) (m.job j).run.nextExp := by
  induction segs generalizing m with
  | nil => rfl
  | cons s segs ih =>
    simp only [putTable, List.foldl_cons]
    refine (ih (by rw [onRun_len]; exact inside)).trans ?_
    rw [job_onRun_self m j _ inside]

theorem keeps_bucketReceived (fu : Fuses) (m : Module) (k : Nat) :
    KeepsBut [.rope, .hawsers, .od, .log, .report] m (m.bucketReceived fu k) := by
  unfold Module.bucketReceived
  refine keeps_ite ?_ (keeps_refl _ _)
  refine keeps_trans ?_ (keeps_tryHash fu _ _ _)
  exact keeps_trans (keeps_mono (keeps_bump m _ _) (by decide)) (keeps_mono (keeps_ownHash _ _) (by decide))

/-- A table taken: stored, forwarded, and with its last part its bucket may be received. -/
def tableTaken (fu : Fuses) (m : Module) (f : Frame) (r : Reduce) : Module :=
  let segs := (r.segsOf f.bucket).drop f.segment
  let m := putTable m m.ropeJob (segs.take 4096).zipIdx f.payload
  let m := m.forwardDown { m.frameBase 5 with bucket := f.bucket, segment := f.segment, payload := f.payload }
  if 4096 < segs.length || m.rope.etabSeen.contains f.bucket then m
  else (m.onRope (fun q => { q with etabSeen := q.etabSeen ++ [f.bucket] })).bucketReceived fu f.bucket

theorem tableTaken_keeps (fu : Fuses) (m : Module) (f : Frame) (r : Reduce) : KeepsBut [.rope, .hawsers, .od, .log, .report]
    (putTable m m.ropeJob (((r.segsOf f.bucket).drop f.segment).take 4096).zipIdx f.payload) (tableTaken fu m f r) := by
  unfold tableTaken
  dsimp only
  refine keeps_trans (keeps_mono (keeps_forward _ _) (by decide)) (keeps_ite (keeps_refl _ _) ?_)
  exact keeps_trans (keeps_mono (keeps_onRope _ _) (by decide)) (keeps_bucketReceived fu _ _)

theorem tableTaken_next (fu : Fuses) {m : Module} (inside : m.ropeJob < m.jobs.length) (f : Frame) (r : Reduce) {i : Nat}
    {sg : Nat × Nat} (below : i < 4096) (at_ : ((r.segsOf f.bucket).drop f.segment)[i]? = some sg)
    (last : ∀ i' sg', i < i' → ((r.segsOf f.bucket).drop f.segment)[i']? = some sg' → segKey sg'.1 sg'.2 ≠ segKey sg.1 sg.2) :
    ((tableTaken fu m f r).job m.ropeJob).run.nextExp.lookup (segKey sg.1 sg.2) = some (signed 8 (leAt f.payload i 1)) := by
  rw [Module.job, tableTaken_keeps fu m f r .jobs (by decide), ← Module.job, putTable_next inside]
  refine lookup_putNext_last (fun s : (Nat × Nat) × Nat => segKey s.1.1 s.1.2) (fun s => signed 8 (leAt f.payload s.2 1)) _ _ (i := i)
    (x := (sg, i)) ?_ fun i' s after there => ?_
  · rw [List.getElem?_zipIdx, List.getElem?_take_of_lt below, at_]
    simp
  · rw [List.getElem?_zipIdx] at there
    obtain ⟨sg', stands, rfl⟩ := Option.map_eq_some_iff.1 there
    refine last i' sg' after ?_
    by_cases early : i' < 4096
    · rwa [List.getElem?_take_of_lt early] at stands
    · rw [List.getElem?_take_eq_none (Nat.le_of_not_lt early)] at stands
      exact absurd stands (by simp)

/-! ### Weights of a broadcast (R281, R306) -/

/-- From `m` to `n` weights of job `j` were written at addresses of `W` alone, and counted. -/
structure Broadcasts (j : Nat) (W : Nat → Prop) (m n : Module) : Prop where
  keeps : KeepsBut [.jobs, .hbm, .hbmPoison, .od] m n
  others : OtherJobs j m n
  own : Tackled (m.job j) (n.job j)
  bytes : ∀ a, ¬ W a → n.hbm.get a = m.hbm.get a

/-- The element of a half segment that a weight of a WGT frame is of. -/
def halfElem (sg half i : Nat) : Nat := 4096 * sg + 2048 * half + i

/-- One weight of a WGT frame written into the work half, where it is this rank's to write. -/
def broadcastWeight (m : Module) (j t e code : Nat) : Module :=
  if (m.job j).writes t e then (m.putWeight j t e code false).bump (odKey 0x7130 2) 1 else m

theorem writeBroadcast_eq (m : Module) (t sg half : Nat) (payload : List Byte) : m.writeBroadcast t sg half payload =
    (List.range (min 2048 ((m.job m.ropeJob).segLen t sg - 2048 * half))).foldl (fun (m' : Module) i =>
      broadcastWeight m' m.ropeJob t (halfElem sg half i) (leAt payload (2 * i) 2)) m := rfl

/-- The bytes of the weights that a WGT frame writes. -/
def broadcastBytes (b : Job) (t sg half a : Nat) : Prop :=
  ∃ i, i < min 2048 (b.segLen t sg - 2048 * half) ∧ b.writes t (halfElem sg half i) = true ∧
    span (b.weightAddr t (1 - b.committed t (b.regionOf t (halfElem sg half i))) (halfElem sg half i)) 2 a

theorem Broadcasts.trans {j : Nat} {W : Nat → Prop} {a b c : Module} (first : Broadcasts j W a b) (next : Broadcasts j W b c) :
    Broadcasts j W a c :=
  ⟨keeps_trans first.keeps next.keeps, fun k other => (next.others k other).trans (first.others k other),
    tackled_trans first.own next.own, fun a away => (next.bytes a away).trans (first.bytes a away)⟩

theorem broadcasts_weight (m : Module) (j t e code : Nat) : Broadcasts j
    (fun a => (m.job j).writes t e = true ∧ span ((m.job j).weightAddr t (1 - (m.job j).committed t ((m.job j).regionOf t e)) e) 2 a) m
    (broadcastWeight m j t e code) := by
  unfold broadcastWeight
  split
  · next writes =>
    obtain ⟨keeps, others, own, -, bytes⟩ := tackles_putWeight (j := j) m t e code false
    refine ⟨(kb_bump _ _ (by decide)).2 (keeps_mono keeps (by decide)), fun k other => ?_, ?_, fun a away => ?_⟩
    · rw [job_of_bump]
      exact others k other
    · rw [job_of_bump]
      exact own
    · rw [bump_hbm]
      exact bytes a fun hit => away ⟨writes, hit⟩
  · exact ⟨keeps_refl _ m, fun _ _ => rfl, tackled_refl _, fun _ _ => rfl⟩

theorem broadcasts_writeBroadcast (m : Module) (t sg half : Nat) (payload : List Byte) :
    Broadcasts m.ropeJob (broadcastBytes (m.job m.ropeJob) t sg half) m (m.writeBroadcast t sg half payload) := by
  rw [writeBroadcast_eq]
  generalize m.ropeJob = j
  refine List.foldlRecOn (motive := Broadcasts j (broadcastBytes (m.job j) t sg half) m) _ _
    ⟨keeps_refl _ m, fun _ _ => rfl, tackled_refl _, fun _ _ => rfl⟩ (fun n sofar i hi => sofar.trans ?_)
  obtain ⟨keeps, others, own, bytes⟩ := broadcasts_weight n j t (halfElem sg half i) (leAt payload (2 * i) 2)
  refine ⟨keeps, others, own, fun a away => bytes a fun hit => away ⟨i, List.mem_range.1 hi, ?_⟩⟩
  obtain ⟨ds, o, ap, same⟩ := sofar.own
  rw [same] at hit
  exact hit

theorem forwardDown_withHawsers (m : Module) (f : Frame) : ∃ hs, m.forwardDown f = { m with hawsers := hs } := by
  unfold Module.forwardDown
  refine List.foldlRecOn (motive := fun n : Module => ∃ hs, n = { m with hawsers := hs }) _ _ ⟨m.hawsers, rfl⟩ (fun n h b _ => ?_)
  obtain ⟨hs, rfl⟩ := h
  unfold Module.sendBond
  split
  · exact ⟨hs, rfl⟩
  · exact ⟨_, rfl⟩

/-- Weights are written alike whatever the ports hold. -/
theorem broadcastWeight_withHawsers (m : Module) (hs : List Hawser) (j t e code : Nat) :
    broadcastWeight { m with hawsers := hs } j t e code = { broadcastWeight m j t e code with hawsers := hs } := by
  have put : ({ m with hawsers := hs } : Module).putWeight j t e code false = { m.putWeight j t e code false with hawsers := hs } := by
    have job : ∀ x : Module, ({ x with hawsers := hs } : Module).job j = x.job j := fun _ => rfl
    simp only [Module.putWeight, job]
    split <;> rfl
  have writes : (({ m with hawsers := hs } : Module).job j).writes t e = (m.job j).writes t e := rfl
  unfold broadcastWeight
  rw [writes, put]
  generalize m.putWeight j t e code false = w
  cases (m.job j).writes t e
  · rfl
  · rfl

theorem writeBroadcast_withHawsers (m : Module) (hs : List Hawser) (t sg half : Nat) (payload : List Byte) :
    ({ m with hawsers := hs } : Module).writeBroadcast t sg half payload = { m.writeBroadcast t sg half payload with hawsers := hs } :=
  List.foldl_hom (fun m : Module => { m with hawsers := hs })
    (g₁ := fun x i => broadcastWeight x m.ropeJob t (halfElem sg half i) (leAt payload (2 * i) 2))
    (g₂ := fun x i => broadcastWeight x m.ropeJob t (halfElem sg half i) (leAt payload (2 * i) 2))
    (fun x _ => broadcastWeight_withHawsers x hs m.ropeJob t _ _)

/-- A WGT frame taken: forwarded, written and noted, and with the last one its bucket may be received. -/
def weightsTaken (fu : Fuses) (m : Module) (f : Frame) (t : Nat × Nat) : Module :=
  let sent := m.forwardDown { m.frameBase 6 with bucket := f.bucket, segment := f.segment, code := f.code, payload := f.payload }
  let key := (f.bucket, 2 * f.segment + f.code % 2)
  ((sent.writeBroadcast t.1 t.2 (f.code % 2) f.payload).onRope (fun q => { q with
    wgtSeen := q.wgtSeen ++ [key], wgtHeld := q.wgtHeld.filter (· != key) })).bucketReceived fu f.bucket

/-- What a WGT frame leaves: the weights of its half segment in the work half, and nothing else of memory. -/
theorem weightsTaken_leaves (fu : Fuses) (m : Module) (f : Frame) (t : Nat × Nat) :
    (weightsTaken fu m f t).hbm = (m.writeBroadcast t.1 t.2 (f.code % 2) f.payload).hbm ∧ OtherJobs m.ropeJob m (weightsTaken fu m f t) ∧
      KeepsBut [.jobs, .hbm, .hbmPoison, .rope, .hawsers, .od, .log, .report] m (weightsTaken fu m f t) := by
  obtain ⟨hs, sent⟩ := forwardDown_withHawsers m
    { m.frameBase 6 with bucket := f.bucket, segment := f.segment, code := f.code, payload := f.payload }
  obtain ⟨keeps, others, -, -⟩ := broadcasts_writeBroadcast m t.1 t.2 (f.code % 2) f.payload
  have wrote := writeBroadcast_withHawsers m hs t.1 t.2 (f.code % 2) f.payload
  unfold weightsTaken
  dsimp only
  rw [sent, wrote]
  generalize m.writeBroadcast t.1 t.2 (f.code % 2) f.payload = w at *
  have later : KeepsBut [.rope, .hawsers, .od, .log, .report] w _ := keeps_trans
    (b := (({ w with hawsers := hs } : Module).onRope (fun q => { q with
      wgtSeen := q.wgtSeen ++ [(f.bucket, 2 * f.segment + f.code % 2)],
      wgtHeld := q.wgtHeld.filter (· != (f.bucket, 2 * f.segment + f.code % 2)) })))
    (by rw [kb_onRope _ (by decide)]; intro part hpart; cases part <;> simp_all [Part.same]) (keeps_bucketReceived fu _ f.bucket)
  refine ⟨later .hbm (by decide), fun i other => ?_, keeps_trans (keeps_mono keeps (by decide)) (keeps_mono later (by decide))⟩
  rw [Module.job, later .jobs (by decide), ← Module.job]
  exact others i other

/-! ### The frames -/

section
variable {s : State} {n : Nat} {bytes : List Byte} {f : Frame}

theorem goes_etab {r : Reduce} (arrives : ArrivesFresh s n 5 bytes f) (parent : bondOf n = 0)
    (current : (s.m.acceptFrame n f).current f = true)
    (program : ((s.m.acceptFrame n f).job (s.m.acceptFrame n f).ropeJob).prog.reduce = some r) :
    Goes s (.etab n bytes false) (fun k => k = tableTaken s.fuse (s.m.acceptFrame n f) f r) := by
  refine goes_dataFrame (body := fun fu b f m =>
    let j := m.ropeJob
    if b != 0 || !m.current f then m
    else if false then m.framePoison fu
    else
      match (m.job j).prog.reduce with
      | none => m
      | some r => tableTaken fu m f r) arrives rfl ?_
  simp only [parent, current, program, bne_self_eq_false, Bool.not_true, Bool.or_self, Bool.false_eq_true, if_false]

theorem goes_wgt {t : Nat × Nat} (arrives : ArrivesFresh s n 6 bytes f) (parent : bondOf n = 0)
    (current : (s.m.acceptFrame n f).current f = true)
    (segment : ((s.m.acceptFrame n f).job (s.m.acceptFrame n f).ropeJob).prog.reduce.bind
      (fun r => (r.segsOf f.bucket)[f.segment]?) = some t) (runs : s.m.wgtWaits n bytes = false)
    (first : (f.bucket, 2 * f.segment + f.code % 2) ∉ (s.m.acceptFrame n f).rope.wgtSeen) :
    Goes s (.wgt n bytes false) (fun k => k = weightsTaken s.fuse (s.m.acceptFrame n f) f t) := by
  obtain ⟨⟨hn, powered, up, parsed, typed, ordered, epoch⟩, rope, fresh⟩ := arrives
  refine goes_actOn rfl (decide_eq_true hn) powered ?_
  simp only [runs, Bool.false_eq_true, if_false]
  rw [receive_arrived up parsed typed ordered epoch]
  simp only [Module.ifFresh, rope, fresh, Bool.and_self, if_true, parent, current, segment, bne_self_eq_false, Bool.not_true, Bool.or_self,
    Bool.false_eq_true, if_false, List.contains_eq_mem, first, decide_false]
  rfl

theorem goes_wgtWaits (hn : n < 16) (powered : s.m.powered = true) (waits : s.m.wgtWaits n bytes = true) (bad : Bool) :
    Goes s (.wgt n bytes bad) (fun k => k = s.m.holdWgt bytes) := by
  refine goes_actOn rfl (decide_eq_true hn) powered ?_
  simp only [waits, if_true]

theorem goes_wgtAgain (arrives : ArrivesFresh s n 6 bytes f) (parent : bondOf n = 0)
    (current : (s.m.acceptFrame n f).current f = true)
    (seen : (f.bucket, 2 * f.segment + f.code % 2) ∈ (s.m.acceptFrame n f).rope.wgtSeen) :
    Goes s (.wgt n bytes false) (fun k => k = s.m.holdWgt bytes ∨ k = s.m.acceptFrame n f) := by
  obtain ⟨⟨hn, powered, up, parsed, typed, ordered, epoch⟩, rope, fresh⟩ := arrives
  cases waits : s.m.wgtWaits n bytes with
  | true =>
    obtain ⟨t, run, fuses, queue, held⟩ := goes_wgtWaits hn powered waits false
    exact ⟨t, run, fuses, queue, .inl held⟩
  | false =>
    refine goes_actOn rfl (decide_eq_true hn) powered (.inr ?_)
    simp only [waits, Bool.false_eq_true, if_false]
    rw [receive_arrived up parsed typed ordered epoch]
    simp only [Module.ifFresh, rope, fresh, Bool.and_self, if_true, parent, current, bne_self_eq_false, Bool.not_true, Bool.or_self,
      Bool.false_eq_true, if_false, List.contains_eq_mem, seen, decide_true]
    split <;> rfl

/-- What an ABORT comes to in a rope. -/
def aborted (fu : Fuses) (m : Module) (b : Nat) (f : Frame) : Module :=
  if f.code = stPeerLost || f.code = stPoison then
    if m.ropeState = 4 then m else (if f.code = stPeerLost then m.lossEvent fu b else m).breakRope fu b f.code
  else if !m.fresh f then m.bump (odKey 0x5210 8) 1
  else
    let y := m.sendOthers b { m.frameBase 8 with step := f.step, attempt := f.attempt, code := f.code, segment := f.segment }
    if f.segment = 1 then y.endJob fu m.ropeJob f.code
    else if y.current f then y.restart fu m.ropeJob f.code true
    else y.onRope (fun r => r.raise_ f)

theorem goes_abort (arrives : Arrives s n 8 bytes f)
    (rope : (s.m.acceptFrame n f).inRope (s.m.acceptFrame n f).ropeJob = true) :
    Goes s (.abort n bytes) (fun k => k = aborted s.fuse (s.m.acceptFrame n f) (bondOf n) f) :=
  goes_frame (body := fun fu m b f => if !m.inRope m.ropeJob then m else aborted fu m b f) arrives rfl (if_neg (by simp [rope]))

theorem breakRope_state (fu : Fuses) (m : Module) (b code : Nat) : (m.breakRope fu b code).ropeState = 4 := ropeState_setRopeState fu _ 4

/-- PEER_LOST and POISON break the rope (R315, R316). -/
theorem aborted_breaks (fu : Fuses) (m : Module) (b : Nat) {f : Frame} (code : f.code = stPeerLost ∨ f.code = stPoison) :
    (aborted fu m b f).ropeState = 4 := by
  unfold aborted
  rw [if_pos (by simpa using code)]
  split
  · assumption
  · exact breakRope_state fu _ b f.code

section
variable (fu : Fuses) {m : Module} (b : Nat) (other : f.code ≠ stPeerLost) (clean : f.code ≠ stPoison)
include other clean

/-- An ABORT of the running attempt ends the job or runs the attempt again (R305, R312). -/
theorem aborted_current (current : m.current f = true) :
    (f.segment = 1 → ((aborted fu m b f).job m.ropeJob).state = 4 ∧ ((aborted fu m b f).job m.ropeJob).endStatus = f.code) ∧
      (f.segment ≠ 1 → ((aborted fu m b f).job m.ropeJob).run.attempt = (m.job m.ropeJob).run.attempt + 1 ∧
        ((aborted fu m b f).job m.ropeJob).run.ropeAttempt = (m.job m.ropeJob).run.ropeAttempt + 1) := by
  have runs := current_state current
  unfold aborted
  rw [if_neg (by simp [other, clean]), if_neg (by simp [fresh_of_current current])]
  dsimp only
  generalize hY : m.sendOthers b _ = y
  have sent : KeepsBut [.hawsers] m y := hY ▸ keeps_sendOthers m b _
  have jobs : y.job m.ropeJob = m.job m.ropeJob := job_congr (sent .jobs (by decide)) _
  refine ⟨fun final => ?_, fun again => ?_⟩
  · rw [if_pos final]
    obtain ⟨state, status, -⟩ := endJob_job fu y m.ropeJob f.code (.inr (by rw [jobs]; exact runs))
    exact ⟨state, status⟩
  · have still : y.current f = true := by
      rw [Module.current, ropeJob_of_od (sent .od (by decide)), jobs]
      exact current
    rw [if_neg again, if_pos still]
    obtain ⟨-, -, attempt, rope, -⟩ := replays_restart fu f.code true sent runs
    exact ⟨attempt, rope⟩

/-- An ABORT of an attempt to come raises its number (R312). -/
theorem aborted_raises (waits : m.current f = false) (fresh : m.fresh f = true) (again : f.segment ≠ 1) :
    (aborted fu m b f).rope = m.rope.raise_ f ∧ KeepsBut [.rope, .hawsers] m (aborted fu m b f) := by
  unfold aborted
  rw [if_neg (by simp [other, clean]), if_neg (by simp [fresh])]
  dsimp only
  generalize hY : m.sendOthers b _ = y
  have sent : KeepsBut [.hawsers] m y := hY ▸ keeps_sendOthers m b _
  have still : y.current f = false := by
    rw [Module.current, ropeJob_of_od (sent .od (by decide)), job_congr (sent .jobs (by decide))]
    exact waits
  rw [if_neg again, if_neg (by simp [still])]
  refine ⟨?_, (kb_onRope _ (by decide)).2 (keeps_mono sent (by decide))⟩
  rw [← show y.rope = m.rope from sent .rope (by decide)]
  rfl

theorem aborted_stale (stale : m.fresh f = false) : aborted fu m b f = m.bump (odKey 0x5210 8) 1 := by
  unfold aborted
  rw [if_neg (by simp [other, clean]), if_pos (by simp [stale])]

end

/-- A mark is among the two that are kept (R319). -/
theorem mark_kept (r : Rope) (step : Nat) (ds : List ScaleDesc) : (step, ds) ∈ (r.mark step ds).marks ∧ (r.mark step ds).marks.length ≤ 2 := by
  simp only [Rope.mark]
  constructor
  · simp
  · rw [List.length_reverse, List.length_take]
    exact Nat.min_le_left ..

theorem goes_snapmark (arrives : Arrives s n 9 bytes f) (parent : bondOf n = 0)
    (rope : (s.m.acceptFrame n f).inRope (s.m.acceptFrame n f).ropeJob = true) :
    let x := s.m.acceptFrame n f
    Goes s (.snapmark n bytes) (fun k => (leAt f.payload 0 8, (x.job x.ropeJob).descs) ∈ k.rope.marks ∧ k.rope.marks.length ≤ 2 ∧
      KeepsBut [.rope, .hawsers] x k) := by
  intro x
  refine goes_frame (body := fun _ m b f =>
    if b != 0 || !m.inRope m.ropeJob then m
    else
      let step := leAt f.payload 0 8
      let m := m.forwardDown { m.frameBase 9 with payload := f.payload }
      m.onRope (fun r => r.mark step (m.job m.ropeJob).descs)) arrives rfl ?_
  simp only [parent, rope, bne_self_eq_false, Bool.not_true, Bool.or_self, Bool.false_eq_true, if_false]
  generalize hY : Module.forwardDown _ _ = y
  have sent : KeepsBut [.hawsers] x y := hY ▸ keeps_forward x _
  have descs : (y.job y.ropeJob).descs = (x.job x.ropeJob).descs := by
    rw [ropeJob_of_od (sent .od (by decide)), job_congr (sent .jobs (by decide))]
  rw [descs]
  obtain ⟨kept, two⟩ := mark_kept y.rope (leAt f.payload 0 8) (x.job x.ropeJob).descs
  exact ⟨kept, two, (kb_onRope _ (by decide)).2 (keeps_mono sent (by decide))⟩

theorem goes_resync (arrives : Arrives s n 10 bytes f) (parent : bondOf n = 0)
    (rope : (s.m.acceptFrame n f).inRope (s.m.acceptFrame n f).ropeJob = true)
    (loaded : ((s.m.acceptFrame n f).job (s.m.acceptFrame n f).ropeJob).state = 2) :
    let x := s.m.acceptFrame n f
    Goes s (.resync n bytes false) (fun k => k.rope.resyncData = joinData x.rope.resyncData f ∧ (x.ropeState = 2 → k.ropeState = 3) ∧
      KeepsBut [.rope, .hawsers, .od, .log, .report] x k) := by
  intro x
  refine goes_frame (body := fun fu m b f =>
    if b != 0 || !m.inRope m.ropeJob || (m.job m.ropeJob).state != 2 then m
    else if false then m.framePoison fu
    else
      let m := m.forwardDown { m.frameBase 10 with payload := f.payload }
      let m := m.onRope (fun r => { r with resyncData := joinData r.resyncData f })
      if m.ropeState = 2 then m.setRopeState fu 3 else m) arrives rfl ?_
  simp only [parent, rope, loaded, bne_self_eq_false, Bool.not_true, Bool.or_self, Bool.false_eq_true, if_false]
  generalize hY : Module.forwardDown _ _ = y
  have sent : KeepsBut [.hawsers] x y := hY ▸ keeps_forward x _
  generalize hZ : y.onRope _ = z
  have data : z.rope.resyncData = joinData x.rope.resyncData f := by
    rw [← hZ, ← show y.rope = x.rope from sent .rope (by decide)]
    rfl
  have joins : KeepsBut [.rope, .hawsers] x z := by
    rw [← hZ, kb_onRope _ (by decide)]
    exact keeps_mono sent (by decide)
  have state : z.ropeState = x.ropeState := odGet_congr (joins .od (by decide)) _
  rw [state]
  by_cases ready : x.ropeState = 2
  · rw [if_pos ready]
    refine ⟨?_, fun _ => ropeState_setRopeState s.fuse z 3, keeps_trans (keeps_mono joins (by decide))
      (keeps_mono (keeps_setRopeState s.fuse z 3) (by decide))⟩
    rw [keeps_setRopeState s.fuse z 3 .rope (by decide)]
    exact data
  · rw [if_neg ready]
    exact ⟨data, fun h => absurd h ready, keeps_mono joins (by decide)⟩

/-- A REPL frame taken: its data is joined, and where it is whole kept as a state snapshot (R319). -/
def replicaTaken (fu : Fuses) (m : Module) (f : Frame) : Module :=
  let data := joinData m.rope.replData f
  let id := moduleId 0 m.ropeJob (leAt f.payload 0 8)
  if data.length != leAt f.payload 16 8 then m.onRope (fun r => { r with replData := data })
  else
    let y := (m.onRope (fun r => { r with replData := data })).onRope (fun r => { r with replData := [] })
    if m.writeRefused 3 id data.length = stOk then y.putObj fu (Obj.named 3 id) data
    else y.event fu 0x0733 [m.ropeJob, leAt f.payload 0 8, m.writeRefused 3 id data.length]

theorem goes_repl (arrives : Arrives s n 11 bytes f) (parent : bondOf n = 0) (rank : (s.m.acceptFrame n f).rank = 1)
    (rope : (s.m.acceptFrame n f).inRope (s.m.acceptFrame n f).ropeJob = true) :
    Goes s (.repl n bytes) (fun k => k = replicaTaken s.fuse (s.m.acceptFrame n f) f) :=
  goes_frame (body := fun fu m b f => if b != 0 || m.rank != 1 || !m.inRope m.ropeJob then m else replicaTaken fu m f) arrives rfl
    (if_neg (by simp [parent, rank, rope]))

theorem replicaTaken_whole (fu : Fuses) {m : Module} (whole : (joinData m.rope.replData f).length = leAt f.payload 16 8) :
    (replicaTaken fu m f).rope.replData = [] ∧
      (m.writeRefused 3 (moduleId 0 m.ropeJob (leAt f.payload 0 8)) (joinData m.rope.replData f).length = stOk →
        ∃ o ∈ (replicaTaken fu m f).store.objs, o.part = 3 ∧ o.id = moduleId 0 m.ropeJob (leAt f.payload 0 8) ∧
          o.data = Mem.cells 0 (joinData m.rope.replData f)) ∧
      KeepsBut [.rope, .store, .od, .log, .report] m (replicaTaken fu m f) := by
  unfold replicaTaken
  dsimp only
  rw [if_neg (by simp [whole])]
  generalize hY : Module.onRope _ (fun r => { r with replData := [] }) = y
  have emptied : y.rope.replData = [] := by rw [← hY]; rfl
  have onlyRope : KeepsBut [.rope] m y := by
    rw [← hY, kb_onRope _ (by decide)]
    exact keeps_onRope m _
  split
  · next kept =>
    have put := keeps_putObj fu y (Obj.named 3 (moduleId 0 m.ropeJob (leAt f.payload 0 8))) (joinData m.rope.replData f)
    refine ⟨?_, fun _ => ?_, keeps_trans (keeps_mono onlyRope (by decide)) (keeps_mono put (by decide))⟩
    · rw [put .rope (by decide)]
      exact emptied
    · obtain ⟨⟨o, stands, part, id, -, -, data⟩, -⟩ :=
        putObj_has fu y 3 (moduleId 0 m.ropeJob (leAt f.payload 0 8)) (joinData m.rope.replData f)
      exact ⟨o, stands, part, id, data⟩
  · next refused =>
    refine ⟨by rw [event_rope]; exact emptied, fun kept => absurd kept refused, ?_⟩
    rw [kb_event _ _ _ (by decide) (by decide) (by decide)]
    exact keeps_mono onlyRope (by decide)

end

/-- Settles O48: each frame in order reaches the body of its type; what that body leaves is said above, type by type. -/
theorem framesActInTheirRope : Obligations.FramesActInTheirRope := by
  intro s n bytes f x j b
  have inside : ∀ {m : Module} {f : Frame}, m.current f = true → m.ropeJob < m.jobs.length := fun current =>
    job_lt (by rw [current_state current]; decide)
  refine ⟨fun within => acceptFrame_rxSeq within f, keeps_accept s.m n f, fun arrives fec => ?_, fun deeper y arrives within => ?_,
    fun ⟨⟨hn, powered, _⟩, _⟩ waits => ?_, fun arrives child runs => ?_, fun arrives child => ?_,
    fun r arrives parent current program => ?_, fun t arrives parent current segment runs first => ?_,
    fun hn powered waits bad => goes_wgtWaits hn powered waits bad,
    fun arrives parent current seen => goes_wgtAgain arrives parent current seen, fun arrives child rope => ?_, fun arrives rope => ?_,
    fun arrives parent rope => goes_snapmark arrives parent rope,
    fun arrives parent rope loaded => goes_resync arrives parent rope loaded, fun arrives parent rank rope => ?_⟩
  · obtain ⟨t, run, fuses, queue, rfl'⟩ := goes_idle arrives fec
    have counted := acceptFrame_bump s.m n f (k := odKey 0x5210 2) fec (by decide) (by decide)
    refine ⟨t, run, fuses, queue, rfl', ?_⟩
    rw [rfl', counted]
    refine ⟨keeps_bump _ _ _, (odGet_bump _ _ _ _).trans ((if_pos rfl).trans ?_)⟩
    rw [odGet_congr (keeps_accept s.m n f .od (by decide))]
  · obtain ⟨t, run, fuses, queue, leaves⟩ := goes_join (deeper := deeper) arrives
    have bonds : b < y.rope.bonds.length := by
      rcases arrives with ⟨-, rfl⟩ | ⟨-, -, -, -, -, -, -, rfl⟩ <;> exact within
    refine ⟨t, run, fuses, queue, fun good => ?_, fun e bad => ?_⟩
    · rw [leaves, good]
      obtain ⟨passed, step⟩ := joinPassed_bond s.fuse bonds deeper f
      exact ⟨passed, step, fun asks joining => joinPassed_deeper s.fuse b f asks joining, joinPassed_keeps s.fuse y b deeper f⟩
    · have failed := bond_onBond_self bonds (fun k => { k with state := 3 })
      rw [leaves, bad]
      change ((joinFailed s.fuse y b e).bond b).state = 3 ∧ KeepsBut [.rope, .od, .log, .report] y (joinFailed s.fuse y b e)
      refine ⟨?_, ?_⟩
      · rw [joinFailed, Module.bond, event_rope, ← Module.bond, failed]
      · rw [joinFailed, kb_event _ _ _ (by decide) (by decide) (by decide)]
        exact keeps_mono (keeps_onBond y b _) (by decide)
  · refine goes_actOn rfl (decide_eq_true hn) powered ?_
    simp only [waits, if_true]
  · obtain ⟨⟨hn, powered, up, parsed, typed, ordered, epoch⟩, rope, fresh⟩ := arrives
    refine goes_actOn rfl (decide_eq_true hn) powered ?_
    simp only [runs, Bool.false_eq_true, if_false]
    rw [receive_arrived up parsed typed ordered epoch]
    simp only [Module.ifFresh, rope, fresh, Bool.and_self, if_true]
    exact if_neg child
  · exact goes_dataFrame (body := fun fu b f m => if b = 0 then m
      else (m.onRope (fun r => { r with trailers := r.trailers ++ [readTrailer f (b - 1)] })).tryTrailer fu f.bucket) arrives rfl
      (if_neg child)
  · obtain ⟨t, run, fuses, queue, leaves⟩ := goes_etab arrives parent current program
    obtain ⟨keeps, others⟩ := putTable_keeps x j (((r.segsOf f.bucket).drop f.segment).take 4096).zipIdx f.payload
    have later := tableTaken_keeps s.fuse x f r
    refine ⟨t, run, fuses, queue, fun i sg below at_ last => ?_, fun i other => ?_, ?_⟩ <;> rw [leaves]
    · exact tableTaken_next s.fuse (inside current) f r below at_ last
    · exact (job_congr (later .jobs (by decide)) i).trans (others i other)
    · exact keeps_trans (keeps_mono keeps (by decide)) (keeps_mono later (by decide))
  · obtain ⟨u, run, fuses, queue, leaves⟩ := goes_wgt arrives parent current segment runs first
    obtain ⟨hbm, others, keeps⟩ := weightsTaken_leaves s.fuse x f t
    obtain ⟨-, -, -, bytes⟩ := broadcasts_writeBroadcast x t.1 t.2 (f.code % 2) f.payload
    rw [← leaves] at hbm others keeps
    refine ⟨u, run, fuses, queue, hbm, fun a away => ?_, others, keeps⟩
    rw [hbm]
    refine bytes a fun ⟨i, below, writes, hit⟩ => ?_
    have apart := away i below writes
    change a ≠ gradAddr (x.job x.ropeJob) { t := t.1, e := halfElem t.2 (f.code % 2) i, code := 0, unit := 0 } ∧
      a ≠ gradAddr (x.job x.ropeJob) { t := t.1, e := halfElem t.2 (f.code % 2) i, code := 0, unit := 0 } + 1 at apart
    simp only [gradAddr] at apart
    unfold span at hit
    omega
  · have stays : ¬(decide (bondOf n = 0) || !(s.m.acceptFrame n f).inRope (s.m.acceptFrame n f).ropeJob) = true := by
      rw [show (s.m.acceptFrame n f).inRope (s.m.acceptFrame n f).ropeJob = true from rope]
      simpa using child
    exact goes_frame (body := fun fu m b f =>
      if b = 0 || !m.inRope m.ropeJob then m
      else
        (m.onRope (fun r => { r with hashes := r.hashes ++ [
          { step := f.step, bucket := f.bucket, input := b - 1, crc := leAt f.payload 0 8, lowest := leAt f.payload 8 8 }] })).tryHash
          fu f.step f.bucket) arrives rfl (if_neg stays)
  · obtain ⟨t, run, fuses, queue, leaves⟩ := goes_abort arrives rope
    refine ⟨t, run, fuses, queue, ?_⟩
    rw [leaves]
    exact ⟨fun code => aborted_breaks s.fuse x b code, fun other clean current => aborted_current s.fuse b other clean current,
      fun other clean waits fresh again => aborted_raises s.fuse b other clean waits fresh again,
      fun other clean stale => aborted_stale s.fuse b other clean stale⟩
  · obtain ⟨t, run, fuses, queue, leaves⟩ := goes_repl arrives parent rank rope
    refine ⟨t, run, fuses, queue, fun more => ?_, fun whole => ?_⟩ <;> rw [leaves]
    · exact if_pos (by simpa using more)
    · exact replicaTaken_whole s.fuse whole

end Sys2Proof.Proofs
end

section
/-!
PROOFS. What the coil store's own work leaves (R403 to R409): relocations, thresholds, flaws that are met and lost pages.
-/
namespace Sys2Proof.Proofs

open Sys2Proof.Machine Sys2Proof.Laws

/-! ### Extents placed -/

/-- The store without what placing extents writes. -/
def unplaced (c : Coil) : Coil :=
  { c with objs := [], pe := [], written := [], openObj := none, openRel := none, formed := [] }

theorem unplaced_openAt (c : Coil) (rel : Bool) (s : Nat) : unplaced (c.openAt rel s) = unplaced c := by
  cases rel <;> rfl

theorem unplaced_alloc (rel : Bool) (fuel : Nat) (c : Coil) (n : Nat) : unplaced (Coil.alloc rel fuel c n).1 = unplaced c := by
  induction fuel generalizing c n with
  | zero => rfl
  | succ fuel ih =>
    rw [Coil.alloc]
    dsimp only
    split
    · rfl
    split
    · split
      · split
        · rfl
        · rw [ih, unplaced_openAt]
      · exact ih _ _
    · split
      · rfl
      · rw [ih, unplaced_openAt]

/-- An object's extents in superblock `s` placed anew. -/
def moveOff (s : Nat) (acc : Coil × List Obj) (o : Obj) : Coil × List Obj :=
  let k := ((o.place.filter (fun p => p.1 == s)).map Prod.snd).sum
  if k = 0 then (acc.1, acc.2 ++ [o])
  else
    let a := acc.1.place true k
    (a.1, acc.2 ++ [{ o with place := o.place.filter (fun p => p.1 != s) ++ a.2 }])

section
variable (m : Module) (s : Nat)

theorem relocate_store : (m.relocate s).store =
    { (m.store.objs.foldl (moveOff s) (m.store, [])).1 with objs := (m.store.objs.foldl (moveOff s) (m.store, [])).2 } := by
  rw [Module.relocate, bump_store]
  rfl

theorem unplaced_relocate : unplaced (m.relocate s).store = unplaced m.store := by
  rw [relocate_store]
  refine List.foldlRecOn (motive := fun acc : Coil × List Obj => unplaced acc.1 = unplaced m.store) m.store.objs (moveOff s) rfl
    (fun acc same o _ => ?_)
  unfold moveOff
  dsimp only
  split
  · exact same
  · exact (unplaced_alloc true _ acc.1 _).trans same

theorem odGet_relocate (k : Nat) : (m.relocate s).odGet k =
    if k = odKey 0x6020 13 then (m.odGet k + flashBytes (m.store.live s)) % 2 ^ 64 else m.odGet k := by
  unfold Module.relocate
  dsimp only
  rw [odGet_bump]
  split
  · next at_ =>
    subst at_
    rfl
  · rfl

end

/-! ### A reclaimed superblock (R409) -/

theorem leastBy_mem {f : Nat → Nat} {l : List Nat} {s : Nat} (least : leastBy f l = some s) : s ∈ l := by
  induction l generalizing s with
  | nil => cases least
  | cons a l ih =>
    rw [leastBy] at least
    split at least
    · cases least
      exact List.mem_cons_self
    · next t inner =>
      split at least <;> cases least
      · exact List.mem_cons_self
      · exact List.mem_cons_of_mem _ (ih inner)

/-- A superblock that no write goes to: neither open nor free. -/
def Closed (s : Nat) (c : Coil) : Prop := c.openObj ≠ some s ∧ c.openRel ≠ some s ∧ 0 < c.live s ∧ 0 < c.written.get s

theorem ne_of_pickFree {c : Coil} {s t : Nat} (closed : Closed s c) (free : c.pickFree = some t) : t ≠ s := by
  rintro rfl
  obtain ⟨-, -, live, written⟩ := closed
  have isFree := (List.mem_filter.1 (leastBy_mem free)).2
  simp only [Coil.isFree, Bool.and_eq_true, Bool.or_eq_true, beq_iff_eq] at isFree
  omega

theorem Closed.openAt {c : Coil} {s t : Nat} (closed : Closed s c) (other : t ≠ s) (rel : Bool) : Closed s (c.openAt rel t) := by
  obtain ⟨obj, relo, live, written⟩ := closed
  have kept : 0 < (c.written.set t 0).get s := by
    rw [get_set, if_neg (Ne.symm other)]
    exact written
  have opened : some t ≠ some s := fun h => other (Option.some.inj h)
  cases rel
  · exact ⟨opened, relo, live, kept⟩
  · exact ⟨obj, opened, live, kept⟩

theorem Closed.opened_ne {c : Coil} {s t : Nat} (closed : Closed s c) {rel : Bool} (opened : c.opened rel = some t) : t ≠ s := by
  rintro rfl
  obtain ⟨obj, relo, -⟩ := closed
  cases rel
  · exact obj opened
  · exact relo opened

theorem Closed.programmed {c : Coil} {s t : Nat} (closed : Closed s c) (other : t ≠ s) (k : Nat) :
    Closed s { c with written := c.written.add t k } := by
  obtain ⟨obj, relo, live, written⟩ := closed
  refine ⟨obj, relo, live, ?_⟩
  rw [get_add, if_neg (Ne.symm other)]
  exact written

/-- No extent is placed in a closed superblock, and it stays closed. -/
theorem Closed.alloc {s : Nat} {c : Coil} (closed : Closed s c) (rel : Bool) (fuel n : Nat) :
    Closed s (Coil.alloc rel fuel c n).1 ∧ ∀ p ∈ (Coil.alloc rel fuel c n).2, p.1 ≠ s := by
  induction fuel generalizing c n with
  | zero => exact ⟨closed, nofun⟩
  | succ fuel ih =>
    rw [Coil.alloc]
    dsimp only
    split
    · exact ⟨closed, nofun⟩
    split
    · next t opened =>
      have other := closed.opened_ne opened
      split
      · split
        · exact ⟨closed, nofun⟩
        · next free => exact ih (closed.openAt (ne_of_pickFree closed free) rel) n
      · obtain ⟨still, rest⟩ := ih (closed.programmed other _) (n - min n (c.cap t - c.written.get t))
        exact ⟨still, List.forall_mem_cons.2 ⟨other, rest⟩⟩
    · split
      · exact ⟨closed, nofun⟩
      · next free => exact ih (closed.openAt (ne_of_pickFree closed free) rel) n

/-- Extents of an object in a superblock. -/
def extentsIn (s : Nat) (o : Obj) : Nat := ((o.place.filter (fun p => p.1 == s)).map Prod.snd).sum

theorem live_eq_zero {s : Nat} {c : Coil} (none : ∀ o ∈ c.objs, extentsIn s o = 0) : c.live s = 0 := by
  rw [Coil.live, List.sum_eq_zero_iff]
  intro n hn
  obtain ⟨o, ho, hn⟩ := List.mem_flatMap.1 hn
  exact List.sum_eq_zero_iff.1 (none o ho) n hn

/-- A closed superblock whose live extents move holds none afterwards. -/
theorem live_relocate {m : Module} {s : Nat} (closed : Closed s m.store) : (m.relocate s).store.live s = 0 := by
  rw [relocate_store]
  refine live_eq_zero (And.right (List.foldlRecOn (motive := fun acc : Coil × List Obj => Closed s acc.1 ∧ ∀ o ∈ acc.2, extentsIn s o = 0)
    m.store.objs (moveOff s) ⟨closed, nofun⟩ (fun acc inv o _ => ?_)))
  obtain ⟨closed, gone⟩ := inv
  unfold moveOff
  dsimp only
  split
  · next none => exact ⟨closed, List.forall_mem_append.2 ⟨gone, List.forall_mem_singleton.2 none⟩⟩
  · obtain ⟨still, away⟩ := closed.alloc true _ _
    refine ⟨still, List.forall_mem_append.2 ⟨gone, List.forall_mem_singleton.2 ?_⟩⟩
    rw [extentsIn, List.filter_append, List.filter_filter, List.filter_eq_nil_iff.2, List.filter_eq_nil_iff.2]
    · rfl
    · exact fun p hp => by simpa using away p hp
    · exact fun p _ => by simp

/-! ### Thresholds and pins (R406, R412) -/

section
variable (fu : Fuses) (m : Module)

theorem judgePins_store : ∃ v, (m.judgePins fu).store = { m.store with pinsOverridden := v } := by
  unfold Module.judgePins
  dsimp only
  split
  · split
    · exact ⟨false, rfl⟩
    · exact ⟨m.store.pinsOverridden, rfl⟩
  split
  · exact ⟨true, by rw [reason_store, event_store]; rfl⟩
  · exact ⟨m.store.pinsOverridden, rfl⟩

/-- Judging the thresholds marks the pins in the store, and nothing else. -/
theorem checkStore_store (old : Coil) : ∃ v, (m.checkStore fu old).store = { m.store with pinsOverridden := v } := by
  obtain ⟨y, judged, keeps⟩ := checkStore_pins fu m old
  obtain ⟨v, store⟩ := judgePins_store fu y
  have same := keeps .store (by decide)
  rw [same] at store
  exact ⟨v, judged ▸ store⟩

theorem odGet_judgePins {k : Nat} (hk : k ∉ readKeys) : (m.judgePins fu).odGet k = m.odGet k := by
  have marked : ∀ v, (m.onStore (fun c => { c with pinsOverridden := v })).odGet k = m.odGet k := fun _ => rfl
  unfold Module.judgePins
  dsimp only
  split
  · split
    · exact marked false
    · rfl
  split
  · rw [odGet_reason fu _ hk, odGet_event_readKeys fu _ hk]
    exact marked true
  · rfl

/-- A threshold's event and its replace reason. -/
theorem odGet_crossed {k : Nat} (hk : k ∉ readKeys) (p : Prop) [Decidable p] (c bit : Nat) (l figures : List Nat) :
    (if p then (m.event fu c l).reason fu bit figures else m).odGet k = m.odGet k := by
  split
  · rw [odGet_reason fu _ hk, odGet_event_readKeys fu _ hk]
  · rfl

/-- The thresholds leave every value but those of reports; a mounted store may become READ_ONLY. -/
theorem odGet_checkStore (old : Coil) {k : Nat} (hk : k ∉ readKeys) : (m.checkStore fu old).odGet k = m.odGet k ∨
    k = odKey 0x6000 2 ∧ m.odGet k = 2 ∧ (m.checkStore fu old).odGet k = 3 := by
  unfold Module.checkStore
  dsimp only
  rw [odGet_judgePins fu _ hk]
  generalize spare : (if (decide (m.store.spare < 16937) && decide (16937 ≤ old.spare)) = true then _ else m) = A
  generalize wear : (if (decide (9000 < m.store.meanWear) && decide (old.meanWear ≤ 9000)) = true then _ else A) = B
  have same : ∀ {i}, i ∉ readKeys → B.odGet i = m.odGet i := fun hi => by
    rw [← wear, odGet_crossed fu _ hi, ← spare, odGet_crossed fu _ hi]
  split
  · next below =>
    simp only [Bool.and_eq_true, beq_iff_eq, Module.coilState, same (show odKey 0x6000 2 ∉ readKeys by decide)] at below
    obtain ⟨-, mounted⟩ := below
    rw [odGet_event_readKeys fu _ hk, odGet_odSet]
    by_cases at_ : k = odKey 0x6000 2
    · subst at_
      exact .inr ⟨rfl, mounted, if_pos rfl⟩
    · rw [if_neg at_, same hk]
      exact .inl rfl
  · exact .inl (same hk)

end

/-! ### The store's state (R404, R412) -/

/-- The store's state is as it was, or READ_ONLY where it was MOUNTED. -/
def Tighter (m n : Module) : Prop := n.coilState = m.coilState ∨ m.coilState = 2 ∧ n.coilState = 3

theorem tighter_refl (m : Module) : Tighter m m := .inl rfl

theorem tighter_of_od {m n : Module} (same : n.odGet (odKey 0x6000 2) = m.odGet (odKey 0x6000 2)) : Tighter m n := .inl same

theorem tighter_trans {a b c : Module} (ab : Tighter a b) (bc : Tighter b c) : Tighter a c := by
  unfold Tighter at *
  omega

section
variable (fu : Fuses) (m : Module)

theorem tighter_relocate (s : Nat) : Tighter m (m.relocate s) :=
  tighter_of_od ((odGet_relocate m s _).trans (if_neg (by decide)))

theorem tighter_event (c : Nat) (l : List Nat) : Tighter m (m.event fu c l) :=
  tighter_of_od (odGet_event fu m c l _ (by decide))

theorem tighter_checkStore (old : Coil) : Tighter m (m.checkStore fu old) :=
  (odGet_checkStore fu m old (k := odKey 0x6000 2) (by decide)).imp id And.right

end

/-! ### The store's own work -/

/-- The store without what its own work writes of it. -/
def steady (c : Coil) : Coil := { unplaced c with bad := [], flaws := [], pinsOverridden := false }

/-- The store's own work leaves the rest of the store, and its state but for R412. -/
def Steady (m n : Module) : Prop := steady n.store = steady m.store ∧ Tighter m n

theorem Steady.refl (m : Module) : Steady m m := ⟨rfl, tighter_refl m⟩

theorem Steady.trans {a b c : Module} (ab : Steady a b) (bc : Steady b c) : Steady a c :=
  ⟨bc.1.trans ab.1, tighter_trans ab.2 bc.2⟩

theorem Steady.failedDies {m n : Module} (same : Steady m n) : n.store.failedDies = m.store.failedDies := by
  have failed := congrArg Coil.failedDies same.1
  exact failed

theorem Steady.catchUp {m n : Module} (same : Steady m n) : n.store.catchUp = m.store.catchUp := by
  have scanned := congrArg Coil.catchUp same.1
  exact scanned

section
variable (fu : Fuses) (m : Module)

theorem steady_of_unplaced {c d : Coil} (same : unplaced d = unplaced c) : steady d = steady c :=
  congrArg (fun e : Coil => { e with bad := [], flaws := [], pinsOverridden := false }) same

theorem steady_relocate (s : Nat) : Steady m (m.relocate s) :=
  ⟨steady_of_unplaced (unplaced_relocate m s), tighter_relocate m s⟩

theorem steady_checkStore (old : Coil) : Steady m (m.checkStore fu old) := by
  obtain ⟨v, store⟩ := checkStore_store fu m old
  exact ⟨by rw [store]; rfl, tighter_checkStore fu m old⟩

theorem steady_event (c : Nat) (l : List Nat) : Steady m (m.event fu c l) :=
  ⟨by rw [event_store], tighter_event fu m c l⟩

theorem steady_retireBlock (die block cause : Nat) : Steady m (m.retireBlock fu die block cause) := by
  have closed : ∀ (f : Coil → Coil), (∀ c, steady (f c) = steady c) → Steady m (m.onStore f) := fun f same => ⟨same m.store, .inl rfl⟩
  unfold Module.retireBlock
  dsimp only
  split
  · exact Steady.refl m
  refine Steady.trans (Steady.trans ?_ (steady_event fu _ _ _)) (steady_checkStore fu _ _)
  split
  · exact (closed _ (by exact fun _ => rfl)).trans (steady_relocate _ _)
  · exact closed _ (by exact fun _ => rfl)

theorem steady_pageRebuilt (part die block page : Nat) : Steady m (m.pageRebuilt fu part die block page) := by
  have counted : Steady m (m.bump (odKey 0x6020 8) 1) := ⟨by rw [bump_store], tighter_of_od (by rw [odGet_bump, if_neg (by decide)])⟩
  exact (counted.trans (steady_event fu _ _ _)).trans (steady_retireBlock fu _ _ _ _)

theorem steady_meetFlaws (wrote read : Coil → Nat → Bool) (n : Nat) (m : Module) : Steady m (Module.meetFlaws fu wrote read n m) := by
  induction n generalizing m with
  | zero => exact Steady.refl m
  | succ n ih =>
    rw [Module.meetFlaws]
    dsimp only
    split
    · exact Steady.refl m
    · next f _ =>
      have met : Steady m (m.onStore (fun c => { c with flaws := c.flaws.filter (· != f) })) := ⟨rfl, .inl rfl⟩
      refine Steady.trans (met.trans ?_) (ih _)
      split
      · exact steady_retireBlock fu _ _ _ _
      · exact steady_pageRebuilt fu _ _ _ _ _

theorem steady_afterWork (old : Coil) : Steady m (m.afterWork fu old) := steady_meetFlaws fu _ _ _ m

/-- Without flaws in the array, work meets none. -/
theorem afterWork_of_sound {m : Module} (sound : m.store.flaws = []) (old : Coil) : m.afterWork fu old = m := by
  rw [Module.afterWork, sound]
  rfl

theorem steady_foldl {α : Type} {f : Module → α → Module} (each : ∀ m a, Steady m (f m a)) (l : List α) : Steady m (l.foldl f m) :=
  List.foldlRecOn (motive := Steady m) l f (Steady.refl m) (fun x same a _ => same.trans (each x a))

theorem steady_leaveDies : Steady m m.leaveDies := steady_foldl m steady_relocate _

theorem sameObjects_leaveDies : SameObjects m m.leaveDies := sameObjects_foldl _ sameObjects_relocate _ m

theorem keeps_leaveDies : KeepsBut [.store, .od] m m.leaveDies := kb_foldl _ _ keeps_relocate m

/-! ### Lost pages (R402, R404) -/

theorem steady_pageLost (part id granule count dies : Nat) : Steady m (m.pageLost fu part id granule count dies) := by
  refine Steady.trans ⟨?_, tighter_of_od ?_⟩ (steady_event fu _ _ _)
  · rw [bump_store]
    rfl
  · rw [odGet_bump, if_neg (by decide)]
    rfl

/-- An object without its place and its poison. -/
def contentOf (o : Obj) : Obj := { o with place := [], poison := [] }

theorem content_pageLost (part id granule count dies : Nat) :
    (m.pageLost fu part id granule count dies).store.objs.map contentOf = m.store.objs.map contentOf := by
  simp only [Module.pageLost, event_store, bump_store, store_onStore, List.map_map]
  refine List.map_congr_left (fun o _ => ?_)
  simp only [Function.comp]
  split <;> rfl

theorem content_of_sameObjects {m n : Module} (same : SameObjects m n) :
    n.store.objs.map contentOf = m.store.objs.map contentOf := by
  have blanked := congrArg (List.map (fun o : Obj => { o with poison := [] })) same
  rw [List.map_map, List.map_map] at blanked
  exact blanked

/-- What holds of every lost page holds of them all. -/
theorem losePages_rec {P : Module → Prop} (each : ∀ n part id granule count dies, P n → P (n.pageLost fu part id granule count dies))
    (start : P m) : P (m.losePages fu) := by
  refine List.foldlRecOn (motive := P) _ _ start (fun n hn o _ => List.foldlRecOn (motive := P) _ _ hn (fun x hx p _ => ?_))
  split
  · exact hx
  · exact each x _ _ _ _ _ hx

end

theorem groupDies_div {k d : Nat} (hd : d ∈ groupDies k) : d / 16 = k := by
  obtain ⟨c, hc, rfl⟩ := List.mem_map.1 hd
  have := List.mem_range.1 hc
  simp only [dieAt]
  omega

theorem groupDies_nodup (k : Nat) : (groupDies k).Nodup :=
  List.nodup_range.map (fun a b h => by simpa [dieAt] using h)

/-- A superblock has lost no more dies of a group than have failed. -/
theorem failedIn_length_le (c : Coil) (s k : Nat) : (c.failedIn s k).length ≤ c.failedDies.countP (fun d => d / 16 == k) := by
  rw [List.countP_eq_length_filter]
  refine (List.subperm_of_subset ((groupDies_nodup k).filter _) (fun d hd => ?_)).length_le
  obtain ⟨group, failed⟩ := List.mem_filter.1 hd
  simp only [Bool.and_eq_true, List.contains_iff_mem] at failed
  exact List.mem_filter.2 ⟨failed.1, by simp [groupDies_div group]⟩

theorem pageAt_die {c : Coil} {o : Obj} {q : Nat} {p : Nat × Nat × Nat} (at_ : c.pageAt o q = some p) : p.2.1 < 64 := by
  obtain ⟨s, -, at_⟩ := Option.bind_eq_some_iff.1 at_
  obtain ⟨d, found, rfl⟩ := Option.map_eq_some_iff.1 at_
  exact List.mem_range.1 (List.mem_filter.1 (List.mem_of_getElem? found)).1

/-- No page is lost while each group has at most one failed die. -/
theorem failedPages_eq_nil {c : Coil} (whole : c.groupLost = false) (o : Obj) : c.failedPages o 2 = [] := by
  rw [Coil.failedPages, List.filterMap_eq_nil_iff]
  intro q _
  rw [Option.bind_eq_none_iff]
  intro p at_
  rw [if_neg]
  rintro lost
  simp only [Bool.and_eq_true, decide_eq_true_eq] at lost
  have group := Nat.le_trans lost.2 (failedIn_length_le c p.1 (p.2.1 / 16))
  have die := pageAt_die at_
  have said := List.any_eq_false.1 whole (p.2.1 / 16) (List.mem_range.2 (by omega))
  simp only [decide_eq_true_eq] at said
  exact said group

theorem losePages_of_whole (fu : Fuses) {m : Module} (whole : m.store.groupLost = false) : m.losePages fu = m := by
  refine List.foldlRecOn (motive := fun n => n = m) _ _ rfl (fun n same o _ => ?_)
  subst same
  rw [failedPages_eq_nil whole]
  rfl

end Sys2Proof.Proofs
end

section
/-!
PROOFS. The coil store's own work (R397 to R411), and the copies of the record and of the format record (R465, R492, R493).
-/
namespace Sys2Proof.Proofs

open Sys2Proof.Machine Sys2Proof.Laws

theorem keeps_save (m : Module) (k : Nat) : KeepsBut [.saved] m (m.save k) := by
  intro part hpart
  cases part <;> simp_all [Part.same, Module.save]

/-! ### The retention scan (R407) -/

section
variable (fu : Fuses) (m : Module)

theorem sameObjects_softDecoded (die block : Nat) : SameObjects m (m.softDecoded fu die block) := by
  unfold Module.softDecoded
  dsimp only
  split
  · exact sameObjects_retire fu m _ _ _
  · exact same_objs rfl

theorem keeps_softDecoded (die block : Nat) : KeepsBut (.store :: reporting) m (m.softDecoded fu die block) := by
  unfold Module.softDecoded
  exact keeps_ite (keeps_retireBlock fu m _ _ _) (keeps_mono (keeps_onStore m _) (by decide))

theorem sameObjects_rewriteSystem (die block : Nat) : SameObjects m (m.rewriteSystem die block) := by
  unfold Module.rewriteSystem
  dsimp only
  split <;> exact same_objs rfl

theorem keeps_rewriteSystem (die block : Nat) : KeepsBut (.store :: reporting) m (m.rewriteSystem die block) := by
  have counted := keeps_bump m (odKey 0x6020 13) (slcPages * pageBytes)
  unfold Module.rewriteSystem
  exact keeps_ite (keeps_trans (keeps_mono counted (by decide)) (keeps_mono (keeps_onStore _ _) (by decide)))
    (keeps_mono counted (by decide))

theorem sameObjects_rewriteSuper (s worst : Nat) : SameObjects m (m.rewriteSuper fu s worst) := by
  unfold Module.rewriteSuper
  dsimp only
  generalize closed : m.onStore _ = x
  have same : SameObjects m x := same_objs (by rw [← closed]; rfl)
  exact sameObjects_trans same (sameObjects_trans (sameObjects_relocate x s) (same_objs (by rw [event_store, bump_store])))

theorem keeps_rewriteSuper (s worst : Nat) : KeepsBut (.store :: reporting) m (m.rewriteSuper fu s worst) := by
  unfold Module.rewriteSuper
  rw [kb_event _ _ _ (by decide) (by decide) (by decide), kb_bump _ _ (by decide)]
  exact keeps_trans (keeps_mono (keeps_onStore m _) (by decide)) (keeps_mono (keeps_relocate _ s) (by decide))

end

/-- A superblock whose stale extents are collected is closed. -/
theorem closed_of_stale {c : Coil} {sb : Nat} {l : List Nat}
    (least : leastBy c.live (l.filter (fun s => c.openObj != some s && c.openRel != some s && decide (0 < c.live s) &&
      decide (c.live s < c.written.get s))) = some sb) : Closed sb c := by
  have stale := (List.mem_filter.1 (leastBy_mem least)).2
  simp only [Bool.and_eq_true, bne_iff_ne, decide_eq_true_eq] at stale
  obtain ⟨⟨⟨obj, relo⟩, live⟩, written⟩ := stale
  exact ⟨obj, relo, live, Nat.lt_trans live written⟩

section
variable {s : State} (powered : s.m.powered = true)
include powered

theorem goes_retentionScan_of_clean (serves : s.m.storeReads = true) {corrected : Nat} (clean : corrected ≤ s.m.odGet (odKey 0x6020 16)) :
    Goes s (.retentionScan corrected 0 []) (fun n =>
      n.store.scanAt = (if s.m.store.scanAt + 1 = scanPages then 0 else s.m.store.scanAt + 1) ∧ n.store.objs = s.m.store.objs ∧
      KeepsBut [.store] s.m n) := by
  refine goes_actOn rfl rfl powered ?_
  have stays : (!(decide (s.m.odGet (odKey 0x6020 16) < corrected) || decide (0 < 0))) = true := by simpa using clean
  simp only [serves, Bool.not_true, Bool.false_eq_true, if_false, Module.programs, List.foldl_nil, show ¬ (0 = 2) by decide, stays, if_true,
    beq_iff_eq]
  exact ⟨rfl, rfl, keeps_onStore _ _⟩

theorem goes_retentionScan (serves : s.m.storeReads = true) (corrected retry : Nat) :
    Goes s (.retentionScan corrected retry []) (fun n => SameObjects s.m n ∧ KeepsBut (.store :: reporting) s.m n) := by
  refine goes_actOn rfl rfl powered ?_
  rw [if_neg (by simp [serves])]
  dsimp only
  rw [show s.m.programs s.fuse [] = s.m from rfl]
  generalize soft : (if retry = 2 then _ else s.m) = x
  have decoded : SameObjects s.m x ∧ KeepsBut (.store :: reporting) s.m x := by
    subst soft
    split
    · exact ⟨sameObjects_softDecoded s.fuse s.m _ _, keeps_softDecoded s.fuse s.m _ _⟩
    · exact ⟨same_objs rfl, keeps_refl _ _⟩
  generalize rewrite : (if (!(decide (x.odGet (odKey 0x6020 16) < corrected) || decide (0 < retry))) = true then x else _) = y
  have rewritten : SameObjects x y ∧ KeepsBut (.store :: reporting) x y := by
    subst rewrite
    split
    · exact ⟨same_objs rfl, keeps_refl _ _⟩
    split
    · exact ⟨sameObjects_rewriteSystem x _ _, keeps_rewriteSystem x _ _⟩
    · exact ⟨sameObjects_trans (sameObjects_rewriteSuper s.fuse x _ _) (sameObjects_afterWork s.fuse _ _),
        keeps_trans (keeps_rewriteSuper s.fuse x _ _) (keeps_mono (keeps_afterWork s.fuse _ _) (by decide))⟩
  exact ⟨sameObjects_trans decoded.1 (sameObjects_trans rewritten.1 (same_objs rfl)),
    keeps_trans decoded.2 (keeps_trans rewritten.2 (keeps_mono (keeps_onStore _ _) (by decide)))⟩

/-! ### Levelling, collection and failed dies (R404, R405, R409) -/

theorem goes_staticLevelling (mounted : s.m.coilState = 2) :
    Goes s .staticLevelling (fun n => SameObjects s.m n ∧ KeepsBut (.store :: reporting) s.m n) := by
  refine goes_actOn rfl rfl powered ?_
  have judged : SameObjects s.m (s.m.judgePins s.fuse) ∧ KeepsBut (.store :: reporting) s.m (s.m.judgePins s.fuse) :=
    ⟨same_objs (objs_judgePins s.fuse s.m), keeps_judgePins s.fuse s.m⟩
  simp only [mounted, bne_self_eq_false, Bool.false_eq_true, if_false]
  split
  · exact judged
  split
  · next cold worn _ _ =>
    generalize s.m.judgePins s.fuse = x at judged ⊢
    have opened : SameObjects x (x.onStore (fun c => c.openAt true worn)) := same_objs rfl
    have moved := sameObjects_relocate (x.onStore (fun c => c.openAt true worn)) cold
    refine ⟨sameObjects_trans judged.1 (sameObjects_trans opened (sameObjects_trans moved
      (sameObjects_trans (same_objs (objs_checkStore s.fuse _ _)) (sameObjects_afterWork s.fuse _ _)))), ?_⟩
    refine keeps_trans judged.2 (keeps_trans ?_ (keeps_mono (keeps_afterWork s.fuse _ _) (by decide)))
    refine keeps_trans ?_ (keeps_mono (keeps_checkStore s.fuse _ _) (by decide))
    exact keeps_trans (keeps_mono (keeps_onStore x _) (by decide)) (keeps_mono (keeps_relocate _ cold) (by decide))
  · exact judged

theorem goes_garbageCollection (mounted : s.m.coilState = 2) {sb : Nat}
    (least : leastBy s.m.store.live (superblocks.filter (fun t => s.m.store.openObj != some t && s.m.store.openRel != some t &&
      decide (0 < s.m.store.live t) && decide (s.m.store.live t < s.m.store.written.get t))) = some sb) :
    Goes s (.garbageCollection []) (fun n =>
      SameObjects s.m n ∧
      (s.m.store.flaws = [] → n.store.live sb = 0 ∧
        n.odGet (odKey 0x6020 13) = (s.m.odGet (odKey 0x6020 13) + flashBytes (s.m.store.live sb)) % 2 ^ 64) ∧
      KeepsBut (.store :: reporting) s.m n) := by
  refine goes_actOn rfl rfl powered ?_
  simp only [mounted, bne_self_eq_false, Bool.false_eq_true, if_false, least, Module.programs, List.foldl_nil]
  have moved := sameObjects_relocate s.m sb
  obtain ⟨v, judged⟩ := checkStore_store s.fuse (s.m.relocate sb) s.m.store
  refine ⟨sameObjects_trans moved (sameObjects_trans (same_objs (objs_checkStore s.fuse _ _)) (sameObjects_afterWork s.fuse _ _)),
    fun sound => ?_, ?_⟩
  · have still : ((s.m.relocate sb).checkStore s.fuse s.m.store).store.flaws = [] := by
      have flaws := congrArg Coil.flaws (unplaced_relocate s.m sb)
      rw [judged]
      exact flaws.trans sound
    rw [afterWork_of_sound s.fuse still]
    refine ⟨?_, ?_⟩
    · rw [judged]
      exact live_relocate (closed_of_stale least)
    · rcases odGet_checkStore s.fuse (s.m.relocate sb) s.m.store (k := odKey 0x6020 13) (by decide) with same | ⟨at_, -⟩
      · rw [same, odGet_relocate, if_pos rfl]
      · exact absurd at_ (by decide)
  · refine keeps_trans ?_ (keeps_mono (keeps_afterWork s.fuse _ _) (by decide))
    exact keeps_trans (keeps_mono (keeps_relocate s.m sb) (by decide)) (keeps_mono (keeps_checkStore s.fuse _ _) (by decide))

end

/-- The module with a further failed die, its pages lost and its superblocks left (R404). -/
def dieLeft (fu : Fuses) (m : Module) (die : Nat) : Module :=
  let m := m.onStore (fun c => { c with failedDies := c.failedDies ++ [die], openObj := none, openRel := none })
  let m := m.losePages fu
  let m := if m.coilState = 2 then m.leaveDies else m
  m.event fu 0x060A [die, 0]

/-- A second failed die of a group makes a mounted store READ_ONLY (R404). -/
def tightened (fu : Fuses) (m : Module) : Module :=
  if m.store.groupLost && m.coilState == 2 then (m.odSet (odKey 0x6000 2) 3).event fu 0x0609 [1] else m

section
variable (fu : Fuses) (m : Module) (die : Nat)

/-- What a further failed die leaves: the contents of the objects, their poison too where no group lost two, and the store's state. -/
theorem dieLeft_leaves :
    (dieLeft fu m die).store.failedDies = m.store.failedDies ++ [die] ∧ (dieLeft fu m die).coilState = m.coilState ∧
    (dieLeft fu m die).store.objs.map contentOf = m.store.objs.map contentOf ∧
    ((dieLeft fu m die).store.groupLost = false → SameObjects m (dieLeft fu m die)) ∧
    KeepsBut (.store :: reporting) m (dieLeft fu m die) := by
  unfold dieLeft
  dsimp only
  generalize start : m.onStore (fun c => { c with failedDies := c.failedDies ++ [die], openObj := none, openRel := none }) = x
  have failed : x.store.failedDies = m.store.failedDies ++ [die] := by rw [← start]; rfl
  have objs : x.store.objs = m.store.objs := by rw [← start]; rfl
  have state : x.coilState = m.coilState := by rw [← start]; rfl
  have base : KeepsBut (.store :: reporting) m x := by
    rw [← start]
    exact keeps_mono (keeps_onStore m _) (by decide)
  have lost : (x.losePages fu).store.failedDies = x.store.failedDies ∧ (x.losePages fu).coilState = x.coilState ∧
      (x.losePages fu).store.objs.map contentOf = x.store.objs.map contentOf ∧ KeepsBut (.store :: reporting) x (x.losePages fu) := by
    refine losePages_rec fu x (P := fun n => n.store.failedDies = x.store.failedDies ∧ n.coilState = x.coilState ∧
      n.store.objs.map contentOf = x.store.objs.map contentOf ∧ KeepsBut (.store :: reporting) x n) ?_ ⟨rfl, rfl, rfl, keeps_refl _ _⟩
    rintro n part id granule count dies ⟨failed, state, content, keeps⟩
    refine ⟨(steady_pageLost fu n part id granule count dies).failedDies.trans failed, Eq.trans ?_ state,
      (content_pageLost fu n part id granule count dies).trans content, keeps_trans keeps (keeps_pageLost fu n part id granule count dies)⟩
    simp only [Module.coilState, Module.pageLost]
    rw [odGet_event _ _ _ _ _ (by decide), odGet_bump, if_neg (by decide)]
    rfl
  have whole : x.store.groupLost = false → x.losePages fu = x := fun h => losePages_of_whole fu h
  generalize x.losePages fu = y at lost whole ⊢
  obtain ⟨lostDies, lostState, lostContent, lostKeeps⟩ := lost
  generalize left : (if y.coilState = 2 then y.leaveDies else y) = z
  have leaves : z.store.failedDies = y.store.failedDies ∧ z.coilState = y.coilState ∧ SameObjects y z ∧
      KeepsBut (.store :: reporting) y z := by
    subst left
    split
    · refine ⟨(steady_leaveDies y).failedDies, ?_, sameObjects_leaveDies y, keeps_mono (keeps_leaveDies y) (by decide)⟩
      refine List.foldlRecOn (motive := fun n : Module => n.coilState = y.coilState) _ _ rfl (fun n same s _ => Eq.trans ?_ same)
      exact (odGet_relocate n s _).trans (if_neg (by decide))
    · exact ⟨rfl, rfl, same_objs rfl, keeps_refl _ _⟩
  obtain ⟨leftDies, leftState, leftObjs, leftKeeps⟩ := leaves
  have dies : z.store.failedDies = x.store.failedDies := leftDies.trans lostDies
  rw [event_store]
  refine ⟨dies.trans failed, ?_, ?_, fun unharmed => ?_, ?_⟩
  · rw [Module.coilState, odGet_event _ _ _ _ _ (by decide)]
    exact leftState.trans (lostState.trans state)
  · rw [content_of_sameObjects leftObjs, lostContent, objs]
  · have same : x.store.groupLost = false := by
      rw [Coil.groupLost, ← dies]
      exact unharmed
    rw [whole same] at leftObjs
    refine sameObjects_trans (same_objs objs) (sameObjects_trans leftObjs (same_objs ?_))
    rw [event_store]
  · rw [kb_event _ _ _ (by decide) (by decide) (by decide)]
    exact keeps_trans base (keeps_trans lostKeeps leftKeeps)

theorem tightened_store : (tightened fu m).store = m.store := by
  unfold tightened
  split
  · rw [event_store]
    rfl
  · rfl

theorem keeps_tightened : KeepsBut (.store :: reporting) m (tightened fu m) := by
  unfold tightened
  exact keeps_ite (by simp [reporting, keeps_refl]) (keeps_refl _ _)

theorem coilState_tightened (mounted : m.coilState = 2) (lost : m.store.groupLost = true) : (tightened fu m).coilState = 3 := by
  rw [tightened, if_pos (by simp [lost, mounted]), Module.coilState, odGet_event _ _ _ _ _ (by decide), odGet_odSet, if_pos rfl]

end

section
variable {s : State} (powered : s.m.powered = true)
include powered

omit powered in
theorem exec_nandDieFailure (die : Nat) : exec (.nandDieFailure die 0) s = s.actOn (die < 64) (fun fu m =>
    if (m.store.failedDies.contains die || decide (1 < 0) ||
        (0 == 1 && decide (m.store.bad.countP (fun b => b / 16384 == die) < 64))) = true then m
    else ((tightened fu (dieLeft fu m die)).checkStore fu m.store).afterWork fu m.store) := by
  change execNandDieFailure die 0 s = _
  unfold execNandDieFailure tightened dieLeft
  dsimp only

theorem goes_nandDieFailure (mounted : s.m.coilState = 2) {die : Nat} (hdie : die < 64) (sound : die ∉ s.m.store.failedDies) :
    Goes s (.nandDieFailure die 0) (fun n =>
      (n.store.groupLost = false → SameObjects s.m n) ∧
      n.store.objs.map (fun o => { o with place := [], poison := [] }) = s.m.store.objs.map (fun o => { o with place := [], poison := [] }) ∧
      n.store.failedDies = s.m.store.failedDies ++ [die] ∧
      (n.store.groupLost = true → n.coilState = 3) ∧ KeepsBut (.store :: reporting) s.m n) := by
  refine goes_actOn (exec_nandDieFailure die) (decide_eq_true hdie) powered ?_
  have proceeds : ¬ ((s.m.store.failedDies.contains die || decide (1 < 0) ||
      (0 == 1 && decide (s.m.store.bad.countP (fun b => b / 16384 == die) < 64))) = true) := by simpa using sound
  rw [if_neg proceeds]
  obtain ⟨failed, state, content, objs, keeps⟩ := dieLeft_leaves s.fuse s.m die
  generalize tight : tightened s.fuse (dieLeft s.fuse s.m die) = x
  generalize result : (x.checkStore s.fuse s.m.store).afterWork s.fuse s.m.store = n
  have same : SameObjects x n := result ▸ sameObjects_trans (same_objs (objs_checkStore s.fuse x _)) (sameObjects_afterWork s.fuse _ _)
  have work : Steady x n := result ▸ (steady_checkStore s.fuse x _).trans (steady_afterWork s.fuse _ _)
  have worked : KeepsBut (.store :: reporting) x n := result ▸ keeps_trans (keeps_mono (keeps_checkStore s.fuse x _) (by decide))
    (keeps_mono (keeps_afterWork s.fuse _ _) (by decide))
  have store : x.store = (dieLeft s.fuse s.m die).store := by rw [← tight, tightened_store]
  have dies : n.store.failedDies = (dieLeft s.fuse s.m die).store.failedDies := by rw [work.failedDies, store]
  have groups : n.store.groupLost = (dieLeft s.fuse s.m die).store.groupLost := by rw [Coil.groupLost, dies, Coil.groupLost]
  refine ⟨fun unharmed => ?_, ?_, dies.trans failed, fun lost => ?_, ?_⟩
  · exact sameObjects_trans (objs (groups.symm.trans unharmed)) (sameObjects_trans (same_objs (congrArg Coil.objs store)) same)
  · have stored : x.store.objs.map contentOf = (dieLeft s.fuse s.m die).store.objs.map contentOf := by rw [store]
    exact (content_of_sameObjects same).trans (stored.trans content)
  · have readOnly : x.coilState = 3 := by
      rw [← tight]
      exact coilState_tightened s.fuse _ (state.trans mounted) (groups.symm.trans lost)
    rcases work.2 with kept | ⟨mounted, -⟩
    · exact kept.trans readOnly
    · omega
  · exact keeps_trans keeps (keeps_trans (tight ▸ keeps_tightened s.fuse _) worked)

end

end Sys2Proof.Proofs
end

section
/-!
PROOFS. Mount and unmount (R411), REPAIR updates (R397) and the copies of the record (R465, R492, R493).
-/
namespace Sys2Proof.Proofs

open Sys2Proof.Machine Sys2Proof.Laws

/-! ### Records that are copied (R493) -/

theorem keeps_saveSeqs (m : Module) : KeepsBut [.saved] m m.saveSeqs := keeps_trans (keeps_save m _) (keeps_save _ _)

theorem keeps_withLog (m : Module) (l : Log) : KeepsBut [.log] m { m with log := l } := by
  intro part hpart
  cases part <;> simp_all [Part.same]

/-- A copy of the ring leaves the store, and nothing in the ring. -/
theorem copyToPart_leaves (m : Module) :
    m.copyToPart.log = { m.log with part := fitBytes (2048 * extentBytes) (m.log.part ++ m.log.ring), ring := [] } ∧
    m.copyToPart.store = m.store ∧ KeepsBut [.log, .od, .saved] m m.copyToPart := by
  have copied : ∀ l, KeepsBut [.log, .od, .saved] m { m with log := l } := fun l => keeps_mono (keeps_withLog m l) (by decide)
  unfold Module.copyToPart
  dsimp only
  generalize fitBytes (2048 * extentBytes) (m.log.part ++ m.log.ring) = part
  cases part with
  | nil => exact ⟨rfl, rfl, keeps_trans (copied _) (keeps_mono (keeps_saveSeqs _) (by decide))⟩
  | cons r rs =>
    exact ⟨rfl, rfl, keeps_trans (copied _) (keeps_trans (keeps_mono (keeps_odSet _ _ _) (by decide)) (keeps_mono (keeps_saveSeqs _) (by decide)))⟩

theorem sameObjects_meetFlaws (fu : Fuses) (wrote read : Coil → Nat → Bool) (n : Nat) (m : Module) :
    SameObjects m (Module.meetFlaws fu wrote read n m) := by
  induction n generalizing m with
  | zero => exact same_objs rfl
  | succ n ih =>
    rw [Module.meetFlaws]
    dsimp only
    split
    · exact same_objs rfl
    · next f _ =>
      have met : SameObjects m (m.onStore (fun c => { c with flaws := c.flaws.filter (· != f) })) := same_objs rfl
      refine sameObjects_trans (sameObjects_trans met ?_) (ih _)
      split
      · exact sameObjects_retire fu _ _ _ _
      · exact sameObjects_rebuilt fu _ _ _ _ _

section
variable {s : State} (powered : s.m.powered = true)
include powered

theorem goes_logCopy (mounted : s.m.coilState = 2) (up : s.m.mgmt.capstanUp = true) : Goes s (.logCopy none) (fun n =>
    (s.m.store.flaws = [] →
      n.log = { s.m.log with part := fitBytes (2048 * extentBytes) (s.m.log.part ++ s.m.log.ring), ring := [] } ∧ n.store = s.m.store ∧
      KeepsBut [.log, .od, .saved] s.m n) ∧
    SameObjects s.m n ∧ KeepsBut (.store :: .saved :: reporting) s.m n) := by
  refine goes_actOn rfl rfl powered ?_
  simp only [up, Bool.not_true, Bool.false_eq_true, if_false, mounted, if_true]
  obtain ⟨log, store, keeps⟩ := copyToPart_leaves s.m
  refine ⟨fun sound => ?_, ?_, ?_⟩
  · rw [sound]
    exact ⟨log, store, keeps⟩
  · exact sameObjects_trans (same_objs (congrArg Coil.objs store)) (sameObjects_meetFlaws s.fuse _ _ _ _)
  · exact keeps_trans (keeps_mono keeps (by decide)) (keeps_mono (keeps_meetFlaws s.fuse _ _ _ _) (by decide))

theorem goes_formatRecordUpdate : Goes s .formatRecordUpdate (fun n =>
    n.odGet (odKey 0x1018 10) = min (s.m.odGet (odKey 0x1018 10) + 60) (2 ^ 40 - 1) ∧ n.mgmt.dropEventHeld = false ∧
    KeepsBut [.od, .saved, .report] s.m n) := by
  refine goes_actOn rfl rfl powered ?_
  dsimp only
  generalize advanced : s.m.odSet (odKey 0x1018 10) (min (s.m.odGet (odKey 0x1018 10) + 60) (2 ^ 40 - 1)) = x
  have at_ : x.odGet (odKey 0x1018 10) = min (s.m.odGet (odKey 0x1018 10) + 60) (2 ^ 40 - 1) := by
    rw [← advanced, odGet_odSet, if_pos rfl]
  have keeps : KeepsBut [.od] s.m x := advanced ▸ keeps_odSet s.m _ _
  have saved : KeepsBut [.saved] x ((x.save (odKey 0x1018 9)).save (odKey 0x1018 10)) := keeps_trans (keeps_save x _) (keeps_save _ _)
  refine ⟨at_, rfl, keeps_trans (keeps_mono keeps (by decide)) (keeps_trans (keeps_mono saved (by decide)) ?_)⟩
  intro part hpart
  cases part <;> simp_all [Part.same]

theorem goes_loglineToken {code : Nat} (hcode : code < 65536) (up : s.m.mgmt.capstanUp = true) : Goes s (.loglineToken code) (fun n =>
    n.log = { s.m.log with spent := s.m.log.spent.set code (s.m.log.spent.get code - 1) } ∧ KeepsBut [.log] s.m n) := by
  refine goes_actOn rfl (decide_eq_true hcode) powered ?_
  rw [if_neg (by simp [up])]
  exact ⟨rfl, keeps_withLog s.m _⟩

/-! ### Mount and unmount (R411) -/

theorem goes_coilUnmount (asked : s.m.store.unmountAsked = true) (idle : s.m.store.writing = []) : Goes s .coilUnmount (fun n =>
    n.coilState = 0 ∧ n.store = { s.m.store with unmountAsked := false, catchUp := false } ∧ KeepsBut [.store, .od, .saved] s.m n) := by
  refine goes_actOn rfl rfl powered ?_
  rw [if_neg (by simp [asked, idle])]
  dsimp only
  have saved : KeepsBut [.saved] s.m ((s.m.save (odKey 0x1018 9)).save (odKey 0x1018 10)) :=
    keeps_trans (keeps_save s.m _) (keeps_save _ _)
  generalize (s.m.save (odKey 0x1018 9)).save (odKey 0x1018 10) = x at saved ⊢
  have store : x.store = s.m.store := saved .store (by decide)
  refine ⟨?_, ?_, ?_⟩
  · exact (odGet_odSet x _ _ _).trans (if_pos rfl)
  · exact congrArg (fun c : Coil => { c with unmountAsked := false, catchUp := false }) store
  · exact keeps_trans (keeps_mono saved (by decide)) (keeps_trans (keeps_mono (keeps_odSet x _ _) (by decide))
      (keeps_mono (keeps_onStore _ _) (by decide)))

theorem goes_coilMount_of_unreadable (mounting : s.m.coilState = 1) : Goes s (.coilMountComplete false) (fun n =>
    n.coilState = 4 ∧ KeepsBut reporting s.m n) := by
  refine goes_actOn rfl rfl powered ?_
  simp only [mounting, bne_self_eq_false, Bool.false_eq_true, if_false, Bool.not_false, if_true]
  refine ⟨?_, by simp [reporting, keeps_refl]⟩
  rw [Module.coilState, odGet_event _ _ _ _ _ (by decide), odGet_odSet, if_pos rfl]

end

/-- The module with its journal replayed: the store's state by what it has lost and its spares, and the records from before the mount
in their partition. -/
def replayed (m : Module) : Module :=
  let m := { m with log := { m.log with part := fitBytes (2048 * extentBytes) (m.log.part ++ m.log.premount), premount := [] } }
  (m.odSet (odKey 0x6000 2) (if (m.store.groupLost || decide (m.store.spare * 200 < dataBlocks)) = true then 3 else 2)).onStore
    (fun c => { c with catchUp := true })

section
variable {s : State} (powered : s.m.powered = true)
include powered

omit powered in
theorem replayed_leaves (m : Module) :
    (replayed m).coilState = (if m.store.groupLost = true ∨ m.store.spare * 200 < dataBlocks then 3 else 2) ∧
    (replayed m).store = { m.store with catchUp := true } ∧ (replayed m).log.premount = [] ∧
    KeepsBut (.store :: reporting) m (replayed m) := by
  refine ⟨?_, rfl, rfl, fun part hpart => ?_⟩
  · refine (odGet_odSet _ _ _ _).trans ((if_pos rfl).trans ?_)
    simp only [Bool.or_eq_true, decide_eq_true_eq]
  · cases part <;> simp_all [Part.same, replayed, reporting, Module.onStore]

theorem goes_coilMount (mounting : s.m.coilState = 1) : Goes s (.coilMountComplete true) (fun n =>
    (s.m.store.failedDies = [] ∨ s.m.store.groupLost = true ∨ s.m.store.spare * 200 < dataBlocks →
      n.coilState = (if s.m.store.groupLost = true ∨ s.m.store.spare * 200 < dataBlocks then 3 else 2) ∧
      n.store = { s.m.store with catchUp := true } ∧ (n.coilState = 2 → n.log.premount = [])) ∧
    (n.coilState = 2 ∨ n.coilState = 3) ∧ n.store.catchUp = true ∧ SameObjects s.m n ∧ KeepsBut (.store :: reporting) s.m n) := by
  have runs : exec (.coilMountComplete true) s = s.actOn true (fun fu m =>
      if m.coilState != 1 then m
      else if !true then (m.odSet (odKey 0x6000 2) 4).event fu 0x060B [1]
      else if m.store.groupLost || decide (m.store.spare * 200 < dataBlocks) then
        (replayed m).event fu 0x0609 [if m.store.groupLost then 1 else 0]
      else if m.store.failedDies.isEmpty then replayed m
      else (replayed m).leaveDies.afterWork fu m.store) := rfl
  refine goes_actOn runs rfl powered ?_
  obtain ⟨state, store, premount, keeps⟩ := replayed_leaves s.m
  simp only [mounting, bne_self_eq_false, Bool.false_eq_true, if_false, Bool.not_true]
  generalize replayed s.m = x at state store premount keeps ⊢
  have objs : SameObjects s.m x := same_objs (by rw [store])
  by_cases lost : s.m.store.groupLost = true ∨ s.m.store.spare * 200 < dataBlocks
  · rw [if_pos lost] at state ⊢
    rw [if_pos (by simpa using lost)]
    have readOnly := fun l => (odGet_event s.fuse x 0x0609 l (odKey 0x6000 2) (by decide)).trans state
    have stored := fun l => (event_store s.fuse x 0x0609 l).trans store
    refine ⟨fun _ => ⟨readOnly _, stored _, fun mounted => ?_⟩, .inr (readOnly _), by rw [stored], same_objs (by rw [stored]), ?_⟩
    · exact absurd ((readOnly _).symm.trans mounted) (by decide)
    · rw [kb_event _ _ _ (by decide) (by decide) (by decide)]
      exact keeps
  · rw [if_neg lost] at state ⊢
    rw [if_neg (by simpa using lost)]
    split
    · exact ⟨fun _ => ⟨state, store, fun _ => premount⟩, .inl state, by rw [store], objs, keeps⟩
    · next failed =>
      have work := (steady_leaveDies x).trans (steady_afterWork s.fuse x.leaveDies s.m.store)
      refine ⟨fun free => ?_, ?_, ?_, ?_, ?_⟩
      · exact absurd (free.resolve_right lost) (by simpa using failed)
      · exact work.2.imp (fun kept => kept.trans state) And.right
      · rw [work.catchUp, store]
      · exact sameObjects_trans objs (sameObjects_trans (sameObjects_leaveDies x) (sameObjects_afterWork s.fuse _ _))
      · exact keeps_trans keeps (keeps_trans (keeps_mono (keeps_leaveDies x) (by decide))
          (keeps_mono (keeps_afterWork s.fuse _ _) (by decide)))

end

/-! ### REPAIR updates (R110, R397) -/

/-- What a flagged row may change: the units it lies in, and the reports. -/
def flagging : List Part := .cores :: .clusters :: reporting

section
variable (fu : Fuses) (m : Module)

theorem keeps_giveBack (w : Nat) : KeepsBut flagging m (m.giveBack w) := by
  unfold Module.giveBack
  exact keeps_ite (keeps_mono (keeps_onCore m _ _) (by decide)) (keeps_mono (keeps_onCluster m _ _) (by decide))

theorem keeps_noSpare (kind unit bank row : Nat) : KeepsBut flagging m (m.noSpare fu kind unit bank row) := by
  unfold Module.noSpare
  have told : KeepsBut flagging m (m.event fu 0x0412 [kind, unit, bank, row]) := by simp [flagging, reporting, keeps_refl]
  refine keeps_trans told (keeps_ite (keeps_mono (keeps_askFence _ _ _) (by decide)) ?_)
  exact kb_foldl _ _ (fun n i => keeps_mono (keeps_askFence n _ _) (by decide)) _

theorem keeps_startRemap (w : Nat) : KeepsBut flagging m (m.startRemap fu w) := by
  unfold Module.startRemap
  dsimp only
  rw [kb_event _ _ _ (by decide) (by decide) (by decide)]
  exact keeps_ite (keeps_mono (keeps_onCore m _ _) (by decide)) (keeps_mono (keeps_onCluster m _ _) (by decide))

end

/-- The store with the next page appended to its first `n` copies. -/
def pageAppended (n w : Nat) (rest : List Nat) (c : Coil) : Coil :=
  { c with
    repairQueue := rest
    repairGen := c.repairGen + (if n = 0 then 0 else 1)
    repairCopies := c.repairCopies.zipIdx.map (fun x =>
      if x.2 < n then x.1.append { gen := c.repairGen + 1, recs := c.repairRecs ++ [w] } else x.1) }

theorem goes_repairUpdate {s : State} (powered : s.m.powered = true) {w : Nat} {rest : List Nat} (queued : s.m.store.repairQueue = w :: rest)
    (copies : Nat) : Goes s (.repairUpdate copies) (fun n =>
      n.store.repairQueue = rest ∧
      n.store.repairRecs = s.m.store.repairRecs ++ (if 2 ≤ min 4 copies then [w] else []) ∧
      n.store.repairGen = s.m.store.repairGen + (if copies = 0 then 0 else 1) ∧
      (∀ k, k < 4 → k < s.m.store.repairCopies.length → n.store.repairCopies[k]? =
        (s.m.store.repairCopies[k]?).map (fun c => if k < copies then
          c.append { gen := s.m.store.repairGen + 1, recs := s.m.store.repairRecs ++ [w] } else c)) ∧
      n.store.objs = s.m.store.objs ∧
      KeepsBut (.store :: .cores :: .clusters :: reporting) s.m n) := by
  refine goes_actOn rfl rfl powered ?_
  simp only [queued]
  have copied : ∀ k, k < 4 → (pageAppended (min 4 copies) w rest s.m.store).repairCopies[k]? =
      (s.m.store.repairCopies[k]?).map (fun c => if k < copies then
        c.append { gen := s.m.store.repairGen + 1, recs := s.m.store.repairRecs ++ [w] } else c) := by
    intro k hk
    simp [pageAppended, List.getElem?_zipIdx, hk, Function.comp_def]
  have gens : (if min 4 copies = 0 then 0 else 1) = if copies = 0 then 0 else 1 := by
    congr 1
    simp
  generalize taken : Module.onStore (s.m.onStore _) _ = x
  have store : x.store = pageAppended (min 4 copies) w rest s.m.store := by rw [← taken]; rfl
  have keeps : KeepsBut (.store :: flagging) s.m x := by
    rw [← taken]
    exact keeps_trans (keeps_mono (keeps_onStore s.m _) (by decide)) (keeps_mono (keeps_onStore _ _) (by decide))
  split
  · next few =>
    have flagged : KeepsBut flagging x (((x.giveBack w).event s.fuse 0x0604 [x.store.repairRecs.length + 1, min 4 copies]).noSpare
        s.fuse (field w 56 8) (field w 39 9) (field w 33 6) (field w 23 10)) := by
      refine keeps_trans ?_ (keeps_noSpare s.fuse _ _ _ _ _)
      rw [kb_event _ _ _ (by decide) (by decide) (by decide)]
      exact keeps_giveBack x w
    generalize Module.noSpare s.fuse _ _ _ _ _ = z at flagged ⊢
    rw [flagged .store (by decide), store, if_neg (by omega)]
    exact ⟨rfl, (List.append_nil _).symm, congrArg (s.m.store.repairGen + ·) gens, fun k hk _ => copied k hk, rfl,
      keeps_trans keeps (keeps_mono flagged (by decide))⟩
  · next enough =>
    generalize recorded : x.onStore _ = y
    have held : y.store = { x.store with repairRecs := x.store.repairRecs ++ [w] } := by rw [← recorded]; rfl
    have stored : KeepsBut (.store :: flagging) x y := recorded ▸ keeps_mono (keeps_onStore x _) (by decide)
    have flagged := keeps_startRemap s.fuse y w
    generalize y.startRemap s.fuse w = z at flagged ⊢
    rw [flagged .store (by decide), held, store, if_pos (by omega)]
    exact ⟨rfl, rfl, congrArg (s.m.store.repairGen + ·) gens, fun k hk _ => copied k hk, rfl,
      keeps_trans keeps (keeps_trans stored (keeps_mono flagged (by decide)))⟩

/-- Settles O50: what the store's own work does, it does by relocations, which move extents and change no content; a mount, an unmount and
the copies of the record leave what they name. -/
theorem theStoreKeepsItsObjects : Obligations.TheStoreKeepsItsObjects := by
  intro s powered m
  refine ⟨fun serves => ⟨fun corrected clean => goes_retentionScan_of_clean powered serves clean, goes_retentionScan powered serves⟩,
    fun mounted => ⟨goes_staticLevelling powered mounted, fun sb least => goes_garbageCollection powered mounted least,
      fun die hdie sound => goes_nandDieFailure powered mounted hdie sound, goes_logCopy powered mounted, goes_coilUnmount powered⟩,
    fun mounting => ⟨goes_coilMount_of_unreadable powered mounting, goes_coilMount powered mounting⟩,
    fun w rest copies queued => goes_repairUpdate powered queued copies, goes_formatRecordUpdate powered,
    fun code hcode up => goes_loglineToken powered hcode up⟩

end Sys2Proof.Proofs
end

section
/-!
PROOFS. Port events (R415, R416, R432): what a reset makes of the commands of its port, of its queues and of its mailbox.
-/
namespace Sys2Proof.Proofs

open Sys2Proof.Machine Sys2Proof.Laws

theorem keeps_onPort (m : Module) (p : Nat) (f : Port → Port) : KeepsBut [.ports, .report] m (m.onPort p f) := by
  intro part hpart
  cases part <;> simp_all [Part.same]

/-! ### A port whose ring is not enabled takes no notification (R450) -/

/-- A port whose notify ring is not enabled is as it was. -/
def Deaf (p : Nat) (m n : Module) : Prop := (m.port p).mailbox.ntEnable = false → n.port p = m.port p

section
variable {p : Nat} (fu : Fuses) (m : Module)

theorem deaf_trans {a b c : Module} (ab : Deaf p a b) (bc : Deaf p b c) : Deaf p a c := fun off => by
  have kept := ab off
  rw [bc (by rw [kept]; exact off), kept]

theorem deaf_of_ports {y n : Module} (same : y.host.ports = m.host.ports) (deaf : Deaf p y n) : Deaf p m n := by
  simpa only [Deaf, Module.port, same] using deaf

theorem deaf_sendFrame (d n : Nat) (b : List Byte) : Deaf p m (m.sendFrame fu d n b) := fun _ => by
  unfold Module.sendFrame
  split <;> rfl

theorem deaf_notifyPort (r : Nat) (b : List Byte) : Deaf p m (m.notifyPort r b) := fun off => by
  have other : r ≠ p → ∀ f, (m.onMailbox r f).port p = m.port p := fun ne f => by
    rw [Module.onMailbox, port_onPort, if_neg (fun h => ne h.1.symm)]
  by_cases at_ : r = p
  · subst at_
    simp [Module.notifyPort, off]
  · unfold Module.notifyPort
    dsimp only
    split
    · rfl
    split
    · rw [port_of_bump, other at_]
    · rw [port_of_fire, other at_]

theorem deaf_notifyRec (r : LogRec) : Deaf p m (m.notifyRec fu r) := by
  unfold Module.notifyRec
  dsimp only
  split
  · refine deaf_of_ports m ?_ (deaf_trans (deaf_trans (deaf_sendFrame fu _ _ _ _) (deaf_notifyPort _ 0 _)) (deaf_notifyPort _ 1 _))
    rfl
  · exact fun _ => rfl

theorem deaf_putRec (c n : Nat) (b : Bool) (l : List Nat) : Deaf p m (m.putRec fu c n b l) := by
  unfold Module.putRec
  dsimp only
  refine deaf_of_ports m ?_ (deaf_notifyRec fu _ _)
  rfl

theorem deaf_putRecs (c n : Nat) (b : Bool) (l : List Nat) : Deaf p m (m.putRecs fu c n b l) := by
  unfold Module.putRecs
  split
  · exact deaf_putRec fu m _ _ _ _
  · refine deaf_of_ports m ?_ (deaf_trans (deaf_putRec fu _ _ _ _ _) (deaf_putRec fu _ _ _ _ _))
    rfl

theorem deaf_record (c : Nat) (b : Bool) (l : List Nat) : Deaf p m (m.record fu c b l) := by
  unfold Module.record
  split
  · exact fun _ => rfl
  split
  · exact fun _ => rfl
  · refine deaf_of_ports m ?_ (deaf_putRecs fu _ _ _ _ _)
    rfl

theorem deaf_event (c : Nat) (l : List Nat) : Deaf p m (m.event fu c l) := by
  unfold Module.event Module.eventX
  dsimp only
  split
  · split <;> exact fun _ => rfl
  split
  · refine deaf_trans (deaf_record fu m c false l) (deaf_of_ports _ ?_ (deaf_record fu _ _ _ _))
    rfl
  · exact deaf_record fu m _ _ _

end

/-! ### Commands of a port that is reset (R432) -/

/-- A context whose LOAD ends without its image. -/
def loadDropped (b : Job) : Job :=
  { Job.free with state := 4, endStatus := stCancelled, seed := b.seed, pendingSnap := b.pendingSnap }

/-- What the reset of its port makes of a command, and the count of those cancelled. -/
def dropOne (acc : Module × Nat) (c : Cmd) : Module × Nat :=
  ((acc.1.dropCmd c).1, acc.2 + if (acc.1.dropCmd c).2 then 1 else 0)

/-- The outcomes of a command by its state and its opcode. -/
theorem dropCmd_cases (m : Module) (c : Cmd) :
    (c.state = 2 ∧ m.dropCmd c = (m, false)) ∨
    (c.state = 0 ∧ m.dropCmd c = (m, true)) ∨
    (c.opcode = 3 ∧ c.state = 1 ∧ (m.job c.job).state = 2 ∧
      m.dropCmd c = (m.onRun c.job (fun r => { r with stepAsked := false }), true)) ∨
    (m.notStarted c = false ∧ c.state ≠ 0 ∧ c.state ≠ 2 ∧
      ((c.opcode = 1 ∧ m.dropCmd c = (m.dropLoad c.job stCancelled, true)) ∨
      (c.opcode = 0x28 ∧ m.dropCmd c = (m.closeWrite c, true)) ∨
      (c.opcode = 0x18 ∧ bitAt (c.w 4) 0 = true ∧
        m.dropCmd c = ({ m with host := { m.host with orphans := m.host.orphans ++ [c] } }, false)) ∨
      (c.opcode ≠ 1 ∧ c.opcode ≠ 0x28 ∧ ¬ (c.opcode = 0x18 ∧ bitAt (c.w 4) 0 = true) ∧
        m.dropCmd c = (m, !isJobState c.opcode || c.opcode == 0x18)))) := by
  by_cases answered : c.state = 2
  · exact .inl ⟨answered, by simp [Module.dropCmd, answered]⟩
  by_cases waiting : c.state = 0
  · exact .inr (.inl ⟨waiting, by simp [Module.dropCmd, Module.notStarted, Module.unaskStep, waiting]⟩)
  by_cases asked : c.opcode = 3 ∧ c.state = 1 ∧ (m.job c.job).state = 2
  · obtain ⟨op, started, loaded⟩ := asked
    exact .inr (.inr (.inl ⟨op, started, loaded, by simp [Module.dropCmd, Module.notStarted, Module.unaskStep, op, started, loaded]⟩))
  have begun : m.notStarted c = false := by
    simp only [Module.notStarted, Bool.or_eq_false_iff, Bool.and_eq_false_iff, beq_eq_false_iff_ne]
    exact ⟨waiting, by tauto⟩
  refine .inr (.inr (.inr ⟨begun, waiting, answered, ?_⟩))
  unfold Module.dropCmd
  rw [if_neg answered, begun, if_neg Bool.false_ne_true]
  by_cases load : c.opcode = 1
  · exact .inl ⟨load, if_pos load⟩
  by_cases write : c.opcode = 0x28
  · exact .inr (.inl ⟨write, by rw [if_neg load, if_pos write]⟩)
  by_cases kept : c.opcode = 0x18 ∧ bitAt (c.w 4) 0 = true
  · exact .inr (.inr (.inl ⟨kept.1, kept.2, by simp [kept.1, kept.2]⟩))
  · exact .inr (.inr (.inr ⟨load, write, kept, by rw [if_neg load, if_neg write, if_neg (by simpa using kept)]⟩))

/-- What the reset of its port does with a command touches its context, the writes in progress and the SNAPSHOTs that run on. -/
theorem keeps_dropCmd (m : Module) (c : Cmd) : KeepsBut [.jobs, .store, .orphans] m (m.dropCmd c).1 := by
  have orphaned : KeepsBut [.jobs, .store, .orphans] m { m with host := { m.host with orphans := m.host.orphans ++ [c] } } :=
    fun part hpart => by cases part <;> simp_all [Part.same]
  rcases dropCmd_cases m c with ⟨-, r⟩ | ⟨-, r⟩ | ⟨-, -, -, r⟩ | ⟨-, -, -, ⟨-, r⟩ | ⟨-, r⟩ | ⟨-, -, r⟩ | ⟨-, -, -, r⟩⟩ <;> rw [r]
  · exact keeps_refl _ _
  · exact keeps_refl _ _
  · exact keeps_mono (keeps_onJob m _ _) (by decide)
  · exact keeps_mono (keeps_onJob m _ _) (by decide)
  · exact keeps_mono (keeps_onStore m _) (by decide)
  · exact orphaned
  · exact keeps_refl _ _

theorem keeps_dropOnes (cs : List Cmd) (acc : Module × Nat) : KeepsBut [.jobs, .store, .orphans] acc.1 (cs.foldl dropOne acc).1 :=
  List.foldlRecOn (motive := fun r : Module × Nat => KeepsBut [.jobs, .store, .orphans] acc.1 r.1) cs dropOne (keeps_refl _ _)
    (fun r keeps c _ => keeps_trans keeps (keeps_dropCmd r.1 c))

/-! #### The jobs -/

/-- What the reset of its port makes of the context that a command names. -/
def jobDropped (j : Nat) (b : Job) (c : Cmd) : Job :=
  if c.job ≠ j ∨ c.state = 0 ∨ c.state = 2 then b
  else if c.opcode = 3 ∧ c.state = 1 ∧ b.state = 2 then { b with run := { b.run with stepAsked := false } }
  else if c.opcode = 1 ∧ (b.state = 0 ∨ b.state = 1) then loadDropped b
  else b

/-- A started command that is neither a LOAD nor a STEP whose step waits leaves its context. -/
theorem jobDropped_of_other {j : Nat} {b : Job} {c : Cmd} (unasked : c.job = j → ¬ (c.opcode = 3 ∧ c.state = 1 ∧ b.state = 2))
    (s0 : c.state ≠ 0) (s2 : c.state ≠ 2) (load : c.opcode ≠ 1) : jobDropped j b c = b := by
  unfold jobDropped
  by_cases at_ : c.job = j
  · rw [if_neg (by omega), if_neg (unasked at_), if_neg (by omega)]
  · rw [if_pos (.inl at_)]

theorem job_dropCmd (m : Module) (c : Cmd) {j : Nat} (hj : j < m.jobs.length) : ((m.dropCmd c).1).job j = jobDropped j (m.job j) c := by
  have other : ∀ f, c.job ≠ j → (m.onJob c.job f).job j = m.job j := fun f ne => job_onJob_other m _ _ f (Ne.symm ne)
  rcases dropCmd_cases m c with ⟨s, r⟩ | ⟨s, r⟩ | ⟨op, s, loaded, r⟩ | ⟨begun, s0, s2, rest⟩
  · rw [r, jobDropped, if_pos (.inr (.inr s))]
  · rw [r, jobDropped, if_pos (.inr (.inl s))]
  · rw [r, jobDropped]
    by_cases at_ : c.job = j
    · subst at_
      rw [if_neg (by omega), if_pos ⟨op, s, loaded⟩]
      exact job_onJob_self m _ _ hj
    · rw [if_pos (.inl at_)]
      exact other _ at_
  · have unasked : c.job = j → ¬ (c.opcode = 3 ∧ c.state = 1 ∧ (m.job j).state = 2) := by
      rintro rfl ⟨op, s, loaded⟩
      simp [Module.notStarted, op, s, loaded] at begun
    rcases rest with ⟨op, r⟩ | ⟨op, r⟩ | ⟨op, -, r⟩ | ⟨op, -, -, r⟩ <;> rw [r]
    · rw [jobDropped]
      by_cases at_ : c.job = j
      · subst at_
        rw [if_neg (by omega), if_neg (unasked rfl)]
        refine (job_onJob_self m _ _ hj).trans ?_
        simp only [Bool.or_eq_true, decide_eq_true_eq, op, true_and]
        rfl
      · rw [if_pos (.inl at_)]
        exact other _ at_
    · exact (jobDropped_of_other unasked s0 s2 (by omega)).symm
    · exact (jobDropped_of_other unasked s0 s2 (by omega)).symm
    · exact (jobDropped_of_other unasked s0 s2 op).symm

theorem jobs_length_dropCmd (m : Module) (c : Cmd) : ((m.dropCmd c).1).jobs.length = m.jobs.length := by
  rcases dropCmd_cases m c with ⟨-, r⟩ | ⟨-, r⟩ | ⟨-, -, -, r⟩ | ⟨-, -, -, ⟨-, r⟩ | ⟨-, r⟩ | ⟨-, -, r⟩ | ⟨-, -, -, r⟩⟩ <;> rw [r]
  · exact modifyAt_length _ _ _
  · exact modifyAt_length _ _ _
  all_goals rfl

theorem job_dropOnes (cs : List Cmd) (acc : Module × Nat) {j : Nat} (hj : j < acc.1.jobs.length) :
    ((cs.foldl dropOne acc).1).job j = cs.foldl (jobDropped j) (acc.1.job j) := by
  induction cs generalizing acc with
  | nil => rfl
  | cons c cs ih =>
    rw [List.foldl_cons, ih _ ((jobs_length_dropCmd acc.1 c).symm ▸ hj), List.foldl_cons, ← job_dropCmd acc.1 c hj]
    rfl

section
variable {j : Nat} {b : Job}

/-- A context that runs or has ended is as it was. -/
theorem jobsDropped_of_done (done : b.state = 3 ∨ b.state = 4) (cs : List Cmd) : cs.foldl (jobDropped j) b = b := by
  refine List.foldlRecOn (motive := fun x => x = b) cs _ rfl (fun x same c _ => ?_)
  subst same
  unfold jobDropped
  split
  · rfl
  · rw [if_neg (by omega), if_neg (by omega)]

/-- A job of which a STEP that is dropped does not ask a step any more. -/
def unasked (b : Job) (dropped : Bool) : Job := { b with run := { b.run with stepAsked := b.run.stepAsked && !dropped } }

theorem jobDropped_of_loaded (loaded : b.state = 2) (c : Cmd) :
    jobDropped j b c = unasked b (c.opcode == 3 && c.state == 1 && c.job == j) := by
  unfold jobDropped
  by_cases asks : c.opcode = 3 ∧ c.state = 1 ∧ c.job = j
  · obtain ⟨op, started, at_⟩ := asks
    rw [if_neg (by omega), if_pos ⟨op, started, loaded⟩]
    simp [unasked, op, started, at_]
  · have same : b = unasked b (c.opcode == 3 && c.state == 1 && c.job == j) := by
      have none : (c.opcode == 3 && c.state == 1 && c.job == j) = false := by
        simp only [Bool.and_eq_false_iff, beq_eq_false_iff_ne]
        tauto
      rw [none, unasked, Bool.not_false, Bool.and_true]
    rw [← same]
    split
    · rfl
    · rw [if_neg (by tauto), if_neg (by omega)]

/-- A loaded job is not asked for a step any more where a STEP of the port asked. -/
theorem jobsDropped_of_loaded (loaded : b.state = 2) (cs : List Cmd) : cs.foldl (jobDropped j) b =
    unasked b (cs.any (fun c => c.opcode == 3 && c.state == 1 && c.job == j)) := by
  induction cs generalizing b with
  | nil => simp [unasked]
  | cons c cs ih =>
    rw [List.foldl_cons, jobDropped_of_loaded loaded, ih (b := unasked b _) loaded]
    simp only [unasked, List.any_cons, Bool.not_or, Bool.and_assoc]

/-- A context whose LOAD the port took ends. -/
theorem jobsDropped_of_loading (loading : b.state = 1) {cs : List Cmd} {c : Cmd} (hc : c ∈ cs) (op : c.opcode = 1) (started : c.state = 1)
    (at_ : c.job = j) : cs.foldl (jobDropped j) b = loadDropped b := by
  induction cs with
  | nil => cases hc
  | cons d ds ih =>
    rw [List.foldl_cons]
    by_cases drops : jobDropped j b d = loadDropped b
    · rw [drops]
      exact jobsDropped_of_done (.inr rfl) ds
    · have stays : jobDropped j b d = b := by
        unfold jobDropped at drops ⊢
        split
        · rfl
        · next hit =>
          rw [if_neg hit, if_neg (by omega)] at drops
          rw [if_neg (by omega)]
          split
          · next load => exact absurd (if_pos load) drops
          · rfl
      rw [stays]
      rcases List.mem_cons.1 hc with rfl | later
      · exact absurd (by rw [jobDropped, if_neg (by omega), if_neg (by omega), if_pos ⟨op, .inr loading⟩]) drops
      · exact ih later

end

/-! #### The writes, the SNAPSHOTs that run on, and the count -/

theorem store_dropOnes (cs : List Cmd) (acc : Module × Nat) : ((cs.foldl dropOne acc).1).store =
    { acc.1.store with writing := acc.1.store.writing.filter (fun k =>
      !cs.any (fun c => c.opcode == 0x28 && c.state != 0 && c.state != 2 && (c.w 2, c.w 3) == k)) } := by
  induction cs generalizing acc with
  | nil => simp
  | cons c cs ih =>
    have one : ((dropOne acc c).1).store = { acc.1.store with writing := acc.1.store.writing.filter (fun k =>
        !(c.opcode == 0x28 && c.state != 0 && c.state != 2 && (c.w 2, c.w 3) == k)) } := by
      have none : (c.opcode == 0x28 && c.state != 0 && c.state != 2) = false → acc.1.store = { acc.1.store with
          writing := acc.1.store.writing.filter (fun k =>
            !(c.opcode == 0x28 && c.state != 0 && c.state != 2 && (c.w 2, c.w 3) == k)) } := fun no => by simp [no]
      unfold dropOne
      rcases dropCmd_cases acc.1 c with ⟨s, r⟩ | ⟨s, r⟩ | ⟨op, -, -, r⟩ | ⟨-, s0, s2, ⟨op, r⟩ | ⟨op, r⟩ | ⟨op, -, r⟩ | ⟨-, op, -, r⟩⟩ <;> rw [r]
      · exact none (by simp [s])
      · exact none (by simp [s])
      · exact none (by simp [op])
      · exact none (by simp [op])
      · simp only [Module.closeWrite, store_onStore]
        congr 1
        refine List.filter_congr (fun k _ => ?_)
        simp [op, s0, s2, bne, Bool.beq_comm (a := k)]
      · exact none (by simp [op])
      · exact none (by simp [op])
    rw [List.foldl_cons, ih, one]
    simp only [List.filter_filter, List.any_cons, Bool.not_or, Bool.and_comm]

theorem orphans_dropOnes (cs : List Cmd) (acc : Module × Nat) : ((cs.foldl dropOne acc).1).host.orphans =
    acc.1.host.orphans ++ cs.filter (fun c => c.opcode == 0x18 && c.state != 0 && c.state != 2 && bitAt (c.w 4) 0) := by
  induction cs generalizing acc with
  | nil => simp
  | cons c cs ih =>
    have one : ((dropOne acc c).1).host.orphans = acc.1.host.orphans ++
        if (c.opcode == 0x18 && c.state != 0 && c.state != 2 && bitAt (c.w 4) 0) = true then [c] else [] := by
      have none : (c.opcode == 0x18 && c.state != 0 && c.state != 2 && bitAt (c.w 4) 0) = false → acc.1.host.orphans =
          acc.1.host.orphans ++ if (c.opcode == 0x18 && c.state != 0 && c.state != 2 && bitAt (c.w 4) 0) = true then [c] else [] :=
        fun no => by simp [no]
      unfold dropOne
      rcases dropCmd_cases acc.1 c with ⟨s, r⟩ | ⟨s, r⟩ | ⟨op, -, -, r⟩ | ⟨-, s0, s2, ⟨op, r⟩ | ⟨op, r⟩ | ⟨op, b, r⟩ | ⟨-, -, op, r⟩⟩ <;> rw [r]
      · exact none (by simp [s])
      · exact none (by simp [s])
      · exact none (by simp [op])
      · exact none (by simp [op])
      · exact none (by simp [op])
      · simp [op, s0, s2, b]
      · exact none (by simpa [s0, s2] using op)
    rw [List.foldl_cons, ih, one, List.filter_cons, List.append_assoc]
    split <;> rfl

/-- Dropping a command makes no job loaded, and none that is loaded anything else. -/
theorem loaded_dropCmd (m : Module) (c : Cmd) (j : Nat) : (((m.dropCmd c).1).job j).state = 2 ↔ (m.job j).state = 2 := by
  by_cases hj : j < m.jobs.length
  · rw [job_dropCmd m c hj, jobDropped]
    split
    · rfl
    split
    · next asked => exact Iff.rfl
    split
    · next load => simp only [loadDropped]; omega
    · rfl
  · have out := Nat.le_of_not_lt hj
    rw [Module.job, Module.job, List.getD_eq_default _ _ out, List.getD_eq_default _ _ ((jobs_length_dropCmd m c).symm ▸ out)]

theorem cancels_dropCmd (m : Module) (c d : Cmd) : ((m.dropCmd c).1).cancels d = m.cancels d := by
  have same : ((((m.dropCmd c).1).job d.job).state == 2) = ((m.job d.job).state == 2) := by
    rw [Bool.eq_iff_iff, beq_iff_eq, beq_iff_eq]
    exact loaded_dropCmd m c d.job
  simp only [Module.cancels, Module.notStarted, same]

theorem counted_dropCmd (m : Module) (c : Cmd) : (m.dropCmd c).2 = m.cancels c := by
  rcases dropCmd_cases m c with ⟨s, r⟩ | ⟨s, r⟩ | ⟨op, s, loaded, r⟩ | ⟨begun, s0, s2, ⟨op, r⟩ | ⟨op, r⟩ | ⟨op, b, r⟩ | ⟨load, write, kept, r⟩⟩ <;> rw [r]
  · simp [Module.cancels, s]
  · simp [Module.cancels, Module.notStarted, s]
  · simp [Module.cancels, Module.notStarted, op, s, loaded]
  · simp [Module.cancels, s2, op]
  · simp [Module.cancels, s2, op]
  · simp [Module.cancels, begun, op, b]
  · by_cases snap : c.opcode = 0x18
    · have off : bitAt (c.w 4) 0 = false := by simpa [snap] using kept
      simp [Module.cancels, begun, s2, snap, off]
    · rw [Module.cancels, begun, if_neg snap, beq_eq_false_iff_ne.2 load, beq_eq_false_iff_ne.2 write, beq_eq_false_iff_ne.2 snap]
      simp [s2]

theorem count_dropOnes (cs : List Cmd) (acc : Module × Nat) : (cs.foldl dropOne acc).2 = acc.2 + cs.countP acc.1.cancels := by
  induction cs generalizing acc with
  | nil => rfl
  | cons c cs ih =>
    have same : (dropOne acc c).1.cancels = acc.1.cancels := funext (cancels_dropCmd acc.1 c)
    rw [List.foldl_cons, ih, same, List.countP_cons, dropOne, counted_dropCmd, Nat.add_assoc, Nat.add_comm (cs.countP _)]

end Sys2Proof.Proofs
end

section
/-!
PROOFS. A port's reset as a whole (R432), and PERST#, the link and the function's readiness (R415, R416).
-/
namespace Sys2Proof.Proofs

open Sys2Proof.Machine Sys2Proof.Laws

/-- A port without its mailbox. -/
def barePort (t : Port) : Port := { t with mailbox := Mailbox.reset }

/-- What leaves the ports leaves each of them but for its mailbox. -/
theorem barePort_of_keeps {m n : Module} {ps : List Part} (keeps : KeepsBut ps m n) (apart : Part.ports ∉ ps) (p : Nat) :
    barePort (n.port p) = barePort (m.port p) := by
  have same := keeps .ports apart
  have at_ := congrArg (fun l : List Port => l.getD p (barePort Port.reset)) same
  exact (List.getD_map _ _ _).symm.trans (at_.trans (List.getD_map _ _ _))

/-! ### The queues of a port -/

/-- The queues of a list at their reset values. -/
def queuesReset (qs : List Nat) (m : Module) : Module := qs.foldl (fun m q => m.onQueue q (fun _ => Queue.reset)) m

theorem keeps_queuesReset (qs : List Nat) (m : Module) : KeepsBut [.queues] m (queuesReset qs m) :=
  kb_foldl qs _ (fun n q => keeps_onQueue n q _) m

theorem ports_queuesReset (qs : List Nat) (m : Module) : (queuesReset qs m).host.ports = m.host.ports :=
  foldl_keep (fun n : Module => n.host.ports) qs (fun m q => m.onQueue q (fun _ => Queue.reset)) (fun _ _ => rfl) m

theorem queuesReset_queues (qs : List Nat) (m : Module) (k : Nat) : (queuesReset qs m).queue k =
    if k ∈ qs ∧ k < m.host.queues.length then Queue.reset else m.queue k := by
  induction qs generalizing m with
  | nil => rfl
  | cons q qs ih =>
    have length : (m.onQueue q (fun _ => Queue.reset)).host.queues.length = m.host.queues.length := modifyAt_length _ _ _
    have one : queuesReset (q :: qs) m = queuesReset qs (m.onQueue q (fun _ => Queue.reset)) := rfl
    rw [one, ih, length, queue_onQueue]
    by_cases at_ : k = q
    · subst at_
      by_cases inside : k < m.host.queues.length <;> simp [inside]
    · simp [at_]

theorem dropOne_onQueue (m : Module) (n q : Nat) (f : Queue → Queue) (c : Cmd) :
    dropOne (m.onQueue q f, n) c = ((dropOne (m, n) c).1.onQueue q f, (dropOne (m, n) c).2) := by
  have begun : (m.onQueue q f).notStarted c = m.notStarted c := rfl
  have loaded : (m.onQueue q f).job c.job = m.job c.job := rfl
  simp only [dropOne, Module.dropCmd, Module.unaskStep, begun, loaded]
  split_ifs <;> rfl

theorem dropOnes_onQueue (cs : List Cmd) (m : Module) (n q : Nat) (f : Queue → Queue) :
    cs.foldl dropOne (m.onQueue q f, n) = ((cs.foldl dropOne (m, n)).1.onQueue q f, (cs.foldl dropOne (m, n)).2) := by
  induction cs generalizing m n with
  | nil => rfl
  | cons c cs ih => rw [List.foldl_cons, dropOne_onQueue, ih, List.foldl_cons]

/-- Queue after queue, the commands of all of them end, and the queues are at their reset values. -/
theorem dropCmds_queues {qs : List Nat} (apart : qs.Nodup) (acc : Module × Nat) : qs.foldl Module.dropCmds acc =
    (queuesReset qs ((qs.flatMap (fun q => (acc.1.queue q).cmds)).foldl dropOne acc).1,
      ((qs.flatMap (fun q => (acc.1.queue q).cmds)).foldl dropOne acc).2) := by
  induction qs generalizing acc with
  | nil => rfl
  | cons q qs ih =>
    obtain ⟨new, apart⟩ := List.nodup_cons.1 apart
    have one : Module.dropCmds acc q = ((((acc.1.queue q).cmds.foldl dropOne acc).1).onQueue q (fun _ => Queue.reset),
      ((acc.1.queue q).cmds.foldl dropOne acc).2) := rfl
    have queues := keeps_dropOnes (acc.1.queue q).cmds acc .queues (by decide)
    have rest : qs.flatMap (fun k => ((((acc.1.queue q).cmds.foldl dropOne acc).1.onQueue q (fun _ => Queue.reset)).queue k).cmds) =
        qs.flatMap (fun k => (acc.1.queue k).cmds) := by
      refine List.flatMap_congr (fun k hk => ?_)
      rw [queue_onQueue, if_neg (by rintro ⟨rfl, -⟩; exact new hk), Module.queue, queues, Module.queue]
    rw [List.foldl_cons, one, ih apart, rest, dropOnes_onQueue, List.flatMap_cons, List.foldl_append]
    rfl

/-- The numbers of the queues of a port. -/
def portQueues (p : Nat) : List Nat := (List.range 8).map (· + 8 * p)

theorem mem_portQueues {p q : Nat} : q ∈ portQueues p ↔ q / 8 = p := by
  simp only [portQueues, List.mem_map, List.mem_range]
  constructor
  · rintro ⟨i, hi, rfl⟩
    omega
  · intro at_
    exact ⟨q % 8, by omega, by omega⟩

theorem portQueues_nodup (p : Nat) : (portQueues p).Nodup := List.nodup_range.map (fun a b h => by simpa using h)

/-! ### A port's reset (R432) -/

/-- The function of a port at its reset values, its link as it is. -/
def functionDown (t : Port) : Port := { t with ready := false, agreed := 0, mailbox := Mailbox.reset }

/-- The module without what the path of a port has staged, and without its update session. -/
def pathCleared (p : Nat) (m : Module) : Module :=
  { m with
    mgmt := { m.mgmt with staged := m.mgmt.staged.filter (fun v => v.path != 8 + p) }
    fw := if m.fw.session = some (8 + p) then { m.fw with session := none } else m.fw }

/-- The commands of a port with what its reset makes of them. -/
def portDropped (m : Module) (p : Nat) : Module := ((m.portCmds p).foldl dropOne (m, 0)).1

/-- The module with the function of a port down, before the event. -/
def portCleared (m : Module) (p : Nat) : Module := pathCleared p ((queuesReset (portQueues p) (portDropped m p)).onPort p functionDown)

/-- The module with a port reset, before waiting commands start. -/
def portReset (fu : Fuses) (m : Module) (p cause : Nat) : Module :=
  ((portCleared m p).bump (odKey 0x5100 6) 1).event fu 0x0552 [p, cause, (m.portCmds p).countP m.cancels]

theorem resetPort_eq (fu : Fuses) (m : Module) (p cause : Nat) : m.resetPort fu p cause = (portReset fu m p cause).settle fu := by
  have dropped : ((List.range 8).map (· + 8 * p)).foldl Module.dropCmds (m, 0) =
      (queuesReset (portQueues p) (portDropped m p), (m.portCmds p).countP m.cancels) := by
    have all := dropCmds_queues (portQueues_nodup p) (m, 0)
    have count := count_dropOnes (m.portCmds p) (m, 0)
    rw [Nat.zero_add] at count
    rw [← count]
    exact all
  unfold Module.resetPort portReset portCleared pathCleared functionDown
  rw [dropped]

section
variable (fu : Fuses) (m : Module) (p : Nat)

theorem keeps_portDropped : KeepsBut [.jobs, .store, .orphans] m (portDropped m p) := keeps_dropOnes (m.portCmds p) (m, 0)

theorem keeps_pathCleared : KeepsBut [.mgmt, .fw] m (pathCleared p m) := by
  intro part hpart
  cases part <;> simp_all [Part.same, pathCleared]

theorem keeps_portCleared :
    KeepsBut [.jobs, .store, .orphans, .queues, .ports, .report, .mgmt, .fw] m (portCleared m p) := by
  refine keeps_trans ?_ (keeps_mono (keeps_pathCleared _ p) (by decide))
  refine keeps_trans ?_ (keeps_mono (keeps_onPort _ p _) (by decide))
  exact keeps_trans (keeps_mono (keeps_portDropped m p) (by decide)) (keeps_mono (keeps_queuesReset _ _) (by decide))

theorem keeps_portReset (cause : Nat) : KeepsBut reporting (portCleared m p) (portReset fu m p cause) := by
  unfold portReset
  rw [kb_event _ _ _ (by decide) (by decide) (by decide), kb_bump _ _ (by decide)]
  exact keeps_refl _ _

/-- What the reset leaves of what commands touched is what the dropped commands leave. -/
theorem portReset_leaves (cause : Nat) : (portReset fu m p cause).jobs = (portDropped m p).jobs ∧
    (portReset fu m p cause).store = (portDropped m p).store ∧
    (portReset fu m p cause).host.orphans = (portDropped m p).host.orphans := by
  have reported := keeps_portReset fu m p cause
  have cleared : KeepsBut [.queues, .ports, .report, .mgmt, .fw] (portDropped m p) (portCleared m p) := by
    refine keeps_trans ?_ (keeps_mono (keeps_pathCleared _ p) (by decide))
    exact keeps_trans (keeps_mono (keeps_queuesReset _ _) (by decide)) (keeps_mono (keeps_onPort _ p _) (by decide))
  exact ⟨(reported .jobs (by decide)).trans (cleared .jobs (by decide)), (reported .store (by decide)).trans (cleared .store (by decide)),
    (reported .orphans (by decide)).trans (cleared .orphans (by decide))⟩

theorem ports_dropCmd (c : Cmd) : ((m.dropCmd c).1).host.ports = m.host.ports := by
  rcases dropCmd_cases m c with ⟨-, e⟩ | ⟨-, e⟩ | ⟨-, -, -, e⟩ | ⟨-, -, -, ⟨-, e⟩ | ⟨-, e⟩ | ⟨-, -, e⟩ | ⟨-, -, -, e⟩⟩ <;> rw [e] <;> rfl

theorem ports_portDropped : (portDropped m p).host.ports = m.host.ports :=
  List.foldlRecOn (motive := fun r : Module × Nat => r.1.host.ports = m.host.ports) (m.portCmds p) dropOne rfl
    (fun r same c _ => (ports_dropCmd r.1 c).trans same)

theorem port_pathCleared (k : Nat) : (pathCleared p m).port k = m.port k := rfl

theorem queue_pathCleared (k : Nat) : (pathCleared p m).queue k = m.queue k := rfl

theorem staged_pathCleared : (pathCleared p m).mgmt.staged = m.mgmt.staged.filter (fun v => v.path != 8 + p) := rfl

theorem queue_portDropped (k : Nat) : (portDropped m p).queue k = m.queue k := by
  rw [Module.queue, keeps_portDropped m p .queues (by decide), Module.queue]

theorem port_portCleared (hp : p < m.host.ports.length) : (portCleared m p).port p = functionDown (m.port p) := by
  have kept : (queuesReset (portQueues p) (portDropped m p)).host.ports = m.host.ports := by
    rw [ports_queuesReset, ports_portDropped]
  rw [portCleared, port_pathCleared, port_onPort, if_pos ⟨rfl, by rw [kept]; exact hp⟩, Module.port, kept, Module.port]

theorem port_portReset (cause : Nat) (hp : p < m.host.ports.length) : (portReset fu m p cause).port p = functionDown (m.port p) := by
  have cleared : ((portCleared m p).bump (odKey 0x5100 6) 1).port p = functionDown (m.port p) := by
    rw [port_of_bump]
    exact port_portCleared m p hp
  rw [portReset, deaf_event fu _ 0x0552 _ (by rw [cleared]; rfl), cleared]

theorem queue_portReset (cause k : Nat) : (portReset fu m p cause).queue k =
    if k / 8 = p ∧ k < m.host.queues.length then Queue.reset else m.queue k := by
  have length : (portDropped m p).host.queues.length = m.host.queues.length :=
    congrArg List.length (keeps_portDropped m p .queues (by decide))
  rw [portReset, queue_of_event, queue_of_bump, portCleared, queue_pathCleared, queue_of_onPort, queuesReset_queues, queue_portDropped,
    length]
  simp only [mem_portQueues]

theorem mgmt_portReset (cause : Nat) : (portReset fu m p cause).mgmt.staged = m.mgmt.staged.filter (fun v => v.path != 8 + p) := by
  have reported := congrArg Mgmt.staged (keeps_portReset fu m p cause .mgmt (by decide))
  have base : KeepsBut [.jobs, .store, .orphans, .queues, .ports, .report] m
      ((queuesReset (portQueues p) (portDropped m p)).onPort p functionDown) := by
    refine keeps_trans ?_ (keeps_mono (keeps_onPort _ p _) (by decide))
    exact keeps_trans (keeps_mono (keeps_portDropped m p) (by decide)) (keeps_mono (keeps_queuesReset _ _) (by decide))
  have staged := congrArg Mgmt.staged (base .mgmt (by decide))
  have filtered := congrArg (List.filter (fun v : Staged => v.path != 8 + p)) staged
  exact reported.trans ((staged_pathCleared _ p).trans filtered)

theorem session_portReset (cause : Nat) : (portReset fu m p cause).fw.session ≠ some (8 + p) := by
  have reported := keeps_portReset fu m p cause .fw (by decide)
  rw [reported, portCleared, pathCleared]
  dsimp only
  split
  · exact nofun
  · assumption

end

/-- A reset of port `p` (R432): its function is down, and its commands end as they stand. -/
def PortGone (fu : Fuses) (m : Module) (p cause : Nat) (z : Module) : Prop :=
  let cs := m.portCmds p
  (∃ y : Module, z = (y.bump (odKey 0x5100 6) 1).event fu 0x0552 [p, cause, cs.countP m.cancels]) ∧
  (∀ c ∈ cs, c.opcode = 1 → c.state = 1 → (m.job c.job).state = 1 → z.job c.job =
    { Job.free with state := 4, endStatus := stCancelled, seed := (m.job c.job).seed, pendingSnap := (m.job c.job).pendingSnap }) ∧
  (∀ j, (m.job j).state = 2 → z.job j = { m.job j with run := { (m.job j).run with
    stepAsked := (m.job j).run.stepAsked && !cs.any (fun c => c.opcode == 3 && c.state == 1 && c.job == j) } }) ∧
  (∀ j, (m.job j).state = 3 ∨ (m.job j).state = 4 → z.job j = m.job j) ∧
  z.store = { m.store with writing := m.store.writing.filter (fun k =>
    !cs.any (fun c => c.opcode == 0x28 && c.state != 0 && c.state != 2 && (c.w 2, c.w 3) == k)) } ∧
  z.host.orphans = m.host.orphans ++ cs.filter (fun c => c.opcode == 0x18 && c.state != 0 && c.state != 2 && bitAt (c.w 4) 0) ∧
  (z.port p).ready = false ∧ (z.port p).agreed = 0 ∧ (z.port p).mailbox = Mailbox.reset ∧ (z.port p).perst = (m.port p).perst ∧
  (z.port p).up = (m.port p).up ∧ (∀ q, q < 16 → q / 8 = p → z.queue q = Queue.reset) ∧ (∀ q, q / 8 ≠ p → z.queue q = m.queue q) ∧
  (∀ v ∈ z.mgmt.staged, v.path ≠ 8 + p) ∧ z.fw.session ≠ some (8 + p) ∧ z.cores = m.cores ∧ z.hbm = m.hbm ∧
  (cs = [] → z.jobs = m.jobs ∧ z.store = m.store) ∧
  KeepsBut (.ports :: .queues :: .mgmt :: .fw :: .jobs :: .store :: .orphans :: reporting) m z

/-- A context in any state but FREE is there. -/
theorem job_inside {m : Module} {j : Nat} (busy : (m.job j).state ≠ 0) : j < m.jobs.length := by
  by_contra out
  rw [Module.job, List.getD_eq_default _ _ (Nat.le_of_not_lt out)] at busy
  exact busy rfl

theorem portGone_portReset (fu : Fuses) (m : Module) {p : Nat} (hp : p < 2) (ports : m.host.ports.length = 2)
    (queues : m.host.queues.length = 16) (cause : Nat) : PortGone fu m p cause (portReset fu m p cause) := by
  obtain ⟨jobs, store, orphans⟩ := portReset_leaves fu m p cause
  have job : ∀ j, (m.job j).state ≠ 0 → (portReset fu m p cause).job j = (m.portCmds p).foldl (jobDropped j) (m.job j) := fun j busy => by
    rw [Module.job, jobs]
    exact job_dropOnes (m.portCmds p) (m, 0) (job_inside busy)
  have down := port_portReset fu m p cause (by omega)
  have keeps := keeps_trans (keeps_mono (keeps_portCleared m p) (by decide)) (keeps_mono (keeps_portReset fu m p cause)
    (qs := .ports :: .queues :: .mgmt :: .fw :: .jobs :: .store :: .orphans :: reporting) (by decide))
  refine ⟨⟨portCleared m p, rfl⟩, fun c hc op started loading => ?_, fun j loaded => ?_, fun j done => ?_, ?_, ?_, ?_, ?_, ?_, ?_, ?_,
    fun q hq at_ => ?_, fun q other => ?_, fun v hv => ?_, session_portReset fu m p cause, keeps .cores (by decide),
    keeps .hbm (by decide), fun none => ⟨?_, ?_⟩, keeps⟩
  · rw [job _ (by omega), jobsDropped_of_loading loading hc op started rfl]
    rfl
  · rw [job _ (by omega), jobsDropped_of_loaded loaded]
    rfl
  · rw [job _ (by omega), jobsDropped_of_done done]
  · rw [store]
    exact store_dropOnes (m.portCmds p) (m, 0)
  · rw [orphans]
    exact orphans_dropOnes (m.portCmds p) (m, 0)
  · rw [down]; rfl
  · rw [down]; rfl
  · rw [down]; rfl
  · rw [down]; rfl
  · rw [down]; rfl
  · rw [queue_portReset, if_pos ⟨at_, by omega⟩]
  · rw [queue_portReset, if_neg (fun h => other h.1)]
  · rw [mgmt_portReset] at hv
    simpa using (List.mem_filter.1 hv).2
  · rw [jobs, portDropped, none]
    rfl
  · rw [store, portDropped, none]
    rfl

/-! ### PERST#, links and readiness -/

/-- A change of a port that leaves its mailbox. -/
theorem keeps_onPort_of_mailbox (m : Module) (p : Nat) {f : Port → Port} (mailbox : ∀ t, (f t).mailbox = t.mailbox) :
    KeepsBut [.ports] m (m.onPort p f) := by
  have mailboxes : (m.onPort p f).host.ports.map Port.mailbox = m.host.ports.map Port.mailbox := map_modifyAt mailbox _ _
  intro part hpart
  cases part <;> simp_all [Part.same]

theorem latchCalib_onPort (m : Module) (p : Nat) (f : Port → Port) (i : Nat) :
    (m.onPort p f).latchCalib i = (m.latchCalib i).onPort p f := by
  unfold Module.latchCalib Module.onPort
  rfl

theorem latchAll_onPort (m : Module) (p : Nat) (f : Port → Port) (is : List Nat) :
    (m.onPort p f).latchAll is = (m.latchAll is).onPort p f := by
  unfold Module.latchAll
  induction is generalizing m with
  | nil => rfl
  | cons i is ih => rw [List.foldl_cons, latchCalib_onPort, ih, List.foldl_cons]

theorem ports_latchAll (m : Module) (is : List Nat) : (m.latchAll is).host.ports = m.host.ports :=
  foldl_keep (fun n : Module => n.host.ports) is Module.latchCalib (fun _ _ => rfl) m

section
variable {s : State} {p : Nat} (hp : p < 2) (powered : s.m.powered = true) (ports : s.m.host.ports.length = 2)
include hp powered ports

omit hp powered ports in
theorem port_onPort_other (m : Module) (f : Port → Port) : (m.onPort p f).port (1 - p) = m.port (1 - p) := by
  rw [port_onPort, if_neg (by omega)]

omit hp powered in
theorem port_onPort_self (hp : p < 2) (f : Port → Port) : (s.m.onPort p f).port p = f (s.m.port p) := by
  rw [port_onPort, if_pos ⟨rfl, by omega⟩]

omit powered in
theorem goes_perstRelease : Goes s (.perstRelease p) (fun n => n.port p = { s.m.port p with perst := false } ∧
    n.port (1 - p) = s.m.port (1 - p) ∧ KeepsBut [.ports] s.m n) := by
  refine goes_act (f := fun _ m => m.onPort p (fun t => { t with perst := false })) (if_pos hp) ?_
  exact ⟨port_onPort_self ports hp _, port_onPort_other s.m _, keeps_onPort_of_mailbox s.m p (by exact fun _ => rfl)⟩

theorem goes_linkTrained (free : (s.m.port p).perst = false) (gts width : Nat) : Goes s (.linkTrained p gts width) (fun n =>
    (n.port p).up = true ∧ (n.port p).gts = gts ∧ (n.port p).width = width ∧ (n.port p).ready = (s.m.port p).ready ∧
    n.calib = (s.m.latchAll (hostCalib p)).calib ∧
    (64 ≤ gts → 16 ≤ width → n.port (1 - p) = s.m.port (1 - p) ∧ KeepsBut [.ports, .calib] s.m n) ∧
    KeepsBut (.ports :: .calib :: reporting) s.m n) := by
  refine goes_actOn rfl (decide_eq_true hp) powered ?_
  rw [if_neg (by simp [free])]
  dsimp only
  rw [latchAll_onPort]
  generalize trained : (s.m.latchAll (hostCalib p)).onPort p (fun t => { t with up := true, gts := gts, width := width }) = x
  have latched : (s.m.latchAll (hostCalib p)).host.ports = s.m.host.ports := ports_latchAll s.m (hostCalib p)
  have at_ : x.port p = { s.m.port p with up := true, gts := gts, width := width } := by
    rw [← trained, port_onPort, if_pos ⟨rfl, by rw [latched]; omega⟩, Module.port, latched, Module.port]
  have other : x.port (1 - p) = s.m.port (1 - p) := by
    rw [← trained, port_onPort_other, Module.port, latched, Module.port]
  have calib : x.calib = (s.m.latchAll (hostCalib p)).calib := by rw [← trained, onPort_calib]
  have keeps : KeepsBut [.ports, .calib] s.m x := by
    rw [← trained]
    exact keeps_trans (keeps_mono (keeps_latchAll s.m _) (by decide)) (keeps_mono (keeps_onPort_of_mailbox _ p (by exact fun _ => rfl)) (by decide))
  split
  · next slow =>
    have told := fun l => (kb_event (ps := reporting) (m := x) (n := x) s.fuse 0x0550 l (by decide) (by decide) (by decide)).2 (keeps_refl _ _)
    have port := fun l => barePort_of_keeps (told l) (by decide) p
    refine ⟨?_, ?_, ?_, ?_, ?_, fun fast wide => ?_, ?_⟩
    · exact (congrArg Port.up (port [p, gts, width])).trans (by rw [at_]; rfl)
    · exact (congrArg Port.gts (port [p, gts, width])).trans (by rw [at_]; rfl)
    · exact (congrArg Port.width (port [p, gts, width])).trans (by rw [at_]; rfl)
    · exact (congrArg Port.ready (port [p, gts, width])).trans (by rw [at_]; rfl)
    · exact (told _ .calib (by decide)).trans calib
    · simp at slow; omega
    · exact keeps_trans (keeps_mono keeps (by decide)) (keeps_mono (told _) (by decide))
  · exact ⟨by rw [at_], by rw [at_], by rw [at_], by rw [at_], calib, fun _ _ => ⟨other, keeps⟩, keeps_mono keeps (by decide)⟩

theorem goes_functionReady (queues : s.m.host.queues.length = 16) (free : (s.m.port p).perst = false)
    (unready : (s.m.port p).ready = false) (serves : s.m.mgmt.reachable = true ∨ s.m.mgmt.romService = true ∧ p = 0) :
    Goes s (.functionReady p) (fun n =>
      n.port p = { s.m.port p with ready := true, agreed := 0, mailbox := Mailbox.reset } ∧ n.port (1 - p) = s.m.port (1 - p) ∧
      (∀ q, q < 16 → q / 8 = p → n.queue q = Queue.reset) ∧ (∀ q, q / 8 ≠ p → n.queue q = s.m.queue q) ∧
      KeepsBut [.ports, .queues, .report] s.m n) := by
  refine goes_actOn rfl (decide_eq_true hp) powered ?_
  have serving : (s.m.mgmt.reachable || (s.m.mgmt.romService && decide (p = 0))) = true := by simpa using serves
  dsimp only
  rw [if_neg (by rw [free, unready, serving]; decide)]
  have mapped : (List.range 8).foldl (fun (m : Module) i => m.onQueue (8 * p + i) (fun _ => Queue.reset)) s.m =
      queuesReset ((List.range 8).map (8 * p + ·)) s.m := by
    rw [queuesReset, List.foldl_map]
  have mem : ∀ q, q ∈ (List.range 8).map (8 * p + ·) ↔ q / 8 = p := fun q => by
    rw [← mem_portQueues, portQueues]
    simp only [Nat.add_comm]
  rw [mapped]
  generalize reset : queuesReset ((List.range 8).map (8 * p + ·)) s.m = x
  have same : x.host.ports = s.m.host.ports := by
    rw [← reset, ports_queuesReset]
  have keeps : KeepsBut [.queues] s.m x := reset ▸ keeps_queuesReset _ _
  have queue : ∀ q, x.queue q = if q / 8 = p ∧ q < 16 then Queue.reset else s.m.queue q := fun q => by
    rw [← reset, queuesReset_queues, queues]
    simp only [mem]
  have port : ∀ k, x.port k = s.m.port k := fun k => by rw [Module.port, same, Module.port]
  refine ⟨?_, ?_, fun q hq at_ => ?_, fun q other => ?_, ?_⟩
  · rw [port_onPort, if_pos ⟨rfl, by rw [same]; omega⟩, port]
  · rw [port_onPort_other, port]
  · rw [queue_of_onPort, queue, if_pos ⟨at_, hq⟩]
  · rw [queue_of_onPort, queue, if_neg (fun h => other h.1)]
  · exact keeps_trans (keeps_mono keeps (by decide)) (keeps_mono (keeps_onPort x p _) (by decide))

end

/-- Settles O54: a reset drops the port's commands one after the other, each touching its own context or object, and the notifications of
its event pass a mailbox that is not enabled by. -/
theorem portResetsKeepToTheirPort : Obligations.PortResetsKeepToTheirPort := by
  intro s p hp powered ports queues m fu t otherPort otherQueues cs gone
  have reset : ∀ cause, gone cause (portReset fu m p cause) := fun cause => portGone_portReset fu m hp ports queues cause
  refine ⟨goes_perstRelease hp ports, fun gts width free => goes_linkTrained hp powered ports free gts width,
    fun free unready serves => goes_functionReady hp powered ports queues free unready serves, fun up => ⟨?_, ?_, ?_⟩, fun free => ?_⟩
  · refine goes_actOn rfl (decide_eq_true hp) powered ?_
    rw [if_neg (by simpa using up)]
    exact ⟨_, reset 3, resetPort_eq fu m p 3⟩
  · refine goes_actOn rfl (decide_eq_true hp) powered ?_
    rw [if_neg (by simpa using up)]
    exact ⟨_, reset 1, congrArg (fun x : Module => x.onPort p Port.down) (resetPort_eq fu m p 1)⟩
  · refine goes_actOn rfl (decide_eq_true hp) powered ?_
    rw [if_neg (by simpa using up)]
    exact ⟨_, reset 2, congrArg (fun x : Module => x.onPort p Port.down) (resetPort_eq fu m p 2)⟩
  · refine goes_act (if_pos hp) ?_
    rw [if_neg (by simpa using free), if_pos powered]
    exact ⟨_, reset 0, congrArg (fun x : Module => x.onPort p (fun t => { t.down with perst := true })) (resetPort_eq fu m p 0)⟩

end Sys2Proof.Proofs
end

section
/-!
PROOFS. Management requests that Capstan serves (R436 to R440): taken, answered on their path.
-/
namespace Sys2Proof.Proofs

open Sys2Proof.Machine Sys2Proof.Laws

section
variable (fu : Fuses) (m : Module) (r : Req)

/-- A request that is taken from a mailbox changes nothing; one from a frame is counted and may be reported. -/
theorem keeps_takeFrame : KeepsBut reporting m (m.takeFrame fu r) := by
  unfold Module.takeFrame
  exact keeps_ite (keeps_refl _ _) (keeps_ite (by simp [reporting, keeps_refl]) (by simp [reporting, keeps_refl]))

theorem takeFrame_of_mailbox (mailbox : r.onField = false) : m.takeFrame fu r = m := by
  rw [Module.takeFrame, mailbox, Bool.not_false, if_pos rfl]

theorem romService_takeFrame : (m.takeFrame fu r).mgmt.romService = m.mgmt.romService := by
  have same := congrArg Mgmt.romService (keeps_takeFrame fu m r .mgmt (by decide))
  exact same

/-- What a path's answer leaves: the answer, on the field network or in the path's mailbox. -/
theorem sendReply_jobs (msg : List Byte) : (m.sendReply fu r msg).jobs = m.jobs := by
  unfold Module.sendReply
  split
  · exact sendFrame_jobs fu m r.mac r.node msg
  · rfl

end

/-- The answer as it leaves: one that its path does not hold is MALFORMED (R440). -/
def fitReply (r : Req) (a : Reply) : Reply := if pathLimit r.path < a.body.length then Reply.plain stMalformed else a

/-- The module once a request has had its effect and its answer has left. -/
def answered (fu : Fuses) (r : Req) (x : Module × Reply) : Module :=
  x.1.sendReply fu r (message r.type r.seq (fitReply r x.2).status (fitReply r x.2).clamped (fitReply r x.2).overridden true
    (fitReply r x.2).body)

section
variable {s : State} {src : MsgFrom} {r : Req} {m : Module} (asks : Asks s src r m)
include asks

/-- A request that is served has its effect, and its answer leaves. -/
theorem serveRow_asks {mine : Req → Bool} (own : mine r = true) (f : Fuses → Module → Req → Module × Reply) :
    serveRow src mine f s = .next { s with m := answered s.fuse r (f s.fuse m r) } := by
  obtain ⟨wf, powered, reachable, rom, req, rfl, kept, flags, fits⟩ := asks
  have serves : s.m.serves src = true := by rw [Module.serves, reachable, Bool.true_or]
  have running : (s.m.takeFrame s.fuse r).mgmt.romService = false := (romService_takeFrame s.fuse s.m r).trans rom
  have formed : (r.flags != 0 || decide (pathLimit r.path < r.len)) = false := by simp [flags, fits]
  have fresh : bitAt r.flags 0 = false := by
    rw [flags]
    decide
  unfold serveRow
  rw [actOn_powered s _ _ (by cases src; exact wf; rfl) powered]
  simp only [Module.serve, serves, req, own, fresh, kept, formed, running, Bool.not_true, Bool.false_and, Bool.false_eq_true, if_false]
  rfl

/-- A request that is served and whose answer fits its path. -/
theorem goes_serve {c : Instr} {mine : Req → Bool} {f : Fuses → Module → Req → Module × Reply} (runs : exec c s = serveRow src mine f s)
    (own : mine r = true) {z : Module} {a : Reply} (answer : f s.fuse m r = (z, a)) (fits : a.body.length ≤ pathLimit r.path)
    {P : Module → Prop} (holds : P z) : Goes s c (Replies s.fuse r a.status a.clamped a.overridden a.body P) := by
  rw [serveRow_asks asks own f, answer] at runs
  have whole : fitReply r a = a := if_neg (Nat.not_lt.2 fits)
  refine ⟨_, runs, rfl, rfl, z, holds, ?_⟩
  dsimp only
  rw [answered, whole]

/-- An OD_WRITE that passes every check has the effect that its row gives it. -/
theorem writeRow_asks {row : Nat} {o : OdReq} {d : ObjDef} (writes : Writes m r row o d)
    (f : Fuses → Module → Nat → OdReq → ObjDef → Module × Reply) :
    writeRow src row f s = .next { s with m := answered s.fuse r (f s.fuse m r.path o d) } := by
  obtain ⟨type, own, checked⟩ := writes
  rw [writeRow, serveRow_asks asks (by simp [type, own])]
  simp only [checked]

end

/-! ### A fence from a management path (R454) -/

/-- The register of core `g` set by management on a core without a job: the jobs are those that the blame of its fence request leaves. -/
theorem applyFence_jobs (fu : Fuses) {m : Module} {g : Nat} (free : (m.core g).job = none) :
    (m.applyFence fu g false).jobs = (m.blameFence (m.core g)).jobs := by
  have ended := fenceEnds_jobs fu m g
  unfold fenceEnds at ended
  unfold Module.applyFence
  simp only [free] at ended ⊢
  rw [checkCores_jobs, onCore_jobs]
  exact ended

/-- A write of core_fence_mask that sets the register of one core, which has no job. -/
theorem jobs_of_mask {s t : State} {src : MsgFrom} {r : Req} {m : Module} (asks : Asks s src r m) {o : OdReq} {d : ObjDef}
    (writes : Writes m r 3 o d) {g : Nat}
    (sets : (newBits (field m.mgmt.mirror (32 * (o.sub - 1)) 32) (leNat o.data) 32).map (· + 32 * (o.sub - 1)) = [g])
    (clears : (newBits (leNat o.data) (field m.mgmt.mirror (32 * (o.sub - 1)) 32) 32).map (· + 32 * (o.sub - 1)) = [])
    (free : (m.core g).job = none) (runs : exec (.coreFenceMask src) s = .next t) :
    t.m.jobs = (m.blameFence (m.core g)).jobs := by
  change execCoreFenceMask src s = .next t at runs
  rw [execCoreFenceMask, writeRow_asks asks writes] at runs
  simp only [sets, clears, List.any_nil, Bool.false_eq_true, if_false, List.foldl_cons, List.foldl_nil] at runs
  have jobs := applyFence_jobs s.fuse free
  generalize m.applyFence s.fuse g false = x at runs jobs
  cases runs
  dsimp only [answered]
  rw [sendReply_jobs]
  exact jobs

namespace BlamedFence

/-- An instruction of job 0. -/
def inst : Inst := { job := 0, core := 0, index := 0, words := [], entry := none }

/-- A core without a job whose fence request names that instruction. -/
def core : Core := { Core.reset with fenceReq := some { status := stFenced, inst := some inst, age := 0 } }

/-- A write of 1 to core_fence_mask 0x3100:01: core 0 is to be fenced. -/
def request : List Byte := message 0x0011 1 0 false false false (leBytes 8 (0x3100 * 2 ^ 48 + 2 ^ 40 + 4) ++ zeros 8 ++ leBytes 4 1)

/-- A port whose mailbox holds that write. -/
def port : Port :=
  { Port.reset with
    perst := false, up := true, ready := true, agreed := 1
    mailbox := { Mailbox.reset with busy := true, taken := some request } }

/-- The module after reset with its dictionary reachable, that port and that core. -/
def bench : Module :=
  { Module.reset with
    mgmt := { Module.reset.mgmt with reachable := true }
    cores := core :: List.replicate 383 Core.reset
    host := { Module.reset.host with ports := [port, Port.reset] } }

/-- The write waits in the mailbox. -/
def state : State := { State.reset with m := bench }

/-- The write as the module reads it. -/
def req : Req := readReq 8 0 0 request

/-- The object that it names. -/
def object : OdReq := { index := 0x3100, sub := 1, staged := false, len := 4, off := 0, data := leBytes 4 1 }

/-- The row of core_fence_mask. -/
def row : ObjDef := .row 0x3100 0x3100 1 12 3 1 0 0 4294967295 0

theorem asks : Asks state (.mailbox 0) req bench :=
  ⟨rfl, by decide, rfl, rfl, by decide, by rw [takeFrame_of_mailbox _ _ _ (by decide)]; rfl, by decide, by decide, by decide⟩

theorem writes : Writes bench req 3 object row := ⟨by decide, by decide, by decide⟩

theorem cores_length : bench.cores.length = 384 := by
  rw [show bench.cores = core :: List.replicate 383 Core.reset from rfl, List.length_cons, List.length_replicate]

/-- The write blames the instruction. -/
theorem jobs_of_write {t : State} (runs : exec (.coreFenceMask (.mailbox 0)) state = .next t) :
    t.m.jobs = (bench.blame inst).jobs := by
  rw [jobs_of_mask asks writes (g := 0) (by decide) (by decide) (by decide) runs]
  rfl

/-- The cause of job 0's attempt is the instruction then, and was none. -/
theorem jobs_blamed : (bench.blame inst).jobs ≠ bench.jobs := by decide

end BlamedFence

/-- Refutes O55: its clause of a write of core_fence_mask that clears no bit says that it changes nothing but cores, management and reports
where the cores that it fences have no job. In `BlamedFence.state` core 0 has no job, but its fence request names an instruction of job 0,
which the fence blames (R203): the run of that job changes. -/
theorem not_messagesAreServed : ¬ Obligations.MessagesAreServed := by
  intro holds
  obtain ⟨served, -⟩ := holds
  obtain ⟨-, -, -, -, -, -, -, -, mask, -, -⟩ := served BlamedFence.state (.mailbox 0) BlamedFence.req BlamedFence.bench BlamedFence.asks
  obtain ⟨-, sets, -⟩ := mask BlamedFence.object BlamedFence.row BlamedFence.writes BlamedFence.cores_length
  obtain ⟨t, runs, -, -, z, ⟨-, -, keeps⟩, answer⟩ := sets (by decide)
  have jobs : z.jobs = BlamedFence.bench.jobs := keeps (by decide) .jobs (by decide)
  have left := BlamedFence.jobs_of_write runs
  rw [answer, sendReply_jobs, jobs] at left
  exact BlamedFence.jobs_blamed left.symm

end Sys2Proof.Proofs
end

section
/-!
PROOFS. Firmware updates (R444, R457) and attestation (R540 to R542).
-/
namespace Sys2Proof.Proofs

open Sys2Proof.Machine Sys2Proof.Laws

/-! ### Slots -/

theorem keeps_onFw (m : Module) (f : Firmware → Firmware) : KeepsBut [.fw] m (m.onFw f) := by
  intro part hpart
  cases part <;> simp_all [Part.same, Module.onFw]

/-- A slot after a change of a slot. -/
theorem slot_onSlot (f : Firmware) (i k : Nat) (g : FwSlot → FwSlot) :
    (f.onSlot i g).slot k = if k = i ∧ i < f.slots.length then g (f.slot i) else f.slot k := by
  simp only [Firmware.slot, Firmware.onSlot, modifyAt_getD]

/-- The slot that an update writes is the other one. -/
theorem target_ne {f : Firmware} (two : f.running < 2) : f.target ≠ f.running ∧ f.target < 2 := by
  unfold Firmware.target
  omega

section
variable {f : Firmware} (slots : f.slots.length = 2) (two : f.running < 2)
include slots two

/-- A change of the slot that is written leaves the one that runs. -/
theorem onSlot_target (g : FwSlot → FwSlot) : (f.onSlot f.target g).slot f.target = g (f.slot f.target) ∧
    (f.onSlot f.target g).slot f.running = f.slot f.running := by
  obtain ⟨other, inside⟩ := target_ne two
  exact ⟨by rw [slot_onSlot, if_pos ⟨rfl, by omega⟩], by rw [slot_onSlot, if_neg (fun h => other h.1.symm)]⟩

end

/-! ### Updates -/

section
variable {s : State} {src : MsgFrom} {r : Req} {m : Module} (asks : Asks s src r m)
include asks

/-- An FW_UPDATE of level 2 whose form is right has the effect that its row gives it. -/
theorem goes_fw {c : Instr} {op : Nat} (updates : Updates m r op) {mine : Nat → Bool}
    {f : Fuses → Module → Req → Module × Reply} (runs : exec c s = fwRow src mine f s) (own : mine op = true) {z : Module} {st : Nat}
    (answer : f s.fuse m r = (z, Reply.plain st)) {P : Module → Prop} (holds : P z) :
    Goes s c (Replies s.fuse r st false false [] P) := by
  obtain ⟨type, rfl, form, level⟩ := updates
  refine goes_serve asks runs (a := Reply.plain st) (by simp [type, own]) ?_ (Nat.zero_le _) holds
  rw [form, Bool.not_true, if_neg Bool.false_ne_true, if_neg (Nat.not_lt.2 level)]
  exact answer

section
variable (slots : m.fw.slots.length = 2) (two : m.fw.running < 2)
include slots two

theorem goes_fwUpdateBegin (updates : Updates m r 1) (closed : m.fw.session = none) (fits : leAt r.body 16 8 ≤ 2 ^ 28 - 64) :
    Goes s (.fwUpdateBegin src) (Replies s.fuse r stOk false false [] (fun z =>
      z.fw.session = some r.path ∧ (z.fw.slot m.fw.target).state = 0 ∧
      (z.fw.slot m.fw.target).data = Mem.write [] 0 (r.body.drop 8) ∧ (z.fw.slot m.fw.target).written = [(0, 64)] ∧
      (z.fw.running = m.fw.running ∧ z.fw.slot m.fw.running = m.fw.slot m.fw.running) ∧ KeepsBut [.fw] m z)) := by
  obtain ⟨self, other⟩ := onSlot_target slots two (fun _ =>
    { state := 0, trials := 0, data := Mem.write [] 0 (r.body.drop 8), written := [(0, 64)], factory := false })
  refine goes_fw (c := .fwUpdateBegin src) asks updates (z := m.onFw (fun f => { f.onSlot f.target (fun _ =>
    { state := 0, trials := 0, data := Mem.write [] 0 (r.body.drop 8), written := [(0, 64)], factory := false }) with
      session := some r.path })) (Eq.refl (execFwUpdateBegin src s)) rfl ?_ ⟨rfl, ?_, ?_, ?_, ⟨rfl, other⟩, keeps_onFw m _⟩
  · obtain ⟨-, op, -⟩ := updates
    dsimp only
    rw [op, if_neg (by decide), closed, if_neg (by decide), if_neg (Nat.not_lt.2 fits)]
  · exact congrArg FwSlot.state self
  · exact congrArg FwSlot.data self
  · exact congrArg FwSlot.written self

theorem goes_fwUpdateData (updates : Updates m r 2) (opened : m.fw.session = some r.path)
    (fits : leAt r.body 8 8 + (r.body.length - 16) ≤ (m.fw.slot m.fw.target).blockEnd) :
    Goes s (.fwUpdateData src) (Replies s.fuse r stOk false false [] (fun z =>
      z.fw.slot m.fw.target = { m.fw.slot m.fw.target with
        data := (m.fw.slot m.fw.target).data.write (leAt r.body 8 8) (r.body.drop 16)
        written := addPiece (m.fw.slot m.fw.target).written (leAt r.body 8 8) (r.body.length - 16) } ∧
      z.fw.session = m.fw.session ∧
      (z.fw.running = m.fw.running ∧ z.fw.slot m.fw.running = m.fw.slot m.fw.running) ∧ KeepsBut [.fw] m z)) := by
  obtain ⟨self, other⟩ := onSlot_target slots two (fun t => { t with
    data := t.data.write (leAt r.body 8 8) (r.body.drop 16)
    written := addPiece t.written (leAt r.body 8 8) (r.body.drop 16).length })
  refine goes_fw (c := .fwUpdateData src) asks updates (z := m.onFw (fun f => f.onSlot f.target (fun t => { t with
    data := t.data.write (leAt r.body 8 8) (r.body.drop 16)
    written := addPiece t.written (leAt r.body 8 8) (r.body.drop 16).length }))) (Eq.refl (execFwUpdateData src s)) rfl ?_ ⟨?_, rfl, ⟨rfl, other⟩, keeps_onFw m _⟩
  · dsimp only
    rw [opened, if_neg (by simp), List.length_drop, if_neg (Nat.not_lt.2 fits)]
  · rw [← List.length_drop]
    exact self

theorem goes_fwUpdateActivate (updates : Updates m r 4) (valid : (m.fw.slot m.fw.target).state = 1) :
    Goes s (.fwUpdateActivate src) (Replies s.fuse r stOk false false [] (fun z =>
      z.fw.slot m.fw.target = { m.fw.slot m.fw.target with state := 2, trials := 0 } ∧
      (z.fw.running = m.fw.running ∧ z.fw.slot m.fw.running = m.fw.slot m.fw.running) ∧ KeepsBut [.fw] m z)) := by
  obtain ⟨self, other⟩ := onSlot_target slots two (fun t => { t with state := 2, trials := 0 })
  refine goes_fw (c := .fwUpdateActivate src) asks updates
    (z := m.onFw (fun f => f.onSlot f.target (fun t => { t with state := 2, trials := 0 }))) (Eq.refl (execFwUpdateActivate src s)) rfl ?_ ⟨self, ⟨rfl, other⟩, keeps_onFw m _⟩
  rw [valid, if_neg (by decide)]

end

/-- A second session is turned away. -/
theorem goes_fwUpdateBegin_of_open (updates : Updates m r 1) (opened : m.fw.session.isSome = true) :
    Goes s (.fwUpdateBegin src) (Replies s.fuse r stDenied false false [] (fun z => z = m)) := by
  refine goes_fw (c := .fwUpdateBegin src) asks updates (z := m) (Eq.refl (execFwUpdateBegin src s)) rfl ?_ rfl
  obtain ⟨-, op, -⟩ := updates
  dsimp only
  rw [op, if_neg (by decide), if_pos opened]

theorem goes_fwUpdateActivate_of_invalid (updates : Updates m r 4) (invalid : (m.fw.slot m.fw.target).state ≠ 1) :
    Goes s (.fwUpdateActivate src) (Replies s.fuse r stDenied false false [] (fun z => z = m)) := by
  exact goes_fw (c := .fwUpdateActivate src) asks updates (z := m) (Eq.refl (execFwUpdateActivate src s)) rfl
    (if_pos (by simpa using invalid)) rfl

theorem goes_fwUpdateAbort (updates : Updates m r 5) (opened : m.fw.session = some r.path) :
    Goes s (.fwUpdateAbort src) (Replies s.fuse r stOk false false [] (fun z =>
      z.fw = { m.fw with session := none } ∧ KeepsBut [.fw] m z)) := by
  refine goes_fw (c := .fwUpdateAbort src) asks updates (z := m.onFw (fun f => { f with session := none })) (Eq.refl (execFwUpdateAbort src s)) rfl ?_ ⟨rfl, keeps_onFw m _⟩
  rw [if_neg (by simp [opened])]

/-- Without its session a path can neither write nor end nor abort an update. -/
theorem goes_fwUpdate_of_closed (closed : m.fw.session ≠ some r.path) (ups : List FlashUpset) : ∀ c ∈ [(2, Instr.fwUpdateData src),
      (3, Instr.fwUpdateEnd src ups), (5, Instr.fwUpdateAbort src)], Updates m r c.1 →
    Goes s c.2 (Replies s.fuse r stDenied false false [] (fun z => z = m)) := by
  have away : (m.fw.session != some r.path) = true := by simpa using closed
  have data : ∀ updates : Updates m r 2, Goes s (.fwUpdateData src) (Replies s.fuse r stDenied false false [] (fun z => z = m)) :=
    fun updates => goes_fw (c := .fwUpdateData src) asks updates (Eq.refl (execFwUpdateData src s)) rfl (if_pos away) rfl
  have ends : ∀ updates : Updates m r 3, Goes s (.fwUpdateEnd src ups) (Replies s.fuse r stDenied false false [] (fun z => z = m)) :=
    fun updates => goes_fw (c := .fwUpdateEnd src ups) asks updates (Eq.refl (execFwUpdateEnd src ups s)) rfl (if_pos away) rfl
  have abort : ∀ updates : Updates m r 5, Goes s (.fwUpdateAbort src) (Replies s.fuse r stDenied false false [] (fun z => z = m)) :=
    fun updates => goes_fw (c := .fwUpdateAbort src) asks updates (Eq.refl (execFwUpdateAbort src s)) rfl (if_pos away) rfl
  simpa using And.intro data (And.intro ends abort)

/-! #### The end of an update -/

omit asks in
theorem keeps_failEnd (fu : Fuses) (m : Module) (st : Nat) : KeepsBut reporting m (m.failEnd fu st).1 := by
  simp [Module.failEnd, reporting, keeps_refl]

omit asks in
theorem keeps_pageReads (fu : Fuses) (m : Module) (part id : Nat) (ups : List FlashUpset) :
    KeepsBut (.store :: reporting) m (m.pageReads fu part id ups) := by
  refine kb_foldl _ _ (fun m u => ?_) m
  split
  · exact keeps_pageRebuilt _ _ _ _ _ _
  · exact keeps_pageLost _ _ _ _ _ _ _
  · exact keeps_refl _ _
  · exact keeps_refl _ _
  · exact keeps_ownUpset _ _ _

theorem goes_fwUpdateEnd_of_part (updates : Updates m r 3) (opened : m.fw.session = some r.path)
    (part : (m.fw.slot m.fw.target).whole = false) (ups : List FlashUpset) :
    Goes s (.fwUpdateEnd src ups) (Replies s.fuse r stDenied false false [] (fun z =>
      z.fw = { m.fw with session := none } ∧ KeepsBut (.fw :: reporting) m z)) := by
  have failed := keeps_failEnd s.fuse (m.onFw (fun f => { f with session := none })) stDenied
  refine goes_fw (c := .fwUpdateEnd src ups) asks updates (z := ((m.onFw (fun f => { f with session := none })).failEnd s.fuse stDenied).1) (Eq.refl (execFwUpdateEnd src ups s)) rfl ?_
    ⟨failed .fw (by decide), keeps_trans (keeps_mono (keeps_onFw m _) (by decide)) (keeps_mono failed (by decide))⟩
  dsimp only
  rw [if_neg (by simp [opened])]
  exact if_pos (congrArg (!·) part)

/-- An END of a slot that is written whole: the slot is read back, and becomes VALID or stays as it is. -/
theorem goes_fwUpdateEnd_of_whole (updates : Updates m r 3) (opened : m.fw.session = some r.path)
    (slots : m.fw.slots.length = 2) (two : m.fw.running < 2)
    (whole : (m.fw.slot m.fw.target).whole = true) (ups : List FlashUpset) :
    let verified := (({ m.fw with session := none } : Firmware).verify s.fuse m.fw.target true).1
    let kept := fun (z : Module) => (ups = [] → z.store = m.store) ∧ KeepsBut (.fw :: .store :: reporting) m z
    (slotLost ups = false → verified = 0 → Goes s (.fwUpdateEnd src ups) (Replies s.fuse r stOk false false [] (fun z =>
      z.fw.session = none ∧ z.fw.slot m.fw.target = { m.fw.slot m.fw.target with state := 1 } ∧
      (z.fw.running = m.fw.running ∧ z.fw.slot m.fw.running = m.fw.slot m.fw.running) ∧ kept z))) ∧
    (slotLost ups = false → verified ≠ 0 → Goes s (.fwUpdateEnd src ups) (Replies s.fuse r stDenied false false [] (fun z =>
      z.fw = { m.fw with session := none } ∧ kept z))) ∧
    (slotLost ups = true → Goes s (.fwUpdateEnd src ups) (Replies s.fuse r stPoison false false [] (fun z =>
      z.fw = { m.fw with session := none } ∧ kept z))) := by
  intro verified kept
  have opens : ¬ (m.fw.session != some r.path) = true := by simp [opened]
  generalize closed : m.onFw (fun f => { f with session := none }) = x
  have fw : x.fw = { m.fw with session := none } := by
    rw [← closed]
    rfl
  have target : x.fw.target = m.fw.target := by
    rw [fw]
    rfl
  have reads : (x.fw.slot m.fw.target).whole = true := by
    rw [fw]
    exact whole
  have base : KeepsBut [.fw] m x := closed ▸ keeps_onFw m _
  generalize read : x.pageReads s.fuse 5 m.fw.target ups = y
  have reading : KeepsBut (.store :: reporting) x y := read ▸ keeps_pageReads s.fuse x 5 m.fw.target ups
  have stored : ups = [] → y.store = m.store := fun none => by
    rw [← read, none]
    exact base .store (by decide)
  have still : y.fw = { m.fw with session := none } := (reading .fw (by decide)).trans fw
  have checked : (y.fw.verify s.fuse m.fw.target true).1 = verified := by rw [still]
  have keeps : KeepsBut (.fw :: .store :: reporting) m y :=
    keeps_trans (keeps_mono base (by decide)) (keeps_mono reading (by decide))
  have failed : ∀ st, (y.failEnd s.fuse st).1.fw = { m.fw with session := none } ∧ kept (y.failEnd s.fuse st).1 := fun st => by
    have told := keeps_failEnd s.fuse y st
    exact ⟨(told .fw (by decide)).trans still, fun none => (told .store (by decide)).trans (stored none),
      keeps_trans keeps (keeps_mono told (by decide))⟩
  refine ⟨fun found sound => ?_, fun found unsound => ?_, fun lost => ?_⟩
  · generalize marked : y.onFw (fun f => f.onSlot m.fw.target (fun t => { t with state := 1 })) = w
    obtain ⟨self, other⟩ := onSlot_target (f := { m.fw with session := none }) slots two (fun t => { t with state := 1 })
    have valid : w.fw = ({ m.fw with session := none } : Firmware).onSlot m.fw.target (fun t => { t with state := 1 }) := by
      rw [← marked, ← still]
      rfl
    have told : KeepsBut reporting w (w.event s.fuse 0x0A03 [m.fw.target, (y.fw.slot m.fw.target).version]) := by
      simp [reporting, keeps_refl]
    have changed : KeepsBut [.fw] y w := marked ▸ keeps_onFw y _
    refine goes_fw (c := .fwUpdateEnd src ups) asks updates (z := w.event s.fuse 0x0A03 [m.fw.target, (y.fw.slot m.fw.target).version]) (Eq.refl (execFwUpdateEnd src ups s)) rfl ?_ ?_
    · simp only [opens, closed, target, reads, read, found, checked, sound, marked, if_false, bne_self_eq_false, Bool.not_true,
        Bool.false_eq_true]
    · have same := told .fw (by decide)
      rw [same, valid]
      exact ⟨rfl, self, ⟨rfl, other⟩, fun none => (told .store (by decide)).trans ((changed .store (by decide)).trans (stored none)),
        keeps_trans keeps (keeps_trans (keeps_mono changed (by decide)) (keeps_mono told (by decide)))⟩
  · refine goes_fw (c := .fwUpdateEnd src ups) asks updates (z := (y.failEnd s.fuse stDenied).1) (Eq.refl (execFwUpdateEnd src ups s)) rfl ?_ (failed stDenied)
    have differs : (verified != 0) = true := by simpa using unsound
    simp only [opens, closed, target, reads, read, found, checked, differs, if_false, if_true, Bool.not_true, Bool.false_eq_true]
    rfl
  · refine goes_fw (c := .fwUpdateEnd src ups) asks updates (z := (y.failEnd s.fuse stPoison).1) (Eq.refl (execFwUpdateEnd src ups s)) rfl ?_ (failed stPoison)
    simp only [opens, closed, target, reads, read, lost, if_false, if_true, Bool.not_true, Bool.false_eq_true]
    rfl

end

end Sys2Proof.Proofs
end

section
/-!
PROOFS. Attestation (R541, R542) and the field stress test (R488): its fences, and its end.
-/
namespace Sys2Proof.Proofs

open Sys2Proof.Machine Sys2Proof.Laws

/-! ### What a fence leaves of the other cores (R23) -/

/-- A core's enable and its fence register. -/
def fenceView (c : Core) : Bool × Bool × Bool × Nat := (c.enabled, c.ready, c.fenced, c.origin)

theorem live_of_fenceView {c d : Core} (same : fenceView d = fenceView c) :
    d.live = c.live ∧ d.fenced = c.fenced ∧ d.origin = c.origin := by
  simp only [fenceView, Prod.mk.injEq] at same
  obtain ⟨enabled, ready, fenced, origin⟩ := same
  exact ⟨by rw [Core.live, enabled, ready, fenced, Core.live], fenced, origin⟩

theorem fenceView_stop (c : Core) (n : Nat) : fenceView (c.stop n) = fenceView c := by
  obtain ⟨k, sp, e⟩ := stop_eq c n
  rw [e]
  rfl

theorem fenceViews_onCore {f : Core → Core} (hidden : ∀ c, fenceView (f c) = fenceView c) (m : Module) (g : Nat) :
    (m.onCore g f).cores.map fenceView = m.cores.map fenceView := map_modifyAt hidden _ _

/-- A core's view, from the views of them all. -/
theorem fenceView_core {m n : Module} (same : n.cores.map fenceView = m.cores.map fenceView) (g : Nat) :
    fenceView (n.core g) = fenceView (m.core g) := by
  have at_ := congrArg (fun l => l.getD g (fenceView Core.reset)) same
  exact (List.getD_map _ _ _).symm.trans (at_.trans (List.getD_map _ _ _))

section
variable (fu : Fuses) (m : Module)

theorem fenceViews_endCopies (g h : Nat) : (m.endCopies fu g h).cores.map fenceView = m.cores.map fenceView := by
  unfold Module.endCopies
  dsimp only
  split
  · rfl
  · rw [fenceViews_onCore _ _ h, copiesEnded_cores]
    intro c
    obtain ⟨k, sp, e⟩ := spoil_eq _ _
    rw [e]
    rfl

theorem fenceViews_fenceEnds (g : Nat) : (fenceEnds fu m g).cores.map fenceView = m.cores.map fenceView := by
  rw [fenceEnds_after_copies fu m g .cores (by decide),
    foldl_keep (fun n : Module => n.cores.map fenceView) (List.range 384) (fun m h => Module.endCopies fu g m h)
      (fun n h => fenceViews_endCopies fu n g h), blameFence_cores]

theorem fenceViews_endFlights (j st : Nat) : (m.endFlights fu j st).cores.map fenceView = m.cores.map fenceView := by
  refine foldl_keep (fun n : Module => n.cores.map fenceView) (m.job j).cores (fun n g => n.endFlight fu j st g) (fun n g => ?_) m
  rw [Module.endFlight, fenceViews_onCore (fun c => fenceView_stop c _), foldInstr_cores]

theorem fenceViews_endJob (j st : Nat) : (m.endJob fu j st).cores.map fenceView = m.cores.map fenceView := by
  have left : ∀ c : Core, fenceView c.leave = fenceView c := fun c => fenceView_stop c 0
  rcases endJob_cores fu m j st with same | left_
  · rw [same]
  · rw [left_, foldl_keep (fun n : Module => n.cores.map fenceView) (m.job j).cores (fun n g => n.onCore g Core.leave)
      (fun n g => fenceViews_onCore left n g)]
    split
    · rw [bump_cores, answerSteps_cores, fenceViews_endFlights]
    · rw [answerSteps_cores, fenceViews_endFlights]

theorem fenceViews_judgeJob (j st : Nat) : (judgeJob fu m j st).cores.map fenceView = m.cores.map fenceView := by
  unfold judgeJob
  split
  · exact fenceViews_endJob fu m j stFenced
  split
  · rcases fenceAttempt_cases fu m j st with e | ⟨f, e⟩ | ⟨k, v, c, l, e⟩ <;> rw [e]
    · rfl
    · rw [event_cores, bump_cores, fenceViews_endJob]
  · rfl

theorem fenceViews_leavesJob (g j : Nat) : (leavesJob m g j).cores.map fenceView = m.cores.map fenceView :=
  fenceViews_onCore (by exact fun _ => rfl) _ g

/-- A core that another's fence leaves. -/
theorem fenceView_fenceStands {g k : Nat} (other : k ≠ g) : fenceView ((fenceStands fu m g).core k) = fenceView (m.core k) := by
  rw [fenceStands, core_of_checkCores, core_onCore_other _ _ _ _ other]
  exact fenceView_core (fenceViews_fenceEnds fu m g) k

/-- What a fence by hardware comes to: the register and its core, then the judgement on the job. -/
theorem applyFence_cases (g : Nat) : m.applyFence fu g true = fenceStands fu m g ∨
    ∃ j st, m.applyFence fu g true = judgeJob fu (leavesJob (fenceStands fu m g) g j) j st := by
  cases held : (m.core g).job with
  | none => exact .inl (applyFence_free fu held)
  | some j =>
    obtain ⟨st, e⟩ := applyFence_held fu held
    exact .inr ⟨j, st, e⟩

theorem fenceViews_applyFence (g : Nat) :
    (m.applyFence fu g true).cores.map fenceView = (fenceStands fu m g).cores.map fenceView := by
  rcases applyFence_cases fu m g with e | ⟨j, st, e⟩ <;> rw [e]
  rw [fenceViews_judgeJob, fenceViews_leavesJob]

/-- The parts that a fence changes. -/
def fenceParts : List Part := [.cores, .od, .log, .report, .queues, .jobs, .clusters, .residency, .orphans]

theorem keeps_fenceStands (g : Nat) : KeepsBut fenceParts m (fenceStands fu m g) := by
  rw [fenceStands, kb_checkCores _ (by decide) (by decide) (by decide), kb_onCore _ _ (by decide)]
  exact keeps_mono (keeps_fenceEnds fu m g) (by decide)

theorem keeps_judgeJob (j st : Nat) : KeepsBut fenceParts m (judgeJob fu m j st) := by
  have ended := keeps_endJob fu m j
  unfold judgeJob
  refine keeps_ite (ended _) (keeps_ite ?_ (keeps_refl _ _))
  rcases fenceAttempt_cases fu m j st with e | ⟨f, e⟩ | ⟨k, v, c, l, e⟩ <;> rw [e]
  · exact keeps_refl _ _
  · exact keeps_mono (keeps_onRun m j f) (by decide)
  · rw [kb_event _ _ _ (by decide) (by decide) (by decide), kb_bump _ _ (by decide)]
    exact ended _

theorem keeps_applyFence (g : Nat) : KeepsBut fenceParts m (m.applyFence fu g true) := by
  have stands := keeps_fenceStands fu m g
  rcases applyFence_cases fu m g with e | ⟨j, st, e⟩ <;> rw [e]
  · exact stands
  · refine keeps_trans stands (keeps_trans ?_ (keeps_judgeJob fu _ j st))
    exact keeps_trans (keeps_mono (keeps_onJob _ j _) (by decide)) (keeps_mono (keeps_onCore _ g _) (by decide))

end

/-! ### The cores that fail a stress run -/

/-- Whether a core is fenced by hardware. -/
def Walled (c : Core) : Prop := c.fenced = true ∧ c.origin = 1

theorem walled_of_fenceView {c d : Core} (same : fenceView d = fenceView c) (walled : Walled c) : Walled d := by
  obtain ⟨-, fenced, origin⟩ := live_of_fenceView same
  exact ⟨fenced.trans walled.1, origin.trans walled.2⟩

section
variable (fu : Fuses) (m : Module) (f : Nat × Nat)

/-- A core that failed a run: it is fenced where it is live, and every other core is left as it is. -/
theorem stressFence_cores (inside : f.1 < 384) : ((m.core f.1).live = true → Walled ((m.stressFence fu f).core f.1)) ∧
    (∀ k, k ≠ f.1 → fenceView ((m.stressFence fu f).core k) = fenceView (m.core k)) ∧
    (∀ k, Walled (m.core k) → Walled ((m.stressFence fu f).core k)) := by
  by_cases live : (m.core f.1).live = true
  · have cores : (m.stressFence fu f).cores.map fenceView = (fenceStands fu m f.1).cores.map fenceView := by
      rw [← fenceViews_applyFence, Module.stressFence, if_neg (by simp [live])]
      dsimp only [Module.onStress]
      rw [event_cores]
    have there : f.1 < m.cores.length := by
      by_contra out
      rw [core_of_absent (Nat.le_of_not_lt out)] at live
      exact absurd live (by decide)
    have fences : Walled ((m.stressFence fu f).core f.1) := by
      obtain ⟨⟨⟨fenced, origin, -⟩, -⟩, -⟩ := fenceStands_core fu m inside there
      exact walled_of_fenceView (fenceView_core cores f.1) ⟨fenced, origin⟩
    have others : ∀ k, k ≠ f.1 → fenceView ((m.stressFence fu f).core k) = fenceView (m.core k) := fun k other =>
      (fenceView_core cores k).trans (fenceView_fenceStands fu m other)
    refine ⟨fun _ => fences, others, fun k walled => ?_⟩
    by_cases at_ : k = f.1
    · exact at_ ▸ fences
    · exact walled_of_fenceView (others k at_) walled
  · have same : m.stressFence fu f = m := if_pos (by simpa using live)
    rw [same]
    exact ⟨fun is => absurd is live, fun _ _ => rfl, fun _ walled => walled⟩

theorem stressFence_stress : (m.stressFence fu f).stress.state = m.stress.state ∧ (m.stressFence fu f).stress.runs = m.stress.runs ∧
    (m.stressFence fu f).hbm = m.hbm := by
  have fence := keeps_applyFence fu m f.1
  have stress := fence .stress (by decide)
  unfold Module.stressFence
  split
  · exact ⟨rfl, rfl, rfl⟩
  · dsimp only [Module.onStress]
    rw [event_stress, event_hbm, stress]
    exact ⟨rfl, rfl, fence .hbm (by decide)⟩

end

/-- Every core that failed a run and was live is fenced by hardware; one that already was stays so. -/
theorem stressFences (fu : Fuses) (fails : List (Nat × Nat)) (inside : ∀ f ∈ fails, f.1 < 384) (m : Module) :
    let n := fails.foldl (fun (m : Module) f => m.stressFence fu f) m
    (∀ k, (Walled (m.core k) ∨ (m.core k).live = true ∧ ∃ f ∈ fails, f.1 = k) → Walled (n.core k)) ∧
    n.stress.state = m.stress.state ∧ n.stress.runs = m.stress.runs ∧ n.hbm = m.hbm := by
  induction fails generalizing m with
  | nil => exact ⟨fun k walled => walled.resolve_right (by simp), rfl, rfl, rfl⟩
  | cons f fs ih =>
    obtain ⟨cores, state, runs, hbm⟩ := ih (fun x hx => inside x (List.mem_cons_of_mem _ hx)) (m.stressFence fu f)
    obtain ⟨fences, others, walls⟩ := stressFence_cores fu m f (inside f List.mem_cons_self)
    obtain ⟨state', runs', hbm'⟩ := stressFence_stress fu m f
    refine ⟨fun k cause => cores k ?_, state.trans state', runs.trans runs', hbm.trans hbm'⟩
    rcases cause with walled | ⟨live, x, hx, rfl⟩
    · exact .inl (walls k walled)
    · by_cases at_ : x.1 = f.1
      · rw [at_] at live ⊢
        exact .inl (fences live)
      · obtain ⟨kept, -⟩ := live_of_fenceView (others x.1 at_)
        refine .inr ⟨kept.trans live, x, ?_, rfl⟩
        rcases List.mem_cons.1 hx with rfl | later
        · exact absurd rfl at_
        · exact later

/-! ### Runs and their ends -/

theorem keeps_onStress (m : Module) (f : Stress → Stress) : KeepsBut [.stress] m (m.onStress f) := by
  intro part hpart
  cases part <;> simp_all [Part.same, Module.onStress]

theorem endStress_leaves (fu : Fuses) (m : Module) : (m.endStress fu).stress = { state := 0, runs := 0, fencedCores := 0 } ∧
    (m.endStress fu).hbm = m.hbm ∧ (∀ k, (m.endStress fu).core k = m.core k) ∧ KeepsBut (.stress :: reporting) m (m.endStress fu) := by
  unfold Module.endStress
  refine ⟨by rw [event_stress]; rfl, by rw [event_hbm]; rfl, fun k => by rw [core_of_event]; rfl, ?_⟩
  rw [kb_event _ _ _ (by decide) (by decide) (by decide)]
  exact keeps_mono (keeps_onStress m _) (by decide)

/-- A run counted, unless a loop held a die. -/
def runCounted (held : Bool) (m : Module) : Module :=
  if held || m.anyHeld then m else m.onStress (fun t => { t with runs := t.runs + 1 })

theorem runCounted_stress (held : Bool) (m : Module) :
    (runCounted held m).stress = { m.stress with runs := m.stress.runs + (if held || m.anyHeld then 0 else 1) } ∧
    KeepsBut [.stress] m (runCounted held m) := by
  unfold runCounted
  split
  · exact ⟨rfl, keeps_refl _ _⟩
  · exact ⟨rfl, keeps_onStress m _⟩

/-- A run's end: the run counted, the cores that failed fenced, and the test ended where it was told to stop. -/
def runEnded (fu : Fuses) (fails : List (Nat × Nat)) (held : Bool) (m : Module) : Module :=
  let n := fails.foldl (fun (n : Module) f => n.stressFence fu f) (runCounted held m)
  if n.stress.state = 2 then n.endStress fu else n

theorem exec_stressRunEnd (fails : List (Nat × Nat)) (held : Bool) (s : State) :
    exec (.stressRunEnd fails held) s = s.actOn (fails.all (fun f => decide (f.1 < 384)))
      (fun fu m => if m.stress.state = 0 then m else runEnded fu fails held m) := rfl

section
variable {s : State} (powered : s.m.powered = true)
include powered

theorem goes_attestationReportDone {path : Nat} {body : List Byte} (forming : s.m.trust.forming = some (path, body)) :
    Goes s .attestationReportDone (fun n =>
      n.trust = { s.m.trust with forming := none, report := body ++ (List.range 512).map (Config.attestSignature body) } ∧
      KeepsBut (.trust :: reporting) s.m n) := by
  refine goes_actOn rfl rfl powered ?_
  rw [forming]
  dsimp only
  generalize signed : body ++ (List.range 512).map (Config.attestSignature body) = report
  refine ⟨by rw [event_trust], ?_⟩
  rw [kb_event _ _ _ (by decide) (by decide) (by decide)]
  intro part hpart
  cases part <;> simp_all [Part.same]

section
variable (testing : s.m.stress.state ≠ 0) (held : Bool)
include testing

theorem goes_stressRunEnd {fails : List (Nat × Nat)} (inside : ∀ f ∈ fails, f.1 < 384) :
    Goes s (.stressRunEnd fails held) (fun n =>
      (∀ f ∈ fails, (s.m.core f.1).live = true → (n.core f.1).fenced = true ∧ (n.core f.1).origin = 1) ∧
      (s.m.stress.state = 1 → n.stress.state = 1 ∧
        n.stress.runs = s.m.stress.runs + (if held || s.m.anyHeld then 0 else 1)) ∧ n.hbm = s.m.hbm) := by
  refine goes_actOn (exec_stressRunEnd fails held s) (by simpa using inside) powered ?_
  rw [if_neg testing, runEnded]
  obtain ⟨counted, same⟩ := runCounted_stress held s.m
  obtain ⟨fences, state, runs, hbm⟩ := stressFences s.fuse fails inside (runCounted held s.m)
  generalize fails.foldl (fun (m : Module) f => m.stressFence s.fuse f) (runCounted held s.m) = x at fences state runs hbm ⊢
  have core : ∀ k, (runCounted held s.m).core k = s.m.core k := core_congr (same .cores (by decide))
  have walled : ∀ f ∈ fails, (s.m.core f.1).live = true → Walled (x.core f.1) := fun f hf live =>
    fences f.1 (.inr ⟨by rw [core]; exact live, f, hf, rfl⟩)
  have kept : x.hbm = s.m.hbm := hbm.trans (same .hbm (by decide))
  have oneState : x.stress.state = s.m.stress.state := by rw [state, counted]
  have oneRun : x.stress.runs = s.m.stress.runs + (if held || s.m.anyHeld then 0 else 1) := by rw [runs, counted]
  obtain ⟨-, ended, cores, -⟩ := endStress_leaves s.fuse x
  split
  · next stops =>
    refine ⟨fun f hf live => ?_, fun one => absurd (stops.symm.trans (oneState.trans one)) (by decide), ended.trans kept⟩
    rw [cores]
    exact walled f hf live
  · exact ⟨walled, fun one => ⟨oneState.trans one, oneRun⟩, kept⟩

theorem goes_stressRunEnd_of_pass : Goes s (.stressRunEnd [] held) (fun n =>
    (s.m.stress.state ≠ 2 → n.stress = { s.m.stress with runs := s.m.stress.runs + (if held || s.m.anyHeld then 0 else 1) } ∧
      KeepsBut [.stress] s.m n) ∧
    (s.m.stress.state = 2 → n.stress = { state := 0, runs := 0, fencedCores := 0 } ∧ KeepsBut (.stress :: reporting) s.m n)) := by
  refine goes_actOn (exec_stressRunEnd [] held s) rfl powered ?_
  rw [if_neg testing, runEnded, List.foldl_nil]
  obtain ⟨counted, same⟩ := runCounted_stress held s.m
  generalize runCounted held s.m = x at counted same ⊢
  have state : x.stress.state = s.m.stress.state := by rw [counted]
  obtain ⟨ended, -, -, keeps⟩ := endStress_leaves s.fuse x
  rw [state]
  split
  · next stops =>
    exact ⟨fun other => absurd stops other, fun _ => ⟨ended, keeps_trans (keeps_mono same (by decide)) keeps⟩⟩
  · next runs => exact ⟨fun _ => ⟨counted, same⟩, fun stops => absurd stops runs⟩

theorem goes_stressTestEnd : Goes s .stressTestEnd (fun n =>
    n.stress = { state := 0, runs := 0, fencedCores := 0 } ∧ KeepsBut (.stress :: reporting) s.m n) := by
  obtain ⟨ended, -, -, keeps⟩ := endStress_leaves s.fuse s.m
  refine goes_actOn rfl rfl powered ?_
  rw [if_neg testing]
  exact ⟨ended, keeps⟩

end

end

/-! ### Nonces and stress tests asked for -/

section
variable {s : State} {src : MsgFrom} {r : Req} {m : Module} (asks : Asks s src r m)
include asks

/-- An OD_WRITE that passes every check is answered as its row says. -/
theorem goes_write {c : Instr} {row : Nat} {o : OdReq} {d : ObjDef} (writes : Writes m r row o d)
    {f : Fuses → Module → Nat → OdReq → ObjDef → Module × Reply} (runs : exec c s = writeRow src row f s) {z : Module} {st : Nat}
    (answer : f s.fuse m r.path o d = (z, Reply.plain st)) {P : Module → Prop} (holds : P z) :
    Goes s c (Replies s.fuse r st false false [] P) := by
  rw [writeRow_asks asks writes, answer] at runs
  exact ⟨_, runs, rfl, rfl, z, holds, rfl⟩

theorem goes_attestNonce {o : OdReq} {d : ObjDef} (writes : Writes m r 6 o d) :
    (m.trust.secOk = true → m.trust.forming = none → Goes s (.attestNonce src) (Replies s.fuse r stOk false false [] (fun z =>
      z.trust = { m.trust with forming := some (r.path, m.reportBody s.fuse o.data) } ∧ KeepsBut [.trust] m z))) ∧
    (m.trust.secOk = true → m.trust.forming.isSome = true →
      Goes s (.attestNonce src) (Replies s.fuse r stDenied false false [] (fun z => z = m))) ∧
    (m.trust.secOk = false → Goes s (.attestNonce src) (Replies s.fuse r stUnsupported false false [] (fun z => z = m))) := by
  have latched : KeepsBut [.trust] m { m with trust := { m.trust with forming := some (r.path, m.reportBody s.fuse o.data) } } := by
    intro part hpart
    cases part <;> simp_all [Part.same]
  refine ⟨fun ok free => ?_, fun ok busy => ?_, fun failed => ?_⟩
  · refine goes_write (c := .attestNonce src) asks writes (Eq.refl (execAttestNonce src s)) ?_ ⟨rfl, latched⟩
    rw [if_neg (by simp [ok]), if_neg (by simp [free])]
  · refine goes_write (c := .attestNonce src) asks writes (Eq.refl (execAttestNonce src s)) ?_ rfl
    rw [if_neg (by simp [ok]), if_pos busy]
  · refine goes_write (c := .attestNonce src) asks writes (Eq.refl (execAttestNonce src s)) ?_ rfl
    rw [if_pos (by simp [failed])]

theorem goes_stressRunStart {o : OdReq} {d : ObjDef} (writes : Writes m r 7 o d) (one : leNat o.data = 1) (idle : m.stress.state = 0) :
    (m.jobs.any (fun b => b.state == 1 || b.live) = false → Goes s (.stressRunStart src) (Replies s.fuse r stOk false false []
      (fun z => z.stress = { state := 1, runs := 0, fencedCores := 0 } ∧ KeepsBut [.stress] m z))) ∧
    (m.jobs.any (fun b => b.state == 1 || b.live) = true →
      Goes s (.stressRunStart src) (Replies s.fuse r stDenied false false [] (fun z => z = m))) := by
  refine ⟨fun free => ?_, fun busy => ?_⟩
  · refine goes_write (c := .stressRunStart src) asks writes (z := m.onStress (fun _ => { state := 1, runs := 0, fencedCores := 0 }))
      (Eq.refl (execStressRunStart src s)) ?_ ⟨rfl, keeps_onStress m _⟩
    rw [if_neg (by simp [one, idle]), if_neg (by simp [free])]
  · refine goes_write (c := .stressRunStart src) asks writes (Eq.refl (execStressRunStart src s)) ?_ rfl
    rw [if_neg (by simp [one, idle]), if_pos busy]

theorem goes_stressRunStop {o : OdReq} {d : ObjDef} (writes : Writes m r 8 o d) (running : m.stress.state = 1) :
    Goes s (.stressRunStop src) (Replies s.fuse r stOk false false [] (fun z =>
      z.stress = { m.stress with state := 2 } ∧ KeepsBut [.stress] m z)) := by
  refine goes_write (c := .stressRunStop src) asks writes (z := m.onStress (fun t => { t with state := 2 }))
    (Eq.refl (execStressRunStop src s)) ?_ ⟨rfl, keeps_onStress m _⟩
  rw [if_pos running]

end

/-- Settles O56: the sub-operations one by one, each on the slot that does not run; a nonce and its report; and a stress test, whose fences
leave the registers of the other cores. -/
theorem firmwareTrustAndStressAct : Obligations.FirmwareTrustAndStressAct := by
  refine ⟨fun s src r m asks slots two => ⟨fun updates closed fits => goes_fwUpdateBegin asks slots two updates closed fits,
    fun updates opened => goes_fwUpdateBegin_of_open asks updates opened,
    fun updates opened fits => goes_fwUpdateData asks slots two updates opened fits,
    fun updates opened => ⟨fun part ups => goes_fwUpdateEnd_of_part asks updates opened part ups,
      fun whole ups => goes_fwUpdateEnd_of_whole asks updates opened slots two whole ups⟩,
    fun updates valid => goes_fwUpdateActivate asks slots two updates valid,
    fun updates invalid => goes_fwUpdateActivate_of_invalid asks updates invalid,
    fun updates opened => goes_fwUpdateAbort asks updates opened, fun closed ups => goes_fwUpdate_of_closed asks closed ups,
    fun o d writes => goes_attestNonce asks writes, fun o d writes one idle => goes_stressRunStart asks writes one idle,
    fun o d writes running => goes_stressRunStop asks writes running⟩, fun s powered => ?_⟩
  refine ⟨goes_actOn rfl rfl powered ⟨rfl, keeps_onFw s.m _⟩, fun path body forming => goes_attestationReportDone powered forming,
    fun held testing => ⟨fun fails inside => goes_stressRunEnd powered testing held inside, goes_stressRunEnd_of_pass powered testing held,
      goes_stressTestEnd powered testing⟩⟩

end Sys2Proof.Proofs
end

section
/-!
PROOFS. What the start of a host command may write (R423, R426, R427), whatever the command: never the management domain but for what
reports leave. While Capstan is away no job-state command starts (R424, R490), and the starts that remain change no opcode.
-/
namespace Sys2Proof.Proofs

open Sys2Proof.Machine Sys2Proof.Laws

/-- What the start of a host command may write. -/
def starting : List Part :=
  [.cores, .clusters, .jobs, .residency, .hawsers, .rope, .store, .queues, .orphans, .hbmStacks, .hbm, .hbmPoison, .freeNo, .od, .log, .report]

/-- What the start of a command that is no job-state command may write besides the queues. -/
def dataParts : List Part := starting.erase .queues

/-! ### Loads -/

theorem keeps_rejectLoad (fu : Fuses) (m : Module) (j seed : Nat) (own : Bool) (r : LoadResult) :
    KeepsBut [.jobs, .od, .log, .report] m (m.rejectLoad fu j seed own r) := by
  obtain ⟨-, -, -, keeps⟩ := reject_ok fu m j seed own r
  exact keeps

theorem keeps_place (m : Module) (j seed : Nat) (im : List Byte) (l : Loading) (p : Place) :
    KeepsBut [.cores, .clusters, .hbm, .hbmPoison, .jobs, .residency] m (m.place j seed im l p) := by
  unfold Module.place
  dsimp only
  rw [kb_onJob _ _ (by decide)]
  refine keeps_trans (keeps_trans ?_ (kb_foldl p.ranges _ (fun m r => ?_) _)) (kb_foldl p.cores _ (fun m g => ?_) _)
  · intro part hpart
    cases part <;> simp_all [Part.same]
  · exact keeps_mono (keeps_onCluster m r.1 _) (by decide)
  · exact keeps_mono (keeps_onCore m g _) (by decide)

theorem keeps_load (fu : Fuses) (m : Module) (j port seed mask policy keys given : Nat) (im : List Byte) :
    KeepsBut dataParts m (m.load fu j port seed mask policy keys given im).1 := by
  unfold Module.load
  dsimp only
  split
  · next p _ _ =>
    have placed : KeepsBut dataParts m ((m.place j seed im (m.judge (m.loadEnv fu port policy keys given) im mask).2.1 p).bump
        (odKey 0x3210 2) 1) := by
      rw [kb_bump _ _ (by decide)]
      exact keeps_mono (keeps_place m j seed im _ _) (by decide)
    exact keeps_ite ((kb_event fu _ _ (by decide) (by decide) (by decide)).2 placed) placed
  · exact keeps_mono (keeps_rejectLoad fu m j seed true _) (by decide)
  · exact keeps_refl _ _

theorem keeps_answerLoad (m : Module) (q : Nat) (c : Cmd) (r : LoadResult) : KeepsBut [.queues] m (m.answerLoad q c r) := by
  simp [Module.answerLoad, Module.pushResp, keeps_refl]

theorem keeps_startLoad (fu : Fuses) (m : Module) (q : Nat) (c : Cmd) : KeepsBut starting m (m.startLoad fu q c) := by
  unfold Module.startLoad
  split
  · exact keeps_trans (keeps_mono (keeps_rejectLoad fu m _ _ _ _) (by decide)) (keeps_mono (keeps_answerLoad _ q c _) (by decide))
  · exact keeps_trans (keeps_mono (keeps_onJob m c.job _) (by decide)) (keeps_mono (started_keeps _ q c) (by decide))

/-! ### Starts that change no opcode -/

/-- The opcodes of the commands that wait, queue by queue. -/
def opcodes (m : Module) : List (List Nat) := m.host.queues.map (fun t => t.cmds.map Cmd.opcode)

/-- The management domain is as it was but for reports, and every command keeps its place and its opcode. -/
def Serves (m n : Module) : Prop := KeepsBut starting m n ∧ opcodes n = opcodes m

theorem serves_refl (m : Module) : Serves m m := ⟨keeps_refl _ m, rfl⟩

theorem serves_trans {a b c : Module} (ab : Serves a b) (bc : Serves b c) : Serves a c := ⟨keeps_trans ab.1 bc.1, bc.2.trans ab.2⟩

theorem serves_ite {m a b : Module} {p : Prop} [Decidable p] (yes : Serves m a) (no : Serves m b) : Serves m (if p then a else b) := by
  split <;> assumption

theorem serves_of_keeps {m n : Module} (keeps : KeepsBut dataParts m n) : Serves m n :=
  ⟨keeps_mono keeps (by decide), by rw [opcodes, keeps .queues (by decide), opcodes]⟩

theorem serves_onQueue (m : Module) (q : Nat) {f : Queue → Queue} (same : ∀ t, (f t).cmds.map Cmd.opcode = t.cmds.map Cmd.opcode) :
    Serves m (m.onQueue q f) :=
  ⟨keeps_mono (keeps_onQueue m q f) (by decide), map_modifyAt same _ _⟩

theorem opcodes_mapTag (l : List Cmd) (tag : Nat) {f : Cmd → Cmd} (same : ∀ c, (f c).opcode = c.opcode) :
    (l.map (fun c => if c.tag = tag then f c else c)).map Cmd.opcode = l.map Cmd.opcode := by
  rw [List.map_map]
  refine List.map_congr_left (fun c _ => ?_)
  dsimp only [Function.comp]
  split
  · exact same c
  · rfl

section
variable (fu : Fuses) (m : Module) (q : Nat) (c : Cmd)

theorem serves_onCmd (tag : Nat) {f : Cmd → Cmd} (same : ∀ c, (f c).opcode = c.opcode) : Serves m (m.onCmd q tag f) :=
  serves_onQueue m q (fun t => opcodes_mapTag t.cmds tag same)

theorem serves_started : Serves m (m.started q c) := serves_onCmd m q c.tag (fun _ => rfl)

theorem serves_marked : Serves m (m.onQueue q (fun t => t.markAnswered c.tag)) :=
  serves_onQueue m q (fun t => opcodes_mapTag t.cmds c.tag (f := fun c => { c with state := 2 }) (fun _ => rfl))

theorem serves_pushResp (r : Resp) : Serves m (m.pushResp q r) := serves_onQueue m q (fun _ => rfl)

theorem serves_answered (r : Resp) : Serves m ((m.onQueue q (fun t => t.markAnswered c.tag)).pushResp q r) :=
  serves_trans (serves_marked m q c) (serves_pushResp _ q r)

theorem serves_answer (st a b : Nat) : Serves m (m.answer q c st a b) := serves_answered m q c _

theorem serves_answerData (st a b : Nat) (bs : List Byte) : Serves m (m.answerData q c st a b bs) := by
  have pushed : ∀ (l : List Resp) (x : Module), Serves x (l.foldl (fun m r => m.pushResp q r) x) := fun l => by
    induction l with
    | nil => exact serves_refl
    | cons r l ih => exact fun x => serves_trans (serves_pushResp x q r) (ih _)
  exact serves_trans (serves_marked m q c) (pushed _ _)

theorem keeps_storeHbm (j a : Nat) (bs : List Byte) (bad : Bool) : KeepsBut [.hbm, .hbmPoison] m (m.storeAt j 0 2 a bs bad) := by
  intro part hpart
  cases part <;> simp_all [Module.storeAt, Part.same]

theorem serves_feedWrite : Serves m (m.feedWrite q c) := by
  unfold Module.feedWrite
  dsimp only
  refine serves_ite (serves_refl m) (serves_ite (serves_answer m q c _ _ _) ?_)
  have stored : ∀ bs, Serves m (m.storeAt c.job 0 2 (c.w 2 + (c.got - c.data.length)) bs false) := fun bs =>
    serves_of_keeps (keeps_mono (keeps_storeHbm m c.job _ bs false) (by decide))
  exact serves_ite (serves_trans (stored _) (serves_answer _ q c _ _ _)) (serves_trans (stored _) (serves_onCmd _ q c.tag (fun _ => rfl)))

theorem serves_endLoad : Serves m (m.endLoad fu q c) :=
  serves_trans (serves_of_keeps (keeps_load fu m c.job _ _ _ _ _ _ _)) (serves_answered _ q c _)

theorem serves_endObjWrite : Serves m (m.endObjWrite fu q c) := by
  unfold Module.endObjWrite
  have closed : Serves m (m.closeWrite c) := serves_of_keeps (keeps_mono (keeps_onStore m _) (by decide))
  exact serves_ite (serves_trans closed (serves_answer _ q c _ _ _)) (serves_trans closed (serves_trans
    (serves_of_keeps (keeps_mono (keeps_putObj fu _ _ _) (by decide))) (serves_answer _ q c _ _ _)))

theorem serves_feed (tag : Nat) : Serves m (m.feed fu q tag) := by
  unfold Module.feed
  split
  · exact serves_refl m
  · next d _ =>
    exact serves_ite (serves_refl m) (serves_ite (serves_feedWrite m q d) (serves_ite (serves_refl m) (serves_ite (serves_endLoad fu m q d)
      (serves_ite (serves_endObjWrite fu m q d) (serves_refl m)))))

theorem serves_startObjWrite : Serves m (m.startObjWrite q c) := by
  unfold Module.startObjWrite
  exact serves_ite (serves_answer m q c _ _ _)
    (serves_trans (serves_of_keeps (keeps_mono (keeps_onStore m _) (by decide))) (serves_started _ q c))

theorem serves_readJob : Serves m (m.readJob fu q c) := by
  unfold Module.readJob
  exact serves_ite (serves_answer m q c _ _ _) (serves_ite (serves_answer m q c _ _ _) (serves_trans
    (serves_of_keeps (keeps_mono (keeps_request fu m c.job _ _) (by decide))) (serves_answerData _ q c _ _ _ _)))

theorem serves_objRead : Serves m (m.objRead q c) := by
  unfold Module.objRead
  refine serves_ite (serves_answer m q c _ _ _) (serves_ite (serves_answer m q c _ _ _) ?_)
  split
  · exact serves_answer m q c _ _ _
  · exact serves_ite (serves_answer m q c _ _ _)
      (serves_trans (serves_of_keeps (keeps_mono (keeps_bump m _ _) (by decide))) (serves_answerData _ q c _ _ _ _))

theorem serves_objDelete : Serves m (m.objDelete q c) := by
  unfold Module.objDelete
  exact serves_ite (serves_answer m q c _ _ _) (serves_ite (serves_answer m q c _ _ _) (serves_ite (serves_answer m q c _ _ _)
    (serves_trans (serves_of_keeps (keeps_mono (keeps_onStore m _) (by decide))) (serves_answer _ q c _ _ _))))

theorem serves_objInfo : Serves m (m.objInfo q c) := by
  unfold Module.objInfo
  dsimp only
  split
  · exact serves_answer m q c _ _ _
  · exact serves_ite (serves_answer m q c _ _ _) (serves_answerData m q c _ _ _ _)

/-! ### Every command -/

theorem keeps_answered {y : Module} (keeps : KeepsBut starting m y) (st a b : Nat) : KeepsBut starting m (y.answer q c st a b) :=
  keeps_trans keeps (keeps_mono (keeps_answer y q c st a b) (by decide))

theorem keeps_refused (st a b : Nat) : KeepsBut starting m (m.answer q c st a b) := keeps_answered m q c (keeps_refl _ m) st a b

theorem keeps_variantFails (slot set st : Nat) : KeepsBut starting m (m.variantFails fu q c slot set st) :=
  keeps_answered m q c ((kb_event fu _ _ (by decide) (by decide) (by decide)).2 (keeps_refl _ m)) _ _ _

theorem keeps_bind : KeepsBut starting m (m.bind q c) := by
  unfold Module.bind
  dsimp only
  split
  · exact keeps_refused m q c _ _ _
  · exact keeps_ite (keeps_refused m q c _ _ _) (keeps_answered m q c (keeps_mono (keeps_onJob m _ _) (by decide)) _ _ _)

theorem keeps_askStep : KeepsBut starting m (m.askStep q c) := by
  unfold Module.askStep
  exact keeps_ite (keeps_refused m q c _ _ _)
    (keeps_trans (keeps_mono (keeps_onRun m c.job _) (by decide)) (keeps_mono (started_keeps _ q c) (by decide)))

theorem keeps_endByHost : KeepsBut starting m (m.endByHost fu q c) := by
  unfold Module.endByHost
  exact keeps_ite (keeps_refused m q c _ _ _) (keeps_answered m q c (keeps_mono (keeps_endJob fu m _ _) (by decide)) _ _ _)

theorem keeps_releaseJob : KeepsBut starting m (m.releaseJob q c) := by
  unfold Module.releaseJob
  exact keeps_ite (keeps_refused m q c _ _ _) (keeps_answered m q c (keeps_mono (keeps_onJob m _ _) (by decide)) _ _ _)

theorem keeps_cancelBatch : KeepsBut starting m (m.cancelBatch fu q c) := by
  by_cases runs : (m.job c.job).state = 3
  · obtain ⟨z, ⟨-, -, -, -, -, keeps⟩, e⟩ := cancelBatch_cancels fu m q c runs
    rw [e]
    exact keeps_answered m q c (keeps_mono keeps (by decide)) _ _ _
  · unfold Module.cancelBatch
    dsimp only
    refine keeps_ite (keeps_refused m q c _ _ _) ?_
    rw [if_pos (by simpa using runs)]
    exact keeps_refused m q c _ _ _

theorem keeps_takeSet (j v : Nat) (o : Obj) : KeepsBut [.jobs, .hbm, .hbmPoison] m (m.takeSet j v o) := by
  obtain ⟨-, -, keeps, -⟩ := same_take m j v o
  exact keeps

theorem keeps_stageSet : KeepsBut starting m (m.stageSet fu q c) := by
  unfold Module.stageSet
  dsimp only
  refine keeps_ite (keeps_variantFails fu m q c _ _ _) ?_
  split
  · exact keeps_variantFails fu m q c _ _ _
  · refine keeps_ite ?_ ?_
    · exact keeps_trans (keeps_mono (keeps_onSlot m _ _ _) (by decide)) (keeps_variantFails fu _ q c _ _ _)
    · refine keeps_answered m q c ?_ _ _ _
      rw [kb_bump _ _ (by decide), kb_bump _ _ (by decide)]
      exact keeps_trans (keeps_mono (keeps_takeSet m _ _ _) (by decide)) (keeps_mono (keeps_onSlot _ _ _ _) (by decide))

theorem keeps_turnSlots (state next : Nat) : KeepsBut starting m (m.turnSlots fu q c state next) := by
  unfold Module.turnSlots
  dsimp only
  split
  · exact keeps_variantFails fu m q c _ _ _
  · exact keeps_ite (keeps_variantFails fu m q c _ _ _)
      (keeps_answered m q c (kb_foldl _ _ (fun m v => keeps_mono (keeps_onSlot m _ v _) (by decide)) m) _ _ _)

theorem keeps_saveSet : KeepsBut starting m (m.saveSet fu q c) := by
  unfold Module.saveSet
  dsimp only
  refine keeps_ite (keeps_variantFails fu m q c _ _ _) (keeps_ite (keeps_variantFails fu m q c _ _ _) ?_)
  generalize reads : m.hbmReads fu c.job _ = x
  have read : KeepsBut starting m x := reads ▸ keeps_mono (keeps_hbmReads fu m c.job _) (by decide)
  refine keeps_ite (keeps_trans read (keeps_variantFails fu x q c _ _ _)) (keeps_answered m q c ?_ _ _ _)
  rw [kb_bump _ _ (by decide)]
  exact keeps_trans read (keeps_mono (keeps_putObj fu x _ _) (by decide))

theorem keeps_freeSlot : KeepsBut starting m (m.freeSlot fu q c) := by
  unfold Module.freeSlot
  exact keeps_ite (keeps_variantFails fu m q c _ _ _) (keeps_answered m q c (keeps_mono (keeps_onSlot m _ _ _) (by decide)) _ _ _)

theorem keeps_snapFailed (st : Nat) : KeepsBut starting m (m.snapFailed fu q c st) :=
  keeps_answered m q c ((kb_event fu _ _ (by decide) (by decide) (by decide)).2 (keeps_refl _ m)) _ _ _

theorem keeps_snapshot : KeepsBut starting m (m.snapshot fu q c) := by
  unfold Module.snapshot
  exact keeps_ite (keeps_snapFailed fu m q c _) (keeps_ite (keeps_mono (keeps_capture fu m q c) (by decide))
    (keeps_ite (keeps_mono (started_keeps m q c) (by decide)) (keeps_snapFailed fu m q c _)))

theorem keeps_restoreFrom (j : Nat) (bs : List Byte) : KeepsBut [.jobs, .hbm, .hbmPoison] m (m.restoreFrom j bs) := by
  unfold Module.restoreFrom
  dsimp only
  rw [kb_onJob _ _ (by decide)]
  obtain ⟨-, -, keeps, -⟩ := same_regions m j true (m.job j).committed ((m.job j).regionsIn bs) bs snapHeaderLen
  exact keeps

theorem keeps_restore : KeepsBut starting m (m.restore fu q c) := by
  unfold Module.restore
  dsimp only
  split
  · exact keeps_refused m q c _ _ _
  · refine keeps_ite (keeps_refused m q c _ _ _) ?_
    generalize restored : Module.odSet _ (odKey 0x7110 6) 0 = x
    have read : KeepsBut starting m x := by
      rw [← restored, kb_odSet _ _ (by decide), kb_bump _ _ (by decide), kb_bump _ _ (by decide)]
      exact keeps_mono (keeps_restoreFrom m c.job _) (by decide)
    refine keeps_answered m q c (keeps_ite read ?_) _ _ _
    generalize marked : x.onRope _ = y
    have roped : KeepsBut starting m y := keeps_trans read (marked ▸ keeps_mono (keeps_onRope x _) (by decide))
    exact keeps_ite (keeps_trans roped (keeps_trans (keeps_mono (keeps_setRopeState fu y 3) (by decide))
      (keeps_mono (keeps_startResync fu _) (by decide)))) roped

theorem keeps_setPin (j e : Nat) (on : Bool) : KeepsBut [.jobs, .residency] m (m.setPin j e on) := by
  unfold Module.setPin
  rw [kb_onJob _ _ (by decide)]
  intro part hpart
  cases part <;> simp_all [Part.same]

theorem keeps_askFetch (j e : Nat) : KeepsBut [.jobs] m (m.askFetch j e) := by
  unfold Module.askFetch
  exact keeps_ite (keeps_refl _ m) (keeps_onJob m j _)

theorem keeps_pinExpert : KeepsBut starting m (m.pinExpert q c) := by
  unfold Module.pinExpert
  dsimp only
  have pinned : ∀ x : Module, KeepsBut starting x (x.setPin c.job (c.w 2) true) := fun x => keeps_mono (keeps_setPin x _ _ _) (by decide)
  refine keeps_ite (keeps_refused m q c _ _ _) (keeps_ite (keeps_refused m q c _ _ _) (keeps_ite ?_ ?_))
  · exact keeps_answered m q c (pinned m) _ _ _
  · exact keeps_trans (keeps_mono (keeps_askFetch m _ _) (by decide)) (keeps_trans (pinned _) (keeps_mono (started_keeps _ q c) (by decide)))

theorem keeps_unpinExpert : KeepsBut starting m (m.unpinExpert q c) := by
  unfold Module.unpinExpert
  dsimp only
  exact keeps_ite (keeps_refused m q c _ _ _) (keeps_ite (keeps_refused m q c _ _ _)
    (keeps_answered m q c (keeps_mono (keeps_setPin m _ _ _) (by decide)) _ _ _))

/-- Every command that starts leaves the management domain as it was but for reports. -/
theorem keeps_startCmd : KeepsBut starting m (m.startCmd fu q c) := by
  unfold Module.startCmd
  refine keeps_ite (keeps_refused m q c _ _ _) ?_
  split
  · exact keeps_refused m q c _ _ _
  · exact keeps_trans (keeps_startLoad fu m q c) (serves_feed fu _ q c.tag).1
  · exact keeps_bind m q c
  · exact keeps_askStep m q c
  · exact keeps_endByHost fu m q c
  · exact keeps_releaseJob m q c
  · exact keeps_cancelBatch fu m q c
  · exact keeps_stageSet fu m q c
  · exact keeps_turnSlots fu m q c 1 1
  · exact keeps_turnSlots fu m q c 2 2
  · exact keeps_saveSet fu m q c
  · exact keeps_freeSlot fu m q c
  · exact keeps_snapshot fu m q c
  · exact keeps_restore fu m q c
  · exact keeps_pinExpert m q c
  · exact keeps_unpinExpert m q c
  · exact keeps_ite (keeps_refused m q c _ _ _) (keeps_ite (keeps_refused m q c _ _ _)
      (serves_trans (serves_started m q c) (serves_feed fu _ q c.tag)).1)
  · exact (serves_readJob fu m q c).1
  · exact (serves_trans (serves_startObjWrite m q c) (serves_feed fu _ q c.tag)).1
  · exact (serves_objRead m q c).1
  · exact (serves_objDelete m q c).1
  · exact (serves_objInfo m q c).1
  · exact keeps_refused m q c _ _ _

/-- A command that is no job-state command changes no opcode. -/
theorem serves_startCmd (noState : isJobState c.opcode = false) : Serves m (m.startCmd fu q c) := by
  unfold Module.startCmd
  refine serves_ite (serves_answer m q c _ _ _) ?_
  have other : ∀ {op : Nat} {p : Prop}, isJobState op = true → c.opcode = op → p := fun state e =>
    absurd (noState.symm.trans ((congrArg isJobState e).trans state)) (by decide)
  split
  · exact serves_answer m q c _ _ _
  iterate 15
    · next op => exact other (by decide) op
  · exact serves_ite (serves_answer m q c _ _ _) (serves_ite (serves_answer m q c _ _ _)
      (serves_trans (serves_started m q c) (serves_feed fu _ q c.tag)))
  · exact serves_readJob fu m q c
  · exact serves_trans (serves_startObjWrite m q c) (serves_feed fu _ q c.tag)
  · exact serves_objRead m q c
  · exact serves_objDelete m q c
  · exact serves_objInfo m q c
  · exact serves_answer m q c _ _ _

end

/-! ### While Capstan is away -/

theorem capstanUp_of_keeps {ps : List Part} {m n : Module} (keeps : KeepsBut ps m n) (free : .mgmt ∉ ps) :
    n.mgmt.capstanUp = m.mgmt.capstanUp := by
  have same := keeps .mgmt free
  rw [← same]

/-- No job-state command starts. -/
theorem noState_of_next {m : Module} {q : Nat} {c : Cmd} (away : m.mgmt.capstanUp = false) (next : m.nextStart = some (q, c)) :
    isJobState c.opcode = false := by
  have may := mayStart_of_next next
  rw [Module.mayStart, away] at may
  simpa using (Bool.and_eq_true_iff.1 may).2

theorem capstanUp_startNext (fu : Fuses) (n : Nat) (m : Module) : (Module.startNext fu n m).mgmt.capstanUp = m.mgmt.capstanUp := by
  induction n generalizing m with
  | zero => rfl
  | succ n ih =>
    rw [Module.startNext]
    split
    · rfl
    · next p _ => rw [ih, capstanUp_of_keeps (keeps_startCmd fu m p.1 p.2) (by decide)]

theorem opcodes_startNext (fu : Fuses) (n : Nat) {m : Module} (away : m.mgmt.capstanUp = false) :
    opcodes (Module.startNext fu n m) = opcodes m := by
  induction n generalizing m with
  | zero => rfl
  | succ n ih =>
    rw [Module.startNext]
    split
    · rfl
    · next p next =>
      obtain ⟨keeps, same⟩ := serves_startCmd fu m p.1 p.2 (noState_of_next away next)
      rw [ih ((capstanUp_of_keeps keeps (by decide)).trans away), same]

/-- Where only job-state commands wait, none starts. -/
theorem settle_of_away (fu : Fuses) {m : Module} (away : m.mgmt.capstanUp = false) (states : (opcodes m).all (·.all isJobState) = true) :
    m.settle fu = m := by
  have none : m.nextStart = none := by
    rw [Option.eq_none_iff_forall_not_mem]
    intro p next
    have waits := (next_count next).1
    have noState := noState_of_next away next
    have state : isJobState p.2.opcode = true := by
      have listed : (m.queue p.1).cmds.map Cmd.opcode ∈ opcodes m ∨ (m.queue p.1).cmds = [] := by
        rw [Module.queue, List.getD_eq_getElem?_getD]
        rcases e : m.host.queues[p.1]? with _ | t
        · exact .inr rfl
        · exact .inl (List.mem_map_of_mem (f := fun t : Queue => t.cmds.map Cmd.opcode) (List.mem_of_getElem? e))
      rcases listed with listed | empty
      · exact List.all_eq_true.1 (List.all_eq_true.1 states _ listed) _ (List.mem_map_of_mem waits)
      · rw [empty] at waits
        exact absurd waits List.not_mem_nil
    rw [noState] at state
    exact absurd state (by decide)
  unfold Module.settle
  generalize (m.host.queues.map (fun t => t.cmds.length)).sum = n
  cases n with
  | zero => rfl
  | succ n => rw [Module.startNext, none]

/-- A settled module in which Capstan is away and only job-state commands wait was so before. -/
theorem eq_of_settle {fu : Fuses} {z n : Module} (settles : z.settle fu = n) (away : n.mgmt.capstanUp = false)
    (states : (opcodes n).all (·.all isJobState) = true) : z = n := by
  have up : z.mgmt.capstanUp = false := by
    rw [← settles, Module.settle, capstanUp_startNext] at away
    exact away
  have same : opcodes n = opcodes z := by
    rw [← settles, Module.settle]
    exact opcodes_startNext fu _ up
  rw [← settles]
  exact (settle_of_away fu up (same ▸ states)).symm

end Sys2Proof.Proofs
end

section
/-!
PROOFS. The end of the holdover (R503) where no job runs and no port is lit: what is left of the chains and contexts; and the state that
refutes O58.
-/
namespace Sys2Proof.Proofs

open Sys2Proof.Machine Sys2Proof.Laws

/-! ### Holdover without jobs and without light -/

/-- The jobs that the end of the holdover ends. -/
def expiring (m : Module) : List Nat := (List.range 16).filter (fun j => (m.job j).state == 1 || (m.job j).live)

/-- The end of the holdover before waiting commands start. -/
def expired (fu : Fuses) (m : Module) : Module :=
  let y := (expiring m).foldl (fun (m : Module) j => if (m.job j).state = 1 then m.dropLoad j stTimeout else m.endJob fu j stTimeout) m.breakLoads
  let z := ((List.range 16).foldl (fun (m : Module) p => m.losePort fu p) y).domainsOff
  { z with power := { z.power with refState := 2 } }.event fu 0x0207 [(expiring m).length, m.enabledBlocks]

theorem exec_holdoverExpiry (s : State) : exec .holdoverExpiry s =
    s.actOn true (fun fu m => if m.power.refState != 1 then m else (expired fu m).settle fu) := by
  change execHoldoverExpiry s = _
  unfold execHoldoverExpiry expired expiring
  rfl

theorem module_of_expiry {s t : State} (powered : s.m.powered = true) (lost : s.m.power.refState = 1)
    (runs : exec .holdoverExpiry s = .next t) : t.m = (expired s.fuse s.m).settle s.fuse := by
  rw [exec_holdoverExpiry, State.actOn, if_pos rfl, if_pos powered, State.act, if_neg (by simp [lost])] at runs
  injection runs with same
  rw [← same]

theorem keeps_breakChain (m : Module) (q : Nat) (timeout : Bool) : KeepsBut [.queues, .jobs, .store] m (m.breakChain q timeout) := by
  unfold Module.breakChain
  dsimp only
  have opened := keeps_mono (qs := [.queues, .jobs, .store]) (keeps_onQueue m q (fun t => { t with chain := none })) (by decide)
  split
  · exact opened
  · next c _ =>
    refine keeps_trans opened (keeps_trans ?_ (keeps_mono (keeps_answer _ q c _ _ _) (by decide)))
    exact keeps_ite (keeps_mono (keeps_onJob _ _ _) (by decide)) (keeps_ite (keeps_mono (keeps_onStore _ _) (by decide)) (keeps_refl _ _))

theorem keeps_breakLoads (m : Module) : KeepsBut [.queues, .jobs, .store] m m.breakLoads :=
  kb_foldl _ _ (fun m q => keeps_ite (keeps_breakChain m q true) (keeps_refl _ m)) m

theorem losePort_of_dark (fu : Fuses) (m : Module) (n : Nat) (dark : (m.hawser n).up = false) : m.losePort fu n = m := by
  unfold Module.losePort
  rw [if_pos (by simp [dark])]

theorem losePorts_of_dark (fu : Fuses) (l : List Nat) {m : Module} (dark : ∀ n, (m.hawser n).up = false) :
    l.foldl (fun (m : Module) n => m.losePort fu n) m = m := by
  induction l with
  | nil => rfl
  | cons n l ih => rw [List.foldl_cons, losePort_of_dark fu m n (dark n), ih]

/-- Only the chains that break change the contexts and the queues. -/
theorem expired_of_dark (fu : Fuses) {m : Module} (idle : expiring m = []) (dark : ∀ n, (m.hawser n).up = false) :
    (expired fu m).jobs = m.breakLoads.jobs ∧ (expired fu m).host.queues = m.breakLoads.host.queues ∧
    (expired fu m).mgmt.capstanUp = m.mgmt.capstanUp := by
  have broken := keeps_breakLoads m
  have same : ∀ n, m.breakLoads.hawser n = m.hawser n := fun n => by rw [Module.hawser, broken .hawsers (by decide), Module.hawser]
  have lit := losePorts_of_dark fu (List.range 16) (m := m.breakLoads) (fun n => by rw [same]; exact dark n)
  unfold expired
  rw [idle]
  dsimp only [List.foldl_nil]
  rw [lit]
  generalize m.breakLoads = x at broken
  have keeps : KeepsBut reporting { x.domainsOff with power := { x.domainsOff.power with refState := 2 } } (Module.event fu
      { x.domainsOff with power := { x.domainsOff.power with refState := 2 } } 0x0207 [([] : List Nat).length, m.enabledBlocks]) :=
    (kb_event fu _ _ (by decide) (by decide) (by decide)).2 (keeps_refl _ _)
  refine ⟨keeps .jobs (by decide), keeps .queues (by decide), ?_⟩
  rw [capstanUp_of_keeps keeps (by decide)]
  exact (capstanUp_of_keeps broken (by decide) : x.mgmt.capstanUp = m.mgmt.capstanUp)

/-! ### A LOAD that has started for a FREE context -/

namespace LostReference

/-- A LOAD of job 0 that has started. -/
def load : Cmd :=
  { tag := 0, opcode := 1, job := 0, args := [], order := false, state := 1, stamp := 0, policy := 0, keys := 0, got := 0, data := [] }

/-- A queue whose open chain is that LOAD's. -/
def queue : Queue := { Queue.reset with cmds := [load], chain := some 0 }

/-- The module after reset, powered, its reference lost, with that queue; every context is FREE and Capstan is not up. -/
def bench : Module :=
  { Module.reset with
    power := { Module.reset.power with phase := .on, mrst := false, refState := 1 }
    mgmt := { Module.reset.mgmt with capstanUp := false }
    host := { Module.reset.host with queues := queue :: List.replicate 15 Queue.reset } }

def state : State := { State.reset with m := bench }

theorem state_m : state.m = bench := rfl

theorem powered : state.m.powered = true := by decide

theorem lost : state.m.power.refState = 1 := by decide

theorem free : (bench.job 0).state = 0 := by decide

theorem idle : expiring bench = [] := by decide

theorem dark (n : Nat) : (bench.hawser n).up = false := by
  have lit : bench.hawsers = List.replicate 16 Hawser.reset := rfl
  rw [Module.hawser, lit, List.getD_eq_getElem?_getD, List.getElem?_replicate]
  split <;> rfl

theorem broken : (bench.breakLoads.job 0).state = 4 := by decide

theorem waiting : (opcodes bench.breakLoads).all (·.all isJobState) = true := by decide

end LostReference

/-- Refutes O58: its clause of the holdover's end says that a context that is FREE stays so. In `LostReference.state` an open chain is that of a
LOAD that has started, of the context 0, which is FREE; the end of the holdover breaks the chain with TIMEOUT, and leaves the context
ENDED. -/
theorem not_loopsAndSourcesAct : ¬ Obligations.LoopsAndSourcesAct := by
  intro holds
  obtain ⟨-, -, -, -, expiry, -⟩ := holds LostReference.state LostReference.powered
  obtain ⟨t, runs, -, -, z, settles, -, -, -, -, kept, -⟩ := expiry LostReference.lost rfl
  obtain ⟨jobs, queues, away⟩ := expired_of_dark LostReference.state.fuse LostReference.idle LostReference.dark
  have states : (opcodes (expired LostReference.state.fuse LostReference.bench)).all (·.all isJobState) = true := by
    rw [opcodes, queues]
    exact LostReference.waiting
  have after : t.m = expired LostReference.state.fuse LostReference.bench := by
    have expires := module_of_expiry LostReference.powered LostReference.lost runs
    rw [LostReference.state_m] at expires
    exact expires.trans (settle_of_away LostReference.state.fuse away states)
  have before : z = expired LostReference.state.fuse LostReference.bench := eq_of_settle (settles.symm.trans after) away states
  have free := kept 0 (by decide) (.inl LostReference.free)
  rw [before, Module.job, jobs] at free
  exact absurd (LostReference.broken.symm.trans (free.trans LostReference.free)) (by decide)

end Sys2Proof.Proofs
end

section
/-!
PROOFS. The module's defaults (R512, R516, R518) and the boot ROM (R456): what stands at its default, and what the boot leaves of it.
-/
namespace Sys2Proof.Proofs

open Sys2Proof.Machine Sys2Proof.Laws

/-! ### Every block at its default -/

/-- Every block outside the management domain at its default, nothing staged, the dictionary not reachable, and no function ready. -/
def Cleared (n : Module) : Prop :=
  n.cores = Module.reset.cores ∧ n.clusters = Module.reset.clusters ∧ n.hbm = [] ∧ n.hbmPoison = [] ∧ n.bursts = [] ∧
  n.jobs = Module.reset.jobs ∧ n.residency = [] ∧ n.hawsers = Module.reset.hawsers ∧ n.links = Module.reset.links ∧
  n.dies = Module.reset.dies ∧ n.host.queues = Module.reset.host.queues ∧ n.mgmt.staged = [] ∧ n.mgmt.reachable = false ∧
  (∀ p ∈ n.host.ports, p.ready = false)

/-- The stored objects have the contents they had, and where no page of a slot fails, they are as they were. -/
def KeepsStored (finds : List (Nat × List FlashUpset)) (c d : Coil) : Prop :=
  (finds = [] → d.objs = c.objs) ∧ d.objs.map contentOf = c.objs.map contentOf

theorem keepsStored_of_objs {finds : List (Nat × List FlashUpset)} {c d : Coil} (same : d.objs = c.objs) : KeepsStored finds c d :=
  ⟨fun _ => same, by rw [same]⟩

theorem KeepsStored.trans {finds : List (Nat × List FlashUpset)} {a b c : Coil} (ab : KeepsStored finds a b) (bc : KeepsStored finds b c) :
    KeepsStored finds a c :=
  ⟨fun none => (bc.1 none).trans (ab.1 none), bc.2.trans ab.2⟩

/-- What a boot may write. -/
def booting : List Part := [.power, .hbmStacks, .lasers, .od, .saved, .calib, .log, .report, .fw, .trust, .store, .freeNo]

theorem cleared_of_keeps {m n : Module} (keeps : KeepsBut booting m n) (cleared : Cleared m) : Cleared n := by
  obtain ⟨cores, clusters, hbm, poison, bursts, jobs, residency, hawsers, links, dies, queues, staged, reachable, ports⟩ := cleared
  have mgmt := keeps .mgmt (by decide)
  obtain ⟨keptPoison, keptBursts⟩ := keeps .hbmPoison (by decide)
  have bare := keeps .ports (by decide)
  refine ⟨(keeps .cores (by decide)).trans cores, (keeps .clusters (by decide)).trans clusters, (keeps .hbm (by decide)).trans hbm,
    keptPoison.trans poison, keptBursts.trans bursts, (keeps .jobs (by decide)).trans jobs, (keeps .residency (by decide)).trans residency,
    (keeps .hawsers (by decide)).trans hawsers, (keeps .links (by decide)).trans links, (keeps .dies (by decide)).trans dies,
    (keeps .queues (by decide)).trans queues, (congrArg Mgmt.staged mgmt).trans staged, (congrArg Mgmt.reachable mgmt).trans reachable,
    fun p hp => ?_⟩
  have mem := List.mem_map_of_mem (f := fun p : Port => { p with mailbox := Mailbox.reset }) hp
  rw [bare] at mem
  obtain ⟨o, ho, same⟩ := List.mem_map.1 mem
  exact (congrArg Port.ready same).symm.trans (ports o ho)

theorem cleared_cold (m : Module) (p : Power) : Cleared (m.cold p) := by
  refine ⟨rfl, rfl, rfl, rfl, rfl, rfl, rfl, rfl, rfl, rfl, rfl, rfl, rfl, fun o ho => ?_⟩
  obtain ⟨r, -, rfl⟩ := List.mem_map.1 ho
  rfl

/-! ### Snapshots and the copies of the record -/

theorem keeps_snapshotTo (m : Module) (cause code : Nat) (reported : Bool) : KeepsBut [.log, .freeNo] m (m.snapshotTo cause code reported) := by
  unfold Module.snapshotTo
  dsimp only
  rw [kb_nextFree (by decide)]
  exact keeps_mono (keeps_withLog m _) (by decide)

/-- The slot that a snapshot fills. -/
def snapSlot (m : Module) (cause code : Nat) (reported : Bool) : RegSlot :=
  { cause := cause, code := code, cycles := m.odGet (odKey 0x1018 9) % 2 ^ 24, reported := reported,
    ops := m.odGet (odKey 0x1018 10) % 2 ^ 40, regs := m.snapRegs }

theorem slot_snapshotTo (m : Module) (cause code : Nat) (reported : Bool) (free : m.log.nextSlot < m.log.slots.length) :
    (m.snapshotTo cause code reported).log.slots[m.log.nextSlot]? = some (some (snapSlot m cause code reported)) := by
  have written := modifyAt_getElem? (fun _ => some (snapSlot m cause code reported)) m.log.slots m.log.nextSlot m.log.nextSlot
  rw [if_pos rfl, List.getElem?_eq_getElem free] at written
  exact written

/-! ### The boot ROM -/

section
variable (fu : Fuses)

theorem keeps_readRepair (m : Module) (bad : List Nat) : KeepsBut (.store :: reporting) m (m.readRepair fu bad) := by
  unfold Module.readRepair
  dsimp only
  have told := kb_foldl (ps := .store :: reporting) (bad.eraseDups.filter (· < 4)) (fun (m : Module) i =>
    m.event fu 0x060C [9 * i, (m.store.repairCopies.getD i RepairCopy.reset).latest])
    (fun m i => (kb_event fu _ _ (by decide) (by decide) (by decide)).2 (keeps_refl _ m)) m
  split
  · exact keeps_trans told (keeps_trans ((kb_event fu _ _ (by decide) (by decide) (by decide)).2 (keeps_refl _ _))
      (keeps_mono (keeps_onStore _ _) (by decide)))
  · exact keeps_trans told (keeps_mono (keeps_onStore _ _) (by decide))

theorem objs_readRepair (m : Module) (bad : List Nat) : (m.readRepair fu bad).store.objs = m.store.objs := by
  unfold Module.readRepair
  dsimp only
  have told := foldl_keep (fun n : Module => n.store.objs) (bad.eraseDups.filter (· < 4)) (fun (m : Module) i =>
    m.event fu 0x060C [9 * i, (m.store.repairCopies.getD i RepairCopy.reset).latest]) (fun m i => by rw [event_store]) m
  split
  · rw [store_onStore, event_store]
    exact told
  · exact told

theorem keeps_withFw (m : Module) (f : Firmware) : KeepsBut [.fw] m { m with fw := f } := by
  intro part hpart
  cases part <;> simp_all [Part.same]

theorem dropTrials_leaves (m : Module) : KeepsBut (.fw :: reporting) m (m.dropTrials fu) ∧ (m.dropTrials fu).store = m.store ∧
    (m.dropTrials fu).trust = m.trust := by
  have keeps : KeepsBut (.fw :: reporting) m (m.dropTrials fu) := by
    refine kb_foldl _ _ (fun m i => keeps_ite ?_ (keeps_refl _ m)) m
    rw [kb_event _ _ _ (by decide) (by decide) (by decide)]
    exact keeps_mono (keeps_withFw m _) (by decide)
  exact ⟨keeps, keeps .store (by decide), keeps .trust (by decide)⟩

/-- The boot ROM has read the system area and dropped the trials that ended. -/
def romRead (m : Module) (finds : BootFinds) : Module :=
  let m := m.readRepair fu finds.repairBad
  let m := if finds.formatOk then m else { m with od := [], saved := [] }.event fu 0x060B [0]
  let m := { m with trust := { m.trust with secOk := finds.secOk } }
  let m := if finds.secOk then m else m.event fu 0x0A0B [0]
  m.dropTrials fu

theorem romRead_leaves (m : Module) (finds : BootFinds) :
    KeepsBut [.od, .saved, .log, .report, .fw, .trust, .store] m (romRead fu m finds) ∧ (romRead fu m finds).store.objs = m.store.objs ∧
    (romRead fu m finds).trust.secOk = finds.secOk := by
  unfold romRead
  dsimp only
  generalize repaired : m.readRepair fu finds.repairBad = a
  have first : KeepsBut [.od, .saved, .log, .report, .fw, .trust, .store] m a := repaired ▸ keeps_mono (keeps_readRepair fu m _) (by decide)
  have objs : a.store.objs = m.store.objs := repaired ▸ objs_readRepair fu m _
  generalize formatted : (if finds.formatOk = true then a else _) = b
  have second : KeepsBut [.od, .saved, .log, .report] a b := by
    rw [← formatted]
    refine keeps_ite (keeps_refl _ a) ?_
    rw [kb_event _ _ _ (by decide) (by decide) (by decide)]
    intro part hpart
    cases part <;> simp_all [Part.same]
  generalize trusted : ({ b with trust := _ } : Module) = c
  have third : KeepsBut [.trust] b c := by
    rw [← trusted]
    intro part hpart
    cases part <;> simp_all [Part.same]
  have sec : c.trust.secOk = finds.secOk := by rw [← trusted]
  generalize told : (if finds.secOk = true then c else _) = d
  have fourth : KeepsBut reporting c d := by
    rw [← told]
    exact keeps_ite (keeps_refl _ c) ((kb_event fu _ _ (by decide) (by decide) (by decide)).2 (keeps_refl _ c))
  obtain ⟨fifth, store, trust⟩ := dropTrials_leaves fu d
  refine ⟨keeps_trans first (keeps_trans (keeps_mono second (by decide)) (keeps_trans (keeps_mono third (by decide))
    (keeps_trans (keeps_mono fourth (by decide)) (keeps_mono fifth (by decide))))), ?_, ?_⟩
  · rw [store, fourth .store (by decide), third .store (by decide), second .store (by decide), objs]
  · rw [trust, fourth .trust (by decide), sec]

/-! ### The pages of the slots -/

theorem content_ownUpset (m : Module) (u : FlashUpset) : (m.ownUpset fu u).store.objs.map contentOf = m.store.objs.map contentOf := by
  cases u with
  | programFail die block => exact content_of_sameObjects (sameObjects_retire fu m die block 1)
  | eraseFail die block => exact content_of_sameObjects (sameObjects_retire fu m die block 1)
  | pageRebuilt part die block page => exact content_of_sameObjects (sameObjects_rebuilt fu m part die block page)
  | pageLost part id granule count dies => exact content_pageLost fu m part id granule count dies
  | flaw f => rfl
  | rebuilt die block page => rfl
  | unreadable granule count dies => rfl

theorem content_pageReads (part id : Nat) (ups : List FlashUpset) (m : Module) :
    (m.pageReads fu part id ups).store.objs.map contentOf = m.store.objs.map contentOf := by
  refine foldl_keep (fun n : Module => n.store.objs.map contentOf) ups _ (fun n u => ?_) m
  split
  · exact content_of_sameObjects (sameObjects_rebuilt fu n part _ _ _)
  · exact content_pageLost fu n _ _ _ _ _
  · rfl
  · rfl
  · exact content_ownUpset fu n _

/-- The boot ROM reads the slots that it tries. -/
def slotReads (m : Module) (finds : BootFinds) (tried : List Nat) : Module :=
  tried.foldl (fun (m : Module) i => (finds.slots.filter (fun s => s.1 == i)).foldl (fun (m : Module) s => m.pageReads fu 5 i s.2) m) m

theorem slotReads_leaves (m : Module) (finds : BootFinds) (tried : List Nat) :
    KeepsBut (.store :: reporting) m (slotReads fu m finds tried) ∧ KeepsStored finds.slots m.store (slotReads fu m finds tried).store := by
  refine ⟨?_, fun none => ?_, ?_⟩
  · exact kb_foldl tried _ (fun m i => kb_foldl _ _ (fun m (s : Nat × List FlashUpset) => keeps_pageReads fu m 5 i s.2) m) m
  · refine foldl_keep (fun n : Module => n.store.objs) tried _ (fun n i => ?_) m
    rw [none]
    rfl
  · exact foldl_keep (fun n : Module => n.store.objs.map contentOf) tried _ (fun n i =>
      foldl_keep (fun n : Module => n.store.objs.map contentOf) _ _ (fun n (s : Nat × List FlashUpset) => content_pageReads fu 5 i s.2 n) n) m

/-! ### The slot that starts -/

/-- The boot ROM serves the mailbox and the field network itself; `why` names the slots that failed. -/
def romServes (m : Module) (why : List (Nat × Nat)) : Module :=
  { m with
    mgmt := { m.mgmt with romService := true }
    fw := { m.fw with bootStage := 1, bootResult := (why.map Prod.snd).headD 6 } }

/-- The boot ROM starts the slot that it picked, or serves on its own; `why` names the slots that failed. -/
def romStarts (m : Module) (picked : Option (Nat × Nat)) (why : List (Nat × Nat)) : Module :=
  match picked with
  | some (i, k) =>
    let m := { m with fw := { m.fw with running := i, keyUsed := k, bootStage := 1, bootResult := 0 } }
    (match why with
      | [] => m
      | w :: _ => m.event fu 0x0A01 [i, w.2])
  | none => (romServes m why).snapshotTo 1 0x0A05 false

theorem romStarts_leaves (m : Module) (picked : Option (Nat × Nat)) (why : List (Nat × Nat)) (cleared : Cleared m) :
    Cleared (romStarts fu m picked why) ∧ (romStarts fu m picked why).power = m.power ∧ (romStarts fu m picked why).fw.bootStage = 1 ∧
    (romStarts fu m picked why).trust = m.trust ∧ (romStarts fu m picked why).store = m.store := by
  unfold romStarts
  rcases picked with _ | ⟨i, k⟩
  · have serves : Cleared (romServes m why) := cleared
    have keeps := keeps_snapshotTo (romServes m why) 1 0x0A05 false
    exact ⟨cleared_of_keeps (keeps_mono keeps (by decide)) serves, keeps .power (by decide), congrArg Firmware.bootStage (keeps .fw (by decide)),
      keeps .trust (by decide), keeps .store (by decide)⟩
  · have starts := cleared_of_keeps (keeps_mono (qs := booting)
      (keeps_withFw m { m.fw with running := i, keyUsed := k, bootStage := 1, bootResult := 0 }) (by decide)) cleared
    rcases why with _ | ⟨w, why⟩
    · exact ⟨starts, rfl, rfl, rfl, rfl⟩
    · have keeps := (kb_event (ps := reporting) fu 0x0A01 [i, w.2] (by decide) (by decide) (by decide)).2 (keeps_refl _
        ({ m with fw := { m.fw with running := i, keyUsed := k, bootStage := 1, bootResult := 0 } } : Module))
      refine ⟨cleared_of_keeps (keeps_mono keeps (by decide)) starts, keeps .power (by decide), ?_, keeps .trust (by decide),
        keeps .store (by decide)⟩
      exact congrArg Firmware.bootStage (keeps .fw (by decide))

/-- The boot ROM reads, picks and starts. -/
theorem bootRom_eq (m : Module) (finds : BootFinds) : ∃ f tried picked why,
    m.bootRom fu finds = romStarts fu (slotReads fu ((romRead fu m finds).onFw (fun _ => f)) finds tried) picked why := by
  unfold Module.bootRom
  extract_lets m1 m2 old m3 m4 r b m6 tried m7
  have read : r = romRead fu m finds := rfl
  have reads : m7 = slotReads fu m6 finds tried := rfl
  refine ⟨b.1, tried, b.2.1, b.2.2, ?_⟩
  rw [← read]
  change _ = romStarts fu (slotReads fu m6 finds tried) b.2.1 b.2.2
  rw [← reads]
  clear_value m7 b
  rfl

/-- A boot leaves every block at its default, the power as it was, and the stored objects their contents. -/
theorem bootRom_leaves {m : Module} (cleared : Cleared m) (finds : BootFinds) :
    Cleared (m.bootRom fu finds) ∧ (m.bootRom fu finds).power = m.power ∧ (m.bootRom fu finds).fw.bootStage = 1 ∧
    (m.bootRom fu finds).trust.secOk = finds.secOk ∧ KeepsStored finds.slots m.store (m.bootRom fu finds).store := by
  obtain ⟨f, tried, picked, why, boots⟩ := bootRom_eq fu m finds
  rw [boots]
  obtain ⟨reads, objs, sec⟩ := romRead_leaves fu m finds
  generalize romRead fu m finds = r at reads objs sec
  have tries := keeps_onFw r (fun _ => f)
  obtain ⟨pages, stored⟩ := slotReads_leaves fu (r.onFw (fun _ => f)) finds tried
  generalize slotReads fu _ finds _ = y at pages stored
  have keeps : KeepsBut booting m y := keeps_trans (keeps_mono reads (by decide))
    (keeps_trans (keeps_mono tries (by decide)) (keeps_mono pages (by decide)))
  obtain ⟨cleared', power, stage, trust, store⟩ := romStarts_leaves fu y picked why (cleared_of_keeps keeps cleared)
  refine ⟨cleared', ?_, stage, ?_, ?_⟩
  · rw [power, pages .power (by decide), tries .power (by decide), reads .power (by decide)]
  · rw [trust, pages .trust (by decide), tries .trust (by decide), sec]
  · rw [store]
    exact (keepsStored_of_objs objs).trans stored

end

end Sys2Proof.Proofs
end

section
/-!
PROOFS. The 54 V input, PWRGD, MRST_N and the thermal trip (R498, R499, R512, R513, R516, R518, R519): the starts and the stops.
-/
namespace Sys2Proof.Proofs

open Sys2Proof.Machine Sys2Proof.Laws

/-! ### A module that starts -/

/-- Every block of `n` at its default, with the objects that `m` stored. -/
def AtDefault (m : Module) (slots : List (Nat × List FlashUpset)) (n : Module) : Prop :=
  n.cores = Module.reset.cores ∧ n.clusters = Module.reset.clusters ∧ n.hbm = [] ∧ n.hbmPoison = [] ∧ n.bursts = [] ∧
  n.jobs = Module.reset.jobs ∧ n.residency = [] ∧ n.hawsers = Module.reset.hawsers ∧ n.links = Module.reset.links ∧
  n.dies = Module.reset.dies ∧ n.host.queues = Module.reset.host.queues ∧ n.mgmt.staged = [] ∧ n.mgmt.reachable = false ∧
  (slots = [] → n.store.objs = m.store.objs) ∧ n.store.objs.map contentOf = m.store.objs.map contentOf ∧
  (∀ p ∈ n.host.ports, p.ready = false)

section
variable {m n : Module} {slots : List (Nat × List FlashUpset)}

theorem atDefault_of_cleared (cleared : Cleared n) (stored : KeepsStored slots m.store n.store) : AtDefault m slots n := by
  obtain ⟨cores, clusters, hbm, poison, bursts, jobs, residency, hawsers, links, dies, queues, staged, reachable, ports⟩ := cleared
  obtain ⟨objs, content⟩ := stored
  exact ⟨cores, clusters, hbm, poison, bursts, jobs, residency, hawsers, links, dies, queues, staged, reachable, objs, content, ports⟩

theorem cleared_of_atDefault (rest : AtDefault m slots n) : Cleared n ∧ KeepsStored slots m.store n.store := by
  obtain ⟨cores, clusters, hbm, poison, bursts, jobs, residency, hawsers, links, dies, queues, staged, reachable, objs, content, ports⟩ := rest
  exact ⟨⟨cores, clusters, hbm, poison, bursts, jobs, residency, hawsers, links, dies, queues, staged, reachable, ports⟩, objs, content⟩

theorem atDefault_cold (p : Power) : AtDefault m slots (m.cold p) := atDefault_of_cleared (cleared_cold m p) (keepsStored_of_objs rfl)

/-- What may be written of a module at its defaults besides its store. -/
def storeless : List Part := booting.erase .store

theorem atDefault_of_keeps {y : Module} (keeps : KeepsBut storeless y n) (rest : AtDefault m slots y) : AtDefault m slots n := by
  obtain ⟨cleared, stored⟩ := cleared_of_atDefault rest
  refine atDefault_of_cleared (cleared_of_keeps (keeps_mono keeps (by decide)) cleared) ?_
  rw [keeps .store (by decide)]
  exact stored

/-- The same with the objects of a module that stored the same. -/
theorem atDefault_congr {x : Module} (same : x.store = m.store) (rest : AtDefault x slots n) : AtDefault m slots n := by
  obtain ⟨cleared, stored⟩ := cleared_of_atDefault rest
  exact atDefault_of_cleared cleared (same ▸ stored)

/-- A dictionary value set in a module at its defaults. -/
theorem odSet_atDefault {y : Module} (rest : AtDefault m slots y) (k v : Nat) :
    (y.odSet k v).power = y.power ∧ (y.odSet k v).fw = y.fw ∧ (y.odSet k v).odGet k = v ∧ AtDefault m slots (y.odSet k v) :=
  ⟨rfl, rfl, by rw [odGet_odSet, if_pos rfl], atDefault_of_keeps (keeps_mono (keeps_odSet y k v) (by decide)) rest⟩

end

theorem keeps_withPower (m : Module) (p : Power) : KeepsBut [.power] m { m with power := p } := by
  intro part hpart
  cases part <;> simp_all [Part.same]

/-- A start from the defaults: the power state that it is given, the node of the straps, rank 0 where MASTER_SEL asks for it. -/
theorem startUp_leaves (fu : Fuses) (m : Module) (p : Power) (finds : BootFinds) :
    AtDefault m finds.slots (m.startUp fu p finds) ∧ (m.startUp fu p finds).power = p ∧ (m.startUp fu p finds).fw.bootStage = 1 ∧
    (m.startUp fu p finds).trust.secOk = finds.secOk ∧ (m.startUp fu p finds).odGet (odKey 0x1010 2) = p.node ∧
    (p.masterSel = true → (m.startUp fu p finds).rank = 0) := by
  unfold Module.startUp
  dsimp only
  obtain ⟨cleared, power, stage, sec, stored⟩ := bootRom_leaves fu (cleared_cold m p) finds
  generalize (m.cold p).bootRom fu finds = b at *
  have boots : AtDefault m finds.slots b := atDefault_of_cleared cleared stored
  have powered : b.power = p := power
  generalize ranked : (if b.power.masterSel = true then b.odSet (odKey 0x5200 1) 0 else b) = r
  have sets : KeepsBut [.od] b r := ranked ▸ keeps_ite (keeps_odSet b _ _) (keeps_refl _ b)
  have rank : p.masterSel = true → r.rank = 0 := fun master => by
    rw [← ranked, powered, if_pos master, Machine.Module.rank, odGet_odSet, if_pos rfl]
  have named := keeps_odSet r (odKey 0x1010 2) r.power.node
  have latches := keeps_latchAll (r.odSet (odKey 0x1010 2) r.power.node) (inputCalib ++ dieCalib 48)
  have keeps : KeepsBut [.od, .calib] b ((r.odSet (odKey 0x1010 2) r.power.node).latchAll (inputCalib ++ dieCalib 48)) :=
    keeps_trans (keeps_mono sets (by decide)) (keeps_trans (keeps_mono named (by decide)) (keeps_mono latches (by decide)))
  have od := odGet_congr (latches .od (by decide))
  refine ⟨atDefault_of_keeps (keeps_mono keeps (by decide)) boots, (keeps .power (by decide)).trans powered, ?_, ?_, ?_, fun master => ?_⟩
  · rw [keeps .fw (by decide), stage]
  · rw [keeps .trust (by decide), sec]
  · rw [od, odGet_odSet, if_pos rfl, sets .power (by decide), powered]
  · rw [Machine.Module.rank, od, odGet_odSet, if_neg (by decide)]
    exact rank master

/-! ### The input and PWRGD -/

section
variable {s : State}

theorem goes_powerApply {mv : Nat} (off : s.m.power.phase = .off) (enough : 39000 ≤ mv) : Goes s (.powerApply mv) (fun n =>
    n.power = { s.m.power with phase := .precharge, mv := mv, outOfRange := decide (60000 < mv) || decide (mv < 40000) } ∧
    KeepsBut [.power] s.m n) := by
  refine goes_act (c := .powerApply mv) (Eq.refl (execPowerApply mv s)) ?_
  rw [if_neg (by simp [off]; omega)]
  exact ⟨rfl, keeps_withPower s.m _⟩

/-- The power state with which PWRGD rises. -/
def risen (p : Power) (masterSel : Bool) (node : Nat) (ref : Option Int) : Power :=
  { p.started .on with masterSel := masterSel, node := node % 8, mrst := false, grace := false, mrstPin := false, thermtrip := false,
                       refState := if ref.isSome then 3 else 0 }

/-- A start after PWRGD, power_cycles counted and a reference out of range reported. -/
def risenModule (fu : Fuses) (m : Module) (ref : Option Int) : Module :=
  let m := (m.odSet (odKey 0x1018 9) (min (m.odGet (odKey 0x1018 9) + 1) 0xFFFFFF)).save (odKey 0x1018 9)
  match ref with
  | none => m
  | some ppm => m.event fu 0x0206 [unsigned 64 ppm, 0]

theorem risenModule_leaves (fu : Fuses) (m : Module) (ref : Option Int) :
    KeepsBut (.saved :: reporting) m (risenModule fu m ref) ∧
    ∀ k, k ∉ reportKeys → k ≠ odKey 0x1018 9 → (risenModule fu m ref).odGet k = m.odGet k := by
  unfold risenModule
  dsimp only
  generalize counted : (m.odSet (odKey 0x1018 9) _).save (odKey 0x1018 9) = x
  have keeps : KeepsBut (.saved :: reporting) m x :=
    counted ▸ keeps_trans (keeps_mono (keeps_odSet m _ _) (by decide)) (keeps_mono (keeps_save _ _) (by decide))
  have od : ∀ k, k ≠ odKey 0x1018 9 → x.odGet k = m.odGet k := fun k other => by
    rw [← counted, odGet_congr (keeps_save _ _ .od (by decide)), odGet_odSet, if_neg other]
  rcases ref with _ | ppm
  · exact ⟨keeps, fun k _ other => od k other⟩
  · exact ⟨(kb_event fu _ _ (by decide) (by decide) (by decide)).2 keeps, fun k told other => (odGet_event fu x _ _ k told).trans (od k other)⟩

theorem exec_pwrgdAssert (masterSel : Bool) (node : Nat) (ref : Option Int) (finds : BootFinds) :
    exec (.pwrgdAssert masterSel node ref finds) s = s.act (fun fu m => if m.power.phase != .precharge then m
      else risenModule fu (m.startUp fu (risen m.power masterSel node ref) finds) ref) := rfl

theorem goes_pwrgdAssert (masterSel : Bool) (node : Nat) (ref : Option Int) (finds : BootFinds) (charged : s.m.power.phase = .precharge) :
    Goes s (.pwrgdAssert masterSel node ref finds) (fun n =>
      n.powered = true ∧ n.power.masterSel = masterSel ∧ n.power.node = node % 8 ∧ (masterSel = true → n.rank = 0) ∧
      n.odGet (odKey 0x1010 2) = node % 8 ∧ n.fw.bootStage = 1 ∧ n.trust.secOk = finds.secOk ∧ AtDefault s.m finds.slots n) := by
  refine goes_act (exec_pwrgdAssert masterSel node ref finds) ?_
  rw [if_neg (by simp [charged])]
  obtain ⟨rest, power, stage, sec, named, ranked⟩ := startUp_leaves s.fuse s.m (risen s.m.power masterSel node ref) finds
  generalize s.m.startUp s.fuse _ finds = x at *
  obtain ⟨keeps, od⟩ := risenModule_leaves s.fuse x ref
  generalize risenModule s.fuse x ref = n at *
  have same : n.power = risen s.m.power masterSel node ref := (keeps .power (by decide)).trans power
  refine ⟨by rw [Module.powered, same]; rfl, by rw [same]; rfl, by rw [same]; rfl, fun master => ?_, ?_, ?_, ?_, ?_⟩
  · rw [Machine.Module.rank, od _ (by decide) (by decide)]
    exact ranked master
  · rw [od _ (by decide) (by decide), named]
    rfl
  · rw [keeps .fw (by decide), stage]
  · rw [keeps .trust (by decide), sec]
  · exact atDefault_of_keeps (keeps_mono keeps (by decide)) rest

/-! ### PWRGD falls -/

/-- The records kept before the power goes leave the ring empty. -/
theorem keepLog_leaves (m : Module) : m.keepLog.log.ring = [] ∧ KeepsBut [.log, .od, .saved] m m.keepLog := by
  unfold Module.keepLog
  split
  · obtain ⟨log, -, keeps⟩ := copyToPart_leaves m
    exact ⟨by rw [log], keeps⟩
  · exact ⟨rfl, keeps_trans (keeps_mono (keeps_withLog m _) (by decide)) (keeps_mono (keeps_saveSeqs _) (by decide))⟩

theorem goes_powerLoss (on : s.m.power.phase = .on) : Goes s .powerLoss (fun n =>
    n.powered = false ∧ n.pwrgd = false ∧ n.power.phase = .holdup ∧ n.cores = s.m.cores.map (fun _ => Core.reset) ∧
    n.hbm = [] ∧ n.hbmPoison = [] ∧ (∀ d ∈ n.hbmStacks, d.ready = false) ∧ n.log.ring = [] ∧
    n.store = { s.m.store with writing := [] } ∧ n.fw = s.m.fw) := by
  refine goes_act (c := .powerLoss) (Eq.refl (execPowerLoss s)) ?_
  rw [on]
  obtain ⟨ring, keeps⟩ := keepLog_leaves s.m
  generalize s.m.keepLog = x at ring keeps
  refine ⟨rfl, rfl, rfl, ?_, rfl, rfl, fun d hd => ?_, ring, ?_, keeps .fw (by decide)⟩
  · exact congrArg (List.map fun _ => Core.reset) (keeps .cores (by decide))
  · obtain ⟨t, -, rfl⟩ := List.mem_map.1 hd
    rfl
  · exact congrArg (fun c : Coil => { c with writing := [] }) (keeps .store (by decide))

theorem goes_holdupEnd (held : s.m.power.phase = .holdup) : Goes s .holdupEnd (fun n =>
    n.power.phase = .off ∧ n.saved = s.m.saved ∧ n.od = s.m.saved ∧ n.log.part = s.m.log.part ∧ AtDefault s.m [] n) := by
  refine goes_act (c := .holdupEnd) (Eq.refl (execHoldupEnd s)) ?_
  rw [if_neg (by simp [held])]
  exact ⟨rfl, rfl, rfl, rfl, atDefault_cold _⟩

/-! ### MRST_N -/

theorem goes_mrstNAssert (powered : s.m.powered = true) (free : s.m.power.grace = false) : Goes s .mrstNAssert (fun n =>
    n.power = { s.m.power with mrstPin := true, grace := true } ∧ n.powered = true ∧ n.log.ring = [] ∧
    KeepsBut [.power, .log, .od, .saved] s.m n) := by
  refine goes_act (c := .mrstNAssert) (Eq.refl (execMrstNAssert s)) ?_
  have on : s.m.power.phase = .on := by
    have := (Bool.and_eq_true_iff.1 powered).1
    simpa using this
  rw [if_neg (by simp [on]), if_neg (by simp [powered, free])]
  obtain ⟨ring, keeps⟩ := keepLog_leaves s.m
  generalize s.m.keepLog = x at ring keeps
  have power : x.power = s.m.power := keeps .power (by decide)
  refine ⟨congrArg (fun p : Power => { p with mrstPin := true, grace := true }) power, ?_, ring,
    keeps_trans (keeps_mono keeps (by decide)) (keeps_mono (keeps_withPower x _) (by decide))⟩
  change (x.power.phase == .on && !x.power.mrst) = true
  rw [power]
  exact powered

/-- The module leaves the reset from its defaults, and the boot ROM starts. -/
theorem leaveReset_leaves (fu : Fuses) (m : Module) (finds : BootFinds) :
    AtDefault m finds.slots (m.leaveReset fu finds) ∧ (m.leaveReset fu finds).power = { m.power.started .on with mrst := false, grace := false } ∧
    (m.leaveReset fu finds).fw.bootStage = 1 := by
  obtain ⟨rest, power, stage, -⟩ := startUp_leaves fu m { m.power.started .on with mrst := false, grace := false } finds
  exact ⟨rest, power, stage⟩

theorem goes_mrstGraceEnd (finds : BootFinds) (powered : s.m.powered = true) (grace : s.m.power.grace = true) :
    Goes s (.mrstGraceEnd finds) (fun n =>
      n.power.phase = .on ∧ n.power.grace = false ∧ n.power.mrst = s.m.power.mrstPin ∧
      n.odGet (odKey 0x7130 7) = s.m.odGet (odKey 0x7130 7) ∧ AtDefault s.m finds.slots n) := by
  refine goes_act (c := .mrstGraceEnd finds) (Eq.refl (execMrstGraceEnd finds s)) ?_
  rw [if_neg (by simp [powered, grace])]
  obtain ⟨-, keeps⟩ := keepLog_leaves s.m
  have store : s.m.keepLog.store = s.m.store := keeps .store (by decide)
  have pin : s.m.keepLog.power.mrstPin = s.m.power.mrstPin := congrArg Power.mrstPin (keeps .power (by decide))
  generalize s.m.keepLog = x at store pin
  generalize s.m.odGet (odKey 0x7130 7) = suspect
  dsimp only
  generalize left : (if x.power.mrstPin = true then _ else _) = y
  have reset : y.power.phase = .on ∧ y.power.grace = false ∧ y.power.mrst = x.power.mrstPin ∧ AtDefault x finds.slots y := by
    rw [← left]
    split
    · next low => exact ⟨rfl, rfl, low.symm, atDefault_cold _⟩
    · next high =>
      obtain ⟨rest, power, -⟩ := leaveReset_leaves s.fuse x finds
      rw [power]
      exact ⟨rfl, rfl, (eq_false_of_ne_true high).symm, rest⟩
  obtain ⟨on, free, held, rest⟩ := reset
  obtain ⟨power, -, kept, rest'⟩ := odSet_atDefault rest (odKey 0x7130 7) suspect
  rw [power]
  exact ⟨on, free, held.trans pin, kept, atDefault_congr store rest'⟩

theorem goes_mrstNRelease (finds : BootFinds) (low : s.m.power.mrstPin = true) :
    (s.m.power.phase = .on → s.m.power.mrst = true → Goes s (.mrstNRelease finds) (fun n =>
      n.powered = true ∧ n.power.mrstPin = false ∧ n.fw.bootStage = 1 ∧ AtDefault s.m finds.slots n)) ∧
    (s.m.power.phase = .tripped → Goes s (.mrstNRelease finds) (fun n =>
      n.power = { s.m.power with mrstPin := false, phase := .precharge, thermtrip := false } ∧ KeepsBut [.power] s.m n)) := by
  refine ⟨fun on reset => goes_act (c := .mrstNRelease finds) (Eq.refl (execMrstNRelease finds s)) ?_, fun tripped => goes_act (c := .mrstNRelease finds) (Eq.refl (execMrstNRelease finds s)) ?_⟩
  · rw [if_neg (by simp [low])]
    dsimp only
    rw [if_neg (by simp [on]), if_pos (by simp [on, reset])]
    obtain ⟨rest, power, stage⟩ := leaveReset_leaves s.fuse { s.m with power := { s.m.power with mrstPin := false } } finds
    generalize Module.leaveReset s.fuse _ finds = y at *
    generalize Module.odGet _ (odKey 0x7130 7) = suspect
    obtain ⟨kept, fw, -, rest'⟩ := odSet_atDefault rest (odKey 0x7130 7) suspect
    rw [Module.powered, kept, power, fw]
    exact ⟨rfl, rfl, stage, rest'⟩
  · rw [if_neg (by simp [low])]
    dsimp only
    rw [if_pos tripped]
    exact ⟨rfl, keeps_withPower s.m _⟩

/-! ### The thermal trip -/

theorem goes_thermalTrip {d : Nat} {c : Int} (hd : d < 52) (powered : s.m.powered = true)
    (on : (s.m.die d).ready = true ∨ (s.m.die d).enabled = true) (hot : 115 ≤ c) : Goes s (.thermalTrip d c) (fun n =>
      n.power.phase = .tripped ∧ n.power.thermtrip = true ∧ n.powered = false ∧ n.pwrgd = false ∧
      (s.m.log.nextSlot < s.m.log.slots.length →
        ∃ r, n.log.slots[s.m.log.nextSlot]? = some (some r) ∧ r.cause = 4 ∧ r.code = 0 ∧ r.reported = false) ∧ AtDefault s.m [] n) := by
  refine goes_actOn rfl (by simpa using hd) powered ?_
  rw [if_neg (by rcases on with h | h <;> simp [h] <;> omega)]
  dsimp only
  generalize heated : s.m.onDie d _ = x
  have same : KeepsBut [.dies] s.m x := heated ▸ keeps_onDie s.m d _
  have log : x.log = s.m.log := same .log (by decide)
  have keeps := keeps_snapshotTo x 4 0 false
  have slot := slot_snapshotTo x 4 0 false
  generalize x.snapshotTo 4 0 false = y at keeps slot
  refine ⟨rfl, rfl, rfl, rfl, fun free => ⟨snapSlot x 4 0 false, ?_, rfl, rfl, rfl⟩,
    atDefault_congr ((keeps .store (by decide)).trans (same .store (by decide))) (atDefault_cold _)⟩
  rw [log] at slot
  exact slot free

end

end Sys2Proof.Proofs
end

section
/-!
PROOFS. Capstan's start, its restarts and its return (R456, R490, R495): the events that waited, the slots reported, the slot confirmed.
-/
namespace Sys2Proof.Proofs

open Sys2Proof.Machine Sys2Proof.Laws

/-! ### With Capstan up no event is held (R490) -/

/-- Where Capstan is up it stays so, and no event is held. -/
def Records (m n : Module) : Prop := m.mgmt.capstanUp = true → n.mgmt.capstanUp = true ∧ n.mgmt.held = m.mgmt.held

section
variable (fu : Fuses) (m : Module)

theorem records_of_mgmt {m n : Module} (same : n.mgmt = m.mgmt) : Records m n := fun up => by
  rw [same]
  exact ⟨up, rfl⟩

theorem records_trans {a b c : Module} (ab : Records a b) (bc : Records b c) : Records a c := fun up => by
  obtain ⟨up', held⟩ := ab up
  obtain ⟨up'', held'⟩ := bc up'
  exact ⟨up'', held'.trans held⟩

/-- The same from a module with the same management domain. -/
theorem records_of_same {y n : Module} (same : y.mgmt = m.mgmt) (records : Records y n) : Records m n := by
  simpa only [Records, same] using records

theorem records_ite {a b : Module} {p : Prop} [Decidable p] (yes : Records m a) (no : Records m b) : Records m (if p then a else b) := by
  split <;> assumption

theorem records_foldl {α : Type} {f : Module → α → Module} (each : ∀ m a, Records m (f m a)) (l : List α) : Records m (l.foldl f m) := by
  induction l generalizing m with
  | nil => exact records_of_mgmt rfl
  | cons a l ih => exact records_trans (each m a) (ih _)

theorem records_sendFrame (d n : Nat) (b : List Byte) : Records m (m.sendFrame fu d n b) := by
  unfold Module.sendFrame
  exact records_ite m (fun up => ⟨up, rfl⟩) (records_of_mgmt rfl)

theorem records_notifyPort (p : Nat) (b : List Byte) : Records m (m.notifyPort p b) := by
  refine records_of_mgmt ?_
  unfold Module.notifyPort
  dsimp only
  split
  · rfl
  split <;> rfl

theorem records_notifyRec (r : LogRec) : Records m (m.notifyRec fu r) := by
  unfold Module.notifyRec
  dsimp only
  split
  · refine records_of_same m ?_ (records_trans (records_trans (records_sendFrame fu _ _ _ _) (records_notifyPort _ 0 _)) (records_notifyPort _ 1 _))
    rfl
  · exact records_of_mgmt rfl

theorem records_putRec (c n : Nat) (b : Bool) (l : List Nat) : Records m (m.putRec fu c n b l) := by
  unfold Module.putRec
  dsimp only
  refine records_of_same m ?_ (records_notifyRec fu _ _)
  rfl

theorem records_putRecs (c n : Nat) (b : Bool) (l : List Nat) : Records m (m.putRecs fu c n b l) := by
  unfold Module.putRecs
  split
  · exact records_putRec fu m _ _ _ _
  · refine records_of_same m ?_ (records_trans (records_putRec fu _ _ _ _ _) (records_putRec fu _ _ _ _ _))
    rfl

theorem records_record (c : Nat) (b : Bool) (l : List Nat) : Records m (m.record fu c b l) := by
  unfold Module.record
  split
  · exact records_of_mgmt rfl
  split
  · exact records_of_mgmt rfl
  · refine records_of_same m ?_ (records_putRecs fu _ _ _ _ _)
    rfl

theorem records_eventX (b : Bool) (c : Nat) (l : List Nat) : Records m (m.eventX fu b c l) := fun up => by
  unfold Module.eventX
  rw [if_neg (by simp [up])]
  dsimp only
  have first := records_record fu m c b l
  generalize m.record fu c b l = x at first
  split
  · have marked : Records x { x with mgmt := { x.mgmt with dropEventHeld := true } } := fun up => ⟨up, rfl⟩
    exact records_trans first (records_trans marked (records_record fu _ _ _ _)) up
  · exact first up

theorem records_event (c : Nat) (l : List Nat) : Records m (m.event fu c l) := records_eventX fu m false c l

theorem records_reason (bit : Nat) (figures : List Nat) : Records m (m.reason fu bit figures) := by
  unfold Module.reason
  dsimp only
  split
  · exact records_of_mgmt rfl
  · refine records_of_same m ?_ (records_event fu _ _ _)
    rfl

/-! ### What Capstan does when it runs -/

/-- The events that waited are recorded, and none waits any more. -/
theorem releaseHeld_leaves (up : m.mgmt.capstanUp = true) :
    KeepsBut reporting { m with mgmt := { m.mgmt with held := [] } } (m.releaseHeld fu) ∧ (m.releaseHeld fu).mgmt.capstanUp = true ∧
    (m.releaseHeld fu).mgmt.held = [] := by
  unfold Module.releaseHeld
  generalize emptied : ({ m with mgmt := { m.mgmt with held := [] } } : Module) = x
  have ready : x.mgmt.capstanUp = true ∧ x.mgmt.held = [] := by
    rw [← emptied]
    exact ⟨up, rfl⟩
  obtain ⟨up', held⟩ := records_foldl x (fun m (e : Nat × List Nat) => records_eventX fu m (decide (65536 ≤ e.1)) (e.1 % 65536) e.2)
    m.mgmt.held ready.1
  exact ⟨kb_foldl _ _ (fun m e => (kb_eventX fu _ _ _ (by decide) (by decide) (by decide)).2 (keeps_refl _ m)) x, up', held.trans ready.2⟩

theorem reportSlots_leaves : KeepsBut reporting m (m.reportSlots fu) ∧ Records m (m.reportSlots fu) := by
  unfold Module.reportSlots
  refine ⟨kb_foldl _ _ (fun m i => ?_) m, records_foldl m (fun m i => ?_) _⟩
  · split
    · exact keeps_refl _ m
    · refine keeps_ite (keeps_refl _ m) ((kb_event fu _ _ (by decide) (by decide) (by decide)).2 ?_)
      exact keeps_mono (keeps_withLog m _) (by decide)
  · split
    · exact records_of_mgmt rfl
    dsimp only
    split
    · exact records_of_mgmt rfl
    · refine records_of_same m ?_ (records_event fu _ _ _)
      rfl

/-- The block of a confirmed slot raises the rollback floor, where a row is left (R538). -/
def floorRaised (fu : Fuses) (m : Module) (s : FwSlot) : Module :=
  if s.floorRaise ≤ m.fw.floor then m
  else if m.fw.floorRows.length < 32 then
    ({ m with fw := { m.fw with floorRows := m.fw.floorRows ++ [s.floorRaise] } }).event fu 0x0A07
      [m.fw.floor, s.floorRaise, 31 - m.fw.floorRows.length]
  else m.event fu 0x0A07 [m.fw.floor, m.fw.floor, 0]

/-- A start with the secondary key revokes the primary one (R538). -/
def keyRevoked (fu : Fuses) (m : Module) (r : Nat) (s : FwSlot) : Module :=
  if m.fw.keyUsed = 1 && !m.fw.revoked then
    ({ m with fw := { m.fw with revoked := true } }).event fu 0x0A08 [r, s.version]
  else m

/-- The running slot confirmed, where it was on trial. -/
def slotConfirmed (m : Module) : Module :=
  { m with fw := m.fw.onSlot m.fw.running (fun s => if s.state = 2 then { s with state := 3, trials := 0 } else s) }

theorem confirmSlot_eq : m.confirmSlot fu = keyRevoked fu (floorRaised fu (slotConfirmed m) ((slotConfirmed m).fw.slot m.fw.running)) m.fw.running
    ((slotConfirmed m).fw.slot m.fw.running) := rfl

/-- The slots and the running one are as they were, and events are recorded. -/
def SlotsKept (m n : Module) : Prop :=
  KeepsBut (.fw :: reporting) m n ∧ Records m n ∧ n.fw.running = m.fw.running ∧ n.fw.slots = m.fw.slots

theorem slotsKept_event {x : Module} (kept : SlotsKept m x) (c : Nat) (l : List Nat) : SlotsKept m (x.event fu c l) := by
  obtain ⟨keeps, records, running, slots⟩ := kept
  refine ⟨(kb_event fu _ _ (by decide) (by decide) (by decide)).2 keeps, records_trans records (records_event fu x c l), ?_, ?_⟩
  · rw [event_fw, running]
  · rw [event_fw, slots]

theorem slotsKept_refl : SlotsKept m m := ⟨keeps_refl _ m, records_of_mgmt rfl, rfl, rfl⟩

theorem slotsKept_withFw {f : Firmware} (running : f.running = m.fw.running) (slots : f.slots = m.fw.slots) :
    SlotsKept m { m with fw := f } :=
  ⟨keeps_mono (keeps_withFw m f) (by decide), records_of_mgmt rfl, running, slots⟩

theorem slotsKept_floorRaised (s : FwSlot) : SlotsKept m (floorRaised fu m s) := by
  unfold floorRaised
  split
  · exact slotsKept_refl m
  split
  · refine slotsKept_event fu m ?_ _ _
    exact slotsKept_withFw m rfl rfl
  · exact slotsKept_event fu m (slotsKept_refl m) _ _

theorem slotsKept_keyRevoked (r : Nat) (s : FwSlot) : SlotsKept m (keyRevoked fu m r s) := by
  unfold keyRevoked
  split
  · refine slotsKept_event fu m ?_ _ _
    exact slotsKept_withFw m rfl rfl
  · exact slotsKept_refl m

/-- The slots are as the confirmation leaves them. -/
theorem confirmSlot_leaves : KeepsBut (.fw :: reporting) m (m.confirmSlot fu) ∧ Records m (m.confirmSlot fu) ∧
    (m.confirmSlot fu).fw.running = m.fw.running ∧ (m.confirmSlot fu).fw.slots = (slotConfirmed m).fw.slots := by
  rw [confirmSlot_eq]
  obtain ⟨keeps, records, running, slots⟩ := slotsKept_floorRaised fu (slotConfirmed m) ((slotConfirmed m).fw.slot m.fw.running)
  generalize floorRaised fu (slotConfirmed m) _ = a at *
  obtain ⟨keeps', records', running', slots'⟩ := slotsKept_keyRevoked fu a m.fw.running ((slotConfirmed m).fw.slot m.fw.running)
  have begins : Records m (slotConfirmed m) := records_of_mgmt rfl
  exact ⟨keeps_trans (keeps_mono (keeps_withFw m _) (by decide)) (keeps_trans keeps keeps'), records_trans begins (records_trans records records'),
    running'.trans running, slots'.trans slots⟩

theorem bootReasons_leaves : KeepsBut reporting m (m.bootReasons fu) ∧ Records m (m.bootReasons fu) := by
  unfold Module.bootReasons
  dsimp only
  have worn := kb_foldl (ps := reporting) m.hbmStacks.zipIdx (fun (m : Module) t =>
    if 2 ≤ t.1.emptyBanks then m.reason fu 1 [t.2, t.1.emptyBanks] else m) (fun m t =>
      keeps_ite ((kb_reason fu _ _ (by decide) (by decide) (by decide)).2 (keeps_refl _ m)) (keeps_refl _ m)) m
  have told := records_foldl m (f := fun (m : Module) (t : Stack × Nat) => if 2 ≤ t.1.emptyBanks then m.reason fu 1 [t.2, t.1.emptyBanks] else m)
    (fun m t => records_ite m (records_reason fu m _ _) (records_of_mgmt rfl)) m.hbmStacks.zipIdx
  generalize List.foldl _ m m.hbmStacks.zipIdx = x at worn told
  have keeps : ∀ bit figures, KeepsBut reporting m (x.reason fu bit figures) := fun bit figures =>
    (kb_reason fu _ _ (by decide) (by decide) (by decide)).2 worn
  have records : ∀ bit figures, Records m (x.reason fu bit figures) := fun bit figures => records_trans told (records_reason fu x _ _)
  exact ⟨keeps_ite (keeps _ _) (keeps_ite (keeps _ _) (keeps_ite (keeps _ _) worn)),
    records_ite m (records _ _) (records_ite m (records _ _) (records_ite m (records _ _) told))⟩

end

/-! ### Capstan's start -/

/-- The management domain but for what reports write. -/
theorem mgmt_of_keeps {ps : List Part} {m n : Module} (keeps : KeepsBut ps m n) (free : .mgmt ∉ ps) :
    n.mgmt.reachable = m.mgmt.reachable ∧ n.mgmt.staged = m.mgmt.staged ∧ n.mgmt.restartCause = m.mgmt.restartCause ∧
    n.mgmt.mirror = m.mgmt.mirror := by
  have same := keeps .mgmt free
  rw [← same]
  exact ⟨rfl, rfl, rfl, rfl⟩

theorem keeps_withMgmt (m : Module) (g : Mgmt) : KeepsBut [.mgmt, .report] m { m with mgmt := g } := by
  intro part hpart
  cases part <;> simp_all [Part.same]

/-- Capstan runs: the dictionary is reachable, and nothing is staged. -/
def capstanRuns (m : Module) : Module :=
  { m with mgmt := { m.mgmt with reachable := true, capstanUp := true, staged := [], kept := [], windows := [] } }

/-- Capstan has recorded what waited, and the core groups that the fuses fence. -/
def caughtUp (fu : Fuses) (m : Module) : Module := fu.badGroups.foldl (fun (m : Module) g => m.event fu 0x0901 [g]) (m.releaseHeld fu)

theorem caughtUp_leaves (fu : Fuses) {m : Module} (up : m.mgmt.capstanUp = true) :
    KeepsBut reporting { m with mgmt := { m.mgmt with held := [] } } (caughtUp fu m) ∧ (caughtUp fu m).mgmt.capstanUp = true ∧
    (caughtUp fu m).mgmt.held = [] := by
  obtain ⟨keeps, up', held⟩ := releaseHeld_leaves fu m up
  unfold caughtUp
  generalize m.releaseHeld fu = x at *
  have told := kb_foldl (ps := reporting) fu.badGroups (fun (m : Module) g => m.event fu 0x0901 [g])
    (fun m g => (kb_event fu _ _ (by decide) (by decide) (by decide)).2 (keeps_refl _ m)) x
  obtain ⟨up'', held'⟩ := records_foldl x (fun m (g : Nat) => records_event fu m 0x0901 [g]) fu.badGroups up'
  exact ⟨keeps_trans keeps told, up'', held'.trans held⟩

theorem exec_dictionaryReachable (s : State) : exec .dictionaryReachable s = s.act (fun fu m =>
    if !m.powered || m.mgmt.reachable || m.mgmt.romService || m.mgmt.restartCause != 0 then m
    else (((caughtUp fu (capstanRuns m)).reportSlots fu).confirmSlot fu).bootReasons fu) := rfl

section
variable {s : State}

theorem goes_dictionaryReachable (powered : s.m.powered = true) (hidden : s.m.mgmt.reachable = false) (loaded : s.m.mgmt.romService = false)
    (first : s.m.mgmt.restartCause = 0) : Goes s .dictionaryReachable (fun n =>
      n.mgmt.reachable = true ∧ n.mgmt.capstanUp = true ∧ n.mgmt.staged = [] ∧ n.mgmt.held = [] ∧
      (∀ t, s.m.fw.slots[s.m.fw.running]? = some t → t.state = 2 → (n.fw.slot s.m.fw.running).state = 3) ∧
      n.fw.running = s.m.fw.running ∧ KeepsBut (.mgmt :: .fw :: reporting) s.m n) := by
  refine goes_act (exec_dictionaryReachable s) ?_
  rw [if_neg (by simp [powered, hidden, loaded, first])]
  obtain ⟨keeps₁, up₁, held₁⟩ := caughtUp_leaves s.fuse (m := capstanRuns s.m) rfl
  generalize caughtUp s.fuse (capstanRuns s.m) = a at *
  obtain ⟨keeps₂, records₂⟩ := reportSlots_leaves s.fuse a
  generalize a.reportSlots s.fuse = b at *
  obtain ⟨keeps₃, records₃, running, slots⟩ := confirmSlot_leaves s.fuse b
  generalize b.confirmSlot s.fuse = c at *
  obtain ⟨keeps₄, records₄⟩ := bootReasons_leaves s.fuse c
  generalize c.bootReasons s.fuse = n at *
  obtain ⟨up, held⟩ := records_trans records₂ (records_trans records₃ records₄) up₁
  have fw : b.fw = s.m.fw := (keeps₂ .fw (by decide)).trans (keeps₁ .fw (by decide))
  have fw' : n.fw = c.fw := keeps₄ .fw (by decide)
  have keeps : KeepsBut (.fw :: reporting) { capstanRuns s.m with mgmt := { (capstanRuns s.m).mgmt with held := [] } } n :=
    keeps_trans (keeps_mono keeps₁ (by decide)) (keeps_trans (keeps_mono keeps₂ (by decide))
      (keeps_trans keeps₃ (keeps_mono keeps₄ (by decide))))
  obtain ⟨reachable, staged, -, -⟩ := mgmt_of_keeps keeps (by decide)
  refine ⟨reachable, up, staged, held.trans held₁, fun t there trial => ?_, ?_, ?_⟩
  · have inside : s.m.fw.running < s.m.fw.slots.length := (List.getElem?_eq_some_iff.1 there).1
    have valid : (b.fw.onSlot b.fw.running (fun s => if s.state = 2 then { s with state := 3, trials := 0 } else s)).slot s.m.fw.running =
        { t with state := 3, trials := 0 } := by
      rw [fw, Firmware.slot, Firmware.onSlot, modifyAt_getD, if_pos ⟨rfl, inside⟩, List.getD_eq_getElem?_getD, there]
      exact if_pos trial
    rw [fw', Firmware.slot, slots]
    exact congrArg FwSlot.state valid
  · rw [fw', running, fw]
  · exact keeps_trans (keeps_mono (keeps_withMgmt s.m _) (by decide)) (keeps_mono keeps (by decide))

/-! ### Restarts -/

/-- Capstan is away, and the area holds a snapshot of cause 2. -/
def Restarted (cause : Nat) (m n : Module) : Prop :=
  n.mgmt.capstanUp = false ∧ n.mgmt.reachable = false ∧ n.mgmt.restartCause = cause ∧
  (m.log.nextSlot < m.log.slots.length →
    ∃ r, n.log.slots[m.log.nextSlot]? = some (some r) ∧ r.cause = 2 ∧ r.code = 0x0A06) ∧
  KeepsBut [.mgmt, .log, .freeNo] m n

theorem restarted_restartCapstan {m : Module} (up : m.mgmt.capstanUp = true) (cause : Nat) : Restarted cause m (m.restartCapstan cause) := by
  unfold Module.restartCapstan
  rw [if_neg (by simp [up])]
  have keeps := keeps_snapshotTo m 2 0x0A06 true
  have slot := slot_snapshotTo m 2 0x0A06 true
  generalize m.snapshotTo 2 0x0A06 true = x at keeps slot
  dsimp only
  refine ⟨rfl, rfl, rfl, fun free => ⟨snapSlot m 2 0x0A06 true, slot free, rfl, rfl⟩, keeps_trans (keeps_mono keeps (by decide)) ?_⟩
  intro part hpart
  cases part <;> simp_all [Part.same]

theorem goes_restarts (powered : s.m.powered = true) (up : s.m.mgmt.capstanUp = true) :
    ∀ c ∈ [(1, Instr.capstanRestart), (2, Instr.watchdogExpiry)], Goes s c.2 (Restarted c.1 s.m) := by
  intro c hc
  rcases List.mem_cons.1 hc with rfl | hc
  · exact goes_actOn rfl rfl powered (restarted_restartCapstan up 1)
  · obtain rfl := List.mem_singleton.1 hc
    exact goes_actOn rfl rfl powered (restarted_restartCapstan up 2)

/-- Capstan is back: nothing is staged, and the mirror holds the fence registers. -/
def isBack (m : Module) : Module :=
  { m with mgmt := { m.mgmt with capstanUp := true, reachable := true, restartCause := 0, staged := [], mirror := m.fenceWord } }

/-- The registers of the snapshot before the next slot. -/
def lastRegs (m : Module) : List Nat :=
  match m.log.slots.getD ((m.log.nextSlot + 6) % 7) none with
  | some r => r.regs.take 21
  | none => []

theorem exec_capstanBack (ms : Nat) : exec (.capstanBack ms) s = s.actOn true (fun fu m =>
    if m.mgmt.capstanUp || m.mgmt.restartCause = 0 then m
    else (((((isBack m).releaseHeld fu).event fu 0x0A06 ([m.mgmt.restartCause, ms] ++ lastRegs m)).reportSlots fu).settle fu)) := rfl

theorem goes_capstanBack (ms : Nat) (powered : s.m.powered = true) (away : s.m.mgmt.capstanUp = false) (restarted : s.m.mgmt.restartCause ≠ 0) :
    Goes s (.capstanBack ms) (fun n => ∃ z, n = z.settle s.fuse ∧ z.mgmt.capstanUp = true ∧ z.mgmt.reachable = true ∧ z.mgmt.staged = [] ∧
      z.mgmt.held = [] ∧ z.mgmt.restartCause = 0 ∧ z.mgmt.mirror = s.m.fenceWord ∧ KeepsBut (.mgmt :: reporting) s.m z) := by
  refine goes_actOn (exec_capstanBack ms) rfl powered ?_
  rw [if_neg (by simp [away, restarted])]
  obtain ⟨keeps₁, up₁, held₁⟩ := releaseHeld_leaves s.fuse (isBack s.m) rfl
  generalize (isBack s.m).releaseHeld s.fuse = a at *
  have keeps₂ := (kb_event (ps := reporting) s.fuse 0x0A06 ([s.m.mgmt.restartCause, ms] ++ lastRegs s.m) (by decide) (by decide)
    (by decide)).2 (keeps_refl _ a)
  have records₂ := records_event s.fuse a 0x0A06 ([s.m.mgmt.restartCause, ms] ++ lastRegs s.m)
  generalize a.event s.fuse 0x0A06 _ = b at *
  obtain ⟨keeps₃, records₃⟩ := reportSlots_leaves s.fuse b
  refine ⟨b.reportSlots s.fuse, rfl, ?_⟩
  generalize b.reportSlots s.fuse = z at *
  obtain ⟨up, held⟩ := records_trans records₂ records₃ up₁
  have keeps := keeps_trans keeps₁ (keeps_trans keeps₂ keeps₃)
  obtain ⟨reachable, staged, cause, mirror⟩ := mgmt_of_keeps keeps (by decide)
  exact ⟨up, reachable, staged, held.trans held₁, cause, mirror,
    keeps_trans (keeps_mono (keeps_withMgmt s.m _) (by decide)) (keeps_mono keeps (by decide))⟩

end

/-- Settles O57: the starts and the stops one by one, each block at its default after those that leave none on. -/
theorem powerStartsAndStopsTheModule : Obligations.PowerStartsAndStopsTheModule := by
  intro s
  exact ⟨fun mv off enough => goes_powerApply off enough,
    fun masterSel node ref finds charged => goes_pwrgdAssert masterSel node ref finds charged,
    fun powered hidden loaded first => goes_dictionaryReachable powered hidden loaded first,
    fun on => goes_powerLoss on, fun held => goes_holdupEnd held, fun powered free => goes_mrstNAssert powered free,
    fun finds powered grace => goes_mrstGraceEnd finds powered grace, fun finds low => goes_mrstNRelease finds low,
    fun d c hd powered on hot => goes_thermalTrip hd powered on hot, fun powered up => goes_restarts powered up,
    fun ms powered away restarted => goes_capstanBack ms powered away restarted⟩

end Sys2Proof.Proofs
end
